-- ==== Sys2Proof/Word.lean ====
section
/-!
DEFINITION. The word types of the Thiley architecture (00 R5, 03 R57) and the plain-data map used for
register files and memories.
-/

namespace Sys2Proof

/-- A byte of memory (R5). -/
abbrev Byte := BitVec 8

/-- A 32-bit register or instruction word (R57, R141). -/
abbrev Word := BitVec 32

/-- A 64-bit pair of registers, or a cursor (R57, R81). -/
abbrev DWord := BitVec 64

/-- A capability without its tag (R81). -/
abbrev CapBits := BitVec 128

/-- Sparse data by key: pairs in strictly rising key order, no entry equal to the default of the store it
stands for. The operations that keep this form are in `Sys2Proof.Machine.Sparse`. -/
abbrev Sparse (α : Type) := List (Nat × α)

end Sys2Proof
end

