-- ==== Sys2Proof/Syntax/Fields.lean ====
section
/-!
DEFINITION. The fields of instructions that are more than a register number: types, rounding, ordering,
scope and path codes, source operands, destinations (07 R144, R154 to R162). Each has its code of the spec
(`code`) and the reading of a code (`ofCode`), which refuses every code the spec does not list.
-/

namespace Sys2Proof

/-- Type codes of R158, in the order of their codes 0 to 13. -/
inductive Ty
  | i8 | i16 | i32 | i64 | n8 | n16 | n32 | n64 | f16 | bf16 | f32 | f64 | fp8e4 | fp8e5
  deriving DecidableEq, Repr

/-- Rounding modes of R109: nearest even, toward zero, up, down. -/
inductive Rnd
  | rne | rz | ru | rd
  deriving DecidableEq, Repr

/-- Ordering codes of R144. -/
inductive Ord
  | rlx | acq | rel | ar
  deriving DecidableEq, Repr

/-- Scope codes of R144. -/
inductive Scope
  | grp | core | team | die | dev | sys
  deriving DecidableEq, Repr

/-- Path codes of R144. -/
inductive Path
  | scalar | lane | copy | matrix | coll
  deriving DecidableEq, Repr

/-- Conditions of `bc.cond` (R147). -/
inductive Cond
  | eq | ne | lt | ge | gt | le | al
  deriving DecidableEq, Repr

/-- Kinds of `tlbi` (R151). -/
inductive TlbKind
  | page | space | all
  deriving DecidableEq, Repr

/-- Modes of `shfl` (R160). -/
inductive ShflMode
  | idx | rotl | rotr | xor
  deriving DecidableEq, Repr

/-- Modes of `vote` (R160). -/
inductive VoteMode
  | all | any | same | cnt
  deriving DecidableEq, Repr

/-- Operations of `lred` and `lscan` (R160). -/
inductive RedOp
  | add | min | max | and | or | xor
  deriving DecidableEq, Repr

/-- Comparisons of `pset` (R160). -/
inductive CmpOp
  | eq | ne | lt | le | gt | ge | un
  deriving DecidableEq, Repr

/-- Operations of `atom` and `atoms` (R160). -/
inductive AtomOp
  | add | and | or | xor | min | max | swap | cas
  deriving DecidableEq, Repr

/-- The sx formats (R112, R158). -/
inductive Sxf
  | sx2 | sx4 | sx7
  deriving DecidableEq, Repr

/-- Matrix formats (R158), in the order of their codes 0 to 6. -/
inductive MFmt
  | bf16 | f16 | fp8e4 | fp8e5 | sx7 | sx4 | sx2
  deriving DecidableEq, Repr

/-- A source field of a lane instruction (R155). -/
inductive Src
  | vreg (n : Nat)
  | sreg (n : Nat)
  | latch (n : Nat)
  | pred (n : Nat)
  | imm (v : Int)
  | special (code : Nat)
  deriving DecidableEq, Repr

/-- A capability operand of a lane instruction: a vector view, one capability a lane, or a scalar view,
broadcast (R161). -/
inductive CapSrc
  | vc (n : Nat)
  | c (n : Nat)
  deriving DecidableEq, Repr

/-- A vector destination: a register, or suppressed write-back `_` (R73, R154). -/
inductive Dst
  | reg (n : Nat)
  | none
  deriving DecidableEq, Repr

/-- The two forms of `pmov` (R208): a predicate set from a value, or a vector register set from a predicate. -/
inductive PmovForm
  | toPred (p : Nat) (a : Src)
  | toVec (d : Dst) (p : Nat)
  deriving DecidableEq, Repr

/-- The A operand of `mmac` and `mdist` (R255 to R257): registers from `a`, with the scale base `sc` and the
byte select of the sx formats, or the latch. -/
inductive AOperand
  | regs (a sc bsel : Nat)
  | alat
  deriving DecidableEq, Repr

/-- The fields every lane instruction carries: pairing bit, guard negation, guard predicate (R154). -/
structure LaneHdr where
  pr : Bool
  gn : Bool
  gp : Nat
  deriving DecidableEq, Repr

/-- A request that arrives from another package over a Norfer link (25 R434): the requesting package, the
export entry it names, the offset, the size in bytes, whether it writes, the generation it carries, the
permission bits it was granted, and the data of a write. -/
structure PeerRequest where
  pkg : Nat
  entry : Nat
  offset : Nat
  size : Nat
  write : Bool
  gen : Nat
  perms : Nat
  data : Nat
  deriving DecidableEq, Repr

/-- Why a word is no instruction (R142 steps 1 and 2: both trap 0x01). -/
inductive DecodeErr
  /-- The opcode cell or its function field selects no assigned entry. -/
  | unassigned
  /-- A field holds a value the instruction does not take. -/
  | illegalField
  deriving DecidableEq, Repr

def Ty.code : Ty → Nat
  | .i8 => 0 | .i16 => 1 | .i32 => 2 | .i64 => 3 | .n8 => 4 | .n16 => 5 | .n32 => 6 | .n64 => 7
  | .f16 => 8 | .bf16 => 9 | .f32 => 10 | .f64 => 11 | .fp8e4 => 12 | .fp8e5 => 13

def Ty.ofCode : Nat → Option Ty
  | 0 => some .i8 | 1 => some .i16 | 2 => some .i32 | 3 => some .i64 | 4 => some .n8 | 5 => some .n16
  | 6 => some .n32 | 7 => some .n64 | 8 => some .f16 | 9 => some .bf16 | 10 => some .f32 | 11 => some .f64
  | 12 => some .fp8e4 | 13 => some .fp8e5 | _ => none

def Rnd.code : Rnd → Nat
  | .rne => 0 | .rz => 1 | .ru => 2 | .rd => 3

def Rnd.ofCode : Nat → Option Rnd
  | 0 => some .rne | 1 => some .rz | 2 => some .ru | 3 => some .rd | _ => none

def Ord.code : Ord → Nat
  | .rlx => 0 | .acq => 1 | .rel => 2 | .ar => 3

def Ord.ofCode : Nat → Option Ord
  | 0 => some .rlx | 1 => some .acq | 2 => some .rel | 3 => some .ar | _ => none

def Scope.code : Scope → Nat
  | .grp => 0 | .core => 1 | .team => 2 | .die => 3 | .dev => 4 | .sys => 5

def Scope.ofCode : Nat → Option Scope
  | 0 => some .grp | 1 => some .core | 2 => some .team | 3 => some .die | 4 => some .dev | 5 => some .sys
  | _ => none

def Path.code : Path → Nat
  | .scalar => 0 | .lane => 1 | .copy => 2 | .matrix => 3 | .coll => 4

def Path.ofCode : Nat → Option Path
  | 0 => some .scalar | 1 => some .lane | 2 => some .copy | 3 => some .matrix | 4 => some .coll | _ => none

def Cond.code : Cond → Nat
  | .eq => 0 | .ne => 1 | .lt => 2 | .ge => 3 | .gt => 4 | .le => 5 | .al => 6

def Cond.ofCode : Nat → Option Cond
  | 0 => some .eq | 1 => some .ne | 2 => some .lt | 3 => some .ge | 4 => some .gt | 5 => some .le
  | 6 => some .al | _ => none

def TlbKind.code : TlbKind → Nat
  | .page => 0 | .space => 1 | .all => 2

def TlbKind.ofCode : Nat → Option TlbKind
  | 0 => some .page | 1 => some .space | 2 => some .all | _ => none

def ShflMode.code : ShflMode → Nat
  | .idx => 0 | .rotl => 1 | .rotr => 2 | .xor => 3

def ShflMode.ofCode : Nat → Option ShflMode
  | 0 => some .idx | 1 => some .rotl | 2 => some .rotr | 3 => some .xor | _ => none

def VoteMode.code : VoteMode → Nat
  | .all => 0 | .any => 1 | .same => 2 | .cnt => 3

def VoteMode.ofCode : Nat → Option VoteMode
  | 0 => some .all | 1 => some .any | 2 => some .same | 3 => some .cnt | _ => none

def RedOp.code : RedOp → Nat
  | .add => 0 | .min => 1 | .max => 2 | .and => 3 | .or => 4 | .xor => 5

def RedOp.ofCode : Nat → Option RedOp
  | 0 => some .add | 1 => some .min | 2 => some .max | 3 => some .and | 4 => some .or | 5 => some .xor
  | _ => none

def CmpOp.code : CmpOp → Nat
  | .eq => 0 | .ne => 1 | .lt => 2 | .le => 3 | .gt => 4 | .ge => 5 | .un => 6

def CmpOp.ofCode : Nat → Option CmpOp
  | 0 => some .eq | 1 => some .ne | 2 => some .lt | 3 => some .le | 4 => some .gt | 5 => some .ge
  | 6 => some .un | _ => none

def AtomOp.code : AtomOp → Nat
  | .add => 0 | .and => 1 | .or => 2 | .xor => 3 | .min => 4 | .max => 5 | .swap => 6 | .cas => 7

def AtomOp.ofCode : Nat → Option AtomOp
  | 0 => some .add | 1 => some .and | 2 => some .or | 3 => some .xor | 4 => some .min | 5 => some .max
  | 6 => some .swap | 7 => some .cas | _ => none

def Sxf.code : Sxf → Nat
  | .sx2 => 1 | .sx4 => 2 | .sx7 => 3

def Sxf.ofCode : Nat → Option Sxf
  | 1 => some .sx2 | 2 => some .sx4 | 3 => some .sx7 | _ => none

def MFmt.code : MFmt → Nat
  | .bf16 => 0 | .f16 => 1 | .fp8e4 => 2 | .fp8e5 => 3 | .sx7 => 4 | .sx4 => 5 | .sx2 => 6

def MFmt.ofCode : Nat → Option MFmt
  | 0 => some .bf16 | 1 => some .f16 | 2 => some .fp8e4 | 3 => some .fp8e5 | 4 => some .sx7 | 5 => some .sx4
  | 6 => some .sx2 | _ => none

/-- Integer types, codes 0 to 7 (R158). -/
def Ty.isInt : Ty → Bool
  | .i8 | .i16 | .i32 | .i64 | .n8 | .n16 | .n32 | .n64 => true
  | _ => false

/-- Signed integer types, codes 0 to 3 (R196). -/
def Ty.isSigned : Ty → Bool
  | .i8 | .i16 | .i32 | .i64 => true
  | _ => false

/-- Width of a type in bits (R105, R107). -/
def Ty.bits : Ty → Nat
  | .i8 | .n8 | .fp8e4 | .fp8e5 => 8
  | .i16 | .n16 | .f16 | .bf16 => 16
  | .i32 | .n32 | .f32 => 32
  | .i64 | .n64 | .f64 => 64

/-- The types that take an even/odd register pair (R59, R107). -/
def Ty.isPair : Ty → Bool
  | .i64 | .n64 | .f64 => true
  | _ => false

end Sys2Proof
end

