-- ==== Sys2Proof/Syntax.lean ====
section
/-!
DEFINITION. The instructions of the Thiley architecture and the steps the device takes by itself: one
constructor for each row of spec/opcode_table.json, in the table's order. Register numbers, counts and event
parameters are natural numbers whose ranges `Sys2Proof.Instr.wf` checks (R143); signed immediates are integers.
-/

namespace Sys2Proof

inductive Instr
  -- the scalar stream: 32-bit words (R145 to R153)
  /-- ADD (R165): Scalar 32-bit add of two registers. -/
  | add (d a b : Nat)
  /-- SUB (R165): Scalar 32-bit subtract. -/
  | sub (d a b : Nat)
  /-- AND (R165): Scalar bitwise AND. -/
  | and (d a b : Nat)
  /-- OR (R165): Scalar bitwise OR. -/
  | or (d a b : Nat)
  /-- XOR (R165): Scalar bitwise XOR. -/
  | xor (d a b : Nat)
  /-- ANDN (R165): Scalar AND with the complement of sB. -/
  | andn (d a b : Nat)
  /-- SHL (R165): Scalar logical shift left by sB[4:0]. -/
  | shl (d a b : Nat)
  /-- SHR (R165): Scalar logical shift right by sB[4:0]. -/
  | shr (d a b : Nat)
  /-- SRA (R165): Scalar arithmetic shift right. -/
  | sra (d a b : Nat)
  /-- ROL (R165): Scalar rotate left. -/
  | rol (d a b : Nat)
  /-- SLT (R165): Scalar set on signed less-than. -/
  | slt (d a b : Nat)
  /-- SLTU (R165): Scalar set on unsigned less-than. -/
  | sltu (d a b : Nat)
  /-- MIN (R165): Scalar signed minimum. -/
  | min (d a b : Nat)
  /-- MAX (R165): Scalar signed maximum. -/
  | max (d a b : Nat)
  /-- MINU (R165): Scalar unsigned minimum. -/
  | minu (d a b : Nat)
  /-- MAXU (R165): Scalar unsigned maximum. -/
  | maxu (d a b : Nat)
  /-- MUL (R165): Scalar multiply, low 32 bits, latency 3. -/
  | mul (d a b : Nat)
  /-- MULH (R165): Scalar signed multiply, high 32 bits. -/
  | mulh (d a b : Nat)
  /-- MULHU (R165): Scalar unsigned multiply, high 32 bits. -/
  | mulhu (d a b : Nat)
  /-- DIV (R166): Scalar signed divide toward zero, latency 20, never traps. -/
  | div (d a b : Nat)
  /-- DIVU (R166): Scalar unsigned divide. -/
  | divu (d a b : Nat)
  /-- REM (R166): Scalar signed remainder. -/
  | rem (d a b : Nat)
  /-- REMU (R166): Scalar unsigned remainder. -/
  | remu (d a b : Nat)
  /-- ADD_I64 (R167): Scalar 64-bit pair add. -/
  | addI64 (d a b : Nat)
  /-- SUB_I64 (R167): Scalar 64-bit pair subtract. -/
  | subI64 (d a b : Nat)
  /-- SHL_I64 (R167): Scalar 64-bit shift left. -/
  | shlI64 (d a b : Nat)
  /-- SHR_I64 (R167): Scalar 64-bit logical shift right. -/
  | shrI64 (d a b : Nat)
  /-- SRA_I64 (R167): Scalar 64-bit arithmetic shift right. -/
  | sraI64 (d a b : Nat)
  /-- MUL_I64 (R167): Scalar 64-bit multiply, latency 3. -/
  | mulI64 (d a b : Nat)
  /-- SLT_I64 (R167): Scalar 64-bit signed set-less-than. -/
  | sltI64 (d a b : Nat)
  /-- SLTU_I64 (R167): Scalar 64-bit unsigned set-less-than. -/
  | sltuI64 (d a b : Nat)
  /-- POPC (R170): Scalar population count. -/
  | popc (d a : Nat)
  /-- CLZ (R170): Scalar count leading zeros. -/
  | clz (d a : Nat)
  /-- CTZ (R170): Scalar count trailing zeros. -/
  | ctz (d a : Nat)
  /-- BREV (R170): Scalar bit reverse. -/
  | brev (d a : Nat)
  /-- BFE (R170): Scalar signed bit-field extract. -/
  | bfe (d a b : Nat)
  /-- BFEU (R170): Scalar unsigned bit-field extract. -/
  | bfeu (d a b : Nat)
  /-- BFI (R170): Scalar bit-field insert into sD. -/
  | bfi (d a b : Nat)
  /-- ADDI (R168): Scalar add of a signed 10-bit immediate. -/
  | addi (d a : Nat) (imm : Int)
  /-- ANDI (R168): Scalar AND with immediate. -/
  | andi (d a : Nat) (imm : Int)
  /-- ORI (R168): Scalar OR with immediate. -/
  | ori (d a : Nat) (imm : Int)
  /-- XORI (R168): Scalar XOR with immediate. -/
  | xori (d a : Nat) (imm : Int)
  /-- SLTI (R168): Scalar signed compare with immediate. -/
  | slti (d a : Nat) (imm : Int)
  /-- SLTUI (R168): Scalar unsigned compare with immediate. -/
  | sltui (d a : Nat) (imm : Int)
  /-- SHLI (R168): Scalar shift left by immediate. -/
  | shli (d a sh : Nat)
  /-- SHRI (R168): Scalar logical shift right by immediate. -/
  | shri (d a sh : Nat)
  /-- SRAI (R168): Scalar arithmetic shift right by immediate. -/
  | srai (d a sh : Nat)
  /-- ROLI (R168): Scalar rotate left by immediate. -/
  | roli (d a sh : Nat)
  /-- MULI (R168): Scalar multiply by immediate, latency 3. -/
  | muli (d a : Nat) (imm : Int)
  /-- LI (R169): Load a sign-extended 18-bit immediate. -/
  | li (d : Nat) (imm : Int)
  /-- LIH (R169): Load the high 18 bits, keeping sD[13:0]. -/
  | lih (d imm : Nat)
  /-- BC_COND (R171): Conditional branch on sA compared with zero. -/
  | bcCond (c : Cond) (a : Nat) (off : Int)
  /-- JAL (R171): Jump and link, writing a sentry return capability to c1. -/
  | jal (off : Int)
  /-- LAND (R152): Landing marker; in line it advances the PC past its bitmap words. -/
  | land (nw : Nat)
  /-- CMOV (R174): Copy a capability with its tag. -/
  | cmov (p q : Nat)
  /-- CGETADDR (R174): Read a capability cursor into a pair. -/
  | cgetaddr (w p : Nat)
  /-- CGETBASE (R174): Read the decoded base. -/
  | cgetbase (w p : Nat)
  /-- CGETTOP (R174): Read the decoded top. -/
  | cgettop (w p : Nat)
  /-- CGETLEN (R174): Read the length. -/
  | cgetlen (w p : Nat)
  /-- CGETPERM (R174): Read the permission bits. -/
  | cgetperm (w p : Nat)
  /-- CGETSEAL (R174): Read the seal type. -/
  | cgetseal (w p : Nat)
  /-- CGETOWNER (R174): Read the owner domain. -/
  | cgetowner (w p : Nat)
  /-- CGETTAG (R174): Read the tag. -/
  | cgettag (w p : Nat)
  /-- CSETADDR (R174): Set the cursor, re-decoding bounds. -/
  | csetaddr (w p q : Nat)
  /-- CINC (R174): Increment the cursor by a register pair. -/
  | cinc (w p q : Nat)
  /-- CSETBND (R86): Set bounds, rounding form. -/
  | csetbnd (w p q : Nat)
  /-- CSETBNDX (R86): Set bounds, exact form. -/
  | csetbndx (w p q : Nat)
  /-- CNARROW (R174): Clear permissions by mask. -/
  | cnarrow (w p q : Nat)
  /-- CWRAP (R96): Seal a capability with an authority. -/
  | cwrap (w p q : Nat)
  /-- CUNWRAP (R96): Unseal a capability with an authority. -/
  | cunwrap (w p q : Nat)
  /-- CWITHIN (R91): Test containment of one capability in another. -/
  | cwithin (w p q : Nat)
  /-- CJ (R172): Capability jump. -/
  | cj (p : Nat)
  /-- CJAL (R172): Capability jump and link to c1. -/
  | cjal (p : Nat)
  /-- CINCI (R174): Increment the cursor by an immediate. -/
  | cinci (d a : Nat) (imm : Int)
  /-- LD_I8 (R175): Scalar relaxed signed byte load. -/
  | ldI8 (d a : Nat) (tk : Option Nat) (off : Nat)
  /-- LD_N8 (R175): Scalar relaxed unsigned byte load. -/
  | ldN8 (d a : Nat) (tk : Option Nat) (off : Nat)
  /-- LD_I16 (R175): Scalar relaxed signed half load. -/
  | ldI16 (d a : Nat) (tk : Option Nat) (off : Nat)
  /-- LD_N16 (R175): Scalar relaxed unsigned half load. -/
  | ldN16 (d a : Nat) (tk : Option Nat) (off : Nat)
  /-- LD_N32 (R175): Scalar relaxed word load. -/
  | ldN32 (d a : Nat) (tk : Option Nat) (off : Nat)
  /-- LD_N64 (R175): Scalar relaxed doubleword load into a pair. -/
  | ldN64 (d a : Nat) (tk : Option Nat) (off : Nat)
  /-- ST_N8 (R175): Scalar relaxed byte store. -/
  | stN8 (d a : Nat) (tk : Option Nat) (off : Nat)
  /-- ST_N16 (R175): Scalar relaxed half store. -/
  | stN16 (d a : Nat) (tk : Option Nat) (off : Nat)
  /-- ST_N32 (R175): Scalar relaxed word store. -/
  | stN32 (d a : Nat) (tk : Option Nat) (off : Nat)
  /-- ST_N64 (R175): Scalar relaxed doubleword store. -/
  | stN64 (d a : Nat) (tk : Option Nat) (off : Nat)
  /-- LDC (R89): Scalar capability load with tag. -/
  | ldc (d a : Nat) (tk : Option Nat) (off : Nat)
  /-- STC (R88): Scalar capability store with tag. -/
  | stc (d a : Nat) (tk : Option Nat) (off : Nat)
  /-- LDX_N8 (R149): Ordered scalar byte load with explicit ORD and scope. -/
  | ldxN8 (d a : Nat) (tk : Option Nat) (ord : Ord) (scope : Scope)
  /-- LDX_N16 (R149): Ordered scalar half load. -/
  | ldxN16 (d a : Nat) (tk : Option Nat) (ord : Ord) (scope : Scope)
  /-- LDX_N32 (R149): Ordered scalar word load. -/
  | ldxN32 (d a : Nat) (tk : Option Nat) (ord : Ord) (scope : Scope)
  /-- LDX_N64 (R149): Ordered scalar doubleword load. -/
  | ldxN64 (d a : Nat) (tk : Option Nat) (ord : Ord) (scope : Scope)
  /-- STX_N8 (R149): Ordered scalar byte store. -/
  | stxN8 (d a : Nat) (tk : Option Nat) (ord : Ord) (scope : Scope)
  /-- STX_N16 (R149): Ordered scalar half store. -/
  | stxN16 (d a : Nat) (tk : Option Nat) (ord : Ord) (scope : Scope)
  /-- STX_N32 (R149): Ordered scalar word store. -/
  | stxN32 (d a : Nat) (tk : Option Nat) (ord : Ord) (scope : Scope)
  /-- STX_N64 (R149): Ordered scalar doubleword store. -/
  | stxN64 (d a : Nat) (tk : Option Nat) (ord : Ord) (scope : Scope)
  /-- LDCX (R149): Ordered scalar capability load. -/
  | ldcx (d a : Nat) (tk : Option Nat) (ord : Ord) (scope : Scope)
  /-- STCX (R149): Ordered scalar capability store. -/
  | stcx (d a : Nat) (tk : Option Nat) (ord : Ord) (scope : Scope)
  /-- AMO_ADD_N32 (R177): Atomic 32-bit add returning the old value. -/
  | amoAddN32 (d a : Nat) (tk : Option Nat) (ord : Ord) (scope : Scope)
  /-- AMO_AND_N32 (R177): Atomic 32-bit AND. -/
  | amoAndN32 (d a : Nat) (tk : Option Nat) (ord : Ord) (scope : Scope)
  /-- AMO_OR_N32 (R177): Atomic 32-bit OR. -/
  | amoOrN32 (d a : Nat) (tk : Option Nat) (ord : Ord) (scope : Scope)
  /-- AMO_XOR_N32 (R177): Atomic 32-bit XOR. -/
  | amoXorN32 (d a : Nat) (tk : Option Nat) (ord : Ord) (scope : Scope)
  /-- AMO_MIN_I32 (R177): Atomic signed minimum. -/
  | amoMinI32 (d a : Nat) (tk : Option Nat) (ord : Ord) (scope : Scope)
  /-- AMO_MAX_I32 (R177): Atomic signed maximum. -/
  | amoMaxI32 (d a : Nat) (tk : Option Nat) (ord : Ord) (scope : Scope)
  /-- AMO_MIN_N32 (R177): Atomic unsigned minimum. -/
  | amoMinN32 (d a : Nat) (tk : Option Nat) (ord : Ord) (scope : Scope)
  /-- AMO_MAX_N32 (R177): Atomic unsigned maximum. -/
  | amoMaxN32 (d a : Nat) (tk : Option Nat) (ord : Ord) (scope : Scope)
  /-- AMO_SWAP_N32 (R177): Atomic 32-bit swap. -/
  | amoSwapN32 (d a : Nat) (tk : Option Nat) (ord : Ord) (scope : Scope)
  /-- AMO_CAS_N32 (R177): Atomic 32-bit compare and swap. -/
  | amoCasN32 (d a : Nat) (tk : Option Nat) (ord : Ord) (scope : Scope)
  /-- AMO_SWAP_N64 (R177): Atomic 64-bit swap. -/
  | amoSwapN64 (d a : Nat) (tk : Option Nat) (ord : Ord) (scope : Scope)
  /-- AMO_CAS_N64 (R177): Atomic 64-bit compare and swap. -/
  | amoCasN64 (d a : Nat) (tk : Option Nat) (ord : Ord) (scope : Scope)
  /-- AMO_ADD_N64 (R177): Atomic 64-bit add. -/
  | amoAddN64 (d a : Nat) (tk : Option Nat) (ord : Ord) (scope : Scope)
  /-- FENCE (R178): Scalar-path fence at a scope. -/
  | fence (ord : Ord) (scope : Scope)
  /-- LRUN (R179): Enqueue a lane block on the lane queue. -/
  | lrun (tk : Option Nat) (a count : Nat) (off : Int)
  /-- EMR (R180): Read em. -/
  | emr (d : Nat)
  /-- EMW (R180): Write em as sA AND lm. -/
  | emw (a : Nat)
  /-- LMR (R180): Read lm. -/
  | lmr (d : Nat)
  /-- BAR (R181): Arrive at a barrier object and wait for the phase. -/
  | bar (obj : Nat) (flush : Bool)
  /-- BAR_ARRIVE (R181): Arrive at a barrier object without waiting. -/
  | barArrive (obj : Nat) (flush : Bool)
  /-- BAR_WAIT (R181): Wait for the phase of the latest arrival. -/
  | barWait (obj : Nat)
  /-- WTOK (R182): Wait until a token reaches an immediate threshold. -/
  | wtok (tk thr : Nat)
  /-- WTOK_REG (R182): Wait until a token reaches the threshold in sB. -/
  | wtokReg (tk b : Nat)
  /-- TKR (R182): Read a token count. -/
  | tkr (tk d : Nat)
  /-- PAUSE (R182): Drop to the lowest issue priority of the class for n clk. -/
  | pause (n : Nat)
  /-- DLY (R182): Delay the next scalar instruction by n clk. -/
  | dly (n : Nat)
  /-- YLD (R183): Drain the lane queue and yield until a token threshold. -/
  | yld (tk r : Nat) (off : Int)
  /-- QPUSH_QCOPY (R265): Check and queue a copy command. -/
  | qpushQcopy (r : Nat)
  /-- QPUSH_QCOLL (R265): Check and queue a collective command. -/
  | qpushQcoll (r : Nat)
  /-- QPOP_QMAT (R184): Pop the head qmat entry and read its k. -/
  | qpopQmat (r : Nat)
  /-- MSEND (R102): Send a message to an endpoint without waiting. -/
  | msend (a : Nat) (tk : Option Nat)
  /-- MRECV (R103): Receive the oldest message or wait as a receiver. -/
  | mrecv (a : Nat) (tk : Option Nat)
  /-- MCALL (R102): Send a message and wait for its reply. -/
  | mcall (a : Nat) (tk : Option Nat)
  /-- MREPLY (R103): Reply to the caller held in the reply slot. -/
  | mreply (tk : Option Nat)
  /-- GLAUNCH (R186): Submit a grid launch to the launch scheduler. -/
  | glaunch (d a b : Nat) (tk : Option Nat)
  /-- GSUB (R401): Submit a graph for hardware walking. -/
  | gsub (d a : Nat) (tk : Option Nat)
  /-- WSET (R334): Write one word of a watch-table entry. -/
  | wset (t r : Nat) (tk : Option Nat)
  /-- WGET (R334): Read one word of a watch-table entry. -/
  | wget (t r : Nat) (tk : Option Nat)
  /-- NOP (R188): No operation. -/
  | nop
  /-- GEND (R52): Drain and end the group, freeing its slot and lines. -/
  | gend
  /-- BRK (R188): Trap 0x30 with a code. -/
  | brk (code : Nat)
  /-- RDTIME (R188): Read local device time into a pair. -/
  | rdtime (d : Nat)
  /-- RDID (R188): Read an identity value by selector. -/
  | rdid (d sel : Nat)
  /-- PGREQ (R189): Ask that a page be made resident without a trap. -/
  | pgreq (a : Nat) (tk : Option Nat)
  /-- FSRR (R188): Read fsr. -/
  | fsrr (d : Nat)
  /-- FSRW (R188): Clear fsr flags named in sD. -/
  | fsrw (d : Nat)
  /-- MXCR (R188): Read mxc. -/
  | mxcr (d : Nat)
  /-- MXCW (R188): Write mxc counters. -/
  | mxcw (d : Nat)
  /-- ERET (R361): Return from a trap handler. -/
  | eret
  /-- CTLR (R362): Read a control register. -/
  | ctlr (d n : Nat)
  /-- CTLW (R362): Write a control register, including kill and xlpc. -/
  | ctlw (d n : Nat)
  /-- TLBI (R363): Invalidate cached translations by page, space or all. -/
  | tlbi (a b : Nat) (kind : TlbKind)
  /-- SWP (R427): Start or join a sweep pass and return its number. -/
  | swp (d : Nat)
  /-- KEYK (R439): Retire a key id on every controller. -/
  | keyk (d : Nat)
  /-- SEALCTX (R365): Set the OWNER of a capability. -/
  | sealctx (d a b : Nat)
  /-- WFI (R366): Stall a system core until ipend is non-zero. -/
  | wfi
  /-- XSTEP (R366): Arm single step for the next eret. -/
  | xstep
  -- the lane stream: 96-bit words (R154 to R162)
  /-- IADD (R196): Lane integer add. -/
  | iadd (h : LaneHdr) (d : Dst) (ty : Ty) (sat : Bool) (a b : Src)
  /-- ISUB (R196): Lane integer subtract. -/
  | isub (h : LaneHdr) (d : Dst) (ty : Ty) (sat : Bool) (a b : Src)
  /-- IMUL (R196): Lane integer multiply. -/
  | imul (h : LaneHdr) (d : Dst) (ty : Ty) (sat : Bool) (a b : Src)
  /-- IMULHI (R196): Lane high half of product. -/
  | imulhi (h : LaneHdr) (d : Dst) (ty : Ty) (a b : Src)
  /-- IMAD (R196): Lane multiply-add. -/
  | imad (h : LaneHdr) (d : Dst) (ty : Ty) (sat : Bool) (a b c : Src)
  /-- IMIN (R196): Lane integer minimum. -/
  | imin (h : LaneHdr) (d : Dst) (ty : Ty) (a b : Src)
  /-- IMAX (R196): Lane integer maximum. -/
  | imax (h : LaneHdr) (d : Dst) (ty : Ty) (a b : Src)
  /-- IABS (R196): Lane absolute value. -/
  | iabs (h : LaneHdr) (d : Dst) (ty : Ty) (sat : Bool) (a : Src)
  /-- INEG (R196): Lane negate. -/
  | ineg (h : LaneHdr) (d : Dst) (ty : Ty) (sat : Bool) (a : Src)
  /-- IAND (R196): Lane bitwise AND. -/
  | iand (h : LaneHdr) (d : Dst) (ty : Ty) (a b : Src)
  /-- IOR (R196): Lane bitwise OR. -/
  | ior (h : LaneHdr) (d : Dst) (ty : Ty) (a b : Src)
  /-- IXOR (R196): Lane bitwise XOR. -/
  | ixor (h : LaneHdr) (d : Dst) (ty : Ty) (a b : Src)
  /-- IANDN (R196): Lane AND NOT. -/
  | iandn (h : LaneHdr) (d : Dst) (ty : Ty) (a b : Src)
  /-- INOT (R196): Lane bitwise NOT. -/
  | inot (h : LaneHdr) (d : Dst) (ty : Ty) (a : Src)
  /-- ISEL (R196): Lane select by predicate. -/
  | isel (h : LaneHdr) (d : Dst) (ty : Ty) (a b : Src) (p : Nat)
  /-- ISHL (R197): Lane shift left. -/
  | ishl (h : LaneHdr) (d : Dst) (ty : Ty) (a b : Src)
  /-- ISHR (R197): Lane logical shift right. -/
  | ishr (h : LaneHdr) (d : Dst) (ty : Ty) (a b : Src)
  /-- ISRA (R197): Lane arithmetic shift right. -/
  | isra (h : LaneHdr) (d : Dst) (ty : Ty) (a b : Src)
  /-- IPOPC (R196): Lane population count. -/
  | ipopc (h : LaneHdr) (d : Dst) (ty : Ty) (a : Src)
  /-- ICLZ (R196): Lane leading zero count. -/
  | iclz (h : LaneHdr) (d : Dst) (ty : Ty) (a : Src)
  /-- LANE_BREV (R196): Lane bit reverse. -/
  | laneBrev (h : LaneHdr) (d : Dst) (ty : Ty) (a : Src)
  /-- PRMT (R197): Lane byte permute. -/
  | prmt (h : LaneHdr) (d : Dst) (a b c : Src)
  /-- LANE_BFE (R197): Lane bit-field extract. -/
  | laneBfe (h : LaneHdr) (d : Dst) (ty : Ty) (a b : Src)
  /-- LANE_BFI (R197): Lane bit-field insert. -/
  | laneBfi (h : LaneHdr) (d : Dst) (ty : Ty) (a b c : Src)
  /-- IDP4 (R198): Lane four-way byte dot product with accumulate. -/
  | idp4 (h : LaneHdr) (d : Dst) (ty : Ty) (sat : Bool) (a b c : Src)
  /-- FADD (R199): Lane FP32 add. -/
  | fadd (h : LaneHdr) (d : Dst) (rnd : Rnd) (a b : Src)
  /-- FSUB (R199): Lane FP32 subtract. -/
  | fsub (h : LaneHdr) (d : Dst) (rnd : Rnd) (a b : Src)
  /-- FMUL (R199): Lane FP32 multiply. -/
  | fmul (h : LaneHdr) (d : Dst) (rnd : Rnd) (a b : Src)
  /-- FFMA (R199): Lane FP32 fused multiply-add. -/
  | ffma (h : LaneHdr) (d : Dst) (rnd : Rnd) (a b c : Src)
  /-- FMIN (R200): Lane FP32 minimum. -/
  | fmin (h : LaneHdr) (d : Dst) (a b : Src)
  /-- FMAX (R200): Lane FP32 maximum. -/
  | fmax (h : LaneHdr) (d : Dst) (a b : Src)
  /-- FABS (R200): Lane FP32 clear sign bit. -/
  | fabs (h : LaneHdr) (d : Dst) (a : Src)
  /-- FNEG (R200): Lane FP32 invert sign bit. -/
  | fneg (h : LaneHdr) (d : Dst) (a : Src)
  /-- FRCP (R199): Lane FP32 reciprocal. -/
  | frcp (h : LaneHdr) (d : Dst) (rnd : Rnd) (a : Src)
  /-- FRSQ (R199): Lane FP32 reciprocal square root. -/
  | frsq (h : LaneHdr) (d : Dst) (rnd : Rnd) (a : Src)
  /-- FSQRT (R199): Lane FP32 square root. -/
  | fsqrt (h : LaneHdr) (d : Dst) (rnd : Rnd) (a : Src)
  /-- FDIV (R199): Lane FP32 divide. -/
  | fdiv (h : LaneHdr) (d : Dst) (rnd : Rnd) (a b : Src)
  /-- FEXP2 (R122): Lane FP32 base-2 exponential by reference algorithm. -/
  | fexp2 (h : LaneHdr) (d : Dst) (a : Src)
  /-- FLOG2 (R123): Lane FP32 base-2 logarithm by reference algorithm. -/
  | flog2 (h : LaneHdr) (d : Dst) (a : Src)
  /-- DADD (R201): Lane FP64 add. -/
  | dadd (h : LaneHdr) (d : Dst) (rnd : Rnd) (a b : Src)
  /-- DSUB (R201): Lane FP64 subtract. -/
  | dsub (h : LaneHdr) (d : Dst) (rnd : Rnd) (a b : Src)
  /-- DMUL (R201): Lane FP64 multiply. -/
  | dmul (h : LaneHdr) (d : Dst) (rnd : Rnd) (a b : Src)
  /-- DFMA (R201): Lane FP64 fused multiply-add. -/
  | dfma (h : LaneHdr) (d : Dst) (rnd : Rnd) (a b c : Src)
  /-- DMIN (R201): Lane FP64 minimum. -/
  | dmin (h : LaneHdr) (d : Dst) (a b : Src)
  /-- DMAX (R201): Lane FP64 maximum. -/
  | dmax (h : LaneHdr) (d : Dst) (a b : Src)
  /-- DDIV (R201): Lane FP64 divide. -/
  | ddiv (h : LaneHdr) (d : Dst) (rnd : Rnd) (a b : Src)
  /-- DSQRT (R201): Lane FP64 square root. -/
  | dsqrt (h : LaneHdr) (d : Dst) (rnd : Rnd) (a : Src)
  /-- HADD2 (R202): Lane packed binary16 add. -/
  | hadd2 (h : LaneHdr) (d : Dst) (rnd : Rnd) (a b : Src)
  /-- HMUL2 (R202): Lane packed binary16 multiply. -/
  | hmul2 (h : LaneHdr) (d : Dst) (rnd : Rnd) (a b : Src)
  /-- HFMA2 (R202): Lane packed binary16 fma. -/
  | hfma2 (h : LaneHdr) (d : Dst) (rnd : Rnd) (a b c : Src)
  /-- BADD2 (R202): Lane packed BF16 add. -/
  | badd2 (h : LaneHdr) (d : Dst) (rnd : Rnd) (a b : Src)
  /-- BMUL2 (R202): Lane packed BF16 multiply. -/
  | bmul2 (h : LaneHdr) (d : Dst) (rnd : Rnd) (a b : Src)
  /-- BFMA2 (R202): Lane packed BF16 fma. -/
  | bfma2 (h : LaneHdr) (d : Dst) (rnd : Rnd) (a b c : Src)
  /-- BDOT2 (R202): Lane BF16 pair dot product into binary32. -/
  | bdot2 (h : LaneHdr) (d : Dst) (rnd : Rnd) (a b c : Src)
  /-- CVT (R203): Lane type conversion. -/
  | cvt (h : LaneHdr) (d : Dst) (rnd : Rnd) (sat : Bool) (dty sty : Ty) (a : Src) (bsel : Nat)
  /-- SXPACK (R204): Pack sixteen binary32 values per lane into an sx block. -/
  | sxpack (h : LaneHdr) (d : Nat) (sx : Sxf) (a sc bsel blk : Nat)
  /-- SXUNPACK (R205): Unpack an sx block per lane into sixteen registers. -/
  | sxunpack (h : LaneHdr) (d : Nat) (rnd : Rnd) (sx : Sxf) (ty : Ty) (a sc bsel blk : Nat)
  /-- PSET (R206): Set a predicate by comparison. -/
  | pset (h : LaneHdr) (p : Nat) (cmp : CmpOp) (ty : Ty) (a b : Src)
  /-- PLOP (R207): Predicate logic by lookup table. -/
  | plop (h : LaneHdr) (p pa pb pc lut : Nat)
  /-- PMOV (R208): Move between predicate and vector register. -/
  | pmov (h : LaneHdr) (form : PmovForm)
  /-- MOV (R209): Lane register move. -/
  | mov (h : LaneHdr) (d : Dst) (ty : Ty) (a : Src)
  /-- MOVI (R209): Lane 32-bit immediate move. -/
  | movi (h : LaneHdr) (d : Dst) (imm : Nat)
  /-- RND (R124): Lane counter-based mixing function. -/
  | rnd (h : LaneHdr) (d : Dst) (k : Nat) (c : Src)
  /-- LANE_DLY (R211): Delay the next lane instruction by n clk. -/
  | laneDly (n : Nat)
  /-- SHFL (R213): Copy values between lanes within segments. -/
  | shfl (h : LaneHdr) (mode : ShflMode) (d : Dst) (a b : Src)
  /-- VOTE (R214): Vote over active lanes into a scalar register. -/
  | vote (h : LaneHdr) (mode : VoteMode) (d p tk : Nat)
  /-- VBALLOT (R215): Ballot mask of a predicate to every active lane. -/
  | vballot (h : LaneHdr) (d : Dst) (p : Nat)
  /-- LRED (R216): Reduce over active lanes into a scalar register. -/
  | lred (h : LaneHdr) (op : RedOp) (ty : Ty) (d : Nat) (a : Src) (tk : Nat)
  /-- LSCAN (R217): Prefix scan over active lanes. -/
  | lscan (h : LaneHdr) (op : RedOp) (ty : Ty) (incl : Bool) (d : Nat) (a : Src) (total : Option Nat) (tk : Nat)
  /-- MATCH (R218): Mask of lanes with equal values. -/
  | laneMatch (h : LaneHdr) (ty : Ty) (d : Dst) (a : Src)
  /-- LBRX (R220): Divergent indirect branch that sends threads to spawn memory or fault groups. -/
  | lbrx (h : LaneHdr) (t c tk : Nat)
  /-- LEND (R219): End the threads of the active lanes. -/
  | lend (h : LaneHdr) (tk : Option Nat)
  /-- VCMOV (R223): Vector capability move. -/
  | vcmov (h : LaneHdr) (q : Nat) (p : CapSrc)
  /-- VCGETADDR (R223): Vector read of cursor. -/
  | vcgetaddr (h : LaneHdr) (w : Nat) (p : CapSrc)
  /-- VCGETBASE (R223): Vector read of base. -/
  | vcgetbase (h : LaneHdr) (w : Nat) (p : CapSrc)
  /-- VCGETTOP (R223): Vector read of top. -/
  | vcgettop (h : LaneHdr) (w : Nat) (p : CapSrc)
  /-- VCGETLEN (R223): Vector read of length. -/
  | vcgetlen (h : LaneHdr) (w : Nat) (p : CapSrc)
  /-- VCGETPERM (R223): Vector read of permissions. -/
  | vcgetperm (h : LaneHdr) (w : Nat) (p : CapSrc)
  /-- VCGETSEAL (R223): Vector read of seal type. -/
  | vcgetseal (h : LaneHdr) (w : Nat) (p : CapSrc)
  /-- VCGETOWNER (R223): Vector read of owner. -/
  | vcgetowner (h : LaneHdr) (w : Nat) (p : CapSrc)
  /-- VCGETTAG (R223): Vector read of tag. -/
  | vcgettag (h : LaneHdr) (w : Nat) (p : CapSrc)
  /-- VCSETADDR (R223): Vector set cursor. -/
  | vcsetaddr (h : LaneHdr) (q : Nat) (p : CapSrc) (w : Src)
  /-- VCINC (R223): Vector increment cursor. -/
  | vcinc (h : LaneHdr) (q : Nat) (p : CapSrc) (w : Src)
  /-- VCSETBND (R223): Vector set bounds, rounding. -/
  | vcsetbnd (h : LaneHdr) (q : Nat) (p : CapSrc) (w : Src)
  /-- VCSETBNDX (R223): Vector set bounds, exact. -/
  | vcsetbndx (h : LaneHdr) (q : Nat) (p : CapSrc) (w : Src)
  /-- VCNARROW (R223): Vector narrow permissions. -/
  | vcnarrow (h : LaneHdr) (q : Nat) (p : CapSrc) (w : Src)
  /-- VCWRAP (R223): Vector seal. -/
  | vcwrap (h : LaneHdr) (q : Nat) (p k : CapSrc)
  /-- VCUNWRAP (R223): Vector unseal. -/
  | vcunwrap (h : LaneHdr) (q : Nat) (p k : CapSrc)
  /-- VCWITHIN (R223): Vector containment test. -/
  | vcwithin (h : LaneHdr) (w : Nat) (p : CapSrc) (q : Nat)
  /-- LD (R236): Lane global load, checked whole before any effect. -/
  | ld (h : LaneHdr) (ty : Ty) (ord : Ord) (scope : Scope) (ro : Bool) (d : Nat) (cap : CapSrc) (off : Src) (imm : Int) (tk : Option Nat)
  /-- ST (R236): Lane global store. -/
  | st (h : LaneHdr) (ty : Ty) (ord : Ord) (scope : Scope) (data : Src) (cap : CapSrc) (off : Src) (imm : Int) (tk : Option Nat)
  /-- LDNR (R238): Lane load tolerating absent pages with a residency predicate. -/
  | ldnr (h : LaneHdr) (ty : Ty) (ord : Ord) (scope : Scope) (ro : Bool) (d r : Nat) (cap : CapSrc) (off : Src) (imm : Int) (tk : Option Nat)
  /-- LDSUB (R239): Lane subscribed load rounded to BF16 or E4M3. -/
  | ldsub (h : LaneHdr) (ty : Ty) (ord : Ord) (scope : Scope) (ro : Bool) (d : Nat) (cap : CapSrc) (off : Src) (imm : Int) (tk : Option Nat)
  /-- SUBS (R241): Install a subscription entry for a region. -/
  | subs (h : LaneHdr) (ty : Ty) (c b : Nat) (tk : Option Nat)
  /-- UNSUBS (R241): Remove overlapping subscription entries. -/
  | unsubs (h : LaneHdr) (c b : Nat) (tk : Option Nat)
  /-- LDS (R242): Lane team-memory load. -/
  | lds (h : LaneHdr) (ty : Ty) (ord : Ord) (scope : Scope) (d : Nat) (addr : Src) (imm : Int) (tk : Option Nat)
  /-- STS (R242): Lane team-memory store. -/
  | sts (h : LaneHdr) (ty : Ty) (ord : Ord) (scope : Scope) (data addr : Src) (imm : Int) (tk : Option Nat)
  /-- ATOM (R244): Lane global atomic read-modify-write. -/
  | atom (h : LaneHdr) (op : AtomOp) (ty : Ty) (ord : Ord) (scope : Scope) (d : Dst) (cap : CapSrc) (off opnd : Src) (imm : Int) (tk : Option Nat)
  /-- ATOMS (R244): Lane team-memory atomic. -/
  | atoms (h : LaneHdr) (op : AtomOp) (ty : Ty) (ord : Ord) (scope : Scope) (d : Dst) (addr opnd : Src) (imm : Int) (tk : Option Nat)
  /-- LANE_LDC (R245): Lane capability load with tag. -/
  | laneLdc (h : LaneHdr) (ord : Ord) (scope : Scope) (d : Nat) (cap : CapSrc) (off : Src) (imm : Int) (tk : Option Nat)
  /-- LANE_STC (R245): Lane capability store with tag. -/
  | laneStc (h : LaneHdr) (ord : Ord) (scope : Scope) (v : Nat) (cap : CapSrc) (off : Src) (imm : Int) (tk : Option Nat)
  /-- LANE_FENCE (R247): Lane-path fence at a scope. -/
  | laneFence (h : LaneHdr) (ord : Ord) (scope : Scope) (tk : Option Nat)
  /-- FENCEX (R248): Cross-path fence from one path to another. -/
  | fencex (h : LaneHdr) (src dst : Path) (ord : Ord) (scope : Scope) (tk : Option Nat)
  /-- PF (R246): Prefetch lines toward L1, never trapping. -/
  | pf (h : LaneHdr) (cap : CapSrc) (off : Src) (imm : Int) (tk : Option Nat)
  /-- MMAC (R258): Enter a matrix multiply-accumulate into the array order. -/
  | mmac (h : LaneHdr) (fmt : MFmt) (pair reuse : Bool) (acc : Nat) (a : AOperand) (lw : Nat) (tk : Option Nat)
  /-- MDIST (R258): Enter a squared-distance accumulate into the array order. -/
  | mdist (h : LaneHdr) (fmt : MFmt) (pair reuse : Bool) (acc : Nat) (a : AOperand) (lw : Nat) (tk : Option Nat)
  /-- MTOPK (R260): Reserve a qmat entry and enter a top-k selection. -/
  | mtopk (h : LaneHdr) (pair : Bool) (acc k : Nat) (tk : Option Nat)
  /-- MCLR (R259): Clear an accumulator tile. -/
  | mclr (h : LaneHdr) (pair : Bool) (acc : Nat) (tk : Option Nat)
  /-- MLD (R259): Load an accumulator tile from team memory. -/
  | mld (h : LaneHdr) (pair : Bool) (acc lw : Nat) (tk : Option Nat)
  /-- MST (R259): Store an accumulator tile to team memory. -/
  | mst (h : LaneHdr) (pair : Bool) (acc lw : Nat) (tk : Option Nat)
  /-- MRD (R262): Pop the head qmat entry into vector registers. -/
  | mrd (h : LaneHdr) (d tk : Nat)
  /-- TOKC (R330): Commit a sampled token per lane to its watch entry. -/
  | tokc (h : LaneHdr) (d p c : Nat) (seq tok : Src) (tk : Nat)
  /-- TOKC_DRAFT (R327): Buffer a draft token per lane. -/
  | tokcDraft (h : LaneHdr) (d p c : Nat) (seq tok : Src) (tk : Nat)
  /-- TOKCF (R327): Confirm up to n pending drafts per lane. -/
  | tokcf (h : LaneHdr) (d p c : Nat) (seq : Src) (n tk : Nat)
  /-- TOKRJ (R327): Reject pending drafts per lane. -/
  | tokrj (h : LaneHdr) (c : Nat) (seq : Src) (tk : Option Nat)
  /-- TOKF (R332): Read forced tokens of a pending injection. -/
  | tokf (h : LaneHdr) (d c : Nat) (seq : Src) (tk : Nat)
  -- steps the device takes by itself: no encoding
  /-- SPAWNED_GROUP_START (R48): A built group waiting in spawn memory starts when a slot frees. -/
  | spawnedGroupStart (team : Nat)
  /-- FAULT_GROUP_START (R359): A fault group takes a slot and enters its handler. -/
  | faultGroupStart (team : Nat)
  /-- LBRX_REDIRECT (R221): At the lbrx token the scalar stream is redirected to the winning target. -/
  | lbrxRedirect (agent : Nat)
  /-- ISSUE_CHOICE (R398): Each clk each partition picks a group for its scalar and lane slots. -/
  | issueChoice (die core part : Nat)
  /-- STARVATION_PROMOTION (R398): A candidate waiting 4,096 clk is promoted to class 8. -/
  | starvationPromotion (agent : Nat) (lane : Bool)
  /-- PAUSE_END (R41): A pause's n clk expire and the group regains its priority. -/
  | pauseEnd (agent : Nat)
  /-- DLY_EXPIRY (R182): A delay elapses and the next instruction may issue. -/
  | dlyExpiry (agent : Nat) (lane : Bool)
  /-- FIXED_LATENCY_WRITE_EFFECT (R66): A fixed-latency result takes effect at issue plus latency. -/
  | fixedLatencyWriteEffect (agent : Nat)
  /-- WTOK_COMPLETE (R74): A token reaches the threshold and the waiting scalar stream resumes. -/
  | wtokComplete (agent : Nat)
  /-- YIELD_REACTIVATION (R43): A yielded group is re-activated at its target after the threshold is met. -/
  | yieldReactivation (agent : Nat)
  /-- QUEUE_BLOCK_END (R41): An entry or space arrives and a blocked qpush or qpop proceeds. -/
  | queueBlockEnd (agent : Nat)
  /-- SCALAR_MEMORY_COMPLETION (R176): A scalar load, store or atomic completes and posts its token. -/
  | scalarMemoryCompletion (agent k : Nat)
  /-- LANE_MEMORY_COMPLETION (R230): A lane memory instruction completes in all lanes and posts its token. -/
  | laneMemoryCompletion (agent k : Nat)
  /-- WATCH_STEP_COMPLETION (R330): Lane watch steps complete, destinations are written and the token posts. -/
  | watchStepCompletion (agent k : Nat)
  /-- MATRIX_START (R250): A matrix instruction at the head of its array order(s) starts. -/
  | matrixStart (die core : Nat)
  /-- MATRIX_COMPLETION (R263): A matrix instruction completes, filling qmat or accumulators, and posts. -/
  | matrixCompletion (die core : Nat)
  /-- COPY_ACCEPT (R265): The copy engine accepts the next queued command in push order. -/
  | copyAccept (agent : Nat)
  /-- COPY_COMPLETION (R273): A copy finishes all reads and writes and posts its token. -/
  | copyCompletion (k : Nat)
  /-- COLLECTIVE_ACCEPT (R275): The collective engine accepts a command, joining its instance. -/
  | collectiveAccept (agent : Nat)
  /-- COLLECTIVE_COMPLETION (R277): A participant's destination is written and its token posts. -/
  | collectiveCompletion (k : Nat)
  /-- ENGINE_FAULT_DELIVERY (R267): A command fault is delivered as a trap at the issuer's next boundary. -/
  | engineFaultDelivery (agent : Nat)
  /-- PAGE_REQUEST_POST (R477): A page request is written to the ring once it has room. -/
  | pageRequestPost (k : Nat)
  /-- PAGE_REQUEST_RECHECK (R477): A waiter re-walks and reads STAT at least once per µs. -/
  | pageRequestRecheck (k : Nat)
  /-- FIRST_TOUCH_POOL_RETRY (R384): A stalled first touch retries once COUNT > 0 or DECL is set. -/
  | firstTouchPoolRetry (agent : Nat)
  /-- TCMP_REACHED (R366): Device time reaches tcmp and sets ipend bit 63. -/
  | tcmpReached (core : Nat)
  /-- INTERRUPT_TRAP (R366): Cause 0x38 is taken at a boundary in user mode with ipend set. -/
  | interruptTrap (core : Nat)
  /-- SINGLE_STEP_TRAP (R366): After the stepped instruction the group traps 0x31. -/
  | singleStepTrap (agent : Nat)
  /-- TEAM_PLACEMENT (R34): A team is placed all or nothing and its groups created. -/
  | teamPlacement (launch die core : Nat)
  /-- TEAM_RESERVATION (R36): A team waiting 64 µs gets cores reserved for it. -/
  | teamReservation (launch die core : Nat)
  /-- PREEMPTION (R395): A team is stopped at boundaries and saved to its image. -/
  | preemption (team : Nat)
  /-- TEAM_RESTORE (R395): A pre-empted or discarded team is placed again and resumed. -/
  | teamRestore (team die core : Nat)
  /-- REGION_SNAPSHOT (R396): A group at a region entry drains and records a snapshot. -/
  | regionSnapshot (agent : Nat)
  /-- TEAM_EXIT (R53): After the last group ends the team flushes, drains and releases its resources. -/
  | teamExit (team : Nat)
  /-- TEAM_KILL (R54): A team is stopped, its state discarded and a kill record written. -/
  | teamKill (team cause : Nat)
  /-- KILL_REQUEST (R400): A store to KILLID kills the launch's teams and discards unplaced ones. -/
  | killRequest (ctx : Nat)
  /-- BUDGET_EXHAUSTED (R387): USED reaches BUDGET and the context's teams are pre-empted. -/
  | budgetExhausted (ctx : Nat)
  /-- PERIOD_START (R387): A new period begins and USED becomes 0. -/
  | periodStart (ctx : Nat)
  /-- USED_UPDATE (R385): Hardware writes USED at least once per µs. -/
  | usedUpdate (ctx : Nat)
  /-- WATCHDOG_EXPIRY (R399): WDOG µs pass without a sink and a hang report is written. -/
  | watchdogExpiry (ctx : Nat)
  /-- LAUNCH_COMPLETION (R406): A launch completes, releasing at .dev. -/
  | launchCompletion (launch : Nat)
  /-- LAUNCH_RECORD_UPDATE (R456): Hardware rewrites an open launch record at least once per µs. -/
  | launchRecordUpdate (launch : Nat)
  /-- END_NODE (R402): Graph end node ends the walk. -/
  | endNode (walk : Nat)
  /-- LAUNCH_NODE (R402): Graph launch node submits a launch. -/
  | launchNode (walk : Nat)
  /-- COPY_NODE (R402): Graph copy node runs a copy command. -/
  | copyNode (walk : Nat)
  /-- LOOP_NODE (R402): Graph loop node tests and loops back. -/
  | loopNode (walk : Nat)
  /-- CONDITIONAL_NODE (R402): Graph conditional node branches forward on a test. -/
  | conditionalNode (walk : Nat)
  /-- WAIT_NODE (R402): Graph wait node tests until true. -/
  | waitNode (walk : Nat)
  /-- WAIT_NODE_RETEST (R402): A wait node re-tests at least once per µs. -/
  | waitNodeRetest (walk : Nat)
  /-- SIGNAL_NODE (R402): Graph signal node signals a line or stores a value. -/
  | signalNode (walk : Nat)
  /-- DEVICE_TIME_TICK (R25): The master counter increases by one each ns. -/
  | deviceTimeTick
  /-- TIME_COPY_CHECK (R26): Each µs every copy is checked and reset if off by more than 20 ns. -/
  | timeCopyCheck (agent : Nat)
  /-- LEASE_EXPIRY (R284): An L1 line's lease expires and the line becomes invalid. -/
  | leaseExpiry (die core line : Nat)
  /-- DIRTY_WRITE_BACK (R414): Dirty narrow-store bytes are written back before a lease ends. -/
  | dirtyWriteBack (die core line : Nat)
  /-- WRITE_PERFORM (R411): A waiting write is performed once time passes max(LMAX,EMAX)+20 ns. -/
  | writePerform (agent k : Nat)
  /-- FORCED_PUBLISH (R415): A noted core publishes before an acquire is answered. -/
  | forcedPublish (die core line : Nat)
  /-- CLOCK_STOP (R413): Before the clock stops the core writes back and invalidates its L1. -/
  | clockStop (die core : Nat)
  /-- GETS (R417): Home receives a request for a full shared copy. -/
  | gets (k : Nat)
  /-- GETSUB (R422): Home receives a request for a subscribed copy. -/
  | getsub (k : Nat)
  /-- GETX (R417): Home receives a request for an exclusive copy. -/
  | getx (k : Nat)
  /-- WRH (R423): Home receives a write to perform at the home for a subscribed line. -/
  | wrh (k : Nat)
  /-- PUTX (R419): Home receives an eviction of an E or M line. -/
  | putx (k : Nat)
  /-- INV (R418): RDC receives an invalidation and acks after lease waits. -/
  | inv (k : Nat)
  /-- FWDS (R417): Owner receives a forward to share its data. -/
  | fwds (k : Nat)
  /-- FWDX (R418): Owner receives a forward to hand over and drop its line. -/
  | fwdx (k : Nat)
  /-- UPD (R423): Subscribed member receives a rounded update of its copy. -/
  | upd (k : Nat)
  /-- ACK (R418): An acknowledgement arrives at the writing home. -/
  | ack (k : Nat)
  /-- DATA (R417): Line data arrives at a requester or the home. -/
  | data (k : Nat)
  /-- WBACK (R418): A write-back completion frees the RDC buffer. -/
  | wback (k : Nat)
  /-- RDC_EVICTION (R418): An RDC evicts a line, sending PutX after its lease. -/
  | rdcEviction (die line : Nat)
  /-- SWEEP_PASS_BEGIN (R427): A waiting sweep pass begins. -/
  | sweepPassBegin
  /-- SWEEP_PASS_COMPLETE (R430): The pass completes and swpdone becomes its number. -/
  | sweepPassComplete
  /-- PEER_ACCESS_REQUEST (R434): A peer access arrives and is checked against the export entry. -/
  | peerAccessRequest (req : PeerRequest)
  /-- EXPORT_RETURN (R434): An export capability returning to its issuer is converted. -/
  | exportReturn (agent k : Nat)
  /-- LINK_TRAINING (R444): A Norfer link trains and learns its peer. -/
  | linkTraining (n peer : Nat)
  /-- FLIT_REPLAY (R444): A flit failing its check is replayed from the sender's buffer. -/
  | flitReplay (n : Nat)
  /-- LINK_SPARE_LANE (R445): The spare lane replaces a worn lane and the link retrains. -/
  | linkSpareLane (n : Nat)
  /-- LINK_FAILURE (R445): A second lane failure sets the link to failed. -/
  | linkFailure (n : Nat)
  /-- MSIX_WRITE (R449): A device MSI-X write signals an interrupt line. -/
  | msixWrite (port entry : Nat)
  /-- PORT_TRANSFER_COMPLETE (R450): A port signals transfer completion as a release at .sys. -/
  | portTransferComplete (port : Nat)
  /-- PACKAGE_RESET (R467): Package reset and boot sequence through release. -/
  | packageReset
  /-- PARTITION_RESET (R369): An uncorrectable error resets its partition. -/
  | partitionReset (p : Nat)
  /-- POWER_MANAGER_STEP (R472): Each µs PEST is computed and STEP adjusted. -/
  | powerManagerStep (watts : Nat)
  /-- LEAKAGE_UPDATE (R472): Every 100 µs the Islet derives the leakage figure. -/
  | leakageUpdate (die leak : Nat)
  /-- POWER_ALERT_ASSERT (R472): 1 ms over cap at STEP 32 asserts power-alert. -/
  | powerAlertAssert
  /-- POWER_ALERT_RELEASE (R472): 1 ms at or below cap releases power-alert. -/
  | powerAlertRelease
  /-- SPARE_EXCHANGE (R473): The Islet brings in a spare when aging crosses a threshold. -/
  | spareExchange (die unit : Nat)
  /-- BOOTOK (R471): Mailbox command confirming a boot. -/
  | bootok
  /-- STAGE (R471): Mailbox command staging an image into the inactive slot. -/
  | stage
  /-- LOGRD (R471): Mailbox command copying the event log. -/
  | logrd
  /-- FUSE (R442): Mailbox command raising the anti-rollback counter. -/
  | fuse
  /-- MAILBOX_COMMAND_END (R471): A mailbox command ends and MBSTAT reports its result. -/
  | mailboxCommandEnd
  /-- GET_MEASUREMENTS (R441): SPDM request answered with measurement digests. -/
  | getMeasurements (nonce : Nat)
  /-- KEY_LOAD (R438): KCMD LOAD loads a key into every controller. -/
  | keyLoad
  /-- STOP (R458): Writing a PID to STOP stops its groups and threads. -/
  | stop (part pid : Nat)
  /-- TRACE_SAMPLE (R462): Every PER µs each group and thread writes a sample record. -/
  | traceSample (part : Nat)
  /-- LANE_FOCUS (R464): DFOC FOC write sets focus to a lane. -/
  | laneFocus (agent v : Nat)
  /-- LANE_FOCUS_RELEASE (R465): DFOC REL write replays deferred lanes and releases focus. -/
  | laneFocusRelease (agent v : Nat)
  /-- CRASH_DUMP (R466): CRASH GO write dumps state and restarts a crash kernel. -/
  | crashDump (p : Nat)
  /-- ACCT_ARM (R457): ACCT write with LID 0 and CLASS 1 arms launch accounting. -/
  | acctArm (core v : Nat)
  /-- PARTCFG_WRITE (R451): Write of PARTCFG assigning dies, cores and LPDDR6. -/
  | partcfgWrite (v : Nat)
  /-- LINKPART_WRITE (R451): Write of LINKPART assigning links. -/
  | linkpartWrite (v : Nat)
  /-- COHERENCE_CONTROL_WRITE (R410): Write of the lease length. -/
  | coherenceControlWrite (die v : Nat)
  /-- EXPPA_WRITE (R470): Write of the export table address, allowed only when empty. -/
  | exppaWrite (v : Nat)
  /-- REVOCATION_REGISTER_WRITE (R425): Write of RMAP, RVBASE or RVLEN, ignored during a pass. -/
  | revocationRegisterWrite (which v : Nat)
  /-- REGISTER_WRITE (R469): Write to a control-window register with no behaviour of its own. -/
  | registerWrite (off v : Nat)
  /-- PORT_MEMORY_ACCESS (R450): The storage port or an Ethernet port reads or writes memory through its address space for a transfer, clearing the tags of the granules it writes. -/
  | portMemoryAccess (port va size data : Nat) (write : Bool)
  /-- POWER_LOSS (R443): The module's supply is lost while the package runs, possibly in the middle of fuse programming, and all activity stops until the next package reset. -/
  | powerLoss
  /-- LINK_PEER_LOSS (R446): The far end of a Norfer link resets or goes away, so the link leaves state 2 and the set of up links to that package changes. -/
  | linkPeerLoss (n : Nat)
  deriving DecidableEq, Repr

end Sys2Proof
end

