-- ==== Sys2Proof/WellFormed.lean ====
section
/-!
DEFINITION. Which instructions are well formed: every field holds a value the instruction takes
(07 R142 step 2, R143, R144, R147 to R151, R154 to R162, and the limits of the entries of 09, 10, 11, 14).
The register budget of the role (R60) is no part of it: it is checked at issue.
-/

namespace Sys2Proof

def sregOk (n : Nat) : Bool := n < 160

/-- An even scalar register, the name of a pair (R143). -/
def spairOk (n : Nat) : Bool := n < 160 && n % 2 == 0

def cregOk (n : Nat) : Bool := n < 40

def vregOk (n : Nat) : Bool := n < 1024

/-- The control registers of R352 and the alignment of their operands: 128-bit ones take a quad, 64-bit ones a
pair. Other numbers are not listed. -/
def ctlOk (d n : Nat) : Bool :=
  match n with
  | 0x000 | 0x010 | 0x014 => d < 160 && d % 4 == 0
  | 0x004 | 0x006 | 0x020 | 0x022 => spairOk d
  | 0x008 | 0x009 | 0x00A | 0x00B | 0x018 | 0x019 | 0x024 => sregOk d
  | _ => false

/-- The operand rules of `tlbi` (R363). -/
def tlbiOk (a b : Nat) (k : TlbKind) : Bool :=
  match k with
  | .page => cregOk a && spairOk b
  | .space => cregOk a && b == 0
  | .all => a == 0 && b == 0

/-- A vector register of an operand that is a pair when `pair` holds (R59). -/
def vopOk (pair : Bool) (n : Nat) : Bool := n < 1024 && (!pair || n % 2 == 0)

def predOk (n : Nat) : Bool := n < 64

def tkOk : Option Nat → Bool
  | none => true
  | some n => n < 16

/-- A signed immediate of `n` bits. -/
def immOk (n : Nat) (i : Int) : Bool := -(2 ^ (n - 1) : Int) ≤ i && i < (2 ^ (n - 1) : Int)

/-- Registers, latches, predicates and immediates of a value source (R155, R191). -/
def Src.kindOk (pair : Bool) : Src → Bool
  | .vreg n => vopOk pair n
  | .sreg n => n < 160 && (!pair || n % 2 == 0)
  | .latch n => n < 4
  | .pred n => n < 64
  | .imm v => immOk 10 v
  | .special _ => true

/-- A value source of an integer operand: the special codes of the integer column of R156. -/
def Src.okInt (pair : Bool) (s : Src) : Bool :=
  s.kindOk pair && match s with
    | .special c => c < 4 || c == 8
    | _ => true

/-- A value source of a floating-point operand: the special codes of the other column of R156. -/
def Src.okFp (pair : Bool) (s : Src) : Bool :=
  s.kindOk pair && match s with
    | .special c => c < 8 || c == 9
    | _ => true

/-- A value source read as type `ty`. -/
def Src.okTy (ty : Ty) (s : Src) : Bool :=
  if ty.isInt then s.okInt ty.isPair else s.okFp ty.isPair

def CapSrc.ok : CapSrc → Bool
  | .vc n => n < 256
  | .c n => n < 40

def Dst.ok (pair : Bool) : Dst → Bool
  | .reg n => vopOk pair n
  | .none => true

def LaneHdr.ok (h : LaneHdr) : Bool := h.gp < 64

/-- Integer types of 32 and 64 bits. -/
def Ty.isWide : Ty → Bool
  | .i32 | .n32 | .i64 | .n64 => true
  | _ => false

/-- The ranges of integer types, as (least, greatest). -/
def Ty.range (t : Ty) : Int × Int :=
  if t.isSigned then (-(2 ^ (t.bits - 1) : Int), (2 ^ (t.bits - 1) : Int) - 1) else (0, (2 ^ t.bits : Int) - 1)

/-- The pairs of types on which `cvt` takes `.sat` (R203): both integer, and the destination's range does not
contain the source's. -/
def cvtSatOk (dty sty : Ty) : Bool :=
  dty.isInt && sty.isInt && !(dty.range.1 ≤ sty.range.1 && sty.range.2 ≤ dty.range.2)

def Ty.isFp8 : Ty → Bool
  | .fp8e4 | .fp8e5 => true
  | _ => false

/-- Types of the memory atomics (R224). -/
def Ty.isAtomic : Ty → Bool
  | .i32 | .i64 | .n32 | .n64 | .f32 => true
  | _ => false

/-- Types and operations of the reductions (R216, R217). -/
def redOk (op : RedOp) (ty : Ty) : Bool :=
  ty.isWide || (ty == .f32 && (op == .add || op == .min || op == .max))

/-- The operand of an atomic (R244). -/
def atomOpndOk (op : AtomOp) (ty : Ty) (s : Src) : Bool :=
  match op with
  | .cas => match s with
    | .vreg n => n < 1024 && n % (if ty.isPair then 4 else 2) == 0
    | _ => false
  | _ => s.okTy ty

def atomOk (op : AtomOp) (ty : Ty) : Bool := ty.isAtomic && (ty != .f32 || op == .add)

/-- A load is relaxed or an acquire (R144). -/
def Ord.okLoad : Ord → Bool
  | .rlx | .acq => true
  | _ => false

/-- A store is relaxed or a release (R144). -/
def Ord.okStore : Ord → Bool
  | .rlx | .rel => true
  | _ => false

/-- A fence is never relaxed (R144). -/
def Ord.okFence : Ord → Bool
  | .rlx => false
  | _ => true

def MFmt.isSx : MFmt → Bool
  | .sx7 | .sx4 | .sx2 => true
  | _ => false

def AOperand.ok (sx : Bool) : AOperand → Bool
  | .regs a sc bsel => a < 1024 && (if sx then sc < 1024 && bsel < 4 else sc == 0 && bsel == 0)
  | .alat => true

/-- Every field of the instruction holds a value the spec lets it hold. The steps the device takes by itself
have no encoding; their parameters name things of the state and are looked up there. -/
def Instr.wf : Instr → Bool
  | .add d a b | .sub d a b | .and d a b | .or d a b | .xor d a b | .andn d a b | .shl d a b | .shr d a b
  | .sra d a b | .rol d a b | .slt d a b | .sltu d a b | .min d a b | .max d a b | .minu d a b | .maxu d a b
  | .mul d a b | .mulh d a b | .mulhu d a b | .div d a b | .divu d a b | .rem d a b | .remu d a b
  | .bfe d a b | .bfeu d a b | .bfi d a b => sregOk d && sregOk a && sregOk b
  | .addI64 d a b | .subI64 d a b | .shlI64 d a b | .shrI64 d a b | .sraI64 d a b | .mulI64 d a b
  | .sltI64 d a b | .sltuI64 d a b => spairOk d && spairOk a && spairOk b
  | .popc d a | .clz d a | .ctz d a | .brev d a => sregOk d && sregOk a
  | .addi d a i | .andi d a i | .ori d a i | .xori d a i | .slti d a i | .sltui d a i | .muli d a i =>
    sregOk d && sregOk a && immOk 10 i
  | .shli d a sh | .shri d a sh | .srai d a sh | .roli d a sh => sregOk d && sregOk a && sh < 32
  | .li d i => sregOk d && immOk 18 i
  | .lih d i => sregOk d && i < 2 ^ 18
  | .bcCond c a off => sregOk a && immOk 14 off && (c != .al || a == 0)
  | .jal off => immOk 26 off
  | .land nw => nw ≤ 8
  | .cmov p q => cregOk p && cregOk q
  | .cgetaddr w p | .cgetbase w p | .cgettop w p | .cgetlen w p => spairOk w && cregOk p
  | .cgetperm w p | .cgetseal w p | .cgetowner w p | .cgettag w p => sregOk w && cregOk p
  | .csetaddr w p q | .cinc w p q | .csetbnd w p q | .csetbndx w p q => spairOk w && cregOk p && cregOk q
  | .cnarrow w p q | .cwithin w p q => sregOk w && cregOk p && cregOk q
  | .cwrap w p q | .cunwrap w p q => cregOk w && cregOk p && cregOk q
  | .cj p | .cjal p => cregOk p
  | .cinci d a i => cregOk d && cregOk a && immOk 14 i
  | .ldI8 d a tk off | .ldN8 d a tk off | .ldI16 d a tk off | .ldN16 d a tk off | .ldN32 d a tk off
  | .stN8 d a tk off | .stN16 d a tk off | .stN32 d a tk off =>
    sregOk d && cregOk a && tkOk tk && off < 128
  | .ldN64 d a tk off | .stN64 d a tk off => spairOk d && cregOk a && tkOk tk && off < 128
  | .ldc d a tk off | .stc d a tk off => cregOk d && cregOk a && tkOk tk && off < 128
  | .ldxN8 d a tk o _ | .ldxN16 d a tk o _ | .ldxN32 d a tk o _ =>
    sregOk d && cregOk a && tkOk tk && o.okLoad
  | .ldxN64 d a tk o _ => spairOk d && cregOk a && tkOk tk && o.okLoad
  | .stxN8 d a tk o _ | .stxN16 d a tk o _ | .stxN32 d a tk o _ =>
    sregOk d && cregOk a && tkOk tk && o.okStore
  | .stxN64 d a tk o _ => spairOk d && cregOk a && tkOk tk && o.okStore
  | .ldcx d a tk o _ => cregOk d && cregOk a && tkOk tk && o.okLoad
  | .stcx d a tk o _ => cregOk d && cregOk a && tkOk tk && o.okStore
  | .amoAddN32 d a tk _ _ | .amoAndN32 d a tk _ _ | .amoOrN32 d a tk _ _ | .amoXorN32 d a tk _ _
  | .amoMinI32 d a tk _ _ | .amoMaxI32 d a tk _ _ | .amoMinN32 d a tk _ _ | .amoMaxN32 d a tk _ _
  | .amoSwapN32 d a tk _ _ => sregOk d && cregOk a && tkOk tk
  | .amoCasN32 d a tk _ _ | .amoSwapN64 d a tk _ _ | .amoAddN64 d a tk _ _ =>
    spairOk d && cregOk a && tkOk tk
  | .amoCasN64 d a tk _ _ => d < 160 && d % 4 == 0 && cregOk a && tkOk tk
  | .fence o _ => o.okFence
  | .lrun tk a n off => tkOk tk && cregOk a && 1 ≤ n && n ≤ 256 && immOk 7 off
  | .emr d | .lmr d => sregOk d
  | .emw a => sregOk a
  | .bar o _ | .barArrive o _ | .barWait o => o < 16
  | .wtok tk thr => tk < 16 && thr < 2 ^ 16
  | .wtokReg tk b => tk < 16 && sregOk b
  | .tkr tk d => tk < 16 && sregOk d
  | .pause n | .dly n => 1 ≤ n && n ≤ 64
  | .yld tk r off => tk < 16 && sregOk r && immOk 14 off
  | .qpushQcopy r | .qpushQcoll r => r ≤ 144 && r % 4 == 0
  | .qpopQmat r => sregOk r
  | .msend a tk | .mrecv a tk | .mcall a tk => cregOk a && tkOk tk
  | .mreply tk => tkOk tk
  | .glaunch d a b tk => sregOk d && cregOk a && cregOk b && tkOk tk
  | .gsub d a tk => sregOk d && cregOk a && tkOk tk
  | .wset t r tk | .wget t r tk => cregOk t && spairOk r && tkOk tk
  | .nop | .gend => true
  | .brk code => code < 2 ^ 14
  | .rdtime d => spairOk d
  | .rdid d sel => sregOk d && 1 ≤ sel && sel ≤ 10
  | .pgreq a tk => cregOk a && tkOk tk
  | .fsrr d | .fsrw d | .mxcr d | .mxcw d => sregOk d
  | .eret | .wfi | .xstep => true
  | .ctlr d n | .ctlw d n => ctlOk d n
  | .tlbi a b k => tlbiOk a b k
  | .swp d | .keyk d => sregOk d
  | .sealctx d a b => cregOk d && cregOk a && sregOk b
  | .iadd h d ty _ a b | .isub h d ty _ a b | .imul h d ty _ a b =>
    h.ok && ty.isInt && d.ok ty.isPair && a.okInt ty.isPair && b.okInt ty.isPair
  | .imulhi h d ty a b => h.ok && ty.isWide && d.ok ty.isPair && a.okInt ty.isPair && b.okInt ty.isPair
  | .imad h d ty _ a b c =>
    h.ok && ty.isInt && d.ok ty.isPair && a.okInt ty.isPair && b.okInt ty.isPair && c.okInt ty.isPair
  | .imin h d ty a b | .imax h d ty a b | .iand h d ty a b | .ior h d ty a b | .ixor h d ty a b
  | .iandn h d ty a b | .ishl h d ty a b | .ishr h d ty a b | .isra h d ty a b =>
    h.ok && ty.isInt && d.ok ty.isPair && a.okInt ty.isPair && b.okInt ty.isPair
  | .iabs h d ty _ a | .ineg h d ty _ a => h.ok && ty.isSigned && d.ok ty.isPair && a.okInt ty.isPair
  | .inot h d ty a | .ipopc h d ty a | .iclz h d ty a | .laneBrev h d ty a =>
    h.ok && ty.isInt && d.ok ty.isPair && a.okInt ty.isPair
  | .isel h d ty a b p =>
    h.ok && ty.isInt && d.ok ty.isPair && a.okInt ty.isPair && b.okInt ty.isPair && predOk p
  | .prmt h d a b c => h.ok && d.ok false && a.okInt false && b.okInt false && c.okInt false
  | .laneBfe h d ty a b => h.ok && ty.isWide && d.ok ty.isPair && a.okInt ty.isPair && b.okInt ty.isPair
  | .laneBfi h d ty a b c =>
    h.ok && (ty == .n32 || ty == .n64) && d.ok ty.isPair && a.okInt ty.isPair && b.okInt ty.isPair
      && c.okInt ty.isPair
  | .idp4 h d ty _ a b c =>
    h.ok && (ty == .i32 || ty == .n32) && d.ok false && a.okInt false && b.okInt false && c.okInt false
  | .fadd h d _ a b | .fsub h d _ a b | .fmul h d _ a b | .fdiv h d _ a b | .fmin h d a b | .fmax h d a b
  | .hadd2 h d _ a b | .hmul2 h d _ a b | .badd2 h d _ a b | .bmul2 h d _ a b =>
    h.ok && d.ok false && a.okFp false && b.okFp false
  | .ffma h d _ a b c | .hfma2 h d _ a b c | .bfma2 h d _ a b c | .bdot2 h d _ a b c =>
    h.ok && d.ok false && a.okFp false && b.okFp false && c.okFp false
  | .fabs h d a | .fneg h d a | .fexp2 h d a | .flog2 h d a | .frcp h d _ a | .frsq h d _ a
  | .fsqrt h d _ a => h.ok && d.ok false && a.okFp false
  | .dadd h d _ a b | .dsub h d _ a b | .dmul h d _ a b | .ddiv h d _ a b | .dmin h d a b | .dmax h d a b =>
    h.ok && d.ok true && a.okFp true && b.okFp true
  | .dfma h d _ a b c => h.ok && d.ok true && a.okFp true && b.okFp true && c.okFp true
  | .dsqrt h d _ a => h.ok && d.ok true && a.okFp true
  | .cvt h d _ sat dty sty a bsel =>
    h.ok && d.ok dty.isPair && a.okTy sty && dty != sty && (!sat || cvtSatOk dty sty) && bsel < 4
      && (bsel == 0 || dty.isFp8 || sty.isFp8)
  | .sxpack h d _ a sc bsel blk => h.ok && vregOk d && vregOk a && vregOk sc && bsel < 4 && blk < 64
  | .sxunpack h d _ _ ty a sc bsel blk =>
    h.ok && vregOk d && vregOk a && vregOk sc && bsel < 4 && blk < 64 && (ty == .f32 || ty == .bf16 || ty == .f16)
  | .pset h p cmp ty a b =>
    h.ok && predOk p && !ty.isFp8 && a.okTy ty && b.okTy ty && (cmp != .un || !ty.isInt)
  | .plop h p pa pb pc lut => h.ok && predOk p && predOk pa && predOk pb && predOk pc && lut < 256
  | .pmov h (.toPred p a) => h.ok && predOk p && a.okInt false
  | .pmov h (.toVec d p) => h.ok && d.ok false && predOk p
  | .mov h d ty a => h.ok && (ty == .i32 || ty == .i64) && d.ok ty.isPair && a.okInt ty.isPair
  | .movi h d imm => h.ok && d.ok false && imm < 2 ^ 32
  | .rnd h d k c =>
    h.ok && d.ok false && spairOk k && match c with
      | .vreg n => vopOk true n
      | .latch n => n < 4
      | _ => false
  | .laneDly n => 1 ≤ n && n ≤ 64
  | .shfl h _ d a b =>
    h.ok && d.ok false && b.okInt false && match a with
      | .vreg n => vregOk n
      | .latch n => n < 4
      | _ => false
  | .vote h _ d p tk => h.ok && sregOk d && predOk p && tk < 16
  | .vballot h d p => h.ok && d.ok false && predOk p
  | .lred h op ty d a tk =>
    h.ok && redOk op ty && d < 160 && (!ty.isPair || d % 2 == 0) && a.okTy ty && tk < 16
  | .lscan h op ty _ d a total tk =>
    h.ok && redOk op ty && vopOk ty.isPair d && a.okTy ty && tk < 16 && match total with
      | none => true
      | some n => n < 160 && (!ty.isPair || n % 2 == 0)
  | .laneMatch h ty d a => h.ok && ty.isWide && d.ok false && a.okInt ty.isPair
  | .lbrx h t c tk => h.ok && vregOk t && cregOk c && tk < 16
  | .lend h tk => h.ok && tkOk tk
  | .vcmov h q p => h.ok && q < 256 && p.ok
  | .vcgetaddr h w p | .vcgetbase h w p | .vcgettop h w p | .vcgetlen h w p => h.ok && vopOk true w && p.ok
  | .vcgetperm h w p | .vcgetseal h w p | .vcgetowner h w p | .vcgettag h w p => h.ok && vregOk w && p.ok
  | .vcsetaddr h q p w | .vcinc h q p w | .vcsetbnd h q p w | .vcsetbndx h q p w =>
    h.ok && q < 256 && p.ok && w.okInt true
  | .vcnarrow h q p w => h.ok && q < 256 && p.ok && w.okInt false
  | .vcwrap h q p k | .vcunwrap h q p k => h.ok && q < 256 && p.ok && k.ok
  | .vcwithin h w p q => h.ok && vregOk w && p.ok && q < 256
  | .ld h ty o _ ro d cap off imm tk =>
    h.ok && ty.isInt && o.okLoad && (!ro || o == .rlx) && vopOk ty.isPair d && cap.ok && off.okInt false
      && immOk 13 imm && tkOk tk
  | .st h ty o _ x cap off imm tk =>
    h.ok && ty.isInt && !ty.isSigned && o.okStore && x.okInt ty.isPair && cap.ok && off.okInt false
      && immOk 13 imm && tkOk tk
  | .ldnr h ty o _ ro d r cap off imm tk =>
    h.ok && ty.isInt && o.okLoad && (!ro || o == .rlx) && vopOk ty.isPair d && predOk r && r != 0 && cap.ok
      && off.okInt false && immOk 13 imm && tkOk tk
  | .ldsub h ty o _ ro d cap off imm tk =>
    h.ok && (ty == .bf16 || ty == .fp8e4) && o.okLoad && (!ro || o == .rlx) && vregOk d && cap.ok
      && off.okInt false && immOk 13 imm && tkOk tk
  | .subs h ty c b tk => h.ok && (ty == .bf16 || ty == .fp8e4) && cregOk c && b ≤ 157 && tkOk tk
  | .unsubs h c b tk => h.ok && cregOk c && b ≤ 157 && tkOk tk
  | .lds h ty o _ d addr imm tk =>
    h.ok && ty.isInt && o.okLoad && vopOk ty.isPair d && addr.okInt false && immOk 13 imm && tkOk tk
  | .sts h ty o _ x addr imm tk =>
    h.ok && ty.isInt && !ty.isSigned && o.okStore && x.okInt ty.isPair && addr.okInt false && immOk 13 imm
      && tkOk tk
  | .atom h op ty _ _ d cap off opnd imm tk =>
    h.ok && atomOk op ty && d.ok ty.isPair && cap.ok && off.okInt false && atomOpndOk op ty opnd
      && immOk 13 imm && tkOk tk
  | .atoms h op ty _ _ d addr opnd imm tk =>
    h.ok && atomOk op ty && d.ok ty.isPair && addr.okInt false && atomOpndOk op ty opnd && immOk 13 imm
      && tkOk tk
  | .laneLdc h o _ d cap off imm tk =>
    h.ok && o.okLoad && d < 256 && cap.ok && off.okInt false && immOk 13 imm && imm % 16 == 0 && tkOk tk
  | .laneStc h o _ v cap off imm tk =>
    h.ok && o.okStore && v < 256 && cap.ok && off.okInt false && immOk 13 imm && imm % 16 == 0 && tkOk tk
  | .laneFence h o _ tk => h.ok && o.okFence && tkOk tk
  | .fencex h src dst o _ tk => h.ok && src != dst && o.okFence && tkOk tk
  | .pf h cap off imm tk => h.ok && cap.ok && off.okInt false && immOk 13 imm && tkOk tk
  | .mmac h fmt _ _ acc a lw tk => h.ok && acc < 16 && a.ok fmt.isSx && lw ≤ 157 && tkOk tk
  | .mdist h fmt _ _ acc a lw tk =>
    h.ok && (fmt == .bf16 || fmt == .f16) && acc < 16 && a.ok false && lw ≤ 157 && tkOk tk
  | .mtopk h _ acc k tk => h.ok && acc < 16 && 1 ≤ k && k ≤ 16 && tkOk tk
  | .mclr h _ acc tk => h.ok && acc < 16 && tkOk tk
  | .mld h _ acc lw tk | .mst h _ acc lw tk => h.ok && acc < 16 && lw ≤ 157 && tkOk tk
  | .mrd h d tk => h.ok && vregOk d && tk < 16
  | .tokc h d p c seq tok tk | .tokcDraft h d p c seq tok tk =>
    h.ok && vopOk true d && predOk p && cregOk c && seq.okInt false && tok.okInt false && tk < 16
  | .tokcf h d p c seq n tk =>
    h.ok && vopOk true d && predOk p && cregOk c && seq.okInt false && 1 ≤ n && n ≤ 15 && tk < 16
  | .tokrj h c seq tk => h.ok && cregOk c && seq.okInt false && tkOk tk
  | .tokf h d c seq tk => h.ok && vregOk d && cregOk c && seq.okInt false && tk < 16
  | .spawnedGroupStart _ | .faultGroupStart _ | .lbrxRedirect _ | .issueChoice _ _ _
  | .starvationPromotion _ _ | .pauseEnd _ | .dlyExpiry _ _ | .fixedLatencyWriteEffect _ | .wtokComplete _
  | .yieldReactivation _ | .queueBlockEnd _ | .scalarMemoryCompletion _ _ | .laneMemoryCompletion _ _
  | .watchStepCompletion _ _ | .matrixStart _ _ | .matrixCompletion _ _ | .copyAccept _ | .copyCompletion _
  | .collectiveAccept _ | .collectiveCompletion _ | .engineFaultDelivery _ | .pageRequestPost _
  | .pageRequestRecheck _ | .firstTouchPoolRetry _ | .tcmpReached _ | .interruptTrap _ | .singleStepTrap _
  | .teamPlacement _ _ _ | .teamReservation _ _ _ | .preemption _ | .teamRestore _ _ _ | .regionSnapshot _
  | .teamExit _ | .teamKill _ _ | .killRequest _ | .budgetExhausted _ | .periodStart _ | .usedUpdate _
  | .watchdogExpiry _ | .launchCompletion _ | .launchRecordUpdate _ | .endNode _ | .launchNode _
  | .copyNode _ | .loopNode _ | .conditionalNode _ | .waitNode _ | .waitNodeRetest _ | .signalNode _
  | .deviceTimeTick | .timeCopyCheck _ | .leaseExpiry _ _ _ | .dirtyWriteBack _ _ _ | .writePerform _ _
  | .forcedPublish _ _ _ | .clockStop _ _ | .gets _ | .getsub _ | .getx _ | .wrh _ | .putx _ | .inv _
  | .fwds _ | .fwdx _ | .upd _ | .ack _ | .data _ | .wback _ | .rdcEviction _ _ | .sweepPassBegin
  | .sweepPassComplete | .peerAccessRequest _ | .exportReturn _ _ | .linkTraining _ _ | .flitReplay _
  | .linkSpareLane _ | .linkFailure _ | .msixWrite _ _ | .portTransferComplete _ | .packageReset
  | .partitionReset _ | .powerManagerStep _ | .leakageUpdate _ _ | .powerAlertAssert | .powerAlertRelease
  | .spareExchange _ _ | .bootok | .stage | .logrd | .fuse | .mailboxCommandEnd | .getMeasurements _
  | .keyLoad | .stop _ _ | .traceSample _ | .laneFocus _ _ | .laneFocusRelease _ _ | .crashDump _
  | .acctArm _ _ | .partcfgWrite _ | .linkpartWrite _ | .coherenceControlWrite _ _ | .exppaWrite _
  | .revocationRegisterWrite _ _ | .registerWrite _ _ | .portMemoryAccess _ _ _ _ _ | .powerLoss
  | .linkPeerLoss _ => true

end Sys2Proof
end

