-- ==== Sys2Proof/Decode.lean ====
section
/-!
DEFINITION. Decoding and encoding (07). A word is a natural number; a scalar instruction is 32 bits (R145), a
lane instruction 96 (R154). `scalarOf` and `laneOf` read the fields of a word; `encodeScalar` and `encodeLane`
write them. A word is an instruction only when the fields read from it are well formed and writing them gives
the word back: so every bit the formats leave unnamed must be zero (R142, R151, R154, R160).

The lane decoder is marked noncomputable only because Lean's code generator makes no constructor past the 245th
of one inductive type; Lean's kernel evaluates it like any other definition.
-/

namespace Sys2Proof

/-- Bits [hi:lo] of a word (R4). -/
def bitsOf (w hi lo : Nat) : Nat := w / 2 ^ lo % 2 ^ (hi - lo + 1)

/-- The signed reading of an `n`-bit field (R11). -/
def sext (n v : Nat) : Int := if v < 2 ^ (n - 1) then (v : Int) else (v : Int) - (2 ^ n : Nat)

/-- The `n`-bit field of a signed immediate. -/
def unsext (n : Nat) (i : Int) : Nat := (i % ((2 ^ n : Nat) : Int)).toNat

/-- Token field of R144: five bits, the top one for "posts". -/
def tkOf (t : Nat) : Option Nat := if t < 16 then none else some (t - 16)

def tkEnc : Option Nat → Nat
  | none => 0
  | some n => 16 + n

def boolOf (n : Nat) : Bool := n == 1

def boolEnc (b : Bool) : Nat := if b then 1 else 0

/-! ### Scalar words (R145 to R151) -/

/-- Format SR: OP, D, A, B, F. -/
def encSR (op d a b f : Nat) : Nat := op * 2 ^ 26 + d * 2 ^ 18 + a * 2 ^ 10 + b * 4 + f

/-- Format SI: OP, D, A, IMM[9:0]. -/
def encSI (op d a imm : Nat) : Nat := op * 2 ^ 26 + d * 2 ^ 18 + a * 2 ^ 10 + imm

/-- Format SL: OP, D, IMM[17:0]. -/
def encSL (op d imm : Nat) : Nat := op * 2 ^ 26 + d * 2 ^ 18 + imm

/-- Format SC of the CAP major: F, W, P, Q. -/
def encSC (f w p q : Nat) : Nat := 0x18 * 2 ^ 26 + f * 2 ^ 20 + w * 2 ^ 12 + p * 2 ^ 6 + q

/-- Format SM: OP, D, cA, TK, OFF. -/
def encSM (op d a : Nat) (tk : Option Nat) (off : Nat) : Nat :=
  op * 2 ^ 26 + d * 2 ^ 18 + a * 2 ^ 12 + tkEnc tk * 2 ^ 7 + off

/-- Format SMX: OP, D, cA, TK, ORD, SCOPE, K. -/
def encSMX (op k d a : Nat) (tk : Option Nat) (o : Ord) (s : Scope) : Nat :=
  op * 2 ^ 26 + d * 2 ^ 18 + a * 2 ^ 12 + tkEnc tk * 2 ^ 7 + o.code * 2 ^ 5 + s.code * 2 ^ 2 + k

/-- MISC and PRIV majors: OP, F [25:22], sD [21:14], low field. -/
def encMisc (op f d low : Nat) : Nat := op * 2 ^ 26 + f * 2 ^ 22 + d * 2 ^ 14 + low

/-- The word of a scalar instruction (R145 to R151); none for what has no scalar encoding. -/
def encodeScalar : Instr → Option Nat
  | .add d a b => some (encSR 0x01 d a b 0)
  | .sub d a b => some (encSR 0x01 d a b 1)
  | .and d a b => some (encSR 0x01 d a b 2)
  | .or d a b => some (encSR 0x01 d a b 3)
  | .xor d a b => some (encSR 0x02 d a b 0)
  | .andn d a b => some (encSR 0x02 d a b 1)
  | .shl d a b => some (encSR 0x02 d a b 2)
  | .shr d a b => some (encSR 0x02 d a b 3)
  | .sra d a b => some (encSR 0x03 d a b 0)
  | .rol d a b => some (encSR 0x03 d a b 1)
  | .slt d a b => some (encSR 0x03 d a b 2)
  | .sltu d a b => some (encSR 0x03 d a b 3)
  | .min d a b => some (encSR 0x04 d a b 0)
  | .max d a b => some (encSR 0x04 d a b 1)
  | .minu d a b => some (encSR 0x04 d a b 2)
  | .maxu d a b => some (encSR 0x04 d a b 3)
  | .mul d a b => some (encSR 0x05 d a b 0)
  | .mulh d a b => some (encSR 0x05 d a b 1)
  | .mulhu d a b => some (encSR 0x05 d a b 2)
  | .div d a b => some (encSR 0x06 d a b 0)
  | .divu d a b => some (encSR 0x06 d a b 1)
  | .rem d a b => some (encSR 0x06 d a b 2)
  | .remu d a b => some (encSR 0x06 d a b 3)
  | .addI64 d a b => some (encSR 0x07 d a b 0)
  | .subI64 d a b => some (encSR 0x07 d a b 1)
  | .shlI64 d a b => some (encSR 0x07 d a b 2)
  | .shrI64 d a b => some (encSR 0x07 d a b 3)
  | .sraI64 d a b => some (encSR 0x08 d a b 0)
  | .mulI64 d a b => some (encSR 0x08 d a b 1)
  | .sltI64 d a b => some (encSR 0x08 d a b 2)
  | .sltuI64 d a b => some (encSR 0x08 d a b 3)
  | .popc d a => some (encSR 0x09 d a 0 0)
  | .clz d a => some (encSR 0x09 d a 0 1)
  | .ctz d a => some (encSR 0x09 d a 0 2)
  | .brev d a => some (encSR 0x09 d a 0 3)
  | .bfe d a b => some (encSR 0x0A d a b 0)
  | .bfeu d a b => some (encSR 0x0A d a b 1)
  | .bfi d a b => some (encSR 0x0A d a b 2)
  | .addi d a i => some (encSI 0x0B d a (unsext 10 i))
  | .andi d a i => some (encSI 0x0C d a (unsext 10 i))
  | .ori d a i => some (encSI 0x0D d a (unsext 10 i))
  | .xori d a i => some (encSI 0x0E d a (unsext 10 i))
  | .slti d a i => some (encSI 0x0F d a (unsext 10 i))
  | .sltui d a i => some (encSI 0x10 d a (unsext 10 i))
  | .shli d a s => some (encSI 0x11 d a s)
  | .shri d a s => some (encSI 0x11 d a (1 * 2 ^ 5 + s))
  | .srai d a s => some (encSI 0x11 d a (2 * 2 ^ 5 + s))
  | .roli d a s => some (encSI 0x11 d a (3 * 2 ^ 5 + s))
  | .muli d a i => some (encSI 0x12 d a (unsext 10 i))
  | .li d i => some (encSL 0x13 d (unsext 18 i))
  | .lih d i => some (encSL 0x14 d i)
  | .bcCond c a off => some (0x15 * 2 ^ 26 + c.code * 2 ^ 22 + a * 2 ^ 14 + unsext 14 off)
  | .jal off => some (0x16 * 2 ^ 26 + unsext 26 off)
  | .land nw => some (0x17 * 2 ^ 26 + nw * 2 ^ 22)
  | .cmov p q => some (encSC 0x00 0 p q)
  | .cgetaddr w p => some (encSC 0x01 w p 0)
  | .cgetbase w p => some (encSC 0x02 w p 0)
  | .cgettop w p => some (encSC 0x03 w p 0)
  | .cgetlen w p => some (encSC 0x04 w p 0)
  | .cgetperm w p => some (encSC 0x05 w p 0)
  | .cgetseal w p => some (encSC 0x06 w p 0)
  | .cgetowner w p => some (encSC 0x07 w p 0)
  | .cgettag w p => some (encSC 0x08 w p 0)
  | .csetaddr w p q => some (encSC 0x09 w p q)
  | .cinc w p q => some (encSC 0x0A w p q)
  | .csetbnd w p q => some (encSC 0x0B w p q)
  | .csetbndx w p q => some (encSC 0x0C w p q)
  | .cnarrow w p q => some (encSC 0x0D w p q)
  | .cwrap w p q => some (encSC 0x0E w p q)
  | .cunwrap w p q => some (encSC 0x0F w p q)
  | .cwithin w p q => some (encSC 0x10 w p q)
  | .cj p => some (encSC 0x11 0 p 0)
  | .cjal p => some (encSC 0x12 0 p 0)
  | .cinci d a i => some (0x19 * 2 ^ 26 + d * 2 ^ 20 + a * 2 ^ 14 + unsext 14 i)
  | .ldI8 d a tk off => some (encSM 0x1A d a tk off)
  | .ldN8 d a tk off => some (encSM 0x1B d a tk off)
  | .ldI16 d a tk off => some (encSM 0x1C d a tk off)
  | .ldN16 d a tk off => some (encSM 0x1D d a tk off)
  | .ldN32 d a tk off => some (encSM 0x1E d a tk off)
  | .ldN64 d a tk off => some (encSM 0x1F d a tk off)
  | .stN8 d a tk off => some (encSM 0x20 d a tk off)
  | .stN16 d a tk off => some (encSM 0x21 d a tk off)
  | .stN32 d a tk off => some (encSM 0x22 d a tk off)
  | .stN64 d a tk off => some (encSM 0x23 d a tk off)
  | .ldc d a tk off => some (encSM 0x24 d a tk off)
  | .stc d a tk off => some (encSM 0x25 d a tk off)
  | .ldxN8 d a tk o s => some (encSMX 0x26 0 d a tk o s)
  | .ldxN16 d a tk o s => some (encSMX 0x26 1 d a tk o s)
  | .ldxN32 d a tk o s => some (encSMX 0x26 2 d a tk o s)
  | .ldxN64 d a tk o s => some (encSMX 0x26 3 d a tk o s)
  | .stxN8 d a tk o s => some (encSMX 0x27 0 d a tk o s)
  | .stxN16 d a tk o s => some (encSMX 0x27 1 d a tk o s)
  | .stxN32 d a tk o s => some (encSMX 0x27 2 d a tk o s)
  | .stxN64 d a tk o s => some (encSMX 0x27 3 d a tk o s)
  | .ldcx d a tk o s => some (encSMX 0x28 0 d a tk o s)
  | .stcx d a tk o s => some (encSMX 0x28 1 d a tk o s)
  | .amoAddN32 d a tk o s => some (encSMX 0x29 0 d a tk o s)
  | .amoAndN32 d a tk o s => some (encSMX 0x29 1 d a tk o s)
  | .amoOrN32 d a tk o s => some (encSMX 0x29 2 d a tk o s)
  | .amoXorN32 d a tk o s => some (encSMX 0x29 3 d a tk o s)
  | .amoMinI32 d a tk o s => some (encSMX 0x2A 0 d a tk o s)
  | .amoMaxI32 d a tk o s => some (encSMX 0x2A 1 d a tk o s)
  | .amoMinN32 d a tk o s => some (encSMX 0x2A 2 d a tk o s)
  | .amoMaxN32 d a tk o s => some (encSMX 0x2A 3 d a tk o s)
  | .amoSwapN32 d a tk o s => some (encSMX 0x2B 0 d a tk o s)
  | .amoCasN32 d a tk o s => some (encSMX 0x2B 1 d a tk o s)
  | .amoSwapN64 d a tk o s => some (encSMX 0x2B 2 d a tk o s)
  | .amoCasN64 d a tk o s => some (encSMX 0x2B 3 d a tk o s)
  | .amoAddN64 d a tk o s => some (encSMX 0x2C 0 d a tk o s)
  | .fence o s => some (0x2D * 2 ^ 26 + o.code * 2 ^ 24 + s.code * 2 ^ 21)
  | .lrun tk a n off =>
    some (0x2E * 2 ^ 26 + tkEnc tk * 2 ^ 21 + a * 2 ^ 15 + (n - 1) * 2 ^ 7 + unsext 7 off)
  | .emr d => some (encSR 0x2F d 0 0 0)
  | .emw a => some (encSR 0x2F 0 a 0 1)
  | .lmr d => some (encSR 0x2F d 0 0 2)
  | .bar o fl => some (0x30 * 2 ^ 26 + o * 2 ^ 22 + 0 * 2 ^ 20 + boolEnc fl * 2 ^ 19)
  | .barArrive o fl => some (0x30 * 2 ^ 26 + o * 2 ^ 22 + 1 * 2 ^ 20 + boolEnc fl * 2 ^ 19)
  | .barWait o => some (0x30 * 2 ^ 26 + o * 2 ^ 22 + 2 * 2 ^ 20)
  | .wtok tk thr => some (0x31 * 2 ^ 26 + 0 * 2 ^ 24 + tk * 2 ^ 20 + thr)
  | .wtokReg tk b => some (0x31 * 2 ^ 26 + 0 * 2 ^ 24 + tk * 2 ^ 20 + 1 * 2 ^ 19 + b)
  | .tkr tk d => some (0x31 * 2 ^ 26 + 1 * 2 ^ 24 + tk * 2 ^ 20 + d)
  | .pause n => some (0x31 * 2 ^ 26 + 2 * 2 ^ 24 + (n - 1))
  | .dly n => some (0x31 * 2 ^ 26 + 3 * 2 ^ 24 + (n - 1))
  | .yld tk r off => some (0x32 * 2 ^ 26 + tk * 2 ^ 22 + r * 2 ^ 14 + unsext 14 off)
  | .qpushQcopy r => some (0x33 * 2 ^ 26 + 0 * 2 ^ 25 + 0 * 2 ^ 23 + r * 2 ^ 15)
  | .qpushQcoll r => some (0x33 * 2 ^ 26 + 0 * 2 ^ 25 + 1 * 2 ^ 23 + r * 2 ^ 15)
  | .qpopQmat r => some (0x33 * 2 ^ 26 + 1 * 2 ^ 25 + 2 * 2 ^ 23 + r * 2 ^ 15)
  | .msend a tk => some (0x34 * 2 ^ 26 + 0 * 2 ^ 24 + a * 2 ^ 18 + tkEnc tk * 2 ^ 13)
  | .mrecv a tk => some (0x34 * 2 ^ 26 + 1 * 2 ^ 24 + a * 2 ^ 18 + tkEnc tk * 2 ^ 13)
  | .mcall a tk => some (0x34 * 2 ^ 26 + 2 * 2 ^ 24 + a * 2 ^ 18 + tkEnc tk * 2 ^ 13)
  | .mreply tk => some (0x34 * 2 ^ 26 + 3 * 2 ^ 24 + tkEnc tk * 2 ^ 13)
  | .glaunch d a b tk => some (0x35 * 2 ^ 26 + 0 * 2 ^ 25 + d * 2 ^ 17 + a * 2 ^ 11 + b * 2 ^ 5 + tkEnc tk)
  | .gsub d a tk => some (0x35 * 2 ^ 26 + 1 * 2 ^ 25 + d * 2 ^ 17 + a * 2 ^ 11 + tkEnc tk)
  | .wset t r tk => some (0x36 * 2 ^ 26 + 0 * 2 ^ 25 + t * 2 ^ 19 + r * 2 ^ 11 + tkEnc tk * 2 ^ 6)
  | .wget t r tk => some (0x36 * 2 ^ 26 + 1 * 2 ^ 25 + t * 2 ^ 19 + r * 2 ^ 11 + tkEnc tk * 2 ^ 6)
  | .nop => some (encMisc 0x37 0 0 0)
  | .gend => some (encMisc 0x37 1 0 0)
  | .brk code => some (encMisc 0x37 2 0 code)
  | .rdtime d => some (encMisc 0x37 3 d 0)
  | .rdid d sel => some (encMisc 0x37 4 d sel)
  | .pgreq a tk => some (encMisc 0x37 5 a (tkEnc tk))
  | .fsrr d => some (encMisc 0x37 6 d 0)
  | .fsrw d => some (encMisc 0x37 7 d 0)
  | .mxcr d => some (encMisc 0x37 8 d 0)
  | .mxcw d => some (encMisc 0x37 9 d 0)
  | .eret => some (encMisc 0x38 0 0 0)
  | .ctlr d n => some (encMisc 0x38 1 d n)
  | .ctlw d n => some (encMisc 0x38 2 d n)
  | .tlbi a b k => some (0x38 * 2 ^ 26 + 3 * 2 ^ 22 + a * 2 ^ 16 + b * 2 ^ 8 + k.code * 2 ^ 6)
  | .swp d => some (encMisc 0x38 4 d 0)
  | .keyk d => some (encMisc 0x38 5 d 0)
  | .sealctx d a b => some (0x38 * 2 ^ 26 + 6 * 2 ^ 22 + d * 2 ^ 16 + a * 2 ^ 10 + b * 2 ^ 2)
  | .wfi => some (encMisc 0x38 7 0 0)
  | .xstep => some (encMisc 0x38 8 0 0)
  | _ => none

/-- Reads format SR. -/
def srOf (w : Nat) (f : Nat → Nat → Nat → Instr) : Option Instr :=
  some (f (bitsOf w 25 18) (bitsOf w 17 10) (bitsOf w 9 2))

/-- Reads format SR with two operands. -/
def sr2Of (w : Nat) (f : Nat → Nat → Instr) : Option Instr := some (f (bitsOf w 25 18) (bitsOf w 17 10))

/-- Reads format SI. -/
def siOf (w : Nat) (f : Nat → Nat → Int → Instr) : Option Instr :=
  some (f (bitsOf w 25 18) (bitsOf w 17 10) (sext 10 (bitsOf w 9 0)))

/-- Reads the W and P fields of format SC. -/
def scWP (w : Nat) (f : Nat → Nat → Instr) : Option Instr := some (f (bitsOf w 19 12) (bitsOf w 11 6))

/-- Reads the W, P and Q fields of format SC. -/
def scWPQ (w : Nat) (f : Nat → Nat → Nat → Instr) : Option Instr :=
  some (f (bitsOf w 19 12) (bitsOf w 11 6) (bitsOf w 5 0))

/-- Reads format SM. -/
def smOf (w : Nat) (f : Nat → Nat → Option Nat → Nat → Instr) : Option Instr :=
  some (f (bitsOf w 25 18) (bitsOf w 17 12) (tkOf (bitsOf w 11 7)) (bitsOf w 6 0))

/-- Reads format SMX. -/
def smxOf (w : Nat) (f : Nat → Nat → Option Nat → Ord → Scope → Instr) : Option Instr :=
  match Ord.ofCode (bitsOf w 6 5), Scope.ofCode (bitsOf w 4 2) with
  | some o, some s => some (f (bitsOf w 25 18) (bitsOf w 17 12) (tkOf (bitsOf w 11 7)) o s)
  | _, _ => none

/-- The CAP major (R148). -/
def capOf (w : Nat) : Option Instr :=
  match bitsOf w 25 20 with
  | 0x00 => some (.cmov (bitsOf w 11 6) (bitsOf w 5 0))
  | 0x01 => scWP w .cgetaddr
  | 0x02 => scWP w .cgetbase
  | 0x03 => scWP w .cgettop
  | 0x04 => scWP w .cgetlen
  | 0x05 => scWP w .cgetperm
  | 0x06 => scWP w .cgetseal
  | 0x07 => scWP w .cgetowner
  | 0x08 => scWP w .cgettag
  | 0x09 => scWPQ w .csetaddr
  | 0x0A => scWPQ w .cinc
  | 0x0B => scWPQ w .csetbnd
  | 0x0C => scWPQ w .csetbndx
  | 0x0D => scWPQ w .cnarrow
  | 0x0E => scWPQ w .cwrap
  | 0x0F => scWPQ w .cunwrap
  | 0x10 => scWPQ w .cwithin
  | 0x11 => some (.cj (bitsOf w 11 6))
  | 0x12 => some (.cjal (bitsOf w 11 6))
  | _ => none

/-- The MISC major (R151, R188). -/
def miscOf (w : Nat) : Option Instr :=
  match bitsOf w 25 22 with
  | 0 => some .nop
  | 1 => some .gend
  | 2 => some (.brk (bitsOf w 13 0))
  | 3 => some (.rdtime (bitsOf w 21 14))
  | 4 => some (.rdid (bitsOf w 21 14) (bitsOf w 5 0))
  | 5 => some (.pgreq (bitsOf w 19 14) (tkOf (bitsOf w 4 0)))
  | 6 => some (.fsrr (bitsOf w 21 14))
  | 7 => some (.fsrw (bitsOf w 21 14))
  | 8 => some (.mxcr (bitsOf w 21 14))
  | 9 => some (.mxcw (bitsOf w 21 14))
  | _ => none

/-- The PRIV major (R151). -/
def privOf (w : Nat) : Option Instr :=
  match bitsOf w 25 22 with
  | 0 => some .eret
  | 1 => some (.ctlr (bitsOf w 21 14) (bitsOf w 13 0))
  | 2 => some (.ctlw (bitsOf w 21 14) (bitsOf w 13 0))
  | 3 => (TlbKind.ofCode (bitsOf w 7 6)).map (.tlbi (bitsOf w 21 16) (bitsOf w 15 8))
  | 4 => some (.swp (bitsOf w 21 14))
  | 5 => some (.keyk (bitsOf w 21 14))
  | 6 => some (.sealctx (bitsOf w 21 16) (bitsOf w 15 10) (bitsOf w 9 2))
  | 7 => some .wfi
  | 8 => some .xstep
  | _ => none

/-- The TOKEN major (R151, R182). -/
def tokenOf (w : Nat) : Option Instr :=
  match bitsOf w 25 24 with
  | 0 => if bitsOf w 19 19 = 0 then some (.wtok (bitsOf w 23 20) (bitsOf w 15 0))
         else some (.wtokReg (bitsOf w 23 20) (bitsOf w 7 0))
  | 1 => some (.tkr (bitsOf w 23 20) (bitsOf w 7 0))
  | 2 => some (.pause (bitsOf w 5 0 + 1))
  | _ => some (.dly (bitsOf w 5 0 + 1))

/-- The reading of a scalar word's fields by its major opcode (R146). -/
def scalarOf (w : Nat) : Option Instr :=
  match bitsOf w 31 26 with
  | 0x01 => match bitsOf w 1 0 with
    | 0 => srOf w .add | 1 => srOf w .sub | 2 => srOf w .and | _ => srOf w .or
  | 0x02 => match bitsOf w 1 0 with
    | 0 => srOf w .xor | 1 => srOf w .andn | 2 => srOf w .shl | _ => srOf w .shr
  | 0x03 => match bitsOf w 1 0 with
    | 0 => srOf w .sra | 1 => srOf w .rol | 2 => srOf w .slt | _ => srOf w .sltu
  | 0x04 => match bitsOf w 1 0 with
    | 0 => srOf w .min | 1 => srOf w .max | 2 => srOf w .minu | _ => srOf w .maxu
  | 0x05 => match bitsOf w 1 0 with
    | 0 => srOf w .mul | 1 => srOf w .mulh | 2 => srOf w .mulhu | _ => none
  | 0x06 => match bitsOf w 1 0 with
    | 0 => srOf w .div | 1 => srOf w .divu | 2 => srOf w .rem | _ => srOf w .remu
  | 0x07 => match bitsOf w 1 0 with
    | 0 => srOf w .addI64 | 1 => srOf w .subI64 | 2 => srOf w .shlI64 | _ => srOf w .shrI64
  | 0x08 => match bitsOf w 1 0 with
    | 0 => srOf w .sraI64 | 1 => srOf w .mulI64 | 2 => srOf w .sltI64 | _ => srOf w .sltuI64
  | 0x09 => match bitsOf w 1 0 with
    | 0 => sr2Of w .popc | 1 => sr2Of w .clz | 2 => sr2Of w .ctz | _ => sr2Of w .brev
  | 0x0A => match bitsOf w 1 0 with
    | 0 => srOf w .bfe | 1 => srOf w .bfeu | 2 => srOf w .bfi | _ => none
  | 0x0B => siOf w .addi
  | 0x0C => siOf w .andi
  | 0x0D => siOf w .ori
  | 0x0E => siOf w .xori
  | 0x0F => siOf w .slti
  | 0x10 => siOf w .sltui
  | 0x11 => match bitsOf w 9 5 with
    | 0 => some (.shli (bitsOf w 25 18) (bitsOf w 17 10) (bitsOf w 4 0))
    | 1 => some (.shri (bitsOf w 25 18) (bitsOf w 17 10) (bitsOf w 4 0))
    | 2 => some (.srai (bitsOf w 25 18) (bitsOf w 17 10) (bitsOf w 4 0))
    | 3 => some (.roli (bitsOf w 25 18) (bitsOf w 17 10) (bitsOf w 4 0))
    | _ => none
  | 0x12 => siOf w .muli
  | 0x13 => some (.li (bitsOf w 25 18) (sext 18 (bitsOf w 17 0)))
  | 0x14 => some (.lih (bitsOf w 25 18) (bitsOf w 17 0))
  | 0x15 => (Cond.ofCode (bitsOf w 25 22)).map fun c => .bcCond c (bitsOf w 21 14) (sext 14 (bitsOf w 13 0))
  | 0x16 => some (.jal (sext 26 (bitsOf w 25 0)))
  | 0x17 => some (.land (bitsOf w 25 22))
  | 0x18 => capOf w
  | 0x19 => some (.cinci (bitsOf w 25 20) (bitsOf w 19 14) (sext 14 (bitsOf w 13 0)))
  | 0x1A => smOf w .ldI8
  | 0x1B => smOf w .ldN8
  | 0x1C => smOf w .ldI16
  | 0x1D => smOf w .ldN16
  | 0x1E => smOf w .ldN32
  | 0x1F => smOf w .ldN64
  | 0x20 => smOf w .stN8
  | 0x21 => smOf w .stN16
  | 0x22 => smOf w .stN32
  | 0x23 => smOf w .stN64
  | 0x24 => smOf w .ldc
  | 0x25 => smOf w .stc
  | 0x26 => match bitsOf w 1 0 with
    | 0 => smxOf w .ldxN8 | 1 => smxOf w .ldxN16 | 2 => smxOf w .ldxN32 | _ => smxOf w .ldxN64
  | 0x27 => match bitsOf w 1 0 with
    | 0 => smxOf w .stxN8 | 1 => smxOf w .stxN16 | 2 => smxOf w .stxN32 | _ => smxOf w .stxN64
  | 0x28 => match bitsOf w 1 0 with
    | 0 => smxOf w .ldcx | 1 => smxOf w .stcx | _ => none
  | 0x29 => match bitsOf w 1 0 with
    | 0 => smxOf w .amoAddN32 | 1 => smxOf w .amoAndN32 | 2 => smxOf w .amoOrN32 | _ => smxOf w .amoXorN32
  | 0x2A => match bitsOf w 1 0 with
    | 0 => smxOf w .amoMinI32 | 1 => smxOf w .amoMaxI32 | 2 => smxOf w .amoMinN32 | _ => smxOf w .amoMaxN32
  | 0x2B => match bitsOf w 1 0 with
    | 0 => smxOf w .amoSwapN32 | 1 => smxOf w .amoCasN32 | 2 => smxOf w .amoSwapN64 | _ => smxOf w .amoCasN64
  | 0x2C => match bitsOf w 1 0 with
    | 0 => smxOf w .amoAddN64 | _ => none
  | 0x2D => match Ord.ofCode (bitsOf w 25 24), Scope.ofCode (bitsOf w 23 21) with
    | some o, some s => some (.fence o s)
    | _, _ => none
  | 0x2E => some (.lrun (tkOf (bitsOf w 25 21)) (bitsOf w 20 15) (bitsOf w 14 7 + 1) (sext 7 (bitsOf w 6 0)))
  | 0x2F => match bitsOf w 1 0 with
    | 0 => some (.emr (bitsOf w 25 18)) | 1 => some (.emw (bitsOf w 17 10))
    | 2 => some (.lmr (bitsOf w 25 18)) | _ => none
  | 0x30 => match bitsOf w 21 20 with
    | 0 => some (.bar (bitsOf w 25 22) (boolOf (bitsOf w 19 19)))
    | 1 => some (.barArrive (bitsOf w 25 22) (boolOf (bitsOf w 19 19)))
    | 2 => some (.barWait (bitsOf w 25 22))
    | _ => none
  | 0x31 => tokenOf w
  | 0x32 => some (.yld (bitsOf w 25 22) (bitsOf w 21 14) (sext 14 (bitsOf w 13 0)))
  | 0x33 => match bitsOf w 25 23 with
    | 0 => some (.qpushQcopy (bitsOf w 22 15))
    | 1 => some (.qpushQcoll (bitsOf w 22 15))
    | 6 => some (.qpopQmat (bitsOf w 22 15))
    | _ => none
  | 0x34 => match bitsOf w 25 24 with
    | 0 => some (.msend (bitsOf w 23 18) (tkOf (bitsOf w 17 13)))
    | 1 => some (.mrecv (bitsOf w 23 18) (tkOf (bitsOf w 17 13)))
    | 2 => some (.mcall (bitsOf w 23 18) (tkOf (bitsOf w 17 13)))
    | _ => some (.mreply (tkOf (bitsOf w 17 13)))
  | 0x35 => if bitsOf w 25 25 = 0
    then some (.glaunch (bitsOf w 24 17) (bitsOf w 16 11) (bitsOf w 10 5) (tkOf (bitsOf w 4 0)))
    else some (.gsub (bitsOf w 24 17) (bitsOf w 16 11) (tkOf (bitsOf w 4 0)))
  | 0x36 => if bitsOf w 25 25 = 0
    then some (.wset (bitsOf w 24 19) (bitsOf w 18 11) (tkOf (bitsOf w 10 6)))
    else some (.wget (bitsOf w 24 19) (bitsOf w 18 11) (tkOf (bitsOf w 10 6)))
  | 0x37 => miscOf w
  | 0x38 => privOf w
  | _ => none

/-- Decoding of the scalar stream's words (R142 steps 1 and 2, R145 to R151). -/
def decodeScalar (w : Nat) : Except DecodeErr Instr :=
  match scalarOf w with
  | none => .error .unassigned
  | some i => if i.wf && encodeScalar i == some w then .ok i else .error .illegalField

/-! ### Lane words (R154 to R162) -/

/-- The fields of the lane layout (R154). -/
structure RawLane where
  op : Nat
  pr : Nat
  gn : Nat
  gp : Nat
  tk : Nat
  mod : Nat
  wbn : Nat
  dreg : Nat
  sa : Nat
  sb : Nat
  sc : Nat
  x : Nat
  deriving DecidableEq, Repr

/-- The 96-bit word of the fields (R154). -/
def RawLane.pack (r : RawLane) : Nat :=
  r.op * 2 ^ 89 + r.pr * 2 ^ 88 + r.gn * 2 ^ 87 + r.gp * 2 ^ 81 + r.tk * 2 ^ 76 + r.mod * 2 ^ 64 + r.wbn * 2 ^ 63
    + r.dreg * 2 ^ 52 + r.sa * 2 ^ 39 + r.sb * 2 ^ 26 + r.sc * 2 ^ 13 + r.x

/-- The fields of a 96-bit word. -/
def RawLane.unpack (w : Nat) : RawLane where
  op := bitsOf w 95 89
  pr := bitsOf w 88 88
  gn := bitsOf w 87 87
  gp := bitsOf w 86 81
  tk := bitsOf w 80 76
  mod := bitsOf w 75 64
  wbn := bitsOf w 63 63
  dreg := bitsOf w 61 52
  sa := bitsOf w 51 39
  sb := bitsOf w 38 26
  sc := bitsOf w 25 13
  x := bitsOf w 12 0

/-- A source field (R155). -/
def Src.enc : Src → Nat
  | .vreg n => n
  | .sreg n => 1024 + n
  | .latch n => 2048 + n
  | .pred n => 3072 + n
  | .imm v => 4096 + unsext 10 v
  | .special c => 5120 + c

/-- The reading of a source field; kinds 6 and 7 are none (R155). -/
def Src.ofEnc (s : Nat) : Option Src :=
  match s / 1024 with
  | 0 => some (.vreg (s % 1024))
  | 1 => some (.sreg (s % 1024))
  | 2 => some (.latch (s % 1024))
  | 3 => some (.pred (s % 1024))
  | 4 => some (.imm (sext 10 (s % 1024)))
  | 5 => some (.special (s % 1024))
  | _ => none

def CapSrc.enc : CapSrc → Nat
  | .vc n => n
  | .c n => 1024 + n

def CapSrc.ofEnc (s : Nat) : Option CapSrc :=
  match s / 1024 with
  | 0 => some (.vc (s % 1024))
  | 1 => some (.c (s % 1024))
  | _ => none

def Dst.wbn : Dst → Nat
  | .reg _ => 0
  | .none => 1

def Dst.num : Dst → Nat
  | .reg n => n
  | .none => 0

def Dst.ofRaw (r : RawLane) : Dst := if r.wbn = 0 then .reg r.dreg else .none

def LaneHdr.ofRaw (r : RawLane) : LaneHdr := ⟨boolOf r.pr, boolOf r.gn, r.gp⟩

/-- The fields every lane instruction shares, the rest zero. -/
def rawHdr (h : LaneHdr) (op : Nat) : RawLane :=
  ⟨op, boolEnc h.pr, boolEnc h.gn, h.gp, 0, 0, 0, 0, 0, 0, 0, 0⟩

/-- MOD of the integer class: TYPE, SAT (R160). -/
def modInt (ty : Ty) (sat : Bool) : Nat := ty.code * 2 ^ 8 + boolEnc sat * 2 ^ 7

/-- A fixed-latency form with destination, MOD and three encoded sources. -/
def rawAlu (h : LaneHdr) (op : Nat) (d : Dst) (mod a b c : Nat) : RawLane :=
  { rawHdr h op with mod := mod, wbn := d.wbn, dreg := d.num, sa := a, sb := b, sc := c }

/-- A vector capability form: function code in MOD (R159, R223). -/
def rawVc (h : LaneHdr) (f dreg sa sb : Nat) : RawLane :=
  { rawHdr h 0x52 with mod := f, dreg := dreg, sa := sa, sb := sb }

/-- MOD of the memory class: ORD, SCOPE, TYPE, low bits (R160). -/
def modMem (o : Ord) (s : Scope) (ty low : Nat) : Nat := o.code * 2 ^ 10 + s.code * 2 ^ 7 + ty * 2 ^ 3 + low

/-- MOD of the matrix class: FMT, PAIR, REUSE, ALAT, ACC (R160). -/
def modMat (fmt : Nat) (pair reuse alat : Bool) (acc : Nat) : Nat :=
  fmt * 2 ^ 8 + boolEnc pair * 2 ^ 7 + boolEnc reuse * 2 ^ 6 + boolEnc alat * 2 ^ 5 + acc * 2

/-- The fields of `mmac` and `mdist` (R257). -/
def rawMac (h : LaneHdr) (op : Nat) (fmt : MFmt) (pair reuse : Bool) (acc : Nat) (a : AOperand) (lw : Nat)
    (tk : Option Nat) : RawLane :=
  match a with
  | .regs v sc bsel =>
    { rawHdr h op with
      tk := tkEnc tk, mod := modMat fmt.code pair reuse false acc, sa := v, sb := 1024 + lw, sc := sc, x := bsel }
  | .alat =>
    { rawHdr h op with tk := tkEnc tk, mod := modMat fmt.code pair reuse true acc, sb := 1024 + lw }

/-- The fields of a lane instruction (R154, R159 to R162); none for what has no lane encoding. -/
def encodeRaw : Instr → Option RawLane
  | .iadd h d ty sat a b => some (rawAlu h 0x01 d (modInt ty sat) a.enc b.enc 0)
  | .isub h d ty sat a b => some (rawAlu h 0x02 d (modInt ty sat) a.enc b.enc 0)
  | .imul h d ty sat a b => some (rawAlu h 0x03 d (modInt ty sat) a.enc b.enc 0)
  | .imulhi h d ty a b => some (rawAlu h 0x04 d (modInt ty false) a.enc b.enc 0)
  | .imad h d ty sat a b c => some (rawAlu h 0x05 d (modInt ty sat) a.enc b.enc c.enc)
  | .imin h d ty a b => some (rawAlu h 0x06 d (modInt ty false) a.enc b.enc 0)
  | .imax h d ty a b => some (rawAlu h 0x07 d (modInt ty false) a.enc b.enc 0)
  | .iabs h d ty sat a => some (rawAlu h 0x08 d (modInt ty sat) a.enc 0 0)
  | .ineg h d ty sat a => some (rawAlu h 0x09 d (modInt ty sat) a.enc 0 0)
  | .iand h d ty a b => some (rawAlu h 0x0A d (modInt ty false) a.enc b.enc 0)
  | .ior h d ty a b => some (rawAlu h 0x0B d (modInt ty false) a.enc b.enc 0)
  | .ixor h d ty a b => some (rawAlu h 0x0C d (modInt ty false) a.enc b.enc 0)
  | .iandn h d ty a b => some (rawAlu h 0x0D d (modInt ty false) a.enc b.enc 0)
  | .inot h d ty a => some (rawAlu h 0x0E d (modInt ty false) a.enc 0 0)
  | .isel h d ty a b p => some (rawAlu h 0x0F d (modInt ty false) a.enc b.enc (3072 + p))
  | .ishl h d ty a b => some (rawAlu h 0x10 d (modInt ty false) a.enc b.enc 0)
  | .ishr h d ty a b => some (rawAlu h 0x11 d (modInt ty false) a.enc b.enc 0)
  | .isra h d ty a b => some (rawAlu h 0x12 d (modInt ty false) a.enc b.enc 0)
  | .ipopc h d ty a => some (rawAlu h 0x13 d (modInt ty false) a.enc 0 0)
  | .iclz h d ty a => some (rawAlu h 0x14 d (modInt ty false) a.enc 0 0)
  | .laneBrev h d ty a => some (rawAlu h 0x15 d (modInt ty false) a.enc 0 0)
  | .prmt h d a b c => some (rawAlu h 0x16 d (modInt .n32 false) a.enc b.enc c.enc)
  | .laneBfe h d ty a b => some (rawAlu h 0x17 d (modInt ty false) a.enc b.enc 0)
  | .laneBfi h d ty a b c => some (rawAlu h 0x18 d (modInt ty false) a.enc b.enc c.enc)
  | .idp4 h d ty sat a b c => some (rawAlu h 0x19 d (modInt ty sat) a.enc b.enc c.enc)
  | .fadd h d m a b => some (rawAlu h 0x20 d (m.code * 2 ^ 10) a.enc b.enc 0)
  | .fsub h d m a b => some (rawAlu h 0x21 d (m.code * 2 ^ 10) a.enc b.enc 0)
  | .fmul h d m a b => some (rawAlu h 0x22 d (m.code * 2 ^ 10) a.enc b.enc 0)
  | .ffma h d m a b c => some (rawAlu h 0x23 d (m.code * 2 ^ 10) a.enc b.enc c.enc)
  | .fmin h d a b => some (rawAlu h 0x24 d 0 a.enc b.enc 0)
  | .fmax h d a b => some (rawAlu h 0x25 d 0 a.enc b.enc 0)
  | .fabs h d a => some (rawAlu h 0x26 d 0 a.enc 0 0)
  | .fneg h d a => some (rawAlu h 0x27 d 0 a.enc 0 0)
  | .frcp h d m a => some (rawAlu h 0x28 d (m.code * 2 ^ 10) a.enc 0 0)
  | .frsq h d m a => some (rawAlu h 0x29 d (m.code * 2 ^ 10) a.enc 0 0)
  | .fsqrt h d m a => some (rawAlu h 0x2A d (m.code * 2 ^ 10) a.enc 0 0)
  | .fdiv h d m a b => some (rawAlu h 0x2B d (m.code * 2 ^ 10) a.enc b.enc 0)
  | .fexp2 h d a => some (rawAlu h 0x2C d 0 a.enc 0 0)
  | .flog2 h d a => some (rawAlu h 0x2D d 0 a.enc 0 0)
  | .dadd h d m a b => some (rawAlu h 0x30 d (m.code * 2 ^ 10) a.enc b.enc 0)
  | .dsub h d m a b => some (rawAlu h 0x31 d (m.code * 2 ^ 10) a.enc b.enc 0)
  | .dmul h d m a b => some (rawAlu h 0x32 d (m.code * 2 ^ 10) a.enc b.enc 0)
  | .dfma h d m a b c => some (rawAlu h 0x33 d (m.code * 2 ^ 10) a.enc b.enc c.enc)
  | .dmin h d a b => some (rawAlu h 0x34 d 0 a.enc b.enc 0)
  | .dmax h d a b => some (rawAlu h 0x35 d 0 a.enc b.enc 0)
  | .ddiv h d m a b => some (rawAlu h 0x36 d (m.code * 2 ^ 10) a.enc b.enc 0)
  | .dsqrt h d m a => some (rawAlu h 0x37 d (m.code * 2 ^ 10) a.enc 0 0)
  | .hadd2 h d m a b => some (rawAlu h 0x38 d (m.code * 2 ^ 10) a.enc b.enc 0)
  | .hmul2 h d m a b => some (rawAlu h 0x39 d (m.code * 2 ^ 10) a.enc b.enc 0)
  | .hfma2 h d m a b c => some (rawAlu h 0x3A d (m.code * 2 ^ 10) a.enc b.enc c.enc)
  | .badd2 h d m a b => some (rawAlu h 0x3B d (m.code * 2 ^ 10) a.enc b.enc 0)
  | .bmul2 h d m a b => some (rawAlu h 0x3C d (m.code * 2 ^ 10) a.enc b.enc 0)
  | .bfma2 h d m a b c => some (rawAlu h 0x3D d (m.code * 2 ^ 10) a.enc b.enc c.enc)
  | .bdot2 h d m a b c => some (rawAlu h 0x3E d (m.code * 2 ^ 10) a.enc b.enc c.enc)
  | .cvt h d m sat dty sty a bsel =>
    some { rawAlu h 0x40 d (m.code * 2 ^ 10 + boolEnc sat * 2 ^ 9 + dty.code * 2 ^ 4 + sty.code) a.enc 0 0 with
      x := bsel }
  | .sxpack h d sx a sc bsel blk =>
    some { rawHdr h 0x41 with
      mod := sx.code * 2 ^ 8 + 10 * 2 ^ 4, dreg := d, sa := a, sc := sc, x := blk * 2 ^ 2 + bsel }
  | .sxunpack h d m sx ty a sc bsel blk =>
    some { rawHdr h 0x42 with
      mod := m.code * 2 ^ 10 + sx.code * 2 ^ 8 + ty.code * 2 ^ 4, dreg := d, sa := a, sc := sc,
      x := blk * 2 ^ 2 + bsel }
  | .pset h p cmp ty a b =>
    some { rawHdr h 0x43 with mod := ty.code * 2 ^ 8 + cmp.code * 2 ^ 4, dreg := p, sa := a.enc, sb := b.enc }
  | .plop h p pa pb pc lut =>
    some { rawHdr h 0x44 with mod := lut, dreg := p, sa := 3072 + pa, sb := 3072 + pb, sc := 3072 + pc }
  | .pmov h (.toPred p a) => some { rawHdr h 0x45 with mod := 0, dreg := p, sa := a.enc }
  | .pmov h (.toVec d p) => some (rawAlu h 0x45 d 1 (3072 + p) 0 0)
  | .mov h d ty a => some (rawAlu h 0x46 d (ty.code * 2 ^ 8) a.enc 0 0)
  | .movi h d imm =>
    some { rawAlu h 0x47 d 0 0 (imm / 2 ^ 26) (imm / 2 ^ 13 % 2 ^ 13) with x := imm % 2 ^ 13 }
  | .rnd h d k c => some (rawAlu h 0x48 d 0 (1024 + k) c.enc 0)
  | .laneDly n => some { rawHdr ⟨false, false, 0⟩ 0x49 with x := n - 1 }
  | .shfl h m d a b => some (rawAlu h 0x4A d (m.code * 2 ^ 4) a.enc b.enc 0)
  | .vote h m d p tk => some { rawHdr h 0x4B with tk := 16 + tk, mod := m.code * 2 ^ 4, dreg := d, sa := 3072 + p }
  | .vballot h d p => some (rawAlu h 0x4C d 0 (3072 + p) 0 0)
  | .lred h op ty d a tk =>
    some { rawHdr h 0x4D with tk := 16 + tk, mod := ty.code * 2 ^ 8 + op.code * 2 ^ 4, dreg := d, sa := a.enc }
  | .lscan h op ty incl d a total tk =>
    some { rawHdr h 0x4E with
      tk := 16 + tk, mod := ty.code * 2 ^ 8 + op.code * 2 ^ 4 + boolEnc incl * 2 ^ 3, dreg := d, sa := a.enc,
      x := match total with
        | none => 0
        | some n => 2 ^ 8 + n }
  | .laneMatch h ty d a => some (rawAlu h 0x4F d (ty.code * 2 ^ 8) a.enc 0 0)
  | .lbrx h t c tk => some { rawHdr h 0x50 with tk := 16 + tk, sa := t, sb := 1024 + c }
  | .lend h tk => some { rawHdr h 0x51 with tk := tkEnc tk }
  | .vcmov h q p => some (rawVc h 0x00 q p.enc 0)
  | .vcgetaddr h w p => some (rawVc h 0x01 0 p.enc w)
  | .vcgetbase h w p => some (rawVc h 0x02 0 p.enc w)
  | .vcgettop h w p => some (rawVc h 0x03 0 p.enc w)
  | .vcgetlen h w p => some (rawVc h 0x04 0 p.enc w)
  | .vcgetperm h w p => some (rawVc h 0x05 0 p.enc w)
  | .vcgetseal h w p => some (rawVc h 0x06 0 p.enc w)
  | .vcgetowner h w p => some (rawVc h 0x07 0 p.enc w)
  | .vcgettag h w p => some (rawVc h 0x08 0 p.enc w)
  | .vcsetaddr h q p w => some (rawVc h 0x09 q p.enc w.enc)
  | .vcinc h q p w => some (rawVc h 0x0A q p.enc w.enc)
  | .vcsetbnd h q p w => some (rawVc h 0x0B q p.enc w.enc)
  | .vcsetbndx h q p w => some (rawVc h 0x0C q p.enc w.enc)
  | .vcnarrow h q p w => some (rawVc h 0x0D q p.enc w.enc)
  | .vcwrap h q p k => some (rawVc h 0x0E q p.enc k.enc)
  | .vcunwrap h q p k => some (rawVc h 0x0F q p.enc k.enc)
  | .vcwithin h w p q => some (rawVc h 0x10 q p.enc w)
  | .ld h ty o s ro d cap off imm tk =>
    some { rawHdr h 0x60 with
      tk := tkEnc tk, mod := modMem o s ty.code (boolEnc ro * 4), dreg := d, sa := cap.enc, sb := off.enc,
      x := unsext 13 imm }
  | .st h ty o s v cap off imm tk =>
    some { rawHdr h 0x61 with
      tk := tkEnc tk, mod := modMem o s ty.code 0, sa := cap.enc, sb := off.enc, sc := v.enc, x := unsext 13 imm }
  | .ldnr h ty o s ro d r cap off imm tk =>
    some { rawHdr h 0x62 with
      tk := tkEnc tk, mod := modMem o s ty.code (boolEnc ro * 4), dreg := d, sa := cap.enc, sb := off.enc,
      sc := 3072 + r, x := unsext 13 imm }
  | .ldsub h ty o s ro d cap off imm tk =>
    some { rawHdr h 0x63 with
      tk := tkEnc tk, mod := modMem o s ty.code (boolEnc ro * 4), dreg := d, sa := cap.enc, sb := off.enc,
      x := unsext 13 imm }
  | .subs h ty c b tk =>
    some { rawHdr h 0x64 with tk := tkEnc tk, mod := modMem .rlx .grp ty.code 0, sa := 1024 + c, sb := 1024 + b }
  | .unsubs h c b tk => some { rawHdr h 0x65 with tk := tkEnc tk, sa := 1024 + c, sb := 1024 + b }
  | .lds h ty o s d addr imm tk =>
    some { rawHdr h 0x66 with
      tk := tkEnc tk, mod := modMem o s ty.code 0, dreg := d, sa := addr.enc, x := unsext 13 imm }
  | .sts h ty o s v addr imm tk =>
    some { rawHdr h 0x67 with
      tk := tkEnc tk, mod := modMem o s ty.code 0, sa := addr.enc, sc := v.enc, x := unsext 13 imm }
  | .atom h op ty o s d cap off opnd imm tk =>
    some { rawHdr h 0x68 with
      tk := tkEnc tk, mod := modMem o s ty.code op.code, wbn := d.wbn, dreg := d.num, sa := cap.enc,
      sb := off.enc, sc := opnd.enc, x := unsext 13 imm }
  | .atoms h op ty o s d addr opnd imm tk =>
    some { rawHdr h 0x69 with
      tk := tkEnc tk, mod := modMem o s ty.code op.code, wbn := d.wbn, dreg := d.num, sa := addr.enc,
      sc := opnd.enc, x := unsext 13 imm }
  | .laneLdc h o s d cap off imm tk =>
    some { rawHdr h 0x6A with
      tk := tkEnc tk, mod := modMem o s 0 0, dreg := d, sa := cap.enc, sb := off.enc, x := unsext 13 imm }
  | .laneStc h o s v cap off imm tk =>
    some { rawHdr h 0x6B with
      tk := tkEnc tk, mod := modMem o s 0 0, sa := cap.enc, sb := off.enc, sc := v, x := unsext 13 imm }
  | .laneFence h o s tk => some { rawHdr h 0x6C with tk := tkEnc tk, mod := modMem o s 0 0 }
  | .fencex h src dst o s tk =>
    some { rawHdr h 0x6D with
      tk := tkEnc tk, mod := o.code * 2 ^ 10 + s.code * 2 ^ 7 + src.code * 2 ^ 4 + dst.code * 2 }
  | .pf h cap off imm tk =>
    some { rawHdr h 0x6E with tk := tkEnc tk, sa := cap.enc, sb := off.enc, x := unsext 13 imm }
  | .mmac h fmt pair reuse acc a lw tk => some (rawMac h 0x70 fmt pair reuse acc a lw tk)
  | .mdist h fmt pair reuse acc a lw tk => some (rawMac h 0x71 fmt pair reuse acc a lw tk)
  | .mtopk h pair acc k tk =>
    some { rawHdr h 0x72 with tk := tkEnc tk, mod := modMat 0 pair false false acc, x := k }
  | .mclr h pair acc tk => some { rawHdr h 0x73 with tk := tkEnc tk, mod := modMat 0 pair false false acc }
  | .mld h pair acc lw tk =>
    some { rawHdr h 0x74 with tk := tkEnc tk, mod := modMat 0 pair false false acc, sb := 1024 + lw }
  | .mst h pair acc lw tk =>
    some { rawHdr h 0x75 with tk := tkEnc tk, mod := modMat 0 pair false false acc, sb := 1024 + lw }
  | .mrd h d tk => some { rawHdr h 0x76 with tk := 16 + tk, dreg := d }
  | .tokc h d p c seq tok tk =>
    some { rawHdr h 0x78 with tk := 16 + tk, dreg := d, sa := 1024 + c, sb := seq.enc, sc := tok.enc, x := p }
  | .tokcDraft h d p c seq tok tk =>
    some { rawHdr h 0x78 with
      tk := 16 + tk, mod := 2 ^ 11, dreg := d, sa := 1024 + c, sb := seq.enc, sc := tok.enc, x := p }
  | .tokcf h d p c seq n tk =>
    some { rawHdr h 0x79 with tk := 16 + tk, dreg := d, sa := 1024 + c, sb := seq.enc, x := n * 2 ^ 6 + p }
  | .tokrj h c seq tk => some { rawHdr h 0x7A with tk := tkEnc tk, sa := 1024 + c, sb := seq.enc }
  | .tokf h d c seq tk => some { rawHdr h 0x7B with tk := 16 + tk, dreg := d, sa := 1024 + c, sb := seq.enc }
  | _ => none

/-- The 96-bit word of a lane instruction. -/
def encodeLane (i : Instr) : Option Nat := (encodeRaw i).map RawLane.pack

/-- The integer class: TYPE and SAT. -/
def intOf (r : RawLane) (f : Ty → Bool → Option Instr) : Option Instr :=
  (Ty.ofCode (r.mod / 2 ^ 8)).bind fun ty => f ty (boolOf (r.mod / 2 ^ 7 % 2))

/-- One, two or three sources. -/
def src1 (r : RawLane) (f : Src → Instr) : Option Instr := (Src.ofEnc r.sa).map f

def src2 (r : RawLane) (f : Src → Src → Instr) : Option Instr :=
  (Src.ofEnc r.sa).bind fun a => (Src.ofEnc r.sb).map (f a)

def src3 (r : RawLane) (f : Src → Src → Src → Instr) : Option Instr :=
  (Src.ofEnc r.sa).bind fun a => (Src.ofEnc r.sb).bind fun b => (Src.ofEnc r.sc).map (f a b)

/-- RND of the floating-point classes. -/
def rndOf (r : RawLane) (f : Rnd → Option Instr) : Option Instr := (Rnd.ofCode (r.mod / 2 ^ 10)).bind f

/-- The capability operand in SA. -/
def capSrc (r : RawLane) (f : CapSrc → Option Instr) : Option Instr := (CapSrc.ofEnc r.sa).bind f

/-- The ORD, SCOPE of a memory instruction. -/
def ordScope (r : RawLane) (f : Ord → Scope → Option Instr) : Option Instr :=
  (Ord.ofCode (r.mod / 2 ^ 10)).bind fun o => (Scope.ofCode (r.mod / 2 ^ 7 % 8)).bind (f o)

/-- The TYPE of a memory instruction. -/
def memTy (r : RawLane) (f : Ty → Option Instr) : Option Instr := (Ty.ofCode (r.mod / 2 ^ 3 % 16)).bind f

/-- The vector capability functions (R159, R223). -/
def vcOf (r : RawLane) : Option Instr :=
  let h := LaneHdr.ofRaw r
  match r.mod with
  | 0x00 => capSrc r fun p => some (.vcmov h r.dreg p)
  | 0x01 => capSrc r fun p => some (.vcgetaddr h r.sb p)
  | 0x02 => capSrc r fun p => some (.vcgetbase h r.sb p)
  | 0x03 => capSrc r fun p => some (.vcgettop h r.sb p)
  | 0x04 => capSrc r fun p => some (.vcgetlen h r.sb p)
  | 0x05 => capSrc r fun p => some (.vcgetperm h r.sb p)
  | 0x06 => capSrc r fun p => some (.vcgetseal h r.sb p)
  | 0x07 => capSrc r fun p => some (.vcgetowner h r.sb p)
  | 0x08 => capSrc r fun p => some (.vcgettag h r.sb p)
  | 0x09 => capSrc r fun p => (Src.ofEnc r.sb).map (.vcsetaddr h r.dreg p)
  | 0x0A => capSrc r fun p => (Src.ofEnc r.sb).map (.vcinc h r.dreg p)
  | 0x0B => capSrc r fun p => (Src.ofEnc r.sb).map (.vcsetbnd h r.dreg p)
  | 0x0C => capSrc r fun p => (Src.ofEnc r.sb).map (.vcsetbndx h r.dreg p)
  | 0x0D => capSrc r fun p => (Src.ofEnc r.sb).map (.vcnarrow h r.dreg p)
  | 0x0E => capSrc r fun p => (CapSrc.ofEnc r.sb).map (.vcwrap h r.dreg p)
  | 0x0F => capSrc r fun p => (CapSrc.ofEnc r.sb).map (.vcunwrap h r.dreg p)
  | 0x10 => capSrc r fun p => some (.vcwithin h r.sb p r.dreg)
  | _ => none

/-- The reading of `mmac` and `mdist` (R257). -/
def macOf (r : RawLane) (f : MFmt → Bool → Bool → Nat → AOperand → Nat → Option Nat → Instr) : Option Instr :=
  (MFmt.ofCode (r.mod / 2 ^ 8)).map fun fmt =>
    f fmt (boolOf (r.mod / 2 ^ 7 % 2)) (boolOf (r.mod / 2 ^ 6 % 2)) (r.mod / 2 % 16)
      (if r.mod / 2 ^ 5 % 2 = 1 then .alat else .regs r.sa r.sc r.x) (r.sb - 1024) (tkOf r.tk)

/-- The reading of a lane word's fields by its opcode (R159). -/
noncomputable def laneOf (r : RawLane) : Option Instr :=
  let h := LaneHdr.ofRaw r
  let d := Dst.ofRaw r
  let tk := tkOf r.tk
  let imm := sext 13 r.x
  match r.op with
  | 0x01 => intOf r fun ty sat => src2 r (.iadd h d ty sat)
  | 0x02 => intOf r fun ty sat => src2 r (.isub h d ty sat)
  | 0x03 => intOf r fun ty sat => src2 r (.imul h d ty sat)
  | 0x04 => intOf r fun ty _ => src2 r (.imulhi h d ty)
  | 0x05 => intOf r fun ty sat => src3 r (.imad h d ty sat)
  | 0x06 => intOf r fun ty _ => src2 r (.imin h d ty)
  | 0x07 => intOf r fun ty _ => src2 r (.imax h d ty)
  | 0x08 => intOf r fun ty sat => src1 r (.iabs h d ty sat)
  | 0x09 => intOf r fun ty sat => src1 r (.ineg h d ty sat)
  | 0x0A => intOf r fun ty _ => src2 r (.iand h d ty)
  | 0x0B => intOf r fun ty _ => src2 r (.ior h d ty)
  | 0x0C => intOf r fun ty _ => src2 r (.ixor h d ty)
  | 0x0D => intOf r fun ty _ => src2 r (.iandn h d ty)
  | 0x0E => intOf r fun ty _ => src1 r (.inot h d ty)
  | 0x0F => intOf r fun ty _ => src2 r fun a b => .isel h d ty a b (r.sc - 3072)
  | 0x10 => intOf r fun ty _ => src2 r (.ishl h d ty)
  | 0x11 => intOf r fun ty _ => src2 r (.ishr h d ty)
  | 0x12 => intOf r fun ty _ => src2 r (.isra h d ty)
  | 0x13 => intOf r fun ty _ => src1 r (.ipopc h d ty)
  | 0x14 => intOf r fun ty _ => src1 r (.iclz h d ty)
  | 0x15 => intOf r fun ty _ => src1 r (.laneBrev h d ty)
  | 0x16 => src3 r (.prmt h d)
  | 0x17 => intOf r fun ty _ => src2 r (.laneBfe h d ty)
  | 0x18 => intOf r fun ty _ => src3 r (.laneBfi h d ty)
  | 0x19 => intOf r fun ty sat => src3 r (.idp4 h d ty sat)
  | 0x20 => rndOf r fun m => src2 r (.fadd h d m)
  | 0x21 => rndOf r fun m => src2 r (.fsub h d m)
  | 0x22 => rndOf r fun m => src2 r (.fmul h d m)
  | 0x23 => rndOf r fun m => src3 r (.ffma h d m)
  | 0x24 => src2 r (.fmin h d)
  | 0x25 => src2 r (.fmax h d)
  | 0x26 => src1 r (.fabs h d)
  | 0x27 => src1 r (.fneg h d)
  | 0x28 => rndOf r fun m => src1 r (.frcp h d m)
  | 0x29 => rndOf r fun m => src1 r (.frsq h d m)
  | 0x2A => rndOf r fun m => src1 r (.fsqrt h d m)
  | 0x2B => rndOf r fun m => src2 r (.fdiv h d m)
  | 0x2C => src1 r (.fexp2 h d)
  | 0x2D => src1 r (.flog2 h d)
  | 0x30 => rndOf r fun m => src2 r (.dadd h d m)
  | 0x31 => rndOf r fun m => src2 r (.dsub h d m)
  | 0x32 => rndOf r fun m => src2 r (.dmul h d m)
  | 0x33 => rndOf r fun m => src3 r (.dfma h d m)
  | 0x34 => src2 r (.dmin h d)
  | 0x35 => src2 r (.dmax h d)
  | 0x36 => rndOf r fun m => src2 r (.ddiv h d m)
  | 0x37 => rndOf r fun m => src1 r (.dsqrt h d m)
  | 0x38 => rndOf r fun m => src2 r (.hadd2 h d m)
  | 0x39 => rndOf r fun m => src2 r (.hmul2 h d m)
  | 0x3A => rndOf r fun m => src3 r (.hfma2 h d m)
  | 0x3B => rndOf r fun m => src2 r (.badd2 h d m)
  | 0x3C => rndOf r fun m => src2 r (.bmul2 h d m)
  | 0x3D => rndOf r fun m => src3 r (.bfma2 h d m)
  | 0x3E => rndOf r fun m => src3 r (.bdot2 h d m)
  | 0x40 => rndOf r fun m => (Ty.ofCode (r.mod / 2 ^ 4 % 16)).bind fun dty =>
      (Ty.ofCode (r.mod % 16)).bind fun sty =>
        src1 r fun a => .cvt h d m (boolOf (r.mod / 2 ^ 9 % 2)) dty sty a r.x
  | 0x41 => (Sxf.ofCode (r.mod / 2 ^ 8 % 4)).map fun sx =>
      .sxpack h r.dreg sx r.sa r.sc (r.x % 4) (r.x / 4)
  | 0x42 => rndOf r fun m => (Sxf.ofCode (r.mod / 2 ^ 8 % 4)).bind fun sx =>
      (Ty.ofCode (r.mod / 2 ^ 4 % 16)).map fun ty =>
        .sxunpack h r.dreg m sx ty r.sa r.sc (r.x % 4) (r.x / 4)
  | 0x43 => (Ty.ofCode (r.mod / 2 ^ 8)).bind fun ty => (CmpOp.ofCode (r.mod / 2 ^ 4 % 16)).bind fun cmp =>
      src2 r (.pset h r.dreg cmp ty)
  | 0x44 => some (.plop h r.dreg (r.sa - 3072) (r.sb - 3072) (r.sc - 3072) r.mod)
  | 0x45 => if r.mod = 0 then src1 r fun a => .pmov h (.toPred r.dreg a)
      else some (.pmov h (.toVec d (r.sa - 3072)))
  | 0x46 => (Ty.ofCode (r.mod / 2 ^ 8)).bind fun ty => src1 r (.mov h d ty)
  | 0x47 => some (.movi h d (r.sb * 2 ^ 26 + r.sc * 2 ^ 13 + r.x))
  | 0x48 => (Src.ofEnc r.sb).map fun c => .rnd h d (r.sa - 1024) c
  | 0x49 => some (.laneDly (r.x + 1))
  | 0x4A => (ShflMode.ofCode (r.mod / 2 ^ 4)).bind fun m => src2 r (.shfl h m d)
  | 0x4B => (VoteMode.ofCode (r.mod / 2 ^ 4)).map fun m => .vote h m r.dreg (r.sa - 3072) (r.tk - 16)
  | 0x4C => some (.vballot h d (r.sa - 3072))
  | 0x4D => (Ty.ofCode (r.mod / 2 ^ 8)).bind fun ty => (RedOp.ofCode (r.mod / 2 ^ 4 % 16)).bind fun op =>
      src1 r fun a => .lred h op ty r.dreg a (r.tk - 16)
  | 0x4E => (Ty.ofCode (r.mod / 2 ^ 8)).bind fun ty => (RedOp.ofCode (r.mod / 2 ^ 4 % 16)).bind fun op =>
      src1 r fun a => .lscan h op ty (boolOf (r.mod / 2 ^ 3 % 2)) r.dreg a
        (if r.x < 2 ^ 8 then none else some (r.x - 2 ^ 8)) (r.tk - 16)
  | 0x4F => (Ty.ofCode (r.mod / 2 ^ 8)).bind fun ty => src1 r (.laneMatch h ty d)
  | 0x50 => some (.lbrx h r.sa (r.sb - 1024) (r.tk - 16))
  | 0x51 => some (.lend h tk)
  | 0x52 => vcOf r
  | 0x60 => ordScope r fun o s => memTy r fun ty => capSrc r fun c => (Src.ofEnc r.sb).map fun off =>
      .ld h ty o s (boolOf (r.mod / 4 % 2)) r.dreg c off imm tk
  | 0x61 => ordScope r fun o s => memTy r fun ty => capSrc r fun c => (Src.ofEnc r.sb).bind fun off =>
      (Src.ofEnc r.sc).map fun v => .st h ty o s v c off imm tk
  | 0x62 => ordScope r fun o s => memTy r fun ty => capSrc r fun c => (Src.ofEnc r.sb).map fun off =>
      .ldnr h ty o s (boolOf (r.mod / 4 % 2)) r.dreg (r.sc - 3072) c off imm tk
  | 0x63 => ordScope r fun o s => memTy r fun ty => capSrc r fun c => (Src.ofEnc r.sb).map fun off =>
      .ldsub h ty o s (boolOf (r.mod / 4 % 2)) r.dreg c off imm tk
  | 0x64 => memTy r fun ty => some (.subs h ty (r.sa - 1024) (r.sb - 1024) tk)
  | 0x65 => some (.unsubs h (r.sa - 1024) (r.sb - 1024) tk)
  | 0x66 => ordScope r fun o s => memTy r fun ty => src1 r fun a => .lds h ty o s r.dreg a imm tk
  | 0x67 => ordScope r fun o s => memTy r fun ty => (Src.ofEnc r.sa).bind fun a => (Src.ofEnc r.sc).map fun v =>
      .sts h ty o s v a imm tk
  | 0x68 => ordScope r fun o s => memTy r fun ty => (AtomOp.ofCode (r.mod % 8)).bind fun op => capSrc r fun c =>
      (Src.ofEnc r.sb).bind fun off => (Src.ofEnc r.sc).map fun v => .atom h op ty o s d c off v imm tk
  | 0x69 => ordScope r fun o s => memTy r fun ty => (AtomOp.ofCode (r.mod % 8)).bind fun op =>
      (Src.ofEnc r.sa).bind fun a => (Src.ofEnc r.sc).map fun v => .atoms h op ty o s d a v imm tk
  | 0x6A => ordScope r fun o s => capSrc r fun c => (Src.ofEnc r.sb).map fun off =>
      .laneLdc h o s r.dreg c off imm tk
  | 0x6B => ordScope r fun o s => capSrc r fun c => (Src.ofEnc r.sb).map fun off =>
      .laneStc h o s r.sc c off imm tk
  | 0x6C => ordScope r fun o s => some (.laneFence h o s tk)
  | 0x6D => ordScope r fun o s => (Path.ofCode (r.mod / 2 ^ 4 % 8)).bind fun src =>
      (Path.ofCode (r.mod / 2 % 8)).map fun dst => .fencex h src dst o s tk
  | 0x6E => capSrc r fun c => (Src.ofEnc r.sb).map fun off => .pf h c off imm tk
  | 0x70 => macOf r (.mmac h)
  | 0x71 => macOf r (.mdist h)
  | 0x72 => some (.mtopk h (boolOf (r.mod / 2 ^ 7 % 2)) (r.mod / 2 % 16) r.x tk)
  | 0x73 => some (.mclr h (boolOf (r.mod / 2 ^ 7 % 2)) (r.mod / 2 % 16) tk)
  | 0x74 => some (.mld h (boolOf (r.mod / 2 ^ 7 % 2)) (r.mod / 2 % 16) (r.sb - 1024) tk)
  | 0x75 => some (.mst h (boolOf (r.mod / 2 ^ 7 % 2)) (r.mod / 2 % 16) (r.sb - 1024) tk)
  | 0x76 => some (.mrd h r.dreg (r.tk - 16))
  | 0x78 => (Src.ofEnc r.sb).bind fun seq => (Src.ofEnc r.sc).map fun tok =>
      if r.mod = 0 then .tokc h r.dreg r.x (r.sa - 1024) seq tok (r.tk - 16)
      else .tokcDraft h r.dreg r.x (r.sa - 1024) seq tok (r.tk - 16)
  | 0x79 => (Src.ofEnc r.sb).map fun seq =>
      .tokcf h r.dreg (r.x % 64) (r.sa - 1024) seq (r.x / 64) (r.tk - 16)
  | 0x7A => (Src.ofEnc r.sb).map fun seq => .tokrj h (r.sa - 1024) seq tk
  | 0x7B => (Src.ofEnc r.sb).map fun seq => .tokf h r.dreg (r.sa - 1024) seq (r.tk - 16)
  | _ => none

/-- Decoding of the lane stream's words (R142 steps 1 and 2, R154 to R162). -/
noncomputable def decodeLane (w : Nat) : Except DecodeErr Instr :=
  match laneOf (RawLane.unpack w) with
  | none => .error .unassigned
  | some i => if i.wf && encodeLane i == some w then .ok i else .error .illegalField

/-! ### Words in memory (R5, R141) -/

/-- The little-endian bytes of a number (R5). -/
def bytesLE : Nat → Nat → List Byte
  | 0, _ => []
  | n + 1, w => BitVec.ofNat 8 w :: bytesLE n (w / 256)

/-- The number that little-endian bytes hold (R5). -/
def ofBytesLE : List Byte → Nat
  | [] => 0
  | b :: bs => b.toNat + 256 * ofBytesLE bs

/-- The bytes of an instruction as the hardware stores them: four of a scalar word, twelve of a lane
instruction (R5, R141); none for a step the device takes by itself. -/
def encode (i : Instr) : Option (List Byte) :=
  match encodeScalar i with
  | some w => some (bytesLE 4 w)
  | none => (encodeLane i).map (bytesLE 12)

/-- The instruction the decoder reads from a word whose bits are numbered as the opcode table numbers them:
32 bits for the scalar stream, 96 for the lane stream. -/
noncomputable def decodeTableWord (nbits w : Nat) : Option Instr :=
  if nbits ≤ 32 then (decodeScalar (ofBytesLE (bytesLE 4 w))).toOption
  else (decodeLane (ofBytesLE (bytesLE 12 w))).toOption

end Sys2Proof
end

