-- ==== Sys2Proof/Machine/Sparse.lean ====
section
/-!
DEFINITION. Reading and writing sparse data in its canonical form: keys strictly rising, no entry equal to the
default `d`. Writing the default removes the entry, so equal contents are equal data. What a write leaves, a read of the
same key returns whatever the list (so nothing later rests on the form).
-/

namespace Sys2Proof.Machine

/-- The value at key `n`; `d` when no entry has it. Keys rise, so the search stops past `n`. -/
def sget {α : Type} (d : α) : Sparse α → Nat → α
  | [], _ => d
  | (k, v) :: r, n => if n < k then d else if n = k then v else sget d r n

/-- Writes `v` at key `n`, keeping the canonical form. -/
def sput {α : Type} [DecidableEq α] (d : α) : Sparse α → Nat → α → Sparse α
  | [], n, v => if v = d then [] else [(n, v)]
  | (k, w) :: r, n, v =>
    if n < k then (if v = d then (k, w) :: r else (n, v) :: (k, w) :: r)
    else if n = k then (if v = d then r.dropWhile fun e => e.1 ≤ n else (n, v) :: r)
    else (k, w) :: sput d r n v

/-- The canonical form, from a lower bound on the keys. -/
def swfFrom {α : Type} [DecidableEq α] (d : α) : Nat → Sparse α → Bool
  | _, [] => true
  | lo, (k, v) :: r => decide (lo ≤ k) && decide (v ≠ d) && swfFrom d (k + 1) r

/-- The canonical form: keys strictly rising, no entry equal to the default. -/
def swf {α : Type} [DecidableEq α] (d : α) (m : Sparse α) : Bool := swfFrom d 0 m

/-- Membership in a strictly rising list of numbers. -/
def inSet : List Nat → Nat → Bool
  | [], _ => false
  | k :: r, n => if n < k then false else if n = k then true else inSet r n

/-- Adds a number to a strictly rising list. -/
def addSet : List Nat → Nat → List Nat
  | [], n => [n]
  | k :: r, n => if n < k then n :: k :: r else if n = k then k :: r else k :: addSet r n

/-- Removes a number from a strictly rising list. -/
def delSet : List Nat → Nat → List Nat
  | [], _ => []
  | k :: r, n => if n < k then k :: r else if n = k then r.dropWhile (· ≤ n) else k :: delSet r n

/-- The list is strictly rising from a lower bound. -/
def setWfFrom : Nat → List Nat → Bool
  | _, [] => true
  | lo, k :: r => decide (lo ≤ k) && setWfFrom (k + 1) r

end Sys2Proof.Machine
end

