-- ==== Sys2Proof/Config.lean ====
section
/-!
DEFINITION. What an implementation fixes, and the free values: constants with no body, so that no proof can
know what they are. A free value is applied to the counter `State.fresh`, which every step advances, and to a
position (a lane, a byte index), so that two open values are never known to agree.
-/

namespace Sys2Proof.Config

/-- A free choice between two permitted outcomes (old or new value, taken or not): R75, R231, R256, R382, R414.
Log 6. -/
opaque freeBit : Nat → Nat → Bool

/-- A free byte: memory read under the wrong key (R436), data of a peer package (R434), fields the device alone
writes (R390). Log 6. -/
opaque freeByte : Nat → Nat → Byte

/-- A free 32-bit word. Log 6. -/
opaque freeWord : Nat → Nat → Word

/-- A free number: a stamp, a figure or a digest whose value the manual leaves to the device. Log 6. -/
opaque freeNat : Nat → Nat → Nat

/-- The SHA-384 digest of a measured block (R441): an uninterpreted function of what the block is made of. -/
opaque digest : Nat → List Nat → Nat

/-- DESIGN CHOICE (log 2): the physical address of the first word of the booted image. The manual says that the
image is in LPDDR6 (R467) and gives no address; the model takes the first address of LPDDR6 (R371). -/
def bootEntry : Nat := 0x10000000000

/-- Bytes that the spawn formers of a context hold beside its SPILL area, and bytes that a thread with a number of live
quads takes there (21 R390): each implementation decides. Log 42. -/
opaque spawnHeld : Nat
opaque threadBytes : Nat → Nat

end Sys2Proof.Config
end

