-- ==== Sys2Proof/Machine/Agent.lean ====
section
/-!
DEFINITION. The state of one agent that issues instructions: a group of 32 lanes on a compute core, or the thread
of a system core (02, 03, 19). Register files are sparse: an unlisted entry is the register's reset value.
-/

namespace Sys2Proof.Machine

/-- A capability with its tag (R81). -/
structure Cap where
  bits : CapBits
  tag : Bool
  deriving DecidableEq, Repr

/-- The null capability (R81). -/
def Cap.null : Cap := ⟨0, false⟩

/-- One place of an agent's registers, the unit in which results take effect: a scalar register, a lane of a
vector register, a lane of a predicate, the tag of a scalar quad, the tag of a lane of a vector quad, em, lm, fsr
(its value is a set of flags to add), mxc (counts to add). -/
inductive Loc
  | s (n : Nat)
  | v (reg lane : Nat)
  | p (n lane : Nat)
  | ct (quad : Nat)
  | vt (quad lane : Nat)
  | em
  | lm
  | fsr
  | mxc
  deriving DecidableEq, Repr

/-- A fixed-latency result in flight (R66): the clk at which it takes effect, its program order, its place and
its value. -/
structure Pend where
  eff : Nat
  seq : Nat
  loc : Loc
  val : Word
  deriving DecidableEq, Repr

/-- A token-governed destination that has been written and that no `wtok` has seen yet, with its value from
before (R75). `num` is the operation that wrote it. `tk` is none for a load or atomic that names no token; it is governed
until the next fence of its stream, the lane stream's when `lane` holds (R176, R230). -/
structure Gov where
  num : Nat
  tk : Option Nat
  lane : Bool
  loc : Loc
  old : Word
  deriving DecidableEq, Repr

/-- Where an access goes: a physical address, or a byte of the team memory of the agent's team (R33). -/
inductive Place
  | pa (a : Nat)
  | team (t : Nat)
  deriving DecidableEq, Repr

/-- One lane's access (lane 0 for a scalar one): place, virtual address, data or operand, compare value, tag of
stored data; `here` is false for a lane of `ldnr` whose page is absent (R238); the owner of the page (R436); `ltag`
whether a loaded tag may be kept (R89); the permissions of the capability; the mode at issue. -/
structure Acc where
  lane : Nat
  place : Place
  va : Nat
  data : Nat
  cmp : Nat
  tag : Bool
  here : Bool
  owner : Nat
  ltag : Bool
  perms : Nat
  mode : Nat
  deriving DecidableEq, Repr

/-- What a memory operation does with its accesses. -/
inductive MemOp
  | load
  | store
  | atomic (op : AtomOp)
  | loadCap
  | storeCap
  | loadSub
  deriving DecidableEq, Repr

/-- Where a memory operation puts what it read. -/
inductive MDest
  | none
  | sreg (d : Nat)
  | creg (d : Nat)
  | vreg (d : Nat)
  | vcap (d : Nat)
  | vregP (d r : Nat)
  deriving DecidableEq, Repr

/-- One watch step of a lane (R330): its sequence id and token, whether the id names an entry, and where entry,
header and cost table lie, each with the page's owner. -/
structure WatchLane where
  lane : Nat
  seq : Nat
  tok : Nat
  valid : Bool
  entry : Nat × Nat
  header : Nat × Nat
  cost : Nat × Nat
  deriving DecidableEq, Repr

/-- A lane whose code is TRAP (R333): lane, SRC, sequence id. -/
structure WatchTrap where
  lane : Nat
  src : Nat
  seq : Nat
  deriving DecidableEq, Repr

/-- Which watch instruction (R329). -/
inductive WatchOp
  | tokc | draft | tokcf (n : Nat) | tokrj | tokf
  deriving DecidableEq, Repr

/-- What an outstanding operation of an agent is. `mem`: a memory operation with its type (for extension and
width) and whether it took the read-only path. `regs`: results that are known and reach their registers when the
token posts. `post`: only the post remains. `prefetch`: lines to bring, each with its owner. `fence`: a scalar fence with
release (R178). `watch`: lane watch steps to do, with the results and the TRAP codes of those done. `matrix`: an
instruction in the order of the arrays. `mrd`: a popped qmat entry. `page`: a page request. -/
inductive OpKind
  | mem (op : MemOp) (ty : Ty) (dst : MDest) (accs : List Acc) (ro : Bool)
  | regs (writes : List (Loc × Word))
  | post
  | fence
  | prefetch (lines : List (Nat × Nat))
  | lend (lanes : BitVec 32)
  | lbrx (lanes : BitVec 32) (target : Option Cap)
  | subs (die asid : Nat) (install : Bool) (fmt : Ty) (upd : Bool) (base len stride rows : Nat)
  | watch (op : WatchOp) (table : Cap) (d p : Nat) (steps : List WatchLane) (got : List (Loc × Word))
    (traps : List WatchTrap)
  | matrix (n : Nat)
  | mrd (entry d k : Nat) (lanes : BitVec 32)
  | page (va : Nat) (space : Option Nat)
  deriving DecidableEq, Repr

/-- An operation an agent has issued and that has not completed (R75, R176, R230). `num` is its program order,
`lane` tells the stream, `path`, `ord` and `scope` its place in the orders of 13, `tk` the token it posts (16 is
ktk). `dead` lists destinations that a later instruction has written meanwhile (R231); `sent` holds of a write that has reached
its unit and waits there (R411). -/
structure Op where
  num : Nat
  lane : Bool
  path : Path
  ord : Ord
  scope : Scope
  tk : Option Nat
  kind : OpKind
  dests : List Loc
  dead : List Loc
  performed : Bool
  sent : Bool
  deriving DecidableEq, Repr

/-- A block of the lane queue (R38): the lane-code capability, the address of its first instruction, the count,
the index of the instruction that issues next, the `lrun` token, and the program order of the `lrun` (R248). -/
structure Block where
  cap : Cap
  start : Nat
  count : Nat
  idx : Nat
  tk : Option Nat
  mark : Nat
  deriving DecidableEq, Repr

/-- The values of a latch, of a 64-bit result when `wide`: per lane the value of the result, none for a lane its producer
left inactive (such a lane reads as a free value, log 9); `eff` is the clk at which the producer's latency has elapsed (R70). -/
structure Latch where
  eff : Nat
  wide : Bool
  vals : List (Option DWord)
  deriving DecidableEq, Repr

/-- The A-latch record (R256), with the collector's copy of the latched registers while it holds them. -/
structure ALatch where
  fmt : MFmt
  a : Nat
  sc : Nat
  bsel : Nat
  coll : Option (Sparse Word)
  deriving DecidableEq, Repr

/-- An entry of qmat (R261): its number in reservation order, its k, and, once filled, the pairs of each row. -/
structure QmatEntry where
  num : Nat
  k : Nat
  data : Option (List (List (Nat × Word)))
  deriving DecidableEq, Repr

/-- An engine command (R265): number, the 16 words, the tags of their four quads, the token it posts and the mode of
its issuer; for a collective the object, the rank and the instance (R275). -/
structure Command where
  num : Nat
  words : List Word
  tags : List Bool
  tk : Option Nat
  mode : Nat
  obj : Nat
  rank : Nat
  inst : Nat
  deriving DecidableEq, Repr

/-- A trap with what its registers will hold (R354, R356). -/
structure Trap where
  cause : Nat
  addr : Nat
  lanes : BitVec 32
  info : Nat
  lane : Bool
  deriving DecidableEq, Repr

/-- The waits of R41 and the stalls of the scalar stream. While one is under way the PC stays at the waiting
instruction. `barHeld` is an arrival that waits for the phase before it and until `need` groups of the team have been
started by the spawn former. `delivered` is a receive or a call whose results have come while it was suspended (R479).
`drain` is a yield that waits for the lane queue, with the threshold it read at issue (R183). -/
inductive Wait
  | none
  | token (tk thr : Nat)
  | yield (tk thr target : Nat)
  | bar (obj phase : Nat)
  | barHeld (obj need : Nat) (wait : Bool)
  | qpush (coll : Bool) (cmd : Command)
  | qpop (r : Nat)
  | recv (ep : Nat) (tk : Option Nat)
  | call (ep call : Nat) (tk : Option Nat)
  | delivered (ws : List (Loc × Word)) (tk : Option Nat)
  | wfi
  | drain (tk thr target : Nat)
  deriving DecidableEq, Repr

/-- A group's snapshot at a region entry (R396), with the code capability under which it resumes there (log 95). -/
structure Snapshot where
  entry : Nat
  stop : Nat
  pcc : Cap
  sregs : Sparse Word
  ctags : BitVec 40
  em : BitVec 32
  lm : BitVec 32
  toks : Sparse (BitVec 16)
  fsr : Word
  mxc : Word
  deriving DecidableEq, Repr

/-- The caller held in a reply slot (R103). -/
structure Caller where
  agent : Nat
  call : Nat
  deriving DecidableEq, Repr

/-- An entry of the pending-path stack of lane focus (R463). -/
structure FocusEntry where
  d : BitVec 32
  n : Nat
  off : Nat
  deriving DecidableEq, Repr

/-- A replay of the head block under lane focus (R464, R465): offset of its next instruction, how many remain, for
which lanes, and whether token-posting instructions post at it. -/
structure Replay where
  off : Nat
  n : Nat
  lanes : BitVec 32
  posts : Bool
  deriving DecidableEq, Repr

/-- The address space an agent runs in. `boot` is the identity space of the core released from reset (log 3);
`obj` names an address-space object by its physical address (R372). -/
inductive SpaceRef
  | boot
  | obj (pa : Nat)
  deriving DecidableEq, Repr

/-- How the lane instruction being issued shares its issue slot (R69): alone, first of a pair, or second of a pair
whose first has the program order `first`. -/
inductive Pairing
  | single | first
  | second (first : Nat)
  deriving DecidableEq, Repr

/-- The kinds of group (R32, R48, R51) and the system-core thread. -/
inductive AgentKind
  | sysCore | placed | spawned | faultGroup
  deriving DecidableEq, Repr

/-- A phase of a barrier object (R181): the latest at which the group has arrived, or the first of which a spawned
group is a member. -/
structure Arrival where
  obj : Nat
  phase : Nat
  deriving DecidableEq, Repr

/-- Single step (R366): off; armed for the next scalar instruction, or for the next lane instruction; the stepped
instruction, of the stream given, has issued, and the trap 0x31 is due once its wait is over and its operations, from
number `num` on, have completed. -/
inductive Stepping
  | off | scalar | lane
  | due (lane : Bool) (num : Nat)
  deriving DecidableEq, Repr

/-- A stall at a first-touch entry: the address of the entry, the stream of the instruction, and whether the entry is
settled, so that it issues again. -/
structure Touching where
  entry : Nat
  lane : Bool
  ready : Bool
  deriving DecidableEq, Repr

/-- One agent: identity (R37), architectural registers (R57, R352) and what it has under way. -/
structure Agent where
  id : Nat
  kind : AgentKind
  /-- False once the group has ended at `gend` or its team was killed. -/
  alive : Bool
  /-- Out of issue: its team is pre-empted or not yet created (R34, R395). -/
  resident : Bool
  die : Nat
  core : Nat
  part : Nat
  slot : Nat
  /-- The spawn slot that a spawned or fault group holds (R32, R51). -/
  sslot : Option Nat
  cpart : Nat
  team : Nat
  launch : Nat
  g : Nat
  role : Nat
  budget : Nat
  pid : Nat
  tid : Nat
  space : SpaceRef
  -- registers
  pcc : Cap
  sregs : Sparse Word
  ctags : BitVec 40
  vregs : Sparse Word
  vtags : Sparse (BitVec 32)
  preds : Sparse (BitVec 32)
  em : BitVec 32
  lm : BitVec 32
  toks : Sparse (BitVec 16)
  ktk : BitVec 16
  fsr : Word
  mxc : Word
  xpc : Cap
  xlpc : DWord
  xaddr : DWord
  xcause : Word
  xstat : Word
  xlanes : Word
  xinfo : Word
  kentry : Cap
  kscr : Cap
  ipend : DWord
  tcmp : DWord
  /-- Device time has reached tcmp since it was last written (R366). -/
  tcmpSeen : Bool
  latches : List (Option Latch)
  alatch : Option ALatch
  qcopy : List Command
  qcoll : List Command
  ncopy : Nat
  ncoll : Nat
  qmat : List QmatEntry
  nqmat : Nat
  -- the two streams
  blocks : List Block
  pairing : Pairing
  firstLatch : Option Latch
  dlyScalar : Nat
  dlyLane : Nat
  pauseEnd : Nat
  wait : Wait
  /-- The scalar instruction at the PC has begun and stalls: it completes before a redirect applies (R221). -/
  stalled : Bool
  /-- An instruction of the given stream stalls in its translation check at a first-touch entry, until the pool has
  answered; neither stream issues another instruction before it (R355, R384). -/
  touching : Option Touching
  /-- The latest scalar instruction is a `pause` (R338, R479). -/
  pausing : Bool
  /-- No instruction of the agent issues before this clk: a trap has taken the clk it came in (R358). -/
  heldTo : Nat
  /-- The fetch of the next instruction of a stream has missed its instruction cache (R398). -/
  missScalar : Bool
  missLane : Bool
  suspended : Option (Wait × Cap)
  redirect : Option Cap
  -- results under way
  pend : List Pend
  outst : List Op
  gov : List Gov
  nextOp : Nat
  /-- The paths on which a fence with release of a scope below .dev has issued: later writes on them are releases
  (R297). -/
  relPaths : List Path
  -- traps under way
  heldFaults : List (Trap × Option Nat)
  postAtEret : List Nat
  stopDue : Bool
  watchDue : Option (Trap × Nat)
  stepping : Stepping
  -- endpoints, barriers, regions, debug, issue choice
  reply : Option Caller
  arrivals : List Arrival
  joins : List Arrival
  snapshot : Option Snapshot
  /-- The snapshot has been taken and the entry instruction has not issued yet (R396). -/
  snapReady : Bool
  focus : BitVec 32
  focusLane : Nat
  focusStack : List FocusEntry
  replays : List Replay
  age : Nat
  waitScalar : Nat
  waitLane : Nat
  sweptAt : Nat
  /-- Posts, retired stores and messages of the agent since the watchdog of its context last looked (R399). -/
  sinks : Nat
  deriving DecidableEq, Repr

end Sys2Proof.Machine
end

