-- ==== Sys2Proof/Machine/Device.lean ====
section
/-!
DEFINITION. The parts of the device that are no agent's registers: teams and launches (02, 21), engines (11),
endpoints (04), graphs (21), coherence (23), trust (24), links, ports and partitions (25), debug (26), the Islet
and power (27).
-/

namespace Sys2Proof.Machine

/-- A barrier object of a team (R181): the open phase, its arrivals, arrivals held for later phases. -/
structure Barrier where
  obj : Nat
  phase : Nat
  arrived : List Nat
  held : List (Nat × Nat)
  deriving DecidableEq, Repr

/-- A thread in spawn memory (R46): the values of its live quads, the code capability and the team role. -/
structure Thread where
  regs : List (Nat × Word)
  tags : List Nat
  order : Nat
  deriving DecidableEq, Repr

/-- A batch of spawn memory (R47): its key and its threads in arrival order; `code` is the capability of the
`lbrx` that sent the first (R221). -/
structure Batch where
  target : Nat
  role : Nat
  code : Cap
  threads : List Thread
  deriving DecidableEq, Repr

/-- A thread that an `lbrx` of this clk sends, with its key and the capability of the `lbrx` (R47). -/
structure Arriving where
  target : Nat
  role : Nat
  code : Cap
  thread : Thread
  deriving DecidableEq, Repr

/-- A slot that a team has freed and that one of its fault groups takes (R51): the spawn slot's index, none for a slot of
a group; its core and its register lines. -/
structure KeptSlot where
  sslot : Option Nat
  core : Nat
  quota : Nat
  deriving DecidableEq, Repr

/-- A built group that waits for a slot (R48). -/
structure Built where
  target : Nat
  role : Nat
  code : Cap
  threads : List Thread
  deriving DecidableEq, Repr

/-- A role of a team (R31). -/
structure Role where
  groups : Nat
  budget : Nat
  quota : Nat
  entry : Cap
  lcode : Cap
  deriving DecidableEq, Repr

/-- Where a team stands: in a footprint, pre-empted into its image, discarded to restart from its snapshots, or
ended. -/
inductive TeamPhase
  | resident | saved | discarded | exiting | gone
  deriving DecidableEq, Repr

/-- A kill that is due for a team whose ended group had an engine fault (R267, R368): cause, g, number of the command,
address. -/
structure Dying where
  cause : Nat
  g : Nat
  cmd : Nat
  addr : Nat
  deriving DecidableEq, Repr

/-- A team (R31 to R36, R53). `tmem` holds the bytes of team memory by team address, zero when unlisted; `accSaved` the
accumulators of each footprint core while it is pre-empted; `arriving` the threads sent in this clk, in arrival order;
`faults` the fault groups that wait in spawn memory. -/
structure Team where
  id : Nat
  launch : Nat
  index : Nat
  die : Nat
  first : Nat
  phase : TeamPhase
  tmem : Sparse Byte
  barriers : List Barrier
  arriving : List Arriving
  batches : List Batch
  built : List Built
  faults : List Agent
  kept : List KeptSlot
  spawned : Nat
  accSaved : List (Nat × Sparse Word)
  dying : Option Dying
  placedAt : Nat
  deriving DecidableEq, Repr

/-- An accepted launch that is pending (R388, R389), with what the descriptor and the context gave it. -/
structure Launch where
  id : Nat
  ctx : Nat
  ctxCap : Cap
  space : SpaceRef
  domain : Nat
  cpart : Nat
  prio : Nat
  bmode : Nat
  hchk : Bool
  dims : Nat × Nat × Nat
  fcores : Nat
  spawnSlots : Nat
  tmemBytes : Nat
  matrix : Bool
  roles : List Role
  arg : Cap
  regions : List (Nat × Nat)
  reads : List (Nat × Nat)
  writes : List (Nat × Nat)
  nextTeam : Nat
  killed : Bool
  lost : Bool
  pid : Nat
  tid : Nat
  start : Nat
  stamps : List Nat
  /-- Die and first core of each reservation, at most one on a die; since when it waits on a die (R36, R393). -/
  reserved : List (Nat × Nat)
  waiting : List (Nat × Nat)
  /-- The operation by which the status reaches the launching agent: no team runs before it has posted (R186). -/
  acked : Option (Nat × Nat)
  deriving DecidableEq, Repr

/-- What the scheduler keeps for a scheduling context (R387, R399): the physical address of the object, the core-ns
not yet charged to USED, the time of the last sink, when the watchdog was last armed, whether a period is to begin,
whether the budget is used up. -/
structure CtxState where
  ctx : Nat
  usedNs : Nat
  lastSink : Nat
  armed : Nat
  periodDue : Bool
  exhausted : Bool
  deriving DecidableEq, Repr

/-- A node of a graph under way: a launch it waits for, a copy, a test; `async` is its ASYNC bit as it started. -/
inductive NodeRun
  | launch (node id : Nat) (async : Bool)
  | copy (node cmd : Nat) (async : Bool)
  | test (node : Nat) (async : Bool)
  deriving DecidableEq, Repr

/-- A graph being walked (R401, R402). -/
structure Walk where
  id : Nat
  graph : Cap
  pa : Nat
  space : SpaceRef
  mode : Nat
  domain : Nat
  cpart : Nat
  pid : Nat
  tid : Nat
  node : Nat
  running : List NodeRun
  ended : Bool
  failed : Bool
  /-- The operation by which the status reaches the submitting agent: no node starts before it has posted (R186). -/
  acked : Option (Nat × Nat)
  deriving DecidableEq, Repr

/-- An accepted copy or collective command (R265), with its issuer (none for a graph node). -/
structure EngineCmd where
  id : Nat
  coll : Bool
  num : Nat
  agent : Option Nat
  walk : Option (Nat × Nat)
  team : Nat
  die : Nat
  cpart : Nat
  space : SpaceRef
  mode : Nat
  domain : Nat
  words : List Word
  tags : List Bool
  tk : Option Nat
  obj : Nat
  rank : Nat
  inst : Nat
  seen : Bool
  waitPage : Option Nat
  /-- Rows and units of them that have been copied (R271, R295). -/
  done : List (Nat × Nat)
  deriving DecidableEq, Repr

/-- Progress of a collective group object (R275): per rank the number of commands pushed, and the broken
instances. -/
structure CollObject where
  pa : Nat
  counts : List (Nat × Nat)
  broken : List Nat
  deriving DecidableEq, Repr

/-- One participant's source as the engine read it (R277): `key` holds the fields that must agree, `bytes` the source,
none when its command ended in a fault. -/
structure CollSource where
  obj : Nat
  inst : Nat
  rank : Nat
  key : List Nat
  bytes : Option (List Byte)
  deriving DecidableEq, Repr

/-- A message of an endpoint (R100): registers s16 to s31, capabilities c8 to c11, badge, kind, owner domain of
the sender, and the caller of an `mcall`. -/
structure Message where
  words : List Word
  caps : List Cap
  badge : Word
  call : Bool
  caller : Option Caller
  deriving DecidableEq, Repr

/-- The hardware-held part of an endpoint object (R99, R367), by the physical address of the object. -/
structure Endpoint where
  pa : Nat
  buffer : List Message
  receivers : List Nat
  deriving DecidableEq, Repr

/-- What a matrix instruction in an array's order does (R258 to R260): `k` and `entry` of a `top` are its count and
its qmat entry. -/
inductive MatrixKind
  | mac | dist | clr | load | store
  | top (k entry : Nat)
  deriving DecidableEq, Repr

/-- One matrix instruction in an array's order (R250): the agent, team and program order of its issuer, its tile, the
layout word and the active rows as read at issue, the A registers as read at issue, those the collector may hold
instead (R256), and, once it has started, the words it read of each column. -/
structure MatrixOp where
  agent : Nat
  team : Nat
  num : Nat
  kind : MatrixKind
  pair : Bool
  started : Bool
  acc : Nat
  lw : List Word
  act : BitVec 32
  aregs : Sparse Word
  aold : Option (Sparse Word)
  fmt : MFmt
  a : Nat
  sc : Nat
  bsel : Nat
  cols : List (List Word)
  deriving DecidableEq, Repr

/-- The matrix array of a compute core (R249): accumulator words by tile, row and column, and its order. -/
structure MatrixArray where
  die : Nat
  core : Nat
  acc : Sparse Word
  queue : List MatrixOp
  deriving DecidableEq, Repr

/-- A page request that waits (R477): the op of an agent or the engine command it is for, and whether it is in
the ring yet. -/
structure PageReq where
  id : Nat
  cpart : Nat
  space : Nat
  va : Nat
  kind : Nat
  posted : Option Nat
  agent : Option (Nat × Nat)
  cmd : Option Nat
  deriving DecidableEq, Repr

/-- A cached translation (R378): of the L1 TLB of a core, which `core` numbers, or of the L2 TLB of a compute die. -/
structure TlbEntry where
  die : Nat
  core : Option Nat
  asid : Nat
  size : Nat
  vpn : Nat
  pte : Nat
  deriving DecidableEq, Repr

/-- A subscription entry (R241). -/
structure SubEntry where
  die : Nat
  asid : Nat
  base : Nat
  len : Nat
  stride : Nat
  rows : Nat
  fmt : Ty
  upd : Bool
  deriving DecidableEq, Repr

/-- A line of a compute core's L1 (R284, R286, R436): expiry, owner, read-only mark (the launch) with the line's
bytes. -/
structure L1Line where
  die : Nat
  core : Nat
  line : Nat
  expiry : Nat
  owner : Nat
  ro : Option Nat
  roData : List Byte
  deriving DecidableEq, Repr

/-- Per line and granting unit (0 to 3 the dies, 4 the system die): LMAX. -/
structure LeaseRec where
  unit : Nat
  line : Nat
  lmax : Nat
  deriving DecidableEq, Repr

/-- Where an agent stood when it wrote, which is what the scopes go by (R294): the agent, whether it is a system core's,
its die, core and team. -/
structure Seat where
  agent : Nat
  sys : Bool
  die : Nat
  core : Nat
  team : Nat
  deriving DecidableEq, Repr

/-- A write that some agents see and that is not performed at .dev yet (R303, R305, R414; log 8): its number, who made it and
with which operation, whether it is a narrow store in the L1 of its core, the scope of its maker that sees it, the owner
under which it is made, its place and bytes. -/
structure Early where
  id : Nat
  seat : Seat
  num : Nat
  narrow : Bool
  vis : Scope
  owner : Nat
  place : Place
  bytes : List Byte
  deriving DecidableEq, Repr

/-- The NOTE of a release (R298, R415): who made it, its place and length, and the early writes that come before it. -/
structure Note where
  seat : Seat
  place : Place
  len : Nat
  ids : List Nat
  deriving DecidableEq, Repr

/-- A byte of a peer window in the caches of a die (R289, R421); `dirty` until it has been written back. -/
structure PeerByte where
  die : Nat
  addr : Nat
  val : Byte
  dirty : Bool
  deriving DecidableEq, Repr

/-- MESI states of a remote data cache (R417). -/
inductive Mesi
  | m | e | s | sub
  deriving DecidableEq, Repr

/-- A line of a remote data cache, with the format of a subscribed copy; `wb` while it is in the write-back
buffer (R418). -/
structure RdcLine where
  die : Nat
  line : Nat
  st : Mesi
  fmt : Nat
  wb : Bool
  deriving DecidableEq, Repr

/-- A member of a directory entry (R416). -/
structure Member where
  die : Nat
  upd : Bool
  fmt : Nat
  deriving DecidableEq, Repr

/-- States of a directory entry (R416). -/
inductive DirState
  | uncached | shared | owned | transient
  deriving DecidableEq, Repr

/-- The messages of R417. -/
inductive MsgKind
  | getS | getSub | getX | wrH | putX | inv | fwdS | fwdX | upd | ack | data | wbAck
  deriving DecidableEq, Repr

/-- A directory entry of a home (R416). While it is transient: the request it serves (`want`, for die `req`, 5 for the
home itself, with the format of a subscription), the owner that a forward has gone to, the acknowledgements still due,
the write it makes room for (agent and operation), the members that already hold the value of that write. -/
structure DirEntry where
  line : Nat
  st : DirState
  members : List Member
  want : MsgKind
  req : Nat
  fmt : Nat
  upd : Bool
  fwdTo : Option Nat
  acks : Nat
  txn : Option (Nat × Nat)
  served : List Nat
  deriving DecidableEq, Repr

/-- A message in flight: kind, line, the die it comes from and the die it goes to (5 is the home), the requester
a forward serves, format and UPD of a subscription (of data to the home: whether the owner keeps a shared copy), the
state that data grants, the write that a `WrH` stands for. -/
structure Msg where
  id : Nat
  kind : MsgKind
  line : Nat
  src : Nat
  dst : Nat
  req : Nat
  fmt : Nat
  upd : Bool
  st : Mesi
  txn : Option (Nat × Nat)
  deriving DecidableEq, Repr

/-- Coherence metadata (23). Memory itself holds the last write at .dev of each byte in its coherence order; this holds the
early writes that come after it, in coherence order, and what the units keep to hold the rules: leases, lines, directory,
messages, peer lines with the granules that hold a tag. -/
structure Coherence where
  l1 : List L1Line
  leases : List LeaseRec
  emax : List (Nat × Nat)
  rdc : List RdcLine
  dir : List DirEntry
  msgs : List Msg
  nextMsg : Nat
  control : List (Nat × Nat)
  early : List Early
  nextEarly : Nat
  notes : List Note
  peers : List PeerByte
  peerTags : List (Nat × Nat)
  deriving DecidableEq, Repr

/-- The sweeper and its registers (R425 to R430). -/
structure Sweeper where
  rmap : Nat
  rvbase : Nat
  rvlen : Nat
  last : Nat
  running : Option Nat
  waiting : Option Nat
  swpdone : Nat
  begunAt : Nat
  frames : List Nat
  visit : List Nat
  deriving DecidableEq, Repr

/-- Key slots and the registers of the security core (R437 to R439). Slot 0 is always full. `full` lists the full
slots with the number of their key; `known` the numbers of the keys that have been loaded. -/
structure Keys where
  kdata : List Nat
  kcmd : Nat
  kstat : Nat
  full : List (Nat × Nat)
  gens : Nat
  known : List (List Nat × Nat)
  deriving DecidableEq, Repr

/-- A link's status register fields (R444). -/
structure Link where
  n : Nat
  state : Nat
  peer : Nat
  retry : Nat
  splane : Nat
  spu : Bool
  deriving DecidableEq, Repr

/-- A port's registers (R474). -/
structure Port where
  k : Nat
  aspace : Nat
  msix : Nat
  deriving DecidableEq, Repr

/-- Links, ports and partitions (25) and the export registers (R432, R470). -/
structure Fabric where
  pkgid : Nat
  partcfg : Nat
  linkpart : Nat
  rosters : List Nat
  exppa : Nat
  expfree : Nat
  expFails : Nat
  links : List Link
  ports : List Port
  portDone : List Nat
  deriving DecidableEq, Repr

/-- The debug registers of one partition (R454, R466). -/
structure DebugPart where
  p : Nat
  lrec : Nat
  trbuf : Nat
  tridx : Nat
  tctl : Nat
  sper : Nat
  sampledAt : Nat
  crash : Nat
  wbase : List Nat
  wlen : List Nat
  wctl : List Nat
  deriving DecidableEq, Repr

/-- IDENT and ACCT of one system core, and the time ACCT was armed (R454, R457). -/
structure CoreDebug where
  core : Nat
  ident : Nat
  acct : Nat
  armedAt : Option Nat
  deriving DecidableEq, Repr

/-- The Islet (R440 to R443, R471 to R473): boot slots, fuses, mailbox, power, log. The log holds (kind, time,
detail) with the newest first. -/
structure Islet where
  active : Nat
  tries : Nat
  fallback : Bool
  svn : List Nat
  slotOk : List Bool
  staged : Bool
  /-- The booted slot holds an update that has not been confirmed. -/
  updated : Bool
  fuseA : Nat
  fuseB : Nat
  bootHalted : Bool
  mbarg : Nat
  mbcmd : Nat
  mbstat : Nat
  mbres : Option Nat
  log : List (Nat × Nat × Nat)
  measured : List Nat
  pest : Nat
  step : Nat
  leak : Nat
  pwrAt : Nat
  leakAt : Nat
  overSince : Option Nat
  underSince : Option Nat
  alert : Bool
  /-- Units whose teams are moved off before a spare takes their place; a system core waits for the next partition reset
  (R473). Die and core, die 4 for a system core. -/
  drained : List (Nat × Nat)
  deriving DecidableEq, Repr

end Sys2Proof.Machine
end

