-- ==== Sys2Proof/Machine/State.lean ====
section
/-!
DEFINITION. The state of the machine, and the machine right after a package reset (27 R467, R468).

`ag` is the agent in focus: the one whose next instruction `exec` runs; `rest` holds the others. Memory is the
list of bytes that differ from zero, by physical address, in strictly rising order (log 1). `schedule` is plain
data that says which step the device takes next: its order is free (log 5).
-/

namespace Sys2Proof.Machine

/-- What the next step is: the issue of the next scalar or lane instruction of the agent in focus, a step the device
takes by itself, another agent coming into focus, the end of a clk, an instruction fetch that misses its cache, or
has its line again, the copy of one unit of a row, or the drift of a copy of device time (R26; log 5, log 29, log 82). -/
inductive Slot
  | issue (lane : Bool)
  | event (i : Instr)
  | focus (agent : Nat)
  | clk
  | fetch (agent : Nat) (lane miss : Bool)
  | copy (cmd row part : Nat)
  | drift (key : Nat) (ns : Int)
  deriving DecidableEq, Repr

/-- Reasons for which the machine stops. -/
inductive Fault
  /-- Raised by `step` alone: the module has no supply (R443) and no package reset is due in the schedule, so
  nothing can happen. Safe: the hardware does nothing either. -/
  | powerLost
  deriving DecidableEq, Repr

/-- Reasons for which the model has no meaning to give. -/
inductive Refusal
  /-- Raised by the arms of `exec` that have no meaning yet. Safe: nothing is claimed of such a step. -/
  | notModelled (mnemonic : String)
  deriving DecidableEq, Repr

structure State where
  ag : Agent
  rest : List Agent
  nextAgent : Nat
  mem : List Host.Cell
  tags : List Nat
  cipher : Sparse Nat
  teams : List Team
  nextTeam : Nat
  launches : List Launch
  nextLaunch : Nat
  ctxs : List CtxState
  walks : List Walk
  nextWalk : Nat
  cmds : List EngineCmd
  nextCmd : Nat
  colls : List CollObject
  collSrcs : List CollSource
  eps : List Endpoint
  arrays : List MatrixArray
  pages : List PageReq
  nextPage : Nat
  tlb : List TlbEntry
  subs : List SubEntry
  /-- First-touch entries held busy: their address and the home of the agent that holds them (R384). -/
  touches : List (Nat × Nat)
  coh : Coherence
  sweep : Sweeper
  keys : Keys
  fabric : Fabric
  dbg : List DebugPart
  cores : List CoreDebug
  islet : Islet
  powered : Bool
  clk : Nat
  time : Nat
  clockOff : List (Nat × Int)
  clockHold : List (Nat × Nat)
  lastIssued : List (Nat × Nat)
  /-- The issue slots, of one stream in one partition each, that are filled in this clk (R398). -/
  filled : List Nat
  /-- How many instructions have issued. -/
  issues : Nat
  fresh : Nat
  schedule : List Slot
  deriving DecidableEq, Repr

/-- The memory root of R468: base 0, top 2^64, every permission but SEAL and UNSEAL. -/
def Cap.memoryRoot (addr : Nat) : Cap :=
  ⟨BitVec.ofNat 128 (0x1F3F * 2 ^ 100 + 63 * 2 ^ 86 + addr), true⟩

/-- The sealing root of R468: bounds [0, 4,096) with SEAL, UNSEAL and GLOB; E = 2, T = 1,024 by R84. -/
def Cap.sealingRoot : Cap := ⟨BitVec.ofNat 128 (0x1C0 * 2 ^ 100 + 2 * 2 ^ 86 + 1024 * 2 ^ 64), true⟩

/-- The four words of a capability register, from quad `n`, as entries of a register file that lists non-zero
words only. -/
def quadEntries (n : Nat) (c : CapBits) : Sparse Word :=
  ((List.range 4).map fun k => (4 * n + k, c.extractLsb' (32 * k) 32)).filter fun e => e.2 != 0

/-- xstat of R353: owner domain, base mode, FGRP, HCHK, with the mode at the base mode. -/
def xstatInit (domain bmode : Nat) (fgrp hchk : Bool) : Word :=
  BitVec.ofNat 32 (domain % 256 * 2 ^ 16 + bmode % 4 * 2 ^ 10 + (if fgrp then 2 ^ 9 else 0)
    + (if hchk then 2 ^ 5 else 0) + bmode % 4 * 2 ^ 2)

/-- An agent with every register at the reset value of R57 and R352, in no team. -/
def Agent.blank (id : Nat) (kind : AgentKind) : Agent where
  id := id
  kind := kind
  alive := true
  resident := true
  die := 4
  core := 0
  part := 0
  slot := 0
  sslot := none
  cpart := 0
  team := 0
  launch := 0
  g := 0
  role := 0
  budget := 0
  pid := 0
  tid := 0
  space := .boot
  pcc := .null
  sregs := []
  ctags := 0
  vregs := []
  vtags := []
  preds := []
  em := 0xFFFFFFFF
  lm := 0xFFFFFFFF
  toks := []
  ktk := 0
  fsr := 0
  mxc := 0
  xpc := .null
  xlpc := 0
  xaddr := 0
  xcause := 0
  xstat := 0
  xlanes := 0
  xinfo := 0
  kentry := .null
  kscr := .null
  ipend := 0
  tcmp := 0xFFFFFFFFFFFFFFFF
  tcmpSeen := false
  latches := [none, none, none, none]
  alatch := none
  qcopy := []
  qcoll := []
  ncopy := 0
  ncoll := 0
  qmat := []
  nqmat := 0
  blocks := []
  pairing := .single
  firstLatch := none
  dlyScalar := 0
  dlyLane := 0
  pauseEnd := 0
  wait := .none
  stalled := false
  touching := none
  pausing := false
  heldTo := 0
  missScalar := false
  missLane := false
  suspended := none
  redirect := none
  pend := []
  outst := []
  gov := []
  nextOp := 0
  relPaths := []
  heldFaults := []
  postAtEret := []
  stopDue := false
  watchDue := none
  stepping := .off
  reply := none
  arrivals := []
  joins := []
  snapshot := none
  snapReady := false
  focus := 0
  focusLane := 0
  focusStack := []
  replays := []
  age := 0
  waitScalar := 0
  waitLane := 0
  sweptAt := 0
  sinks := 0

/-- A system core that waits in `wfi` after a reset (R467 step 6), in base mode monitor. -/
def Agent.sysIdle (n : Nat) : Agent :=
  { Agent.blank n .sysCore with core := n, xstat := xstatInit 0 2 false false, wait := .wfi }

/-- The system core that starts (R468): the root capabilities in c4, c5, c6, s28 and s29 as given, the pc at
`entry`, every other register zero. -/
def Agent.sysStart (n cpart : Nat) (s28 s29 : Word) (entry : Nat) : Agent :=
  { Agent.blank n .sysCore with
    core := n
    cpart := cpart
    xstat := xstatInit 0 2 false false
    pcc := Cap.memoryRoot entry
    sregs := quadEntries 4 (Cap.memoryRoot 0).bits ++ quadEntries 5 Cap.sealingRoot.bits
      ++ quadEntries 6 (Cap.memoryRoot 0).bits
      ++ ([(28, s28), (29, s29)] : Sparse Word).filter fun e => e.2 != 0
    ctags := 0x70 }

/-- The debug registers of a partition at reset (R454, R466). -/
def DebugPart.init (p : Nat) : DebugPart :=
  ⟨p, 0, 0, 0, 0, 0, 0, 0, [0, 0, 0, 0], [0, 0, 0, 0], [0, 0, 0, 0]⟩

/-- The machine right after a package reset (R467, R468). What the manual gives no value for is named in
logs 1, 2, 3 and 7. -/
def State.reset : State where
  ag := Agent.sysStart 0 0 0 0 Config.bootEntry
  rest := (List.range 63).map fun k => Agent.sysIdle (k + 1)
  nextAgent := 64
  mem := []
  tags := []
  cipher := []
  teams := []
  nextTeam := 1
  launches := []
  nextLaunch := 1
  ctxs := []
  walks := []
  nextWalk := 1
  cmds := []
  nextCmd := 1
  colls := []
  collSrcs := []
  eps := []
  arrays := []
  pages := []
  nextPage := 1
  tlb := []
  subs := []
  touches := []
  coh := ⟨[], [], [], [], [], [], 1, [(0, 25), (1, 25), (2, 25), (3, 25)], [], 1, [], [], []⟩
  sweep := ⟨0, 0, 0, 0, none, none, 0, 0, [], []⟩
  keys := ⟨List.replicate 16 0, 0, 0, [(0, 1)], 1, []⟩
  fabric := ⟨0, 0x0000000001000010, 0, [0, 0, 0, 0], 0, 0xFFFF, 0,
    (List.range 18).map fun n => ⟨n, 0, 0, 0, 0, false⟩, (List.range 3).map fun k => ⟨k, 0, 0⟩, []⟩
  dbg := (List.range 4).map DebugPart.init
  cores := (List.range 64).map fun c => ⟨c, 0, 0, none⟩
  islet := ⟨0, 1, false, [0, 0], [true, true], false, false, 0, 0, false, 0, 0, 0, none, [], [], 0, 64, 0, 0, 0, none, none,
    false, []⟩
  powered := true
  clk := 0
  time := 0
  clockOff := []
  clockHold := []
  lastIssued := []
  filled := []
  issues := 0
  fresh := 0
  schedule := []

end Sys2Proof.Machine
end

