-- ==== Sys2Proof/Machine/Memory.lean ====
section
/-!
DEFINITION. Memory by physical address (20 R371): bytes, little-endian words (R5), the tag of each 16-byte granule
(R87, R88). An unlisted byte reads as zero (log 1). `Memory.wf` is the canonical form.
-/

namespace Sys2Proof.Machine

/-- The canonical form of memory: addresses strictly rising, no entry equal to what an unlisted address reads. -/
def Memory.wf (m : List Host.Cell) : Bool := swf (0 : Byte) m

/-- One byte. -/
def readByte (m : List Host.Cell) (a : Nat) : Byte := sget (0 : Byte) m a

/-- Writes one byte. -/
def writeByte (m : List Host.Cell) (a : Nat) (b : Byte) : List Host.Cell := sput (0 : Byte) m a b

/-- `n` bytes from address `a` on, lowest first. -/
def readBytes (m : List Host.Cell) (a : Nat) : Nat → List Byte
  | 0 => []
  | n + 1 => readByte m a :: readBytes m (a + 1) n

/-- Writes bytes from address `a` on, lowest first. -/
def writeBytes (m : List Host.Cell) (a : Nat) : List Byte → List Host.Cell
  | [] => m
  | b :: bs => writeBytes (writeByte m a b) (a + 1) bs

/-- The little-endian number in `n` bytes (R5). -/
def readNat (m : List Host.Cell) (a n : Nat) : Nat := ofBytesLE (readBytes m a n)

/-- Writes the low `n` bytes of a number, little-endian (R5). -/
def writeNat (m : List Host.Cell) (a n v : Nat) : List Host.Cell := writeBytes m a (bytesLE n v)

/-- Clears the tags of the granules that bytes [a, a+n) touch (R88). -/
def clearTags (tags : List Nat) (a n : Nat) : List Nat :=
  if n = 0 then tags
  else (List.range ((a + n - 1) / 16 - a / 16 + 1)).foldl (fun t k => delSet t (a / 16 + k)) tags

/-- The tag of the granule that holds address `a` (R87). -/
def State.tagAt (s : State) (a : Nat) : Bool := inSet s.tags (a / 16)

/-- HBM4E (R371). -/
def isHbm (a : Nat) : Bool := a < 0x8000000000

/-- The LPDDR6 tier (R371). -/
def isLpd (a : Nat) : Bool := 0x10000000000 ≤ a && a < 0x20000000000

/-- DRAM: HBM4E or LPDDR6. -/
def isDram (a : Nat) : Bool := isHbm a || isLpd a

/-- The system control window (R371, R469). -/
def isWindow (a : Nat) : Bool := 0x80000000000 ≤ a && a < 0x90000000000

/-- A peer window (R371). -/
def isPeer (a : Nat) : Bool := 0x8000000000000 ≤ a && a < 0x10000000000000

/-- The home die of a DRAM address (R16, R371). -/
def homeDie (a : Nat) : Nat := if isHbm a then a / 2 ^ 37 % 4 else 4

/-- The key generation in slot `o`, none when the slot is empty (R437). -/
def State.keyGen (s : State) (o : Nat) : Option Nat := (s.keys.full.find? fun e => e.1 == o).map (·.2)

/-- The bytes of `n` bytes at `a` as an access under owner `o` sees them: the bytes themselves when the data was
written under the same key, zero when the slot is empty, free bytes when it was written under another key
(R436, R437). The key of a 128-byte unit is listed in `cipher` when it is not slot 0's first. -/
def State.seeBytes (s : State) (o a n : Nat) : List Byte :=
  match s.keyGen o with
  | none => List.replicate n 0
  | some g =>
    (List.range n).map fun i =>
      if sget 1 s.cipher ((a + i) / 128) = g then readByte s.mem (a + i) else Config.freeByte s.fresh (a + i)

/-- A data write under owner `o`: the bytes, the key of the unit, and cleared tags (R88, R437). Under an empty
slot it is discarded. When a unit held data under another key, its other bytes become unknown. -/
def State.putBytes (s : State) (o a : Nat) (bs : List Byte) : State :=
  match s.keyGen o with
  | none => s
  | some g =>
    let n := bs.length
    if (List.range n).all fun i => sget 1 s.cipher ((a + i) / 128) = g then
      { s with mem := writeBytes s.mem a bs, tags := clearTags s.tags a n }
    else
      let u := a / 128 * 128
      let len := ((a + n + 127) / 128 * 128) - u
      let old := s.seeBytes o u len
      { s with
        mem := writeBytes (writeBytes s.mem u old) a bs
        cipher := (List.range (len / 128)).foldl (fun c k => sput 1 c (u / 128 + k) g) s.cipher
        tags := clearTags s.tags u len }

/-- A hardware read by physical address under the device's own key: page tables, objects, rings. -/
def State.readPhys (s : State) (a n : Nat) : Nat := readNat s.mem a n

/-- A hardware write by physical address; the tags of the granules it touches are cleared (R88). -/
def State.writePhys (s : State) (a n v : Nat) : State :=
  { s with mem := writeNat s.mem a n v, tags := clearTags s.tags a n }

/-- Sets the presence bit of the frame that gains a tag (R429). -/
def Sweeper.noteTag (w : Sweeper) (a : Nat) : Sweeper := { w with frames := addSet w.frames (a / 4096) }

/-- A capability store: 16 bytes and the tag in one update (R88). -/
def State.putCap (s : State) (o a : Nat) (c : Cap) : State :=
  let s1 := s.putBytes o a (bytesLE 16 c.bits.toNat)
  if c.tag && (s.keyGen o).isSome then
    { s1 with tags := addSet s1.tags (a / 16), sweep := s1.sweep.noteTag a }
  else s1

/-- A capability load: 16 bytes and the granule's tag (R89). -/
def State.seeCap (s : State) (o a : Nat) : Cap :=
  ⟨BitVec.ofNat 128 (ofBytesLE (s.seeBytes o a 16)), s.tagAt a && (s.keyGen o).isSome⟩

/-- A hardware read of a capability by physical address. -/
def State.capPhys (s : State) (a : Nat) : Cap := ⟨BitVec.ofNat 128 (s.readPhys a 16), s.tagAt a⟩

end Sys2Proof.Machine
end

