-- ==== Sys2Proof/Machine/Caps.lean ====
section
/-!
DEFINITION. Capabilities (04 R81 to R98): fields, bounds, derivation. A derivation answers the capability or the
cause of the trap.
-/

namespace Sys2Proof.Machine

def Cap.addr (c : Cap) : Nat := (c.bits.extractLsb' 0 64).toNat
def Cap.tm (c : Cap) : Nat := (c.bits.extractLsb' 64 11).toNat
def Cap.bm (c : Cap) : Nat := (c.bits.extractLsb' 75 11).toNat
def Cap.exp (c : Cap) : Nat := (c.bits.extractLsb' 86 6).toNat
def Cap.owner (c : Cap) : Nat := (c.bits.extractLsb' 92 8).toNat
/-- PERMS, bits [112:100] (R82). -/
def Cap.perms (c : Cap) : Nat := (c.bits.extractLsb' 100 13).toNat
/-- Bits [115:100]: PERMS with the reserved permissions above. -/
def Cap.permField (c : Cap) : Nat := (c.bits.extractLsb' 100 16).toNat
def Cap.sealType (c : Cap) : Nat := (c.bits.extractLsb' 116 12).toNat

/-- The permission bits of R82 within PERMS. -/
def permLD : Nat := 0
def permST : Nat := 1
def permLDC : Nat := 2
def permSTC : Nat := 3
def permXS : Nat := 4
def permXL : Nat := 5
def permSEAL : Nat := 6
def permUNSEAL : Nat := 7
def permGLOB : Nat := 8
def permSTLOC : Nat := 9
def permEXPORT : Nat := 10
def permSYS : Nat := 11
def permNR : Nat := 12

/-- Whether the capability holds permission bit `p`. -/
def Cap.has (c : Cap) (p : Nat) : Bool := c.bits.getLsbD (100 + p)

/-- A capability from its fields (R81). -/
def Cap.ofFields (sealType permField owner exp bm tm addr : Nat) (tag : Bool) : Cap :=
  ⟨BitVec.ofNat 12 sealType ++ BitVec.ofNat 16 permField ++ BitVec.ofNat 8 owner ++ BitVec.ofNat 6 exp
    ++ BitVec.ofNat 11 bm ++ BitVec.ofNat 11 tm ++ BitVec.ofNat 64 addr, tag⟩

/-- The same bits with another cursor. -/
def Cap.withAddr (c : Cap) (a : Nat) : Cap := { c with bits := c.bits.extractLsb' 64 64 ++ BitVec.ofNat 64 a }

/-- The reserved permissions, bits [115:113], become 0, as in every capability a derivation gives (R81). -/
def Cap.clearReserved (c : Cap) : Cap := { c with bits := c.bits &&& ~~~(7#128 <<< 113) }

/-- The same fields with another seal type. -/
def Cap.withSeal (c : Cap) (t : Nat) : Cap := { c with bits := BitVec.ofNat 12 t ++ c.bits.extractLsb' 0 116 }

/-- An export capability: sealed with type 8, cursor in a peer window (R83, R433). -/
def Cap.isExport (c : Cap) : Bool :=
  c.sealType == 8 && 0x8000000000000 ≤ c.addr && c.addr < 0x10000000000000

/-- The decoded bounds: base and top (R83). -/
def Cap.bounds (c : Cap) : Nat × Nat :=
  if c.isExport then (c.addr / 2 ^ 28 * 2 ^ 28, c.addr / 2 ^ 28 * 2 ^ 28 + 2 ^ 28)
  else if 54 ≤ c.exp then (0, 2 ^ 64)
  else
    let e := c.exp
    let hi : Int := (c.addr / 2 ^ (e + 11) : Nat)
    let ia : Int := if c.addr / 2 ^ e % 2048 < c.bm then 1 else 0
    let it : Int := if c.tm < c.bm then 1 else 0
    (((hi - ia) * 2 ^ (e + 11) + c.bm * 2 ^ e) % 2 ^ 64 |>.toNat,
     ((hi + it - ia) * 2 ^ (e + 11) + c.tm * 2 ^ e) % 2 ^ 65 |>.toNat)

def Cap.base (c : Cap) : Nat := c.bounds.1
def Cap.top (c : Cap) : Nat := c.bounds.2

/-- A new cursor: the tag is kept only when the bounds decode as before (R85). The reserved permissions become 0. -/
def Cap.setAddr (c : Cap) (a : Nat) : Cap :=
  let c' := (c.withAddr (a % 2 ^ 64)).clearReserved
  { c' with tag := c.tag && decide (c'.bounds = c.bounds) }

/-- Bounds [b, t) fit exponent `e` after rounding outward to multiples of 2^e (R84, R86). -/
def fitsExp (e b t : Nat) : Bool :=
  let b' := b / 2 ^ e * 2 ^ e
  let t' := (t + 2 ^ e - 1) / 2 ^ e * 2 ^ e
  t' - b' ≤ 2 ^ (e + 11) - 2 ^ e && t' ≤ 2 ^ 64

/-- Setting bounds to [cursor, cursor + len) (R86): the rounding form, or the exact one. The checks of the tag
and the seal come first (R91). The reserved permissions become 0 (R81). -/
def Cap.setBounds (c : Cap) (len : Nat) (exact : Bool) : Except Nat Cap :=
  if !c.tag then .error 0x08
  else if c.sealType ≠ 0 then .error 0x09
  else
    let b := c.addr
    let t := b + len
    if 2 ^ 64 < t then .error 0x0B
    else match (List.range 54).find? fun e => fitsExp e b t with
      | some e =>
        let b' := b / 2 ^ e * 2 ^ e
        let t' := (t + 2 ^ e - 1) / 2 ^ e * 2 ^ e
        if exact && (b' ≠ b || t' ≠ t) then .error 0x0B
        else if b' < c.base || c.top < t' then .error 0x0B
        else .ok (Cap.ofFields 0 c.perms c.owner e (b' / 2 ^ e % 2048) (t' / 2 ^ e % 2048) b true)
      | none =>
        if exact && (b ≠ 0 || t ≠ 2 ^ 64) then .error 0x0B
        else if c.base ≠ 0 || c.top ≠ 2 ^ 64 then .error 0x0B
        else .ok (Cap.ofFields 0 c.perms c.owner 63 0 0 b true)

/-- Moving the cursor (R91): an untagged source gives an untagged result, a sealed one traps 0x09. -/
def Cap.moveTo (c : Cap) (a : Nat) : Except Nat Cap :=
  if !c.tag then .ok (c.withAddr (a % 2 ^ 64)).clearReserved
  else if c.sealType ≠ 0 then .error 0x09
  else .ok (c.setAddr a)

/-- Adding a signed increment to the cursor, modulo 2^64 (R174). -/
def Cap.increment (c : Cap) (d : Int) : Except Nat Cap := c.moveTo (((c.addr : Int) + d) % 2 ^ 64).toNat

/-- Narrowing permissions by a 13-bit mask; bits [115:113] become 0 (R91). -/
def Cap.narrow (c : Cap) (mask : Nat) : Except Nat Cap :=
  if c.tag && c.sealType ≠ 0 then .error 0x09
  else
    .ok (Cap.ofFields c.sealType (c.perms &&& (mask % 2 ^ 13)) c.owner c.exp c.bm c.tm c.addr c.tag)

/-- The checks sealing and unsealing share, in the order of R96 steps 3 to 6. -/
def Cap.authority (k : Cap) (perm : Nat) : Except Nat Unit :=
  if !k.tag then .error 0x08
  else if k.sealType ≠ 0 then .error 0x09
  else if !k.has perm then .error 0x0A
  else if k.addr < k.base || k.top ≤ k.addr then .error 0x0B
  else .ok ()

/-- Sealing with the authority's cursor as type (R96). -/
def Cap.wrap (c k : Cap) : Except Nat Cap :=
  if !c.tag then .error 0x08
  else if c.sealType ≠ 0 then .error 0x09
  else match k.authority permSEAL with
    | .error e => .error e
    | .ok () =>
      let t := k.addr
      if (1 ≤ t && t ≤ 9) || (16 ≤ t && t ≤ 4095) then .ok (c.withSeal t).clearReserved else .error 0x09

/-- Clears GLOB. -/
def Cap.clearGlob (c : Cap) : Cap := { c with bits := c.bits &&& ~~~(1#128 <<< 108) }

/-- Unsealing (R96); GLOB of the result is the AND of both. -/
def Cap.unwrap (c k : Cap) : Except Nat Cap :=
  if !c.tag then .error 0x08
  else if c.sealType = 0 then .error 0x09
  else match k.authority permUNSEAL with
    | .error e => .error e
    | .ok () =>
      if k.addr ≠ c.sealType then .error 0x09
      else
        let r := (c.withSeal 0).clearReserved
        .ok (if k.has permGLOB then r else r.clearGlob)

/-- Containment (R91): `b` within `a`. -/
def Cap.within (a b : Cap) : Bool :=
  a.tag && b.tag && a.owner == b.owner && a.sealType == b.sealType && decide (a.base ≤ b.base)
    && decide (b.top ≤ a.top) && (b.perms &&& a.perms) == b.perms

/-- Setting OWNER (R365). -/
def Cap.withOwner (c : Cap) (o : Nat) : Cap :=
  { c with bits := c.bits.extractLsb' 100 28 ++ BitVec.ofNat 8 o ++ c.bits.extractLsb' 0 92 }

/-- Kinds of access for the permission table of R95. -/
inductive AccessKind
  | load | loadNr | store | atomic | loadCap | storeCap (tagged glob : Bool) | fetch
  deriving DecidableEq, Repr

/-- The permissions an access needs (R95). -/
def AccessKind.need : AccessKind → List Nat
  | .load | .loadCap => [permLD]
  | .loadNr => [permLD, permNR]
  | .store => [permST]
  | .atomic => [permLD, permST]
  | .storeCap tagged glob => if !tagged then [permST] else if glob then [permST, permSTC]
      else [permST, permSTC, permSTLOC]
  | .fetch => [permXS]

/-- Whether the access writes (R376). -/
def AccessKind.isWrite : AccessKind → Bool
  | .store | .atomic | .storeCap _ _ => true
  | _ => false

/-- The checks of R93 before translation, on an exact effective address, in order; none when all pass. -/
def Cap.check (c : Cap) (need : List Nat) (ea : Int) (n align : Nat) : Option Nat :=
  if !c.tag then some 0x08
  else if c.sealType ≠ 0 && !c.isExport then some 0x09
  else if !need.all c.has then some 0x0A
  else if ea < c.base || (c.top : Int) < ea + n then some 0x0B
  else if ea % align ≠ 0 then some 0x0C
  else none

/-- The checks of R98 on an object capability of type `ty`: tag, seal type, permissions, cursor in bounds. -/
def Cap.checkObject (c : Cap) (ty : Nat) (need : List Nat) : Option Nat :=
  if !c.tag then some 0x08
  else if c.sealType ≠ ty then some 0x09
  else if !need.all c.has then some 0x0A
  else if c.addr < c.base || c.top ≤ c.addr then some 0x0B
  else none

/-- The checks of R172 on a jump target: tag, seal (unsealed or sentry), XS, 4 bytes in bounds, alignment. -/
def Cap.checkJump (c : Cap) : Option Nat :=
  if !c.tag then some 0x08
  else if c.sealType ≠ 0 && c.sealType ≠ 9 then some 0x09
  else if !c.has permXS then some 0x0A
  else if c.addr < c.base || c.top < c.addr + 4 then some 0x0B
  else if c.addr % 4 ≠ 0 then some 0x0C
  else none

end Sys2Proof.Machine
end

