-- ==== Sys2Proof/Machine/Regs.lean ====
section
/-!
DEFINITION. Reading and writing an agent's registers (03). Hard-wired registers (s0 to s3, p0), tags of quads,
results in flight, token-governed destinations: every special behaviour of a register is here.
-/

namespace Sys2Proof.Machine

/-- Lane mask with the given lanes. -/
def laneBit (l : Nat) : BitVec 32 := 1#32 <<< l

/-- Sets or clears bit `i`. -/
def setBitTo {n : Nat} (v : BitVec n) (i : Nat) (b : Bool) : BitVec n :=
  if b then v ||| (1#n <<< i) else v &&& ~~~(1#n <<< i)

/-- 1 or 0. -/
def bit01 (b : Bool) : Word := if b then 1 else 0

/-- Adds event counts to mxc: three saturating counters (R63). -/
def mxcAdd (m d : Word) : Word :=
  let f := fun lo => min 255 ((m.extractLsb' lo 8).toNat + (d.extractLsb' lo 8).toNat)
  BitVec.ofNat 32 (f 0 + 256 * f 8 + 65536 * f 16)

/-- What a place of the register files holds now. s0 to s3 read zero, p0 true, c0's tag clear (R58, R61). -/
def Agent.raw (a : Agent) : Loc → Word
  | .s n => if n < 4 then 0 else sget 0 a.sregs n
  | .v r l => sget 0 a.vregs (r * 32 + l)
  | .p n l => if n = 0 then 1 else bit01 ((sget 0 a.preds n).getLsbD l)
  | .ct q => if q = 0 then 0 else bit01 (a.ctags.getLsbD q)
  | .vt q l => bit01 ((sget 0 a.vtags q).getLsbD l)
  | .em => a.em
  | .lm => a.lm
  | .fsr => a.fsr
  | .mxc => a.mxc

/-- Writes a place. Writes to s0 to s3, p0 and c0 are discarded; a write of integer bits clears the tag of the
quad (R58), of that lane's quad for a vector register (R59). em never holds a lane that lm lacks, and lm never
regains a lane (R44). fsr and mxc accumulate (R62, R63). -/
def Agent.put (a : Agent) (l : Loc) (v : Word) : Agent :=
  match l with
  | .s n => if n < 4 then a else
      { a with sregs := sput 0 a.sregs n v, ctags := setBitTo a.ctags (n / 4) false }
  | .v r k =>
      { a with
        vregs := sput 0 a.vregs (r * 32 + k) v
        vtags := sput 0 a.vtags (r / 4) (setBitTo (sget 0 a.vtags (r / 4)) k false) }
  | .p n k => if n = 0 then a else
      { a with preds := sput 0 a.preds n (setBitTo (sget 0 a.preds n) k (v != 0)) }
  | .ct q => if q = 0 then a else { a with ctags := setBitTo a.ctags q (v != 0) }
  | .vt q k => { a with vtags := sput 0 a.vtags q (setBitTo (sget 0 a.vtags q) k (v != 0)) }
  | .em => { a with em := v &&& a.lm }
  | .lm => { a with lm := v &&& a.lm, em := a.em &&& v }
  | .fsr => { a with fsr := a.fsr ||| v }
  | .mxc => { a with mxc := mxcAdd a.mxc v }

/-- The tag that a write of `l` clears, and `l` itself. -/
def Loc.touched : Loc → List Loc
  | .s n => [.s n, .ct (n / 4)]
  | .v r k => [.v r k, .vt (r / 4) k]
  | l => [l]

/-- fsr and mxc gather events; a later write is no overwrite of them. -/
def Loc.gathers : Loc → Bool
  | .fsr | .mxc => true
  | _ => false

/-- The instruction of program order `n` writes `l`: what earlier operations still under way would write there is
discarded (R231), and the place is token-governed no more. -/
def Agent.supersede (a : Agent) (n : Nat) (l : Loc) : Agent :=
  if l.gathers then a else
  { a with
    outst := a.outst.map fun o =>
      if o.num < n && l.touched.any o.dests.contains then { o with dead := l.touched ++ o.dead } else o
    gov := a.gov.filter fun g => !l.touched.contains g.loc }

/-- A result of latency "next instruction". -/
def Agent.write (a : Agent) (l : Loc) (v : Word) : Agent := (a.supersede a.nextOp l).put l v

/-- Several such results, in order. -/
def Agent.writes (a : Agent) (ws : List (Loc × Word)) : Agent := ws.foldl (fun a w => a.write w.1 w.2) a

/-- A result of fixed latency that takes effect at clk `eff` (R66). -/
def Agent.later (a : Agent) (eff : Nat) (ws : List (Loc × Word)) : Agent :=
  { a with pend := a.pend ++ ws.map (fun w => ⟨eff, a.nextOp, w.1, w.2⟩), nextOp := a.nextOp + 1 }

/-- Insertion by effect time, then by program order. -/
def pendInsert (p : Pend) : List Pend → List Pend
  | [] => [p]
  | q :: r => if p.eff < q.eff || (p.eff == q.eff && p.seq < q.seq) then p :: q :: r else q :: pendInsert p r

/-- A fixed-latency result takes effect. -/
def Agent.takeEffect (a : Agent) (p : Pend) : Agent := (a.supersede p.seq p.loc).put p.loc p.val

/-- The fixed-latency results due at clk `t` take effect, in order of effect time, then of program order; in the
same clk the later in program order prevails (R66). -/
def Agent.commit (a : Agent) (t : Nat) : Agent :=
  if a.pend.isEmpty then a else
  let due := (a.pend.filter fun p => p.eff ≤ t).foldl (fun l p => pendInsert p l) []
  due.foldl Agent.takeEffect { a with pend := a.pend.filter fun p => t < p.eff }

/-- Every fixed-latency result in flight takes effect (R67). -/
def Agent.settle (a : Agent) : Agent :=
  (a.pend.foldl (fun l p => pendInsert p l) []).foldl Agent.takeEffect { a with pend := [] }

/-- A place that a token-posting operation without a token, or of a system core, leaves settled: fsr and mxc gather; a
system core's reads wait for the operation (R164); em and lm have changed at the moment a token would post (R219). -/
def Agent.landsSettled (a : Agent) (tk : Option Nat) (l : Loc) : Bool :=
  a.kind == .sysCore || l.gathers || (tk == none && (l == .em || l == .lm))

/-- A token-posting operation of program order `n` writes its results: none where a later instruction has written
(`dead`, R231); the places are token-governed until a `wtok` has seen the token (R75), each with the value that it has
before the operation writes. -/
def Agent.land (a : Agent) (n : Nat) (tk : Option Nat) (lane : Bool) (dead : List Loc)
    (ws : List (Loc × Word)) : Agent :=
  let mine := ws.filter fun w => !dead.contains w.1
  let marks := (mine.flatMap fun w => w.1.touched).foldl
    (fun ls l => if ls.contains l || a.landsSettled tk l then ls else ls ++ [l]) []
  let b := mine.foldl (fun b w =>
    ({ b with
      outst := (b.supersede n w.1).outst
      pend := b.pend.filter fun p => !(p.seq < n && w.1.touched.contains p.loc) }).put w.1 w.2) a
  { b with gov := b.gov ++ marks.map fun l => ⟨n, tk, lane, l, a.raw l⟩ }

/-- A number for a place, the position of a free choice. -/
def Loc.key : Loc → Nat
  | .s n => n
  | .ct q => 160 + q
  | .p n l => 200 + n * 32 + l
  | .v r l => 4096 + r * 32 + l
  | .vt q l => 65536 + q * 32 + l
  | .em => 300000
  | .lm => 300001
  | .fsr => 300002
  | .mxc => 300003

/-- A place that reads the same whatever is written (R58, R61): nothing is ever in flight to it. -/
def Loc.fixed : Loc → Bool
  | .s n => n < 4
  | .p n _ => n == 0
  | .ct q => q == 0
  | _ => false

/-- The free choice of a read at position `key`: operation `n` is read as it was before it wrote. -/
def readsOld (fresh key n : Nat) : Bool := Config.freeBit fresh (key + 2 ^ 20 * n)

/-- The value of a place whose last writers are listed in `gs`, oldest first, `last` being its value now: that of the
latest writer that the read does not take as it was before. -/
def chainValue (fresh key : Nat) (last : Word) : List Gov → Word
  | [] => last
  | g :: r => if r.all (fun h => readsOld fresh key h.num) && readsOld fresh key g.num then g.old
      else chainValue fresh key last r

/-- What a read of a place returns: its value, or, for a token-governed destination that no `wtok` has seen, the
value from before or after each operation that has written it, a free choice (R75) made at position `key`. -/
def Agent.rdAt (a : Agent) (fresh key : Nat) (l : Loc) : Word :=
  let gs := a.gov.filter fun g => g.loc == l
  if l.fixed || gs.all (fun g => g.old == a.raw l) then a.raw l else chainValue fresh key (a.raw l) gs

/-- A read of one place. -/
def Agent.rd (a : Agent) (fresh : Nat) (l : Loc) : Word := a.rdAt fresh l.key l

/-- A read of a 64-bit pair. Two words that one operation wrote are read both old or both new (R75). -/
def Agent.rdPair (a : Agent) (fresh : Nat) (lo hi : Loc) : DWord :=
  a.rdAt fresh lo.key hi ++ a.rdAt fresh lo.key lo

/-- A place some result has not reached or no `wtok` has seen: what hazard-check mode traps on (R77). -/
def Agent.unsettled (a : Agent) (l : Loc) : Bool :=
  !l.fixed && (a.pend.any (fun p => p.loc == l) || a.gov.any (fun g => g.loc == l)
    || a.outst.any fun o => o.dests.contains l && !o.dead.contains l)

/-- A place that an operation under way has still to write (the interlock of a system core, R22). -/
def Agent.awaited (a : Agent) (l : Loc) : Bool :=
  !l.fixed && a.outst.any fun o => o.dests.contains l && !o.dead.contains l

/-- The 64-bit value of two words, low word first. -/
def pairOf (lo hi : Word) : DWord := hi ++ lo

/-- Low and high word of a 64-bit value. -/
def loWord (v : DWord) : Word := v.extractLsb' 0 32
def hiWord (v : DWord) : Word := v.extractLsb' 32 32

/-- The words a capability is written as, from scalar quad `q`, and its tag (R58). -/
def capWrites (q : Nat) (c : Cap) : List (Loc × Word) :=
  [(.s (4 * q), c.bits.extractLsb' 0 32), (.s (4 * q + 1), c.bits.extractLsb' 32 32),
   (.s (4 * q + 2), c.bits.extractLsb' 64 32), (.s (4 * q + 3), c.bits.extractLsb' 96 32),
   (.ct q, bit01 c.tag)]

/-- As `capWrites`, for lane `l` of vector quad `q` (R59). -/
def vcapWrites (q l : Nat) (c : Cap) : List (Loc × Word) :=
  [(.v (4 * q) l, c.bits.extractLsb' 0 32), (.v (4 * q + 1) l, c.bits.extractLsb' 32 32),
   (.v (4 * q + 2) l, c.bits.extractLsb' 64 32), (.v (4 * q + 3) l, c.bits.extractLsb' 96 32),
   (.vt q l, bit01 c.tag)]

/-- The places of a scalar quad. -/
def capLocs (q : Nat) : List Loc := [.s (4 * q), .s (4 * q + 1), .s (4 * q + 2), .s (4 * q + 3), .ct q]

/-- The places of a lane of a vector quad. -/
def vcapLocs (q l : Nat) : List Loc :=
  [.v (4 * q) l, .v (4 * q + 1) l, .v (4 * q + 2) l, .v (4 * q + 3) l, .vt q l]

/-- A capability register as a read returns it: one choice for the whole quad of each operation that has written in it,
so that no tag is ever seen over bits it does not belong to (R75, R90). -/
def Agent.rdCap (a : Agent) (fresh q : Nat) : Cap :=
  let r := a.rdAt fresh (Loc.ct q).key
  ⟨r (.s (4 * q + 3)) ++ r (.s (4 * q + 2)) ++ r (.s (4 * q + 1)) ++ r (.s (4 * q)), r (.ct q) != 0⟩

/-- A lane's vector capability as a read returns it. -/
def Agent.rdVcap (a : Agent) (fresh q l : Nat) : Cap :=
  let r := a.rdAt fresh (Loc.vt q l).key
  ⟨r (.v (4 * q + 3) l) ++ r (.v (4 * q + 2) l) ++ r (.v (4 * q + 1) l) ++ r (.v (4 * q) l), r (.vt q l) != 0⟩

/-! ### xstat (R353) -/

def Agent.mode (a : Agent) : Nat := (a.xstat.extractLsb' 2 2).toNat
def Agent.bmode (a : Agent) : Nat := (a.xstat.extractLsb' 10 2).toNat
def Agent.pmode (a : Agent) : Nat := (a.xstat.extractLsb' 0 2).toNat
def Agent.domain (a : Agent) : Nat := (a.xstat.extractLsb' 16 8).toNat
def Agent.hnd (a : Agent) : Bool := a.xstat.getLsbD 7
def Agent.hchk (a : Agent) : Bool := a.xstat.getLsbD 5
def Agent.stepBit (a : Agent) : Bool := a.xstat.getLsbD 8
def Agent.laneTrap (a : Agent) : Bool := a.xstat.getLsbD 6
def Agent.isSys (a : Agent) : Bool := a.kind == .sysCore

/-- Writes field [lo, lo+n) of xstat. -/
def xstatField (x : Word) (lo n v : Nat) : Word :=
  (x &&& ~~~(BitVec.ofNat 32 ((2 ^ n - 1) * 2 ^ lo))) ||| BitVec.ofNat 32 (v % 2 ^ n * 2 ^ lo)

def Agent.setMode (a : Agent) (m : Nat) : Agent := { a with xstat := xstatField a.xstat 2 2 m }

/-- The scalar PC: the cursor of pcc (R163). -/
def Agent.pc (a : Agent) : Nat := a.pcc.addr

def Agent.setPc (a : Agent) (n : Nat) : Agent := { a with pcc := a.pcc.withAddr (n % 2 ^ 64) }

/-- Token number 15 names ktk in kernel and monitor mode (R76); ktk is kept as number 16. -/
def Agent.tokenId (a : Agent) (n : Nat) : Nat := if n = 15 && a.mode ≠ 0 then 16 else n

def Agent.tokenOpt (a : Agent) (t : Option Nat) : Option Nat := t.map a.tokenId

/-- A token's count (R74). -/
def Agent.tok (a : Agent) (n : Nat) : BitVec 16 := if n = 16 then a.ktk else sget 0 a.toks n

def Agent.setTok (a : Agent) (n : Nat) (v : BitVec 16) : Agent :=
  if n = 16 then { a with ktk := v } else { a with toks := sput 0 a.toks n v }

/-- One increment posts (R74). -/
def Agent.post (a : Agent) : Option Nat → Agent
  | none => a
  | some n => { a.setTok n (a.tok n + 1) with sinks := a.sinks + 1 }

/-- The threshold test of R74: signed 16-bit (count - thr) is at least 0. -/
def tokenMet (count : BitVec 16) (thr : Nat) : Bool := !(count - BitVec.ofNat 16 thr).msb

/-- Destinations whose increment has been seen are governed no more, nor is what was written there before (R75). -/
def dropSeen (seen : Gov → Bool) : List Gov → List Gov
  | [] => []
  | g :: r => if seen g || r.any (fun h => h.loc == g.loc && seen h) then dropSeen seen r else g :: dropSeen seen r

/-- A `wtok` on token `n` has completed: every increment it holds has been seen (R75). -/
def Agent.seenTok (a : Agent) (n : Nat) : Agent := { a with gov := dropSeen (fun g => g.tk == some n) a.gov }

/-- A fence of one stream has completed: loads of that stream that name no token are governed no more
(R176, R230). -/
def Agent.seenFence (a : Agent) (lane : Bool) : Agent :=
  { a with gov := dropSeen (fun g => g.tk == none && g.lane == lane) a.gov }

/-- The partition's latches are lost (R71). -/
def Agent.loseLatches (a : Agent) : Agent :=
  { a with latches := [none, none, none, none], alatch := a.alatch.map fun r => { r with coll := none } }

end Sys2Proof.Machine
end

