-- ==== Sys2Proof/Machine/Agents.lean ====
section
/-!
DEFINITION. Finding and changing agents, local device time (01 R25, R26), the partitions' shares (25 R451), the
signal of an interrupt line (19 R367), the Islet's log (27).
-/

namespace Sys2Proof.Machine

/-- The agent with number `id`. -/
def State.agent? (s : State) (id : Nat) : Option Agent :=
  if s.ag.id = id then some s.ag else s.rest.find? fun a => a.id == id

/-- Changes the agent with number `id`. -/
def State.updAgent (s : State) (id : Nat) (f : Agent → Agent) : State :=
  if s.ag.id = id then { s with ag := f s.ag }
  else { s with rest := s.rest.map fun a => if a.id = id then f a else a }

/-- Changes every agent. -/
def State.updAll (s : State) (f : Agent → Agent) : State := { s with ag := f s.ag, rest := s.rest.map f }

/-- Every agent. -/
def State.agents (s : State) : List Agent := s.ag :: s.rest

/-- The groups of a team that have not ended. -/
def State.members (s : State) (team : Nat) : List Agent :=
  s.agents.filter fun a => a.alive && a.team == team && a.kind != .sysCore

/-- Brings an agent into focus. -/
def State.focusOn (s : State) (id : Nat) : State :=
  if s.ag.id = id then s
  else match s.rest.find? fun a => a.id == id with
    | none => s
    | some a => { s with ag := a, rest := s.ag :: s.rest.filter fun b => b.id != id }

/-- The copy of device time that an agent reads (R25): each system core has one, and each compute core has one that
its groups share. Numbers 0 to 63 are the system cores, from 64 on the compute cores, from 256 on the units that grant
leases, 300 is the Islet, from 512 on the engines and from 1,024 on the memory controllers, of whose copies nothing that the
spec describes reads the time. -/
def clockKey (a : Agent) : Nat := if a.isSys then a.core else 64 + 48 * a.die + a.core

/-- How far a copy is from the master, beyond the 20 ns of normal operation; its last reading (R26). -/
def State.clockOffset (s : State) (key : Nat) : Int := ((s.clockOff.find? fun e => e.1 == key).map (·.2)).getD 0
def State.clockSeen (s : State) (key : Nat) : Nat := ((s.clockHold.find? fun e => e.1 == key).map (·.2)).getD 0

/-- A copy of device time drifts from the master (R26). -/
def State.driftCopy (s : State) (key : Nat) (ns : Int) : State :=
  { s with clockOff := (key, s.clockOffset key + ns) :: s.clockOff.filter fun e => e.1 != key }

/-- Device time by a copy, held at its last reading while the copy is set backward. -/
def State.localTime (s : State) (key : Nat) : Nat := max (s.clockSeen key) ((s.time : Int) + s.clockOffset key).toNat

/-- A reading of a copy (R25, R26): within 20 ns of the master in normal operation, a free value, and never below the
reading before it. -/
def State.readTime (s : State) (key : Nat) : State × Nat :=
  let v := max (s.clockSeen key)
    ((s.time : Int) + s.clockOffset key + (Config.freeNat s.fresh key % 41 : Nat) - 20).toNat
  ({ s with clockHold := (key, v) :: s.clockHold.filter fun e => e.1 != key }, v)

/-- The copy of device time of the Islet. -/
def isletKey : Nat := 300

/-- An event of the Islet's log, at the Islet's own time; the log keeps the newest 4,096 (27). -/
def State.logEvent (s : State) (kind detail : Nat) : State :=
  { s with islet := { s.islet with log := (((kind, s.localTime isletKey, detail) :: s.islet.log).take 4096) } }

/-- An access to DRAM under an owner whose key slot is empty logs an event (R437). -/
def State.noteKey (s : State) (owner pa : Nat) : State :=
  if isDram pa && (s.keyGen owner).isNone then s.logEvent 10 owner else s

/-- IDENT and ACCT of a system core (R454). -/
def State.coreDebug (s : State) (core : Nat) : CoreDebug := (s.cores.find? fun c => c.core == core).getD ⟨core, 0, 0, none⟩

/-- The process and thread ids of an agent (R455). -/
def State.pidOf (s : State) (a : Agent) : Nat := if a.isSys then (s.coreDebug a.core).ident / 2 ^ 32 else a.pid
def State.tidOf (s : State) (a : Agent) : Nat := if a.isSys then (s.coreDebug a.core).ident % 2 ^ 32 else a.tid

/-- The joined name as a 24-byte number (R455). -/
def State.joinedName (s : State) (a : Agent) : Nat :=
  let idx := if a.isSys then 0 else ((s.teams.find? fun t => t.id == a.team).map fun t => t.index).getD 0
  let g := if a.isSys then 0 else a.g
  let loc := idx % 2 ^ 32 * 2 ^ 32 + g % 2 ^ 11 * 2 ^ 21 + a.core % 64 * 2 ^ 15 + (if a.isSys then 4 else a.die) % 8 * 2 ^ 12
  s.pidOf a % 2 ^ 32 + s.tidOf a % 2 ^ 32 * 2 ^ 32 + (if a.isSys then 0 else a.launch) % 2 ^ 64 * 2 ^ 64 + loc * 2 ^ 128

/-- A field of a number. -/
def field (v lo n : Nat) : Nat := v / 2 ^ lo % 2 ^ n

/-- Units of 4 system cores of partition `p` (R451). -/
def Fabric.sysn (f : Fabric) (p : Nat) : Nat := field f.partcfg (20 + 5 * p) 5

/-- Units of 64 GiB of LPDDR6 of partition `p` (R451). -/
def Fabric.lpdn (f : Fabric) (p : Nat) : Nat := field f.partcfg (5 * p) 5

/-- The partition of compute die `d` (R451). -/
def Fabric.diePart (f : Fabric) (d : Nat) : Nat := field f.partcfg (40 + 2 * d) 2

/-- First system core, and first 64 GiB unit, of partition `p` (R451). -/
def Fabric.coreBase (f : Fabric) (p : Nat) : Nat := 4 * ((List.range p).map f.sysn).sum
def Fabric.lpdBase (f : Fabric) (p : Nat) : Nat := ((List.range p).map f.lpdn).sum

/-- Whether DRAM address `a` belongs to partition `p` (R453). -/
def Fabric.owns (f : Fabric) (p a : Nat) : Bool :=
  if isHbm a then f.diePart (homeDie a) == p
  else if isLpd a then
    let u := (a - 0x10000000000) / 2 ^ 36
    f.lpdBase p ≤ u && u < f.lpdBase p + f.lpdn p
  else true

/-- The hardware's own words of an endpoint or of a collective group: software makes a new object by zeroing them, which
ends what the hardware has held of an old one (R367). What they hold is the hardware's: a free word, not zero, from when
it holds something (log 96). -/
def State.objHeld (s : State) (pa : Nat) : Bool := s.readPhys (pa + 8) 4 != 0

def State.holdObj (s : State) (pa : Nat) : State :=
  if s.objHeld pa then s else s.writePhys (pa + 8) 4 ((Config.freeWord s.fresh pa).toNat % (2 ^ 32 - 1) + 1)

/-- The signal of the interrupt line whose object lies at physical address `pa` (R367): COUNT + 1 at .dev with
release, then the bit of the target core's ipend. -/
def State.signalLine (s : State) (pa : Nat) : State :=
  let w := s.readPhys pa 4
  let s1 := s.writePhys (pa + 4) 4 (s.readPhys (pa + 4) 4 + 1)
  s1.updAgent (field w 0 6) fun a =>
    if a.isSys then { a with ipend := a.ipend ||| (1#64 <<< field w 6 6) } else a

/-- The operation of an agent by which a status reaches it has posted, or there is none (R186). -/
def State.posted (s : State) (x : Option (Nat × Nat)) : Bool :=
  match x with
  | none => true
  | some (id, n) => (s.agent? id).all fun a => !a.outst.any fun o => o.num == n

/-- As `signalLine`, on behalf of partition `p`: an object outside its memory is not reached (R28, R453). -/
def State.signalOwned (s : State) (p pa : Nat) : State := if s.fabric.owns p pa then s.signalLine pa else s

/-- The partition of a system core; none when PARTCFG gives the core to no partition (R451). -/
def Fabric.corePart (f : Fabric) (c : Nat) : Option Nat :=
  (List.range 4).find? fun p => f.coreBase p ≤ c && c < f.coreBase p + 4 * f.sysn p

end Sys2Proof.Machine
end

