-- ==== Sys2Proof/Machine/Translate.lean ====
section
/-!
DEFINITION. Translation (20): the walk, the checks of R376 in their order, cached translations (R378 to R382),
first touch (R384).
-/

namespace Sys2Proof.Machine

/-- On whose behalf an access is translated: home die (R290), partition, address space, mode, owner domain, and the
core whose L1 TLB it uses, none for an engine and the scheduler. -/
structure Who where
  die : Nat
  cpart : Nat
  space : SpaceRef
  mode : Nat
  domain : Nat
  core : Option Nat
  deriving DecidableEq, Repr

def Agent.who (a : Agent) : Who := ⟨a.die, a.cpart, a.space, a.mode, a.domain, some a.core⟩

/-- What the checks of R376 ask of an access: is it a write, a fetch; does its capability hold EXPORT, SYS. -/
structure Want where
  write : Bool
  fetch : Bool
  exportOk : Bool
  sysOk : Bool
  deriving DecidableEq, Repr

def Cap.want (c : Cap) (write : Bool) : Want := ⟨write, false, c.has permEXPORT, c.has permSYS⟩

/-- What a walk meets: a present leaf (its entry and the page size in bits), a page not present, a first-touch
leaf with the address of its entry, or a malformed entry. -/
inductive WalkRes
  | leaf (pte size : Nat)
  | absent
  | touch (at_ pte size : Nat)
  | bad
  deriving DecidableEq, Repr

/-- The outcome of a translation: a physical address with the page's owner, the entry and its page size; a page
that is absent (cause 0x10, and what `ldnr` tolerates); a first touch to be made; or a cause. -/
inductive XRes
  | ok (pa owner pte size : Nat)
  | absent
  | touch (at_ pte size : Nat)
  | fail (cause : Nat)
  deriving DecidableEq, Repr

/-- Bits [63:55] are all equal (R371). -/
def canonical (va : Nat) : Bool := va / 2 ^ 55 == 0 || va / 2 ^ 55 == 511

/-- Reserved bits of a table entry (R374). -/
def pteReserved (e : Nat) : Bool := field e 52 4 != 0 || field e 10 2 != 0 || field e 8 1 != 0

/-- PA[51:12] of an entry, as an address. -/
def ptePa (e : Nat) : Nat := field e 12 40 * 4096

def pteP (e : Nat) : Bool := e.testBit 0
def pteL (e : Nat) : Bool := e.testBit 1
def pteW (e : Nat) : Bool := e.testBit 2
def pteX (e : Nat) : Bool := e.testBit 3
def pteU (e : Nat) : Bool := e.testBit 4
def pteCow (e : Nat) : Bool := e.testBit 5
def pteFt (e : Nat) : Bool := e.testBit 6
def pteS64 (e : Nat) : Bool := e.testBit 7
def pteBusy (e : Nat) : Bool := e.testBit 9
def pteOwner (e : Nat) : Nat := field e 56 8

/-- A physical address that the map of R371 assigns. -/
def assigned (a : Nat) : Bool := isDram a || isWindow a || isPeer a

/-- A leaf entry of a page of `size` bits at address `at_` (R374, R375). -/
def leafRes (at_ e size : Nat) : WalkRes :=
  if !pteP e && !pteFt e then .absent
  else if ptePa e % 2 ^ size ≠ 0 || !assigned (ptePa e) then .bad
  else if pteFt e then
    if pteP e || !(size == 16 || size == 21) then .bad else .touch at_ e size
  else .leaf e size

/-- The sixteen entries of the 64 KiB page around the level-0 entry at `at_` in their table (R374). -/
def pageGroup (s : State) (at_ : Nat) : List Nat := (List.range 16).map fun k => s.readPhys (at_ / 128 * 128 + 8 * k) 8

/-- The level-0 entry that translates: where the sixteen of a 64 KiB page differ, any one of them (R374). The busy mark of
a first touch is that of the first, which stands for the page (log 97). -/
def pageEntry (s : State) (at_ va : Nat) : Nat :=
  let own := s.readPhys at_ 8
  let es := pageGroup s at_
  if es.all fun e => !pteS64 e then own
  else
    let e := es.getD (Config.freeNat s.fresh va % 16) own
    let x := if pteS64 e then e else own
    if pteS64 x && pteFt x then es.getD 0 own else x

/-- The walk from the table of level `l` at physical address `t` (R373 to R375), for partition `p` (R453). -/
def walkFrom (s : State) (p va : Nat) : Nat → Nat → WalkRes
  | 0, t =>
    let at_ := t + 8 * field va 12 9
    if !s.fabric.owns p at_ then .bad
    else
      let e := pageEntry s at_ va
      if pteReserved e then .bad
      else if !pteP e && !pteFt e then .absent
      else if !pteL e then .bad
      else if pteS64 e then leafRes (at_ / 128 * 128) e 16
      else leafRes at_ e 12
  | l + 1, t =>
    let n := if l + 1 = 4 then 8 else 9
    let at_ := t + 8 * field va (12 + 9 * (l + 1)) n
    if !s.fabric.owns p at_ then .bad
    else
      let e := s.readPhys at_ 8
      if pteReserved e then .bad
      else if !pteP e && !pteFt e then .absent
      else if pteL e then
        if l + 1 = 1 then leafRes at_ e 21
        else if l + 1 = 2 then leafRes at_ e 30
        else .bad
      else if pteFt e || !isDram (ptePa e) then .bad
      else walkFrom s p va l (ptePa e)

/-- The ASID and the generation of an address-space object (R372). -/
def State.asid (s : State) (obj : Nat) : Nat := field (s.readPhys (obj + 8) 4) 0 16
def State.spaceGen (s : State) (obj : Nat) : Nat := field (s.readPhys (obj + 8) 4) 16 16

/-- The walk of an address space (R372, R373). In the identity space of the core released from reset every
assigned address maps to itself with every permission (log 3). -/
def State.walk (s : State) (w : Who) (va : Nat) : WalkRes :=
  match w.space with
  | .boot => if assigned va then .leaf (va / 4096 * 4096 + 0x1F) 12 else .bad
  | .obj o =>
    let root := s.readPhys o 8
    if s.asid o = 0 then .bad
    else if root % 2048 ≠ 0 || !isDram root then .bad
    else walkFrom s w.cpart va 4 root

/-- Whether partition `p` may reach package `k` (R447). -/
def State.rosterOk (s : State) (p k : Nat) : Bool :=
  let r := s.fabric.rosters.getD p 0
  k ≠ s.fabric.pkgid && (s.readPhys (field r 8 44 * 256 + k / 8) 1).testBit (k % 8)

/-- The links through which partition `p` reaches package `k`: in state 2 with that peer (R446). -/
def State.upLinks (s : State) (p k : Nat) : List Nat :=
  (s.fabric.links.filter fun l => l.state == 2 && l.peer == k && field s.fabric.linkpart (2 * l.n) 2 == p).map (·.n)

/-- The checks of R376 after the walk, on a leaf entry. -/
def State.checkLeaf (s : State) (w : Who) (q : Want) (va pte size : Nat) : XRes :=
  let pa := ptePa pte + va % 2 ^ size
  let k := field pa 40 11
  if isPeer pa && !s.rosterOk w.cpart k then .fail 0x13
  else if (w.mode = 0 && !pteU pte) || (q.fetch && !pteX pte) || (q.write && !pteW pte && !pteCow pte)
      || !s.fabric.owns w.cpart pa then .fail 0x11
  else if q.write && w.domain ≠ 0 && pteOwner pte ≠ w.domain && !q.exportOk then .fail 0x14
  else if q.write && !pteW pte && pteCow pte then .fail 0x12
  else if isWindow pa && !q.sysOk then .fail 0x0A
  else if isPeer pa && (s.upLinks w.cpart k).isEmpty then .fail 0x11
  else .ok pa (pteOwner pte) pte size

/-- The virtual page number with the bits below a page of `size` bits cleared (R379). -/
def vpnOf (va size : Nat) : Nat := field va 12 44 / 2 ^ (size - 12) * 2 ^ (size - 12)

/-- The page-size codes of R379. -/
def sizeCode (size : Nat) : Nat := if size = 12 then 0 else if size = 16 then 1 else if size = 21 then 2 else 3

def sizeOfCode (c : Nat) : Nat := if c = 0 then 12 else if c = 1 then 16 else if c = 2 then 21 else 30

/-- The memory-resident TLB of a space: base and log2 of its buckets, when it is used (R372). -/
def State.mrt (s : State) (o : Nat) : Option (Nat × Nat) :=
  let n := field (s.readPhys (o + 12) 4) 0 5
  let b := s.readPhys (o + 16) 8
  if 10 ≤ n && n ≤ 24 && isHbm b && b % (128 * 2 ^ n) == 0 then some (b, n) else none

/-- The address of the bucket of a page (R380). -/
def mrtBucket (b n vpn asid : Nat) : Nat := b + 128 * ((vpn ^^^ (vpn / 2 ^ n) ^^^ asid) % 2 ^ n)

/-- A memory-resident entry at address `a` matches (R379). -/
def State.mrtMatch (s : State) (a asid gen vpn size : Nat) : Bool :=
  let lo := s.readPhys a 16
  lo.testBit 63 && field lo 61 2 == sizeCode size && field lo 0 44 == vpn && field lo 64 16 == asid
    && field lo 80 16 == gen

/-- The TLBs that an access may hit: the L1 TLB of its core, then the L2 TLB of its compute die (R378). The system die has
no L2 TLB that counts: a system core fills its own from the memory-resident one (R381). -/
def Who.tlbs (w : Who) : List (Option Nat) := (if w.core.isSome then [w.core] else []) ++ (if w.die = 4 then [] else [none])

/-- An entry of one of these TLBs. -/
def TlbEntry.isOf (e : TlbEntry) (w : Who) (t : Option Nat) : Bool := e.die == w.die && e.core == t

/-- A cached translation of the page of `va`: of a TLB, or else of the memory-resident TLB (R378). -/
def State.cached (s : State) (w : Who) (va : Nat) : Option (Nat × Nat) :=
  match w.space with
  | .boot => none
  | .obj o =>
    let asid := s.asid o
    match w.tlbs.findSome? fun t => s.tlb.find? fun e => e.isOf w t && e.asid == asid && e.vpn == vpnOf va e.size with
    | some e => some (e.pte, e.size)
    | none => match s.mrt o with
      | none => none
      | some (b, n) =>
        let gen := s.spaceGen o
        let hit := [12, 16, 21, 30].findSome? fun size =>
          let bk := mrtBucket b n (vpnOf va size) asid
          if !s.fabric.owns w.cpart bk then none
          else ((List.range 4).find? fun k => s.mrtMatch (bk + 32 * k) asid gen (vpnOf va size) size).map
            fun k => (s.readPhys (bk + 32 * k + 16) 8, size)
        hit

/-- The outcome of a fresh walk and its checks. -/
def State.xlateWalk (s : State) (w : Who) (q : Want) (va : Nat) : XRes :=
  match s.walk w va with
  | .leaf pte size => s.checkLeaf w q va pte size
  | .absent => .absent
  | .touch a e size => .touch a e size
  | .bad => .fail 0x10

/-- Translation of an effective address (R376). A cached translation that differs from the tables may be used
until a `tlbi` covers it, a free choice (R382), but no fault is raised on it (R377). -/
def State.xlate (s : State) (w : Who) (q : Want) (va : Nat) : XRes :=
  if !canonical va then .fail 0x10
  else
    let fresh := s.xlateWalk w q va
    match s.cached w va with
    | none => fresh
    | some (pte, size) =>
      match s.checkLeaf w q va pte size with
      | .ok pa o p z => if fresh = .ok pa o p z then fresh
          else if Config.freeBit s.fresh va then .ok pa o p z else fresh
      | _ => fresh

/-- Adds 1, saturating at 0xFFFF, to the fill count of die `d` in the entry at `a` (R379, R381). -/
def State.mrtCount (s : State) (a d : Nat) : State :=
  let at_ := if d = 4 then a + 12 else a + 24 + 2 * d
  s.writePhys at_ 2 (min 0xFFFF (s.readPhys at_ 2 + 1))

/-- The slot a fill takes in the bucket at `bk` (R380): the first that does not match, else the one with the
smallest sum of counts. Matching is read as being a live entry of the space, V, ASID and GEN: with the page as well, no
bucket would ever be full (log 97). -/
def State.mrtVictim (s : State) (bk asid gen : Nat) : Nat :=
  let live := fun k => (s.readPhys (bk + 32 * k) 16).testBit 63
    && field (s.readPhys (bk + 32 * k) 16) 64 16 == asid && field (s.readPhys (bk + 32 * k) 16) 80 16 == gen
  let sum := fun k => s.readPhys (bk + 32 * k + 12) 2
    + ((List.range 4).map fun d => s.readPhys (bk + 32 * k + 24 + 2 * d) 2).sum
  match (List.range 4).find? fun k => !live k with
  | some k => k
  | none => (List.range 4).foldl (fun best k => if sum k < sum best then k else best) 0

/-- How many entries a TLB holds (R378). -/
def tlbSize (t : Option Nat) : Nat := if t.isSome then 256 else 8192

/-- A translation enters a TLB. A full one drops an entry, which the manual does not name: a free choice. -/
def State.fillTlb (s : State) (w : Who) (t : Option Nat) (e : TlbEntry) : State :=
  let mine := (s.tlb.filter fun x => x.isOf w t && !(x.asid == e.asid && x.vpn == e.vpn && x.size == e.size))
  let kept := if mine.length < tlbSize t then mine else mine.eraseIdx (Config.freeNat s.fresh e.vpn % mine.length)
  { s with tlb := { e with core := t } :: kept ++ s.tlb.filter fun x => !x.isOf w t }

/-- The fill of the memory-resident TLB by a walk, and the count of a TLB that fills from it (R378 to R381). -/
def State.fillMrt (s : State) (w : Who) (o va pte size : Nat) (count : Bool) : State :=
  match s.mrt o with
  | none => s
  | some (b, n) =>
    let asid := s.asid o
    let vpn := vpnOf va size
    let gen := s.spaceGen o
    let bk := mrtBucket b n vpn asid
    if !s.fabric.owns w.cpart bk then s
    else match (List.range 4).find? fun k => s.mrtMatch (bk + 32 * k) asid gen vpn size
        && s.readPhys (bk + 32 * k + 16) 8 == pte with
      | some k => if count then s.mrtCount (bk + 32 * k) w.die else s
      | none =>
        let a := bk + 32 * s.mrtVictim bk asid gen
        let s2 := s.writePhys a 16 (vpn + sizeCode size * 2 ^ 61 + 2 ^ 63 + asid * 2 ^ 64 + gen * 2 ^ 80)
        let s3 := (s2.writePhys (a + 16) 8 pte).writePhys (a + 24) 8 0
        if count then s3.mrtCount a w.die else s3

/-- A translation leaves its entry in the TLBs it passes, and fills and counts the memory-resident one when the last of
them missed (R378 to R381). -/
def State.noteXlate (s : State) (w : Who) (va pte size : Nat) : State :=
  match w.space with
  | .boot => s
  | .obj o =>
    let asid := s.asid o
    let has := fun t => s.tlb.any fun e => e.isOf w t && e.asid == asid && e.size == size && e.vpn == vpnOf va size
      && e.pte == pte
    match w.tlbs with
    | [] => s.fillMrt w o va pte size false
    | ts =>
      if has (ts.getD 0 none) then s
      else
        let hit := ts.any has
        let s1 := ts.foldl (fun s t => if has t then s else s.fillTlb w t ⟨w.die, t, asid, size, vpnOf va size, pte⟩) s
        if hit then s1 else s1.fillMrt w o va pte size true

/-- A walk that finds a present leaf fills the memory-resident TLB, whatever the access then comes to (R378). -/
def State.noteWalk (s : State) (w : Who) (va : Nat) : State :=
  match w.space with
  | .boot => s
  | .obj o =>
    if !canonical va then s
    else match s.walk w va with
      | .leaf pte size => s.fillMrt w o va pte size false
      | _ => s

/-! ### First touch (R384) -/

/-- What a first touch comes to: the page got its frame, the pool declined, or the agent must wait. -/
inductive TouchRes
  | done (s : State)
  | declined (s : State)
  | wait (s : State)

/-- Writes zeros with clear tags over the frame at `f` of `n` bytes under owner `o` (R384). -/
def State.zeroFrame (s : State) (o f n : Nat) : State :=
  let g := (s.keyGen o).getD 1
  { s with
    mem := s.mem.filter fun c => !(f ≤ c.1 && c.1 < f + n)
    tags := s.tags.filter fun t => !(f / 16 ≤ t && t < (f + n) / 16)
    cipher := if g = 1 then s.cipher.filter fun c => !(f / 128 ≤ c.1 && c.1 < (f + n) / 128)
      else (List.range (n / 128)).foldl (fun c k => sput 1 c (f / 128 + k) g) s.cipher }

/-- Physical address of POOLk of the object at `o` (R372, R383). -/
def poolAt (o k : Nat) : Nat := o + 32 + 16 * k

/-- One pass through the pool loop of R384 for the entry `e` at `a` with BUSY set by this agent; that of a 64 KiB page is
the first of the sixteen. A frame or a stack outside the partition's memory is not reached (R28, R453): it counts as no
frame, and the touch is declined (log 97). -/
def State.takeFrame (s : State) (w : Who) (o a e size : Nat) : TouchRes :=
  let h := w.die
  let p := poolAt o (2 * h + (if size = 21 then 1 else 0))
  let word := s.readPhys (p + 8) 4
  let count := field word 0 24
  let clean := e - (if pteBusy e then 512 else 0)
  let stack := s.readPhys p 8 + 8 * (count - 1)
  let f := s.readPhys stack 8
  if word.testBit 31 then .wait (s.writePhys a 8 (clean + 512))
  else if 0 < count && !(s.fabric.owns w.cpart stack && s.fabric.owns w.cpart f) then .declined (s.writePhys a 8 clean)
  else if 0 < count then
    let s1 := s.writePhys (p + 8) 4 (word - 1)
    let s2 := s1.zeroFrame (pteOwner e) (f / 2 ^ size * 2 ^ size) (2 ^ size)
    let leaf := pteOwner e * 2 ^ 56 + field f 12 40 * 4096 + field clean 0 6 + (if pteS64 e then 128 else 0) + 1
    if size = 16 then .done ((List.range 16).foldl (fun s k => s.writePhys (a + 8 * k) 8 leaf) s2)
    else .done (s2.writePhys a 8 leaf)
  else if word.testBit 30 then .declined (s.writePhys a 8 clean)
  else
    let s1 := s.writePhys a 8 (clean + 512)
    if word.testBit 29 then .wait s1
    else
      let s2 := s1.writePhys (p + 8) 4 (word + 2 ^ 29)
      let line := s.readPhys (o + 24) 8
      .wait (if line = 0 then s2 else s2.signalOwned w.cpart line)

/-- Agents of home `h` hold the entry at `a` busy, or no longer do. -/
def State.holdTouch (s : State) (a h : Nat) : State := { s with touches := (a, h) :: s.touches.filter fun x => x.1 != a }
def State.freeTouch (s : State) (a : Nat) : State := { s with touches := s.touches.filter fun x => x.1 != a }

/-- A first touch begins or goes on (R384): while an agent of another home holds BUSY it waits and walks again. Which
agent of the home that holds BUSY goes on makes no difference: the pool is that of the home. -/
def State.firstTouch (s : State) (w : Who) (a e size : Nat) : TouchRes :=
  match w.space with
  | .boot => .declined s
  | .obj o =>
    if pteBusy e && !s.touches.contains (a, w.die) then .wait s
    else match s.takeFrame w o a e size with
      | .done s' => .done (s'.freeTouch a)
      | .declined s' => .declined (s'.freeTouch a)
      | .wait s' => .wait (s'.holdTouch a w.die)

/-- Translation by the device for a step that cannot be made again: it carries out a first touch on its way (R384). -/
def State.xlateTouch (s : State) (w : Who) (q : Want) (va : Nat) : State × XRes :=
  match s.xlate w q va with
  | .touch a e z =>
    (match s.firstTouch w a e z with
    | .done s' => (s', s'.xlate w q va)
    | .declined s' => (s', .absent)
    | .wait s' => (s', .touch a e z))
  | r => (s, r)

end Sys2Proof.Machine
end

