-- ==== Sys2Proof/Machine/Ops.lean ====
section
/-!
DEFINITION. What every meaning is built from: the issue of a scalar instruction (hazard checks of 03 R77, the
interlocks of a system core, 01 R22), the advance of the PC and of the clk, results; taking a trap (19 R356) and
what stands in its place in a handler (kill of a team R54, R368; restart of a system core R478).
-/

namespace Sys2Proof.Machine

/-- The outcome of a step of this machine. -/
abbrev Out := Host.Outcome State Fault Refusal

/-- An instruction of the agent in focus issues. -/
def State.bump (s : State) : State := { s with issues := s.issues + 1 }

/-- A scalar instruction issues: the group issues nothing more in this clk (its lane slot comes first, log 82), and the
results due in the next clk precede its own of latency "next instruction" (R66). -/
def State.tick (s : State) : State :=
  let s1 := s.bump
  { s1 with ag := s1.ag.commit (s1.clk + 1) }

/-- PC ← PC + n (R163), as the scalar instruction issues. -/
def State.advance (s : State) (n : Nat) : State := ({ s with ag := s.ag.setPc (s.ag.pc + n) }).tick

/-- What a read of a place returns at this issue. -/
def State.rd (s : State) (l : Loc) : Word := s.ag.rd s.fresh l

/-- A scalar register, a pair, a capability register, as read at this issue. -/
def State.rs (s : State) (n : Nat) : Word := s.rd (.s n)
def State.rp (s : State) (n : Nat) : DWord := s.ag.rdPair s.fresh (.s n) (.s (n + 1))
def State.rc (s : State) (q : Nat) : Cap := s.ag.rdCap s.fresh q

/-- Writes of latency "next instruction". -/
def State.wr (s : State) (ws : List (Loc × Word)) : State := { s with ag := s.ag.writes ws }

/-- The scalar instruction ends: PC + 4, and its results are there for the next instruction (R65). -/
def State.done (s : State) (ws : List (Loc × Word)) : Out := .next ((s.advance 4).wr ws)

/-- The scalar instruction ends with a result of fixed latency `lat`; a system core interlocks, so there the
result is there for the next instruction (R22, R65). -/
def State.doneIn (s : State) (lat : Nat) (ws : List (Loc × Word)) : Out :=
  if s.ag.isSys || lat == 1 then s.done ws
  else .next (({ s with ag := s.ag.later (s.clk + lat) ws }).advance 4)

/-- The words of a 64-bit result in the pair at `d`. -/
def pairWrites (d : Nat) (v : DWord) : List (Loc × Word) := [(.s d, loWord v), (.s (d + 1), hiWord v)]

/-! ### Records (R385, R368) -/

/-- Translates and signals an interrupt-line capability: tagged, type 4, with ST (R98, R325). -/
def State.signalCap (s : State) (w : Who) (c : Cap) : State :=
  if c.checkObject 4 [permST] = none then
    match s.xlateTouch w (c.want true) c.base with
    | (s1, .ok pa _ _ _) => s1.signalLine pa
    | (s1, _) => s1
  else s

/-- Writes a 64-byte record through KREC of the context at `ctx`, in the address space of a launch, and signals
WLINE (R385). A KREC that fails its checks drops the record; a translation that fails logs an event. -/
def State.writeRecord (s : State) (w : Who) (ctx : Nat) (rec : Nat) : State :=
  let k := s.capPhys (ctx + 32)
  let ridx := s.readPhys (ctx + 116) 4
  let n := (k.top - k.base) / 64
  if !k.tag || k.sealType ≠ 0 || !k.has permST || k.base % 64 ≠ 0 || n = 0 then s
  else
    match s.xlateTouch { w with mode := 1 } { k.want true with exportOk := true } (k.base + 64 * (ridx % n)) with
    | (s0, .ok pa o _ _) =>
      let s1 := s0.putBytes o pa (bytesLE 64 rec)
      let s2 := s1.writePhys (ctx + 116) 4 (ridx + 1)
      s2.signalCap w (s.capPhys (ctx + 48))
    | (s0, _) => s0.logEvent 1 ctx

/-- A wait is over: its instruction has issued, which a single step counts (R366). -/
def Agent.waitOver (a : Agent) : Agent :=
  { a with
    wait := .none
    stepping := if a.stepping = .scalar then .due false a.nextOp else a.stepping }

/-- A wait ends with its results, which are complete when the group goes on (R104); its token posts. -/
def Agent.endWith (a : Agent) (tk : Option Nat) (ws : List (Loc × Word)) : Agent :=
  ((a.waitOver.writes ws).post tk).setPc (a.pc + 4)

/-- The call with the given number for which a wait stands, with its token. -/
def Wait.callTk (w : Wait) (call : Nat) : Option (Option Nat) :=
  match w with
  | .call _ c tk => if c = call then some tk else Option.none
  | _ => Option.none

/-- Resumes a caller that waits for a reply: s12 and the given registers are written and its token posts; a
suspended wait keeps the results until it goes on (R103, R104, R479). A wait that was abandoned gets nothing. -/
def Agent.answer (a : Agent) (call : Nat) (ws : List (Loc × Word)) : Agent :=
  match a.wait.callTk call, a.suspended.bind fun e => (e.1.callTk call).map fun tk => (tk, e.2) with
  | some tk, _ => a.endWith tk ws
  | none, some (tk, at_) => { a with suspended := some (.delivered ws tk, at_) }
  | none, none => a

/-- The caller in the agent's reply slot resumes with status 3 (R103). -/
def State.dropReply (s : State) (a : Agent) : State :=
  match a.reply with
  | none => s
  | some c => s.updAgent c.agent fun b => b.answer c.call [(.s 12, 3)]

/-! ### Kill of a team (R54, R368) -/

/-- What a killed or ended group leaves behind: no streams, no operations, no queues. -/
def Agent.stopped (a : Agent) : Agent :=
  { a with
    alive := false, blocks := [], outst := [], gov := [], pend := [], qcopy := [], qcoll := [], qmat := [],
    alatch := none, wait := .none, suspended := none, redirect := none, reply := none, heldFaults := [],
    watchDue := none, stopDue := false, snapshot := none, touching := none }

/-- Threads of a team parked in spawn memory, those of the fault groups that wait there among them. -/
def Team.parked (t : Team) : Nat :=
  t.arriving.length + (t.batches.map (·.threads.length)).sum + (t.built.map (·.threads.length)).sum
    + (t.faults.map fun g => ((List.range 32).filter g.em.getLsbD).length).sum

/-- The kill record of R368, as a 64-byte number. -/
def killRecord (launch team flags cause g parked cmd reason xaddr time : Nat) : Nat :=
  launch + team * 2 ^ 64 + (flags * 2 ^ 8 + cause) * 2 ^ 96 + g * 2 ^ 128 + parked * 2 ^ 160 + cmd * 2 ^ 192
    + reason * 2 ^ 224 + xaddr * 2 ^ 256 + time * 2 ^ 320

/-- Whose access a record of a launch is (R385). -/
def Launch.who (l : Launch) (die : Nat) : Who := ⟨die, l.cpart, l.space, 1, l.domain, none⟩

/-- Core `c` of die `d` lies in the footprint of a resident team. -/
def State.inFootprint (s : State) (t : Team) (d c : Nat) : Bool :=
  match s.launches.find? fun l => l.id == t.launch with
  | none => false
  | some l => t.die == d && t.first ≤ c && c < t.first + l.fcores

/-- Read-only lines stay on a core only while a team of their launch is resident there (R286). -/
def State.dropReadOnly (s : State) : State :=
  { s with coh := { s.coh with l1 := s.coh.l1.filter fun l => match l.ro with
    | none => true
    | some id => s.teams.any fun t => t.launch == id && t.phase == .resident && s.inFootprint t l.die l.core } }

/-- Collective commands that the kill of a team discards: those queued, and those accepted that wait for a page
(R277, R278, R477). Object and instance. -/
def State.lostInsts (s : State) (team : Nat) : List (Nat × Nat) :=
  ((s.members team).flatMap fun a => a.qcoll.map fun c => (c.obj, c.inst))
    ++ (s.cmds.filter fun k => k.team == team && k.coll && k.waitPage.isSome).map fun k => (k.obj, k.inst)

/-- An instance of a collective object is broken, which its BROKEN counts (R277, R367). -/
def State.markBroken (s : State) (obj inst : Nat) : State :=
  if s.colls.any fun c => c.pa == obj && c.broken.contains inst then s
  else
    let s1 := s.writePhys (obj + 4) 4 (s.readPhys (obj + 4) 4 + 1)
    { s1 with colls := s1.colls.map fun c => if c.pa = obj then { c with broken := c.broken ++ [inst] } else c }

/-- The arrays of a footprint read +0 (R249). -/
def State.clearArrays (s : State) (d first f : Nat) : State :=
  { s with arrays := s.arrays.filter fun m => !(m.die == d && first ≤ m.core && m.core < first + f) }

/-- What a killed team leaves: no state of its own but the team memory that its accepted commands still use (R368). -/
def Team.killed (t : Team) (running : Bool) : Team :=
  { t with
    phase := .gone, accSaved := [], dying := none, tmem := if running then t.tmem else [], barriers := []
    arriving := [], batches := [], built := [], faults := [], kept := [] }

/-- Takes a killed team's groups and commands out of what the device holds (R54, R277, R477): its groups stop, waiting
receivers and page requests of theirs are forgotten, and the commands that wait for a page are discarded. -/
def State.discardTeam (s : State) (team : Nat) : State :=
  let ids := (s.members team).map (·.id)
  let s1 := s.updAll fun a => if a.team == team && a.kind != .sysCore then a.stopped else a
  let running := s.cmds.any fun k => k.team == team && k.waitPage.isNone
  { s1 with
    teams := s1.teams.map fun u => if u.id == team then u.killed running else u
    eps := s1.eps.map fun e => { e with receivers := e.receivers.filter fun r => !ids.contains r }
    pages := s1.pages.filter fun p => !(p.agent.any fun x => ids.contains x.1)
      && !(p.cmd.any fun c => s.cmds.any fun k => k.id == c && k.team == team)
    cmds := s1.cmds.filter fun k => !(k.team == team && k.waitPage.isSome) }

/-- Kills a team: stops its groups, discards its state, writes the kill record (R54, R368). Accepted engine
commands run on, but those that wait for a page are discarded (R477); the accumulators of a team that owns the arrays
become +0 (R249). -/
def State.killTeam (s : State) (team cause flags g cmd reason xaddr : Nat) : State :=
  match s.teams.find? fun t => t.id == team with
  | none => s
  | some t =>
    let s1 := ((s.members team).foldl (fun s a => s.dropReply a) s).discardTeam team
    let s2 := (s.lostInsts team).foldl (fun s x => s.markBroken x.1 x.2) s1.dropReadOnly
    match s.launches.find? fun l => l.id == t.launch with
    | none => s2
    | some l =>
      (if l.matrix then s2.clearArrays t.die t.first l.fcores else s2).writeRecord (l.who t.die) l.ctx
        (killRecord l.id t.index flags cause g t.parked cmd reason xaddr s.time)

/-- What the event of R478 holds: cause, FLAGS, the value written to kill, xaddr, the joined name. -/
def restartDetail (cause flags reason xaddr name : Nat) : Nat :=
  cause + flags * 2 ^ 8 + reason * 2 ^ 16 + xaddr * 2 ^ 48 + name * 2 ^ 112

/-- A system core alone restarts in monitor mode after a trap it could not take (R478): s29 = 2, an event is
logged, no other agent is affected. -/
def State.restartCore (s : State) (cause flags reason xaddr : Nat) : State :=
  let a := s.ag
  let s1 := s.logEvent 2 (restartDetail cause flags reason xaddr (s.joinedName a))
  let b := Agent.sysStart a.core a.cpart (BitVec.ofNat 32 a.cpart) 2 Config.bootEntry
  { s1 with
    ag := { b with id := a.id }
    eps := s1.eps.map fun e => { e with receivers := e.receivers.filter fun r => r != a.id } }

/-- What R368 and R478 do to the agent in focus. -/
def State.killFocus (s : State) (cause flags reason xaddr : Nat) : State :=
  if s.ag.isSys then s.restartCore cause flags reason xaddr
  else s.killTeam s.ag.team cause flags s.ag.g 0 reason xaddr

/-! ### Taking a trap (R356, R357, R479) -/

/-- The address of the lane instruction that issues next; 0 when the queue is empty (R357). -/
def Agent.laneNext (a : Agent) : Nat :=
  match a.blocks with
  | [] => 0
  | b :: _ => b.start + 12 * b.idx

/-- A wait in progress when a trap is taken: `wtok` and the stalls issue again after `eret`, the others are
suspended with their done part (R479). -/
def Agent.suspend (a : Agent) : Agent :=
  match a.wait with
  | .none => { a with suspended := none }
  | .token _ _ | .wfi => { a with wait := .none, suspended := none }
  | w => { a with wait := .none, suspended := some (w, a.pcc) }

/-- The mode a trap enters (R351). -/
def Agent.trapMode (a : Agent) : Nat :=
  if a.bmode = 0 then (if a.domain = 0 then 1 else 2) else a.bmode

/-- A capability register's content as it stands, without a free choice. -/
def Agent.capNow (a : Agent) (q : Nat) : Cap :=
  ⟨a.raw (.s (4 * q + 3)) ++ a.raw (.s (4 * q + 2)) ++ a.raw (.s (4 * q + 1)) ++ a.raw (.s (4 * q)),
   a.raw (.ct q) != 0⟩

/-- c39 and kscr change places, with their tags (R356, R361). -/
def Agent.swapScratch (a : Agent) : Agent :=
  let c := a.capNow 39
  ({ a with kscr := c }).writes (capWrites 39 a.kscr)

/-- The registers at trap entry (R356). -/
def Agent.enterTrap (a : Agent) (t : Trap) : Agent :=
  let b := { a with
    xpc := { a.pcc with tag := true }
    xlpc := BitVec.ofNat 64 a.laneNext
    xcause := BitVec.ofNat 32 t.cause
    xaddr := BitVec.ofNat 64 t.addr
    xlanes := t.lanes
    xinfo := BitVec.ofNat 32 t.info
    xstat := xstatField (xstatField (xstatField (xstatField a.xstat 0 2 a.mode) 6 1 (if t.lane then 1 else 0))
      2 2 a.trapMode) 7 1 1 }
  { b.swapScratch with
    pcc := { a.kentry.withSeal 0 with tag := a.kentry.tag }
    stepping := .off
    stalled := false
    touching := none
    pausing := false
    pauseEnd := 0 }

/-- Takes a trap on the agent in focus (R355, R356): results in flight take effect, latches are lost; a trap in a
handler, or without one, kills instead (R368 flags 8 and 9, R478). -/
def State.trap (s : State) (t : Trap) : State :=
  let s1 := s.bump
  if s.ag.hnd then s1.killFocus t.cause 1 0 t.addr
  else if !s.ag.kentry.tag then s1.killFocus t.cause 2 0 t.addr
  else { s1 with ag := { (s1.ag.settle.suspend.enterTrap t).loseLatches with
    heldTo := s.clk + 1 } }

/-- The group is under a pause (R41, R398): of its n clk some are left. -/
def State.paused (s : State) (a : Agent) : Bool := s.clk < a.pauseEnd

/-- The scalar stream is in a `dly`, or in a `pause` that no instruction has followed: it is not complete, and issues
again when something else stops the stream (R338, R395, R479; log 12). -/
def State.inDelay (s : State) (a : Agent) : Bool := s.clk < a.dlyScalar || (a.pausing && s.paused a)

/-- The stream goes back to a `dly` or `pause` that is not complete. -/
def State.rewound (s : State) (a : Agent) : Agent :=
  if s.inDelay a then { a.setPc (a.pc - 4) with dlyScalar := 0, pauseEnd := 0, pausing := false } else a

/-- A trap that the scalar stream's current instruction does not raise (R338, R479). -/
def State.trapBeside (s : State) (t : Trap) : State := ({ s with ag := s.rewound s.ag }).trap t

/-- A trap raised by the scalar stream: xlanes is 0 (R354). -/
def State.scalarTrap (s : State) (cause addr info : Nat) : Out := .next (s.trap ⟨cause, addr, 0, info, false⟩)

/-- KIND of xinfo (R354). -/
def kindLoad : Nat := 0
def kindStore : Nat := 1
def kindAtomic : Nat := 2
def kindFetch : Nat := 3
def kindLoadCap : Nat := 4
def kindStoreCap : Nat := 5
def kindWatch : Nat := 6
def kindNone : Nat := 7

/-- The number of a register as xinfo reports it. em, lm, fsr and mxc have none, R354 gives none: 0 (log 94). A tag is
reported by the first register of its quad. -/
def Loc.number : Loc → Nat
  | .s n => n
  | .v r _ => r
  | .p n _ => n
  | .ct q => 4 * q
  | .vt q _ => 4 * q
  | .em => 0
  | .lm => 0
  | .fsr => 0
  | .mxc => 0

/-- The issue of a scalar instruction that reads the given places: on a system core it stalls, unchanged, while
an operation under way has still to write one of them (R22); in hazard-check mode it traps 0x18 on one that is
not settled (R77). -/
def State.gate (s : State) (reads : List Loc) (k : Out) : Out :=
  if s.ag.isSys then
    if reads.any s.ag.awaited then .next s else k
  else if s.ag.hchk then
    match reads.find? s.ag.unsettled with
    | some l => s.scalarTrap 0x18 0 l.number
    | none => k
  else k

/-- Kernel-class instructions issue in kernel or monitor mode, with SYS in pcc (R95, R350). -/
def Agent.privileged (a : Agent) : Bool := a.mode ≠ 0 && a.pcc.has permSYS

/-- The mask a lane instruction issues under, before its guard: em, the forced mask of lane focus, or the lanes of
a replay (R12, R464, R465). -/
def Agent.issueMask (a : Agent) : BitVec 32 :=
  match a.replays with
  | r :: _ => r.lanes
  | [] => if a.focusStack.isEmpty then a.em else a.focus

end Sys2Proof.Machine
end

