-- ==== Sys2Proof/Machine/Coh.lean ====
section
/-!
DEFINITION. Leases (12 R284 to R286, 23 R409 to R413), early writes and what releases note of them (13 R294 to R305, 23
R414, R415), the peer lines of a die (12 R289, 23 R421). Memory holds the last write of each byte that is performed at
.dev; an early write is one that only some agents see yet (log 8).
-/

namespace Sys2Proof.Machine

/-- The line of an address. -/
def lineOf (a : Nat) : Nat := a / 128

/-! ### Leases -/

/-- LMAX of a unit for a line (R409). Units 0 to 3 are the compute dies, 4 the system die. -/
def State.lmax (s : State) (unit line : Nat) : Nat :=
  ((s.coh.leases.find? fun r => r.unit == unit && r.line == line).map (·.lmax)).getD 0

def State.emax (s : State) (unit : Nat) : Nat :=
  ((s.coh.emax.find? fun e => e.1 == unit).map (·.2)).getD 0

/-- The copy of device time that a unit reads (R25, R411). -/
def unitKey (u : Nat) : Nat := 256 + u

/-- The leases that unit `u` has granted on a line have ended with their guard, by the unit's own time; a line it does not
hold is judged by EMAX (R411). A unit that has granted none holds nothing up. -/
def State.leaseDone (s : State) (u line : Nat) : Bool :=
  let m := max (s.lmax u line) (s.emax u)
  m == 0 || m + 20 < s.localTime (unitKey u)

/-- No unit holds up a write to a line, of which every copy goes (R411, R420). -/
def State.leaseFree (s : State) (line : Nat) : Bool := (List.range 5).all fun u => s.leaseDone u line

/-- The directory entry of a line (R416). -/
def State.dirAt (s : State) (line : Nat) : Option DirEntry := s.coh.dir.find? fun e => e.line == line

/-- An entry at rest: shared while it has members, uncached otherwise. -/
def DirEntry.rest (e : DirEntry) (members : List Member) : DirEntry :=
  ⟨e.line, if members.isEmpty then .uncached else .shared, members, .getS, 5, 0, false, none, 0, none, []⟩

/-- The write that a WrH stands for: its agent and operation, when it is still to be performed. -/
def State.txnOp (s : State) (t : Nat × Nat) : Option (Agent × Op) :=
  (s.agent? t.1).bind fun a => (a.outst.find? fun o => o.num == t.2 && !o.performed).map fun o => (a, o)

/-- The directory entry of a line; uncached when the home has none. The home releases a line that it holds for a write that
has been given up since (R405). -/
def State.entry (s : State) (line : Nat) : DirEntry :=
  let e := (s.dirAt line).getD ⟨line, .uncached, [], .getS, 5, 0, false, none, 0, none, []⟩
  if e.st == .transient && e.acks == 0 && e.fwdTo.isNone && e.txn.any (fun t => (s.txnOp t).isNone) then e.rest e.members
  else e

/-- The home holds new requests for the line (R419). -/
def State.lineHeld (s : State) (line : Nat) : Bool := (s.entry line).st == .transient

/-- A write to a line that no request under way concerns may be performed. -/
def State.leaseOk (s : State) (line : Nat) : Bool := s.leaseFree line && !s.lineHeld line

/-- Every copy of a line in a remote data cache is dropped: what the home does for a write of its own before the write
is performed, with the messages it exchanges taken as one step (R418, R420). -/
def State.dropCopies (s : State) (line : Nat) : State :=
  { s with coh := { s.coh with
      rdc := s.coh.rdc.filter fun r => r.line != line || r.wb
      dir := s.coh.dir.filter fun e => e.line != line } }

/-- As `dropCopies`, for a write from die `d`, which then owns the line (R417). -/
def State.claimLine (s : State) (d line : Nat) : State :=
  let s1 := s.dropCopies line
  if homeDie (128 * line) = d then s1
  else { s1 with coh := { s1.coh with
    rdc := ⟨d, line, .m, 0, false⟩ :: s1.coh.rdc
    dir := ⟨line, .owned, [⟨d, false, 0⟩], .getX, d, 0, false, none, 0, none, []⟩ :: s1.coh.dir } }

/-- LEASE of a die, in ns (R410). -/
def State.leaseNs (s : State) (die : Nat) : Nat :=
  20 * ((s.coh.control.find? fun e => e.1 == die).map (·.2)).getD 25

/-- The L1 line of a core. -/
def State.l1 (s : State) (die core line : Nat) : Option L1Line :=
  s.coh.l1.find? fun l => l.die == die && l.core == core && l.line == line

/-- Removes an L1 line. -/
def State.dropL1 (s : State) (die core line : Nat) : State :=
  { s with coh := { s.coh with
      l1 := s.coh.l1.filter fun l => !(l.die == die && l.core == core && l.line == line) } }

/-- Puts an L1 line in place of the one before. -/
def State.setL1 (s : State) (l : L1Line) : State :=
  let s1 := s.dropL1 l.die l.core l.line
  { s1 with coh := { s1.coh with l1 := l :: s1.coh.l1 } }

/-- Changes the lease record of a unit and a line. -/
def State.updLease (s : State) (unit line : Nat) (f : LeaseRec → LeaseRec) : State :=
  let r := (s.coh.leases.find? fun r => r.unit == unit && r.line == line).getD ⟨unit, line, 0⟩
  { s with coh := { s.coh with
      leases := f r :: s.coh.leases.filter fun r => !(r.unit == unit && r.line == line) } }

/-- A grant at the present time of the granting unit (R409). -/
def State.grantLease (s : State) (die core line owner : Nat) : State :=
  let e := s.localTime (unitKey die) + s.leaseNs die
  (s.setL1 ⟨die, core, line, e, owner, none, []⟩).updLease die line fun r => { r with lmax := max r.lmax e }

/-- Whether an agent's accesses go through an L1 (R279): those of a compute core. -/
def Agent.hasL1 (a : Agent) : Bool := !a.isSys

/-- A valid line of the agent's L1 under the owner of the access (R284, R436). -/
def State.hitLine (s : State) (a : Agent) (owner line : Nat) : Option L1Line :=
  (s.l1 a.die a.core line).filter fun l => l.owner == owner && s.localTime (clockKey a) + 20 < l.expiry

/-! ### Scopes (R294) -/

/-- Where an agent stands. A system core stands on the system die. -/
def Agent.seat (a : Agent) : Seat := ⟨a.id, a.isSys, if a.isSys then 4 else a.die, a.core, a.team⟩

/-- The two run on one core. -/
def Seat.sameCore (x y : Seat) : Bool := x.sys == y.sys && x.die == y.die && x.core == y.core

/-- Scope `c` of the agent at `x` contains the agent at `y`. -/
def Scope.has (c : Scope) (x y : Seat) : Bool :=
  x.agent == y.agent || (match c with
    | .grp => false
    | .core => x.sameCore y
    | .team => if x.sys then x.sameCore y else !y.sys && x.team == y.team
    | .die => x.die == y.die
    | .dev | .sys => true)

/-- The smallest scope that contains both (R298). -/
def joint (x y : Seat) : Scope :=
  if x.agent = y.agent then .grp
  else if Scope.has .core x y then .core
  else if Scope.has .team x y then .team
  else if Scope.has .die x y then .die
  else .dev

/-- Scopes that reach beyond the core (R411, R414). -/
def Scope.wide : Scope → Bool
  | .grp | .core => false
  | _ => true

/-! ### Early writes -/

/-- Two ranges have a byte in common; those of team memory are of one team. -/
def spansMeet (x y : Place × Nat) : Bool :=
  match x.1, y.1 with
  | .pa a, .pa b => a < b + y.2 && b < a + x.2
  | .team a, .team b => a < b + y.2 && b < a + x.2
  | _, _ => false

/-- The range of an early write. -/
def Early.span (e : Early) : Place × Nat := (e.place, e.bytes.length)

/-- Team memory is another place for every team. -/
def inTeam (p : Place) (x y : Nat) : Bool :=
  match p with
  | .pa _ => true
  | .team _ => x == y

/-- An early write has a byte in a range, of team memory of `team`. -/
def Early.meets (e : Early) (team : Nat) (x : Place × Nat) : Bool := inTeam e.place e.seat.team team && spansMeet e.span x

/-- Two early writes have a byte in common. -/
def Early.overlaps (e x : Early) : Bool := e.meets x.seat.team x.span

/-- An early write lies in a line of physical memory, or of team memory. -/
def Early.inLine (e : Early) (line : Nat) : Bool :=
  match e.place with
  | .pa p => lineOf p == line
  | .team t => lineOf t == line

/-- The agent at `y` sees an early write. -/
def Early.sees (e : Early) (y : Seat) : Bool := Scope.has e.vis e.seat y

/-- Every agent in scope `c` of the agent at `y`, which sees the write, sees it: it is performed at that scope. -/
def Early.reaches (e : Early) (c : Scope) (y : Seat) : Bool :=
  e.sees y && (match c with
    | .grp => true
    | .core => y.sys || e.vis == .core || e.vis == .die
    | .team => y.sys || e.vis == .team || e.vis == .die
    | .die => e.vis == .die
    | .dev | .sys => false)

/-- The early writes that the agent at `y` sees. -/
def State.seen (s : State) (y : Seat) : List Early := s.coh.early.filter fun e => e.sees y

/-- The byte of an early write at a place. -/
def Early.byteAt (e : Early) (p : Place) : Option Byte :=
  match e.place, p with
  | .pa a, .pa b => if a ≤ b then e.bytes[b - a]? else none
  | .team a, .team b => if a ≤ b then e.bytes[b - a]? else none
  | _, _ => none

/-- The place `i` bytes on. -/
def Place.plus (p : Place) (i : Nat) : Place :=
  match p with
  | .pa a => .pa (a + i)
  | .team a => .team (a + i)

/-- The bytes that the agent at `y` reads at a place where memory holds `bs`: those of the last early write that it sees,
under the key of the access (R436). -/
def State.overlay (s : State) (y : Seat) (owner : Nat) (p : Place) (bs : List Byte) : List Byte :=
  let es := (s.seen y).filter fun e => inTeam e.place e.seat.team y.team
  if es.isEmpty || (s.keyGen owner).isNone then bs
  else (List.range bs.length).zip bs |>.map fun x =>
    ((es.filterMap fun e => (e.byteAt (p.plus x.1)).map fun b =>
      if s.keyGen e.owner = s.keyGen owner then b else Config.freeByte s.fresh (3000000 + x.1)).getLast?).getD x.2

/-- The bytes an agent sees at a physical address: memory, under the owner of its translation, and the early writes that
it sees. -/
def State.seeAs (s : State) (a : Agent) (owner pa n : Nat) : List Byte :=
  s.overlay a.seat owner (.pa pa) (s.seeBytes owner pa n)

/-- The bytes of team memory of a team from a team address on (R33), as memory holds them. -/
def State.teamBytes (s : State) (team a n : Nat) : List Byte :=
  let m := ((s.teams.find? fun t => t.id == team).map fun t => t.tmem).getD []
  (List.range n).map fun i => sget 0 m (a + i)

def State.putTeam (s : State) (team a : Nat) (bs : List Byte) : State :=
  { s with teams := s.teams.map fun t =>
    if t.id = team then { t with tmem := ((List.range bs.length).zip bs).foldl (fun m e => sput 0 m (a + e.1) e.2) t.tmem }
    else t }

/-! ### Peer lines (R289, R308, R421) -/

/-- Bytes that another package holds are free values: what it holds is no part of this machine. -/
def State.peerBytes (s : State) (a n : Nat) : List Byte := (List.range n).map fun i => Config.freeByte s.fresh (a + i)

/-- The byte of a peer window that the caches of a die hold. -/
def State.peerHeld (s : State) (die a : Nat) : Option PeerByte := s.coh.peers.find? fun b => b.die == die && b.addr == a

/-- Bytes of a peer window as an agent of a die reads them: what the caches of the die hold, the peer's otherwise. -/
def State.peerSee (s : State) (die a n : Nat) : List Byte :=
  (List.range n).map fun i => ((s.peerHeld die (a + i)).map (·.val)).getD (Config.freeByte s.fresh (a + i))

/-- Takes clean bytes out of the caches of a die, and the tags of granules of which they hold nothing more. -/
def State.dropPeers (s : State) (f : PeerByte → Bool) : State :=
  let kept := s.coh.peers.filter fun b => b.dirty || !f b
  { s with coh := { s.coh with
      peers := kept
      peerTags := s.coh.peerTags.filter fun t => kept.any fun b => b.die == t.1 && b.addr / 16 == t.2 } }

/-- A read of a peer window: its line stays in the caches of the die, unless it has left them before (a free choice; log
18). -/
def State.peerTake (s : State) (die a n : Nat) : State × List Byte :=
  let s1 := if Config.freeBit s.fresh (970000 + lineOf a) then s.dropPeers fun b => b.die == die && lineOf b.addr == lineOf a
    else s
  let bs := s1.peerSee die a n
  let new := ((List.range n).zip bs).filterMap fun x =>
    if (s1.peerHeld die (a + x.1)).isSome then none else some (⟨die, a + x.1, x.2, false⟩ : PeerByte)
  ({ s1 with coh := { s1.coh with peers := s1.coh.peers ++ new } }, bs)

/-- A write to a peer window stays in the caches of the die until it is written back. -/
def State.putPeer (s : State) (die a : Nat) (bs : List Byte) : State :=
  let n := bs.length
  { s with coh := { s.coh with
      peers := (s.coh.peers.filter fun b => !(b.die == die && a ≤ b.addr && b.addr < a + n))
        ++ ((List.range n).zip bs).map fun x => ⟨die, a + x.1, x.2, true⟩
      peerTags := s.coh.peerTags.filter fun t => !(t.1 == die && a < 16 * t.2 + 16 && 16 * t.2 < a + n) } }

/-- A release or fence of scope .sys writes back the dirty peer lines of a die. -/
def State.peerRelease (s : State) (die : Nat) : State :=
  { s with coh := { s.coh with peers := s.coh.peers.map fun b => if b.die = die then { b with dirty := false } else b } }

/-- An acquire or fence of scope .sys invalidates the clean peer lines of a die. -/
def State.peerAcquire (s : State) (die : Nat) : State := s.dropPeers fun b => b.die == die

/-- The word of code at a physical address, as a fetch of the agent in focus reads it. -/
def State.codeAt (s : State) (owner pa : Nat) : Nat :=
  ofBytesLE (if isPeer pa then s.peerSee s.ag.seat.die pa 4 else s.seeAs s.ag owner pa 4)

/-! ### Early writes reach memory -/

/-- Puts the list of early writes; a release whose early writes are all performed is forgotten. -/
def State.setEarly (s : State) (es : List Early) : State :=
  { s with coh := { s.coh with
      early := es
      notes := s.coh.notes.filter fun n => n.ids.any fun i => es.any fun e => e.id == i } }

/-- The bytes of an early write reach memory: of a line, which its die then owns; of the caches of the die; of the team. -/
def State.settleEarly (s : State) (e : Early) : State :=
  match e.place with
  | .team t => s.putTeam e.seat.team t e.bytes
  | .pa p =>
    if isPeer p then s.putPeer e.seat.die p e.bytes
    else (if isDram p then s.claimLine e.seat.die (lineOf p) else s).putBytes e.owner p e.bytes

/-- The write may be performed now (R411). -/
def State.earlyOk (s : State) (e : Early) : Bool :=
  match e.place with
  | .team _ => true
  | .pa p => !isDram p || s.leaseOk (lineOf p)

/-- The early writes that come before a given one. -/
def State.earlyBefore (s : State) (e : Early) : List Early := s.coh.early.takeWhile fun x => x.id != e.id

/-- The early writes of a kind may all be performed now: each byte takes its writes in coherence order (R301). -/
def State.drainOk (s : State) (f : Early → Bool) : Bool :=
  (s.coh.early.filter f).all fun e => s.earlyOk e && (s.earlyBefore e).all fun x => f x || !x.overlaps e

/-- The early writes of a kind are performed, in their order. -/
def State.drain (s : State) (f : Early → Bool) : State :=
  ((s.coh.early.filter f).foldl State.settleEarly s).setEarly (s.coh.early.filter fun e => !f e)

/-- A narrow store in the L1 of a core (R414). -/
def Early.narrowOf (die core : Nat) (e : Early) : Bool := e.narrow && e.seat.die == die && e.seat.core == core && !e.seat.sys

/-- Every narrow store of a core may be written back now. -/
def State.publishOk (s : State) (die core : Nat) : Bool := s.drainOk (Early.narrowOf die core)

/-- Writes back every narrow store of a core (R414, R415). -/
def State.publish (s : State) (die core : Nat) : State := s.drain (Early.narrowOf die core)

/-- Writes back the dirty lines of a core and invalidates its L1 (R413). -/
def State.emptyL1 (s : State) (die core : Nat) : State :=
  let s1 := s.publish die core
  { s1 with coh := { s1.coh with l1 := s1.coh.l1.filter fun l => !(l.die == die && l.core == core) } }

/-- The operation that made an early write is still to perform it. -/
def State.driven (s : State) (e : Early) : Bool :=
  !e.narrow && (s.agent? e.seat.agent).any fun a => a.outst.any fun o => o.num == e.num && !o.performed

/-- An early write of a team, or one that every group of it sees on its cores: `n` from `first` on, of a die. -/
def State.teamSees (s : State) (team die first n : Nat) (e : Early) : Bool :=
  (!e.seat.sys && e.seat.team == team) || (List.range n).any fun c => e.sees ⟨s.nextAgent, false, die, first + c, team⟩

/-- What comes before a release at .dev by a team as a whole may be performed now, and no operation is still to do so (R391,
R395, R406). -/
def State.teamReached (s : State) (team die first n : Nat) : Bool :=
  s.drainOk (s.teamSees team die first n) && s.coh.early.all fun e => !(s.teamSees team die first n e && s.driven e)

/-- A release at .dev by a team as a whole. -/
def State.teamRelease (s : State) (team die first n : Nat) : State := s.drain (s.teamSees team die first n)

/-! ### Releases and acquires (R297 to R299, R414, R415) -/

/-- An early write is performed as far as the agent at `y` goes when it synchronizes with the release of a note: at the
smallest scope that contains both agents (R298). -/
def State.noteDone (s : State) (y : Seat) (n : Note) : Bool :=
  n.ids.all fun i => (s.coh.early.find? fun e => e.id == i).all fun e => e.reaches (joint n.seat y) y

/-- A release of another agent left a note on a range, and what comes before it is not performed as far as `a` goes. -/
def State.notedFor (s : State) (a : Agent) (x : Place × Nat) : Bool :=
  s.coh.notes.any fun n => inTeam n.place n.seat.team a.team && spansMeet (n.place, n.len) x && !s.noteDone a.seat n

/-- As `notedFor`, for any range: what a fence with acquire waits for (R297). -/
def State.notesClear (s : State) (a : Agent) : Bool := s.coh.notes.all (s.noteDone a.seat)

/-- A release of a range waits while another core's narrow release of it is noted: that core publishes first (R415). -/
def State.notedElsewhere (s : State) (a : Agent) (x : Place × Nat) : Bool :=
  s.coh.notes.any fun n => inTeam n.place n.seat.team a.team && spansMeet (n.place, n.len) x && !n.seat.sameCore a.seat

/-- A device acquire at .dev of bytes [pa, pa+n): every release of them is published. -/
def State.devAcquires (s : State) (pa n : Nat) : Bool :=
  !s.coh.notes.any fun x => spansMeet (x.place, x.len) (.pa pa, n)

/-- Every early write that the agent sees, but the narrow stores of its core, is performed at scope `c` of the agent: what
comes before an edge of that scope (R297, R299, R303). -/
def State.reachedAll (s : State) (a : Agent) (c : Scope) : Bool :=
  (s.seen a.seat).all fun e => e.narrow || e.reaches c a.seat

/-- What the agent sees is performed at .dev, but for the narrow stores of its core, and these may be written back now. -/
def State.cumulated (s : State) (a : Agent) (c : Scope) : Bool :=
  s.reachedAll a c && (!(Scope.wide c) || !a.hasL1 || s.publishOk a.die a.core)

/-- The narrow stores of the agent's core are written back when the scope is .team or wider (R414). -/
def State.publishFor (s : State) (a : Agent) (c : Scope) : State :=
  if Scope.wide c && a.hasL1 then s.publish a.die a.core else s

/-- A fence of scope .sys writes back the dirty peer lines of the die and invalidates the clean ones (R421). -/
def State.peerFence (s : State) (a : Agent) (c : Scope) : State :=
  if c = .sys then (s.peerRelease a.seat.die).peerAcquire a.seat.die else s

/-- What a fence does to memory when it completes (R414, R421). -/
def State.fenced (s : State) (a : Agent) (c : Scope) : State := (s.publishFor a c).peerFence a c

/-- A release over a range leaves a note of the early writes that come before it (R298, R299, R415). -/
def State.leaveNote (s : State) (a : Agent) (x : Place × Nat) : State :=
  let ids := (s.seen a.seat).map (·.id)
  if ids.isEmpty then s
  else { s with coh := { s.coh with notes := ⟨a.seat, x.1, x.2, ids⟩ :: s.coh.notes } }

/-- A narrow store lies in a line of the core that is no valid line of its L1 under the owner of an access: it is on its
way to the unit, and the access follows it (R284, R411, R436). -/
def State.stray (s : State) (a : Agent) (owner line : Nat) : Bool :=
  a.hasL1 && (s.hitLine a owner line).isNone
    && s.coh.early.any fun e => e.narrowOf a.die a.core && (match e.place with
      | .pa p => lineOf p == line && isDram p
      | .team _ => false)

end Sys2Proof.Machine
end

