-- ==== Sys2Proof/Machine/Trace.lean ====
section
/-!
DEFINITION. Trace records (R462) and watchpoints (R460, R461).
-/

namespace Sys2Proof.Machine

/-- The debug registers of a partition. -/
def State.dbgOf (s : State) (p : Nat) : DebugPart := (s.dbg.find? fun d => d.p == p).getD (DebugPart.init p)

def State.updDbg (s : State) (p : Nat) (f : DebugPart → DebugPart) : State :=
  { s with dbg := s.dbg.map fun d => if d.p = p then f d else d }

/-- The address of record `i` of an area register (R454); none while it is disabled. -/
def areaAt (reg i : Nat) : Option Nat :=
  let n := field reg 0 5
  if n = 0 then none else some (field reg 12 40 * 4096 + 64 * (i % 2 ^ n))

/-- A trace record (R462). -/
def State.trace (s : State) (p name type watch igone addr : Nat) : State :=
  let d := s.dbgOf p
  match areaAt d.trbuf d.tridx with
  | none => s
  | some at_ =>
    let rec_ := s.time + name * 2 ^ 64 + type * 2 ^ 256 + (watch * 2 ^ 16 + igone) * 2 ^ 288 + addr % 2 ^ 64 * 2 ^ 320
    (s.writePhys at_ 64 rec_).updDbg p fun d => { d with tridx := (d.tridx + 1) % 2 ^ 32 }

/-- The watches of a partition that an access of process `pid` may hit: number, base, length (R460). -/
def State.watches (s : State) (p pid : Nat) (rd wr : Bool) : List (Nat × Nat × Nat) :=
  let d := s.dbgOf p
  (List.range 4).filterMap fun k =>
    let c := d.wctl.getD k 0
    if c.testBit 0 && (c / 2 ^ 32 == 0 || c / 2 ^ 32 == pid) && ((rd && c.testBit 2) || (wr && c.testBit 1)) then
      some (k, d.wbase.getD k 0, d.wlen.getD k 0)
    else none

/-- The lowest byte of [va, va + n) in a watch. -/
def watchByte (base len va n : Nat) : Option Nat :=
  let a := max base va
  if a < base + len && a < va + n then some a else none

/-- The hits of accesses (lane, address, bytes) on one watch: the lanes and the lowest address. -/
def watchHits (base len : Nat) (xs : List (Nat × Nat × Nat)) : Option (BitVec 32 × Nat) :=
  let hs := xs.filterMap fun x => (watchByte base len x.2.1 x.2.2).map fun a => (x.1, a)
  match hs with
  | [] => none
  | h :: r => some (hs.foldl (fun m x => m ||| laneBit x.1) 0, r.foldl (fun m x => min m x.2) h.2)

/-- Accesses of the agent in focus have passed their checks: every hit writes a record, and the trap 0x30 of the
lowest watch hit is due when operation `num` has completed (R459 to R461). -/
def State.noteHits (s : State) (lane rd wr : Bool) (num : Nat) (xs : List (Nat × Nat × Nat)) : State :=
  let ws := s.watches s.ag.cpart (s.pidOf s.ag) rd wr
  let hits := ws.filterMap fun w => (watchHits w.2.1 w.2.2 xs).map fun h => (w.1, h)
  match hits with
  | [] => s
  | h :: _ =>
    let s1 := hits.foldl (fun s x => s.trace s.ag.cpart (s.joinedName s.ag) 2 x.1 0 x.2.2) s
    let due : Trap × Nat :=
      (⟨0x30, h.2.2, if lane then h.2.1 else 0, 2 * 2 ^ 30 + h.1 * 2 ^ 16, lane⟩, num)
    { s1 with ag := { s1.ag with watchDue := some (s1.ag.watchDue.getD due) } }

end Sys2Proof.Machine
end

