-- ==== Sys2Proof/Machine/MemIssue.lean ====
section
/-!
DEFINITION. The issue of memory operations: the checks of R93, R94 and R376 over every lane before any effect
(10 R228), the operation that is then outstanding (08 R176, 10 R230).
-/

namespace Sys2Proof.Machine

/-- One lane's access as its instruction asks for it: the capability, the exact effective address, the permissions
needed, data, compare value and tag to store. -/
structure Req where
  lane : Nat
  cap : Cap
  ea : Int
  need : List Nat
  data : Nat
  cmp : Nat
  tag : Bool

/-- A check that a lane fails: the rank of the step, its cause, the address to report. -/
structure Fail where
  lane : Nat
  rank : Nat
  cause : Nat
  addr : Nat

/-- An effective address as xaddr holds it. -/
def Req.va (r : Req) : Nat := (r.ea % 2 ^ 64).toNat

/-- The failure that is reported (R94): the earliest step at which any lane fails, with every lane that fails at
it, and the address of the lowest of them. -/
def pickFail (fs : List Fail) : Option (Nat × BitVec 32 × Nat) :=
  match fs with
  | [] => none
  | f :: r =>
    let rank := r.foldl (fun m g => min m g.rank) f.rank
    let at_ := fs.filter fun g => g.rank == rank
    match at_ with
    | [] => none
    | g :: _ => some (g.cause, at_.foldl (fun m h => m ||| laneBit h.lane) 0, g.addr)

/-- The place of a translation cause among the steps of R93 and R376. -/
def xRank (cause : Nat) : Nat :=
  if cause = 0x10 then 6 else if cause = 0x13 then 7 else if cause = 0x11 then 8 else if cause = 0x14 then 9
  else if cause = 0x12 then 10 else if cause = 0x0A then 11 else 12

/-- Offsets of the control window that only monitor mode reaches (R438, R469, R471). -/
def monitorOnly (off : Nat) : Bool :=
  off == 0x8 || off == 0x10 || (0x200 ≤ off && off < 0x248) || off == 0x7000008

/-- Offsets of the focus registers, which only a group in its handler reaches (R463). -/
def focusReg (off : Nat) : Bool := 0x5000000 ≤ off && off < 0x5000110

/-- Translation with what follows it: the mode check of the control window (0x03), and the answer of the package
behind a peer window, which alone knows whether its export entry admits the access (R434): a free choice. `handler`
says that a group in its handler makes the access. -/
def State.xlateGate (s : State) (handler : Bool) (w : Who) (q : Want) (va : Nat) : XRes :=
  match s.xlate w q va with
  | .ok pa o pte size =>
    let off := pa - 0x80000000000
    if isWindow pa && ((monitorOnly off && w.mode ≠ 2) || (focusReg off && !handler)) then .fail 0x03
    else if isPeer pa && Config.freeBit s.fresh pa then .fail 0x11
    else .ok pa o pte size
  | r => r

/-- As `xlateGate`, for an access that no group in its handler makes. -/
def State.xlateAcc (s : State) (w : Who) (q : Want) (va : Nat) : XRes := s.xlateGate false w q va

/-- As `xlateGate`, for the agent in focus. -/
def State.xlateMine (s : State) (q : Want) (va : Nat) : XRes :=
  s.xlateGate (s.ag.hnd && !s.ag.isSys) s.ag.who q va

/-- The outcome of the checks of an instruction's accesses: all passed; a trap; or a first touch, after which the
instruction issues again or waits (R384). -/
inductive Checked
  | ok (s : State) (accs : List Acc)
  | trap (s : State) (t : Trap)
  | again (s : State)

/-- The steps before translation. -/
def capFails (size align : Nat) (rs : List Req) : List Fail :=
  rs.filterMap fun r => (r.cap.check r.need r.ea size align).map fun c => ⟨r.lane, c, c, r.va⟩

/-- The accesses of a list of translated requests, in which an absent page is passed only by `ldnr`. -/
def mkAcc (mode : Nat) (r : Req) : XRes → Acc
  | .ok pa o _ _ => ⟨r.lane, .pa pa, r.va, r.data, r.cmp, r.tag, true, o, r.cap.has permLDC, r.cap.perms, mode⟩
  | _ => ⟨r.lane, .pa 0, r.va, r.data, r.cmp, r.tag, false, 0, false, r.cap.perms, mode⟩

/-- The steps of translation. -/
def xlateFails (tolerant : Bool) (xs : List (Req × XRes)) : List Fail :=
  xs.filterMap fun x => match x.2 with
    | .fail c => some ⟨x.1.lane, xRank c, c, x.1.va⟩
    | .absent => if tolerant then none else some ⟨x.1.lane, 6, 0x10, x.1.va⟩
    | _ => none

/-- An instruction of a stream stalls in its translation check at the entry at `e`: it issues again once it is settled,
and no other instruction of the group before it (R355, R384). -/
def State.stallAt (s : State) (lane : Bool) (e : Nat) (ready : Bool) : State :=
  { s with ag := { s.ag with touching := some ⟨e, lane, ready⟩ } }

/-- A first touch of one lane (R384): it gets its frame and the instruction issues again; or it waits for the
pool; or the pool declined, and the access fails with cause 0x10. -/
def State.touchFor (s : State) (lane : Bool) (info : Nat) (r : Req) (at_ pte size : Nat) : Checked :=
  match s.firstTouch s.ag.who at_ pte size with
  | .done s' => .again (s'.stallAt lane at_ true)
  | .wait s' => .again (s'.stallAt lane at_ false)
  | .declined s1 => .trap s1 ⟨0x10, r.va, if lane then laneBit r.lane else 0, info, lane⟩

/-- What a check that has not passed makes of a scalar instruction: its trap, or the stall. -/
def Checked.stalls : Checked → Out
  | .again s => .next s
  | .trap s t => .next (s.trap t)
  | .ok s _ => .next s

/-- The first touches among the translations of an instruction (R384): a frame is taken and the instruction issues
again, or it waits for the pool (the error case); where the pool declined, the page counts as absent. -/
def State.resolveTouches (s : State) (lane : Bool) (acc : List (Req × XRes)) :
    List (Req × XRes) → Except State (State × List (Req × XRes))
  | [] => .ok (s, acc)
  | x :: r =>
    match x.2 with
    | .touch a p z =>
      (match s.firstTouch s.ag.who a p z with
      | .done s' => .error (s'.stallAt lane a true)
      | .wait s' => .error (s'.stallAt lane a false)
      | .declined s1 => s1.resolveTouches lane (acc ++ [(x.1, .absent)]) r)
    | _ => s.resolveTouches lane (acc ++ [x]) r

/-- The steps of translation over every lane, with what a translation leaves behind when all pass. -/
def State.checkXlated (s : State) (lane : Bool) (info : Nat) (tolerant : Bool) (xs : List (Req × XRes)) : Checked :=
  match s.resolveTouches lane [] xs with
  | .error s' => .again s'
  | .ok (s0, xs) =>
    match pickFail (xlateFails tolerant xs) with
    | some (c, m, a) =>
      let s1 := xs.foldl (fun s x => s.noteWalk s.ag.who x.1.va) s0
      let all := xs.foldl (fun b x => b ||| laneBit x.1.lane) 0
      .trap s1 ⟨c, if c = 0x03 then 0 else a, if !lane then 0 else if c = 0x03 then all else m,
        if c = 0x03 then 0 else info, lane⟩
    | none =>
      let s1 := xs.foldl (fun s x => match x.2 with
        | .ok _ _ pte size => s.noteXlate s.ag.who x.1.va pte size
        | _ => s) s0
      .ok s1 (xs.map fun x => mkAcc s.ag.mode x.1 x.2)

/-- All checks of the accesses of one instruction, in the order of R228. `tolerant` is `ldnr`. -/
def State.checkAccess (s : State) (lane : Bool) (info size align : Nat) (write tolerant : Bool)
    (rs : List Req) : Checked :=
  match pickFail (capFails size align rs) with
  | some (c, m, a) => .trap s ⟨c, a, if lane then m else 0, info, lane⟩
  | none => s.checkXlated lane info tolerant (rs.map fun r => (r, s.xlateMine (r.cap.want write) r.va))

/-- Places an operation will write, with the tags its writes clear. -/
def destLocs (ls : List Loc) : List Loc := ls.flatMap Loc.touched

/-- An operation becomes outstanding (R75). -/
def Agent.enqueue (a : Agent) (lane : Bool) (path : Path) (ord : Ord) (scope : Scope) (tk : Option Nat)
    (kind : OpKind) (dests : List Loc) : Agent :=
  { a with
    outst := a.outst ++ [⟨a.nextOp, lane, path, ord, scope, a.tokenOpt tk, kind, destLocs dests, [], false, false⟩]
    nextOp := a.nextOp + 1 }

/-- As `Agent.enqueue`, for the agent in focus. -/
def State.enqueue (s : State) (lane : Bool) (path : Path) (ord : Ord) (scope : Scope) (tk : Option Nat)
    (kind : OpKind) (dests : List Loc) : State :=
  { s with ag := s.ag.enqueue lane path ord scope tk kind dests }

/-- Whether a memory operation reads, and whether it writes. -/
def MemOp.rw : MemOp → Bool × Bool
  | .load | .loadCap | .loadSub => (true, false)
  | .store | .storeCap => (false, true)
  | .atomic _ => (true, true)

/-- The bytes of each access of a memory operation. -/
def MemOp.size (op : MemOp) (ty : Ty) : Nat :=
  match op with
  | .loadCap | .storeCap => 16
  | .loadSub => 4
  | _ => ty.bits / 8

/-- The virtual ranges in the address space that accesses touch: lane, address, bytes. -/
def touchedRanges (size : Nat) (accs : List Acc) : List (Nat × Nat × Nat) :=
  accs.filterMap fun x => match x.place with
    | .pa _ => if x.here then some (x.lane, x.va, size) else none
    | .team _ => none

/-- A memory operation that is to be enqueued next meets the watches (R460). -/
def State.meetWatches (s : State) (lane : Bool) (k : OpKind) : State :=
  match k with
  | .mem op ty _ accs _ => s.noteHits lane op.rw.1 op.rw.2 s.ag.nextOp (touchedRanges (op.size ty) accs)
  | _ => s

/-- A write that is performed at the unit of its line: a store of scope .team or wider, an atomic (R411). -/
def MemOp.atUnit (op : MemOp) (c : Scope) : Bool :=
  match op with
  | .store | .storeCap => Scope.wide c
  | .atomic _ => true
  | _ => false

/-- As such a write issues, its core drops its own copy of the line (R412). -/
def State.dropOwn (s : State) (c : Scope) (k : OpKind) : State :=
  match k with
  | .mem op _ _ accs _ =>
    if s.ag.hasL1 && op.atUnit c then
      accs.foldl (fun s x => match x.place with
        | .pa p => s.dropL1 s.ag.die s.ag.core (lineOf p)
        | .team _ => s) s
    else s
  | _ => s

/-- The memory requests of an operation, one for each access (log 97). -/
def OpKind.requests (k : OpKind) : Nat :=
  match k with
  | .mem _ _ _ accs _ => accs.length
  | _ => 0

/-- A core holds 2,048 outstanding memory requests at most (R18): an instruction that would exceed them stalls. -/
def State.roomFor (s : State) (k : OpKind) : Bool :=
  s.ag.isSys || k.requests + ((s.agents.filter fun a => a.seat.sameCore s.ag.seat).map fun a =>
    (a.outst.map fun o => if o.performed then 0 else o.kind.requests).sum).sum ≤ 2048

/-- What comes with the issue of a memory operation. -/
def State.issueMem (s : State) (lane : Bool) (c : Scope) (k : OpKind) : State := (s.meetWatches lane k).dropOwn c k

/-- A scalar memory instruction with one access (R175, R177): checks, then an outstanding operation, PC + 4. -/
def State.scalarAccess (s : State) (info size : Nat) (write : Bool) (r : Req) (ord : Ord) (scope : Scope)
    (tk : Option Nat) (kind : List Acc → OpKind) (dests : List Loc) : Out :=
  match s.checkAccess false info size size write false [r] with
  | .trap s1 t => .next (s1.trap t)
  | .again s' => .next s'
  | .ok s' accs =>
    if s'.roomFor (kind accs) then
      .next (((s'.issueMem false scope (kind accs)).enqueue false .scalar ord scope tk (kind accs) dests).advance 4)
    else .next s'

/-- The early writes that operation `num` of an agent has made and has still to perform. -/
def State.earlyOf (s : State) (agent num : Nat) : List Early :=
  s.coh.early.filter fun e => !e.narrow && e.seat.agent == agent && e.num == num

/-- The write is early, and performed at scope `c` of its agent (R300). -/
def State.opReached (s : State) (a : Agent) (o : Op) (c : Scope) : Bool :=
  let es := s.earlyOf a.id o.num
  !es.isEmpty && es.all fun e => e.reaches c a.seat

/-- Whether an operation of the agent has still to be performed at a scope on one of the given paths, among those before
program order `n`: a load whose destination is not written, a write that is not performed. -/
def State.busy (s : State) (a : Agent) (paths : List Path) (n : Nat) (c : Scope) : Bool :=
  a.outst.any fun o => o.num < n && paths.contains o.path && !o.performed && !s.opReached a o c
    && (match o.kind with
      | .mem .. | .matrix _ | .watch .. | .fence => true
      | _ => false)

/-- An operation before program order `n` on one of the paths is a load, an atomic or a watch step under way. -/
def Agent.loading (a : Agent) (paths : List Path) (n : Nat) : Bool :=
  a.outst.any fun o => o.num < n && paths.contains o.path
    && (match o.kind with
      | .mem .load .. | .mem .loadCap .. | .mem .loadSub .. | .mem (.atomic _) .. | .watch .. => true
      | _ => false)

end Sys2Proof.Machine
end

