-- ==== Sys2Proof/Machine/ScalarFlow.lean ====
section
/-!
DEFINITION. Scalar branches, jumps and landing markers (08 R171 to R173).
-/

namespace Sys2Proof.Machine

/-- The scalar stream goes on at another code capability. -/
def State.jumpTo (s : State) (c : Cap) : State := ({ s with ag := { s.ag with pcc := c } }).tick

/-- The link of the jump-and-link forms: pcc with ADDR at the next instruction, sealed as a sentry (R171). -/
def Agent.link (a : Agent) : Cap := { ((a.pcc.withAddr ((a.pc + 4) % 2 ^ 64)).withSeal 9) with tag := true }

/-- The address `off` instructions from the PC (R171), exactly (R11). -/
def Agent.branchTarget (a : Agent) (off : Int) : Int := (a.pc : Int) + 4 * off

/-- A target as an address register holds it. -/
def addrOf (target : Int) : Nat := (target % 2 ^ 64).toNat

/-- A taken branch goes to a target within pcc (R171). -/
def Agent.inCode (a : Agent) (target : Int) : Bool := a.pcc.base ≤ target && target + 4 ≤ a.pcc.top

/-- A branch that is taken, with the registers it writes (R171): a target outside pcc traps 0x0B. -/
def State.branch (s : State) (off : Int) (ws : List (Loc × Word)) : Out :=
  let target := s.ag.branchTarget off
  if s.ag.inCode target then .next ((s.jumpTo (s.ag.pcc.withAddr (addrOf target))).wr ws)
  else s.scalarTrap 0x0B (addrOf target) kindFetch

/-- The test of a branch (R147). -/
def Cond.test (c : Cond) (x : Word) : Bool :=
  match c with
  | .eq => x == 0
  | .ne => x != 0
  | .lt => x.slt 0
  | .ge => !x.slt 0
  | .gt => (0 : Word).slt x
  | .le => !(0 : Word).slt x
  | .al => true

def execBcCond (c : Cond) (a : Nat) (off : Int) (s : State) : Out :=
  s.gate [.s a] (if Cond.test c (s.rs a) then s.branch off [] else s.done [])

def execJal (off : Int) (s : State) : Out := s.branch off (capWrites 1 s.ag.link)

/-- `land` in line: the PC passes its bitmap words (R152, R163). -/
def execLand (nw : Nat) (s : State) : Out := .next (s.advance (4 + 4 * nw))

/-- A capability jump (R172): the target is read before any write; xaddr holds its cursor. -/
def State.capJump (s : State) (p : Nat) (ws : List (Loc × Word)) : Out :=
  s.gate (capLocs p)
    (match (s.rc p).checkJump with
    | some cause => s.scalarTrap cause (s.rc p).addr kindFetch
    | none => .next ((s.jumpTo ((s.rc p).withSeal 0)).wr ws))

def execCj (p : Nat) (s : State) : Out := s.capJump p []
def execCjal (p : Nat) (s : State) : Out := s.capJump p (capWrites 1 s.ag.link)

end Sys2Proof.Machine
end

