-- ==== Sys2Proof/Machine/Teams.lean ====
section
/-!
DEFINITION. Teams, their barrier objects (08 R181) and the flush of spawn memory (02 R50).
-/

namespace Sys2Proof.Machine

def State.team? (s : State) (id : Nat) : Option Team := s.teams.find? fun t => t.id == id

def State.updTeam (s : State) (id : Nat) (f : Team → Team) : State :=
  { s with teams := s.teams.map fun t => if t.id = id then f t else t }

def State.launch? (s : State) (id : Nat) : Option Launch := s.launches.find? fun l => l.id == id

def State.updLaunch (s : State) (id : Nat) (f : Launch → Launch) : State :=
  { s with launches := s.launches.map fun l => if l.id = id then f l else l }

/-- A barrier object of a team; one that no group has reached is in phase 0 (R181). -/
def Team.barrier (t : Team) (obj : Nat) : Barrier := (t.barriers.find? fun b => b.obj == obj).getD ⟨obj, 0, [], []⟩

def Team.setBarrier (t : Team) (b : Barrier) : Team :=
  { t with barriers := b :: t.barriers.filter fun c => c.obj != b.obj }

/-- The first phase of an object of which the group is a member: phase 0 for a placed group, the first that opens
after its start for a group the spawn former started. -/
def Agent.joinPhase (a : Agent) (obj : Nat) : Nat :=
  match a.joins.find? fun j => j.obj == obj with
  | some j => j.phase
  | none => if a.kind == .placed then 0 else 1

/-- The latest phase at which the group has arrived. -/
def Agent.lastPhase (a : Agent) (obj : Nat) : Option Nat := (a.arrivals.find? fun x => x.obj == obj).map (·.phase)

/-- The lowest phase of which the group is a member and at which it has not arrived. -/
def Agent.nextPhase (a : Agent) (obj : Nat) : Nat :=
  match a.lastPhase obj with
  | none => a.joinPhase obj
  | some p => max (a.joinPhase obj) (p + 1)

/-- The open phase has all its arrivals: every member that has not ended has arrived, and there is an arrival to
complete it, at this phase or at a later one. -/
def phaseFull (ms : List Agent) (b : Barrier) : Bool :=
  !(b.arrived.isEmpty && b.held.isEmpty)
    && ms.all fun a => b.phase < a.joinPhase b.obj || b.arrived.contains a.id

/-- The next phase opens and takes the arrivals held for it. -/
def Barrier.nextUp (b : Barrier) : Barrier :=
  { b with
    phase := b.phase + 1
    arrived := (b.held.filter fun h => h.1 == b.phase + 1).map (·.2)
    held := b.held.filter fun h => h.1 != b.phase + 1 }

/-- Phases complete one after another while they are full. -/
def Barrier.settle (ms : List Agent) : Nat → Barrier → Barrier
  | 0, b => b
  | n + 1, b => if phaseFull ms b then Barrier.settle ms n b.nextUp else b

/-- All barriers of a team take notice of arrivals and of members that have ended. -/
def State.settleBarriers (s : State) (team : Nat) : State :=
  let ms := s.members team
  s.updTeam team fun t => { t with barriers := t.barriers.map fun b => Barrier.settle ms (b.held.length + 2) b }

/-- The agent in focus arrives at an object. -/
def State.arrive (s : State) (obj : Nat) : State :=
  let p := s.ag.nextPhase obj
  let s1 := { s with ag := { s.ag with arrivals := ⟨obj, p⟩ :: s.ag.arrivals.filter fun x => x.obj != obj } }
  let s2 := s1.updTeam s.ag.team fun t =>
    let b := t.barrier obj
    t.setBarrier (if p = b.phase then { b with arrived := b.arrived ++ [s.ag.id] }
      else { b with held := b.held ++ [(p, s.ag.id)] })
  s2.settleBarriers s.ag.team

/-- The open phase of an object. -/
def State.phaseOf (s : State) (team obj : Nat) : Nat := ((s.team? team).map fun t => (t.barrier obj).phase).getD 0

/-- Whether the group's latest arrival at an object is incomplete. -/
def State.arrivalOpen (s : State) (a : Agent) (obj : Nat) : Bool :=
  match a.lastPhase obj with
  | none => false
  | some p => s.phaseOf a.team obj ≤ p

/-- The age of a batch: the arrival of the earliest thread it holds (R49). -/
def Batch.age (b : Batch) : Nat := (b.threads.map fun x => x.order).headD 0

/-- Insertion of a batch by age. -/
def batchInsert (b : Batch) : List Batch → List Batch
  | [] => [b]
  | c :: r => if b.age < c.age then b :: c :: r
      else c :: batchInsert b r

/-- A batch becomes a built group (R47, R49). -/
def Batch.build (b : Batch) : Built := ⟨b.target, b.role, b.code, b.threads⟩

/-- The earliest open batch. -/
def oldestBatch (bs : List Batch) : Option Batch := (bs.foldl (fun l b => batchInsert b l) []).head?

/-- The oldest open batch starts as a partial group. -/
def Team.startOldest (t : Team) : Team :=
  match oldestBatch t.batches with
  | some b => { t with
      built := t.built ++ [b.build]
      batches := t.batches.filter fun x => !(x.target == b.target && x.role == b.role) }
  | none => t

/-- A batch that has 32 threads gives a group of the first 32 (R47). -/
def Team.fill (t : Team) (b : Batch) : Team :=
  let others := t.batches.filter fun x => !(x.target == b.target && x.role == b.role)
  if 32 ≤ b.threads.length then
    let rest := b.threads.drop 32
    { t with
      built := t.built ++ [{ b with threads := b.threads.take 32 }.build]
      batches := if rest.isEmpty then others else others ++ [{ b with threads := rest }] }
  else { t with batches := others ++ [b] }

/-- A thread arrives: it joins its batch, or opens one; a 65th batch first starts the oldest as a partial group
(R49). `code` is the capability of the `lbrx` with the target as cursor (R221). -/
def Team.park (t : Team) (target role : Nat) (code : Cap) (th : Thread) : Team :=
  match t.batches.find? fun b => b.target == target && b.role == role with
  | some b => t.fill { b with threads := b.threads ++ [th] }
  | none =>
    let t1 : Team :=
      if 64 ≤ t.batches.length then t.startOldest else t
    t1.fill ⟨target, role, code, [th]⟩

/-- Insertion of a thread that arrives, by arrival order. -/
def arriveInsert (x : Arriving) : List Arriving → List Arriving
  | [] => [x]
  | y :: r => if x.thread.order < y.thread.order then x :: y :: r else y :: arriveInsert x r

/-- The threads of a clk join their batches, in arrival order (R47). -/
def Team.settleArrivals (t : Team) : Team :=
  t.arriving.foldl (fun t x => t.park x.target x.role x.code x.thread) { t with arriving := [] }

/-- Every open batch becomes a partial group, oldest first (R50). -/
def Team.flush (t : Team) : Team :=
  let u := t.settleArrivals
  { u with built := u.built ++ (u.batches.foldl (fun l b => batchInsert b l) []).map Batch.build, batches := [] }

/-- The number of groups the spawn former will have started once every built group of the team has started. -/
def Team.allStarted (t : Team) : Nat := t.spawned + t.built.length

/-! ### Room in spawn memory (R49, R390) -/

/-- Bytes of a spill or image area: unsealed, with LD and ST; 0 otherwise. -/
def areaLength (c : Cap) : Nat :=
  if c.tag && c.sealType == 0 && c.has permLD && c.has permST then c.top - c.base else 0

/-- The threads of a team in spawn memory. -/
def Team.threads (t : Team) : List Thread :=
  t.arriving.map (·.thread) ++ t.batches.flatMap (·.threads) ++ t.built.flatMap (·.threads)

/-- Bytes of spawn memory that threads take (log 42). -/
def spawnBytes (ths : List Thread) : Nat := (ths.map fun th => Config.threadBytes (th.regs.length / 4)).sum

/-- The spawn memory of a context, its SPILL area included, has room for some more threads. -/
def State.spillFits (s : State) (ctx : Nat) (more : List Thread) : Bool :=
  let mine := s.teams.filter fun t => (s.launch? t.launch).any fun l => l.ctx == ctx
  (mine.map fun t => spawnBytes t.threads).sum + spawnBytes more
    ≤ Config.spawnHeld + areaLength (s.capPhys (ctx + 64))

/-! ### Slots of a team (R32, R51) -/

/-- The spawn slots of a team that no group holds, and that are kept for no fault group. -/
def State.freeSpawn (s : State) (t : Team) (l : Launch) : List Nat :=
  let used := (s.members t.id).filterMap (·.sslot) ++ t.kept.filterMap (·.sslot)
  (List.range l.spawnSlots).filter fun j => !used.contains j

/-- Spawn memory has no room for a thread: the spawn former starts the oldest open batch of the team as a partial group
when a spawn slot is free for it (R390). -/
def State.makeSpawnRoom (s : State) (team : Nat) : State :=
  s.updTeam team fun t =>
    if (s.launch? t.launch).any fun l => t.built.length < (s.freeSpawn t l).length then t.startOldest else t

/-- The register lines of the slot that an agent holds: its role's, or for a spawn slot the most of any role (R31). -/
def Launch.quotaOf (l : Launch) (a : Agent) : Nat :=
  match a.sslot with
  | none => (l.roles.getD a.role ⟨0, 0, 0, .null, .null⟩).quota
  | some _ => (l.roles.map (·.quota)).foldl max 0

/-- A group of the team ends: a fault group that waits without a slot takes the one it frees (R51). -/
def State.keepSlot (s : State) (a : Agent) : State :=
  match s.team? a.team with
  | none => s
  | some t =>
    match s.launch? t.launch with
    | none => s
    | some l =>
      if t.kept.length + (s.freeSpawn t l).length < t.faults.length then
        s.updTeam t.id fun t => { t with kept := t.kept ++ [⟨a.sslot, a.core, l.quotaOf a⟩] }
      else s

end Sys2Proof.Machine
end

