-- ==== Sys2Proof/Machine/ScalarSync.lean ====
section
/-!
DEFINITION. Driving the lane stream, masks, barriers, tokens, delays, yields (08 R179 to R183).
-/

namespace Sys2Proof.Machine

/-! ### Lane stream and masks (R179, R180) -/

/-- Checks of R93 before translation on a capability for which no seal passes. -/
def Cap.checkPlain (c : Cap) (need : List Nat) (ea : Int) (n align : Nat) : Option Nat :=
  if c.tag && c.sealType ≠ 0 then some 0x09 else c.check need ea n align

/-- `lrun` (R179). On a system core it traps 0x01 (R153); in a handler 0x03 (R356); while the queue holds four
blocks it stalls (R38). -/
def execLrun (tk : Option Nat) (a count : Nat) (off : Int) (s : State) : Out :=
  if s.ag.isSys then s.scalarTrap 0x01 0 0
  else if s.ag.hnd then s.scalarTrap 0x03 0 0
  else
    let c := s.rc a
    let start : Int := c.addr + 12 * off
    s.gate (capLocs a)
      (match c.checkPlain [permXL] start (12 * count) 4 with
      | some cause => s.scalarTrap cause (start % 2 ^ 64).toNat kindFetch
      | none =>
        if 4 ≤ s.ag.blocks.length then .next s
        else
          let b : Block := ⟨c, start.toNat, count, 0, s.ag.tokenOpt tk, s.ag.nextOp⟩
          .next (({ s with ag := { s.ag with blocks := s.ag.blocks ++ [b], nextOp := s.ag.nextOp + 1 } }).advance 4))

/-- A read of em or lm: bit by bit the old or the new value while an `lend` or `lbrx` has not been seen (R180). -/
def State.rdMask (s : State) (l : Loc) : Word :=
  (List.range 32).foldl (fun m i => setBitTo m i ((s.ag.rdAt s.fresh (l.key + 8 + i) l).getLsbD i)) 0

def execEmr (d : Nat) (s : State) : Out :=
  if s.ag.isSys then s.scalarTrap 0x01 0 0 else s.gate [.em] (s.done [(.s d, s.rdMask .em)])

/-- `emw` sets em to s[a] AND lm (R180, R44). -/
def execEmw (a : Nat) (s : State) : Out :=
  if s.ag.isSys then s.scalarTrap 0x01 0 0 else s.gate [.s a] (s.done [(.em, s.rs a)])

def execLmr (d : Nat) (s : State) : Out :=
  if s.ag.isSys then s.scalarTrap 0x01 0 0 else s.gate [.lm] (s.done [(.s d, s.rdMask .lm)])

/-! ### Barriers (R181) -/

/-- The accesses of the given paths have been performed at a scope, with what the group sees of others, and the narrow
stores of the core can be written back: what a release of that scope, .team or wider, waits for (R299, R414). -/
def State.released (s : State) (paths : List Path) (c : Scope) : Bool :=
  !s.busy s.ag paths s.ag.nextOp c && s.cumulated s.ag c

/-- What an arrival at a barrier releases at .team: the scalar path, and the lane path's instructions issued before
(R181). -/
def barPaths : List Path := [.scalar, .lane]

/-- What a sending operation releases at .dev: the scalar path, and every lane instruction issued before, those of the matrix
path among them (R185). -/
def sendPaths : List Path := [.scalar, .lane, .matrix]

/-- The narrow stores of the core are written back, as every release of scope .team or wider does (R414). -/
def State.publishMine (s : State) : State := s.publishFor s.ag .dev

/-- The waiting half of a barrier: the instruction ends when the phase of the latest arrival is complete, at once
when it is so already or when the group has never arrived. -/
def State.waitPhase (s : State) (obj : Nat) : State :=
  match s.ag.lastPhase obj with
  | none => s.advance 4
  | some p => if p < s.phaseOf s.ag.team obj then s.advance 4
      else { s with ag := { s.ag with wait := .bar obj p } }

/-- The arrival, or the wait for what must come before it: the phase of an earlier arrival, and the start of
`need` groups of the team by the spawn former. -/
def State.tryArrive (s : State) (obj need : Nat) (wait : Bool) : State :=
  if s.arrivalOpen s.ag obj || ((s.team? s.ag.team).map (·.spawned)).getD need < need then
    { s with ag := { s.ag with wait := .barHeld obj need wait } }
  else
    let s1 := ({ s with ag := s.ag.waitOver }).arrive obj
    if wait then s1.waitPhase obj else s1.advance 4

/-- `bar` and `bar.arrive`: with flush, the spawn former first makes a partial group of every open batch (R50). On a
system core every phase completes at once (R164). -/
def State.barrier (s : State) (obj : Nat) (flush wait : Bool) : Out :=
  if s.ag.isSys then s.done []
  else if !s.released barPaths .team then .next s
  else
    let s1 := s.publishMine
    let s2 := if flush then s1.updTeam s.ag.team Team.flush else s1
    let need := if flush then ((s2.team? s.ag.team).map Team.allStarted).getD 0 else 0
    .next (s2.tryArrive obj need wait)

def execBar (obj : Nat) (flush : Bool) (s : State) : Out := s.barrier obj flush true

def execBarArrive (obj : Nat) (flush : Bool) (s : State) : Out := s.barrier obj flush false

def execBarWait (obj : Nat) (s : State) : Out :=
  if s.ag.isSys then s.done [] else .next (s.waitPhase obj)

/-! ### Tokens and delays (R74, R182) -/

/-- A wait on token `n` for threshold `thr`: the instruction ends at once when the test holds, and the posts it has
seen govern their destinations no more (R75). -/
def State.waitToken (s : State) (n thr : Nat) : Out :=
  if tokenMet (s.ag.tok n) thr then .next (({ s with ag := s.ag.seenTok n }).advance 4)
  else .next { s with ag := { s.ag with wait := .token n thr } }

def execWtok (tk thr : Nat) (s : State) : Out := s.waitToken (s.ag.tokenId tk) thr

def execWtokReg (tk b : Nat) (s : State) : Out :=
  s.gate [.s b] (s.waitToken (s.ag.tokenId tk) ((s.rs b).toNat % 2 ^ 16))

def execTkr (tk d : Nat) (s : State) : Out := s.done [(.s d, (s.ag.tok (s.ag.tokenId tk)).setWidth 32)]

/-- `pause` lowers the issue priority for the n clk after its own (R41, R398); a no-op on a system core. -/
def execPause (n : Nat) (s : State) : Out :=
  if s.ag.isSys then s.done []
  else .next (({ s with ag := { s.ag with pauseEnd := s.clk + n + 1, pausing := true } }).advance 4)

/-- `dly` holds the next scalar instruction until clk t + n; a no-op on a system core. -/
def execDly (n : Nat) (s : State) : Out :=
  if s.ag.isSys then s.done []
  else .next (({ s with ag := { s.ag with dlyScalar := s.clk + n } }).advance 4)

/-! ### Yield (R183, R42) -/

/-- The lane queue has drained, or the group runs a handler, whose lane stream is halted (R356). -/
def Agent.drained (a : Agent) : Bool := a.blocks.isEmpty || a.hnd

/-- What leaving issue does: fixed-latency results take effect and latches are lost (R67, R71). -/
def Agent.leaveIssue (a : Agent) : Agent := a.settle.loseLatches

/-- A yield whose lane queue has drained: the group goes on at the target when the token meets the threshold already,
without leaving issue; otherwise it leaves issue and waits (R42, R183). -/
def State.yieldNow (s : State) (n thr target : Nat) : State :=
  if tokenMet (s.ag.tok n) thr then
    ({ s with ag := (s.ag.seenTok n).waitOver }).jumpTo (s.ag.pcc.withAddr target)
  else { s with ag := { (if s.ag.isSys then s.ag else s.ag.leaveIssue) with wait := .yield n thr target } }

/-- `yld`: the target is checked and the threshold read; then the lane queue drains (R183). On a system core it is
`wtok` followed by a jump (R164). -/
def execYld (tk r : Nat) (off : Int) (s : State) : Out :=
  let target := s.ag.branchTarget off
  let n := s.ag.tokenId tk
  let thr := (s.rs r).toNat % 2 ^ 16
  s.gate [.s r]
    (if !s.ag.inCode target then s.scalarTrap 0x0B (addrOf target) kindFetch
    else if !s.ag.drained then .next { s with ag := { s.ag with wait := .drain n thr (addrOf target) } }
    else .next (s.yieldNow n thr (addrOf target)))

end Sys2Proof.Machine
end

