-- ==== Sys2Proof/Machine/Endpoint.lean ====
section
/-!
DEFINITION. Endpoints (04 R99 to R104, 08 R185).
-/

namespace Sys2Proof.Machine

/-- An endpoint's hardware state; a new object has none. -/
def State.ep (s : State) (pa : Nat) : Endpoint :=
  if s.objHeld pa then (s.eps.find? fun e => e.pa == pa).getD ⟨pa, [], []⟩ else ⟨pa, [], []⟩

def State.setEp (s : State) (e : Endpoint) : State :=
  { s.holdObj e.pa with eps := e :: s.eps.filter fun x => x.pa != e.pa }

/-- DEAD and CAPACITY of an endpoint object (R367). -/
def State.epDead (s : State) (pa : Nat) : Bool := (s.readPhys pa 4).testBit 31
def State.epCapacity (s : State) (pa : Nat) : Nat := s.readPhys pa 4 % 16

/-- A capability of a message as it arrives in a context of owner domain `d` (R101). -/
def Cap.delivered (c : Cap) (d : Nat) : Cap :=
  if !c.has permGLOB || (c.owner ≠ 0 && c.owner ≠ d && !c.has permEXPORT) then { c with tag := false } else c

/-- The registers that words s16 to s31 and capabilities c8 to c11 of a message reach (R100). -/
def messageWrites (words : List Word) (caps : List Cap) (d : Nat) : List (Loc × Word) :=
  ((List.range 16).zip words).map (fun e => (Loc.s (16 + e.1), e.2))
    ++ (((List.range 4).zip caps).map fun e => capWrites (8 + e.1) (e.2.delivered d)).flatten

/-- All registers a delivery writes: the message, the badge in s15, the kind in s12 (R100). -/
def Message.writes (m : Message) (d : Nat) : List (Loc × Word) :=
  messageWrites m.words m.caps d ++ [(.s 15, m.badge), (.s 12, bit01 m.call)]

/-- The places a delivery writes. -/
def messageLocs : List Loc :=
  (List.range 16).map (fun k => Loc.s (16 + k)) ++ ((List.range 4).map fun k => capLocs (8 + k)).flatten

/-- A receiver that waits, and is not suspended in a handler (R479). -/
def State.waitingReceiver (s : State) (ids : List Nat) : Option Nat :=
  ids.find? fun id => match s.agent? id with
    | some a => a.alive && (match a.wait with
      | .recv _ _ => true
      | _ => false)
    | none => false

/-- The caller of a delivered call fills the reply slot (R103). -/
def Agent.holdCaller (a : Agent) (caller : Option Caller) : Agent :=
  match caller with
  | none => a
  | some c => { a with reply := some c }

/-- A waiting receiver resumes with the given registers written; its token posts (R104). -/
def Agent.resumeRecv (a : Agent) (ws : List (Loc × Word)) (caller : Option Caller) : Agent :=
  match a.wait with
  | .recv _ tk => (a.endWith tk ws).holdCaller caller
  | _ => a

/-- Deposits a message (R102): the new state and the status. -/
def State.deposit (s : State) (pa : Nat) (m : Message) : State × Word :=
  let e := s.ep pa
  let s0 : State := { s with ag := { s.ag with sinks := s.ag.sinks + 1 } }
  if s.epDead pa then (s, 4)
  else match s.waitingReceiver e.receivers with
    | some id =>
      ((s0.setEp { e with receivers := e.receivers.filter fun r => r != id }).updAgent id
        (fun a => a.resumeRecv (m.writes a.domain) m.caller), 0)
    | none =>
      if e.buffer.length < s.epCapacity pa then (s0.setEp { e with buffer := e.buffer ++ [m] }, 1) else (s, 2)

/-- The outcome of the checks of an endpoint operation: the object's physical address, or what becomes of the
instruction. -/
inductive EpCheck
  | ok (s : State) (pa : Nat)
  | out (o : Out)

/-- The checks of R185 on the endpoint capability c, and the translation of the object as a write. -/
def State.checkEp (s : State) (c : Cap) (need : Nat) : EpCheck :=
  match c.checkObject 1 [need] with
  | some cause => .out (s.scalarTrap cause c.addr kindNone)
  | none =>
    if c.top < c.base + 64 then .out (s.scalarTrap 0x0B c.addr kindNone)
    else match s.xlateAcc s.ag.who (c.want true) c.base with
      | .ok pa _ pte size => .ok (s.noteXlate s.ag.who c.base pte size) pa
      | .absent => .out (s.scalarTrap 0x10 c.base kindAtomic)
      | .fail cause => .out (s.scalarTrap cause c.base kindAtomic)
      | .touch a p z => .out (s.touchFor false kindAtomic ⟨0, c, c.base, [], 0, 0, false⟩ a p z).stalls

/-- The badge of an endpoint capability (R99). -/
def Cap.badge (c : Cap) : Word := BitVec.ofNat 32 ((c.addr + 2 ^ 64 - c.base) % 2 ^ 32)

/-- The message in the registers of the agent in focus. -/
def State.outgoing (s : State) (c : Cap) (call : Bool) : Message :=
  ⟨(List.range 16).map fun k => s.rs (16 + k), (List.range 4).map fun k => s.rc (8 + k), c.badge, call,
   if call then some ⟨s.ag.id, s.ag.nextOp⟩ else none⟩

/-- The instruction ends with results that are known and reach their registers when its token posts (R75). -/
def State.endWith (s : State) (lane : Bool) (tk : Option Nat) (ws : List (Loc × Word)) : State :=
  s.enqueue lane (if lane then .lane else .scalar) .rlx .grp tk (.regs ws) (ws.map (·.1))

/-- `msend` (R102, R185). The deposit is a release: it waits until the group's accesses are performed. -/
def execMsend (a : Nat) (tk : Option Nat) (s : State) : Out :=
  let c := s.rc a
  s.gate (capLocs a ++ messageLocs)
    (match s.checkEp c permST with
    | .out o => o
    | .ok s1 pa =>
      if !s1.released sendPaths .dev then .next s1
      else
        let r := s1.publishMine.deposit pa (s1.outgoing c false)
        .next ((r.1.endWith false tk [(.s 12, r.2)]).advance 4))

/-- `mcall` (R102, R185): drains the lane queue, deposits, and on status 0 or 1 waits for the reply out of
issue. -/
def execMcall (a : Nat) (tk : Option Nat) (s : State) : Out :=
  let c := s.rc a
  s.gate (capLocs a ++ messageLocs)
    (match s.checkEp c permST with
    | .out o => o
    | .ok s1 pa =>
      if !s1.ag.drained || !s1.released sendPaths .dev then .next s1
      else
        let call := s1.ag.nextOp
        let r := s1.publishMine.deposit pa (s1.outgoing c true)
        let s2 : State := { r.1 with ag := { r.1.ag with nextOp := call + 1 } }
        if r.2 = 0 || r.2 = 1 then
          let b := (s2.ag.writes [(.s 12, r.2)]).leaveIssue
          .next { s2 with ag := { b with wait := .call pa call (b.tokenOpt tk) } }
        else .next ((s2.endWith false tk [(.s 12, r.2)]).advance 4))

/-- A receive that has its answer: one that has waited goes on with its results complete; the results of one that has
not are governed by its token (R75, R104; log 99). -/
def State.received (s : State) (waited : Bool) (tk : Option Nat) (ws : List (Loc × Word)) (caller : Option Caller) :
    State :=
  if waited then { s with ag := (s.ag.endWith tk ws).holdCaller caller }
  else
    let n := s.ag.nextOp
    let b := if tk = none then s.ag.writes ws else { s.ag.land n tk false [] ws with nextOp := n + 1 }
    ({ s with ag := (b.post tk).holdCaller caller }).advance 4

/-- A receive begins or goes on after a wait: a destroyed endpoint answers 4; the oldest buffered message is taken;
otherwise the group waits (R103, R104). The token `tk` is a number of the agent. -/
def State.receive (s : State) (waited : Bool) (pa : Nat) (tk : Option Nat) : State :=
  let e := s.ep pa
  if s.epDead pa then s.received waited tk [(.s 12, 4)] none
  else match e.buffer with
    | m :: rest =>
      (s.setEp { e with buffer := rest, receivers := e.receivers.filter fun r => r != s.ag.id }).received waited tk
        (m.writes s.ag.domain) m.caller
    | [] => ({ s with ag := { s.ag with wait := .recv pa tk } }).setEp
        { e with receivers := if e.receivers.contains s.ag.id then e.receivers else e.receivers ++ [s.ag.id] }

/-- An access of the operation lies in bytes [pa, pa+n). -/
def Op.meets (o : Op) (pa n : Nat) : Bool :=
  match o.kind with
  | .mem op ty _ accs _ => accs.any fun x => match x.place with
    | .pa p => p < pa + n && pa < p + op.size ty
    | .team _ => false
  | _ => false

/-- A scalar-path read of the object at `pa` is held: behind an earlier acquire, or an earlier access to the object, of
that path (R297, R337). -/
def Agent.readHeld (a : Agent) (pa : Nat) : Bool :=
  a.outst.any fun o => o.path == .scalar && !o.performed && (o.ord == .acq || o.ord == .ar || o.meets pa 64)

/-- `mrecv` (R103, R185, R337): drains the lane queue; the caller in a full reply slot resumes with 3 first. -/
def execMrecv (a : Nat) (tk : Option Nat) (s : State) : Out :=
  let c := s.rc a
  s.gate (capLocs a)
    (match s.checkEp c permLD with
    | .out o => o
    | .ok s1 pa =>
      if !s1.ag.drained || s1.ag.readHeld pa then .next s1
      else
        let s2 := s1.dropReply s1.ag
        .next ({ s2 with ag := { s2.ag.leaveIssue with reply := none } }.receive false pa (s2.ag.tokenOpt tk)))

/-- `mreply` (R103, R336): an empty slot gives status 2; otherwise the caller resumes with the message and status
0, and so does the replying group. The reply is a release. -/
def execMreply (tk : Option Nat) (s : State) : Out :=
  s.gate messageLocs
    (match s.ag.reply with
    | none => .next ((s.endWith false tk [(.s 12, 2)]).advance 4)
    | some c =>
      if !s.released sendPaths .dev then .next s
      else
        let m := s.outgoing .null false
        let s1 := s.publishMine
        let s2 := ({ s1 with ag := { s1.ag with reply := none, sinks := s1.ag.sinks + 1 } }).updAgent c.agent fun b =>
          b.answer c.call (messageWrites m.words m.caps b.domain ++ [(Loc.s 12, 0)])
        .next ((s2.endWith false tk [(.s 12, 0)]).advance 4))

/-- Destroyed endpoints (R104): their waiting receivers and callers resume with 4 in s12. -/
def State.sweepDead (s : State) : State :=
  let dead := (s.eps.filter fun e => s.epDead e.pa).map fun e => e.pa
  if dead.isEmpty then s else
  let s1 := s.updAll fun a => match a.wait with
    | .recv pa _ => if dead.contains pa then a.resumeRecv [(.s 12, 4)] none else a
    | .call pa c _ => if dead.contains pa then a.answer c [(.s 12, 4)] else a
    | _ => match a.suspended with
      | some (.call pa c _, _) => if dead.contains pa then a.answer c [(.s 12, 4)] else a
      | _ => a
  { s1 with eps := s1.eps.map fun e => if dead.contains e.pa then
      { e with receivers := e.receivers.filter fun r => (s1.agent? r).any fun a => match a.wait with
          | .none => false
          | _ => true } else e }

end Sys2Proof.Machine
end

