-- ==== Sys2Proof/Machine/Flags.lean ====
section
/-!
DEFINITION. The flags of fsr (03 R62) and when an instruction sets them (05 R111), as sets that are joined.
-/

namespace Sys2Proof.Machine

/-- A set of flags, a value to join into fsr. -/
abbrev Flags := Word

def flagNX : Flags := 0x01
def flagUF : Flags := 0x02
def flagOF : Flags := 0x04
def flagDZ : Flags := 0x08
def flagNV : Flags := 0x10
def flagSAT : Flags := 0x20
def flagLL : Flags := 0x80

/-- The flag when the condition holds. -/
def flagIf (b : Bool) (f : Flags) : Flags := if b then f else 0

/-- The union of the flags of several lanes or elements (R62, R202). -/
def joinFlags (fs : List Flags) : Flags := fs.foldl (· ||| ·) 0

/-- Flags of a rounding (R111): overflow comes with NX; underflow is a tiny result that is also inexact. -/
def roundFlags (past tiny inexact : Bool) : Flags :=
  flagIf past (flagOF ||| flagNX) ||| flagIf (tiny && inexact) flagUF ||| flagIf inexact flagNX

end Sys2Proof.Machine
end

