-- ==== Sys2Proof/Machine/Numbers.lean ====
section
/-!
DEFINITION. Number formats and exact arithmetic (05). A finite value is kept exactly as sign, integer significand
and power of two; an operation is computed exactly and rounded once (R109).
-/

namespace Sys2Proof.Machine

/-- A floating-point format (R105): widths of its fields; E4M3 alone has no infinity. -/
structure Fmt where
  exps : Nat
  frac : Nat
  e4m3 : Bool
  deriving DecidableEq, Repr

def Fmt.f64 : Fmt := ⟨11, 52, false⟩
def Fmt.f32 : Fmt := ⟨8, 23, false⟩
def Fmt.f16 : Fmt := ⟨5, 10, false⟩
def Fmt.bf16 : Fmt := ⟨8, 7, false⟩
def Fmt.e4 : Fmt := ⟨4, 3, true⟩
def Fmt.e5 : Fmt := ⟨5, 2, false⟩

/-- The format of a floating-point type. -/
def Fmt.ofTy : Ty → Fmt
  | .f64 => .f64
  | .f16 => .f16
  | .bf16 => .bf16
  | .fp8e4 => .e4
  | .fp8e5 => .e5
  | _ => .f32

def Fmt.bias (f : Fmt) : Nat := 2 ^ (f.exps - 1) - 1
def Fmt.width (f : Fmt) : Nat := 1 + f.exps + f.frac

/-- The exponent of the unit in the last place of subnormals and of the lowest binade. -/
def Fmt.qmin (f : Fmt) : Int := 1 - (f.bias : Int) - f.frac

/-- The code of the largest finite magnitude. -/
def Fmt.maxCode (f : Fmt) : Nat :=
  if f.e4m3 then 2 ^ (f.exps + f.frac) - 2 else (2 ^ f.exps - 1) * 2 ^ f.frac - 1

/-- The code of infinity, where the format has one. -/
def Fmt.infCode (f : Fmt) : Nat := (2 ^ f.exps - 1) * 2 ^ f.frac

/-- The canonical NaN (R106). -/
def Fmt.nan (f : Fmt) : Nat := if f.e4m3 then 0x7F else f.infCode + 2 ^ (f.frac - 1)

/-- The sign bit in place. -/
def Fmt.sign (f : Fmt) (neg : Bool) : Nat := if neg then 2 ^ (f.exps + f.frac) else 0

/-- What a code stands for: a NaN, an infinity, or (-1)^neg * m * 2^e. -/
inductive FVal
  | nan (signalling : Bool)
  | inf (neg : Bool)
  | fin (neg : Bool) (m : Nat) (e : Int)
  deriving DecidableEq, Repr

/-- The value of a code (R105, R106). -/
def Fmt.read (f : Fmt) (x : Nat) : FVal :=
  let fr := x % 2 ^ f.frac
  let ex := x / 2 ^ f.frac % 2 ^ f.exps
  let neg := x.testBit (f.exps + f.frac)
  if f.e4m3 then
    if x % 128 = 127 then .nan false
    else if ex = 0 then .fin neg fr f.qmin
    else .fin neg (fr + 2 ^ f.frac) (f.qmin + (ex - 1))
  else if ex = 2 ^ f.exps - 1 then
    if fr = 0 then .inf neg else .nan (fr < 2 ^ (f.frac - 1))
  else if ex = 0 then .fin neg fr f.qmin
  else .fin neg (fr + 2 ^ f.frac) (f.qmin + (ex - 1))

/-- A result: its code and the flags its making sets. -/
structure FRes where
  code : Nat
  flags : Flags
  deriving DecidableEq, Repr

/-- The canonical NaN, with NV when the operation was invalid or a NaN was signalling. -/
def Fmt.nanRes (f : Fmt) (nv : Bool) : FRes := ⟨f.nan, flagIf nv flagNV⟩

/-- An infinite result: in E4M3 the largest value, with OF and NX (R110). -/
def Fmt.infRes (f : Fmt) (neg : Bool) : FRes :=
  if f.e4m3 then ⟨f.sign neg + f.maxCode, flagOF ||| flagNX⟩ else ⟨f.sign neg + f.infCode, 0⟩

/-- Whether a magnitude `n` units, with `rem` of 2^d parts of a unit left over (and more, when `sticky`), rounds up. -/
def roundsUp (mode : Rnd) (neg : Bool) (n rem d : Nat) (sticky : Bool) : Bool :=
  let inexact := rem != 0 || sticky
  match mode with
  | .rz => false
  | .ru => inexact && !neg
  | .rd => inexact && neg
  | .rne => if d = 0 then false else
      let half := 2 ^ (d - 1)
      half < rem || (rem == half && (sticky || n % 2 == 1))

/-- `m * 2^e`, and a little more when `sticky`, in units of 2^q, rounded; with whether that was inexact. -/
def inUnits (mode : Rnd) (neg : Bool) (m : Nat) (e q : Int) (sticky : Bool) : Nat × Bool :=
  if q ≤ e then
    let n := m * 2 ^ (e - q).toNat
    (n + (if roundsUp mode neg n 0 0 sticky then 1 else 0), sticky)
  else
    let d := (q - e).toNat
    let n := m / 2 ^ d
    let r := m % 2 ^ d
    (n + (if roundsUp mode neg n r d sticky then 1 else 0), r != 0 || sticky)

/-- Round(x, fmt, mode) of R109 for x = (-1)^neg * m * 2^e (and a little more in magnitude, when `sticky`; then m
has at least two bits more than the format). E4M3 saturates (R110). -/
def Fmt.round (f : Fmt) (mode : Rnd) (neg : Bool) (m : Nat) (e : Int) (sticky : Bool) : FRes :=
  if m = 0 then ⟨f.sign neg, 0⟩
  else
    let top : Int := (Nat.log2 m : Int) + e
    let free := top - f.frac
    let q := max free f.qmin
    let (n, inexact) := inUnits mode neg m e q sticky
    let code := if n < 2 ^ f.frac then n else (q - f.qmin + 1).toNat * 2 ^ f.frac + (n - 2 ^ f.frac)
    let emin : Int := 1 - (f.bias : Int)
    let tiny := decide (top < emin)
      && !(decide (top + 1 = emin) && (inUnits mode neg m e free sticky).1 == 2 ^ (f.frac + 1))
    if f.maxCode < code then
      let toInf := match mode with
        | .rne => true
        | .rz => false
        | .ru => !neg
        | .rd => neg
      ⟨f.sign neg + (if toInf && !f.e4m3 then f.infCode else f.maxCode), roundFlags true false true⟩
    else ⟨f.sign neg + code, roundFlags false tiny inexact⟩

/-- A value written in another format (R119): exact or rounded once. -/
def Fmt.write (f : Fmt) (mode : Rnd) : FVal → FRes
  | .nan s => f.nanRes s
  | .inf neg => f.infRes neg
  | .fin neg m e => f.round mode neg m e false

/-! ### Exact sums and products -/

def FVal.isNan : FVal → Bool
  | .nan _ => true
  | _ => false

def FVal.isSig : FVal → Bool
  | .nan s => s
  | _ => false

def FVal.isInf : FVal → Bool
  | .inf _ => true
  | _ => false

def FVal.isZero : FVal → Bool
  | .fin _ 0 _ => true
  | _ => false

/-- The sign of a number that is no NaN. -/
def FVal.neg : FVal → Bool
  | .nan _ => false
  | .inf n => n
  | .fin n _ _ => n

/-- The value with the other sign. -/
def FVal.flip : FVal → FVal
  | .nan s => .nan s
  | .inf n => .inf !n
  | .fin n m e => .fin (!n) m e

/-- The significand as a signed number of units 2^q, for q at most the exponent. -/
def FVal.units (q : Int) : FVal → Int
  | .fin n m e => (if n then -1 else 1) * ((m * 2 ^ (e - q).toNat : Nat) : Int)
  | _ => 0

def FVal.exp : FVal → Int
  | .fin _ _ e => e
  | _ => 0

/-- 0 times infinity. -/
def invalidMul (x y : FVal) : Bool := (x.isZero && y.isInf) || (x.isInf && y.isZero)

/-- The exact product of two numbers; a NaN when a factor is one or for 0 times infinity. -/
def FVal.mul (x y : FVal) : FVal :=
  match x, y with
  | .fin a m e, .fin b n g => .fin (a != b) (m * n) (e + g)
  | .nan _, _ | _, .nan _ => .nan false
  | x, y => if invalidMul x y then .nan false else .inf (x.neg != y.neg)

/-- Infinities of both signs among the terms. -/
def mixedInf (xs : List FVal) : Bool := xs.any (fun x => x == .inf true) && xs.any fun x => x == .inf false

/-- The exact sum of terms. A zero sum takes the sign the terms share; otherwise `zneg`. -/
def sumExact (zneg : Bool) (xs : List FVal) : FVal :=
  if xs.any FVal.isNan || mixedInf xs then .nan false
  else match xs.find? FVal.isInf with
    | some x => x
    | none =>
      let q := xs.foldl (fun m x => min m x.exp) ((xs.headD (.fin false 0 0)).exp)
      let t : Int := xs.foldl (fun t x => t + x.units q) 0
      if t = 0 then .fin (if xs.all FVal.neg then true else if xs.any FVal.neg then zneg else false) 0 q
      else .fin (t < 0) t.natAbs q

/-- The rounding of an exact sum whose terms the flags of R111 look at: `ins` are the inputs, `bad` an invalid
product. Infinite terms of opposite signs set NV only where no term is a NaN: R111 states NV beside a quiet NaN for an
invalid product alone (log 94). -/
def Fmt.sum (f : Fmt) (mode : Rnd) (ins : List FVal) (bad : Bool) (terms : List FVal) : FRes :=
  let r := sumExact (mode == .rd) terms
  if r.isNan || bad then f.nanRes (bad || ins.any FVal.isSig || (!terms.any FVal.isNan && mixedInf terms))
  else f.write mode r

def Fmt.add (f : Fmt) (mode : Rnd) (x y : Nat) : FRes :=
  let a := f.read x
  let b := f.read y
  f.sum mode [a, b] false [a, b]

def Fmt.sub (f : Fmt) (mode : Rnd) (x y : Nat) : FRes :=
  let a := f.read x
  let b := f.read y
  f.sum mode [a, b] false [a, b.flip]

def Fmt.mul (f : Fmt) (mode : Rnd) (x y : Nat) : FRes :=
  let a := f.read x
  let b := f.read y
  if a.isNan || b.isNan then f.nanRes (a.isSig || b.isSig)
  else if invalidMul a b then f.nanRes true
  else f.write mode (a.mul b)

def Fmt.fma (f : Fmt) (mode : Rnd) (x y z : Nat) : FRes :=
  let a := f.read x
  let b := f.read y
  let c := f.read z
  f.sum mode [a, b, c] (invalidMul a b) [a.mul b, c]

/-- `bdot2`: c + a.0 * b.0 + a.1 * b.1, rounded once (R202). -/
def bdot2Res (mode : Rnd) (a0 b0 a1 b1 c : Nat) : FRes :=
  let x0 := Fmt.bf16.read a0
  let y0 := Fmt.bf16.read b0
  let x1 := Fmt.bf16.read a1
  let y1 := Fmt.bf16.read b1
  let z := Fmt.f32.read c
  Fmt.f32.sum mode [x0, y0, x1, y1, z] (invalidMul x0 y0 || invalidMul x1 y1) [z, x0.mul y0, x1.mul y1]

/-! ### Quotients and roots -/

/-- Bits of quotient and root that decide every rounding. -/
def extraBits : Nat := 70

/-- A quotient of two finite significands, to enough bits, and whether something is left over. -/
def Fmt.quot (f : Fmt) (mode : Rnd) (neg : Bool) (m : Nat) (e : Int) (n : Nat) (g : Int) : FRes :=
  let k := extraBits + Nat.log2 n
  let num := m * 2 ^ k
  f.round mode neg (num / n) (e - g - k) (num % n != 0)

def Fmt.div (f : Fmt) (mode : Rnd) (x y : Nat) : FRes :=
  match f.read x, f.read y with
  | .nan s, .nan t => f.nanRes (s || t)
  | .nan s, _ => f.nanRes s
  | _, .nan t => f.nanRes t
  | .inf _, .inf _ => f.nanRes true
  | .inf a, .fin b _ _ => f.infRes (a != b)
  | .fin a _ _, .inf b => ⟨f.sign (a != b), 0⟩
  | .fin a m e, .fin b n g =>
    if n = 0 then
      if m = 0 then f.nanRes true
      else let r := f.infRes (a != b)
        ⟨r.code, r.flags ||| flagDZ⟩
    else f.quot mode (a != b) m e n g

/-- 1.0 of a format. -/
def Fmt.one (f : Fmt) : Nat := f.bias * 2 ^ f.frac

/-- The integer square root, from its highest bit down. -/
def isqrtFrom (n : Nat) : Nat → Nat → Nat
  | 0, r => r
  | k + 1, r => let t := r + 2 ^ k
    isqrtFrom n k (if t * t ≤ n then t else r)

/-- An exact root of m * 2^e to enough bits: significand, exponent, whether something is left over. -/
def rootOf (m : Nat) (e : Int) : Nat × Int × Bool :=
  let odd := if e % 2 = 0 then 0 else 1
  let n := m * 2 ^ (2 * extraBits + odd)
  let r := isqrtFrom n (Nat.log2 n / 2 + 1) 0
  (r, (e - odd) / 2 - extraBits, r * r != n)

def Fmt.sqrt (f : Fmt) (mode : Rnd) (x : Nat) : FRes :=
  match f.read x with
  | .nan s => f.nanRes s
  | .inf neg => if neg then f.nanRes true else f.infRes false
  | .fin neg m e =>
    if m = 0 then ⟨f.sign neg, 0⟩
    else if neg then f.nanRes true
    else let r := rootOf m e
      f.round mode false r.1 r.2.1 r.2.2

/-- 1 / sqrt(x), rounded once: the root of 1 / x, whose significand is kept to enough bits. -/
def Fmt.rsqrt (f : Fmt) (mode : Rnd) (x : Nat) : FRes :=
  match f.read x with
  | .nan s => f.nanRes s
  | .inf neg => if neg then f.nanRes true else ⟨0, 0⟩
  | .fin neg m e =>
    if m = 0 then ⟨f.sign neg + f.infCode, flagDZ⟩
    else if neg then f.nanRes true
    else
      -- floor of sqrt(2^k / m) with k of the parity of e, which makes the power of two whole
      let k := 4 * extraBits + (if e % 2 = 0 then 0 else 1)
      let n := 2 ^ k / m
      let r := isqrtFrom n (Nat.log2 n / 2 + 1) 0
      f.round mode false r (-(e + k) / 2) (r * r * m != 2 ^ k)

/-! ### Minimum, maximum, comparison (R200, R206) -/

/-- Exact comparison of two numbers that are no NaN: below, equal (−0 equals +0). -/
def ltVal (x y : FVal) : Bool :=
  match x, y with
  | .inf a, .inf b => a && !b
  | .inf a, _ => a
  | _, .inf b => !b
  | x, y => let q := min x.exp y.exp
    decide (x.units q < y.units q)

def eqVal (x y : FVal) : Bool := !ltVal x y && !ltVal y x

/-- `fmin` and its kin: one of the operands, or the canonical NaN; −0 is below +0. -/
def Fmt.pick (f : Fmt) (wantMax : Bool) (x y : Nat) : FRes :=
  let a := f.read x
  let b := f.read y
  let nv := flagIf (a.isSig || b.isSig) flagNV
  if a.isNan && b.isNan then ⟨f.nan, nv⟩
  else if a.isNan then ⟨y, nv⟩
  else if b.isNan then ⟨x, nv⟩
  else
    let below := ltVal a b || (eqVal a b && a.neg && !b.neg)
    ⟨if below != wantMax then x else y, nv⟩

/-- A comparison of `pset`, with its flags. -/
def Fmt.cmp (f : Fmt) (c : CmpOp) (x y : Nat) : Bool × Flags :=
  let a := f.read x
  let b := f.read y
  let un := a.isNan || b.isNan
  let r := match c with
    | .un => un
    | .ne => un || !eqVal a b
    | .eq => !un && eqVal a b
    | .lt => !un && ltVal a b
    | .le => !un && !ltVal b a
    | .gt => !un && ltVal b a
    | .ge => !un && !ltVal a b
  (r, flagIf (a.isSig || b.isSig) flagNV)

/-! ### Integers and conversions (R107, R119) -/

/-- Clamping to a type's range. -/
def clampTo (lo hi x : Int) : Int := if x < lo then lo else if hi < x then hi else x

/-- Limits of an integer type. -/
def tyLo (t : Ty) : Int := if t.isSigned then -(2 ^ (t.bits - 1) : Int) else 0
def tyHi (t : Ty) : Int := if t.isSigned then (2 ^ (t.bits - 1) : Int) - 1 else (2 ^ t.bits : Int) - 1

/-- The value rounded to an integer. -/
def toInteger (mode : Rnd) (neg : Bool) (m : Nat) (e : Int) : Int × Bool :=
  let r := inUnits mode neg m e 0 false
  (if neg then -(r.1 : Int) else r.1, r.2)

/-- Float to integer (R119). -/
def floatToInt (t : Ty) (mode : Rnd) : FVal → Int × Flags
  | .nan _ => (0, flagNV)
  | .inf neg => (if neg then tyLo t else tyHi t, flagSAT)
  | .fin neg m e =>
    let r := toInteger mode neg m e
    let c := clampTo (tyLo t) (tyHi t) r.1
    if c = r.1 then (c, flagIf r.2 flagNX) else (c, flagSAT)

/-- Integer to float (R119). -/
def Fmt.ofInt (f : Fmt) (mode : Rnd) (x : Int) : FRes := f.round mode (x < 0) x.natAbs 0 false

/-! ### sx blocks (R112 to R118) -/

/-- Magnitude bits m and code width of an sx format (R112). -/
def sxMag : Sxf → Nat
  | .sx2 => 2 | .sx4 => 4 | .sx7 => 7

def sxWidth (x : Sxf) : Nat := sxMag x + 1

/-- An encoded block: exponent byte, micro byte, sixteen codes. -/
structure SxBlock where
  x : Nat
  u : Nat
  codes : List Nat
  deriving DecidableEq, Repr

/-- The nearest integer to m * 2^e * 2^-t, ties to even. -/
def quantum (m : Nat) (e t : Int) : Nat := (inUnits .rne false m e t false).1

/-- An element before conversion (R116): a NaN becomes +0 with NV, an infinity the largest value with SAT. -/
def sxInput (f : Sxf) (v : FVal) : (Bool × Nat × Int) × Flags :=
  match v with
  | .nan _ => ((false, 0, 0), flagNV)
  | .inf neg => ((neg, 2 ^ sxMag f - 1, 128 - sxMag f), flagSAT)
  | .fin neg m e => ((neg, m, e), 0)

/-- The code of one element for the unit 2^t, and the flags of its conversion. -/
def sxCode (f : Sxf) (t : Int) (x : Bool × Nat × Int) : Nat × Flags :=
  let q := quantum x.2.1 x.2.2 t
  let m := min q (2 ^ sxMag f - 1)
  let exact := if t ≤ x.2.2 then x.2.1 * 2 ^ (x.2.2 - t).toNat == m else x.2.1 == m * 2 ^ (t - x.2.2).toNat
  ((if m ≠ 0 && x.1 then 2 ^ sxMag f else 0) + m, flagIf (2 ^ sxMag f - 1 < q) flagSAT ||| flagIf (!exact) flagNX)

/-- Conversion of sixteen binary32 codes into a block (R116). -/
def sxPack (f : Sxf) (xs : List Nat) : SxBlock × Flags :=
  let ins := xs.map fun c => sxInput f (Fmt.f32.read c)
  let v := ins.map (·.1)
  let tops := v.filterMap fun x => if x.2.1 = 0 then none else some ((Nat.log2 x.2.1 : Int) + x.2.2)
  let sx : Nat := match tops with
    | [] => 0
    | t :: ts => (max 0 (ts.foldl max t + 127)).toNat
  let top : Int := (sx : Int) - 127 - (sxMag f - 1)
  let elem := fun k => v.getD k (false, 0, 0)
  let fits := fun k => decide (quantum (elem k).2.1 (elem k).2.2 (top - 1) ≤ 2 ^ sxMag f - 1)
  let mu := fun j => fits (2 * j) && fits (2 * j + 1)
  let out := (List.range 16).map fun k => sxCode f (if mu (k / 2) then top - 1 else top) (elem k)
  let u := (List.range 8).foldl (fun u j => if mu j then u + 2 ^ j else u) 0
  (⟨sx, u, out.map (·.1)⟩, joinFlags (ins.map (·.2)) ||| joinFlags (out.map (·.2)))

/-- The value of element `k` (R113), reserved codes read as their substitutes (R118). -/
def sxValue (f : Sxf) (x u k code : Nat) : FVal :=
  let ex : Int := if x = 0xFF then 0xFE else x
  let mu : Int := if u.testBit (k / 2) then 1 else 0
  let m := code % 2 ^ sxMag f
  .fin (code.testBit (sxMag f) && m != 0) m (ex - 127 - mu - (sxMag f - 1))

/-! ### Matrix sums (R120) -/

/-- The product of `mmac`. -/
def macTerm (a b : FVal) : FVal := a.mul b

/-- The square of a difference, of `mdist`; equal values give +0, equal infinities among them (R120). -/
def distTerm (a b : FVal) : FVal :=
  let d := if a.isInf && a = b then .fin false 0 0 else sumExact false [a, b.flip]
  match d with
  | .fin _ m e => .fin false (m * m) (e + e)
  | .inf _ => .inf false
  | .nan s => .nan s

/-- One chunk: the exact sum of its terms. It is −0 when every term is −0. -/
def chunkSum (terms : List FVal) : FVal := sumExact false terms

/-- What happened to an accumulator element: NaN from numbers, infinity from finite values, subnormal or zero from
a non-zero value. -/
structure MacEvents where
  nv : Bool
  ov : Bool
  un : Bool
  deriving DecidableEq, Repr

/-- A rounding to binary32 that counts its events. -/
def macRound (v : FVal) : Nat × MacEvents :=
  let r := Fmt.f32.write .rne v
  match v with
  | .fin _ m _ =>
    let mag := r.code % 2 ^ 31
    (r.code, ⟨false, mag == Fmt.f32.infCode, m != 0 && decide (mag < 2 ^ 23)⟩)
  | _ => (r.code, ⟨false, false, false⟩)

/-- One step of R120: the chunk is rounded, then added to the accumulator and rounded. `fromNums` says that no input
of the chunk was a NaN. -/
def macStep (fromNums : Bool) (acc : Nat) (terms : List FVal) : Nat × MacEvents :=
  let s := macRound (chunkSum terms)
  let x := Fmt.f32.read s.1
  let y := Fmt.f32.read acc
  let t := macRound (sumExact false [x, y])
  let nan := (Fmt.f32.read t.1).isNan && fromNums && !y.isNan
  (t.1, ⟨nan, s.2.ov || t.2.ov, s.2.un || t.2.un⟩)

/-! ### fexp2 and flog2 (R121 to R123) -/

/-- The coefficients c0 to c6 of `fexp2`, the highest first, and c7. -/
def expCoeffs : List Int := [165394, 1431680, 10327387, 59597083, 257941248, 744261118, 1073741824]

def fexp2Res (x : Nat) : FRes :=
  match Fmt.f32.read x with
  | .nan s => Fmt.f32.nanRes s
  | .inf neg => ⟨if neg then 0 else Fmt.f32.infCode, 0⟩
  | .fin neg m e =>
    let v := FVal.fin neg m e
    if !ltVal v (.fin false 128 0) then ⟨Fmt.f32.infCode, flagOF ||| flagNX⟩
    else if ltVal v (.fin true 150 0) then ⟨0, flagUF ||| flagNX⟩
    else
      let mag : Int := quantum m e (-30)
      let xq : Int := if neg then -mag else mag
      let n := (xq + 2 ^ 29) / 2 ^ 30
      let f := xq - n * 2 ^ 30
      let y := expCoeffs.foldl (fun y c => c + y * f / 2 ^ 30) 16378
      Fmt.f32.round .rne (y < 0) y.natAbs (n - 30) false

/-- The coefficients d7, d5, d3, d1 of `flog2`. -/
def logCoeffs : List Int := [442594858, 619632802, 1032721336, 3098164009]

def flog2Res (x : Nat) : FRes :=
  match Fmt.f32.read x with
  | .nan s => Fmt.f32.nanRes s
  | .inf neg => if neg then Fmt.f32.nanRes true else ⟨Fmt.f32.infCode, 0⟩
  | .fin neg m e =>
    if m = 0 then ⟨Fmt.f32.sign true + Fmt.f32.infCode, flagDZ⟩
    else if neg then Fmt.f32.nanRes true
    else
      let l := Nat.log2 m
      let mq0 : Int := m * 2 ^ (30 - l)
      let e0 : Int := e + l
      let big := decide ((2 ^ 30 + 0x3504F4 * 2 ^ 7 : Int) ≤ mq0)
      let mq : Int := if big then mq0 / 2 else mq0
      let ex : Int := if big then e0 + 1 else e0
      let sq := ((mq - 2 ^ 30) * 2 ^ 30).tdiv (mq + 2 ^ 30)
      let z := sq * sq / 2 ^ 30
      let p := logCoeffs.foldl (fun p d => d + p * z / 2 ^ 30) 344240445
      let t := ex * 2 ^ 30 + p * sq / 2 ^ 30
      Fmt.f32.round .rne (t < 0) t.natAbs (-30) false

/-! ### rnd (R124) -/

/-- One round of the mixing. -/
def rndRound (k : DWord) (x : DWord) (i : Nat) : DWord :=
  let y := x * 0xA3B195C54F2D8E6B
  (y ^^^ (y >>> 29)) + k.rotateLeft (17 * (i + 1)) + BitVec.ofNat 64 i

def rndMix (k c : DWord) : Word :=
  (([0, 1, 2, 3].foldl (rndRound k) (c ^^^ k)) * 0xA3B195C54F2D8E6B).extractLsb' 32 32

end Sys2Proof.Machine
end

