-- ==== Sys2Proof/Machine/Operands.lean ====
section
/-!
DEFINITION. Operands and issue of lane instructions (03 R60, R66, R69 to R73, R77; 07 R155, R156; 09 R190 to R195):
the operand forms, the checks at issue, results and latches.
-/

namespace Sys2Proof.Machine

/-- The lanes of a mask, rising. -/
def lanesOf (m : BitVec 32) : List Nat := (List.range 32).filter m.getLsbD

/-- One read of a lane instruction at its issue: a vector register or a vector quad by the active lanes (by one given
lane when `vl`), a scalar register or quad, a predicate, a latch. -/
inductive LaneRead
  | v (n : Nat)
  | vl (n lane : Nat)
  | vc (q : Nat)
  | s (n : Nat)
  | c (q : Nat)
  | p (n : Nat)
  | latch (n : Nat)
  deriving DecidableEq, Repr

/-! ### Values of operands -/

/-- The lane's value in a latch (R70, R72): zero when it is lost or its producer's latency has not elapsed; free in
a lane its producer left inactive, and in the high half of a result that has only 32 bits (log 9). -/
def State.latchVal (s : State) (n lane : Nat) : DWord :=
  match s.ag.latches.getD n none with
  | none => 0
  | some l =>
    if s.clk < l.eff then 0
    else match l.vals.getD lane none with
      | none => Config.freeWord s.fresh (600000 + n * 64 + lane) ++ Config.freeWord s.fresh (500000 + n * 64 + lane)
      | some v => if l.wide then v else Config.freeWord s.fresh (600000 + n * 64 + lane) ++ loWord v

/-- The low word of a latch, for a 32-bit operand. -/
def State.latchLow (s : State) (n lane : Nat) : Word :=
  match s.ag.latches.getD n none with
  | none => 0
  | some l =>
    if s.clk < l.eff then 0
    else match l.vals.getD lane none with
      | none => Config.freeWord s.fresh (500000 + n * 64 + lane)
      | some v => loWord v

/-- The 32 bits of a register, latch or predicate operand for one lane; 0 for the other kinds. -/
def State.srcWord (s : State) (lane : Nat) : Src → Word
  | .vreg n => s.rd (.v n lane)
  | .sreg n => s.rs n
  | .latch n => s.latchLow n lane
  | .pred n => s.rd (.p n lane)
  | _ => 0

/-- The 64 bits of a pair, or of a latch. -/
def State.srcPair (s : State) (lane : Nat) : Src → DWord
  | .vreg n => s.ag.rdPair s.fresh (.v n lane) (.v (n + 1) lane)
  | .sreg n => s.rp n
  | .latch n => s.latchVal n lane
  | .pred n => (s.rd (.p n lane)).setWidth 64
  | _ => 0

/-- An integer operand (R155, R156, R191), as 64 bits of which a narrower type takes the low ones. -/
def State.srcInt (s : State) (pair : Bool) (lane : Nat) (a : Src) : DWord :=
  match a with
  | .imm v => BitVec.ofInt 64 v
  | .special c => if c = 1 then 1 else if c = 2 then -1 else if c = 3 then 2 else if c = 8 then BitVec.ofNat 64 lane
      else 0
  | a => if pair then s.srcPair lane a else (s.srcWord lane a).setWidth 64

/-- The special values of a floating-point operand (R156). -/
def Fmt.special (f : Fmt) (c : Nat) : Nat :=
  match c with
  | 1 => f.one
  | 2 => f.sign true + f.one
  | 3 => f.one + 2 ^ f.frac
  | 4 => f.one - 2 ^ f.frac
  | 5 => if f.e4m3 then f.maxCode else f.infCode
  | 6 => f.sign true + (if f.e4m3 then f.maxCode else f.infCode)
  | 7 => f.nan
  | 9 => f.maxCode
  | _ => 0

/-- A floating-point operand as a code of its format. -/
def State.srcFp (s : State) (f : Fmt) (lane : Nat) (a : Src) : Nat :=
  match a with
  | .imm v => (f.ofInt .rne v).code
  | .special c => f.special c
  | .pred n => if s.rd (.p n lane) = 0 then 0 else f.one
  | a => (if f.width = 64 then (s.srcPair lane a).toNat else (s.srcWord lane a).toNat) % 2 ^ f.width

/-- A packed operand (R202): registers and latches whole, other kinds placed in both elements. -/
def State.srcPacked (s : State) (f : Fmt) (lane : Nat) (a : Src) : Nat :=
  match a with
  | .vreg _ | .sreg _ | .latch _ => (s.srcWord lane a).toNat
  | a => let x := s.srcFp f lane a
    x + x * 2 ^ 16

/-- A capability operand of a lane: its own, or one broadcast (R161). -/
def State.srcCap (s : State) (lane : Nat) : CapSrc → Cap
  | .vc n => s.ag.rdVcap s.fresh n lane
  | .c n => s.rc n

/-! ### Names and reads -/

/-- The vector registers a source names (R60). -/
def srcNames (pair : Bool) : Src → List Nat
  | .vreg n => if pair then [n, n + 1] else [n]
  | _ => []

def dstNames (pair : Bool) : Dst → List Nat
  | .reg n => if pair then [n, n + 1] else [n]
  | .none => []

def capNames : CapSrc → List Nat
  | .vc n => [4 * n, 4 * n + 1, 4 * n + 2, 4 * n + 3]
  | .c _ => []

/-- The four registers of a vector quad. -/
def quadNames (q : Nat) : List Nat := [4 * q, 4 * q + 1, 4 * q + 2, 4 * q + 3]

/-- What reading a source reads. -/
def srcReads (pair : Bool) : Src → List LaneRead
  | .vreg n => if pair then [.v n, .v (n + 1)] else [.v n]
  | .sreg n => if pair then [.s n, .s (n + 1)] else [.s n]
  | .latch n => [.latch n]
  | .pred n => [.p n]
  | _ => []

def capReads : CapSrc → List LaneRead
  | .vc n => [.vc n]
  | .c n => [.c n]

/-! ### Issue -/

/-- The active lanes of an instruction with the given guard (R12). -/
def State.laneActive (s : State) (h : LaneHdr) : BitVec 32 :=
  (lanesOf s.ag.issueMask).foldl (fun m l =>
    if (s.rd (.p h.gp l) != 0) != h.gn then m ||| laneBit l else m) 0

/-- What a lane instruction finds unsettled. The results of the first of its pair are not among it: the second reads
what stands before them (R69, R77). -/
def Agent.laneUnsettled (a : Agent) (l : Loc) : Bool :=
  match a.pairing with
  | .second first => { a with pend := a.pend.filter fun p => p.seq < first }.unsettled l
  | _ => a.unsettled l

/-- The hazard a read meets in hazard-check mode (R77): its cause and the register or latch. R77 and R195 do not say
which lanes count: a vector register is tested in the active lanes, a predicate in every lane of the issue mask, a
scalar register and a latch even where no lane is active (log 94). Of a quad the number reported is 4q (log 94). -/
def State.laneHazard (s : State) (act : BitVec 32) : LaneRead → Option (Nat × Nat)
  | .v n => if (lanesOf act).any fun l => s.ag.laneUnsettled (.v n l) then some (0x18, n) else none
  | .vl n l => if s.ag.laneUnsettled (.v n l) then some (0x18, n) else none
  | .vc q => if (lanesOf act).any fun l => (vcapLocs q l).any s.ag.laneUnsettled then some (0x18, 4 * q) else none
  | .s n => if s.ag.laneUnsettled (.s n) then some (0x18, n) else none
  | .c q => if (capLocs q).any s.ag.laneUnsettled then some (0x18, 4 * q) else none
  | .p n => if (lanesOf s.ag.issueMask).any fun l => s.ag.laneUnsettled (.p n l) then some (0x18, n) else none
  | .latch n => match s.ag.latches.getD n none with
    | none => some (0x19, n)
    | some l => if s.clk < l.eff then some (0x18, n) else none

/-- The read is of a lost latch (R72). -/
def State.readsLost (s : State) : LaneRead → Bool
  | .latch n => (s.ag.latches.getD n none).isNone
  | _ => false

/-- A trap raised by a lane instruction (R354, R356). -/
def State.laneTrap (s : State) (cause addr : Nat) (lanes : BitVec 32) (info : Nat) : Out :=
  .next (({ s with ag := { s.ag with pairing := .single, firstLatch := none } }).trapBeside
    ⟨cause, addr, lanes, info, true⟩)

/-- The issue of a lane instruction: the register budget (R60), hazard-check mode (R77), then the instruction with
its active lanes and the flag LL of lost latches read (R72). Hazard-check mode looks at the guard first, also that of an
instruction without an effect of its lanes such as a fence, then at the sources in order (log 94). -/
def State.laneIssue (s : State) (h : LaneHdr) (names : List Nat) (reads : List LaneRead)
    (k : BitVec 32 → Flags → Out) : Out :=
  let act := s.laneActive h
  match names.find? fun n => s.ag.budget ≤ n with
  | some n => s.laneTrap 0x02 0 act n
  | none =>
    match if s.ag.hchk then (.p h.gp :: reads).findSome? (s.laneHazard act) else none with
    | some e => s.laneTrap e.1 0 act e.2
    | none => k act (flagIf (act ≠ 0 && reads.any s.readsLost) flagLL)

/-! ### End of a lane instruction -/

/-- The head block goes on to its next instruction; at its end it leaves the queue and its token posts (R38, R39).
During a replay the replay goes on instead (R465); a step under focus counts in every entry. -/
def Agent.nextLane (a : Agent) : Agent :=
  match a.replays with
  | r :: rest => { a with replays := if r.n ≤ 1 then rest else { r with off := r.off + 1, n := r.n - 1 } :: rest }
  | [] =>
    let a : Agent := { a with focusStack := a.focusStack.map fun e => { e with n := e.n + 1 } }
    match a.blocks with
    | [] => a
    | b :: rest => if b.count ≤ b.idx + 1 then ({ a with blocks := rest }).post b.tk
        else { a with blocks := { b with idx := b.idx + 1 } :: rest }

/-- Results of a lane instruction: they take effect `lat` clk after its issue (R66), flags with them (R62). The
latches move once an issue slot (R70); the first of a pair leaves the move to the second. -/
def State.laneDone (s : State) (lat : Nat) (ws : List (Loc × Word)) (fl : Flags) (res : Option Latch) : Out :=
  let all := if fl = 0 then ws else ws ++ [(Loc.fsr, fl)]
  let a := (if all.isEmpty then s.ag else s.ag.later (s.clk + lat) all).nextLane
  let old := [a.latches.getD 0 none, a.latches.getD 1 none]
  match a.pairing with
  | .first => .next { s with ag := { a with firstLatch := res } }
  | .second _ =>
    .next ({ s with ag := { a with
      latches := [a.firstLatch, res] ++ old, firstLatch := none, pairing := .single } }).bump
  | .single => .next ({ s with ag := { a with latches := [res, none] ++ old } }).bump

/-- A lane instruction without a fixed-latency result ends its issue. -/
def State.laneNext (s : State) : State :=
  let a := s.ag.nextLane
  ({ s with ag := { a with
    latches := [none, none, a.latches.getD 0 none, a.latches.getD 1 none], pairing := .single,
    firstLatch := none } }).bump

/-- The words a lane's result is written to. -/
def dstWrites (pair : Bool) (d : Dst) (lane : Nat) (v : DWord) : List (Loc × Word) :=
  match d with
  | .none => []
  | .reg n => if pair then [(.v n lane, loWord v), (.v (n + 1) lane, hiWord v)] else [(.v n lane, loWord v)]

/-- The latch of a result given per lane. -/
def mkLatch (eff : Nat) (pair : Bool) (rs : List (Nat × DWord)) : Latch :=
  ⟨eff, pair, (List.range 32).map fun l => (rs.find? fun e => e.1 == l).map (·.2)⟩

/-- A compute instruction: `f` gives each active lane's result and flags; the result goes to `d` and to the latch of
its slot (R73). -/
def State.laneCompute (s : State) (act : BitVec 32) (ll : Flags) (d : Dst) (pair : Bool) (lat : Nat)
    (f : Nat → DWord × Flags) : Out :=
  let rs := (lanesOf act).map fun l => (l, f l)
  s.laneDone lat (rs.flatMap fun e => dstWrites pair d e.1 e.2.1)
    (ll ||| joinFlags (rs.map fun e => e.2.2))
    (some (mkLatch (s.clk + lat) pair (rs.map fun e => (e.1, e.2.1))))

/-- The token a lane instruction posts: none in a focus step or a replay that is not for the last lanes of em
(R465). -/
def State.laneTk (s : State) (tk : Option Nat) : Option Nat :=
  match s.ag.replays with
  | r :: _ => if r.posts then tk else none
  | [] => if s.ag.focusStack.all fun e => e.d == 0 then tk else none

end Sys2Proof.Machine
end

