-- ==== Sys2Proof/Machine/LaneFp.lean ====
section
/-!
DEFINITION. Floating-point lane instructions (09 R199 to R202): binary32, binary64, packed 16-bit forms.
-/

namespace Sys2Proof.Machine

/-! ### Shapes -/

/-- A result of a format as the value of its lane. -/
def fpOut (r : FRes) : DWord × Flags := (BitVec.ofNat 64 r.code, r.flags)

def State.fp1 (s : State) (f : Fmt) (h : LaneHdr) (d : Dst) (lat : Nat) (a : Src) (g : Nat → FRes) : Out :=
  let p := f.width == 64
  s.laneIssue h (dstNames p d ++ srcNames p a) (srcReads p a) fun act ll =>
    s.laneCompute act ll d p lat fun l => fpOut (g (s.srcFp f l a))

def State.fp2 (s : State) (f : Fmt) (h : LaneHdr) (d : Dst) (lat : Nat) (a b : Src) (g : Nat → Nat → FRes) : Out :=
  let p := f.width == 64
  s.laneIssue h (dstNames p d ++ srcNames p a ++ srcNames p b) (srcReads p a ++ srcReads p b) fun act ll =>
    s.laneCompute act ll d p lat fun l => fpOut (g (s.srcFp f l a) (s.srcFp f l b))

def State.fp3 (s : State) (f : Fmt) (h : LaneHdr) (d : Dst) (lat : Nat) (a b c : Src)
    (g : Nat → Nat → Nat → FRes) : Out :=
  let p := f.width == 64
  s.laneIssue h (dstNames p d ++ srcNames p a ++ srcNames p b ++ srcNames p c)
    (srcReads p a ++ srcReads p b ++ srcReads p c) fun act ll =>
    s.laneCompute act ll d p lat fun l => fpOut (g (s.srcFp f l a) (s.srcFp f l b) (s.srcFp f l c))

/-- An element of a packed register. -/
def elem (e x : Nat) : Nat := x / 2 ^ (16 * e) % 2 ^ 16

/-- Two element results in one register; the flags of both (R202). -/
def packOut (g : Nat → FRes) : DWord × Flags :=
  let r := g 0
  let t := g 1
  (BitVec.ofNat 64 (r.code + t.code * 2 ^ 16), r.flags ||| t.flags)

def State.packed2 (s : State) (f : Fmt) (h : LaneHdr) (d : Dst) (a b : Src) (g : Nat → Nat → FRes) : Out :=
  s.laneIssue h (dstNames false d ++ srcNames false a ++ srcNames false b) (srcReads false a ++ srcReads false b)
    fun act ll => s.laneCompute act ll d false 4 fun l =>
      let x := s.srcPacked f l a
      let y := s.srcPacked f l b
      packOut fun e => g (elem e x) (elem e y)

def State.packed3 (s : State) (f : Fmt) (h : LaneHdr) (d : Dst) (a b c : Src) (g : Nat → Nat → Nat → FRes) : Out :=
  s.laneIssue h (dstNames false d ++ srcNames false a ++ srcNames false b ++ srcNames false c)
    (srcReads false a ++ srcReads false b ++ srcReads false c)
    fun act ll => s.laneCompute act ll d false 4 fun l =>
      let x := s.srcPacked f l a
      let y := s.srcPacked f l b
      let z := s.srcPacked f l c
      packOut fun e => g (elem e x) (elem e y) (elem e z)

/-! ### Sign operations (R200) -/

/-- The sign bit of a code. -/
def Fmt.top (f : Fmt) : Nat := 2 ^ (f.exps + f.frac)

/-- The sign bit cleared; no flag, the payload kept. -/
def Fmt.absCode (f : Fmt) (x : Nat) : FRes := ⟨x % f.top, 0⟩

/-- The sign bit inverted; no flag, the payload kept. -/
def Fmt.negCode (f : Fmt) (x : Nat) : FRes := ⟨if x < f.top then x + f.top else x % f.top, 0⟩

/-! ### binary32 (R199) -/

def execFadd (h : LaneHdr) (d : Dst) (rnd : Rnd) (a b : Src) (s : State) : Out := s.fp2 .f32 h d 4 a b (Fmt.f32.add rnd)
def execFsub (h : LaneHdr) (d : Dst) (rnd : Rnd) (a b : Src) (s : State) : Out := s.fp2 .f32 h d 4 a b (Fmt.f32.sub rnd)
def execFmul (h : LaneHdr) (d : Dst) (rnd : Rnd) (a b : Src) (s : State) : Out := s.fp2 .f32 h d 4 a b (Fmt.f32.mul rnd)
def execFfma (h : LaneHdr) (d : Dst) (rnd : Rnd) (a b c : Src) (s : State) : Out :=
  s.fp3 .f32 h d 4 a b c (Fmt.f32.fma rnd)
def execFmin (h : LaneHdr) (d : Dst) (a b : Src) (s : State) : Out := s.fp2 .f32 h d 4 a b (Fmt.f32.pick false)
def execFmax (h : LaneHdr) (d : Dst) (a b : Src) (s : State) : Out := s.fp2 .f32 h d 4 a b (Fmt.f32.pick true)
def execFabs (h : LaneHdr) (d : Dst) (a : Src) (s : State) : Out := s.fp1 .f32 h d 4 a Fmt.f32.absCode
def execFneg (h : LaneHdr) (d : Dst) (a : Src) (s : State) : Out := s.fp1 .f32 h d 4 a Fmt.f32.negCode
def execFrcp (h : LaneHdr) (d : Dst) (rnd : Rnd) (a : Src) (s : State) : Out :=
  s.fp1 .f32 h d 12 a (Fmt.f32.div rnd Fmt.f32.one)
def execFrsq (h : LaneHdr) (d : Dst) (rnd : Rnd) (a : Src) (s : State) : Out := s.fp1 .f32 h d 12 a (Fmt.f32.rsqrt rnd)
def execFsqrt (h : LaneHdr) (d : Dst) (rnd : Rnd) (a : Src) (s : State) : Out := s.fp1 .f32 h d 24 a (Fmt.f32.sqrt rnd)
def execFdiv (h : LaneHdr) (d : Dst) (rnd : Rnd) (a b : Src) (s : State) : Out := s.fp2 .f32 h d 24 a b (Fmt.f32.div rnd)
def execFexp2 (h : LaneHdr) (d : Dst) (a : Src) (s : State) : Out := s.fp1 .f32 h d 12 a fexp2Res
def execFlog2 (h : LaneHdr) (d : Dst) (a : Src) (s : State) : Out := s.fp1 .f32 h d 12 a flog2Res

/-! ### binary64 (R201) -/

def execDadd (h : LaneHdr) (d : Dst) (rnd : Rnd) (a b : Src) (s : State) : Out := s.fp2 .f64 h d 8 a b (Fmt.f64.add rnd)
def execDsub (h : LaneHdr) (d : Dst) (rnd : Rnd) (a b : Src) (s : State) : Out := s.fp2 .f64 h d 8 a b (Fmt.f64.sub rnd)
def execDmul (h : LaneHdr) (d : Dst) (rnd : Rnd) (a b : Src) (s : State) : Out := s.fp2 .f64 h d 8 a b (Fmt.f64.mul rnd)
def execDfma (h : LaneHdr) (d : Dst) (rnd : Rnd) (a b c : Src) (s : State) : Out :=
  s.fp3 .f64 h d 8 a b c (Fmt.f64.fma rnd)
def execDmin (h : LaneHdr) (d : Dst) (a b : Src) (s : State) : Out := s.fp2 .f64 h d 8 a b (Fmt.f64.pick false)
def execDmax (h : LaneHdr) (d : Dst) (a b : Src) (s : State) : Out := s.fp2 .f64 h d 8 a b (Fmt.f64.pick true)
def execDdiv (h : LaneHdr) (d : Dst) (rnd : Rnd) (a b : Src) (s : State) : Out := s.fp2 .f64 h d 48 a b (Fmt.f64.div rnd)
def execDsqrt (h : LaneHdr) (d : Dst) (rnd : Rnd) (a : Src) (s : State) : Out := s.fp1 .f64 h d 48 a (Fmt.f64.sqrt rnd)

/-! ### Packed 16-bit forms and bdot2 (R202) -/

def execHadd2 (h : LaneHdr) (d : Dst) (rnd : Rnd) (a b : Src) (s : State) : Out :=
  s.packed2 .f16 h d a b (Fmt.f16.add rnd)
def execHmul2 (h : LaneHdr) (d : Dst) (rnd : Rnd) (a b : Src) (s : State) : Out :=
  s.packed2 .f16 h d a b (Fmt.f16.mul rnd)
def execHfma2 (h : LaneHdr) (d : Dst) (rnd : Rnd) (a b c : Src) (s : State) : Out :=
  s.packed3 .f16 h d a b c (Fmt.f16.fma rnd)
def execBadd2 (h : LaneHdr) (d : Dst) (rnd : Rnd) (a b : Src) (s : State) : Out :=
  s.packed2 .bf16 h d a b (Fmt.bf16.add rnd)
def execBmul2 (h : LaneHdr) (d : Dst) (rnd : Rnd) (a b : Src) (s : State) : Out :=
  s.packed2 .bf16 h d a b (Fmt.bf16.mul rnd)
def execBfma2 (h : LaneHdr) (d : Dst) (rnd : Rnd) (a b c : Src) (s : State) : Out :=
  s.packed3 .bf16 h d a b c (Fmt.bf16.fma rnd)

/-- `bdot2`: a and b packed BF16, c and the result binary32. -/
def execBdot2 (h : LaneHdr) (d : Dst) (rnd : Rnd) (a b c : Src) (s : State) : Out :=
  s.laneIssue h (dstNames false d ++ srcNames false a ++ srcNames false b ++ srcNames false c)
    (srcReads false a ++ srcReads false b ++ srcReads false c)
    fun act ll => s.laneCompute act ll d false 4 fun l =>
      let x := s.srcPacked .bf16 l a
      let y := s.srcPacked .bf16 l b
      fpOut (bdot2Res rnd (elem 0 x) (elem 0 y) (elem 1 x) (elem 1 y) (s.srcFp .f32 l c))

end Sys2Proof.Machine
end

