-- ==== Sys2Proof/Machine/LaneInt.lean ====
section
/-!
DEFINITION. Integer lane instructions (09 R196 to R198). An operand is taken from the low bits of its register, a
result of an 8-bit or 16-bit type is written extended (05 R107).
-/

namespace Sys2Proof.Machine

/-- The w-bit pattern of an operand. -/
def intPat (ty : Ty) (v : DWord) : Nat := v.toNat % 2 ^ ty.bits

/-- The value of an operand, signed or unsigned by type. -/
def intVal (ty : Ty) (v : DWord) : Int :=
  let n := intPat ty v
  if ty.isSigned && 2 ^ (ty.bits - 1) ≤ n then (n : Int) - 2 ^ ty.bits else n

/-- The low w bits of a result, extended to 32 bits for a narrow type (R107). -/
def intRes (ty : Ty) (x : Int) : DWord :=
  let n := (x % 2 ^ ty.bits).toNat
  if ty.bits < 32 && ty.isSigned && 2 ^ (ty.bits - 1) ≤ n then BitVec.ofNat 64 (n + 2 ^ 32 - 2 ^ ty.bits)
  else BitVec.ofNat 64 n

/-- A result that wraps, or with .sat is clamped and flagged (R107, R196). -/
def satRes (ty : Ty) (sat : Bool) (x : Int) : DWord × Flags :=
  if sat then
    let c := clampTo (tyLo ty) (tyHi ty) x
    (intRes ty c, flagIf (c ≠ x) flagSAT)
  else (intRes ty x, 0)

/-! ### Shapes -/

def State.int1 (s : State) (h : LaneHdr) (d : Dst) (ty : Ty) (lat : Nat) (a : Src) (f : DWord → DWord × Flags) : Out :=
  let p := ty.isPair
  s.laneIssue h (dstNames p d ++ srcNames p a) (srcReads p a) fun act ll =>
    s.laneCompute act ll d p lat fun l => f (s.srcInt p l a)

def State.int2 (s : State) (h : LaneHdr) (d : Dst) (ty : Ty) (lat : Nat) (a b : Src)
    (f : DWord → DWord → DWord × Flags) : Out :=
  let p := ty.isPair
  s.laneIssue h (dstNames p d ++ srcNames p a ++ srcNames p b) (srcReads p a ++ srcReads p b) fun act ll =>
    s.laneCompute act ll d p lat fun l => f (s.srcInt p l a) (s.srcInt p l b)

def State.int3 (s : State) (h : LaneHdr) (d : Dst) (ty : Ty) (lat : Nat) (a b c : Src)
    (f : DWord → DWord → DWord → DWord × Flags) : Out :=
  let p := ty.isPair
  s.laneIssue h (dstNames p d ++ srcNames p a ++ srcNames p b ++ srcNames p c)
    (srcReads p a ++ srcReads p b ++ srcReads p c) fun act ll =>
    s.laneCompute act ll d p lat fun l => f (s.srcInt p l a) (s.srcInt p l b) (s.srcInt p l c)

/-- A result computed on bit patterns, without a flag. -/
def patRes (ty : Ty) (n : Nat) : DWord × Flags := (intRes ty n, 0)

/-! ### Arithmetic (R196) -/

def execIadd (h : LaneHdr) (d : Dst) (ty : Ty) (sat : Bool) (a b : Src) (s : State) : Out :=
  s.int2 h d ty 2 a b fun x y => satRes ty sat (intVal ty x + intVal ty y)

def execIsub (h : LaneHdr) (d : Dst) (ty : Ty) (sat : Bool) (a b : Src) (s : State) : Out :=
  s.int2 h d ty 2 a b fun x y => satRes ty sat (intVal ty x - intVal ty y)

def execImul (h : LaneHdr) (d : Dst) (ty : Ty) (sat : Bool) (a b : Src) (s : State) : Out :=
  s.int2 h d ty 4 a b fun x y => satRes ty sat (intVal ty x * intVal ty y)

/-- Bits [2w-1:w] of the exact product. -/
def execImulhi (h : LaneHdr) (d : Dst) (ty : Ty) (a b : Src) (s : State) : Out :=
  s.int2 h d ty 4 a b fun x y => (intRes ty (intVal ty x * intVal ty y / 2 ^ ty.bits), 0)

def execImad (h : LaneHdr) (d : Dst) (ty : Ty) (sat : Bool) (a b c : Src) (s : State) : Out :=
  s.int3 h d ty 4 a b c fun x y z => satRes ty sat (intVal ty x * intVal ty y + intVal ty z)

def execImin (h : LaneHdr) (d : Dst) (ty : Ty) (a b : Src) (s : State) : Out :=
  s.int2 h d ty 2 a b fun x y => (intRes ty (min (intVal ty x) (intVal ty y)), 0)

def execImax (h : LaneHdr) (d : Dst) (ty : Ty) (a b : Src) (s : State) : Out :=
  s.int2 h d ty 2 a b fun x y => (intRes ty (max (intVal ty x) (intVal ty y)), 0)

def execIabs (h : LaneHdr) (d : Dst) (ty : Ty) (sat : Bool) (a : Src) (s : State) : Out :=
  s.int1 h d ty 2 a fun x => satRes ty sat ((intVal ty x).natAbs)

def execIneg (h : LaneHdr) (d : Dst) (ty : Ty) (sat : Bool) (a : Src) (s : State) : Out :=
  s.int1 h d ty 2 a fun x => satRes ty sat (-intVal ty x)

/-! ### Logic and selection -/

def execIand (h : LaneHdr) (d : Dst) (ty : Ty) (a b : Src) (s : State) : Out :=
  s.int2 h d ty 2 a b fun x y => patRes ty (x &&& y).toNat

def execIor (h : LaneHdr) (d : Dst) (ty : Ty) (a b : Src) (s : State) : Out :=
  s.int2 h d ty 2 a b fun x y => patRes ty (x ||| y).toNat

def execIxor (h : LaneHdr) (d : Dst) (ty : Ty) (a b : Src) (s : State) : Out :=
  s.int2 h d ty 2 a b fun x y => patRes ty (x ^^^ y).toNat

def execIandn (h : LaneHdr) (d : Dst) (ty : Ty) (a b : Src) (s : State) : Out :=
  s.int2 h d ty 2 a b fun x y => patRes ty (x &&& ~~~y).toNat

def execInot (h : LaneHdr) (d : Dst) (ty : Ty) (a : Src) (s : State) : Out :=
  s.int1 h d ty 2 a fun x => patRes ty (~~~x).toNat

/-- c chooses a or b, lane by lane. -/
def execIsel (h : LaneHdr) (d : Dst) (ty : Ty) (a b : Src) (p : Nat) (s : State) : Out :=
  let q := ty.isPair
  s.laneIssue h (dstNames q d ++ srcNames q a ++ srcNames q b) (srcReads q a ++ srcReads q b ++ [.p p]) fun act ll =>
    s.laneCompute act ll d q 2 fun l =>
      patRes ty (if s.rd (.p p l) = 0 then s.srcInt q l b else s.srcInt q l a).toNat

/-! ### Shifts (R197): the amount is b[7:0] -/

/-- The amount of a shift. -/
def shiftAmount (b : DWord) : Nat := b.toNat % 256

def execIshl (h : LaneHdr) (d : Dst) (ty : Ty) (a b : Src) (s : State) : Out :=
  s.int2 h d ty 2 a b fun x y =>
    patRes ty (if ty.bits ≤ shiftAmount y then 0 else intPat ty x * 2 ^ shiftAmount y)

def execIshr (h : LaneHdr) (d : Dst) (ty : Ty) (a b : Src) (s : State) : Out :=
  s.int2 h d ty 2 a b fun x y => patRes ty (intPat ty x / 2 ^ shiftAmount y)

/-- The pattern read as signed, whatever the type. -/
def signedPat (ty : Ty) (x : DWord) : Int :=
  let n := intPat ty x
  if 2 ^ (ty.bits - 1) ≤ n then (n : Int) - 2 ^ ty.bits else n

def execIsra (h : LaneHdr) (d : Dst) (ty : Ty) (a b : Src) (s : State) : Out :=
  s.int2 h d ty 2 a b fun x y => (intRes ty (signedPat ty x / 2 ^ shiftAmount y), 0)

/-! ### Counts, reversal, permutation, fields -/

/-- Number of set bits. -/
def laneOnes (n : Nat) : Nat → Nat
  | 0 => 0
  | w + 1 => (if n.testBit w then 1 else 0) + laneOnes n w

/-- Leading zeros within w bits. -/
def laneZeros (n : Nat) : Nat → Nat
  | 0 => 0
  | w + 1 => if n.testBit w then 0 else 1 + laneZeros n w

/-- The w bits reversed: bit k comes from bit w0-1-k. -/
def reverseBits (w0 n : Nat) : Nat :=
  (List.range w0).foldl (fun r k => if n.testBit (w0 - 1 - k) then r + 2 ^ k else r) 0

def execIpopc (h : LaneHdr) (d : Dst) (ty : Ty) (a : Src) (s : State) : Out :=
  s.int1 h d ty 4 a fun x => patRes ty (laneOnes (intPat ty x) ty.bits)

def execIclz (h : LaneHdr) (d : Dst) (ty : Ty) (a : Src) (s : State) : Out :=
  s.int1 h d ty 4 a fun x => patRes ty (laneZeros (intPat ty x) ty.bits)

def execLaneBrev (h : LaneHdr) (d : Dst) (ty : Ty) (a : Src) (s : State) : Out :=
  s.int1 h d ty 4 a fun x => patRes ty (reverseBits ty.bits (intPat ty x))

/-- One byte of `prmt` under its control byte n (R197). -/
def prmtByte (a b n : Nat) : Nat :=
  let src := if n.testBit 4 then b else a
  let y := src / 2 ^ (8 * (n % 4)) % 256
  let r := if n.testBit 5 then reverseBits 8 y else y
  if n.testBit 3 then (if n.testBit 2 then 0xFF else 0)
  else if n.testBit 2 then 255 - r else r

def prmtWord (a b c : Nat) : Nat :=
  ((List.range 4).map fun k => prmtByte a b (c / 2 ^ (8 * k) % 256) * 2 ^ (8 * k)).sum

def execPrmt (h : LaneHdr) (d : Dst) (a b c : Src) (s : State) : Out :=
  s.int3 h d .n32 4 a b c fun x y z => patRes .n32 (prmtWord (intPat .n32 x) (intPat .n32 y) (intPat .n32 z))

/-- Position and length of a bit field (R197). -/
def fieldCtl (w : Nat) (c : DWord) : Nat × Nat :=
  let k := if w = 64 then 6 else 5
  let pos := c.toNat % 2 ^ k
  (pos, min (c.toNat / 2 ^ k % 2 ^ (k + 1)) (w - pos))

def execLaneBfe (h : LaneHdr) (d : Dst) (ty : Ty) (a b : Src) (s : State) : Out :=
  s.int2 h d ty 4 a b fun x y =>
    let (pos, len) := fieldCtl ty.bits y
    let f := intPat ty x / 2 ^ pos % 2 ^ len
    if len = 0 then (0, 0)
    else if ty.isSigned && f.testBit (len - 1) then (intRes ty ((f : Int) - 2 ^ len), 0) else patRes ty f

def execLaneBfi (h : LaneHdr) (d : Dst) (ty : Ty) (a b c : Src) (s : State) : Out :=
  s.int3 h d ty 4 a b c fun x y z =>
    let (pos, len) := fieldCtl ty.bits z
    let m := (2 ^ len - 1) * 2 ^ pos
    let y := intPat ty y
    patRes ty (y - (y &&& m) + x.toNat % 2 ^ len * 2 ^ pos)

/-- The sum of products of bytes (R198): signed for .i32, unsigned for .n32. -/
def dotBytes (ty : Ty) (x y : DWord) : Int :=
  let t : Ty := if ty.isSigned then .i8 else .n8
  ((List.range 4).map fun k => intVal t (x >>> (8 * k)) * intVal t (y >>> (8 * k))).sum

def execIdp4 (h : LaneHdr) (d : Dst) (ty : Ty) (sat : Bool) (a b c : Src) (s : State) : Out :=
  s.int3 h d ty 4 a b c fun x y z => satRes ty sat (intVal ty z + dotBytes ty x y)

end Sys2Proof.Machine
end

