-- ==== Sys2Proof/Machine/Exchange.lean ====
section
/-!
DEFINITION. Exchange among the lanes of a group (09 R212 to R218). Each value is read at the instruction's issue.
-/

namespace Sys2Proof.Machine

/-- The source lane of `shfl` for lane `l` under control `n` (R213). -/
def shflLane (mode : ShflMode) (l n : Nat) : Nat :=
  let g := n / 2 ^ 8 % 8
  let w := if g = 0 || 5 < g then 32 else 2 ^ g
  let k := n % 32
  let r := l % w
  l - r + (match mode with
    | .idx => k % w
    | .rotl => (r + k) % w
    | .rotr => (r + 32 - k) % w
    | .xor => (r ^^^ k) % w)

def execShfl (h : LaneHdr) (mode : ShflMode) (d : Dst) (a b : Src) (s : State) : Out :=
  let from_ := fun l => shflLane mode l (s.srcInt false l b).toNat
  let reads := match a with
    | .vreg n => (lanesOf (s.laneActive h)).map fun l => LaneRead.vl n (from_ l)
    | a => srcReads false a
  s.laneIssue h (dstNames false d ++ srcNames false a ++ srcNames false b) (reads ++ srcReads false b) fun act ll =>
    s.laneCompute act ll d false 6 fun l => (s.srcInt false (from_ l) a, 0)

/-- The mask of the active lanes for which `f` holds. -/
def maskOf (act : BitVec 32) (f : Nat → Bool) : Word :=
  (lanesOf act).foldl (fun m l => if f l then m ||| laneBit l else m) 0

/-- The result of `vote` over the active lanes (R214). -/
def voteValue (mode : VoteMode) (act yes : Word) : Word :=
  match mode with
  | .all => bit01 (yes == act)
  | .any => bit01 (yes != 0)
  | .same => bit01 (yes == act || yes == 0)
  | .cnt => BitVec.ofNat 32 (laneOnes yes.toNat 32)

/-- A lane instruction whose results are known at its issue and reach their registers when its token posts. -/
def State.laneTold (s : State) (tk : Nat) (ws : List (Loc × Word)) : Out :=
  .next (s.endWith true (s.laneTk (some tk)) ws).laneNext

def execVote (h : LaneHdr) (mode : VoteMode) (d p tk : Nat) (s : State) : Out :=
  s.laneIssue h [] [.p p] fun act _ =>
    s.laneTold tk [(.s d, voteValue mode act (maskOf act fun l => s.rd (.p p l) != 0))]

def execVballot (h : LaneHdr) (d : Dst) (p : Nat) (s : State) : Out :=
  s.laneIssue h (dstNames false d) [.p p] fun act ll =>
    let m := maskOf act fun l => s.rd (.p p l) != 0
    s.laneCompute act ll d false 6 fun _ => (m.setWidth 64, 0)

/-! ### Reductions (R216, R217) -/

/-- Combination of two values of a reduction, with its flags. -/
def redComb (op : RedOp) (ty : Ty) (x y : DWord) : DWord × Flags :=
  if ty == .f32 then
    let a := x.toNat % 2 ^ 32
    let b := y.toNat % 2 ^ 32
    fpOut (match op with
      | .min => Fmt.f32.pick false a b
      | .max => Fmt.f32.pick true a b
      | _ => Fmt.f32.add .rne a b)
  else match op with
    | .add => (intRes ty (intVal ty x + intVal ty y), 0)
    | .min => (intRes ty (min (intVal ty x) (intVal ty y)), 0)
    | .max => (intRes ty (max (intVal ty x) (intVal ty y)), 0)
    | .and => patRes ty (x &&& y).toNat
    | .or => patRes ty (x ||| y).toNat
    | .xor => patRes ty (x ^^^ y).toNat

/-- The identity of a reduction (R216). -/
def redIdentity (op : RedOp) (ty : Ty) : DWord :=
  if ty == .f32 then
    match op with
    | .min => BitVec.ofNat 64 Fmt.f32.infCode
    | .max => BitVec.ofNat 64 (Fmt.f32.sign true + Fmt.f32.infCode)
    | _ => 0
  else match op with
    | .and => intRes ty (-1)
    | .min => intRes ty (tyHi ty)
    | .max => intRes ty (tyLo ty)
    | _ => 0

/-- A value that may be absent, and the flags so far. -/
abbrev RedVal := Option DWord × Flags

def redPair (op : RedOp) (ty : Ty) (x y : RedVal) : RedVal :=
  match x.1, y.1 with
  | some a, some b => let r := redComb op ty a b
    (some r.1, x.2 ||| y.2 ||| r.2)
  | some a, none => (some a, x.2 ||| y.2)
  | none, b => (b, x.2 ||| y.2)

/-- One level of the tree. -/
def redLevel (op : RedOp) (ty : Ty) : List RedVal → List RedVal
  | x :: y :: r => redPair op ty x y :: redLevel op ty r
  | l => l

/-- The fixed tree of R216 over 32 places. -/
def redTree (op : RedOp) (ty : Ty) (l : List RedVal) : RedVal :=
  let f := redLevel op ty
  (f (f (f (f (f l))))).headD (none, 0)

/-- A result of a reduction: a NaN is the canonical one (R106). -/
def redOut (ty : Ty) (v : DWord) : DWord :=
  if ty == .f32 && (Fmt.f32.read (v.toNat % 2 ^ 32)).isNan then BitVec.ofNat 64 Fmt.f32.nan else v

/-- A signalling NaN among the inputs sets NV, also where it is combined with no other value: R111 names the input, R216
the combination (log 94). -/
def redSignals (ty : Ty) (vs : List DWord) : Flags :=
  flagIf (ty == .f32 && vs.any fun v => (Fmt.f32.read (v.toNat % 2 ^ 32)).isSig) flagNV

/-- Operand of a reduction. -/
def State.redSrc (s : State) (ty : Ty) (lane : Nat) (a : Src) : DWord :=
  if ty == .f32 then BitVec.ofNat 64 (s.srcFp .f32 lane a) else s.srcInt ty.isPair lane a

/-- The words of a scalar result. -/
def scalarOut (ty : Ty) (d : Nat) (v : DWord) : List (Loc × Word) :=
  if ty.isPair then [(.s d, loWord v), (.s (d + 1), hiWord v)] else [(.s d, loWord v)]

/-- Flags as a write, when there are any. -/
def flagWrites (f : Flags) : List (Loc × Word) := if f = 0 then [] else [(.fsr, f)]

def execLred (h : LaneHdr) (op : RedOp) (ty : Ty) (d : Nat) (a : Src) (tk : Nat) (s : State) : Out :=
  let p := ty.isPair
  s.laneIssue h (srcNames p a) (srcReads p a) fun act ll =>
    let r := redTree op ty ((List.range 32).map fun l =>
      (if act.getLsbD l then some (s.redSrc ty l a) else none, 0))
    s.laneTold tk (scalarOut ty d (redOut ty (r.1.getD (redIdentity op ty)))
      ++ flagWrites (ll ||| r.2 ||| redSignals ty ((lanesOf act).map fun l => s.redSrc ty l a)))

/-- The prefix over ascending lanes: the running value, the results so far (lane, value), the flags of the values
delivered. -/
structure ScanAcc where
  run : Option DWord
  runFlags : Flags
  out : List (Nat × DWord)
  flags : Flags

/-- One more lane of a prefix. -/
def ScanAcc.step (op : RedOp) (ty : Ty) (incl : Bool) (z : ScanAcc) (lane : Nat) (v : DWord) : ScanAcc :=
  let n := redPair op ty (z.run, z.runFlags) (some v, 0)
  let given := if incl then n else (z.run, z.runFlags)
  ⟨n.1, n.2, z.out ++ [(lane, redOut ty (given.1.getD (redIdentity op ty)))], z.flags ||| given.2⟩

def execLscan (h : LaneHdr) (op : RedOp) (ty : Ty) (incl : Bool) (d : Nat) (a : Src) (total : Option Nat) (tk : Nat)
    (s : State) : Out :=
  let p := ty.isPair
  s.laneIssue h (dstNames p (.reg d) ++ srcNames p a) (srcReads p a) fun act ll =>
    let z := (lanesOf act).foldl (fun (z : ScanAcc) l => z.step op ty incl l (s.redSrc ty l a))
      ⟨none, 0, [], 0⟩
    let tot := match total with
      | none => []
      | some t => scalarOut ty t (redOut ty (z.run.getD (redIdentity op ty)))
    s.laneTold tk (z.out.flatMap (fun e => dstWrites p (.reg d) e.1 e.2) ++ tot
      ++ flagWrites (ll ||| z.flags ||| (if total.isSome then z.runFlags else 0)
        ||| redSignals ty ((lanesOf act).map fun l => s.redSrc ty l a)))

def execLaneMatch (h : LaneHdr) (ty : Ty) (d : Dst) (a : Src) (s : State) : Out :=
  let p := ty.isPair
  s.laneIssue h (dstNames false d ++ srcNames p a) (srcReads p a) fun act ll =>
    s.laneCompute act ll d false 8 fun l =>
      ((maskOf act fun j => intPat ty (s.srcInt p j a) == intPat ty (s.srcInt p l a)).setWidth 64, 0)

end Sys2Proof.Machine
end

