-- ==== Sys2Proof/Machine/Divergence.lean ====
section
/-!
DEFINITION. Divergence (09 R219 to R222) and what `lbrx` sends to spawn memory or into fault groups (02 R46 to R51).
-/

namespace Sys2Proof.Machine

/-- `lend` (R219): the masks change when the token would post; until then the lane stream issues nothing. -/
def execLend (h : LaneHdr) (tk : Option Nat) (s : State) : Out :=
  s.laneIssue h [] [] fun act _ =>
    .next (s.enqueue true .lane .rlx .grp (s.laneTk tk) (.lend act) [.em, .lm]).laneNext

/-! ### Targets (R220) -/

/-- What a lane's target comes to: live quads; a cause with its xinfo; a first touch to be made. -/
inductive Target
  | ok (quads : List Nat)
  | bad (cause info : Nat)
  | touch (va at_ pte size : Nat)
  deriving DecidableEq, Repr

/-- A word of code: the bytes at `va`, fetched as a scalar instruction is (R163, R376). -/
inductive CodeWord
  | word (w : Nat)
  | bad (cause : Nat)
  | touch (at_ pte size : Nat)
  deriving DecidableEq, Repr

/-- Fetches one word of code through capability `c` (R95, R376). -/
def State.codeWord (s : State) (c : Cap) (va : Nat) : CodeWord :=
  match s.xlateMine { c.want false with fetch := true } va with
  | .ok pa o _ _ => .word (s.codeAt o pa)
  | .absent => .bad 0x10
  | .touch a p z => .touch a p z
  | .fail cause => .bad cause

/-- The checks of R172 on `c` with its cursor at `t`. -/
def Cap.checkJumpAt (c : Cap) (t : Nat) : Option Nat :=
  if !c.tag then some 0x08
  else if c.sealType ≠ 0 && c.sealType ≠ 9 then some 0x09
  else if !c.has permXS then some 0x0A
  else if t < c.base || c.top < t + 4 then some 0x0B
  else if t % 4 ≠ 0 then some 0x0C
  else none

/-- NW of a landing marker (R147, R152); none when the word is no marker. -/
def landWords (w : Nat) : Option Nat :=
  if w / 2 ^ 26 = 0x17 && w / 2 ^ 22 % 16 ≤ 8 && w % 2 ^ 22 = 0 then some (w / 2 ^ 22 % 16) else none

/-- The quads a bitmap word marks (R152). -/
def markedQuads (k w : Nat) : List Nat := ((List.range 32).filter fun b => w.testBit b).map fun b => 32 * k + b

/-- The bitmap words that follow a marker, from word `k` on. -/
def State.bitmapWords (s : State) (c : Cap) (t : Nat) : Nat → Nat → List Nat → Target
  | 0, _, quads =>
    match quads.find? fun q => s.ag.budget ≤ 4 * q + 3 with
    | some q => .bad 0x02 (max (4 * q) s.ag.budget)
    | none => .ok quads
  | n + 1, k, quads =>
    let va := t + 4 + 4 * k
    if c.top < va + 4 then .bad 0x0B kindFetch
    else match s.codeWord c va with
      | .word w => s.bitmapWords c t n (k + 1) (quads ++ markedQuads k w)
      | .bad cause => .bad cause kindFetch
      | .touch a p z => .touch va a p z

/-- The checks of R220 on one target, in order. -/
def State.checkTarget (s : State) (c : Cap) (t : Nat) : Target :=
  match c.checkJumpAt t with
  | some cause => .bad cause kindFetch
  | none =>
    match s.codeWord c t with
    | .bad cause => .bad cause kindFetch
    | .touch a p z => .touch t a p z
    | .word w =>
      match landWords w with
      | none => .bad 0x0D kindFetch
      | some nw => s.bitmapWords c t nw 0 []

/-! ### The choice of the target that continues (R46) -/

/-- Lanes with their targets: the target most lanes hold, the one of the lowest lane on a tie. -/
def winner (ps : List (Nat × Nat)) : Option Nat :=
  let count := fun t => (ps.filter fun p => p.2 == t).length
  match ps with
  | [] => none
  | p :: r => some (r.foldl (fun best q => if count best < count q.2 then q.2 else best) p.2)

/-! ### Spawn memory (R46, R47, R49) -/

/-- A thread of lane `l` with its live quads, as read at the issue of the `lbrx`. -/
def State.threadOf (s : State) (l order : Nat) (quads : List Nat) : Thread :=
  let cs := quads.map fun q => (q, s.ag.rdVcap s.fresh q l)
  ⟨cs.flatMap fun e => (List.range 4).map fun k => (4 * e.1 + k, e.2.bits.extractLsb' (32 * k) 32),
   (cs.filter fun e => e.2.tag).map (·.1), order⟩

/-- The place of a thread in arrival order: the clk, then logical core, partition and slot, then source lane (R47). -/
def State.arrivalOrder (s : State) (lane : Nat) : Nat :=
  (((s.clk * 48 + s.ag.core) * 12 + s.ag.part) * 12 + s.ag.slot) * 32 + lane

/-! ### Fault groups (R51, R359) -/

/-- The entries of a lane-indexed register file that belong to the given lanes. -/
def keepLanes (m : BitVec 32) (f : Sparse Word) : Sparse Word := f.filter fun e => m.getLsbD (e.1 % 32)

/-- Masks restricted to the given lanes. -/
def keepMasks (m : BitVec 32) (f : Sparse (BitVec 32)) : Sparse (BitVec 32) :=
  f.filterMap fun e => if e.2 &&& m = 0 then none else some (e.1, e.2 &&& m)

/-- The fault group for the lanes `m`, with the trap it takes when it starts; its PC is what its parent's xpc would be
(R338, R359). What no rule gives it starts as in a group at creation (log 10). -/
def State.faultGroup (s : State) (m : BitVec 32) (cause addr info : Nat) : Agent :=
  let p := s.rewound s.ag.settle
  let b := p.blocks.head?
  { Agent.blank 0 .faultGroup with
    resident := false
    die := p.die, core := p.core, part := p.part, cpart := p.cpart, team := p.team, launch := p.launch,
    g := p.g, role := p.role, budget := p.budget, pid := p.pid, tid := p.tid, space := p.space
    pcc := p.pcc
    sregs := p.sregs
    ctags := p.ctags
    vregs := keepLanes m p.vregs
    vtags := keepMasks m p.vtags
    preds := keepMasks m p.preds
    em := m
    lm := m
    toks := p.toks
    ktk := p.ktk
    xstat := xstatInit p.domain p.bmode true p.hchk
    kentry := p.kentry
    kscr := p.kscr
    blocks := match b with
      | none => []
      | some b => [⟨b.cap, b.start + 12 * b.idx, 1, 0, none, b.mark⟩]
    heldFaults := [(⟨cause, addr, m, info, true⟩, none)] }

/-- The causes among failing lanes, each once, in order of first lane. -/
def causesOf (fs : List (Nat × Nat × Nat × Nat)) : List Nat :=
  fs.foldl (fun cs f => if cs.contains f.2.1 then cs else cs ++ [f.2.1]) []

/-- The fault groups of the failing lanes: lane, cause, target, xinfo. One per cause; xaddr and xinfo are those of its
lowest lane. -/
def State.faultGroups (s : State) (fs : List (Nat × Nat × Nat × Nat)) : List Agent :=
  (causesOf fs).map fun c =>
    let mine := fs.filter fun f => f.2.1 == c
    let m := mine.foldl (fun m f => m ||| laneBit f.1) (0 : BitVec 32)
    let lead := mine.headD (0, c, 0, 0)
    s.faultGroup m c (lead.2.2.1 % 2 ^ 64) lead.2.2.2

/-! ### lbrx (R220, R221) -/

/-- The lanes with their checked targets: lane, target, outcome. -/
def State.lbrxTargets (s : State) (act : BitVec 32) (t : Nat) (c : Cap) : List (Nat × Nat × Target) :=
  (lanesOf act).map fun l =>
    let a := c.addr + (s.rd (.v t l)).toNat
    (l, a, s.checkTarget c a)

/-- The lanes whose target fails, with cause, target and xinfo. -/
def lbrxFails (ts : List (Nat × Nat × Target)) : List (Nat × Nat × Nat × Nat) :=
  ts.filterMap fun x => match x.2.2 with
    | .bad cause info => some (x.1, cause, x.2.1, info)
    | _ => none

/-- The lanes whose target passes, with target and live quads. -/
def lbrxPass (ts : List (Nat × Nat × Target)) : List (Nat × Nat × List Nat) :=
  ts.filterMap fun x => match x.2.2 with
    | .ok quads => some (x.1, x.2.1, quads)
    | _ => none

/-- The target that wins (R46). -/
def lbrxWin (ts : List (Nat × Nat × Target)) : Option Nat := winner ((lbrxPass ts).map fun x => (x.1, x.2.1))

/-- The lanes that move to spawn memory. -/
def lbrxMovers (ts : List (Nat × Nat × Target)) : List (Nat × Nat × List Nat) :=
  (lbrxPass ts).filter fun x => some x.2.1 != lbrxWin ts

/-- The threads that move (R221). -/
def State.movingThreads (s : State) (c : Cap) (ms : List (Nat × Nat × List Nat)) : List Arriving :=
  ms.map fun x => ⟨x.2.1, s.ag.role, c.withAddr x.2.1, s.threadOf x.1 (s.arrivalOrder x.1) x.2.2⟩

/-- The lanes that leave the group. -/
def lbrxLeaving (ts : List (Nat × Nat × Target)) : BitVec 32 :=
  ((lbrxFails ts).map (·.1) ++ (lbrxMovers ts).map (·.1)).foldl (fun m l => m ||| laneBit l) 0

/-- The effects of `lbrx` once every target is checked. -/
def State.lbrxGo (s : State) (c : Cap) (tk : Nat) (ts : List (Nat × Nat × Target)) : State :=
  let s1 := s.updTeam s.ag.team fun t =>
    { t with
      arriving := (s.movingThreads c (lbrxMovers ts)).foldl (fun xs x => arriveInsert x xs) t.arriving
      faults := t.faults ++ s.faultGroups (lbrxFails ts) }
  let s2 := s1.enqueue true .lane .rlx .grp (s.laneTk (some tk))
    (.lbrx (lbrxLeaving ts) ((lbrxWin ts).map fun t => (c.withAddr t).withSeal 0)) [.em, .lm]
  let s3 := s2.laneNext
  { s3 with ag := { (s3.ag.blocks.foldl (fun a b => a.post b.tk) s3.ag) with blocks := [] } }

/-- A live quad of a moving thread that hazard-check mode finds unsettled (R77, R195, R221). -/
def State.moverHazard (s : State) (ts : List (Nat × Nat × Target)) : Option Nat :=
  if s.ag.hchk then
    (lbrxMovers ts).findSome? fun x => x.2.2.find? fun q => (vcapLocs q x.1).any s.ag.unsettled
  else none

/-- Spawn memory has room for the threads that move (R390). -/
def State.moversFit (s : State) (c : Cap) (ts : List (Nat × Nat × Target)) : Bool :=
  lbrxMovers ts == [] || (s.launch? s.ag.launch).all fun l =>
    s.spillFits l.ctx ((s.movingThreads c (lbrxMovers ts)).map (·.thread))

/-- First touches of targets (R384): the frame is taken and the `lbrx` issues again, or it waits; a lane whose pool
declined fails with 0x10. -/
def State.resolveTargets (s : State) (c : Cap) (acc : List (Nat × Nat × Target)) :
    List (Nat × Nat × Target) → Except State (State × List (Nat × Nat × Target))
  | [] => .ok (s, acc)
  | x :: r =>
    match x.2.2 with
    | .touch va a p z =>
      (match s.touchFor true kindFetch ⟨x.1, c, (va : Int), [], 0, 0, false⟩ a p z with
      | .again s' => .error s'
      | .ok s' _ => .error s'
      | .trap s' _ => s'.resolveTargets c (acc ++ [(x.1, x.2.1, .bad 0x10 kindFetch)]) r)
    | _ => s.resolveTargets c (acc ++ [x]) r

/-- `lbrx`: it must be the last instruction of its block (0x01). It stalls while spawn memory has no room (R390). -/
def execLbrx (h : LaneHdr) (t c tk : Nat) (s : State) : Out :=
  s.laneIssue h [t] [.v t, .c c] fun act _ =>
    if s.ag.blocks.head?.any fun b => b.idx + 1 < b.count then s.laneTrap 0x01 0 act 0
    else match s.resolveTargets (s.rc c) [] (s.lbrxTargets act t (s.rc c)) with
      | .error s' => .next s'
      | .ok (s', ts) =>
        match s'.moverHazard ts with
        | some q => s'.laneTrap 0x18 0 act (4 * q)
        | none => .next (if s'.moversFit (s.rc c) ts then s'.lbrxGo (s.rc c) tk ts else s'.makeSpawnRoom s.ag.team)

end Sys2Proof.Machine
end

