-- ==== Sys2Proof/Machine/LaneMem.lean ====
section
/-!
DEFINITION. Lane memory instructions, atomics and fences at their issue (10 R224 to R248). What they do to memory is
done at their completion (`LANE_MEMORY_COMPLETION`).
-/

namespace Sys2Proof.Machine

/-! ### Shared forms -/

/-- The outcome of an instruction's checks: a trap, another issue, or an outstanding operation. -/
def State.laneChecked (s : State) (c : Checked) (ord : Ord) (scope : Scope) (tk : Option Nat) (ll : Flags)
    (kind : List Acc → OpKind) (dests : List Loc) : Out :=
  match c with
  | .trap s1 t => .next (({ s1 with ag := { s1.ag with pairing := .single, firstLatch := none } }).trapBeside t)
  | .again s' => .next s'
  | .ok s' accs =>
    if s'.roomFor (kind accs) then
      let s1 := (s'.issueMem true scope (kind accs)).enqueue true .lane ord scope (s.laneTk tk) (kind accs) dests
      .next ({ s1 with ag := s1.ag.put .fsr ll }).laneNext
    else .next s'

/-- The effective address of a lane, exactly (R226). -/
def State.laneEa (s : State) (l : Nat) (cap : CapSrc) (off : Src) (imm : Int) : Int :=
  (s.srcCap l cap).addr + (loWord (s.srcInt false l off)).toInt + imm

/-- The places a result of the given type takes in the active lanes. -/
def vregLocs (act : BitVec 32) (pair : Bool) (d : Nat) : List Loc :=
  (lanesOf act).flatMap fun l => if pair then [.v d l, .v (d + 1) l] else [.v d l]

/-- A global load of any kind (R236 to R239). -/
def State.laneLoad (s : State) (h : LaneHdr) (names : List Nat) (size : Nat) (tolerant : Bool) (need : List Nat)
    (ord : Ord) (scope : Scope) (cap : CapSrc) (off : Src) (imm : Int) (tk : Option Nat)
    (kind : List Acc → OpKind) (dests : BitVec 32 → List Loc) (info : Nat) : Out :=
  s.laneIssue h (names ++ capNames cap ++ srcNames false off) (capReads cap ++ srcReads false off) fun act ll =>
    s.laneChecked (s.checkAccess true info size size false tolerant ((lanesOf act).map fun l =>
      ⟨l, s.srcCap l cap, s.laneEa l cap off imm, need, 0, 0, false⟩)) ord scope tk ll kind (dests act)

/-! ### Global loads and stores (R236 to R239) -/

def execLd (h : LaneHdr) (ty : Ty) (ord : Ord) (scope : Scope) (ro : Bool) (d : Nat) (cap : CapSrc) (off : Src)
    (imm : Int) (tk : Option Nat) (s : State) : Out :=
  s.laneLoad h (dstNames ty.isPair (.reg d)) (ty.bits / 8) false AccessKind.load.need ord scope cap off imm tk
    (fun accs => .mem .load ty (.vreg d) accs ro) (fun act => vregLocs act ty.isPair d) kindLoad

def execSt (h : LaneHdr) (ty : Ty) (ord : Ord) (scope : Scope) (data : Src) (cap : CapSrc) (off : Src) (imm : Int)
    (tk : Option Nat) (s : State) : Out :=
  let p := ty.isPair
  s.laneIssue h (capNames cap ++ srcNames false off ++ srcNames p data)
    (capReads cap ++ srcReads false off ++ srcReads p data) fun act ll =>
    s.laneChecked (s.checkAccess true kindStore (ty.bits / 8) (ty.bits / 8) true false ((lanesOf act).map fun l =>
      ⟨l, s.srcCap l cap, s.laneEa l cap off imm, AccessKind.store.need, (s.srcInt p l data).toNat, 0, false⟩))
      ord scope tk ll (fun accs => .mem .store ty .none accs false) []

/-- `ldnr`: an absent page gives 0 and a false residency predicate (R238). -/
def execLdnr (h : LaneHdr) (ty : Ty) (ord : Ord) (scope : Scope) (ro : Bool) (d r : Nat) (cap : CapSrc) (off : Src)
    (imm : Int) (tk : Option Nat) (s : State) : Out :=
  s.laneLoad h (dstNames ty.isPair (.reg d)) (ty.bits / 8) true AccessKind.loadNr.need ord scope cap off imm tk
    (fun accs => .mem .load ty (.vregP d r) accs ro)
    (fun act => vregLocs act ty.isPair d ++ (lanesOf act).map fun l => Loc.p r l) kindLoad

/-- `ldsub`: a 4-byte read that is rounded at its completion (R239). -/
def execLdsub (h : LaneHdr) (ty : Ty) (ord : Ord) (scope : Scope) (ro : Bool) (d : Nat) (cap : CapSrc) (off : Src)
    (imm : Int) (tk : Option Nat) (s : State) : Out :=
  s.laneLoad h [d] 4 false AccessKind.load.need ord scope cap off imm tk
    (fun accs => .mem .loadSub ty (.vreg d) accs ro) (fun act => vregLocs act false d) kindLoad

/-! ### Subscriptions (R240, R241) -/

/-- The region that the layout word of `subs` names, when it keeps the limits: length, stride, rows - 1, UPD. -/
def subsRegion (len stride w : Nat) : Option (Nat × Nat × Nat × Bool) :=
  let rows := w % 2 ^ 16
  if w / 2 ^ 17 ≠ 0 then none
  else if len % 128 ≠ 0 || len < 128 || 2 ^ 31 < len then none
  else if rows ≠ 0 && (stride % 128 ≠ 0 || stride < len) then none
  else some (len, if rows = 0 then 0 else stride, rows, w.testBit 16)

/-- `subs` and `unsubs` (R240): the checks, then the operation; with no active lane only the token. -/
def State.subscribe (s : State) (h : LaneHdr) (install : Bool) (fmt : Ty) (c b : Nat) (tk : Option Nat) : Out :=
  s.laneIssue h [] [.c c, .s b, .s (b + 1), .s (b + 2)] fun act _ =>
    let cap := s.rc c
    let go := fun (k : OpKind) => Host.Outcome.next
      (s.enqueue true .lane .rlx .grp (s.laneTk tk) k []).laneNext
    if act = 0 then go .post
    else
      let fail := fun cause => s.laneTrap cause cap.addr act kindLoad
      if !cap.tag then fail 0x08
      else if cap.sealType ≠ 0 && !cap.isExport then fail 0x09
      else if !cap.has permLD then fail 0x0A
      else match subsRegion (s.rs b).toNat (s.rs (b + 1)).toNat (s.rs (b + 2)).toNat with
        | none => s.laneTrap 0x01 0 act 0
        | some (len, stride, rows, upd) =>
          if cap.addr < cap.base || cap.top < cap.addr + rows * stride + len then fail 0x0B
          else if cap.addr % 128 ≠ 0 then fail 0x0C
          else
            let asid := match s.ag.space with
              | .boot => 0
              | .obj o => s.asid o
            go (.subs s.ag.die asid install fmt upd cap.addr len stride rows)

def execSubs (h : LaneHdr) (ty : Ty) (c b : Nat) (tk : Option Nat) (s : State) : Out := s.subscribe h true ty c b tk

def execUnsubs (h : LaneHdr) (c b : Nat) (tk : Option Nat) (s : State) : Out := s.subscribe h false .bf16 c b tk

/-! ### Team memory (R242) -/

/-- The footprint cores and the bytes of team memory on each, of the agent's launch (R31). -/
def State.teamShape (s : State) : Nat × Nat :=
  ((s.launch? s.ag.launch).map fun l => (l.fcores, l.tmemBytes)).getD (0, 0)

/-- The team address of a lane: the address read as n32, and the immediate, exactly. -/
def State.teamAddr (s : State) (l : Nat) (addr : Src) (imm : Int) : Int :=
  (loWord (s.srcInt false l addr)).toNat + imm

/-- Range and alignment of a team-memory access (R242): the cause of its failure. -/
def teamCheck (shape : Nat × Nat) (ta : Int) (size : Nat) : Option Nat :=
  let f := ta.toNat / 2 ^ 19
  let o := ta.toNat % 2 ^ 19
  if ta < 0 || 2 ^ 23 ≤ ta || shape.1 ≤ f || shape.2 < o + size then some 0x0B
  else if ta % size ≠ 0 then some 0x0C
  else none

/-- The checks of a team-memory instruction over its active lanes (R228, R242). -/
def State.checkTeam (s : State) (info size : Nat) (rs : List (Nat × Int × Nat × Nat)) : Checked :=
  let fails := rs.filterMap fun r =>
    (teamCheck s.teamShape r.2.1 size).map fun c => (⟨r.1, c, c, (r.2.1 % 2 ^ 64).toNat⟩ : Fail)
  match pickFail fails with
  | some (c, m, a) => .trap s ⟨c, a, m, info, true⟩
  | none => .ok s (rs.map fun r =>
      ⟨r.1, .team r.2.1.toNat, r.2.1.toNat, r.2.2.1, r.2.2.2, false, true, 0, false, 0, s.ag.mode⟩)

def execLds (h : LaneHdr) (ty : Ty) (ord : Ord) (scope : Scope) (d : Nat) (addr : Src) (imm : Int)
    (tk : Option Nat) (s : State) : Out :=
  let p := ty.isPair
  s.laneIssue h (dstNames p (.reg d) ++ srcNames false addr) (srcReads false addr) fun act ll =>
    s.laneChecked (s.checkTeam kindLoad (ty.bits / 8) ((lanesOf act).map fun l => (l, s.teamAddr l addr imm, 0, 0)))
      ord scope tk ll (fun accs => .mem .load ty (.vreg d) accs false) (vregLocs act p d)

def execSts (h : LaneHdr) (ty : Ty) (ord : Ord) (scope : Scope) (data addr : Src) (imm : Int) (tk : Option Nat)
    (s : State) : Out :=
  let p := ty.isPair
  s.laneIssue h (srcNames false addr ++ srcNames p data) (srcReads false addr ++ srcReads p data) fun act ll =>
    s.laneChecked (s.checkTeam kindStore (ty.bits / 8) ((lanesOf act).map fun l =>
      (l, s.teamAddr l addr imm, (s.srcInt p l data).toNat, 0)))
      ord scope tk ll (fun accs => .mem .store ty .none accs false) []

/-! ### Atomics (R244) -/

/-- The registers of an atomic's operand: for `cas` the new value, then the compare value. -/
def atomNames (op : AtomOp) (ty : Ty) (x : Src) : List Nat :=
  match op, x with
  | .cas, .vreg n => (List.range (if ty.isPair then 4 else 2)).map fun k => n + k
  | _, x => srcNames ty.isPair x

def atomReads (op : AtomOp) (ty : Ty) (x : Src) : List LaneRead :=
  match op, x with
  | .cas, .vreg n => (List.range (if ty.isPair then 4 else 2)).map fun k => .v (n + k)
  | _, x => srcReads ty.isPair x

/-- The operand and the compare value of a lane. -/
def State.atomData (s : State) (op : AtomOp) (ty : Ty) (l : Nat) (x : Src) : Nat × Nat :=
  if ty == .f32 then (s.srcFp .f32 l x, 0)
  else match op, x with
    | .cas, .vreg n =>
      ((s.srcInt ty.isPair l (.vreg n)).toNat, (s.srcInt ty.isPair l (.vreg (n + (if ty.isPair then 2 else 1)))).toNat)
    | _, x => ((s.srcInt ty.isPair l x).toNat, 0)

/-- The destination of an atomic; none with write-back suppressed. -/
def atomDst : Dst → MDest
  | .reg n => .vreg n
  | .none => .none

def atomLocs (act : BitVec 32) (ty : Ty) : Dst → List Loc
  | .reg n => vregLocs act ty.isPair n
  | .none => []

def execAtom (h : LaneHdr) (op : AtomOp) (ty : Ty) (ord : Ord) (scope : Scope) (d : Dst) (cap : CapSrc)
    (off opnd : Src) (imm : Int) (tk : Option Nat) (s : State) : Out :=
  s.laneIssue h (dstNames ty.isPair d ++ capNames cap ++ srcNames false off ++ atomNames op ty opnd)
    (capReads cap ++ srcReads false off ++ atomReads op ty opnd) fun act ll =>
    s.laneChecked (s.checkAccess true kindAtomic (ty.bits / 8) (ty.bits / 8) true false ((lanesOf act).map fun l =>
      ⟨l, s.srcCap l cap, s.laneEa l cap off imm, AccessKind.atomic.need, (s.atomData op ty l opnd).1,
        (s.atomData op ty l opnd).2, false⟩))
      ord scope tk ll (fun accs => .mem (.atomic op) ty (atomDst d) accs false) (atomLocs act ty d)

def execAtoms (h : LaneHdr) (op : AtomOp) (ty : Ty) (ord : Ord) (scope : Scope) (d : Dst) (addr opnd : Src)
    (imm : Int) (tk : Option Nat) (s : State) : Out :=
  s.laneIssue h (dstNames ty.isPair d ++ srcNames false addr ++ atomNames op ty opnd)
    (srcReads false addr ++ atomReads op ty opnd) fun act ll =>
    s.laneChecked (s.checkTeam kindAtomic (ty.bits / 8) ((lanesOf act).map fun l =>
      (l, s.teamAddr l addr imm, (s.atomData op ty l opnd).1, (s.atomData op ty l opnd).2)))
      ord scope tk ll (fun accs => .mem (.atomic op) ty (atomDst d) accs false) (atomLocs act ty d)

/-! ### Capability loads and stores (R245) -/

def execLaneLdc (h : LaneHdr) (ord : Ord) (scope : Scope) (d : Nat) (cap : CapSrc) (off : Src) (imm : Int)
    (tk : Option Nat) (s : State) : Out :=
  s.laneLoad h (quadNames d) 16 false AccessKind.loadCap.need ord scope cap off imm tk
    (fun accs => .mem .loadCap .n32 (.vcap d) accs false) (fun act => (lanesOf act).flatMap fun l => vcapLocs d l)
    kindLoadCap

def execLaneStc (h : LaneHdr) (ord : Ord) (scope : Scope) (v : Nat) (cap : CapSrc) (off : Src) (imm : Int)
    (tk : Option Nat) (s : State) : Out :=
  s.laneIssue h (capNames cap ++ srcNames false off ++ quadNames v)
    (capReads cap ++ srcReads false off ++ [.vc v]) fun act ll =>
    s.laneChecked (s.checkAccess true kindStoreCap 16 16 true false ((lanesOf act).map fun l =>
      let x := s.srcCap l (.vc v)
      ⟨l, s.srcCap l cap, s.laneEa l cap off imm, (AccessKind.storeCap x.tag (x.has permGLOB)).need, x.bits.toNat, 0,
        x.tag⟩))
      ord scope tk ll (fun accs => .mem .storeCap .n32 .none accs false) []

/-! ### Fences (R247, R248) -/

/-- What an agent has seen is performed at the scope of a fence (R299, R414); with acquire, the releases of other agents are
published as far as the agent goes (R298, R415). -/
def State.fenceReady (s : State) (ord : Ord) (scope : Scope) : Bool :=
  s.cumulated s.ag scope && (ord == .rel || s.notesClear s.ag)

/-- A scope that does not contain the whole package. -/
def Scope.short : Scope → Bool
  | .dev | .sys => false
  | _ => true

/-- Later writes of a path are releases after a fence with release of a short scope; one of a wider scope has performed
at .dev what such a fence ordered (R297, R414). -/
def Agent.afterRelease (a : Agent) (path : Path) (ord : Ord) (scope : Scope) : Agent :=
  if ord == .acq then a
  else if !Scope.short scope then { a with relPaths := a.relPaths.filter fun p => p != path }
  else if a.relPaths.contains path then a
  else { a with relPaths := a.relPaths ++ [path] }

/-- The effect of a fence of the lane stream once what it orders is performed; the token posts. -/
def State.fenceEnd (s : State) (ord : Ord) (scope : Scope) (tk : Option Nat) : State :=
  let s1 := s.fenced s.ag scope
  let a := (s1.ag.seenFence true).afterRelease .lane ord scope
  ({ s1 with ag := a.post (a.tokenOpt (s.laneTk tk)) }).laneNext

/-- `fence` of the lane stream: it holds the stream until every earlier lane load has written its destination and,
with release, every earlier lane access is performed at the scope. -/
def execLaneFence (h : LaneHdr) (ord : Ord) (scope : Scope) (tk : Option Nat) (s : State) : Out :=
  s.laneIssue h [] [] fun _ _ =>
    let n := s.ag.nextOp
    if s.ag.loading [.lane] n || (ord ≠ .acq && s.busy s.ag [.lane] n scope) || !s.fenceReady ord scope then .next s
    else .next (s.fenceEnd ord scope tk)

/-- Prior accesses of path FROM are still to be performed at a scope (R248). Those of the copy and collective paths are
complete: the group has seen their tokens. -/
def State.fromBusy (s : State) (path : Path) (c : Scope) : Bool :=
  match path with
  | .scalar => s.busy s.ag [.scalar] ((s.ag.blocks.head?.map Block.mark).getD 0) c
  | .lane => s.busy s.ag [.lane] s.ag.nextOp c
  | .matrix => s.busy s.ag [.matrix] s.ag.nextOp c
  | .copy | .coll => false

/-- The engines of a group read and write memory itself, and see no early write. -/
def Path.engine : Path → Bool
  | .matrix | .copy | .coll => true
  | _ => false

/-- The scope at which a `fencex` has prior accesses performed: its own with release, .grp otherwise, which gives the local
guarantee; towards an engine .dev, since it sees no early write. -/
def fencexScope (dst : Path) (ord : Ord) (scope : Scope) : Scope :=
  if Path.engine dst then .dev else if ord == .acq then .grp else scope

/-- `fencex`: it completes when every prior FROM access has been performed; loads of the lane path that name no token
are governed no more when FROM is lane (R230). -/
def execFencex (h : LaneHdr) (src dst : Path) (ord : Ord) (scope : Scope) (tk : Option Nat) (s : State) : Out :=
  s.laneIssue h [] [] fun _ _ =>
    let c := if Path.engine dst then .dev else scope
    if s.fromBusy src (fencexScope dst ord scope) || !s.fenceReady ord c then .next s
    else
      let s1 := (s.publishFor s.ag c).peerFence s.ag scope
      let b := if src = .lane then s1.ag.seenFence true else s1.ag
      let a := if Scope.short scope then b.afterRelease dst ord scope else b
      .next ({ s1 with ag := a.post (a.tokenOpt (s.laneTk tk)) }).laneNext

/-! ### Prefetch (R246) -/

/-- The line that `pf` asks for in a lane, with its owner: none where a check fails or the page is not present. -/
def State.prefetchLine (s : State) (c : Cap) (ea : Int) : Option (Nat × Nat) :=
  if (c.check AccessKind.load.need ea 1 1).isSome then none
  else match s.xlateMine (c.want false) (ea % 2 ^ 64).toNat with
    | .ok pa o _ _ => if isDram pa then some (lineOf pa, o) else none
    | _ => none

/-- `pf` asks for lines and changes no value; its token posts when every line has arrived or been dropped. -/
def execPf (h : LaneHdr) (cap : CapSrc) (off : Src) (imm : Int) (tk : Option Nat) (s : State) : Out :=
  s.laneIssue h (capNames cap ++ srcNames false off) (capReads cap ++ srcReads false off) fun act ll =>
    let lines := (lanesOf act).filterMap fun l => s.prefetchLine (s.srcCap l cap) (s.laneEa l cap off imm)
    let s1 := if tk.isSome || !lines.isEmpty then s.enqueue true .lane .rlx .grp (s.laneTk tk) (.prefetch lines) [] else s
    .next ({ s1 with ag := s1.ag.put .fsr ll }).laneNext

end Sys2Proof.Machine
end

