-- ==== Sys2Proof/Machine/Layout.lean ====
section
/-!
DEFINITION. Layout words (11 R251 to R254): fields, addresses they name, bank permutation, checks, and team memory as
the engines read and write it.
-/

namespace Sys2Proof.Machine

/-- The fields of a layout word (R251). -/
structure Layout where
  base : Nat
  perm : Nat
  str0 : Int
  str1 : Int
  str2 : Int
  deriving DecidableEq, Repr

/-- A signed field of 23 bits. -/
def signed23 (n : Nat) : Int := if n < 2 ^ 22 then n else (n : Int) - 2 ^ 23

/-- The layout word in three registers, the lowest bits first. -/
def layoutOf (ws : List Word) : Layout :=
  let x := (ws.getD 0 0).toNat + (ws.getD 1 0).toNat * 2 ^ 32 + (ws.getD 2 0).toNat * 2 ^ 64
  ⟨x % 2 ^ 23, x / 2 ^ 23 % 16, signed23 (x / 2 ^ 27 % 2 ^ 23), signed23 (x / 2 ^ 50 % 2 ^ 23),
   signed23 (x / 2 ^ 73 % 2 ^ 23)⟩

/-- The bank permutation (R253). -/
def permuted (a m : Nat) : Nat :=
  if m = 0 then a
  else
    let key := a % 2 ^ 19 / 2 ^ (m + 6) % 32
    a - a / 4 % 32 * 4 + (a / 4 % 32 ^^^ key) * 4

/-- The words of one column of an operand, then its scale words (R252): `na` data words, `ns` scale words. -/
def Layout.column (l : Layout) (na ns j : Nat) : List Int :=
  (List.range na).map (fun w => (l.base : Int) + j * l.str0 + w * l.str1)
    ++ (List.range ns).map fun w => (l.base : Int) + j * l.str0 + l.str2 + 4 * w

/-- The words of one column of an accumulator tile. -/
def Layout.tileColumn (l : Layout) (j : Nat) : List Int :=
  (List.range 32).map fun i => (l.base : Int) + j * l.str0 + i * l.str1

/-- The words of one row of a copy, then its scale bytes. -/
def Layout.copyRow (l : Layout) (words scales r : Nat) : List Int :=
  (List.range words).map (fun w => (l.base : Int) + r * l.str0 + w * l.str1)
    ++ (List.range scales).map fun q => (l.base : Int) + r * l.str0 + l.str2 + q

/-- Of those, the addresses whose alignment counts: the words, and where the scale bytes begin. -/
def Layout.copyStarts (l : Layout) (words scales r : Nat) : List Int := l.copyRow words (min scales 1) r

/-- A logical address lies in team memory, on the footprint core of BASE (R254 step 1). -/
def Layout.inRange (l : Layout) (shape : Nat × Nat) (a : Int) : Bool :=
  0 ≤ a && a < 2 ^ 23 && a.toNat / 2 ^ 19 == l.base / 2 ^ 19 && a.toNat / 2 ^ 19 < shape.1
    && a.toNat % 2 ^ 19 + 4 ≤ shape.2

/-- The checks of R254 over the addresses a use names, in their order, of which `starts` are to be aligned: cause and first
failing address. `sx` says that STR2 counts; `foot` is the footprint index a paired instruction needs. Where a stride is
no multiple of 4 and yet no address that the use names is misaligned, R254 names no failing address: BASE (log 94). -/
def Layout.check (l : Layout) (shape : Nat × Nat) (sx : Bool) (foot : Option Nat) (addrs starts : List Int) :
    Option (Nat × Int) :=
  match addrs.find? fun a => !l.inRange shape a with
  | some a => some (0x0B, a)
  | none =>
    if l.base % 4 ≠ 0 || l.str0 % 4 ≠ 0 || l.str1 % 4 ≠ 0 || (sx && l.str2 % 4 ≠ 0) then
      some (0x0C, (starts.find? fun a => a % 4 ≠ 0).getD l.base)
    else match foot with
      | none => none
      | some f => if l.base / 2 ^ 19 = f then none else some (0x0B, l.base)

/-- A word of team memory. -/
def teamWord (m : Sparse Byte) (a : Nat) : Word :=
  sget 0 m (a + 3) ++ sget 0 m (a + 2) ++ sget 0 m (a + 1) ++ sget 0 m a

/-- Writes bytes of team memory. -/
def teamPut (m : Sparse Byte) (a : Nat) : List Byte → Sparse Byte
  | [] => m
  | b :: bs => teamPut (sput 0 m a b) (a + 1) bs

/-- Bytes of team memory. -/
def tmemRead (m : Sparse Byte) (a n : Nat) : List Byte := (List.range n).map fun k => sget 0 m (a + k)

/-- The words at logical addresses, permuted, `shift` bytes further on (the follower's half, R254). -/
def Layout.words (l : Layout) (m : Sparse Byte) (shift : Nat) (addrs : List Int) : List Word :=
  addrs.map fun a => teamWord m (permuted (a.toNat + shift) l.perm)

end Sys2Proof.Machine
end

