-- ==== Sys2Proof/Machine/Sweep.lean ====
section
/-!
DEFINITION. Sweep passes (24 R425 to R431): the map, what a pass clears in agents, in held structures and in
memory.
-/

namespace Sys2Proof.Machine

/-- EN and MAPPA of RMAP (R425). -/
def Sweeper.enabled (w : Sweeper) : Bool := w.rmap.testBit 0
def Sweeper.mapPa (w : Sweeper) : Nat := field w.rmap 12 40 * 4096

/-- The granule that holds virtual address `b` is marked (R425). -/
def State.marked (s : State) (b : Nat) : Bool :=
  let w := s.sweep
  w.enabled && w.rvbase ≤ b && b < w.rvbase + w.rvlen
    && (readByte s.mem (w.mapPa + (b - w.rvbase) / 512)).getLsbD ((b - w.rvbase) / 64 % 8)

/-- A tagged capability whose decoded base is marked loses its tag (R428). -/
def State.judge (s : State) (c : Cap) : Cap := if c.tag && s.marked c.base then { c with tag := false } else c

/-- A capability load checks the map while a pass runs (R430). -/
def State.loadJudge (s : State) (c : Cap) : Cap := if s.sweep.running.isSome then s.judge c else c

/-- The command's capabilities, quad by quad. -/
def quadCap (ws : List Word) (q : Nat) (tag : Bool) : Cap :=
  ⟨ws.getD (4 * q + 3) 0 ++ ws.getD (4 * q + 2) 0 ++ ws.getD (4 * q + 1) 0 ++ ws.getD (4 * q) 0, tag⟩

def State.judgeTags (s : State) (ws : List Word) (tags : List Bool) : List Bool :=
  (List.range tags.length).zip tags |>.map fun e => (s.judge (quadCap ws e.1 e.2)).tag

def State.judgeMessage (s : State) (m : Message) : Message := { m with caps := m.caps.map s.judge }

/-- Spawned threads' capabilities. -/
def State.judgeThread (s : State) (t : Thread) : Thread :=
  { t with tags := t.tags.filter fun q =>
      let w := fun r => ((t.regs.find? fun e => e.1 == r).map (·.2)).getD 0
      (s.judge ⟨w (4 * q + 3) ++ w (4 * q + 2) ++ w (4 * q + 1) ++ w (4 * q), true⟩).tag }

/-- The tags of an agent's register files after a sweep. -/
def State.judgeFiles (s : State) (a : Agent) : Agent :=
  let c := (List.range 40).foldl (fun m q => if m.getLsbD q && !(s.judge (a.capNow q)).tag then setBitTo m q false
    else m) a.ctags
  let v := a.vtags.filterMap fun e =>
    let m := (List.range 32).foldl (fun m l => if m.getLsbD l && !(s.judge ⟨a.raw (.v (4 * e.1 + 3) l)
      ++ a.raw (.v (4 * e.1 + 2) l) ++ a.raw (.v (4 * e.1 + 1) l) ++ a.raw (.v (4 * e.1) l), true⟩).tag
      then setBitTo m l false else m) e.2
    if m = 0 then none else some (e.1, m)
  { a with ctags := c, vtags := v }

/-- The four words of the quad whose tag a place holds. -/
def Loc.quadWords : Loc → Option (Nat → Loc)
  | .ct q => some fun i => .s (4 * q + i)
  | .vt q l => some fun i => .v (4 * q + i) l
  | _ => none

/-- The value that a write of `val` to a place keeps, where `f` gives the words that go with it: a tag over a marked base goes. -/
def State.judgeAt (s : State) (l : Loc) (val : Word) (f : Loc → Word) : Word :=
  match l.quadWords with
  | some w => if val ≠ 0 && !(s.judge ⟨f (w 3) ++ f (w 2) ++ f (w 1) ++ f (w 0), true⟩).tag then 0 else val
  | none => val

/-- Writes that an agent's registers will take: of a suspended receive, of an operation whose results are known. -/
def State.judgeWrites (s : State) (ws : List (Loc × Word)) : List (Loc × Word) :=
  ws.map fun e => (e.1, s.judgeAt e.1 e.2 fun l => ((ws.find? fun x => x.1 == l).map (·.2)).getD 0)

/-- Results in flight, with the words that the same instruction writes. -/
def State.judgePend (s : State) (a : Agent) : List Pend :=
  a.pend.map fun p => { p with val := s.judgeAt p.loc p.val fun l =>
    ((a.pend.find? fun x => x.seq == p.seq && x.loc == l).map (·.val)).getD (a.raw l) }

/-- The older values that a destination may still read as (R75). -/
def State.judgeGov (s : State) (a : Agent) : List Gov :=
  a.gov.map fun g => { g with old := s.judgeAt g.loc g.old fun l =>
    ((a.gov.find? fun x => x.num == g.num && x.loc == l).map (·.old)).getD (a.raw l) }

/-- A capability to be stored, and the capabilities of an operation under way. -/
def State.judgeAcc (s : State) (x : Acc) : Acc :=
  if x.tag && !(s.judge ⟨BitVec.ofNat 128 x.data, true⟩).tag then { x with tag := false } else x

def State.judgeOp (s : State) (o : Op) : Op :=
  match o.kind with
  | .mem op ty d accs ro => { o with kind := .mem op ty d (accs.map s.judgeAcc) ro }
  | .regs ws => { o with kind := .regs (s.judgeWrites ws) }
  | .lbrx l (some c) => { o with kind := .lbrx l (some (s.judge c)) }
  | .watch op t d p st got tr => { o with kind := .watch op (s.judge t) d p st got tr }
  | _ => o

def State.judgeCommand (s : State) (k : Command) : Command := { k with tags := s.judgeTags k.words k.tags }

/-- A wait that holds capabilities. -/
def State.judgeWait (s : State) (w : Wait) : Wait :=
  match w with
  | .qpush b c => .qpush b (s.judgeCommand c)
  | .delivered ws tk => .delivered (s.judgeWrites ws) tk
  | w => w

/-- A snapshot's tags (R396). -/
def State.judgeSnapshot (s : State) (p : Snapshot) : Snapshot :=
  let w := fun r => sget 0 p.sregs r
  let keep := fun q => (s.judge ⟨w (4 * q + 3) ++ w (4 * q + 2) ++ w (4 * q + 1) ++ w (4 * q), true⟩).tag
  { p with
    pcc := s.judge p.pcc
    ctags := (List.range 40).foldl (fun m q =>
      if m.getLsbD q && !keep q then setBitTo m q false else m) p.ctags }

/-- Everything of an agent that holds capabilities (R428): registers with what is in flight to them, handler save state, lane
queue, queued commands, stores under way. -/
def State.judgeAgent (s : State) (pass : Nat) (a : Agent) : Agent :=
  let b := s.judgeFiles a
  { b with
    pcc := s.judge a.pcc
    xpc := s.judge a.xpc
    kentry := s.judge a.kentry
    kscr := s.judge a.kscr
    blocks := a.blocks.map fun k => { k with cap := s.judge k.cap }
    qcopy := a.qcopy.map s.judgeCommand
    qcoll := a.qcoll.map s.judgeCommand
    wait := s.judgeWait a.wait
    redirect := a.redirect.map s.judge
    outst := a.outst.map s.judgeOp
    pend := s.judgePend a
    gov := s.judgeGov a
    suspended := a.suspended.map fun e => (s.judgeWait e.1, s.judge e.2)
    snapshot := a.snapshot.map s.judgeSnapshot
    sweptAt := pass }

/-- A team's spawn memory (R428). -/
def State.judgeTeam (s : State) (t : Team) : Team :=
  { t with
    arriving := t.arriving.map fun x => { x with code := s.judge x.code, thread := s.judgeThread x.thread }
    batches := t.batches.map fun b =>
      { b with code := s.judge b.code, threads := b.threads.map s.judgeThread }
    built := t.built.map fun b =>
      { b with code := s.judge b.code, threads := b.threads.map s.judgeThread }
    faults := t.faults.map (s.judgeAgent 0) }

/-- The address of export-table entry `k`, and the number of entries (R432, R470). -/
def Fabric.exportAt (f : Fabric) (k : Nat) : Nat := field f.exppa 12 40 * 4096 + 32 * k
def Fabric.exportCount (f : Fabric) : Nat := field f.exppa 52 12 + 1

/-- Invalidates export entry `k`: VALID 0, GEN + 1, onto the free list (R435). -/
def State.dropExport (s : State) (k : Nat) : State :=
  let at_ := s.fabric.exportAt k
  let w := s.readPhys (at_ + 16) 4
  let gen := (field w 16 16 + 1) % 2 ^ 16
  let s1 := (s.writePhys (at_ + 16) 4 (gen * 2 ^ 16 + field w 0 11)).writePhys (at_ + 20) 4 (s.fabric.expfree % 2 ^ 12)
  { s1 with fabric := { s1.fabric with expfree := k } }

/-- Valid entries whose original is revoked (R435). -/
def State.sweepExports (s : State) : State :=
  if s.fabric.exppa = 0 then s else
  (List.range s.fabric.exportCount).foldl (fun s k =>
    let at_ := s.fabric.exportAt k
    if (s.readPhys (at_ + 16) 4).testBit 15 && s.tagAt at_ && s.marked (s.capPhys at_).base then s.dropExport k
    else s) s

/-- The capabilities of an accepted launch. -/
def State.judgeLaunch (s : State) (l : Launch) : Launch :=
  { l with
    ctxCap := s.judge l.ctxCap
    arg := s.judge l.arg
    roles := l.roles.map fun r => { r with entry := s.judge r.entry, lcode := s.judge r.lcode } }

/-- The structures that are swept before they are next read (R428). -/
def State.sweepHeld (s : State) : State :=
  let s1 : State := { s with
    eps := s.eps.map fun e => { e with buffer := e.buffer.map s.judgeMessage }
    cmds := s.cmds.map fun k => { k with tags := s.judgeTags k.words k.tags }
    teams := s.teams.map s.judgeTeam
    launches := s.launches.map s.judgeLaunch
    walks := s.walks.map fun w => { w with graph := s.judge w.graph }
    coh := { s.coh with peerTags := s.coh.peerTags.filter fun t =>
      (s.judge ⟨BitVec.ofNat 128 (ofBytesLE (s.peerSee t.1 (16 * t.2) 16)), true⟩).tag } }
  s1.sweepExports

/-- Pass `n` begins (R427): the frames to visit are those that hold tags now (R429). -/
def State.beginPass (s : State) (n : Nat) : State :=
  let s1 := s.sweepHeld
  { s1 with sweep := { s1.sweep with
      running := some n, waiting := none, begunAt := s.time, visit := s1.sweep.frames } }

/-- `swp` (R427): the pass number, and the pass begun or waiting. -/
def State.startSweep (s : State) : State × Nat :=
  let w := s.sweep
  if !w.enabled then (s, 0)
  else match w.waiting with
    | some n => (s, n)
    | none =>
      let n := if (w.last + 1) % 2 ^ 32 = 0 then 1 else (w.last + 1) % 2 ^ 32
      let s1 := { s with sweep := { w with last := n } }
      match w.running with
      | none => (s1.beginPass n, n)
      | some _ => ({ s1 with sweep := { s1.sweep with waiting := some n } }, n)

/-- The agent in focus is swept before its next instruction after the beginning of a pass (R428). -/
def State.sweepFocus (s : State) : State :=
  match s.sweep.running with
  | none => s
  | some n => if s.ag.sweptAt = n then s else { s with ag := s.judgeAgent n s.ag }

end Sys2Proof.Machine
end

