-- ==== Sys2Proof/Machine/SystemOps.lean ====
section
/-!
DEFINITION. Miscellaneous scalar instructions (08 R188, R189), the end of a group (02 R52) and the privileged
instructions (19 R350 to R366).
-/

namespace Sys2Proof.Machine

/-! ### Miscellaneous (R188) -/

def execNop (s : State) : Out := s.done []

/-- `brk` traps 0x30 with its code (R188, R354). -/
def execBrk (code : Nat) (s : State) : Out := s.scalarTrap 0x30 0 code

/-- `rdtime`: the local device time at issue (R25). -/
def execRdtime (d : Nat) (s : State) : Out :=
  let r := s.readTime (clockKey s.ag)
  r.1.done (pairWrites d (BitVec.ofNat 64 r.2))

/-- The team coordinates of linear index `i` in a grid (R29). -/
def coordOf (dims : Nat × Nat × Nat) (i k : Nat) : Nat :=
  if k = 0 then i % dims.1 else if k = 1 then i / dims.1 % dims.2.1 else i / (dims.1 * dims.2.1)

/-- The identity value of a selector (R37, R151; on a system core R164). -/
def State.identity (s : State) (sel : Nat) : Nat :=
  let a := s.ag
  if a.isSys then (if sel = 7 then a.core else if sel = 9 then 4 else if sel = 10 then a.cpart else 0)
  else
    let idx := ((s.team? a.team).map fun t => t.index).getD 0
    let dims := ((s.launch? a.launch).map fun l => l.dims).getD (1, 1, 1)
    match sel with
    | 1 => a.g
    | 2 => coordOf dims idx 0
    | 3 => coordOf dims idx 1
    | 4 => coordOf dims idx 2
    | 5 => idx
    | 6 => a.role
    | 7 => a.core
    | 8 => a.part
    | 9 => a.die
    | _ => a.cpart

def execRdid (d sel : Nat) (s : State) : Out := s.done [(.s d, BitVec.ofNat 32 (s.identity sel))]

def execFsrr (d : Nat) (s : State) : Out := s.done [(.s d, s.ag.fsr)]

/-- `fsrw` clears the flags named; a flag set in the same clk stays set (R188). -/
def execFsrw (d : Nat) (s : State) : Out :=
  s.gate [.s d] (.next (({ s with ag := { s.ag with fsr := s.ag.fsr &&& ~~~(s.rs d &&& 0xBF) } }).advance 4))

def execMxcr (d : Nat) (s : State) : Out := s.done [(.s d, s.ag.mxc)]

/-- `mxcw`: the write applies first, an event of the same clk then counts (R188). -/
def execMxcw (d : Nat) (s : State) : Out :=
  s.gate [.s d] (.next (({ s with ag := { s.ag with mxc := s.rs d &&& 0xFFFFFF } }).advance 4))

/-! ### The end of a group (R52) -/

/-- Operations and engine commands that post a token of the agent are still under way (R52, R278). -/
def State.unfinished (s : State) (a : Agent) : Bool :=
  a.outst.any (fun o => o.tk.isSome) || (a.qcopy ++ a.qcoll).any (fun c => c.tk.isSome)
    || s.cmds.any fun k => k.agent == some a.id && k.tk.isSome

/-- `gend`: once the lane queue has drained and every token-posting operation has completed, the group ends: its
slot is free, its tokens and registers are discarded; the caller in its reply slot resumes with 3 (R103) and its
barriers go on without it (R181). Accesses and engine commands that post no token may still be under way (R278); a snapshot outlives `gend`
(R396). On a system core: in user mode a trap 0x03 with xinfo 1; otherwise as `wfi`
(R164). -/
def execGend (s : State) : Out :=
  if s.ag.isSys then
    if s.ag.mode = 0 then s.scalarTrap 0x03 0 1
    else if s.ag.ipend ≠ 0 then s.done []
    else .next { s with ag := { s.ag with wait := .wfi } }
  else if !s.ag.drained || s.unfinished s.ag then .next s
  else
    let s1 := s.dropReply s.ag
    let s2 : State := { s1 with ag := { s1.ag.settle.stopped with
      outst := s1.ag.outst
      qcopy := s1.ag.qcopy
      qcoll := s1.ag.qcoll
      snapshot := s1.ag.snapshot } }
    .next ((s2.bump.keepSlot s.ag).settleBarriers s.ag.team)

/-! ### Page requests (R189, R477) -/

/-- The page of `va` is served for a request of kind `kind` in the space at `o`: present, and for kind 2
writable. -/
def State.pageServed (s : State) (p o va kind : Nat) : Bool :=
  canonical va && match s.walk ⟨0, p, .obj o, 1, 0, none⟩ va with
    | .leaf pte _ => kind != 2 || pteW pte
    | _ => false

/-- A new page request; it is posted to the ring by a step of its own. -/
def State.askPage (s : State) (p o va kind : Nat) (agent : Option (Nat × Nat)) (cmd : Option Nat) : State :=
  { s with
    pages := s.pages ++ [⟨s.nextPage, p, o, va / 4096 * 4096, kind, none, agent, cmd⟩]
    nextPage := s.nextPage + 1 }

/-- `pgreq`: a page that is resident, or a request that is declined at once because the space has no ring, posts at
once; otherwise the request waits for system software. A first-touch page gets its frame (R384). -/
def execPgreq (a : Nat) (tk : Option Nat) (s : State) : Out :=
  let c := s.rc a
  s.gate (capLocs a)
    (match c.checkPlain [permLD] c.addr 1 1 with
    | some cause => s.scalarTrap cause c.addr kindLoad
    | none =>
      let now : State → State := fun s => ({ s with ag := s.ag.post (s.ag.tokenOpt tk) }).advance 4
      match s.ag.space with
      | .boot => .next (now s)
      | .obj o =>
        let ask : State → Out := fun s =>
          if s.readPhys (o + 192) 8 = 0 then .next (now s)
          else
            .next (((s.askPage s.ag.cpart o c.addr 0 (some (s.ag.id, s.ag.nextOp)) none).enqueue false .scalar .rlx
              .grp tk (.page c.addr (some o)) []).advance 4)
        if !canonical c.addr then ask s
        else match s.walk s.ag.who c.addr with
          | .leaf _ _ => .next (now s)
          | .touch at_ pte size =>
            (match s.firstTouch s.ag.who at_ pte size with
            | .done s' => .next (s'.stallAt false at_ true)
            | .wait s' => .next (s'.stallAt false at_ false)
            | .declined s' => ask s')
          | _ => ask s)

/-! ### Privileged instructions -/

/-- Issues an instruction of the kernel class; elsewhere trap 0x03 (R350). -/
def State.kernel (s : State) (k : Out) : Out := if s.ag.privileged then k else s.scalarTrap 0x03 0 0

/-- Issues an instruction that needs monitor mode as well (R350). -/
def State.monitor (s : State) (k : Out) : Out :=
  if s.ag.privileged && s.ag.mode = 2 then k else s.scalarTrap 0x03 0 0

/-- The token of a receive or a call that waits. -/
def Wait.postsTo : Wait → Option Nat
  | .recv _ tk | .call _ _ tk | .delivered _ tk => tk
  | _ => Option.none

/-- The suspended wait goes on where it stood when the stream returns to the same instruction with the same pcc;
otherwise it is abandoned (R479): its done part stands, it writes nothing more, and its token posts (R74, log 16). -/
def State.resumeWait (s : State) (back : Cap) : State :=
  match s.ag.suspended with
  | none => s
  | some (w, at_) =>
    let s1 : State := { s with ag := { s.ag with suspended := none } }
    if (back.withSeal 0).bits = at_.bits then
      match w with
      | .recv pa tk => s1.receive true pa tk
      | .delivered ws tk => { s1 with ag := s1.ag.endWith tk ws }
      | _ => { s1 with ag := { s1.ag with wait := w } }
    else
      { s1 with
        ag := s1.ag.post w.postsTo
        eps := s1.eps.map fun e => { e with receivers := e.receivers.filter fun r => r != s.ag.id } }

/-- Lane focus is released (R465): the entries with lanes still deferred are replayed from the top down; the last
of them, the oldest, issues for the last lanes of em, so it posts. -/
def Agent.releaseFocus (a : Agent) : Agent :=
  let es := a.focusStack.filter fun e => e.n ≠ 0 && e.d ≠ 0
  { a with
    replays := a.replays ++ ((List.range es.length).zip es).map fun e =>
      ⟨e.2.off, e.2.n, e.2.d, e.1 + 1 == es.length⟩
    focusStack := [], focus := 0 }

/-- The agent after an `eret` that completes (R361): the mode and the scratch register are restored; the tokens of failed
engine commands post (R267); single step is armed when STEP is set (R366), otherwise lane focus is released. -/
def Agent.returned (a : Agent) : Agent :=
  let b := { a with xstat := xstatField (xstatField a.xstat 2 2 a.pmode) 7 1 0 }.swapScratch
  let c := { b with
    pcc := a.xpc.withSeal 0
    stepping := if !a.stepBit then .off else if a.laneTrap && a.xlpc != 0 then .lane else .scalar }
  let d := if a.stepBit then c else c.releaseFocus
  { a.postAtEret.foldl (fun x k => x.post (some k)) d with postAtEret := [] }

/-- `eret` (R361): xpc is checked as a jump target; the lane stream and held faults go on, and a suspended wait (R479).
It reads c39, so a system core waits for what is under way to it (R22). -/
def execEret (s : State) : Out :=
  s.kernel
    (if !s.ag.hnd then s.scalarTrap 0x01 0 0
    else if s.ag.isSys && (capLocs 39).any s.ag.awaited then .next s
    else match s.ag.xpc.checkJump with
      | some cause => .next (s.bump.killFocus cause 4 0 0)
      | none => .next (({ s with ag := s.ag.returned }).tick.resumeWait s.ag.xpc))

/-- What `ctlr` reads from control register `n` into the operand at `d` (R352). -/
def State.ctlRead (s : State) (n d : Nat) : List (Loc × Word) :=
  let a := s.ag
  match n with
  | 0x000 => capWrites (d / 4) a.xpc
  | 0x004 => pairWrites d a.xlpc
  | 0x006 => pairWrites d a.xaddr
  | 0x008 => [(.s d, a.xcause)]
  | 0x009 => [(.s d, a.xstat)]
  | 0x00A => [(.s d, a.xlanes)]
  | 0x00B => [(.s d, a.xinfo)]
  | 0x010 => capWrites (d / 4) a.kentry
  | 0x014 => capWrites (d / 4) a.kscr
  | 0x018 => [(.s d, (sget 0 a.toks 15).setWidth 32)]
  | 0x019 => [(.s d, 0)]
  | 0x020 => pairWrites d a.ipend
  | 0x022 => pairWrites d a.tcmp
  | _ => [(.s d, BitVec.ofNat 32 s.sweep.swpdone)]

/-- The places a control register's operand takes. -/
def ctlLocs (n d : Nat) : List Loc :=
  match n with
  | 0x000 | 0x010 | 0x014 => capLocs (d / 4)
  | 0x004 | 0x006 | 0x020 | 0x022 => [.s d, .s (d + 1)]
  | _ => [.s d]

/-- ipend and tcmp exist on system cores only (R352). -/
def ctlAbsent (a : Agent) (n : Nat) : Bool := !a.isSys && (n == 0x020 || n == 0x022)

def execCtlr (d n : Nat) (s : State) : Out :=
  s.kernel (if ctlAbsent s.ag n then s.scalarTrap 0x01 0 0 else s.done (s.ctlRead n d))

/-- A write of xlpc takes effect within the head block, at a multiple of 12 from its start (R357). -/
def Agent.setXlpc (a : Agent) (v : DWord) : Agent :=
  match a.blocks with
  | [] => a
  | b :: r =>
    let i := (v.toNat - b.start) / 12
    if b.start ≤ v.toNat && (v.toNat - b.start) % 12 = 0 && i < b.count then
      { a with xlpc := v, blocks := { b with idx := i } :: r }
    else a

/-- A write of xstat: STEP, and PMODE when it is legal (R353). -/
def Agent.setXstat (a : Agent) (v : Word) : Agent :=
  let x := xstatField a.xstat 8 1 (if v.getLsbD 8 then 1 else 0)
  let p := (v.extractLsb' 0 2).toNat
  { a with xstat := if p = 3 || a.mode < p then x else xstatField x 0 2 p }

/-- In a sealed context the kernel does not change the handler (R362). -/
def Agent.keepsHandler (a : Agent) : Bool := a.domain ≠ 0 && a.mode = 1

/-- A write of control register `n` under its Access column (R352, R362). -/
def State.ctlWrite (s : State) (n d : Nat) : Agent :=
  let a := s.ag
  match n with
  | 0x000 => { a with xpc := s.rc (d / 4) }
  | 0x004 => a.setXlpc (s.rp d)
  | 0x006 => { a with xaddr := s.rp d }
  | 0x008 => { a with xcause := s.rs d &&& 0xFF }
  | 0x009 => a.setXstat (s.rs d)
  | 0x00A => { a with xlanes := s.rs d }
  | 0x00B => { a with xinfo := s.rs d }
  | 0x010 => if a.keepsHandler then a else { a with kentry := s.rc (d / 4) }
  | 0x014 => if a.keepsHandler then a else { a with kscr := s.rc (d / 4) }
  | 0x018 => { a with toks := sput 0 a.toks 15 ((s.rs d).setWidth 16) }
  | 0x020 => { a with ipend := a.ipend &&& ~~~(s.rp d) }
  | 0x022 => { a with tcmp := s.rp d, tcmpSeen := false }
  | _ => a

/-- `ctlw`; a write of kill kills the team with the value as reason (R362, R368). -/
def execCtlw (d n : Nat) (s : State) : Out :=
  s.kernel (if ctlAbsent s.ag n then s.scalarTrap 0x01 0 0
    else s.gate (ctlLocs n d)
      (if n = 0x019 then .next (s.bump.killFocus 0 8 (s.rs d).toNat 0)
      else .next (({ s with ag := s.ctlWrite n d }).advance 4)))

/-- An agent of the partition whose accesses may use translations of the space at `o` (any space when none). -/
def Agent.inSpace (a : Agent) (p : Nat) (o : Option Nat) : Bool :=
  a.cpart == p && (match o, a.space with
    | none, _ => true
    | some x, .obj y => x == y
    | some _, .boot => false)

/-- An operation under way used a translation of the page of `va` (of any page when none): an access, or a step of a
watch instruction. -/
def Op.usesPage (o : Op) (va : Option Nat) : Bool :=
  let near := fun (x : Nat) => va.all fun v => x / 2 ^ 30 == v / 2 ^ 30
  !o.performed && (match o.kind with
    | .mem _ _ _ accs _ => accs.any fun x => near x.va
    | .watch _ table _ _ steps _ _ => steps.any fun w => near table.base || near (table.base + 256 * w.seq)
    | _ => false)

/-- An access that is not performed at .dev yet used a translation that a `tlbi` removes: an operation under way, or an
early write (log 8), whose page is not kept. -/
def State.tlbInUse (s : State) (p : Nat) (o : Option Nat) (va : Option Nat) : Bool :=
  (s.agents.any fun a => a.inSpace p o && a.outst.any fun op => op.usesPage va)
    || s.coh.early.any fun e => (s.agent? e.seat.agent).all fun a => a.inSpace p o

/-- A TLB of partition `p`. -/
def State.tlbIn (s : State) (p : Nat) (e : TlbEntry) : Bool :=
  if e.die = 4 then e.core.all fun c => s.fabric.corePart c == some p else s.fabric.diePart e.die == p

/-- Removes the cached translations of page `va`, and clears V of the memory-resident ones (R382). -/
def State.dropPage (s : State) (p o va : Nat) : State :=
  let asid := s.asid o
  let s1 : State := { s with tlb := s.tlb.filter fun e =>
    !(s.tlbIn p e && e.asid == asid && e.vpn == vpnOf va e.size) }
  match s.mrt o with
  | none => s1
  | some (b, n) =>
    [12, 16, 21, 30].foldl (fun s size =>
      let bk := mrtBucket b n (vpnOf va size) asid
      (List.range 4).foldl (fun s k =>
        if s.mrtMatch (bk + 32 * k) asid (s.spaceGen o) (vpnOf va size) size then
          s.writePhys (bk + 32 * k + 7) 1 (s.readPhys (bk + 32 * k + 7) 1 % 128)
        else s) s) s1

/-- `tlbi` (R363, R382): stalls while an access that used a removed translation has not been performed. -/
def execTlbi (a b : Nat) (kind : TlbKind) (s : State) : Out :=
  let p := s.ag.cpart
  match kind with
  | .all =>
    s.monitor (if s.tlbInUse p none none then .next s
      else .next (({ s with tlb := s.tlb.filter fun e => !s.tlbIn p e }).advance 4))
  | _ =>
    let c := s.rc a
    s.kernel (s.gate (capLocs a ++ (if kind = .page then [.s b, .s (b + 1)] else []))
      (match c.checkObject 3 [permSYS] with
      | some cause => s.scalarTrap cause c.addr kindNone
      | none => match s.xlate s.ag.who (c.want false) c.base with
        | .fail cause => s.scalarTrap cause c.base kindNone
        | .ok o _ _ _ =>
          if kind = .page then
            let va := (s.rp b).toNat
            if s.tlbInUse p (some o) (some va) then .next s else .next ((s.dropPage p o va).advance 4)
          else if s.tlbInUse p (some o) none then .next s
          else
            let s1 : State := { s with tlb := s.tlb.filter fun e => !(s.tlbIn p e && e.asid == s.asid o) }
            .next ((s1.writePhys (o + 10) 2 (s.spaceGen o + 1)).advance 4)
        | .touch e q z => (s.touchFor false kindNone ⟨0, c, c.base, [], 0, 0, false⟩ e q z).stalls
        | .absent => s.scalarTrap 0x10 c.base kindNone))

/-- `swp` (R427): a release at .dev; the pass number goes to s[d]. -/
def execSwp (d : Nat) (s : State) : Out :=
  s.kernel (if !s.released sendPaths .dev then .next s
    else
      let r := s.publishMine.startSweep
      r.1.done [(.s d, BitVec.ofNat 32 r.2)])

/-- `keyk` (R439): caches write back and drop the owner's lines, its early writes are performed, then the slot is empty; an
id of 0 or an empty slot completes at once. It stalls while a write-back may not yet be performed. -/
def execKeyk (d : Nat) (s : State) : Out :=
  s.monitor (s.gate [.s d]
    (let id := (s.rs d).toNat % 256
    if id = 0 || (s.keyGen id).isNone then s.done []
    else if !s.drainOk (fun e => e.owner == id) then .next s
    else
      let s1 := s.drain fun e => e.owner == id
      let s2 : State := { s1 with
        coh := { s1.coh with l1 := s1.coh.l1.filter fun l => l.owner != id }
        keys := { s1.keys with full := s1.keys.full.filter fun e => e.1 != id } }
      s2.done []))

/-- `sealctx` (R365): an untagged source traps 0x08. -/
def execSealctx (d a b : Nat) (s : State) : Out :=
  s.monitor (s.gate (capLocs a ++ [.s b])
    (if !(s.rc a).tag then s.scalarTrap 0x08 (s.rc a).addr kindNone
    else s.done (capWrites d ((s.rc a).withOwner ((s.rs b).toNat % 256)))))

/-- `wfi` (R366): goes on once ipend is not zero; 0x01 on a compute core. -/
def execWfi (s : State) : Out :=
  s.kernel (if !s.ag.isSys then s.scalarTrap 0x01 0 0
    else if s.ag.ipend ≠ 0 then s.done []
    else .next { s with ag := { s.ag with wait := .wfi } })

/-- `xstep` sets STEP (R366). -/
def execXstep (s : State) : Out :=
  s.kernel (.next (({ s with ag := { s.ag with xstat := xstatField s.ag.xstat 8 1 1 } }).advance 4))

end Sys2Proof.Machine
end

