-- ==== Sys2Proof/Machine/DevAccess.lean ====
section
/-!
DEFINITION. Accesses the device makes for an agent or a graph by virtual address (20 R376, R384), reads and writes by
physical address on any path (20 R371), and what leaves the package through a peer window (24 R433).
-/

namespace Sys2Proof.Machine

/-! ### Translation for a device access -/

/-- The outcome of a device access's translation: a place; try again (a first touch was made or waits); a cause. -/
inductive DevX
  | ok (s : State) (pa owner : Nat)
  | again (s : State)
  | absent (s : State)
  | fail (s : State) (cause : Nat)

/-- Translates, making a first touch where it meets one (R384). A page that is absent is told apart from a failed check
and from a first touch that the pool declines. -/
def State.devXlate (s : State) (w : Who) (q : Want) (va : Nat) : DevX :=
  match s.xlateAcc w q va with
  | .ok pa o pte size => .ok ((s.noteXlate w va pte size).noteKey o pa) pa o
  | .absent => .absent s
  | .fail c => .fail (s.noteWalk w va) c
  | .touch a p z =>
    match s.firstTouch w a p z with
    | .done s' => .again s'
    | .wait s' => .again s'
    | .declined s' => .fail s' 0x10

/-- As `devXlate`, for a step that cannot be made again: it goes on past a first touch that it has made. -/
def State.devXlateOnce (s : State) (w : Who) (q : Want) (va : Nat) : DevX :=
  match s.devXlate w q va with
  | .again s' => s'.devXlate w q va
  | r => r

/-! ### Peer windows (R433, R434) -/

/-- Where a capability goes: an export capability is sent unchanged, an unsealed one is resealed over an entry of the
export table, every other leaves untagged (R433). The new state and what is sent. -/
def State.exportCap (s : State) (peer : Nat) (c : Cap) : State × Cap :=
  if !c.tag || c.isExport then (s, c)
  else if c.sealType ≠ 0 then (s, { c with tag := false })
  else if 2 ^ 28 < c.top - c.base || s.fabric.expfree = 0xFFFF then
    ({ s with fabric := { s.fabric with expFails := s.fabric.expFails + 1 } }, { c with tag := false })
  else
    let k := s.fabric.expfree
    let at_ := s.fabric.exportAt k
    let gen := field (s.readPhys (at_ + 16) 4) 16 16
    let link := s.readPhys (at_ + 20) 4 % 2 ^ 12
    let next := if s.fabric.exportCount ≤ link then 0xFFFF else link
    let s1 := (s.putCap 0 at_ c).writePhys (at_ + 16) 4 (gen * 2 ^ 16 + 2 ^ 15 + peer % 2 ^ 11)
    let addr := 0x8000000000000 + s.fabric.pkgid * 2 ^ 40 + k * 2 ^ 28 + (c.addr + 2 ^ 64 - c.base) % 2 ^ 64
    ({ s1 with fabric := { s1.fabric with expfree := next } },
     ⟨BitVec.ofNat 12 8 ++ BitVec.ofNat 16 c.perms ++ BitVec.ofNat 8 c.owner ++ BitVec.ofNat 16 gen
       ++ BitVec.ofNat 12 0 ++ BitVec.ofNat 64 addr, true⟩)

/-- Data bytes at a physical address outside the control window. -/
def State.getAt (s : State) (owner pa n : Nat) : List Byte :=
  if isPeer pa then s.peerBytes pa n else s.seeBytes owner pa n

/-- The lines that bytes [pa, pa+n) lie in. -/
def linesOf (pa n : Nat) : List Nat :=
  if n = 0 then [] else (List.range ((pa + n - 1) / 128 - pa / 128 + 1)).map fun k => pa / 128 + k

/-- The home invalidates the copies of the lines it writes (R420). -/
def State.takeLines (s : State) (pa n : Nat) : State := (linesOf pa n).foldl State.dropCopies s

/-- Writes data bytes at the home, outside the control window; what goes to a peer leaves the package. -/
def State.putAt (s : State) (owner pa : Nat) (bs : List Byte) : State :=
  if isPeer pa then s else (s.takeLines pa bs.length).putBytes owner pa bs

/-- Writes a capability at the home, outside the control window. -/
def State.putCapAt (s : State) (owner pa : Nat) (c : Cap) : State :=
  if isPeer pa then (s.exportCap (field pa 40 11) c).1 else (s.takeLines pa 16).putCap owner pa c

/-- An export capability that arrives at the package that issued it (R434): ORIG at its offset when its entry is valid
and of its generation, untagged otherwise. ORIG keeps its tag, and its bounds or no tag (R85, R90; log 98). One of another
sender stays as it is. -/
def State.returned (s : State) (c : Cap) : Cap :=
  if !c.tag || !c.isExport || field c.addr 40 11 ≠ s.fabric.pkgid then c
  else
    let k := field c.addr 28 12
    let at_ := s.fabric.exportAt k
    let w := s.readPhys (at_ + 16) 4
    let gen := (c.bits.extractLsb' 76 16).toNat
    if s.fabric.exppa ≠ 0 && k < s.fabric.exportCount && w.testBit 15 && field w 16 16 = gen then
      let o := s.capPhys at_
      o.setAddr (o.base + c.addr % 2 ^ 28)
    else { c with tag := false }

/-- Reads a capability outside the control window; the sweep in progress judges it (R430). What comes from a peer
carries a free tag only when its fields may be an export capability's. -/
def State.getCapAt (s : State) (owner pa : Nat) : Cap :=
  if isPeer pa then
    let c : Cap := ⟨BitVec.ofNat 128 (ofBytesLE (s.peerBytes pa 16)), Config.freeBit s.fresh pa⟩
    s.loadJudge (s.returned { c with tag := c.tag && c.isExport })
  else s.loadJudge (s.seeCap owner pa)

/-- A write of [pa, pa+n) may be performed now (R411). -/
def State.writeOk (s : State) (pa n : Nat) : Bool := !isDram pa || (linesOf pa n).all s.leaseOk

/-! ### Reads and writes through a capability by the device -/

/-- The outcome of a device read or write through a capability. -/
inductive DevRead
  | ok (s : State) (v : Nat)
  | again (s : State)
  | fail (s : State) (cause addr : Nat)

/-- Reads `n` bytes at a virtual address. -/
def State.devRead (s : State) (w : Who) (q : Want) (va n : Nat) : DevRead :=
  match s.devXlate w q va with
  | .ok s' pa o => .ok s' (ofBytesLE (s'.getAt o pa n))
  | .again s' => .again s'
  | .absent s' => .fail s' 0x10 va
  | .fail s' c => .fail s' c va

/-- Writes `n` bytes at a virtual address; it is not made while a lease still runs. -/
def State.devWrite (s : State) (w : Who) (q : Want) (va n v : Nat) : DevRead :=
  match s.devXlate w { q with write := true } va with
  | .ok s' pa o => if s'.writeOk pa n then .ok (s'.putAt o pa (bytesLE n v)) 0 else .again s'
  | .again s' => .again s'
  | .absent s' => .fail s' 0x10 va
  | .fail s' c => .fail s' c va

end Sys2Proof.Machine
end

