-- ==== Sys2Proof/Machine/GraphBase.lean ====
section
/-!
DEFINITION. Graphs under way (21 R401, R402): reading and writing the graph, the failure of a node, the end of a walk.
-/

namespace Sys2Proof.Machine

def State.walk? (s : State) (id : Nat) : Option Walk := s.walks.find? fun w => w.id == id

def State.updWalk (s : State) (id : Nat) (f : Walk → Walk) : State :=
  { s with walks := s.walks.map fun w => if w.id = id then f w else w }

/-- Whose accesses a walk makes: those of the agent that submitted it, as it stood then (R401). -/
def Walk.who (w : Walk) : Who := ⟨4, w.cpart, w.space, w.mode, w.domain, none⟩

/-- What the graph capability asks of translation. -/
def Walk.want (w : Walk) (write : Bool) : Want := w.graph.want write

/-- The address of word `k` of node `n`. -/
def Walk.nodeAt (w : Walk) (n k : Nat) : Nat := w.graph.base + 64 + 64 * n + 4 * k

/-- Reads bytes of the graph; none when its translation fails. -/
def State.graphRead (s : State) (w : Walk) (va n : Nat) : Option Nat :=
  match s.devRead w.who (w.want false) va n with
  | .ok _ v => some v
  | _ => none

/-- A capability of the graph, as memory holds it with its tag (R89). -/
def State.graphCap (s : State) (w : Walk) (va : Nat) : Option Cap :=
  match s.devXlate w.who (w.want false) va with
  | .ok _ pa o => some (s.getCapAt o pa)
  | _ => none

/-- A first touch that the words of a step's header and node still need: the state in which it has been made or waits
(R384). -/
def State.graphTouch (s : State) (w : Walk) (n : Nat) : Option State :=
  [w.graph.base, w.graph.base + 60, w.nodeAt n 0, w.nodeAt n 15].findSome? fun va =>
    match s.devXlate w.who (w.want true) va with
    | .again s' => some s'
    | _ => none

/-- Writes a word of the graph; none when its translation fails. -/
def State.graphWrite (s : State) (w : Walk) (va n v : Nat) : Option State :=
  match s.devXlateOnce w.who (w.want true) va with
  | .ok s' pa o => some (s'.putAt o pa (bytesLE n v))
  | _ => none

/-- Signals FLINE when it is tagged (R402). -/
def State.signalFline (s : State) (w : Walk) : State :=
  match s.graphCap w (w.graph.base + 32) with
  | some c => if c.tag then s.signalCap { w.who with mode := 1 } c else s
  | none => s

/-- The walk can no longer write its header (R402): it ends, the header stays, FLINE is signalled, an event is
logged. -/
def State.graphLost (s : State) (w : Walk) : State :=
  let s1 := (s.signalFline w).logEvent 3 w.id
  s1.updWalk w.id fun x => { x with ended := true, failed := true }

/-- A walk that has ended, with no node running, is over: STATE ← 0 unless it failed (R402). -/
def State.settleWalk (s : State) (id : Nat) : State :=
  match s.walk? id with
  | none => s
  | some w =>
    if w.ended && w.running.isEmpty then
      let s1 : State := { s with walks := s.walks.filter fun x => x.id != id }
      if w.failed then s1
      else match s1.graphWrite w (w.graph.base + 4) 4 0 with
        | some s2 => s2
        | none => s1.graphLost w
    else s

/-- A node fails (R402): STATE ← 2 and FAIL, FLINE is signalled, the walk ends. Only the first failure of a walk is
recorded. `status` says that the cause is a status of R389. -/
def State.failNode (s : State) (w : Walk) (node cause : Nat) (status : Bool) : State :=
  match s.walk? w.id with
  | none => s
  | some now =>
    let s1 : State :=
      if now.failed then s
      else match s.graphWrite w (w.graph.base + 12) 4 (cause % 2 ^ 8 * 2 ^ 24 + (if status then 2 ^ 23 else 0) + node) with
        | none => s.graphLost w
        | some s1 => match s1.graphWrite w (w.graph.base + 4) 4 2 with
          | none => s1.graphLost w
          | some s2 => s2.signalFline w
    (s1.updWalk w.id fun x => { x with ended := true, failed := true }).settleWalk w.id

/-- A running node ends. -/
def State.endRun (s : State) (w : Walk) (r : NodeRun) : State :=
  (s.updWalk w.id fun x => { x with running := x.running.filter fun y => y != r }).settleWalk w.id

end Sys2Proof.Machine
end

