-- ==== Sys2Proof/Machine/Engines.lean ====
section
/-!
DEFINITION. Copy and collective commands (11 R265 to R278): the checks at the push, queues, acceptance, execution,
faults (R267).
-/

namespace Sys2Proof.Machine

/-! ### Fields of a command -/

def cw (ws : List Word) (k : Nat) : Nat := (ws.getD k 0).toNat

/-- A word read as a signed number. -/
def csw (ws : List Word) (k : Nat) : Int := (ws.getD k 0).toInt

/-- The token field of a CTL word (R144): none, or the number. -/
def ctlToken (ctl : Nat) : Option Nat := if ctl.testBit 20 then some (field ctl 16 4) else none

/-- The token field is legal: without bit 4 the others are zero (R144). -/
def tokenFieldOk (ctl : Nat) : Bool := ctl.testBit 20 || field ctl 16 4 == 0

/-- The shape of a copy (R269, R270): conversion, sides, source bytes per row, rows, destination element bytes and
scale bytes per row. -/
structure CopyShape where
  conv : Nat
  steam : Bool
  dteam : Bool
  len : Nat
  rows : Nat
  elems : Nat
  scales : Nat
  deriving DecidableEq, Repr

/-- The sx format of a conversion code. -/
def convSx (conv : Nat) : Sxf := if conv = 5 then .sx7 else if conv = 6 then .sx4 else .sx2

/-- The narrow format of a conversion code. -/
def convFmt (conv : Nat) : Fmt :=
  if conv = 1 then .bf16 else if conv = 2 then .f16 else if conv = 3 then .e4 else .e5

def copyShape (ws : List Word) : CopyShape :=
  let ctl := cw ws 8
  let conv := field ctl 12 4
  let len := cw ws 9
  { conv := conv
    steam := ctl.testBit 11
    dteam := ctl.testBit 10
    len := len
    rows := cw ws 10 % 2 ^ 16 + 1
    elems := if conv = 0 then len else if conv ≤ 2 then len / 2 else if conv ≤ 4 then len / 4
      else len / 4 * sxWidth (convSx conv) / 8
    scales := if 5 ≤ conv then len / 32 else 0 }

def CopyShape.isSx (c : CopyShape) : Bool := 5 ≤ c.conv

/-- Steps 1 and 2 of R266 for a copy: reserved fields, codes, the token field, the shape limits. -/
def copyFormOk (ws : List Word) : Bool :=
  let c := copyShape ws
  let ctl := cw ws 8
  cw ws 14 == 0 && cw ws 15 == 0 && ctl / 2 ^ 21 == 0 && ctl % 2 ^ 10 == 0 && c.conv ≤ 7 && tokenFieldOk ctl
    && (!c.steam || (cw ws 3 == 0 && cw ws 11 == 0)) && (!c.dteam || (cw ws 7 == 0 && cw ws 12 == 0))
    && (cw ws 13 == 0 || (c.isSx && !c.dteam))
    && cw ws 10 / 2 ^ 16 == 0 && 1 ≤ c.len && c.len ≤ 2 ^ 31
    && (c.len % 4 == 0 || (c.conv == 0 && !c.steam && !c.dteam)) && (c.len % 64 == 0 || !c.isSx)

/-- The check of R93 over the rows of a capability side: cause and first failing address. Rows are given as start
and length; the stride is to be aligned too, and where it alone is not xaddr is 0 (R270). -/
def rowsCheck (c : Cap) (need : List Nat) (align : Nat) (stride : Int) (rows : List (Int × Nat)) :
    Option (Nat × Int) :=
  let first : Int := (rows.map fun r => r.1).headD c.addr
  if !c.tag then some (0x08, first)
  else if c.sealType ≠ 0 && !c.isExport then some (0x09, first)
  else if !need.all c.has then some (0x0A, first)
  else
    match rows.find? fun r => decide (r.1 < (c.base : Int)) || decide ((c.top : Int) < r.1 + r.2) with
    | some r => some (0x0B, if r.1 < (c.base : Int) then r.1 else max r.1 (c.top : Int))
    | none => match rows.find? fun r => decide (r.1 % (align : Int) ≠ 0) with
      | some r => some (0x0C, r.1)
      | none => if stride % (align : Int) = 0 then none else some (0x0C, 0)

/-- The rows of the capability sides of a copy (R270): source; destination elements; destination scales. -/
def sourceRows (ws : List Word) (tags : List Bool) : List (Int × Nat) :=
  let c := copyShape ws
  (List.range c.rows).map fun r => (((quadCap ws 0 (tags.getD 0 false)).addr : Int) + r * csw ws 11, c.len)

def destRows (ws : List Word) (tags : List Bool) : List (Int × Nat) :=
  let c := copyShape ws
  (List.range c.rows).map fun r => (((quadCap ws 1 (tags.getD 1 false)).addr : Int) + r * csw ws 12, c.elems)

def scaleRows (ws : List Word) (tags : List Bool) : List (Int × Nat) :=
  let c := copyShape ws
  if c.isSx then
    (List.range c.rows).map fun r =>
      (((quadCap ws 1 (tags.getD 1 false)).addr : Int) + cw ws 13 + r * c.scales, c.scales)
  else []

/-- The checks of R254 on a team side, row after row (R252, R270). -/
def sideCheck (shape : Nat × Nat) (l : Layout) (sx : Bool) (rows words scales : Nat) : Option (Nat × Int) :=
  l.check shape sx none ((List.range rows).flatMap fun r => l.copyRow words scales r)
    ((List.range rows).flatMap fun r => l.copyStarts words scales r)

/-- The checks of R266 on a copy: cause, address, xinfo. R266 does not say which comes first where both an element row and a
scale row of an sx destination fail: every element row comes before every scale row (log 94). -/
def copyCheck (shape : Nat × Nat) (ws : List Word) (tags : List Bool) : Option (Nat × Int × Nat) :=
  let c := copyShape ws
  if !copyFormOk ws then some (0x01, 0, 0)
  else
    let src := if c.steam then
        sideCheck shape (layoutOf (ws.take 3)) false c.rows ((c.len + 3) / 4) 0
      else rowsCheck (quadCap ws 0 (tags.getD 0 false)) [permLD] (if c.conv = 0 then 1 else 4) (csw ws 11)
        (sourceRows ws tags)
    match src with
    | some e => some (e.1, e.2, 0)
    | none =>
      let dst := if c.dteam then
          sideCheck shape (layoutOf (ws.drop 4 |>.take 3)) c.isSx c.rows ((c.elems + 3) / 4) c.scales
        else rowsCheck (quadCap ws 1 (tags.getD 1 false)) [permST] 1 0 (destRows ws tags ++ scaleRows ws tags)
      dst.map fun e => (e.1, e.2, 1)

/-! ### Collectives (R274, R275) -/

def collOp (ws : List Word) : Nat := field (cw ws 12) 0 4
def collType (ws : List Word) : Nat := field (cw ws 12) 4 4
def collRop (ws : List Word) : Nat := field (cw ws 12) 8 4
def collCount (ws : List Word) : Nat := cw ws 13
def collRoot (ws : List Word) : Nat := cw ws 14 % 2 ^ 16

/-- The element size. -/
def collElem (ws : List Word) : Nat := if collType ws = 0 then 4 else 2

/-- The fields every participant of an instance must give alike. -/
def collKey (ws : List Word) : List Nat := [collOp ws, collType ws, collRop ws, collCount ws, collRoot ws]

/-- Steps 1 and 2 of R266 for a collective. -/
def collFormOk (ws : List Word) : Bool :=
  let ctl := cw ws 12
  cw ws 15 == 0 && ctl / 2 ^ 21 == 0 && field ctl 12 4 == 0 && tokenFieldOk ctl && cw ws 14 / 2 ^ 16 == 0
    && collOp ws ≤ 3 && collType ws ≤ 1 && (if collOp ws ≤ 1 then collRop ws ≤ 2 else collRop ws == 0)
    && (collOp ws == 3 || collRoot ws == 0) && 1 ≤ collCount ws && collCount ws ≤ 2 ^ 28

/-- The extents in bytes of source and destination for N participants. -/
def collSrcLen (ws : List Word) (n : Nat) : Nat := collCount ws * collElem ws * (if collOp ws = 1 then n else 1)
def collDstLen (ws : List Word) (n : Nat) : Nat := collCount ws * collElem ws * (if collOp ws = 2 then n else 1)

/-- Whether rank `r` reads its source: every rank but those of a broadcast other than the root. -/
def collReads (ws : List Word) (r : Nat) : Bool := collOp ws ≠ 3 || r == collRoot ws

/-- The checks on SRC and DST. -/
def collSides (ws : List Word) (tags : List Bool) (n r : Nat) : Option (Nat × Int × Nat) :=
  let src := quadCap ws 1 (tags.getD 1 false)
  let dst := quadCap ws 2 (tags.getD 2 false)
  let e := collElem ws
  let a := if collReads ws r then rowsCheck src [permLD] e 0 [((src.addr : Int), collSrcLen ws n)] else none
  match a with
  | some x => some (x.1, x.2, 0)
  | none => (rowsCheck dst [permST] e 0 [((dst.addr : Int), collDstLen ws n)]).map fun x => (x.1, x.2, 1)

/-- The outcome of the checks of a collective: the object, its size, the rank. -/
inductive CollCheck
  | ok (s : State) (obj n r : Nat)
  | out (o : Out)

/-- The checks of R266 and R275 on a collective. The object's NM1 is read at the push, so it is translated there. -/
def State.collCheck (s : State) (ws : List Word) (tags : List Bool) : CollCheck :=
  let g := quadCap ws 0 (tags.getD 0 false)
  if !collFormOk ws then .out (s.scalarTrap 0x01 0 0)
  else match g.checkObject 7 [permLD, permST] with
    | some cause => .out (s.scalarTrap cause g.addr kindNone)
    | none =>
      if g.top < g.base + 64 then .out (s.scalarTrap 0x0B g.addr kindNone)
      else match s.devXlate s.ag.who (g.want true) g.base with
        | .fail s' c => .out (s'.scalarTrap c g.base kindNone)
        | .absent _ => .out (s.scalarTrap 0x10 g.base kindNone)
        | .again s' => .out (.next s')
        | .ok s' pa _ =>
          let n := s'.readPhys pa 4 % 2 ^ 16 + 1
          let r := (g.addr - g.base) % 2 ^ 16
          if n ≤ r then .out (s.scalarTrap 0x0B g.addr kindNone)
          else if n ≤ collRoot ws then .out (s.scalarTrap 0x0B 0 kindNone)
          else match collSides ws tags n r with
            | some e => .out (s.scalarTrap e.1 (e.2.1 % 2 ^ 64).toNat e.2.2)
            | none => .ok s' pa n r

/-! ### The push (R184, R265) -/

/-- The 16 words and four tags of a command, read at issue. -/
def State.commandAt (s : State) (r : Nat) : List Word × List Bool :=
  let cs := (List.range 4).map fun k => s.rc (r / 4 + k)
  (cs.flatMap fun c => [c.bits.extractLsb' 0 32, c.bits.extractLsb' 32 32, c.bits.extractLsb' 64 32,
    c.bits.extractLsb' 96 32], cs.map (·.tag))

/-- The places a `qpush` reads. -/
def pushReads (r : Nat) : List Loc := (List.range 4).flatMap fun k => capLocs (r / 4 + k)

/-- A checked command enters its queue. -/
def Agent.pushCmd (a : Agent) (coll : Bool) (c : Command) : Agent :=
  if coll then { a with qcoll := a.qcoll ++ [{ c with num := a.ncoll }], ncoll := (a.ncoll + 1) % 2 ^ 16 }
  else { a with qcopy := a.qcopy ++ [{ c with num := a.ncopy }], ncopy := (a.ncopy + 1) % 2 ^ 16 }

/-- The queue register has no room (R265). -/
def Agent.queueFull (a : Agent) (coll : Bool) : Bool := 8 ≤ (if coll then a.qcoll else a.qcopy).length

/-- What the hardware holds of a collective group: nothing of an object that has been made anew (R275, R367). -/
def State.freshGroup (s : State) (pa : Nat) : State :=
  if s.objHeld pa then s
  else { s.holdObj pa with
    colls := s.colls.filter fun c => c.pa != pa
    collSrcs := s.collSrcs.filter fun x => x.obj != pa }

/-- The next instance of rank `r` of the object at `pa` (R275). -/
def State.nextInst (s : State) (pa r : Nat) : State × Nat :=
  let s1 := s.freshGroup pa
  let o := (s1.colls.find? fun c => c.pa == pa).getD ⟨pa, [], []⟩
  let n := ((o.counts.find? fun e => e.1 == r).map (·.2)).getD 0
  ({ s1 with colls := { o with counts := (r, n + 1) :: o.counts.filter fun e => e.1 != r }
      :: s1.colls.filter fun c => c.pa != pa }, n)

/-- The push, or the queue block of R41. A collective command takes its instance when it is pushed (R275). -/
def State.push (s : State) (coll : Bool) (c : Command) : State :=
  if s.ag.queueFull coll then { s with ag := { s.ag with wait := .qpush coll c } }
  else if coll then
    let i := s.nextInst c.obj c.rank
    ({ i.1 with ag := i.1.ag.waitOver.pushCmd true { c with inst := i.2 } }).advance 4
  else ({ s with ag := s.ag.waitOver.pushCmd false c }).advance 4

/-- `qpush` on qcopy: on a system core it traps 0x01 at issue (R164). -/
def execQpushQcopy (r : Nat) (s : State) : Out :=
  if s.ag.isSys then s.scalarTrap 0x01 0 0
  else
    let c := s.commandAt r
    s.gate (pushReads r)
      (match copyCheck s.teamShape c.1 c.2 with
      | some e => s.scalarTrap e.1 (e.2.1 % 2 ^ 64).toNat e.2.2
      | none =>
        .next (s.push false ⟨0, c.1, c.2, s.ag.tokenOpt (ctlToken (cw c.1 8)), s.ag.mode, 0, 0, 0⟩))

/-- `qpush` on qcoll. -/
def execQpushQcoll (r : Nat) (s : State) : Out :=
  if s.ag.isSys then s.scalarTrap 0x01 0 0
  else
    let c := s.commandAt r
    s.gate (pushReads r)
      (match s.collCheck c.1 c.2 with
      | .out o => o
      | .ok s' pa _ k =>
        .next (s'.push true ⟨0, c.1, c.2, s.ag.tokenOpt (ctlToken (cw c.1 12)), s.ag.mode, pa, k, 0⟩))

/-! ### Acceptance -/

/-- A command of an agent as the engine holds it. -/
def State.acceptCmd (s : State) (a : Agent) (coll : Bool) (c : Command) : State :=
  { s with
    cmds := s.cmds ++ [{
      id := s.nextCmd, coll := coll, num := c.num, agent := some a.id, walk := none, team := a.team, die := a.die
      cpart := a.cpart, space := a.space, mode := c.mode, domain := a.domain, words := c.words, tags := c.tags
      tk := c.tk, obj := c.obj, rank := c.rank, inst := c.inst, seen := false, waitPage := none, done := [] }]
    nextCmd := s.nextCmd + 1 }

/-- The copy engine accepts the oldest command of a group in issue (R265). -/
def execCopyAccept (agent : Nat) (s : State) : Out :=
  match s.agent? agent with
  | none => .next s
  | some a =>
    match a.qcopy with
    | [] => .next s
    | c :: rest =>
      if !a.resident then .next s
      else .next ((s.acceptCmd a false c).updAgent agent fun b => { b with qcopy := rest })

/-- The collective engine accepts the oldest command of a group in issue. -/
def execCollectiveAccept (agent : Nat) (s : State) : Out :=
  match s.agent? agent with
  | none => .next s
  | some a =>
    match a.qcoll with
    | [] => .next s
    | c :: rest =>
      if !a.resident then .next s
      else .next ((s.acceptCmd a true c).updAgent agent fun b => { b with qcoll := rest })

/-! ### Running a command (R267) -/

def EngineCmd.who (k : EngineCmd) : Who := ⟨k.die, k.cpart, k.space, k.mode, k.domain, none⟩

def State.updCmd (s : State) (id : Nat) (f : EngineCmd → EngineCmd) : State :=
  { s with cmds := s.cmds.map fun k => if k.id = id then f k else k }

/-- A command is done: its token posts; a graph's node is complete. -/
def State.endCmd (s : State) (k : EngineCmd) : State :=
  let s1 : State := { s with cmds := s.cmds.filter fun x => x.id != k.id }
  let s2 := match k.agent with
    | none => s1
    | some id => s1.updAgent id fun a => if a.alive then ({ a with sinks := a.sinks + 1 }).post k.tk else a
  match k.walk with
  | none => s2
  | some (w, node) => match s2.walk? w with
    | none => s2
    | some wk => match wk.running.find? fun r => (match r with
        | .copy n c _ => n == node && c == k.id
        | _ => false) with
      | some r => s2.endRun wk r
      | none => s2

/-- xinfo of an engine fault (R267), and CMD of a kill record (R368). -/
def EngineCmd.info (k : EngineCmd) : Nat := 2 ^ 31 + (if k.coll then 2 ^ 30 else 0) + k.num

/-- The source of a collective command that ends before the engine has read it is lost: the other participants' destinations
are unspecified. R277 says so of a discarded command; of one that ends with a fault no rule speaks (log 94). -/
def State.loseSource (s : State) (k : EngineCmd) : State :=
  if k.coll && !k.seen then
    { s with collSrcs := s.collSrcs ++ [⟨k.obj, k.inst, k.rank, collKey k.words, none⟩] }
  else s

/-- A command ends with a fault (R267): its issuer is to trap; a graph's node fails; the team of an issuer that has
ended is to be killed. -/
def State.failCmd (s : State) (k : EngineCmd) (cause addr : Nat) : State :=
  let s0 := s.loseSource k
  let s1 : State := { s0 with cmds := s0.cmds.filter fun x => x.id != k.id }
  let s2 := match k.agent with
    | none => s1
    | some id => match s1.agent? id with
      | none => s1
      | some a =>
        if a.alive then s1.updAgent id fun a =>
          { a with heldFaults := a.heldFaults ++ [(⟨cause, addr, 0, k.info, false⟩, k.tk)] }
        else { s1 with teams := s1.teams.map fun t =>
          if t.id = k.team && t.phase ≠ .gone then { t with dying := some (t.dying.getD ⟨cause, a.g, k.info, addr⟩) }
          else t }
  match k.walk with
  | none => s2
  | some (w, node) => match s2.walk? w with
    | none => s2
    | some wk =>
      let s3 := s2.updWalk w fun x => { x with running := x.running.filter fun r => (match r with
        | .copy n c _ => !(n == node && c == k.id)
        | _ => true) }
      s3.failNode wk node cause false

/-- A virtual range in pieces that lie each in one page of 4 KiB. -/
def pagePieces : Nat → Nat → Nat → List (Nat × Nat)
  | 0, _, _ => []
  | f + 1, va, n =>
    if n = 0 then []
    else
      let k := min n (4096 - va % 4096)
      (va % 2 ^ 64, k) :: pagePieces f (va + k) (n - k)

def piecesOf (r : Int × Nat) : List (Nat × Nat) :=
  let va := (r.1 % 2 ^ 64).toNat
  pagePieces (r.2 / 4096 + 2) va r.2

/-- A translated piece: physical address, owner, virtual address, bytes. -/
structure Piece where
  pa : Nat
  owner : Nat
  va : Nat
  n : Nat
  deriving DecidableEq, Repr

/-- What translating the pieces of a command comes to. -/
inductive Pieces
  | ok (s : State) (ps : List Piece)
  | again (s : State)
  | page (s : State) (va kind : Nat)
  | fail (s : State) (cause va : Nat)

/-- Translates pieces in order. A command that names the control window fails with 0x11 (R469). -/
def State.xlatePieces (s : State) (w : Who) (q : Want) (acc : List Piece) : List (Nat × Nat) → Pieces
  | [] => .ok s acc
  | p :: r =>
    match s.devXlate w { q with sysOk := true } p.1 with
    | .ok s' pa o =>
      if isWindow pa then .fail s' 0x11 p.1 else s'.xlatePieces w q (acc ++ [⟨pa, o, p.1, p.2⟩]) r
    | .again s' => .again s'
    | .absent s' => .page s' p.1 1
    | .fail s' c => if c = 0x12 then .page s' p.1 2 else .fail s' c p.1

/-- The command waits for a page (R477); without a ring the request is declined at once. -/
def State.cmdPage (s : State) (k : EngineCmd) (va kind : Nat) : State :=
  let declined := s.failCmd k (if kind = 2 then 0x12 else 0x10) va
  match k.space with
  | .boot => declined
  | .obj o =>
    if s.readPhys (o + 192) 8 = 0 then declined
    else (s.askPage k.cpart o va kind none (some k.id)).updCmd k.id fun x => { x with waitPage := some va }

/-- Bytes of pieces, in order. -/
def State.pieceBytes (s : State) (ps : List Piece) : List Byte := ps.flatMap fun p => s.getAt p.owner p.pa p.n

/-- The place of byte `x` of a row: physical address and owner. -/
def pieceAt : List Piece → Nat → Option (Nat × Nat)
  | [], _ => none
  | p :: r, x => if x < p.n then some (p.pa + x, p.owner) else pieceAt r (x - p.n)

/-- Writes bytes over pieces, in order, but those that `skip` names. -/
def State.putPieces (s : State) (skip : Nat → Bool) (ps : List Piece) (bs : List Byte) : State :=
  ((List.range bs.length).zip bs).foldl (fun s e =>
    match pieceAt ps e.1 with
    | some x => if skip e.1 then s else s.putAt x.2 x.1 [e.2]
    | none => s) s

/-- Every write over the pieces may be performed now. -/
def State.piecesOk (s : State) (ps : List Piece) : Bool := ps.all fun p => s.writeOk p.pa p.n

/-- Watch hits of a command (R460, R461): records, and the trap that its issuer takes at its next boundary. -/
def State.cmdHits (s : State) (k : EngineCmd) (rd wr : Bool) (ps : List Piece) : State :=
  match k.agent.bind s.agent? with
  | none => s
  | some a =>
    (s.watches k.cpart (s.pidOf a) rd wr).foldl (fun s w =>
      match watchHits w.2.1 w.2.2 (ps.map fun p => (0, p.va, p.n)) with
      | none => s
      | some h =>
        let s1 := s.trace k.cpart (s.joinedName a) 2 w.1 (if a.alive then 0 else 1) h.2
        if a.alive then s1.updAgent a.id fun a => { a with heldFaults := a.heldFaults ++
          [(⟨0x30, h.2, 0, 3 * 2 ^ 30 + (if k.coll then 2 ^ 29 else 0) + w.1 * 2 ^ 16 + k.num, false⟩, none)] }
        else
          let line := (s1.dbgOf k.cpart).tctl
          if line = 0 then s1 else s1.signalOwned k.cpart line) s

/-! ### Copies (R270 to R273) -/

/-- The conversion of one row (R271): element bytes, scale bytes. -/
def convertRow (conv : Nat) (bs : List Byte) : List Byte × List Byte :=
  let word := fun e => ofBytesLE (bs.drop (4 * e) |>.take 4)
  let n := bs.length / 4
  if conv = 0 then (bs, [])
  else if conv ≤ 4 then
    let f := convFmt conv
    ((List.range n).flatMap fun e => bytesLE (f.width / 8) (f.write .rne (Fmt.f32.read (word e))).code, [])
  else
    let f := convSx conv
    let w := sxWidth f
    let blocks := (List.range (n / 16)).map fun b => (sxPack f ((List.range 16).map fun k => word (16 * b + k))).1
    (blocks.flatMap fun b =>
      bytesLE (2 * w) (((List.range 16).zip b.codes).map fun e => e.2 * 2 ^ (e.1 * w)).sum,
     blocks.flatMap fun b => [BitVec.ofNat 8 b.x, BitVec.ofNat 8 b.u])

/-- A side of one row: pieces of memory, or permuted team addresses of words and of scale bytes. -/
inductive RowSide
  | mem (ps scales : List Piece)
  | team (words scales : List Nat)
  deriving DecidableEq, Repr

/-- The team side of row `r`. -/
def teamSide (l : Layout) (words scales r : Nat) : RowSide :=
  let as := (l.copyRow words scales r).map fun a => permuted a.toNat l.perm
  .team (as.take words) (as.drop words)

/-- The source bytes of a row. -/
def State.rowRead (s : State) (team n : Nat) : RowSide → List Byte
  | .mem ps _ => s.pieceBytes ps
  | .team ws _ =>
    let m := ((s.team? team).map (·.tmem)).getD []
    (ws.flatMap fun a => tmemRead m a 4).take n

/-- Writes a row but the bytes that `skip` names, those of its scales that `skipScale` names: bytes beyond the row in a team
side's last word are written as zero (R270). -/
def State.rowWrite (s : State) (team : Nat) (skip skipScale : Nat → Bool) (side : RowSide) (elems scales : List Byte) :
    State :=
  match side with
  | .mem ps ss => (s.putPieces skip ps elems).putPieces skipScale ss scales
  | .team ws ss =>
    let padded := elems ++ List.replicate (4 * ws.length - elems.length) 0
    let put := fun (skip : Nat → Bool) (m : Sparse Byte) (e : Nat × Nat × Byte) =>
      if skip e.1 then m else sput 0 m e.2.1 e.2.2
    let words := (List.range padded.length).zip ((ws.flatMap fun a => (List.range 4).map fun k => a + k).zip padded)
    s.updTeam team fun t => { t with
      tmem := ((List.range ss.length).zip (ss.zip scales)).foldl (put skipScale) (words.foldl (put skip) t.tmem) }

/-- Each byte as it stood before the copy or as the copy has made it, where the two differ (R271). -/
def State.eitherBytes (s : State) (row : Nat) (old now : List Byte) : List Byte :=
  ((List.range old.length).zip (old.zip now)).map fun e =>
    if e.2.1 = e.2.2 then e.2.2
    else if Config.freeBit s.fresh (row * 2 ^ 32 + e.1) then e.2.1 else e.2.2

/-- The granules of a row of `n` bytes whose tags are preserved (R272): the byte of the row each begins at, with its source
and destination places; `a` is the row's destination address. -/
def keptGranules (src dst : List Piece) (a : Int) (n : Nat) : List (Nat × (Nat × Nat) × (Nat × Nat)) :=
  let first := ((16 - a % 16) % 16).toNat
  (List.range ((n - first) / 16)).filterMap fun g =>
    match pieceAt src (first + 16 * g), pieceAt dst (first + 16 * g) with
    | some x, some y => some (first + 16 * g, x, y)
    | _, _ => none

/-- A granule with its tag is read and written as one (R272): as it was before the copy, or as it is now. -/
def State.copyGranule (s0 s : State) (stloc : Bool) (x : Nat × (Nat × Nat) × (Nat × Nat)) : State :=
  let c0 := s0.getCapAt x.2.1.2 x.2.1.1
  let c1 := s.getCapAt x.2.1.2 x.2.1.1
  let c := if c0 = c1 then c1 else if Config.freeBit s.fresh (2 ^ 60 + x.2.1.1) then c0 else c1
  if c.tag && (c.has permGLOB || stloc) then s.putCapAt x.2.2.2 x.2.2.1 c
  else s.putAt x.2.2.2 x.2.2.1 (bytesLE 16 c.bits.toNat)

/-- The kept granules of row `r` of a copy. -/
def EngineCmd.kept (k : EngineCmd) (r : Nat) (src dst : RowSide) : List (Nat × (Nat × Nat) × (Nat × Nat)) :=
  let c := copyShape k.words
  let a := quadCap k.words 0 (k.tags.getD 0 false)
  let b := quadCap k.words 1 (k.tags.getD 1 false)
  let from_ : Int := (a.addr : Int) + r * csw k.words 11
  let dest : Int := (b.addr : Int) + r * csw k.words 12
  match src, dst with
  | .mem xs _, .mem ys _ =>
    if c.conv = 0 && (from_ - dest) % 16 = 0 && a.has permLDC && b.has permSTC then keptGranules xs ys dest c.len else []
  | _, _ => []

/-- The unit of a row that holds byte `i` of its elements: what is copied in one access (R272, R295), a byte, the granule
whose tag is preserved, a converted element, or an sx block with its scales. -/
def CopyShape.unitOf (c : CopyShape) (kept : List Nat) (i : Nat) : Nat :=
  if c.conv = 0 then (kept.find? fun g => g ≤ i && i < g + 16).getD i
  else min i (c.elems - 1) / (if c.conv ≤ 2 then 2 else if c.conv ≤ 4 then 1 else 2 * sxWidth (convSx c.conv))

/-- One row of a copy (R271, R272), from the state `s0` before the step: the units that are not copied yet, of which only
the one given. -/
def State.copyRow (s0 s : State) (k : EngineCmd) (only : Option Nat) (r : Nat) (src dst : RowSide) : State :=
  let c := copyShape k.words
  let out := convertRow c.conv
    (s.eitherBytes r (s0.rowRead k.team c.len src) (s.rowRead k.team c.len src))
  let kept := k.kept r src dst
  let skip := fun u => k.done.contains (r, u) || only.any fun x => x != u
  let inKept := fun i => kept.any fun g => g.1 ≤ i && i < g.1 + 16
  let s1 := s.rowWrite k.team (fun i => inKept i || skip (c.unitOf (kept.map (·.1)) i)) (fun q => skip (q / 2)) dst
    out.1 out.2
  let stloc := (quadCap k.words 1 (k.tags.getD 1 false)).has permSTLOC
  kept.foldl (fun z x => if skip x.1 then z else State.copyGranule s z stloc x) s1

/-- The sides of the rows of a copy, translated; or what stopped the translation, with the rows before it. -/
inductive RowsX
  | ok (s : State) (rows : List (Nat × RowSide × RowSide))
  | again (s : State)
  | page (s : State) (va kind : Nat)
  | fail (s : State) (cause va : Nat) (rows : List (Nat × RowSide × RowSide))

/-- One side of a row: its pieces, or the outcome that stops the command. -/
def State.sideX (s : State) (k : EngineCmd) (c : Cap) (write : Bool) (rows : List (Int × Nat)) : Pieces :=
  if !c.tag then .fail s 0x08 ((rows.map fun r => (r.1 % 2 ^ 64).toNat).headD 0)
  else s.xlatePieces k.who (c.want write) [] (rows.flatMap piecesOf)

/-- Translates rows in order (R267). -/
def State.rowsX (s : State) (k : EngineCmd) (acc : List (Nat × RowSide × RowSide)) : List Nat → RowsX
  | [] => .ok s acc
  | r :: rest =>
    let c := copyShape k.words
    let a := quadCap k.words 0 (k.tags.getD 0 false)
    let b := quadCap k.words 1 (k.tags.getD 1 false)
    let src := if c.steam then Pieces.ok s [] else s.sideX k a false [((a.addr : Int) + r * csw k.words 11, c.len)]
    match src with
    | .again s' => .again s'
    | .page s' va kind => .page s' va kind
    | .fail s' cause va => .fail s' cause va acc
    | .ok s1 xs =>
      let dst := if c.dteam then Pieces.ok s1 []
        else s1.sideX k b true [((b.addr : Int) + r * csw k.words 12, c.elems)]
      match dst with
      | .again s' => .again s'
      | .page s' va kind => .page s' va kind
      | .fail s' cause va => .fail s' cause va acc
      | .ok s2 ys =>
        let scl := if c.dteam || !c.isSx then Pieces.ok s2 []
          else s2.sideX k b true [((b.addr : Int) + cw k.words 13 + r * c.scales, c.scales)]
        match scl with
        | .again s' => .again s'
        | .page s' va kind => .page s' va kind
        | .fail s' cause va => .fail s' cause va acc
        | .ok s3 zs =>
          let from_ := if c.steam then teamSide (layoutOf (k.words.take 3)) ((c.len + 3) / 4) 0 r else .mem xs []
          let into := if c.dteam then teamSide (layoutOf (k.words.drop 4 |>.take 3)) ((c.elems + 3) / 4) c.scales r
            else .mem ys zs
          s3.rowsX k (acc ++ [(r, from_, into)]) rest

/-- The pieces of memory that rows read or write. -/
def RowSide.pieces : RowSide → List Piece
  | .mem ps ss => ps ++ ss
  | .team _ _ => []

/-- Rows are copied in ascending or in descending order, a free choice (R271). -/
def State.copyRows (s : State) (k : EngineCmd) (rows : List (Nat × RowSide × RowSide)) : State :=
  let order := if Config.freeBit s.fresh 0 then rows else rows.reverse
  order.foldl (fun z r => State.copyRow s z k none r.1 r.2.1 r.2.2) s

/-- A copy that runs copies one unit of a row, in no fixed order (R271, R295). -/
def State.copyUnit (s : State) (id r u : Nat) : State :=
  match s.cmds.find? fun c => c.id == id && !c.coll && c.waitPage.isNone with
  | none => s
  | some k =>
    if (copyShape k.words).rows ≤ r || k.done.contains (r, u) then s
    else match s.rowsX k [] [r] with
      | .ok s' rows =>
        if rows.all fun x => s'.piecesOk x.2.2.pieces then
          (rows.foldl (fun z x => State.copyRow s' z k (some u) x.1 x.2.1 x.2.2) s').updCmd id fun c =>
            { c with done := (r, u) :: c.done }
        else s'
      | .again s' => s'
      | _ => s

/-- A copy finishes: its reads and writes that are left, its token (R271 to R273); or it meets a page to wait for, or a fault,
when a free choice of its earlier rows stays written (R267). -/
def execCopyCompletion (k : Nat) (s : State) : Out :=
  match s.cmds.find? fun c => c.id == k && !c.coll && c.waitPage.isNone with
  | none => .next s
  | some c =>
    match s.rowsX c [] (List.range (copyShape c.words).rows) with
    | .again s' => .next s'
    | .page s' va kind => .next (s'.cmdPage c va kind)
    | .fail s' cause va rows =>
      let some_ := rows.filter fun r => s'.piecesOk r.2.2.pieces && Config.freeBit s'.fresh (r.1 + 1)
      .next ((s'.copyRows c some_).failCmd c cause va)
    | .ok s' rows =>
      let dst := rows.flatMap fun r => r.2.2.pieces
      if !s'.piecesOk dst then .next s'
      else
        let s1 := (s'.copyRows c rows).endCmd c
        .next ((s1.cmdHits c true false (rows.flatMap fun r => r.2.1.pieces)).cmdHits c false true dst)

/-! ### Collectives (R275 to R277) -/

/-- One level of the tree (R276). -/
def combLevel (f : Nat → Nat → Nat) : List Nat → List Nat
  | x :: y :: r => f x y :: combLevel f r
  | xs => xs

/-- The tree over the ranks' values. -/
def combTree (f : Nat → Nat → Nat) : Nat → List Nat → Nat
  | 0, xs => xs.headD 0
  | n + 1, xs => if xs.length ≤ 1 then xs.headD 0 else combTree f n (combLevel f xs)

/-- Combining two binary32 values. -/
def combTwo (rop x y : Nat) : Nat :=
  if rop = 0 then (Fmt.f32.add .rne x y).code else (Fmt.f32.pick (rop == 2) x y).code

/-- The reduction of one element (R276), given as its bytes from each rank in ascending order. -/
def reduceElem (ws : List Word) (xs : List Nat) : Nat :=
  let wide := if collType ws = 0 then xs else xs.map fun x => x * 2 ^ 16
  let t := combTree (combTwo (collRop ws)) xs.length wide
  if collType ws = 0 then t else (Fmt.bf16.write .rne (Fmt.f32.read t)).code

/-- Element `i` of a source. -/
def elemOf (e : Nat) (bs : List Byte) (i : Nat) : Nat := ofBytesLE (bs.drop (e * i) |>.take e)

/-- What rank `r` receives from the sources of the ranks in ascending order (R275). -/
def collResult (ws : List Word) (r : Nat) (srcs : List (List Byte)) : List Byte :=
  let e := collElem ws
  let n := collCount ws
  match collOp ws with
  | 0 => (List.range n).flatMap fun i => bytesLE e (reduceElem ws (srcs.map fun b => elemOf e b i))
  | 1 => (List.range n).flatMap fun i => bytesLE e (reduceElem ws (srcs.map fun b => elemOf e b (r * n + i)))
  | 2 => srcs.flatMap id
  | _ => srcs.getD (collRoot ws) []

/-- The sources of an instance that the engine has read. -/
def State.sourcesOf (s : State) (obj inst : Nat) : List CollSource :=
  s.collSrcs.filter fun x => x.obj == obj && x.inst == inst

/-- The bytes for a participant's destination: none while a source it needs has not been read; free ones when the
instance is broken, when fields differ, or when a source was lost to a fault (R275, R277). -/
def State.collBytes (s : State) (k : EngineCmd) (n len : Nat) : Option (List Byte) :=
  let free := (List.range len).map fun i => Config.freeByte s.fresh (k.id * 2 ^ 40 + i)
  let broken := s.colls.any fun c => c.pa == k.obj && c.broken.contains k.inst
  let xs := s.sourcesOf k.obj k.inst
  let needed := if collOp k.words = 3 then [collRoot k.words] else List.range n
  if broken then some free
  else if !(needed.all fun r => xs.any fun x => x.rank == r) then none
  else if xs.any (fun x => x.key != collKey k.words || x.bytes.isNone) then some free
  else some (collResult k.words k.rank ((List.range n).map fun r =>
    ((xs.find? fun x => x.rank == r).bind fun x => x.bytes).getD []))

/-- Instances of one rank run in order (R275): none before it is accepted and running, or still in a queue. -/
def State.rankTurn (s : State) (k : EngineCmd) : Bool :=
  !(s.cmds.any fun x => x.coll && x.obj == k.obj && x.rank == k.rank && x.inst < k.inst)
    && !(s.agents.any fun a => a.qcoll.any fun x => x.obj == k.obj && x.rank == k.rank && x.inst < k.inst)

/-- The engine reads a participant's source, once. -/
def State.readSource (s : State) (k : EngineCmd) (n : Nat) : State :=
  let done : State → Option (List Byte) → State := fun s b =>
    ({ s with collSrcs := s.collSrcs ++ [(⟨k.obj, k.inst, k.rank, collKey k.words, b⟩ : CollSource)] }).updCmd k.id
      fun x => { x with seen := true }
  if !collReads k.words k.rank then done s (some [])
  else
    let c := quadCap k.words 1 (k.tags.getD 1 false)
    match s.sideX k c false [((c.addr : Int), collSrcLen k.words n)] with
    | .again s' => s'
    | .page s' va kind => s'.cmdPage k va kind
    | .fail s' cause va => s'.failCmd k cause va
    | .ok s' ps => (done s' (some (s'.pieceBytes ps))).cmdHits k true false ps

/-- A participant's destination is written and its token posts (R277). -/
def State.writeDest (s : State) (k : EngineCmd) (n : Nat) : State :=
  let c := quadCap k.words 2 (k.tags.getD 2 false)
  match s.collBytes k n (collDstLen k.words n) with
  | none => s
  | some bs =>
    match s.sideX k c true [((c.addr : Int), collDstLen k.words n)] with
    | .again s' => s'
    | .page s' va kind => s'.cmdPage k va kind
    | .fail s' cause va => s'.failCmd k cause va
    | .ok s' ps =>
      if !s'.piecesOk ps then s'
      else ((s'.putPieces (fun _ => false) ps bs).endCmd k).cmdHits k false true ps

/-- A step of a collective command: the engine reads its source; then, once the sources it needs have been read, its
destination is written. -/
def execCollectiveCompletion (k : Nat) (s : State) : Out :=
  match s.cmds.find? fun c => c.id == k && c.coll && c.waitPage.isNone with
  | none => .next s
  | some c =>
    let n := s.readPhys c.obj 4 % 2 ^ 16 + 1
    if !s.rankTurn c then .next s
    else if !(c.tags.getD 0 false) then .next (s.failCmd c 0x08 (quadCap c.words 0 false).addr)
    else if !c.seen then .next (s.readSource c n)
    else .next (s.writeDest c n)

end Sys2Proof.Machine
end

