-- ==== Sys2Proof/Machine/Pages.lean ====
section
/-!
DEFINITION. Page requests (20 R477) and the pool retry of a first touch (R384).
-/

namespace Sys2Proof.Machine

/-- The ring of an address space: base, size, PRQT, PRQH (R372). -/
def State.ring (s : State) (o : Nat) : Nat × Nat × Nat × Nat :=
  (s.readPhys (o + 192) 8, 2 ^ (s.readPhys (o + 200) 4 % 8), s.readPhys (o + 204) 4, s.readPhys (o + 208) 4)

/-- How many entries of a ring are pending: PRQT minus PRQH modulo 2^32. -/
def ringPending (r : Nat × Nat × Nat × Nat) : Nat := (r.2.2.1 + 2 ^ 32 - r.2.2.2) % 2 ^ 32

/-- The places of the pending entries of a ring that name the page and kind. -/
def State.pendingEntry (s : State) (o va kind : Nat) : Option Nat :=
  let r := s.ring o
  ((List.range (min (ringPending r) r.2.1)).map fun k => (r.2.2.1 + 2 ^ 32 - 1 - k) % 2 ^ 32 % r.2.1).find? fun i =>
    let a := r.1 + 32 * i
    s.readPhys (a + 12) 4 == 1 && s.readPhys a 8 == va && s.readPhys (a + 8) 4 == kind

/-- A request ends: a `pgreq` posts, an engine command goes on or ends, with the address that failed (R267, R477). -/
def State.endPage (s : State) (p : PageReq) (served : Bool) : State :=
  let s1 : State := { s with pages := s.pages.filter fun x => x.id != p.id }
  let s2 := match p.agent with
    | none => s1
    | some (id, n) => s1.updAgent id fun a =>
        match a.outst.find? fun o => o.num == n with
        | none => a
        | some o => ({ a with outst := a.outst.filter fun x => x.num != n }).post o.tk
  match p.cmd with
  | none => s2
  | some c =>
    match s2.cmds.find? fun k => k.id == c with
    | none => s2
    | some k =>
      let s3 := s2.updCmd c fun x => { x with waitPage := none }
      if served then s3 else s3.failCmd { k with waitPage := none } (if p.kind = 2 then 0x12 else 0x10) (k.waitPage.getD p.va)

/-- Request `k` is remembered as standing in place `i` of its ring. -/
def State.markPosted (s : State) (k i : Nat) : State :=
  { s with pages := s.pages.map fun x => if x.id = k then { x with posted := some i } else x }

/-- The new entry of request `p` at the place PRQT names: VA, kind, STAT 1. -/
def State.writeEntry (s : State) (p : PageReq) (r : Nat × Nat × Nat × Nat) : State :=
  let s1 := s.writePhys (r.1 + 32 * (r.2.2.1 % r.2.1)) 32 (p.va + p.kind * 2 ^ 64 + 1 * 2 ^ 96)
  s1.writePhys (p.space + 204) 4 (r.2.2.1 + 1)

/-- The line the address space names for its page requests is signalled; no line where it holds zero. -/
def State.signalPages (s : State) (p o : Nat) : State :=
  let line := s.readPhys (o + 24) 8
  if line = 0 then s else s.signalOwned p line

/-- The ring's next place lies in the memory of the request's partition; another is not reached (R28, R453). -/
def State.ringOwned (s : State) (p : PageReq) (r : Nat × Nat × Nat × Nat) : Bool :=
  s.fabric.owns p.cpart (r.1 + 32 * (r.2.2.1 % r.2.1))

/-- A request enters the ring, joins a pending entry of its page and kind, or is declined because there is no ring
(R477). -/
def execPageRequestPost (k : Nat) (s : State) : Out :=
  match s.pages.find? fun p => p.id == k && p.posted.isNone with
  | none => .next s
  | some p =>
    let r := s.ring p.space
    if r.1 = 0 || !s.ringOwned p r then .next (s.endPage p false)
    else match s.pendingEntry p.space p.va p.kind with
      | some i => .next (s.markPosted k i)
      | none =>
        if r.2.1 ≤ ringPending r || !s.writeOk (r.1 + 32 * (r.2.2.1 % r.2.1)) 32 || !s.writeOk (p.space + 204) 4 then .next s
        else .next (((s.writeEntry p r).signalPages p.cpart p.space).markPosted k (r.2.2.1 % r.2.1))

/-- Whose access a page request is for: the home of its first touch. -/
def State.pageWho (s : State) (p : PageReq) : Who :=
  let d := match p.agent with
    | some (id, _) => ((s.agent? id).map Agent.die).getD 4
    | none => ((s.cmds.find? fun k => some k.id == p.cmd).map EngineCmd.die).getD 4
  ⟨d, p.cpart, .obj p.space, 1, 0, none⟩

/-- Place `i` of a ring is pending and is still the entry of the request: nothing else has taken it (R477). -/
def State.stillIn (s : State) (p : PageReq) (i : Nat) : Bool :=
  let r := s.ring p.space
  let a := r.1 + 32 * i
  ((List.range (min (ringPending r) r.2.1)).any fun k => (r.2.2.1 + 2 ^ 32 - 1 - k) % 2 ^ 32 % r.2.1 == i)
    && s.readPhys a 8 == p.va && s.readPhys (a + 8) 4 == p.kind

/-- A waiter walks and reads STAT again (R477). A walk that meets a first-touch leaf makes the touch (R384). STAT is
read only while the entry is pending and the request's. -/
def execPageRequestRecheck (k : Nat) (s : State) : Out :=
  match s.pages.find? fun p => p.id == k with
  | none => .next s
  | some p =>
    if s.pageServed p.cpart p.space p.va p.kind then .next (s.endPage p true)
    else match s.walk (s.pageWho p) p.va with
      | .touch a e z =>
        (match s.firstTouch (s.pageWho p) a e z with
        | .done s' => .next s'
        | .wait s' => .next s'
        | .declined s' => .next (s'.endPage p false))
      | _ => match p.posted with
        | none => .next s
        | some i =>
          if s.stillIn p i && s.readPhys ((s.ring p.space).1 + 32 * i + 12) 4 == 3 then .next (s.endPage p false)
          else .next s

/-- The pool that a held first-touch entry waits for has a frame or declines (R384). -/
def State.poolReady (s : State) (o a h : Nat) : Bool :=
  let e := s.readPhys a 8
  let w := s.readPhys (poolAt o (2 * h + (if pteS64 e then 0 else 1)) + 8) 4
  !pteFt e || (!w.testBit 31 && (field w 0 24 != 0 || w.testBit 30))

/-- A stalled first touch goes on once the pool has a frame or declines, or the entry is settled: the instruction
issues again (R384). -/
def execFirstTouchPoolRetry (agent : Nat) (s : State) : Out :=
  match s.agent? agent with
  | none => .next s
  | some a =>
    match a.touching, a.space with
    | some t, .obj o =>
      let ready := match s.touches.find? fun x => x.1 == t.entry with
        | some x => s.poolReady o t.entry x.2
        | none => true
      if ready then .next (s.updAgent agent fun b => { b with touching := some { t with ready := true } }) else .next s
    | _, _ => .next s

end Sys2Proof.Machine
end

