-- ==== Sys2Proof/Machine/Launch.lean ====
section
/-!
DEFINITION. Launches and graphs as they are submitted (08 R186, 21 R385 to R390, R401, 26 R457).
-/

namespace Sys2Proof.Machine

/-! ### The scheduling context (R385, R386) -/

def State.ctxCtl (s : State) (ctx : Nat) : Nat := s.readPhys (ctx + 96) 4
def ctlPrio (c : Nat) : Nat := field c 0 3
def ctlBmode (c : Nat) : Nat := field c 3 2
def ctlHchk (c : Nat) : Bool := c.testBit 5
def ctlPart (c : Nat) : Nat := field c 6 2

/-- Partition `p` holds a compute die. -/
def Fabric.hasDie (f : Fabric) (p : Nat) : Bool := (List.range 4).any fun d => f.diePart d == p

/-! ### The grid descriptor (R388) -/

/-- The bytes of a descriptor, read whole, and its nine capabilities. -/
structure Descriptor where
  bytes : List Byte
  caps : List Cap
  deriving DecidableEq, Repr

def Descriptor.word (d : Descriptor) (o : Nat) : Nat := ofBytesLE (d.bytes.drop o |>.take 4)
def Descriptor.dword (d : Descriptor) (o : Nat) : Nat := ofBytesLE (d.bytes.drop o |>.take 8)
def Descriptor.cap (d : Descriptor) (k : Nat) : Cap := d.caps.getD k .null

/-- Reads a descriptor over its translated pieces. -/
def State.readDescriptor (s : State) (ps : List Piece) : Descriptor :=
  ⟨s.pieceBytes ps, (List.range 9).map fun k => match pieceAt ps (16 * k) with
    | some (pa, o) => s.getCapAt o pa
    | none => .null⟩

def Descriptor.fcores (d : Descriptor) : Nat := field (d.word 156) 0 4
def Descriptor.nroles (d : Descriptor) : Nat := field (d.word 156) 4 2 + 1
def Descriptor.matrix (d : Descriptor) : Bool := (d.word 156).testBit 6
def Descriptor.tmem (d : Descriptor) : Nat := field (d.word 156) 8 8 * 4096
def Descriptor.spawn (d : Descriptor) : Nat := field (d.word 156) 16 11
def Descriptor.dims (d : Descriptor) : Nat × Nat × Nat := (d.word 144 + 1, d.word 148 + 1, d.word 152 + 1)
def Descriptor.nreads (d : Descriptor) : Nat := field (d.word 176) 0 4
def Descriptor.nwrites (d : Descriptor) : Nat := field (d.word 176) 4 4
def Descriptor.nregions (d : Descriptor) : Nat := field (d.word 176) 8 4

def Descriptor.roles (d : Descriptor) : List Role :=
  (List.range d.nroles).map fun k =>
    let w := d.word (160 + 4 * k)
    ⟨field w 0 11, (field w 11 8 + 1) * 4, field w 19 8 + 1, d.cap k, d.cap (4 + k)⟩

def Descriptor.ranges (d : Descriptor) (at_ n : Nat) : List (Nat × Nat) :=
  (List.range n).map fun k => (d.dword (at_ + 16 * k), d.dword (at_ + 16 * k + 8))

def Descriptor.regions (d : Descriptor) : List (Nat × Nat) :=
  (List.range d.nregions).map fun k => (d.word (192 + 8 * k), d.word (196 + 8 * k))

/-- Groups of a team. -/
def groupCount (rs : List Role) : Nat := (rs.map (·.groups)).sum

/-- The role of group `g` (R32). -/
def roleOf : List Role → Nat → Nat
  | [], _ => 0
  | r :: rest, g => if g < r.groups then 0 else 1 + roleOf rest (g - r.groups)

/-- The quota of the largest role. -/
def maxQuota (rs : List Role) : Nat := (rs.map (·.quota)).foldl max 0

/-- How many of `n` things dealt out over `f` cores fall on core `k` (R32). -/
def dealt (n f k : Nat) : Nat := ((List.range n).filter fun j => j % f == k).length

/-- Register lines that the team of a shape takes on footprint core `k` (R31). -/
def quotaOn (rs : List Role) (spawn f k : Nat) : Nat :=
  (((List.range (groupCount rs)).filter fun g => g % f == k).map fun g =>
    (rs.getD (roleOf rs g) ⟨0, 0, 0, .null, .null⟩).quota).sum + dealt spawn f k * maxQuota rs

/-- The shape keeps R29 and R31, and the reserved fields are zero (status 1). -/
def Descriptor.shapeOk (d : Descriptor) : Bool :=
  let sh := d.word 156
  let rs := d.roles
  let g := groupCount rs
  d.dims.1 * d.dims.2.1 * d.dims.2.2 ≤ 2 ^ 32 && sh / 2 ^ 27 == 0 && !sh.testBit 7
    && (List.range 4).all (fun k => d.word (160 + 4 * k) / 2 ^ 27 == 0) && d.word 176 / 2 ^ 12 == 0
    && 1 ≤ d.fcores && d.fcores ≤ 12 && d.tmem ≤ 524288 && g ≤ 144 * d.fcores && d.spawn + g ≤ 144 * d.fcores
    && rs.all fun r => 1 ≤ r.groups && r.quota ≤ r.budget / 4

/-- A capability that is null: all 128 bits zero, untagged. -/
def Cap.isNull (c : Cap) : Bool := c == Cap.null

/-- The capabilities of bytes 0 to 143 keep their rows (status 4). -/
def Descriptor.capsOk (d : Descriptor) : Bool :=
  (List.range 4).all (fun k =>
    let e := d.cap k
    let l := d.cap (4 + k)
    if k < d.nroles then e.tag && (e.sealType == 0 || e.sealType == 9) && e.has permXS
      && (l.isNull || (l.tag && l.has permXL))
    else e.isNull && l.isNull) && (let a := d.cap 8
      a.tag || a.isNull)

/-- Counts, regions and ranges keep their limits (status 5). -/
def Descriptor.listsOk (d : Descriptor) : Bool :=
  let rg := d.regions
  d.nregions ≤ 4 && d.nwrites ≤ 8 && d.nreads ≤ 8 && rg.all (fun r => r.1 < r.2)
    && (List.range rg.length).all (fun i => (List.range i).all fun j =>
      let a := rg.getD i (0, 0)
      let b := rg.getD j (0, 0)
      a.2 ≤ b.1 || b.2 ≤ a.1)
    && (d.ranges 256 d.nreads ++ d.ranges 384 d.nwrites).all fun r => r.1 + r.2 ≤ 2 ^ 56

/-- Bytes of a team image (R390). -/
def imageBytes (rs : List Role) (spawn fcores tmem : Nat) (matrix : Bool) : Nat :=
  (groupCount rs + spawn) * 135168 + fcores * tmem + (if matrix then fcores * 131072 else 0)

/-- One team fits on empty cores, and IMAGE holds one image (status 6). -/
def Descriptor.fitsEmpty (d : Descriptor) (image : Nat) : Bool :=
  (List.range d.fcores).all (fun k => quotaOn d.roles d.spawn d.fcores k ≤ 2048
    && dealt (groupCount d.roles) d.fcores k + dealt d.spawn d.fcores k ≤ 144)
    && imageBytes d.roles d.spawn d.fcores d.tmem d.matrix ≤ image

/-- The status of R389, 0 on acceptance. -/
def State.launchStatus (s : State) (ctx : Nat) (d : Descriptor) : Nat :=
  let c := s.ctxCtl ctx
  if !d.shapeOk then 1
  else if c / 2 ^ 8 ≠ 0 || ctlBmode c = 3 || !s.fabric.hasDie (ctlPart c) then 2
  else if !d.capsOk then 4
  else if !d.listsOk then 5
  else if !d.fitsEmpty (areaLength (s.capPhys (ctx + 80))) then 6
  else if 256 ≤ (s.launches.filter fun l => l.ctx == ctx).length || 4096 ≤ s.launches.length then 3
  else 0

/-- On whose behalf a launch is accepted: address space, process and thread, the launching system core, the operation
that brings the status. -/
structure Submitter where
  space : SpaceRef
  pid : Nat
  tid : Nat
  core : Option Nat
  acked : Option (Nat × Nat)
  deriving DecidableEq, Repr

/-- PERIOD in ns, 0 without a budget (R387). -/
def State.periodNs (s : State) (ctx : Nat) : Nat := if s.readPhys (ctx + 104) 4 = 0 then 0 else s.readPhys (ctx + 108) 4 * 1000

/-- The scheduler keeps a record of the context from its first launch on. -/
def State.openCtx (s : State) (ctx : Nat) : State :=
  if s.ctxs.any fun c => c.ctx == ctx then s
  else
    { s with ctxs := s.ctxs ++ [⟨ctx, 0, s.time, s.time, false, false⟩] }

/-- The time at which a launch's record opens: its acceptance, or the arming write of its system core (R457). -/
def State.armedStart (s : State) (core : Option Nat) : Nat :=
  match core with
  | none => s.time
  | some c => let d := s.coreDebug c
    if d.acct = 1 then d.armedAt.getD s.time else s.time

/-- An armed core's ACCT takes the launch id (R457). -/
def State.stampCore (s : State) (core : Option Nat) (id : Nat) : State :=
  match core with
  | none => s
  | some c => { s with cores := s.cores.map fun d =>
      if d.core = c && d.acct = 1 && d.armedAt.isSome then
        { d with acct := id % 2 ^ 56 * 2 ^ 8 + 1, armedAt := none }
      else d }

/-- The stamps SYS, DRV, FAULT, IOWAIT, ENGINE, OTHER at acceptance: what lies between the arming write and the
acceptance is charged to SYS or to OTHER, which the manual leaves open (R457). -/
def firstStamps (sys : Bool) (ns : Nat) : List Nat := if sys then [ns, 0, 0, 0, 0, 0] else [0, 0, 0, 0, 0, ns]

/-- Accepts a launch or refuses it (R389): the new state and the status; the launch takes the next id. -/
def State.submit (s : State) (ctx : Nat) (ctxCap : Cap) (d : Descriptor) (by_ : Submitter) : State × Nat :=
  let st := s.launchStatus ctx d
  if st ≠ 0 then (s, st)
  else
    let c := s.ctxCtl ctx
    let l : Launch := {
      id := s.nextLaunch
      ctx := ctx
      ctxCap := ctxCap
      space := by_.space
      domain := ctxCap.owner
      cpart := ctlPart c
      prio := ctlPrio c
      bmode := ctlBmode c
      hchk := ctlHchk c
      dims := d.dims
      fcores := d.fcores
      spawnSlots := d.spawn
      tmemBytes := d.tmem
      matrix := d.matrix
      roles := d.roles
      arg := d.cap 8
      regions := d.regions
      reads := d.ranges 256 d.nreads
      writes := d.ranges 384 d.nwrites
      nextTeam := 0
      killed := false
      lost := false
      pid := by_.pid
      tid := by_.tid
      start := s.armedStart by_.core
      stamps := firstStamps (Config.freeBit s.fresh 0) (s.time - s.armedStart by_.core)
      reserved := []
      waiting := []
      acked := by_.acked }
    let s1 : State := { s with launches := s.launches ++ [l], nextLaunch := s.nextLaunch + 1 }
    ((s1.openCtx ctx).stampCore by_.core l.id, 0)

/-! ### glaunch (R186) -/

/-- The checks of R98 and R385 on a scheduling context. -/
def ctxCheck (c : Cap) : Option Nat :=
  match c.checkObject 2 [permLD] with
  | some cause => some cause
  | none => if c.top < c.base + 128 then some 0x0B else if c.base % 128 ≠ 0 then some 0x0C else none

/-- The submitter that the agent in focus is. -/
def State.submitter (s : State) (num : Nat) : Submitter :=
  ⟨s.ag.space, s.pidOf s.ag, s.tidOf s.ag, if s.ag.isSys then some s.ag.core else none, some (s.ag.id, num)⟩

/-- `glaunch`: the descriptor, then the context are checked; the acceptance is a release at .dev. -/
def execGlaunch (d a b : Nat) (tk : Option Nat) (s : State) : Out :=
  let g := s.rc a
  let x := s.rc b
  s.gate (capLocs a ++ capLocs b)
    (match g.checkPlain [permLD] g.addr 512 64 with
    | some cause => s.scalarTrap cause g.addr kindLoad
    | none => match ctxCheck x with
      | some cause => s.scalarTrap cause x.addr kindNone
      | none => match s.xlatePieces s.ag.who (g.want false) [] (piecesOf ((g.addr : Int), 512)) with
        | .again s' => .next s'
        | .page s' va kind => s'.scalarTrap (if kind = 2 then 0x12 else 0x10) va kindLoad
        | .fail s' cause va => s'.scalarTrap cause va kindLoad
        | .ok s1 ps => match s1.devXlate s.ag.who (x.want false) x.base with
          | .again s' => .next s'
          | .absent _ => s.scalarTrap 0x10 x.base kindNone
          | .fail s' cause => s'.scalarTrap cause x.base kindNone
          | .ok s2 ctx _ =>
            if !s2.released sendPaths .dev then .next s2
            else
              let s3 := s2.publishMine
              let r := s3.submit ctx x (s3.readDescriptor ps) (s3.submitter s3.ag.nextOp)
              .next ((r.1.endWith false tk [(.s d, BitVec.ofNat 32 r.2)]).advance 4))

/-! ### gsub (R401) -/

/-- The walk that a submission would start. -/
def State.newWalk (s : State) (g : Cap) (pa : Nat) : Walk :=
  ⟨s.nextWalk, g, pa, s.ag.space, s.ag.mode, s.ag.domain, s.ag.cpart, s.pidOf s.ag, s.tidOf s.ag, 0, [], false, false,
    some (s.ag.id, s.ag.nextOp)⟩

/-- The header keeps its limits (R401). -/
def State.headerOk (s : State) (w : Walk) (nn : Nat) : Bool :=
  nn ≠ 0 && nn / 2 ^ 11 == 0 && w.graph.base + 64 + 64 * (nn % 2 ^ 11) ≤ w.graph.top
    && (match s.graphCap w (w.graph.base + 32) with
      | some f => !f.tag || (f.sealType == 4 && f.has permST)
      | none => false)

/-- The status of a submission. -/
def State.graphStatus (s : State) (w : Walk) : Nat :=
  if 4096 ≤ s.launches.length then 3
  else if s.graphRead w (w.graph.base + 4) 4 = some 1 then 8
  else if !s.headerOk w ((s.graphRead w w.graph.base 4).getD 0) then 9
  else 0

/-- Acceptance of a graph: STATE ← 1, the walk begins at node 0. -/
def State.startWalk (s : State) (w : Walk) : State :=
  let s1 : State := { s with walks := s.walks ++ [w], nextWalk := s.nextWalk + 1 }
  match s1.graphWrite w (w.graph.base + 4) 4 1 with
  | none => (s1.graphLost w).settleWalk w.id
  | some s2 => match s2.graphWrite w (w.graph.base + 8) 4 0 with
    | none => (s2.graphLost w).settleWalk w.id
    | some s3 => s3

/-- `gsub`: a graph of type 5 with LD. -/
def execGsub (d a : Nat) (tk : Option Nat) (s : State) : Out :=
  let g := s.rc a
  s.gate (capLocs a)
    (match g.checkObject 5 [permLD] with
    | some cause => s.scalarTrap cause g.addr kindNone
    | none => match s.devXlate s.ag.who (g.want false) g.base with
      | .again s' => .next s'
      | .absent _ => s.scalarTrap 0x10 g.base kindNone
      | .fail s' cause => s'.scalarTrap cause g.base kindNone
      | .ok s1 pa _ =>
        if !s1.released sendPaths .dev then .next s1
        else
          let s2 := s1.publishMine
          let w := s2.newWalk g pa
          let st := s2.graphStatus w
          let s3 := if st = 0 then s2.startWalk w else s2
          .next ((s3.endWith false tk [(.s d, BitVec.ofNat 32 st)]).advance 4))

end Sys2Proof.Machine
end

