-- ==== Sys2Proof/Machine/LaneMisc.lean ====
section
/-!
DEFINITION. Conversions, sx blocks, predicates, moves, constants, random numbers, delays of the lane stream
(09 R203 to R211).
-/

namespace Sys2Proof.Machine

/-! ### cvt (R203, R119) -/

/-- The byte of an FP8 operand: a register or latch supplies byte `bsel`, the other kinds their value. -/
def State.srcFp8 (s : State) (f : Fmt) (lane bsel : Nat) (a : Src) : Nat :=
  match a with
  | .vreg _ | .sreg _ | .latch _ => (s.srcWord lane a).toNat / 2 ^ (8 * bsel) % 256
  | a => s.srcFp f lane a

/-- A source of `cvt` as an exact value. -/
def State.cvtFloat (s : State) (sty : Ty) (lane bsel : Nat) (a : Src) : FVal :=
  let f := Fmt.ofTy sty
  f.read (if sty.isFp8 then s.srcFp8 f lane bsel a else s.srcFp f lane a)

/-- One conversion, without the placement of an FP8 result. -/
def State.cvtValue (s : State) (rnd : Rnd) (sat : Bool) (dty sty : Ty) (lane bsel : Nat) (a : Src) : DWord × Flags :=
  if sty.isInt then
    let x := intVal sty (s.srcInt sty.isPair lane a)
    if dty.isInt then satRes dty sat x else fpOut ((Fmt.ofTy dty).ofInt rnd x)
  else
    let v := s.cvtFloat sty lane bsel a
    if dty.isInt then
      let r := floatToInt dty rnd v
      (intRes dty r.1, r.2)
    else fpOut ((Fmt.ofTy dty).write rnd v)

/-- The result in its place: an FP8 result replaces byte `bsel` of vD, or of zero with `_`. -/
def State.cvtPlace (s : State) (d : Dst) (dty : Ty) (lane bsel : Nat) (r : DWord) : DWord :=
  if dty.isFp8 then
    let old := match d with
      | .reg n => (s.rd (.v n lane)).toNat
      | .none => 0
    BitVec.ofNat 64 (old - old / 2 ^ (8 * bsel) % 256 * 2 ^ (8 * bsel) + r.toNat * 2 ^ (8 * bsel))
  else r

def execCvt (h : LaneHdr) (d : Dst) (rnd : Rnd) (sat : Bool) (dty sty : Ty) (a : Src) (bsel : Nat) (s : State) : Out :=
  let p := dty.isPair
  s.laneIssue h (dstNames p d ++ srcNames sty.isPair a)
    ((if dty.isFp8 then (dstNames false d).map LaneRead.v else []) ++ srcReads sty.isPair a) fun act ll =>
    s.laneCompute act ll d p 4 fun l =>
      let r := s.cvtValue rnd sat dty sty l bsel a
      (s.cvtPlace d dty l bsel r.1, r.2)

/-! ### sx blocks (R204, R205, R115) -/

/-- Registers from `base` that hold bits [lo, hi) of a row's stream. -/
def streamRegs (base lo hi : Nat) : List Nat := (List.range ((hi - 1) / 32 - lo / 32 + 1)).map fun k => base + lo / 32 + k

/-- The registers that hold bytes q and q + 1 of a scale row. -/
def scaleRegs (base q : Nat) : List Nat :=
  if q % 4 = 3 then [base + q / 4, base + q / 4 + 1] else [base + q / 4]

/-- Words as one number, the first lowest. -/
def wordsNat : List Word → Nat
  | [] => 0
  | w :: ws => w.toNat + 2 ^ 32 * wordsNat ws

/-- The bits of consecutive registers of a lane as one number. -/
def State.laneBits (s : State) (lane : Nat) (rs : List Nat) : Nat := wordsNat (rs.map fun r => s.rd (.v r lane))

/-- Replaces bits [lo, lo+n). -/
def putBits (x lo n v : Nat) : Nat := x % 2 ^ lo + v % 2 ^ n * 2 ^ lo + x / 2 ^ (lo + n) * 2 ^ (lo + n)

/-- The words of a number in consecutive registers of a lane. -/
def bitsWrites (lane x : Nat) : List Nat → List (Loc × Word)
  | [] => []
  | r :: rs => (.v r lane, BitVec.ofNat 32 x) :: bitsWrites lane (x / 2 ^ 32) rs

/-- A register number above 1,023 traps 0x01 at issue (R204). -/
def State.laneReach (s : State) (h : LaneHdr) (names : List Nat) (k : Out) : Out :=
  if names.any fun n => 1024 ≤ n then s.laneTrap 0x01 0 (s.laneActive h) 0 else k

/-- The codes of a block, the lowest element lowest. -/
def codeBits (w : Nat) : List Nat → Nat
  | [] => 0
  | c :: cs => c + 2 ^ w * codeBits w cs

/-- The value that a register of a lane has after some writes to it. -/
def State.rdAfter (s : State) (lane : Nat) (ws : List (Loc × Word)) (r : Nat) : Word :=
  ((ws.find? fun e => e.1 == .v r lane).map (·.2)).getD (s.rd (.v r lane))

/-- `sxpack` (R204). Its names are taken in the order of R60 with the stream registers that it reaches in DREG's place, so
that vD counts when the block reaches it; likewise `sxunpack` (log 94). -/
def execSxpack (h : LaneHdr) (d : Nat) (sx : Sxf) (a sc bsel blk : Nat) (s : State) : Out :=
  let n := 16 * sxWidth sx
  let lo := n * blk
  let q := bsel + 2 * blk
  let rs := streamRegs d lo (lo + n)
  let ss := scaleRegs sc q
  let xs := (List.range 16).map fun k => a + k
  let partly := rs.filter fun r => !(lo ≤ 32 * (r - d) && 32 * (r - d) + 32 ≤ lo + n)
  let names := rs ++ xs ++ ss
  s.laneReach h names (s.laneIssue h names ((partly ++ xs ++ ss).map .v) fun act ll =>
    let out := (lanesOf act).map fun l =>
      let b := sxPack sx (xs.map fun r => (s.rd (.v r l)).toNat)
      let ws := bitsWrites l (putBits (s.laneBits l rs) (lo % 32) n (codeBits (sxWidth sx) b.1.codes)) rs
      let old := wordsNat (ss.map (s.rdAfter l ws))
      (ws.filter (fun e => !(ss.any fun r => e.1 == .v r l))
        ++ bitsWrites l (putBits old (8 * (q % 4)) 16 (b.1.x + 256 * b.1.u)) ss, b.2)
    s.laneDone 4 (out.flatMap (·.1)) (ll ||| joinFlags (out.map (·.2))) none)

def execSxunpack (h : LaneHdr) (d : Nat) (rnd : Rnd) (sx : Sxf) (ty : Ty) (a sc bsel blk : Nat) (s : State) : Out :=
  let n := 16 * sxWidth sx
  let lo := n * blk
  let q := bsel + 2 * blk
  let rs := streamRegs a lo (lo + n)
  let ss := scaleRegs sc q
  let names := (List.range 16).map (fun k => d + k) ++ rs ++ ss
  s.laneReach h names (s.laneIssue h names ((rs ++ ss).map .v) fun act ll =>
    let out := (lanesOf act).map fun l =>
      let codes := s.laneBits l rs / 2 ^ (lo % 32)
      let sb := s.laneBits l ss / 2 ^ (8 * (q % 4))
      let es := (List.range 16).map fun k => (Fmt.ofTy ty).write rnd
        (sxValue sx (sb % 256) (sb / 256 % 256) k (codes / 2 ^ (sxWidth sx * k) % 2 ^ sxWidth sx))
      (((List.range 16).zip es).map (fun e => (Loc.v (d + e.1) l, BitVec.ofNat 32 e.2.code)),
        joinFlags (es.map (·.flags)))
    s.laneDone 4 (out.flatMap (·.1)) (ll ||| joinFlags (out.map (·.2))) none)

/-! ### Predicates (R206 to R208) -/

/-- A predicate result: each active lane's bit and flags, at latency 2. -/
def State.lanePred (s : State) (act : BitVec 32) (ll : Flags) (p : Nat) (f : Nat → Bool × Flags) : Out :=
  let rs := (lanesOf act).map fun l => (l, f l)
  s.laneDone 2 (rs.map fun e => (.p p e.1, bit01 e.2.1)) (ll ||| joinFlags (rs.map fun e => e.2.2)) none

/-- An integer comparison. -/
def intCmp (c : CmpOp) (x y : Int) : Bool :=
  match c with
  | .eq => x == y
  | .ne => x != y
  | .lt => decide (x < y)
  | .le => decide (x ≤ y)
  | .gt => decide (y < x)
  | .ge => decide (y ≤ x)
  | .un => false

def execPset (h : LaneHdr) (p : Nat) (cmp : CmpOp) (ty : Ty) (a b : Src) (s : State) : Out :=
  let q := ty.isPair
  s.laneIssue h (srcNames q a ++ srcNames q b) (srcReads q a ++ srcReads q b) fun act ll =>
    s.lanePred act ll p fun l =>
      if ty.isInt then (intCmp cmp (intVal ty (s.srcInt q l a)) (intVal ty (s.srcInt q l b)), 0)
      else (Fmt.ofTy ty).cmp cmp (s.srcFp (Fmt.ofTy ty) l a) (s.srcFp (Fmt.ofTy ty) l b)

def execPlop (h : LaneHdr) (p pa pb pc lut : Nat) (s : State) : Out :=
  s.laneIssue h [] [.p pa, .p pb, .p pc] fun act ll =>
    s.lanePred act ll p fun l =>
      (lut.testBit (4 * (s.rd (.p pa l)).toNat + 2 * (s.rd (.p pb l)).toNat + (s.rd (.p pc l)).toNat), 0)

def execPmov (h : LaneHdr) (form : PmovForm) (s : State) : Out :=
  match form with
  | .toPred p a =>
    s.laneIssue h (srcNames false a) (srcReads false a) fun act ll =>
      s.lanePred act ll p fun l => (loWord (s.srcInt false l a) != 0, 0)
  | .toVec d p =>
    s.laneIssue h (dstNames false d) [.p p] fun act ll =>
      s.laneCompute act ll d false 2 fun l => ((s.rd (.p p l)).setWidth 64, 0)

/-! ### Moves, constants, random numbers, delays (R209 to R211) -/

def execMov (h : LaneHdr) (d : Dst) (ty : Ty) (a : Src) (s : State) : Out :=
  s.int1 h d ty 2 a fun x => patRes ty x.toNat

def execMovi (h : LaneHdr) (d : Dst) (imm : Nat) (s : State) : Out :=
  s.laneIssue h (dstNames false d) [] fun act ll =>
    s.laneCompute act ll d false 2 fun _ => (BitVec.ofNat 64 imm, 0)

def execRnd (h : LaneHdr) (d : Dst) (k : Nat) (c : Src) (s : State) : Out :=
  s.laneIssue h (dstNames false d ++ srcNames true c) ([.s k, .s (k + 1)] ++ srcReads true c) fun act ll =>
    s.laneCompute act ll d false 12 fun l => ((rndMix (s.rp k) (s.srcPair l c)).setWidth 64, 0)

/-- `dly` of the lane stream holds its next instruction until clk t + n; the latches do not move (R211). -/
def execLaneDly (n : Nat) (s : State) : Out :=
  let a := s.ag.nextLane
  .next ({ s with ag := { a with dlyLane := s.clk + n } }).bump

end Sys2Proof.Machine
end

