-- ==== Sys2Proof/Machine/Matrix.lean ====
section
/-!
DEFINITION. Matrix instructions at their issue (11 R249 to R264): the checks, the order of the arrays, the A operand,
the A-latch record, qmat. `MATRIX_START` and `MATRIX_COMPLETION` do the rest.
-/

namespace Sys2Proof.Machine

/-! ### Arrays and who owns them -/

/-- The array of a core. -/
def State.array (s : State) (die core : Nat) : MatrixArray :=
  (s.arrays.find? fun m => m.die == die && m.core == core).getD ⟨die, core, [], []⟩

def State.setArray (s : State) (m : MatrixArray) : State :=
  { s with arrays := m :: s.arrays.filter fun x => !(x.die == m.die && x.core == m.core) }

/-- The group's team owns the array of its core (R249). -/
def State.ownsArray (s : State) : Bool :=
  (s.launch? s.ag.launch).any (·.matrix)
    && (s.team? s.ag.team).any fun t => t.phase == .resident && s.inFootprint t s.ag.die s.ag.core

/-- The footprint index of the issuing core. -/
def State.footIndex (s : State) : Nat := s.ag.core - ((s.team? s.ag.team).map (·.first)).getD 0

/-- A paired instruction may issue here: on a leader whose follower lies in the footprint (R19, R250). -/
def State.pairPlaced (s : State) : Bool :=
  s.ag.core % 2 == 0 && (s.team? s.ag.team).any fun t => s.inFootprint t s.ag.die (s.ag.core + 1)

/-- The arrays of an instruction. -/
def State.coresOf (s : State) (pair : Bool) : List Nat := if pair then [s.ag.core, s.ag.core + 1] else [s.ag.core]

/-- Four instructions wait in the order of one of the arrays: a fifth stalls (R250). -/
def State.arrayFull (s : State) (pair : Bool) : Bool :=
  (s.coresOf pair).any fun c => 4 ≤ ((s.array s.ag.die c).queue.filter fun o => !o.started).length

/-- Ownership and `.pair` placement (R264 steps 3 and 4). -/
def State.matrixOwner (s : State) (act : BitVec 32) (pair : Bool) (k : Out) : Out :=
  if !s.ownsArray then s.laneTrap 0x03 0 act 0
  else if pair && !s.pairPlaced then s.laneTrap 0x01 0 act 0
  else k

/-- The layout word's checks (R264 step 7). A failing address below 0 is reported modulo 2^64: R254 does not say how it is
zero-extended (log 94). -/
def State.matrixLayout (s : State) (act : BitVec 32) (pair sx : Bool) (info : Nat) (l : Layout) (addrs : List Int)
    (k : Out) : Out :=
  match l.check s.teamShape sx (if pair then some s.footIndex else none) addrs addrs with
  | some (cause, a) => s.laneTrap cause (a % 2 ^ 64).toNat act info
  | none => k

/-- The instruction enters the order of its array or arrays; while one has four waiting it stalls. -/
def State.matrixEnter (s : State) (pair : Bool) (tk : Option Nat) (ll : Flags) (op : MatrixOp) (f : Agent → Agent) :
    Out :=
  if s.arrayFull pair then .next s
  else
    let op := { op with agent := s.ag.id, team := s.ag.team, num := s.ag.nextOp, pair := pair }
    let s1 := (s.coresOf pair).foldl (fun s c =>
      let m := s.array s.ag.die c
      s.setArray { m with queue := m.queue ++ [op] }) s
    let s2 := s1.enqueue true .matrix .rlx .grp (s.laneTk tk) (.matrix op.num) []
    .next ({ s2 with ag := (f s2.ag).put .fsr ll }).laneNext

/-- An instruction with nothing filled in. -/
def MatrixOp.blank (kind : MatrixKind) (acc : Nat) : MatrixOp :=
  ⟨0, 0, 0, kind, false, false, acc, [], 0, [], none, .bf16, 0, 0, 0, []⟩

/-- The three registers of a layout word. -/
def State.layoutWord (s : State) (lw : Nat) : List Word := [s.rs lw, s.rs (lw + 1), s.rs (lw + 2)]

def layoutReads (lw : Nat) : List LaneRead := [.s lw, .s (lw + 1), .s (lw + 2)]

/-! ### Formats (R255, R120) -/

def mDepth : MFmt → Nat
  | .bf16 | .f16 => 64
  | .fp8e4 | .fp8e5 | .sx7 => 128
  | .sx4 => 256
  | .sx2 => 512

/-- A registers. -/
def mRegs : MFmt → Nat
  | .sx4 => 40
  | .sx2 => 48
  | _ => 32

def mChunk : MFmt → Nat
  | .bf16 | .f16 => 4
  | .fp8e4 | .fp8e5 => 8
  | _ => 16

/-- The sx format of an sx code. -/
def mSx : MFmt → Sxf
  | .sx4 => .sx4
  | .sx2 => .sx2
  | _ => .sx7

/-- The floating-point format of the other codes. -/
def mFloat : MFmt → Fmt
  | .f16 => .f16
  | .fp8e4 => .e4
  | .fp8e5 => .e5
  | _ => .bf16

/-- Scale registers reached from byte `b` on. -/
def mScaleRegs (f : MFmt) (sc bsel : Nat) : List Nat :=
  if f.isSx then (List.range ((bsel + 2 * (mDepth f / 16) - 1) / 4 + 1)).map fun k => sc + k else []

/-- Every register of an A operand. -/
def mAllRegs (f : MFmt) (a sc bsel : Nat) : List Nat := (List.range (mRegs f)).map (fun k => a + k) ++ mScaleRegs f sc bsel

/-- The values of registers in all lanes, by 32 * register + lane, in rising order. -/
def State.readRows (s : State) (regs : List Nat) : Sparse Word :=
  (regs.foldl addSet []).flatMap fun r =>
    (List.range 32).filterMap fun l =>
      let v := s.rd (.v r l)
      if v = 0 then none else some (r * 32 + l, v)

/-! ### mmac and mdist (R256 to R258) -/

/-- The record an instruction leaves (R256): REUSE sets it, or keeps it with ALAT; without REUSE it is emptied. -/
def recordAfter (reuse : Bool) (fmt : MFmt) (a : AOperand) (rows : Sparse Word) (old : Option ALatch) : Option ALatch :=
  if !reuse then none
  else match a with
    | .alat => old
    | .regs x sc b => some ⟨fmt, x, sc, b, some rows⟩

/-- The A operand: where it lies, its values as read now, and what the collector holds. -/
def State.aOperand (s : State) (fmt : MFmt) (a : AOperand) : Nat × Nat × Nat × Sparse Word × Option (Sparse Word) :=
  match a, s.ag.alatch with
  | .regs x sc b, _ => (x, sc, b, s.readRows (mAllRegs fmt x sc b), none)
  | .alat, some r => (r.a, r.sc, r.bsel, s.readRows (mAllRegs fmt r.a r.sc r.bsel), r.coll)
  | .alat, none => (0, 0, 0, [], none)

/-- The registers an A operand names. -/
def aNames (fmt : MFmt) : AOperand → List Nat
  | .regs x sc b => mAllRegs fmt x sc b
  | .alat => []

/-- The record's checks (R264 step 5). -/
def State.recordCheck (s : State) (fmt : MFmt) (a : AOperand) : Option Nat :=
  match a, s.ag.alatch with
  | .regs _ _ _, _ => none
  | .alat, none => some 0x19
  | .alat, some r => if r.fmt = fmt then none else some 0x01

/-- `mmac` and `mdist`. -/
def State.matrixMac (s : State) (h : LaneHdr) (kind : MatrixKind) (fmt : MFmt) (pair reuse : Bool) (acc : Nat)
    (a : AOperand) (lw : Nat) (tk : Option Nat) : Out :=
  let names := aNames fmt a
  let reads := names.flatMap fun r => (List.range 32).map fun l => LaneRead.vl r l
  s.laneReach h names (s.laneIssue h names (reads ++ layoutReads lw) fun act ll =>
    s.matrixOwner act pair
      (match s.recordCheck fmt a with
      | some cause => s.laneTrap cause 0 act 0
      | none =>
        let ws := s.layoutWord lw
        let l := layoutOf ws
        let ns := if fmt.isSx then (2 * (mDepth fmt / 16) + 3) / 4 else 0
        let addrs := (List.range 64).flatMap fun j => l.column (mRegs fmt) ns j
        s.matrixLayout act pair fmt.isSx kindLoad l addrs
          (let (x, sc, b, rows, coll) := s.aOperand fmt a
          s.matrixEnter pair tk ll
            { MatrixOp.blank kind acc with
              lw := ws, act := act, aregs := rows, aold := coll, fmt := fmt, a := x, sc := sc, bsel := b }
            fun g => { g with alatch := recordAfter reuse fmt a rows g.alatch })))

def execMmac (h : LaneHdr) (fmt : MFmt) (pair reuse : Bool) (acc : Nat) (a : AOperand) (lw : Nat) (tk : Option Nat)
    (s : State) : Out := s.matrixMac h .mac fmt pair reuse acc a lw tk

def execMdist (h : LaneHdr) (fmt : MFmt) (pair reuse : Bool) (acc : Nat) (a : AOperand) (lw : Nat) (tk : Option Nat)
    (s : State) : Out := s.matrixMac h .dist fmt pair reuse acc a lw tk

/-! ### Tiles (R259) -/

def execMclr (h : LaneHdr) (pair : Bool) (acc : Nat) (tk : Option Nat) (s : State) : Out :=
  s.laneIssue h [] [] fun act ll =>
    s.matrixOwner act pair (s.matrixEnter pair tk ll (MatrixOp.blank .clr acc) id)

/-- `mld` and `mst`. -/
def State.matrixTile (s : State) (h : LaneHdr) (kind : MatrixKind) (info : Nat) (pair : Bool) (acc lw : Nat)
    (tk : Option Nat) : Out :=
  s.laneIssue h [] (layoutReads lw) fun act ll =>
    s.matrixOwner act pair
      (let ws := s.layoutWord lw
      let l := layoutOf ws
      s.matrixLayout act pair false info l ((List.range 64).flatMap l.tileColumn)
        (s.matrixEnter pair tk ll { MatrixOp.blank kind acc with lw := ws } id))

def execMld (h : LaneHdr) (pair : Bool) (acc lw : Nat) (tk : Option Nat) (s : State) : Out :=
  s.matrixTile h .load kindLoad pair acc lw tk

def execMst (h : LaneHdr) (pair : Bool) (acc lw : Nat) (tk : Option Nat) (s : State) : Out :=
  s.matrixTile h .store kindStore pair acc lw tk

/-! ### Top-k and qmat (R260 to R262) -/

/-- `mtopk` reserves the next entry of qmat; 0x01 when four are reserved. -/
def execMtopk (h : LaneHdr) (pair : Bool) (acc k : Nat) (tk : Option Nat) (s : State) : Out :=
  s.laneIssue h [] [] fun act ll =>
    s.matrixOwner act pair
      (if 4 ≤ s.ag.qmat.length then s.laneTrap 0x01 0 act 0
      else s.matrixEnter pair tk ll (MatrixOp.blank (.top k s.ag.nqmat) acc) fun g =>
        { g with qmat := g.qmat ++ [⟨g.nqmat, k, none⟩], nqmat := g.nqmat + 1 })

/-- What `mrd` writes from a filled entry. -/
def mrdWrites (d k : Nat) (lanes : BitVec 32) (rows : List (List (Nat × Word))) : List (Loc × Word) :=
  (lanesOf lanes).flatMap fun l =>
    ((List.range k).zip (rows.getD l [])).flatMap fun e =>
      [(.v (d + e.1) l, BitVec.ofNat 32 e.2.1), (.v (d + k + e.1) l, e.2.2)]

/-- The places `mrd` writes. -/
def mrdLocs (d k : Nat) (lanes : BitVec 32) : List Loc :=
  (lanesOf lanes).flatMap fun l => (List.range (2 * k)).map fun m => Loc.v (d + m) l

/-- `mrd` pops the head entry; its registers are written once the entry is filled. -/
def execMrd (h : LaneHdr) (d tk : Nat) (s : State) : Out :=
  match s.ag.qmat with
  | [] => s.laneIssue h [d] [] fun act _ =>
    if s.ownsArray then s.laneTrap 0x01 0 act 0 else s.laneTrap 0x03 0 act 0
  | e :: rest =>
    let names := (List.range (2 * e.k)).map fun m => d + m
    s.laneReach h names (s.laneIssue h names [] fun act _ =>
      s.matrixOwner act false
        (let kind := match e.data with
          | some rows => OpKind.regs (mrdWrites d e.k act rows)
          | none => .mrd e.num d e.k act
        let s1 := s.enqueue true .matrix .rlx .grp (s.laneTk (some tk)) kind (mrdLocs d e.k act)
        .next ({ s1 with ag := { s1.ag with qmat := rest } }).laneNext))

/-- The head of qmat is popped by the scalar stream. -/
def State.popQmat (s : State) (r : Nat) (e : QmatEntry) (rest : List QmatEntry) : State :=
  (({ s with ag := { s.ag.waitOver with qmat := rest } }).advance 4).wr [(.s r, BitVec.ofNat 32 e.k)]

/-- `qpop sS, qmat` (R184): it waits while no entry is there or the head is not filled. -/
def execQpopQmat (r : Nat) (s : State) : Out :=
  if s.ag.isSys then s.scalarTrap 0x01 0 0
  else match s.ag.qmat with
    | e :: rest => if e.data.isSome then .next (s.popQmat r e rest)
        else .next { s with ag := { s.ag with wait := .qpop r } }
    | [] => .next { s with ag := { s.ag with wait := .qpop r } }

/-! ### Start (R250, R258) -/

/-- Both halves of an instruction are at the head of their orders and not started. -/
def State.headReady (s : State) (die core : Nat) : Option MatrixOp :=
  match (s.array die core).queue with
  | [] => none
  | o :: _ =>
    if o.started then none
    else if !o.pair then some o
    else
      let other := if core % 2 = 0 then core + 1 else core - 1
      match (s.array die other).queue with
      | p :: _ => if p.agent = o.agent && p.num = o.num && !p.started then some o else none
      | [] => none

/-- The arrays of an instruction at the head of a core's order, the leader first. -/
def pairCores (o : MatrixOp) (core : Nat) : List Nat := if o.pair then [core / 2 * 2, core / 2 * 2 + 1] else [core]

/-- The words an instruction reads of each column when it starts: of the leader's columns, then of the follower's. -/
def State.columnsOf (s : State) (o : MatrixOp) : List (List Word) :=
  let l := layoutOf o.lw
  let m := ((s.team? o.team).map (·.tmem)).getD []
  let ns := if o.fmt.isSx then (2 * (mDepth o.fmt / 16) + 3) / 4 else 0
  let half := fun shift => (List.range 64).map fun j => match o.kind with
    | .mac | .dist => l.words m shift (l.column (mRegs o.fmt) ns j)
    | .load => l.words m shift (l.tileColumn j)
    | _ => []
  half 0 ++ (if o.pair then half (2 ^ 19) else [])

/-- Changes the head of an array's order. -/
def MatrixArray.updHead (m : MatrixArray) (f : MatrixOp → MatrixOp) : MatrixArray :=
  match m.queue with
  | [] => m
  | o :: r => { m with queue := f o :: r }

/-- `MATRIX_START`: the head starts, and reads its columns. -/
def execMatrixStart (die core : Nat) (s : State) : Out :=
  match s.headReady die core with
  | none => .next s
  | some o =>
    let cols := s.columnsOf o
    .next ((pairCores o core).foldl (fun s c =>
      s.setArray ((s.array die c).updHead fun p => { p with started := true, cols := cols })) s)

/-! ### Completion (R120, R258 to R263) -/

/-- The element codes and scales of a row or column: the code of element k, and the two scale bytes of its block. -/
structure MatVec where
  bits : Nat
  scales : Nat

/-- A column of B. -/
def colVec (f : MFmt) (ws : List Word) : MatVec := ⟨wordsNat (ws.take (mRegs f)), wordsNat (ws.drop (mRegs f))⟩

/-- Row `i` of A in the given register values. -/
def rowVec (o : MatrixOp) (regs : Sparse Word) (i : Nat) : MatVec :=
  let w := fun r => sget 0 regs (r * 32 + i)
  ⟨wordsNat ((List.range (mRegs o.fmt)).map fun k => w (o.a + k)),
   wordsNat ((mScaleRegs o.fmt o.sc o.bsel).map w) / 2 ^ (8 * o.bsel)⟩

/-- Element k (R255). -/
def MatVec.elem (f : MFmt) (v : MatVec) (k : Nat) : FVal :=
  if f.isSx then
    let w := sxWidth (mSx f)
    let q := v.scales / 2 ^ (16 * (k / 16))
    sxValue (mSx f) (q % 256) (q / 256 % 256) (k % 16) (v.bits / 2 ^ (w * k) % 2 ^ w)
  else
    let w := (mFloat f).width
    (mFloat f).read (v.bits / 2 ^ (w * k) % 2 ^ w)

/-- Element (i, k) of A: from alat each element is the value the collector took or the one read again, a free choice
where they differ (R256). -/
def State.aElem (s : State) (o : MatrixOp) (now : MatVec) (old : Option MatVec) (i k : Nat) : FVal :=
  let x := now.elem o.fmt k
  match old with
  | none => x
  | some v =>
    let y := v.elem o.fmt k
    if x = y then x else if Config.freeBit s.fresh (700000 + i * 512 + k) then x else y

/-- One accumulator element (R120): the new code, and its events. -/
def macElement (o : MatrixOp) (acc : Nat) (a : List FVal) (b : List FVal) : Nat × MacEvents :=
  let nums := !(a.any FVal.isNan || b.any FVal.isNan || (Fmt.f32.read acc).isNan)
  let term := match o.kind with
    | .dist => distTerm
    | _ => macTerm
  let c := mChunk o.fmt
  (List.range (mDepth o.fmt / c)).foldl (fun z n =>
    let ts := ((a.drop (n * c)).take c).zip ((b.drop (n * c)).take c) |>.map fun e => term e.1 e.2
    let r := macStep nums z.1 ts
    (r.1, ⟨z.2.nv || r.2.nv, z.2.ov || r.2.ov, z.2.un || r.2.un⟩)) (acc, ⟨false, false, false⟩)

/-- The place of element (i, j) of a tile in the accumulator store of one array. -/
def accKey (tile i j : Nat) : Nat := tile * 2048 + i * 64 + j

/-- Element (i, j) of a tile, columns 64 and up on the follower. -/
def State.accAt (s : State) (die lead tile i j : Nat) : Word :=
  sget 0 (s.array die (lead + j / 64)).acc (accKey tile i (j % 64))

def State.setAcc (s : State) (die lead tile i j : Nat) (v : Word) : State :=
  let m := s.array die (lead + j / 64)
  s.setArray { m with acc := sput 0 m.acc (accKey tile i (j % 64)) v }

/-- The columns of an instruction. -/
def MatrixOp.width (o : MatrixOp) : Nat := if o.pair then 128 else 64

/-- `mmac` and `mdist` update the rows of their active lanes. -/
def State.macAll (s : State) (die lead : Nat) (o : MatrixOp) : State × MacEvents :=
  let bs := o.cols.map fun c => (List.range (mDepth o.fmt)).map (fun k => (colVec o.fmt c).elem o.fmt k)
  (lanesOf o.act).foldl (fun z i =>
    let now := rowVec o o.aregs i
    let old := o.aold.map fun r => rowVec o r i
    let a := (List.range (mDepth o.fmt)).map fun k => s.aElem o now old i k
    (List.range o.width).foldl (fun z j =>
      let r := macElement o (z.1.accAt die lead o.acc i j).toNat a (bs.getD j [])
      (z.1.setAcc die lead o.acc i j (BitVec.ofNat 32 r.1),
        ⟨z.2.nv || r.2.nv, z.2.ov || r.2.ov, z.2.un || r.2.un⟩)) z) (s, ⟨false, false, false⟩)

/-- The columns of a row in the order of `mtopk`: by value descending, NaN last, equal values by column. -/
def topBefore (x y : Nat × Word) : Bool :=
  let a := Fmt.f32.read x.2.toNat
  let b := Fmt.f32.read y.2.toNat
  if a.isNan then false
  else if b.isNan then true
  else ltVal b a

/-- Insertion in that order, after those that are equal. -/
def topInsert (x : Nat × Word) : List (Nat × Word) → List (Nat × Word)
  | [] => [x]
  | y :: r => if topBefore x y then x :: y :: r else y :: topInsert x r

/-- The rows of a qmat entry. -/
def State.topRows (s : State) (die lead : Nat) (o : MatrixOp) (k : Nat) : List (List (Nat × Word)) :=
  (List.range 32).map fun i =>
    (((List.range o.width).foldl (fun l j => topInsert (j, s.accAt die lead o.acc i j) l) []).take k)

/-- An entry is filled; an `mrd` that popped it has its results. -/
def Agent.fillEntry (a : Agent) (entry : Nat) (rows : List (List (Nat × Word))) : Agent :=
  { a with
    qmat := a.qmat.map fun e => if e.num = entry then { e with data := some rows } else e
    outst := a.outst.map fun o => match o.kind with
      | .mrd e d k lanes => if e = entry then { o with kind := .regs (mrdWrites d k lanes rows) } else o
      | _ => o }

/-- The writes of `mst`, in ascending j, then ascending i. -/
def State.storeTile (s : State) (die lead : Nat) (o : MatrixOp) : State :=
  let l := layoutOf o.lw
  let put := fun (m : Sparse Byte) (j : Nat) =>
    ((List.range 32).zip (l.tileColumn (j % 64))).foldl (fun m e =>
      teamPut m (permuted (e.2.toNat + j / 64 * 2 ^ 19) l.perm)
        (bytesLE 4 (s.accAt die lead o.acc e.1 j).toNat)) m
  s.updTeam o.team fun t => { t with tmem := (List.range o.width).foldl put t.tmem }

/-- `mld` and `mclr` set every element of a tile. -/
def State.loadTile (s : State) (die lead : Nat) (o : MatrixOp) (f : Nat → Nat → Word) : State :=
  (List.range o.width).foldl (fun s j =>
    (List.range 32).foldl (fun s i => s.setAcc die lead o.acc i j (f i j)) s) s

/-- The matrix operation of an agent ends: it leaves the outstanding ones, its token posts, mxc counts. -/
def Agent.matrixDone (a : Agent) (num : Nat) (events : Word) : Agent :=
  let tk := (a.outst.find? fun o => o.num == num).bind (·.tk)
  let b := { a with outst := a.outst.filter fun o => o.num != num }
  (b.put .mxc events).post tk

/-- A store of a tile retires, which the watchdog counts (R399). -/
def Agent.retires (a : Agent) (kind : MatrixKind) : Agent :=
  if kind = .store then { a with sinks := a.sinks + 1 } else a

/-- `MATRIX_COMPLETION`: the instruction that has started ends, and its array or arrays go on to the next. -/
def execMatrixCompletion (die core : Nat) (s : State) : Out :=
  match (s.array die core).queue with
  | [] => .next s
  | o :: _ =>
    if !o.started then .next s
    else
      let cores := pairCores o core
      let lead := cores.headD core
      let (s1, ev) : State × Word := match o.kind with
        | .mac | .dist =>
          let r := s.macAll die lead o
          (r.1, BitVec.ofNat 32 ((if r.2.nv then 2 ^ 16 else 0) + (if r.2.ov then 2 ^ 8 else 0)
            + (if r.2.un then 1 else 0)))
        | .clr => (s.loadTile die lead o (fun _ _ => 0), 0)
        | .load => (s.loadTile die lead o (fun i j => (o.cols.getD j []).getD i 0), 0)
        | .store => (s.storeTile die lead o, 0)
        | .top k e => (s.updAgent o.agent (fun a => a.fillEntry e (s.topRows die lead o k)), 0)
      let s2 := cores.foldl (fun s c => let m := s.array die c
        s.setArray { m with queue := m.queue.drop 1 }) s1
      .next (s2.updAgent o.agent fun a => (a.matrixDone o.num ev).retires o.kind)

end Sys2Proof.Machine
end

