-- ==== Sys2Proof/Machine/Scheduler.lean ====
section
/-!
DEFINITION. The launch scheduler (02 R29 to R36, 21 R390 to R397): what a team needs, what is free, which team is
offered and where; creating, pre-empting and restoring the groups of a team.
-/

namespace Sys2Proof.Machine

/-! ### What is used and what is free -/

/-- The team occupies its footprint. -/
def Team.placed (t : Team) : Bool := t.phase == .resident

/-- Footprint cores of a team's launch. -/
def State.fcoresOf (s : State) (t : Team) : Nat := ((s.launch? t.launch).map fun l => l.fcores).getD 0

/-- The groups of a team that hold a slot of their own, not a spawn slot. -/
def State.ownSlots (s : State) (team : Nat) : List Agent := (s.members team).filter fun a => a.sslot.isNone

/-- Slots, register lines and bytes of team memory that a team takes on its footprint core `k` (R31, R34): those of its
groups, those kept for its fault groups, its spawn slots. -/
def State.teamUse (s : State) (t : Team) (l : Launch) (k : Nat) : Nat × Nat × Nat :=
  let mine := (s.ownSlots t.id).filter fun a => a.core == t.first + k
  let kept := t.kept.filter fun x => x.sslot.isNone && x.core == t.first + k
  (mine.length + kept.length + dealt l.spawnSlots l.fcores k,
   (mine.map fun a => l.quotaOf a).sum + (kept.map (·.quota)).sum + dealt l.spawnSlots l.fcores k * maxQuota l.roles,
   l.tmemBytes)

/-- What the resident teams take on core `c` of die `d`. -/
def State.coreUse (s : State) (d c : Nat) : Nat × Nat × Nat :=
  s.teams.foldl (fun u t =>
    match s.launch? t.launch with
    | none => u
    | some l =>
      if t.placed && t.die == d && t.first ≤ c && c < t.first + l.fcores then
        let x := s.teamUse t l (c - t.first)
        (u.1 + x.1, u.2.1 + x.2.1, u.2.2 + x.2.2)
      else u) (0, 0, 0)

/-- What a team of a launch needs on footprint core `k`: a new one (or one placed again from its snapshots), or one
whose image is restored. -/
def State.need (s : State) (l : Launch) (t : Option Team) (k : Nat) : Nat × Nat × Nat :=
  match t with
  | some t => if t.phase == .saved then s.teamUse t l k
    else (dealt (groupCount l.roles) l.fcores k + dealt l.spawnSlots l.fcores k,
      quotaOn l.roles l.spawnSlots l.fcores k, l.tmemBytes)
  | none => (dealt (groupCount l.roles) l.fcores k + dealt l.spawnSlots l.fcores k,
      quotaOn l.roles l.spawnSlots l.fcores k, l.tmemBytes)

/-- A resident matrix team holds core `c` of die `d`. -/
def State.matrixHeld (s : State) (d c : Nat) : Bool :=
  s.teams.any fun t => t.placed && t.die == d
    && (match s.launch? t.launch with
      | some l => l.matrix && t.first ≤ c && c < t.first + l.fcores
      | none => false)

/-- Core `c` of die `d` is reserved for another launch, or has left placement (R36, R473). -/
def State.barred (s : State) (l : Launch) (d c : Nat) : Bool :=
  s.islet.drained.contains (d, c) || s.launches.any fun r => r.id != l.id
    && r.reserved.any fun x => x.1 == d && x.2 ≤ c && c < x.2 + r.fcores

/-- IMAGE has room for one more image (R390). -/
def State.imageRoom (s : State) (l : Launch) : Bool :=
  let used := (s.teams.map fun t => match s.launch? t.launch with
    | some m => if m.ctx == l.ctx && t.phase != .gone then
        imageBytes m.roles m.spawnSlots m.fcores m.tmemBytes m.matrix else 0
    | none => 0).sum
  used + imageBytes l.roles l.spawnSlots l.fcores l.tmemBytes l.matrix ≤ areaLength (s.capPhys (l.ctx + 80))

/-- A team fits on the footprint that begins at core `f` of die `d` (R34, R392); one for whose image there is no room
waits as if its cores were busy (R390). -/
def State.fits (s : State) (l : Launch) (t : Option Team) (d f : Nat) : Bool :=
  f + l.fcores ≤ 48 && (!l.matrix || f % 2 == 0) && s.fabric.diePart d == l.cpart && (t.isSome || s.imageRoom l)
    && (List.range l.fcores).all fun k =>
      let u := s.coreUse d (f + k)
      let n := s.need l t k
      !s.barred l d (f + k) && u.1 + n.1 ≤ 144 && u.2.1 + n.2.1 ≤ 2048 && u.2.2 + n.2.2 ≤ 524288
        && !(l.matrix && s.matrixHeld d (f + k))

/-- Every footprint, by die, then by first core. -/
def footprints : List (Nat × Nat) := (List.range 4).flatMap fun d => (List.range 48).map fun f => (d, f)

/-- Where a team is placed: the lowest die, then the lowest first core that fits (R392). -/
def State.site (s : State) (l : Launch) (t : Option Team) : Option (Nat × Nat) :=
  footprints.find? fun x => s.fits l t x.1 x.2

/-! ### Offers (R391, R392) -/

/-- A range widened to multiples of 256 bytes. -/
def widened (r : Nat × Nat) : Nat × Nat := (r.1 / 256 * 256, (r.1 + r.2 + 255) / 256 * 256)

def rangesMeet (xs ys : List (Nat × Nat)) : Bool :=
  xs.any fun x => ys.any fun y =>
    let a := widened x
    let b := widened y
    a.1 < b.2 && b.1 < a.2

/-- Two launches of one context conflict (R391). -/
def Launch.conflicts (a b : Launch) : Bool :=
  a.ctx == b.ctx && (rangesMeet a.writes (b.reads ++ b.writes) || rangesMeet b.writes (a.reads ++ a.writes))

/-- Every earlier launch that conflicts has completed. -/
def State.depsDone (s : State) (l : Launch) : Bool := !s.launches.any fun e => e.id < l.id && e.conflicts l

/-- The launching instruction's status has been written (R186). -/
def State.acked (s : State) (l : Launch) : Bool := s.posted l.acked

/-- The context has used up its budget (R387); a BUDGET of 0 is unlimited. -/
def State.spent (s : State) (ctx : Nat) : Bool :=
  s.readPhys (ctx + 104) 4 != 0 && s.ctxs.any fun c => c.ctx == ctx && c.exhausted

/-- Teams of a launch's grid. -/
def Launch.total (l : Launch) : Nat := l.dims.1 * l.dims.2.1 * l.dims.2.2

/-- An offered team: its launch, and the team when it has been placed before. -/
structure Offer where
  launch : Launch
  team : Option Team
  deriving DecidableEq, Repr

/-- The order of offers: class, teams placed before, acceptance, linear index (R392). -/
def Offer.key (o : Offer) : Nat × Nat × Nat × Nat :=
  (7 - o.launch.prio, if o.team.isSome then 0 else 1, o.launch.id, (o.team.map fun t => t.index).getD o.launch.nextTeam)

def keyLt (a b : Nat × Nat × Nat × Nat) : Bool :=
  if a.1 ≠ b.1 then a.1 < b.1
  else if a.2.1 ≠ b.2.1 then a.2.1 < b.2.1
  else if a.2.2.1 ≠ b.2.2.1 then a.2.2.1 < b.2.2.1
  else a.2.2.2 < b.2.2.2

def offerInsert (o : Offer) : List Offer → List Offer
  | [] => [o]
  | p :: r => if keyLt o.key p.key then o :: p :: r else p :: offerInsert o r

/-- The offered teams, in order. -/
def State.offers (s : State) : List Offer :=
  let again := s.teams.filterMap fun t =>
    match s.launch? t.launch with
    | some l => if (t.phase == .saved || t.phase == .discarded) && !l.killed && !s.spent l.ctx then some ⟨l, some t⟩
        else none
    | none => none
  let new := s.launches.filterMap fun l =>
    if !l.killed && l.nextTeam < l.total && s.depsDone l && s.acked l && !s.spent l.ctx then
      some ⟨l, none⟩
    else none
  (again ++ new).foldl (fun os o => offerInsert o os) ([] : List Offer)

/-- The team that is placed next, and where. -/
def State.nextPlacement (s : State) : Option (Offer × Nat × Nat) :=
  s.offers.findSome? fun o => (s.site o.launch o.team).map fun x => (o, x)

/-! ### Creating groups (R35, R57, R80, R352) -/

/-- The free slots of a core, as partition and slot. -/
def State.freeSlots (s : State) (d c : Nat) : List (Nat × Nat) :=
  let used := (s.agents.filter fun a => a.alive && a.resident && !a.isSys && a.die == d && a.core == c).map
    fun a => (a.part, a.slot)
  ((List.range 12).flatMap fun p => (List.range 12).map fun k => (p, k)).filter fun x => !used.contains x

/-- A free slot of a core, any of them (R32). -/
def State.pickSlot (s : State) (key d c : Nat) : Nat × Nat :=
  let fs := s.freeSlots d c
  fs.getD (Config.freeNat s.fresh key % fs.length) (0, 0)

/-- The region whose entry the PC is at, when pcc's base is that of ENTRY0 (R396): entry and end. -/
def Launch.regionAt (l : Launch) (pcc : Cap) : Option (Nat × Nat) :=
  let base := (l.roles.getD 0 ⟨0, 0, 0, .null, .null⟩).entry.base
  if pcc.base ≠ base then none
  else l.regions.find? fun r => base + r.1 == pcc.addr

/-- The snapshot of a group at a region (R396). -/
def Agent.takeSnapshot (a : Agent) (r : Nat × Nat) : Agent :=
  { a with
    snapshot := some ⟨r.1, r.2, a.pcc, a.sregs, a.ctags, a.em, a.lm, a.toks, a.fsr, a.mxc⟩
    snapReady := true }

/-- A placed group at its creation. -/
def State.newGroup (s : State) (l : Launch) (team d first g id : Nat) : Agent :=
  let k := roleOf l.roles g
  let r := l.roles.getD k ⟨0, 0, 4, .null, .null⟩
  let core := first + g % l.fcores
  let at_ := s.pickSlot g d core
  let a : Agent := { Agent.blank id .placed with
    die := d
    core := core
    part := at_.1
    slot := at_.2
    cpart := l.cpart
    team := team
    launch := l.id
    g := g
    role := k
    budget := r.budget
    pid := l.pid
    tid := l.tid
    space := l.space
    pcc := { r.entry.withSeal 0 with tag := r.entry.tag }
    sregs := quadEntries 4 l.arg.bits ++ quadEntries 5 r.lcode.bits
    ctags := (if l.arg.tag then 0x10 else 0) ||| (if r.lcode.tag then 0x20 else 0)
    kentry := s.capPhys l.ctx
    kscr := s.capPhys (l.ctx + 16)
    xstat := xstatInit l.domain l.bmode false l.hchk
    age := id }
  match l.regionAt a.pcc with
  | some r => a.takeSnapshot r
  | none => a

/-- Creates the groups of a team one after another, each in a slot the earlier ones left free. -/
def State.createGroups (s : State) (l : Launch) (team d first : Nat) : Nat → State
  | 0 => s
  | n + 1 =>
    let s1 := s.createGroups l team d first n
    { s1 with rest := s1.rest ++ [s1.newGroup l team d first n s1.nextAgent], nextAgent := s1.nextAgent + 1 }

/-- The watchdog of a context is armed when a first team of it becomes resident (R399). -/
def State.armDog (s : State) (ctx : Nat) : State :=
  let busy := s.teams.any fun t => t.placed && ((s.launch? t.launch).any fun l => l.ctx == ctx)
  if busy then s
  else { s with ctxs := s.ctxs.map fun c => if c.ctx = ctx then { c with armed := s.time } else c }

/-- The launch waits no more. -/
def State.unwait (s : State) (l : Nat) : State := s.updLaunch l fun l => { l with reserved := [], waiting := [] }

/-- The arrays of a footprint read +0 for a team that owns them; no other team touches them (R249). -/
def State.freshArrays (s : State) (l : Launch) (d first : Nat) : State :=
  if l.matrix then s.clearArrays d first l.fcores else s

/-- A new team is placed (R34, R35). -/
def State.placeNew (s : State) (l : Launch) (d first : Nat) : State :=
  let id := s.nextTeam
  let t : Team := ⟨id, l.id, l.nextTeam, d, first, .resident, [], [], [], [], [], [], [], 0, [], none, s.time⟩
  let s1 := (s.armDog l.ctx).freshArrays l d first
  let s2 : State := { s1 with teams := s1.teams ++ [t], nextTeam := id + 1 }
  let s3 := (s2.unwait l.id).updLaunch l.id fun l => { l with nextTeam := l.nextTeam + 1 }
  s3.createGroups l id d first (groupCount l.roles)

/-- A team is placed all or nothing, where the scheduler places the next team (R34, R392). -/
def execTeamPlacement (launch die core : Nat) (s : State) : Out :=
  match s.nextPlacement with
  | some (o, d, f) =>
    if o.team.isNone && o.launch.id = launch && d = die && f = core then .next (s.placeNew o.launch d f)
    else .next s
  | none => .next s

/-! ### Reservation (R36, R393) -/

/-- What is free over a footprint: slots, register lines, bytes of team memory. -/
def State.freeOver (s : State) (d f n : Nat) : Nat × Nat × Nat :=
  (List.range n).foldl (fun u k =>
    let x := s.coreUse d (f + k)
    (u.1 + (144 - x.1), u.2.1 + (2048 - x.2.1), u.2.2 + (524288 - x.2.2))) (0, 0, 0)

def geAll (a b : Nat × Nat × Nat) : Bool := b.1 ≤ a.1 && b.2.1 ≤ a.2.1 && b.2.2 ≤ a.2.2

/-- No other footprint of the die has as much of everything free, and more or at a lower core. -/
def State.bestReserve (s : State) (l : Launch) (d f : Nat) : Bool :=
  let mine := s.freeOver d f l.fcores
  f + l.fcores ≤ 48 && (!l.matrix || f % 2 == 0) && !(List.range (49 - l.fcores)).any fun g =>
    let x := s.freeOver d g l.fcores
    (!l.matrix || g % 2 == 0) && geAll x mine && (x != mine || g < f)

/-- The launch has a reservation due on a die: it has waited there for 64 µs, and its offered team fits nowhere (R36). -/
def State.dueOn (s : State) (o : Offer) (die : Nat) : Bool :=
  o.launch.waiting.any (fun w => w.1 == die && w.2 + 64000 ≤ s.time) && (s.site o.launch o.team).isNone

/-- A launch that has waited 64 µs on a die gets cores reserved there. A die holds one reservation, of the highest class
that has one due; it takes the place of a lower one, whose launch keeps its waiting time (R36, R393). -/
def execTeamReservation (launch die core : Nat) (s : State) : Out :=
  match s.offers.find? fun o => o.launch.id == launch with
  | none => .next s
  | some o =>
    let l := o.launch
    let holds := fun (r : Launch) => r.reserved.any fun x => x.1 == die
    let above := s.offers.any fun r => l.prio < r.launch.prio && s.dueOn r die
    if !s.dueOn o die || holds l || above || s.launches.any (fun r => holds r && l.prio ≤ r.prio)
        || !s.bestReserve l die core then .next s
    else
      let s1 : State := { s with launches := s.launches.map fun r =>
        { r with reserved := r.reserved.filter fun x => x.1 != die } }
      .next (s1.updLaunch launch fun l => { l with reserved := (die, core) :: l.reserved })

/-- The launch waits on the dies of its partition from now on, where it does not wait already. -/
def State.beginWait (s : State) (l : Launch) : Launch :=
  { l with waiting := l.waiting ++ ((List.range 4).filter fun d =>
      s.fabric.diePart d == l.cpart && !l.waiting.any fun w => w.1 == d).map fun d => (d, s.time) }

/-- The oldest eligible launch of each class and partition begins to wait (R36). -/
def State.noteWaiting (s : State) : State :=
  let heads := s.offers.foldl (fun (hs : List Offer) o =>
    if hs.any fun h => h.launch.prio == o.launch.prio && h.launch.cpart == o.launch.cpart then hs else hs ++ [o]) []
  heads.foldl (fun s o => s.updLaunch o.launch.id s.beginWait) s

/-! ### Pre-emption (R394, R395, R397) -/

/-- The resident teams over a footprint. -/
def State.teamsOver (s : State) (d f n : Nat) : List (Team × Launch) :=
  s.teams.filterMap fun t =>
    match s.launch? t.launch with
    | some l => if t.placed && t.die == d && t.first < f + n && f < t.first + l.fcores then some (t, l) else none
    | none => none

/-- The state with a team off its footprint, for the count of free resources. -/
def State.without (s : State) (team : Nat) : State := s.updTeam team fun t => { t with phase := .saved }

def lowerFirst (x : Team × Launch) : List (Team × Launch) → List (Team × Launch)
  | [] => [x]
  | y :: r =>
    if x.2.prio < y.2.prio || (x.2.prio == y.2.prio && y.2.id < x.2.id) then x :: y :: r else y :: lowerFirst x r

/-- The teams to pre-empt, lowest class first and youngest launch first, until the offer fits; none when it never
does. -/
def freeing (o : Offer) (d f : Nat) : State → List (Team × Launch) → List Nat → Option (List Nat)
  | s, [], acc => if s.fits o.launch o.team d f then some acc else none
  | s, x :: r, acc =>
    if s.fits o.launch o.team d f then some acc else freeing o d f (s.without x.1.id) r (acc ++ [x.1.id])

/-- The teams that an offer pre-empts: on the footprint that needs the fewest (R394). -/
def State.victims (s : State) (o : Offer) : Option (List Nat) :=
  let sets := footprints.filterMap fun x =>
    let lower := (s.teamsOver x.1 x.2 o.launch.fcores).filter fun y => y.2.prio < o.launch.prio
    freeing o x.1 x.2 s (lower.foldl (fun l y => lowerFirst y l) []) []
  sets.foldl (fun best v => match best with
    | none => some v
    | some b => if v.length < b.length then some v else best) none

/-- The team that is pre-empted next for a team that cannot be placed (R394). -/
def State.nextVictim (s : State) : Option Nat :=
  s.offers.findSome? fun o =>
    if (s.site o.launch o.team).isSome then none
    else match s.victims o with
      | some (v :: _) => some v
      | _ => none

/-- A group stops at an instruction boundary (R395): a token wait, a pause and a queue block are abandoned and issue
again, and so does an instruction that stalls at a first touch; the other waits go on in the image. -/
def State.saved (s : State) (a : Agent) : Agent :=
  let w := match a.wait with
    | .token _ _ | .qpush _ _ | .qpop _ => Wait.none
    | w => w
  let b := if a.pausing && s.paused a then a.setPc (a.pc - 4) else a
  { b.leaveIssue with
    wait := w
    pauseEnd := 0
    pausing := false
    touching := none
    stalled := false
    missScalar := false
    missLane := false
    resident := false
    waitScalar := 0
    waitLane := 0 }

/-- A group's PC is within its snapshot's region, or it has ended there (R396). -/
def Agent.inRegion (a : Agent) (base : Nat) : Bool :=
  match a.snapshot with
  | none => false
  | some p => !a.alive || (base + p.entry ≤ a.pc && a.pc < base + p.stop)

/-- The team may be discarded to restart from its snapshots (R397). -/
def State.discardable (s : State) (t : Team) (l : Launch) : Bool :=
  let base := (l.roles.getD 0 ⟨0, 0, 0, .null, .null⟩).entry.base
  let all := s.agents.filter fun a => a.team == t.id && !a.isSys
  (all.filter fun a => a.kind == .placed).all (fun a => a.inRegion base) && (s.members t.id).all (fun a =>
      !a.hnd && a.kind != .spawned && a.reply.isNone && a.qcopy.isEmpty && a.qcoll.isEmpty && (match a.wait with
        | .recv _ _ => false
        | .call _ _ _ => false
        | .qpush _ _ => false
        | _ => true))
    && t.arriving.isEmpty && t.batches.isEmpty && t.built.isEmpty && !s.cmds.any fun k => k.team == t.id

/-- The arrays of a footprint, by footprint core. -/
def State.savedArrays (s : State) (t : Team) (f : Nat) : List (Nat × Sparse Word) :=
  (s.arrays.filter fun m => m.die == t.die && t.first ≤ m.core && m.core < t.first + f).map fun m =>
    (m.core - t.first, m.acc)

/-- Takes a resident team off its footprint: discarded, or saved whole (R395, R397). -/
def State.preempt (s : State) (t : Team) (l : Launch) : State :=
  let s1 := s.freshArrays l t.die t.first
  if s.discardable t l then
    let s2 := s1.updAll fun a => if a.team == t.id && !a.isSys then
      { a.stopped with resident := false, snapshot := a.snapshot } else a
    (s2.updTeam t.id fun t =>
      { t with phase := .discarded, tmem := [], barriers := [], faults := [], kept := [], spawned := 0 }).dropReadOnly
  else
    let s2 := s1.updAll fun a => if a.team == t.id && a.alive && !a.isSys then s.saved a else a
    (s2.updTeam t.id fun t =>
      { t with phase := .saved, accSaved := if l.matrix then s.savedArrays t l.fcores else [] }).dropReadOnly

/-- The matrix instructions of a team have completed, and no pair is half issued. -/
def State.atBoundary (s : State) (t : Team) : Bool :=
  !(s.arrays.any fun m => m.queue.any fun o => o.team == t.id) && (s.members t.id).all fun a => a.pairing == .single

/-- A watch instruction of the team is in flight; it completes at a pre-emption (R335). -/
def State.watching (s : State) (t : Team) : Bool :=
  (s.members t.id).any fun a => a.outst.any fun o => match o.kind with
    | .watch .. => true
    | _ => false

/-- A team is pre-empted (R394, R395): for a team of a higher class, or because its context has used up its budget
(R387), or because one of its cores is to be exchanged (R473). What it has written and seen is performed at .dev first, since
it may come back on other cores (R395, R405). -/
def execPreemption (team : Nat) (s : State) : Out :=
  match s.team? team with
  | none => .next s
  | some t =>
    match s.launch? t.launch with
    | none => .next s
    | some l =>
      let drained := s.islet.drained.any fun x => x.1 == t.die && t.first ≤ x.2 && x.2 < t.first + l.fcores
      if t.placed && s.atBoundary t && !(s.discardable t l && s.watching t) && s.teamReached team t.die t.first l.fcores
          && (s.spent l.ctx || drained || s.nextVictim = some team) then
        .next ((s.teamRelease team t.die t.first l.fcores).preempt t l)
      else .next s

/-! ### Restore (R395, R397) -/

/-- A group of a restored team on its new footprint. -/
def State.moveGroup (s : State) (a : Agent) (old d first id : Nat) : Agent :=
  let core := first + (a.core - old)
  let at_ := s.pickSlot a.id d core
  { a with die := d, core := core, part := at_.1, slot := at_.2, resident := true, age := id }

/-- A group that starts again from its snapshot: the snapshot's registers, vector registers and predicates zero, the
PC at the region's entry under the code capability it had there (log 95), the rest as at creation. -/
def State.restartGroup (s : State) (l : Launch) (a : Agent) (d first age : Nat) : Agent :=
  let b := s.newGroup l a.team d first a.g a.id
  match a.snapshot with
  | none => { b with age := age }
  | some p =>
    { b with
      pcc := p.pcc.withAddr (p.pcc.base + p.entry)
      sregs := p.sregs
      ctags := p.ctags
      em := p.em
      lm := p.lm
      toks := p.toks
      fsr := p.fsr
      mxc := p.mxc
      snapshot := some p
      snapReady := true
      age := age }

/-- Moves the groups of a team one after another. -/
def State.moveGroups (s : State) (l : Launch) (t : Team) (d first : Nat) : List Agent → State
  | [] => s
  | a :: r =>
    let b := if t.phase == .saved then s.moveGroup a t.first d first s.nextAgent
      else s.restartGroup l a d first s.nextAgent
    let s1 : State := { s.updAgent a.id (fun _ => b) with nextAgent := s.nextAgent + 1 }
    s1.moveGroups l t d first r

/-- A pre-empted or discarded team is placed again (R395). -/
def State.placeAgain (s : State) (l : Launch) (t : Team) (d first : Nat) : State :=
  let s1 := (s.armDog l.ctx).freshArrays l d first
  let mine := if t.phase == .saved then s.members t.id
    else s.agents.filter fun a => a.team == t.id && a.kind == .placed
  let s2 := s1.moveGroups l t d first mine
  let s3 : State := { s2 with arrays := s2.arrays ++ (t.accSaved.map fun e => ⟨d, first + e.1, e.2, []⟩) }
  (s3.unwait l.id).updTeam t.id fun t =>
    { t with
      die := d
      first := first
      phase := .resident
      accSaved := []
      kept := t.kept.map fun k => { k with core := first + (k.core - t.first) }
      placedAt := s.time }

/-- A team that was placed before comes back, where the scheduler places the next team. -/
def execTeamRestore (team die core : Nat) (s : State) : Out :=
  match s.nextPlacement with
  | some (o, d, f) =>
    (match o.team with
    | some t => if t.id = team && d = die && f = core then .next (s.placeAgain o.launch t d f) else .next s
    | none => .next s)
  | none => .next s

/-! ### Region snapshots (R396) -/

/-- A group outside a handler stands at the entry of a region of its launch. -/
def State.atEntry (s : State) (a : Agent) : Option (Nat × Nat) :=
  if a.isSys || a.hnd then none else (s.launch? a.launch).bind fun l => l.regionAt a.pcc

/-- The snapshot at a region's entry: the group has drained as for `gend`, and results in flight take effect. -/
def execRegionSnapshot (agent : Nat) (s : State) : Out :=
  match s.agent? agent with
  | none => .next s
  | some a =>
    match s.atEntry a with
    | none => .next s
    | some r =>
      if !a.alive || !a.resident || a.snapReady || !a.drained || s.unfinished a || a.wait ≠ .none then .next s
      else .next (s.updAgent agent fun a => a.settle.takeSnapshot r)

end Sys2Proof.Machine
end

