-- ==== Sys2Proof/Machine/Spawn.lean ====
section
/-!
DEFINITION. Groups that the spawn former starts (02 R48, R51, 19 R359) and the end of teams (02 R53, R54).
-/

namespace Sys2Proof.Machine

/-- A thread's registers in lane `k` of a new group (R48). -/
def Agent.takeThread (a : Agent) (k : Nat) (th : Thread) : Agent :=
  let b := th.regs.foldl (fun a e => a.put (.v e.1 k) e.2) a
  th.tags.foldl (fun a q => a.put (.vt q k) 1) b

/-- Barrier phases of which a group that starts now is a member: the first to open after its start (R181). -/
def Team.joinsNow (t : Team) : List Arrival := t.barriers.map fun b => ⟨b.obj, b.phase + 1⟩

/-- A spawned group at its start. -/
def State.spawnedGroup (s : State) (l : Launch) (t : Team) (b : Built) (j : Nat) : Agent :=
  let core := t.first + j % l.fcores
  let at_ := s.pickSlot j t.die core
  let n := b.threads.length
  let m : BitVec 32 := (List.range n).foldl (fun m k => m ||| laneBit k) 0
  let a : Agent := { Agent.blank s.nextAgent .spawned with
    die := t.die
    core := core
    part := at_.1
    slot := at_.2
    sslot := some j
    cpart := l.cpart
    team := t.id
    launch := l.id
    g := groupCount l.roles + j
    role := b.role
    budget := (l.roles.getD b.role ⟨0, 0, 4, .null, .null⟩).budget
    pid := l.pid
    tid := l.tid
    space := l.space
    pcc := b.code.withSeal 0
    em := m
    lm := m
    kentry := s.capPhys l.ctx
    kscr := s.capPhys (l.ctx + 16)
    xstat := xstatInit l.domain l.bmode false l.hchk
    joins := t.joinsNow
    age := s.nextAgent }
  ((List.range n).zip b.threads).foldl (fun a e => a.takeThread e.1 e.2) a

/-- A built group waiting in spawn memory starts in a free spawn slot, the oldest first (R47, R48). -/
def execSpawnedGroupStart (team : Nat) (s : State) : Out :=
  match s.team? team with
  | none => .next s
  | some t =>
    match s.launch? t.launch, t.built with
    | some l, b :: rest =>
      let js := s.freeSpawn t l
      if !t.placed || js.isEmpty then .next s
      else
        let j := js.getD (Config.freeNat s.fresh 1 % js.length) 0
        let a := s.spawnedGroup l t b j
        .next ({ s with rest := s.rest ++ [a], nextAgent := s.nextAgent + 1 }.updTeam team fun t =>
          { t with built := rest, spawned := t.spawned + 1 })
    | _, _ => .next s

/-- The slot that a fault group takes: one kept for it, or a free spawn slot of the team (R51). -/
def State.faultSlot (s : State) (t : Team) (l : Launch) : Option KeptSlot :=
  match t.kept with
  | k :: _ => some k
  | [] =>
    let js := s.freeSpawn t l
    (js[Config.freeNat s.fresh 1 % js.length]?).map fun j => ⟨some j, t.first + j % l.fcores, 0⟩

/-- A fault group at its start in a slot (R359). -/
def State.startedFault (s : State) (t : Team) (f : Agent) (k : KeptSlot) : Agent :=
  let at_ := s.pickSlot 2 t.die k.core
  { f with
    id := s.nextAgent
    resident := true
    die := t.die
    core := k.core
    part := at_.1
    slot := at_.2
    sslot := k.sslot
    heldFaults := []
    joins := t.joinsNow
    age := s.nextAgent }

/-- The oldest fault group that waits takes its slot and enters its handler (R51, R359). -/
def execFaultGroupStart (team : Nat) (s : State) : Out :=
  match s.team? team with
  | none => .next s
  | some t =>
    match s.launch? t.launch, t.faults with
    | some l, f :: rest =>
      (match s.faultSlot t l, f.heldFaults with
      | some k, (tr, _) :: _ =>
        if !t.placed then .next s
        else
          let a := s.startedFault t f k
          let s1 : State := { s with rest := s.rest ++ [a], nextAgent := s.nextAgent + 1 }
          let s2 := (s1.updTeam team fun t => { t with faults := rest, kept := t.kept.drop 1 }).focusOn a.id
          .next ((s2.trap tr).focusOn s.ag.id)
      | _, _ => .next s)
    | _, _ => .next s

/-! ### The end of a team (R53, R54) -/

/-- Accesses of a team's groups, and its engine commands, are still under way or not performed at .dev (R406). -/
def State.teamBusy (s : State) (team : Nat) : Bool :=
  (s.agents.any fun a => a.team == team && !a.isSys && !(a.outst.isEmpty && a.qcopy.isEmpty && a.qcoll.isEmpty))
    || (s.cmds.any fun k => k.team == team) || s.coh.early.any fun e => !e.seat.sys && e.seat.team == team

/-- After its last group has ended the team flushes its batches, drains its commands and releases what it holds
(R53). What it has written and seen is performed at .dev (R391, R406). -/
def execTeamExit (team : Nat) (s : State) : Out :=
  match s.team? team with
  | none => .next s
  | some t =>
    match s.launch? t.launch with
    | none => .next s
    | some l =>
      if !t.placed || !(s.members team).isEmpty then .next s
      else if !t.arriving.isEmpty || !t.batches.isEmpty then .next (s.updTeam team Team.flush)
      else if !t.built.isEmpty || !t.faults.isEmpty || t.dying.isSome || s.teamBusy team
          || !s.teamReached team t.die t.first l.fcores then .next s
      else
        let s1 := s.teamRelease team t.die t.first l.fcores
        .next (((s1.freshArrays l t.die t.first).updTeam team fun t =>
          { t with phase := .gone, tmem := [], barriers := [] }).dropReadOnly)

/-- A team is killed for an engine fault of a group that has ended (R267, R368). The kills that traps, requests and
resets cause are made within those steps. -/
def execTeamKill (team cause : Nat) (s : State) : Out :=
  match s.team? team with
  | none => .next s
  | some t =>
    match t.dying with
    | none => .next s
    | some d =>
      if d.cause = cause && t.phase ≠ .gone then .next (s.killTeam team d.cause 16 d.g d.cmd 0 d.addr) else .next s

end Sys2Proof.Machine
end

