-- ==== Sys2Proof/Machine/Contexts.lean ====
section
/-!
DEFINITION. Scheduling contexts and launches under way (21 R387, R391, R399, R400, R406), launch records (26 R456,
R457), device time (01 R25, R26).
-/

namespace Sys2Proof.Machine

def State.ctx? (s : State) (ctx : Nat) : Option CtxState := s.ctxs.find? fun c => c.ctx == ctx

def State.updCtx (s : State) (ctx : Nat) (f : CtxState → CtxState) : State :=
  { s with ctxs := s.ctxs.map fun c => if c.ctx = ctx then f c else c }

/-- The resident teams of a context with their launches. -/
def State.residentOf (s : State) (ctx : Nat) : List (Team × Launch) :=
  s.teams.filterMap fun t =>
    match s.launch? t.launch with
    | some l => if t.placed && l.ctx == ctx then some (t, l) else none
    | none => none

/-! ### Kill requests (R400) -/

/-- The launch named in KILLID, when it is pending in the context. -/
def State.killId (s : State) (ctx : Nat) : Option Launch :=
  s.launches.find? fun l => l.ctx == ctx && l.id == s.readPhys (ctx + 120) 8

/-- A launch named in KILLID: its teams are killed, its unplaced teams discarded, 0 is stored to KILLID. -/
def execKillRequest (ctx : Nat) (s : State) : Out :=
  match s.killId ctx with
  | none => .next s
  | some l =>
    let s1 := (s.teams.filter fun t => t.launch == l.id && t.phase != .gone).foldl
      (fun s t => s.killTeam t.id 0 8 0xFFFFFFFF 0 0 0) s
    .next ((s1.updLaunch l.id fun l => { l with killed := true, nextTeam := l.total, reserved := [] }).writePhys
      (ctx + 120) 8 0)

/-! ### Budgets (R387) -/

/-- USED reaches BUDGET: the context's teams are to be pre-empted, and none is placed until the next period. -/
def execBudgetExhausted (ctx : Nat) (s : State) : Out :=
  let b := s.readPhys (ctx + 104) 4
  match s.ctx? ctx with
  | none => .next s
  | some c =>
    if b = 0 || s.readPhys (ctx + 112) 4 + c.usedNs / 1000 < b then .next s
    else .next (s.updCtx ctx fun c => { c with exhausted := true })

/-- A new period begins: USED becomes 0. -/
def execPeriodStart (ctx : Nat) (s : State) : Out :=
  match s.ctx? ctx with
  | none => .next s
  | some c =>
    if !c.periodDue || !s.writeOk (ctx + 112) 4 then .next s
    else .next ((s.writePhys (ctx + 112) 4 0).updCtx ctx fun c =>
      { c with usedNs := 0, exhausted := false, periodDue := false })

/-- USED takes the core-µs that have been used. -/
def execUsedUpdate (ctx : Nat) (s : State) : Out :=
  match s.ctx? ctx with
  | none => .next s
  | some c =>
    let u := c.usedNs / 1000
    if u = 0 || !s.writeOk (ctx + 112) 4 then .next s
    else .next ((s.writePhys (ctx + 112) 4 (s.readPhys (ctx + 112) 4 + u)).updCtx ctx fun c =>
      { c with usedNs := c.usedNs % 1000 })

/-! ### Watchdog (R399) -/

/-- The hang report. -/
def hangReport (launch teams sink time groups yields tokens queues : Nat) : Nat :=
  launch + teams * 2 ^ 64 + 2 ^ 14 * 2 ^ 96 + sink * 2 ^ 128 + time * 2 ^ 192 + groups * 2 ^ 256 + yields * 2 ^ 288
    + tokens * 2 ^ 320 + queues * 2 ^ 352

/-- WDOG µs have passed with a team resident and no sink: a hang report. -/
def execWatchdogExpiry (ctx : Nat) (s : State) : Out :=
  let w := s.readPhys (ctx + 100) 4
  let rs := s.residentOf ctx
  match s.ctx? ctx, rs with
  | some c, (t, l) :: more =>
    if w = 0 || s.time < max c.lastSink c.armed + 1000 * w then .next s
    else
      let old := more.foldl (fun (m : Team × Launch) x => if x.2.id < m.2.id then x else m) (t, l)
      let gs := s.agents.filter fun a => a.alive && !a.isSys && rs.any fun x => x.1.id == a.team
      let count := fun (f : Wait → Bool) => (gs.filter fun a => f a.wait).length
      let rec_ := hangReport old.2.id rs.length c.lastSink s.time gs.length
        (count fun w => match w with
          | .yield _ _ _ | .recv _ _ | .call _ _ _ => true
          | _ => false)
        (count fun w => match w with
          | .token _ _ => true
          | _ => false)
        (count fun w => match w with
          | .qpush _ _ | .qpop _ => true
          | _ => false)
      .next ((s.writeRecord (old.2.who old.1.die) ctx rec_).updCtx ctx fun c => { c with armed := s.time })
  | _, _ => .next s

/-! ### Launch records and completion (R406, R456, R457) -/

/-- The 64 bytes of a launch record. -/
def launchRecord (l : Launch) (done : Bool) : Nat :=
  l.id % 2 ^ 62 + (if l.lost then 2 ^ 62 else 0) + (if done then 2 ^ 63 else 0) + l.start * 2 ^ 64
    + ((List.range 6).map fun k => l.stamps.getD k 0 % 2 ^ 64 * 2 ^ (128 + 64 * k)).sum

/-- Writes the record of a launch. -/
def State.putRecord (s : State) (l : Launch) (done : Bool) : State :=
  match areaAt (s.dbgOf l.cpart).lrec l.id with
  | none => s
  | some a => s.writePhys a 64 (launchRecord l done)

/-- The record of a launch may be written now (R285). -/
def State.recordOk (s : State) (l : Launch) : Bool := (areaAt (s.dbgOf l.cpart).lrec l.id).all fun a => s.writeOk a 64

def execLaunchRecordUpdate (launch : Nat) (s : State) : Out :=
  match s.launch? launch with
  | none => .next s
  | some l => .next (if s.recordOk l then s.putRecord l false else s)

/-- Every team of a launch has exited, and every access of its teams has been performed. -/
def State.launchOver (s : State) (l : Launch) : Bool :=
  l.nextTeam == l.total && s.teams.all fun t => t.launch != l.id || (t.phase == .gone && !s.teamBusy t.id)

/-- The joined name of a launch, of no agent. -/
def launchName (l : Launch) : Nat := l.pid % 2 ^ 32 + l.tid % 2 ^ 32 * 2 ^ 32 + l.id % 2 ^ 64 * 2 ^ 64

/-- A launch completes (R406): its record closes, its trace record is written, its graph node completes. The
launches that it held up are offered from now on (R391). -/
def execLaunchCompletion (launch : Nat) (s : State) : Out :=
  match s.launch? launch with
  | none => .next s
  | some l =>
    if !s.launchOver l || !s.recordOk l then .next s
    else
      let s1 := (s.putRecord l true).trace l.cpart (launchName l) 4 0 0 0
      let s2 : State := { s1 with launches := s1.launches.filter fun x => x.id != launch }
      let hit := s2.walks.findSome? fun w => (w.running.find? fun r => match r with
        | .launch _ id _ => id == launch
        | _ => false).map fun r => (w, r)
      match hit with
      | none => .next s2
      | some (w, r) => .next (s2.endRun w r)

/-! ### Device time (R25, R26) -/

/-- Which stamp a ns of a launch goes to (R457): SYS 0, DRV 1, FAULT 2, IOWAIT 3, ENGINE 4, OTHER 5. -/
def State.stampOf (s : State) (l : Launch) : Nat :=
  let mine := s.teams.filter fun t => t.launch == l.id
  let named := fun c => s.cores.any fun d => d.acct / 2 ^ 8 == l.id % 2 ^ 56 && d.acct % 8 == c
  if mine.any (fun t => t.placed) || s.cmds.any (fun k => mine.any fun t => t.id == k.team) then 4
  else if named 3 then 2
  else if named 4 then 3
  else if named 2 then 1
  else if named 1 then 0
  else 5

/-- A ns more on a stamp. -/
def Launch.charge (l : Launch) (k : Nat) : Launch := { l with stamps := l.stamps.set k (l.stamps.getD k 0 + 1) }

/-- A resident team of a context has had a sink since the watchdog last looked (R399). -/
def State.sank (s : State) (ctx : Nat) : Bool :=
  s.agents.any fun a => !a.isSys && a.resident && a.sinks != 0 && (s.launch? a.launch).any fun l => l.ctx == ctx

/-- A ns of a context at device time `now`: core-ns used by its resident teams, its last sink, the beginning of a period
(R387, R399). -/
def State.chargeCtx (s : State) (now : Nat) (c : CtxState) : CtxState :=
  let f := ((s.residentOf c.ctx).map fun x => x.2.fcores).sum
  let p := s.periodNs c.ctx
  { c with
    usedNs := c.usedNs + f
    lastSink := if s.sank c.ctx then now else c.lastSink
    periodDue := c.periodDue || (p != 0 && now % p == 0) }

/-- The master counter increases by one (R25); what is kept by device time goes on with it. -/
def execDeviceTimeTick (s : State) : Out :=
  let s1 : State := { s with
    time := s.time + 1
    launches := s.launches.map fun l => l.charge (s.stampOf l)
    ctxs := s.ctxs.map (s.chargeCtx (s.time + 1)) }
  .next (s1.updAll fun a => { a with sinks := 0 }).noteWaiting

/-- Sets a copy to the master: its reading holds while it goes backward (R26). -/
def State.resetCopy (s : State) (key : Nat) : State :=
  let seen := s.localTime key
  { s with
    clockOff := s.clockOff.filter fun e => e.1 != key
    clockHold := (key, seen) :: s.clockHold.filter fun e => e.1 != key }

/-- A copy is checked (R26): one that is more than 20 ns from the master is set to it, and an event is logged. A
compute core then writes back and empties its L1; a unit that grants leases and was set forward raises EMAX (R413). -/
def execTimeCopyCheck (agent : Nat) (s : State) : Out :=
  let off := s.clockOffset agent
  if off.natAbs ≤ 20 then .next s
  else
    let s1 := (s.resetCopy agent).logEvent 4 agent
    if agent < 64 then .next s1
    else if agent < 256 then
      let d := (agent - 64) / 48
      let c := (agent - 64) % 48
      if s.publishOk d c then .next (s1.emptyL1 d c) else .next s
    else if off < 0 && agent < 261 then
      let u := agent - 256
      .next { s1 with coh := { s1.coh with
        emax := (u, max (s.emax u) (s.time + 2020)) :: s1.coh.emax.filter fun e => e.1 != u } }
    else .next s1

end Sys2Proof.Machine
end

