-- ==== Sys2Proof/Machine/Debug.lean ====
section
/-!
DEFINITION. Stops, samples, lane focus, crash dump, the arming of launch accounting (26 R457 to R466). Each of these
but the sample is what a write to a register of the control window does.
-/

namespace Sys2Proof.Machine

/-- A write of a process id to STOP of partition `p` (R458): a stop is due for its groups, ipend bit 62 is set on the
system cores that run it. -/
def State.stopProcess (s : State) (p pid : Nat) : State :=
  s.updAll fun a =>
    if !a.alive || a.cpart != p || s.pidOf a != pid then a
    else if a.isSys then { a with ipend := a.ipend ||| (1#64 <<< 62) }
    else { a with stopDue := true }

def execStop (part pid : Nat) (s : State) : Out := .next (s.stopProcess part (pid % 2 ^ 32))

/-- A sample of every resident group and every thread of the partition, once PER µs have passed since the last
(R462). -/
def execTraceSample (part : Nat) (s : State) : Out :=
  let d := s.dbgOf part
  let per := d.sper % 2 ^ 16
  if per = 0 || s.time < d.sampledAt + 1000 * per then .next s
  else
    let who := s.agents.filter fun a => a.alive && a.resident && a.cpart == part
    let s1 := who.foldl (fun s a => s.trace part (s.joinedName a) 1 0 0 a.pc) s
    .next (s1.updDbg part fun d => { d with sampledAt := s.time })

/-! ### Lane focus (R463 to R465) -/

/-- A focus write for lane `m`: the lanes that were forced are deferred; a lane that was deferred first catches up. A
write that breaks a condition, or finds the stack or the lane queue unable to take it, has no effect. -/
def Agent.focusTo (a : Agent) (m : Nat) : Agent :=
  match a.blocks with
  | [] => a
  | b :: _ =>
    if a.focusStack.isEmpty then
      if a.em.getLsbD m then
        { a with focusStack := [⟨a.em &&& ~~~(laneBit m), 0, b.idx⟩], focus := laneBit m, focusLane := m }
      else a
    else if 32 ≤ a.focusStack.length then a
    else match a.focusStack.find? fun e => e.d.getLsbD m with
      | none => a
      | some e =>
        { a with
          replays := a.replays ++ (if e.n = 0 then [] else [⟨e.off, e.n, laneBit m, false⟩])
          focusStack := ⟨a.focus, 0, b.idx⟩
            :: a.focusStack.map fun x => { x with d := x.d &&& ~~~(laneBit m) }
          focus := laneBit m
          focusLane := m }

/-- A group in its handler, which alone reaches the focus registers. -/
def Agent.inHandler (a : Agent) : Bool := a.hnd && !a.isSys

/-- A write of DFOC with FOC = 1 and REL = 0. -/
def execLaneFocus (agent v : Nat) (s : State) : Out :=
  .next (s.updAgent agent fun a => if a.inHandler && v.testBit 6 && !v.testBit 7 then a.focusTo (v % 32) else a)

/-- A write of DFOC with REL = 1. -/
def execLaneFocusRelease (agent v : Nat) (s : State) : Out :=
  .next (s.updAgent agent fun a => if a.inHandler && v.testBit 7 then a.releaseFocus else a)

/-- Any write of DFOC by its group: LANE is stored; REL prevails over FOC. -/
def Agent.writeDfoc (a : Agent) (v : Nat) : Agent :=
  if !a.inHandler then a
  else if v.testBit 7 then a.releaseFocus
  else if v.testBit 6 then a.focusTo (v % 32)
  else { a with focusLane := v % 32 }

/-- What DFOC reads. -/
def Agent.readDfoc (a : Agent) : Nat :=
  a.focusStack.length % 32 * 2 ^ 8 + (if a.focusStack.isEmpty then 0 else 64) + a.focusLane % 32

/-- What DSTKn reads. -/
def Agent.readDstk (a : Agent) (n : Nat) : Nat :=
  match a.focusStack.drop n with
  | [] => 0
  | e :: _ => e.d.toNat * 2 ^ 32 + e.n % 256 * 2 ^ 8 + e.off % 256

/-! ### Crash dump (R466) -/

/-- The system cores of a partition, rising. -/
def State.systemCores (s : State) (p : Nat) : List Agent :=
  (List.range 64).filterMap fun c => s.agents.find? fun a => a.isSys && a.core == c && a.cpart == p

/-- The slot of a stopped core in the crash image: s0 to s159 with tags, then pcc, xpc, kentry and kscr with tags, then
the other control registers. The manual gives the slot's contents and its size; the layout is the model's. -/
def State.dumpCore (s : State) (pa : Nat) (a : Agent) : State :=
  let at_ := pa + 1024 * a.core
  let caps := (List.range 40).map a.capNow ++ [a.pcc, a.xpc, a.kentry, a.kscr]
  let s1 := ((List.range caps.length).zip caps).foldl (fun s e => s.putCap 0 (at_ + 16 * e.1) e.2) s
  let rest := a.xlpc.toNat + a.xaddr.toNat * 2 ^ 64 + a.ipend.toNat * 2 ^ 128 + a.tcmp.toNat * 2 ^ 192
    + a.xcause.toNat * 2 ^ 256 + a.xstat.toNat * 2 ^ 288 + a.xlanes.toNat * 2 ^ 320 + a.xinfo.toNat * 2 ^ 352
    + (sget 0 a.toks 15).toNat * 2 ^ 384
  s1.putBytes 0 (at_ + 704) (bytesLE 52 rest)

/-- The capability that the crash kernel holds in c4: LD, ST, LDC, STC and SYS; translation keeps it to the partition's
memory (R453). -/
def Cap.crashRoot : Cap := Cap.ofFields 0 0x80F 0 63 0 0 0 true

/-- The core on which the crash kernel starts. -/
def Agent.crashStart (core p entry : Nat) : Agent :=
  { Agent.blank core .sysCore with
    core := core
    cpart := p
    xstat := xstatInit 0 1 false false
    pcc := Cap.memoryRoot entry
    sregs := quadEntries 4 Cap.crashRoot.bits
    ctags := 0x10 }

/-- A team is taken off its footprint and never comes back. -/
def State.shelve (s : State) (t : Team) : State :=
  match s.launch? t.launch with
  | none => s
  | some l => if t.phase == .resident then s.preempt t l else s

/-- GO = 1 while ARM = 1: the teams of the partition are pre-empted and never resumed, its other system cores stop and
leave their registers in the image, its lowest system core starts the crash kernel. Memory, tags and page tables
stay. -/
def State.crash (s : State) (p : Nat) : State :=
  let d := s.dbgOf p
  if !d.crash.testBit 0 then s
  else
    let pa := field d.crash 12 40 * 4096
    let lost := (s.launches.filter fun l => l.cpart == p).map fun l => l.id
    let s1 := (s.teams.filter fun t => lost.contains t.launch).foldl State.shelve s
    let s2 : State := { s1 with
      teams := s1.teams.filter fun t => !lost.contains t.launch
      launches := s1.launches.filter fun l => l.cpart != p }
    let s3 := s2.updAll fun a => if a.cpart == p && !a.isSys then { a with alive := false } else a
    match s3.systemCores p with
    | [] => s3
    | low :: others =>
      let s4 := others.foldl (fun s a => s.dumpCore pa a) s3
      let ids := others.map fun a => a.id
      let s5 := s4.updAll fun a => if ids.contains a.id then { a with alive := false } else a
      s5.updAgent low.id fun a => { Agent.crashStart low.core p pa with id := a.id }

def execCrashDump (p : Nat) (s : State) : Out := .next (s.crash p)

/-! ### Launch accounting (R457) -/

def State.updCore (s : State) (core : Nat) (f : CoreDebug → CoreDebug) : State :=
  { s with cores := s.cores.map fun c => if c.core = core then f c else c }

/-- ACCT as it is kept: bits [7:3] read 0, a CLASS of 5 to 7 reads 0. -/
def acctValue (v : Nat) : Nat := v % 2 ^ 64 / 2 ^ 8 * 2 ^ 8 + (if v % 8 < 5 then v % 8 else 0)

/-- A write of ACCT: with LID 0 and CLASS 1 it arms the core, any other disarms it. -/
def State.writeAcct (s : State) (core v : Nat) : State :=
  s.updCore core fun c =>
    { c with acct := acctValue v, armedAt := if acctValue v = 1 then some s.time else none }

def execAcctArm (core v : Nat) (s : State) : Out :=
  .next (if acctValue v = 1 then s.writeAcct core v else s)

end Sys2Proof.Machine
end

