-- ==== Sys2Proof/Machine/Graph.lean ====
section
/-!
DEFINITION. The nodes of a graph (21 R402). Each event row runs the node of its kind that the walk has reached.
-/

namespace Sys2Proof.Machine

/-- A node may start: the walk goes on, and every node that runs is ASYNC (R402). -/
def Walk.ready (w : Walk) : Bool :=
  !w.ended && w.running.all fun r => match r with
    | .launch _ _ a => a
    | .copy _ _ a => a
    | .test _ a => a

/-- The walk may start its next node: the status of its submission has posted, too (R186). -/
def State.walkReady (s : State) (w : Walk) : Bool := w.ready && s.posted w.acked

/-- A node at its start: its index, ASYNC. -/
structure NodeHead where
  w : Walk
  n : Nat
  async : Bool
  deriving DecidableEq, Repr

/-- The walk ends: STATE ← 0 once every node it started has completed. -/
def State.endWalk (s : State) (w : Walk) : State := (s.updWalk w.id fun x => { x with ended := true }).settleWalk w.id

def State.loseWalk (s : State) (w : Walk) : State := (s.graphLost w).settleWalk w.id

/-- The next node of the walk. -/
def State.goNode (s : State) (w : Walk) (n : Nat) : State := s.updWalk w.id fun x => { x with node := n }

/-- Starts the node that the walk has reached when its kind is `kind`: GPC is written, reserved bits are checked. -/
def State.atNode (s : State) (walk : Nat) (kind : Nat → Bool) (k : NodeHead → State → State) : Out :=
  match s.walk? walk with
  | none => .next s
  | some w =>
    if !s.walkReady w then .next s
    else match s.graphTouch w w.node with
      | some s' => .next s'
      | none => match s.graphRead w w.graph.base 4, s.graphRead w (w.nodeAt w.node 0) 4 with
        | some nn, some w0 =>
          if nn % 2 ^ 11 ≤ w.node || !kind (w0 % 16) then .next s
          else match s.graphWrite w (w.graph.base + 8) 4 w.node with
            | none => .next (s.loseWalk w)
            | some s1 =>
              if w0 / 2 ^ 5 ≠ 0 || 6 < w0 % 16 then .next (s1.failNode w w.node 0x01 false)
              else .next (k ⟨w, w.node, w0.testBit 4⟩ s1)
        | some nn, none => if nn % 2 ^ 11 ≤ w.node then .next s else .next (s.loseWalk w)
        | none, _ => .next (s.loseWalk w)

/-- The end of a walk: a node of kind 0, falling past the last node; and the failure of a node of an unknown kind. -/
def execEndNode (walk : Nat) (s : State) : Out :=
  match s.walk? walk with
  | none => .next s
  | some w =>
    if !s.walkReady w then .next s
    else if ((s.graphRead w w.graph.base 4).any fun nn => nn % 2 ^ 11 ≤ w.node) then .next (s.endWalk w)
    else s.atNode walk (fun k => k == 0 || 6 < k) fun h s => s.endWalk h.w

/-! ### Tests -/

/-- What a test comes to. -/
inductive TestRes
  | is (s : State) (b : Bool)
  | again (s : State)
  | fail (s : State) (cause : Nat)
  | lost

/-- The comparisons of CMP. -/
def testHolds (cmp x v : Nat) : Bool :=
  match cmp with
  | 0 => true
  | 1 => x == v
  | 2 => x != v
  | 3 => x < v
  | _ => v ≤ x

/-- A test reads the word at TCAP with an acquire at .dev: what releases of its place have left early is performed first (R415). -/
def State.nodeTest (s : State) (w : Walk) (n : Nat) : TestRes :=
  match s.graphCap w (w.nodeAt n 4), s.graphRead w (w.nodeAt n 8) 4, s.graphRead w (w.nodeAt n 9) 4 with
  | some c, some cmp, some v =>
    if 4 < cmp then .fail s 0x01
    else match c.check [permLD] c.addr 4 4 with
      | some cause => .fail s cause
      | none => match s.devXlate w.who (c.want false) c.addr with
        | .fail s' cause => .fail s' cause
        | .absent s' => .fail s' 0x10
        | .again s' => .again s'
        | .ok s' pa o =>
          if !s'.devAcquires pa 4 then .again s'
          else .is s' (testHolds cmp (ofBytesLE (s'.getAt o pa 4)) v)
  | _, _, _ => .lost

/-- A loop node: TARGET below its index; ITER counts the passes. -/
def execLoopNode (walk : Nat) (s : State) : Out :=
  s.atNode walk (fun k => k == 3) fun h s =>
    let w := h.w
    match s.graphRead w (w.nodeAt h.n 1) 4 with
    | none => s.loseWalk w
    | some t =>
      if h.n ≤ t then s.failNode w h.n 0x01 false
      else match s.nodeTest w h.n with
        | .fail s' cause => s'.failNode w h.n cause false
        | .lost => s.loseWalk w
        | .again s' => s'
        | .is s' b =>
          match s'.graphRead w (w.nodeAt h.n 2) 4, s'.graphRead w (w.nodeAt h.n 3) 4 with
          | some mx, some it =>
            let again := b && (mx == 0 || it < mx)
            (match s'.graphWrite w (w.nodeAt h.n 3) 4 (if again then it + 1 else 0) with
            | none => s'.loseWalk w
            | some s2 => s2.goNode w (if again then t else h.n + 1))
          | _, _ => s'.loseWalk w

/-- A conditional node: TARGET above its index. -/
def execConditionalNode (walk : Nat) (s : State) : Out :=
  s.atNode walk (fun k => k == 4) fun h s =>
    let w := h.w
    match s.graphRead w (w.nodeAt h.n 1) 4 with
    | none => s.loseWalk w
    | some t =>
      if t ≤ h.n then s.failNode w h.n 0x01 false
      else match s.nodeTest w h.n with
        | .fail s' cause => s'.failNode w h.n cause false
        | .lost => s.loseWalk w
        | .again s' => s'
        | .is s' b => s'.goNode w (if b then t else h.n + 1)

/-- A node runs on: the walk reaches the next one. -/
def State.runNode (s : State) (w : Walk) (n : Nat) (r : NodeRun) : State :=
  (s.updWalk w.id fun x => { x with running := x.running ++ [r] }).goNode w (n + 1)

/-- A wait node: it completes when its test holds. -/
def execWaitNode (walk : Nat) (s : State) : Out :=
  s.atNode walk (fun k => k == 5) fun h s =>
    match s.nodeTest h.w h.n with
    | .fail s' cause => s'.failNode h.w h.n cause false
    | .lost => s.loseWalk h.w
    | .again s' => s'
    | .is s' b => if b then s'.goNode h.w (h.n + 1) else s'.runNode h.w h.n (.test h.n h.async)

/-- The wait nodes of a walk that test again. -/
def Walk.waitRuns (w : Walk) : List (Nat × NodeRun) :=
  w.running.filterMap fun r => match r with
    | .test n a => some (n, .test n a)
    | _ => none

/-- A wait node tests again. -/
def State.retest (s : State) (w : Walk) (x : Nat × NodeRun) : State :=
  let gone : State → State := fun s => s.updWalk w.id fun y => { y with running := y.running.filter fun z => z != x.2 }
  match s.graphTouch w x.1 with
  | some s' => s'
  | none => match s.nodeTest w x.1 with
    | .fail s' cause => (gone s').failNode w x.1 cause false
    | .lost => (gone s).loseWalk w
    | .again s' => s'
    | .is s' b => if b then s'.endRun w x.2 else s'

/-- Every wait node of the walk that waits tests again (R402). -/
def execWaitNodeRetest (walk : Nat) (s : State) : Out :=
  match s.walk? walk with
  | none => .next s
  | some w => .next (w.waitRuns.foldl (fun s x => if (s.walk? walk).isSome then s.retest w x else s) s)

/-! ### Launch, copy and signal nodes -/

/-- A launch node submits its launch as `glaunch` does; it is accepted into its context as it starts (R402). -/
def execLaunchNode (walk : Nat) (s : State) : Out :=
  s.atNode walk (fun k => k == 1) fun h s =>
    let w := h.w
    match s.graphCap w (w.nodeAt h.n 4), s.graphCap w (w.nodeAt h.n 8), s.graphCap w (w.graph.base + 16) with
    | some g, some own, some sctx =>
      let x := if own.isNull then sctx else own
      (match g.checkPlain [permLD] g.addr 512 64 with
      | some cause => s.failNode w h.n cause false
      | none => match ctxCheck x with
        | some cause => s.failNode w h.n cause false
        | none => match s.xlatePieces w.who (g.want false) [] (piecesOf ((g.addr : Int), 512)) with
          | .again s' => s'
          | .page s' _ kind => s'.failNode w h.n (if kind = 2 then 0x12 else 0x10) false
          | .fail s' cause _ => s'.failNode w h.n cause false
          | .ok s1 ps => match s1.devXlate w.who (x.want false) x.base with
            | .again s' => s'
            | .absent s' => s'.failNode w h.n 0x10 false
            | .fail s' cause => s'.failNode w h.n cause false
            | .ok s2 ctx _ =>
              let id := s2.nextLaunch
              let r := s2.submit ctx x (s2.readDescriptor ps) ⟨w.space, w.pid, w.tid, none, none⟩
              if r.2 ≠ 0 then r.1.failNode w h.n r.2 true
              else r.1.runNode w h.n (.launch h.n id h.async))
    | _, _, _ => s.loseWalk w

/-- The four quads of a copy node's command, each loaded with its tag under R89. -/
def State.nodeCommand (s : State) (c : Cap) (ps : List Piece) : List Word × List Bool :=
  let cs := (List.range 4).map fun k => match pieceAt ps (16 * k) with
    | some (pa, o) => s.getCapAt o pa
    | none => .null
  (cs.flatMap fun c => [c.bits.extractLsb' 0 32, c.bits.extractLsb' 32 32, c.bits.extractLsb' 64 32,
    c.bits.extractLsb' 96 32], cs.map fun x => x.tag && c.has permLDC)

/-- A copy node runs its command (R402): TK, STEAM and DTEAM are zero. -/
def execCopyNode (walk : Nat) (s : State) : Out :=
  s.atNode walk (fun k => k == 2) fun h s =>
    let w := h.w
    match s.graphCap w (w.nodeAt h.n 4) with
    | none => s.loseWalk w
    | some c => match c.checkPlain [permLD] c.addr 64 16 with
      | some cause => s.failNode w h.n cause false
      | none => match s.xlatePieces w.who (c.want false) [] (piecesOf ((c.addr : Int), 64)) with
        | .again s' => s'
        | .page s' _ kind => s'.failNode w h.n (if kind = 2 then 0x12 else 0x10) false
        | .fail s' cause _ => s'.failNode w h.n cause false
        | .ok s1 ps =>
          let q := s1.nodeCommand c ps
          let ctl := cw q.1 8
          let bad := if field ctl 16 5 ≠ 0 || field ctl 10 2 ≠ 0 then some 0x01
            else (copyCheck (0, 0) q.1 q.2).map fun e => e.1
          match bad with
          | some cause => s1.failNode w h.n cause false
          | none =>
            let k : EngineCmd := {
              id := s1.nextCmd, coll := false, num := 0, agent := none, walk := some (w.id, h.n), team := 0, die := 4
              cpart := w.cpart, space := w.space, mode := w.mode, domain := w.domain, words := q.1, tags := q.2
              tk := none, obj := 0, rank := 0, inst := 0, seen := false, waitPage := none, done := [] }
            let s2 : State := { s1 with cmds := s1.cmds ++ [k], nextCmd := s1.nextCmd + 1 }
            s2.runNode w h.n (.copy h.n k.id h.async)

/-- A signal node signals an interrupt line, or stores VAL with release at .dev (R402). -/
def execSignalNode (walk : Nat) (s : State) : Out :=
  s.atNode walk (fun k => k == 6) fun h s =>
    let w := h.w
    match s.graphCap w (w.nodeAt h.n 4), s.graphRead w (w.nodeAt h.n 9) 4 with
    | some c, some v =>
      if c.sealType = 4 then
        (match c.checkObject 4 [permST] with
        | some cause => s.failNode w h.n cause false
        | none => match s.devXlate w.who (c.want true) c.base with
          | .fail s' cause => s'.failNode w h.n cause false
          | .absent s' => s'.failNode w h.n 0x10 false
          | .again s' => s'
          | .ok s' pa _ => (s'.signalLine pa).goNode w (h.n + 1))
      else match c.check [permST] c.addr 4 4 with
        | some cause => s.failNode w h.n cause false
        | none => match s.devWrite w.who (c.want true) c.addr 4 v with
          | .fail s' cause _ => s'.failNode w h.n cause false
          | .again s' => s'
          | .ok s' _ => s'.goNode w (h.n + 1)
    | _, _ => s.loseWalk w

end Sys2Proof.Machine
end

