-- ==== Sys2Proof/Machine/Platform.lean ====
section
/-!
DEFINITION. Registers of the package and what writes to them do: partitions (25 R451), leases (23 R410), exports (27
R470), revocation (24 R425), keys (24 R438); the links and ports (25 R444 to R450); the passes of the sweeper (24 R427
to R430); peer accesses (24 R434).
-/

namespace Sys2Proof.Machine

/-! ### Partitions (R451) -/

/-- The limits of a PARTCFG value: units of system cores and of LPDDR6. -/
def partcfgOk (v : Nat) : Bool :=
  let f : Fabric := ⟨0, v, 0, [], 0, 0, 0, [], [], []⟩
  (List.range 4).all (fun p => f.sysn p ≤ 16 && f.lpdn p ≤ 16)
    && ((List.range 4).map f.sysn).sum ≤ 16 && ((List.range 4).map f.lpdn).sum ≤ 16

/-- Writes the two bits of link `n` in LINKPART. -/
def setLinkPart (v n p : Nat) : Nat := v - field v (2 * n) 2 * 2 ^ (2 * n) + p % 4 * 2 ^ (2 * n)

/-- PARTCFG as a write leaves it: a die that moves takes its four links along; a write that breaks a limit is
ignored. -/
def Fabric.withPartcfg (f : Fabric) (v : Nat) : Fabric :=
  if !partcfgOk (v % 2 ^ 48) then f
  else
    let g : Fabric := { f with partcfg := v % 2 ^ 48 }
    let moved := (List.range 16).filter fun n => g.diePart (n / 4) ≠ f.diePart (n / 4)
    { g with linkpart := moved.foldl (fun w n => setLinkPart w n (g.diePart (n / 4))) f.linkpart }

/-- A write of PARTCFG; system cores go to their new partitions. -/
def State.writePartcfg (s : State) (v : Nat) : State :=
  let f := s.fabric.withPartcfg v
  let s1 : State := { s with fabric := f }
  s1.updAll fun a => if a.isSys then { a with cpart := (f.corePart a.core).getD a.cpart } else a

def execPartcfgWrite (v : Nat) (s : State) : Out := .next (s.writePartcfg v)

/-- A write of LINKPART: ignored when it names another partition than its die's for a link of a compute die. -/
def Fabric.withLinkpart (f : Fabric) (v : Nat) : Fabric :=
  if (List.range 16).all fun n => field v (2 * n) 2 == f.diePart (n / 4) then { f with linkpart := v % 2 ^ 36 } else f

def execLinkpartWrite (v : Nat) (s : State) : Out := .next { s with fabric := s.fabric.withLinkpart v }

/-! ### Leases, exports, revocation -/

/-- A write of a die's coherence control: 5 to 100, any other value is ignored (R410). -/
def State.writeLease (s : State) (d v : Nat) : State :=
  let n := v % 2 ^ 7
  if n < 5 || 100 < n then s
  else { s with coh := { s.coh with control := s.coh.control.map fun e => if e.1 = d then (d, n) else e } }

def execCoherenceControlWrite (die v : Nat) (s : State) : Out := .next (s.writeLease die v)

/-- No entry of the export table is valid. -/
def State.exportsIdle (s : State) : Bool :=
  s.fabric.exppa == 0 || (List.range s.fabric.exportCount).all fun k =>
    !(s.readPhys (s.fabric.exportAt k + 16) 4).testBit 15

/-- A write of EXPPA: only while the free list is empty and no entry is valid (R470). -/
def State.writeExppa (s : State) (v : Nat) : State :=
  if s.fabric.expfree = 0xFFFF && s.exportsIdle then
    { s with fabric := { s.fabric with exppa := v % 2 ^ 64 / 2 ^ 12 * 2 ^ 12 } }
  else s

def execExppaWrite (v : Nat) (s : State) : Out := .next (s.writeExppa v)

/-- A write of RMAP (0), RVBASE (1) or RVLEN (2): ignored while a pass runs or waits, or when it breaks a limit
(R425). -/
def State.writeRevocation (s : State) (which v : Nat) : State :=
  let w := s.sweep
  if w.running.isSome || w.waiting.isSome then s
  else if which = 0 then { s with sweep := { w with rmap := field v 12 40 * 2 ^ 12 + v % 2 } }
  else if which = 1 then
    if v % 2 ^ 21 = 0 && canonical (v % 2 ^ 64) then { s with sweep := { w with rvbase := v % 2 ^ 64 } } else s
  else if which = 2 then
    if v % 2 ^ 21 = 0 && v ≤ 2 ^ 44 then { s with sweep := { w with rvlen := v } } else s
  else s

def execRevocationRegisterWrite (which v : Nat) (s : State) : Out := .next (s.writeRevocation which v)

/-! ### Keys (R438) -/

/-- A write of KCMD: ID, and with LOAD a load that is in progress until `KEY_LOAD`. While one is in progress the write
is ignored. -/
def Keys.writeKcmd (k : Keys) (v : Nat) : Keys :=
  if k.kstat % 2 = 1 then k
  else { k with kcmd := v % 256, kstat := if v.testBit 8 then k.kstat / 2 * 2 + 1 else k.kstat }

/-- The number of the key in KDATA: the one it had before, or a new one. -/
def Keys.keyNumber (k : Keys) : Nat := ((k.known.find? fun e => e.1 == k.kdata).map (·.2)).getD (k.gens + 1)

/-- A load completes: refused for id 0 or a full slot; otherwise every controller holds the key and KDATA is
zeroed. -/
def Keys.load (k : Keys) : Keys :=
  if k.kstat % 2 = 0 then k
  else if k.kcmd = 0 || k.full.any fun e => e.1 == k.kcmd then { k with kstat := 2 }
  else
    let n := k.keyNumber
    { k with
      kstat := k.kstat / 2 * 2
      full := (k.kcmd, n) :: k.full
      gens := max k.gens n
      known := (k.kdata, n) :: k.known.filter fun e => e.1 != k.kdata
      kdata := List.replicate 16 0 }

def execKeyLoad (s : State) : Out := .next { s with keys := s.keys.load }

/-! ### Sweep passes (R427 to R430) -/

/-- A waiting pass begins once none runs. -/
def execSweepPassBegin (s : State) : Out :=
  match s.sweep.running, s.sweep.waiting with
  | none, some n => .next (s.beginPass n)
  | _, _ => .next s

/-- The visit of memory: tagged granules of the frames to visit lose their tag when their base is marked; a frame that
holds no tag any more clears its presence bit (R429). -/
def State.sweepMemory (s : State) : State :=
  let keep := s.tags.filter fun t => !(inSet s.sweep.visit (t / 256) && s.marked (s.capPhys (16 * t)).base)
  let held := s.sweep.frames.filter fun f => !(inSet s.sweep.visit f) || keep.any fun t => t / 256 == f
  { s with
    tags := keep
    sweep := { s.sweep with frames := held } }

/-- The pass completes: what has not been swept yet is swept, and swpdone is the number of the pass (R430). -/
def execSweepPassComplete (s : State) : Out :=
  match s.sweep.running with
  | none => .next s
  | some n =>
    let s1 := s.updAll fun a => if a.sweptAt = n then a else s.judgeAgent n a
    let s2 := s1.sweepHeld.sweepMemory
    .next { s2 with sweep := { s2.sweep with running := none, visit := [], swpdone := n } }

/-! ### Links (R444 to R446) -/

def State.updLink (s : State) (n : Nat) (f : Link → Link) : State :=
  { s with fabric := { s.fabric with links := s.fabric.links.map fun l => if l.n = n then f l else l } }

/-- A link trains and learns its peer; a failed link stays failed until the next package reset. -/
def execLinkTraining (n peer : Nat) (s : State) : Out :=
  .next (s.updLink n fun l => if l.state = 3 then l else { l with state := 2, peer := peer % 2 ^ 11 })

/-- A flit is replayed: RETRY counts, saturating at 0xFF. -/
def execFlitReplay (n : Nat) (s : State) : Out :=
  .next (s.updLink n fun l => if l.state = 2 then { l with retry := min 255 (l.retry + 1) } else l)

/-- The spare lane replaces a worn lane; STATE stays 2 (R445). Which lane it is, is the Islet's to say. -/
def execLinkSpareLane (n : Nat) (s : State) : Out :=
  .next (s.updLink n fun l =>
    if l.state = 2 && !l.spu then { l with spu := true, splane := Config.freeNat s.fresh n % 8 } else l)

/-- A second lane fails (R445). -/
def execLinkFailure (n : Nat) (s : State) : Out :=
  .next (s.updLink n fun l => if l.spu then { l with state := 3 } else l)

/-- The far end resets or goes away: the link leaves state 2, for training or for down. -/
def execLinkPeerLoss (n : Nat) (s : State) : Out :=
  .next (s.updLink n fun l =>
    if l.state = 2 then { l with state := if Config.freeBit s.fresh n then 1 else 0 } else l)

/-! ### Ports (R449, R450, R474) -/

def State.port? (s : State) (k : Nat) : Option Port := s.fabric.ports.find? fun p => p.k == k

def State.updPort (s : State) (k : Nat) (f : Port → Port) : State :=
  { s with fabric := { s.fabric with ports := s.fabric.ports.map fun p => if p.k = k then f p else p } }

/-- An MSI-X write signals the line whose object the entry of the port's table names; a port without a table, or an
entry beyond it or of 0, signals nothing. A completion that was due is signalled with it. -/
def execMsixWrite (port entry : Nat) (s : State) : Out :=
  match s.port? port with
  | none => .next s
  | some p =>
    let line := if p.msix = 0 || 2048 ≤ entry then 0 else s.readPhys (p.msix + 8 * entry) 8
    let s1 := if line = 0 then s else s.signalOwned 0 line
    .next { s1 with fabric := { s1.fabric with portDone := s1.fabric.portDone.filter fun k => k != port } }

/-- A transfer is complete: its writes have been performed, and its signal is due. -/
def execPortTransferComplete (port : Nat) (s : State) : Out :=
  .next (if (s.port? port).isSome && !s.fabric.portDone.contains port then
    { s with fabric := { s.fabric with portDone := s.fabric.portDone ++ [port] } } else s)

/-- For whom a port's access is translated: its address space, owner domain 0, partition 0 (the manual assigns no port);
whether the check of U applies to it, the manual leaves open. -/
def State.portWho (s : State) (p : Port) : Who :=
  ⟨4, 0, .obj p.aspace, if Config.freeBit s.fresh p.k then 0 else 1, 0, none⟩

/-- A port's access for a transfer. A write clears the tags of the granules it touches, and waits for leases; a read
changes nothing here; one that fails its checks has no effect. -/
def execPortMemoryAccess (port va size data : Nat) (write : Bool) (s : State) : Out :=
  match s.port? port with
  | none => .next s
  | some p =>
    if p.aspace = 0 || size = 0 || va / 4096 ≠ (va + size - 1) / 4096 then .next s
    else match s.devXlate (s.portWho p) ⟨write, false, false, false⟩ va with
      | .ok s' pa o =>
        if !write then .next s'
        else if s'.writeOk pa size then .next (s'.putAt o pa (bytesLE size data))
        else .next s
      | .again s' => .next s'
      | _ => .next s

/-! ### Peer accesses (R434) -/

/-- The check of an access that arrives from a peer. -/
def State.peerAllowed (s : State) (q : PeerRequest) : Bool :=
  let f := s.fabric
  let at_ := f.exportAt q.entry
  let w := s.readPhys (at_ + 16) 4
  let o := s.capPhys at_
  f.exppa ≠ 0 && q.entry < f.exportCount && w.testBit 15 && field w 16 16 == q.gen && field w 0 11 == q.pkg
    && q.offset + q.size ≤ o.top - o.base && q.perms.testBit (if q.write then permST else permLD)

/-- A peer access: a write that the check admits is performed. The entry names no address space, so the physical address
that the offset within ORIG stands for is left open: it is a free one in DRAM (log 40). -/
def execPeerAccessRequest (req : PeerRequest) (s : State) : Out :=
  let pa := Config.freeNat s.fresh 0
  if req.write && s.peerAllowed req && isDram pa && s.writeOk pa req.size then
    .next (s.putAt 0 pa (bytesLE req.size req.data))
  else .next s

end Sys2Proof.Machine
end

