-- ==== Sys2Proof/Machine/Islet.lean ====
section
/-!
DEFINITION. The Islet: boot slots, fuses and evidence (24 R440 to R443), the mailbox, power and spares (27 R471 to
R473), package reset, partition reset and loss of the supply (27 R467, R468; 19 R369; 25 R452; 24 R443).
-/

namespace Sys2Proof.Machine

/-! ### The mailbox (R471) -/

/-- A command is under way in the mailbox and has not been carried out. -/
def Islet.doing (i : Islet) (code : Nat) : Bool := i.mbstat % 2 == 1 && i.mbcmd == code && i.mbres.isNone

/-- A write of MBCMD starts a command; while BUSY it is ignored. -/
def Islet.writeMbcmd (i : Islet) (v : Nat) : Islet :=
  if i.mbstat % 2 = 1 then i else { i with mbcmd := v % 256, mbstat := 1, mbres := none }

/-- A failure code: the manual says non-zero, the value is the Islet's. -/
def State.failCode (s : State) : Nat := Config.freeNat s.fresh 9 % 255 + 1

/-- BOOTOK (R440): TRIES becomes 0; a confirmed update clears FALLBACK. -/
def execBootok (s : State) : Out :=
  let i := s.islet
  .next (if !i.doing 1 then s else
    { s with islet := { i with
      tries := 0
      fallback := i.fallback && !i.updated
      updated := false
      mbres := some 0 } })

/-- The counter's value V (R442). -/
def Islet.fuseValue (i : Islet) : Nat := min i.fuseA i.fuseB

/-- STAGE (R471): what the image holds, its signature and SVN, is not in this machine; a bad signature or an SVN below
the fuse value fails and changes neither slot. -/
def execStage (s : State) : Out :=
  let i := s.islet
  let svn := Config.freeNat s.fresh 1
  let slot := (i.active + 1) % 2
  .next (if !i.doing 2 then s
    else if !Config.freeBit s.fresh 0 || svn < i.fuseValue then
      { s with islet := { i with mbres := some s.failCode } }
    else
      { s with islet := { i with
        svn := i.svn.set slot svn
        slotOk := i.slotOk.set slot true
        staged := true
        mbres := some 0 } })

/-- LOGRD (R471): the log, newest entry first, 32 bytes an entry. The bytes of an entry are the Islet's own. -/
def execLogrd (s : State) : Out :=
  let i := s.islet
  let n := 32 * i.log.length
  .next (if !i.doing 3 then s
    else if !isDram i.mbarg || !isDram (i.mbarg + 2 ^ 17) then
      { s with islet := { i with mbres := some s.failCode } }
    else if !s.writeOk i.mbarg n then s
    else
      let s1 := s.putAt 0 i.mbarg ((List.range n).map fun k => Config.freeByte s.fresh k)
      { s1 with islet := { i with mbres := some 0 } })

/-- FUSE (R442): raises the counter to MBARG, A first, then B; at most 64 and the SVN of the booted image. A fuse that
fails its verification stops the programming and logs a fuse fault (kind 6). -/
def execFuse (s : State) : Out :=
  let i := s.islet
  let k := i.mbarg
  .next (if !i.doing 4 then s
    else if k ≤ i.fuseValue then { s with islet := { i with mbres := some 0 } }
    else if 64 < k || i.svn.getD i.active 0 < k then { s with islet := { i with mbres := some s.failCode } }
    else if Config.freeBit s.fresh 2 then
      { s with islet := { i with fuseA := max i.fuseA k, fuseB := max i.fuseB k, mbres := some 0 } }
    else
      let a := i.fuseA + Config.freeNat s.fresh 3 % (if i.fuseB < k then k - i.fuseA + 1 else k - i.fuseA)
      let b := if a < k then i.fuseB else i.fuseB + Config.freeNat s.fresh 4 % (k - i.fuseB)
      let s1 : State := { s with islet := { i with fuseA := a, fuseB := b, mbres := some s.failCode } }
      s1.logEvent 6 k)

/-- The command ends: BUSY clears and MBSTAT reports. A code that the manual does not list ends with a failure. -/
def execMailboxCommandEnd (s : State) : Out :=
  let i := s.islet
  let res := if 1 ≤ i.mbcmd && i.mbcmd ≤ 4 then i.mbres else some s.failCode
  .next (match i.mbstat % 2 == 1, res with
    | true, some r => { s with islet := { i with mbstat := r % 256 * 2 ^ 8, mbres := none } }
    | _, _ => s)

/-- GET_MEASUREMENTS (R441): the digests of the Islet's firmware, of the booted slot, of the boot state. -/
def execGetMeasurements (nonce : Nat) (s : State) : Out :=
  let i := s.islet
  let boot := [i.active, if i.fallback then 1 else 0, i.tries, i.svn.getD i.active 0, i.fuseValue]
  .next { s with islet := { i with measured :=
    [nonce, Config.digest 1 [], Config.digest 2 [i.active, i.svn.getD i.active 0], Config.digest 3 boot] } }

/-! ### Power (R472) -/

/-- The model figure: the charges by activity in thousandths, the first three scaled by STEP, and the leakage. -/
def modelFigure (act : Nat → Nat) (step leak : Nat) : Nat :=
  let w := fun k full => full * min 1000 (act k) / 1000
  (w 0 700 + w 1 350 + w 2 250) * step / 64 + w 3 350 + w 4 300 + w 5 150 + w 6 150 + leak

/-- A step of the power manager, once a µs: `watts` is the measured figure; the activities are free. -/
def execPowerManagerStep (watts : Nat) (s : State) : Out :=
  let i := s.islet
  if s.time < i.pwrAt + 1000 then .next s
  else
    let pest := min 65535 (max watts (modelFigure (fun k => Config.freeNat s.fresh k % 1001) i.step i.leak))
    let step := if 2400 < pest then max 32 (i.step - 1) else if pest < 2300 then min 64 (i.step + 1) else i.step
    .next { s with islet := { i with
      pest := pest
      step := step
      pwrAt := s.time
      overSince := if 2400 < pest && i.step = 32 then some (i.overSince.getD s.time) else none
      underSince := if pest ≤ 2400 then some (i.underSince.getD s.time) else none } }

/-- The leakage figure, every 100 µs. -/
def execLeakageUpdate (_die leak : Nat) (s : State) : Out :=
  .next (if s.time < s.islet.leakAt + 100000 then s
    else { s with islet := { s.islet with leak := leak, leakAt := s.time } })

/-- Whether a condition has held for 1 ms. -/
def State.heldMs (s : State) (since : Option Nat) : Bool := since.any fun t => t + 1000000 ≤ s.time

def execPowerAlertAssert (s : State) : Out :=
  .next (if !s.islet.alert && s.heldMs s.islet.overSince then
    let s1 : State := { s with islet := { s.islet with alert := true } }
    s1.logEvent 7 s.islet.pest
  else s)

def execPowerAlertRelease (s : State) : Out :=
  .next (if s.islet.alert && s.heldMs s.islet.underSince then
    { s with islet := { s.islet with alert := false } } else s)

/-! ### Spares (R473) -/

/-- An exchange. A compute core (`unit` below 48) first leaves placement; once no team is resident on it, and its L1 is
written back, its number passes to the spare and it returns. Ways, channels and rows (`unit` from 48 on) are exchanged live. A
system core (die 4) is exchanged at the next reset of its partition. -/
def execSpareExchange (die unit : Nat) (s : State) : Out :=
  if die < 4 && unit < 48 then
    if !s.islet.drained.contains (die, unit) then
      .next { s with islet := { s.islet with drained := s.islet.drained ++ [(die, unit)] } }
    else if (s.teamsOver die unit 1).isEmpty && s.publishOk die unit then
      let s1 := s.emptyL1 die unit
      let s2 : State := { s1 with islet := { s1.islet with drained := s1.islet.drained.filter fun x => x != (die, unit) } }
      .next (s2.logEvent 8 (64 * die + unit))
    else .next s
  else if die < 4 then .next (s.logEvent 8 (64 * die + unit))
  else if die = 4 && unit < 64 && !s.islet.drained.contains (die, unit) then
    .next { s with islet := { s.islet with drained := s.islet.drained ++ [(die, unit)] } }
  else .next s

/-- The system cores of a partition that are to be exchanged are (R473). -/
def State.swapSystem (s : State) (p : Nat) : State :=
  let due := s.islet.drained.filter fun x => x.1 == 4 && s.fabric.corePart x.2 == some p
  let s1 : State := { s with islet := { s.islet with drained := s.islet.drained.filter fun x => !due.contains x } }
  due.foldl (fun s x => s.logEvent 8 (64 * x.1 + x.2)) s1

/-! ### Boot (R440, R443, R467, R468) -/

/-- The slot to boot: a staged update takes effect; the algorithm of R440. That a slot was already tried this way is
known by FALLBACK. -/
def Islet.pickSlot (i : Islet) : Islet :=
  let j := if i.staged then
    { i with active := (i.active + 1) % 2, tries := 0, staged := false, updated := true } else i
  let good := fun k => j.slotOk.getD k false && j.fuseValue ≤ j.svn.getD k 0
  let other := (j.active + 1) % 2
  if 3 ≤ j.tries || !good j.active then
    if j.fallback || !good other then { j with bootHalted := true, fallback := true }
    else { j with active := other, tries := 1, fallback := true, updated := false }
  else { j with tries := j.tries + 1 }

/-- The Islet over a package reset: the shorter fuse field is completed, or fails its verification (`fault`), and
the slot is chosen. -/
def Islet.boot (i : Islet) (fault : Bool) : Islet :=
  let m := max i.fuseA i.fuseB
  let z : Islet := { i with
    bootHalted := false, mbarg := 0, mbcmd := 0, mbstat := 0, mbres := none, measured := [], pest := 0, step := 64
    leak := 0, pwrAt := 0, leakAt := 0, overSince := none, underSince := none, alert := false, drained := [] }
  if i.fuseA ≠ i.fuseB && fault then { z with bootHalted := true }
  else ({ z with fuseA := m, fuseB := m }).pickSlot

/-- A package reset: every part at its reset value but the Islet's non-volatile state, PKGID and the bytes of memory,
which the new key of slot 0 makes unrelated. When boot halts no core is released. -/
def execPackageReset (s : State) : Out :=
  let r := State.reset
  let i := s.islet.boot (Config.freeBit s.fresh 5)
  let s1 : State := { r with
    mem := s.mem
    cipher := s.cipher
    keys := { r.keys with full := [(0, s.keys.gens + 1)], gens := s.keys.gens + 1, known := s.keys.known }
    fabric := { r.fabric with pkgid := s.fabric.pkgid }
    islet := i
    fresh := s.fresh
    schedule := s.schedule }
  .next (if i.bootHalted then s1.updAll fun a => { a with alive := false } else s1)

/-- The supply is lost (R443): nothing happens until the next package reset. A fuse programming under way stops where
it is. -/
def execPowerLoss (s : State) : Out :=
  let i := s.islet
  let k := i.mbarg
  let j : Islet := if i.doing 4 && i.fuseValue < k && k ≤ 64 && k ≤ i.svn.getD i.active 0 then
      let a := i.fuseA + Config.freeNat s.fresh 3 % (k - i.fuseA + 1)
      { i with fuseA := a, fuseB := if a < k then i.fuseB else i.fuseB + Config.freeNat s.fresh 4 % (k - i.fuseB + 1) }
    else i
  .next { s with powered := false, islet := j }

/-! ### Partition reset (R369, R452, R468) -/

/-- The lines that reported the error: a free choice among the partition's memory. -/
def State.errorLines (s : State) (p : Nat) : List Nat :=
  ((List.range (Config.freeNat s.fresh 0 % 4)).map fun k => Config.freeNat s.fresh (k + 1)).filter fun l =>
    isDram (128 * l) && s.fabric.owns p (128 * l)

/-- The early writes of the dies of the partition are performed or lost, one by one (R369). -/
def State.loseDirty (s : State) (p : Nat) : State :=
  let mine : Early → Bool := fun e => !e.seat.sys && s.fabric.diePart e.seat.die == p
  let s1 := s.drain fun e => mine e && Config.freeBit s.fresh (64 + e.id)
  let s2 := s1.setEarly (s1.coh.early.filter fun e => !mine e)
  { s2 with coh := { s2.coh with l1 := s2.coh.l1.filter fun l => s.fabric.diePart l.die != p } }

/-- The system cores of the partition restart: the lowest at the booted image, the others wait. -/
def State.restartSystem (s : State) (p : Nat) : State :=
  let low := ((s.systemCores p).map fun a => a.core).headD 64
  s.updAll fun a =>
    if !a.isSys || a.cpart != p then a
    else if a.core = low then { Agent.sysStart a.core p (BitVec.ofNat 32 p) 1 Config.bootEntry with id := a.id }
    else { Agent.sysIdle a.core with id := a.id, cpart := p }

/-- The reset of partition `p`. The log names each launch that lost work (R369). -/
def State.resetPartition (s : State) (p : Nat) : State :=
  let sys := s.systemCores p
  let hit := s.teams.filter fun t => t.placed && s.fabric.diePart t.die == p
  let ids := hit.map fun t => t.id
  let s1 := sys.foldl (fun s a => s.dropReply a) s
  let s2 := ids.foldl (fun (s : State) t => s.killTeam t 0 32 0xFFFFFFFF 0 0 0) (s1.loseDirty p)
  let lost := hit.map fun t => t.launch
  let gone := sys.map fun a => a.id
  let s3 : State := { s2 with
    cmds := s2.cmds.filter fun k => !ids.contains k.team
    launches := s2.launches.map fun l => if lost.contains l.id then { l with lost := true } else l
    eps := s2.eps.map fun e => { e with receivers := e.receivers.filter fun r => !gone.contains r }
    fabric := { s2.fabric with
      links := s2.fabric.links.map fun l =>
        if field s2.fabric.linkpart (2 * l.n) 2 == p && l.state != 3 then { l with state := 1 } else l
      ports := if p = 0 then s2.fabric.ports.map fun q => { q with aspace := 0, msix := 0 } else s2.fabric.ports
      portDone := if p = 0 then [] else s2.fabric.portDone } }
  let s4 := (lost.foldl addSet []).foldl (fun (s : State) l => s.logEvent 9 l) s3
  let s5 := (s.errorLines p).foldl (fun (s : State) l => s.putBytes 0 (128 * l) (List.replicate 128 0)) s4
  (s5.swapSystem p).restartSystem p

def execPartitionReset (p : Nat) (s : State) : Out := .next (s.resetPartition p)

end Sys2Proof.Machine
end

