-- ==== Sys2Proof/Machine/Window.lean ====
section
/-!
DEFINITION. The system control window (27 R469): its map, and what a read and a write of each register do.
-/

namespace Sys2Proof.Machine

/-- The registers of the window. `config` is the configuration space of the storage port's root port. -/
inductive WReg
  | pkgid | partcfg | linkpart
  | roster (p : Nat)
  | exppa | expfree | pwr | rmap | rvbase | rvlen
  | kdata (i : Nat)
  | kcmd | kstat
  | lease (d : Nat)
  | link (n : Nat)
  | lrec (p : Nat)
  | trbuf (p : Nat)
  | tridx (p : Nat)
  | tctl (p : Nat)
  | sper (p : Nat)
  | stop (p : Nat)
  | crash (p : Nat)
  | wbase (p k : Nat)
  | wlen (p k : Nat)
  | wctl (p k : Nat)
  | ident (c : Nat)
  | acct (c : Nat)
  | dfoc
  | dstk (n : Nat)
  | aspace (k : Nat)
  | msix (k : Nat)
  | config (off : Nat)
  | mbarg | mbcmd | mbstat
  deriving DecidableEq, Repr

/-- A register with its width in bytes. -/
abbrev WSlot := WReg × Nat

/-- The debug registers of a partition's block, by the offset within it. -/
def debugSlot (p off : Nat) : Option WSlot :=
  match off with
  | 0x00 => some (.lrec p, 8)
  | 0x08 => some (.trbuf p, 8)
  | 0x10 => some (.tridx p, 4)
  | 0x18 => some (.tctl p, 8)
  | 0x20 => some (.sper p, 4)
  | 0x28 => some (.stop p, 4)
  | 0x30 => some (.crash p, 8)
  | _ =>
    let k := (off - 0x40) / 0x18
    let r := (off - 0x40) % 0x18
    if off < 0x40 || 4 ≤ k then none
    else if r = 0 then some (.wbase p k, 8)
    else if r = 8 then some (.wlen p k, 8)
    else if r = 16 then some (.wctl p k, 8)
    else none

/-- The package registers at the start of the window. -/
def packageSlot (off : Nat) : Option WSlot :=
  if off = 0 then some (.pkgid, 4)
  else if off = 0x8 then some (.partcfg, 8)
  else if off = 0x10 then some (.linkpart, 8)
  else if 0x20 ≤ off && off < 0x40 && off % 8 = 0 then some (.roster ((off - 0x20) / 8), 8)
  else if off = 0x40 then some (.exppa, 8)
  else if off = 0x48 then some (.expfree, 4)
  else if off = 0x50 then some (.pwr, 8)
  else if off = 0x100 then some (.rmap, 8)
  else if off = 0x108 then some (.rvbase, 8)
  else if off = 0x110 then some (.rvlen, 8)
  else if 0x200 ≤ off && off < 0x240 && off % 4 = 0 then some (.kdata ((off - 0x200) / 4), 4)
  else if off = 0x240 then some (.kcmd, 4)
  else if off = 0x244 then some (.kstat, 4)
  else none

/-- The registers of a port's block. -/
def portSlot (k off : Nat) : Option WSlot :=
  if off = 0 then some (.aspace k, 8)
  else if off = 8 then some (.msix k, 8)
  else if k = 2 && 0x1000 ≤ off && off < 0x2000 then some (.config off, 0)
  else none

/-- The map of R469: the register at an offset of the window. -/
def wslot (off : Nat) : Option WSlot :=
  let block := off / 0x1000000
  let o := off % 0x1000000
  match block with
  | 0 => packageSlot off
  | 1 => if o % 0x100000 = 0 && o / 0x100000 < 4 then some (.lease (o / 0x100000), 4) else none
  | 2 => if o % 0x100 = 0 && o / 0x100 < 18 then some (.link (o / 0x100), 4) else none
  | 3 => if o / 0x10000 < 4 then debugSlot (o / 0x10000) (o % 0x10000) else none
  | 4 => if 64 ≤ o / 0x100 then none
      else if o % 0x100 = 0 then some (.ident (o / 0x100), 8)
      else if o % 0x100 = 8 then some (.acct (o / 0x100), 8)
      else none
  | 5 => if o = 0 then some (.dfoc, 4)
      else if 8 ≤ o && o < 0x108 && o % 8 = 0 then some (.dstk ((o - 8) / 8), 8)
      else none
  | 6 => if o / 0x100000 < 3 then portSlot (o / 0x100000) (o % 0x100000) else none
  | 7 => if o = 0 then some (.mbarg, 8)
      else if o = 8 then some (.mbcmd, 4)
      else if o = 12 then some (.mbstat, 4)
      else none
  | _ => none

/-- The partition whose block a register lies in; none for a register of the package. The ports belong to partition
0. -/
def State.blockPart (s : State) (r : WReg) : Option Nat :=
  match r with
  | .lease d => some (s.fabric.diePart d)
  | .link n => some (field s.fabric.linkpart (2 * n) 2)
  | .lrec p | .trbuf p | .tridx p | .tctl p | .sper p | .stop p | .crash p => some p
  | .wbase p _ | .wlen p _ | .wctl p _ => some p
  | .ident c | .acct c => s.fabric.corePart c
  | .aspace _ | .msix _ | .config _ => some 0
  | _ => none

/-- The register that an access reaches: none, with an event logged (kind 5), for an offset that is not assigned or a
size that is not the register's; none for a block of another partition. -/
def State.reachReg (s : State) (cpart off size : Nat) : State × Option WReg :=
  match wslot off with
  | none => (s.logEvent 5 off, none)
  | some (r, w) =>
    if w ≠ 0 && w ≠ size then (s.logEvent 5 off, none)
    else match s.blockPart r with
      | none => (s, some r)
      | some p => (s, if p = cpart then some r else none)

/-- What an area register reads: PA and LOGN. -/
def areaValue (v : Nat) : Nat := field v 12 40 * 2 ^ 12 + v % 2 ^ 5

/-- The status of a link as it reads (R444). -/
def linkValue (l : Link) : Nat :=
  l.peer % 2 ^ 11 * 2 ^ 16 + l.retry % 256 * 2 ^ 8 + l.splane % 8 * 2 ^ 5 + (if l.spu then 16 else 0) + l.state % 4

/-- The value of a register, as the agent `a` reads it. -/
def State.readReg (s : State) (a : Agent) (r : WReg) : Nat :=
  let d := s.dbgOf
  match r with
  | .pkgid => s.fabric.pkgid
  | .partcfg => s.fabric.partcfg
  | .linkpart => s.fabric.linkpart
  | .roster p => s.fabric.rosters.getD p 0
  | .exppa => s.fabric.exppa
  | .expfree => s.fabric.expfree
  | .pwr => s.islet.pest * 2 ^ 16 + s.islet.step
  | .rmap => s.sweep.rmap
  | .rvbase => s.sweep.rvbase
  | .rvlen => s.sweep.rvlen
  | .kdata _ => 0
  | .kcmd => s.keys.kcmd
  | .kstat => s.keys.kstat
  | .lease n => ((s.coh.control.find? fun e => e.1 == n).map (·.2)).getD 0
  | .link n => ((s.fabric.links.find? fun l => l.n == n).map linkValue).getD 0
  | .lrec p => (d p).lrec
  | .trbuf p => (d p).trbuf
  | .tridx p => (d p).tridx
  | .tctl p => (d p).tctl
  | .sper p => (d p).sper
  | .stop _ => 0
  | .crash p => (d p).crash
  | .wbase p k => (d p).wbase.getD k 0
  | .wlen p k => (d p).wlen.getD k 0
  | .wctl p k => (d p).wctl.getD k 0
  | .ident c => (s.coreDebug c).ident
  | .acct c => (s.coreDebug c).acct
  | .dfoc => a.readDfoc
  | .dstk n => a.readDstk n
  | .aspace k => ((s.port? k).map fun p => p.aspace).getD 0
  | .msix k => ((s.port? k).map fun p => p.msix).getD 0
  | .config off => Config.freeNat s.fresh off
  | .mbarg => s.islet.mbarg
  | .mbcmd => s.islet.mbcmd
  | .mbstat => s.islet.mbstat

/-- A write of a register that only keeps its bits. -/
def State.plainReg (s : State) (r : WReg) (v : Nat) : State :=
  match r with
  | .roster p => { s with fabric := { s.fabric with rosters := s.fabric.rosters.set p (field v 8 44 * 2 ^ 8) } }
  | .expfree => { s with fabric := { s.fabric with expfree := v % 2 ^ 16 } }
  | .kdata i => { s with keys := { s.keys with kdata := s.keys.kdata.set i (v % 2 ^ 32) } }
  | .kstat =>
    { s with keys := { s.keys with kstat := if v.testBit 1 then s.keys.kstat % 2 else s.keys.kstat } }
  | .link n => s.updLink n fun l => { l with retry := field v 8 8 }
  | .lrec p => s.updDbg p fun d => { d with lrec := areaValue v }
  | .trbuf p => s.updDbg p fun d => { d with trbuf := areaValue v }
  | .tridx p => s.updDbg p fun d => { d with tridx := v % 2 ^ 32 }
  | .tctl p => s.updDbg p fun d => { d with tctl := v % 2 ^ 64 }
  | .sper p => s.updDbg p fun d => { d with sper := v % 2 ^ 16 }
  | .wbase p k => s.updDbg p fun d => { d with wbase := d.wbase.set k (v % 2 ^ 64) }
  | .wlen p k => s.updDbg p fun d => { d with wlen := d.wlen.set k (v % 2 ^ 64) }
  | .wctl p k => s.updDbg p fun d => { d with wctl := d.wctl.set k (field v 32 32 * 2 ^ 32 + v % 8) }
  | .ident c => s.updCore c fun d => { d with ident := v % 2 ^ 64 }
  | .aspace k => s.updPort k fun p => { p with aspace := v % 2 ^ 64 }
  | .msix k => s.updPort k fun p => { p with msix := v % 2 ^ 64 }
  | .mbarg => { s with islet := { s.islet with mbarg := v % 2 ^ 64 } }
  | _ => s

/-- A write of CRASH of partition `p` by an agent in mode `mode` (R466): PA and ARM are kept; GO from kernel mode while
ARM is 1 starts the dump. -/
def State.writeCrash (s : State) (p mode v : Nat) : State :=
  let armed := (s.dbgOf p).crash.testBit 0
  let s1 := s.updDbg p fun d => { d with crash := field v 12 40 * 2 ^ 12 + v % 2 }
  if v.testBit 1 && mode = 1 && armed then (s1.updDbg p fun d => { d with crash := d.crash / 2 * 2 + 1 }).crash p
  else s1

/-- A write of a register by agent `id`, whose instruction issued in mode `mode`. -/
def State.writeReg (s : State) (id mode : Nat) (r : WReg) (v : Nat) : State :=
  match r with
  | .partcfg => s.writePartcfg v
  | .linkpart => { s with fabric := s.fabric.withLinkpart v }
  | .exppa => s.writeExppa v
  | .rmap => s.writeRevocation 0 v
  | .rvbase => s.writeRevocation 1 v
  | .rvlen => s.writeRevocation 2 v
  | .kcmd => { s with keys := s.keys.writeKcmd v }
  | .lease d => s.writeLease d v
  | .stop p => s.stopProcess p (v % 2 ^ 32)
  | .crash p => s.writeCrash p mode v
  | .acct c => s.writeAcct c v
  | .dfoc => s.updAgent id fun a => a.writeDfoc v
  | .mbcmd => { s with islet := s.islet.writeMbcmd v }
  | r => s.plainReg r v

/-- A read of `size` bytes at an offset of the window by agent `a`. -/
def State.windowRead (s : State) (a : Agent) (off size : Nat) : State × Nat :=
  match s.reachReg a.cpart off size with
  | (s1, none) => (s1, 0)
  | (s1, some r) => (s1, s1.readReg a r % 2 ^ (8 * size))

/-- A write of `size` bytes at an offset of the window by agent `a`. -/
def State.windowWrite (s : State) (a : Agent) (mode off size v : Nat) : State :=
  match s.reachReg a.cpart off size with
  | (s1, none) => s1
  | (s1, some r) => s1.writeReg a.id mode r (v % 2 ^ (8 * size))

/-- REGISTER_WRITE: a write to a register that has no behaviour of its own; to any other offset it does nothing. -/
def execRegisterWrite (off v : Nat) (s : State) : Out :=
  match wslot off with
  | none => .next s
  | some (r, _) => .next (s.plainReg r v)

end Sys2Proof.Machine
end

