-- ==== Sys2Proof/Machine/Perform.lean ====
section
/-!
DEFINITION. What a memory operation does when it is performed (08 R175 to R177, 10 R233 to R245, 12 R281 to R286, 23
R412 to R414): its reads, its writes, what it leaves in the L1 of its core. The lanes of one instruction act one after
another, in ascending number.
-/

namespace Sys2Proof.Machine

/-! ### Places -/

/-- The offset of a window address. -/
def windowOff (pa : Nat) : Nat := pa - 0x80000000000

/-- The operation is a write of the line that is still to be performed. -/
def Op.writeWaits (o : Op) (line : Nat) : Bool :=
  !o.performed && (match o.kind with
    | .mem op _ _ accs _ => op.rw.2 && accs.any fun x => (match x.place with
        | .pa p => lineOf p == line
        | .team _ => false)
    | _ => false)

/-- A write to a line waits somewhere, so that no lease is granted on it (R411). -/
def State.writeWaits (s : State) (line : Nat) : Bool := s.agents.any fun a => a.outst.any fun o => o.writeWaits line

/-- As `writeWaits`, for a write other than operation `num` of the agent. -/
def State.othersWait (s : State) (a : Agent) (num line : Nat) : Bool :=
  s.agents.any fun b => b.outst.any fun o => o.writeWaits line && !(b.id == a.id && o.num == num)

/-- A load of a compute core leaves its line in the L1: a valid line stays as it is, another is granted a lease unless
a write to the line waits. A read-only line goes with any load that is not `.ro` (R284, R286). -/
def State.fillL1 (s : State) (a : Agent) (owner pa : Nat) : State :=
  let line := lineOf pa
  if !a.hasL1 || !isDram pa then s
  else if (s.hitLine a owner line).any fun l => l.ro.isNone then s
  else
    let s1 := s.dropL1 a.die a.core line
    if s.writeWaits line then s1 else s1.grantLease a.die a.core line owner

/-- A narrow store of the agent's core lies in the line. -/
def State.narrowIn (s : State) (a : Agent) (line : Nat) : Bool :=
  s.coh.early.any fun e => e.narrowOf a.die a.core && e.inLine line

/-- A `.ro` load (R237, R286): a line marked for the launch serves it with what the line held when it was filled; other
loads fill such a line with what they read, unless it holds narrow stores. -/
def State.roRead (s : State) (a : Agent) (owner pa n : Nat) : State × List Byte :=
  let line := lineOf pa
  let seen := s.seeAs a owner pa n
  let marked : L1Line → L1Line := fun l =>
    { l with ro := some a.launch, owner := owner, roData := s.seeBytes owner (128 * line) 128 }
  if !a.hasL1 || !isDram pa then (s, seen)
  else match s.l1 a.die a.core line with
    | some l =>
      if l.ro = some a.launch && l.owner = owner && Config.freeBit s.fresh (800000 + line) then
        (s, (List.range n).map fun i => l.roData.getD (pa % 128 + i) 0)
      else if s.narrowIn a line then (s, seen)
      else (s.setL1 (marked l), seen)
    | none =>
      if s.writeWaits line then (s, seen)
      else
        let s1 := s.grantLease a.die a.core line owner
        match s1.l1 a.die a.core line with
        | none => (s1, seen)
        | some l => (s1.setL1 (marked l), seen)

/-- Bytes as a data access of the agent reads them. -/
def State.accRead (s : State) (a : Agent) (ro : Bool) (x : Acc) (n : Nat) : State × List Byte :=
  match x.place with
  | .team t => (s, s.overlay a.seat 0 x.place (s.teamBytes a.team t n))
  | .pa p =>
    if isWindow p then
      let r := s.windowRead a (windowOff p) n
      (r.1, bytesLE n r.2)
    else if isPeer p then
      let r := s.peerTake a.seat.die p n
      (r.1, s.overlay a.seat x.owner x.place r.2)
    else
      let s1 := s.noteKey x.owner p
      if ro then s1.roRead a x.owner p n else (s1.fillL1 a x.owner p, s1.seeAs a x.owner p n)

/-- A write-through of bytes in DRAM by the agent: its L1 copy of the line is dropped (R412). -/
def State.writeThrough (s : State) (a : Agent) (pa : Nat) (f : State → State) : State :=
  if a.hasL1 then (f s).dropL1 a.die a.core (lineOf pa) else f s

/-- Bytes written by a data access. -/
def State.accWrite (s : State) (a : Agent) (x : Acc) (bs : List Byte) : State :=
  match x.place with
  | .team t => s.putTeam a.team t bs
  | .pa p =>
    if isWindow p then s.windowWrite a x.mode (windowOff p) bs.length (ofBytesLE bs)
    else if isPeer p then s.putPeer a.seat.die p bs
    else (s.noteKey x.owner p).writeThrough a p fun s => s.putBytes x.owner p bs

/-! ### Values -/

/-- A loaded value extended to 64 bits as its type says (R107). -/
def extendTo (ty : Ty) (v : Nat) : DWord :=
  if ty.isSigned then (BitVec.ofNat ty.bits v).signExtend 64 else BitVec.ofNat 64 v

/-- The words that a loaded value of one lane goes to. -/
def MDest.write (d : MDest) (ty : Ty) (lane : Nat) (v : DWord) : List (Loc × Word) :=
  match d with
  | .sreg n => if ty.isPair then pairWrites n v else [(.s n, loWord v)]
  | .vreg n => dstWrites ty.isPair (.reg n) lane v
  | .vregP n r => dstWrites ty.isPair (.reg n) lane v ++ [(.p r lane, 1)]
  | _ => []

/-- What an absent page gives in a lane of `ldnr` (R238). -/
def MDest.absent (d : MDest) (ty : Ty) (lane : Nat) : List (Loc × Word) :=
  match d with
  | .vregP n r => dstWrites ty.isPair (.reg n) lane 0 ++ [(.p r lane, 0)]
  | _ => []

/-- The words that a loaded capability goes to. -/
def MDest.writeCap (d : MDest) (lane : Nat) (c : Cap) : List (Loc × Word) :=
  match d with
  | .creg q => capWrites q c
  | .vcap q => vcapWrites q lane c
  | _ => []

/-- The new value of an atomic and the flags it sets (R177, R244); none when a `cas` fails. -/
def atomValue (op : AtomOp) (ty : Ty) (old v cmp : Nat) : Option Nat × Flags :=
  let m := 2 ^ ty.bits
  let sg := fun x : Nat => if ty.isSigned then (BitVec.ofNat ty.bits x).toInt else (x % m : Nat)
  match op with
  | .add =>
    if ty == .f32 then
      let r := Fmt.add .f32 .rne old (v % m)
      (some r.code, r.flags)
    else (some ((old + v) % m), 0)
  | .and => (some ((old &&& v) % m), 0)
  | .or => (some ((old ||| v) % m), 0)
  | .xor => (some ((old ^^^ v) % m), 0)
  | .min => (some (if sg v < sg old then v % m else old), 0)
  | .max => (some (if sg old < sg v then v % m else old), 0)
  | .swap => (some (v % m), 0)
  | .cas => (if old = cmp % m then some (v % m) else none, 0)

/-! ### Lane by lane -/

/-- What an access or an operation comes to: the state and the results for the agent's registers. -/
abbrev Performed := State × List (Loc × Word)

def State.loadLane (s : State) (a : Agent) (ty : Ty) (d : MDest) (ro : Bool) (x : Acc) : Performed :=
  if !x.here then (s, d.absent ty x.lane)
  else
    let r := s.accRead a ro x (ty.bits / 8)
    (r.1, d.write ty x.lane (extendTo ty (ofBytesLE r.2)))

/-- `ldsub` (R239): the word rounded to the format, without flags. -/
def State.loadSubLane (s : State) (a : Agent) (ty : Ty) (d : MDest) (ro : Bool) (x : Acc) : Performed :=
  let r := s.accRead a ro x 4
  let v := ((Fmt.ofTy ty).write .rne (Fmt.f32.read (ofBytesLE r.2))).code
  (r.1, d.write .n32 x.lane (BitVec.ofNat 64 v))

def State.storeLane (s : State) (a : Agent) (ty : Ty) (x : Acc) : State := s.accWrite a x (bytesLE (ty.bits / 8) x.data)

/-- An atomic on a peer window is performed at the peer: what it reads is free, and the caches of the die hold the bytes no
more. -/
def State.peerAtom (s : State) (die a n : Nat) : State × List Byte :=
  ({ s with coh := { s.coh with peers := s.coh.peers.filter fun b => !(b.die == die && a ≤ b.addr && b.addr < a + n) } },
   s.peerBytes a n)

/-- The bytes that an atomic reads. -/
def State.atomRead (s : State) (a : Agent) (x : Acc) (n : Nat) : State × List Byte :=
  match x.place with
  | .team t => (s, s.teamBytes a.team t n)
  | .pa p =>
    if isDram p then (s.noteKey x.owner p, s.seeBytes x.owner p n)
    else if isPeer p then s.peerAtom a.seat.die p n
    else s.accRead a false x n

/-- An access to a peer window. -/
def Acc.toPeer (x : Acc) : Bool :=
  match x.place with
  | .pa p => isPeer p
  | .team _ => false

def State.atomLane (s : State) (a : Agent) (op : AtomOp) (ty : Ty) (d : MDest) (x : Acc) : Performed :=
  let n := ty.bits / 8
  let r := s.atomRead a x n
  let old := ofBytesLE r.2
  let nw := atomValue op ty old x.data x.cmp
  let s1 := match nw.1 with
    | none => r.1
    | some v => if x.toPeer then r.1 else r.1.accWrite a x (bytesLE n v)
  (s1, d.write ty x.lane (BitVec.ofNat 64 old) ++ (if nw.2 = 0 then [] else [(.fsr, nw.2)]))

/-- An export capability of this package, as it may come back from a peer: entry, offset, generation and permissions are
free (R433, R434). -/
def State.backFromPeer (s : State) (k : Nat) : Cap :=
  let f := Config.freeNat s.fresh
  ⟨BitVec.ofNat 12 8 ++ BitVec.ofNat 16 (f (4 * k)) ++ BitVec.ofNat 8 (f (4 * k + 1)) ++ BitVec.ofNat 16 (f (4 * k + 2))
    ++ BitVec.ofNat 12 0
    ++ BitVec.ofNat 64 (0x8000000000000 + s.fabric.pkgid * 2 ^ 40 + f (4 * k + 3) % 2 ^ 40), true⟩

/-- The capability that the caches of a die hold of a peer window: its bytes with the tag of its granule. -/
def State.peerCap (s : State) (die p : Nat) : Option Cap :=
  if (List.range 16).all fun i => (s.peerHeld die (p + i)).isSome then
    some ⟨BitVec.ofNat 128 (ofBytesLE (s.peerSee die p 16)), s.coh.peerTags.contains (die, p / 16)⟩
  else none

/-- A capability load of one lane (R89, R245); `back` takes what comes from a peer for an export capability of this
package. -/
def State.loadCapLane (s : State) (a : Agent) (d : MDest) (back : Bool) (x : Acc) : Performed :=
  match x.place with
  | .team _ => (s, [])
  | .pa p =>
    if isWindow p then
      let r := s.windowRead a (windowOff p) 16
      (r.1, d.writeCap x.lane ⟨BitVec.ofNat 128 r.2, false⟩)
    else
      let c0 :=
        if isPeer p then match s.peerCap a.seat.die p with
          | some c => s.loadJudge c
          | none => if back then s.loadJudge (s.returned (s.backFromPeer x.lane)) else s.getCapAt x.owner p
        else
          let plain := (s.seen a.seat).all fun e => !e.meets a.team (.pa p, 16)
          s.loadJudge ⟨BitVec.ofNat 128 (ofBytesLE (s.seeAs a x.owner p 16)), (s.seeCap x.owner p).tag && plain⟩
      ((s.noteKey x.owner p).fillL1 a x.owner p, d.writeCap x.lane { c0 with tag := c0.tag && x.ltag })

/-- A capability store of one lane (R88, R245). It goes through to memory at every scope: a narrow store may. -/
def State.storeCapLane (s : State) (a : Agent) (x : Acc) : State :=
  let c : Cap := ⟨BitVec.ofNat 128 x.data, x.tag⟩
  match x.place with
  | .team _ => s
  | .pa p =>
    if isWindow p then s.windowWrite a x.mode (windowOff p) 16 x.data
    else if isPeer p then
      let r := s.exportCap (field p 40 11) c
      let s1 := r.1.putPeer a.seat.die p (bytesLE 16 r.2.bits.toNat)
      if r.2.tag then { s1 with coh := { s1.coh with peerTags := (a.seat.die, p / 16) :: s1.coh.peerTags } } else s1
    else (s.noteKey x.owner p).writeThrough a p fun s => s.putCap x.owner p c

/-- Accesses one after another. -/
def eachLane (f : State → Acc → Performed) (s : State) (xs : List Acc) : Performed :=
  xs.foldl (fun r x => let q := f r.1 x
    (q.1, r.2 ++ q.2)) (s, [])

/-! ### The operation -/

/-- All accesses of a memory operation, with the results for its registers. -/
def State.performAccs (s : State) (a : Agent) (o : Op) (back : Bool) : Performed :=
  match o.kind with
  | .mem .load ty d accs ro => eachLane (fun s x => s.loadLane a ty d ro x) s accs
  | .mem .loadSub ty d accs ro => eachLane (fun s x => s.loadSubLane a ty d ro x) s accs
  | .mem .loadCap _ d accs _ => eachLane (fun s x => s.loadCapLane a d back x) s accs
  | .mem .store ty _ accs _ => eachLane (fun s x => (s.storeLane a ty x, [])) s accs
  | .mem .storeCap _ _ accs _ => eachLane (fun s x => (s.storeCapLane a x, [])) s accs
  | .mem (.atomic op) ty d accs _ => eachLane (fun s x => s.atomLane a op ty d x) s accs
  | _ => (s, [])

end Sys2Proof.Machine
end

