-- ==== Sys2Proof/Machine/Protocol.lean ====
section
/-!
DEFINITION. Coherence between dies (23 R416 to R424): the directory at each home, the remote data caches, their
messages. They decide when an access may be performed and never change a value: memory holds the value of each byte in
its coherence order. The system die is die 4; the system cache is its remote data cache (R16).
-/

namespace Sys2Proof.Machine

/-- The home die of a line. -/
def homeOf (line : Nat) : Nat := homeDie (128 * line)

/-- The die on which an agent's accesses arrive. -/
def Agent.cohDie (a : Agent) : Nat := if a.isSys then 4 else a.die

def State.rdcAt (s : State) (d line : Nat) : Option RdcLine :=
  s.coh.rdc.find? fun r => r.die == d && r.line == line

def State.setRdc (s : State) (r : RdcLine) : State :=
  { s with coh := { s.coh with rdc := r :: s.coh.rdc.filter fun x => !(x.die == r.die && x.line == r.line) } }

def State.dropRdc (s : State) (d line : Nat) : State :=
  { s with coh := { s.coh with rdc := s.coh.rdc.filter fun x => !(x.die == d && x.line == line) } }

/-- Puts an entry; an uncached one is not kept. -/
def State.setDir (s : State) (e : DirEntry) : State :=
  let others := s.coh.dir.filter fun x => x.line != e.line
  { s with coh := { s.coh with dir := if e.st == .uncached then others else e :: others } }

/-- An entry owned by die `d`. -/
def DirEntry.ownedBy (e : DirEntry) (d : Nat) : DirEntry :=
  ⟨e.line, .owned, [⟨d, false, 0⟩], .getX, 5, 0, false, none, 0, none, []⟩

def DirEntry.owner (e : DirEntry) : Nat := (e.members.map fun m => m.die).headD 5

/-- Sends a message. -/
def State.send (s : State) (m : Msg) : State :=
  { s with coh := { s.coh with msgs := s.coh.msgs ++ [{ m with id := s.coh.nextMsg }], nextMsg := s.coh.nextMsg + 1 } }

/-- A message without the fields that most kinds leave unused. -/
def msgOf (kind : MsgKind) (line src dst : Nat) : Msg := ⟨0, kind, line, src, dst, 5, 0, false, .s, none⟩

/-- Message `k`, when it is of the given kind. -/
def State.msg? (s : State) (k : Nat) (kind : MsgKind) : Option Msg :=
  s.coh.msgs.find? fun m => m.id == k && m.kind == kind

def State.dropMsg (s : State) (k : Nat) : State :=
  { s with coh := { s.coh with msgs := s.coh.msgs.filter fun m => m.id != k } }

/-- A request of die `d` for a line, or its answer, is on its way. -/
def State.asking (s : State) (d line : Nat) : Bool :=
  s.coh.msgs.any fun m => m.line == line
    && ((m.src == d && (m.kind == .getS || m.kind == .getSub || m.kind == .getX || m.kind == .putX))
      || (m.dst == d && m.kind == .data))
    || (s.dirAt line).any fun e => e.st == .transient && e.req == d

/-- An Inv or a FwdX that die `d` has not answered: its misses are held (R418). -/
def State.answerDue (s : State) (d line : Nat) : Bool :=
  s.coh.msgs.any fun m => m.line == line && m.dst == d && (m.kind == .inv || m.kind == .fwdX)

/-! ### Formats of subscribed copies (R422, R423) -/

/-- The format of a subscription, by its code in a directory entry. -/
def subFmt (code : Nat) : Fmt := if code = 2 then .e4 else .bf16

def subCode (ty : Ty) : Nat := if ty == .fp8e4 then 2 else 1

/-- A binary32 word rounded to a member's format; all NaNs are one. -/
def roundWord (code w : Nat) : Nat := ((subFmt code).write .rne (Fmt.f32.read w)).code

/-- The words of a line that a write changes for a member's format. -/
def State.lineChanged (s s' : State) (line code : Nat) : Bool :=
  (List.range 32).any fun i =>
    let w := s.readPhys (128 * line + 4 * i) 4
    let w' := s'.readPhys (128 * line + 4 * i) 4
    w ≠ w' && roundWord code w ≠ roundWord code w'

/-- The members that a write of the line, from `s` to `s'`, must still reach (R423). -/
def DirEntry.toTell (e : DirEntry) (s s' : State) : List Member :=
  e.members.filter fun m => !e.served.contains m.die && (m.fmt == 0 || s.lineChanged s' e.line m.fmt)

/-! ### May an access be performed? -/

/-- A full read by die `d` (R417). -/
def State.readReady (s : State) (d line : Nat) : Bool :=
  if homeOf line = d then
    let e := s.entry line
    e.st == .uncached || e.st == .shared
  else !s.answerDue d line && (s.rdcAt d line).any fun r => r.st != .sub && !r.wb

/-- A subscribed read of the given format (R422): a subscribed copy serves it, too. -/
def State.subReady (s : State) (d line code : Nat) : Bool :=
  s.readReady d line || (homeOf line ≠ d && !s.answerDue d line
    && (s.rdcAt d line).any fun r => r.st == .sub && r.fmt == code && !r.wb)

/-- A write by die `d` for transaction `t`, from `s` to `s'` (R417, R418, R423): it owns the line, or the home performs
it and every member it must reach has answered. -/
def State.writeReady (s s' : State) (d line : Nat) (t : Nat × Nat) : Bool :=
  let e := s.entry line
  let served := e.st == .transient && e.txn == some t && e.acks == 0 && e.fwdTo.isNone
  if served then true
  else if homeOf line = d then (e.st == .uncached || e.st == .shared) && (e.toTell s s').isEmpty
  else !s.answerDue d line && (s.rdcAt d line).any fun r => (r.st == .m || r.st == .e) && !r.wb

/-! ### Requests -/

/-- The subscription entry of die `d` and address space `asid` that covers an address (R241). -/
def State.covering (s : State) (d asid va : Nat) : Option SubEntry :=
  s.subs.find? fun e => e.die == d && e.asid == asid
    && (List.range (e.rows + 1)).any fun r => e.base + r * e.stride ≤ va && va < e.base + r * e.stride + e.len

/-- The home fetches an owned line for itself (R417): the owner keeps it shared, or hands it over. -/
def State.recall (s : State) (line : Nat) (over_ : Bool) (t : Option (Nat × Nat)) : State :=
  let e := s.entry line
  let s1 := s.setDir { e with st := .transient, want := if over_ then .getX else .getS, req := 5, fwdTo := some e.owner
                              txn := t }
  s1.send { msgOf (if over_ then .fwdX else .fwdS) line 5 e.owner with req := 5 }

/-- A read that is not ready asks for the line. -/
def State.askRead (s : State) (d line : Nat) : State :=
  if homeOf line = d then if (s.entry line).st == .owned then s.recall line false none else s
  else if s.asking d line || s.answerDue d line || (s.rdcAt d line).any (fun r => r.wb) then s
  else s.send (msgOf .getS line d 5)

/-- A subscribed read that is not ready asks for a copy of the format when a subscription of that format covers it. -/
def State.askSub (s : State) (d line code : Nat) (sub : Option SubEntry) : State :=
  match sub with
  | some e =>
    if homeOf line ≠ d && subCode e.fmt = code then
      if s.asking d line || s.answerDue d line || (s.rdcAt d line).isSome then s.askRead d line
      else s.send { msgOf .getSub line d 5 with fmt := code, upd := e.upd }
    else s.askRead d line
  | none => s.askRead d line

/-- The home tells members of a write (R423): Inv, or Upd to a subscribed member that asked for updates. -/
def State.tell (s : State) (line : Nat) (ms : List Member) : State :=
  ms.foldl (fun s m => s.send (msgOf (if m.fmt ≠ 0 && m.upd then .upd else .inv) line 5 m.die)) s

/-- The home makes room for a write for die `req` (5: its own). -/
def State.makeRoom (s s' : State) (line req : Nat) (t : Nat × Nat) : State :=
  let e := s.entry line
  let ms := e.toTell s s'
  let s1 := s.setDir { e with st := .transient, want := .wrH, req := req, acks := ms.length, txn := some t }
  s1.tell line ms

/-- A write that is not ready asks (R417, R423). A die with only a subscribed copy sends GetX first, at which the home
removes it from the members while others are subscribed (R288, R424). -/
def State.askWrite (s s' : State) (d line : Nat) (t : Nat × Nat) : State :=
  let e := s.entry line
  if homeOf line = d then
    if e.st == .owned then s.recall line true (some t)
    else if e.st == .shared then s.makeRoom s' line 5 t
    else s
  else if s.asking d line || s.answerDue d line || (s.rdcAt d line).any (fun r => r.wb) then s
  else if s.coh.msgs.any fun m => m.line == line && m.kind == .wrH && m.txn == some t then s
  else if e.st != .owned && e.members.any (fun m => m.die != d && m.fmt != 0)
      && !e.members.any (fun m => m.die == d && m.fmt != 0) then
    s.send { msgOf .wrH line d 5 with txn := some t }
  else s.send (msgOf .getX line d 5)

/-- A write of die `d` has been performed: a line it owns is modified; what the home held for it is released, with the
members it has invalidated gone. -/
def State.wrote (s : State) (d line : Nat) (t : Nat × Nat) : State :=
  let e := s.entry line
  if e.st == .transient && e.txn == some t then s.setDir (e.rest e.members)
  else if homeOf line ≠ d then
    match s.rdcAt d line with
    | some r => s.setRdc { r with st := .m }
    | none => s
  else s

/-- A write that another line holds up gives back the lines the home keeps for it. -/
def State.giveBack (s : State) (line : Nat) (t : Nat × Nat) : State :=
  let e := s.entry line
  if e.st == .transient && e.txn == some t && e.acks == 0 && e.fwdTo.isNone then s.setDir (e.rest e.members) else s

/-! ### Messages at the home -/

/-- A write of the home die to the line has reached the home and waits: reads that arrive later are served behind it
(R411). -/
def State.writeSent (s : State) (line : Nat) : Bool :=
  s.agents.any fun a => a.cohDie == homeOf line && a.outst.any fun o => o.sent && o.writeWaits line

/-- The entry at the home that a request may meet: held while it is transient (R419), a read behind a waiting write. -/
def State.atHome (s : State) (k : Nat) (kind : MsgKind) (f : Msg → DirEntry → State → State) : Out :=
  match s.msg? k kind with
  | none => .next s
  | some m =>
    let e := s.entry m.line
    if e.st == .transient || ((kind == .getS || kind == .getSub) && s.writeSent m.line) then .next s
    else .next (f m e (s.dropMsg k))

/-- The members without die `d`. -/
def DirEntry.others (e : DirEntry) (d : Nat) : List Member := e.members.filter fun m => m.die != d

/-- A forward to the owner for die `d`. -/
def State.forward (s : State) (e : DirEntry) (kind want : MsgKind) (d fmt : Nat) (upd : Bool) : State :=
  let s1 := s.setDir { e with st := .transient, want := want, req := d, fmt := fmt, upd := upd, fwdTo := some e.owner }
  s1.send { msgOf kind e.line 5 e.owner with req := if want == .getSub then 5 else d }

/-- GETS: exclusive when nobody else has the line; otherwise shared; an owner is asked to share (R417). A subscribed
member's request upgrades it (R424). -/
def execGets (k : Nat) (s : State) : Out :=
  s.atHome k .getS fun m e s =>
    let d := m.src
    if e.st == .owned then
      if e.owner = d then s.send { msgOf .data m.line 5 d with st := .e } else s.forward e .fwdS .getS d 0 false
    else if (e.others d).isEmpty && !e.members.any (fun x => x.die == d && x.fmt != 0) then
      (s.setDir (e.ownedBy d)).send { msgOf .data m.line 5 d with st := .e }
    else
      (s.setDir (e.rest (e.others d ++ [⟨d, false, 0⟩]))).send { msgOf .data m.line 5 d with st := .s }

/-- GETSUB: the requester becomes a member with its format; an owned line is fetched first (R422). -/
def execGetsub (k : Nat) (s : State) : Out :=
  s.atHome k .getSub fun m e s =>
    let d := m.src
    if e.st == .owned then
      if e.owner = d then s.send { msgOf .data m.line 5 d with st := .e }
      else s.forward e .fwdS .getSub d m.fmt m.upd
    else
      (s.setDir (e.rest (e.others d ++ [⟨d, m.upd, m.fmt⟩]))).send
        { msgOf .data m.line 5 d with st := .sub, fmt := m.fmt, upd := m.upd }

/-- GETX: an owner hands over; other members are invalidated; with other subscribed members present the requester is
removed and its store is performed at the home: it asks again with WrH (R424). -/
def execGetx (k : Nat) (s : State) : Out :=
  s.atHome k .getX fun m e s =>
    let d := m.src
    if e.st == .owned then
      if e.owner = d then s.send { msgOf .data m.line 5 d with st := .e } else s.forward e .fwdX .getX d 0 false
    else if (e.others d).any fun x => x.fmt != 0 then (s.setDir (e.rest (e.others d))).dropRdc d m.line
    else if (e.others d).isEmpty then (s.setDir (e.ownedBy d)).send { msgOf .data m.line 5 d with st := .e }
    else
      let ms := e.others d
      (s.setDir { e with st := .transient, want := .getX, req := d, acks := ms.length }).tell m.line ms

/-- WRH: the home compares the line as it is with the line as the write leaves it, and tells the members that see a
difference (R423). The write is performed once they have answered. An owned line is fetched first. -/
def execWrh (k : Nat) (s : State) : Out :=
  s.atHome k .wrH fun m e s =>
    match m.txn with
    | none => s
    | some t => match s.txnOp t with
      | none => s
      | some (a, o) =>
        if e.st == .owned then s.recall m.line true (some t)
        else s.makeRoom (s.performAccs a o false).1 m.line m.src t

/-- PUTX (R419): from the owner, the line is uncached; from a die the home has forwarded to, it waits for the forward's
data; from any other die it is a duplicate. Each is answered with WbAck. -/
def execPutx (k : Nat) (s : State) : Out :=
  match s.msg? k .putX with
  | none => .next s
  | some m =>
    let e := s.entry m.line
    if e.st == .transient && e.fwdTo == some m.src then .next s
    else
      let s1 := s.dropMsg k
      let s2 := if e.st == .owned && e.owner == m.src then s1.setDir (e.rest []) else s1
      .next (s2.send (msgOf .wbAck m.line 5 m.src))

/-- What the last answer to a transient entry brings about. -/
def State.finish (s : State) (e : DirEntry) : State :=
  if e.want == .getX && e.req ≠ 5 then
    (s.setDir (e.ownedBy e.req)).send { msgOf .data e.line 5 e.req with st := .e }
  else s.setDir e

/-- ACK: an acknowledgement arrives at the home. Members that dropped their copy are members no more; one that was
updated stays. The answer to a FwdX ends the forward. -/
def execAck (k : Nat) (s : State) : Out :=
  match s.msg? k .ack with
  | none => .next s
  | some m =>
    let e := s.entry m.line
    let s1 := s.dropMsg k
    .next (if e.st != .transient then s1
      else if e.fwdTo = some m.src then s1.setDir (e.ownedBy e.req)
      else
        let kept := m.upd
        let e1 := { e with
          acks := e.acks - 1
          members := if kept then e.members else e.others m.src
          served := if kept then m.src :: e.served else e.served }
        if e1.acks = 0 then s1.finish e1 else s1.setDir e1)

/-! ### Messages at a remote data cache -/

/-- The lease of die `d` on a line has ended, with its guard (R418). -/
def State.mayAnswer (s : State) (d line : Nat) : Bool := s.leaseDone d line

/-- INV: the copy is dropped and acknowledged, once no lease on it runs; a subscribed copy waits for none. -/
def execInv (k : Nat) (s : State) : Out :=
  match s.msg? k .inv with
  | none => .next s
  | some m =>
    let sub := (s.rdcAt m.dst m.line).any fun r => r.st == .sub
    if !sub && !s.mayAnswer m.dst m.line then .next s
    else .next (((s.dropMsg k).dropRdc m.dst m.line).send (msgOf .ack m.line m.dst 5))

/-- FWDS: the owner sends the data to the requester and to the home, and keeps the line shared; from the write-back
buffer it keeps nothing. -/
def execFwds (k : Nat) (s : State) : Out :=
  match s.msg? k .fwdS with
  | none => .next s
  | some m =>
    match s.rdcAt m.dst m.line with
    | none => .next s
    | some r =>
      let s1 := s.dropMsg k
      let s2 := if r.wb then s1 else s1.setRdc { r with st := .s }
      let s3 := s2.send { msgOf .data m.line m.dst 5 with upd := !r.wb }
      .next (if m.req = 5 then s3 else s3.send { msgOf .data m.line m.dst m.req with st := .s })

/-- FWDX: the owner hands over, once no lease on the line runs, and drops it. -/
def execFwdx (k : Nat) (s : State) : Out :=
  match s.msg? k .fwdX with
  | none => .next s
  | some m =>
    match s.rdcAt m.dst m.line with
    | none => .next s
    | some r =>
      if !s.mayAnswer m.dst m.line then .next s
      else
        let s1 := s.dropMsg k
        let s2 := if r.wb then s1 else s1.dropRdc m.dst m.line
        .next (if m.req = 5 then s2.send (msgOf .data m.line m.dst 5)
          else (s2.send { msgOf .data m.line m.dst m.req with st := .e }).send (msgOf .ack m.line m.dst 5))

/-- UPD: the rounded line replaces the copy of a subscribed member, which acknowledges and stays one. -/
def execUpd (k : Nat) (s : State) : Out :=
  match s.msg? k .upd with
  | none => .next s
  | some m => .next ((s.dropMsg k).send { msgOf .ack m.line m.dst 5 with upd := true })

/-- DATA at the home ends a forward: the owner stays a member if it kept the line, and the requester is one; a line
fetched for a subscription is then served rounded; one fetched for the home's own write leaves nobody. DATA at a
requester fills its cache. -/
def execData (k : Nat) (s : State) : Out :=
  match s.msg? k .data with
  | none => .next s
  | some m =>
    let s1 := s.dropMsg k
    if m.dst ≠ 5 then .next (s1.setRdc ⟨m.dst, m.line, m.st, m.fmt, false⟩)
    else
      let e := s.entry m.line
      if e.st != .transient || e.fwdTo != some m.src then .next s1
      else
        let kept : List Member := if m.upd then [⟨m.src, false, 0⟩] else []
        .next (match e.want with
          | .getSub =>
            (s1.setDir (e.rest (kept ++ [⟨e.req, e.upd, e.fmt⟩]))).send
              { msgOf .data m.line 5 e.req with st := .sub, fmt := e.fmt, upd := e.upd }
          | .getS => s1.setDir (e.rest (if e.req = 5 then kept else kept ++ [⟨e.req, false, 0⟩]))
          | _ => s1.setDir (e.rest []))

/-- WBACK: the write-back buffer is free (R418). -/
def execWback (k : Nat) (s : State) : Out :=
  match s.msg? k .wbAck with
  | none => .next s
  | some m =>
    let s1 := s.dropMsg k
    .next (if (s.rdcAt m.dst m.line).any fun r => r.wb then s1.dropRdc m.dst m.line else s1)

/-- The unit forgets a line: EMAX takes over what LMAX held (R411). -/
def State.forgetLease (s : State) (unit line : Nat) : State :=
  let l := s.lmax unit line
  { s with coh := { s.coh with
      emax := if l ≤ s.emax unit then s.coh.emax else (unit, l) :: s.coh.emax.filter fun e => e.1 != unit
      leases := s.coh.leases.filter fun r => !(r.unit == unit && r.line == line) } }

/-- RDC_EVICTION (R418): a shared or subscribed line is dropped without a message; an E or M line goes to the write-back
buffer, and its PutX is sent once no lease on it runs. -/
def execRdcEviction (die line : Nat) (s : State) : Out :=
  match s.rdcAt die line with
  | none => .next s
  | some r =>
    if s.asking die line then .next s
    else if r.st == .s || r.st == .sub then .next ((s.dropRdc die line).forgetLease die line)
    else if s.mayAnswer die line then .next ((s.setRdc { r with wb := true }).send (msgOf .putX line die 5))
    else .next (s.setRdc { r with wb := true })

/-! ### Leases, narrow stores, clocks (R284, R413 to R415) -/

/-- LEASE_EXPIRY: a line of an L1 is valid no longer (R284); a read-only line stays (R286). Narrow stores in it are written
back before (R414). -/
def execLeaseExpiry (die core line : Nat) (s : State) : Out :=
  match s.l1 die core line with
  | none => .next s
  | some l =>
    if l.ro.isSome || s.localTime (64 + 48 * die + core) + 20 < l.expiry
        || s.coh.early.any (fun e => e.narrowOf die core && e.inLine line) then .next s
    else .next (s.dropL1 die core line)

/-- An early write of an agent of the core, on a line, whose operation no more performs it. -/
def State.leftOn (s : State) (die core line : Nat) (e : Early) : Bool :=
  e.seat.die == die && e.seat.core == core && e.inLine line && !s.driven e

/-- DIRTY_WRITE_BACK: the narrow stores of a core in a line, and other early writes that have completed at their scope, are
performed at .dev, once the write may be (R300, R305, R414). -/
def execDirtyWriteBack (die core line : Nat) (s : State) : Out :=
  .next (if s.drainOk (s.leftOn die core line) then s.drain (s.leftOn die core line) else s)

/-- FORCED_PUBLISH (R415): the noted core writes back its narrow stores, and what comes before its release is performed at
.dev; the note is clear with the last of it. -/
def execForcedPublish (die core line : Nat) (s : State) : Out :=
  let noted := s.coh.notes.any fun n => n.seat.die == die && n.seat.core == core && !n.seat.sys && (match n.place with
    | .pa p => lineOf p == line
    | .team p => lineOf p == line)
  .next (if noted && s.publishOk die core then s.publish die core else s)

/-- CLOCK_STOP (R413): before its clock stops a core writes back its narrow stores and invalidates its L1. -/
def execClockStop (die core : Nat) (s : State) : Out :=
  .next (if s.publishOk die core then s.emptyL1 die core else s)

end Sys2Proof.Machine
end

