-- ==== Sys2Proof/Machine/MemComplete.lean ====
section
/-!
DEFINITION. The completion of what an agent has issued (08 R176, 10 R230): the orders of one path (13 R297), when an
access may be performed (23 R411, R415, R417), a write performed ahead of its completion, results and posts.
-/

namespace Sys2Proof.Machine

/-! ### Order within a path (R234, R235, R297) -/

/-- The byte ranges an operation reads or writes: place and length. A watch step acts on its entry; one that may charge
reads the cost table, one that may fork the header, too (R330). -/
def Op.spans (o : Op) : List (Place × Nat) :=
  match o.kind with
  | .mem op ty _ accs _ => (accs.filter fun x => x.here).map fun x => (x.place, op.size ty)
  | .watch op _ _ _ steps _ _ => (steps.filter fun w => w.valid).flatMap fun w =>
      (.pa w.entry.1, 256) :: (match op with
        | .tokrj | .tokf => []
        | .tokc | .draft => [(.pa w.cost.1, 256)]
        | .tokcf _ => [(.pa w.cost.1, 256), (.pa w.header.1, 256)])
  | _ => []

/-- The operation reaches the control window. -/
def Op.inWindow (o : Op) : Bool :=
  o.spans.any fun x => match x.1 with
    | .pa a => isWindow a
    | .team _ => false

/-- An access, or the ordering effect of a fence, that is still to come about. -/
def Op.pending (o : Op) : Bool :=
  !o.performed && (match o.kind with
    | .mem .. | .watch .. | .fence => true
    | _ => false)

def Op.isFence (o : Op) : Bool :=
  match o.kind with
  | .fence => true
  | _ => false

/-- Whether an operation reads and writes memory. -/
def Op.rw (o : Op) : Bool × Bool :=
  match o.kind with
  | .mem op .. => op.rw
  | .watch .. => (true, true)
  | _ => (false, false)

def Ord.acquires (o : Ord) : Bool := o == .acq || o == .ar
def Ord.releases (o : Ord) : Bool := o == .rel || o == .ar

/-- Operation `e` of agent `a` is made early: some agents see its write. -/
def State.isEarly (s : State) (a : Agent) (e : Op) : Bool := !(s.earlyOf a.id e.num).isEmpty

/-- The earlier operation `e` of the path holds `o` back: an acquire holds everything, a fence with release later
writes, a release and a fence wait for everything before them as far as their scope goes, two accesses to one location
keep their order, and the window takes each access in program order (R297, R303, R469). -/
def State.holds (s : State) (a : Agent) (e o : Op) : Bool :=
  if e.isFence then e.ord == .ar || o.rw.2 || o.isFence
  else Ord.acquires e.ord || e.inWindow || o.inWindow
    || ((Ord.releases o.ord || o.isFence) && !s.opReached a e o.scope)
    || (!s.isEarly a e && e.spans.any fun x => o.spans.any (spansMeet x))

/-- Nothing that the agent issued earlier on the path holds the operation back. -/
def State.orderOk (s : State) (a : Agent) (o : Op) : Bool :=
  a.outst.all fun e => !(e.num < o.num && e.path == o.path && e.pending && s.holds a e o)

/-! ### May it be performed? -/

/-- The lines of DRAM that a memory operation reaches, rising. -/
def Op.lines (o : Op) : List Nat :=
  (o.spans.filterMap fun x => match x.1 with
    | .pa p => if isDram p then some (lineOf p) else none
    | .team _ => none).foldl addSet []

/-- An access lies in a line. -/
def Acc.inLine (x : Acc) (line : Nat) : Bool :=
  x.here && (match x.place with
    | .pa p => lineOf p == line
    | .team _ => false)

/-- The owner under which a memory operation reaches a line, and whether it takes the read-only path. -/
def Op.ownerAt (o : Op) (line : Nat) : Nat × Bool :=
  match o.kind with
  | .mem _ _ _ accs ro => (((accs.find? fun x => x.inLine line).map fun x => x.owner).getD 0, ro)
  | _ => (0, false)

/-- The format that an `ldsub` asks for, and the subscription that covers its access to a line (R241). -/
def State.subFor (s : State) (a : Agent) (o : Op) (line : Nat) : Option (Nat × Option SubEntry) :=
  match o.kind with
  | .mem .loadSub ty _ accs _ =>
    let asid := match a.space with
      | .boot => 0
      | .obj x => s.asid x
    let va := (accs.find? fun x => x.inLine line).map fun x => x.va
    some (subCode ty, va.bind fun v => s.covering a.cohDie asid v)
  | _ => none

/-- A write to the line that has reached the unit before the read, which waits for it (R411), or that the core has issued
before, when it dropped its copy (R412). -/
def State.readWaits (s : State) (a : Agent) (o : Op) (line : Nat) : Bool :=
  s.agents.any fun b => b.outst.any fun p =>
    !(b.id == a.id && p.num == o.num) && p.writeWaits line && !s.isEarly b p
      && ((p.sent && b.cohDie == a.cohDie)
        || (b.seat.sameCore a.seat && (b.id != a.id || p.num < o.num) && s.orderOk b p && (match p.kind with
          | .mem op .. => op.atUnit p.scope
          | _ => false)))

/-- A valid line of the core's L1 serves the operation: one that is marked read-only serves `.ro` loads of its launch, and
those whatever its lease (R284, R286). -/
def State.servedL1 (s : State) (a : Agent) (o : Op) (line : Nat) : Bool :=
  let (owner, ro) := o.ownerAt line
  a.hasL1 && ((s.hitLine a owner line).any (fun l => l.ro.isNone)
    || (ro && (s.l1 a.die a.core line).any fun l => l.ro == some a.launch && l.owner == owner))

/-- The line is there for the operation to read: in the L1, or at the unit, behind no write. -/
def State.lineReady (s : State) (a : Agent) (o : Op) (line : Nat) : Bool :=
  !s.stray a (o.ownerAt line).1 line
    && (match s.subFor a o line with
      | some (code, some e) =>
        (if subCode e.fmt = code then s.subReady a.cohDie line code else s.readReady a.cohDie line) && !s.readWaits a o line
      | _ => s.servedL1 a o line || (s.readReady a.cohDie line && !s.readWaits a o line))

/-- Asks for a line to read. -/
def State.askLine (s : State) (a : Agent) (o : Op) (line : Nat) : State :=
  match s.subFor a o line with
  | some (code, sub) => s.askSub a.cohDie line code sub
  | none => s.askRead a.cohDie line

/-- A write that is a release, or that a fence of a short scope has made one (R297). -/
def Op.isRelease (o : Op) (a : Agent) : Bool := o.rw.2 && (Ord.releases o.ord || a.relPaths.contains o.path)

/-- A release of scope .grp or .core (R415). -/
def Op.narrowRelease (o : Op) : Bool := Ord.releases o.ord && !Scope.wide o.scope

/-- What an acquire reads is performed as far as its own scope goes, and every release of it is published as far as the
reader goes (R298, R303, R415). -/
def State.acquireOk (s : State) (a : Agent) (o : Op) : Bool :=
  o.spans.all fun x => !s.notedFor a x
    && (s.seen a.seat).all fun e => e.narrow || !e.meets a.team x || e.reaches o.scope a.seat

/-- The orders of the path, the publishes that an acquire or a narrow release waits for, and what comes before a release
let the operation go on (R297, R299, R414, R415). -/
def State.mayGo (s : State) (a : Agent) (o : Op) : Bool :=
  s.orderOk a o
    && (!Ord.acquires o.ord || s.acquireOk a o)
    && (!o.narrowRelease || !o.spans.any (s.notedElsewhere a))
    && (!Ord.releases o.ord || s.cumulated a o.scope)

/-! ### Writes that stay early (R303, R414) -/

/-- The accesses of a plain store that no order makes a release; none of another operation. -/
def Op.plainAccs (o : Op) (a : Agent) : Option (Ty × List Acc) :=
  match o.kind with
  | .mem .store ty _ accs _ => if Ord.releases o.ord || a.relPaths.contains o.path then none else some (ty, accs)
  | _ => none

/-- An access to DRAM under a key slot that is full, or to team memory. -/
def State.earlyPlace (s : State) (x : Acc) : Bool :=
  match x.place with
  | .team _ => true
  | .pa p => isDram p && (s.keyGen x.owner).isSome

/-- A line enters the L1 for a narrow store, unless a valid line under the owner is there (R284, R286, R414). -/
def State.bringLine (s : State) (a : Agent) (owner line : Nat) : State :=
  if (s.hitLine a owner line).any fun l => l.ro.isNone then s
  else (s.dropL1 a.die a.core line).grantLease a.die a.core line owner

/-- Whether a narrow store is written into the L1: the part may choose (R414), when the line is there or can be fetched. -/
def State.staysNarrow (s : State) (a : Agent) (o : Op) : Bool :=
  a.hasL1 && !Scope.wide o.scope && Config.freeBit s.fresh (900000 + o.num) && (match o.plainAccs a with
    | some (_, accs) => accs.all fun x => match x.place with
      | .team _ => false
      | .pa p => s.earlyPlace x && !s.stray a x.owner (lineOf p)
        && ((s.hitLine a x.owner (lineOf p)).any (fun l => l.ro.isNone)
          || (s.readReady a.cohDie (lineOf p) && !s.othersWait a o.num (lineOf p)))
    | none => false)

/-- The early writes of a plain store: one for each access, in the order of the lanes. -/
def State.goEarly (s : State) (a : Agent) (o : Op) (narrow : Bool) (vis : Scope) : State :=
  match o.plainAccs a with
  | none => s
  | some (ty, accs) =>
    let es := ((List.range accs.length).zip accs).map fun x =>
      (⟨s.coh.nextEarly + x.1, a.seat, o.num, narrow, vis, x.2.owner, x.2.place, bytesLE (ty.bits / 8) x.2.data⟩ : Early)
    let s1 := if narrow then accs.foldl (fun s x => match x.place with
        | .pa p => s.bringLine a x.owner (lineOf p)
        | .team _ => s) s
      else s
    { s1 with coh := { s1.coh with
        early := s1.coh.early ++ es
        nextEarly := s1.coh.nextEarly + es.length } }

/-- Scope `y` shows a write to every agent that scope `x` shows it to. -/
def Scope.within (x y : Scope) : Bool := x == .grp || y == .die || x == y

/-- The early writes of operation `num` are seen at a wider scope. -/
def State.widenEarly (s : State) (agent num : Nat) (vis : Scope) : State :=
  { s with coh := { s.coh with early := s.coh.early.map fun e =>
    if !e.narrow && e.seat.agent == agent && e.num == num && Scope.within e.vis vis then { e with vis := vis } else e } }

/-! ### Performing -/

/-- What performing an operation leaves besides its own effect: the lines it wrote are released, a release leaves its note,
a store counts for the watchdog, and endpoints it has destroyed answer (R104, R399, R415). -/
def State.afterPerform (s : State) (a : Agent) (o : Op) : State :=
  if !o.rw.2 then s
  else
    let s1 := o.lines.foldl (fun s l => s.wrote a.cohDie l (a.id, o.num)) s
    let s2 := if o.isRelease a then o.spans.foldl (fun s x => s.leaveNote a x) s1 else s1
    (s2.updAgent a.id fun b => { b with sinks := b.sinks + 1 }).sweepDead

/-- A plain store has been performed at its scope, or stays in the L1: it counts for the watchdog (R399). -/
def State.retired (s : State) (a : Agent) (o : Op) : State :=
  (o.lines.foldl (fun s l => s.giveBack l (a.id, o.num)) s).updAgent a.id fun b => { b with sinks := b.sinks + 1 }

/-- An access of scope .sys that acquires invalidates the clean peer lines of the die before any later access (R421). -/
def State.peerAfter (s : State) (a : Agent) (o : Op) : State :=
  if Ord.acquires o.ord && o.scope == .sys then s.peerAcquire a.seat.die else s

/-- A read is performed when its lines are there; otherwise it asks for those it lacks. -/
def State.attemptRead (s : State) (a : Agent) (o : Op) (back : Bool) : State × Option (List (Loc × Word)) :=
  if o.lines.all (s.lineReady a o) then
    let r := s.performAccs a o back
    (r.1, some r.2)
  else (o.lines.foldl (fun s l => if s.lineReady a o l then s else s.askLine a o l) s, none)

/-- The leases on a line have ended at the units that perform a write of the agent's die: its own, and the home (R411). -/
def State.unitsDone (s : State) (a : Agent) (line : Nat) : Bool := s.leaseDone a.cohDie line && s.leaseDone (homeOf line) line

/-- No early write on the bytes of an operation comes before it, but its own: none that the agent sees, and none that
comes before an own one (R301). -/
def State.clearFor (s : State) (a : Agent) (o : Op) : Bool :=
  let mine : Early → Bool := fun e => !e.narrow && e.seat.agent == a.id && e.num == o.num
  s.coh.early.all fun e => mine e || (!(e.sees a.seat && o.spans.any (e.meets a.team))
    && (s.coh.early.filter mine).all fun m => e.id > m.id || !e.overlaps m)

/-- A write has reached its unit, which serves no later read of the line before it (R411). -/
def State.markSent (s : State) (agent num : Nat) : State :=
  s.updAgent agent fun b => { b with outst := b.outst.map fun x => if x.num = num then { x with sent := true } else x }

/-- What a write of some lines by the agent, from `s` to `s'`, still asks for or waits for: the lines are held for
transaction `t`, and their leases have ended. Nothing when it may be performed. While leases alone are lacking it keeps
the lines (R411, R417, R418, R423). -/
def State.obtain (s s' : State) (a : Agent) (t : Nat × Nat) (lines : List Nat) : Option State :=
  let ready := fun l => s.writeReady s' a.cohDie l t
  if lines.all ready then if lines.all (s.unitsDone a) then none else some s
  else some (lines.foldl (fun s l => if ready l then s.giveBack l t else s.askWrite s' a.cohDie l t) s)

/-- A write is performed at its unit when nothing comes before it, its lines are held for it and their leases have ended;
otherwise it asks for what it lacks. -/
def State.attemptWrite (s : State) (a : Agent) (o : Op) (back : Bool) : State × Option (List (Loc × Word)) :=
  let t := (a.id, o.num)
  let s0 := s.markSent a.id o.num
  if !s0.clearFor a o then (o.lines.foldl (fun s l => s.giveBack l t) s0, none)
  else
    let s1 := s0.setEarly (s0.coh.early.filter fun e => e.narrow || e.seat.agent != a.id || e.num != o.num)
    let r := s1.performAccs a o back
    match s0.obtain r.1 a t o.lines with
    | some s2 => (s2, none)
    | none => (r.1.afterPerform a o, some r.2)

/-- An agent's memory operation is performed if it may be; otherwise it asks for what it lacks. The results are those
for the agent's registers. A write is performed when it is at its scope (R300). -/
def State.attempt (s : State) (a : Agent) (o : Op) (back : Bool) : State × Option (List (Loc × Word)) :=
  if !s.mayGo a o then (s, none)
  else
    let s1 := if Ord.releases o.ord then s.publishFor a o.scope else s
    let s2 := if Ord.releases o.ord && o.scope == .sys then s1.peerRelease a.seat.die else s1
    if s2.opReached a o o.scope then (s2.retired a o, some [])
    else if s2.staysNarrow a o then ((s2.goEarly a o true .core).retired a o, some [])
    else
      let r := if o.rw.2 then s2.attemptWrite a o back else s2.attemptRead a o back
      (if r.2.isSome then r.1.peerAfter a o else r.1, r.2)

/-! ### Ends of operations -/

/-- Operation `k` of an agent. -/
def Agent.op? (a : Agent) (k : Nat) : Option Op := a.outst.find? fun o => o.num == k

/-- Operation `k` ends: its results reach their registers, but where a later instruction has written, and its token
posts (R74, R75, R231). -/
def Agent.finishOp (a : Agent) (k : Nat) (ws : List (Loc × Word)) : Agent :=
  match a.op? k with
  | none => a
  | some o =>
    (({ a with outst := a.outst.filter fun x => x.num != k }).land k o.tk o.lane o.dead ws).post o.tk

/-- Operation `k` has been performed; its completion is still to come. -/
def Agent.performedOp (a : Agent) (k : Nat) (ws : List (Loc × Word)) : Agent :=
  match a.op? k with
  | none => a
  | some o =>
    let b := a.land k o.tk o.lane o.dead ws
    { b with outst := b.outst.map fun x => if x.num = k then { x with performed := true, kind := .post } else x }

/-- The masks without lanes that end (R44, R219, R221). -/
def Agent.maskWrites (a : Agent) (lanes : BitVec 32) : List (Loc × Word) :=
  [(.em, a.em &&& ~~~lanes), (.lm, a.lm &&& ~~~lanes)]

/-! ### Subscriptions (R241) -/

/-- The rows of two regions overlap. -/
def SubEntry.meets (x : SubEntry) (base len stride rows : Nat) : Bool :=
  (List.range (x.rows + 1)).any fun i => (List.range (rows + 1)).any fun j =>
    x.base + i * x.stride < base + j * stride + len && base + j * stride < x.base + i * x.stride + x.len

/-- `subs` installs an entry, the newest first; a full table drops its oldest. -/
def State.installSub (s : State) (e : SubEntry) : State :=
  let mine := s.subs.filter fun x => x.die == e.die
  let kept := if 64 ≤ mine.length then mine.take 63 else mine
  { s with subs := (e :: kept) ++ s.subs.filter fun x => x.die != e.die }

/-- `unsubs` removes entries. The die drops its subscribed copies; which it may keep is nowhere seen. -/
def State.removeSubs (s : State) (die asid base len stride rows : Nat) : State :=
  { s with
    subs := s.subs.filter fun x => !(x.die == die && x.asid == asid && x.meets base len stride rows)
    coh := { s.coh with rdc := s.coh.rdc.filter fun r => !(r.die == die && r.st == .sub) } }

/-- A `subs` or `unsubs` changes the table of its die. -/
def State.changeSubs (s : State) (k : OpKind) : State :=
  match k with
  | .subs die asid install fmt upd base len stride rows =>
    if install then s.installSub ⟨die, asid, base, len, stride, rows, fmt, upd⟩
    else s.removeSubs die asid base len stride rows
  | _ => s

/-! ### Completion -/

/-- Every access that the agent issued before a fence on its path is performed at the scope of the fence (R178, R247). -/
def State.fenceDone (s : State) (a : Agent) (o : Op) : Bool :=
  !a.outst.any fun e => e.num < o.num && e.path == o.path && e.pending && !s.opReached a e o.scope

/-- A scalar fence with release ends: what it orders is performed, the narrow stores of the core are published when its
scope is .team or wider, and later writes are releases otherwise (R297, R414). -/
def State.endFence (s : State) (a : Agent) (o : Op) : State :=
  if !s.fenceDone a o || !s.cumulated a o.scope then s
  else (s.fenced a o.scope).updAgent a.id fun b => (b.finishOp o.num []).afterRelease o.path o.ord o.scope

/-- The lines of a `pf` arrive in the L1; each may be dropped instead (R246). Whether none is still awaited. -/
def State.prefetched (s : State) (a : Agent) (lines : List (Nat × Nat)) : State × Bool :=
  lines.foldl (fun r x =>
    if Config.freeBit r.1.fresh (910000 + x.1) then r
    else if r.1.readReady a.cohDie x.1 then (r.1.fillL1 a x.2 (128 * x.1), r.2)
    else (r.1.askRead a.cohDie x.1, false)) (s, true)

/-- A `pf` completes when every line has arrived or been dropped. -/
def State.endPrefetch (s : State) (a : Agent) (k : Nat) (lines : List (Nat × Nat)) : State :=
  let r := s.prefetched a lines
  if r.2 then r.1.updAgent a.id fun b => b.finishOp k [] else r.1

/-- Operation `k` of agent `id` completes, if it may. Matrix operations, page requests and watch steps have steps of
their own. -/
def State.complete (s : State) (id k : Nat) (lane back : Bool) : State :=
  match s.agent? id with
  | none => s
  | some a =>
    match a.op? k with
    | none => s
    | some o =>
      if o.lane != lane then s
      else match o.kind with
        | .mem .. =>
          (match s.attempt a o back with
          | (s1, none) => s1
          | (s1, some ws) => s1.updAgent id fun b => b.finishOp k ws)
        | .regs ws => s.updAgent id fun b => b.finishOp k ws
        | .post => s.updAgent id fun b => b.finishOp k []
        | .fence => s.endFence a o
        | .prefetch lines => s.endPrefetch a k lines
        | .lend lanes => s.updAgent id fun b => b.finishOp k (b.maskWrites lanes)
        | .lbrx lanes target => s.updAgent id fun b =>
            { b.finishOp k (b.maskWrites lanes) with
              redirect := if b.alive && target.isSome then target else b.redirect }
        | .subs .. => (s.changeSubs o.kind).updAgent id fun b => b.finishOp k []
        | _ => s

/-- SCALAR_MEMORY_COMPLETION (R176): operation `k` of the scalar stream. -/
def execScalarMemoryCompletion (agent k : Nat) (s : State) : Out := .next (s.complete agent k false false)

/-- LANE_MEMORY_COMPLETION (R230): operation `k` of the lane stream. -/
def execLaneMemoryCompletion (agent k : Nat) (s : State) : Out := .next (s.complete agent k true false)

/-- The scope at which a write is seen early, chosen freely; none where it is performed at once. -/
def State.earlyScope (s : State) (k : Nat) : Option Scope :=
  [none, some .grp, some .core, some .team, some .die].getD (Config.freeNat s.fresh (950000 + k) % 5) none

/-- A plain store is seen at a scope before it is performed at .dev: for the first time, or by more agents (R303, R305). -/
def State.showEarly (s : State) (a : Agent) (o : Op) (vis : Scope) : State :=
  if !s.mayGo a o then s
  else if s.isEarly a o then s.widenEarly a.id o.num vis
  else if (match o.plainAccs a with
    | some (_, accs) => accs.all s.earlyPlace
    | none => false) then s.goEarly a o false vis
  else s

/-- WRITE_PERFORM (R300, R411): a write is performed ahead of the post of its token, or some agents see it ahead of
others. -/
def execWritePerform (agent k : Nat) (s : State) : Out :=
  match s.agent? agent with
  | none => .next s
  | some a =>
    match a.op? k with
    | none => .next s
    | some o =>
      match o.kind with
      | .mem op .. =>
        if !op.rw.2 || o.performed then .next s
        else match s.earlyScope k with
          | some vis => .next (s.showEarly a o vis)
          | none =>
            (match s.attempt a o false with
            | (s1, none) => .next s1
            | (s1, some ws) => .next (s1.updAgent agent fun b => b.performedOp k ws))
      | _ => .next s

/-- EXPORT_RETURN (R434): a capability load from a peer window brings back an export capability of this package. -/
def execExportReturn (agent k : Nat) (s : State) : Out :=
  match s.agent? agent with
  | none => .next s
  | some a =>
    match a.op? k with
    | none => .next s
    | some o =>
      match o.kind with
      | .mem .loadCap _ _ accs _ =>
        if accs.any fun x => (match x.place with
            | .pa p => isPeer p
            | .team _ => false) then .next (s.complete agent k o.lane true)
        else .next s
      | _ => .next s

end Sys2Proof.Machine
end

