-- ==== Sys2Proof/Machine/ScalarMem.lean ====
section
/-!
DEFINITION. Scalar memory, atomics and fences at their issue (08 R175 to R178). What they do to memory is done at
their completion (`SCALAR_MEMORY_COMPLETION`).
-/

namespace Sys2Proof.Machine

/-! ### Shared forms -/

/-- The places of an integer register or pair of a type. -/
def sregLocs (d : Nat) (ty : Ty) : List Loc := if ty.isPair then [.s d, .s (d + 1)] else [.s d]

/-- The value of s[d], or of the pair, as a store or atomic of a type takes it. -/
def State.sData (s : State) (d : Nat) (ty : Ty) : Nat := if ty.isPair then (s.rp d).toNat else (s.rs d).toNat

/-- A scalar load (R175): `off` in bytes. -/
def State.sLoad (s : State) (ty : Ty) (d a : Nat) (off : Int) (ord : Ord) (scope : Scope) (tk : Option Nat) : Out :=
  let c := s.rc a
  s.gate (capLocs a)
    (s.scalarAccess kindLoad (ty.bits / 8) false ⟨0, c, c.addr + off, AccessKind.load.need, 0, 0, false⟩ ord scope
      tk (fun accs => .mem .load ty (.sreg d) accs false) (sregLocs d ty))

/-- A scalar store (R175). -/
def State.sStore (s : State) (ty : Ty) (d a : Nat) (off : Int) (ord : Ord) (scope : Scope) (tk : Option Nat) : Out :=
  let c := s.rc a
  s.gate (capLocs a ++ sregLocs d ty)
    (s.scalarAccess kindStore (ty.bits / 8) true
      ⟨0, c, c.addr + off, AccessKind.store.need, s.sData d ty, 0, false⟩ ord scope tk
      (fun accs => .mem .store ty .none accs false) [])

/-- A scalar capability load (R89, R175). -/
def State.sLoadCap (s : State) (d a : Nat) (off : Int) (ord : Ord) (scope : Scope) (tk : Option Nat) : Out :=
  let c := s.rc a
  s.gate (capLocs a)
    (s.scalarAccess kindLoadCap 16 false ⟨0, c, c.addr + off, AccessKind.loadCap.need, 0, 0, false⟩ ord scope tk
      (fun accs => .mem .loadCap .n32 (.creg d) accs false) (capLocs d))

/-- A scalar capability store (R88, R92, R95). -/
def State.sStoreCap (s : State) (d a : Nat) (off : Int) (ord : Ord) (scope : Scope) (tk : Option Nat) : Out :=
  let c := s.rc a
  let v := s.rc d
  s.gate (capLocs a ++ capLocs d)
    (s.scalarAccess kindStoreCap 16 true
      ⟨0, c, c.addr + off, (AccessKind.storeCap v.tag (v.has permGLOB)).need, v.bits.toNat, 0, v.tag⟩ ord scope tk
      (fun accs => .mem .storeCap .n32 .none accs false) [])

/-- A scalar atomic (R177): operand in s[d] or the pair at d; for `cas` the compare value in the registers after
it. -/
def State.sAtomic (s : State) (op : AtomOp) (ty : Ty) (d a : Nat) (tk : Option Nat) (ord : Ord) (scope : Scope) :
    Out :=
  let c := s.rc a
  let e := if ty.isPair then d + 2 else d + 1
  let cas := op == .cas
  s.gate (capLocs a ++ sregLocs d ty ++ (if cas then sregLocs e ty else []))
    (s.scalarAccess kindAtomic (ty.bits / 8) true
      ⟨0, c, c.addr, AccessKind.atomic.need, s.sData d ty, if cas then s.sData e ty else 0, false⟩ ord scope tk
      (fun accs => .mem (.atomic op) ty (.sreg d) accs false) (sregLocs d ty))

/-! ### Relaxed loads and stores -/

def execLdI8 (d a : Nat) (tk : Option Nat) (off : Nat) (s : State) : Out := s.sLoad .i8 d a (off) .rlx .dev tk
def execLdN8 (d a : Nat) (tk : Option Nat) (off : Nat) (s : State) : Out := s.sLoad .n8 d a (off) .rlx .dev tk
def execLdI16 (d a : Nat) (tk : Option Nat) (off : Nat) (s : State) : Out := s.sLoad .i16 d a (2 * off) .rlx .dev tk
def execLdN16 (d a : Nat) (tk : Option Nat) (off : Nat) (s : State) : Out := s.sLoad .n16 d a (2 * off) .rlx .dev tk
def execLdN32 (d a : Nat) (tk : Option Nat) (off : Nat) (s : State) : Out := s.sLoad .n32 d a (4 * off) .rlx .dev tk
def execLdN64 (d a : Nat) (tk : Option Nat) (off : Nat) (s : State) : Out := s.sLoad .n64 d a (8 * off) .rlx .dev tk
def execStN8 (d a : Nat) (tk : Option Nat) (off : Nat) (s : State) : Out := s.sStore .n8 d a (off) .rlx .dev tk
def execStN16 (d a : Nat) (tk : Option Nat) (off : Nat) (s : State) : Out := s.sStore .n16 d a (2 * off) .rlx .dev tk
def execStN32 (d a : Nat) (tk : Option Nat) (off : Nat) (s : State) : Out := s.sStore .n32 d a (4 * off) .rlx .dev tk
def execStN64 (d a : Nat) (tk : Option Nat) (off : Nat) (s : State) : Out := s.sStore .n64 d a (8 * off) .rlx .dev tk
def execLdc (d a : Nat) (tk : Option Nat) (off : Nat) (s : State) : Out := s.sLoadCap d a (16 * off) .rlx .dev tk
def execStc (d a : Nat) (tk : Option Nat) (off : Nat) (s : State) : Out := s.sStoreCap d a (16 * off) .rlx .dev tk

/-! ### Ordered loads and stores (R149) -/

def execLdxN8 (d a : Nat) (tk : Option Nat) (ord : Ord) (scope : Scope) (s : State) : Out :=
  s.sLoad .n8 d a 0 ord scope tk
def execLdxN16 (d a : Nat) (tk : Option Nat) (ord : Ord) (scope : Scope) (s : State) : Out :=
  s.sLoad .n16 d a 0 ord scope tk
def execLdxN32 (d a : Nat) (tk : Option Nat) (ord : Ord) (scope : Scope) (s : State) : Out :=
  s.sLoad .n32 d a 0 ord scope tk
def execLdxN64 (d a : Nat) (tk : Option Nat) (ord : Ord) (scope : Scope) (s : State) : Out :=
  s.sLoad .n64 d a 0 ord scope tk
def execStxN8 (d a : Nat) (tk : Option Nat) (ord : Ord) (scope : Scope) (s : State) : Out :=
  s.sStore .n8 d a 0 ord scope tk
def execStxN16 (d a : Nat) (tk : Option Nat) (ord : Ord) (scope : Scope) (s : State) : Out :=
  s.sStore .n16 d a 0 ord scope tk
def execStxN32 (d a : Nat) (tk : Option Nat) (ord : Ord) (scope : Scope) (s : State) : Out :=
  s.sStore .n32 d a 0 ord scope tk
def execStxN64 (d a : Nat) (tk : Option Nat) (ord : Ord) (scope : Scope) (s : State) : Out :=
  s.sStore .n64 d a 0 ord scope tk
def execLdcx (d a : Nat) (tk : Option Nat) (ord : Ord) (scope : Scope) (s : State) : Out :=
  s.sLoadCap d a 0 ord scope tk
def execStcx (d a : Nat) (tk : Option Nat) (ord : Ord) (scope : Scope) (s : State) : Out :=
  s.sStoreCap d a 0 ord scope tk

/-! ### Atomics (R177) -/

def execAmoAddN32 (d a : Nat) (tk : Option Nat) (ord : Ord) (scope : Scope) (s : State) : Out :=
  s.sAtomic .add .n32 d a tk ord scope
def execAmoAndN32 (d a : Nat) (tk : Option Nat) (ord : Ord) (scope : Scope) (s : State) : Out :=
  s.sAtomic .and .n32 d a tk ord scope
def execAmoOrN32 (d a : Nat) (tk : Option Nat) (ord : Ord) (scope : Scope) (s : State) : Out :=
  s.sAtomic .or .n32 d a tk ord scope
def execAmoXorN32 (d a : Nat) (tk : Option Nat) (ord : Ord) (scope : Scope) (s : State) : Out :=
  s.sAtomic .xor .n32 d a tk ord scope
def execAmoMinI32 (d a : Nat) (tk : Option Nat) (ord : Ord) (scope : Scope) (s : State) : Out :=
  s.sAtomic .min .i32 d a tk ord scope
def execAmoMaxI32 (d a : Nat) (tk : Option Nat) (ord : Ord) (scope : Scope) (s : State) : Out :=
  s.sAtomic .max .i32 d a tk ord scope
def execAmoMinN32 (d a : Nat) (tk : Option Nat) (ord : Ord) (scope : Scope) (s : State) : Out :=
  s.sAtomic .min .n32 d a tk ord scope
def execAmoMaxN32 (d a : Nat) (tk : Option Nat) (ord : Ord) (scope : Scope) (s : State) : Out :=
  s.sAtomic .max .n32 d a tk ord scope
def execAmoSwapN32 (d a : Nat) (tk : Option Nat) (ord : Ord) (scope : Scope) (s : State) : Out :=
  s.sAtomic .swap .n32 d a tk ord scope
def execAmoCasN32 (d a : Nat) (tk : Option Nat) (ord : Ord) (scope : Scope) (s : State) : Out :=
  s.sAtomic .cas .n32 d a tk ord scope
def execAmoSwapN64 (d a : Nat) (tk : Option Nat) (ord : Ord) (scope : Scope) (s : State) : Out :=
  s.sAtomic .swap .n64 d a tk ord scope
def execAmoCasN64 (d a : Nat) (tk : Option Nat) (ord : Ord) (scope : Scope) (s : State) : Out :=
  s.sAtomic .cas .n64 d a tk ord scope
def execAmoAddN64 (d a : Nat) (tk : Option Nat) (ord : Ord) (scope : Scope) (s : State) : Out :=
  s.sAtomic .add .n64 d a tk ord scope

/-! ### Fence (R178) -/

/-- What a scalar fence stalls for (R178, R297, R298). -/
def State.fenceStalls (s : State) (ord : Ord) (scope : Scope) : Bool :=
  s.ag.loading [.scalar] s.ag.nextOp || (ord != .rel && !s.notesClear s.ag) || (ord == .acq && !s.cumulated s.ag scope)

/-- The fence stalls until every earlier scalar load has written its destination, and, with acquire, until the releases of
other agents are published as far as it goes (R298, R415). One without release completes there; a fence with release
stays outstanding until every earlier scalar access is performed at its scope, and later instructions are held behind it
(R178). -/
def execFence (ord : Ord) (scope : Scope) (s : State) : Out :=
  if s.fenceStalls ord scope then .next s
  else
    let s1 := if ord = .acq then s.fenced s.ag scope else s
    let s2 := { s1 with ag := s1.ag.seenFence false }
    .next ((if ord = .acq then s2 else s2.enqueue false .scalar ord scope none .fence []).advance 4)

end Sys2Proof.Machine
end

