-- ==== Sys2Proof/Machine/Watch.lean ====
section
/-!
DEFINITION. Token watchpoints (14): the table, a commit, drafts, and the watch instructions at their issue. The lane
steps are done by `WATCH_STEP_COMPLETION`.
-/

namespace Sys2Proof.Machine

/-! ### The table (R315, R329, R334) -/

/-- The number of entries of a table. -/
def tableEntries (c : Cap) : Nat := (c.top - c.base) / 256

/-- The checks of a table capability: R98, then the shape of R315. -/
def tableCheck (c : Cap) (need : Nat) : Option Nat :=
  match c.checkObject 6 [need] with
  | some cause => some cause
  | none =>
    if c.base % 256 ≠ 0 then some 0x0C
    else if c.top < c.base + 512 || 2 ^ 26 < tableEntries c then some 0x0B
    else none

/-- `wset` and `wget` (R187, R334): the word's address, then an access of the scalar path. -/
def State.watchWord (s : State) (t r : Nat) (tk : Option Nat) (write : Bool) : Out :=
  let c := s.rc t
  let need := if write then permST else permLD
  s.gate (capLocs t ++ (if write then [.s r, .s (r + 1)] else [.s r]))
    (match tableCheck c need with
    | some cause => s.scalarTrap cause c.addr kindWatch
    | none =>
      let x := (s.rs r).toNat
      let a := c.base + 256 * (x / 64) + 4 * (x % 64)
      if tableEntries c ≤ x / 64 then s.scalarTrap 0x0B (a % 2 ^ 64) kindWatch
      else
        s.scalarAccess kindWatch 4 write
          ⟨0, { c.withSeal 0 with tag := true }, a, [need], if write then (s.rs (r + 1)).toNat else 0, 0, false⟩
          .rlx .dev tk
          (fun accs => if write then .mem .store .n32 .none accs false else .mem .load .n32 (.sreg (r + 1)) accs false)
          (if write then [] else [.s (r + 1)]))

def execWset (t r : Nat) (tk : Option Nat) (s : State) : Out := s.watchWord t r tk true
def execWget (t r : Nat) (tk : Option Nat) (s : State) : Out := s.watchWord t r tk false

/-! ### Entries (R317 to R319) -/

/-- A sequence entry: its 64 words. -/
abbrev WEntry := List Word

def ew (e : WEntry) (n : Nat) : Nat := (e.getD n 0).toNat

def esw (e : WEntry) (n v : Nat) : WEntry := e.set n (BitVec.ofNat 32 v)

/-- STATE; 3 is read as 2. -/
def eState (e : WEntry) : Nat := min 2 (ew e 0 / 2 ^ 30)
def eIpend (e : WEntry) : Bool := (ew e 0).testBit 29
def eInjn (e : WEntry) : Nat := min 8 (ew e 0 / 2 ^ 25 % 16)
def eDcnt (e : WEntry) : Nat := min 8 (ew e 0 / 2 ^ 21 % 16)
def eHn (e : WEntry) : Nat := ew e 0 / 2 ^ 19 % 4
def eBact (e : WEntry) : Nat := ew e 0 / 2 ^ 17 % 4

/-- Writes field [lo, lo+n) of CTL. -/
def eCtl (e : WEntry) (lo n v : Nat) : WEntry :=
  let x := ew e 0
  esw e 0 (x % 2 ^ lo + v % 2 ^ n * 2 ^ lo + x / 2 ^ (lo + n) * 2 ^ (lo + n))

def eSetState (e : WEntry) (v : Nat) : WEntry := eCtl e 30 2 v
def eSetIpend (e : WEntry) (b : Bool) : WEntry := eCtl e 29 1 (if b then 1 else 0)
def eSetDcnt (e : WEntry) (v : Nat) : WEntry := eCtl e 21 4 v

/-- STATE ← 2, DCNT ← 0. -/
def eStop (e : WEntry) : WEntry := eSetDcnt (eSetState e 2) 0

/-- The valid HIST values, oldest first. -/
def eHist (e : WEntry) : List Nat := ([5, 6, 7].drop (3 - eHn e)).map (ew e)

/-- The drafts, in order of arrival. -/
def eDrafts (e : WEntry) : List Nat := (List.range (eDcnt e)).map fun k => ew e (24 + k)

/-- ACT of a slot; 6 and 7 are read as 0. -/
def slotAct (e : WEntry) (k : Nat) : Nat := let a := ew e (32 + 4 * k) / 2 ^ 29
  if a < 6 then a else 0

/-- Match of R321. -/
def slotMatch (e : WEntry) (k : Nat) (w : List Nat) : Bool :=
  let l := ew e (32 + 4 * k) / 2 ^ 27 % 4 + 1
  let n := w.length
  l ≤ n && (List.range l).all fun p =>
    let x := ew e (32 + 4 * k + p)
    x.testBit 24 || x % 2 ^ 24 == w.getD (n - l + p) 0 % 2 ^ 24

/-- The lowest slot that matches a window (R322). -/
def firstSlot (e : WEntry) (w : List Nat) : Option Nat :=
  (List.range 8).find? fun k => slotAct e k ≠ 0 && slotMatch e k w

/-- Append of R321. -/
def eAppend (cost : Nat → Nat) (e : WEntry) (t : Nat) : WEntry :=
  let e1 := esw (esw (esw e 5 (ew e 6)) 6 (ew e 7)) 7 t
  let e2 := eCtl e1 19 2 (min (eHn e + 1) 3)
  esw (esw e2 1 (min (ew e 1 + 1) (2 ^ 32 - 1))) 3 (min (ew e 3 + cost (t / 2 ^ 24)) (2 ^ 32 - 1))

/-! ### Codes (R328) -/

/-- What a commit leaves: the entry, its code and SRC, whether t was committed, whether it notifies, whether it asks
for a fork. -/
structure WOut where
  e : WEntry
  code : Nat
  src : Nat
  committed : Bool
  notify : Bool
  fork : Bool
  deriving DecidableEq, Repr

/-- A step that only reports. -/
def WOut.report (e : WEntry) (code : Nat) : WOut := ⟨e, code, 15, false, false, false⟩

/-- A budget is hit: the sequence stops, t is not committed. -/
def budgetHit (e : WEntry) (src : Nat) : WOut :=
  ⟨eStop e, if eBact e / 2 = 1 then 2 else 1, src, false, eBact e % 2 == 1, false⟩

/-- The token budget, then the cost budget, would be exceeded by `n` more tokens of total cost `c`. -/
def overBudget (e : WEntry) (n c : Nat) : Option Nat :=
  if ew e 2 ≠ 0xFFFFFFFF && ew e 2 < ew e 1 + n then some 8
  else if ew e 4 ≠ 0xFFFFFFFF && ew e 4 < ew e 3 + c then some 9
  else none

/-- The action of a winning slot (R323). -/
def slotAction (e : WEntry) (k : Nat) : WOut :=
  match slotAct e k with
  | 1 => ⟨eStop e, 1, k, true, false, false⟩
  | 2 => ⟨eStop e, 2, k, true, false, false⟩
  | 3 => ⟨e, 3, k, true, false, true⟩
  | 4 => ⟨eSetDcnt (eSetIpend e true) 0, 4, k, true, false, false⟩
  | _ => ⟨e, 5, k, true, true, false⟩

/-- Commit of R321. -/
def commitTok (cost : Nat → Nat) (e : WEntry) (t : Nat) : WOut :=
  match overBudget e 1 (cost (t / 2 ^ 24)) with
  | some src => budgetHit e src
  | none =>
    let e1 := eAppend cost e t
    match firstSlot e (eHist e ++ [t]) with
    | none => ⟨e1, 0, 15, true, false, false⟩
    | some k => slotAction e1 k

/-- The injection is consumed (R326): the forced tokens, how many. -/
def consume (cost : Nat → Nat) (e : WEntry) : WOut × Nat :=
  let n := eInjn e
  let e1 := (List.range n).foldl (fun x k => eAppend cost x (ew e (12 + k))) (eSetDcnt e 0)
  (WOut.report (eSetIpend e1 false) 8, n)

/-- A draft (R327). -/
def draftTok (cost : Nat → Nat) (e : WEntry) (t : Nat) : WOut :=
  let n := eDcnt e
  if n = 8 then WOut.report e 9
  else
    let e1 := eSetDcnt (esw e (24 + n) t) (n + 1)
    let ds := eDrafts e1
    match overBudget e1 (n + 1) ((ds.map fun d => cost (d / 2 ^ 24)).sum) with
    | some src => ⟨e1, 6, src, false, false, false⟩
    | none => match firstSlot e1 (eHist e1 ++ ds) with
      | some k => ⟨e1, 6, k, false, false, false⟩
      | none => ⟨e1, 0, 15, false, false, false⟩

/-- `tokcf`: drafts are committed in order until a code is not NONE; the number committed. The others are dropped. -/
def confirmToks (cost : Nat → Nat) : List Nat → WEntry → Nat → WOut × Nat
  | [], e, n => (WOut.report (eSetDcnt e 0) 0, n)
  | t :: ts, e, n =>
    let r := commitTok cost e t
    let n' := if r.committed then n + 1 else n
    if r.code = 0 then confirmToks cost ts r.e n' else ({ r with e := eSetDcnt r.e 0 }, n')

/-- The low word of an action code. -/
def codeWord0 (nf : Bool) (nconf src code : Nat) : Word :=
  BitVec.ofNat 32 ((if nf then 2 ^ 12 else 0) + nconf * 2 ^ 8 + src * 2 ^ 4 + code)

/-- The codes after which the sequence goes on with its own token. -/
def goesOn (code : Nat) : Bool := code == 0 || code == 6 || code == 5 || code == 3 || code == 10

/-! ### Issue (R329) -/

/-- The requests of one lane: its entry, the header, the cost table. -/
def watchReqs (c : Cap) (lane q : Nat) : List Req :=
  [0, 1, 2].map fun k => ⟨lane, c, c.base + 256 * (if k = 0 then q else k - 1), [], 0, 0, false⟩

/-- Their translations: the entry as a write, as a read for `tokf`; the others as reads. -/
def State.watchXlate (s : State) (write : Bool) (rs : List Req) : List (Req × XRes) :=
  ((List.range rs.length).zip rs).map fun e =>
    (e.2, s.xlateAcc s.ag.who (e.2.cap.want (write && e.1 % 3 == 0)) e.2.va)

/-- Where an access lies, with the owner of its page. -/
def accAt (xs : List Acc) (k : Nat) : Nat × Nat :=
  match xs.drop k with
  | x :: _ => (match x.place with
    | .pa a => (a, x.owner)
    | .team a => (a, x.owner))
  | [] => (0, 0)

/-- The steps of the active lanes; `accs` holds three accesses for each lane with a valid sequence id. -/
def watchSteps (n : Nat) : List (Nat × Nat × Nat) → List Acc → List WatchLane
  | [], _ => []
  | (l, q, t) :: r, accs =>
    if 2 ≤ q && q < n then ⟨l, q, t, true, accAt accs 0, accAt accs 1, accAt accs 2⟩ :: watchSteps n r (accs.drop 3)
    else ⟨l, q, t, false, (0, 0), (0, 0), (0, 0)⟩ :: watchSteps n r accs

/-- A lane watch instruction: `names` its destination registers, `c` the table, `need` LD or ST. -/
def State.watchIssue (s : State) (h : LaneHdr) (op : WatchOp) (names : List Nat) (d p c need : Nat) (seq tok : Src)
    (tk : Option Nat) (dests : BitVec 32 → List Loc) : Out :=
  s.laneReach h names (s.laneIssue h (names ++ srcNames false seq ++ srcNames false tok)
    ([.c c] ++ srcReads false seq ++ srcReads false tok) fun act ll =>
    let cap := s.rc c
    match tableCheck cap need with
    | some cause => s.laneTrap cause cap.addr act kindWatch
    | none =>
      let n := tableEntries cap
      let ls := (lanesOf act).map fun l =>
        (l, (loWord (s.srcInt false l seq)).toNat, (loWord (s.srcInt false l tok)).toNat)
      let rs := (ls.filter fun x => 2 ≤ x.2.1 && x.2.1 < n).flatMap fun x => watchReqs cap x.1 x.2.1
      match s.checkXlated true kindWatch false (s.watchXlate (need == permST) rs) with
      | .trap s1 t => .next (({ s1 with ag := { s1.ag with pairing := .single, firstLatch := none } }).trapBeside t)
      | .again s' => .next s'
      | .ok s' accs =>
        let k := s'.ag.nextOp
        let own := ((List.range rs.length).zip rs).map fun e => (e.1 % 3, e.2.lane, e.2.va, 256)
        let s0 := (s'.noteHits true true (need == permST) k ((own.filter fun x => x.1 == 0).map (·.2))).noteHits
          true true false k ((own.filter fun x => x.1 != 0).map (·.2))
        let s1 := s0.enqueue true .lane .rlx .dev (s.laneTk tk) (.watch op cap d p (watchSteps n ls accs) [] [])
          (dests act)
        .next ({ s1 with ag := s1.ag.put .fsr ll }).laneNext)

/-- The places of a code: the pair at d and the predicate. -/
def codeLocs (d p : Nat) (act : BitVec 32) : List Loc := (lanesOf act).flatMap fun l => [.v d l, .v (d + 1) l, .p p l]

def execTokc (h : LaneHdr) (d p c : Nat) (seq tok : Src) (tk : Nat) (s : State) : Out :=
  s.watchIssue h .tokc [d, d + 1] d p c permST seq tok (some tk) (codeLocs d p)

def execTokcDraft (h : LaneHdr) (d p c : Nat) (seq tok : Src) (tk : Nat) (s : State) : Out :=
  s.watchIssue h .draft [d, d + 1] d p c permST seq tok (some tk) (codeLocs d p)

def execTokcf (h : LaneHdr) (d p c : Nat) (seq : Src) (n tk : Nat) (s : State) : Out :=
  s.watchIssue h (.tokcf n) [d, d + 1] d p c permST seq (.imm 0) (some tk) (codeLocs d p)

def execTokrj (h : LaneHdr) (c : Nat) (seq : Src) (tk : Option Nat) (s : State) : Out :=
  s.watchIssue h .tokrj [] 0 0 c permST seq (.imm 0) tk fun _ => []

def execTokf (h : LaneHdr) (d c : Nat) (seq : Src) (tk : Nat) (s : State) : Out :=
  s.watchIssue h .tokf ((List.range 9).map fun k => d + k) d 0 c permLD seq (.imm 0) (some tk) fun act =>
    (lanesOf act).flatMap fun l => (List.range 9).map fun k => Loc.v (d + k) l

end Sys2Proof.Machine
end

