-- ==== Sys2Proof/Machine/WatchUnit.lean ====
section
/-!
DEFINITION. The watch unit (14 R320 to R333): one lane step on its entry, fork, notify, the end of a watch instruction
and the traps that its commits raise.
-/

namespace Sys2Proof.Machine

/-! ### Reading and writing entries -/

/-- Bytes of the table as the unit reads them: the early writes that the group sees included. -/
def State.unitBytes (s : State) (a : Agent) (x : Nat × Nat) (n : Nat) : List Byte :=
  if isPeer x.1 then s.peerSee a.seat.die x.1 n else s.seeAs a x.2 x.1 n

/-- Bytes that the unit writes. -/
def State.unitWrite (s : State) (a : Agent) (x : Nat × Nat) (bs : List Byte) : State :=
  if isPeer x.1 then s.putPeer a.seat.die x.1 bs else s.putBytes x.2 x.1 bs

/-- The 64 words of an entry. -/
def wordsOf (bs : List Byte) : WEntry := (List.range 64).map fun k => BitVec.ofNat 32 (ofBytesLE ((bs.drop (4 * k)).take 4))

/-- A step on bytes that the unit writes: what the group's core holds of them goes first (R412). -/
def State.takeFromL1 (s : State) (a : Agent) (lines : List Nat) : State :=
  if a.hasL1 then lines.foldl (fun s l => s.dropL1 a.die a.core l) s else s

/-- Writes the words in which two entries differ, and the first, which holds STATE, IPEND and DCNT, where the step sets
DCNT; the other granules keep their tags (R88, R320). -/
def State.putWords (s : State) (a : Agent) (x : Nat × Nat) (old new : WEntry) (first : Bool) : State :=
  (List.range 64).foldl (fun s k =>
    if old.getD k 0 = new.getD k 0 && !(first && k == 0) then s
    else s.unitWrite a (x.1 + 4 * k, x.2) (bytesLE 4 (ew new k))) s

/-! ### What a step computes (R330) -/

/-- The outcome of a step on an entry, and the tokens it committed. -/
def watchOutcome (op : WatchOp) (cost : Nat → Nat) (e : WEntry) (tok : Nat) : WOut × Nat :=
  match op with
  | .tokc =>
    if eState e ≠ 1 then (WOut.report e 7, 0)
    else if eIpend e then consume cost e
    else
      let r := commitTok cost (eSetDcnt e 0) tok
      (r, if r.committed then 1 else 0)
  | .draft =>
    if eState e ≠ 1 then (WOut.report e 7, 0) else if eIpend e then consume cost e else (draftTok cost e tok, 0)
  | .tokcf n =>
    if eState e ≠ 1 then (WOut.report (eSetDcnt e 0) 7, 0)
    else if eIpend e then (WOut.report (eSetDcnt e 0) 8, 0)
    else confirmToks cost ((eDrafts e).take n) e 0
  | .tokrj => (WOut.report (eSetDcnt e 0) 0, 0)
  | .tokf => (WOut.report e 0, 0)

/-- What `tokf` writes (R332). -/
def forcedWrites (d lane : Nat) (e : Option WEntry) : List (Loc × Word) :=
  let n := match e with
    | some e => if eState e = 1 && eIpend e then eInjn e else 0
    | none => 0
  (.v d lane, BitVec.ofNat 32 n) :: (List.range 8).map fun i =>
    (.v (d + 1 + i) lane, if i < n then (e.getD []).getD (12 + i) 0 else 0)

/-- What a step writes for its lane (R328). -/
def codeWrites (op : WatchOp) (d p lane : Nat) (nf : Bool) (nconf src code seq : Nat) : List (Loc × Word) :=
  match op with
  | .tokrj | .tokf => []
  | _ => [(.v d lane, codeWord0 nf nconf src code), (.v (d + 1) lane, BitVec.ofNat 32 seq),
      (.p p lane, bit01 (goesOn code))]

/-! ### Notify and fork -/

/-- What the notify write of a step comes to before anything is done: it is not made; it waits; it goes to a place
(R325). -/
inductive NotifyWay
  | none (s : State)
  | wait (s : State)
  | place (s : State) (pa owner : Nat)

/-- The checks of NCAP. -/
def State.notifyWay (s : State) (a : Agent) (c : Cap) : NotifyWay :=
  if (c.check [permST] c.addr 4 4).isSome || c.sealType ≠ 0 then .none s
  else match s.devXlate a.who (c.want true) c.addr with
    | .ok s' pa o => .place s' pa o
    | .again s' => .wait s'
    | .absent s' => .none s'
    | .fail s' _ => .none s'

/-- The notify write: src × 2^26 + q. -/
def State.notifyWrite (s : State) (a : Agent) (pa owner src q : Nat) : State :=
  let v := src * 2 ^ 26 + q
  if isWindow pa then s.windowWrite a a.mode (windowOff pa) 4 v else s.unitWrite a (pa, owner) (bytesLE 4 v)

/-- What a fork comes to before anything is done: it fails; it waits; it takes entry `f` at a place, with its words, and
updates the header at another (R324). -/
inductive ForkWay
  | fails (s : State)
  | wait (s : State)
  | takes (s : State) (f : Nat) (entry header : Nat × Nat) (words : WEntry)

/-- The checks of a fork: the free entry, its translation and the header's as writes, the entry's STATE. -/
def State.forkWay (s : State) (a : Agent) (table : Cap) (w : WatchLane) : ForkWay :=
  let f := ofBytesLE (s.unitBytes a w.header 4) % 2 ^ 26
  if f < 2 || tableEntries table ≤ f then .fails s
  else match s.devXlate a.who (table.want true) (table.base + 256 * f) with
    | .again s1 => .wait s1
    | .absent s1 => .fails s1
    | .fail s1 _ => .fails s1
    | .ok s1 pf of_ =>
      match s1.devXlate a.who (table.want true) table.base with
      | .again s2 => .wait s2
      | .absent s2 => .fails s2
      | .fail s2 _ => .fails s2
      | .ok s2 ph oh =>
        let words := wordsOf (s2.unitBytes a (pf, of_) 256)
        if eState words ≠ 0 then .fails s2 else .takes s2 f (pf, of_) (ph, oh) words

/-- FREE ← NEXT; entry f ← the entry as it stands after the commit, with its tags, STATE 1, IPEND 0, DCNT 0. -/
def State.fork (s : State) (a : Agent) (entry : Nat × Nat) (e : WEntry) (f header : Nat × Nat) (words : WEntry) :
    State :=
  let free := ofBytesLE (s.unitBytes a header 4)
  let s1 := s.unitWrite a header (bytesLE 4 (free / 2 ^ 26 * 2 ^ 26 + ew words 1 % 2 ^ 26))
  let s2 := (List.range 16).foldl (fun s k =>
    let c := s.getCapAt entry.2 (entry.1 + 16 * k)
    if isPeer f.1 then s.putCapAt f.2 (f.1 + 16 * k) c else s.putCap f.2 (f.1 + 16 * k) c) s1
  s2.unitWrite a f (bytesLE 4 (ew (eSetDcnt (eSetIpend (eSetState e 1) false) 0) 0))

/-! ### One lane's step -/

/-- A step done: the state, the lines it writes, the words for the lane's registers, a trap it raises. None while the step
waits; the state then holds what waiting has asked for. -/
abbrev StepDone := State × Option (List Nat × List (Loc × Word) × List WatchTrap)

/-- The lines of DRAM that a range lies in. -/
def dramLines (pa n : Nat) : List Nat := if isDram pa then linesOf pa n else []

/-- Whether a step sets DCNT, whatever else it comes to (R330). -/
def WatchOp.setsDcnt (op : WatchOp) (e : WEntry) : Bool :=
  match op with
  | .tokc => eState e = 1 && !eIpend e
  | .tokcf _ | .tokrj => true
  | .draft | .tokf => false

/-- What a step does once its way is clear: the entry is written, a fork takes its entry, the notify is written after the
entry, an interrupt line is signalled (R323 to R325). -/
def State.stepEffect (s : State) (a : Agent) (op : WatchOp) (d p : Nat) (w : WatchLane) (e : WEntry) (r : WOut × Nat)
    (fk : Option (Nat × (Nat × Nat) × (Nat × Nat) × WEntry)) (nt : Option (Nat × Nat)) : StepDone :=
  let s1 := s.putWords a w.entry e r.1.e (op.setsDcnt e)
  let (s2, code, seq) := match fk with
    | some (f, at_, hd, words) => (s1.fork a w.entry r.1.e at_ hd words, r.1.code, f)
    | none => (s1, if r.1.fork then 10 else r.1.code, 0)
  let s3 := match nt with
    | some (pa, o) => s2.notifyWrite a pa o r.1.src w.seq
    | none => s2
  let s4 := if r.1.notify then s3.signalCap a.who (s3.getCapAt w.entry.2 (w.entry.1 + 80)) else s3
  let lines := dramLines w.entry.1 256
    ++ (match fk with
      | some (_, at_, hd, _) => dramLines at_.1 256 ++ dramLines hd.1 4
      | none => [])
    ++ (match nt with
      | some (pa, _) => dramLines pa 4
      | none => [])
  (s4.takeFromL1 a lines, some (lines.foldl addSet [], codeWrites op d p w.lane (r.1.notify && nt.isNone) r.2 r.1.src code seq,
    if code = 2 then [⟨w.lane, r.1.src, w.seq⟩] else []))

/-- A step on its entry. One that notifies is a release of scope .dev as well (R325). -/
def State.stepOn (s : State) (a : Agent) (o : Op) (op : WatchOp) (table : Cap) (d p : Nat) (w : WatchLane) : StepDone :=
  let e := wordsOf (s.unitBytes a w.entry 256)
  let cost := fun c => ofBytesLE ((s.unitBytes a w.cost 256).drop c |>.take 1)
  let r := watchOutcome op cost e w.tok
  if r.1.notify && (s.busy a [.lane] o.num .dev || !s.cumulated a .dev) then (s, none)
  else if r.1.notify then
    let s1 := s.publishFor a .dev
    match s1.notifyWay a (s1.getCapAt w.entry.2 (w.entry.1 + 32)) with
    | .wait s2 => (s2, none)
    | .none s2 => s2.stepEffect a op d p w e r none none
    | .place s2 pa ow => s2.stepEffect a op d p w e r none (some (pa, ow))
  else if r.1.fork then
    match s.forkWay a table w with
    | .wait s1 => (s1, none)
    | .fails s1 => s1.stepEffect a op d p w e r none none
    | .takes s1 f at_ hd words => s1.stepEffect a op d p w e r (some (f, at_, hd, words)) none
  else s.stepEffect a op d p w e r none none

/-- Lines that the unit reads are asked for; whether all are there. -/
def State.readLines (s : State) (a : Agent) (lines : List Nat) : State × Bool :=
  lines.foldl (fun r l => if r.1.readReady a.cohDie l then r else (r.1.askRead a.cohDie l, false)) (s, true)

/-- No early write that the agent sees lies in the lines. -/
def State.linesClear (s : State) (a : Agent) (lines : List Nat) : Bool :=
  (s.seen a.seat).all fun e => !lines.any fun l => e.inLine l

/-- A lane's step (R330): one atomic of scope .dev on its entry. It is made when the lines that it reads are there, and the
lines that it writes are held for it, behind every write that the group sees (R287, R411, R417). -/
def State.watchStep (s : State) (a : Agent) (o : Op) (op : WatchOp) (table : Cap) (d p : Nat) (w : WatchLane) :
    State × Option (List (Loc × Word) × List WatchTrap) :=
  if !w.valid then
    (s, some (if op == .tokf then forcedWrites d w.lane none else codeWrites op d p w.lane false 0 15 11 0, []))
  else if op == .tokf then
    let r := s.readLines a (dramLines w.entry.1 256)
    (r.1, if r.2 then some (forcedWrites d w.lane (some (wordsOf (s.unitBytes a w.entry 256))), []) else none)
  else
    let r := if op == .tokrj then (s, true) else s.readLines a (dramLines w.cost.1 256)
    if !r.2 then (r.1, none)
    else match r.1.stepOn a o op table d p w with
      | (s1, none) => (s1, none)
      | (s1, some (lines, res)) =>
        if !r.1.linesClear a lines then (r.1, none)
        else match r.1.obtain s1 a (a.id, o.num) lines with
          | some s2 => (s2, none)
          | none => (lines.foldl (fun s l => s.wrote a.cohDie l (a.id, o.num)) s1, some res)

/-! ### The end of the instruction (R333) -/

/-- The trap of the TRAP lanes: that of the lowest lane, with every lane whose SRC gives the same cause. -/
def watchTrapOf (ts : List WatchTrap) : Option Trap :=
  match ts with
  | [] => none
  | t :: _ =>
    let mine := ts.filter fun x => decide (x.src < 8) == decide (t.src < 8)
    some ⟨if t.src < 8 then 0x20 else 0x21, 0, mine.foldl (fun m x => m ||| laneBit x.lane) 0, t.seq % 2 ^ 26, true⟩

/-- A trap that is due for agent `id`: taken at once, or, when its team has been pre-empted, before its next
instruction. -/
def State.trapFor (s : State) (id : Nat) (t : Trap) : State :=
  match s.agent? id with
  | none => s
  | some a =>
    if !a.alive then s
    else if !a.resident then s.updAgent id fun b => { b with heldFaults := (t, none) :: b.heldFaults }
    else
      let back := s.ag.id
      ((s.focusOn id).trapBeside t).focusOn back

/-- WATCH_STEP_COMPLETION: the next lane's step of operation `k`; after the last the destinations are written, the token
posts and a trap is taken. -/
def execWatchStepCompletion (agent k : Nat) (s : State) : Out :=
  match s.agent? agent with
  | none => .next s
  | some a =>
    match a.op? k with
    | none => .next s
    | some o =>
      match o.kind with
      | .watch op table d p steps got traps =>
        if !s.orderOk a o then .next s
        else match steps with
          | [] =>
            let s1 := s.updAgent agent fun b => b.finishOp k got
            .next (match watchTrapOf traps with
              | some t => s1.trapFor agent t
              | none => s1)
          | w :: rest =>
            (match s.watchStep a o op table d p w with
            | (s1, none) => .next s1
            | (s1, some (ws, ts)) => .next (s1.updAgent agent fun b => { b with outst := b.outst.map fun x =>
                if x.num = k then { x with kind := .watch op table d p rest (got ++ ws) (traps ++ ts) } else x }))
      | _ => .next s

end Sys2Proof.Machine
end

