-- ==== Sys2Proof/Machine/Fetch.lean ====
section
/-!
DEFINITION. Fetching and decoding the next instruction of either stream (03 R69, 07 R141, R142, R153, 08 R163, R179, 04
R95).
-/

namespace Sys2Proof.Machine

/-! ### Words of code -/

/-- What a fetch comes to: bits; a cause; nothing yet, while a first touch is made or waits. -/
inductive Fetched
  | bits (s : State) (w : Nat)
  | fault (s : State) (cause : Nat)
  | again (s : State)

/-- Fetches one word of code at `va` through capability `c`, for a stream of the agent in focus. -/
def State.fetchWord (s : State) (lane : Bool) (c : Cap) (va : Nat) : Fetched :=
  match s.xlateMine { c.want false with fetch := true } va with
  | .ok pa o pte size =>
    .bits ((s.noteXlate s.ag.who va pte size).noteKey o pa) (s.codeAt o pa)
  | .absent => .fault s 0x10
  | .fail cause => .fault s cause
  | .touch at_ pte size =>
    match s.firstTouch s.ag.who at_ pte size with
    | .done s' => .again (s'.stallAt lane at_ true)
    | .wait s' => .again (s'.stallAt lane at_ false)
    | .declined s' => .fault s' 0x10

/-- Fetches `n` words of lane code from `va` on, the first lowest. -/
def State.fetchWords (s : State) (c : Cap) (va : Nat) : Nat → Fetched
  | 0 => .bits s 0
  | n + 1 =>
    match s.fetchWords c va n with
    | .bits s1 low =>
      (match s1.fetchWord true c (va + 4 * n) with
      | .bits s2 w => .bits s2 (low + w * 2 ^ (32 * n))
      | r => r)
    | r => r

/-! ### The scalar stream -/

/-- The next scalar instruction of the agent in focus; none when the step is spent on the fetch: a trap on the checks of
pcc or of translation, an undecodable word (0x01), a first touch. -/
def State.nextScalar (s : State) : State × Option Instr :=
  let c := s.ag.pcc
  match c.check [permXS] s.ag.pc 4 4 with
  | some cause => (s.trap ⟨cause, s.ag.pc, 0, kindFetch, false⟩, none)
  | none =>
    match s.fetchWord false c s.ag.pc with
    | .again s1 => (s1, none)
    | .fault s1 cause => (s1.trap ⟨cause, s1.ag.pc, 0, kindFetch, false⟩, none)
    | .bits s1 w =>
      match decodeScalar w with
      | .ok i => (s1, some i)
      | .error _ => (s1.trap ⟨0x01, 0, 0, 0, false⟩, none)

/-! ### The lane stream -/

/-- The address of the lane instruction that issues next: of a replay, or of the head block. -/
def Agent.laneAddr (a : Agent) (b : Block) : Nat :=
  match a.replays with
  | r :: _ => b.start + 12 * r.off
  | [] => b.start + 12 * b.idx

/-- Instructions that always issue alone: the memory, matrix, watch, exchange and divergence classes (R69), and
`dly` (R157). -/
def Instr.alone (i : Instr) : Bool :=
  match i with
  | .ld .. | .st .. | .ldnr .. | .ldsub .. | .subs .. | .unsubs .. | .lds .. | .sts .. | .atom .. | .atoms .. => true
  | .laneLdc .. | .laneStc .. | .laneFence .. | .fencex .. | .pf .. => true
  | .mmac .. | .mdist .. | .mclr .. | .mld .. | .mst .. | .mtopk .. | .mrd .. => true
  | .tokc .. | .tokcDraft .. | .tokcf .. | .tokrj .. | .tokf .. => true
  | .shfl .. | .vote .. | .vballot .. | .lred .. | .lscan .. | .laneMatch .. => true
  | .lbrx .. | .lend .. | .laneDly .. => true
  | _ => false

/-- Instructions before which lane focus is released: exchange, matrix, watch, `lbrx` (R465). -/
def Instr.endsFocus (i : Instr) : Bool :=
  match i with
  | .mmac .. | .mdist .. | .mclr .. | .mld .. | .mst .. | .mtopk .. | .mrd .. => true
  | .tokc .. | .tokcDraft .. | .tokcf .. | .tokrj .. | .tokf .. => true
  | .shfl .. | .vote .. | .vballot .. | .lred .. | .lscan .. | .laneMatch .. => true
  | .lbrx .. => true
  | _ => false

/-- The lanes active under the guard of a raw lane word. -/
def State.rawActive (s : State) (w : Nat) : BitVec 32 := s.laneActive (LaneHdr.ofRaw (RawLane.unpack w))

/-- The bits of the next lane instruction of the agent in focus; none when the step is spent on the fetch. A fault of
the fetch names em (R179); a block whose capability a sweep has revoked has no code (R428). -/
def State.nextLaneBits (s : State) : State × Option Nat :=
  match s.ag.blocks with
  | [] => (s, none)
  | b :: _ =>
    let va := s.ag.laneAddr b
    if !b.cap.tag then (s.trapBeside ⟨0x08, va, s.ag.em, kindFetch, true⟩, none)
    else match s.fetchWords b.cap va 3 with
      | .again s1 => (s1, none)
      | .fault s1 cause => (s1.trapBeside ⟨cause, va, s1.ag.em, kindFetch, true⟩, none)
      | .bits s1 w => (s1, some w)

/-- The instruction that pairs with the one that issues next: the next of the block, when it can be fetched and decoded
and is of no class that issues alone (R69). -/
noncomputable def State.mate (s : State) : Option Instr :=
  match s.ag.blocks with
  | [] => none
  | b :: _ =>
    if b.count ≤ b.idx + 1 then none
    else match s.fetchWords b.cap (s.ag.laneAddr b + 12) 3 with
      | .bits _ w => (match decodeLane w with
        | .ok i => if Instr.alone i then none else some i
        | .error _ => none)
      | _ => none

/-- The mate of the lane instruction `i`, whose word has the pairing bit `pr`: none in a replay or a single step, which
issue one instruction at a time. -/
noncomputable def State.mateOf (s : State) (pr : Bool) (i : Instr) : Option Instr :=
  if pr && !Instr.alone i && s.ag.replays.isEmpty && s.ag.focusStack.isEmpty && s.ag.stepping = .off then s.mate else none

end Sys2Proof.Machine
end

