-- ==== Sys2Proof/Machine/Issue.lean ====
section
/-!
DEFINITION. When an agent's streams may issue, what is due at an instruction boundary (09 R221, 19 R358, R366, 26 R458),
the end of waits (02 R41 to R43) and of delays, the choice of who issues (21 R398).
-/

namespace Sys2Proof.Machine

/-! ### What holds a stream -/

/-- A `tokc` or a `tokcf` under way holds both streams of its group (R333). -/
def Agent.held (a : Agent) : Bool :=
  a.outst.any fun o => match o.kind with
    | .watch .tokc .. => true
    | .watch (.tokcf _) .. => true
    | _ => false

/-- `lend` and `lbrx` hold the lane stream until the masks have changed (R219, R221). -/
def Agent.maskHeld (a : Agent) : Bool :=
  a.outst.any fun o => match o.kind with
    | .lend _ => true
    | .lbrx _ _ => true
    | _ => false

/-- The agent is there and in issue. -/
def Agent.inIssue (a : Agent) : Bool := a.alive && a.resident

/-- A fence of the scalar stream that has not completed holds it (R178). -/
def Agent.fenced (a : Agent) : Bool := a.outst.any fun o => o.kind == .fence

/-- No stall in a translation check keeps the stream from issuing: there is none, or it is the stream's own and settled
(R355, R384). -/
def Agent.untouched (a : Agent) (lane : Bool) : Bool := a.touching.all fun t => t.lane == lane && t.ready

/-- The scalar stream may issue its next instruction. -/
def State.scalarReady (s : State) (a : Agent) : Bool :=
  a.inIssue && a.wait == .none && a.dlyScalar ≤ s.clk && a.heldTo ≤ s.clk && a.untouched false && !a.held && !a.fenced
    && a.replays.isEmpty && (a.stepping == .off || a.stepping == .scalar)

/-- A step under lane focus, or a replay, sees every earlier result: it waits for those under way (R465). -/
def Agent.settledForFocus (a : Agent) : Bool :=
  (a.focusStack.isEmpty && a.replays.isEmpty) || a.outst.all fun o => o.dests.isEmpty

/-- The lane stream may issue its next instruction, or a replay of it. -/
def State.laneReady (s : State) (a : Agent) : Bool :=
  a.inIssue && !a.blocks.isEmpty && (!a.replays.isEmpty || (!a.hnd && (a.stepping == .off || a.stepping == .lane)))
    && a.dlyLane ≤ s.clk && a.heldTo ≤ s.clk && a.untouched true && !a.held && !a.maskHeld && a.settledForFocus

/-! ### The boundary between two instructions -/

/-- Drops the snapshot of a group whose PC has left its region outside a handler (R396). -/
def State.leaveRegion (s : State) : State :=
  let base := ((s.launch? s.ag.launch).map fun l => (l.roles.getD 0 ⟨0, 0, 0, .null, .null⟩).entry.base).getD 0
  if s.ag.snapshot = none || s.ag.hnd || s.ag.inRegion base then s
  else { s with ag := { s.ag with snapshot := none, snapReady := false } }

/-- The redirect of an `lbrx` applies: the scalar stream stands at a boundary, or in a `wtok`, `dly` or `pause`, which it
ends (R221). -/
def Agent.redirectNow (a : Agent) : Bool :=
  !a.hnd && !a.stalled && (match a.wait with
    | .none => true
    | .token _ _ => true
    | _ => false)

/-- The scalar stream goes on at the target. -/
def Agent.redirected (a : Agent) (c : Cap) : Agent :=
  { a with pcc := c, wait := .none, dlyScalar := 0, pauseEnd := 0, pausing := false, redirect := none }

/-- The stepped instruction has completed: a scalar one its wait, either its operations. -/
def Agent.stepDone (a : Agent) (lane : Bool) (num : Nat) : Bool :=
  (lane || a.wait == .none) && a.outst.all fun o => o.num < num

/-- The lowest set bit of ipend. -/
def lowestBit (v : DWord) : Nat := ((List.range 64).find? fun b => v.getLsbD b).getD 0

/-- What is due at a boundary. -/
inductive Due
  | nothing
  | hit (t : Trap)
  | redirect (c : Cap)
  | stepped
  | stop
  | fault (t : Trap) (tk : Option Nat) (rest : List (Trap × Option Nat))
  | interrupt
  deriving DecidableEq, Repr

/-- What is due outside a handler, when nothing else is: a stop, the oldest held fault, an interrupt (R358, R366,
R458). -/
def Agent.dueOutside (a : Agent) : Due :=
  if a.hnd then .nothing
  else if a.stopDue then .stop
  else match a.heldFaults with
    | (t, tk) :: rest => .fault t tk rest
    | [] => if a.isSys && a.mode == 0 && a.ipend != 0 then .interrupt else .nothing

/-- The first thing due before an agent issues again: a watch hit whose instruction has completed, a redirect, the trap
of a single step, and what is due outside a handler. -/
def Agent.due (a : Agent) : Due :=
  if !a.inIssue || a.held then .nothing
  else match a.watchDue.filter (fun w => !(a.outst.any fun o => o.num == w.2)),
      (if a.redirectNow then a.redirect else none) with
    | some w, _ => .hit w.1
    | none, some c => .redirect c
    | none, none =>
      match a.stepping with
      | .due lane n => if a.stepDone lane n then .stepped else .nothing
      | _ => a.dueOutside

/-- What is due comes about on the agent in focus; a trap taken here suspends a wait (R479). -/
def State.takeDue (s : State) (d : Due) : State :=
  let a := s.ag
  match d with
  | .nothing => s
  | .hit t => ({ s with ag := { a with watchDue := none } }).trapBeside t
  | .redirect c => { s with ag := a.redirected c }
  | .stepped =>
    ({ s with ag := { a with xstat := xstatField a.xstat 8 1 0, stepping := .off } }).trapBeside ⟨0x31, 0, 0, 0, false⟩
  | .stop =>
    (({ s with ag := { a with stopDue := false } }).trace a.cpart (s.joinedName a) 3 0 0 0).trapBeside
      ⟨0x30, 0, 0, 2 ^ 30, false⟩
  | .fault t tk rest =>
    ({ s with ag := { a with
      heldFaults := rest
      postAtEret := a.postAtEret ++ tk.toList } }).trapBeside t
  | .interrupt => s.trapBeside ⟨0x38, 0, 0, lowestBit a.ipend, false⟩

/-- Does `f` with agent `id` in focus, when there is such an agent. -/
def State.onAgent (s : State) (id : Nat) (f : State → State) : State :=
  if (s.agent? id).isNone then s else (f (s.focusOn id)).focusOn s.ag.id

/-- What is due of agent `id` comes about when `p` accepts it. -/
def State.dueFor (s : State) (id : Nat) (p : Due → Bool) : Out :=
  .next (s.onAgent id fun s => if p s.ag.due then s.takeDue s.ag.due else s)

/-- LBRX_REDIRECT (R221). -/
def execLbrxRedirect (agent : Nat) (s : State) : Out :=
  s.dueFor agent fun d => match d with
    | .redirect _ => true
    | _ => false

/-- SINGLE_STEP_TRAP (R366). -/
def execSingleStepTrap (agent : Nat) (s : State) : Out := s.dueFor agent fun d => d == .stepped

/-- INTERRUPT_TRAP (R366). -/
def execInterruptTrap (agent : Nat) (s : State) : Out := s.dueFor agent fun d => d == .interrupt

/-- ENGINE_FAULT_DELIVERY (R267, R358): the oldest fault of an engine command is taken at an instruction boundary outside
a handler. -/
def execEngineFaultDelivery (agent : Nat) (s : State) : Out :=
  s.dueFor agent fun d => match d with
    | .fault _ _ _ => true
    | _ => false

/-- TCMP_REACHED (R366): device time, by the core's copy, has reached tcmp. -/
def execTcmpReached (agent : Nat) (s : State) : Out :=
  .next (s.updAgent agent fun a =>
    if a.isSys && !a.tcmpSeen && a.tcmp.toNat ≤ s.localTime (clockKey a) then
      { a with ipend := a.ipend ||| (1#64 <<< 63), tcmpSeen := true }
    else a)

/-! ### The end of waits and delays -/

/-- The wait of the agent in focus has its condition: the waiting half of a barrier, an arrival that waited for the phase
before it, a yield whose lane queue has drained (R181, R183). -/
def State.endWait (s : State) : State :=
  match s.ag.wait with
  | .bar obj phase =>
    if phase < s.phaseOf s.ag.team obj then { s with ag := s.ag.waitOver.setPc (s.ag.pc + 4) } else s
  | .barHeld obj need wait => s.tryArrive obj need wait
  | .drain n thr target => if s.ag.drained then s.yieldNow n thr target else s
  | _ => s

/-- A yield ends when its token meets the threshold: the stream goes on at its target (R42, R43). -/
def Agent.reactivate (a : Agent) : Agent :=
  match a.wait with
  | .yield n thr target => if tokenMet (a.tok n) thr then (a.seenTok n).waitOver.setPc target else a
  | _ => a

/-- YIELD_REACTIVATION: of an agent that holds its slot. -/
def execYieldReactivation (agent : Nat) (s : State) : Out :=
  .next (s.updAgent agent fun a => if a.inIssue then a.reactivate else a)

/-- The wait of the scalar stream is for a condition of its instruction's issue, and it holds: a `wtok` whose token meets
its threshold, a `qpush` with room, a `qpop` with a filled entry (R41, R74). -/
def Agent.mayGoOn (a : Agent) : Bool :=
  match a.wait with
  | .token n thr => tokenMet (a.tok n) thr
  | .qpush coll _ => !a.queueFull coll
  | .qpop _ => a.qmat.head?.any fun e => e.data.isSome
  | _ => false

/-- Such an instruction issues, in the scalar slot of its partition. -/
def State.goOn (s : State) : State :=
  match s.ag.wait with
  | .token n _ => ({ s with ag := (s.ag.seenTok n).waitOver }).advance 4
  | .qpush coll c => s.push coll c
  | .qpop r =>
    (match s.ag.qmat with
    | e :: rest => s.popQmat r e rest
    | [] => s)
  | _ => s

/-- PAUSE_END: its n clk have passed. -/
def execPauseEnd (agent : Nat) (s : State) : Out :=
  .next (s.updAgent agent fun a => if a.pauseEnd ≤ s.clk then { a with pauseEnd := 0, pausing := false } else a)

/-- DLY_EXPIRY (R182, R211): the clk that a delay of the stream holds it to has come. -/
def execDlyExpiry (agent : Nat) (lane : Bool) (s : State) : Out :=
  .next (s.updAgent agent fun a =>
    if lane then (if a.dlyLane ≤ s.clk then { a with dlyLane := 0 } else a)
    else if a.dlyScalar ≤ s.clk then { a with dlyScalar := 0 } else a)

/-- FIXED_LATENCY_WRITE_EFFECT (R66): the results of the agent that are due take effect. -/
def execFixedLatencyWriteEffect (agent : Nat) (s : State) : Out := .next (s.updAgent agent fun a => a.commit s.clk)

/-! ### Issue choice (R398) -/

/-- The scalar instruction `i` of the agent in focus cannot issue now: an unmet token, a full or an empty queue, a drain,
accesses that it waits for. -/
def State.scalarStalls (s : State) (i : Instr) : Bool :=
  match i with
  | .wtok tk thr => !tokenMet (s.ag.tok (s.ag.tokenId tk)) thr
  | .wtokReg tk b => !tokenMet (s.ag.tok (s.ag.tokenId tk)) ((s.rs b).toNat % 2 ^ 16)
  | .qpushQcopy .. => !s.ag.isSys && s.ag.queueFull false
  | .qpushQcoll .. => !s.ag.isSys && s.ag.queueFull true
  | .qpopQmat .. => !s.ag.isSys && !(s.ag.qmat.head?.any fun e => e.data.isSome)
  | .lrun .. => 4 ≤ s.ag.blocks.length
  | .gend => !s.ag.drained || s.unfinished s.ag
  | .fence ord scope => s.fenceStalls ord scope
  | .bar .. | .barArrive .. => !s.released barPaths .team
  | .msend .. | .glaunch .. | .gsub .. | .swp .. => !s.released sendPaths .dev
  | .mreply _ => s.ag.reply.isSome && !s.released sendPaths .dev
  | .mcall .. => !s.ag.drained || !s.released sendPaths .dev
  | .mrecv a _ => !s.ag.drained || (match s.checkEp (s.rc a) permLD with
      | .ok s1 pa => s1.ag.readHeld pa
      | .out _ => false)
  | _ => false

/-- The group stands at a region's entry and its snapshot has not been taken (R396). -/
def State.needsSnapshot (s : State) : Bool := (s.atEntry s.ag).isSome && !s.ag.snapReady

/-- The next scalar instruction of the agent in focus can issue. -/
def State.scalarGoes (s : State) : Bool :=
  s.ag.mayGoOn || (s.scalarReady s.ag && !s.needsSnapshot && (match s.nextScalar with
    | (s1, some i) => !s1.scalarStalls i
    | (_, none) => true))

/-- The group is a candidate for the slot of a stream: its next instruction of that stream can issue in this clk. -/
def State.candidate (s : State) (lane : Bool) (a : Agent) : Bool :=
  a.due == .nothing && (if lane then s.laneReady a && !a.missLane else !a.missScalar && (s.focusOn a.id).scalarGoes)

/-- The candidates of a partition for a slot. -/
def State.candidates (s : State) (die core part : Nat) (lane : Bool) : List Agent :=
  s.agents.filter fun a => !a.isSys && a.die == die && a.core == core && a.part == part && s.candidate lane a

/-- wait(g), counted to 4,096; 4,097 once the group has been promoted. -/
def Agent.waited (a : Agent) (lane : Bool) : Nat := if lane then a.waitLane else a.waitScalar

def Agent.setWaited (a : Agent) (lane : Bool) (n : Nat) : Agent :=
  if lane then { a with waitLane := n } else { a with waitScalar := n }

/-- cls(g). -/
def State.issueClass (s : State) (lane : Bool) (a : Agent) : Nat :=
  if 4096 ≤ a.waited lane then 8 else ((s.launch? a.launch).map fun l => l.prio).getD 0

/-- The oldest of some groups. -/
def oldest : List Agent → Option Agent
  | [] => none
  | a :: r => some (r.foldl (fun b x => if x.age < b.age then x else b) a)

/-- The first in age order after age `last`, wrapping. -/
def firstAfter (last : Option Nat) (as : List Agent) : Option Agent :=
  let later := as.filter fun a => last.all fun n => decide (n < a.age)
  oldest (if later.isEmpty then as else later)

/-- The number of a partition's slot for a stream. -/
def slotKey (die core part : Nat) (lane : Bool) : Nat :=
  ((die * 48 + core) * 12 + part) * 2 + (if lane then 1 else 0)

/-- The place of the age of the group that last issued in a slot of a partition from a class. -/
def rotationKey (die core part : Nat) (lane : Bool) (cls : Nat) : Nat := slotKey die core part lane * 16 + cls

/-- The group that a slot takes, with its class. -/
def State.choose (s : State) (die core part : Nat) (lane : Bool) : Option (Agent × Nat) :=
  let cs := s.candidates die core part lane
  let top := cs.foldl (fun m a => max m (s.issueClass lane a)) 0
  let t := cs.filter fun a => s.issueClass lane a == top
  let free := t.filter fun a => !s.paused a
  let last := (s.lastIssued.find? fun e => e.1 == rotationKey die core part lane top).map (·.2)
  (firstAfter last (if free.isEmpty then t else free)).map fun a => (a, top)

/-- The slot is still to take a group in this clk. The lane slot of a partition comes first: once its scalar slot is
filled, a lane instruction waits for the next clk. -/
def State.slotOpen (s : State) (die core part : Nat) (lane : Bool) : Bool :=
  let free := fun l => !s.filled.contains (slotKey die core part l) && (s.choose die core part l).isSome
  let later := s.filled.contains (slotKey die core part false)
  if lane then free true && !later else free false && (later || !(free true))

/-- The agent has the slot of a stream in this clk; a system core issues when it can. -/
def State.hasTurn (s : State) (lane : Bool) (a : Agent) : Bool :=
  a.isSys || (s.slotOpen a.die a.core a.part lane
    && (s.choose a.die a.core a.part lane).any fun c => c.1.id == a.id)

/-- The slot takes the agent in focus, which it has chosen: it is filled for this clk, the others' waits grow by one clk,
the chosen one's ends. -/
def State.take (s : State) (lane : Bool) : State :=
  if s.ag.isSys then s else
  let a := s.ag
  let others := ((s.candidates a.die a.core a.part lane).filter fun b => b.id != a.id).map fun b => b.id
  let key := rotationKey a.die a.core a.part lane (s.issueClass lane a)
  let s1 := s.updAll fun b =>
    if b.id = a.id then b.setWaited lane 0
    else if others.contains b.id then b.setWaited lane (max (b.waited lane) (min 4096 (b.waited lane + 1)))
    else b
  { s1 with
    filled := slotKey a.die a.core a.part lane :: s1.filled
    lastIssued := (key, a.age) :: s1.lastIssued.filter fun e => e.1 != key }

/-- The steps in which a slot that is not filled issues the group it has chosen. -/
def State.slotSteps (s : State) (die core part : Nat) (lane : Bool) : List Slot :=
  if s.filled.contains (slotKey die core part lane) then []
  else match s.choose die core part lane with
    | some (a, _) => [.focus a.id, .issue lane]
    | none => []

/-- ISSUE_CHOICE: the groups that the two slots of a partition take are the next to issue, in this clk. -/
def execIssueChoice (die core part : Nat) (s : State) : Out :=
  .next { s with schedule := s.slotSteps die core part true ++ s.slotSteps die core part false ++ s.schedule }

/-- STARVATION_PROMOTION: a candidate that has waited 4,096 clk is of class 8, until it issues. -/
def execStarvationPromotion (agent : Nat) (lane : Bool) (s : State) : Out :=
  .next (s.updAgent agent fun a =>
    if s.candidate lane a && a.waited lane == 4096 then a.setWaited lane 4097 else a)

/-- WTOK_COMPLETE: a `wtok` whose token meets its threshold issues when its group has the scalar slot (R74, R398); another
wait ends when its condition holds. -/
def execWtokComplete (agent : Nat) (s : State) : Out :=
  .next (s.onAgent agent fun s => match s.ag.wait with
    | .token _ _ => if s.ag.mayGoOn && s.hasTurn false s.ag then (s.take false).goOn else s
    | _ => s.endWait)

/-- QUEUE_BLOCK_END: a `qpush` or `qpop` in a queue block issues when there is room, or a filled entry (R41). -/
def execQueueBlockEnd (agent : Nat) (s : State) : Out :=
  .next (s.onAgent agent fun s => match s.ag.wait with
    | .qpush _ _ | .qpop _ => if s.ag.mayGoOn && s.hasTurn false s.ag then (s.take false).goOn else s
    | _ => s)

/-! ### The clk (R8) -/

/-- Every slot of the partitions has taken its group, and nothing is due on a compute core: the clk may end. -/
def State.clkOver (s : State) : Bool :=
  s.agents.all fun a => a.isSys
    || (a.due == .nothing && !s.slotOpen a.die a.core a.part true && !s.slotOpen a.die a.core a.part false)

/-- The next clk: results due in it take effect (R66), the threads sent in the last have arrived (R47), every slot is open
again. -/
def State.nextClk (s : State) : State :=
  ({ s with
    clk := s.clk + 1
    filled := []
    teams := s.teams.map Team.settleArrivals }).updAll fun a => a.commit (s.clk + 1)

end Sys2Proof.Machine
end

