-- ==== Sys2Proof/Machine/ScalarAlu.lean ====
section
/-!
DEFINITION. Scalar integer arithmetic and logic (08 R163 to R170).
-/

namespace Sys2Proof.Machine

/-! ### Shared forms -/

/-- A form with two source registers: `f` of them goes to `d` after latency `lat` (R165). -/
def State.regForm (s : State) (lat d a b : Nat) (f : Word → Word → Word) : Out :=
  s.gate [.s a, .s b] (s.doneIn lat [(.s d, f (s.rs a) (s.rs b))])

/-- A form with one source register (R168, R170). -/
def State.oneForm (s : State) (lat d a : Nat) (f : Word → Word) : Out :=
  s.gate [.s a] (s.doneIn lat [(.s d, f (s.rs a))])

/-- A pair form (R167). -/
def State.pairForm (s : State) (lat d a b : Nat) (f : DWord → DWord → DWord) : Out :=
  s.gate [.s a, .s (a + 1), .s b, .s (b + 1)] (s.doneIn lat (pairWrites d (f (s.rp a) (s.rp b))))

/-- An immediate sign-extended to 32 bits (R168). -/
def immWord (i : Int) : Word := BitVec.ofInt 32 i

/-- 1 where the comparison holds, else 0, as a 64-bit value (R167). -/
def flag64 (b : Bool) : DWord := if b then 1 else 0

/-- The high 32 bits of the signed product (R165). -/
def mulHighS (x y : Word) : Word := BitVec.ofInt 32 (x.toInt * y.toInt / 2 ^ 32)

/-- The high 32 bits of the unsigned product (R165). -/
def mulHighU (x y : Word) : Word := BitVec.ofNat 32 (x.toNat * y.toNat / 2 ^ 32)

/-- Signed division toward zero; all ones when the divisor is zero (R166). -/
def divS (x y : Word) : Word := if y = 0 then 0xFFFFFFFF else BitVec.ofInt 32 (x.toInt.tdiv y.toInt)

/-- Unsigned division; all ones when the divisor is zero (R166). -/
def divU (x y : Word) : Word := if y = 0 then 0xFFFFFFFF else BitVec.ofNat 32 (x.toNat / y.toNat)

/-- Signed remainder, with the sign of the dividend; the dividend when the divisor is zero (R166). -/
def remS (x y : Word) : Word := if y = 0 then x else BitVec.ofInt 32 (x.toInt.tmod y.toInt)

/-- Unsigned remainder; the dividend when the divisor is zero (R166). -/
def remU (x y : Word) : Word := if y = 0 then x else BitVec.ofNat 32 (x.toNat % y.toNat)

/-- The low 5 bits of a shift operand (R165), the low 6 of a pair's (R167). -/
def sh5 (y : Word) : Nat := y.toNat % 32
def sh6 (y : DWord) : Nat := y.toNat % 64

/-- The number of set bits. -/
def popCount {n : Nat} (x : BitVec n) : Nat := ((List.range n).filter fun i => x.getLsbD i).length

/-- The number of leading zeros; the width for zero. -/
def leadZeros {n : Nat} (x : BitVec n) : Nat :=
  ((List.range n).find? fun i => x.getLsbD (n - 1 - i)).getD n

/-- The number of trailing zeros; the width for zero. -/
def trailZeros {n : Nat} (x : BitVec n) : Nat := ((List.range n).find? fun i => x.getLsbD i).getD n

/-- The bits in reverse order. -/
def bitReverse {n : Nat} (x : BitVec n) : BitVec n :=
  (List.range n).foldl (fun r i => setBitTo r i (x.getLsbD (n - 1 - i))) 0

/-- The field of a control word (R170): position, and length cut to what lies above the position. -/
def fieldPos (w : Nat) (ctl : Nat) : Nat := ctl % w
def fieldLen (w : Nat) (ctl : Nat) : Nat := min (ctl / 32 % 64) (w - ctl % w)

/-- A bit field, zero-extended. -/
def extractU {n : Nat} (x : BitVec n) (pos len : Nat) : BitVec n :=
  BitVec.ofNat n (x.toNat / 2 ^ pos % 2 ^ len)

/-- A bit field, sign-extended; 0 for an empty field. -/
def extractS {n : Nat} (x : BitVec n) (pos len : Nat) : BitVec n :=
  if len = 0 then 0 else BitVec.ofInt n (sext len (x.toNat / 2 ^ pos % 2 ^ len))

/-- `x` with a bit field replaced by the low bits of `y`. -/
def insertField {n : Nat} (x y : BitVec n) (pos len : Nat) : BitVec n :=
  let m : BitVec n := BitVec.ofNat n ((2 ^ len - 1) * 2 ^ pos)
  (x &&& ~~~m) ||| ((y <<< pos) &&& m)

/-! ### Register forms (R165, R166) -/

def execAdd (d a b : Nat) (s : State) : Out := s.regForm 1 d a b fun x y => x + y
def execSub (d a b : Nat) (s : State) : Out := s.regForm 1 d a b fun x y => x - y
def execAnd (d a b : Nat) (s : State) : Out := s.regForm 1 d a b fun x y => x &&& y
def execOr (d a b : Nat) (s : State) : Out := s.regForm 1 d a b fun x y => x ||| y
def execXor (d a b : Nat) (s : State) : Out := s.regForm 1 d a b fun x y => x ^^^ y
def execAndn (d a b : Nat) (s : State) : Out := s.regForm 1 d a b fun x y => x &&& ~~~y
def execShl (d a b : Nat) (s : State) : Out := s.regForm 1 d a b fun x y => x <<< sh5 y
def execShr (d a b : Nat) (s : State) : Out := s.regForm 1 d a b fun x y => x >>> sh5 y
def execSra (d a b : Nat) (s : State) : Out := s.regForm 1 d a b fun x y => x.sshiftRight (sh5 y)
def execRol (d a b : Nat) (s : State) : Out := s.regForm 1 d a b fun x y => x.rotateLeft (sh5 y)
def execSlt (d a b : Nat) (s : State) : Out := s.regForm 1 d a b fun x y => bit01 (x.slt y)
def execSltu (d a b : Nat) (s : State) : Out := s.regForm 1 d a b fun x y => bit01 (x.ult y)
def execMin (d a b : Nat) (s : State) : Out := s.regForm 1 d a b fun x y => if x.slt y then x else y
def execMax (d a b : Nat) (s : State) : Out := s.regForm 1 d a b fun x y => if x.slt y then y else x
def execMinu (d a b : Nat) (s : State) : Out := s.regForm 1 d a b fun x y => if x.ult y then x else y
def execMaxu (d a b : Nat) (s : State) : Out := s.regForm 1 d a b fun x y => if x.ult y then y else x
def execMul (d a b : Nat) (s : State) : Out := s.regForm 3 d a b fun x y => x * y
def execMulh (d a b : Nat) (s : State) : Out := s.regForm 3 d a b mulHighS
def execMulhu (d a b : Nat) (s : State) : Out := s.regForm 3 d a b mulHighU
def execDiv (d a b : Nat) (s : State) : Out := s.regForm 20 d a b divS
def execDivu (d a b : Nat) (s : State) : Out := s.regForm 20 d a b divU
def execRem (d a b : Nat) (s : State) : Out := s.regForm 20 d a b remS
def execRemu (d a b : Nat) (s : State) : Out := s.regForm 20 d a b remU

/-! ### Pair forms (R167) -/

def execAddI64 (d a b : Nat) (s : State) : Out := s.pairForm 1 d a b fun x y => x + y
def execSubI64 (d a b : Nat) (s : State) : Out := s.pairForm 1 d a b fun x y => x - y
def execShlI64 (d a b : Nat) (s : State) : Out := s.pairForm 1 d a b fun x y => x <<< sh6 y
def execShrI64 (d a b : Nat) (s : State) : Out := s.pairForm 1 d a b fun x y => x >>> sh6 y
def execSraI64 (d a b : Nat) (s : State) : Out := s.pairForm 1 d a b fun x y => x.sshiftRight (sh6 y)
def execMulI64 (d a b : Nat) (s : State) : Out := s.pairForm 3 d a b fun x y => x * y
def execSltI64 (d a b : Nat) (s : State) : Out := s.pairForm 1 d a b fun x y => flag64 (x.slt y)
def execSltuI64 (d a b : Nat) (s : State) : Out := s.pairForm 1 d a b fun x y => flag64 (x.ult y)

/-! ### Bit operations (R170) -/

def execPopc (d a : Nat) (s : State) : Out := s.oneForm 1 d a fun x => BitVec.ofNat 32 (popCount x)
def execClz (d a : Nat) (s : State) : Out := s.oneForm 1 d a fun x => BitVec.ofNat 32 (leadZeros x)
def execCtz (d a : Nat) (s : State) : Out := s.oneForm 1 d a fun x => BitVec.ofNat 32 (trailZeros x)
def execBrev (d a : Nat) (s : State) : Out := s.oneForm 1 d a bitReverse

def execBfe (d a b : Nat) (s : State) : Out :=
  s.regForm 1 d a b fun x y => extractS x (fieldPos 32 y.toNat) (fieldLen 32 y.toNat)

def execBfeu (d a b : Nat) (s : State) : Out :=
  s.regForm 1 d a b fun x y => extractU x (fieldPos 32 y.toNat) (fieldLen 32 y.toNat)

/-- `bfi` reads its destination as well; an empty field writes nothing (R170). -/
def execBfi (d a b : Nat) (s : State) : Out :=
  let len := fieldLen 32 (s.rs b).toNat
  s.gate [.s a, .s b, .s d] (s.done (if len = 0 then [] else [(.s d, insertField (s.rs d) (s.rs a)
    (fieldPos 32 (s.rs b).toNat) len)]))

/-! ### Immediate forms (R168, R169) -/

def execAddi (d a : Nat) (imm : Int) (s : State) : Out := s.oneForm 1 d a fun x => x + immWord imm
def execAndi (d a : Nat) (imm : Int) (s : State) : Out := s.oneForm 1 d a fun x => x &&& immWord imm
def execOri (d a : Nat) (imm : Int) (s : State) : Out := s.oneForm 1 d a fun x => x ||| immWord imm
def execXori (d a : Nat) (imm : Int) (s : State) : Out := s.oneForm 1 d a fun x => x ^^^ immWord imm
def execSlti (d a : Nat) (imm : Int) (s : State) : Out := s.oneForm 1 d a fun x => bit01 (x.slt (immWord imm))
def execSltui (d a : Nat) (imm : Int) (s : State) : Out := s.oneForm 1 d a fun x => bit01 (x.ult (immWord imm))
def execShli (d a sh : Nat) (s : State) : Out := s.oneForm 1 d a fun x => x <<< sh
def execShri (d a sh : Nat) (s : State) : Out := s.oneForm 1 d a fun x => x >>> sh
def execSrai (d a sh : Nat) (s : State) : Out := s.oneForm 1 d a fun x => x.sshiftRight sh
def execRoli (d a sh : Nat) (s : State) : Out := s.oneForm 1 d a fun x => x.rotateLeft sh
def execMuli (d a : Nat) (imm : Int) (s : State) : Out := s.oneForm 3 d a fun x => x * immWord imm
def execLi (d : Nat) (imm : Int) (s : State) : Out := s.done [(.s d, immWord imm)]

/-- `lih` keeps bits [13:0] of its destination (R169). -/
def execLih (d imm : Nat) (s : State) : Out :=
  s.gate [.s d] (s.done [(.s d, BitVec.ofNat 32 (imm * 2 ^ 14 + (s.rs d).toNat % 2 ^ 14))])

end Sys2Proof.Machine
end

