-- ==== Sys2Proof/Machine/ScalarCap.lean ====
section
/-!
DEFINITION. Scalar capability manipulation (08 R174; 04 R83 to R98).
-/

namespace Sys2Proof.Machine

/-! ### Shared forms -/

/-- A read of a field of c[p] into the pair at `w` (R174). -/
def State.capGet64 (s : State) (w p : Nat) (f : Cap → Nat) : Out :=
  s.gate (capLocs p) (s.done (pairWrites w (BitVec.ofNat 64 (f (s.rc p)))))

/-- A read of a field of c[p] into s[w] (R174). -/
def State.capGet32 (s : State) (w p : Nat) (f : Cap → Nat) : Out :=
  s.gate (capLocs p) (s.done [(.s w, BitVec.ofNat 32 (f (s.rc p)))])

/-- A derivation ends: its result goes to c[q], or it traps with xaddr the source's cursor (R223) and KIND 7
(R354), and c[q] is unchanged. -/
def State.capResult (s : State) (q src : Nat) (r : Except Nat Cap) : Out :=
  match r with
  | .ok c => s.done (capWrites q c)
  | .error cause => s.scalarTrap cause src kindNone

/-- A derivation of c[p] with a 64-bit operand in the pair at `w` (R174). -/
def State.capWithPair (s : State) (w p q : Nat) (f : Cap → Nat → Except Nat Cap) : Out :=
  s.gate (capLocs p ++ [.s w, .s (w + 1)]) (s.capResult q (s.rc p).addr (f (s.rc p) (s.rp w).toNat))

/-- A derivation of c[p] with the authority c[w] (R96). -/
def State.capWithCap (s : State) (w p q : Nat) (f : Cap → Cap → Except Nat Cap) : Out :=
  s.gate (capLocs p ++ capLocs w) (s.capResult q (s.rc p).addr (f (s.rc p) (s.rc w)))

/-- Top and length as the read forms return them: at most 2^64 - 1 (R174). -/
def Cap.topRead (c : Cap) : Nat := min c.top (2 ^ 64 - 1)
def Cap.lenRead (c : Cap) : Nat := (min ((c.top : Int) - c.base) (2 ^ 64 - 1) % 2 ^ 64).toNat

/-- The tag as a number. -/
def Cap.tagRead (c : Cap) : Nat := if c.tag then 1 else 0

/-! ### The forms -/

/-- `cmov` copies a capability with its tag; it makes no checks. -/
def execCmov (p q : Nat) (s : State) : Out := s.gate (capLocs p) (s.done (capWrites q (s.rc p)))

def execCgetaddr (w p : Nat) (s : State) : Out := s.capGet64 w p Cap.addr
def execCgetbase (w p : Nat) (s : State) : Out := s.capGet64 w p Cap.base
def execCgettop (w p : Nat) (s : State) : Out := s.capGet64 w p Cap.topRead
def execCgetlen (w p : Nat) (s : State) : Out := s.capGet64 w p Cap.lenRead
def execCgetperm (w p : Nat) (s : State) : Out := s.capGet32 w p Cap.permField
def execCgetseal (w p : Nat) (s : State) : Out := s.capGet32 w p Cap.sealType
def execCgetowner (w p : Nat) (s : State) : Out := s.capGet32 w p Cap.owner
def execCgettag (w p : Nat) (s : State) : Out := s.capGet32 w p Cap.tagRead

def execCsetaddr (w p q : Nat) (s : State) : Out := s.capWithPair w p q Cap.moveTo

/-- The increment in P(w) is signed; modulo 2^64 it is the same (R174). -/
def execCinc (w p q : Nat) (s : State) : Out := s.capWithPair w p q fun c d => c.increment d

def execCinci (d a : Nat) (imm : Int) (s : State) : Out :=
  s.gate (capLocs a) (s.capResult d (s.rc a).addr ((s.rc a).increment imm))

def execCsetbnd (w p q : Nat) (s : State) : Out := s.capWithPair w p q fun c n => c.setBounds n false
def execCsetbndx (w p q : Nat) (s : State) : Out := s.capWithPair w p q fun c n => c.setBounds n true

def execCnarrow (w p q : Nat) (s : State) : Out :=
  s.gate (capLocs p ++ [.s w]) (s.capResult q (s.rc p).addr ((s.rc p).narrow (s.rs w).toNat))

def execCwrap (w p q : Nat) (s : State) : Out := s.capWithCap w p q Cap.wrap
def execCunwrap (w p q : Nat) (s : State) : Out := s.capWithCap w p q Cap.unwrap

def execCwithin (w p q : Nat) (s : State) : Out :=
  s.gate (capLocs p ++ capLocs q) (s.done [(.s w, bit01 ((s.rc p).within (s.rc q)))])

end Sys2Proof.Machine
end

