-- ==== Sys2Proof/Machine/VecCap.lean ====
section
/-!
DEFINITION. Vector capability forms (09 R223): the derivations of 04 R91 lane by lane, at latency 2.
-/

namespace Sys2Proof.Machine

/-! ### Shared forms -/

/-- A field of each lane's capability, into a register or a pair. -/
def State.vcapGet (s : State) (h : LaneHdr) (pair : Bool) (w : Nat) (p : CapSrc) (f : Cap → Nat) : Out :=
  s.laneIssue h (capNames p ++ dstNames pair (.reg w)) (capReads p) fun act ll =>
    s.laneDone 2 ((lanesOf act).flatMap fun l =>
      dstWrites pair (.reg w) l (BitVec.ofNat 64 (f (s.srcCap l p)))) ll none

/-- The failures of a derivation: the rank of each lane's check, its cause, the source's cursor. -/
def deriveFails (rank : Nat → Nat → Nat) (src : Nat → Cap) (rs : List (Nat × Except Nat Cap)) : List Fail :=
  rs.filterMap fun e => match e.2 with
    | .ok _ => none
    | .error c => some ⟨e.1, rank e.1 c, c, (src e.1).addr⟩

/-- A derivation in every active lane: no lane has an effect when a check fails in one (R94, R223). -/
def State.vcapDerive (s : State) (act : BitVec 32) (ll : Flags) (q : Nat) (rank : Nat → Nat → Nat)
    (src : Nat → Cap) (f : Nat → Except Nat Cap) : Out :=
  let rs := (lanesOf act).map fun l => (l, f l)
  match pickFail (deriveFails rank src rs) with
  | some (cause, lanes, addr) => s.laneTrap cause addr lanes kindNone
  | none =>
    s.laneDone 2 (rs.flatMap fun e => match e.2 with
      | .ok c => vcapWrites q e.1 c
      | .error _ => []) ll none

/-- A derivation with a 64-bit value operand. -/
def State.vcapWithValue (s : State) (h : LaneHdr) (q : Nat) (p : CapSrc) (w : Src) (f : Cap → Nat → Except Nat Cap) :
    Out :=
  s.laneIssue h (quadNames q ++ capNames p ++ srcNames true w) (capReads p ++ srcReads true w) fun act ll =>
    s.vcapDerive act ll q (fun _ c => c) (fun l => s.srcCap l p) fun l =>
      f (s.srcCap l p) (s.srcInt true l w).toNat

/-- The step of R96 at which sealing (`sealed` false) or unsealing of c under k fails. -/
def authorityRank (isSealed : Bool) (perm : Nat) (c k : Cap) : Nat :=
  if !c.tag then 1
  else if (c.sealType == 0) == isSealed then 2
  else if !k.tag then 3
  else if k.sealType ≠ 0 then 4
  else if !k.has perm then 5
  else if k.addr < k.base || k.top ≤ k.addr then 6
  else 7

/-- A derivation under an authority. -/
def State.vcapWithCap (s : State) (h : LaneHdr) (q : Nat) (p k : CapSrc) (isSealed : Bool) (perm : Nat)
    (f : Cap → Cap → Except Nat Cap) : Out :=
  s.laneIssue h (quadNames q ++ capNames p ++ capNames k) (capReads p ++ capReads k) fun act ll =>
    s.vcapDerive act ll q (fun l _ => authorityRank isSealed perm (s.srcCap l p) (s.srcCap l k))
      (fun l => s.srcCap l p) fun l => f (s.srcCap l p) (s.srcCap l k)

/-! ### The forms -/

def execVcmov (h : LaneHdr) (q : Nat) (p : CapSrc) (s : State) : Out :=
  s.laneIssue h (quadNames q ++ capNames p) (capReads p) fun act ll =>
    s.laneDone 2 ((lanesOf act).flatMap fun l => vcapWrites q l (s.srcCap l p)) ll none

def execVcgetaddr (h : LaneHdr) (w : Nat) (p : CapSrc) (s : State) : Out := s.vcapGet h true w p Cap.addr
def execVcgetbase (h : LaneHdr) (w : Nat) (p : CapSrc) (s : State) : Out := s.vcapGet h true w p Cap.base
def execVcgettop (h : LaneHdr) (w : Nat) (p : CapSrc) (s : State) : Out := s.vcapGet h true w p Cap.topRead
def execVcgetlen (h : LaneHdr) (w : Nat) (p : CapSrc) (s : State) : Out := s.vcapGet h true w p Cap.lenRead
def execVcgetperm (h : LaneHdr) (w : Nat) (p : CapSrc) (s : State) : Out := s.vcapGet h false w p Cap.permField
def execVcgetseal (h : LaneHdr) (w : Nat) (p : CapSrc) (s : State) : Out := s.vcapGet h false w p Cap.sealType
def execVcgetowner (h : LaneHdr) (w : Nat) (p : CapSrc) (s : State) : Out := s.vcapGet h false w p Cap.owner
def execVcgettag (h : LaneHdr) (w : Nat) (p : CapSrc) (s : State) : Out := s.vcapGet h false w p Cap.tagRead

def execVcsetaddr (h : LaneHdr) (q : Nat) (p : CapSrc) (w : Src) (s : State) : Out := s.vcapWithValue h q p w Cap.moveTo
def execVcinc (h : LaneHdr) (q : Nat) (p : CapSrc) (w : Src) (s : State) : Out :=
  s.vcapWithValue h q p w fun c n => c.increment n
def execVcsetbnd (h : LaneHdr) (q : Nat) (p : CapSrc) (w : Src) (s : State) : Out :=
  s.vcapWithValue h q p w fun c n => c.setBounds n false
def execVcsetbndx (h : LaneHdr) (q : Nat) (p : CapSrc) (w : Src) (s : State) : Out :=
  s.vcapWithValue h q p w fun c n => c.setBounds n true

/-- The mask is a 32-bit value of which bits [12:0] are used. -/
def execVcnarrow (h : LaneHdr) (q : Nat) (p : CapSrc) (w : Src) (s : State) : Out :=
  s.laneIssue h (quadNames q ++ capNames p ++ srcNames false w) (capReads p ++ srcReads false w) fun act ll =>
    s.vcapDerive act ll q (fun _ c => c) (fun l => s.srcCap l p) fun l =>
      (s.srcCap l p).narrow (s.srcInt false l w).toNat

def execVcwrap (h : LaneHdr) (q : Nat) (p k : CapSrc) (s : State) : Out := s.vcapWithCap h q p k false permSEAL Cap.wrap
def execVcunwrap (h : LaneHdr) (q : Nat) (p k : CapSrc) (s : State) : Out :=
  s.vcapWithCap h q p k true permUNSEAL Cap.unwrap

def execVcwithin (h : LaneHdr) (w : Nat) (p : CapSrc) (q : Nat) (s : State) : Out :=
  s.laneIssue h (quadNames q ++ capNames p ++ [w]) (capReads p ++ [.vc q]) fun act ll =>
    s.laneDone 2 ((lanesOf act).map fun l =>
      (.v w l, bit01 ((s.srcCap l p).within (s.srcCap l (.vc q))))) ll none

end Sys2Proof.Machine
end

