-- ==== Sys2Proof/Machine/Dispatch.lean ====
section
/-!
DEFINITION. The dispatch: one arm for each row of the opcode table, each a direct call of that row's own meaning.
-/

namespace Sys2Proof.Machine

open Sys2Proof

def exec (i : Instr) (s : State) : Host.Outcome State Fault Refusal :=
  match i with
  | .add d a b => Sys2Proof.Machine.execAdd d a b s
  | .sub d a b => Sys2Proof.Machine.execSub d a b s
  | .and d a b => Sys2Proof.Machine.execAnd d a b s
  | .or d a b => Sys2Proof.Machine.execOr d a b s
  | .xor d a b => Sys2Proof.Machine.execXor d a b s
  | .andn d a b => Sys2Proof.Machine.execAndn d a b s
  | .shl d a b => Sys2Proof.Machine.execShl d a b s
  | .shr d a b => Sys2Proof.Machine.execShr d a b s
  | .sra d a b => Sys2Proof.Machine.execSra d a b s
  | .rol d a b => Sys2Proof.Machine.execRol d a b s
  | .slt d a b => Sys2Proof.Machine.execSlt d a b s
  | .sltu d a b => Sys2Proof.Machine.execSltu d a b s
  | .min d a b => Sys2Proof.Machine.execMin d a b s
  | .max d a b => Sys2Proof.Machine.execMax d a b s
  | .minu d a b => Sys2Proof.Machine.execMinu d a b s
  | .maxu d a b => Sys2Proof.Machine.execMaxu d a b s
  | .mul d a b => Sys2Proof.Machine.execMul d a b s
  | .mulh d a b => Sys2Proof.Machine.execMulh d a b s
  | .mulhu d a b => Sys2Proof.Machine.execMulhu d a b s
  | .div d a b => Sys2Proof.Machine.execDiv d a b s
  | .divu d a b => Sys2Proof.Machine.execDivu d a b s
  | .rem d a b => Sys2Proof.Machine.execRem d a b s
  | .remu d a b => Sys2Proof.Machine.execRemu d a b s
  | .addI64 d a b => Sys2Proof.Machine.execAddI64 d a b s
  | .subI64 d a b => Sys2Proof.Machine.execSubI64 d a b s
  | .shlI64 d a b => Sys2Proof.Machine.execShlI64 d a b s
  | .shrI64 d a b => Sys2Proof.Machine.execShrI64 d a b s
  | .sraI64 d a b => Sys2Proof.Machine.execSraI64 d a b s
  | .mulI64 d a b => Sys2Proof.Machine.execMulI64 d a b s
  | .sltI64 d a b => Sys2Proof.Machine.execSltI64 d a b s
  | .sltuI64 d a b => Sys2Proof.Machine.execSltuI64 d a b s
  | .popc d a => Sys2Proof.Machine.execPopc d a s
  | .clz d a => Sys2Proof.Machine.execClz d a s
  | .ctz d a => Sys2Proof.Machine.execCtz d a s
  | .brev d a => Sys2Proof.Machine.execBrev d a s
  | .bfe d a b => Sys2Proof.Machine.execBfe d a b s
  | .bfeu d a b => Sys2Proof.Machine.execBfeu d a b s
  | .bfi d a b => Sys2Proof.Machine.execBfi d a b s
  | .addi d a imm => Sys2Proof.Machine.execAddi d a imm s
  | .andi d a imm => Sys2Proof.Machine.execAndi d a imm s
  | .ori d a imm => Sys2Proof.Machine.execOri d a imm s
  | .xori d a imm => Sys2Proof.Machine.execXori d a imm s
  | .slti d a imm => Sys2Proof.Machine.execSlti d a imm s
  | .sltui d a imm => Sys2Proof.Machine.execSltui d a imm s
  | .shli d a sh => Sys2Proof.Machine.execShli d a sh s
  | .shri d a sh => Sys2Proof.Machine.execShri d a sh s
  | .srai d a sh => Sys2Proof.Machine.execSrai d a sh s
  | .roli d a sh => Sys2Proof.Machine.execRoli d a sh s
  | .muli d a imm => Sys2Proof.Machine.execMuli d a imm s
  | .li d imm => Sys2Proof.Machine.execLi d imm s
  | .lih d imm => Sys2Proof.Machine.execLih d imm s
  | .bcCond c a off => Sys2Proof.Machine.execBcCond c a off s
  | .jal off => Sys2Proof.Machine.execJal off s
  | .land nw => Sys2Proof.Machine.execLand nw s
  | .cmov p q => Sys2Proof.Machine.execCmov p q s
  | .cgetaddr w p => Sys2Proof.Machine.execCgetaddr w p s
  | .cgetbase w p => Sys2Proof.Machine.execCgetbase w p s
  | .cgettop w p => Sys2Proof.Machine.execCgettop w p s
  | .cgetlen w p => Sys2Proof.Machine.execCgetlen w p s
  | .cgetperm w p => Sys2Proof.Machine.execCgetperm w p s
  | .cgetseal w p => Sys2Proof.Machine.execCgetseal w p s
  | .cgetowner w p => Sys2Proof.Machine.execCgetowner w p s
  | .cgettag w p => Sys2Proof.Machine.execCgettag w p s
  | .csetaddr w p q => Sys2Proof.Machine.execCsetaddr w p q s
  | .cinc w p q => Sys2Proof.Machine.execCinc w p q s
  | .csetbnd w p q => Sys2Proof.Machine.execCsetbnd w p q s
  | .csetbndx w p q => Sys2Proof.Machine.execCsetbndx w p q s
  | .cnarrow w p q => Sys2Proof.Machine.execCnarrow w p q s
  | .cwrap w p q => Sys2Proof.Machine.execCwrap w p q s
  | .cunwrap w p q => Sys2Proof.Machine.execCunwrap w p q s
  | .cwithin w p q => Sys2Proof.Machine.execCwithin w p q s
  | .cj p => Sys2Proof.Machine.execCj p s
  | .cjal p => Sys2Proof.Machine.execCjal p s
  | .cinci d a imm => Sys2Proof.Machine.execCinci d a imm s
  | .ldI8 d a tk off => Sys2Proof.Machine.execLdI8 d a tk off s
  | .ldN8 d a tk off => Sys2Proof.Machine.execLdN8 d a tk off s
  | .ldI16 d a tk off => Sys2Proof.Machine.execLdI16 d a tk off s
  | .ldN16 d a tk off => Sys2Proof.Machine.execLdN16 d a tk off s
  | .ldN32 d a tk off => Sys2Proof.Machine.execLdN32 d a tk off s
  | .ldN64 d a tk off => Sys2Proof.Machine.execLdN64 d a tk off s
  | .stN8 d a tk off => Sys2Proof.Machine.execStN8 d a tk off s
  | .stN16 d a tk off => Sys2Proof.Machine.execStN16 d a tk off s
  | .stN32 d a tk off => Sys2Proof.Machine.execStN32 d a tk off s
  | .stN64 d a tk off => Sys2Proof.Machine.execStN64 d a tk off s
  | .ldc d a tk off => Sys2Proof.Machine.execLdc d a tk off s
  | .stc d a tk off => Sys2Proof.Machine.execStc d a tk off s
  | .ldxN8 d a tk ord scope => Sys2Proof.Machine.execLdxN8 d a tk ord scope s
  | .ldxN16 d a tk ord scope => Sys2Proof.Machine.execLdxN16 d a tk ord scope s
  | .ldxN32 d a tk ord scope => Sys2Proof.Machine.execLdxN32 d a tk ord scope s
  | .ldxN64 d a tk ord scope => Sys2Proof.Machine.execLdxN64 d a tk ord scope s
  | .stxN8 d a tk ord scope => Sys2Proof.Machine.execStxN8 d a tk ord scope s
  | .stxN16 d a tk ord scope => Sys2Proof.Machine.execStxN16 d a tk ord scope s
  | .stxN32 d a tk ord scope => Sys2Proof.Machine.execStxN32 d a tk ord scope s
  | .stxN64 d a tk ord scope => Sys2Proof.Machine.execStxN64 d a tk ord scope s
  | .ldcx d a tk ord scope => Sys2Proof.Machine.execLdcx d a tk ord scope s
  | .stcx d a tk ord scope => Sys2Proof.Machine.execStcx d a tk ord scope s
  | .amoAddN32 d a tk ord scope => Sys2Proof.Machine.execAmoAddN32 d a tk ord scope s
  | .amoAndN32 d a tk ord scope => Sys2Proof.Machine.execAmoAndN32 d a tk ord scope s
  | .amoOrN32 d a tk ord scope => Sys2Proof.Machine.execAmoOrN32 d a tk ord scope s
  | .amoXorN32 d a tk ord scope => Sys2Proof.Machine.execAmoXorN32 d a tk ord scope s
  | .amoMinI32 d a tk ord scope => Sys2Proof.Machine.execAmoMinI32 d a tk ord scope s
  | .amoMaxI32 d a tk ord scope => Sys2Proof.Machine.execAmoMaxI32 d a tk ord scope s
  | .amoMinN32 d a tk ord scope => Sys2Proof.Machine.execAmoMinN32 d a tk ord scope s
  | .amoMaxN32 d a tk ord scope => Sys2Proof.Machine.execAmoMaxN32 d a tk ord scope s
  | .amoSwapN32 d a tk ord scope => Sys2Proof.Machine.execAmoSwapN32 d a tk ord scope s
  | .amoCasN32 d a tk ord scope => Sys2Proof.Machine.execAmoCasN32 d a tk ord scope s
  | .amoSwapN64 d a tk ord scope => Sys2Proof.Machine.execAmoSwapN64 d a tk ord scope s
  | .amoCasN64 d a tk ord scope => Sys2Proof.Machine.execAmoCasN64 d a tk ord scope s
  | .amoAddN64 d a tk ord scope => Sys2Proof.Machine.execAmoAddN64 d a tk ord scope s
  | .fence ord scope => Sys2Proof.Machine.execFence ord scope s
  | .lrun tk a count off => Sys2Proof.Machine.execLrun tk a count off s
  | .emr d => Sys2Proof.Machine.execEmr d s
  | .emw a => Sys2Proof.Machine.execEmw a s
  | .lmr d => Sys2Proof.Machine.execLmr d s
  | .bar obj flush => Sys2Proof.Machine.execBar obj flush s
  | .barArrive obj flush => Sys2Proof.Machine.execBarArrive obj flush s
  | .barWait obj => Sys2Proof.Machine.execBarWait obj s
  | .wtok tk thr => Sys2Proof.Machine.execWtok tk thr s
  | .wtokReg tk b => Sys2Proof.Machine.execWtokReg tk b s
  | .tkr tk d => Sys2Proof.Machine.execTkr tk d s
  | .pause n => Sys2Proof.Machine.execPause n s
  | .dly n => Sys2Proof.Machine.execDly n s
  | .yld tk r off => Sys2Proof.Machine.execYld tk r off s
  | .qpushQcopy r => Sys2Proof.Machine.execQpushQcopy r s
  | .qpushQcoll r => Sys2Proof.Machine.execQpushQcoll r s
  | .qpopQmat r => Sys2Proof.Machine.execQpopQmat r s
  | .msend a tk => Sys2Proof.Machine.execMsend a tk s
  | .mrecv a tk => Sys2Proof.Machine.execMrecv a tk s
  | .mcall a tk => Sys2Proof.Machine.execMcall a tk s
  | .mreply tk => Sys2Proof.Machine.execMreply tk s
  | .glaunch d a b tk => Sys2Proof.Machine.execGlaunch d a b tk s
  | .gsub d a tk => Sys2Proof.Machine.execGsub d a tk s
  | .wset t r tk => Sys2Proof.Machine.execWset t r tk s
  | .wget t r tk => Sys2Proof.Machine.execWget t r tk s
  | .nop => Sys2Proof.Machine.execNop s
  | .gend => Sys2Proof.Machine.execGend s
  | .brk code => Sys2Proof.Machine.execBrk code s
  | .rdtime d => Sys2Proof.Machine.execRdtime d s
  | .rdid d sel => Sys2Proof.Machine.execRdid d sel s
  | .pgreq a tk => Sys2Proof.Machine.execPgreq a tk s
  | .fsrr d => Sys2Proof.Machine.execFsrr d s
  | .fsrw d => Sys2Proof.Machine.execFsrw d s
  | .mxcr d => Sys2Proof.Machine.execMxcr d s
  | .mxcw d => Sys2Proof.Machine.execMxcw d s
  | .eret => Sys2Proof.Machine.execEret s
  | .ctlr d n => Sys2Proof.Machine.execCtlr d n s
  | .ctlw d n => Sys2Proof.Machine.execCtlw d n s
  | .tlbi a b kind => Sys2Proof.Machine.execTlbi a b kind s
  | .swp d => Sys2Proof.Machine.execSwp d s
  | .keyk d => Sys2Proof.Machine.execKeyk d s
  | .sealctx d a b => Sys2Proof.Machine.execSealctx d a b s
  | .wfi => Sys2Proof.Machine.execWfi s
  | .xstep => Sys2Proof.Machine.execXstep s
  | .iadd h d ty sat a b => Sys2Proof.Machine.execIadd h d ty sat a b s
  | .isub h d ty sat a b => Sys2Proof.Machine.execIsub h d ty sat a b s
  | .imul h d ty sat a b => Sys2Proof.Machine.execImul h d ty sat a b s
  | .imulhi h d ty a b => Sys2Proof.Machine.execImulhi h d ty a b s
  | .imad h d ty sat a b c => Sys2Proof.Machine.execImad h d ty sat a b c s
  | .imin h d ty a b => Sys2Proof.Machine.execImin h d ty a b s
  | .imax h d ty a b => Sys2Proof.Machine.execImax h d ty a b s
  | .iabs h d ty sat a => Sys2Proof.Machine.execIabs h d ty sat a s
  | .ineg h d ty sat a => Sys2Proof.Machine.execIneg h d ty sat a s
  | .iand h d ty a b => Sys2Proof.Machine.execIand h d ty a b s
  | .ior h d ty a b => Sys2Proof.Machine.execIor h d ty a b s
  | .ixor h d ty a b => Sys2Proof.Machine.execIxor h d ty a b s
  | .iandn h d ty a b => Sys2Proof.Machine.execIandn h d ty a b s
  | .inot h d ty a => Sys2Proof.Machine.execInot h d ty a s
  | .isel h d ty a b p => Sys2Proof.Machine.execIsel h d ty a b p s
  | .ishl h d ty a b => Sys2Proof.Machine.execIshl h d ty a b s
  | .ishr h d ty a b => Sys2Proof.Machine.execIshr h d ty a b s
  | .isra h d ty a b => Sys2Proof.Machine.execIsra h d ty a b s
  | .ipopc h d ty a => Sys2Proof.Machine.execIpopc h d ty a s
  | .iclz h d ty a => Sys2Proof.Machine.execIclz h d ty a s
  | .laneBrev h d ty a => Sys2Proof.Machine.execLaneBrev h d ty a s
  | .prmt h d a b c => Sys2Proof.Machine.execPrmt h d a b c s
  | .laneBfe h d ty a b => Sys2Proof.Machine.execLaneBfe h d ty a b s
  | .laneBfi h d ty a b c => Sys2Proof.Machine.execLaneBfi h d ty a b c s
  | .idp4 h d ty sat a b c => Sys2Proof.Machine.execIdp4 h d ty sat a b c s
  | .fadd h d rnd a b => Sys2Proof.Machine.execFadd h d rnd a b s
  | .fsub h d rnd a b => Sys2Proof.Machine.execFsub h d rnd a b s
  | .fmul h d rnd a b => Sys2Proof.Machine.execFmul h d rnd a b s
  | .ffma h d rnd a b c => Sys2Proof.Machine.execFfma h d rnd a b c s
  | .fmin h d a b => Sys2Proof.Machine.execFmin h d a b s
  | .fmax h d a b => Sys2Proof.Machine.execFmax h d a b s
  | .fabs h d a => Sys2Proof.Machine.execFabs h d a s
  | .fneg h d a => Sys2Proof.Machine.execFneg h d a s
  | .frcp h d rnd a => Sys2Proof.Machine.execFrcp h d rnd a s
  | .frsq h d rnd a => Sys2Proof.Machine.execFrsq h d rnd a s
  | .fsqrt h d rnd a => Sys2Proof.Machine.execFsqrt h d rnd a s
  | .fdiv h d rnd a b => Sys2Proof.Machine.execFdiv h d rnd a b s
  | .fexp2 h d a => Sys2Proof.Machine.execFexp2 h d a s
  | .flog2 h d a => Sys2Proof.Machine.execFlog2 h d a s
  | .dadd h d rnd a b => Sys2Proof.Machine.execDadd h d rnd a b s
  | .dsub h d rnd a b => Sys2Proof.Machine.execDsub h d rnd a b s
  | .dmul h d rnd a b => Sys2Proof.Machine.execDmul h d rnd a b s
  | .dfma h d rnd a b c => Sys2Proof.Machine.execDfma h d rnd a b c s
  | .dmin h d a b => Sys2Proof.Machine.execDmin h d a b s
  | .dmax h d a b => Sys2Proof.Machine.execDmax h d a b s
  | .ddiv h d rnd a b => Sys2Proof.Machine.execDdiv h d rnd a b s
  | .dsqrt h d rnd a => Sys2Proof.Machine.execDsqrt h d rnd a s
  | .hadd2 h d rnd a b => Sys2Proof.Machine.execHadd2 h d rnd a b s
  | .hmul2 h d rnd a b => Sys2Proof.Machine.execHmul2 h d rnd a b s
  | .hfma2 h d rnd a b c => Sys2Proof.Machine.execHfma2 h d rnd a b c s
  | .badd2 h d rnd a b => Sys2Proof.Machine.execBadd2 h d rnd a b s
  | .bmul2 h d rnd a b => Sys2Proof.Machine.execBmul2 h d rnd a b s
  | .bfma2 h d rnd a b c => Sys2Proof.Machine.execBfma2 h d rnd a b c s
  | .bdot2 h d rnd a b c => Sys2Proof.Machine.execBdot2 h d rnd a b c s
  | .cvt h d rnd sat dty sty a bsel => Sys2Proof.Machine.execCvt h d rnd sat dty sty a bsel s
  | .sxpack h d sx a sc bsel blk => Sys2Proof.Machine.execSxpack h d sx a sc bsel blk s
  | .sxunpack h d rnd sx ty a sc bsel blk => Sys2Proof.Machine.execSxunpack h d rnd sx ty a sc bsel blk s
  | .pset h p cmp ty a b => Sys2Proof.Machine.execPset h p cmp ty a b s
  | .plop h p pa pb pc lut => Sys2Proof.Machine.execPlop h p pa pb pc lut s
  | .pmov h form => Sys2Proof.Machine.execPmov h form s
  | .mov h d ty a => Sys2Proof.Machine.execMov h d ty a s
  | .movi h d imm => Sys2Proof.Machine.execMovi h d imm s
  | .rnd h d k c => Sys2Proof.Machine.execRnd h d k c s
  | .laneDly n => Sys2Proof.Machine.execLaneDly n s
  | .shfl h mode d a b => Sys2Proof.Machine.execShfl h mode d a b s
  | .vote h mode d p tk => Sys2Proof.Machine.execVote h mode d p tk s
  | .vballot h d p => Sys2Proof.Machine.execVballot h d p s
  | .lred h op ty d a tk => Sys2Proof.Machine.execLred h op ty d a tk s
  | .lscan h op ty incl d a total tk => Sys2Proof.Machine.execLscan h op ty incl d a total tk s
  | .laneMatch h ty d a => Sys2Proof.Machine.execLaneMatch h ty d a s
  | .lbrx h t c tk => Sys2Proof.Machine.execLbrx h t c tk s
  | .lend h tk => Sys2Proof.Machine.execLend h tk s
  | .vcmov h q p => Sys2Proof.Machine.execVcmov h q p s
  | .vcgetaddr h w p => Sys2Proof.Machine.execVcgetaddr h w p s
  | .vcgetbase h w p => Sys2Proof.Machine.execVcgetbase h w p s
  | .vcgettop h w p => Sys2Proof.Machine.execVcgettop h w p s
  | .vcgetlen h w p => Sys2Proof.Machine.execVcgetlen h w p s
  | .vcgetperm h w p => Sys2Proof.Machine.execVcgetperm h w p s
  | .vcgetseal h w p => Sys2Proof.Machine.execVcgetseal h w p s
  | .vcgetowner h w p => Sys2Proof.Machine.execVcgetowner h w p s
  | .vcgettag h w p => Sys2Proof.Machine.execVcgettag h w p s
  | .vcsetaddr h q p w => Sys2Proof.Machine.execVcsetaddr h q p w s
  | .vcinc h q p w => Sys2Proof.Machine.execVcinc h q p w s
  | .vcsetbnd h q p w => Sys2Proof.Machine.execVcsetbnd h q p w s
  | .vcsetbndx h q p w => Sys2Proof.Machine.execVcsetbndx h q p w s
  | .vcnarrow h q p w => Sys2Proof.Machine.execVcnarrow h q p w s
  | .vcwrap h q p k => Sys2Proof.Machine.execVcwrap h q p k s
  | .vcunwrap h q p k => Sys2Proof.Machine.execVcunwrap h q p k s
  | .vcwithin h w p q => Sys2Proof.Machine.execVcwithin h w p q s
  | .ld h ty ord scope ro d cap off imm tk => Sys2Proof.Machine.execLd h ty ord scope ro d cap off imm tk s
  | .st h ty ord scope data cap off imm tk => Sys2Proof.Machine.execSt h ty ord scope data cap off imm tk s
  | .ldnr h ty ord scope ro d r cap off imm tk => Sys2Proof.Machine.execLdnr h ty ord scope ro d r cap off imm tk s
  | .ldsub h ty ord scope ro d cap off imm tk => Sys2Proof.Machine.execLdsub h ty ord scope ro d cap off imm tk s
  | .subs h ty c b tk => Sys2Proof.Machine.execSubs h ty c b tk s
  | .unsubs h c b tk => Sys2Proof.Machine.execUnsubs h c b tk s
  | .lds h ty ord scope d addr imm tk => Sys2Proof.Machine.execLds h ty ord scope d addr imm tk s
  | .sts h ty ord scope data addr imm tk => Sys2Proof.Machine.execSts h ty ord scope data addr imm tk s
  | .atom h op ty ord scope d cap off opnd imm tk => Sys2Proof.Machine.execAtom h op ty ord scope d cap off opnd imm tk s
  | .atoms h op ty ord scope d addr opnd imm tk => Sys2Proof.Machine.execAtoms h op ty ord scope d addr opnd imm tk s
  | .laneLdc h ord scope d cap off imm tk => Sys2Proof.Machine.execLaneLdc h ord scope d cap off imm tk s
  | .laneStc h ord scope v cap off imm tk => Sys2Proof.Machine.execLaneStc h ord scope v cap off imm tk s
  | .laneFence h ord scope tk => Sys2Proof.Machine.execLaneFence h ord scope tk s
  | .fencex h src dst ord scope tk => Sys2Proof.Machine.execFencex h src dst ord scope tk s
  | .pf h cap off imm tk => Sys2Proof.Machine.execPf h cap off imm tk s
  | .mmac h fmt pair reuse acc a lw tk => Sys2Proof.Machine.execMmac h fmt pair reuse acc a lw tk s
  | .mdist h fmt pair reuse acc a lw tk => Sys2Proof.Machine.execMdist h fmt pair reuse acc a lw tk s
  | .mtopk h pair acc k tk => Sys2Proof.Machine.execMtopk h pair acc k tk s
  | .mclr h pair acc tk => Sys2Proof.Machine.execMclr h pair acc tk s
  | .mld h pair acc lw tk => Sys2Proof.Machine.execMld h pair acc lw tk s
  | .mst h pair acc lw tk => Sys2Proof.Machine.execMst h pair acc lw tk s
  | .mrd h d tk => Sys2Proof.Machine.execMrd h d tk s
  | .tokc h d p c seq tok tk => Sys2Proof.Machine.execTokc h d p c seq tok tk s
  | .tokcDraft h d p c seq tok tk => Sys2Proof.Machine.execTokcDraft h d p c seq tok tk s
  | .tokcf h d p c seq n tk => Sys2Proof.Machine.execTokcf h d p c seq n tk s
  | .tokrj h c seq tk => Sys2Proof.Machine.execTokrj h c seq tk s
  | .tokf h d c seq tk => Sys2Proof.Machine.execTokf h d c seq tk s
  | .spawnedGroupStart team => Sys2Proof.Machine.execSpawnedGroupStart team s
  | .faultGroupStart team => Sys2Proof.Machine.execFaultGroupStart team s
  | .lbrxRedirect agent => Sys2Proof.Machine.execLbrxRedirect agent s
  | .issueChoice die core part => Sys2Proof.Machine.execIssueChoice die core part s
  | .starvationPromotion agent lane => Sys2Proof.Machine.execStarvationPromotion agent lane s
  | .pauseEnd agent => Sys2Proof.Machine.execPauseEnd agent s
  | .dlyExpiry agent lane => Sys2Proof.Machine.execDlyExpiry agent lane s
  | .fixedLatencyWriteEffect agent => Sys2Proof.Machine.execFixedLatencyWriteEffect agent s
  | .wtokComplete agent => Sys2Proof.Machine.execWtokComplete agent s
  | .yieldReactivation agent => Sys2Proof.Machine.execYieldReactivation agent s
  | .queueBlockEnd agent => Sys2Proof.Machine.execQueueBlockEnd agent s
  | .scalarMemoryCompletion agent k => Sys2Proof.Machine.execScalarMemoryCompletion agent k s
  | .laneMemoryCompletion agent k => Sys2Proof.Machine.execLaneMemoryCompletion agent k s
  | .watchStepCompletion agent k => Sys2Proof.Machine.execWatchStepCompletion agent k s
  | .matrixStart die core => Sys2Proof.Machine.execMatrixStart die core s
  | .matrixCompletion die core => Sys2Proof.Machine.execMatrixCompletion die core s
  | .copyAccept agent => Sys2Proof.Machine.execCopyAccept agent s
  | .copyCompletion k => Sys2Proof.Machine.execCopyCompletion k s
  | .collectiveAccept agent => Sys2Proof.Machine.execCollectiveAccept agent s
  | .collectiveCompletion k => Sys2Proof.Machine.execCollectiveCompletion k s
  | .engineFaultDelivery agent => Sys2Proof.Machine.execEngineFaultDelivery agent s
  | .pageRequestPost k => Sys2Proof.Machine.execPageRequestPost k s
  | .pageRequestRecheck k => Sys2Proof.Machine.execPageRequestRecheck k s
  | .firstTouchPoolRetry agent => Sys2Proof.Machine.execFirstTouchPoolRetry agent s
  | .tcmpReached core => Sys2Proof.Machine.execTcmpReached core s
  | .interruptTrap core => Sys2Proof.Machine.execInterruptTrap core s
  | .singleStepTrap agent => Sys2Proof.Machine.execSingleStepTrap agent s
  | .teamPlacement launch die core => Sys2Proof.Machine.execTeamPlacement launch die core s
  | .teamReservation launch die core => Sys2Proof.Machine.execTeamReservation launch die core s
  | .preemption team => Sys2Proof.Machine.execPreemption team s
  | .teamRestore team die core => Sys2Proof.Machine.execTeamRestore team die core s
  | .regionSnapshot agent => Sys2Proof.Machine.execRegionSnapshot agent s
  | .teamExit team => Sys2Proof.Machine.execTeamExit team s
  | .teamKill team cause => Sys2Proof.Machine.execTeamKill team cause s
  | .killRequest ctx => Sys2Proof.Machine.execKillRequest ctx s
  | .budgetExhausted ctx => Sys2Proof.Machine.execBudgetExhausted ctx s
  | .periodStart ctx => Sys2Proof.Machine.execPeriodStart ctx s
  | .usedUpdate ctx => Sys2Proof.Machine.execUsedUpdate ctx s
  | .watchdogExpiry ctx => Sys2Proof.Machine.execWatchdogExpiry ctx s
  | .launchCompletion launch => Sys2Proof.Machine.execLaunchCompletion launch s
  | .launchRecordUpdate launch => Sys2Proof.Machine.execLaunchRecordUpdate launch s
  | .endNode walk => Sys2Proof.Machine.execEndNode walk s
  | .launchNode walk => Sys2Proof.Machine.execLaunchNode walk s
  | .copyNode walk => Sys2Proof.Machine.execCopyNode walk s
  | .loopNode walk => Sys2Proof.Machine.execLoopNode walk s
  | .conditionalNode walk => Sys2Proof.Machine.execConditionalNode walk s
  | .waitNode walk => Sys2Proof.Machine.execWaitNode walk s
  | .waitNodeRetest walk => Sys2Proof.Machine.execWaitNodeRetest walk s
  | .signalNode walk => Sys2Proof.Machine.execSignalNode walk s
  | .deviceTimeTick => Sys2Proof.Machine.execDeviceTimeTick s
  | .timeCopyCheck agent => Sys2Proof.Machine.execTimeCopyCheck agent s
  | .leaseExpiry die core line => Sys2Proof.Machine.execLeaseExpiry die core line s
  | .dirtyWriteBack die core line => Sys2Proof.Machine.execDirtyWriteBack die core line s
  | .writePerform agent k => Sys2Proof.Machine.execWritePerform agent k s
  | .forcedPublish die core line => Sys2Proof.Machine.execForcedPublish die core line s
  | .clockStop die core => Sys2Proof.Machine.execClockStop die core s
  | .gets k => Sys2Proof.Machine.execGets k s
  | .getsub k => Sys2Proof.Machine.execGetsub k s
  | .getx k => Sys2Proof.Machine.execGetx k s
  | .wrh k => Sys2Proof.Machine.execWrh k s
  | .putx k => Sys2Proof.Machine.execPutx k s
  | .inv k => Sys2Proof.Machine.execInv k s
  | .fwds k => Sys2Proof.Machine.execFwds k s
  | .fwdx k => Sys2Proof.Machine.execFwdx k s
  | .upd k => Sys2Proof.Machine.execUpd k s
  | .ack k => Sys2Proof.Machine.execAck k s
  | .data k => Sys2Proof.Machine.execData k s
  | .wback k => Sys2Proof.Machine.execWback k s
  | .rdcEviction die line => Sys2Proof.Machine.execRdcEviction die line s
  | .sweepPassBegin => Sys2Proof.Machine.execSweepPassBegin s
  | .sweepPassComplete => Sys2Proof.Machine.execSweepPassComplete s
  | .peerAccessRequest req => Sys2Proof.Machine.execPeerAccessRequest req s
  | .exportReturn agent k => Sys2Proof.Machine.execExportReturn agent k s
  | .linkTraining n peer => Sys2Proof.Machine.execLinkTraining n peer s
  | .flitReplay n => Sys2Proof.Machine.execFlitReplay n s
  | .linkSpareLane n => Sys2Proof.Machine.execLinkSpareLane n s
  | .linkFailure n => Sys2Proof.Machine.execLinkFailure n s
  | .msixWrite port entry => Sys2Proof.Machine.execMsixWrite port entry s
  | .portTransferComplete port => Sys2Proof.Machine.execPortTransferComplete port s
  | .packageReset => Sys2Proof.Machine.execPackageReset s
  | .partitionReset p => Sys2Proof.Machine.execPartitionReset p s
  | .powerManagerStep watts => Sys2Proof.Machine.execPowerManagerStep watts s
  | .leakageUpdate die leak => Sys2Proof.Machine.execLeakageUpdate die leak s
  | .powerAlertAssert => Sys2Proof.Machine.execPowerAlertAssert s
  | .powerAlertRelease => Sys2Proof.Machine.execPowerAlertRelease s
  | .spareExchange die unit => Sys2Proof.Machine.execSpareExchange die unit s
  | .bootok => Sys2Proof.Machine.execBootok s
  | .stage => Sys2Proof.Machine.execStage s
  | .logrd => Sys2Proof.Machine.execLogrd s
  | .fuse => Sys2Proof.Machine.execFuse s
  | .mailboxCommandEnd => Sys2Proof.Machine.execMailboxCommandEnd s
  | .getMeasurements nonce => Sys2Proof.Machine.execGetMeasurements nonce s
  | .keyLoad => Sys2Proof.Machine.execKeyLoad s
  | .stop part pid => Sys2Proof.Machine.execStop part pid s
  | .traceSample part => Sys2Proof.Machine.execTraceSample part s
  | .laneFocus agent v => Sys2Proof.Machine.execLaneFocus agent v s
  | .laneFocusRelease agent v => Sys2Proof.Machine.execLaneFocusRelease agent v s
  | .crashDump p => Sys2Proof.Machine.execCrashDump p s
  | .acctArm core v => Sys2Proof.Machine.execAcctArm core v s
  | .partcfgWrite v => Sys2Proof.Machine.execPartcfgWrite v s
  | .linkpartWrite v => Sys2Proof.Machine.execLinkpartWrite v s
  | .coherenceControlWrite die v => Sys2Proof.Machine.execCoherenceControlWrite die v s
  | .exppaWrite v => Sys2Proof.Machine.execExppaWrite v s
  | .revocationRegisterWrite which v => Sys2Proof.Machine.execRevocationRegisterWrite which v s
  | .registerWrite off v => Sys2Proof.Machine.execRegisterWrite off v s
  | .portMemoryAccess port va size data write => Sys2Proof.Machine.execPortMemoryAccess port va size data write s
  | .powerLoss => Sys2Proof.Machine.execPowerLoss s
  | .linkPeerLoss n => Sys2Proof.Machine.execLinkPeerLoss n s

end Sys2Proof.Machine
end

