-- ==== Sys2Proof/Machine/Run.lean ====
section
/-!
DEFINITION. What stands around `exec` in a step: the slot that comes next, the issue of a scalar instruction, of a lane
instruction or a pair, and what an issue leaves (03 R69 to R71, 19 R366, 21 R396, 24 R428, 26 R465).
-/

namespace Sys2Proof.Machine

/-! ### The next slot -/

/-- The step that brings operation `o` of agent `a` nearer to its completion. -/
noncomputable def State.advanceOp (s : State) (a : Agent) (o : Op) : Instr :=
  match o.kind with
  | .watch .. => .watchStepCompletion a.id o.num
  | .matrix _ =>
    if (s.array a.die a.core).queue.head?.any fun m => m.started then .matrixCompletion a.die a.core
    else .matrixStart a.die a.core
  | .page .. => .deviceTimeTick
  | _ => if o.lane then .laneMemoryCompletion a.id o.num else .scalarMemoryCompletion a.id o.num

/-- The agent issues next: something is due on it, it leaves `wfi`, or it has the slot of one of its streams. -/
def State.wakeful (s : State) (a : Agent) : Bool :=
  a.due != .nothing || (a.wait == .wfi && a.ipend != 0)
    || (s.candidate true a && s.hasTurn true a) || (s.candidate false a && s.hasTurn false a)

/-- The step that ends an agent's wait, if it has one (R56). -/
noncomputable def Agent.waitEvent (a : Agent) : Option Instr :=
  match a.wait with
  | .yield _ _ _ => some (.yieldReactivation a.id)
  | .bar _ _ | .barHeld _ _ _ | .drain _ _ _ => some (.wtokComplete a.id)
  | _ => none

/-- The step the device takes when the schedule says nothing (log 5): the agent in focus issues, or another that has the
slot comes into focus; when no slot is open, the clk ends, a wait ends, an operation goes on, or device time passes, by
turns. -/
noncomputable def State.idleSlot (s : State) : Slot :=
  if s.wakeful s.ag then .issue (s.ag.due == .nothing && s.candidate true s.ag && s.hasTurn true s.ag)
  else match s.rest.find? s.wakeful with
    | some a => .focus a.id
    | none =>
      let n := s.fresh / 4
      let turn := fun (xs : List Instr) => .event (xs.getD (n % (xs.length + 1)) .deviceTimeTick)
      if s.fresh % 4 = 0 then .clk
      else if s.fresh % 4 = 1 then turn (s.agents.filterMap Agent.waitEvent)
      else if s.fresh % 4 = 2 then turn (s.agents.flatMap fun a => a.outst.map (s.advanceOp a))
      else .event .deviceTimeTick

/-- The next slot, and the schedule after it. -/
noncomputable def State.nextSlot (s : State) : Slot × List Slot :=
  match s.schedule with
  | x :: rest => (x, rest)
  | [] => (s.idleSlot, [])

/-! ### Before and after an issue -/

/-- What is due before any issue of the agent in focus: results whose time has come, the tags a sweep has revoked, a
region it has left. -/
def State.beginIssue (s : State) : State := ({ s with ag := s.ag.commit s.clk }).sweepFocus.leaveRegion

/-- An instruction of a stream issues: the stream stalls no more at a first touch, and the scalar stream is past a `pause`
before it. -/
def Agent.starting (a : Agent) (lane : Bool) : Agent := { a with touching := none, pausing := a.pausing && lane }

def State.starting (s : State) (lane : Bool) : State := { s with ag := s.ag.starting lane }

/-- The scalar instruction has issued: it is complete, traps, or waits. It has not when it stalls. -/
def hasIssued (before after : State) : Bool := after.issues != before.issues || after.ag.wait != .none

/-- After a scalar instruction: a stall is noted; an issue ends a step (R366) and the readiness of a region entry
(R396). -/
def State.afterScalar (before after : State) : State :=
  if hasIssued before after then
    { after with ag := { after.ag with
      stalled := false
      snapReady := after.ag.snapReady && after.ag.hnd && !before.ag.hnd
      stepping := if before.ag.stepping = .scalar && after.ag.stepping = .scalar then .due false before.ag.nextOp
        else after.ag.stepping } }
  else { after with ag := { after.ag with stalled := true, pausing := before.ag.pausing } }

/-- The partition issues a lane instruction of the agent in focus: every other group there loses its latches (R71). -/
def State.claimPartition (s : State) : State :=
  let a := s.ag
  { s with rest := s.rest.map fun b =>
    if !b.isSys && b.die == a.die && b.core == a.core && b.part == a.part then b.loseLatches else b }

/-- After a lane instruction: when it has issued, the partition is its group's; a step ends (R366). -/
def State.afterLane (before after : State) : State :=
  let moved := before.ag.replays.isEmpty && after.ag.blocks != before.ag.blocks
  let s1 := if after.issues = before.issues then after else after.claimPartition
  { s1 with ag := { s1.ag with
    stepping := if moved && before.ag.stepping = .lane && s1.ag.stepping = .lane then .due true before.ag.nextOp
      else s1.ag.stepping } }

/-- Lifts what follows an instruction to its outcome. -/
def andThen (o : Out) (f : State → State) : Out :=
  match o with
  | .next s => .next (f s)
  | .fault e => .fault e
  | .refused e => .refused e

/-! ### The scalar stream -/

/-- Fetches, decodes and runs the next scalar instruction, when the agent has the scalar slot. One that cannot issue yet
begins its wait, or stalls, without it. -/
def State.runScalar (s : State) : Out :=
  match s.nextScalar with
  | (s1, none) => .next (if s.hasTurn false s.ag then s.afterScalar (s1.take false) else s)
  | (s1, some i) =>
    if s1.scalarStalls i then andThen (exec i (s1.starting false)) s1.afterScalar
    else if s.hasTurn false s.ag then andThen (exec i ((s1.take false).starting false)) s1.afterScalar
    else .next s

/-- The scalar issue slot of the agent in focus: what is due, the end of `wfi`, a waiting instruction that can issue now,
the release of lane focus before a scalar step, or the next instruction. -/
def State.issueScalar (s : State) : Out :=
  let s1 := s.beginIssue
  if s1.ag.due ≠ .nothing then .next (s1.takeDue s1.ag.due)
  else if s1.ag.wait = .wfi && s1.ag.ipend ≠ 0 then .next (({ s1 with ag := s1.ag.waitOver }).advance 4)
  else if s1.ag.mayGoOn then .next (if s1.hasTurn false s1.ag then (s1.take false).goOn else s1)
  else if !s1.scalarReady s1.ag || s1.needsSnapshot then .next s1
  else if !s1.ag.focusStack.isEmpty && !s1.ag.hnd then .next { s1 with ag := s1.ag.releaseFocus }
  else s1.runScalar

/-! ### The lane stream -/

/-- A step under lane focus, or a replay, sees every earlier result in full (R465). -/
def State.coverFocus (s : State) : State :=
  if s.ag.focusStack.isEmpty && s.ag.replays.isEmpty then s
  else { s with ag := { s.ag.settle with gov := [] } }

/-- The next instruction is the last of the head block. -/
def Agent.atBlockEnd (a : Agent) : Bool := a.blocks.head?.all fun b => b.count ≤ b.idx + 1

/-- Lane focus is released before the instruction `i` (R465). -/
def Agent.mustRelease (a : Agent) (i : Instr) : Bool :=
  !a.focusStack.isEmpty && a.replays.isEmpty && (Instr.endsFocus i || a.atBlockEnd)

/-- Issues a lane instruction alone, or with its mate in one slot (R69): the second follows when the first has left its
latch for it. -/
def State.execPair (s : State) (i : Instr) (mate : Option Instr) : Out :=
  match mate with
  | none => exec i s
  | some j =>
    match exec i { s with ag := { s.ag with pairing := .first } } with
    | .next s1 =>
      if s1.ag.pairing = .first then exec j { s1 with ag := { s1.ag with pairing := .second s.ag.nextOp } } else .next s1
    | o => o

/-- Fetches, decodes and runs the next lane instruction. -/
noncomputable def State.runLane (s : State) : Out :=
  match s.nextLaneBits with
  | (s1, none) => .next s1
  | (s1, some w) =>
    match decodeLane w with
    | .error _ => s1.laneTrap 0x01 0 (s1.rawActive w) 0
    | .ok i =>
      if s1.ag.mustRelease i then .next { s1 with ag := s1.ag.releaseFocus }
      else andThen (s1.execPair i (s1.mateOf (boolOf (RawLane.unpack w).pr) i)) s1.afterLane

/-- The lane issue slot of the agent in focus. -/
noncomputable def State.issueLane (s : State) : Out :=
  let s1 := s.beginIssue
  if s1.ag.due ≠ .nothing then .next (s1.takeDue s1.ag.due)
  else if !s1.laneReady s1.ag || !s1.hasTurn true s1.ag then .next s1
  else ((s1.take true).starting true).coverFocus.runLane

/-! ### Slots -/

/-- A row that is a step of the device, not an instruction of a stream. -/
def Instr.isEvent (i : Instr) : Bool := (encode i).isNone

/-- The fetch of the next instruction of a stream misses its cache, or has its line again (R398). -/
def Agent.setMiss (a : Agent) (lane miss : Bool) : Agent :=
  if lane then { a with missLane := miss } else { a with missScalar := miss }

/-- What a slot does. -/
noncomputable def State.runSlot (s : State) (x : Slot) : Out :=
  match x with
  | .issue lane => if lane then s.issueLane else s.issueScalar
  | .event i => if Instr.isEvent i then exec i s else .next s
  | .focus a => .next (s.focusOn a)
  | .clk => .next (if s.clkOver then s.nextClk else s)
  | .copy k row part => .next (s.copyUnit k row part)
  | .drift key ns => .next (s.driftCopy key ns)
  | .fetch a lane miss => .next (s.updAgent a fun a => a.setMiss lane miss)

end Sys2Proof.Machine
end

