-- ==== Sys2Proof/Machine/Step.lean ====
section
/-!
DEFINITION. The step of the machine, and the placing of one instruction where the next step fetches.
-/

namespace Sys2Proof.Machine

/-- One step: the next slot of the schedule. Free values are drawn anew in each. A module without supply does nothing
until a package reset (27 R443). -/
noncomputable def step (s : State) : Host.Outcome State Fault Refusal :=
  let x := s.nextSlot
  if !s.powered && x.1 ≠ .event .packageReset then .fault .powerLost
  else ({ s with schedule := x.2, fresh := s.fresh + 1 }).runSlot x.1

/-- The bytes of an instruction at a physical address, as the fetch of the agent in focus reads them. -/
def State.placeCode (s : State) (pa n w : Nat) : State :=
  { s with mem := writeNat s.mem pa n w }

/-- The group whose lane stream runs a lane instruction that is placed from outside (log 4): one block of one
instruction at the boot address, in the identity space, with every register of the file in its budget. -/
def State.laneHost (s : State) : State :=
  let b : Block := ⟨Cap.memoryRoot Config.bootEntry, Config.bootEntry, 1, 0, none, 0⟩
  if s.ag.isSys then
    { s with
      ag := { Agent.blank s.nextAgent .placed with
        die := 0
        budget := 1024
        pcc := Cap.memoryRoot Config.bootEntry
        blocks := [b] }
      rest := s.ag :: s.rest
      nextAgent := s.nextAgent + 1 }
  else
    { s with
      ag := { s.ag with blocks := [b] }
      filled := [] }

/-- The state in which the next step fetches and runs the instruction with bits `w`, numbered as the opcode table
numbers them: a scalar word at the PC of the agent in focus, a lane instruction in the lane stream of a group. -/
def State.withFetchWord (s : State) (nbits w : Nat) : State :=
  if nbits ≤ 32 then
    match s.xlateMine { s.ag.pcc.want false with fetch := true } s.ag.pc with
    | .ok pa _ _ _ => { s.placeCode pa 4 w with schedule := .issue false :: s.schedule }
    | _ => s
  else { s.laneHost.placeCode Config.bootEntry 12 w with schedule := .issue true :: s.schedule }

end Sys2Proof.Machine
end

