-- ==== Sys2Proof/Certificates/Slice0/Terms.lean ====
section
/-!
DEFINITION. The terms in which the statements speak: when a scalar instruction may issue, what it leaves unchanged,
what "its result is there" and "its result is in flight" mean; and, per family, what the manual says each instruction
reads and writes.
-/

namespace Sys2Proof.Claims

open Machine

/-! ### Issue -/

/-- A scalar instruction that reads these places issues now: on a system core no operation under way has still to write
one of them (01 R22); in hazard-check mode every one of them is settled (03 R77). -/
def Ready (s : State) (reads : List Loc) : Prop :=
  (s.ag.isSys = true → ∀ l ∈ reads, s.ag.awaited l = false)
    ∧ (s.ag.isSys = false → s.ag.hchk = true → ∀ l ∈ reads, s.ag.unsettled l = false)

/-- The device, every other agent and all of memory are as before: only the agent in focus and the count of issued
instructions may differ. -/
def OnlyFocus (s t : State) : Prop :=
  t = { s with ag := t.ag, issues := t.issues } ∧ ∀ a, readByte t.mem a = readByte s.mem a

/-- The agents differ at most in the PC, the integer registers with their tags, the masks, and the book-keeping of
results under way: special registers, tokens, queues, traps, vector registers, predicates, flags are the same. -/
def SameBut (a b : Agent) : Prop :=
  b = { a with
    pcc := b.pcc
    sregs := b.sregs
    ctags := b.ctags
    em := b.em
    lm := b.lm
    outst := b.outst
    gov := b.gov
    pend := b.pend
    nextOp := b.nextOp }

/-- The PC stands `n` bytes further (08 R163). -/
def pccPlus (a : Agent) (n : Nat) : Cap := a.pcc.withAddr ((a.pc + n) % 2 ^ 64)

/-- The instruction has issued: the scalar stream stands at `c`, the results due in the next clk have taken effect, the
writes `ws` are there for the next instruction (03 R65), a write of s0 to s3 or c0 is discarded (03 R58), and nothing else has changed. A word written
clears the tag of its quad (03 R58). -/
def Retired (s t : State) (c : Cap) (ws : List (Loc × Word)) : Prop :=
  OnlyFocus s t ∧ t.issues = s.issues + 1 ∧ SameBut s.tick.ag t.ag ∧ t.ag.pcc = c
    ∧ (∀ l, l ∉ ws.flatMap (fun w => w.1.touched) → t.ag.raw l = s.tick.ag.raw l)
    ∧ ∀ w ∈ ws, t.ag.raw w.1 = if w.1.fixed then s.tick.ag.raw w.1 else w.2

/-- The instruction has issued: the PC stands 4 bytes further, the results due in the next clk have taken effect, the
writes `ws` are in flight and take effect `lat` clk after the issue (03 R66), and nothing else has changed. -/
def InFlight (s t : State) (lat : Nat) (ws : List (Loc × Word)) : Prop :=
  OnlyFocus s t ∧ t.issues = s.issues + 1
    ∧ t.ag = { s.tick.ag with
        pcc := pccPlus s.ag 4
        pend := s.tick.ag.pend ++ ws.map fun w => ⟨s.clk + lat, s.ag.nextOp, w.1, w.2⟩
        nextOp := s.ag.nextOp + 1 }

/-- The result of a scalar instruction of latency `lat`: there for the next instruction on a system core, which
interlocks (01 R22), and at latency 1; otherwise in flight (03 R65). -/
def Result (s t : State) (lat : Nat) (ws : List (Loc × Word)) : Prop :=
  if s.ag.isSys = true ∨ lat = 1 then Retired s t (pccPlus s.ag 4) ws else InFlight s t lat ws

/-- A scalar instruction as the manual gives it: what it reads, its latency, what it writes. -/
structure Plain where
  reads : List Loc
  lat : Nat
  writes : List (Loc × Word)

/-! ### Integer arithmetic and logic (08 R165 to R170) -/

/-- A form with two register operands. -/
def twoRegs (s : State) (lat d a b : Nat) (f : Word → Word → Word) : Plain :=
  ⟨[.s a, .s b], lat, [(.s d, f (s.rs a) (s.rs b))]⟩

/-- A form with one register operand. -/
def oneReg (s : State) (lat d a : Nat) (f : Word → Word) : Plain := ⟨[.s a], lat, [(.s d, f (s.rs a))]⟩

/-- The integer instructions on 32-bit registers (08 R165, R166). -/
inductive Alu (s : State) : Instr → Plain → Prop
  | add (d a b : Nat) : Alu s (.add d a b) (twoRegs s 1 d a b fun x y => x + y)
  | sub (d a b : Nat) : Alu s (.sub d a b) (twoRegs s 1 d a b fun x y => x - y)
  | and (d a b : Nat) : Alu s (.and d a b) (twoRegs s 1 d a b fun x y => x &&& y)
  | or (d a b : Nat) : Alu s (.or d a b) (twoRegs s 1 d a b fun x y => x ||| y)
  | xor (d a b : Nat) : Alu s (.xor d a b) (twoRegs s 1 d a b fun x y => x ^^^ y)
  | andn (d a b : Nat) : Alu s (.andn d a b) (twoRegs s 1 d a b fun x y => x &&& ~~~y)
  | shl (d a b : Nat) : Alu s (.shl d a b) (twoRegs s 1 d a b fun x y => x <<< (y.toNat % 32))
  | shr (d a b : Nat) : Alu s (.shr d a b) (twoRegs s 1 d a b fun x y => x >>> (y.toNat % 32))
  | sra (d a b : Nat) : Alu s (.sra d a b) (twoRegs s 1 d a b fun x y => x.sshiftRight (y.toNat % 32))
  | rol (d a b : Nat) : Alu s (.rol d a b) (twoRegs s 1 d a b fun x y => x.rotateLeft (y.toNat % 32))
  | slt (d a b : Nat) : Alu s (.slt d a b) (twoRegs s 1 d a b fun x y => if x.toInt < y.toInt then 1 else 0)
  | sltu (d a b : Nat) : Alu s (.sltu d a b) (twoRegs s 1 d a b fun x y => if x.toNat < y.toNat then 1 else 0)
  | min (d a b : Nat) : Alu s (.min d a b) (twoRegs s 1 d a b fun x y => if x.toInt < y.toInt then x else y)
  | max (d a b : Nat) : Alu s (.max d a b) (twoRegs s 1 d a b fun x y => if x.toInt < y.toInt then y else x)
  | minu (d a b : Nat) : Alu s (.minu d a b) (twoRegs s 1 d a b fun x y => if x.toNat < y.toNat then x else y)
  | maxu (d a b : Nat) : Alu s (.maxu d a b) (twoRegs s 1 d a b fun x y => if x.toNat < y.toNat then y else x)
  | mul (d a b : Nat) : Alu s (.mul d a b) (twoRegs s 3 d a b fun x y => x * y)
  | mulh (d a b : Nat) : Alu s (.mulh d a b)
    (twoRegs s 3 d a b fun x y => BitVec.ofInt 32 (x.toInt * y.toInt / 2 ^ 32))
  | mulhu (d a b : Nat) : Alu s (.mulhu d a b)
    (twoRegs s 3 d a b fun x y => BitVec.ofNat 32 (x.toNat * y.toNat / 2 ^ 32))
  | div (d a b : Nat) : Alu s (.div d a b)
    (twoRegs s 20 d a b fun x y => if y = 0 then 0xFFFFFFFF else BitVec.ofInt 32 (x.toInt.tdiv y.toInt))
  | divu (d a b : Nat) : Alu s (.divu d a b)
    (twoRegs s 20 d a b fun x y => if y = 0 then 0xFFFFFFFF else BitVec.ofNat 32 (x.toNat / y.toNat))
  | rem (d a b : Nat) : Alu s (.rem d a b)
    (twoRegs s 20 d a b fun x y => if y = 0 then x else BitVec.ofInt 32 (x.toInt.tmod y.toInt))
  | remu (d a b : Nat) : Alu s (.remu d a b)
    (twoRegs s 20 d a b fun x y => if y = 0 then x else BitVec.ofNat 32 (x.toNat % y.toNat))

/-- The bit operations and the forms with an immediate (08 R168 to R170). -/
inductive AluImm (s : State) : Instr → Plain → Prop
  | popc (d a : Nat) : AluImm s (.popc d a) (oneReg s 1 d a fun x => BitVec.ofNat 32 (popCount x))
  | clz (d a : Nat) : AluImm s (.clz d a) (oneReg s 1 d a fun x => BitVec.ofNat 32 (leadZeros x))
  | ctz (d a : Nat) : AluImm s (.ctz d a) (oneReg s 1 d a fun x => BitVec.ofNat 32 (trailZeros x))
  | brev (d a : Nat) : AluImm s (.brev d a) (oneReg s 1 d a bitReverse)
  | bfe (d a b : Nat) : AluImm s (.bfe d a b)
    (twoRegs s 1 d a b fun x y => extractS x (fieldPos 32 y.toNat) (fieldLen 32 y.toNat))
  | bfeu (d a b : Nat) : AluImm s (.bfeu d a b)
    (twoRegs s 1 d a b fun x y => extractU x (fieldPos 32 y.toNat) (fieldLen 32 y.toNat))
  | bfi (d a b : Nat) : AluImm s (.bfi d a b)
    ⟨[.s a, .s b, .s d], 1,
      if fieldLen 32 (s.rs b).toNat = 0 then []
      else [(.s d, insertField (s.rs d) (s.rs a) (fieldPos 32 (s.rs b).toNat) (fieldLen 32 (s.rs b).toNat))]⟩
  | addi (d a : Nat) (i : Int) : AluImm s (.addi d a i) (oneReg s 1 d a fun x => x + BitVec.ofInt 32 i)
  | andi (d a : Nat) (i : Int) : AluImm s (.andi d a i) (oneReg s 1 d a fun x => x &&& BitVec.ofInt 32 i)
  | ori (d a : Nat) (i : Int) : AluImm s (.ori d a i) (oneReg s 1 d a fun x => x ||| BitVec.ofInt 32 i)
  | xori (d a : Nat) (i : Int) : AluImm s (.xori d a i) (oneReg s 1 d a fun x => x ^^^ BitVec.ofInt 32 i)
  | slti (d a : Nat) (i : Int) : AluImm s (.slti d a i) (oneReg s 1 d a fun x => if x.toInt < i then 1 else 0)
  | sltui (d a : Nat) (i : Int) : AluImm s (.sltui d a i)
    (oneReg s 1 d a fun x => if x.toNat < (BitVec.ofInt 32 i).toNat then 1 else 0)
  | shli (d a n : Nat) : AluImm s (.shli d a n) (oneReg s 1 d a fun x => x <<< n)
  | shri (d a n : Nat) : AluImm s (.shri d a n) (oneReg s 1 d a fun x => x >>> n)
  | srai (d a n : Nat) : AluImm s (.srai d a n) (oneReg s 1 d a fun x => x.sshiftRight n)
  | roli (d a n : Nat) : AluImm s (.roli d a n) (oneReg s 1 d a fun x => x.rotateLeft n)
  | muli (d a : Nat) (i : Int) : AluImm s (.muli d a i) (oneReg s 3 d a fun x => x * BitVec.ofInt 32 i)
  | li (d : Nat) (i : Int) : AluImm s (.li d i) ⟨[], 1, [(.s d, BitVec.ofInt 32 i)]⟩
  | lih (d i : Nat) : AluImm s (.lih d i) ⟨[.s d], 1, [(.s d, BitVec.ofNat 32 (i * 2 ^ 14 + (s.rs d).toNat % 2 ^ 14))]⟩

/-- A form on even pairs of registers: low word in the even register (08 R167). -/
def twoPairs (s : State) (lat d a b : Nat) (f : DWord → DWord → DWord) : Plain :=
  ⟨[.s a, .s (a + 1), .s b, .s (b + 1)], lat,
    [(.s d, (f (s.rp a) (s.rp b)).extractLsb' 0 32), (.s (d + 1), (f (s.rp a) (s.rp b)).extractLsb' 32 32)]⟩

/-- The instructions on pairs (08 R167). -/
inductive Alu64 (s : State) : Instr → Plain → Prop
  | addI64 (d a b : Nat) : Alu64 s (.addI64 d a b) (twoPairs s 1 d a b fun x y => x + y)
  | subI64 (d a b : Nat) : Alu64 s (.subI64 d a b) (twoPairs s 1 d a b fun x y => x - y)
  | shlI64 (d a b : Nat) : Alu64 s (.shlI64 d a b) (twoPairs s 1 d a b fun x y => x <<< (y.toNat % 64))
  | shrI64 (d a b : Nat) : Alu64 s (.shrI64 d a b) (twoPairs s 1 d a b fun x y => x >>> (y.toNat % 64))
  | sraI64 (d a b : Nat) : Alu64 s (.sraI64 d a b) (twoPairs s 1 d a b fun x y => x.sshiftRight (y.toNat % 64))
  | mulI64 (d a b : Nat) : Alu64 s (.mulI64 d a b) (twoPairs s 3 d a b fun x y => x * y)
  | sltI64 (d a b : Nat) : Alu64 s (.sltI64 d a b) (twoPairs s 1 d a b fun x y => if x.toInt < y.toInt then 1 else 0)
  | sltuI64 (d a b : Nat) : Alu64 s (.sltuI64 d a b)
    (twoPairs s 1 d a b fun x y => if x.toNat < y.toNat then 1 else 0)

/-! ### Capabilities (08 R174) -/

/-- The words of a 64-bit number in the pair at `d`. -/
def pairOfNat (d v : Nat) : List (Loc × Word) :=
  [(.s d, (BitVec.ofNat 64 v).extractLsb' 0 32), (.s (d + 1), (BitVec.ofNat 64 v).extractLsb' 32 32)]

/-- The reads of a capability's fields, the copy, and the containment test. -/
inductive CapRead (s : State) : Instr → Plain → Prop
  | cmov (p q : Nat) : CapRead s (.cmov p q) ⟨capLocs p, 1, capWrites q (s.rc p)⟩
  | cgetaddr (w p : Nat) : CapRead s (.cgetaddr w p) ⟨capLocs p, 1, pairOfNat w (s.rc p).addr⟩
  | cgetbase (w p : Nat) : CapRead s (.cgetbase w p) ⟨capLocs p, 1, pairOfNat w (s.rc p).base⟩
  | cgettop (w p : Nat) : CapRead s (.cgettop w p) ⟨capLocs p, 1, pairOfNat w (min (s.rc p).top (2 ^ 64 - 1))⟩
  | cgetlen (w p : Nat) : CapRead s (.cgetlen w p)
    ⟨capLocs p, 1, pairOfNat w (min (((s.rc p).top : Int) - (s.rc p).base) (2 ^ 64 - 1) % 2 ^ 64).toNat⟩
  | cgetperm (w p : Nat) : CapRead s (.cgetperm w p) ⟨capLocs p, 1, [(.s w, BitVec.ofNat 32 (s.rc p).permField)]⟩
  | cgetseal (w p : Nat) : CapRead s (.cgetseal w p) ⟨capLocs p, 1, [(.s w, BitVec.ofNat 32 (s.rc p).sealType)]⟩
  | cgetowner (w p : Nat) : CapRead s (.cgetowner w p) ⟨capLocs p, 1, [(.s w, BitVec.ofNat 32 (s.rc p).owner)]⟩
  | cgettag (w p : Nat) : CapRead s (.cgettag w p) ⟨capLocs p, 1, [(.s w, if (s.rc p).tag then 1 else 0)]⟩
  | cwithin (w p q : Nat) : CapRead s (.cwithin w p q)
    ⟨capLocs p ++ capLocs q, 1, [(.s w, if (s.rc p).within (s.rc q) then 1 else 0)]⟩

/-- A derivation: what it reads, the capability register it writes, its source, its outcome. -/
structure Derived where
  reads : List Loc
  dest : Nat
  src : Cap
  out : Except Nat Cap

/-- The instructions that derive a capability from another (04 R85, R86, R91, R96; 08 R174). -/
inductive Derive (s : State) : Instr → Derived → Prop
  | csetaddr (w p q : Nat) : Derive s (.csetaddr w p q)
    ⟨capLocs p ++ [.s w, .s (w + 1)], q, s.rc p, (s.rc p).moveTo (s.rp w).toNat⟩
  | cinc (w p q : Nat) : Derive s (.cinc w p q)
    ⟨capLocs p ++ [.s w, .s (w + 1)], q, s.rc p, (s.rc p).increment ((s.rp w).toNat : Int)⟩
  | cinci (d a : Nat) (i : Int) : Derive s (.cinci d a i) ⟨capLocs a, d, s.rc a, (s.rc a).increment i⟩
  | csetbnd (w p q : Nat) : Derive s (.csetbnd w p q)
    ⟨capLocs p ++ [.s w, .s (w + 1)], q, s.rc p, (s.rc p).setBounds (s.rp w).toNat false⟩
  | csetbndx (w p q : Nat) : Derive s (.csetbndx w p q)
    ⟨capLocs p ++ [.s w, .s (w + 1)], q, s.rc p, (s.rc p).setBounds (s.rp w).toNat true⟩
  | cnarrow (w p q : Nat) : Derive s (.cnarrow w p q) ⟨capLocs p ++ [.s w], q, s.rc p, (s.rc p).narrow (s.rs w).toNat⟩
  | cwrap (w p q : Nat) : Derive s (.cwrap w p q) ⟨capLocs p ++ capLocs w, q, s.rc p, (s.rc p).wrap (s.rc w)⟩
  | cunwrap (w p q : Nat) : Derive s (.cunwrap w p q) ⟨capLocs p ++ capLocs w, q, s.rc p, (s.rc p).unwrap (s.rc w)⟩

/-! ### Flow (08 R171 to R173) -/

/-- A control transfer: what it reads, where the stream goes on, what it writes. -/
structure Flow where
  reads : List Loc
  pcc : Cap
  writes : List (Loc × Word)

/-- The link of the jump-and-link forms: the address of the next instruction, as a sentry, in c1 (08 R171, 04 R97). -/
def linkCap (a : Agent) : Cap := { (pccPlus a 4).withSeal 9 with tag := true }

/-- The target of a branch: `off` instructions from the PC, exactly (00 R11, 08 R171). -/
def target (a : Agent) (off : Int) : Int := (a.pc : Int) + 4 * off

/-- A branch target that lies in pcc. -/
def inPcc (a : Agent) (off : Int) : Prop := (a.pcc.base : Int) ≤ target a off ∧ target a off + 4 ≤ a.pcc.top

/-- The test of a branch on the signed value of its register (07 R147). -/
def holds (c : Cond) (x : Int) : Prop :=
  match c with
  | .eq => x = 0
  | .ne => x ≠ 0
  | .lt => x < 0
  | .ge => 0 ≤ x
  | .gt => 0 < x
  | .le => x ≤ 0
  | .al => True

/-- What the scalar stream does at a control transfer that completes: a branch that is not taken falls through, a
taken one goes to a target within pcc, a capability jump to a target that passes the checks of R172. -/
inductive Transfers (s : State) : Instr → Flow → Prop
  | falls (c : Cond) (a : Nat) (off : Int) (h : ¬ holds c (s.rs a).toInt) :
    Transfers s (.bcCond c a off) ⟨[.s a], pccPlus s.ag 4, []⟩
  | taken (c : Cond) (a : Nat) (off : Int) (h : holds c (s.rs a).toInt) (hp : inPcc s.ag off) :
    Transfers s (.bcCond c a off) ⟨[.s a], s.ag.pcc.withAddr (target s.ag off).toNat, []⟩
  | jal (off : Int) (hp : inPcc s.ag off) :
    Transfers s (.jal off) ⟨[], s.ag.pcc.withAddr (target s.ag off).toNat, capWrites 1 (linkCap s.ag)⟩
  | land (nw : Nat) : Transfers s (.land nw) ⟨[], pccPlus s.ag (4 + 4 * nw), []⟩
  | cj (p : Nat) (h : (s.rc p).checkJump = none) : Transfers s (.cj p) ⟨capLocs p, (s.rc p).withSeal 0, []⟩
  | cjal (p : Nat) (h : (s.rc p).checkJump = none) :
    Transfers s (.cjal p) ⟨capLocs p, (s.rc p).withSeal 0, capWrites 1 (linkCap s.ag)⟩

end Sys2Proof.Claims
end

