-- ==== Sys2Proof/Certificates/Slice0/ScalarTerms.lean ====
section
/-!
DEFINITION. The terms of the statements about scalar memory, synchronisation and the privileged instructions: what
each reads, what it asks of memory, the state it leaves.
-/

namespace Sys2Proof.Claims

open Machine

/-! ### Memory (08 R175 to R178) -/

/-- What a scalar memory instruction asks for: the registers it reads, KIND, bytes, whether it writes, the access, its
order, scope and token, the operation that is then outstanding, the places it will write. -/
structure Access where
  reads : List Loc
  kind : Nat
  size : Nat
  write : Bool
  req : Req
  ord : Ord
  scope : Scope
  tk : Option Nat
  op : List Acc → OpKind
  dests : List Loc

/-- The register or the even pair that holds a value of a type. -/
def regsOf (d : Nat) (ty : Ty) : List Loc := if ty.isPair then [.s d, .s (d + 1)] else [.s d]

/-- The value there: the low word in the even register. -/
def valueOf (s : State) (d : Nat) (ty : Ty) : Nat := if ty.isPair then (s.rp d).toNat else (s.rs d).toNat

/-- A load of `ty` at `off` bytes from the cursor of c[a] needs LD. -/
def loadOf (s : State) (ty : Ty) (d a : Nat) (off : Int) (ord : Ord) (scope : Scope) (tk : Option Nat) : Access :=
  ⟨capLocs a, 0, ty.bits / 8, false, ⟨0, s.rc a, (s.rc a).addr + off, [permLD], 0, 0, false⟩, ord, scope, tk,
    fun x => .mem .load ty (.sreg d) x false, regsOf d ty⟩

/-- A store of `ty` needs ST and takes its data at issue. -/
def storeOf (s : State) (ty : Ty) (d a : Nat) (off : Int) (ord : Ord) (scope : Scope) (tk : Option Nat) : Access :=
  ⟨capLocs a ++ regsOf d ty, 1, ty.bits / 8, true,
    ⟨0, s.rc a, (s.rc a).addr + off, [permST], valueOf s d ty, 0, false⟩, ord, scope, tk,
    fun x => .mem .store ty .none x false, []⟩

/-- A capability load needs LD (04 R89). -/
def loadCapOf (s : State) (d a : Nat) (off : Int) (ord : Ord) (scope : Scope) (tk : Option Nat) : Access :=
  ⟨capLocs a, 4, 16, false, ⟨0, s.rc a, (s.rc a).addr + off, [permLD], 0, 0, false⟩, ord, scope, tk,
    fun x => .mem .loadCap .n32 (.creg d) x false, capLocs d⟩

/-- A capability store needs ST; a tagged value needs STC too, and one without GLOB also STLOC (04 R92, R95). -/
def storeCapOf (s : State) (d a : Nat) (off : Int) (ord : Ord) (scope : Scope) (tk : Option Nat) : Access :=
  let v := s.rc d
  ⟨capLocs a ++ capLocs d, 5, 16, true,
    ⟨0, s.rc a, (s.rc a).addr + off,
      if !v.tag then [permST] else if v.has permGLOB then [permST, permSTC] else [permST, permSTC, permSTLOC],
      v.bits.toNat, 0, v.tag⟩, ord, scope, tk, fun x => .mem .storeCap .n32 .none x false, []⟩

/-- An atomic needs LD and ST; its operand is in s[d] or the pair at d, and the compare value of `cas` in the registers
after it (08 R177). -/
def atomicOf (s : State) (op : AtomOp) (ty : Ty) (d a : Nat) (tk : Option Nat) (ord : Ord) (scope : Scope) : Access :=
  let e := if ty.isPair then d + 2 else d + 1
  ⟨capLocs a ++ regsOf d ty ++ (if op = .cas then regsOf e ty else []), 2, ty.bits / 8, true,
    ⟨0, s.rc a, (s.rc a).addr, [permLD, permST], valueOf s d ty, if op = .cas then valueOf s e ty else 0, false⟩,
    ord, scope, tk, fun x => .mem (.atomic op) ty (.sreg d) x false, regsOf d ty⟩

/-- The address of word `x` of a watch table: 64 words to an entry (14 R334). -/
def wordAddr (c : Cap) (x : Nat) : Nat := c.base + 256 * (x / 64) + 4 * (x % 64)

/-- Every scalar load, store and atomic, and the words of a watch table (08 R187, 14 R334). -/
inductive ScalarAccess (s : State) : Instr → Access → Prop
  | ldI8 (d a : Nat) (tk : Option Nat) (o : Nat) : ScalarAccess s (.ldI8 d a tk o) (loadOf s .i8 d a o .rlx .dev tk)
  | ldN8 (d a : Nat) (tk : Option Nat) (o : Nat) : ScalarAccess s (.ldN8 d a tk o) (loadOf s .n8 d a o .rlx .dev tk)
  | ldI16 (d a : Nat) (tk : Option Nat) (o : Nat) :
    ScalarAccess s (.ldI16 d a tk o) (loadOf s .i16 d a (2 * o) .rlx .dev tk)
  | ldN16 (d a : Nat) (tk : Option Nat) (o : Nat) :
    ScalarAccess s (.ldN16 d a tk o) (loadOf s .n16 d a (2 * o) .rlx .dev tk)
  | ldN32 (d a : Nat) (tk : Option Nat) (o : Nat) :
    ScalarAccess s (.ldN32 d a tk o) (loadOf s .n32 d a (4 * o) .rlx .dev tk)
  | ldN64 (d a : Nat) (tk : Option Nat) (o : Nat) :
    ScalarAccess s (.ldN64 d a tk o) (loadOf s .n64 d a (8 * o) .rlx .dev tk)
  | stN8 (d a : Nat) (tk : Option Nat) (o : Nat) : ScalarAccess s (.stN8 d a tk o) (storeOf s .n8 d a o .rlx .dev tk)
  | stN16 (d a : Nat) (tk : Option Nat) (o : Nat) :
    ScalarAccess s (.stN16 d a tk o) (storeOf s .n16 d a (2 * o) .rlx .dev tk)
  | stN32 (d a : Nat) (tk : Option Nat) (o : Nat) :
    ScalarAccess s (.stN32 d a tk o) (storeOf s .n32 d a (4 * o) .rlx .dev tk)
  | stN64 (d a : Nat) (tk : Option Nat) (o : Nat) :
    ScalarAccess s (.stN64 d a tk o) (storeOf s .n64 d a (8 * o) .rlx .dev tk)
  | ldc (d a : Nat) (tk : Option Nat) (o : Nat) : ScalarAccess s (.ldc d a tk o) (loadCapOf s d a (16 * o) .rlx .dev tk)
  | stc (d a : Nat) (tk : Option Nat) (o : Nat) : ScalarAccess s (.stc d a tk o) (storeCapOf s d a (16 * o) .rlx .dev tk)
  | ldxN8 (d a : Nat) (tk : Option Nat) (o : Ord) (c : Scope) :
    ScalarAccess s (.ldxN8 d a tk o c) (loadOf s .n8 d a 0 o c tk)
  | ldxN16 (d a : Nat) (tk : Option Nat) (o : Ord) (c : Scope) :
    ScalarAccess s (.ldxN16 d a tk o c) (loadOf s .n16 d a 0 o c tk)
  | ldxN32 (d a : Nat) (tk : Option Nat) (o : Ord) (c : Scope) :
    ScalarAccess s (.ldxN32 d a tk o c) (loadOf s .n32 d a 0 o c tk)
  | ldxN64 (d a : Nat) (tk : Option Nat) (o : Ord) (c : Scope) :
    ScalarAccess s (.ldxN64 d a tk o c) (loadOf s .n64 d a 0 o c tk)
  | stxN8 (d a : Nat) (tk : Option Nat) (o : Ord) (c : Scope) :
    ScalarAccess s (.stxN8 d a tk o c) (storeOf s .n8 d a 0 o c tk)
  | stxN16 (d a : Nat) (tk : Option Nat) (o : Ord) (c : Scope) :
    ScalarAccess s (.stxN16 d a tk o c) (storeOf s .n16 d a 0 o c tk)
  | stxN32 (d a : Nat) (tk : Option Nat) (o : Ord) (c : Scope) :
    ScalarAccess s (.stxN32 d a tk o c) (storeOf s .n32 d a 0 o c tk)
  | stxN64 (d a : Nat) (tk : Option Nat) (o : Ord) (c : Scope) :
    ScalarAccess s (.stxN64 d a tk o c) (storeOf s .n64 d a 0 o c tk)
  | ldcx (d a : Nat) (tk : Option Nat) (o : Ord) (c : Scope) :
    ScalarAccess s (.ldcx d a tk o c) (loadCapOf s d a 0 o c tk)
  | stcx (d a : Nat) (tk : Option Nat) (o : Ord) (c : Scope) :
    ScalarAccess s (.stcx d a tk o c) (storeCapOf s d a 0 o c tk)
  | amoAddN32 (d a : Nat) (tk : Option Nat) (o : Ord) (c : Scope) :
    ScalarAccess s (.amoAddN32 d a tk o c) (atomicOf s .add .n32 d a tk o c)
  | amoAndN32 (d a : Nat) (tk : Option Nat) (o : Ord) (c : Scope) :
    ScalarAccess s (.amoAndN32 d a tk o c) (atomicOf s .and .n32 d a tk o c)
  | amoOrN32 (d a : Nat) (tk : Option Nat) (o : Ord) (c : Scope) :
    ScalarAccess s (.amoOrN32 d a tk o c) (atomicOf s .or .n32 d a tk o c)
  | amoXorN32 (d a : Nat) (tk : Option Nat) (o : Ord) (c : Scope) :
    ScalarAccess s (.amoXorN32 d a tk o c) (atomicOf s .xor .n32 d a tk o c)
  | amoMinI32 (d a : Nat) (tk : Option Nat) (o : Ord) (c : Scope) :
    ScalarAccess s (.amoMinI32 d a tk o c) (atomicOf s .min .i32 d a tk o c)
  | amoMaxI32 (d a : Nat) (tk : Option Nat) (o : Ord) (c : Scope) :
    ScalarAccess s (.amoMaxI32 d a tk o c) (atomicOf s .max .i32 d a tk o c)
  | amoMinN32 (d a : Nat) (tk : Option Nat) (o : Ord) (c : Scope) :
    ScalarAccess s (.amoMinN32 d a tk o c) (atomicOf s .min .n32 d a tk o c)
  | amoMaxN32 (d a : Nat) (tk : Option Nat) (o : Ord) (c : Scope) :
    ScalarAccess s (.amoMaxN32 d a tk o c) (atomicOf s .max .n32 d a tk o c)
  | amoSwapN32 (d a : Nat) (tk : Option Nat) (o : Ord) (c : Scope) :
    ScalarAccess s (.amoSwapN32 d a tk o c) (atomicOf s .swap .n32 d a tk o c)
  | amoCasN32 (d a : Nat) (tk : Option Nat) (o : Ord) (c : Scope) :
    ScalarAccess s (.amoCasN32 d a tk o c) (atomicOf s .cas .n32 d a tk o c)
  | amoSwapN64 (d a : Nat) (tk : Option Nat) (o : Ord) (c : Scope) :
    ScalarAccess s (.amoSwapN64 d a tk o c) (atomicOf s .swap .n64 d a tk o c)
  | amoCasN64 (d a : Nat) (tk : Option Nat) (o : Ord) (c : Scope) :
    ScalarAccess s (.amoCasN64 d a tk o c) (atomicOf s .cas .n64 d a tk o c)
  | amoAddN64 (d a : Nat) (tk : Option Nat) (o : Ord) (c : Scope) :
    ScalarAccess s (.amoAddN64 d a tk o c) (atomicOf s .add .n64 d a tk o c)
  | wset (t r : Nat) (tk : Option Nat) (h : tableCheck (s.rc t) permST = none)
    (hx : (s.rs r).toNat / 64 < tableEntries (s.rc t)) :
    ScalarAccess s (.wset t r tk) ⟨capLocs t ++ [.s r, .s (r + 1)], 6, 4, true,
      ⟨0, { (s.rc t).withSeal 0 with tag := true }, wordAddr (s.rc t) (s.rs r).toNat, [permST],
        (s.rs (r + 1)).toNat, 0, false⟩, .rlx, .dev, tk, fun x => .mem .store .n32 .none x false, []⟩
  | wget (t r : Nat) (tk : Option Nat) (h : tableCheck (s.rc t) permLD = none)
    (hx : (s.rs r).toNat / 64 < tableEntries (s.rc t)) :
    ScalarAccess s (.wget t r tk) ⟨capLocs t ++ [.s r], 6, 4, false,
      ⟨0, { (s.rc t).withSeal 0 with tag := true }, wordAddr (s.rc t) (s.rs r).toNat, [permLD], 0, 0, false⟩,
      .rlx, .dev, tk, fun x => .mem .load .n32 (.sreg (r + 1)) x false, [.s (r + 1)]⟩

/-- `a` with the operation `x` under way (03 R75): it is the last of those outstanding and takes the next number. What
a result already in flight takes from its destinations (R231) is `dead`. -/
def withOp (a : Agent) (x : Op) (dead : List Loc) : Agent :=
  { a with
    outst := a.outst ++ [{ x with dead := dead }]
    nextOp := x.num + 1 }

/-- The scalar instruction at `v` has issued: the PC stands 4 further, the results due in the next clk have taken effect,
and the operation `x` is under way. Nothing else has changed: every register, flag and special register, every other
agent and every byte of memory is as before. -/
def Enters (v t : State) (x : Op) : Prop :=
  t = { v with ag := t.ag, issues := v.issues + 1 }
    ∧ ∃ dead, t.ag = withOp { v.tick.ag with pcc := pccPlus v.ag 4 } x dead

/-- The operation that a scalar access leaves under way at `v`. -/
def Access.entry (x : Access) (v : State) (accs : List Acc) : Op :=
  ⟨v.ag.nextOp, false, .scalar, x.ord, x.scope, v.ag.tokenOpt x.tk, x.op accs, x.dests.flatMap Loc.touched, [], false, false⟩

/-! ### Reads of state (08 R180, R182, R188; 19 R352, R365) -/

/-- Issues at once where the kernel class issues: kernel or monitor mode, with SYS in pcc (19 R350). -/
def MayKernel (s : State) : Prop := s.ag.mode ≠ 0 ∧ s.ag.pcc.has permSYS = true

/-- The token that number `n` names: 15 is ktk outside user mode (03 R76). -/
def tokenOf (a : Agent) (n : Nat) : Nat := if n = 15 ∧ a.mode ≠ 0 then 16 else n

/-- What `rdid` gives on a system core (08 R164). -/
def sysIdentity (a : Agent) (sel : Nat) : Nat :=
  if sel = 7 then a.core else if sel = 9 then 4 else if sel = 10 then a.cpart else 0

/-- What `rdid` gives a group: g, the team's coordinates and index, role, core, partition, die, compute partition. -/
def groupIdentity (s : State) (sel : Nat) : Nat :=
  let idx := ((s.team? s.ag.team).map fun t => t.index).getD 0
  let dims := ((s.launch? s.ag.launch).map fun l => l.dims).getD (1, 1, 1)
  [0, s.ag.g, idx % dims.1, idx / dims.1 % dims.2.1, idx / (dims.1 * dims.2.1), idx, s.ag.role, s.ag.core, s.ag.part,
    s.ag.die, s.ag.cpart].getD sel 0

/-- The reads of the agent's own state, and the instructions that do nothing where they stand. -/
inductive Simple (s : State) : Instr → Plain → Prop
  | nop : Simple s .nop ⟨[], 1, []⟩
  | rdidSys (d sel : Nat) (h : s.ag.isSys = true) :
    Simple s (.rdid d sel) ⟨[], 1, [(.s d, BitVec.ofNat 32 (sysIdentity s.ag sel))]⟩
  | rdid (d sel : Nat) (h : s.ag.isSys = false) :
    Simple s (.rdid d sel) ⟨[], 1, [(.s d, BitVec.ofNat 32 (groupIdentity s sel))]⟩
  | fsrr (d : Nat) : Simple s (.fsrr d) ⟨[], 1, [(.s d, s.ag.fsr)]⟩
  | mxcr (d : Nat) : Simple s (.mxcr d) ⟨[], 1, [(.s d, s.ag.mxc)]⟩
  | tkr (tk d : Nat) : Simple s (.tkr tk d) ⟨[], 1, [(.s d, (s.ag.tok (tokenOf s.ag tk)).setWidth 32)]⟩
  | emr (d : Nat) (h : s.ag.isSys = false) (hg : ∀ g ∈ s.ag.gov, g.loc ≠ .em) :
    Simple s (.emr d) ⟨[.em], 1, [(.s d, s.ag.em)]⟩
  | lmr (d : Nat) (h : s.ag.isSys = false) (hg : ∀ g ∈ s.ag.gov, g.loc ≠ .lm) :
    Simple s (.lmr d) ⟨[.lm], 1, [(.s d, s.ag.lm)]⟩
  | xpc (d : Nat) (h : MayKernel s) : Simple s (.ctlr d 0x000) ⟨[], 1, capWrites (d / 4) s.ag.xpc⟩
  | xlpc (d : Nat) (h : MayKernel s) : Simple s (.ctlr d 0x004) ⟨[], 1, pairOfNat d s.ag.xlpc.toNat⟩
  | xaddr (d : Nat) (h : MayKernel s) : Simple s (.ctlr d 0x006) ⟨[], 1, pairOfNat d s.ag.xaddr.toNat⟩
  | xcause (d : Nat) (h : MayKernel s) : Simple s (.ctlr d 0x008) ⟨[], 1, [(.s d, s.ag.xcause)]⟩
  | xstat (d : Nat) (h : MayKernel s) : Simple s (.ctlr d 0x009) ⟨[], 1, [(.s d, s.ag.xstat)]⟩
  | xlanes (d : Nat) (h : MayKernel s) : Simple s (.ctlr d 0x00A) ⟨[], 1, [(.s d, s.ag.xlanes)]⟩
  | xinfo (d : Nat) (h : MayKernel s) : Simple s (.ctlr d 0x00B) ⟨[], 1, [(.s d, s.ag.xinfo)]⟩
  | kentry (d : Nat) (h : MayKernel s) : Simple s (.ctlr d 0x010) ⟨[], 1, capWrites (d / 4) s.ag.kentry⟩
  | kscr (d : Nat) (h : MayKernel s) : Simple s (.ctlr d 0x014) ⟨[], 1, capWrites (d / 4) s.ag.kscr⟩
  | t15 (d : Nat) (h : MayKernel s) : Simple s (.ctlr d 0x018) ⟨[], 1, [(.s d, (sget 0 s.ag.toks 15).setWidth 32)]⟩
  | kill (d : Nat) (h : MayKernel s) : Simple s (.ctlr d 0x019) ⟨[], 1, [(.s d, 0)]⟩
  | ipend (d : Nat) (h : MayKernel s) (hs : s.ag.isSys = true) :
    Simple s (.ctlr d 0x020) ⟨[], 1, pairOfNat d s.ag.ipend.toNat⟩
  | tcmp (d : Nat) (h : MayKernel s) (hs : s.ag.isSys = true) :
    Simple s (.ctlr d 0x022) ⟨[], 1, pairOfNat d s.ag.tcmp.toNat⟩
  | swpdone (d : Nat) (h : MayKernel s) :
    Simple s (.ctlr d 0x024) ⟨[], 1, [(.s d, BitVec.ofNat 32 s.sweep.swpdone)]⟩
  | sealctx (d a b : Nat) (h : MayKernel s) (hm : s.ag.mode = 2) (ht : (s.rc a).tag = true) :
    Simple s (.sealctx d a b)
      ⟨capLocs a ++ [.s b], 1, capWrites d ((s.rc a).withOwner ((s.rs b).toNat % 256))⟩
  | bar (o : Nat) (f : Bool) (h : s.ag.isSys = true) : Simple s (.bar o f) ⟨[], 1, []⟩
  | barArrive (o : Nat) (f : Bool) (h : s.ag.isSys = true) : Simple s (.barArrive o f) ⟨[], 1, []⟩
  | barWait (o : Nat) (h : s.ag.isSys = true) : Simple s (.barWait o) ⟨[], 1, []⟩
  | pause (n : Nat) (h : s.ag.isSys = true) : Simple s (.pause n) ⟨[], 1, []⟩
  | dly (n : Nat) (h : s.ag.isSys = true) : Simple s (.dly n) ⟨[], 1, []⟩
  | wfi (h : MayKernel s) (hs : s.ag.isSys = true) (hp : s.ag.ipend ≠ 0) : Simple s .wfi ⟨[], 1, []⟩
  | gend (hm : s.ag.mode ≠ 0) (hs : s.ag.isSys = true) (hp : s.ag.ipend ≠ 0) : Simple s .gend ⟨[], 1, []⟩
  | keyk (d : Nat) (h : MayKernel s) (hm : s.ag.mode = 2)
    (hk : (s.rs d).toNat % 256 = 0 ∨ s.keyGen ((s.rs d).toNat % 256) = none) : Simple s (.keyk d) ⟨[.s d], 1, []⟩

/-! ### Writes of state -/

/-- The state after a scalar instruction at `v` that leaves the agent `a` with its stream at `c`: it has issued, and the
results due in the next clk have taken effect. -/
def afterAt (v : State) (c : Cap) (a : Agent) : State :=
  { v with
    issues := v.issues + 1
    ag := ({ a with pcc := c }).commit (v.clk + 1) }

/-- As `afterAt`, with the PC 4 further. -/
def after (v : State) (a : Agent) : State := afterAt v (pccPlus a 4) a

/-- A scalar instruction that leaves another agent: what it reads, the agent. -/
structure Change where
  reads : List Loc
  ag : Agent

/-- xstat as a write of it leaves it: STEP takes bit 8, PMODE a legal mode that is not above MODE (19 R353). -/
def xstatWritten (a : Agent) (v : Word) : Word :=
  let x := xstatField a.xstat 8 1 (if v.getLsbD 8 then 1 else 0)
  let p := (v.extractLsb' 0 2).toNat
  if p < 3 ∧ p ≤ a.mode then xstatField x 0 2 p else x

/-- The instructions that write the agent's own state, at the issue at which they complete (03 R62, R74; 08 R179, R182,
R188; 19 R352, R362, R366). -/
inductive Changes (s : State) : Instr → Change → Prop
  | fsrw (d : Nat) : Changes s (.fsrw d) ⟨[.s d], { s.ag with fsr := s.ag.fsr &&& ~~~(s.rs d &&& 0xBF) }⟩
  | mxcw (d : Nat) : Changes s (.mxcw d) ⟨[.s d], { s.ag with mxc := s.rs d &&& 0xFFFFFF }⟩
  | xstep (h : MayKernel s) : Changes s .xstep ⟨[], { s.ag with xstat := xstatField s.ag.xstat 8 1 1 }⟩
  | pause (n : Nat) (h : s.ag.isSys = false) : Changes s (.pause n) ⟨[], { s.ag with
      pauseEnd := s.clk + n + 1
      pausing := true }⟩
  | dly (n : Nat) (h : s.ag.isSys = false) : Changes s (.dly n) ⟨[], { s.ag with dlyScalar := s.clk + n }⟩
  | wtok (tk thr : Nat) (h : (s.ag.tok (tokenOf s.ag tk) - BitVec.ofNat 16 thr).toInt ≥ 0) :
    Changes s (.wtok tk thr)
      ⟨[], { s.ag with gov := dropSeen (fun g => g.tk == some (tokenOf s.ag tk)) s.ag.gov }⟩
  | wtokReg (tk b : Nat) (h : (s.ag.tok (tokenOf s.ag tk) - (s.rs b).setWidth 16).toInt ≥ 0) :
    Changes s (.wtokReg tk b)
      ⟨[.s b], { s.ag with gov := dropSeen (fun g => g.tk == some (tokenOf s.ag tk)) s.ag.gov }⟩
  | lrun (tk : Option Nat) (a n : Nat) (off : Int) (h : s.ag.isSys = false) (hh : s.ag.hnd = false)
    (hc : (s.rc a).checkPlain [permXL] ((s.rc a).addr + 12 * off) (12 * n) 4 = none) (hq : s.ag.blocks.length < 4) :
    Changes s (.lrun tk a n off) ⟨capLocs a, { s.ag with
      blocks := s.ag.blocks
        ++ [⟨s.rc a, ((s.rc a).addr + 12 * off).toNat, n, 0, tk.map (tokenOf s.ag), s.ag.nextOp⟩]
      nextOp := s.ag.nextOp + 1 }⟩
  | barWait (o : Nat) (h : s.ag.isSys = false) (hp : ∀ p, s.ag.lastPhase o = some p → p < s.phaseOf s.ag.team o) :
    Changes s (.barWait o) ⟨[], s.ag⟩
  | pgreq (a : Nat) (tk : Option Nat) (hb : s.ag.space = .boot)
    (hc : (s.rc a).checkPlain [permLD] (s.rc a).addr 1 1 = none) :
    Changes s (.pgreq a tk) ⟨capLocs a, s.ag.post (tk.map (tokenOf s.ag))⟩
  | pgreqHere (a : Nat) (tk : Option Nat) (o pte size : Nat) (hb : s.ag.space = .obj o)
    (hc : (s.rc a).checkPlain [permLD] (s.rc a).addr 1 1 = none) (hv : canonical (s.rc a).addr = true)
    (hw : s.walk s.ag.who (s.rc a).addr = .leaf pte size) :
    Changes s (.pgreq a tk) ⟨capLocs a, s.ag.post (tk.map (tokenOf s.ag))⟩
  | xpc (d : Nat) (h : MayKernel s) : Changes s (.ctlw d 0x000) ⟨capLocs (d / 4), { s.ag with xpc := s.rc (d / 4) }⟩
  | xlpc (d : Nat) (b : Block) (r : List Block) (i : Nat) (h : MayKernel s) (hb : s.ag.blocks = b :: r)
    (hv : (s.rp d).toNat = b.start + 12 * i) (hi : i < b.count) :
    Changes s (.ctlw d 0x004)
      ⟨[.s d, .s (d + 1)], { s.ag with xlpc := s.rp d, blocks := { b with idx := i } :: r }⟩
  | xlpcKept (d : Nat) (h : MayKernel s)
    (hb : ∀ b ∈ s.ag.blocks.head?, ∀ i < b.count, (s.rp d).toNat ≠ b.start + 12 * i) :
    Changes s (.ctlw d 0x004) ⟨[.s d, .s (d + 1)], s.ag⟩
  | xaddr (d : Nat) (h : MayKernel s) :
    Changes s (.ctlw d 0x006) ⟨[.s d, .s (d + 1)], { s.ag with xaddr := s.rp d }⟩
  | xcause (d : Nat) (h : MayKernel s) : Changes s (.ctlw d 0x008) ⟨[.s d], { s.ag with xcause := s.rs d &&& 0xFF }⟩
  | xstat (d : Nat) (h : MayKernel s) :
    Changes s (.ctlw d 0x009) ⟨[.s d], { s.ag with xstat := xstatWritten s.ag (s.rs d) }⟩
  | xlanes (d : Nat) (h : MayKernel s) : Changes s (.ctlw d 0x00A) ⟨[.s d], { s.ag with xlanes := s.rs d }⟩
  | xinfo (d : Nat) (h : MayKernel s) : Changes s (.ctlw d 0x00B) ⟨[.s d], { s.ag with xinfo := s.rs d }⟩
  | kentry (d : Nat) (h : MayKernel s) (hk : s.ag.domain = 0 ∨ s.ag.mode ≠ 1) :
    Changes s (.ctlw d 0x010) ⟨capLocs (d / 4), { s.ag with kentry := s.rc (d / 4) }⟩
  | kentryKept (d : Nat) (h : MayKernel s) (hk : s.ag.domain ≠ 0 ∧ s.ag.mode = 1) :
    Changes s (.ctlw d 0x010) ⟨capLocs (d / 4), s.ag⟩
  | kscr (d : Nat) (h : MayKernel s) (hk : s.ag.domain = 0 ∨ s.ag.mode ≠ 1) :
    Changes s (.ctlw d 0x014) ⟨capLocs (d / 4), { s.ag with kscr := s.rc (d / 4) }⟩
  | t15 (d : Nat) (h : MayKernel s) :
    Changes s (.ctlw d 0x018) ⟨[.s d], { s.ag with toks := sput 0 s.ag.toks 15 ((s.rs d).setWidth 16) }⟩
  | ipend (d : Nat) (h : MayKernel s) (hs : s.ag.isSys = true) :
    Changes s (.ctlw d 0x020) ⟨[.s d, .s (d + 1)], { s.ag with ipend := s.ag.ipend &&& ~~~(s.rp d) }⟩
  | tcmp (d : Nat) (h : MayKernel s) (hs : s.ag.isSys = true) :
    Changes s (.ctlw d 0x022) ⟨[.s d, .s (d + 1)], { s.ag with tcmp := s.rp d, tcmpSeen := false }⟩
  | swpdone (d : Nat) (h : MayKernel s) : Changes s (.ctlw d 0x024) ⟨[.s d], s.ag⟩

/-! ### Waits (02 R41; 08 R182, R183) -/

/-- A wait that begins: the PC stays. A yield whose lane queue has not drained waits for that first (R183). -/
inductive Waits (s : State) : Instr → Change → Prop
  | wtok (tk thr : Nat) (h : (s.ag.tok (tokenOf s.ag tk) - BitVec.ofNat 16 thr).toInt < 0) :
    Waits s (.wtok tk thr) ⟨[], { s.ag with wait := .token (tokenOf s.ag tk) thr }⟩
  | wtokReg (tk b : Nat) (h : (s.ag.tok (tokenOf s.ag tk) - (s.rs b).setWidth 16).toInt < 0) :
    Waits s (.wtokReg tk b) ⟨[.s b], { s.ag with wait := .token (tokenOf s.ag tk) ((s.rs b).toNat % 2 ^ 16) }⟩
  | barWait (o p : Nat) (h : s.ag.isSys = false) (ha : s.ag.lastPhase o = some p)
    (hp : s.phaseOf s.ag.team o ≤ p) : Waits s (.barWait o) ⟨[], { s.ag with wait := .bar o p }⟩
  | yld (tk r : Nat) (off : Int) (h : s.ag.isSys = false) (hd : s.ag.blocks = [] ∨ s.ag.hnd = true)
    (hp : inPcc s.ag off) (hn : (s.ag.tok (tokenOf s.ag tk) - (s.rs r).setWidth 16).toInt < 0) :
    Waits s (.yld tk r off) ⟨[.s r], { s.ag.settle with
      latches := [none, none, none, none]
      alatch := s.ag.settle.alatch.map fun x => { x with coll := none }
      wait := .yield (tokenOf s.ag tk) ((s.rs r).toNat % 2 ^ 16) (target s.ag off % 2 ^ 64).toNat }⟩
  | yldHeld (tk r : Nat) (off : Int) (hd : s.ag.blocks ≠ [] ∧ s.ag.hnd = false) (hp : inPcc s.ag off) :
    Waits s (.yld tk r off) ⟨[.s r], { s.ag with
      wait := .drain (tokenOf s.ag tk) ((s.rs r).toNat % 2 ^ 16) (target s.ag off % 2 ^ 64).toNat }⟩
  | qpop (r : Nat) (h : s.ag.isSys = false) (hq : ∀ e ∈ s.ag.qmat.head?, e.data = none) :
    Waits s (.qpopQmat r) ⟨[], { s.ag with wait := .qpop r }⟩
  | wfi (h : MayKernel s) (hs : s.ag.isSys = true) (hp : s.ag.ipend = 0) : Waits s .wfi ⟨[], { s.ag with wait := .wfi }⟩
  | gend (hm : s.ag.mode ≠ 0) (hs : s.ag.isSys = true) (hp : s.ag.ipend = 0) :
    Waits s .gend ⟨[], { s.ag with wait := .wfi }⟩

/-! ### Instructions whose effect lies beyond the agent -/

/-- A scalar instruction whose results are known at issue and reach their registers when its token posts: what it reads,
the state its own effect leaves, the results. -/
structure Posting where
  reads : List Loc
  v : State
  tk : Option Nat
  writes : List (Loc × Word)

/-- The operation that brings such results. -/
def Posting.op (p : Posting) : Op :=
  ⟨p.v.ag.nextOp, false, .scalar, .rlx, .grp, p.v.ag.tokenOpt p.tk, .regs p.writes,
    (p.writes.map (·.1)).flatMap Loc.touched, [], false, false⟩

/-- Everything that was issued before on the given paths has been performed at a scope, so has what the group sees of
others, and the core's narrow stores can be published, as a release requires (08 R181, R185, R186; 13 R299; 23 R414). -/
def Released (s : State) (paths : List Path) (c : Scope) : Prop := s.released paths c = true

/-- What a send, a launch, a sweep releases at .dev: the scalar path and everything of the lane stream (08 R185). -/
def ReleasedDev (s : State) : Prop := Released s [.scalar, .lane, .matrix] .dev

/-- The message of R100: s16 to s31, c8 to c11 and the badge of the endpoint capability; of a call, the caller. -/
def messageOf (s : State) (c : Cap) (call : Bool) : Message :=
  ⟨(List.range 16).map fun k => s.rs (16 + k), (List.range 4).map fun k => s.rc (8 + k),
    BitVec.ofNat 32 ((c.addr + 2 ^ 64 - c.base) % 2 ^ 32), call,
    if call then some ⟨s.ag.id, s.ag.nextOp⟩ else none⟩

/-- A receive that has its answer at issue: the results are there, governed by its token where it has one (03 R75); the token
posts; the caller of a call fills the reply slot (04 R103). -/
def brought (a : Agent) (tk : Option Nat) (ws : List (Loc × Word)) (caller : Option Caller) : Agent :=
  ((if tk = none then a.writes ws else { a.land a.nextOp tk false [] ws with
    nextOp := a.nextOp + 1 }).post tk).holdCaller caller

/-- Messages, replies and launches (04 R102, R103; 08 R185, R186; 21 R389, R401). -/
inductive PostsResult (s : State) : Instr → Posting → Prop
  | msend (a pa : Nat) (tk : Option Nat) (s1 : State) (hc : s.checkEp (s.rc a) permST = .ok s1 pa) (hr : ReleasedDev s1) :
    PostsResult s (.msend a tk) ⟨capLocs a ++ messageLocs,
      (s1.publishMine.deposit pa (messageOf s1 (s.rc a) false)).1, tk,
      [(.s 12, (s1.publishMine.deposit pa (messageOf s1 (s.rc a) false)).2)]⟩
  | mreplyNone (tk : Option Nat) (h : s.ag.reply = none) :
    PostsResult s (.mreply tk) ⟨messageLocs, s, tk, [(.s 12, 2)]⟩
  | mreply (tk : Option Nat) (c : Caller) (h : s.ag.reply = some c) (hr : ReleasedDev s) :
    PostsResult s (.mreply tk) ⟨messageLocs,
      ({ s.publishMine with ag := { s.publishMine.ag with
        reply := none
        sinks := s.publishMine.ag.sinks + 1 } }).updAgent c.agent fun b =>
        b.answer c.call (messageWrites (messageOf s .null false).words (messageOf s .null false).caps b.domain
          ++ [(Loc.s 12, 0)]), tk, [(.s 12, 0)]⟩
  | glaunch (d a b ctx k : Nat) (tk : Option Nat) (s1 s2 : State) (ps : List Piece)
    (hg : (s.rc a).checkPlain [permLD] (s.rc a).addr 512 64 = none) (hx : ctxCheck (s.rc b) = none)
    (h1 : s.xlatePieces s.ag.who ((s.rc a).want false) [] (piecesOf (((s.rc a).addr : Int), 512)) = .ok s1 ps)
    (h2 : s1.devXlate s.ag.who ((s.rc b).want false) (s.rc b).base = .ok s2 ctx k) (hr : ReleasedDev s2) :
    PostsResult s (.glaunch d a b tk) ⟨capLocs a ++ capLocs b,
      (s2.publishMine.submit ctx (s.rc b) (s2.publishMine.readDescriptor ps)
        (s2.publishMine.submitter s2.publishMine.ag.nextOp)).1, tk,
      [(.s d, BitVec.ofNat 32 (s2.publishMine.launchStatus ctx (s2.publishMine.readDescriptor ps)))]⟩
  | gsub (d a pa k : Nat) (tk : Option Nat) (s1 : State) (hg : (s.rc a).checkObject 5 [permLD] = none)
    (h1 : s.devXlate s.ag.who ((s.rc a).want false) (s.rc a).base = .ok s1 pa k) (hr : ReleasedDev s1)
    (h0 : s1.publishMine.graphStatus (s1.publishMine.newWalk (s.rc a) pa) = 0) :
    PostsResult s (.gsub d a tk) ⟨capLocs a, s1.publishMine.startWalk (s1.publishMine.newWalk (s.rc a) pa), tk,
      [(.s d, 0)]⟩
  | gsubRefused (d a pa k : Nat) (tk : Option Nat) (s1 : State) (hg : (s.rc a).checkObject 5 [permLD] = none)
    (h1 : s.devXlate s.ag.who ((s.rc a).want false) (s.rc a).base = .ok s1 pa k) (hr : ReleasedDev s1)
    (h0 : s1.publishMine.graphStatus (s1.publishMine.newWalk (s.rc a) pa) ≠ 0) :
    PostsResult s (.gsub d a tk) ⟨capLocs a, s1.publishMine, tk,
      [(.s d, BitVec.ofNat 32 (s1.publishMine.graphStatus (s1.publishMine.newWalk (s.rc a) pa)))]⟩

/-- A scalar instruction whose own effect leaves `v` with the agent `ag`: what it reads, both. -/
structure Move where
  reads : List Loc
  v : State
  ag : Agent

/-- The command in 16 registers from s[r] (11 R265). -/
def commandWords (s : State) (r : Nat) : List Word × List Bool :=
  let cs := (List.range 4).map fun k => s.rc (r / 4 + k)
  (cs.flatMap fun c => [c.bits.extractLsb' 0 32, c.bits.extractLsb' 32 32, c.bits.extractLsb' 64 32,
    c.bits.extractLsb' 96 32], cs.map (·.tag))

/-- The registers of a command. -/
def commandRegs (r : Nat) : List Loc := (List.range 4).flatMap fun k => capLocs (r / 4 + k)

/-- A group's state at an arrival: the open batches flushed when asked for (02 R50), the release done. -/
def atArrival (s : State) (flush : Bool) : State :=
  if flush then s.publishMine.updTeam s.ag.team Team.flush else s.publishMine

/-- The groups that must have started before a flushing arrival counts (02 R50). -/
def mustHaveStarted (s : State) (flush : Bool) : Nat :=
  if flush then (((atArrival s flush).team? s.ag.team).map Team.allStarted).getD 0 else 0

/-- The arrival may be made now: none of this group at the object is incomplete, and the groups it waits for have
started (08 R181). -/
def MayArrive (s : State) (o : Nat) (flush : Bool) : Prop :=
  (atArrival s flush).arrivalOpen (atArrival s flush).ag o = false
    ∧ ∀ t, (atArrival s flush).team? (atArrival s flush).ag.team = some t → mustHaveStarted s flush ≤ t.spawned

/-- The state after the arrival. -/
def arrived (s : State) (o : Nat) (flush : Bool) : State :=
  ({ atArrival s flush with ag := (atArrival s flush).ag.waitOver }).arrive o

/-- Barriers, queues, translation caches (08 R181, R184; 11 R265, R275; 19 R363; 20 R382), and the fence with acquire alone,
which has an effect on memory of its own: the narrow stores of the core are published, and at .sys the peer lines of the die
written back and invalidated (08 R178; 23 R414, R421). -/
inductive Moves (s : State) : Instr → Move → Prop
  | fence (c : Scope) (h : s.ag.loading [.scalar] s.ag.nextOp = false) (hn : s.notesClear s.ag = true)
    (hc : s.cumulated s.ag c = true) :
    Moves s (.fence .acq c) ⟨[], s.fenced s.ag c, { (s.fenced s.ag c).ag with
      gov := dropSeen (fun g => g.tk == none && g.lane == false) (s.fenced s.ag c).ag.gov }⟩
  | barArrive (o : Nat) (f : Bool) (h : s.ag.isSys = false) (hr : Released s [.scalar, .lane] .team) (ha : MayArrive s o f) :
    Moves s (.barArrive o f) ⟨[], arrived s o f, (arrived s o f).ag⟩
  | bar (o : Nat) (f : Bool) (h : s.ag.isSys = false) (hr : Released s [.scalar, .lane] .team) (ha : MayArrive s o f)
    (hp : ∀ p, (arrived s o f).ag.lastPhase o = some p → p < (arrived s o f).phaseOf (arrived s o f).ag.team o) :
    Moves s (.bar o f) ⟨[], arrived s o f, (arrived s o f).ag⟩
  | qcopy (r : Nat) (h : s.ag.isSys = false) (hq : s.ag.qcopy.length < 8)
    (hc : copyCheck s.teamShape (commandWords s r).1 (commandWords s r).2 = none) :
    Moves s (.qpushQcopy r) ⟨commandRegs r, s, { s.ag.waitOver with
      qcopy := s.ag.qcopy ++ [⟨s.ag.ncopy, (commandWords s r).1, (commandWords s r).2,
        s.ag.tokenOpt (ctlToken (cw (commandWords s r).1 8)), s.ag.mode, 0, 0, 0⟩]
      ncopy := (s.ag.ncopy + 1) % 2 ^ 16 }⟩
  | qcoll (r pa n k : Nat) (s1 : State) (h : s.ag.isSys = false) (hq : s1.ag.qcoll.length < 8)
    (hc : s.collCheck (commandWords s r).1 (commandWords s r).2 = .ok s1 pa n k) :
    Moves s (.qpushQcoll r) ⟨commandRegs r, (s1.nextInst pa k).1, { (s1.nextInst pa k).1.ag.waitOver with
      qcoll := (s1.nextInst pa k).1.ag.qcoll ++ [⟨(s1.nextInst pa k).1.ag.ncoll, (commandWords s r).1,
        (commandWords s r).2, s.ag.tokenOpt (ctlToken (cw (commandWords s r).1 12)), s.ag.mode, pa, k,
        (s1.nextInst pa k).2⟩]
      ncoll := ((s1.nextInst pa k).1.ag.ncoll + 1) % 2 ^ 16 }⟩
  | tlbiAll (a b : Nat) (h : MayKernel s) (hm : s.ag.mode = 2) (hu : s.tlbInUse s.ag.cpart none none = false) :
    Moves s (.tlbi a b .all)
      ⟨[], { s with tlb := s.tlb.filter fun e => ¬ s.tlbIn s.ag.cpart e }, s.ag⟩
  | tlbiSpace (a b o ow pte size : Nat) (h : MayKernel s) (hc : (s.rc a).checkObject 3 [permSYS] = none)
    (hx : s.xlate s.ag.who ((s.rc a).want false) (s.rc a).base = .ok o ow pte size)
    (hu : s.tlbInUse s.ag.cpart (some o) none = false) :
    Moves s (.tlbi a b .space) ⟨capLocs a,
      ({ s with tlb := s.tlb.filter fun e => ¬ (s.tlbIn s.ag.cpart e && e.asid == s.asid o) }).writePhys (o + 10) 2
        (s.spaceGen o + 1), s.ag⟩
  | tlbiPage (a b o ow pte size : Nat) (h : MayKernel s) (hc : (s.rc a).checkObject 3 [permSYS] = none)
    (hx : s.xlate s.ag.who ((s.rc a).want false) (s.rc a).base = .ok o ow pte size)
    (hu : s.tlbInUse s.ag.cpart (some o) (some (s.rp b).toNat) = false) :
    Moves s (.tlbi a b .page) ⟨capLocs a ++ [.s b, .s (b + 1)], s.dropPage s.ag.cpart o (s.rp b).toNat,
      (s.dropPage s.ag.cpart o (s.rp b).toNat).ag⟩

/-- A scalar instruction whose own effect leaves `v`, with results there for the next instruction. -/
structure PlainAt where
  reads : List Loc
  v : State
  writes : List (Loc × Word)

/-- Device time, the sweep, the end of a key, the pop of qmat (02 R25; 08 R184, R188; 24 R427, R439). -/
inductive ResultAt (s : State) : Instr → PlainAt → Prop
  | rdtime (d : Nat) :
    ResultAt s (.rdtime d) ⟨[], (s.readTime (clockKey s.ag)).1, pairOfNat d (s.readTime (clockKey s.ag)).2⟩
  | swp (d : Nat) (h : MayKernel s) (hr : ReleasedDev s) :
    ResultAt s (.swp d)
      ⟨[], s.publishMine.startSweep.1, [(.s d, BitVec.ofNat 32 s.publishMine.startSweep.2)]⟩
  | keyk (d id : Nat) (h : MayKernel s) (hm : s.ag.mode = 2) (hi : id = (s.rs d).toNat % 256) (h0 : id ≠ 0)
    (hk : (s.keyGen id).isSome = true)
    (hd : s.drainOk (fun e => e.owner == id) = true) :
    ResultAt s (.keyk d) ⟨[.s d],
      let v := s.drain fun e => e.owner == id
      { v with
        coh := { v.coh with l1 := v.coh.l1.filter fun l => l.owner != id }
        keys := { v.keys with full := v.keys.full.filter fun e => e.1 != id } }, []⟩
  | qpop (r : Nat) (e : QmatEntry) (rest : List QmatEntry) (h : s.ag.isSys = false) (hq : s.ag.qmat = e :: rest)
    (hd : e.data ≠ none) :
    ResultAt s (.qpopQmat r)
      ⟨[], { s with ag := { s.ag.waitOver with qmat := rest } }, [(.s r, BitVec.ofNat 32 e.k)]⟩

end Sys2Proof.Claims
end

