-- ==== Sys2Proof/Certificates/Slice0/EventTerms.lean ====
section
/-!
DEFINITION. The terms of the statements about the events of agents: what one agent's step of its own leaves, what the end
of an operation brings to the registers, what an access does when it is performed, who issues next.
-/

namespace Sys2Proof.Claims

open Machine

/-! ### One agent's own events -/

/-- Agent `id` is now `b`; every other agent, the device and every byte of memory are as before. -/
def Replaced (s t : State) (id : Nat) (b : Agent) : Prop :=
  t = { s with ag := t.ag, rest := t.rest } ∧ t.agent? id = some b ∧ ∀ k, k ≠ id → t.agent? k = s.agent? k

/-- The token's count has reached the threshold, by the signed 16-bit difference (03 R74). -/
def Reached (a : Agent) (n thr : Nat) : Prop := 0 ≤ (a.tok n - BitVec.ofNat 16 thr).toInt

/-- The agent once its wait is over: a single step counts the instruction (19 R366). -/
def waitEnded (a : Agent) : Agent :=
  { a with
    wait := .none
    stepping := if a.stepping = .scalar then .due false a.nextOp else a.stepping }

/-- The agent once a wait on token `n` has ended: what that token governed has been seen (03 R75). -/
def tokenSeen (a : Agent) (n : Nat) : Agent :=
  waitEnded { a with gov := dropSeen (fun g => g.tk == some n) a.gov }

/-- The group has no lane instructions to wait for and no operation that posts a token under way (21 R396). -/
def Drained (s : State) (a : Agent) : Prop := (a.blocks = [] ∨ a.hnd = true) ∧ s.unfinished a = false

/-- The entries of the stack that a release of lane focus replays: those with lanes and instructions left (26 R465). -/
def leftOver (a : Agent) : List FocusEntry := a.focusStack.filter fun e => e.n ≠ 0 ∧ e.d ≠ 0

/-- The events of one agent that change that agent alone, when they are due, and the agent after them. -/
inductive AgentEvent (s : State) (a : Agent) : Instr → Agent → Prop
  | laneStarved (hc : s.candidate true a = true) (hw : a.waitLane = 4096) :
    AgentEvent s a (.starvationPromotion a.id true) { a with waitLane := 4097 }
  | scalarStarved (hc : s.candidate false a = true) (hw : a.waitScalar = 4096) :
    AgentEvent s a (.starvationPromotion a.id false) { a with waitScalar := 4097 }
  | pauseEnd (h : a.pauseEnd ≤ s.clk) : AgentEvent s a (.pauseEnd a.id) { a with
      pauseEnd := 0
      pausing := false }
  | writeEffect : AgentEvent s a (.fixedLatencyWriteEffect a.id) (a.commit s.clk)
  | scalarDelay (h : a.dlyScalar ≤ s.clk) : AgentEvent s a (.dlyExpiry a.id false) { a with dlyScalar := 0 }
  | laneDelay (h : a.dlyLane ≤ s.clk) : AgentEvent s a (.dlyExpiry a.id true) { a with dlyLane := 0 }
  | barrier (obj p : Nat) (hw : a.wait = .bar obj p) (h : p < s.phaseOf a.team obj) :
    AgentEvent s a (.wtokComplete a.id) { waitEnded a with pcc := pccPlus a 4 }
  | yielded (n thr c : Nat) (hi : a.alive = true ∧ a.resident = true) (hw : a.wait = .yield n thr c)
    (h : Reached a n thr) :
    AgentEvent s a (.yieldReactivation a.id) { tokenSeen a n with pcc := a.pcc.withAddr (c % 2 ^ 64) }
  | redirect (c : Cap) (hi : a.alive = true ∧ a.resident = true) (hr : a.redirect = some c) (hh : a.hnd = false)
    (hs : a.stalled = false) (hw : a.wait = .none ∨ ∃ n thr, a.wait = .token n thr) (hd : a.watchDue = none)
    (hk : a.held = false) : AgentEvent s a (.lbrxRedirect a.id) { a with
      pcc := c
      wait := .none
      dlyScalar := 0
      pauseEnd := 0
      pausing := false
      redirect := none }
  | touch (e o : Nat) (lane r : Bool) (hw : a.touching = some ⟨e, lane, r⟩) (ho : a.space = .obj o)
    (h : ∀ x ∈ s.touches, x.1 = e → s.poolReady o e x.2 = true) :
    AgentEvent s a (.firstTouchPoolRetry a.id) { a with touching := some ⟨e, lane, true⟩ }
  | timer (hs : a.isSys = true) (hn : a.tcmpSeen = false) (h : a.tcmp.toNat ≤ s.localTime a.core) :
    AgentEvent s a (.tcmpReached a.id) { a with
      ipend := a.ipend ||| 0x8000000000000000
      tcmpSeen := true }
  | snapshot (r : Nat × Nat) (hi : a.alive = true ∧ a.resident = true) (hr : s.atEntry a = some r)
    (hn : a.snapReady = false) (hd : Drained s a) (hw : a.wait = .none) :
    AgentEvent s a (.regionSnapshot a.id) { a.settle with
      snapshot := some ⟨r.1, r.2, a.settle.pcc, a.settle.sregs, a.settle.ctags, a.settle.em, a.settle.lm, a.settle.toks,
        a.settle.fsr, a.settle.mxc⟩
      snapReady := true }
  | focus (v : Nat) (b : Block) (r : List Block) (hh : a.hnd = true) (hs : a.isSys = false) (hf : v.testBit 6 = true)
    (hr : v.testBit 7 = false) (hb : a.blocks = b :: r) (he : a.focusStack = []) (hm : a.em.getLsbD (v % 32) = true) :
    AgentEvent s a (.laneFocus a.id v) { a with
      focusStack := [⟨a.em &&& ~~~(1#32 <<< (v % 32)), 0, b.idx⟩]
      focus := 1#32 <<< (v % 32)
      focusLane := v % 32 }
  | refocus (v : Nat) (b : Block) (r : List Block) (e : FocusEntry) (hh : a.hnd = true) (hs : a.isSys = false)
    (hf : v.testBit 6 = true) (hr : v.testBit 7 = false) (hb : a.blocks = b :: r) (hn : a.focusStack ≠ [])
    (hl : a.focusStack.length < 32) (he : (a.focusStack.find? fun x => x.d.getLsbD (v % 32)) = some e) :
    AgentEvent s a (.laneFocus a.id v) { a with
      replays := a.replays ++ if e.n = 0 then [] else [⟨e.off, e.n, 1#32 <<< (v % 32), false⟩]
      focusStack := ⟨a.focus, 0, b.idx⟩ :: a.focusStack.map fun x => { x with d := x.d &&& ~~~(1#32 <<< (v % 32)) }
      focus := 1#32 <<< (v % 32)
      focusLane := v % 32 }
  | unfocus (v : Nat) (hh : a.hnd = true) (hs : a.isSys = false) (hr : v.testBit 7 = true) :
    AgentEvent s a (.laneFocusRelease a.id v) { a with
      replays := a.replays ++ ((List.range (leftOver a).length).zip (leftOver a)).map fun e =>
        ⟨e.2.off, e.2.n, e.2.d, e.1 + 1 == (leftOver a).length⟩
      focusStack := []
      focus := 0 }

/-! ### Traps that an event brings (19 R358, R366; 11 R267) -/

/-- What stands before the traps of an agent: none is taken while a watch instruction holds it, while a watch hit is due,
before a redirect, or while a stepped instruction has still to end. -/
def Clear (a : Agent) : Prop :=
  a.alive = true ∧ a.resident = true ∧ a.held = false ∧ a.watchDue = none ∧ (a.redirectNow = true → a.redirect = none)

/-- A trap that an event brings to agent `a`: the agent as the trap finds it, the trap. -/
inductive TrapEvent (a : Agent) : Instr → Agent → Trap → Prop
  | interrupt (hc : Clear a) (hs : a.isSys = true) (hm : a.mode = 0) (hp : a.ipend ≠ 0) (hh : a.hnd = false)
    (hn : ∀ lane n, a.stepping ≠ .due lane n) (hd : a.stopDue = false) (hf : a.heldFaults = []) :
    TrapEvent a (.interruptTrap a.id) a ⟨0x38, 0, 0, lowestBit a.ipend, false⟩
  | step (lane : Bool) (n : Nat) (hc : Clear a) (hn : a.stepping = .due lane n) (hw : lane = false → a.wait = .none)
    (ho : ∀ o ∈ a.outst, o.num < n) :
    TrapEvent a (.singleStepTrap a.id)
      { a with
        xstat := xstatField a.xstat 8 1 0
        stepping := .off } ⟨0x31, 0, 0, 0, false⟩
  | fault (t : Trap) (tk : Option Nat) (r : List (Trap × Option Nat)) (hc : Clear a) (hh : a.hnd = false)
    (hn : ∀ lane n, a.stepping ≠ .due lane n) (hd : a.stopDue = false) (hf : a.heldFaults = (t, tk) :: r) :
    TrapEvent a (.engineFaultDelivery a.id)
      { a with
        heldFaults := r
        postAtEret := a.postAtEret ++ tk.toList } t

/-! ### The end of an operation (03 R74, R75; 10 R231) -/

/-- What a register keeps of a word written to it: a tag or a predicate is 0 or 1. -/
def keptWord (l : Loc) (v : Word) : Word :=
  match l with
  | .p _ _ | .ct _ | .vt _ _ => if v = 0 then 0 else 1
  | _ => v

/-- A register whose value a write replaces. -/
def Plainly (l : Loc) : Prop := l ≠ .em ∧ l ≠ .lm ∧ l ≠ .fsr ∧ l ≠ .mxc

/-- A place there is: one of 32 lanes, one of 40 quads. -/
def Placed (l : Loc) : Prop :=
  match l with
  | .v _ k | .p _ k | .vt _ k => k < 32
  | .ct q => q < 40
  | _ => True

/-- Operation `o` of agent `a` has ended and left `b`: it is under way no more; its token has posted once; each of its
results stands in its register but where a later instruction has written, and no other register has changed; the
identity, the traps, the queues, the lane blocks, the wait and the other registers of the agent are as before. -/
def Lands (a b : Agent) (o : Op) (ws : List (Loc × Word)) : Prop :=
  b = { a with
      sregs := b.sregs
      ctags := b.ctags
      vregs := b.vregs
      vtags := b.vtags
      preds := b.preds
      em := b.em
      lm := b.lm
      fsr := b.fsr
      mxc := b.mxc
      toks := b.toks
      ktk := b.ktk
      outst := b.outst
      gov := b.gov
      pend := b.pend
      sinks := b.sinks }
    ∧ (∀ x ∈ b.outst, x.num ≠ o.num)
    ∧ (∀ n, b.tok n = a.tok n + if o.tk = some n then 1 else 0)
    ∧ (∀ l, Placed l → l ∉ ws.flatMap (fun w => w.1.touched) → l ≠ .em → b.raw l = a.raw l)
    ∧ (∀ xs w ys, ws = xs ++ w :: ys → w.1 ∉ o.dead → Plainly w.1 → (∀ y ∈ ys, w.1 ∉ y.1.touched) →
      b.raw w.1 = if w.1.fixed then a.raw w.1 else keptWord w.1 w.2)
    ∧ (.fsr ∉ o.dead → b.fsr = (ws.filter fun w => w.1 = .fsr).foldl (fun f w => f ||| w.2) a.fsr)

/-- The operations whose results are known before they end, with those results: messages, votes, reductions and the like;
the posts; `lend` and the mask change of `lbrx` (09 R214 to R221). -/
inductive Known (a : Agent) : OpKind → List (Loc × Word) → Prop
  | regs (ws : List (Loc × Word)) : Known a (.regs ws) ws
  | post : Known a .post []
  | lend (m : BitVec 32) : Known a (.lend m) [(.em, a.em &&& ~~~m), (.lm, a.lm &&& ~~~m)]
  | lbrx (m : BitVec 32) : Known a (.lbrx m none) [(.em, a.em &&& ~~~m), (.lm, a.lm &&& ~~~m)]

/-- The event that ends operation `o` of agent `a`: of its lane stream, or of its scalar stream. -/
inductive Completes (a : Agent) (o : Op) : Instr → Prop
  | lane (h : o.lane = true) : Completes a o (.laneMemoryCompletion a.id o.num)
  | scalar (h : o.lane = false) : Completes a o (.scalarMemoryCompletion a.id o.num)

/-! ### An access performed (08 R175 to R177; 23 R411, R417) -/

/-- The line is the system die's to write (23 R417): its own, with no other copy, or held by its cache alone. -/
def MayWrite (s : State) (line : Nat) : Prop :=
  (homeOf line = 4 ∧ (s.entry line).st = .uncached ∧ (s.entry line).members = [])
    ∨ (homeOf line ≠ 4 ∧ s.answerDue 4 line = false
      ∧ ∃ r, s.rdcAt 4 line = some r ∧ (r.st = .m ∨ r.st = .e) ∧ r.wb = false)

/-- Operation `o` of the system core `a` is one access `x` to the `n` bytes at physical address `p` of DRAM under the key
its owner has in use: no order holds the access back (13 R297 to R299), the core has made and sees no early write (log 8),
no lease is left on the line at the units that perform a write of it, no write waits there before a read, the line may be
used, and no endpoint object's state lies in the bytes. -/
structure Lone (s : State) (a : Agent) (o : Op) (x : Acc) (p n : Nat) : Prop where
  there : s.agent? a.id = some a
  sys : a.isSys = true
  op : a.op? o.num = some o
  scalar : o.lane = false
  order : s.mayGo a o = true
  clear : ∀ e ∈ s.coh.early, e.seat.agent ≠ a.id ∧ e.sees a.seat = false
  place : x.place = .pa p
  here : x.here = true
  dram : isDram p = true
  key : ∃ g, s.keyGen x.owner = some g ∧ ∀ i < n, sget 1 s.cipher ((p + i) / 128) = g
  alive : ∀ e ∈ s.eps, s.epDead e.pa = false ∧ (e.pa + 4 ≤ p ∨ p + n ≤ e.pa)
  read : o.rw.2 = false → s.readReady 4 (p / 128) = true ∧ s.readWaits a o (p / 128) = false
  unleased : o.rw.2 = true → s.leaseDone 4 (p / 128) = true ∧ s.leaseDone (homeOf (p / 128)) (p / 128) = true
  write : o.rw.2 = true → MayWrite s (p / 128)

/-- Byte `i` of a number. -/
def byteOf (v i : Nat) : Byte := BitVec.ofNat 8 (v / 256 ^ i)

/-- The `n` bytes at `p` as a little-endian number (00 R5). -/
def numberAt (m : List Host.Cell) (p n : Nat) : Nat := ((List.range n).map fun i => (readByte m (p + i)).toNat * 256 ^ i).sum

/-- The `n` bytes at `p` now hold the number `v`, every other byte of memory is as before; the granules that hold one of
them have no tag, but the one at `p` when `tag` holds, and the others keep theirs (04 R88). -/
def Stored (s t : State) (p n v : Nat) (tag : Bool) : Prop :=
  (∀ i < n, readByte t.mem (p + i) = byteOf v i)
    ∧ (∀ q, (q < p ∨ p + n ≤ q) → readByte t.mem q = readByte s.mem q)
    ∧ (∀ q, (q / 16 < p / 16 ∨ (p + n - 1) / 16 < q / 16) → t.tagAt q = s.tagAt q)
    ∧ ∀ q, p / 16 ≤ q / 16 → q / 16 ≤ (p + n - 1) / 16 → t.tagAt q = tag

/-- Memory and its tags are as before. -/
def Unstored (s t : State) : Prop := (∀ q, readByte t.mem q = readByte s.mem q) ∧ ∀ q, t.tagAt q = s.tagAt q

/-- The access has happened, with what it stores: agent `id` is now `b`; only memory, tags, the sweeper's frames and the
state of the caches differ besides. -/
def Happened (s t : State) (id : Nat) (b : Agent) (p n : Nat) (st : Option (Nat × Bool)) : Prop :=
  Replaced { s with
    mem := t.mem
    tags := t.tags
    sweep := { s.sweep with frames := t.sweep.frames }
    coh := t.coh } t id b
    ∧ (st = none → Unstored s t) ∧ ∀ v tag, st = some (v, tag) → Stored s t p n v tag

/-- What some agents see of a plain store before memory has it, at scope `v`; nothing of any other operation, and nothing
of a release (R303). -/
def earlyWrites (s : State) (a : Agent) (o : Op) (x : Acc) (v : Scope) : List Early :=
  match o.kind with
  | .mem .store ty _ _ _ =>
    if Ord.releases o.ord || a.relPaths.contains o.path then []
    else [⟨s.coh.nextEarly, a.seat, o.num, false, v, x.owner, x.place, bytesLE (ty.bits / 8) x.data⟩]
  | _ => []

/-- What one access of a system core does: the operation it is, the bytes, the number it stores with a tag (none when it
stores nothing), the results for the registers. -/
inductive Performs (s : State) (p : Nat) (x : Acc) : OpKind → Nat → Option (Nat × Bool) → List (Loc × Word) → Prop
  | load (ty : Ty) (d : Nat) (h : ty.isPair = false) :
    Performs s p x (.mem .load ty (.sreg d) [x] false) (ty.bits / 8) none
      [(.s d, if ty.isSigned then (BitVec.ofNat ty.bits (numberAt s.mem p (ty.bits / 8))).signExtend 32
        else BitVec.ofNat 32 (numberAt s.mem p (ty.bits / 8)))]
  | loadPair (ty : Ty) (d : Nat) (h : ty.isPair = true) :
    Performs s p x (.mem .load ty (.sreg d) [x] false) 8 none (pairOfNat d (numberAt s.mem p 8))
  | store (ty : Ty) :
    Performs s p x (.mem .store ty .none [x] false) (ty.bits / 8) (some (x.data % 2 ^ ty.bits, false)) []
  | swap (ty : Ty) (d : Nat) (h : ty = .n32) :
    Performs s p x (.mem (.atomic .swap) ty (.sreg d) [x] false) 4 (some (x.data % 2 ^ 32, false))
      [(.s d, BitVec.ofNat 32 (numberAt s.mem p 4))]
  | add (ty : Ty) (d : Nat) (h : ty = .n32) :
    Performs s p x (.mem (.atomic .add) ty (.sreg d) [x] false) 4
      (some ((numberAt s.mem p 4 + x.data) % 2 ^ 32, false)) [(.s d, BitVec.ofNat 32 (numberAt s.mem p 4))]
  | casHit (ty : Ty) (d : Nat) (h : ty = .n32) (hc : numberAt s.mem p 4 = x.cmp % 2 ^ 32) :
    Performs s p x (.mem (.atomic .cas) ty (.sreg d) [x] false) 4 (some (x.data % 2 ^ 32, false))
      [(.s d, BitVec.ofNat 32 (numberAt s.mem p 4))]
  | casMiss (ty : Ty) (d : Nat) (h : ty = .n32) (hc : numberAt s.mem p 4 ≠ x.cmp % 2 ^ 32) :
    Performs s p x (.mem (.atomic .cas) ty (.sreg d) [x] false) 4 none
      [(.s d, BitVec.ofNat 32 (numberAt s.mem p 4))]
  | loadCap (q : Nat) (hp : s.sweep.running = none) (hl : x.ltag = true) :
    Performs s p x (.mem .loadCap .n32 (.creg q) [x] false) 16 none
      (capWrites q ⟨BitVec.ofNat 128 (numberAt s.mem p 16), s.tagAt p⟩)
  | storeCap (ha : p % 16 = 0) :
    Performs s p x (.mem .storeCap .n32 .none [x] false) 16 (some (x.data % 2 ^ 128, x.tag)) []

/-- Operation `o` of the lane stream of the group `a` is one access `x` at address `p` of its team's memory: no order holds
it back (13 R297 to R299), the group has made and sees no early write and its core holds no narrow store (log 8), and no
endpoint is destroyed. -/
structure LoneTeam (s : State) (a : Agent) (o : Op) (x : Acc) (p : Nat) : Prop where
  there : s.agent? a.id = some a
  group : a.isSys = false
  op : a.op? o.num = some o
  lane : o.lane = true
  order : s.mayGo a o = true
  clear : ∀ e ∈ s.coh.early, e.seat.agent ≠ a.id ∧ e.sees a.seat = false
  narrow : ∀ e ∈ s.coh.early, e.narrowOf a.die a.core = false
  place : x.place = .team p
  here : x.here = true
  alive : ∀ e ∈ s.eps, s.epDead e.pa = false

/-- Byte `p` of the memory of team `k` (02 R33). -/
def teamByte (s : State) (k p : Nat) : Byte := ((s.teamBytes k p 1).head?).getD 0

/-- The `n` bytes at `p` of a team's memory as a little-endian number. -/
def teamNumber (s : State) (k p n : Nat) : Nat := ((List.range n).map fun i => (teamByte s k (p + i)).toNat * 256 ^ i).sum

/-- What a lane load of type `ty` brings to lane `l` of register `d` of the number `v` that it reads: extended by its type; a
type of 64 bits fills two registers (10 R233). -/
def laneLoaded (ty : Ty) (d l v : Nat) : List (Loc × Word) :=
  if ty.isPair = true then
    [(.v d l, (BitVec.ofNat 64 v).extractLsb' 0 32), (.v (d + 1) l, (BitVec.ofNat 64 v).extractLsb' 32 32)]
  else [(.v d l, if ty.isSigned then (BitVec.ofNat ty.bits v).signExtend 32 else BitVec.ofNat 32 v)]

/-- The team memory of team `k` holds the number `v` in the `n` bytes at `p`; every other byte of team memory is as before. -/
def TeamStored (s t : State) (k p n v : Nat) : Prop :=
  ((s.team? k).isSome = true → ∀ i < n, teamByte t k (p + i) = byteOf v i)
    ∧ (∀ q, (q < p ∨ p + n ≤ q) → teamByte t k q = teamByte s k q)
    ∧ (∀ j, j ≠ k → ∀ q, teamByte t j q = teamByte s j q)
    ∧ t.teams.map (fun u => { u with tmem := [] }) = s.teams.map fun u => { u with tmem := [] }

/-- The capability with its cursor at `x`: its other fields stay, the reserved permissions [115:113] are 0 (R81), its tag
stays when base and top decode as before. -/
def newCursor (c : Cap) (x : Nat) : Cap :=
  let d : Cap := ⟨c.bits.extractLsb' 116 12 ++ 0#3 ++ c.bits.extractLsb' 64 49 ++ BitVec.ofNat 64 x, true⟩
  { d with tag := decide (d.base = c.base ∧ d.top = c.top) }

/-- What an export capability of this package becomes when it comes back (24 R434): the original at its offset when its
entry is valid and of its generation, with a tag when it has one and its bounds stay (04 R85, R90); untagged otherwise. -/
inductive ComesBack (s : State) (c : Cap) : Cap → Prop
  | original (h0 : s.fabric.exppa ≠ 0) (hk : c.addr / 2 ^ 28 % 2 ^ 12 < s.fabric.exportCount)
    (hv : (s.readPhys (s.fabric.exportAt (c.addr / 2 ^ 28 % 2 ^ 12) + 16) 4).testBit 15 = true)
    (hg : s.readPhys (s.fabric.exportAt (c.addr / 2 ^ 28 % 2 ^ 12) + 16) 4 / 2 ^ 16 % 2 ^ 16
      = (c.bits.extractLsb' 76 16).toNat) :
    ComesBack s c (let o := s.capPhys (s.fabric.exportAt (c.addr / 2 ^ 28 % 2 ^ 12))
      let r := newCursor o ((o.base + c.addr % 2 ^ 28) % 2 ^ 64)
      { r with tag := o.tag && r.tag })
  | stale (h : ¬ (s.fabric.exppa ≠ 0 ∧ c.addr / 2 ^ 28 % 2 ^ 12 < s.fabric.exportCount
      ∧ (s.readPhys (s.fabric.exportAt (c.addr / 2 ^ 28 % 2 ^ 12) + 16) 4).testBit 15 = true
      ∧ s.readPhys (s.fabric.exportAt (c.addr / 2 ^ 28 % 2 ^ 12) + 16) 4 / 2 ^ 16 % 2 ^ 16
        = (c.bits.extractLsb' 76 16).toNat)) : ComesBack s c { c with tag := false }

/-! ### Issue choice (21 R398) -/

/-- `a` comes no later than `b` in age order after age `last`, wrapping; from the oldest when nothing has issued yet. -/
def InTurn (last : Option Nat) (a b : Agent) : Prop :=
  match last with
  | none => a.age ≤ b.age
  | some n => (n < a.age ∧ (n < b.age → a.age ≤ b.age)) ∨ (a.age ≤ n ∧ b.age ≤ n ∧ a.age ≤ b.age)

/-- The group that a slot of a partition takes: of the highest class among the candidates, one under a pause only when
all of that class are, the next in turn after the one that last issued from the class. -/
structure Takes (s : State) (die core part : Nat) (lane : Bool) (a : Agent) : Prop where
  candidate : a ∈ s.candidates die core part lane
  top : ∀ b ∈ s.candidates die core part lane, s.issueClass lane b ≤ s.issueClass lane a
  pause : s.paused a = true → ∀ b ∈ s.candidates die core part lane, s.issueClass lane b = s.issueClass lane a →
    s.paused b = true
  turn : ∀ b ∈ s.candidates die core part lane, s.issueClass lane b = s.issueClass lane a → s.paused b = s.paused a →
    InTurn ((s.lastIssued.find? fun e => e.1 == rotationKey die core part lane (s.issueClass lane a)).map (·.2)) a b

/-- The steps in which the two groups taken issue, in one clk. -/
def slotsOf (l c : Option Agent) : List Slot :=
  (match l with
    | some a => [.focus a.id, .issue true]
    | none => [])
  ++ match c with
    | some a => [.focus a.id, .issue false]
    | none => []

/-- The slot of a stream in a partition has taken its group in this clk. -/
def Filled (s : State) (die core part : Nat) (lane : Bool) : Prop := slotKey die core part lane ∈ s.filled

/-- The groups that want a slot and do not get it wait one clk longer, at most 4,096 before they are promoted; `b` becomes
`b'`. -/
def WaitsOn (s : State) (lane : Bool) (b b' : Agent) : Prop :=
  (∃ x ∈ s.candidates s.ag.die s.ag.core s.ag.part lane, x.id = b.id) ∧
      b' = b.setWaited lane (max (b.waited lane) (min 4096 (b.waited lane + 1)))
    ∨ (∀ x ∈ s.candidates s.ag.die s.ag.core s.ag.part lane, x.id ≠ b.id) ∧ b' = b

end Sys2Proof.Claims
end

