-- ==== Sys2Proof/Certificates/Slice0/DeviceTerms.lean ====
section
/-!
DEFINITION. The terms of the statements about the events of the device: for each, when it happens, and the state it
leaves: the coherence protocol, caches and clocks, registers of the control window, links and ports, power, resets.
-/

namespace Sys2Proof.Claims

open Machine

/-! ### The coherence protocol (23 R416 to R424) -/

/-- Message `m`, number `k`, of the given kind is in flight, for the line whose entry at the home is `e`; a read is not
behind a write that waits at the home (23 R411). -/
def Arrives (s : State) (k : Nat) (kind : MsgKind) (m : Msg) (e : DirEntry) : Prop :=
  (s.coh.msgs.find? fun x => x.id == k && x.kind == kind) = some m ∧ s.entry m.line = e
    ∧ ((kind = .getS ∨ kind = .getSub) → s.writeSent m.line = false)

/-- The message has been taken: it is in flight no more. -/
def taken (s : State) (k : Nat) : State :=
  { s with coh := { s.coh with msgs := s.coh.msgs.filter fun m => m.id != k } }

/-- Data of a line from the home to die `d`, granting state `st`. -/
def homeData (line d : Nat) (st : Mesi) : Msg := ⟨0, .data, line, 5, d, 5, 0, false, st, none⟩

/-- A plain message from `src` to `dst`. -/
def plainMsg (kind : MsgKind) (line src dst : Nat) : Msg := ⟨0, kind, line, src, dst, 5, 0, false, .s, none⟩

/-- The entry of an owned line while its owner is asked to serve die `d`. -/
def forwarding (e : DirEntry) (want : MsgKind) (d fmt : Nat) (upd : Bool) : DirEntry :=
  { e with
    st := .transient
    want := want
    req := d
    fmt := fmt
    upd := upd
    fwdTo := some e.owner }

/-- What each request does at its home when the line's entry is at rest, and what the answers do. -/
inductive HomeEvent (s : State) : Instr → State → Prop
  | getsOwner (k : Nat) (m : Msg) (e : DirEntry) (h : Arrives s k .getS m e) (ho : e.st = .owned) (hd : e.owner = m.src) :
    HomeEvent s (.gets k) ((taken s k).send (homeData m.line m.src .e))
  | getsOwned (k : Nat) (m : Msg) (e : DirEntry) (h : Arrives s k .getS m e) (ho : e.st = .owned) (hd : e.owner ≠ m.src) :
    HomeEvent s (.gets k) (((taken s k).setDir (forwarding e .getS m.src 0 false)).send
      { plainMsg .fwdS e.line 5 e.owner with req := m.src })
  | getsAlone (k : Nat) (m : Msg) (e : DirEntry) (h : Arrives s k .getS m e) (ho : e.st = .uncached ∨ e.st = .shared)
    (hm : ∀ x ∈ e.members, x.die = m.src ∧ x.fmt = 0) :
    HomeEvent s (.gets k) (((taken s k).setDir (e.ownedBy m.src)).send (homeData m.line m.src .e))
  | getsShared (k : Nat) (m : Msg) (e : DirEntry) (h : Arrives s k .getS m e) (ho : e.st = .uncached ∨ e.st = .shared)
    (hm : ∃ x ∈ e.members, ¬ (x.die = m.src ∧ x.fmt = 0)) :
    HomeEvent s (.gets k) (((taken s k).setDir (e.rest (e.others m.src ++ [⟨m.src, false, 0⟩]))).send
      (homeData m.line m.src .s))
  | getsub (k : Nat) (m : Msg) (e : DirEntry) (h : Arrives s k .getSub m e) (ho : e.st = .uncached ∨ e.st = .shared) :
    HomeEvent s (.getsub k) (((taken s k).setDir (e.rest (e.others m.src ++ [⟨m.src, m.upd, m.fmt⟩]))).send
      { homeData m.line m.src .sub with
        fmt := m.fmt
        upd := m.upd })
  | getsubOwned (k : Nat) (m : Msg) (e : DirEntry) (h : Arrives s k .getSub m e) (ho : e.st = .owned)
    (hd : e.owner ≠ m.src) :
    HomeEvent s (.getsub k) (((taken s k).setDir (forwarding e .getSub m.src m.fmt m.upd)).send
      (plainMsg .fwdS e.line 5 e.owner))
  | getxOwned (k : Nat) (m : Msg) (e : DirEntry) (h : Arrives s k .getX m e) (ho : e.st = .owned) (hd : e.owner ≠ m.src) :
    HomeEvent s (.getx k) (((taken s k).setDir (forwarding e .getX m.src 0 false)).send
      { plainMsg .fwdX e.line 5 e.owner with req := m.src })
  | getxAlone (k : Nat) (m : Msg) (e : DirEntry) (h : Arrives s k .getX m e) (ho : e.st = .uncached ∨ e.st = .shared)
    (hm : ∀ x ∈ e.members, x.die = m.src) :
    HomeEvent s (.getx k) (((taken s k).setDir (e.ownedBy m.src)).send (homeData m.line m.src .e))
  | getxSubscribed (k : Nat) (m : Msg) (e : DirEntry) (h : Arrives s k .getX m e)
    (ho : e.st = .uncached ∨ e.st = .shared) (hm : ∃ x ∈ e.members, x.die ≠ m.src ∧ x.fmt ≠ 0) :
    HomeEvent s (.getx k) (((taken s k).setDir (e.rest (e.others m.src))).dropRdc m.src m.line)
  | getxShared (k : Nat) (m : Msg) (e : DirEntry) (h : Arrives s k .getX m e) (ho : e.st = .uncached ∨ e.st = .shared)
    (hn : e.others m.src ≠ []) (hm : ∀ x ∈ e.members, x.die ≠ m.src → x.fmt = 0) :
    HomeEvent s (.getx k) ((e.others m.src).foldl (fun s x => s.send (plainMsg .inv m.line 5 x.die))
      ((taken s k).setDir { e with
        st := .transient
        want := .getX
        req := m.src
        acks := (e.others m.src).length }))
  | wrhOwned (k : Nat) (m : Msg) (e : DirEntry) (t : Nat × Nat) (a : Agent) (o : Op) (h : Arrives s k .wrH m e)
    (ht : m.txn = some t) (ha : s.agent? t.1 = some a) (hf : (a.outst.find? fun o => o.num == t.2 && !o.performed) = some o)
    (ho : e.st = .owned) : HomeEvent s (.wrh k) ((taken s k).recall m.line true (some t))
  | wrh (k : Nat) (m : Msg) (e : DirEntry) (t : Nat × Nat) (a : Agent) (o : Op) (h : Arrives s k .wrH m e)
    (ht : m.txn = some t) (ha : s.agent? t.1 = some a) (hf : (a.outst.find? fun o => o.num == t.2 && !o.performed) = some o)
    (ho : e.st = .uncached ∨ e.st = .shared) :
    HomeEvent s (.wrh k)
      ((taken s k).makeRoom ((taken s k).performAccs a o false).1 m.line m.src t)
  | putx (k : Nat) (m : Msg) (e : DirEntry) (h : Arrives s k .putX m e) (ho : e.st = .owned) (hd : e.owner = m.src) :
    HomeEvent s (.putx k) (((taken s k).setDir (e.rest [])).send (plainMsg .wbAck m.line 5 m.src))
  | putxLate (k : Nat) (m : Msg) (e : DirEntry) (h : Arrives s k .putX m e) (ho : ¬ (e.st = .owned ∧ e.owner = m.src))
    (hf : ¬ (e.st = .transient ∧ e.fwdTo = some m.src)) :
    HomeEvent s (.putx k) ((taken s k).send (plainMsg .wbAck m.line 5 m.src))
  | ackForward (k : Nat) (m : Msg) (e : DirEntry) (h : Arrives s k .ack m e) (ho : e.st = .transient)
    (hf : e.fwdTo = some m.src) : HomeEvent s (.ack k) ((taken s k).setDir (e.ownedBy e.req))
  | ackMore (k : Nat) (m : Msg) (e : DirEntry) (h : Arrives s k .ack m e) (ho : e.st = .transient)
    (hf : e.fwdTo ≠ some m.src) (hn : 1 < e.acks) : HomeEvent s (.ack k) ((taken s k).setDir { e with
        acks := e.acks - 1
        members := if m.upd then e.members else e.others m.src
        served := if m.upd then m.src :: e.served else e.served })
  | ackLast (k : Nat) (m : Msg) (e : DirEntry) (h : Arrives s k .ack m e) (ho : e.st = .transient)
    (hf : e.fwdTo ≠ some m.src) (hn : e.acks = 1) (hw : e.want = .getX) (hr : e.req ≠ 5) :
    HomeEvent s (.ack k) (((taken s k).setDir (e.ownedBy e.req)).send (homeData e.line e.req .e))
  | dataShared (k : Nat) (m : Msg) (e : DirEntry) (h : Arrives s k .data m e) (hd : m.dst = 5) (ho : e.st = .transient)
    (hf : e.fwdTo = some m.src) (hw : e.want = .getS) (hr : e.req ≠ 5) :
    HomeEvent s (.data k) ((taken s k).setDir
      (e.rest ((if m.upd then [⟨m.src, false, 0⟩] else []) ++ [⟨e.req, false, 0⟩])))
  | dataFills (k : Nat) (m : Msg) (e : DirEntry) (h : Arrives s k .data m e) (hd : m.dst ≠ 5) :
    HomeEvent s (.data k) ((taken s k).setRdc ⟨m.dst, m.line, m.st, m.fmt, false⟩)

/-- An early write of a core in a line that no operation under way is to perform: a narrow store, or what an operation that
has ended has left (23 R414, log 8). -/
def leftBehind (s : State) (die core line : Nat) (e : Early) : Bool :=
  e.seat.die == die && e.seat.core == core && e.inLine line
    && !(!e.narrow && (s.agent? e.seat.agent).any fun a => a.outst.any fun o => o.num == e.num && !o.performed)

/-- What the messages from the home do at a die's remote data cache, and what the cache does with its own lines. -/
inductive CacheEvent (s : State) : Instr → State → Prop
  | inv (k : Nat) (m : Msg) (e : DirEntry) (h : Arrives s k .inv m e)
    (hl : s.leaseDone m.dst m.line = true ∨ ∃ r, s.rdcAt m.dst m.line = some r ∧ r.st = .sub) :
    CacheEvent s (.inv k) (((taken s k).dropRdc m.dst m.line).send (plainMsg .ack m.line m.dst 5))
  | fwds (k : Nat) (m : Msg) (e : DirEntry) (r : RdcLine) (h : Arrives s k .fwdS m e)
    (hr : s.rdcAt m.dst m.line = some r) (hw : r.wb = false) (hq : m.req ≠ 5) :
    CacheEvent s (.fwds k) ((((taken s k).setRdc { r with st := .s }).send
      { plainMsg .data m.line m.dst 5 with upd := true }).send (plainMsg .data m.line m.dst m.req))
  | fwdx (k : Nat) (m : Msg) (e : DirEntry) (r : RdcLine) (h : Arrives s k .fwdX m e)
    (hr : s.rdcAt m.dst m.line = some r) (hw : r.wb = false) (hq : m.req ≠ 5) (hl : s.leaseDone m.dst m.line = true) :
    CacheEvent s (.fwdx k) ((((taken s k).dropRdc m.dst m.line).send
      { plainMsg .data m.line m.dst m.req with st := .e }).send (plainMsg .ack m.line m.dst 5))
  | upd (k : Nat) (m : Msg) (e : DirEntry) (h : Arrives s k .upd m e) :
    CacheEvent s (.upd k) ((taken s k).send { plainMsg .ack m.line m.dst 5 with upd := true })
  | wback (k : Nat) (m : Msg) (e : DirEntry) (r : RdcLine) (h : Arrives s k .wbAck m e)
    (hr : s.rdcAt m.dst m.line = some r) (hw : r.wb = true) :
    CacheEvent s (.wback k) ((taken s k).dropRdc m.dst m.line)
  | evictShared (die line : Nat) (r : RdcLine) (hr : s.rdcAt die line = some r) (ha : s.asking die line = false)
    (hs : r.st = .s ∨ r.st = .sub) :
    CacheEvent s (.rdcEviction die line) ((s.dropRdc die line).forgetLease die line)
  | evictOwned (die line : Nat) (r : RdcLine) (hr : s.rdcAt die line = some r) (ha : s.asking die line = false)
    (hs : r.st = .m ∨ r.st = .e) (hl : s.leaseDone die line = true) :
    CacheEvent s (.rdcEviction die line) ((s.setRdc { r with wb := true }).send (plainMsg .putX line die 5))
  | lease (die core line : Nat) (l : L1Line) (h : s.l1 die core line = some l) (hr : l.ro = none)
    (hd : ∀ e ∈ s.coh.early, ¬ (e.narrowOf die core = true ∧ e.inLine line = true))
    (he : l.expiry ≤ s.localTime (64 + 48 * die + core) + 20) :
    CacheEvent s (.leaseExpiry die core line) { s with coh := { s.coh with
      l1 := s.coh.l1.filter fun x => !(x.die == die && x.core == core && x.line == line) } }
  | writeBack (die core line : Nat) (ho : s.drainOk (leftBehind s die core line) = true) :
    CacheEvent s (.dirtyWriteBack die core line) (s.drain (leftBehind s die core line))
  | published (die core line : Nat) (n : Note) (hn : n ∈ s.coh.notes) (hd : n.seat.die = die) (hc : n.seat.core = core)
    (hs : n.seat.sys = false) (hl : n.place = .pa (128 * line)) (hp : s.publishOk die core = true) :
    CacheEvent s (.forcedPublish die core line) (s.drain (Early.narrowOf die core))
  | clockStop (die core : Nat) (hp : s.publishOk die core = true) :
    CacheEvent s (.clockStop die core) { s.publish die core with coh := { (s.publish die core).coh with
      l1 := (s.publish die core).coh.l1.filter fun l => !(l.die == die && l.core == core) } }

/-! ### Time (01 R25, R26; 21 R399; 26 R457) -/

/-- The copy of device time that `key` names is set to the master; its reading holds until the master has caught up. -/
def copySet (s : State) (key : Nat) : State :=
  { s with
    clockOff := s.clockOff.filter fun e => e.1 != key
    clockHold := (key, s.localTime key) :: s.clockHold.filter fun e => e.1 != key }

inductive TimeEvent (s : State) : Instr → State → Prop
  | tick : TimeEvent s .deviceTimeTick (({ s with
      time := s.time + 1
      launches := s.launches.map fun l => l.charge (s.stampOf l)
      ctxs := s.ctxs.map (s.chargeCtx (s.time + 1)) } : State).updAll fun a => { a with sinks := 0 }).noteWaiting
  | inTime (key : Nat) (h : -20 ≤ s.clockOffset key ∧ s.clockOffset key ≤ 20) : TimeEvent s (.timeCopyCheck key) s
  | system (key : Nat) (h : s.clockOffset key < -20 ∨ 20 < s.clockOffset key) (hk : key < 64) :
    TimeEvent s (.timeCopyCheck key) ((copySet s key).logEvent 4 key)
  | core (die core : Nat) (hc : core < 48) (hd : die < 4)
    (h : s.clockOffset (64 + 48 * die + core) < -20 ∨ 20 < s.clockOffset (64 + 48 * die + core))
    (hp : s.publishOk die core = true) :
    TimeEvent s (.timeCopyCheck (64 + 48 * die + core))
      (((copySet s (64 + 48 * die + core)).logEvent 4 (64 + 48 * die + core)).emptyL1 die core)
  | unitBehind (u : Nat) (hu : u < 5) (h : s.clockOffset (256 + u) < -20) :
    TimeEvent s (.timeCopyCheck (256 + u)) { (copySet s (256 + u)).logEvent 4 (256 + u) with
      coh := { s.coh with
        emax := (u, max (s.emax u) (s.time + 2020)) :: s.coh.emax.filter fun e => e.1 != u } }
  | otherBehind (u : Nat) (hu : 5 ≤ u) (h : s.clockOffset (256 + u) < -20) :
    TimeEvent s (.timeCopyCheck (256 + u)) ((copySet s (256 + u)).logEvent 4 (256 + u))
  | unitAhead (u : Nat) (h : 20 < s.clockOffset (256 + u)) :
    TimeEvent s (.timeCopyCheck (256 + u)) ((copySet s (256 + u)).logEvent 4 (256 + u))

end Sys2Proof.Claims
end

