-- ==== Sys2Proof/Certificates/Slice0/LaneTerms.lean ====
section
/-!
DEFINITION. The terms of the statements about the lane stream: when a lane instruction issues, what its results are in
each active lane, what it leaves under way.
-/

namespace Sys2Proof.Claims

open Machine

/-! ### Issue (02 R12; 03 R60, R77) -/

/-- A lane instruction with header `h` that names these vector registers and reads these places issues its effect: every
register lies within the budget, and in hazard-check mode nothing it reads is unsettled. -/
def LaneReady (s : State) (h : LaneHdr) (names : List Nat) (reads : List LaneRead) : Prop :=
  (∀ n ∈ names, n < s.ag.budget)
    ∧ (s.ag.hchk = true → ∀ r ∈ LaneRead.p h.gp :: reads, s.laneHazard (s.laneActive h) r = none)

/-- The active lanes, rising: those of the mask whose guard predicate is not `gn` (02 R12). -/
def active (s : State) (h : LaneHdr) : List Nat := lanesOf (s.laneActive h)

/-- fsr.LL of an instruction with an active lane that reads a lost latch (03 R72). -/
def lostFlag (s : State) (h : LaneHdr) (reads : List LaneRead) : Flags :=
  if s.laneActive h ≠ 0 ∧ reads.any s.readsLost = true then 0x80 else 0

/-- The agent after a lane instruction that leaves `a`, whose own results are `ws` at latency `lat` and whose latch value
is `res`: the results are in flight until `lat` clk after the issue (03 R66), the block goes on (02 R38), the latches
move once an issue slot (03 R70). A first of a pair keeps its latch value for the second. -/
def LaneEnds (s t : State) (lat : Nat) (ws : List (Loc × Word)) (res : Option Latch) : Prop :=
  let goes := s.ag.nextLane
  OnlyFocus s t ∧ t.issues = (if s.ag.pairing = .first then s.issues else s.issues + 1)
    ∧ t.ag = { s.ag with
      blocks := goes.blocks
      replays := goes.replays
      focusStack := goes.focusStack
      toks := goes.toks
      ktk := goes.ktk
      sinks := goes.sinks
      pend := s.ag.pend ++ ws.map fun w => ⟨s.clk + lat, s.ag.nextOp, w.1, w.2⟩
      nextOp := if ws = [] then s.ag.nextOp else s.ag.nextOp + 1
      pairing := if s.ag.pairing = .first then .first else .single
      firstLatch := match s.ag.pairing with
        | .first => res
        | .second _ => none
        | .single => s.ag.firstLatch
      latches := match s.ag.pairing with
        | .first => s.ag.latches
        | .second _ => [s.ag.firstLatch, res, s.ag.latches.getD 0 none, s.ag.latches.getD 1 none]
        | .single => [res, none, s.ag.latches.getD 0 none, s.ag.latches.getD 1 none] }

/-- A lane instruction that computes: what it names and reads, its latency, what it writes, flags among it, and its latch
value. -/
structure LaneForm where
  hdr : LaneHdr
  names : List Nat
  reads : List LaneRead
  lat : Nat
  writes : List (Loc × Word)
  flags : Flags
  latch : Option Latch

/-- All a form writes: its results and the flags it sets. -/
def LaneForm.all (f : LaneForm) (s : State) : List (Loc × Word) :=
  let fl := lostFlag s f.hdr f.reads ||| f.flags
  if fl = 0 then f.writes else f.writes ++ [(.fsr, fl)]

/-- A compute form: `f` gives each active lane's value and flags; the value goes to `d` and to the latch of the issue
slot, whose other lanes are free (03 R70, R73). -/
def computes (s : State) (h : LaneHdr) (names : List Nat) (reads : List LaneRead) (lat : Nat) (pair : Bool) (d : Dst)
    (f : Nat → DWord × Flags) : LaneForm :=
  ⟨h, names, reads, lat, (active s h).flatMap fun l => dstWrites pair d l (f l).1,
    joinFlags ((active s h).map fun l => (f l).2),
    some (mkLatch (s.clk + lat) pair ((active s h).map fun l => (l, (f l).1)))⟩

/-- A predicate form, at latency 2 and with no latch value. -/
def decides (s : State) (h : LaneHdr) (names : List Nat) (reads : List LaneRead) (p : Nat) (f : Nat → Bool × Flags) :
    LaneForm :=
  ⟨h, names, reads, 2, (active s h).map fun l => (.p p l, if (f l).1 then 1 else 0),
    joinFlags ((active s h).map fun l => (f l).2), none⟩

/-- A form whose results are given lane by lane as writes, with no latch value. -/
def writesEach (s : State) (h : LaneHdr) (names : List Nat) (reads : List LaneRead) (lat : Nat)
    (f : Nat → List (Loc × Word)) : LaneForm :=
  ⟨h, names, reads, lat, (active s h).flatMap f, 0, none⟩

/-! ### Integer forms (09 R196 to R198) -/

def int1 (s : State) (h : LaneHdr) (d : Dst) (ty : Ty) (lat : Nat) (a : Src) (f : DWord → DWord × Flags) : LaneForm :=
  computes s h (dstNames ty.isPair d ++ srcNames ty.isPair a) (srcReads ty.isPair a) lat ty.isPair d
    fun l => f (s.srcInt ty.isPair l a)

def int2 (s : State) (h : LaneHdr) (d : Dst) (ty : Ty) (lat : Nat) (a b : Src) (f : DWord → DWord → DWord × Flags) :
    LaneForm :=
  computes s h (dstNames ty.isPair d ++ srcNames ty.isPair a ++ srcNames ty.isPair b)
    (srcReads ty.isPair a ++ srcReads ty.isPair b) lat ty.isPair d
    fun l => f (s.srcInt ty.isPair l a) (s.srcInt ty.isPair l b)

def int3 (s : State) (h : LaneHdr) (d : Dst) (ty : Ty) (a b c : Src) (f : DWord → DWord → DWord → DWord × Flags) :
    LaneForm :=
  computes s h (dstNames ty.isPair d ++ srcNames ty.isPair a ++ srcNames ty.isPair b ++ srcNames ty.isPair c)
    (srcReads ty.isPair a ++ srcReads ty.isPair b ++ srcReads ty.isPair c) 4 ty.isPair d
    fun l => f (s.srcInt ty.isPair l a) (s.srcInt ty.isPair l b) (s.srcInt ty.isPair l c)

/-- An exact result brought into the type: wrapped, or with .sat clamped and then flagged (05 R107). -/
def fitted (ty : Ty) (sat : Bool) (x : Int) : DWord × Flags :=
  if sat then (intRes ty (max (tyLo ty) (min (tyHi ty) x)), if tyLo ty ≤ x ∧ x ≤ tyHi ty then 0 else 0x20)
  else (intRes ty x, 0)

/-- A result on bit patterns: no flag. -/
def pattern (ty : Ty) (n : Nat) : DWord × Flags := (intRes ty n, 0)

/-- The pattern of an operand read as signed. -/
def asSigned (ty : Ty) (x : DWord) : Int :=
  if 2 ^ (ty.bits - 1) ≤ x.toNat % 2 ^ ty.bits then ((x.toNat % 2 ^ ty.bits : Nat) : Int) - 2 ^ ty.bits
  else (x.toNat % 2 ^ ty.bits : Nat)

/-- The integer instructions of the lane stream. -/
inductive LaneInteger (s : State) : Instr → LaneForm → Prop
  | iadd (h : LaneHdr) (d : Dst) (ty : Ty) (sat : Bool) (a b : Src) : LaneInteger s (.iadd h d ty sat a b)
    (int2 s h d ty 2 a b fun x y => fitted ty sat (intVal ty x + intVal ty y))
  | isub (h : LaneHdr) (d : Dst) (ty : Ty) (sat : Bool) (a b : Src) : LaneInteger s (.isub h d ty sat a b)
    (int2 s h d ty 2 a b fun x y => fitted ty sat (intVal ty x - intVal ty y))
  | imul (h : LaneHdr) (d : Dst) (ty : Ty) (sat : Bool) (a b : Src) : LaneInteger s (.imul h d ty sat a b)
    (int2 s h d ty 4 a b fun x y => fitted ty sat (intVal ty x * intVal ty y))
  | imulhi (h : LaneHdr) (d : Dst) (ty : Ty) (a b : Src) : LaneInteger s (.imulhi h d ty a b)
    (int2 s h d ty 4 a b fun x y => (intRes ty (intVal ty x * intVal ty y / 2 ^ ty.bits), 0))
  | imad (h : LaneHdr) (d : Dst) (ty : Ty) (sat : Bool) (a b c : Src) : LaneInteger s (.imad h d ty sat a b c)
    (int3 s h d ty a b c fun x y z => fitted ty sat (intVal ty x * intVal ty y + intVal ty z))
  | imin (h : LaneHdr) (d : Dst) (ty : Ty) (a b : Src) : LaneInteger s (.imin h d ty a b)
    (int2 s h d ty 2 a b fun x y => (intRes ty (min (intVal ty x) (intVal ty y)), 0))
  | imax (h : LaneHdr) (d : Dst) (ty : Ty) (a b : Src) : LaneInteger s (.imax h d ty a b)
    (int2 s h d ty 2 a b fun x y => (intRes ty (max (intVal ty x) (intVal ty y)), 0))
  | iabs (h : LaneHdr) (d : Dst) (ty : Ty) (sat : Bool) (a : Src) : LaneInteger s (.iabs h d ty sat a)
    (int1 s h d ty 2 a fun x => fitted ty sat ((intVal ty x).natAbs))
  | ineg (h : LaneHdr) (d : Dst) (ty : Ty) (sat : Bool) (a : Src) : LaneInteger s (.ineg h d ty sat a)
    (int1 s h d ty 2 a fun x => fitted ty sat (-intVal ty x))
  | iand (h : LaneHdr) (d : Dst) (ty : Ty) (a b : Src) : LaneInteger s (.iand h d ty a b)
    (int2 s h d ty 2 a b fun x y => pattern ty (x &&& y).toNat)
  | ior (h : LaneHdr) (d : Dst) (ty : Ty) (a b : Src) : LaneInteger s (.ior h d ty a b)
    (int2 s h d ty 2 a b fun x y => pattern ty (x ||| y).toNat)
  | ixor (h : LaneHdr) (d : Dst) (ty : Ty) (a b : Src) : LaneInteger s (.ixor h d ty a b)
    (int2 s h d ty 2 a b fun x y => pattern ty (x ^^^ y).toNat)
  | iandn (h : LaneHdr) (d : Dst) (ty : Ty) (a b : Src) : LaneInteger s (.iandn h d ty a b)
    (int2 s h d ty 2 a b fun x y => pattern ty (x &&& ~~~y).toNat)
  | inot (h : LaneHdr) (d : Dst) (ty : Ty) (a : Src) : LaneInteger s (.inot h d ty a)
    (int1 s h d ty 2 a fun x => pattern ty (~~~x).toNat)
  | isel (h : LaneHdr) (d : Dst) (ty : Ty) (a b : Src) (p : Nat) : LaneInteger s (.isel h d ty a b p)
    (computes s h (dstNames ty.isPair d ++ srcNames ty.isPair a ++ srcNames ty.isPair b)
      (srcReads ty.isPair a ++ srcReads ty.isPair b ++ [.p p]) 2 ty.isPair d fun l =>
      pattern ty (if s.rd (.p p l) ≠ 0 then s.srcInt ty.isPair l a else s.srcInt ty.isPair l b).toNat)
  | ishl (h : LaneHdr) (d : Dst) (ty : Ty) (a b : Src) : LaneInteger s (.ishl h d ty a b)
    (int2 s h d ty 2 a b fun x y => pattern ty (x.toNat % 2 ^ ty.bits * 2 ^ (y.toNat % 256)))
  | ishr (h : LaneHdr) (d : Dst) (ty : Ty) (a b : Src) : LaneInteger s (.ishr h d ty a b)
    (int2 s h d ty 2 a b fun x y => pattern ty (x.toNat % 2 ^ ty.bits / 2 ^ (y.toNat % 256)))
  | isra (h : LaneHdr) (d : Dst) (ty : Ty) (a b : Src) : LaneInteger s (.isra h d ty a b)
    (int2 s h d ty 2 a b fun x y => (intRes ty (asSigned ty x / 2 ^ (y.toNat % 256)), 0))
  | ipopc (h : LaneHdr) (d : Dst) (ty : Ty) (a : Src) : LaneInteger s (.ipopc h d ty a)
    (int1 s h d ty 4 a fun x => pattern ty ((List.range ty.bits).countP x.getLsbD))
  | iclz (h : LaneHdr) (d : Dst) (ty : Ty) (a : Src) : LaneInteger s (.iclz h d ty a)
    (int1 s h d ty 4 a fun x => pattern ty
      ((List.range ty.bits).reverse.takeWhile fun k => !x.getLsbD k).length)
  | laneBrev (h : LaneHdr) (d : Dst) (ty : Ty) (a : Src) : LaneInteger s (.laneBrev h d ty a)
    (int1 s h d ty 4 a fun x => pattern ty
      ((List.range ty.bits).map fun k => if x.getLsbD (ty.bits - 1 - k) then 2 ^ k else 0).sum)
  | prmt (h : LaneHdr) (d : Dst) (a b c : Src) : LaneInteger s (.prmt h d a b c)
    (int3 s h d .n32 a b c fun x y z =>
      pattern .n32 (prmtWord (x.toNat % 2 ^ 32) (y.toNat % 2 ^ 32) (z.toNat % 2 ^ 32)))
  | laneBfe (h : LaneHdr) (d : Dst) (ty : Ty) (a b : Src) : LaneInteger s (.laneBfe h d ty a b)
    (int2 s h d ty 4 a b fun x y =>
      let len := (fieldCtl ty.bits y).2
      let f := x.toNat % 2 ^ ty.bits / 2 ^ (fieldCtl ty.bits y).1 % 2 ^ len
      if len = 0 then (0, 0)
      else if ty.isSigned = true ∧ 2 ^ (len - 1) ≤ f then (intRes ty ((f : Int) - 2 ^ len), 0) else pattern ty f)
  | laneBfi (h : LaneHdr) (d : Dst) (ty : Ty) (a b c : Src) : LaneInteger s (.laneBfi h d ty a b c)
    (int3 s h d ty a b c fun x y z =>
      let pos := (fieldCtl ty.bits z).1
      let len := (fieldCtl ty.bits z).2
      let w := y.toNat % 2 ^ ty.bits
      pattern ty (w % 2 ^ pos + x.toNat % 2 ^ len * 2 ^ pos + w / 2 ^ (pos + len) * 2 ^ (pos + len)))
  | idp4 (h : LaneHdr) (d : Dst) (ty : Ty) (sat : Bool) (a b c : Src) : LaneInteger s (.idp4 h d ty sat a b c)
    (int3 s h d ty a b c fun x y z => fitted ty sat (intVal ty z + dotBytes ty x y))
  | mov (h : LaneHdr) (d : Dst) (ty : Ty) (a : Src) : LaneInteger s (.mov h d ty a)
    (int1 s h d ty 2 a fun x => pattern ty x.toNat)
  | movi (h : LaneHdr) (d : Dst) (imm : Nat) : LaneInteger s (.movi h d imm)
    (computes s h (dstNames false d) [] 2 false d fun _ => (BitVec.ofNat 64 imm, 0))
  | rnd (h : LaneHdr) (d : Dst) (k : Nat) (c : Src) : LaneInteger s (.rnd h d k c)
    (computes s h (dstNames false d ++ srcNames true c) ([.s k, .s (k + 1)] ++ srcReads true c) 12 false d fun l =>
      ((rndMix (s.rp k) (s.srcPair l c)).setWidth 64, 0))

/-! ### Floating point and conversions (09 R199 to R205) -/

def fp1 (s : State) (f : Fmt) (h : LaneHdr) (d : Dst) (lat : Nat) (a : Src) (g : Nat → FRes) : LaneForm :=
  computes s h (dstNames (f.width == 64) d ++ srcNames (f.width == 64) a) (srcReads (f.width == 64) a) lat
    (f.width == 64) d fun l => (BitVec.ofNat 64 (g (s.srcFp f l a)).code, (g (s.srcFp f l a)).flags)

def fp2 (s : State) (f : Fmt) (h : LaneHdr) (d : Dst) (lat : Nat) (a b : Src) (g : Nat → Nat → FRes) : LaneForm :=
  computes s h (dstNames (f.width == 64) d ++ srcNames (f.width == 64) a ++ srcNames (f.width == 64) b)
    (srcReads (f.width == 64) a ++ srcReads (f.width == 64) b) lat (f.width == 64) d fun l =>
    (BitVec.ofNat 64 (g (s.srcFp f l a) (s.srcFp f l b)).code, (g (s.srcFp f l a) (s.srcFp f l b)).flags)

def fp3 (s : State) (f : Fmt) (h : LaneHdr) (d : Dst) (lat : Nat) (a b c : Src) (g : Nat → Nat → Nat → FRes) :
    LaneForm :=
  computes s h
    (dstNames (f.width == 64) d ++ srcNames (f.width == 64) a ++ srcNames (f.width == 64) b
      ++ srcNames (f.width == 64) c)
    (srcReads (f.width == 64) a ++ srcReads (f.width == 64) b ++ srcReads (f.width == 64) c) lat (f.width == 64) d
    fun l => (BitVec.ofNat 64 (g (s.srcFp f l a) (s.srcFp f l b) (s.srcFp f l c)).code,
      (g (s.srcFp f l a) (s.srcFp f l b) (s.srcFp f l c)).flags)

/-- Element `e` of a packed register. -/
def half (e x : Nat) : Nat := x / 2 ^ (16 * e) % 2 ^ 16

/-- The two elements of a packed result, with the flags of both (09 R202). -/
def both (r t : FRes) : DWord × Flags := (BitVec.ofNat 64 (r.code + t.code * 2 ^ 16), r.flags ||| t.flags)

def packed2 (s : State) (f : Fmt) (h : LaneHdr) (d : Dst) (a b : Src) (g : Nat → Nat → FRes) : LaneForm :=
  computes s h (dstNames false d ++ srcNames false a ++ srcNames false b) (srcReads false a ++ srcReads false b) 4 false
    d fun l => both (g (half 0 (s.srcPacked f l a)) (half 0 (s.srcPacked f l b)))
      (g (half 1 (s.srcPacked f l a)) (half 1 (s.srcPacked f l b)))

def packed3 (s : State) (f : Fmt) (h : LaneHdr) (d : Dst) (a b c : Src) (g : Nat → Nat → Nat → FRes) : LaneForm :=
  computes s h (dstNames false d ++ srcNames false a ++ srcNames false b ++ srcNames false c)
    (srcReads false a ++ srcReads false b ++ srcReads false c) 4 false
    d fun l =>
      both (g (half 0 (s.srcPacked f l a)) (half 0 (s.srcPacked f l b)) (half 0 (s.srcPacked f l c)))
        (g (half 1 (s.srcPacked f l a)) (half 1 (s.srcPacked f l b)) (half 1 (s.srcPacked f l c)))

/-- The sign bit cleared, or inverted: the rest of the code is kept, NaN payloads too, and no flag is set (09 R200). -/
def signCleared (x : Nat) : FRes := ⟨x % 2 ^ 31, 0⟩
def signFlipped (x : Nat) : FRes := ⟨if x < 2 ^ 31 then x + 2 ^ 31 else x % 2 ^ 31, 0⟩

/-- The floating-point instructions of the lane stream. -/
inductive LaneFloat (s : State) : Instr → LaneForm → Prop
  | fadd (h : LaneHdr) (d : Dst) (r : Rnd) (a b : Src) :
    LaneFloat s (.fadd h d r a b) (fp2 s .f32 h d 4 a b (Fmt.f32.add r))
  | fsub (h : LaneHdr) (d : Dst) (r : Rnd) (a b : Src) :
    LaneFloat s (.fsub h d r a b) (fp2 s .f32 h d 4 a b (Fmt.f32.sub r))
  | fmul (h : LaneHdr) (d : Dst) (r : Rnd) (a b : Src) :
    LaneFloat s (.fmul h d r a b) (fp2 s .f32 h d 4 a b (Fmt.f32.mul r))
  | ffma (h : LaneHdr) (d : Dst) (r : Rnd) (a b c : Src) :
    LaneFloat s (.ffma h d r a b c) (fp3 s .f32 h d 4 a b c (Fmt.f32.fma r))
  | fmin (h : LaneHdr) (d : Dst) (a b : Src) :
    LaneFloat s (.fmin h d a b) (fp2 s .f32 h d 4 a b (Fmt.f32.pick false))
  | fmax (h : LaneHdr) (d : Dst) (a b : Src) :
    LaneFloat s (.fmax h d a b) (fp2 s .f32 h d 4 a b (Fmt.f32.pick true))
  | fabs (h : LaneHdr) (d : Dst) (a : Src) : LaneFloat s (.fabs h d a) (fp1 s .f32 h d 4 a signCleared)
  | fneg (h : LaneHdr) (d : Dst) (a : Src) : LaneFloat s (.fneg h d a) (fp1 s .f32 h d 4 a signFlipped)
  | frcp (h : LaneHdr) (d : Dst) (r : Rnd) (a : Src) :
    LaneFloat s (.frcp h d r a) (fp1 s .f32 h d 12 a fun x => Fmt.f32.div r 0x3F800000 x)
  | frsq (h : LaneHdr) (d : Dst) (r : Rnd) (a : Src) :
    LaneFloat s (.frsq h d r a) (fp1 s .f32 h d 12 a (Fmt.f32.rsqrt r))
  | fsqrt (h : LaneHdr) (d : Dst) (r : Rnd) (a : Src) :
    LaneFloat s (.fsqrt h d r a) (fp1 s .f32 h d 24 a (Fmt.f32.sqrt r))
  | fdiv (h : LaneHdr) (d : Dst) (r : Rnd) (a b : Src) :
    LaneFloat s (.fdiv h d r a b) (fp2 s .f32 h d 24 a b (Fmt.f32.div r))
  | fexp2 (h : LaneHdr) (d : Dst) (a : Src) : LaneFloat s (.fexp2 h d a) (fp1 s .f32 h d 12 a fexp2Res)
  | flog2 (h : LaneHdr) (d : Dst) (a : Src) : LaneFloat s (.flog2 h d a) (fp1 s .f32 h d 12 a flog2Res)
  | dadd (h : LaneHdr) (d : Dst) (r : Rnd) (a b : Src) :
    LaneFloat s (.dadd h d r a b) (fp2 s .f64 h d 8 a b (Fmt.f64.add r))
  | dsub (h : LaneHdr) (d : Dst) (r : Rnd) (a b : Src) :
    LaneFloat s (.dsub h d r a b) (fp2 s .f64 h d 8 a b (Fmt.f64.sub r))
  | dmul (h : LaneHdr) (d : Dst) (r : Rnd) (a b : Src) :
    LaneFloat s (.dmul h d r a b) (fp2 s .f64 h d 8 a b (Fmt.f64.mul r))
  | dfma (h : LaneHdr) (d : Dst) (r : Rnd) (a b c : Src) :
    LaneFloat s (.dfma h d r a b c) (fp3 s .f64 h d 8 a b c (Fmt.f64.fma r))
  | dmin (h : LaneHdr) (d : Dst) (a b : Src) :
    LaneFloat s (.dmin h d a b) (fp2 s .f64 h d 8 a b (Fmt.f64.pick false))
  | dmax (h : LaneHdr) (d : Dst) (a b : Src) :
    LaneFloat s (.dmax h d a b) (fp2 s .f64 h d 8 a b (Fmt.f64.pick true))
  | ddiv (h : LaneHdr) (d : Dst) (r : Rnd) (a b : Src) :
    LaneFloat s (.ddiv h d r a b) (fp2 s .f64 h d 48 a b (Fmt.f64.div r))
  | dsqrt (h : LaneHdr) (d : Dst) (r : Rnd) (a : Src) :
    LaneFloat s (.dsqrt h d r a) (fp1 s .f64 h d 48 a (Fmt.f64.sqrt r))
  | hadd2 (h : LaneHdr) (d : Dst) (r : Rnd) (a b : Src) :
    LaneFloat s (.hadd2 h d r a b) (packed2 s .f16 h d a b (Fmt.f16.add r))
  | hmul2 (h : LaneHdr) (d : Dst) (r : Rnd) (a b : Src) :
    LaneFloat s (.hmul2 h d r a b) (packed2 s .f16 h d a b (Fmt.f16.mul r))
  | hfma2 (h : LaneHdr) (d : Dst) (r : Rnd) (a b c : Src) :
    LaneFloat s (.hfma2 h d r a b c) (packed3 s .f16 h d a b c (Fmt.f16.fma r))
  | badd2 (h : LaneHdr) (d : Dst) (r : Rnd) (a b : Src) :
    LaneFloat s (.badd2 h d r a b) (packed2 s .bf16 h d a b (Fmt.bf16.add r))
  | bmul2 (h : LaneHdr) (d : Dst) (r : Rnd) (a b : Src) :
    LaneFloat s (.bmul2 h d r a b) (packed2 s .bf16 h d a b (Fmt.bf16.mul r))
  | bfma2 (h : LaneHdr) (d : Dst) (r : Rnd) (a b c : Src) :
    LaneFloat s (.bfma2 h d r a b c) (packed3 s .bf16 h d a b c (Fmt.bf16.fma r))
  | bdot2 (h : LaneHdr) (d : Dst) (r : Rnd) (a b c : Src) : LaneFloat s (.bdot2 h d r a b c)
    (computes s h (dstNames false d ++ srcNames false a ++ srcNames false b ++ srcNames false c)
      (srcReads false a ++ srcReads false b ++ srcReads false c) 4 false d fun l =>
      let z := bdot2Res r (half 0 (s.srcPacked .bf16 l a)) (half 0 (s.srcPacked .bf16 l b))
        (half 1 (s.srcPacked .bf16 l a)) (half 1 (s.srcPacked .bf16 l b)) (s.srcFp .f32 l c)
      (BitVec.ofNat 64 z.code, z.flags))
  | cvt (h : LaneHdr) (d : Dst) (r : Rnd) (sat : Bool) (dty sty : Ty) (a : Src) (k : Nat) :
    LaneFloat s (.cvt h d r sat dty sty a k)
      (computes s h (dstNames dty.isPair d ++ srcNames sty.isPair a)
        ((if dty.isFp8 then (dstNames false d).map LaneRead.v else []) ++ srcReads sty.isPair a) 4 dty.isPair d fun l =>
        (s.cvtPlace d dty l k (s.cvtValue r sat dty sty l k a).1, (s.cvtValue r sat dty sty l k a).2))

/-! ### Predicates, exchange (09 R206 to R215, R218) -/

/-- The mask of the active lanes for which `f` holds. -/
def lanesWhere (act : BitVec 32) (f : Nat → Bool) : Word :=
  BitVec.ofNat 32 ((List.range 32).map fun l => if act.getLsbD l && f l then 2 ^ l else 0).sum

/-- The predicate instructions, and those that exchange values at a fixed latency. -/
inductive LaneTest (s : State) : Instr → LaneForm → Prop
  | psetInt (h : LaneHdr) (p : Nat) (c : CmpOp) (ty : Ty) (a b : Src) (hi : ty.isInt = true) :
    LaneTest s (.pset h p c ty a b)
      (decides s h (srcNames ty.isPair a ++ srcNames ty.isPair b) (srcReads ty.isPair a ++ srcReads ty.isPair b) p
        fun l => (intCmp c (intVal ty (s.srcInt ty.isPair l a)) (intVal ty (s.srcInt ty.isPair l b)), 0))
  | psetFloat (h : LaneHdr) (p : Nat) (c : CmpOp) (ty : Ty) (a b : Src) (hi : ty.isInt = false) :
    LaneTest s (.pset h p c ty a b)
      (decides s h (srcNames ty.isPair a ++ srcNames ty.isPair b) (srcReads ty.isPair a ++ srcReads ty.isPair b) p
        fun l => (Fmt.ofTy ty).cmp c (s.srcFp (Fmt.ofTy ty) l a) (s.srcFp (Fmt.ofTy ty) l b))
  | plop (h : LaneHdr) (p pa pb pc lut : Nat) : LaneTest s (.plop h p pa pb pc lut)
    (decides s h [] [.p pa, .p pb, .p pc] p fun l =>
      (lut.testBit (4 * (s.rd (.p pa l)).toNat + 2 * (s.rd (.p pb l)).toNat + (s.rd (.p pc l)).toNat), 0))
  | toPred (h : LaneHdr) (p : Nat) (a : Src) : LaneTest s (.pmov h (.toPred p a))
    (decides s h (srcNames false a) (srcReads false a) p fun l => ((s.srcInt false l a).toNat % 2 ^ 32 != 0, 0))
  | toVec (h : LaneHdr) (d : Dst) (p : Nat) : LaneTest s (.pmov h (.toVec d p))
    (computes s h (dstNames false d) [.p p] 2 false d fun l => ((s.rd (.p p l)).setWidth 64, 0))
  | shfl (h : LaneHdr) (m : ShflMode) (d : Dst) (a b : Src) : LaneTest s (.shfl h m d a b)
    (computes s h (dstNames false d ++ srcNames false a ++ srcNames false b)
      ((match a with
        | .vreg n => (active s h).map fun l => LaneRead.vl n (shflLane m l (s.srcInt false l b).toNat)
        | x => srcReads false x) ++ srcReads false b) 6 false d fun l =>
      (s.srcInt false (shflLane m l (s.srcInt false l b).toNat) a, 0))
  | vballot (h : LaneHdr) (d : Dst) (p : Nat) : LaneTest s (.vballot h d p)
    (computes s h (dstNames false d) [.p p] 6 false d fun _ =>
      ((lanesWhere (s.laneActive h) fun l => s.rd (.p p l) ≠ 0).setWidth 64, 0))
  | laneMatch (h : LaneHdr) (ty : Ty) (d : Dst) (a : Src) : LaneTest s (.laneMatch h ty d a)
    (computes s h (dstNames false d ++ srcNames ty.isPair a) (srcReads ty.isPair a) 8 false d fun l =>
      ((lanesWhere (s.laneActive h) fun j =>
        (s.srcInt ty.isPair j a).toNat % 2 ^ ty.bits = (s.srcInt ty.isPair l a).toNat % 2 ^ ty.bits).setWidth 64, 0))

/-! ### Vector capabilities (09 R223) -/

/-- The words of a 64-bit or a 32-bit number in a lane. -/
def laneNat (pair : Bool) (w l n : Nat) : List (Loc × Word) :=
  if pair then [(.v w l, (BitVec.ofNat 64 n).extractLsb' 0 32), (.v (w + 1) l, (BitVec.ofNat 64 n).extractLsb' 32 32)]
  else [(.v w l, (BitVec.ofNat 64 n).extractLsb' 0 32)]

/-- A read of a field of each lane's capability. -/
def reads1 (s : State) (h : LaneHdr) (pair : Bool) (w : Nat) (p : CapSrc) (f : Cap → Nat) : LaneForm :=
  writesEach s h (capNames p ++ dstNames pair (.reg w)) (capReads p) 2 fun l => laneNat pair w l (f (s.srcCap l p))

/-- A derivation in every active lane: its outcome for each, its source, and the rank of a failure among its checks. -/
structure LaneDerived where
  hdr : LaneHdr
  names : List Nat
  reads : List LaneRead
  dest : Nat
  src : Nat → Cap
  out : Nat → Except Nat Cap
  rank : Nat → Nat → Nat

/-- The vector forms that read a capability's fields, or copy it. -/
inductive LaneCap (s : State) : Instr → LaneForm → Prop
  | vcmov (h : LaneHdr) (q : Nat) (p : CapSrc) : LaneCap s (.vcmov h q p)
    (writesEach s h (quadNames q ++ capNames p) (capReads p) 2 fun l => vcapWrites q l (s.srcCap l p))
  | vcgetaddr (h : LaneHdr) (w : Nat) (p : CapSrc) : LaneCap s (.vcgetaddr h w p) (reads1 s h true w p Cap.addr)
  | vcgetbase (h : LaneHdr) (w : Nat) (p : CapSrc) : LaneCap s (.vcgetbase h w p) (reads1 s h true w p Cap.base)
  | vcgettop (h : LaneHdr) (w : Nat) (p : CapSrc) : LaneCap s (.vcgettop h w p)
    (reads1 s h true w p fun c => min c.top (2 ^ 64 - 1))
  | vcgetlen (h : LaneHdr) (w : Nat) (p : CapSrc) : LaneCap s (.vcgetlen h w p)
    (reads1 s h true w p fun c => (min ((c.top : Int) - c.base) (2 ^ 64 - 1) % 2 ^ 64).toNat)
  | vcgetperm (h : LaneHdr) (w : Nat) (p : CapSrc) : LaneCap s (.vcgetperm h w p) (reads1 s h false w p Cap.permField)
  | vcgetseal (h : LaneHdr) (w : Nat) (p : CapSrc) : LaneCap s (.vcgetseal h w p) (reads1 s h false w p Cap.sealType)
  | vcgetowner (h : LaneHdr) (w : Nat) (p : CapSrc) : LaneCap s (.vcgetowner h w p) (reads1 s h false w p Cap.owner)
  | vcgettag (h : LaneHdr) (w : Nat) (p : CapSrc) : LaneCap s (.vcgettag h w p)
    (reads1 s h false w p fun c => if c.tag then 1 else 0)
  | vcwithin (h : LaneHdr) (w : Nat) (p : CapSrc) (q : Nat) : LaneCap s (.vcwithin h w p q)
    (writesEach s h (quadNames q ++ capNames p ++ [w]) (capReads p ++ [.vc q]) 2 fun l =>
      [(.v w l, if (s.srcCap l p).within (s.ag.rdVcap s.fresh q l) then 1 else 0)])

/-- The vector forms that derive a capability. A failure ranks by its cause, or by the step of 04 R96. -/
inductive LaneDerive (s : State) : Instr → LaneDerived → Prop
  | vcsetaddr (h : LaneHdr) (q : Nat) (p : CapSrc) (w : Src) : LaneDerive s (.vcsetaddr h q p w)
    ⟨h, quadNames q ++ capNames p ++ srcNames true w, capReads p ++ srcReads true w, q, fun l => s.srcCap l p,
      fun l => (s.srcCap l p).moveTo (s.srcInt true l w).toNat, fun _ c => c⟩
  | vcinc (h : LaneHdr) (q : Nat) (p : CapSrc) (w : Src) : LaneDerive s (.vcinc h q p w)
    ⟨h, quadNames q ++ capNames p ++ srcNames true w, capReads p ++ srcReads true w, q, fun l => s.srcCap l p,
      fun l => (s.srcCap l p).increment ((s.srcInt true l w).toNat : Int), fun _ c => c⟩
  | vcsetbnd (h : LaneHdr) (q : Nat) (p : CapSrc) (w : Src) : LaneDerive s (.vcsetbnd h q p w)
    ⟨h, quadNames q ++ capNames p ++ srcNames true w, capReads p ++ srcReads true w, q, fun l => s.srcCap l p,
      fun l => (s.srcCap l p).setBounds (s.srcInt true l w).toNat false, fun _ c => c⟩
  | vcsetbndx (h : LaneHdr) (q : Nat) (p : CapSrc) (w : Src) : LaneDerive s (.vcsetbndx h q p w)
    ⟨h, quadNames q ++ capNames p ++ srcNames true w, capReads p ++ srcReads true w, q, fun l => s.srcCap l p,
      fun l => (s.srcCap l p).setBounds (s.srcInt true l w).toNat true, fun _ c => c⟩
  | vcnarrow (h : LaneHdr) (q : Nat) (p : CapSrc) (w : Src) : LaneDerive s (.vcnarrow h q p w)
    ⟨h, quadNames q ++ capNames p ++ srcNames false w, capReads p ++ srcReads false w, q, fun l => s.srcCap l p,
      fun l => (s.srcCap l p).narrow (s.srcInt false l w).toNat, fun _ c => c⟩
  | vcwrap (h : LaneHdr) (q : Nat) (p k : CapSrc) : LaneDerive s (.vcwrap h q p k)
    ⟨h, quadNames q ++ capNames p ++ capNames k, capReads p ++ capReads k, q, fun l => s.srcCap l p,
      fun l => (s.srcCap l p).wrap (s.srcCap l k),
      fun l _ => authorityRank false permSEAL (s.srcCap l p) (s.srcCap l k)⟩
  | vcunwrap (h : LaneHdr) (q : Nat) (p k : CapSrc) : LaneDerive s (.vcunwrap h q p k)
    ⟨h, quadNames q ++ capNames p ++ capNames k, capReads p ++ capReads k, q, fun l => s.srcCap l p,
      fun l => (s.srcCap l p).unwrap (s.srcCap l k),
      fun l _ => authorityRank true permUNSEAL (s.srcCap l p) (s.srcCap l k)⟩

end Sys2Proof.Claims
end

