-- ==== Sys2Proof/Certificates/Slice0/LaneMemTerms.lean ====
section
/-!
DEFINITION. The terms of the statements about lane instructions that leave an operation under way: memory, exchange with
the scalar stream, divergence, matrix, watchpoints; and of sx blocks.
-/

namespace Sys2Proof.Claims

open Machine

/-! ### The lane stream goes on -/

/-- The state `t` is `v` with the agent `a` in focus, its lane stream gone on by one instruction, which has issued and leaves
no latch value. -/
def LaneGoes (v t : State) (a : Agent) : Prop :=
  LaneEnds { v with ag := { a with
    pairing := .single
    firstLatch := none } } t 2 [] none

/-- A lane instruction at `v` has issued with the operation `x` under way and the flags `ll` set. -/
def LaneEnters (v t : State) (x : Op) (ll : Flags) : Prop :=
  LaneGoes v t { withOp v.ag x [] with fsr := v.ag.fsr ||| ll }

/-- `v` once the agent `a` in focus has gone on by one lane instruction, which has issued and leaves no latch value. -/
def laneGone (v : State) (a : Agent) : State :=
  { v with
    issues := v.issues + 1
    ag := { a.nextLane with
      latches := [none, none, a.nextLane.latches.getD 0 none, a.nextLane.latches.getD 1 none]
      pairing := .single
      firstLatch := none } }

/-- The loads of the lane path that name no token are governed no more (10 R230). -/
def lanesSeen (a : Agent) : Agent := { a with gov := dropSeen (fun g => g.tk == none && g.lane == true) a.gov }

/-- An operation of the lane stream, as it is when it enters. -/
def laneOp (v : State) (path : Path) (ord : Ord) (scope : Scope) (tk : Option Nat) (kind : OpKind) (dests : List Loc) : Op :=
  ⟨v.ag.nextOp, true, path, ord, scope, v.ag.tokenOpt tk, kind, dests.flatMap Loc.touched, [], false, false⟩

/-! ### Memory (10 R224 to R246) -/

/-- What a lane memory instruction asks for: header, registers it names, what it reads, KIND, bytes, whether it writes,
whether it passes an absent page, its accesses, order, scope, token, the operation left under way, the places it will
write. -/
structure LaneAccess where
  hdr : LaneHdr
  names : List Nat
  reads : List LaneRead
  kind : Nat
  size : Nat
  write : Bool
  tolerant : Bool
  reqs : List Req
  ord : Ord
  scope : Scope
  tk : Option Nat
  op : List Acc → OpKind
  dests : List Loc

/-- The effective address of lane `l`: the cursor, the sign-extended low word of the offset, the immediate, exactly
(10 R226). -/
def ea (s : State) (l : Nat) (cap : CapSrc) (off : Src) (imm : Int) : Int :=
  (s.srcCap l cap).addr + ((s.srcInt false l off).setWidth 32).toInt + imm

/-- The places of a vector result in the active lanes. -/
def laneDests (s : State) (h : LaneHdr) (pair : Bool) (d : Nat) : List Loc :=
  (active s h).flatMap fun l => if pair then [.v d l, .v (d + 1) l] else [.v d l]

/-- An access of every active lane. -/
def eachLane (s : State) (h : LaneHdr) (cap : CapSrc) (off : Src) (imm : Int) (need : Nat → List Nat)
    (data cmp : Nat → Nat) (tag : Nat → Bool) : List Req :=
  (active s h).map fun l => ⟨l, s.srcCap l cap, ea s l cap off imm, need l, data l, cmp l, tag l⟩

/-- A load of every active lane needs LD. -/
def laneLoads (s : State) (h : LaneHdr) (cap : CapSrc) (off : Src) (imm : Int) : List Req :=
  eachLane s h cap off imm (fun _ => [permLD]) (fun _ => 0) (fun _ => 0) fun _ => false

/-- The lane loads, stores, atomics and capability accesses through the memory of the space. -/
inductive LaneMem (s : State) : Instr → LaneAccess → Prop
  | ld (h : LaneHdr) (ty : Ty) (o : Ord) (c : Scope) (ro : Bool) (d : Nat) (cap : CapSrc) (off : Src) (imm : Int)
    (tk : Option Nat) : LaneMem s (.ld h ty o c ro d cap off imm tk)
    ⟨h, dstNames ty.isPair (.reg d) ++ capNames cap ++ srcNames false off, capReads cap ++ srcReads false off, 0,
      ty.bits / 8, false, false, laneLoads s h cap off imm, o, c, tk,
      fun x => .mem .load ty (.vreg d) x ro, laneDests s h ty.isPair d⟩
  | ldnr (h : LaneHdr) (ty : Ty) (o : Ord) (c : Scope) (ro : Bool) (d r : Nat) (cap : CapSrc) (off : Src) (imm : Int)
    (tk : Option Nat) : LaneMem s (.ldnr h ty o c ro d r cap off imm tk)
    ⟨h, dstNames ty.isPair (.reg d) ++ capNames cap ++ srcNames false off, capReads cap ++ srcReads false off, 0,
      ty.bits / 8, false, true,
      eachLane s h cap off imm (fun _ => [permLD, permNR]) (fun _ => 0) (fun _ => 0) (fun _ => false), o, c, tk,
      fun x => .mem .load ty (.vregP d r) x ro, laneDests s h ty.isPair d ++ (active s h).map fun l => .p r l⟩
  | ldsub (h : LaneHdr) (ty : Ty) (o : Ord) (c : Scope) (ro : Bool) (d : Nat) (cap : CapSrc) (off : Src) (imm : Int)
    (tk : Option Nat) : LaneMem s (.ldsub h ty o c ro d cap off imm tk)
    ⟨h, [d] ++ capNames cap ++ srcNames false off, capReads cap ++ srcReads false off, 0, 4, false, false,
      laneLoads s h cap off imm, o, c, tk, fun x => .mem .loadSub ty (.vreg d) x ro, laneDests s h false d⟩
  | st (h : LaneHdr) (ty : Ty) (o : Ord) (c : Scope) (data : Src) (cap : CapSrc) (off : Src) (imm : Int)
    (tk : Option Nat) : LaneMem s (.st h ty o c data cap off imm tk)
    ⟨h, capNames cap ++ srcNames false off ++ srcNames ty.isPair data,
      capReads cap ++ srcReads false off ++ srcReads ty.isPair data, 1, ty.bits / 8, true, false,
      eachLane s h cap off imm (fun _ => [permST]) (fun l => (s.srcInt ty.isPair l data).toNat) (fun _ => 0)
        fun _ => false, o, c, tk, fun x => .mem .store ty .none x false, []⟩
  | atom (h : LaneHdr) (op : AtomOp) (ty : Ty) (o : Ord) (c : Scope) (d : Dst) (cap : CapSrc) (off x : Src) (imm : Int)
    (tk : Option Nat) : LaneMem s (.atom h op ty o c d cap off x imm tk)
    ⟨h, dstNames ty.isPair d ++ capNames cap ++ srcNames false off ++ atomNames op ty x,
      capReads cap ++ srcReads false off ++ atomReads op ty x, 2, ty.bits / 8, true, false,
      eachLane s h cap off imm (fun _ => [permLD, permST]) (fun l => (s.atomData op ty l x).1)
        (fun l => (s.atomData op ty l x).2) fun _ => false, o, c, tk,
      fun y => .mem (.atomic op) ty (atomDst d) y false,
      match d with
      | .reg n => laneDests s h ty.isPair n
      | .none => []⟩
  | laneLdc (h : LaneHdr) (o : Ord) (c : Scope) (d : Nat) (cap : CapSrc) (off : Src) (imm : Int) (tk : Option Nat) :
    LaneMem s (.laneLdc h o c d cap off imm tk)
    ⟨h, quadNames d ++ capNames cap ++ srcNames false off, capReads cap ++ srcReads false off, 4, 16, false, false,
      laneLoads s h cap off imm, o, c, tk, fun x => .mem .loadCap .n32 (.vcap d) x false,
      (active s h).flatMap fun l => vcapLocs d l⟩
  | laneStc (h : LaneHdr) (o : Ord) (c : Scope) (v : Nat) (cap : CapSrc) (off : Src) (imm : Int) (tk : Option Nat) :
    LaneMem s (.laneStc h o c v cap off imm tk)
    ⟨h, capNames cap ++ srcNames false off ++ quadNames v, capReads cap ++ srcReads false off ++ [.vc v], 5, 16, true,
      false, eachLane s h cap off imm
        (fun l => if !(s.ag.rdVcap s.fresh v l).tag then [permST]
          else if (s.ag.rdVcap s.fresh v l).has permGLOB then [permST, permSTC] else [permST, permSTC, permSTLOC])
        (fun l => (s.ag.rdVcap s.fresh v l).bits.toNat) (fun _ => 0) (fun l => (s.ag.rdVcap s.fresh v l).tag),
      o, c, tk, fun x => .mem .storeCap .n32 .none x false, []⟩

/-- An access of team memory by a lane: its team address, data, compare value (10 R242). -/
structure TeamAccess where
  hdr : LaneHdr
  names : List Nat
  reads : List LaneRead
  kind : Nat
  size : Nat
  at_ : Nat → Int
  data : Nat → Nat
  cmp : Nat → Nat
  ord : Ord
  scope : Scope
  tk : Option Nat
  op : List Acc → OpKind
  dests : List Loc

/-- The team address of lane `l`: the address read as an unsigned word, and the immediate. -/
def teamEa (s : State) (l : Nat) (addr : Src) (imm : Int) : Int :=
  ((s.srcInt false l addr).setWidth 32).toNat + imm

/-- A team address lies in the footprint and in the team memory of that core, and is aligned (10 R242). -/
def TeamOk (s : State) (size : Nat) (ta : Int) : Prop :=
  0 ≤ ta ∧ ta < 2 ^ 23 ∧ ta.toNat / 2 ^ 19 < s.teamShape.1 ∧ ta.toNat % 2 ^ 19 + size ≤ s.teamShape.2 ∧ ta % size = 0

/-- The accesses that pass. -/
def TeamAccess.accs (x : TeamAccess) (s : State) : List Acc :=
  (active s x.hdr).map fun l =>
    ⟨l, .team (x.at_ l).toNat, (x.at_ l).toNat, x.data l, x.cmp l, false, true, 0, false, 0, s.ag.mode⟩

/-- The accesses to team memory. -/
inductive TeamMem (s : State) : Instr → TeamAccess → Prop
  | lds (h : LaneHdr) (ty : Ty) (o : Ord) (c : Scope) (d : Nat) (addr : Src) (imm : Int) (tk : Option Nat) :
    TeamMem s (.lds h ty o c d addr imm tk)
    ⟨h, dstNames ty.isPair (.reg d) ++ srcNames false addr, srcReads false addr, 0, ty.bits / 8,
      fun l => teamEa s l addr imm, fun _ => 0, fun _ => 0, o, c, tk, fun x => .mem .load ty (.vreg d) x false,
      laneDests s h ty.isPair d⟩
  | sts (h : LaneHdr) (ty : Ty) (o : Ord) (c : Scope) (data addr : Src) (imm : Int) (tk : Option Nat) :
    TeamMem s (.sts h ty o c data addr imm tk)
    ⟨h, srcNames false addr ++ srcNames ty.isPair data, srcReads false addr ++ srcReads ty.isPair data, 1, ty.bits / 8,
      fun l => teamEa s l addr imm, fun l => (s.srcInt ty.isPair l data).toNat, fun _ => 0, o, c, tk,
      fun x => .mem .store ty .none x false, []⟩
  | atoms (h : LaneHdr) (op : AtomOp) (ty : Ty) (o : Ord) (c : Scope) (d : Dst) (addr x : Src) (imm : Int)
    (tk : Option Nat) : TeamMem s (.atoms h op ty o c d addr x imm tk)
    ⟨h, dstNames ty.isPair d ++ srcNames false addr ++ atomNames op ty x, srcReads false addr ++ atomReads op ty x, 2,
      ty.bits / 8, fun l => teamEa s l addr imm, fun l => (s.atomData op ty l x).1, fun l => (s.atomData op ty l x).2,
      o, c, tk, fun y => .mem (.atomic op) ty (atomDst d) y false,
      match d with
      | .reg n => laneDests s h ty.isPair n
      | .none => []⟩

/-! ### Operations whose results are known at issue (09 R212 to R217, 10 R240, R246) -/

/-- An operation that a lane instruction leaves under way, its effect known. -/
structure LaneTold where
  hdr : LaneHdr
  names : List Nat
  reads : List LaneRead
  path : Path
  tk : Option Nat
  kind : OpKind
  dests : List Loc

/-- Results that reach their registers when the token posts. -/
def tells (h : LaneHdr) (names : List Nat) (reads : List LaneRead) (tk : Nat) (ws : List (Loc × Word)) : LaneTold :=
  ⟨h, names, reads, .lane, some tk, .regs ws, ws.map (·.1)⟩

/-- How many active lanes hold predicate `p`. -/
def votes (s : State) (h : LaneHdr) (p : Nat) : Nat := (active s h).countP fun l => s.rd (.p p l) ≠ 0

/-- The result of a vote among `n` lanes of which `k` hold the predicate (09 R214). -/
def voteOf (m : VoteMode) (n k : Nat) : Word :=
  match m with
  | .all => if k = n then 1 else 0
  | .any => if 0 < k then 1 else 0
  | .same => if k = n ∨ k = 0 then 1 else 0
  | .cnt => BitVec.ofNat 32 k

/-- The reduction of the active lanes' values, with its flags, through the fixed tree of 09 R216. -/
def reduced (s : State) (h : LaneHdr) (op : RedOp) (ty : Ty) (a : Src) : RedVal :=
  redTree op ty ((List.range 32).map fun l => (if (s.laneActive h).getLsbD l then some (s.redSrc ty l a) else none, 0))

/-- A result as it is delivered: a NaN is the canonical one (05 R106). -/
def delivered (ty : Ty) (v : DWord) : DWord :=
  if ty = .f32 ∧ (Fmt.f32.read (v.toNat % 2 ^ 32)).isNan = true then BitVec.ofNat 64 Fmt.f32.nan else v

/-- NV of a signalling NaN among the active lanes' values (05 R111, log 94). -/
def signals (s : State) (h : LaneHdr) (ty : Ty) (a : Src) : Flags :=
  if ty = .f32 ∧ ∃ l ∈ active s h, (Fmt.f32.read ((s.redSrc ty l a).toNat % 2 ^ 32)).isSig = true then flagNV else 0

/-- The prefix over the active lanes, rising (09 R217). -/
def scanned (s : State) (h : LaneHdr) (op : RedOp) (ty : Ty) (incl : Bool) (a : Src) : ScanAcc :=
  (active s h).foldl (fun z l => z.step op ty incl l (s.redSrc ty l a)) ⟨none, 0, [], 0⟩

/-- A region of `subs` that keeps the limits, within its capability: unsealed or an export, LD, the whole region in bounds,
128-byte aligned (10 R240). -/
def SubsOk (c : Cap) (len stride rows : Nat) : Prop :=
  c.tag = true ∧ (c.sealType = 0 ∨ c.isExport = true) ∧ c.has permLD = true ∧ c.base ≤ c.addr ∧ c.addr + rows * stride + len ≤ c.top
    ∧ c.addr % 128 = 0

/-- The space identifier that a subscription records. -/
def spaceId (s : State) : Nat :=
  match s.ag.space with
  | .boot => 0
  | .obj o => s.asid o

/-- Votes, reductions, prefixes, subscriptions, and the end of lanes. -/
inductive Told (s : State) : Instr → LaneTold → Prop
  | vote (h : LaneHdr) (m : VoteMode) (d p tk : Nat) : Told s (.vote h m d p tk)
    (tells h [] [.p p] tk [(.s d, voteOf m (active s h).length (votes s h p))])
  | lred (h : LaneHdr) (op : RedOp) (ty : Ty) (d : Nat) (a : Src) (tk : Nat) : Told s (.lred h op ty d a tk)
    (tells h (srcNames ty.isPair a) (srcReads ty.isPair a) tk
      (scalarOut ty d (delivered ty ((reduced s h op ty a).1.getD (redIdentity op ty)))
        ++ flagWrites (lostFlag s h (srcReads ty.isPair a) ||| (reduced s h op ty a).2 ||| signals s h ty a)))
  | lscan (h : LaneHdr) (op : RedOp) (ty : Ty) (incl : Bool) (d : Nat) (a : Src) (total : Option Nat) (tk : Nat) :
    Told s (.lscan h op ty incl d a total tk)
    (let z := scanned s h op ty incl a
    tells h (dstNames ty.isPair (.reg d) ++ srcNames ty.isPair a) (srcReads ty.isPair a) tk
      ((z.out.flatMap fun e => dstWrites ty.isPair (.reg d) e.1 e.2)
        ++ (match total with
          | none => []
          | some t => scalarOut ty t (delivered ty (z.run.getD (redIdentity op ty))))
        ++ flagWrites (lostFlag s h (srcReads ty.isPair a) ||| z.flags
          ||| (if total.isSome then z.runFlags else 0) ||| signals s h ty a)))
  | subsIdle (h : LaneHdr) (ty : Ty) (c b : Nat) (tk : Option Nat) (ha : s.laneActive h = 0) :
    Told s (.subs h ty c b tk) ⟨h, [], [.c c, .s b, .s (b + 1), .s (b + 2)], .lane, tk, .post, []⟩
  | unsubsIdle (h : LaneHdr) (c b : Nat) (tk : Option Nat) (ha : s.laneActive h = 0) :
    Told s (.unsubs h c b tk) ⟨h, [], [.c c, .s b, .s (b + 1), .s (b + 2)], .lane, tk, .post, []⟩
  | subs (h : LaneHdr) (ty : Ty) (c b : Nat) (tk : Option Nat) (len stride rows : Nat) (upd : Bool)
    (ha : s.laneActive h ≠ 0)
    (hr : subsRegion (s.rs b).toNat (s.rs (b + 1)).toNat (s.rs (b + 2)).toNat = some (len, stride, rows, upd))
    (hc : SubsOk (s.rc c) len stride rows) : Told s (.subs h ty c b tk)
    ⟨h, [], [.c c, .s b, .s (b + 1), .s (b + 2)], .lane, tk,
      .subs s.ag.die (spaceId s) true ty upd (s.rc c).addr len stride rows, []⟩
  | unsubs (h : LaneHdr) (c b : Nat) (tk : Option Nat) (len stride rows : Nat) (upd : Bool)
    (ha : s.laneActive h ≠ 0)
    (hr : subsRegion (s.rs b).toNat (s.rs (b + 1)).toNat (s.rs (b + 2)).toNat = some (len, stride, rows, upd))
    (hc : SubsOk (s.rc c) len stride rows) : Told s (.unsubs h c b tk)
    ⟨h, [], [.c c, .s b, .s (b + 1), .s (b + 2)], .lane, tk,
      .subs s.ag.die (spaceId s) false .bf16 upd (s.rc c).addr len stride rows, []⟩
  | lend (h : LaneHdr) (tk : Option Nat) : Told s (.lend h tk)
    ⟨h, [], [], .lane, tk, .lend (s.laneActive h), [.em, .lm]⟩

/-- How many lanes pass with this target. -/
def backers (ts : List (Nat × Nat × Target)) (w : Nat) : Nat :=
  ts.countP fun x => x.2.1 == w && (match x.2.2 with
    | .ok _ => true
    | _ => false)

/-- `v` once `lbrx` has sent its lanes (09 R220, R221; 02 R46, R51): the threads of the lanes that move are on their way, the
lanes that fail make fault groups; the change of the masks, with the winner, is under way; the lane queue is empty, the
tokens of its blocks posted. -/
def laneSent (v : State) (c : Cap) (tk : Nat) (ts : List (Nat × Nat × Target)) (leaving : BitVec 32) (win : Option Nat) :
    State :=
  let u := { v with teams := v.teams.map fun t => if t.id = v.ag.team then { t with
      arriving := (v.movingThreads c (lbrxMovers ts)).foldl (fun xs x => arriveInsert x xs) t.arriving
      faults := t.faults ++ v.faultGroups (lbrxFails ts) } else t }
  let w := laneGone u (withOp u.ag (laneOp u .lane .rlx .grp (v.laneTk (some tk))
    (.lbrx leaving (win.map fun w => (c.withAddr w).withSeal 0)) [.em, .lm]) [])
  { w with ag := { w.ag.blocks.foldl (fun a b => a.post b.tk) w.ag with blocks := [] } }

/-! ### Matrix (11 R249 to R264) -/

/-- What a matrix instruction asks for: header, registers, reads, `.pair`, token, the operation that enters the order of
its arrays, what else of the agent changes. -/
structure MatrixForm where
  hdr : LaneHdr
  names : List Nat
  reads : List LaneRead
  pair : Bool
  tk : Option Nat
  op : MatrixOp
  change : Agent → Agent

/-- What enters: the operation with who issued it. -/
def MatrixForm.entry (f : MatrixForm) (s : State) : MatrixOp :=
  { f.op with
    agent := s.ag.id
    team := s.ag.team
    num := s.ag.nextOp
    pair := f.pair }

/-- The array's owner issues, with `.pair` where a follower lies in the footprint, and fewer than four wait in the order
of each array (11 R249, R250). -/
def MayMatrix (s : State) (pair : Bool) : Prop :=
  s.ownsArray = true ∧ (pair = true → s.pairPlaced = true) ∧ s.arrayFull pair = false

/-- The layout word passes its checks on these addresses (11 R264). -/
def LayoutOk (s : State) (pair sx : Bool) (l : Layout) (addrs : List Int) : Prop :=
  l.check s.teamShape sx (if pair then some s.footIndex else none) addrs addrs = none

/-- Words of scales in a column. -/
def scaleWords (f : MFmt) : Nat := if f.isSx then (2 * (mDepth f / 16) + 3) / 4 else 0

/-- What `mmac` and `mdist` ask for: the A operand from registers, read now, or from the record the last one left. -/
def macForm (s : State) (h : LaneHdr) (kind : MatrixKind) (fmt : MFmt) (pair reuse : Bool) (acc : Nat) (a : AOperand)
    (lw : Nat) (tk : Option Nat) : MatrixForm :=
  let o := s.aOperand fmt a
  ⟨h, aNames fmt a,
    (aNames fmt a).flatMap (fun r => (List.range 32).map fun l => .vl r l) ++ layoutReads lw, pair, tk,
    { MatrixOp.blank kind acc with
      lw := s.layoutWord lw
      act := s.laneActive h
      aregs := o.2.2.2.1
      aold := o.2.2.2.2
      fmt := fmt
      a := o.1
      sc := o.2.1
      bsel := o.2.2.1 },
    fun g => { g with alatch := recordAfter reuse fmt a o.2.2.2.1 g.alatch }⟩

/-- The conditions on `mmac` and `mdist` besides the array's. -/
def MacOk (s : State) (fmt : MFmt) (pair : Bool) (a : AOperand) (lw : Nat) : Prop :=
  (∀ n ∈ aNames fmt a, n < 1024) ∧ s.recordCheck fmt a = none
    ∧ LayoutOk s pair fmt.isSx (layoutOf (s.layoutWord lw))
      ((List.range 64).flatMap fun j => (layoutOf (s.layoutWord lw)).column (mRegs fmt) (scaleWords fmt) j)

/-- The addresses of a whole tile. -/
def tileAddrs (s : State) (lw : Nat) : List Int :=
  (List.range 64).flatMap (layoutOf (s.layoutWord lw)).tileColumn

/-- The matrix instructions that enter the order of an array. -/
inductive MatrixIssue (s : State) : Instr → MatrixForm → Prop
  | mmac (h : LaneHdr) (fmt : MFmt) (pair reuse : Bool) (acc : Nat) (a : AOperand) (lw : Nat) (tk : Option Nat)
    (hm : MacOk s fmt pair a lw) :
    MatrixIssue s (.mmac h fmt pair reuse acc a lw tk) (macForm s h .mac fmt pair reuse acc a lw tk)
  | mdist (h : LaneHdr) (fmt : MFmt) (pair reuse : Bool) (acc : Nat) (a : AOperand) (lw : Nat) (tk : Option Nat)
    (hm : MacOk s fmt pair a lw) :
    MatrixIssue s (.mdist h fmt pair reuse acc a lw tk) (macForm s h .dist fmt pair reuse acc a lw tk)
  | mclr (h : LaneHdr) (pair : Bool) (acc : Nat) (tk : Option Nat) : MatrixIssue s (.mclr h pair acc tk)
    ⟨h, [], [], pair, tk, MatrixOp.blank .clr acc, id⟩
  | mld (h : LaneHdr) (pair : Bool) (acc lw : Nat) (tk : Option Nat)
    (hl : LayoutOk s pair false (layoutOf (s.layoutWord lw)) (tileAddrs s lw)) : MatrixIssue s (.mld h pair acc lw tk)
    ⟨h, [], layoutReads lw, pair, tk, { MatrixOp.blank .load acc with lw := s.layoutWord lw }, id⟩
  | mst (h : LaneHdr) (pair : Bool) (acc lw : Nat) (tk : Option Nat)
    (hl : LayoutOk s pair false (layoutOf (s.layoutWord lw)) (tileAddrs s lw)) : MatrixIssue s (.mst h pair acc lw tk)
    ⟨h, [], layoutReads lw, pair, tk, { MatrixOp.blank .store acc with lw := s.layoutWord lw }, id⟩
  | mtopk (h : LaneHdr) (pair : Bool) (acc k : Nat) (tk : Option Nat) (hq : s.ag.qmat.length < 4) :
    MatrixIssue s (.mtopk h pair acc k tk)
    ⟨h, [], [], pair, tk, MatrixOp.blank (.top k s.ag.nqmat) acc, fun g => { g with
      qmat := g.qmat ++ [⟨g.nqmat, k, none⟩]
      nqmat := g.nqmat + 1 }⟩

/-- The state with `op` at the end of the order of each of the given arrays. -/
def entered (s : State) (cores : List Nat) (op : MatrixOp) : State :=
  cores.foldl (fun v c => v.setArray { v.array v.ag.die c with queue := (v.array v.ag.die c).queue ++ [op] }) s

/-! ### Watchpoints (14 R315, R329) -/

/-- What a lane watch instruction asks for. -/
structure WatchForm where
  hdr : LaneHdr
  op : WatchOp
  names : List Nat
  d : Nat
  p : Nat
  table : Nat
  need : Nat
  seq : Src
  tok : Src
  tk : Option Nat
  dests : List Loc

/-- The places of an action code. -/
def codePlaces (s : State) (h : LaneHdr) (d p : Nat) : List Loc :=
  (active s h).flatMap fun l => [.v d l, .v (d + 1) l, .p p l]

inductive Watches (s : State) : Instr → WatchForm → Prop
  | tokc (h : LaneHdr) (d p c : Nat) (q t : Src) (tk : Nat) : Watches s (.tokc h d p c q t tk)
    ⟨h, .tokc, [d, d + 1], d, p, c, permST, q, t, some tk, codePlaces s h d p⟩
  | tokcDraft (h : LaneHdr) (d p c : Nat) (q t : Src) (tk : Nat) : Watches s (.tokcDraft h d p c q t tk)
    ⟨h, .draft, [d, d + 1], d, p, c, permST, q, t, some tk, codePlaces s h d p⟩
  | tokcf (h : LaneHdr) (d p c : Nat) (q : Src) (n tk : Nat) : Watches s (.tokcf h d p c q n tk)
    ⟨h, .tokcf n, [d, d + 1], d, p, c, permST, q, .imm 0, some tk, codePlaces s h d p⟩
  | tokrj (h : LaneHdr) (c : Nat) (q : Src) (tk : Option Nat) : Watches s (.tokrj h c q tk)
    ⟨h, .tokrj, [], 0, 0, c, permST, q, .imm 0, tk, []⟩
  | tokf (h : LaneHdr) (d c : Nat) (q : Src) (tk : Nat) : Watches s (.tokf h d c q tk)
    ⟨h, .tokf, (List.range 9).map fun k => d + k, d, 0, c, permLD, q, .imm 0, some tk,
      (active s h).flatMap fun l => (List.range 9).map fun k => .v (d + k) l⟩

/-- The sequence and token operands of the active lanes. -/
def watchOperands (s : State) (f : WatchForm) : List (Nat × Nat × Nat) :=
  (active s f.hdr).map fun l =>
    (l, ((s.srcInt false l f.seq).setWidth 32).toNat, ((s.srcInt false l f.tok).setWidth 32).toNat)

/-- The accesses of the lanes whose sequence id names an entry of the table: the entry, the header, the cost table. -/
def watchAccesses (s : State) (f : WatchForm) : List Req :=
  ((watchOperands s f).filter fun x => 2 ≤ x.2.1 && x.2.1 < tableEntries (s.rc f.table)).flatMap fun x =>
    watchReqs (s.rc f.table) x.1 x.2.1

/-- The state once the watches (26 R459) have met these accesses: the entries are read, and written but by `tokf`; the
headers and cost tables are read. -/
def watchMet (s v : State) (f : WatchForm) : State :=
  let rs := watchAccesses s f
  let own := ((List.range rs.length).zip rs).map fun e => (e.1 % 3, e.2.lane, e.2.va, 256)
  (v.noteHits true true (f.need == permST) v.ag.nextOp ((own.filter fun x => x.1 == 0).map (·.2))).noteHits true true
    false v.ag.nextOp ((own.filter fun x => x.1 != 0).map (·.2))

/-! ### sx blocks (09 R204, R205) -/

/-- The conversions to and from sx blocks. -/
inductive LaneSx (s : State) : Instr → LaneForm → Prop
  | pack (h : LaneHdr) (d : Nat) (sx : Sxf) (a sc bsel blk : Nat) :
    LaneSx s (.sxpack h d sx a sc bsel blk)
    (let n := 16 * sxWidth sx
    let lo := n * blk
    let q := bsel + 2 * blk
    let rs := streamRegs d lo (lo + n)
    let ss := scaleRegs sc q
    let xs := (List.range 16).map fun k => a + k
    let partly := rs.filter fun r => !(lo ≤ 32 * (r - d) && 32 * (r - d) + 32 ≤ lo + n)
    let blockOf := fun l => sxPack sx (xs.map fun r => (s.rd (.v r l)).toNat)
    ⟨h, rs ++ xs ++ ss, (partly ++ xs ++ ss).map .v, 4,
      (active s h).flatMap fun l =>
        let ws := bitsWrites l (putBits (s.laneBits l rs) (lo % 32) n (codeBits (sxWidth sx) (blockOf l).1.codes)) rs
        -- a scale register that is a stream register too takes its scale bytes over its new stream bits
        ws.filter (fun w => ¬ ∃ r ∈ ss, w.1 = .v r l)
          ++ bitsWrites l (putBits (wordsNat (ss.map fun r => s.rdAfter l ws r)) (8 * (q % 4)) 16
            ((blockOf l).1.x + 256 * (blockOf l).1.u)) ss,
      joinFlags ((active s h).map fun l => (blockOf l).2), none⟩)
  | unpack (h : LaneHdr) (d : Nat) (rnd : Rnd) (sx : Sxf) (ty : Ty) (a sc bsel blk : Nat) :
    LaneSx s (.sxunpack h d rnd sx ty a sc bsel blk)
    (let n := 16 * sxWidth sx
    let lo := n * blk
    let q := bsel + 2 * blk
    let rs := streamRegs a lo (lo + n)
    let ss := scaleRegs sc q
    let element := fun l k =>
      let codes := s.laneBits l rs / 2 ^ (lo % 32)
      let sb := s.laneBits l ss / 2 ^ (8 * (q % 4))
      (Fmt.ofTy ty).write rnd
        (sxValue sx (sb % 256) (sb / 256 % 256) k (codes / 2 ^ (sxWidth sx * k) % 2 ^ sxWidth sx))
    ⟨h, (List.range 16).map (fun k => d + k) ++ rs ++ ss, (rs ++ ss).map .v, 4,
      (active s h).flatMap fun l => (List.range 16).map fun k => (.v (d + k) l, BitVec.ofNat 32 (element l k).code),
      joinFlags ((active s h).map fun l => joinFlags ((List.range 16).map fun k => (element l k).flags)), none⟩)

end Sys2Proof.Claims
end

