-- ==== Sys2Proof/Certificates/Slice0/RuleTerms.lean ====
section
/-!
DEFINITION. The terms of the statements about the whole machine: resets, traps, the registers with rules of their own,
bounds, translation, the watch unit, the first registers of a group.
-/

namespace Sys2Proof.Claims

open Machine

/-! ### Boot (24 R440, R443) -/

/-- The slot passes its verification: its signature, and an SVN that is no lower than the fuse value. -/
def SlotGood (i : Islet) (k : Nat) : Prop := i.slotOk.getD k false = true ∧ i.fuseValue ≤ i.svn.getD k 0

/-- What the Islet makes of its two slots, the fuse fields being equal and no update staged: `i` before, `j` after the
boot. -/
def Boots (i j : Islet) : Prop :=
  let other := (i.active + 1) % 2
  (i.tries < 3 → SlotGood i i.active → j.bootHalted = false ∧ j.active = i.active ∧ j.tries = i.tries + 1
    ∧ j.fallback = i.fallback)
  ∧ (¬ (i.tries < 3 ∧ SlotGood i i.active) → i.fallback = false → SlotGood i other →
    j.bootHalted = false ∧ j.active = other ∧ j.tries = 1 ∧ j.fallback = true)
  ∧ (¬ (i.tries < 3 ∧ SlotGood i i.active) → i.fallback = true ∨ ¬ SlotGood i other → j.bootHalted = true)

/-! ### Taking a trap (19 R356, R357, R351) -/

/-- Quad `q` of the agent as it stands: four words and a tag. -/
def quadOf (a : Agent) (q : Nat) : Cap :=
  ⟨a.raw (.s (4 * q + 3)) ++ a.raw (.s (4 * q + 2)) ++ a.raw (.s (4 * q + 1)) ++ a.raw (.s (4 * q)), a.raw (.ct q) != 0⟩

/-- The lane instruction of the head block that issues next, 0 when the queue is empty. -/
def laneResume (a : Agent) : Nat :=
  match a.blocks with
  | [] => 0
  | b :: _ => b.start + 12 * b.idx

/-- The mode that a trap enters: the base mode, or for a user the one that its owner domain gives. -/
def handlerMode (a : Agent) : Nat := if a.bmode = 0 then (if a.domain = 0 then 1 else 2) else a.bmode

/-- Agent `a`, whose results under way have taken effect, has entered its handler for trap `t` and is `b`. -/
structure InHandler (a b : Agent) (t : Trap) : Prop where
  xpc : b.xpc = { a.pcc with tag := true }
  xlpc : b.xlpc = BitVec.ofNat 64 (laneResume a)
  xcause : b.xcause = BitVec.ofNat 32 t.cause
  xaddr : b.xaddr = BitVec.ofNat 64 t.addr
  xlanes : b.xlanes = t.lanes
  xinfo : b.xinfo = BitVec.ofNat 32 t.info
  pmode : b.pmode = a.mode
  mode : b.mode = handlerMode a
  lane : b.xstat.getLsbD 6 = t.lane
  hnd : b.hnd = true
  status : ∀ k, 4 ≤ k → k ≠ 6 → k ≠ 7 → b.xstat.getLsbD k = a.xstat.getLsbD k
  pcc : b.pcc = { a.kentry.withSeal 0 with tag := true }
  kscr : b.kscr = quadOf a 39
  scratch : quadOf b 39 = a.kscr
  others : ∀ l, l ∉ [Loc.s 156, .s 157, .s 158, .s 159, .ct 39] → b.raw l = a.raw l
  frame : b = { a with
    xpc := b.xpc
    xlpc := b.xlpc
    xcause := b.xcause
    xaddr := b.xaddr
    xlanes := b.xlanes
    xinfo := b.xinfo
    xstat := b.xstat
    pcc := b.pcc
    kscr := b.kscr
    sregs := b.sregs
    ctags := b.ctags
    vregs := b.vregs
    vtags := b.vtags
    preds := b.preds
    em := b.em
    lm := b.lm
    fsr := b.fsr
    mxc := b.mxc
    outst := b.outst
    gov := b.gov
    pend := b.pend
    stepping := .off
    stalled := false
    touching := none
    pausing := false
    pauseEnd := 0
    heldTo := b.heldTo
    wait := .none
    suspended := b.suspended
    latches := [none, none, none, none]
    alatch := b.alatch }

/-! ### Registers with rules of their own, cursors, messages (03 R58, R61; 04 R85, R101) -/

/-- `a` reads as `b` does, in every place. -/
def ReadsAs (a b : Agent) : Prop := ∀ l, a.raw l = b.raw l

/-- A capability as a message brings it to a context of owner domain `d`. -/
def Delivers (c : Cap) (d : Nat) (r : Cap) : Prop :=
  (c.has permGLOB = false ∨ (c.owner ≠ 0 ∧ c.owner ≠ d ∧ c.has permEXPORT = false) → r = { c with tag := false })
    ∧ (¬ (c.has permGLOB = false ∨ (c.owner ≠ 0 ∧ c.owner ≠ d ∧ c.has permEXPORT = false)) → r = c)

/-! ### The checks of an access (04 R93, R94; 20 R376) -/

/-- Request `r`, of `size` bytes aligned to `align`, fails check `k` of R93: tag, seal, permissions, bounds, alignment. -/
def FailsCheck (size align k : Nat) (r : Req) : Prop :=
  match k with
  | 8 => r.cap.tag = false
  | 9 => r.cap.sealType ≠ 0 ∧ r.cap.isExport = false
  | 10 => ∃ p ∈ r.need, r.cap.has p = false
  | 11 => r.ea < r.cap.base ∨ (r.cap.top : Int) < r.ea + size
  | 12 => r.ea % align ≠ 0
  | _ => False

/-- No request fails one of the checks before `k`. -/
def PassBefore (size align k : Nat) (rs : List Req) : Prop := ∀ r ∈ rs, ∀ j < k, ¬ FailsCheck size align j r

/-- The steps of translation in their order; what comes after them. -/
def xlateStep (c : Nat) : Nat := [0x10, 0x13, 0x11, 0x14, 0x12, 0x0A].idxOf c

/-- The translation of request `r` fails with cause `c`. -/
def FailsXlate (s : State) (write : Bool) (c : Nat) (r : Req) : Prop :=
  s.xlateMine (r.cap.want write) r.va = .fail c ∨ (s.xlateMine (r.cap.want write) r.va = .absent ∧ c = 0x10)

/-- The lanes of the requests of which `p` holds. -/
def LanesOf (m : BitVec 32) (rs : List Req) (p : Req → Prop) : Prop :=
  ∀ l < 32, m.getLsbD l = true ↔ ∃ r ∈ rs, r.lane = l ∧ p r

/-- The first of the requests of which `p` holds. -/
def FirstOf (r : Req) (rs : List Req) (p : Req → Prop) : Prop := ∃ xs ys, rs = xs ++ r :: ys ∧ p r ∧ ∀ x ∈ xs, ¬ p x

/-! ### The first registers of a group (03 R57, 02 R48, 04 R80, 19 R352, R353) -/

/-- The trap registers of a group that has taken no trap, its status for a launch, its handler from the scheduling context. -/
structure FreshControl (s : State) (l : Launch) (a : Agent) : Prop where
  xpc : a.xpc = Cap.null
  xlpc : a.xlpc = 0
  xcause : a.xcause = 0
  xaddr : a.xaddr = 0
  xlanes : a.xlanes = 0
  xinfo : a.xinfo = 0
  kentry : a.kentry = s.capPhys l.ctx
  kscr : a.kscr = s.capPhys (l.ctx + 16)
  mode : a.mode = l.bmode % 4
  bmode : a.bmode = l.bmode % 4
  domain : a.domain = l.domain % 256
  hchk : a.hchk = l.hchk
  hnd : a.hnd = false
  ktk : a.ktk = 0
  toks : ∀ n, sget 0 a.toks n = 0
  flags : a.fsr = 0 ∧ a.mxc = 0
  queues : a.qcopy = [] ∧ a.qcoll = [] ∧ a.qmat = []
  latches : a.latches = [none, none, none, none] ∧ a.alatch = none
  names : a.pid = l.pid ∧ a.tid = l.tid ∧ a.space = l.space ∧ a.cpart = l.cpart ∧ a.launch = l.id

/-! ### The watch unit's entries (14 R317 to R328) -/

/-- Word `n` of an entry. -/
def word (e : List Word) (n : Nat) : Nat := (e.getD n 0).toNat

/-- The fields of CTL. -/
structure Ctl where
  state : Nat
  ipend : Nat
  injn : Nat
  dcnt : Nat
  hn : Nat
  bact : Nat
  low : Nat

/-- The fields of an entry's CTL word (14 R318). -/
def ctlOf (e : List Word) : Ctl where
  state := word e 0 / 2 ^ 30
  ipend := word e 0 / 2 ^ 29 % 2
  injn := word e 0 / 2 ^ 25 % 16
  dcnt := word e 0 / 2 ^ 21 % 16
  hn := word e 0 / 2 ^ 19 % 4
  bact := word e 0 / 2 ^ 17 % 4
  low := word e 0 % 2 ^ 17

/-- Entry `e'` is `e` with the CTL fields `c` and the words `ws`. -/
def Rewritten (e e' : List Word) (c : Ctl) (ws : List (Nat × Nat)) : Prop :=
  e'.length = 64 ∧ ctlOf e' = c
    ∧ ∀ n, 0 < n → n < 64 → word e' n = ((ws.find? fun x => x.1 == n).map fun x => x.2).getD (word e n)

/-- ACT of slot `k`; 6 and 7 are read as 0 (14 R319). -/
def actOf (e : List Word) (k : Nat) : Nat := if word e (32 + 4 * k) / 2 ^ 29 < 6 then word e (32 + 4 * k) / 2 ^ 29 else 0

/-- Slot `k` matches the window `w` (14 R321). -/
def Fits (e : List Word) (k : Nat) (w : List Nat) : Prop :=
  let n := word e (32 + 4 * k) / 2 ^ 27 % 4 + 1
  n ≤ w.length ∧ ∀ p < n, word e (32 + 4 * k + p) / 2 ^ 24 % 2 = 1
    ∨ word e (32 + 4 * k + p) % 2 ^ 24 = w.getD (w.length - n + p) 0 % 2 ^ 24

/-- Slot `k` is the lowest that matches and has an action (14 R322). -/
def Wins (e : List Word) (k : Nat) (w : List Nat) : Prop :=
  k < 8 ∧ (actOf e k ≠ 0 ∧ Fits e k w) ∧ ∀ j < k, ¬ (actOf e j ≠ 0 ∧ Fits e j w)

/-- The valid HIST words, oldest first, then the token. -/
def windowOf (e : List Word) (t : Nat) : List Nat := (([5, 6, 7].drop (3 - (ctlOf e).hn)).map (word e)) ++ [t]

/-- The words that an append of `t` writes (14 R321). -/
def appendWords (cost : Nat → Nat) (e : List Word) (t : Nat) : List (Nat × Nat) :=
  [(5, word e 6), (6, word e 7), (7, t), (1, min (word e 1 + 1) (2 ^ 32 - 1)),
    (3, min (word e 3 + cost (t / 2 ^ 24)) (2 ^ 32 - 1))]

/-- The token budget would be exceeded. -/
def OverTokens (e : List Word) : Prop := word e 2 ≠ 0xFFFFFFFF ∧ word e 2 < word e 1 + 1

/-- The cost budget would be exceeded. -/
def OverCost (cost : Nat → Nat) (e : List Word) (t : Nat) : Prop :=
  word e 4 ≠ 0xFFFFFFFF ∧ word e 4 < word e 3 + cost (t / 2 ^ 24)

/-- Outcome of a budget that is hit: STATE 2, no drafts, the token not committed (14 R321). -/
def BudgetHit (e : List Word) (src : Nat) (r : WOut) : Prop :=
  Rewritten e r.e { ctlOf e with
    state := 2
    dcnt := 0 } []
    ∧ r.code = (if (ctlOf e).bact / 2 = 1 then 2 else 1) ∧ r.src = src ∧ r.committed = false
    ∧ r.notify = ((ctlOf e).bact % 2 == 1) ∧ r.fork = false

/-- CTL after the action of a winning slot whose ACT is `act` (14 R323). -/
def ctlAfter (c : Ctl) (act : Nat) : Ctl :=
  if act = 1 ∨ act = 2 then { c with
    state := 2
    dcnt := 0 }
  else if act = 4 then { c with
    ipend := 1
    dcnt := 0 }
  else c

/-! ### A step (07 R141, 08 R163, 03 R69) -/

/-- There is supply, and the schedule begins with slot `x`. -/
def Taken (s : State) (x : Slot) (rest : List Slot) : Prop := s.powered = true ∧ s.schedule = x :: rest

/-- `s` after the slot has been taken off the schedule: what is left of it, and new free values. -/
def taking (s : State) (rest : List Slot) : State := { s with
  schedule := rest
  fresh := s.fresh + 1 }

/-- No stream of the agent is stalled at a first touch any more, and the scalar stream is past its `pause` when it is the one
that issues. -/
def freed (s : State) (lane : Bool) : State := { s with ag := { s.ag with
  touching := none
  pausing := s.ag.pausing && lane } }

/-- At a scalar issue slot the word at the PC is fetched and decodes to `i`: `u` is the state after the fetch, `v` the one in
which `i` runs. An instruction that can issue needs the slot of its partition, and fills it (21 R398); one that cannot yet begins its wait
without it. -/
def ScalarComes (s u v : State) (i : Instr) : Prop :=
  ∃ rest pa o pte z, Taken s (.issue false) rest
    ∧ (let w := (taking s rest).beginIssue
      w.ag.due = .nothing ∧ w.scalarReady w.ag = true ∧ w.needsSnapshot = false
        ∧ (w.ag.focusStack = [] ∨ w.ag.hnd = true)
        ∧ w.ag.pcc.check [permXS] w.ag.pc 4 4 = none
        ∧ w.xlateMine { w.ag.pcc.want false with fetch := true } w.ag.pc = .ok pa o pte z
        ∧ decodeScalar (w.codeAt o pa) = .ok i
        ∧ u = (w.noteXlate w.ag.who w.ag.pc pte z).noteKey o pa
        ∧ (u.scalarStalls i = true → v = freed u false)
        ∧ (u.scalarStalls i = false → w.hasTurn false w.ag = true ∧ v = freed (u.take false) false))

/-- At a lane issue slot the three words of the head block's next instruction are fetched and decode to `i`; `v` is the
state in which it runs, `mate` the instruction that issues with it. The group has the lane slot of its partition, and
fills it (21 R398). -/
def LaneComes (s v : State) (i : Instr) (mate : Option Instr) : Prop :=
  ∃ rest b bs w, Taken s (.issue true) rest
    ∧ (let u := (taking s rest).beginIssue
      u.ag.due = .nothing ∧ u.laneReady u.ag = true ∧ u.hasTurn true u.ag = true
        ∧ (let x := (freed (u.take true) true).coverFocus
          x.ag.blocks = b :: bs ∧ b.cap.tag = true ∧ x.fetchWords b.cap (x.ag.laneAddr b) 3 = .bits v w)
        ∧ decodeLane w = .ok i ∧ v.ag.mustRelease i = false ∧ mate = v.mateOf (boolOf (RawLane.unpack w).pr) i)

end Sys2Proof.Claims
end

