-- ==== Sys2Proof/Certificates/Slice0/PlatformTerms.lean ====
section
/-!
DEFINITION. The terms of the statements about the package: registers of the control window, keys, the mailbox, links and
ports, exports, sweeps, power, spares, debug, resets.
-/

namespace Sys2Proof.Claims

open Machine

/-! ### Registers with an effect of their own -/

/-- Bits [lo, lo + n) of a number. -/
def bits (v lo n : Nat) : Nat := v / 2 ^ lo % 2 ^ n

/-- A PARTCFG value keeps the limits of 25 R451: units of system cores and of LPDDR6, each partition's and their sum. -/
def PartOk (v : Nat) : Prop :=
  (∀ p < 4, bits v (20 + 5 * p) 5 ≤ 16 ∧ bits v (5 * p) 5 ≤ 16)
    ∧ bits v 20 5 + bits v 25 5 + bits v 30 5 + bits v 35 5 ≤ 16
    ∧ bits v 0 5 + bits v 5 5 + bits v 10 5 + bits v 15 5 ≤ 16

/-- No export entry is valid and the free list is empty (27 R470). -/
def ExportsIdle (s : State) : Prop :=
  s.fabric.expfree = 0xFFFF ∧ (s.fabric.exppa = 0
    ∨ ∀ k < s.fabric.exportCount, (s.readPhys (s.fabric.exportAt k + 16) 4).testBit 15 = false)

/-- Writes of registers, and what else the registers bring about (24 R425, R438; 25 R451; 23 R410; 26 R457, R458; 27 R469,
R470). -/
inductive RegisterEvent (s : State) : Instr → State → Prop
  | partcfgIgnored (v : Nat) (h : ¬ PartOk (v % 2 ^ 48))
    (hc : ∀ a ∈ s.agents, a.isSys = true → (s.fabric.corePart a.core).getD a.cpart = a.cpart) :
    RegisterEvent s (.partcfgWrite v) s
  | partcfg (v : Nat) (h : PartOk (v % 2 ^ 48)) :
    RegisterEvent s (.partcfgWrite v)
      (let g : Fabric := { s.fabric with partcfg := v % 2 ^ 48 }
      let moved := (List.range 16).filter fun n => bits (v % 2 ^ 48) (40 + 2 * (n / 4)) 2 ≠ bits s.fabric.partcfg (40 + 2 * (n / 4)) 2
      let f : Fabric := { g with
        linkpart := moved.foldl (fun w n => setLinkPart w n (bits (v % 2 ^ 48) (40 + 2 * (n / 4)) 2)) s.fabric.linkpart }
      let place := fun a : Agent => if a.isSys then { a with cpart := (f.corePart a.core).getD a.cpart } else a
      { s with
        fabric := f
        ag := place s.ag
        rest := s.rest.map place })
  | linkpart (v : Nat) (h : ∀ n < 16, bits v (2 * n) 2 = bits s.fabric.partcfg (40 + 2 * (n / 4)) 2) :
    RegisterEvent s (.linkpartWrite v) { s with fabric := { s.fabric with linkpart := v % 2 ^ 36 } }
  | linkpartIgnored (v : Nat) (h : ∃ n < 16, bits v (2 * n) 2 ≠ bits s.fabric.partcfg (40 + 2 * (n / 4)) 2) :
    RegisterEvent s (.linkpartWrite v) s
  | coherence (die v : Nat) (h : 5 ≤ v % 2 ^ 7 ∧ v % 2 ^ 7 ≤ 100) :
    RegisterEvent s (.coherenceControlWrite die v) { s with coh := { s.coh with
      control := s.coh.control.map fun e => if e.1 = die then (die, v % 2 ^ 7) else e } }
  | coherenceIgnored (die v : Nat) (h : v % 2 ^ 7 < 5 ∨ 100 < v % 2 ^ 7) :
    RegisterEvent s (.coherenceControlWrite die v) s
  | exppa (v : Nat) (h : ExportsIdle s) : RegisterEvent s (.exppaWrite v) { s with fabric := { s.fabric with
      exppa := v % 2 ^ 64 - v % 2 ^ 12 } }
  | exppaIgnored (v : Nat) (h : s.fabric.expfree ≠ 0xFFFF) : RegisterEvent s (.exppaWrite v) s
  | rmap (v : Nat) (h : s.sweep.running = none ∧ s.sweep.waiting = none) :
    RegisterEvent s (.revocationRegisterWrite 0 v) { s with sweep := { s.sweep with
      rmap := bits v 12 40 * 2 ^ 12 + v % 2 } }
  | rvbase (v : Nat) (h : s.sweep.running = none ∧ s.sweep.waiting = none) (ha : v % 2 ^ 21 = 0)
    (hc : canonical (v % 2 ^ 64) = true) :
    RegisterEvent s (.revocationRegisterWrite 1 v) { s with sweep := { s.sweep with rvbase := v % 2 ^ 64 } }
  | rvlen (v : Nat) (h : s.sweep.running = none ∧ s.sweep.waiting = none) (ha : v % 2 ^ 21 = 0) (hl : v ≤ 2 ^ 44) :
    RegisterEvent s (.revocationRegisterWrite 2 v) { s with sweep := { s.sweep with rvlen := v } }
  | sweeping (which v : Nat) (h : s.sweep.running ≠ none ∨ s.sweep.waiting ≠ none) :
    RegisterEvent s (.revocationRegisterWrite which v) s
  | unassigned (off v : Nat) (h : wslot off = none) : RegisterEvent s (.registerWrite off v) s
  | wbase (p k v : Nat) (hp : p < 4) (hk : k < 4) :
    RegisterEvent s (.registerWrite (0x3000000 + 0x10000 * p + 0x40 + 0x18 * k) v) { s with
      dbg := s.dbg.map fun d => if d.p = p then { d with wbase := d.wbase.set k (v % 2 ^ 64) } else d }
  | ident (c v : Nat) (hc : c < 64) :
    RegisterEvent s (.registerWrite (0x4000000 + 0x100 * c) v) { s with
      cores := s.cores.map fun d => if d.core = c then { d with ident := v % 2 ^ 64 } else d }
  | mbarg (v : Nat) :
    RegisterEvent s (.registerWrite 0x7000000 v) { s with islet := { s.islet with mbarg := v % 2 ^ 64 } }
  | kdata (i v : Nat) (hi : i < 16) :
    RegisterEvent s (.registerWrite (0x200 + 4 * i) v) { s with keys := { s.keys with
      kdata := s.keys.kdata.set i (v % 2 ^ 32) } }
  | keyRefused (h : s.keys.kstat % 2 = 1) (hf : s.keys.kcmd = 0 ∨ ∃ e ∈ s.keys.full, e.1 = s.keys.kcmd) :
    RegisterEvent s .keyLoad { s with keys := { s.keys with kstat := 2 } }
  | keyLoad (h : s.keys.kstat % 2 = 1) (h0 : s.keys.kcmd ≠ 0) (hf : ∀ e ∈ s.keys.full, e.1 ≠ s.keys.kcmd) :
    RegisterEvent s .keyLoad { s with keys := { s.keys with
      kstat := s.keys.kstat / 2 * 2
      full := (s.keys.kcmd, s.keys.keyNumber) :: s.keys.full
      gens := max s.keys.gens s.keys.keyNumber
      known := (s.keys.kdata, s.keys.keyNumber) :: s.keys.known.filter fun e => e.1 != s.keys.kdata
      kdata := List.replicate 16 0 } }
  | stop (p pid : Nat) :
    RegisterEvent s (.stop p pid)
      (let told := fun a : Agent =>
        if a.alive = true ∧ a.cpart = p ∧ s.pidOf a = pid % 2 ^ 32 then
          if a.isSys then { a with ipend := a.ipend ||| (1#64 <<< 62) } else { a with stopDue := true }
        else a
      { s with
        ag := told s.ag
        rest := s.rest.map told })
  | armed (c v : Nat) (h : v % 2 ^ 64 / 2 ^ 8 = 0 ∧ v % 8 = 1) :
    RegisterEvent s (.acctArm c v) { s with cores := s.cores.map fun d => if d.core = c then { d with
      acct := 1
      armedAt := some s.time } else d }

/-! ### The mailbox of the Islet (24 R440 to R442; 27 R471) -/

/-- A command of this code is under way. -/
def Doing (s : State) (code : Nat) : Prop := s.islet.mbstat % 2 = 1 ∧ s.islet.mbcmd = code ∧ s.islet.mbres = none

/-- A fuse fails its verification: A, then B, stand where the programming stopped, which the manual leaves open; the
command fails and a fuse fault, kind 6, is logged at the Islet's own time (24 R442, 27 R471). -/
def fuseStops (s : State) : State :=
  let k := s.islet.mbarg
  let a := s.islet.fuseA + Config.freeNat s.fresh 3
    % (if s.islet.fuseB < k then k - s.islet.fuseA + 1 else k - s.islet.fuseA)
  { s with islet := { s.islet with
    fuseA := a
    fuseB := if a < k then s.islet.fuseB else s.islet.fuseB + Config.freeNat s.fresh 4 % (k - s.islet.fuseB)
    mbres := some (Config.freeNat s.fresh 9 % 255 + 1)
    log := ((6, s.localTime 300, k) :: s.islet.log).take 4096 } }

inductive IsletEvent (s : State) : Instr → State → Prop
  | bootok (h : Doing s 1) : IsletEvent s .bootok { s with islet := { s.islet with
      tries := 0
      fallback := s.islet.fallback && !s.islet.updated
      updated := false
      mbres := some 0 } }
  | stage (h : Doing s 2) :
    IsletEvent s .stage (if Config.freeBit s.fresh 0 = true ∧ min s.islet.fuseA s.islet.fuseB ≤ Config.freeNat s.fresh 1 then
      { s with islet := { s.islet with
        svn := s.islet.svn.set ((s.islet.active + 1) % 2) (Config.freeNat s.fresh 1)
        slotOk := s.islet.slotOk.set ((s.islet.active + 1) % 2) true
        staged := true
        mbres := some 0 } }
      else { s with islet := { s.islet with mbres := some (Config.freeNat s.fresh 9 % 255 + 1) } })
  | logrd (h : Doing s 3) (hd : isDram s.islet.mbarg = true) (he : isDram (s.islet.mbarg + 2 ^ 17) = true)
    (hw : s.writeOk s.islet.mbarg (32 * s.islet.log.length) = true) :
    IsletEvent s .logrd
      (let t := s.putAt 0 s.islet.mbarg ((List.range (32 * s.islet.log.length)).map fun k => Config.freeByte s.fresh k)
      { t with islet := { s.islet with mbres := some 0 } })
  | fuseKept (h : Doing s 4) (hk : s.islet.mbarg ≤ min s.islet.fuseA s.islet.fuseB) :
    IsletEvent s .fuse { s with islet := { s.islet with mbres := some 0 } }
  | fuseRefused (h : Doing s 4) (hk : min s.islet.fuseA s.islet.fuseB < s.islet.mbarg)
    (hm : 64 < s.islet.mbarg ∨ s.islet.svn.getD s.islet.active 0 < s.islet.mbarg) :
    IsletEvent s .fuse { s with islet := { s.islet with mbres := some (Config.freeNat s.fresh 9 % 255 + 1) } }
  | fuse (h : Doing s 4) (hk : min s.islet.fuseA s.islet.fuseB < s.islet.mbarg) (hm : s.islet.mbarg ≤ 64)
    (hv : s.islet.mbarg ≤ s.islet.svn.getD s.islet.active 0) :
    IsletEvent s .fuse (if Config.freeBit s.fresh 2 = true then { s with islet := { s.islet with
      fuseA := max s.islet.fuseA s.islet.mbarg
      fuseB := max s.islet.fuseB s.islet.mbarg
      mbres := some 0 } } else fuseStops s)
  | commandEnd (r : Nat) (h : s.islet.mbstat % 2 = 1) (hc : 1 ≤ s.islet.mbcmd ∧ s.islet.mbcmd ≤ 4)
    (hr : s.islet.mbres = some r) :
    IsletEvent s .mailboxCommandEnd { s with islet := { s.islet with
      mbstat := r % 256 * 2 ^ 8
      mbres := none } }
  | commandUnknown (h : s.islet.mbstat % 2 = 1) (hc : ¬ (1 ≤ s.islet.mbcmd ∧ s.islet.mbcmd ≤ 4)) :
    IsletEvent s .mailboxCommandEnd { s with islet := { s.islet with
      mbstat := (Config.freeNat s.fresh 9 % 255 + 1) % 256 * 2 ^ 8
      mbres := none } }
  | measured (nonce : Nat) : IsletEvent s (.getMeasurements nonce) { s with islet := { s.islet with
      measured := [nonce, Config.digest 1 [], Config.digest 2 [s.islet.active, s.islet.svn.getD s.islet.active 0],
        Config.digest 3 [s.islet.active, if s.islet.fallback then 1 else 0, s.islet.tries,
          s.islet.svn.getD s.islet.active 0, min s.islet.fuseA s.islet.fuseB]] } }

/-! ### Power and spares (27 R472, R473) -/

/-- The figure that the power manager acts on: the larger of the measured and the model one, in 16 bits. -/
def figure (s : State) (watts : Nat) : Nat :=
  min 65535 (max watts (modelFigure (fun k => Config.freeNat s.fresh k % 1001) s.islet.step s.islet.leak))

/-- STEP after a step of the power manager: 2,400 W is the limit, 2,300 W is where it rises again; it stays from 32 to 64
(27 R472). -/
def stepAfter (step pest : Nat) : Nat :=
  if 2400 < pest then max 32 (step - 1) else if pest < 2300 then min 64 (step + 1) else step

inductive PowerEvent (s : State) : Instr → State → Prop
  | managed (watts : Nat) (h : s.islet.pwrAt + 1000 ≤ s.time) :
    PowerEvent s (.powerManagerStep watts) { s with islet := { s.islet with
      pest := figure s watts
      step := stepAfter s.islet.step (figure s watts)
      pwrAt := s.time
      overSince := if 2400 < figure s watts ∧ s.islet.step = 32 then some (s.islet.overSince.getD s.time) else none
      underSince := if figure s watts ≤ 2400 then some (s.islet.underSince.getD s.time) else none } }
  | leakage (die leak : Nat) (h : s.islet.leakAt + 100000 ≤ s.time) :
    PowerEvent s (.leakageUpdate die leak) { s with islet := { s.islet with
      leak := leak
      leakAt := s.time } }
  | alert (t : Nat) (h : s.islet.alert = false) (ho : s.islet.overSince = some t) (ht : t + 1000000 ≤ s.time) :
    PowerEvent s .powerAlertAssert { s with islet := { s.islet with
      alert := true
      log := ((7, s.localTime 300, s.islet.pest) :: s.islet.log).take 4096 } }
  | release (t : Nat) (h : s.islet.alert = true) (hu : s.islet.underSince = some t) (ht : t + 1000000 ≤ s.time) :
    PowerEvent s .powerAlertRelease { s with islet := { s.islet with alert := false } }
  | drain (die unit : Nat) (hd : die < 4) (hu : unit < 48) (h : (die, unit) ∉ s.islet.drained) :
    PowerEvent s (.spareExchange die unit) { s with islet := { s.islet with
      drained := s.islet.drained ++ [(die, unit)] } }
  | exchange (die unit : Nat) (hd : die < 4) (hu : unit < 48) (h : (die, unit) ∈ s.islet.drained)
    (hn : s.teamsOver die unit 1 = []) (hp : s.publishOk die unit = true) :
    PowerEvent s (.spareExchange die unit)
      (let t := s.emptyL1 die unit
      { t with islet := { t.islet with
        drained := t.islet.drained.filter fun x => x != (die, unit)
        log := ((8, t.localTime 300, 64 * die + unit) :: t.islet.log).take 4096 } })
  | live (die unit : Nat) (hd : die < 4) (hu : 48 ≤ unit) :
    PowerEvent s (.spareExchange die unit) { s with islet := { s.islet with
      log := ((8, s.localTime 300, 64 * die + unit) :: s.islet.log).take 4096 } }
  | waitsReset (unit : Nat) (hu : unit < 64) (h : (4, unit) ∉ s.islet.drained) :
    PowerEvent s (.spareExchange 4 unit) { s with islet := { s.islet with
      drained := s.islet.drained ++ [(4, unit)] } }

/-! ### Links, ports, peers (25 R444 to R450; 24 R434) -/

/-- Link `n` changed, every other link as before. -/
def linked (s : State) (n : Nat) (f : Link → Link) : State :=
  { s with fabric := { s.fabric with links := s.fabric.links.map fun l => if l.n = n then f l else l } }

/-- The access of a peer is admitted: its entry is valid, of its generation and for its package, and covers the bytes with
the permission asked for (24 R434). -/
def Admitted (s : State) (q : PeerRequest) : Prop :=
  s.fabric.exppa ≠ 0 ∧ q.entry < s.fabric.exportCount
    ∧ (s.readPhys (s.fabric.exportAt q.entry + 16) 4).testBit 15 = true
    ∧ bits (s.readPhys (s.fabric.exportAt q.entry + 16) 4) 16 16 = q.gen
    ∧ bits (s.readPhys (s.fabric.exportAt q.entry + 16) 4) 0 11 = q.pkg
    ∧ q.offset + q.size ≤ (s.capPhys (s.fabric.exportAt q.entry)).top - (s.capPhys (s.fabric.exportAt q.entry)).base
    ∧ q.perms.testBit (if q.write then permST else permLD) = true

inductive LinkEvent (s : State) : Instr → State → Prop
  | training (n peer : Nat) : LinkEvent s (.linkTraining n peer)
    (linked s n fun l => if l.state = 3 then l else { l with
      state := 2
      peer := peer % 2 ^ 11 })
  | replay (n : Nat) : LinkEvent s (.flitReplay n)
    (linked s n fun l => if l.state = 2 then { l with retry := min 255 (l.retry + 1) } else l)
  | spare (n : Nat) : LinkEvent s (.linkSpareLane n)
    (linked s n fun l => if l.state = 2 ∧ l.spu = false then { l with
      spu := true
      splane := Config.freeNat s.fresh n % 8 } else l)
  | failure (n : Nat) : LinkEvent s (.linkFailure n) (linked s n fun l => if l.spu then { l with state := 3 } else l)
  | peerLost (n : Nat) : LinkEvent s (.linkPeerLoss n)
    (linked s n fun l => if l.state = 2 then { l with state := if Config.freeBit s.fresh n then 1 else 0 } else l)
  | msixNone (k entry : Nat) (p : Port) (hp : s.port? k = some p) (h : p.msix = 0 ∨ 2048 ≤ entry) :
    LinkEvent s (.msixWrite k entry) { s with fabric := { s.fabric with
      portDone := s.fabric.portDone.filter fun x => x != k } }
  | msix (k entry : Nat) (p : Port) (hp : s.port? k = some p) (h : p.msix ≠ 0) (he : entry < 2048)
    (hl : s.readPhys (p.msix + 8 * entry) 8 ≠ 0) (ho : s.fabric.owns 0 (s.readPhys (p.msix + 8 * entry) 8) = true) :
    LinkEvent s (.msixWrite k entry)
      (let t := s.signalLine (s.readPhys (p.msix + 8 * entry) 8)
      { t with fabric := { t.fabric with portDone := t.fabric.portDone.filter fun x => x != k } })
  | msixForeign (k entry : Nat) (p : Port) (hp : s.port? k = some p) (h : p.msix ≠ 0) (he : entry < 2048)
    (ho : s.fabric.owns 0 (s.readPhys (p.msix + 8 * entry) 8) = false) :
    LinkEvent s (.msixWrite k entry) { s with fabric := { s.fabric with
      portDone := s.fabric.portDone.filter fun x => x != k } }
  | transferred (k : Nat) (p : Port) (hp : s.port? k = some p) (h : k ∉ s.fabric.portDone) :
    LinkEvent s (.portTransferComplete k) { s with fabric := { s.fabric with portDone := s.fabric.portDone ++ [k] } }
  | portWrite (k va size data pa o : Nat) (p : Port) (t : State) (hp : s.port? k = some p) (ha : p.aspace ≠ 0)
    (hs : size ≠ 0) (h1 : va / 4096 = (va + size - 1) / 4096)
    (hx : s.devXlate (s.portWho p) ⟨true, false, false, false⟩ va = .ok t pa o) (hw : t.writeOk pa size = true) :
    LinkEvent s (.portMemoryAccess k va size data true) (t.putAt o pa (bytesLE size data))
  | portRead (k va size data pa o : Nat) (p : Port) (t : State) (hp : s.port? k = some p) (ha : p.aspace ≠ 0)
    (hs : size ≠ 0) (h1 : va / 4096 = (va + size - 1) / 4096)
    (hx : s.devXlate (s.portWho p) ⟨false, false, false, false⟩ va = .ok t pa o) :
    LinkEvent s (.portMemoryAccess k va size data false) t
  | peerWrite (q : PeerRequest) (hw : q.write = true) (h : Admitted s q) :
    LinkEvent s (.peerAccessRequest q)
      (let p := Config.freeNat s.fresh 0
      if isDram p = true ∧ s.writeOk p q.size = true then s.putAt 0 p (bytesLE q.size q.data) else s)
  | peerRefused (q : PeerRequest) (h : ¬ Admitted s q) : LinkEvent s (.peerAccessRequest q) s
  | peerRead (q : PeerRequest) (h : q.write = false) : LinkEvent s (.peerAccessRequest q) s

/-! ### Sweeps, samples, crash dump (24 R427 to R430; 26 R462, R466) -/

inductive SweepEvent (s : State) : Instr → State → Prop
  | begins (n : Nat) (h : s.sweep.running = none) (hw : s.sweep.waiting = some n) :
    SweepEvent s .sweepPassBegin { s.sweepHeld with sweep := { s.sweepHeld.sweep with
      running := some n
      waiting := none
      begunAt := s.time
      visit := s.sweepHeld.sweep.frames } }
  | ends (n : Nat) (h : s.sweep.running = some n) :
    SweepEvent s .sweepPassComplete
      (let judged := fun a : Agent => if a.sweptAt = n then a else s.judgeAgent n a
      let t := (({ s with
        ag := judged s.ag
        rest := s.rest.map judged } : State).sweepHeld).sweepMemory
      { t with sweep := { t.sweep with
        running := none
        visit := []
        swpdone := n } })
  | noSample (p : Nat) (h : (s.dbgOf p).sper % 2 ^ 16 = 0) : SweepEvent s (.traceSample p) s
  | sample (p : Nat) (h : (s.dbgOf p).sper % 2 ^ 16 ≠ 0)
    (ht : (s.dbgOf p).sampledAt + 1000 * ((s.dbgOf p).sper % 2 ^ 16) ≤ s.time) :
    SweepEvent s (.traceSample p)
      (let t := (s.agents.filter fun a => a.alive && a.resident && a.cpart == p).foldl
        (fun s a => s.trace p (s.joinedName a) 1 0 0 a.pc) s
      { t with dbg := t.dbg.map fun d => if d.p = p then { d with sampledAt := s.time } else d })
  | notArmed (p : Nat) (h : (s.dbgOf p).crash.testBit 0 = false) : SweepEvent s (.crashDump p) s

end Sys2Proof.Claims
end

