-- ==== Sys2Proof/Certificates/Slice0/TeamTerms.lean ====
section
/-!
DEFINITION. The terms of the statements about engines, page requests, the matrix arrays, the watch unit, the scheduler,
launches and graphs: for each event, when it happens, and the state it leaves.
-/

namespace Sys2Proof.Claims

open Machine

/-- Agent `id` changed by `f`, every other part of `s` as it is. -/
def changed (s : State) (id : Nat) (f : Agent → Agent) : State :=
  if s.ag.id = id then { s with ag := f s.ag }
  else { s with rest := s.rest.map fun a => if a.id = id then f a else a }

/-- Team `id` changed by `f`. -/
def teamed (s : State) (id : Nat) (f : Team → Team) : State :=
  { s with teams := s.teams.map fun t => if t.id = id then f t else t }

/-- Launch `id` changed by `f`. -/
def launched (s : State) (id : Nat) (f : Launch → Launch) : State :=
  { s with launches := s.launches.map fun l => if l.id = id then f l else l }

/-! ### Engines (11 R265 to R278) and page requests (20 R477) -/

/-- A command of agent `a` as an engine holds it. -/
def heldCommand (s : State) (a : Agent) (coll : Bool) (c : Command) : EngineCmd where
  id := s.nextCmd
  coll := coll
  num := c.num
  agent := some a.id
  walk := none
  team := a.team
  die := a.die
  cpart := a.cpart
  space := a.space
  mode := c.mode
  domain := a.domain
  words := c.words
  tags := c.tags
  tk := c.tk
  obj := c.obj
  rank := c.rank
  inst := c.inst
  seen := false
  waitPage := none
  done := []

/-- An engine has accepted the command; the agent is `f` of what it was. -/
def accepted (s : State) (a : Agent) (coll : Bool) (c : Command) (f : Agent → Agent) : State :=
  changed { s with
    cmds := s.cmds ++ [heldCommand s a coll c]
    nextCmd := s.nextCmd + 1 } a.id f

/-- The copy, or collective, command of number `k` that is not held up by a page. -/
def Runs (s : State) (k : Nat) (coll : Bool) (c : EngineCmd) : Prop :=
  (s.cmds.find? fun x => x.id == k && x.coll == coll && x.waitPage.isNone) = some c

/-- The page request `k` before it is in a ring. -/
def Asks (s : State) (k : Nat) (p : PageReq) : Prop :=
  (s.pages.find? fun x => x.id == k && x.posted.isNone) = some p

/-- The request `k` is in the ring at entry `i`. -/
def inRing (s : State) (k i : Nat) : State :=
  { s with pages := s.pages.map fun x => if x.id = k then { x with posted := some i } else x }

/-- Entries a ring holds: PRQT less PRQH, modulo 2^32 (20 R477). -/
def pending (s : State) (o : Nat) : Nat := ((s.ring o).2.2.1 + 2 ^ 32 - (s.ring o).2.2.2) % 2 ^ 32

/-- The entry of a ring that PRQT names. -/
def ringPlace (s : State) (o : Nat) : Nat := (s.ring o).1 + 32 * ((s.ring o).2.2.1 % (s.ring o).2.1)

/-- The rank's earlier instances have ended, those that agents still hold in their queues too, and its group object still
has its tag (11 R275). -/
def MayRun (s : State) (c : EngineCmd) : Prop :=
  (∀ x ∈ s.cmds, x.coll = true → x.obj = c.obj → x.rank = c.rank → c.inst ≤ x.inst)
    ∧ (∀ a ∈ s.agents, ∀ x ∈ a.qcoll, x.obj = c.obj → x.rank = c.rank → c.inst ≤ x.inst) ∧ c.tags.getD 0 false = true

/-- Participants of a group object: NM1 + 1. -/
def participants (s : State) (c : EngineCmd) : Nat := s.readPhys c.obj 4 % 2 ^ 16 + 1

inductive EngineEvent (s : State) : Instr → State → Prop
  | copyAccept (a : Agent) (c : Command) (r : List Command) (h : s.agent? a.id = some a) (hr : a.resident = true)
    (hq : a.qcopy = c :: r) :
    EngineEvent s (.copyAccept a.id) (accepted s a false c fun b => { b with qcopy := r })
  | collAccept (a : Agent) (c : Command) (r : List Command) (h : s.agent? a.id = some a) (hr : a.resident = true)
    (hq : a.qcoll = c :: r) :
    EngineEvent s (.collectiveAccept a.id) (accepted s a true c fun b => { b with qcoll := r })
  | copied (k : Nat) (c : EngineCmd) (s1 : State) (rows : List (Nat × RowSide × RowSide)) (h : Runs s k false c)
    (hx : s.rowsX c [] (List.range (copyShape c.words).rows) = .ok s1 rows)
    (hw : ∀ p ∈ rows.flatMap fun r => r.2.2.pieces, s1.writeOk p.pa p.n = true) :
    EngineEvent s (.copyCompletion k)
      ((((s1.copyRows c rows).endCmd c).cmdHits c true false (rows.flatMap fun r => r.2.1.pieces)).cmdHits c false true
        (rows.flatMap fun r => r.2.2.pieces))
  | copyWaits (k : Nat) (c : EngineCmd) (s1 : State) (va kind : Nat) (h : Runs s k false c)
    (hx : s.rowsX c [] (List.range (copyShape c.words).rows) = .page s1 va kind) :
    EngineEvent s (.copyCompletion k) (s1.cmdPage c va kind)
  | collReads (k : Nat) (c : EngineCmd) (h : Runs s k true c) (hm : MayRun s c) (hs : c.seen = false) :
    EngineEvent s (.collectiveCompletion k) (s.readSource c (participants s c))
  | collWrites (k : Nat) (c : EngineCmd) (bs : List Byte) (s1 : State) (ps : List Piece) (h : Runs s k true c)
    (hm : MayRun s c) (hs : c.seen = true)
    (hb : s.collBytes c (participants s c) (collDstLen c.words (participants s c)) = some bs)
    (hx : s.sideX c (quadCap c.words 2 (c.tags.getD 2 false)) true
      [((quadCap c.words 2 (c.tags.getD 2 false)).addr, collDstLen c.words (participants s c))] = .ok s1 ps)
    (hw : ∀ p ∈ ps, s1.writeOk p.pa p.n = true) :
    EngineEvent s (.collectiveCompletion k) (((s1.putPieces (fun _ => false) ps bs).endCmd c).cmdHits c false true ps)
  | pageDeclined (k : Nat) (p : PageReq) (h : Asks s k p)
    (hr : (s.ring p.space).1 = 0 ∨ s.fabric.owns p.cpart (ringPlace s p.space) = false) :
    EngineEvent s (.pageRequestPost k) (s.endPage p false)
  | pageJoins (k : Nat) (p : PageReq) (i : Nat) (h : Asks s k p) (hr : (s.ring p.space).1 ≠ 0)
    (ho : s.fabric.owns p.cpart (ringPlace s p.space) = true)
    (hp : s.pendingEntry p.space p.va p.kind = some i) : EngineEvent s (.pageRequestPost k) (inRing s k i)
  | pagePosts (k : Nat) (p : PageReq) (h : Asks s k p) (hr : (s.ring p.space).1 ≠ 0)
    (ho : s.fabric.owns p.cpart (ringPlace s p.space) = true)
    (hp : s.pendingEntry p.space p.va p.kind = none) (hn : pending s p.space < (s.ring p.space).2.1)
    (hw : s.writeOk (ringPlace s p.space) 32 = true ∧ s.writeOk (p.space + 204) 4 = true) :
    EngineEvent s (.pageRequestPost k)
      (let t := (s.writePhys (ringPlace s p.space) 32 (p.va + p.kind * 2 ^ 64 + 2 ^ 96)).writePhys (p.space + 204) 4
        ((s.ring p.space).2.2.1 + 1)
      inRing (if t.readPhys (p.space + 24) 8 = 0 then t else t.signalOwned p.cpart (t.readPhys (p.space + 24) 8)) k
        ((s.ring p.space).2.2.1 % (s.ring p.space).2.1))
  | pageServed (k : Nat) (p : PageReq) (h : (s.pages.find? fun x => x.id == k) = some p)
    (hs : s.pageServed p.cpart p.space p.va p.kind = true) :
    EngineEvent s (.pageRequestRecheck k) (s.endPage p true)
  | pageFailed (k : Nat) (p : PageReq) (i : Nat) (h : (s.pages.find? fun x => x.id == k) = some p)
    (hs : s.pageServed p.cpart p.space p.va p.kind = false) (hp : p.posted = some i)
    (ht : ∀ a e z, s.walk (s.pageWho p) p.va ≠ .touch a e z) (hi : s.stillIn p i = true)
    (hf : s.readPhys ((s.ring p.space).1 + 32 * i + 12) 4 = 3) :
    EngineEvent s (.pageRequestRecheck k) (s.endPage p false)
  | pageReused (k : Nat) (p : PageReq) (i : Nat) (h : (s.pages.find? fun x => x.id == k) = some p)
    (hs : s.pageServed p.cpart p.space p.va p.kind = false) (hp : p.posted = some i)
    (ht : ∀ a e z, s.walk (s.pageWho p) p.va ≠ .touch a e z) (hi : s.stillIn p i = false) :
    EngineEvent s (.pageRequestRecheck k) s
  | pageTouches (k : Nat) (p : PageReq) (a e z : Nat) (s1 : State)
    (h : (s.pages.find? fun x => x.id == k) = some p) (hs : s.pageServed p.cpart p.space p.va p.kind = false)
    (ht : s.walk (s.pageWho p) p.va = .touch a e z) (hf : s.firstTouch (s.pageWho p) a e z = .done s1) :
    EngineEvent s (.pageRequestRecheck k) s1

/-! ### Matrix arrays (11 R249 to R264) and the watch unit (14 R330, R333) -/

/-- The arrays of an instruction at the head of core `core`'s order: its own, or both of an even pair. -/
def arraysOf (o : MatrixOp) (core : Nat) : List Nat := if o.pair then [core / 2 * 2, core / 2 * 2 + 1] else [core]

/-- Both halves of `o` stand at the head of their orders and neither has started. -/
def AtHead (s : State) (die core : Nat) (o : MatrixOp) : Prop :=
  o.started = false ∧ ∀ c ∈ core :: arraysOf o core, ∃ p r, (s.array die c).queue = p :: r
    ∧ (c = core → p = o) ∧ p.agent = o.agent ∧ p.num = o.num ∧ p.started = false

/-- The order of each array of `o` has gone on to the next instruction. -/
def ordersGoOn (s : State) (die core : Nat) (o : MatrixOp) : State :=
  (arraysOf o core).foldl (fun s c => s.setArray { s.array die c with queue := (s.array die c).queue.drop 1 }) s

/-- The issuer of `o` once it has ended: it is under way no more, its token posts, the event counts are added; the watchdog
counts a store (21 R399). -/
def matrixEnded (s : State) (o : MatrixOp) (counts : Word) : State :=
  changed s o.agent fun a => let b := a.matrixDone o.num counts
    if o.kind = .store then { b with sinks := b.sinks + 1 } else b

/-- The leader of the arrays. -/
def leader (o : MatrixOp) (core : Nat) : Nat := (arraysOf o core).headD core

/-- The counts that `mmac` and `mdist` add to mxc (03 R63). -/
def macCounts (e : MacEvents) : Word :=
  BitVec.ofNat 32 ((if e.nv then 2 ^ 16 else 0) + (if e.ov then 2 ^ 8 else 0) + if e.un then 1 else 0)

inductive ArrayEvent (s : State) : Instr → State → Prop
  | start (die core : Nat) (o : MatrixOp) (h : AtHead s die core o) :
    ArrayEvent s (.matrixStart die core) ((arraysOf o core).foldl (fun s' c => s'.setArray
      ((s'.array die c).updHead fun p => { p with
        started := true
        cols := s.columnsOf o })) s)
  | computed (die core : Nat) (o : MatrixOp) (r : List MatrixOp) (h : (s.array die core).queue = o :: r)
    (hs : o.started = true) (hk : o.kind = .mac ∨ o.kind = .dist) :
    ArrayEvent s (.matrixCompletion die core)
      (matrixEnded (ordersGoOn (s.macAll die (leader o core) o).1 die core o) o
        (macCounts (s.macAll die (leader o core) o).2))
  | cleared (die core : Nat) (o : MatrixOp) (r : List MatrixOp) (h : (s.array die core).queue = o :: r)
    (hs : o.started = true) (hk : o.kind = .clr) :
    ArrayEvent s (.matrixCompletion die core)
      (matrixEnded (ordersGoOn (s.loadTile die (leader o core) o fun _ _ => 0) die core o) o 0)
  | loaded (die core : Nat) (o : MatrixOp) (r : List MatrixOp) (h : (s.array die core).queue = o :: r)
    (hs : o.started = true) (hk : o.kind = .load) :
    ArrayEvent s (.matrixCompletion die core)
      (matrixEnded (ordersGoOn (s.loadTile die (leader o core) o fun i j => (o.cols.getD j []).getD i 0) die core o) o 0)
  | stored (die core : Nat) (o : MatrixOp) (r : List MatrixOp) (h : (s.array die core).queue = o :: r)
    (hs : o.started = true) (hk : o.kind = .store) :
    ArrayEvent s (.matrixCompletion die core) (matrixEnded (ordersGoOn (s.storeTile die (leader o core) o) die core o) o 0)
  | topped (die core : Nat) (o : MatrixOp) (r : List MatrixOp) (k e : Nat) (h : (s.array die core).queue = o :: r)
    (hs : o.started = true) (hk : o.kind = .top k e) :
    ArrayEvent s (.matrixCompletion die core)
      (matrixEnded (ordersGoOn (changed s o.agent fun a => a.fillEntry e (s.topRows die (leader o core) o k)) die core o)
        o 0)
  | watchStep (a : Agent) (o : Op) (op : WatchOp) (c : Cap) (d p : Nat) (w : WatchLane) (r : List WatchLane)
    (got : List (Loc × Word)) (ts : List WatchTrap) (s1 : State) (ws : List (Loc × Word)) (us : List WatchTrap)
    (h : s.agent? a.id = some a) (ho : a.op? o.num = some o) (hk : o.kind = .watch op c d p (w :: r) got ts)
    (hq : s.orderOk a o = true) (hw : s.watchStep a o op c d p w = (s1, some (ws, us))) :
    ArrayEvent s (.watchStepCompletion a.id o.num) (changed s1 a.id fun b => { b with outst := b.outst.map fun x =>
      if x.num = o.num then { x with kind := .watch op c d p r (got ++ ws) (ts ++ us) } else x })
  | watchEnd (a : Agent) (o : Op) (op : WatchOp) (c : Cap) (d p : Nat) (got : List (Loc × Word))
    (h : s.agent? a.id = some a) (ho : a.op? o.num = some o) (hk : o.kind = .watch op c d p [] got [])
    (hq : s.orderOk a o = true) :
    ArrayEvent s (.watchStepCompletion a.id o.num) (changed s a.id fun b => b.finishOp o.num got)
  | watchTraps (a : Agent) (o : Op) (op : WatchOp) (c : Cap) (d p : Nat) (got : List (Loc × Word)) (t : WatchTrap)
    (ts : List WatchTrap) (h : s.agent? a.id = some a) (ho : a.op? o.num = some o)
    (hk : o.kind = .watch op c d p [] got (t :: ts)) (hq : s.orderOk a o = true) :
    ArrayEvent s (.watchStepCompletion a.id o.num)
      ((changed s a.id fun b => b.finishOp o.num got).trapFor a.id
        ⟨if t.src < 8 then 0x20 else 0x21, 0,
          (((t :: ts).filter fun x => decide (x.src < 8) == decide (t.src < 8)).map fun x => x.lane).foldl
            (fun m l => m ||| laneBit l) 0, t.seq % 2 ^ 26, true⟩)

/-! ### The scheduler (02 R34 to R36, R48, R51, R53; 21 R392 to R397) -/

/-- The team and its launch. -/
def Team? (s : State) (id : Nat) (t : Team) (l : Launch) : Prop := s.team? id = some t ∧ s.launch? t.launch = some l

/-- Something asks for the team's footprint: its context's budget is used up, a core of it is to be exchanged, or a team of
a higher class is offered and this is the next to give way (21 R387, R394; 27 R473). -/
def MustLeave (s : State) (t : Team) (l : Launch) : Prop :=
  s.spent l.ctx = true ∨ (∃ x ∈ s.islet.drained, x.1 = t.die ∧ t.first ≤ x.2 ∧ x.2 < t.first + l.fcores)
    ∨ s.nextVictim = some t.id

/-- The last group of the team has ended, and nothing of it is left to start or to drain (02 R53). -/
def Finished (s : State) (t : Team) : Prop :=
  t.phase = .resident ∧ s.members t.id = [] ∧ t.arriving = [] ∧ t.batches = [] ∧ t.built = [] ∧ t.faults = [] ∧ t.dying = none
    ∧ s.teamBusy t.id = false

/-- The slot of the next fault group of the team: one that a group gave up for it, else a free spawn slot (02 R51). -/
def FaultSlot (s : State) (t : Team) (l : Launch) (k : KeptSlot) : Prop :=
  (∃ r, t.kept = k :: r) ∨ (t.kept = [] ∧ ∃ j,
    (s.freeSpawn t l)[Config.freeNat s.fresh 1 % (s.freeSpawn t l).length]? = some j
      ∧ k = ⟨some j, t.first + j % l.fcores, 0⟩)

/-- A reservation on die `d` is due for the offer: its launch has waited there for 64 µs, and its team fits nowhere. -/
def Due (s : State) (l : Launch) (t : Option Team) (d : Nat) : Prop :=
  (∃ w ∈ l.waiting, w.1 = d ∧ w.2 + 64000 ≤ s.time) ∧ s.site l t = none

/-- The launch holds a reservation on die `d`. -/
def Holds (l : Launch) (d : Nat) : Prop := ∃ x ∈ l.reserved, x.1 = d

/-- No reservation is left on die `d`. -/
def unreserved (s : State) (d : Nat) : State :=
  { s with launches := s.launches.map fun l => { l with reserved := l.reserved.filter fun x => x.1 != d } }

/-- The team's footprint has no matrix state any more, where the team had the arrays (11 R249). -/
def arraysFreed (s : State) (t : Team) (l : Launch) : State :=
  if l.matrix = true then { s with arrays := s.arrays.filter fun m =>
    !(m.die == t.die && t.first ≤ m.core && m.core < t.first + l.fcores) }
  else s

inductive TeamEvent (s : State) : Instr → State → Prop
  | spawned (id : Nat) (t : Team) (l : Launch) (b : Built) (r : List Built) (h : Team? s id t l) (hp : t.phase = .resident)
    (hb : t.built = b :: r) (hf : s.freeSpawn t l ≠ []) :
    TeamEvent s (.spawnedGroupStart id) (teamed { s with
      rest := s.rest ++ [s.spawnedGroup l t b
        ((s.freeSpawn t l).getD (Config.freeNat s.fresh 1 % (s.freeSpawn t l).length) 0)]
      nextAgent := s.nextAgent + 1 } id fun t => { t with
        built := r
        spawned := t.spawned + 1 })
  | noSpawn (id : Nat) (t : Team) (l : Launch) (h : Team? s id t l) (hf : s.freeSpawn t l = []) :
    TeamEvent s (.spawnedGroupStart id) s
  | faultGroup (id : Nat) (k : KeptSlot) (t : Team) (l : Launch) (f : Agent) (r : List Agent) (u : Trap) (x : Option Nat)
    (q : List (Trap × Option Nat)) (h : Team? s id t l) (hp : t.phase = .resident) (hb : t.faults = f :: r)
    (hu : f.heldFaults = (u, x) :: q) (hk : FaultSlot s t l k) :
    TeamEvent s (.faultGroupStart id)
      ((((teamed { s with
        rest := s.rest ++ [{ f with
          id := s.nextAgent
          resident := true
          die := t.die
          core := k.core
          part := (s.pickSlot 2 t.die k.core).1
          slot := (s.pickSlot 2 t.die k.core).2
          sslot := k.sslot
          heldFaults := []
          joins := t.joinsNow
          age := s.nextAgent }]
        nextAgent := s.nextAgent + 1 } id fun t => { t with
          faults := r
          kept := t.kept.drop 1 }).focusOn s.nextAgent).trap u).focusOn s.ag.id)
  | placed (d f : Nat) (l : Launch) (h : s.nextPlacement = some (⟨l, none⟩, d, f)) :
    TeamEvent s (.teamPlacement l.id d f) (s.placeNew l d f)
  | notPlaced (launch d f : Nat) (h : s.nextPlacement = none) : TeamEvent s (.teamPlacement launch d f) s
  | reserved (die core : Nat) (l : Launch) (t : Option Team)
    (h : (s.offers.find? fun o => o.launch.id == l.id) = some ⟨l, t⟩) (hd : Due s l t die) (hn : ¬ Holds l die)
    (ha : ∀ o ∈ s.offers, l.prio < o.launch.prio → ¬ Due s o.launch o.team die)
    (ho : ∀ r ∈ s.launches, Holds r die → r.prio < l.prio) (hb : s.bestReserve l die core = true) :
    TeamEvent s (.teamReservation l.id die core)
      (launched (unreserved s die) l.id fun l => { l with reserved := (die, core) :: l.reserved })
  | notDue (die core : Nat) (l : Launch) (t : Option Team)
    (h : (s.offers.find? fun o => o.launch.id == l.id) = some ⟨l, t⟩) (ht : ¬ Due s l t die) :
    TeamEvent s (.teamReservation l.id die core) s
  | preempted (id : Nat) (t : Team) (l : Launch) (h : Team? s id t l) (hp : t.phase = .resident)
    (hm : MustLeave s t l) (ha : ∀ m ∈ s.arrays, ∀ o ∈ m.queue, o.team ≠ t.id)
    (hb : ∀ a ∈ s.members t.id, a.pairing = .single) (hw : s.discardable t l = true → s.watching t = false)
    (hr : s.teamReached id t.die t.first l.fcores = true) :
    TeamEvent s (.preemption id) ((s.teamRelease id t.die t.first l.fcores).preempt t l)
  | restored (d f : Nat) (l : Launch) (t : Team) (h : s.nextPlacement = some (⟨l, some t⟩, d, f)) :
    TeamEvent s (.teamRestore t.id d f) (s.placeAgain l t d f)
  | flushed (id : Nat) (t : Team) (l : Launch) (h : Team? s id t l) (hp : t.phase = .resident)
    (hm : s.members id = []) (hb : t.arriving ≠ [] ∨ t.batches ≠ []) : TeamEvent s (.teamExit id) (teamed s id Team.flush)
  | exited (id : Nat) (t : Team) (l : Launch) (h : Team? s id t l) (hf : Finished s t)
    (hr : s.teamReached id t.die t.first l.fcores = true) :
    TeamEvent s (.teamExit id)
      (teamed (arraysFreed (s.teamRelease id t.die t.first l.fcores) t l) id fun t => { t with
        phase := .gone
        tmem := []
        barriers := [] }).dropReadOnly
  | killed (id : Nat) (t : Team) (d : Dying) (h : s.team? id = some t) (hd : t.dying = some d) (hp : t.phase ≠ .gone) :
    TeamEvent s (.teamKill id d.cause) (s.killTeam id d.cause 16 d.g d.cmd 0 d.addr)

/-! ### Contexts and launches (21 R387, R399, R400, R406; 26 R456) -/

/-- A context changed by `f`. -/
def contexted (s : State) (ctx : Nat) (f : CtxState → CtxState) : State :=
  { s with ctxs := s.ctxs.map fun c => if c.ctx = ctx then f c else c }

/-- The context, and the words of its object: WDOG 100, BUDGET 104, PERIOD 108, USED 112, KILLID 120 (21 R385). -/
def Ctx (s : State) (ctx : Nat) (c : CtxState) : Prop := (s.ctxs.find? fun c => c.ctx == ctx) = some c

/-- Every team of the launch has been placed and has ended, and none has an access or a command under way, or a write that
is not performed at .dev (21 R406). -/
def Over (s : State) (l : Launch) : Prop :=
  l.nextTeam = l.dims.1 * l.dims.2.1 * l.dims.2.2
    ∧ ∀ t ∈ s.teams, t.launch = l.id → t.phase = .gone ∧ s.teamBusy t.id = false

/-- The launch is over: its record is closed, its trace record written, and it is pending no more. -/
def completed (s : State) (l : Launch) : State :=
  let t := (s.putRecord l true).trace l.cpart (launchName l) 4 0 0 0
  { t with launches := t.launches.filter fun x => x.id != l.id }

inductive LaunchEvent (s : State) : Instr → State → Prop
  | killRequest (ctx : Nat) (l : Launch)
    (h : (s.launches.find? fun l => l.ctx == ctx && l.id == s.readPhys (ctx + 120) 8) = some l) :
    LaunchEvent s (.killRequest ctx)
      ((launched ((s.teams.filter fun t => t.launch == l.id && t.phase != .gone).foldl
        (fun s t => s.killTeam t.id 0 8 0xFFFFFFFF 0 0 0) s) l.id fun l => { l with
          killed := true
          nextTeam := l.dims.1 * l.dims.2.1 * l.dims.2.2
          reserved := [] }).writePhys (ctx + 120) 8 0)
  | exhausted (ctx : Nat) (c : CtxState) (h : Ctx s ctx c) (hb : s.readPhys (ctx + 104) 4 ≠ 0)
    (hu : s.readPhys (ctx + 104) 4 ≤ s.readPhys (ctx + 112) 4 + c.usedNs / 1000) :
    LaunchEvent s (.budgetExhausted ctx) (contexted s ctx fun c => { c with exhausted := true })
  | unlimited (ctx : Nat) (h : s.readPhys (ctx + 104) 4 = 0) : LaunchEvent s (.budgetExhausted ctx) s
  | period (ctx : Nat) (c : CtxState) (h : Ctx s ctx c) (hd : c.periodDue = true) (hw : s.writeOk (ctx + 112) 4 = true) :
    LaunchEvent s (.periodStart ctx) (contexted (s.writePhys (ctx + 112) 4 0) ctx fun c => { c with
      usedNs := 0
      exhausted := false
      periodDue := false })
  | noPeriod (ctx : Nat) (c : CtxState) (h : Ctx s ctx c) (hd : c.periodDue = false) :
    LaunchEvent s (.periodStart ctx) s
  | used (ctx : Nat) (c : CtxState) (h : Ctx s ctx c) (hu : 1000 ≤ c.usedNs) (hw : s.writeOk (ctx + 112) 4 = true) :
    LaunchEvent s (.usedUpdate ctx)
      (contexted (s.writePhys (ctx + 112) 4 (s.readPhys (ctx + 112) 4 + c.usedNs / 1000)) ctx fun c => { c with
        usedNs := c.usedNs % 1000 })
  | quiet (ctx : Nat) (c : CtxState) (x : Team × Launch) (r : List (Team × Launch)) (h : Ctx s ctx c)
    (hr : s.residentOf ctx = x :: r) (hw : s.readPhys (ctx + 100) 4 = 0
      ∨ s.time < max c.lastSink c.armed + 1000 * s.readPhys (ctx + 100) 4) :
    LaunchEvent s (.watchdogExpiry ctx) s
  | hang (ctx : Nat) (c : CtxState) (t : Team) (l : Launch) (h : Ctx s ctx c) (hr : s.residentOf ctx = [(t, l)])
    (hw : s.readPhys (ctx + 100) 4 ≠ 0) (ht : max c.lastSink c.armed + 1000 * s.readPhys (ctx + 100) 4 ≤ s.time)
    (hg : ∀ a ∈ s.agents, a.team = t.id → a.isSys = true ∨ a.alive = false) :
    LaunchEvent s (.watchdogExpiry ctx)
      (contexted (s.writeRecord (l.who t.die) ctx (hangReport l.id 1 c.lastSink s.time 0 0 0 0)) ctx fun c => { c with
        armed := s.time })
  | record (l : Launch) (h : s.launch? l.id = some l) (hr : s.recordOk l = true) : LaunchEvent s (.launchRecordUpdate l.id) (s.putRecord l false)
  | notOver (l : Launch) (h : s.launch? l.id = some l) (ho : ¬ Over s l) : LaunchEvent s (.launchCompletion l.id) s
  | ended (l : Launch) (h : s.launch? l.id = some l) (ho : Over s l)
    (hr : s.recordOk l = true) (hw : ∀ w ∈ s.walks, ∀ r ∈ w.running, ∀ n a, r ≠ .launch n l.id a) :
    LaunchEvent s (.launchCompletion l.id) (completed s l)

/-! ### Graphs (21 R401, R402) -/

/-- The walk `w` has reached a node of kind `kind`, whose first word is `kind` with ASYNC as `async`: the walk goes on,
every node that runs is ASYNC, the status of its submission has posted, no word of the node is on a first-touch page, and
GPC has been written, which leaves `v`. -/
structure Reaches (s : State) (w : Walk) (kind : Nat) (async : Bool) (nn : Nat) (v : State) : Prop where
  there : s.walk? w.id = some w
  ready : w.ready = true ∧ s.posted w.acked = true
  touched : s.graphTouch w w.node = none
  header : s.graphRead w w.graph.base 4 = some nn
  inside : w.node < nn % 2 ^ 11
  word : s.graphRead w (w.graph.base + 64 + 64 * w.node) 4 = some (kind + if async then 16 else 0)
  small : kind < 7
  gpc : s.graphWrite w (w.graph.base + 8) 4 w.node = some v

/-- Word `k` of the node reads as `x`. -/
def NodeWord (v : State) (w : Walk) (k x : Nat) : Prop :=
  v.graphRead w (w.graph.base + 64 + 64 * w.node + 4 * k) 4 = some x

/-- The walk is at node `n` next. -/
def walkTo (v : State) (w : Walk) (n : Nat) : State :=
  { v with walks := v.walks.map fun x => if x.id = w.id then { x with node := n } else x }

/-- The node of the walk runs as `r`, and the walk is at the next one. -/
def nodeRuns (v : State) (w : Walk) (r : NodeRun) : State :=
  walkTo { v with walks := v.walks.map fun x => if x.id = w.id then { x with running := x.running ++ [r] } else x } w
    (w.node + 1)

/-- The command of a copy node as the engine holds it. -/
def graphCommand (v : State) (w : Walk) (ws : List Word) (tags : List Bool) : EngineCmd where
  id := v.nextCmd
  coll := false
  num := 0
  agent := none
  walk := some (w.id, w.node)
  team := 0
  die := 4
  cpart := w.cpart
  space := w.space
  mode := w.mode
  domain := w.domain
  words := ws
  tags := tags
  tk := none
  obj := 0
  rank := 0
  inst := 0
  seen := false
  waitPage := none
  done := []

/-- The running wait nodes of a list test again, one after another, from `s`, which leaves `t`: one whose test holds is
complete, any other waits on (21 R402). -/
inductive Retests (w : Walk) : List NodeRun → State → State → Prop
  | done (s : State) : Retests w [] s s
  | other (r : NodeRun) (l : List NodeRun) (s t : State) (hr : ∀ n a, r ≠ .test n a) (h : Retests w l s t) :
    Retests w (r :: l) s t
  | gone (n : Nat) (a : Bool) (l : List NodeRun) (s t : State) (hw : s.walk? w.id = none) (h : Retests w l s t) :
    Retests w (.test n a :: l) s t
  | holds (n : Nat) (a : Bool) (l : List NodeRun) (s s1 t : State) (hw : (s.walk? w.id).isSome = true)
    (ht : s.graphTouch w n = none) (hb : s.nodeTest w n = .is s1 true) (h : Retests w l (s1.endRun w (.test n a)) t) :
    Retests w (.test n a :: l) s t
  | fails (n : Nat) (a : Bool) (l : List NodeRun) (s s1 t : State) (hw : (s.walk? w.id).isSome = true)
    (ht : s.graphTouch w n = none) (hb : s.nodeTest w n = .is s1 false) (h : Retests w l s1 t) :
    Retests w (.test n a :: l) s t

inductive NodeEvent (s : State) : Instr → State → Prop
  | fallsOff (w : Walk) (nn : Nat) (h : s.walk? w.id = some w)
    (hr : w.ready = true ∧ s.posted w.acked = true)
    (hh : s.graphRead w w.graph.base 4 = some nn) (hn : nn % 2 ^ 11 ≤ w.node) :
    NodeEvent s (.endNode w.id) (({ s with walks := s.walks.map fun x =>
      if x.id = w.id then { x with ended := true } else x } : State).settleWalk w.id)
  | ends (w : Walk) (a : Bool) (nn : Nat) (v : State) (h : Reaches s w 0 a nn v) :
    NodeEvent s (.endNode w.id) (({ v with walks := v.walks.map fun x =>
      if x.id = w.id then { x with ended := true } else x } : State).settleWalk w.id)
  | launch (w : Walk) (a : Bool) (nn ctx o : Nat) (v v1 v2 : State) (g own sctx : Cap) (ps : List Piece)
    (h : Reaches s w 1 a nn v) (h1 : v.graphCap w (w.nodeAt w.node 4) = some g)
    (h2 : v.graphCap w (w.nodeAt w.node 8) = some own) (h3 : v.graphCap w (w.graph.base + 16) = some sctx)
    (hg : g.checkPlain [permLD] g.addr 512 64 = none) (hc : ctxCheck (if own = .null then sctx else own) = none)
    (hx : v.xlatePieces w.who (g.want false) [] (piecesOf (g.addr, 512)) = .ok v1 ps)
    (hd : v1.devXlate w.who ((if own = .null then sctx else own).want false) (if own = .null then sctx else own).base
      = .ok v2 ctx o)
    (hs : v2.launchStatus ctx (v2.readDescriptor ps) = 0) :
    NodeEvent s (.launchNode w.id)
      (nodeRuns (v2.submit ctx (if own = .null then sctx else own) (v2.readDescriptor ps)
        ⟨w.space, w.pid, w.tid, none, none⟩).1 w (.launch w.node v2.nextLaunch a))
  | copy (w : Walk) (a : Bool) (nn : Nat) (v v1 : State) (c : Cap) (ps : List Piece) (h : Reaches s w 2 a nn v)
    (h1 : v.graphCap w (w.nodeAt w.node 4) = some c) (hc : c.checkPlain [permLD] c.addr 64 16 = none)
    (hx : v.xlatePieces w.who (c.want false) [] (piecesOf (c.addr, 64)) = .ok v1 ps)
    (hz : bits (cw (v1.nodeCommand c ps).1 8) 16 5 = 0 ∧ bits (cw (v1.nodeCommand c ps).1 8) 10 2 = 0)
    (hk : copyCheck (0, 0) (v1.nodeCommand c ps).1 (v1.nodeCommand c ps).2 = none) :
    NodeEvent s (.copyNode w.id)
      (nodeRuns { v1 with
        cmds := v1.cmds ++ [graphCommand v1 w (v1.nodeCommand c ps).1 (v1.nodeCommand c ps).2]
        nextCmd := v1.nextCmd + 1 } w (.copy w.node v1.nextCmd a))
  | loop (w : Walk) (a b : Bool) (nn t mx it : Nat) (v v1 v2 : State) (h : Reaches s w 3 a nn v)
    (h1 : NodeWord v w 1 t) (ht : t < w.node) (hb : v.nodeTest w w.node = .is v1 b) (h2 : NodeWord v1 w 2 mx)
    (h3 : NodeWord v1 w 3 it)
    (hw : v1.graphWrite w (w.graph.base + 64 + 64 * w.node + 12) 4
      (if b = true ∧ (mx = 0 ∨ it < mx) then it + 1 else 0) = some v2) :
    NodeEvent s (.loopNode w.id) (walkTo v2 w (if b = true ∧ (mx = 0 ∨ it < mx) then t else w.node + 1))
  | conditional (w : Walk) (a b : Bool) (nn t : Nat) (v v1 : State) (h : Reaches s w 4 a nn v) (h1 : NodeWord v w 1 t)
    (ht : w.node < t) (hb : v.nodeTest w w.node = .is v1 b) :
    NodeEvent s (.conditionalNode w.id) (walkTo v1 w (if b then t else w.node + 1))
  | badTarget (w : Walk) (a : Bool) (nn t : Nat) (v : State) (h : Reaches s w 4 a nn v) (h1 : NodeWord v w 1 t)
    (ht : t ≤ w.node) : NodeEvent s (.conditionalNode w.id) (v.failNode w w.node 0x01 false)
  | waitHolds (w : Walk) (a : Bool) (nn : Nat) (v v1 : State) (h : Reaches s w 5 a nn v)
    (hb : v.nodeTest w w.node = .is v1 true) : NodeEvent s (.waitNode w.id) (walkTo v1 w (w.node + 1))
  | waitRuns (w : Walk) (a : Bool) (nn : Nat) (v v1 : State) (h : Reaches s w 5 a nn v)
    (hb : v.nodeTest w w.node = .is v1 false) : NodeEvent s (.waitNode w.id) (nodeRuns v1 w (.test w.node a))
  | retest (w : Walk) (t : State) (h : s.walk? w.id = some w) (hr : Retests w w.running s t) :
    NodeEvent s (.waitNodeRetest w.id) t
  | signalLine (w : Walk) (a : Bool) (nn x pa o : Nat) (v v1 : State) (c : Cap) (h : Reaches s w 6 a nn v)
    (h1 : v.graphCap w (w.nodeAt w.node 4) = some c) (h2 : NodeWord v w 9 x) (hs : c.sealType = 4)
    (hc : c.checkObject 4 [permST] = none) (hx : v.devXlate w.who (c.want true) c.base = .ok v1 pa o) :
    NodeEvent s (.signalNode w.id) (walkTo (v1.signalLine pa) w (w.node + 1))
  | signalStore (w : Walk) (a : Bool) (nn x r : Nat) (v v1 : State) (c : Cap) (h : Reaches s w 6 a nn v)
    (h1 : v.graphCap w (w.nodeAt w.node 4) = some c) (h2 : NodeWord v w 9 x) (hs : c.sealType ≠ 4)
    (hc : c.check [permST] c.addr 4 4 = none) (hx : v.devWrite w.who (c.want true) c.addr 4 x = .ok v1 r) :
    NodeEvent s (.signalNode w.id) (walkTo v1 w (w.node + 1))

end Sys2Proof.Claims
end

