-- ==== Sys2Proof/Laws/Codec.lean ====
section
/-!
SUPPORT. Lemmas about the encoder and the decoder: each field that a format writes reads back.
-/

namespace Sys2Proof.Laws

theorem unsext_lt (n : Nat) (i : Int) : unsext n i < 2 ^ n := by
  have h2 : (0 : Int) < ((2 ^ n : Nat) : Int) := by exact_mod_cast Nat.two_pow_pos n
  have := Int.emod_lt_of_pos i h2
  have := Int.emod_nonneg i (Int.ne_of_gt h2)
  unfold unsext
  omega

theorem sext_unsext10 {i : Int} (h : -512 ≤ i ∧ i < 512) : sext 10 (unsext 10 i) = i := by
  unfold sext unsext
  split <;> omega

theorem sext_unsext7 {i : Int} (h : -64 ≤ i ∧ i < 64) : sext 7 (unsext 7 i) = i := by
  unfold sext unsext
  split <;> omega

theorem sext_unsext13 {i : Int} (h : -4096 ≤ i ∧ i < 4096) : sext 13 (unsext 13 i) = i := by
  unfold sext unsext
  split <;> omega

theorem sext_unsext14 {i : Int} (h : -8192 ≤ i ∧ i < 8192) : sext 14 (unsext 14 i) = i := by
  unfold sext unsext
  split <;> omega

theorem sext_unsext18 {i : Int} (h : -131072 ≤ i ∧ i < 131072) : sext 18 (unsext 18 i) = i := by
  unfold sext unsext
  split <;> omega

theorem sext_unsext26 {i : Int} (h : -33554432 ≤ i ∧ i < 33554432) : sext 26 (unsext 26 i) = i := by
  unfold sext unsext
  split <;> omega

theorem immOk_iff (n : Nat) (i : Int) :
    immOk n i = true ↔ -(2 ^ (n - 1) : Int) ≤ i ∧ i < (2 ^ (n - 1) : Int) := by
  simp [immOk]

theorem tkEnc_lt {t : Option Nat} (h : tkOk t = true) : tkEnc t < 32 := by
  cases t <;> simp_all [tkOk, tkEnc]
  omega

theorem tkOf_tkEnc (t : Option Nat) : tkOf (tkEnc t) = t := by
  cases t <;> simp [tkOf, tkEnc]

theorem boolEnc_lt (b : Bool) : boolEnc b < 2 := by cases b <;> decide

theorem boolOf_boolEnc (b : Bool) : boolOf (boolEnc b) = b := by cases b <;> rfl

theorem ord_lt (o : Ord) : o.code < 4 := by cases o <;> decide

theorem ord_code (o : Ord) : Ord.ofCode o.code = some o := by cases o <;> rfl

theorem scope_lt (s : Scope) : s.code < 6 := by cases s <;> decide

theorem scope_code (s : Scope) : Scope.ofCode s.code = some s := by cases s <;> rfl

theorem path_lt (p : Path) : p.code < 5 := by cases p <;> decide

theorem path_code (p : Path) : Path.ofCode p.code = some p := by cases p <;> rfl

theorem cond_lt (c : Cond) : c.code < 7 := by cases c <;> decide

theorem cond_code (c : Cond) : Cond.ofCode c.code = some c := by cases c <;> rfl

theorem tlbKind_lt (k : TlbKind) : k.code < 3 := by cases k <;> decide

theorem tlbKind_code (k : TlbKind) : TlbKind.ofCode k.code = some k := by cases k <;> rfl

theorem ty_lt (t : Ty) : t.code < 14 := by cases t <;> decide

theorem ty_code (t : Ty) : Ty.ofCode t.code = some t := by cases t <;> rfl

theorem rnd_lt (m : Rnd) : m.code < 4 := by cases m <;> decide

theorem rnd_code (m : Rnd) : Rnd.ofCode m.code = some m := by cases m <;> rfl

theorem sxf_lt (x : Sxf) : x.code < 4 := by cases x <;> decide

theorem sxf_code (x : Sxf) : Sxf.ofCode x.code = some x := by cases x <;> rfl

theorem mfmt_lt (m : MFmt) : m.code < 7 := by cases m <;> decide

theorem mfmt_code (m : MFmt) : MFmt.ofCode m.code = some m := by cases m <;> rfl

theorem cmp_lt (c : CmpOp) : c.code < 7 := by cases c <;> decide

theorem cmp_code (c : CmpOp) : CmpOp.ofCode c.code = some c := by cases c <;> rfl

theorem red_lt (r : RedOp) : r.code < 6 := by cases r <;> decide

theorem red_code (r : RedOp) : RedOp.ofCode r.code = some r := by cases r <;> rfl

theorem atomOp_lt (a : AtomOp) : a.code < 8 := by cases a <;> decide

theorem atomOp_code (a : AtomOp) : AtomOp.ofCode a.code = some a := by cases a <;> rfl

theorem shfl_lt (m : ShflMode) : m.code < 4 := by cases m <;> decide

theorem shfl_code (m : ShflMode) : ShflMode.ofCode m.code = some m := by cases m <;> rfl

theorem vote_lt (m : VoteMode) : m.code < 4 := by cases m <;> decide

theorem vote_code (m : VoteMode) : VoteMode.ofCode m.code = some m := by cases m <;> rfl

/-! ### Bytes -/

theorem ofBytesLE_bytesLE (n w : Nat) : ofBytesLE (bytesLE n w) = w % 256 ^ n := by
  induction n generalizing w with
  | zero => simp [bytesLE, ofBytesLE, Nat.mod_one]
  | succ n ih =>
    simp only [bytesLE, ofBytesLE, ih, BitVec.toNat_ofNat]
    rw [show 256 ^ (n + 1) = 256 * 256 ^ n from Nat.pow_succ', Nat.mod_mul]

theorem length_bytesLE (n w : Nat) : (bytesLE n w).length = n := by
  induction n generalizing w with
  | zero => rfl
  | succ n ih => simp [bytesLE, ih]

/-! ### Scalar formats -/

theorem decodeScalar_of {i : Instr} {w : Nat} (hw : i.wf = true) (he : encodeScalar i = some w)
    (ho : scalarOf w = some i) : decodeScalar w = .ok i := by
  simp [decodeScalar, ho, hw, he]

theorem encSR_bits {op d a b f : Nat} (ho : op < 64) (hd : d < 256) (ha : a < 256) (hb : b < 256) (hf : f < 4) :
    bitsOf (encSR op d a b f) 31 26 = op ∧ bitsOf (encSR op d a b f) 25 18 = d
      ∧ bitsOf (encSR op d a b f) 17 10 = a ∧ bitsOf (encSR op d a b f) 9 2 = b
      ∧ bitsOf (encSR op d a b f) 1 0 = f ∧ encSR op d a b f < 2 ^ 32 := by
  unfold bitsOf encSR; omega

theorem encSI_bits {op d a m : Nat} (ho : op < 64) (hd : d < 256) (ha : a < 256) (hm : m < 1024) :
    bitsOf (encSI op d a m) 31 26 = op ∧ bitsOf (encSI op d a m) 25 18 = d
      ∧ bitsOf (encSI op d a m) 17 10 = a ∧ bitsOf (encSI op d a m) 9 0 = m
      ∧ bitsOf (encSI op d a m) 9 5 = m / 32 ∧ bitsOf (encSI op d a m) 4 0 = m % 32
      ∧ encSI op d a m < 2 ^ 32 := by
  unfold bitsOf encSI; omega

theorem encSC_bits {f w p q : Nat} (hf : f < 64) (hw : w < 256) (hp : p < 64) (hq : q < 64) :
    bitsOf (encSC f w p q) 31 26 = 0x18 ∧ bitsOf (encSC f w p q) 25 20 = f
      ∧ bitsOf (encSC f w p q) 19 12 = w ∧ bitsOf (encSC f w p q) 11 6 = p
      ∧ bitsOf (encSC f w p q) 5 0 = q ∧ encSC f w p q < 2 ^ 32 := by
  unfold bitsOf encSC; omega

theorem encSM_bits {op d a off : Nat} {tk : Option Nat} (ho : op < 64) (hd : d < 256) (ha : a < 64)
    (ht : tkOk tk = true) (hf : off < 128) :
    bitsOf (encSM op d a tk off) 31 26 = op ∧ bitsOf (encSM op d a tk off) 25 18 = d
      ∧ bitsOf (encSM op d a tk off) 17 12 = a ∧ bitsOf (encSM op d a tk off) 11 7 = tkEnc tk
      ∧ bitsOf (encSM op d a tk off) 6 0 = off ∧ encSM op d a tk off < 2 ^ 32 := by
  have := tkEnc_lt ht
  unfold bitsOf encSM; omega

theorem encSMX_bits {op k d a : Nat} {tk : Option Nat} (o : Ord) (s : Scope) (ho : op < 64) (hk : k < 4)
    (hd : d < 256) (ha : a < 64) (ht : tkOk tk = true) :
    bitsOf (encSMX op k d a tk o s) 31 26 = op ∧ bitsOf (encSMX op k d a tk o s) 1 0 = k
      ∧ bitsOf (encSMX op k d a tk o s) 25 18 = d ∧ bitsOf (encSMX op k d a tk o s) 17 12 = a
      ∧ bitsOf (encSMX op k d a tk o s) 11 7 = tkEnc tk ∧ bitsOf (encSMX op k d a tk o s) 6 5 = o.code
      ∧ bitsOf (encSMX op k d a tk o s) 4 2 = s.code ∧ encSMX op k d a tk o s < 2 ^ 32 := by
  have := tkEnc_lt ht
  have := ord_lt o
  have := scope_lt s
  unfold bitsOf encSMX; omega

theorem encMisc_bits {op f d low : Nat} (ho : op < 64) (hf : f < 16) (hd : d < 256) (hl : low < 2 ^ 14) :
    bitsOf (encMisc op f d low) 31 26 = op ∧ bitsOf (encMisc op f d low) 25 22 = f
      ∧ bitsOf (encMisc op f d low) 21 14 = d ∧ bitsOf (encMisc op f d low) 13 0 = low
      ∧ bitsOf (encMisc op f d low) 5 0 = low % 64 ∧ bitsOf (encMisc op f d low) 4 0 = low % 32
      ∧ bitsOf (encMisc op f d low) 19 14 = d % 64 ∧ encMisc op f d low < 2 ^ 32 := by
  unfold bitsOf encMisc; omega

theorem scalar_sr {op d a b f : Nat} {g : Nat → Nat → Nat → Instr}
    (h : ∀ w, bitsOf w 31 26 = op → bitsOf w 1 0 = f → scalarOf w = srOf w g)
    (he : encodeScalar (g d a b) = some (encSR op d a b f)) (hw : (g d a b).wf = true) (ho : op < 64) (hf : f < 4)
    (hr : d < 160 ∧ a < 160 ∧ b < 160) :
    ∃ w, encodeScalar (g d a b) = some w ∧ w < 2 ^ 32 ∧ decodeScalar w = .ok (g d a b) := by
  obtain ⟨h1, h2, h3, h4, h5, h6⟩ := encSR_bits (op := op) (d := d) (a := a) (b := b) (f := f) ho
    (by omega) (by omega) (by omega) hf
  refine ⟨_, he, h6, decodeScalar_of hw he ?_⟩
  rw [h _ h1 h5, srOf, h2, h3, h4]

theorem scalar_sr2 {op d a f : Nat} {g : Nat → Nat → Instr}
    (h : ∀ w, bitsOf w 31 26 = op → bitsOf w 1 0 = f → scalarOf w = sr2Of w g)
    (he : encodeScalar (g d a) = some (encSR op d a 0 f)) (hw : (g d a).wf = true) (ho : op < 64) (hf : f < 4)
    (hr : d < 160 ∧ a < 160) :
    ∃ w, encodeScalar (g d a) = some w ∧ w < 2 ^ 32 ∧ decodeScalar w = .ok (g d a) := by
  obtain ⟨h1, h2, h3, h4, h5, h6⟩ := encSR_bits (op := op) (d := d) (a := a) (b := 0) (f := f) ho
    (by omega) (by omega) (by omega) hf
  refine ⟨_, he, h6, decodeScalar_of hw he ?_⟩
  rw [h _ h1 h5, sr2Of, h2, h3]

theorem scalar_si {op d a : Nat} {i : Int} {g : Nat → Nat → Int → Instr}
    (h : ∀ w, bitsOf w 31 26 = op → scalarOf w = siOf w g)
    (he : encodeScalar (g d a i) = some (encSI op d a (unsext 10 i))) (hw : (g d a i).wf = true) (ho : op < 64)
    (hr : (d < 160 ∧ a < 160) ∧ -512 ≤ i ∧ i < 512) :
    ∃ w, encodeScalar (g d a i) = some w ∧ w < 2 ^ 32 ∧ decodeScalar w = .ok (g d a i) := by
  obtain ⟨h1, h2, h3, h4, h5, h6, h7⟩ := encSI_bits (op := op) (d := d) (a := a) (m := unsext 10 i) ho
    (by omega) (by omega) (unsext_lt 10 i)
  refine ⟨_, he, h7, decodeScalar_of hw he ?_⟩
  rw [h _ h1, siOf, h2, h3, h4, sext_unsext10 hr.2]

theorem scalar_sh {k d a sh : Nat} {g : Nat → Nat → Nat → Instr}
    (h : ∀ w, bitsOf w 31 26 = 0x11 → bitsOf w 9 5 = k →
      scalarOf w = some (g (bitsOf w 25 18) (bitsOf w 17 10) (bitsOf w 4 0)))
    (he : encodeScalar (g d a sh) = some (encSI 0x11 d a (k * 2 ^ 5 + sh))) (hw : (g d a sh).wf = true) (hk : k < 4)
    (hr : (d < 160 ∧ a < 160) ∧ sh < 32) :
    ∃ w, encodeScalar (g d a sh) = some w ∧ w < 2 ^ 32 ∧ decodeScalar w = .ok (g d a sh) := by
  obtain ⟨h1, h2, h3, h4, h5, h6, h7⟩ := encSI_bits (op := 0x11) (d := d) (a := a) (m := k * 2 ^ 5 + sh) (by decide)
    (by omega) (by omega) (by omega)
  refine ⟨_, he, h7, decodeScalar_of hw he ?_⟩
  rw [h _ h1 (by omega), h2, h3, h6, show (k * 2 ^ 5 + sh) % 32 = sh by omega]

theorem scalar_wp {f w p : Nat} {g : Nat → Nat → Instr}
    (h : ∀ x, bitsOf x 31 26 = 0x18 → bitsOf x 25 20 = f → scalarOf x = scWP x g)
    (he : encodeScalar (g w p) = some (encSC f w p 0)) (hw : (g w p).wf = true) (hf : f < 64)
    (hr : w < 160 ∧ p < 40) :
    ∃ x, encodeScalar (g w p) = some x ∧ x < 2 ^ 32 ∧ decodeScalar x = .ok (g w p) := by
  obtain ⟨h1, h2, h3, h4, h5, h6⟩ := encSC_bits (f := f) (w := w) (p := p) (q := 0) hf
    (by omega) (by omega) (by omega)
  refine ⟨_, he, h6, decodeScalar_of hw he ?_⟩
  rw [h _ h1 h2, scWP, h3, h4]

theorem scalar_wpq {f w p q : Nat} {g : Nat → Nat → Nat → Instr}
    (h : ∀ x, bitsOf x 31 26 = 0x18 → bitsOf x 25 20 = f → scalarOf x = scWPQ x g)
    (he : encodeScalar (g w p q) = some (encSC f w p q)) (hw : (g w p q).wf = true) (hf : f < 64)
    (hr : w < 160 ∧ p < 40 ∧ q < 40) :
    ∃ x, encodeScalar (g w p q) = some x ∧ x < 2 ^ 32 ∧ decodeScalar x = .ok (g w p q) := by
  obtain ⟨h1, h2, h3, h4, h5, h6⟩ := encSC_bits (f := f) (w := w) (p := p) (q := q) hf
    (by omega) (by omega) (by omega)
  refine ⟨_, he, h6, decodeScalar_of hw he ?_⟩
  rw [h _ h1 h2, scWPQ, h3, h4, h5]

theorem scalar_sm {op d a off : Nat} {tk : Option Nat} {g : Nat → Nat → Option Nat → Nat → Instr}
    (h : ∀ w, bitsOf w 31 26 = op → scalarOf w = smOf w g)
    (he : encodeScalar (g d a tk off) = some (encSM op d a tk off)) (hw : (g d a tk off).wf = true) (ho : op < 64)
    (hr : d < 160 ∧ a < 40 ∧ tkOk tk = true ∧ off < 128) :
    ∃ w, encodeScalar (g d a tk off) = some w ∧ w < 2 ^ 32 ∧ decodeScalar w = .ok (g d a tk off) := by
  obtain ⟨h1, h2, h3, h4, h5, h6⟩ := encSM_bits (op := op) (d := d) (a := a) (tk := tk) (off := off) ho
    (by omega) (by omega) hr.2.2.1 hr.2.2.2
  refine ⟨_, he, h6, decodeScalar_of hw he ?_⟩
  rw [h _ h1, smOf, h2, h3, h4, h5, tkOf_tkEnc]

theorem scalar_smx {op k d a : Nat} {tk : Option Nat} {o : Ord} {s : Scope}
    {g : Nat → Nat → Option Nat → Ord → Scope → Instr}
    (h : ∀ w, bitsOf w 31 26 = op → bitsOf w 1 0 = k → scalarOf w = smxOf w g)
    (he : encodeScalar (g d a tk o s) = some (encSMX op k d a tk o s)) (hw : (g d a tk o s).wf = true) (ho : op < 64)
    (hk : k < 4) (hr : d < 160 ∧ a < 40 ∧ tkOk tk = true) :
    ∃ w, encodeScalar (g d a tk o s) = some w ∧ w < 2 ^ 32 ∧ decodeScalar w = .ok (g d a tk o s) := by
  obtain ⟨h1, h2, h3, h4, h5, h6, h7, h8⟩ := encSMX_bits (op := op) (k := k) (d := d) (a := a) (tk := tk) o s ho hk
    (by omega) (by omega) hr.2.2
  refine ⟨_, he, h8, decodeScalar_of hw he ?_⟩
  rw [h _ h1 h2, smxOf, h3, h4, h5, h6, h7, tkOf_tkEnc, ord_code, scope_code]

theorem scalar_misc {op f d low : Nat} {i : Instr} {g : Nat → Instr}
    (h : ∀ w, bitsOf w 31 26 = op → bitsOf w 25 22 = f → scalarOf w = some (g w))
    (he : encodeScalar i = some (encMisc op f d low)) (hw : i.wf = true) (ho : op < 64) (hf : f < 16) (hd : d < 256)
    (hl : low < 2 ^ 14) (hg : g (encMisc op f d low) = i) :
    ∃ w, encodeScalar i = some w ∧ w < 2 ^ 32 ∧ decodeScalar w = .ok i := by
  have hb := encMisc_bits (op := op) (f := f) (d := d) (low := low) ho hf hd hl
  exact ⟨_, he, hb.2.2.2.2.2.2.2, decodeScalar_of hw he (by rw [h _ hb.1 hb.2.1, hg])⟩

/-! ### Lane words -/

/-- Every field of the layout fits its place. -/
def RawFits (r : RawLane) : Prop :=
  r.op < 128 ∧ r.pr < 2 ∧ r.gn < 2 ∧ r.gp < 64 ∧ r.tk < 32 ∧ r.mod < 4096 ∧ r.wbn < 2 ∧ r.dreg < 1024
    ∧ r.sa < 8192 ∧ r.sb < 8192 ∧ r.sc < 8192 ∧ r.x < 8192

theorem pack_lt {r : RawLane} (h : RawFits r) : r.pack < 2 ^ 96 := by
  unfold RawFits at h
  unfold RawLane.pack
  omega

/-- Dropping a low digit of `b` bits. -/
theorem drop_digit {b x : Nat} (y k : Nat) (hx : x < 2 ^ b) : (x + 2 ^ b * y) / 2 ^ (b + k) = y / 2 ^ k := by
  rw [Nat.pow_add, ← Nat.div_div_eq_div_mul, Nat.add_mul_div_left _ _ (Nat.two_pow_pos b), Nat.div_eq_of_lt hx,
    Nat.zero_add]

/-- Reading a low digit of `b` bits. -/
theorem low_digit {b x : Nat} (y : Nat) (hx : x < 2 ^ b) : (x + 2 ^ b * y) / 2 ^ 0 % 2 ^ b = x := by
  rw [Nat.pow_zero, Nat.div_one, Nat.add_mul_mod_self_left, Nat.mod_eq_of_lt hx]

theorem pack_digits (r : RawLane) :
    r.pack = r.x + 2 ^ 13 * (r.sc + 2 ^ 13 * (r.sb + 2 ^ 13 * (r.sa + 2 ^ 13 * (r.dreg + 2 ^ 10 * (0 + 2 ^ 1 *
      (r.wbn + 2 ^ 1 * (r.mod + 2 ^ 12 * (r.tk + 2 ^ 5 * (r.gp + 2 ^ 6 * (r.gn + 2 ^ 1 * (r.pr + 2 ^ 1 * r.op))))))))))) := by
  unfold RawLane.pack
  ring

theorem unpack_pack {r : RawLane} (h : RawFits r) : RawLane.unpack r.pack = r := by
  obtain ⟨op, pr, gn, gp, tk, mod, wbn, dreg, sa, sb, sc, x⟩ := r
  obtain ⟨ho, hp, hn, hg, ht, hm, hw, hd, ha, hb, hc, hx⟩ := h
  simp only at ho hp hn hg ht hm hw hd ha hb hc hx
  have h0 : 0 < 2 ^ 1 := by decide
  simp only [RawLane.unpack, pack_digits, bitsOf, RawLane.mk.injEq]
  refine ⟨?_, ?_, ?_, ?_, ?_, ?_, ?_, ?_, ?_, ?_, ?_, ?_⟩
  · rw [drop_digit (b := 13) _ 76 hx, drop_digit (b := 13) _ 63 hc, drop_digit (b := 13) _ 50 hb,
      drop_digit (b := 13) _ 37 ha, drop_digit (b := 10) _ 27 hd, drop_digit (b := 1) _ 26 h0,
      drop_digit (b := 1) _ 25 hw, drop_digit (b := 12) _ 13 hm, drop_digit (b := 5) _ 8 ht,
      drop_digit (b := 6) _ 2 hg, drop_digit (b := 1) _ 1 hn, drop_digit (b := 1) _ 0 hp]
    exact low_digit (b := 7) 0 ho
  · rw [drop_digit (b := 13) _ 75 hx, drop_digit (b := 13) _ 62 hc, drop_digit (b := 13) _ 49 hb,
      drop_digit (b := 13) _ 36 ha, drop_digit (b := 10) _ 26 hd, drop_digit (b := 1) _ 25 h0,
      drop_digit (b := 1) _ 24 hw, drop_digit (b := 12) _ 12 hm, drop_digit (b := 5) _ 7 ht,
      drop_digit (b := 6) _ 1 hg, drop_digit (b := 1) _ 0 hn]
    exact low_digit _ hp
  · rw [drop_digit (b := 13) _ 74 hx, drop_digit (b := 13) _ 61 hc, drop_digit (b := 13) _ 48 hb,
      drop_digit (b := 13) _ 35 ha, drop_digit (b := 10) _ 25 hd, drop_digit (b := 1) _ 24 h0,
      drop_digit (b := 1) _ 23 hw, drop_digit (b := 12) _ 11 hm, drop_digit (b := 5) _ 6 ht,
      drop_digit (b := 6) _ 0 hg]
    exact low_digit _ hn
  · rw [drop_digit (b := 13) _ 68 hx, drop_digit (b := 13) _ 55 hc, drop_digit (b := 13) _ 42 hb,
      drop_digit (b := 13) _ 29 ha, drop_digit (b := 10) _ 19 hd, drop_digit (b := 1) _ 18 h0,
      drop_digit (b := 1) _ 17 hw, drop_digit (b := 12) _ 5 hm, drop_digit (b := 5) _ 0 ht]
    exact low_digit _ hg
  · rw [drop_digit (b := 13) _ 63 hx, drop_digit (b := 13) _ 50 hc, drop_digit (b := 13) _ 37 hb,
      drop_digit (b := 13) _ 24 ha, drop_digit (b := 10) _ 14 hd, drop_digit (b := 1) _ 13 h0,
      drop_digit (b := 1) _ 12 hw, drop_digit (b := 12) _ 0 hm]
    exact low_digit _ ht
  · rw [drop_digit (b := 13) _ 51 hx, drop_digit (b := 13) _ 38 hc, drop_digit (b := 13) _ 25 hb,
      drop_digit (b := 13) _ 12 ha, drop_digit (b := 10) _ 2 hd, drop_digit (b := 1) _ 1 h0,
      drop_digit (b := 1) _ 0 hw]
    exact low_digit _ hm
  · rw [drop_digit (b := 13) _ 50 hx, drop_digit (b := 13) _ 37 hc, drop_digit (b := 13) _ 24 hb,
      drop_digit (b := 13) _ 11 ha, drop_digit (b := 10) _ 1 hd, drop_digit (b := 1) _ 0 h0]
    exact low_digit _ hw
  · rw [drop_digit (b := 13) _ 39 hx, drop_digit (b := 13) _ 26 hc, drop_digit (b := 13) _ 13 hb,
      drop_digit (b := 13) _ 0 ha]
    exact low_digit _ hd
  · rw [drop_digit (b := 13) _ 26 hx, drop_digit (b := 13) _ 13 hc, drop_digit (b := 13) _ 0 hb]
    exact low_digit _ ha
  · rw [drop_digit (b := 13) _ 13 hx, drop_digit (b := 13) _ 0 hc]
    exact low_digit _ hb
  · rw [drop_digit (b := 13) _ 0 hx]
    exact low_digit _ hc
  · exact low_digit _ hx

theorem decodeLane_of {i : Instr} {w : Nat} (hw : i.wf = true) (he : encodeLane i = some w)
    (ho : laneOf (RawLane.unpack w) = some i) : decodeLane w = .ok i := by
  unfold decodeLane
  rw [ho]
  show (if (i.wf && encodeLane i == some w) = true then _ else _) = _
  rw [hw, he]
  simp

theorem lane_word {i : Instr} {r : RawLane} (hw : i.wf = true) (he : encodeRaw i = some r) (hf : RawFits r)
    (ho : laneOf r = some i) : ∃ w, encodeLane i = some w ∧ w < 2 ^ 96 ∧ decodeLane w = .ok i := by
  have hl : encodeLane i = some r.pack := by rw [encodeLane, he, Option.map_some]
  exact ⟨r.pack, hl, pack_lt hf, decodeLane_of hw hl (by rw [unpack_pack hf, ho])⟩

theorem hdr_eq (h : LaneHdr) : (⟨boolOf (boolEnc h.pr), boolOf (boolEnc h.gn), h.gp⟩ : LaneHdr) = h := by
  rw [boolOf_boolEnc, boolOf_boolEnc]

theorem src_ofEnc {p : Bool} {a : Src} (h : a.okInt p = true ∨ a.okFp p = true) :
    a.enc < 8192 ∧ Src.ofEnc a.enc = some a := by
  cases a with
  | imm v =>
    have hv : -512 ≤ v ∧ v < 512 := by
      have : immOk 10 v = true := by simpa [Src.okInt, Src.okFp, Src.kindOk] using h
      simpa [immOk_iff] using this
    have := unsext_lt 10 v
    have e : (4096 + unsext 10 v) / 1024 = 4 := by omega
    refine ⟨by simp only [Src.enc]; omega, ?_⟩
    simp only [Src.ofEnc, Src.enc, e]
    rw [show (4096 + unsext 10 v) % 1024 = unsext 10 v by omega, sext_unsext10 hv]
  | vreg n =>
    have hn : n < 1024 := by
      rcases h with h | h <;>
        simp only [Src.okInt, Src.okFp, Src.kindOk, vopOk, Bool.and_eq_true, decide_eq_true_eq] at h <;> omega
    have e : n / 1024 = 0 := by omega
    refine ⟨by simp only [Src.enc]; omega, ?_⟩
    simp only [Src.ofEnc, Src.enc, e]
    rw [Nat.mod_eq_of_lt hn]
  | sreg n =>
    have hn : n < 160 := by
      rcases h with h | h <;>
        simp only [Src.okInt, Src.okFp, Src.kindOk, Bool.and_eq_true, decide_eq_true_eq] at h <;> omega
    have e : (1024 + n) / 1024 = 1 := by omega
    refine ⟨by simp only [Src.enc]; omega, ?_⟩
    simp only [Src.ofEnc, Src.enc, e]
    rw [show (1024 + n) % 1024 = n by omega]
  | latch n =>
    have hn : n < 4 := by simpa [Src.okInt, Src.okFp, Src.kindOk] using h
    have e : (2048 + n) / 1024 = 2 := by omega
    refine ⟨by simp only [Src.enc]; omega, ?_⟩
    simp only [Src.ofEnc, Src.enc, e]
    rw [show (2048 + n) % 1024 = n by omega]
  | pred n =>
    have hn : n < 64 := by simpa [Src.okInt, Src.okFp, Src.kindOk] using h
    have e : (3072 + n) / 1024 = 3 := by omega
    refine ⟨by simp only [Src.enc]; omega, ?_⟩
    simp only [Src.ofEnc, Src.enc, e]
    rw [show (3072 + n) % 1024 = n by omega]
  | special c =>
    have hn : c < 10 := by
      rcases h with h | h <;> simp [Src.okInt, Src.okFp, Src.kindOk] at h <;> omega
    have e : (5120 + c) / 1024 = 5 := by omega
    refine ⟨by simp only [Src.enc]; omega, ?_⟩
    simp only [Src.ofEnc, Src.enc, e]
    rw [show (5120 + c) % 1024 = c by omega]

theorem src_ty {t : Ty} {a : Src} (h : a.okTy t = true) : a.enc < 8192 ∧ Src.ofEnc a.enc = some a := by
  unfold Src.okTy at h
  split at h
  · exact src_ofEnc (.inl h)
  · exact src_ofEnc (.inr h)

theorem src_atom {op : AtomOp} {t : Ty} {a : Src} (h : atomOpndOk op t a = true) :
    a.enc < 8192 ∧ Src.ofEnc a.enc = some a := by
  unfold atomOpndOk at h
  split at h
  · split at h
    · rename_i n
      simp only [Bool.and_eq_true, decide_eq_true_eq] at h
      exact src_ofEnc (p := false) (.inl (by simp [Src.okInt, Src.kindOk, vopOk, h.1]))
    · simp at h
  · exact src_ty h

theorem cap_ofEnc {c : CapSrc} (h : c.ok = true) : c.enc < 8192 ∧ CapSrc.ofEnc c.enc = some c := by
  cases c with
  | vc n =>
    have hn : n < 256 := by simpa [CapSrc.ok] using h
    have e : n / 1024 = 0 := by omega
    refine ⟨by simp only [CapSrc.enc]; omega, ?_⟩
    simp only [CapSrc.ofEnc, CapSrc.enc, e]
    rw [show n % 1024 = n by omega]
  | c n =>
    have hn : n < 40 := by simpa [CapSrc.ok] using h
    have e : (1024 + n) / 1024 = 1 := by omega
    refine ⟨by simp only [CapSrc.enc]; omega, ?_⟩
    simp only [CapSrc.ofEnc, CapSrc.enc, e]
    rw [show (1024 + n) % 1024 = n by omega]

theorem dst_ok {p : Bool} {d : Dst} (h : d.ok p = true) :
    d.wbn < 2 ∧ d.num < 1024 ∧ (if d.wbn = 0 then Dst.reg d.num else .none) = d := by
  cases d with
  | reg n =>
    simp only [Dst.ok, vopOk, Bool.and_eq_true, decide_eq_true_eq] at h
    exact ⟨by simp [Dst.wbn], h.1, rfl⟩
  | none => decide

theorem modInt_ok (t : Ty) (s : Bool) :
    modInt t s < 4096 ∧ Ty.ofCode (modInt t s / 2 ^ 8) = some t ∧ boolOf (modInt t s / 2 ^ 7 % 2) = s := by
  cases t <;> cases s <;> decide

theorem modMem_ok (o : Ord) (s : Scope) {ty low : Nat} (ht : ty < 14) (hl : low < 8) :
    modMem o s ty low < 4096 ∧ Ord.ofCode (modMem o s ty low / 2 ^ 10) = some o
      ∧ Scope.ofCode (modMem o s ty low / 2 ^ 7 % 8) = some s ∧ modMem o s ty low / 2 ^ 3 % 16 = ty
      ∧ modMem o s ty low % 8 = low ∧ modMem o s ty low / 4 % 2 = low / 4 := by
  have := ord_lt o
  have := scope_lt s
  have e1 : modMem o s ty low / 2 ^ 10 = o.code := by unfold modMem; omega
  have e2 : modMem o s ty low / 2 ^ 7 % 8 = s.code := by unfold modMem; omega
  rw [e1, e2, ord_code, scope_code]
  refine ⟨?_, rfl, rfl, ?_, ?_, ?_⟩ <;> unfold modMem <;> omega

theorem modMat_ok {fmt acc : Nat} (p r l : Bool) (hf : fmt < 7) (ha : acc < 16) :
    modMat fmt p r l acc < 4096 ∧ modMat fmt p r l acc / 2 ^ 8 = fmt
      ∧ boolOf (modMat fmt p r l acc / 2 ^ 7 % 2) = p ∧ boolOf (modMat fmt p r l acc / 2 ^ 6 % 2) = r
      ∧ modMat fmt p r l acc / 2 ^ 5 % 2 = boolEnc l ∧ modMat fmt p r l acc / 2 % 16 = acc := by
  have := boolEnc_lt p
  have := boolEnc_lt r
  have := boolEnc_lt l
  have e1 : modMat fmt p r l acc / 2 ^ 7 % 2 = boolEnc p := by unfold modMat; omega
  have e2 : modMat fmt p r l acc / 2 ^ 6 % 2 = boolEnc r := by unfold modMat; omega
  rw [e1, e2, boolOf_boolEnc, boolOf_boolEnc]
  refine ⟨?_, ?_, rfl, rfl, ?_, ?_⟩ <;> unfold modMat <;> omega

end Sys2Proof.Laws
end

