-- ==== Sys2Proof/Laws/PerInstr.lean ====
section
/-!
SUPPORT. The round trip of encoder and decoder, one lemma an instruction: what is well formed has a word of its
stream's size, and the decoder reads the instruction back from it (07 R141 to R162).
-/

namespace Sys2Proof.Laws.Encoding

/-- The bytes of an instruction: 4 in the scalar stream, 12 in the lane stream (R141); 0 for a step that the device
takes by itself. -/
def streamSize : Instr → Nat
  | .add .. | .sub .. | .and .. | .or .. | .xor .. | .andn .. | .shl .. | .shr .. | .sra .. | .rol .. | .slt ..
  | .sltu .. | .min .. | .max .. | .minu .. | .maxu .. | .mul .. | .mulh .. | .mulhu .. | .div .. | .divu ..
  | .rem .. | .remu .. | .addI64 .. | .subI64 .. | .shlI64 .. | .shrI64 .. | .sraI64 .. | .mulI64 .. | .sltI64 ..
  | .sltuI64 .. | .popc .. | .clz .. | .ctz .. | .brev .. | .bfe .. | .bfeu .. | .bfi .. | .addi .. | .andi ..
  | .ori .. | .xori .. | .slti .. | .sltui .. | .shli .. | .shri .. | .srai .. | .roli .. | .muli .. | .li ..
  | .lih .. | .bcCond .. | .jal .. | .land .. | .cmov .. | .cgetaddr .. | .cgetbase .. | .cgettop .. | .cgetlen ..
  | .cgetperm .. | .cgetseal .. | .cgetowner .. | .cgettag .. | .csetaddr .. | .cinc .. | .csetbnd ..
  | .csetbndx .. | .cnarrow .. | .cwrap .. | .cunwrap .. | .cwithin .. | .cj .. | .cjal .. | .cinci .. | .ldI8 ..
  | .ldN8 .. | .ldI16 .. | .ldN16 .. | .ldN32 .. | .ldN64 .. | .stN8 .. | .stN16 .. | .stN32 .. | .stN64 ..
  | .ldc .. | .stc .. | .ldxN8 .. | .ldxN16 .. | .ldxN32 .. | .ldxN64 .. | .stxN8 .. | .stxN16 .. | .stxN32 ..
  | .stxN64 .. | .ldcx .. | .stcx .. | .amoAddN32 .. | .amoAndN32 .. | .amoOrN32 .. | .amoXorN32 ..
  | .amoMinI32 .. | .amoMaxI32 .. | .amoMinN32 .. | .amoMaxN32 .. | .amoSwapN32 .. | .amoCasN32 ..
  | .amoSwapN64 .. | .amoCasN64 .. | .amoAddN64 .. | .fence .. | .lrun .. | .emr .. | .emw .. | .lmr .. | .bar ..
  | .barArrive .. | .barWait .. | .wtok .. | .wtokReg .. | .tkr .. | .pause .. | .dly .. | .yld ..
  | .qpushQcopy .. | .qpushQcoll .. | .qpopQmat .. | .msend .. | .mrecv .. | .mcall .. | .mreply .. | .glaunch ..
  | .gsub .. | .wset .. | .wget .. | .nop | .gend | .brk .. | .rdtime .. | .rdid .. | .pgreq .. | .fsrr ..
  | .fsrw .. | .mxcr .. | .mxcw .. | .eret | .ctlr .. | .ctlw .. | .tlbi .. | .swp .. | .keyk .. | .sealctx ..
  | .wfi | .xstep => 4
  | .iadd .. | .isub .. | .imul .. | .imulhi .. | .imad .. | .imin .. | .imax .. | .iabs .. | .ineg .. | .iand ..
  | .ior .. | .ixor .. | .iandn .. | .inot .. | .isel .. | .ishl .. | .ishr .. | .isra .. | .ipopc .. | .iclz ..
  | .laneBrev .. | .prmt .. | .laneBfe .. | .laneBfi .. | .idp4 .. | .fadd .. | .fsub .. | .fmul .. | .ffma ..
  | .fmin .. | .fmax .. | .fabs .. | .fneg .. | .frcp .. | .frsq .. | .fsqrt .. | .fdiv .. | .fexp2 .. | .flog2 ..
  | .dadd .. | .dsub .. | .dmul .. | .dfma .. | .dmin .. | .dmax .. | .ddiv .. | .dsqrt .. | .hadd2 .. | .hmul2 ..
  | .hfma2 .. | .badd2 .. | .bmul2 .. | .bfma2 .. | .bdot2 .. | .cvt .. | .sxpack .. | .sxunpack .. | .pset ..
  | .plop .. | .pmov .. | .mov .. | .movi .. | .rnd .. | .laneDly .. | .shfl .. | .vote .. | .vballot ..
  | .lred .. | .lscan .. | .laneMatch .. | .lbrx .. | .lend .. | .vcmov .. | .vcgetaddr .. | .vcgetbase ..
  | .vcgettop .. | .vcgetlen .. | .vcgetperm .. | .vcgetseal .. | .vcgetowner .. | .vcgettag .. | .vcsetaddr ..
  | .vcinc .. | .vcsetbnd .. | .vcsetbndx .. | .vcnarrow .. | .vcwrap .. | .vcunwrap .. | .vcwithin .. | .ld ..
  | .st .. | .ldnr .. | .ldsub .. | .subs .. | .unsubs .. | .lds .. | .sts .. | .atom .. | .atoms .. | .laneLdc ..
  | .laneStc .. | .laneFence .. | .fencex .. | .pf .. | .mmac .. | .mdist .. | .mtopk .. | .mclr .. | .mld ..
  | .mst .. | .mrd .. | .tokc .. | .tokcDraft .. | .tokcf .. | .tokrj .. | .tokf .. => 12
  | .spawnedGroupStart .. | .faultGroupStart .. | .lbrxRedirect .. | .issueChoice .. | .starvationPromotion ..
  | .pauseEnd .. | .dlyExpiry .. | .fixedLatencyWriteEffect .. | .wtokComplete .. | .yieldReactivation ..
  | .queueBlockEnd .. | .scalarMemoryCompletion .. | .laneMemoryCompletion .. | .watchStepCompletion ..
  | .matrixStart .. | .matrixCompletion .. | .copyAccept .. | .copyCompletion .. | .collectiveAccept ..
  | .collectiveCompletion .. | .engineFaultDelivery .. | .pageRequestPost .. | .pageRequestRecheck ..
  | .firstTouchPoolRetry .. | .tcmpReached .. | .interruptTrap .. | .singleStepTrap .. | .teamPlacement ..
  | .teamReservation .. | .preemption .. | .teamRestore .. | .regionSnapshot .. | .teamExit .. | .teamKill ..
  | .killRequest .. | .budgetExhausted .. | .periodStart .. | .usedUpdate .. | .watchdogExpiry ..
  | .launchCompletion .. | .launchRecordUpdate .. | .endNode .. | .launchNode .. | .copyNode .. | .loopNode ..
  | .conditionalNode .. | .waitNode .. | .waitNodeRetest .. | .signalNode .. | .deviceTimeTick | .timeCopyCheck ..
  | .leaseExpiry .. | .dirtyWriteBack .. | .writePerform .. | .forcedPublish .. | .clockStop .. | .gets ..
  | .getsub .. | .getx .. | .wrh .. | .putx .. | .inv .. | .fwds .. | .fwdx .. | .upd .. | .ack .. | .data ..
  | .wback .. | .rdcEviction .. | .sweepPassBegin | .sweepPassComplete | .peerAccessRequest .. | .exportReturn ..
  | .linkTraining .. | .flitReplay .. | .linkSpareLane .. | .linkFailure .. | .msixWrite ..
  | .portTransferComplete .. | .packageReset | .partitionReset .. | .powerManagerStep .. | .leakageUpdate ..
  | .powerAlertAssert | .powerAlertRelease | .spareExchange .. | .bootok | .stage | .logrd | .fuse
  | .mailboxCommandEnd | .getMeasurements .. | .keyLoad | .stop .. | .traceSample .. | .laneFocus ..
  | .laneFocusRelease .. | .crashDump .. | .acctArm .. | .partcfgWrite .. | .linkpartWrite ..
  | .coherenceControlWrite .. | .exppaWrite .. | .revocationRegisterWrite .. | .registerWrite ..
  | .portMemoryAccess .. | .powerLoss | .linkPeerLoss .. => 0

/-- The instruction has a word of its stream's size from which the decoder reads it back; a step of the device has
none. -/
def Statement (i : Instr) : Prop :=
  i.wf = true →
    match streamSize i with
    | 4 => ∃ w, encodeScalar i = some w ∧ w < 2 ^ 32 ∧ decodeScalar w = .ok i
    | 12 => ∃ w, encodeLane i = some w ∧ w < 2 ^ 96 ∧ decodeLane w = .ok i
    | _ => encode i = none

theorem ctlOk_lt {d n : Nat} (h : ctlOk d n = true) : d < 160 ∧ n < 0x25 := by
  unfold ctlOk at h
  split at h <;> simp_all [spairOk, sregOk]

theorem tlbiOk_lt {a b : Nat} {k : TlbKind} (h : tlbiOk a b k = true) : a < 40 ∧ b < 160 := by
  unfold tlbiOk at h
  split at h <;> simp_all [spairOk, cregOk]

theorem hdr_raw (h : LaneHdr) (op tk mod wbn dreg sa sb sc x : Nat) :
    LaneHdr.ofRaw ⟨op, boolEnc h.pr, boolEnc h.gn, h.gp, tk, mod, wbn, dreg, sa, sb, sc, x⟩ = h := by
  simp only [LaneHdr.ofRaw, boolOf_boolEnc]

theorem enc_shli (d a sh : Nat) : encodeScalar (.shli d a sh) = some (encSI 0x11 d a (0 * 2 ^ 5 + sh)) := by
  rw [Nat.zero_mul, Nat.zero_add]
  rfl

theorem dst_raw (d : Dst) (op pr gn gp tk mod sa sb sc x : Nat) :
    Dst.ofRaw ⟨op, pr, gn, gp, tk, mod, d.wbn, d.num, sa, sb, sc, x⟩ = d := by
  cases d <;> rfl

/-! ### Scalar instructions -/

theorem add (d : Nat) (a : Nat) (b : Nat) : Statement (.add d a b) := by
  intro hw
  have hw' : (sregOk d && sregOk a && sregOk b) = true := hw
  simp only [sregOk, Bool.and_eq_true, decide_eq_true_eq] at hw'
  exact scalar_sr (fun w h1 h2 => by unfold scalarOf; rw [h1, h2]; rfl) rfl hw (by decide) (by decide) (by omega)

theorem sub (d : Nat) (a : Nat) (b : Nat) : Statement (.sub d a b) := by
  intro hw
  have hw' : (sregOk d && sregOk a && sregOk b) = true := hw
  simp only [sregOk, Bool.and_eq_true, decide_eq_true_eq] at hw'
  exact scalar_sr (fun w h1 h2 => by unfold scalarOf; rw [h1, h2]; rfl) rfl hw (by decide) (by decide) (by omega)

theorem and (d : Nat) (a : Nat) (b : Nat) : Statement (.and d a b) := by
  intro hw
  have hw' : (sregOk d && sregOk a && sregOk b) = true := hw
  simp only [sregOk, Bool.and_eq_true, decide_eq_true_eq] at hw'
  exact scalar_sr (fun w h1 h2 => by unfold scalarOf; rw [h1, h2]; rfl) rfl hw (by decide) (by decide) (by omega)

theorem or (d : Nat) (a : Nat) (b : Nat) : Statement (.or d a b) := by
  intro hw
  have hw' : (sregOk d && sregOk a && sregOk b) = true := hw
  simp only [sregOk, Bool.and_eq_true, decide_eq_true_eq] at hw'
  exact scalar_sr (fun w h1 h2 => by unfold scalarOf; rw [h1, h2]; rfl) rfl hw (by decide) (by decide) (by omega)

theorem xor (d : Nat) (a : Nat) (b : Nat) : Statement (.xor d a b) := by
  intro hw
  have hw' : (sregOk d && sregOk a && sregOk b) = true := hw
  simp only [sregOk, Bool.and_eq_true, decide_eq_true_eq] at hw'
  exact scalar_sr (fun w h1 h2 => by unfold scalarOf; rw [h1, h2]; rfl) rfl hw (by decide) (by decide) (by omega)

theorem andn (d : Nat) (a : Nat) (b : Nat) : Statement (.andn d a b) := by
  intro hw
  have hw' : (sregOk d && sregOk a && sregOk b) = true := hw
  simp only [sregOk, Bool.and_eq_true, decide_eq_true_eq] at hw'
  exact scalar_sr (fun w h1 h2 => by unfold scalarOf; rw [h1, h2]; rfl) rfl hw (by decide) (by decide) (by omega)

theorem shl (d : Nat) (a : Nat) (b : Nat) : Statement (.shl d a b) := by
  intro hw
  have hw' : (sregOk d && sregOk a && sregOk b) = true := hw
  simp only [sregOk, Bool.and_eq_true, decide_eq_true_eq] at hw'
  exact scalar_sr (fun w h1 h2 => by unfold scalarOf; rw [h1, h2]; rfl) rfl hw (by decide) (by decide) (by omega)

theorem shr (d : Nat) (a : Nat) (b : Nat) : Statement (.shr d a b) := by
  intro hw
  have hw' : (sregOk d && sregOk a && sregOk b) = true := hw
  simp only [sregOk, Bool.and_eq_true, decide_eq_true_eq] at hw'
  exact scalar_sr (fun w h1 h2 => by unfold scalarOf; rw [h1, h2]; rfl) rfl hw (by decide) (by decide) (by omega)

theorem sra (d : Nat) (a : Nat) (b : Nat) : Statement (.sra d a b) := by
  intro hw
  have hw' : (sregOk d && sregOk a && sregOk b) = true := hw
  simp only [sregOk, Bool.and_eq_true, decide_eq_true_eq] at hw'
  exact scalar_sr (fun w h1 h2 => by unfold scalarOf; rw [h1, h2]; rfl) rfl hw (by decide) (by decide) (by omega)

theorem rol (d : Nat) (a : Nat) (b : Nat) : Statement (.rol d a b) := by
  intro hw
  have hw' : (sregOk d && sregOk a && sregOk b) = true := hw
  simp only [sregOk, Bool.and_eq_true, decide_eq_true_eq] at hw'
  exact scalar_sr (fun w h1 h2 => by unfold scalarOf; rw [h1, h2]; rfl) rfl hw (by decide) (by decide) (by omega)

theorem slt (d : Nat) (a : Nat) (b : Nat) : Statement (.slt d a b) := by
  intro hw
  have hw' : (sregOk d && sregOk a && sregOk b) = true := hw
  simp only [sregOk, Bool.and_eq_true, decide_eq_true_eq] at hw'
  exact scalar_sr (fun w h1 h2 => by unfold scalarOf; rw [h1, h2]; rfl) rfl hw (by decide) (by decide) (by omega)

theorem sltu (d : Nat) (a : Nat) (b : Nat) : Statement (.sltu d a b) := by
  intro hw
  have hw' : (sregOk d && sregOk a && sregOk b) = true := hw
  simp only [sregOk, Bool.and_eq_true, decide_eq_true_eq] at hw'
  exact scalar_sr (fun w h1 h2 => by unfold scalarOf; rw [h1, h2]; rfl) rfl hw (by decide) (by decide) (by omega)

theorem min (d : Nat) (a : Nat) (b : Nat) : Statement (.min d a b) := by
  intro hw
  have hw' : (sregOk d && sregOk a && sregOk b) = true := hw
  simp only [sregOk, Bool.and_eq_true, decide_eq_true_eq] at hw'
  exact scalar_sr (fun w h1 h2 => by unfold scalarOf; rw [h1, h2]; rfl) rfl hw (by decide) (by decide) (by omega)

theorem max (d : Nat) (a : Nat) (b : Nat) : Statement (.max d a b) := by
  intro hw
  have hw' : (sregOk d && sregOk a && sregOk b) = true := hw
  simp only [sregOk, Bool.and_eq_true, decide_eq_true_eq] at hw'
  exact scalar_sr (fun w h1 h2 => by unfold scalarOf; rw [h1, h2]; rfl) rfl hw (by decide) (by decide) (by omega)

theorem minu (d : Nat) (a : Nat) (b : Nat) : Statement (.minu d a b) := by
  intro hw
  have hw' : (sregOk d && sregOk a && sregOk b) = true := hw
  simp only [sregOk, Bool.and_eq_true, decide_eq_true_eq] at hw'
  exact scalar_sr (fun w h1 h2 => by unfold scalarOf; rw [h1, h2]; rfl) rfl hw (by decide) (by decide) (by omega)

theorem maxu (d : Nat) (a : Nat) (b : Nat) : Statement (.maxu d a b) := by
  intro hw
  have hw' : (sregOk d && sregOk a && sregOk b) = true := hw
  simp only [sregOk, Bool.and_eq_true, decide_eq_true_eq] at hw'
  exact scalar_sr (fun w h1 h2 => by unfold scalarOf; rw [h1, h2]; rfl) rfl hw (by decide) (by decide) (by omega)

theorem mul (d : Nat) (a : Nat) (b : Nat) : Statement (.mul d a b) := by
  intro hw
  have hw' : (sregOk d && sregOk a && sregOk b) = true := hw
  simp only [sregOk, Bool.and_eq_true, decide_eq_true_eq] at hw'
  exact scalar_sr (fun w h1 h2 => by unfold scalarOf; rw [h1, h2]; rfl) rfl hw (by decide) (by decide) (by omega)

theorem mulh (d : Nat) (a : Nat) (b : Nat) : Statement (.mulh d a b) := by
  intro hw
  have hw' : (sregOk d && sregOk a && sregOk b) = true := hw
  simp only [sregOk, Bool.and_eq_true, decide_eq_true_eq] at hw'
  exact scalar_sr (fun w h1 h2 => by unfold scalarOf; rw [h1, h2]; rfl) rfl hw (by decide) (by decide) (by omega)

theorem mulhu (d : Nat) (a : Nat) (b : Nat) : Statement (.mulhu d a b) := by
  intro hw
  have hw' : (sregOk d && sregOk a && sregOk b) = true := hw
  simp only [sregOk, Bool.and_eq_true, decide_eq_true_eq] at hw'
  exact scalar_sr (fun w h1 h2 => by unfold scalarOf; rw [h1, h2]; rfl) rfl hw (by decide) (by decide) (by omega)

theorem div (d : Nat) (a : Nat) (b : Nat) : Statement (.div d a b) := by
  intro hw
  have hw' : (sregOk d && sregOk a && sregOk b) = true := hw
  simp only [sregOk, Bool.and_eq_true, decide_eq_true_eq] at hw'
  exact scalar_sr (fun w h1 h2 => by unfold scalarOf; rw [h1, h2]; rfl) rfl hw (by decide) (by decide) (by omega)

theorem divu (d : Nat) (a : Nat) (b : Nat) : Statement (.divu d a b) := by
  intro hw
  have hw' : (sregOk d && sregOk a && sregOk b) = true := hw
  simp only [sregOk, Bool.and_eq_true, decide_eq_true_eq] at hw'
  exact scalar_sr (fun w h1 h2 => by unfold scalarOf; rw [h1, h2]; rfl) rfl hw (by decide) (by decide) (by omega)

theorem rem (d : Nat) (a : Nat) (b : Nat) : Statement (.rem d a b) := by
  intro hw
  have hw' : (sregOk d && sregOk a && sregOk b) = true := hw
  simp only [sregOk, Bool.and_eq_true, decide_eq_true_eq] at hw'
  exact scalar_sr (fun w h1 h2 => by unfold scalarOf; rw [h1, h2]; rfl) rfl hw (by decide) (by decide) (by omega)

theorem remu (d : Nat) (a : Nat) (b : Nat) : Statement (.remu d a b) := by
  intro hw
  have hw' : (sregOk d && sregOk a && sregOk b) = true := hw
  simp only [sregOk, Bool.and_eq_true, decide_eq_true_eq] at hw'
  exact scalar_sr (fun w h1 h2 => by unfold scalarOf; rw [h1, h2]; rfl) rfl hw (by decide) (by decide) (by omega)

theorem addI64 (d : Nat) (a : Nat) (b : Nat) : Statement (.addI64 d a b) := by
  intro hw
  have hw' : (spairOk d && spairOk a && spairOk b) = true := hw
  simp only [spairOk, Bool.and_eq_true, decide_eq_true_eq, beq_iff_eq] at hw'
  exact scalar_sr (fun w h1 h2 => by unfold scalarOf; rw [h1, h2]; rfl) rfl hw (by decide) (by decide) (by omega)

theorem subI64 (d : Nat) (a : Nat) (b : Nat) : Statement (.subI64 d a b) := by
  intro hw
  have hw' : (spairOk d && spairOk a && spairOk b) = true := hw
  simp only [spairOk, Bool.and_eq_true, decide_eq_true_eq, beq_iff_eq] at hw'
  exact scalar_sr (fun w h1 h2 => by unfold scalarOf; rw [h1, h2]; rfl) rfl hw (by decide) (by decide) (by omega)

theorem shlI64 (d : Nat) (a : Nat) (b : Nat) : Statement (.shlI64 d a b) := by
  intro hw
  have hw' : (spairOk d && spairOk a && spairOk b) = true := hw
  simp only [spairOk, Bool.and_eq_true, decide_eq_true_eq, beq_iff_eq] at hw'
  exact scalar_sr (fun w h1 h2 => by unfold scalarOf; rw [h1, h2]; rfl) rfl hw (by decide) (by decide) (by omega)

theorem shrI64 (d : Nat) (a : Nat) (b : Nat) : Statement (.shrI64 d a b) := by
  intro hw
  have hw' : (spairOk d && spairOk a && spairOk b) = true := hw
  simp only [spairOk, Bool.and_eq_true, decide_eq_true_eq, beq_iff_eq] at hw'
  exact scalar_sr (fun w h1 h2 => by unfold scalarOf; rw [h1, h2]; rfl) rfl hw (by decide) (by decide) (by omega)

theorem sraI64 (d : Nat) (a : Nat) (b : Nat) : Statement (.sraI64 d a b) := by
  intro hw
  have hw' : (spairOk d && spairOk a && spairOk b) = true := hw
  simp only [spairOk, Bool.and_eq_true, decide_eq_true_eq, beq_iff_eq] at hw'
  exact scalar_sr (fun w h1 h2 => by unfold scalarOf; rw [h1, h2]; rfl) rfl hw (by decide) (by decide) (by omega)

theorem mulI64 (d : Nat) (a : Nat) (b : Nat) : Statement (.mulI64 d a b) := by
  intro hw
  have hw' : (spairOk d && spairOk a && spairOk b) = true := hw
  simp only [spairOk, Bool.and_eq_true, decide_eq_true_eq, beq_iff_eq] at hw'
  exact scalar_sr (fun w h1 h2 => by unfold scalarOf; rw [h1, h2]; rfl) rfl hw (by decide) (by decide) (by omega)

theorem sltI64 (d : Nat) (a : Nat) (b : Nat) : Statement (.sltI64 d a b) := by
  intro hw
  have hw' : (spairOk d && spairOk a && spairOk b) = true := hw
  simp only [spairOk, Bool.and_eq_true, decide_eq_true_eq, beq_iff_eq] at hw'
  exact scalar_sr (fun w h1 h2 => by unfold scalarOf; rw [h1, h2]; rfl) rfl hw (by decide) (by decide) (by omega)

theorem sltuI64 (d : Nat) (a : Nat) (b : Nat) : Statement (.sltuI64 d a b) := by
  intro hw
  have hw' : (spairOk d && spairOk a && spairOk b) = true := hw
  simp only [spairOk, Bool.and_eq_true, decide_eq_true_eq, beq_iff_eq] at hw'
  exact scalar_sr (fun w h1 h2 => by unfold scalarOf; rw [h1, h2]; rfl) rfl hw (by decide) (by decide) (by omega)

theorem popc (d : Nat) (a : Nat) : Statement (.popc d a) := by
  intro hw
  have hw' : (sregOk d && sregOk a) = true := hw
  simp only [sregOk, Bool.and_eq_true, decide_eq_true_eq] at hw'
  exact scalar_sr2 (fun w h1 h2 => by unfold scalarOf; rw [h1, h2]; rfl) rfl hw (by decide) (by decide) (by omega)

theorem clz (d : Nat) (a : Nat) : Statement (.clz d a) := by
  intro hw
  have hw' : (sregOk d && sregOk a) = true := hw
  simp only [sregOk, Bool.and_eq_true, decide_eq_true_eq] at hw'
  exact scalar_sr2 (fun w h1 h2 => by unfold scalarOf; rw [h1, h2]; rfl) rfl hw (by decide) (by decide) (by omega)

theorem ctz (d : Nat) (a : Nat) : Statement (.ctz d a) := by
  intro hw
  have hw' : (sregOk d && sregOk a) = true := hw
  simp only [sregOk, Bool.and_eq_true, decide_eq_true_eq] at hw'
  exact scalar_sr2 (fun w h1 h2 => by unfold scalarOf; rw [h1, h2]; rfl) rfl hw (by decide) (by decide) (by omega)

theorem brev (d : Nat) (a : Nat) : Statement (.brev d a) := by
  intro hw
  have hw' : (sregOk d && sregOk a) = true := hw
  simp only [sregOk, Bool.and_eq_true, decide_eq_true_eq] at hw'
  exact scalar_sr2 (fun w h1 h2 => by unfold scalarOf; rw [h1, h2]; rfl) rfl hw (by decide) (by decide) (by omega)

theorem bfe (d : Nat) (a : Nat) (b : Nat) : Statement (.bfe d a b) := by
  intro hw
  have hw' : (sregOk d && sregOk a && sregOk b) = true := hw
  simp only [sregOk, Bool.and_eq_true, decide_eq_true_eq] at hw'
  exact scalar_sr (fun w h1 h2 => by unfold scalarOf; rw [h1, h2]; rfl) rfl hw (by decide) (by decide) (by omega)

theorem bfeu (d : Nat) (a : Nat) (b : Nat) : Statement (.bfeu d a b) := by
  intro hw
  have hw' : (sregOk d && sregOk a && sregOk b) = true := hw
  simp only [sregOk, Bool.and_eq_true, decide_eq_true_eq] at hw'
  exact scalar_sr (fun w h1 h2 => by unfold scalarOf; rw [h1, h2]; rfl) rfl hw (by decide) (by decide) (by omega)

theorem bfi (d : Nat) (a : Nat) (b : Nat) : Statement (.bfi d a b) := by
  intro hw
  have hw' : (sregOk d && sregOk a && sregOk b) = true := hw
  simp only [sregOk, Bool.and_eq_true, decide_eq_true_eq] at hw'
  exact scalar_sr (fun w h1 h2 => by unfold scalarOf; rw [h1, h2]; rfl) rfl hw (by decide) (by decide) (by omega)

theorem addi (d : Nat) (a : Nat) (imm : Int) : Statement (.addi d a imm) := by
  intro hw
  have hw' : (sregOk d && sregOk a && immOk 10 imm) = true := hw
  simp only [sregOk, immOk, Bool.and_eq_true, decide_eq_true_eq] at hw'
  exact scalar_si (fun w h1 => by unfold scalarOf; rw [h1]; rfl) rfl hw (by decide) (by omega)

theorem andi (d : Nat) (a : Nat) (imm : Int) : Statement (.andi d a imm) := by
  intro hw
  have hw' : (sregOk d && sregOk a && immOk 10 imm) = true := hw
  simp only [sregOk, immOk, Bool.and_eq_true, decide_eq_true_eq] at hw'
  exact scalar_si (fun w h1 => by unfold scalarOf; rw [h1]; rfl) rfl hw (by decide) (by omega)

theorem ori (d : Nat) (a : Nat) (imm : Int) : Statement (.ori d a imm) := by
  intro hw
  have hw' : (sregOk d && sregOk a && immOk 10 imm) = true := hw
  simp only [sregOk, immOk, Bool.and_eq_true, decide_eq_true_eq] at hw'
  exact scalar_si (fun w h1 => by unfold scalarOf; rw [h1]; rfl) rfl hw (by decide) (by omega)

theorem xori (d : Nat) (a : Nat) (imm : Int) : Statement (.xori d a imm) := by
  intro hw
  have hw' : (sregOk d && sregOk a && immOk 10 imm) = true := hw
  simp only [sregOk, immOk, Bool.and_eq_true, decide_eq_true_eq] at hw'
  exact scalar_si (fun w h1 => by unfold scalarOf; rw [h1]; rfl) rfl hw (by decide) (by omega)

theorem slti (d : Nat) (a : Nat) (imm : Int) : Statement (.slti d a imm) := by
  intro hw
  have hw' : (sregOk d && sregOk a && immOk 10 imm) = true := hw
  simp only [sregOk, immOk, Bool.and_eq_true, decide_eq_true_eq] at hw'
  exact scalar_si (fun w h1 => by unfold scalarOf; rw [h1]; rfl) rfl hw (by decide) (by omega)

theorem sltui (d : Nat) (a : Nat) (imm : Int) : Statement (.sltui d a imm) := by
  intro hw
  have hw' : (sregOk d && sregOk a && immOk 10 imm) = true := hw
  simp only [sregOk, immOk, Bool.and_eq_true, decide_eq_true_eq] at hw'
  exact scalar_si (fun w h1 => by unfold scalarOf; rw [h1]; rfl) rfl hw (by decide) (by omega)

theorem shli (d : Nat) (a : Nat) (sh : Nat) : Statement (.shli d a sh) := by
  intro hw
  have hw' : (sregOk d && sregOk a && sh < 32) = true := hw
  simp only [sregOk, Bool.and_eq_true, decide_eq_true_eq] at hw'
  exact scalar_sh (k := 0) (fun w h1 h2 => by unfold scalarOf; rw [h1, h2]; rfl) (enc_shli d a sh) hw (by decide) (by
      omega)

theorem shri (d : Nat) (a : Nat) (sh : Nat) : Statement (.shri d a sh) := by
  intro hw
  have hw' : (sregOk d && sregOk a && sh < 32) = true := hw
  simp only [sregOk, Bool.and_eq_true, decide_eq_true_eq] at hw'
  exact scalar_sh (k := 1) (fun w h1 h2 => by unfold scalarOf; rw [h1, h2]; rfl) rfl hw (by decide) (by omega)

theorem srai (d : Nat) (a : Nat) (sh : Nat) : Statement (.srai d a sh) := by
  intro hw
  have hw' : (sregOk d && sregOk a && sh < 32) = true := hw
  simp only [sregOk, Bool.and_eq_true, decide_eq_true_eq] at hw'
  exact scalar_sh (k := 2) (fun w h1 h2 => by unfold scalarOf; rw [h1, h2]; rfl) rfl hw (by decide) (by omega)

theorem roli (d : Nat) (a : Nat) (sh : Nat) : Statement (.roli d a sh) := by
  intro hw
  have hw' : (sregOk d && sregOk a && sh < 32) = true := hw
  simp only [sregOk, Bool.and_eq_true, decide_eq_true_eq] at hw'
  exact scalar_sh (k := 3) (fun w h1 h2 => by unfold scalarOf; rw [h1, h2]; rfl) rfl hw (by decide) (by omega)

theorem muli (d : Nat) (a : Nat) (imm : Int) : Statement (.muli d a imm) := by
  intro hw
  have hw' : (sregOk d && sregOk a && immOk 10 imm) = true := hw
  simp only [sregOk, immOk, Bool.and_eq_true, decide_eq_true_eq] at hw'
  exact scalar_si (fun w h1 => by unfold scalarOf; rw [h1]; rfl) rfl hw (by decide) (by omega)

theorem li (d : Nat) (imm : Int) : Statement (.li d imm) := by
  intro hw
  have hw' : (sregOk d && immOk 18 imm) = true := hw
  simp only [sregOk, immOk, Bool.and_eq_true, decide_eq_true_eq] at hw'
  have := unsext_lt 18 imm
  have b0 : bitsOf (encSL 0x13 d (unsext 18 imm)) 31 26 = 0x13 := by
    unfold bitsOf encSL
    omega
  have b1 : bitsOf (encSL 0x13 d (unsext 18 imm)) 25 18 = d := by
    unfold bitsOf encSL
    omega
  have b2 : bitsOf (encSL 0x13 d (unsext 18 imm)) 17 0 = unsext 18 imm := by
    unfold bitsOf encSL
    omega
  refine ⟨_, rfl, ?_, decodeScalar_of hw rfl ?_⟩
  · unfold encSL
    omega
  · have hr : ∀ x, bitsOf x 31 26 = 0x13 → scalarOf x = some (.li (bitsOf x 25 18) (sext 18 (bitsOf x 17 0))) := by
      intro x h0
      unfold scalarOf
      rw [h0]
      rfl
    rw [hr _ b0, b1, b2, sext_unsext18 (by omega)]

theorem lih (d : Nat) (imm : Nat) : Statement (.lih d imm) := by
  intro hw
  have hw' : (sregOk d && imm < 2 ^ 18) = true := hw
  simp only [sregOk, Bool.and_eq_true, decide_eq_true_eq] at hw'
  have b0 : bitsOf (encSL 0x14 d imm) 31 26 = 0x14 := by
    unfold bitsOf encSL
    omega
  have b1 : bitsOf (encSL 0x14 d imm) 25 18 = d := by
    unfold bitsOf encSL
    omega
  have b2 : bitsOf (encSL 0x14 d imm) 17 0 = imm := by
    unfold bitsOf encSL
    omega
  refine ⟨_, rfl, ?_, decodeScalar_of hw rfl ?_⟩
  · unfold encSL
    omega
  · have hr : ∀ x, bitsOf x 31 26 = 0x14 → scalarOf x = some (.lih (bitsOf x 25 18) (bitsOf x 17 0)) := by
      intro x h0
      unfold scalarOf
      rw [h0]
      rfl
    rw [hr _ b0, b1, b2]

theorem bcCond (c : Cond) (a : Nat) (off : Int) : Statement (.bcCond c a off) := by
  intro hw
  have hw' : (sregOk a && immOk 14 off && (c != .al || a == 0)) = true := hw
  simp only [sregOk, immOk, Bool.and_eq_true, decide_eq_true_eq] at hw'
  have := cond_lt c
  have := unsext_lt 14 off
  have b0 : bitsOf (0x15 * 2 ^ 26 + c.code * 2 ^ 22 + a * 2 ^ 14 + unsext 14 off) 31 26 = 0x15 := by
    unfold bitsOf
    omega
  have b1 : bitsOf (0x15 * 2 ^ 26 + c.code * 2 ^ 22 + a * 2 ^ 14 + unsext 14 off) 25 22 = c.code := by
    unfold bitsOf
    omega
  have b2 : bitsOf (0x15 * 2 ^ 26 + c.code * 2 ^ 22 + a * 2 ^ 14 + unsext 14 off) 21 14 = a := by
    unfold bitsOf
    omega
  have b3 : bitsOf (0x15 * 2 ^ 26 + c.code * 2 ^ 22 + a * 2 ^ 14 + unsext 14 off) 13 0 = unsext 14 off := by
    unfold bitsOf
    omega
  refine ⟨_, rfl, ?_, decodeScalar_of hw rfl ?_⟩
  · omega
  · have hr : ∀ x, bitsOf x 31 26 = 0x15 → bitsOf x 25 22 = c.code → scalarOf x = some (.bcCond c (bitsOf x 21 14)
      (sext 14 (bitsOf x 13 0))) := by
      intro x h0 h1
      unfold scalarOf
      rw [h0]
      show (Cond.ofCode (bitsOf x 25 22)).map _ = _
      rw [h1, cond_code]
      rfl
    rw [hr _ b0 b1, b2, b3, sext_unsext14 (by omega)]

theorem jal (off : Int) : Statement (.jal off) := by
  intro hw
  have hw' : (immOk 26 off) = true := hw
  simp only [immOk, Bool.and_eq_true, decide_eq_true_eq] at hw'
  have := unsext_lt 26 off
  have b0 : bitsOf (0x16 * 2 ^ 26 + unsext 26 off) 31 26 = 0x16 := by
    unfold bitsOf
    omega
  have b1 : bitsOf (0x16 * 2 ^ 26 + unsext 26 off) 25 0 = unsext 26 off := by
    unfold bitsOf
    omega
  refine ⟨_, rfl, ?_, decodeScalar_of hw rfl ?_⟩
  · omega
  · have hr : ∀ x, bitsOf x 31 26 = 0x16 → scalarOf x = some (.jal (sext 26 (bitsOf x 25 0))) := by
      intro x h0
      unfold scalarOf
      rw [h0]
      rfl
    rw [hr _ b0, b1, sext_unsext26 (by omega)]

theorem land (nw : Nat) : Statement (.land nw) := by
  intro hw
  have hw' : (decide (nw ≤ 8)) = true := hw
  simp only [decide_eq_true_eq] at hw'
  have b0 : bitsOf (0x17 * 2 ^ 26 + nw * 2 ^ 22) 31 26 = 0x17 := by
    unfold bitsOf
    omega
  have b1 : bitsOf (0x17 * 2 ^ 26 + nw * 2 ^ 22) 25 22 = nw := by
    unfold bitsOf
    omega
  refine ⟨_, rfl, ?_, decodeScalar_of hw rfl ?_⟩
  · omega
  · have hr : ∀ x, bitsOf x 31 26 = 0x17 → scalarOf x = some (.land (bitsOf x 25 22)) := by
      intro x h0
      unfold scalarOf
      rw [h0]
      rfl
    rw [hr _ b0, b1]

theorem cmov (p : Nat) (q : Nat) : Statement (.cmov p q) := by
  intro hw
  have hw' : (cregOk p && cregOk q) = true := hw
  simp only [cregOk, Bool.and_eq_true, decide_eq_true_eq] at hw'
  obtain ⟨h1, h2, -, h4, h5, h6⟩ := encSC_bits (f := 0x00) (w := 0) (p := p) (q := q) (by decide)
    (by omega) (by omega) (by omega)
  refine ⟨_, rfl, h6, decodeScalar_of hw rfl ?_⟩
  have hr : ∀ x, bitsOf x 31 26 = 0x18 → bitsOf x 25 20 = 0x00 → scalarOf x = some (.cmov (bitsOf x 11 6) (bitsOf x 5
      0)) := by
    intro x h1 h2
    unfold scalarOf
    rw [h1]
    show capOf x = _
    unfold capOf
    rw [h2]
    rfl
  rw [hr _ h1 h2, h4, h5]

theorem cgetaddr (w : Nat) (p : Nat) : Statement (.cgetaddr w p) := by
  intro hw
  have hw' : (spairOk w && cregOk p) = true := hw
  simp only [spairOk, cregOk, Bool.and_eq_true, decide_eq_true_eq, beq_iff_eq] at hw'
  exact scalar_wp (fun w h1 h2 => by unfold scalarOf; rw [h1]; show capOf w = _; unfold capOf; rw [h2]; rfl) rfl hw
    (by decide) (by omega)

theorem cgetbase (w : Nat) (p : Nat) : Statement (.cgetbase w p) := by
  intro hw
  have hw' : (spairOk w && cregOk p) = true := hw
  simp only [spairOk, cregOk, Bool.and_eq_true, decide_eq_true_eq, beq_iff_eq] at hw'
  exact scalar_wp (fun w h1 h2 => by unfold scalarOf; rw [h1]; show capOf w = _; unfold capOf; rw [h2]; rfl) rfl hw
    (by decide) (by omega)

theorem cgettop (w : Nat) (p : Nat) : Statement (.cgettop w p) := by
  intro hw
  have hw' : (spairOk w && cregOk p) = true := hw
  simp only [spairOk, cregOk, Bool.and_eq_true, decide_eq_true_eq, beq_iff_eq] at hw'
  exact scalar_wp (fun w h1 h2 => by unfold scalarOf; rw [h1]; show capOf w = _; unfold capOf; rw [h2]; rfl) rfl hw
    (by decide) (by omega)

theorem cgetlen (w : Nat) (p : Nat) : Statement (.cgetlen w p) := by
  intro hw
  have hw' : (spairOk w && cregOk p) = true := hw
  simp only [spairOk, cregOk, Bool.and_eq_true, decide_eq_true_eq, beq_iff_eq] at hw'
  exact scalar_wp (fun w h1 h2 => by unfold scalarOf; rw [h1]; show capOf w = _; unfold capOf; rw [h2]; rfl) rfl hw
    (by decide) (by omega)

theorem cgetperm (w : Nat) (p : Nat) : Statement (.cgetperm w p) := by
  intro hw
  have hw' : (sregOk w && cregOk p) = true := hw
  simp only [sregOk, cregOk, Bool.and_eq_true, decide_eq_true_eq] at hw'
  exact scalar_wp (fun w h1 h2 => by unfold scalarOf; rw [h1]; show capOf w = _; unfold capOf; rw [h2]; rfl) rfl hw
    (by decide) (by omega)

theorem cgetseal (w : Nat) (p : Nat) : Statement (.cgetseal w p) := by
  intro hw
  have hw' : (sregOk w && cregOk p) = true := hw
  simp only [sregOk, cregOk, Bool.and_eq_true, decide_eq_true_eq] at hw'
  exact scalar_wp (fun w h1 h2 => by unfold scalarOf; rw [h1]; show capOf w = _; unfold capOf; rw [h2]; rfl) rfl hw
    (by decide) (by omega)

theorem cgetowner (w : Nat) (p : Nat) : Statement (.cgetowner w p) := by
  intro hw
  have hw' : (sregOk w && cregOk p) = true := hw
  simp only [sregOk, cregOk, Bool.and_eq_true, decide_eq_true_eq] at hw'
  exact scalar_wp (fun w h1 h2 => by unfold scalarOf; rw [h1]; show capOf w = _; unfold capOf; rw [h2]; rfl) rfl hw
    (by decide) (by omega)

theorem cgettag (w : Nat) (p : Nat) : Statement (.cgettag w p) := by
  intro hw
  have hw' : (sregOk w && cregOk p) = true := hw
  simp only [sregOk, cregOk, Bool.and_eq_true, decide_eq_true_eq] at hw'
  exact scalar_wp (fun w h1 h2 => by unfold scalarOf; rw [h1]; show capOf w = _; unfold capOf; rw [h2]; rfl) rfl hw
    (by decide) (by omega)

theorem csetaddr (w : Nat) (p : Nat) (q : Nat) : Statement (.csetaddr w p q) := by
  intro hw
  have hw' : (spairOk w && cregOk p && cregOk q) = true := hw
  simp only [spairOk, cregOk, Bool.and_eq_true, decide_eq_true_eq, beq_iff_eq] at hw'
  exact scalar_wpq (fun w h1 h2 => by unfold scalarOf; rw [h1]; show capOf w = _; unfold capOf; rw [h2]; rfl) rfl hw
    (by decide) (by omega)

theorem cinc (w : Nat) (p : Nat) (q : Nat) : Statement (.cinc w p q) := by
  intro hw
  have hw' : (spairOk w && cregOk p && cregOk q) = true := hw
  simp only [spairOk, cregOk, Bool.and_eq_true, decide_eq_true_eq, beq_iff_eq] at hw'
  exact scalar_wpq (fun w h1 h2 => by unfold scalarOf; rw [h1]; show capOf w = _; unfold capOf; rw [h2]; rfl) rfl hw
    (by decide) (by omega)

theorem csetbnd (w : Nat) (p : Nat) (q : Nat) : Statement (.csetbnd w p q) := by
  intro hw
  have hw' : (spairOk w && cregOk p && cregOk q) = true := hw
  simp only [spairOk, cregOk, Bool.and_eq_true, decide_eq_true_eq, beq_iff_eq] at hw'
  exact scalar_wpq (fun w h1 h2 => by unfold scalarOf; rw [h1]; show capOf w = _; unfold capOf; rw [h2]; rfl) rfl hw
    (by decide) (by omega)

theorem csetbndx (w : Nat) (p : Nat) (q : Nat) : Statement (.csetbndx w p q) := by
  intro hw
  have hw' : (spairOk w && cregOk p && cregOk q) = true := hw
  simp only [spairOk, cregOk, Bool.and_eq_true, decide_eq_true_eq, beq_iff_eq] at hw'
  exact scalar_wpq (fun w h1 h2 => by unfold scalarOf; rw [h1]; show capOf w = _; unfold capOf; rw [h2]; rfl) rfl hw
    (by decide) (by omega)

theorem cnarrow (w : Nat) (p : Nat) (q : Nat) : Statement (.cnarrow w p q) := by
  intro hw
  have hw' : (sregOk w && cregOk p && cregOk q) = true := hw
  simp only [sregOk, cregOk, Bool.and_eq_true, decide_eq_true_eq] at hw'
  exact scalar_wpq (fun w h1 h2 => by unfold scalarOf; rw [h1]; show capOf w = _; unfold capOf; rw [h2]; rfl) rfl hw
    (by decide) (by omega)

theorem cwrap (w : Nat) (p : Nat) (q : Nat) : Statement (.cwrap w p q) := by
  intro hw
  have hw' : (cregOk w && cregOk p && cregOk q) = true := hw
  simp only [cregOk, Bool.and_eq_true, decide_eq_true_eq] at hw'
  exact scalar_wpq (fun w h1 h2 => by unfold scalarOf; rw [h1]; show capOf w = _; unfold capOf; rw [h2]; rfl) rfl hw
    (by decide) (by omega)

theorem cunwrap (w : Nat) (p : Nat) (q : Nat) : Statement (.cunwrap w p q) := by
  intro hw
  have hw' : (cregOk w && cregOk p && cregOk q) = true := hw
  simp only [cregOk, Bool.and_eq_true, decide_eq_true_eq] at hw'
  exact scalar_wpq (fun w h1 h2 => by unfold scalarOf; rw [h1]; show capOf w = _; unfold capOf; rw [h2]; rfl) rfl hw
    (by decide) (by omega)

theorem cwithin (w : Nat) (p : Nat) (q : Nat) : Statement (.cwithin w p q) := by
  intro hw
  have hw' : (sregOk w && cregOk p && cregOk q) = true := hw
  simp only [sregOk, cregOk, Bool.and_eq_true, decide_eq_true_eq] at hw'
  exact scalar_wpq (fun w h1 h2 => by unfold scalarOf; rw [h1]; show capOf w = _; unfold capOf; rw [h2]; rfl) rfl hw
    (by decide) (by omega)

theorem cj (p : Nat) : Statement (.cj p) := by
  intro hw
  have hw' : (cregOk p) = true := hw
  simp only [cregOk, decide_eq_true_eq] at hw'
  obtain ⟨h1, h2, -, h4, h5, h6⟩ := encSC_bits (f := 0x11) (w := 0) (p := p) (q := 0) (by decide)
    (by omega) (by omega) (by omega)
  refine ⟨_, rfl, h6, decodeScalar_of hw rfl ?_⟩
  have hr : ∀ x, bitsOf x 31 26 = 0x18 → bitsOf x 25 20 = 0x11 → scalarOf x = some (.cj (bitsOf x 11 6)) := by
    intro x h1 h2
    unfold scalarOf
    rw [h1]
    show capOf x = _
    unfold capOf
    rw [h2]
    rfl
  rw [hr _ h1 h2, h4]

theorem cjal (p : Nat) : Statement (.cjal p) := by
  intro hw
  have hw' : (cregOk p) = true := hw
  simp only [cregOk, decide_eq_true_eq] at hw'
  obtain ⟨h1, h2, -, h4, h5, h6⟩ := encSC_bits (f := 0x12) (w := 0) (p := p) (q := 0) (by decide)
    (by omega) (by omega) (by omega)
  refine ⟨_, rfl, h6, decodeScalar_of hw rfl ?_⟩
  have hr : ∀ x, bitsOf x 31 26 = 0x18 → bitsOf x 25 20 = 0x12 → scalarOf x = some (.cjal (bitsOf x 11 6)) := by
    intro x h1 h2
    unfold scalarOf
    rw [h1]
    show capOf x = _
    unfold capOf
    rw [h2]
    rfl
  rw [hr _ h1 h2, h4]

theorem cinci (d : Nat) (a : Nat) (imm : Int) : Statement (.cinci d a imm) := by
  intro hw
  have hw' : (cregOk d && cregOk a && immOk 14 imm) = true := hw
  simp only [cregOk, immOk, Bool.and_eq_true, decide_eq_true_eq] at hw'
  have := unsext_lt 14 imm
  have b0 : bitsOf (0x19 * 2 ^ 26 + d * 2 ^ 20 + a * 2 ^ 14 + unsext 14 imm) 31 26 = 0x19 := by
    unfold bitsOf
    omega
  have b1 : bitsOf (0x19 * 2 ^ 26 + d * 2 ^ 20 + a * 2 ^ 14 + unsext 14 imm) 25 20 = d := by
    unfold bitsOf
    omega
  have b2 : bitsOf (0x19 * 2 ^ 26 + d * 2 ^ 20 + a * 2 ^ 14 + unsext 14 imm) 19 14 = a := by
    unfold bitsOf
    omega
  have b3 : bitsOf (0x19 * 2 ^ 26 + d * 2 ^ 20 + a * 2 ^ 14 + unsext 14 imm) 13 0 = unsext 14 imm := by
    unfold bitsOf
    omega
  refine ⟨_, rfl, ?_, decodeScalar_of hw rfl ?_⟩
  · omega
  · have hr : ∀ x, bitsOf x 31 26 = 0x19 → scalarOf x = some (.cinci (bitsOf x 25 20) (bitsOf x 19 14) (sext 14
      (bitsOf x 13 0))) := by
      intro x h0
      unfold scalarOf
      rw [h0]
      rfl
    rw [hr _ b0, b1, b2, b3, sext_unsext14 (by omega)]

theorem ldI8 (d : Nat) (a : Nat) (tk : Option Nat) (off : Nat) : Statement (.ldI8 d a tk off) := by
  intro hw
  have hw' : (sregOk d && cregOk a && tkOk tk && off < 128) = true := hw
  simp only [sregOk, cregOk, Bool.and_eq_true, decide_eq_true_eq] at hw'
  obtain ⟨⟨⟨h0, h1⟩, h2⟩, h3⟩ := hw'
  exact scalar_sm (fun w h1 => by unfold scalarOf; rw [h1]; rfl) rfl hw (by decide) ⟨by omega, by omega, h2, by omega⟩

theorem ldN8 (d : Nat) (a : Nat) (tk : Option Nat) (off : Nat) : Statement (.ldN8 d a tk off) := by
  intro hw
  have hw' : (sregOk d && cregOk a && tkOk tk && off < 128) = true := hw
  simp only [sregOk, cregOk, Bool.and_eq_true, decide_eq_true_eq] at hw'
  obtain ⟨⟨⟨h0, h1⟩, h2⟩, h3⟩ := hw'
  exact scalar_sm (fun w h1 => by unfold scalarOf; rw [h1]; rfl) rfl hw (by decide) ⟨by omega, by omega, h2, by omega⟩

theorem ldI16 (d : Nat) (a : Nat) (tk : Option Nat) (off : Nat) : Statement (.ldI16 d a tk off) := by
  intro hw
  have hw' : (sregOk d && cregOk a && tkOk tk && off < 128) = true := hw
  simp only [sregOk, cregOk, Bool.and_eq_true, decide_eq_true_eq] at hw'
  obtain ⟨⟨⟨h0, h1⟩, h2⟩, h3⟩ := hw'
  exact scalar_sm (fun w h1 => by unfold scalarOf; rw [h1]; rfl) rfl hw (by decide) ⟨by omega, by omega, h2, by omega⟩

theorem ldN16 (d : Nat) (a : Nat) (tk : Option Nat) (off : Nat) : Statement (.ldN16 d a tk off) := by
  intro hw
  have hw' : (sregOk d && cregOk a && tkOk tk && off < 128) = true := hw
  simp only [sregOk, cregOk, Bool.and_eq_true, decide_eq_true_eq] at hw'
  obtain ⟨⟨⟨h0, h1⟩, h2⟩, h3⟩ := hw'
  exact scalar_sm (fun w h1 => by unfold scalarOf; rw [h1]; rfl) rfl hw (by decide) ⟨by omega, by omega, h2, by omega⟩

theorem ldN32 (d : Nat) (a : Nat) (tk : Option Nat) (off : Nat) : Statement (.ldN32 d a tk off) := by
  intro hw
  have hw' : (sregOk d && cregOk a && tkOk tk && off < 128) = true := hw
  simp only [sregOk, cregOk, Bool.and_eq_true, decide_eq_true_eq] at hw'
  obtain ⟨⟨⟨h0, h1⟩, h2⟩, h3⟩ := hw'
  exact scalar_sm (fun w h1 => by unfold scalarOf; rw [h1]; rfl) rfl hw (by decide) ⟨by omega, by omega, h2, by omega⟩

theorem ldN64 (d : Nat) (a : Nat) (tk : Option Nat) (off : Nat) : Statement (.ldN64 d a tk off) := by
  intro hw
  have hw' : (spairOk d && cregOk a && tkOk tk && off < 128) = true := hw
  simp only [spairOk, cregOk, Bool.and_eq_true, decide_eq_true_eq, beq_iff_eq] at hw'
  obtain ⟨⟨⟨h0, h1⟩, h2⟩, h3⟩ := hw'
  exact scalar_sm (fun w h1 => by unfold scalarOf; rw [h1]; rfl) rfl hw (by decide) ⟨by omega, by omega, h2, by omega⟩

theorem stN8 (d : Nat) (a : Nat) (tk : Option Nat) (off : Nat) : Statement (.stN8 d a tk off) := by
  intro hw
  have hw' : (sregOk d && cregOk a && tkOk tk && off < 128) = true := hw
  simp only [sregOk, cregOk, Bool.and_eq_true, decide_eq_true_eq] at hw'
  obtain ⟨⟨⟨h0, h1⟩, h2⟩, h3⟩ := hw'
  exact scalar_sm (fun w h1 => by unfold scalarOf; rw [h1]; rfl) rfl hw (by decide) ⟨by omega, by omega, h2, by omega⟩

theorem stN16 (d : Nat) (a : Nat) (tk : Option Nat) (off : Nat) : Statement (.stN16 d a tk off) := by
  intro hw
  have hw' : (sregOk d && cregOk a && tkOk tk && off < 128) = true := hw
  simp only [sregOk, cregOk, Bool.and_eq_true, decide_eq_true_eq] at hw'
  obtain ⟨⟨⟨h0, h1⟩, h2⟩, h3⟩ := hw'
  exact scalar_sm (fun w h1 => by unfold scalarOf; rw [h1]; rfl) rfl hw (by decide) ⟨by omega, by omega, h2, by omega⟩

theorem stN32 (d : Nat) (a : Nat) (tk : Option Nat) (off : Nat) : Statement (.stN32 d a tk off) := by
  intro hw
  have hw' : (sregOk d && cregOk a && tkOk tk && off < 128) = true := hw
  simp only [sregOk, cregOk, Bool.and_eq_true, decide_eq_true_eq] at hw'
  obtain ⟨⟨⟨h0, h1⟩, h2⟩, h3⟩ := hw'
  exact scalar_sm (fun w h1 => by unfold scalarOf; rw [h1]; rfl) rfl hw (by decide) ⟨by omega, by omega, h2, by omega⟩

theorem stN64 (d : Nat) (a : Nat) (tk : Option Nat) (off : Nat) : Statement (.stN64 d a tk off) := by
  intro hw
  have hw' : (spairOk d && cregOk a && tkOk tk && off < 128) = true := hw
  simp only [spairOk, cregOk, Bool.and_eq_true, decide_eq_true_eq, beq_iff_eq] at hw'
  obtain ⟨⟨⟨h0, h1⟩, h2⟩, h3⟩ := hw'
  exact scalar_sm (fun w h1 => by unfold scalarOf; rw [h1]; rfl) rfl hw (by decide) ⟨by omega, by omega, h2, by omega⟩

theorem ldc (d : Nat) (a : Nat) (tk : Option Nat) (off : Nat) : Statement (.ldc d a tk off) := by
  intro hw
  have hw' : (cregOk d && cregOk a && tkOk tk && off < 128) = true := hw
  simp only [cregOk, Bool.and_eq_true, decide_eq_true_eq] at hw'
  obtain ⟨⟨⟨h0, h1⟩, h2⟩, h3⟩ := hw'
  exact scalar_sm (fun w h1 => by unfold scalarOf; rw [h1]; rfl) rfl hw (by decide) ⟨by omega, by omega, h2, by omega⟩

theorem stc (d : Nat) (a : Nat) (tk : Option Nat) (off : Nat) : Statement (.stc d a tk off) := by
  intro hw
  have hw' : (cregOk d && cregOk a && tkOk tk && off < 128) = true := hw
  simp only [cregOk, Bool.and_eq_true, decide_eq_true_eq] at hw'
  obtain ⟨⟨⟨h0, h1⟩, h2⟩, h3⟩ := hw'
  exact scalar_sm (fun w h1 => by unfold scalarOf; rw [h1]; rfl) rfl hw (by decide) ⟨by omega, by omega, h2, by omega⟩

theorem ldxN8 (d : Nat) (a : Nat) (tk : Option Nat) (ord : Ord) (scope : Scope) : Statement (.ldxN8 d a tk ord scope)
    := by
  intro hw
  have hw' : (sregOk d && cregOk a && tkOk tk && ord.okLoad) = true := hw
  simp only [sregOk, cregOk, Bool.and_eq_true, decide_eq_true_eq] at hw'
  obtain ⟨⟨⟨h0, h1⟩, h2⟩, h3⟩ := hw'
  exact scalar_smx (fun w h1 h2 => by unfold scalarOf; rw [h1, h2]; rfl) rfl hw (by decide) (by decide) ⟨by omega, by
      omega, h2⟩

theorem ldxN16 (d : Nat) (a : Nat) (tk : Option Nat) (ord : Ord) (scope : Scope) : Statement (.ldxN16 d a tk ord
    scope) := by
  intro hw
  have hw' : (sregOk d && cregOk a && tkOk tk && ord.okLoad) = true := hw
  simp only [sregOk, cregOk, Bool.and_eq_true, decide_eq_true_eq] at hw'
  obtain ⟨⟨⟨h0, h1⟩, h2⟩, h3⟩ := hw'
  exact scalar_smx (fun w h1 h2 => by unfold scalarOf; rw [h1, h2]; rfl) rfl hw (by decide) (by decide) ⟨by omega, by
      omega, h2⟩

theorem ldxN32 (d : Nat) (a : Nat) (tk : Option Nat) (ord : Ord) (scope : Scope) : Statement (.ldxN32 d a tk ord
    scope) := by
  intro hw
  have hw' : (sregOk d && cregOk a && tkOk tk && ord.okLoad) = true := hw
  simp only [sregOk, cregOk, Bool.and_eq_true, decide_eq_true_eq] at hw'
  obtain ⟨⟨⟨h0, h1⟩, h2⟩, h3⟩ := hw'
  exact scalar_smx (fun w h1 h2 => by unfold scalarOf; rw [h1, h2]; rfl) rfl hw (by decide) (by decide) ⟨by omega, by
      omega, h2⟩

theorem ldxN64 (d : Nat) (a : Nat) (tk : Option Nat) (ord : Ord) (scope : Scope) : Statement (.ldxN64 d a tk ord
    scope) := by
  intro hw
  have hw' : (spairOk d && cregOk a && tkOk tk && ord.okLoad) = true := hw
  simp only [spairOk, cregOk, Bool.and_eq_true, decide_eq_true_eq, beq_iff_eq] at hw'
  obtain ⟨⟨⟨h0, h1⟩, h2⟩, h3⟩ := hw'
  exact scalar_smx (fun w h1 h2 => by unfold scalarOf; rw [h1, h2]; rfl) rfl hw (by decide) (by decide) ⟨by omega, by
      omega, h2⟩

theorem stxN8 (d : Nat) (a : Nat) (tk : Option Nat) (ord : Ord) (scope : Scope) : Statement (.stxN8 d a tk ord scope)
    := by
  intro hw
  have hw' : (sregOk d && cregOk a && tkOk tk && ord.okStore) = true := hw
  simp only [sregOk, cregOk, Bool.and_eq_true, decide_eq_true_eq] at hw'
  obtain ⟨⟨⟨h0, h1⟩, h2⟩, h3⟩ := hw'
  exact scalar_smx (fun w h1 h2 => by unfold scalarOf; rw [h1, h2]; rfl) rfl hw (by decide) (by decide) ⟨by omega, by
      omega, h2⟩

theorem stxN16 (d : Nat) (a : Nat) (tk : Option Nat) (ord : Ord) (scope : Scope) : Statement (.stxN16 d a tk ord
    scope) := by
  intro hw
  have hw' : (sregOk d && cregOk a && tkOk tk && ord.okStore) = true := hw
  simp only [sregOk, cregOk, Bool.and_eq_true, decide_eq_true_eq] at hw'
  obtain ⟨⟨⟨h0, h1⟩, h2⟩, h3⟩ := hw'
  exact scalar_smx (fun w h1 h2 => by unfold scalarOf; rw [h1, h2]; rfl) rfl hw (by decide) (by decide) ⟨by omega, by
      omega, h2⟩

theorem stxN32 (d : Nat) (a : Nat) (tk : Option Nat) (ord : Ord) (scope : Scope) : Statement (.stxN32 d a tk ord
    scope) := by
  intro hw
  have hw' : (sregOk d && cregOk a && tkOk tk && ord.okStore) = true := hw
  simp only [sregOk, cregOk, Bool.and_eq_true, decide_eq_true_eq] at hw'
  obtain ⟨⟨⟨h0, h1⟩, h2⟩, h3⟩ := hw'
  exact scalar_smx (fun w h1 h2 => by unfold scalarOf; rw [h1, h2]; rfl) rfl hw (by decide) (by decide) ⟨by omega, by
      omega, h2⟩

theorem stxN64 (d : Nat) (a : Nat) (tk : Option Nat) (ord : Ord) (scope : Scope) : Statement (.stxN64 d a tk ord
    scope) := by
  intro hw
  have hw' : (spairOk d && cregOk a && tkOk tk && ord.okStore) = true := hw
  simp only [spairOk, cregOk, Bool.and_eq_true, decide_eq_true_eq, beq_iff_eq] at hw'
  obtain ⟨⟨⟨h0, h1⟩, h2⟩, h3⟩ := hw'
  exact scalar_smx (fun w h1 h2 => by unfold scalarOf; rw [h1, h2]; rfl) rfl hw (by decide) (by decide) ⟨by omega, by
      omega, h2⟩

theorem ldcx (d : Nat) (a : Nat) (tk : Option Nat) (ord : Ord) (scope : Scope) : Statement (.ldcx d a tk ord scope)
    := by
  intro hw
  have hw' : (cregOk d && cregOk a && tkOk tk && ord.okLoad) = true := hw
  simp only [cregOk, Bool.and_eq_true, decide_eq_true_eq] at hw'
  obtain ⟨⟨⟨h0, h1⟩, h2⟩, h3⟩ := hw'
  exact scalar_smx (fun w h1 h2 => by unfold scalarOf; rw [h1, h2]; rfl) rfl hw (by decide) (by decide) ⟨by omega, by
      omega, h2⟩

theorem stcx (d : Nat) (a : Nat) (tk : Option Nat) (ord : Ord) (scope : Scope) : Statement (.stcx d a tk ord scope)
    := by
  intro hw
  have hw' : (cregOk d && cregOk a && tkOk tk && ord.okStore) = true := hw
  simp only [cregOk, Bool.and_eq_true, decide_eq_true_eq] at hw'
  obtain ⟨⟨⟨h0, h1⟩, h2⟩, h3⟩ := hw'
  exact scalar_smx (fun w h1 h2 => by unfold scalarOf; rw [h1, h2]; rfl) rfl hw (by decide) (by decide) ⟨by omega, by
      omega, h2⟩

theorem amoAddN32 (d : Nat) (a : Nat) (tk : Option Nat) (ord : Ord) (scope : Scope) : Statement (.amoAddN32 d a tk
    ord scope) := by
  intro hw
  have hw' : (sregOk d && cregOk a && tkOk tk) = true := hw
  simp only [sregOk, cregOk, Bool.and_eq_true, decide_eq_true_eq] at hw'
  obtain ⟨⟨h0, h1⟩, h2⟩ := hw'
  exact scalar_smx (fun w h1 h2 => by unfold scalarOf; rw [h1, h2]; rfl) rfl hw (by decide) (by decide) ⟨by omega, by
      omega, h2⟩

theorem amoAndN32 (d : Nat) (a : Nat) (tk : Option Nat) (ord : Ord) (scope : Scope) : Statement (.amoAndN32 d a tk
    ord scope) := by
  intro hw
  have hw' : (sregOk d && cregOk a && tkOk tk) = true := hw
  simp only [sregOk, cregOk, Bool.and_eq_true, decide_eq_true_eq] at hw'
  obtain ⟨⟨h0, h1⟩, h2⟩ := hw'
  exact scalar_smx (fun w h1 h2 => by unfold scalarOf; rw [h1, h2]; rfl) rfl hw (by decide) (by decide) ⟨by omega, by
      omega, h2⟩

theorem amoOrN32 (d : Nat) (a : Nat) (tk : Option Nat) (ord : Ord) (scope : Scope) : Statement (.amoOrN32 d a tk ord
    scope) := by
  intro hw
  have hw' : (sregOk d && cregOk a && tkOk tk) = true := hw
  simp only [sregOk, cregOk, Bool.and_eq_true, decide_eq_true_eq] at hw'
  obtain ⟨⟨h0, h1⟩, h2⟩ := hw'
  exact scalar_smx (fun w h1 h2 => by unfold scalarOf; rw [h1, h2]; rfl) rfl hw (by decide) (by decide) ⟨by omega, by
      omega, h2⟩

theorem amoXorN32 (d : Nat) (a : Nat) (tk : Option Nat) (ord : Ord) (scope : Scope) : Statement (.amoXorN32 d a tk
    ord scope) := by
  intro hw
  have hw' : (sregOk d && cregOk a && tkOk tk) = true := hw
  simp only [sregOk, cregOk, Bool.and_eq_true, decide_eq_true_eq] at hw'
  obtain ⟨⟨h0, h1⟩, h2⟩ := hw'
  exact scalar_smx (fun w h1 h2 => by unfold scalarOf; rw [h1, h2]; rfl) rfl hw (by decide) (by decide) ⟨by omega, by
      omega, h2⟩

theorem amoMinI32 (d : Nat) (a : Nat) (tk : Option Nat) (ord : Ord) (scope : Scope) : Statement (.amoMinI32 d a tk
    ord scope) := by
  intro hw
  have hw' : (sregOk d && cregOk a && tkOk tk) = true := hw
  simp only [sregOk, cregOk, Bool.and_eq_true, decide_eq_true_eq] at hw'
  obtain ⟨⟨h0, h1⟩, h2⟩ := hw'
  exact scalar_smx (fun w h1 h2 => by unfold scalarOf; rw [h1, h2]; rfl) rfl hw (by decide) (by decide) ⟨by omega, by
      omega, h2⟩

theorem amoMaxI32 (d : Nat) (a : Nat) (tk : Option Nat) (ord : Ord) (scope : Scope) : Statement (.amoMaxI32 d a tk
    ord scope) := by
  intro hw
  have hw' : (sregOk d && cregOk a && tkOk tk) = true := hw
  simp only [sregOk, cregOk, Bool.and_eq_true, decide_eq_true_eq] at hw'
  obtain ⟨⟨h0, h1⟩, h2⟩ := hw'
  exact scalar_smx (fun w h1 h2 => by unfold scalarOf; rw [h1, h2]; rfl) rfl hw (by decide) (by decide) ⟨by omega, by
      omega, h2⟩

theorem amoMinN32 (d : Nat) (a : Nat) (tk : Option Nat) (ord : Ord) (scope : Scope) : Statement (.amoMinN32 d a tk
    ord scope) := by
  intro hw
  have hw' : (sregOk d && cregOk a && tkOk tk) = true := hw
  simp only [sregOk, cregOk, Bool.and_eq_true, decide_eq_true_eq] at hw'
  obtain ⟨⟨h0, h1⟩, h2⟩ := hw'
  exact scalar_smx (fun w h1 h2 => by unfold scalarOf; rw [h1, h2]; rfl) rfl hw (by decide) (by decide) ⟨by omega, by
      omega, h2⟩

theorem amoMaxN32 (d : Nat) (a : Nat) (tk : Option Nat) (ord : Ord) (scope : Scope) : Statement (.amoMaxN32 d a tk
    ord scope) := by
  intro hw
  have hw' : (sregOk d && cregOk a && tkOk tk) = true := hw
  simp only [sregOk, cregOk, Bool.and_eq_true, decide_eq_true_eq] at hw'
  obtain ⟨⟨h0, h1⟩, h2⟩ := hw'
  exact scalar_smx (fun w h1 h2 => by unfold scalarOf; rw [h1, h2]; rfl) rfl hw (by decide) (by decide) ⟨by omega, by
      omega, h2⟩

theorem amoSwapN32 (d : Nat) (a : Nat) (tk : Option Nat) (ord : Ord) (scope : Scope) : Statement (.amoSwapN32 d a tk
    ord scope) := by
  intro hw
  have hw' : (sregOk d && cregOk a && tkOk tk) = true := hw
  simp only [sregOk, cregOk, Bool.and_eq_true, decide_eq_true_eq] at hw'
  obtain ⟨⟨h0, h1⟩, h2⟩ := hw'
  exact scalar_smx (fun w h1 h2 => by unfold scalarOf; rw [h1, h2]; rfl) rfl hw (by decide) (by decide) ⟨by omega, by
      omega, h2⟩

theorem amoCasN32 (d : Nat) (a : Nat) (tk : Option Nat) (ord : Ord) (scope : Scope) : Statement (.amoCasN32 d a tk
    ord scope) := by
  intro hw
  have hw' : (spairOk d && cregOk a && tkOk tk) = true := hw
  simp only [spairOk, cregOk, Bool.and_eq_true, decide_eq_true_eq, beq_iff_eq] at hw'
  obtain ⟨⟨h0, h1⟩, h2⟩ := hw'
  exact scalar_smx (fun w h1 h2 => by unfold scalarOf; rw [h1, h2]; rfl) rfl hw (by decide) (by decide) ⟨by omega, by
      omega, h2⟩

theorem amoSwapN64 (d : Nat) (a : Nat) (tk : Option Nat) (ord : Ord) (scope : Scope) : Statement (.amoSwapN64 d a tk
    ord scope) := by
  intro hw
  have hw' : (spairOk d && cregOk a && tkOk tk) = true := hw
  simp only [spairOk, cregOk, Bool.and_eq_true, decide_eq_true_eq, beq_iff_eq] at hw'
  obtain ⟨⟨h0, h1⟩, h2⟩ := hw'
  exact scalar_smx (fun w h1 h2 => by unfold scalarOf; rw [h1, h2]; rfl) rfl hw (by decide) (by decide) ⟨by omega, by
      omega, h2⟩

theorem amoCasN64 (d : Nat) (a : Nat) (tk : Option Nat) (ord : Ord) (scope : Scope) : Statement (.amoCasN64 d a tk
    ord scope) := by
  intro hw
  have hw' : (d < 160 && d % 4 == 0 && cregOk a && tkOk tk) = true := hw
  simp only [cregOk, Bool.and_eq_true, decide_eq_true_eq, beq_iff_eq] at hw'
  obtain ⟨⟨⟨h0, h1⟩, h2⟩, h3⟩ := hw'
  exact scalar_smx (fun w h1 h2 => by unfold scalarOf; rw [h1, h2]; rfl) rfl hw (by decide) (by decide) ⟨by omega, by
      omega, h3⟩

theorem amoAddN64 (d : Nat) (a : Nat) (tk : Option Nat) (ord : Ord) (scope : Scope) : Statement (.amoAddN64 d a tk
    ord scope) := by
  intro hw
  have hw' : (spairOk d && cregOk a && tkOk tk) = true := hw
  simp only [spairOk, cregOk, Bool.and_eq_true, decide_eq_true_eq, beq_iff_eq] at hw'
  obtain ⟨⟨h0, h1⟩, h2⟩ := hw'
  exact scalar_smx (fun w h1 h2 => by unfold scalarOf; rw [h1, h2]; rfl) rfl hw (by decide) (by decide) ⟨by omega, by
      omega, h2⟩

theorem fence (ord : Ord) (scope : Scope) : Statement (.fence ord scope) := by
  intro hw
  have hw' : (ord.okFence) = true := hw
  have := ord_lt ord
  have := scope_lt scope
  have b0 : bitsOf (0x2D * 2 ^ 26 + ord.code * 2 ^ 24 + scope.code * 2 ^ 21) 31 26 = 0x2D := by
    unfold bitsOf
    omega
  have b1 : bitsOf (0x2D * 2 ^ 26 + ord.code * 2 ^ 24 + scope.code * 2 ^ 21) 25 24 = ord.code := by
    unfold bitsOf
    omega
  have b2 : bitsOf (0x2D * 2 ^ 26 + ord.code * 2 ^ 24 + scope.code * 2 ^ 21) 23 21 = scope.code := by
    unfold bitsOf
    omega
  refine ⟨_, rfl, ?_, decodeScalar_of hw rfl ?_⟩
  · omega
  · have hr : ∀ x, bitsOf x 31 26 = 0x2D → bitsOf x 25 24 = ord.code → bitsOf x 23 21 = scope.code → scalarOf x =
      some (.fence ord scope) := by
      intro x h0 h1 h2
      unfold scalarOf
      rw [h0]
      show (match Ord.ofCode (bitsOf x 25 24), Scope.ofCode (bitsOf x 23 21) with
        | some o, some s => some (Instr.fence o s)
        | _, _ => none) = _
      rw [h1, h2, ord_code, scope_code]
    rw [hr _ b0 b1 b2]

theorem lrun (tk : Option Nat) (a : Nat) (count : Nat) (off : Int) : Statement (.lrun tk a count off) := by
  intro hw
  have hw' : (tkOk tk && cregOk a && 1 ≤ count && count ≤ 256 && immOk 7 off) = true := hw
  simp only [cregOk, immOk, Bool.and_eq_true, decide_eq_true_eq] at hw'
  have := tkEnc_lt (t := tk) (by tauto)
  have := unsext_lt 7 off
  have b0 : bitsOf (0x2E * 2 ^ 26 + tkEnc tk * 2 ^ 21 + a * 2 ^ 15 + (count - 1) * 2 ^ 7 + unsext 7 off) 31 26 = 0x2E
      := by
    unfold bitsOf
    omega
  have b1 : bitsOf (0x2E * 2 ^ 26 + tkEnc tk * 2 ^ 21 + a * 2 ^ 15 + (count - 1) * 2 ^ 7 + unsext 7 off) 25 21 =
      tkEnc tk := by
    unfold bitsOf
    omega
  have b2 : bitsOf (0x2E * 2 ^ 26 + tkEnc tk * 2 ^ 21 + a * 2 ^ 15 + (count - 1) * 2 ^ 7 + unsext 7 off) 20 15 = a :=
      by
    unfold bitsOf
    omega
  have b3 : bitsOf (0x2E * 2 ^ 26 + tkEnc tk * 2 ^ 21 + a * 2 ^ 15 + (count - 1) * 2 ^ 7 + unsext 7 off) 14 7 = count
      - 1 := by
    unfold bitsOf
    omega
  have b4 : bitsOf (0x2E * 2 ^ 26 + tkEnc tk * 2 ^ 21 + a * 2 ^ 15 + (count - 1) * 2 ^ 7 + unsext 7 off) 6 0 = unsext
      7 off := by
    unfold bitsOf
    omega
  refine ⟨_, rfl, ?_, decodeScalar_of hw rfl ?_⟩
  · omega
  · have hr : ∀ x, bitsOf x 31 26 = 0x2E → scalarOf x = some (.lrun (tkOf (bitsOf x 25 21)) (bitsOf x 20 15) (bitsOf
      x 14 7 + 1) (sext 7 (bitsOf x 6 0))) := by
      intro x h0
      unfold scalarOf
      rw [h0]
      rfl
    rw [hr _ b0, b1, b2, b3, b4, tkOf_tkEnc, sext_unsext7 (by omega), show count - 1 + 1 = count by omega]

theorem emr (d : Nat) : Statement (.emr d) := by
  intro hw
  have hw' : (sregOk d) = true := hw
  simp only [sregOk, decide_eq_true_eq] at hw'
  obtain ⟨h1, h2, h3, -, h5, h6⟩ := encSR_bits (op := 0x2F) (d := d) (a := 0) (b := 0) (f := 0) (by decide)
    (by omega) (by omega) (by decide) (by decide)
  refine ⟨_, rfl, h6, decodeScalar_of hw rfl ?_⟩
  rw [show scalarOf (encSR 0x2F d 0 0 0) = some (.emr (bitsOf (encSR 0x2F d 0 0 0) 25 18)) from by
    unfold scalarOf; rw [h1, h5]; rfl, h2]

theorem emw (a : Nat) : Statement (.emw a) := by
  intro hw
  have hw' : (sregOk a) = true := hw
  simp only [sregOk, decide_eq_true_eq] at hw'
  obtain ⟨h1, h2, h3, -, h5, h6⟩ := encSR_bits (op := 0x2F) (d := 0) (a := a) (b := 0) (f := 1) (by decide)
    (by omega) (by omega) (by decide) (by decide)
  refine ⟨_, rfl, h6, decodeScalar_of hw rfl ?_⟩
  rw [show scalarOf (encSR 0x2F 0 a 0 1) = some (.emw (bitsOf (encSR 0x2F 0 a 0 1) 17 10)) from by
    unfold scalarOf; rw [h1, h5]; rfl, h3]

theorem lmr (d : Nat) : Statement (.lmr d) := by
  intro hw
  have hw' : (sregOk d) = true := hw
  simp only [sregOk, decide_eq_true_eq] at hw'
  obtain ⟨h1, h2, h3, -, h5, h6⟩ := encSR_bits (op := 0x2F) (d := d) (a := 0) (b := 0) (f := 2) (by decide)
    (by omega) (by omega) (by decide) (by decide)
  refine ⟨_, rfl, h6, decodeScalar_of hw rfl ?_⟩
  rw [show scalarOf (encSR 0x2F d 0 0 2) = some (.lmr (bitsOf (encSR 0x2F d 0 0 2) 25 18)) from by
    unfold scalarOf; rw [h1, h5]; rfl, h2]

theorem bar (obj : Nat) (flush : Bool) : Statement (.bar obj flush) := by
  intro hw
  have hw' : (decide (obj < 16)) = true := hw
  simp only [decide_eq_true_eq] at hw'
  have := boolEnc_lt flush
  have b0 : bitsOf (0x30 * 2 ^ 26 + obj * 2 ^ 22 + 0 * 2 ^ 20 + boolEnc flush * 2 ^ 19) 31 26 = 0x30 := by
    unfold bitsOf
    omega
  have b1 : bitsOf (0x30 * 2 ^ 26 + obj * 2 ^ 22 + 0 * 2 ^ 20 + boolEnc flush * 2 ^ 19) 25 22 = obj := by
    unfold bitsOf
    omega
  have b2 : bitsOf (0x30 * 2 ^ 26 + obj * 2 ^ 22 + 0 * 2 ^ 20 + boolEnc flush * 2 ^ 19) 21 20 = 0 := by
    unfold bitsOf
    omega
  have b3 : bitsOf (0x30 * 2 ^ 26 + obj * 2 ^ 22 + 0 * 2 ^ 20 + boolEnc flush * 2 ^ 19) 19 19 = boolEnc flush := by
    unfold bitsOf
    omega
  refine ⟨_, rfl, ?_, decodeScalar_of hw rfl ?_⟩
  · omega
  · have hr : ∀ x, bitsOf x 31 26 = 0x30 → bitsOf x 21 20 = 0 → scalarOf x = some (.bar (bitsOf x 25 22) (boolOf
      (bitsOf x 19 19))) := by
      intro x h0 h1
      unfold scalarOf
      rw [h0]
      rw [h1]
      rfl
    rw [hr _ b0 b2, b1, b3, boolOf_boolEnc]

theorem barArrive (obj : Nat) (flush : Bool) : Statement (.barArrive obj flush) := by
  intro hw
  have hw' : (decide (obj < 16)) = true := hw
  simp only [decide_eq_true_eq] at hw'
  have := boolEnc_lt flush
  have b0 : bitsOf (0x30 * 2 ^ 26 + obj * 2 ^ 22 + 1 * 2 ^ 20 + boolEnc flush * 2 ^ 19) 31 26 = 0x30 := by
    unfold bitsOf
    omega
  have b1 : bitsOf (0x30 * 2 ^ 26 + obj * 2 ^ 22 + 1 * 2 ^ 20 + boolEnc flush * 2 ^ 19) 25 22 = obj := by
    unfold bitsOf
    omega
  have b2 : bitsOf (0x30 * 2 ^ 26 + obj * 2 ^ 22 + 1 * 2 ^ 20 + boolEnc flush * 2 ^ 19) 21 20 = 1 := by
    unfold bitsOf
    omega
  have b3 : bitsOf (0x30 * 2 ^ 26 + obj * 2 ^ 22 + 1 * 2 ^ 20 + boolEnc flush * 2 ^ 19) 19 19 = boolEnc flush := by
    unfold bitsOf
    omega
  refine ⟨_, rfl, ?_, decodeScalar_of hw rfl ?_⟩
  · omega
  · have hr : ∀ x, bitsOf x 31 26 = 0x30 → bitsOf x 21 20 = 1 → scalarOf x = some (.barArrive (bitsOf x 25 22)
      (boolOf (bitsOf x 19 19))) := by
      intro x h0 h1
      unfold scalarOf
      rw [h0]
      rw [h1]
      rfl
    rw [hr _ b0 b2, b1, b3, boolOf_boolEnc]

theorem barWait (obj : Nat) : Statement (.barWait obj) := by
  intro hw
  have hw' : (decide (obj < 16)) = true := hw
  simp only [decide_eq_true_eq] at hw'
  have b0 : bitsOf (0x30 * 2 ^ 26 + obj * 2 ^ 22 + 2 * 2 ^ 20) 31 26 = 0x30 := by
    unfold bitsOf
    omega
  have b1 : bitsOf (0x30 * 2 ^ 26 + obj * 2 ^ 22 + 2 * 2 ^ 20) 25 22 = obj := by
    unfold bitsOf
    omega
  have b2 : bitsOf (0x30 * 2 ^ 26 + obj * 2 ^ 22 + 2 * 2 ^ 20) 21 20 = 2 := by
    unfold bitsOf
    omega
  refine ⟨_, rfl, ?_, decodeScalar_of hw rfl ?_⟩
  · omega
  · have hr : ∀ x, bitsOf x 31 26 = 0x30 → bitsOf x 21 20 = 2 → scalarOf x = some (.barWait (bitsOf x 25 22)) := by
      intro x h0 h1
      unfold scalarOf
      rw [h0]
      rw [h1]
      rfl
    rw [hr _ b0 b2, b1]

theorem wtok (tk : Nat) (thr : Nat) : Statement (.wtok tk thr) := by
  intro hw
  have hw' : (tk < 16 && thr < 2 ^ 16) = true := hw
  simp only [Bool.and_eq_true, decide_eq_true_eq] at hw'
  have b0 : bitsOf (0x31 * 2 ^ 26 + 0 * 2 ^ 24 + tk * 2 ^ 20 + thr) 31 26 = 0x31 := by
    unfold bitsOf
    omega
  have b1 : bitsOf (0x31 * 2 ^ 26 + 0 * 2 ^ 24 + tk * 2 ^ 20 + thr) 25 24 = 0 := by
    unfold bitsOf
    omega
  have b2 : bitsOf (0x31 * 2 ^ 26 + 0 * 2 ^ 24 + tk * 2 ^ 20 + thr) 19 19 = 0 := by
    unfold bitsOf
    omega
  have b3 : bitsOf (0x31 * 2 ^ 26 + 0 * 2 ^ 24 + tk * 2 ^ 20 + thr) 23 20 = tk := by
    unfold bitsOf
    omega
  have b4 : bitsOf (0x31 * 2 ^ 26 + 0 * 2 ^ 24 + tk * 2 ^ 20 + thr) 15 0 = thr := by
    unfold bitsOf
    omega
  refine ⟨_, rfl, ?_, decodeScalar_of hw rfl ?_⟩
  · omega
  · have hr : ∀ x, bitsOf x 31 26 = 0x31 → bitsOf x 25 24 = 0 → bitsOf x 19 19 = 0 → scalarOf x = some (.wtok (bitsOf
      x 23 20) (bitsOf x 15 0)) := by
      intro x h0 h1 h2
      unfold scalarOf
      rw [h0]
      show tokenOf x = _
      unfold tokenOf
      rw [h1, h2]
      rfl
    rw [hr _ b0 b1 b2, b3, b4]

theorem wtokReg (tk : Nat) (b : Nat) : Statement (.wtokReg tk b) := by
  intro hw
  have hw' : (tk < 16 && sregOk b) = true := hw
  simp only [sregOk, Bool.and_eq_true, decide_eq_true_eq] at hw'
  have b0 : bitsOf (0x31 * 2 ^ 26 + 0 * 2 ^ 24 + tk * 2 ^ 20 + 1 * 2 ^ 19 + b) 31 26 = 0x31 := by
    unfold bitsOf
    omega
  have b1 : bitsOf (0x31 * 2 ^ 26 + 0 * 2 ^ 24 + tk * 2 ^ 20 + 1 * 2 ^ 19 + b) 25 24 = 0 := by
    unfold bitsOf
    omega
  have b2 : bitsOf (0x31 * 2 ^ 26 + 0 * 2 ^ 24 + tk * 2 ^ 20 + 1 * 2 ^ 19 + b) 19 19 = 1 := by
    unfold bitsOf
    omega
  have b3 : bitsOf (0x31 * 2 ^ 26 + 0 * 2 ^ 24 + tk * 2 ^ 20 + 1 * 2 ^ 19 + b) 23 20 = tk := by
    unfold bitsOf
    omega
  have b4 : bitsOf (0x31 * 2 ^ 26 + 0 * 2 ^ 24 + tk * 2 ^ 20 + 1 * 2 ^ 19 + b) 7 0 = b := by
    unfold bitsOf
    omega
  refine ⟨_, rfl, ?_, decodeScalar_of hw rfl ?_⟩
  · omega
  · have hr : ∀ x, bitsOf x 31 26 = 0x31 → bitsOf x 25 24 = 0 → bitsOf x 19 19 = 1 → scalarOf x = some (.wtokReg
      (bitsOf x 23 20) (bitsOf x 7 0)) := by
      intro x h0 h1 h2
      unfold scalarOf
      rw [h0]
      show tokenOf x = _
      unfold tokenOf
      rw [h1, h2]
      rfl
    rw [hr _ b0 b1 b2, b3, b4]

theorem tkr (tk : Nat) (d : Nat) : Statement (.tkr tk d) := by
  intro hw
  have hw' : (tk < 16 && sregOk d) = true := hw
  simp only [sregOk, Bool.and_eq_true, decide_eq_true_eq] at hw'
  have b0 : bitsOf (0x31 * 2 ^ 26 + 1 * 2 ^ 24 + tk * 2 ^ 20 + d) 31 26 = 0x31 := by
    unfold bitsOf
    omega
  have b1 : bitsOf (0x31 * 2 ^ 26 + 1 * 2 ^ 24 + tk * 2 ^ 20 + d) 25 24 = 1 := by
    unfold bitsOf
    omega
  have b2 : bitsOf (0x31 * 2 ^ 26 + 1 * 2 ^ 24 + tk * 2 ^ 20 + d) 23 20 = tk := by
    unfold bitsOf
    omega
  have b3 : bitsOf (0x31 * 2 ^ 26 + 1 * 2 ^ 24 + tk * 2 ^ 20 + d) 7 0 = d := by
    unfold bitsOf
    omega
  refine ⟨_, rfl, ?_, decodeScalar_of hw rfl ?_⟩
  · omega
  · have hr : ∀ x, bitsOf x 31 26 = 0x31 → bitsOf x 25 24 = 1 → scalarOf x = some (.tkr (bitsOf x 23 20) (bitsOf x 7
      0)) := by
      intro x h0 h1
      unfold scalarOf
      rw [h0]
      show tokenOf x = _
      unfold tokenOf
      rw [h1]
      rfl
    rw [hr _ b0 b1, b2, b3]

theorem pause (n : Nat) : Statement (.pause n) := by
  intro hw
  have hw' : (1 ≤ n && n ≤ 64) = true := hw
  simp only [Bool.and_eq_true, decide_eq_true_eq] at hw'
  have b0 : bitsOf (0x31 * 2 ^ 26 + 2 * 2 ^ 24 + (n - 1)) 31 26 = 0x31 := by
    unfold bitsOf
    omega
  have b1 : bitsOf (0x31 * 2 ^ 26 + 2 * 2 ^ 24 + (n - 1)) 25 24 = 2 := by
    unfold bitsOf
    omega
  have b2 : bitsOf (0x31 * 2 ^ 26 + 2 * 2 ^ 24 + (n - 1)) 5 0 = n - 1 := by
    unfold bitsOf
    omega
  refine ⟨_, rfl, ?_, decodeScalar_of hw rfl ?_⟩
  · omega
  · have hr : ∀ x, bitsOf x 31 26 = 0x31 → bitsOf x 25 24 = 2 → scalarOf x = some (.pause (bitsOf x 5 0 + 1)) := by
      intro x h0 h1
      unfold scalarOf
      rw [h0]
      show tokenOf x = _
      unfold tokenOf
      rw [h1]
      rfl
    rw [hr _ b0 b1, b2, show n - 1 + 1 = n by omega]

theorem dly (n : Nat) : Statement (.dly n) := by
  intro hw
  have hw' : (1 ≤ n && n ≤ 64) = true := hw
  simp only [Bool.and_eq_true, decide_eq_true_eq] at hw'
  have b0 : bitsOf (0x31 * 2 ^ 26 + 3 * 2 ^ 24 + (n - 1)) 31 26 = 0x31 := by
    unfold bitsOf
    omega
  have b1 : bitsOf (0x31 * 2 ^ 26 + 3 * 2 ^ 24 + (n - 1)) 25 24 = 3 := by
    unfold bitsOf
    omega
  have b2 : bitsOf (0x31 * 2 ^ 26 + 3 * 2 ^ 24 + (n - 1)) 5 0 = n - 1 := by
    unfold bitsOf
    omega
  refine ⟨_, rfl, ?_, decodeScalar_of hw rfl ?_⟩
  · omega
  · have hr : ∀ x, bitsOf x 31 26 = 0x31 → bitsOf x 25 24 = 3 → scalarOf x = some (.dly (bitsOf x 5 0 + 1)) := by
      intro x h0 h1
      unfold scalarOf
      rw [h0]
      show tokenOf x = _
      unfold tokenOf
      rw [h1]
      rfl
    rw [hr _ b0 b1, b2, show n - 1 + 1 = n by omega]

theorem yld (tk : Nat) (r : Nat) (off : Int) : Statement (.yld tk r off) := by
  intro hw
  have hw' : (tk < 16 && sregOk r && immOk 14 off) = true := hw
  simp only [sregOk, immOk, Bool.and_eq_true, decide_eq_true_eq] at hw'
  have := unsext_lt 14 off
  have b0 : bitsOf (0x32 * 2 ^ 26 + tk * 2 ^ 22 + r * 2 ^ 14 + unsext 14 off) 31 26 = 0x32 := by
    unfold bitsOf
    omega
  have b1 : bitsOf (0x32 * 2 ^ 26 + tk * 2 ^ 22 + r * 2 ^ 14 + unsext 14 off) 25 22 = tk := by
    unfold bitsOf
    omega
  have b2 : bitsOf (0x32 * 2 ^ 26 + tk * 2 ^ 22 + r * 2 ^ 14 + unsext 14 off) 21 14 = r := by
    unfold bitsOf
    omega
  have b3 : bitsOf (0x32 * 2 ^ 26 + tk * 2 ^ 22 + r * 2 ^ 14 + unsext 14 off) 13 0 = unsext 14 off := by
    unfold bitsOf
    omega
  refine ⟨_, rfl, ?_, decodeScalar_of hw rfl ?_⟩
  · omega
  · have hr : ∀ x, bitsOf x 31 26 = 0x32 → scalarOf x = some (.yld (bitsOf x 25 22) (bitsOf x 21 14) (sext 14 (bitsOf
      x 13 0))) := by
      intro x h0
      unfold scalarOf
      rw [h0]
      rfl
    rw [hr _ b0, b1, b2, b3, sext_unsext14 (by omega)]

theorem qpushQcopy (r : Nat) : Statement (.qpushQcopy r) := by
  intro hw
  have hw' : (r ≤ 144 && r % 4 == 0) = true := hw
  simp only [Bool.and_eq_true, decide_eq_true_eq, beq_iff_eq] at hw'
  have b0 : bitsOf (0x33 * 2 ^ 26 + 0 * 2 ^ 25 + 0 * 2 ^ 23 + r * 2 ^ 15) 31 26 = 0x33 := by
    unfold bitsOf
    omega
  have b1 : bitsOf (0x33 * 2 ^ 26 + 0 * 2 ^ 25 + 0 * 2 ^ 23 + r * 2 ^ 15) 25 23 = 0 := by
    unfold bitsOf
    omega
  have b2 : bitsOf (0x33 * 2 ^ 26 + 0 * 2 ^ 25 + 0 * 2 ^ 23 + r * 2 ^ 15) 22 15 = r := by
    unfold bitsOf
    omega
  refine ⟨_, rfl, ?_, decodeScalar_of hw rfl ?_⟩
  · omega
  · have hr : ∀ x, bitsOf x 31 26 = 0x33 → bitsOf x 25 23 = 0 → scalarOf x = some (.qpushQcopy (bitsOf x 22 15)) := by
      intro x h0 h1
      unfold scalarOf
      rw [h0]
      rw [h1]
      rfl
    rw [hr _ b0 b1, b2]

theorem qpushQcoll (r : Nat) : Statement (.qpushQcoll r) := by
  intro hw
  have hw' : (r ≤ 144 && r % 4 == 0) = true := hw
  simp only [Bool.and_eq_true, decide_eq_true_eq, beq_iff_eq] at hw'
  have b0 : bitsOf (0x33 * 2 ^ 26 + 0 * 2 ^ 25 + 1 * 2 ^ 23 + r * 2 ^ 15) 31 26 = 0x33 := by
    unfold bitsOf
    omega
  have b1 : bitsOf (0x33 * 2 ^ 26 + 0 * 2 ^ 25 + 1 * 2 ^ 23 + r * 2 ^ 15) 25 23 = 1 := by
    unfold bitsOf
    omega
  have b2 : bitsOf (0x33 * 2 ^ 26 + 0 * 2 ^ 25 + 1 * 2 ^ 23 + r * 2 ^ 15) 22 15 = r := by
    unfold bitsOf
    omega
  refine ⟨_, rfl, ?_, decodeScalar_of hw rfl ?_⟩
  · omega
  · have hr : ∀ x, bitsOf x 31 26 = 0x33 → bitsOf x 25 23 = 1 → scalarOf x = some (.qpushQcoll (bitsOf x 22 15)) := by
      intro x h0 h1
      unfold scalarOf
      rw [h0]
      rw [h1]
      rfl
    rw [hr _ b0 b1, b2]

theorem qpopQmat (r : Nat) : Statement (.qpopQmat r) := by
  intro hw
  have hw' : (sregOk r) = true := hw
  simp only [sregOk, decide_eq_true_eq] at hw'
  have b0 : bitsOf (0x33 * 2 ^ 26 + 1 * 2 ^ 25 + 2 * 2 ^ 23 + r * 2 ^ 15) 31 26 = 0x33 := by
    unfold bitsOf
    omega
  have b1 : bitsOf (0x33 * 2 ^ 26 + 1 * 2 ^ 25 + 2 * 2 ^ 23 + r * 2 ^ 15) 25 23 = 6 := by
    unfold bitsOf
    omega
  have b2 : bitsOf (0x33 * 2 ^ 26 + 1 * 2 ^ 25 + 2 * 2 ^ 23 + r * 2 ^ 15) 22 15 = r := by
    unfold bitsOf
    omega
  refine ⟨_, rfl, ?_, decodeScalar_of hw rfl ?_⟩
  · omega
  · have hr : ∀ x, bitsOf x 31 26 = 0x33 → bitsOf x 25 23 = 6 → scalarOf x = some (.qpopQmat (bitsOf x 22 15)) := by
      intro x h0 h1
      unfold scalarOf
      rw [h0]
      rw [h1]
      rfl
    rw [hr _ b0 b1, b2]

theorem msend (a : Nat) (tk : Option Nat) : Statement (.msend a tk) := by
  intro hw
  have hw' : (cregOk a && tkOk tk) = true := hw
  simp only [cregOk, Bool.and_eq_true, decide_eq_true_eq] at hw'
  have := tkEnc_lt (t := tk) (by tauto)
  have b0 : bitsOf (0x34 * 2 ^ 26 + 0 * 2 ^ 24 + a * 2 ^ 18 + tkEnc tk * 2 ^ 13) 31 26 = 0x34 := by
    unfold bitsOf
    omega
  have b1 : bitsOf (0x34 * 2 ^ 26 + 0 * 2 ^ 24 + a * 2 ^ 18 + tkEnc tk * 2 ^ 13) 25 24 = 0 := by
    unfold bitsOf
    omega
  have b2 : bitsOf (0x34 * 2 ^ 26 + 0 * 2 ^ 24 + a * 2 ^ 18 + tkEnc tk * 2 ^ 13) 23 18 = a := by
    unfold bitsOf
    omega
  have b3 : bitsOf (0x34 * 2 ^ 26 + 0 * 2 ^ 24 + a * 2 ^ 18 + tkEnc tk * 2 ^ 13) 17 13 = tkEnc tk := by
    unfold bitsOf
    omega
  refine ⟨_, rfl, ?_, decodeScalar_of hw rfl ?_⟩
  · omega
  · have hr : ∀ x, bitsOf x 31 26 = 0x34 → bitsOf x 25 24 = 0 → scalarOf x = some (.msend (bitsOf x 23 18) (tkOf
      (bitsOf x 17 13))) := by
      intro x h0 h1
      unfold scalarOf
      rw [h0]
      rw [h1]
      rfl
    rw [hr _ b0 b1, b2, b3, tkOf_tkEnc]

theorem mrecv (a : Nat) (tk : Option Nat) : Statement (.mrecv a tk) := by
  intro hw
  have hw' : (cregOk a && tkOk tk) = true := hw
  simp only [cregOk, Bool.and_eq_true, decide_eq_true_eq] at hw'
  have := tkEnc_lt (t := tk) (by tauto)
  have b0 : bitsOf (0x34 * 2 ^ 26 + 1 * 2 ^ 24 + a * 2 ^ 18 + tkEnc tk * 2 ^ 13) 31 26 = 0x34 := by
    unfold bitsOf
    omega
  have b1 : bitsOf (0x34 * 2 ^ 26 + 1 * 2 ^ 24 + a * 2 ^ 18 + tkEnc tk * 2 ^ 13) 25 24 = 1 := by
    unfold bitsOf
    omega
  have b2 : bitsOf (0x34 * 2 ^ 26 + 1 * 2 ^ 24 + a * 2 ^ 18 + tkEnc tk * 2 ^ 13) 23 18 = a := by
    unfold bitsOf
    omega
  have b3 : bitsOf (0x34 * 2 ^ 26 + 1 * 2 ^ 24 + a * 2 ^ 18 + tkEnc tk * 2 ^ 13) 17 13 = tkEnc tk := by
    unfold bitsOf
    omega
  refine ⟨_, rfl, ?_, decodeScalar_of hw rfl ?_⟩
  · omega
  · have hr : ∀ x, bitsOf x 31 26 = 0x34 → bitsOf x 25 24 = 1 → scalarOf x = some (.mrecv (bitsOf x 23 18) (tkOf
      (bitsOf x 17 13))) := by
      intro x h0 h1
      unfold scalarOf
      rw [h0]
      rw [h1]
      rfl
    rw [hr _ b0 b1, b2, b3, tkOf_tkEnc]

theorem mcall (a : Nat) (tk : Option Nat) : Statement (.mcall a tk) := by
  intro hw
  have hw' : (cregOk a && tkOk tk) = true := hw
  simp only [cregOk, Bool.and_eq_true, decide_eq_true_eq] at hw'
  have := tkEnc_lt (t := tk) (by tauto)
  have b0 : bitsOf (0x34 * 2 ^ 26 + 2 * 2 ^ 24 + a * 2 ^ 18 + tkEnc tk * 2 ^ 13) 31 26 = 0x34 := by
    unfold bitsOf
    omega
  have b1 : bitsOf (0x34 * 2 ^ 26 + 2 * 2 ^ 24 + a * 2 ^ 18 + tkEnc tk * 2 ^ 13) 25 24 = 2 := by
    unfold bitsOf
    omega
  have b2 : bitsOf (0x34 * 2 ^ 26 + 2 * 2 ^ 24 + a * 2 ^ 18 + tkEnc tk * 2 ^ 13) 23 18 = a := by
    unfold bitsOf
    omega
  have b3 : bitsOf (0x34 * 2 ^ 26 + 2 * 2 ^ 24 + a * 2 ^ 18 + tkEnc tk * 2 ^ 13) 17 13 = tkEnc tk := by
    unfold bitsOf
    omega
  refine ⟨_, rfl, ?_, decodeScalar_of hw rfl ?_⟩
  · omega
  · have hr : ∀ x, bitsOf x 31 26 = 0x34 → bitsOf x 25 24 = 2 → scalarOf x = some (.mcall (bitsOf x 23 18) (tkOf
      (bitsOf x 17 13))) := by
      intro x h0 h1
      unfold scalarOf
      rw [h0]
      rw [h1]
      rfl
    rw [hr _ b0 b1, b2, b3, tkOf_tkEnc]

theorem mreply (tk : Option Nat) : Statement (.mreply tk) := by
  intro hw
  have hw' : (tkOk tk) = true := hw
  have := tkEnc_lt (t := tk) (by tauto)
  have b0 : bitsOf (0x34 * 2 ^ 26 + 3 * 2 ^ 24 + tkEnc tk * 2 ^ 13) 31 26 = 0x34 := by
    unfold bitsOf
    omega
  have b1 : bitsOf (0x34 * 2 ^ 26 + 3 * 2 ^ 24 + tkEnc tk * 2 ^ 13) 25 24 = 3 := by
    unfold bitsOf
    omega
  have b2 : bitsOf (0x34 * 2 ^ 26 + 3 * 2 ^ 24 + tkEnc tk * 2 ^ 13) 17 13 = tkEnc tk := by
    unfold bitsOf
    omega
  refine ⟨_, rfl, ?_, decodeScalar_of hw rfl ?_⟩
  · omega
  · have hr : ∀ x, bitsOf x 31 26 = 0x34 → bitsOf x 25 24 = 3 → scalarOf x = some (.mreply (tkOf (bitsOf x 17 13)))
      := by
      intro x h0 h1
      unfold scalarOf
      rw [h0]
      rw [h1]
      rfl
    rw [hr _ b0 b1, b2, tkOf_tkEnc]

theorem glaunch (d : Nat) (a : Nat) (b : Nat) (tk : Option Nat) : Statement (.glaunch d a b tk) := by
  intro hw
  have hw' : (sregOk d && cregOk a && cregOk b && tkOk tk) = true := hw
  simp only [sregOk, cregOk, Bool.and_eq_true, decide_eq_true_eq] at hw'
  have := tkEnc_lt (t := tk) (by tauto)
  have b0 : bitsOf (0x35 * 2 ^ 26 + 0 * 2 ^ 25 + d * 2 ^ 17 + a * 2 ^ 11 + b * 2 ^ 5 + tkEnc tk) 31 26 = 0x35 := by
    unfold bitsOf
    omega
  have b1 : bitsOf (0x35 * 2 ^ 26 + 0 * 2 ^ 25 + d * 2 ^ 17 + a * 2 ^ 11 + b * 2 ^ 5 + tkEnc tk) 25 25 = 0 := by
    unfold bitsOf
    omega
  have b2 : bitsOf (0x35 * 2 ^ 26 + 0 * 2 ^ 25 + d * 2 ^ 17 + a * 2 ^ 11 + b * 2 ^ 5 + tkEnc tk) 24 17 = d := by
    unfold bitsOf
    omega
  have b3 : bitsOf (0x35 * 2 ^ 26 + 0 * 2 ^ 25 + d * 2 ^ 17 + a * 2 ^ 11 + b * 2 ^ 5 + tkEnc tk) 16 11 = a := by
    unfold bitsOf
    omega
  have b4 : bitsOf (0x35 * 2 ^ 26 + 0 * 2 ^ 25 + d * 2 ^ 17 + a * 2 ^ 11 + b * 2 ^ 5 + tkEnc tk) 10 5 = b := by
    unfold bitsOf
    omega
  have b5 : bitsOf (0x35 * 2 ^ 26 + 0 * 2 ^ 25 + d * 2 ^ 17 + a * 2 ^ 11 + b * 2 ^ 5 + tkEnc tk) 4 0 = tkEnc tk := by
    unfold bitsOf
    omega
  refine ⟨_, rfl, ?_, decodeScalar_of hw rfl ?_⟩
  · omega
  · have hr : ∀ x, bitsOf x 31 26 = 0x35 → bitsOf x 25 25 = 0 → scalarOf x = some (.glaunch (bitsOf x 24 17) (bitsOf
      x 16 11) (bitsOf x 10 5) (tkOf (bitsOf x 4 0))) := by
      intro x h0 h1
      unfold scalarOf
      rw [h0]
      rw [h1]
      rfl
    rw [hr _ b0 b1, b2, b3, b4, b5, tkOf_tkEnc]

theorem gsub (d : Nat) (a : Nat) (tk : Option Nat) : Statement (.gsub d a tk) := by
  intro hw
  have hw' : (sregOk d && cregOk a && tkOk tk) = true := hw
  simp only [sregOk, cregOk, Bool.and_eq_true, decide_eq_true_eq] at hw'
  have := tkEnc_lt (t := tk) (by tauto)
  have b0 : bitsOf (0x35 * 2 ^ 26 + 1 * 2 ^ 25 + d * 2 ^ 17 + a * 2 ^ 11 + tkEnc tk) 31 26 = 0x35 := by
    unfold bitsOf
    omega
  have b1 : bitsOf (0x35 * 2 ^ 26 + 1 * 2 ^ 25 + d * 2 ^ 17 + a * 2 ^ 11 + tkEnc tk) 25 25 = 1 := by
    unfold bitsOf
    omega
  have b2 : bitsOf (0x35 * 2 ^ 26 + 1 * 2 ^ 25 + d * 2 ^ 17 + a * 2 ^ 11 + tkEnc tk) 24 17 = d := by
    unfold bitsOf
    omega
  have b3 : bitsOf (0x35 * 2 ^ 26 + 1 * 2 ^ 25 + d * 2 ^ 17 + a * 2 ^ 11 + tkEnc tk) 16 11 = a := by
    unfold bitsOf
    omega
  have b4 : bitsOf (0x35 * 2 ^ 26 + 1 * 2 ^ 25 + d * 2 ^ 17 + a * 2 ^ 11 + tkEnc tk) 4 0 = tkEnc tk := by
    unfold bitsOf
    omega
  refine ⟨_, rfl, ?_, decodeScalar_of hw rfl ?_⟩
  · omega
  · have hr : ∀ x, bitsOf x 31 26 = 0x35 → bitsOf x 25 25 = 1 → scalarOf x = some (.gsub (bitsOf x 24 17) (bitsOf x
      16 11) (tkOf (bitsOf x 4 0))) := by
      intro x h0 h1
      unfold scalarOf
      rw [h0]
      rw [h1]
      rfl
    rw [hr _ b0 b1, b2, b3, b4, tkOf_tkEnc]

theorem wset (t : Nat) (r : Nat) (tk : Option Nat) : Statement (.wset t r tk) := by
  intro hw
  have hw' : (cregOk t && spairOk r && tkOk tk) = true := hw
  simp only [spairOk, cregOk, Bool.and_eq_true, decide_eq_true_eq, beq_iff_eq] at hw'
  have := tkEnc_lt (t := tk) (by tauto)
  have b0 : bitsOf (0x36 * 2 ^ 26 + 0 * 2 ^ 25 + t * 2 ^ 19 + r * 2 ^ 11 + tkEnc tk * 2 ^ 6) 31 26 = 0x36 := by
    unfold bitsOf
    omega
  have b1 : bitsOf (0x36 * 2 ^ 26 + 0 * 2 ^ 25 + t * 2 ^ 19 + r * 2 ^ 11 + tkEnc tk * 2 ^ 6) 25 25 = 0 := by
    unfold bitsOf
    omega
  have b2 : bitsOf (0x36 * 2 ^ 26 + 0 * 2 ^ 25 + t * 2 ^ 19 + r * 2 ^ 11 + tkEnc tk * 2 ^ 6) 24 19 = t := by
    unfold bitsOf
    omega
  have b3 : bitsOf (0x36 * 2 ^ 26 + 0 * 2 ^ 25 + t * 2 ^ 19 + r * 2 ^ 11 + tkEnc tk * 2 ^ 6) 18 11 = r := by
    unfold bitsOf
    omega
  have b4 : bitsOf (0x36 * 2 ^ 26 + 0 * 2 ^ 25 + t * 2 ^ 19 + r * 2 ^ 11 + tkEnc tk * 2 ^ 6) 10 6 = tkEnc tk := by
    unfold bitsOf
    omega
  refine ⟨_, rfl, ?_, decodeScalar_of hw rfl ?_⟩
  · omega
  · have hr : ∀ x, bitsOf x 31 26 = 0x36 → bitsOf x 25 25 = 0 → scalarOf x = some (.wset (bitsOf x 24 19) (bitsOf x
      18 11) (tkOf (bitsOf x 10 6))) := by
      intro x h0 h1
      unfold scalarOf
      rw [h0]
      rw [h1]
      rfl
    rw [hr _ b0 b1, b2, b3, b4, tkOf_tkEnc]

theorem wget (t : Nat) (r : Nat) (tk : Option Nat) : Statement (.wget t r tk) := by
  intro hw
  have hw' : (cregOk t && spairOk r && tkOk tk) = true := hw
  simp only [spairOk, cregOk, Bool.and_eq_true, decide_eq_true_eq, beq_iff_eq] at hw'
  have := tkEnc_lt (t := tk) (by tauto)
  have b0 : bitsOf (0x36 * 2 ^ 26 + 1 * 2 ^ 25 + t * 2 ^ 19 + r * 2 ^ 11 + tkEnc tk * 2 ^ 6) 31 26 = 0x36 := by
    unfold bitsOf
    omega
  have b1 : bitsOf (0x36 * 2 ^ 26 + 1 * 2 ^ 25 + t * 2 ^ 19 + r * 2 ^ 11 + tkEnc tk * 2 ^ 6) 25 25 = 1 := by
    unfold bitsOf
    omega
  have b2 : bitsOf (0x36 * 2 ^ 26 + 1 * 2 ^ 25 + t * 2 ^ 19 + r * 2 ^ 11 + tkEnc tk * 2 ^ 6) 24 19 = t := by
    unfold bitsOf
    omega
  have b3 : bitsOf (0x36 * 2 ^ 26 + 1 * 2 ^ 25 + t * 2 ^ 19 + r * 2 ^ 11 + tkEnc tk * 2 ^ 6) 18 11 = r := by
    unfold bitsOf
    omega
  have b4 : bitsOf (0x36 * 2 ^ 26 + 1 * 2 ^ 25 + t * 2 ^ 19 + r * 2 ^ 11 + tkEnc tk * 2 ^ 6) 10 6 = tkEnc tk := by
    unfold bitsOf
    omega
  refine ⟨_, rfl, ?_, decodeScalar_of hw rfl ?_⟩
  · omega
  · have hr : ∀ x, bitsOf x 31 26 = 0x36 → bitsOf x 25 25 = 1 → scalarOf x = some (.wget (bitsOf x 24 19) (bitsOf x
      18 11) (tkOf (bitsOf x 10 6))) := by
      intro x h0 h1
      unfold scalarOf
      rw [h0]
      rw [h1]
      rfl
    rw [hr _ b0 b1, b2, b3, b4, tkOf_tkEnc]

theorem nop : Statement (.nop) := by
  intro hw
  have hw' : (true) = true := hw
  have b0 : bitsOf (encMisc 0x37 0 0 0) 31 26 = 0x37 := by
    unfold bitsOf encMisc
    omega
  have b1 : bitsOf (encMisc 0x37 0 0 0) 25 22 = 0 := by
    unfold bitsOf encMisc
    omega
  refine ⟨_, rfl, ?_, decodeScalar_of hw rfl ?_⟩
  · unfold encMisc
    omega
  · have hr : ∀ x, bitsOf x 31 26 = 0x37 → bitsOf x 25 22 = 0 → scalarOf x = some (.nop) := by
      intro x h0 h1
      unfold scalarOf
      rw [h0]
      show miscOf x = _
      unfold miscOf
      rw [h1]
      rfl
    rw [hr _ b0 b1]

theorem gend : Statement (.gend) := by
  intro hw
  have hw' : (true) = true := hw
  have b0 : bitsOf (encMisc 0x37 1 0 0) 31 26 = 0x37 := by
    unfold bitsOf encMisc
    omega
  have b1 : bitsOf (encMisc 0x37 1 0 0) 25 22 = 1 := by
    unfold bitsOf encMisc
    omega
  refine ⟨_, rfl, ?_, decodeScalar_of hw rfl ?_⟩
  · unfold encMisc
    omega
  · have hr : ∀ x, bitsOf x 31 26 = 0x37 → bitsOf x 25 22 = 1 → scalarOf x = some (.gend) := by
      intro x h0 h1
      unfold scalarOf
      rw [h0]
      show miscOf x = _
      unfold miscOf
      rw [h1]
      rfl
    rw [hr _ b0 b1]

theorem brk (code : Nat) : Statement (.brk code) := by
  intro hw
  have hw' : (decide (code < 2 ^ 14)) = true := hw
  simp only [decide_eq_true_eq] at hw'
  have b0 : bitsOf (encMisc 0x37 2 0 code) 31 26 = 0x37 := by
    unfold bitsOf encMisc
    omega
  have b1 : bitsOf (encMisc 0x37 2 0 code) 25 22 = 2 := by
    unfold bitsOf encMisc
    omega
  have b2 : bitsOf (encMisc 0x37 2 0 code) 13 0 = code := by
    unfold bitsOf encMisc
    omega
  refine ⟨_, rfl, ?_, decodeScalar_of hw rfl ?_⟩
  · unfold encMisc
    omega
  · have hr : ∀ x, bitsOf x 31 26 = 0x37 → bitsOf x 25 22 = 2 → scalarOf x = some (.brk (bitsOf x 13 0)) := by
      intro x h0 h1
      unfold scalarOf
      rw [h0]
      show miscOf x = _
      unfold miscOf
      rw [h1]
      rfl
    rw [hr _ b0 b1, b2]

theorem rdtime (d : Nat) : Statement (.rdtime d) := by
  intro hw
  have hw' : (spairOk d) = true := hw
  simp only [spairOk, Bool.and_eq_true, decide_eq_true_eq, beq_iff_eq] at hw'
  have b0 : bitsOf (encMisc 0x37 3 d 0) 31 26 = 0x37 := by
    unfold bitsOf encMisc
    omega
  have b1 : bitsOf (encMisc 0x37 3 d 0) 25 22 = 3 := by
    unfold bitsOf encMisc
    omega
  have b2 : bitsOf (encMisc 0x37 3 d 0) 21 14 = d := by
    unfold bitsOf encMisc
    omega
  refine ⟨_, rfl, ?_, decodeScalar_of hw rfl ?_⟩
  · unfold encMisc
    omega
  · have hr : ∀ x, bitsOf x 31 26 = 0x37 → bitsOf x 25 22 = 3 → scalarOf x = some (.rdtime (bitsOf x 21 14)) := by
      intro x h0 h1
      unfold scalarOf
      rw [h0]
      show miscOf x = _
      unfold miscOf
      rw [h1]
      rfl
    rw [hr _ b0 b1, b2]

theorem rdid (d : Nat) (sel : Nat) : Statement (.rdid d sel) := by
  intro hw
  have hw' : (sregOk d && 1 ≤ sel && sel ≤ 10) = true := hw
  simp only [sregOk, Bool.and_eq_true, decide_eq_true_eq] at hw'
  have b0 : bitsOf (encMisc 0x37 4 d sel) 31 26 = 0x37 := by
    unfold bitsOf encMisc
    omega
  have b1 : bitsOf (encMisc 0x37 4 d sel) 25 22 = 4 := by
    unfold bitsOf encMisc
    omega
  have b2 : bitsOf (encMisc 0x37 4 d sel) 21 14 = d := by
    unfold bitsOf encMisc
    omega
  have b3 : bitsOf (encMisc 0x37 4 d sel) 5 0 = sel := by
    unfold bitsOf encMisc
    omega
  refine ⟨_, rfl, ?_, decodeScalar_of hw rfl ?_⟩
  · unfold encMisc
    omega
  · have hr : ∀ x, bitsOf x 31 26 = 0x37 → bitsOf x 25 22 = 4 → scalarOf x = some (.rdid (bitsOf x 21 14) (bitsOf x 5
      0)) := by
      intro x h0 h1
      unfold scalarOf
      rw [h0]
      show miscOf x = _
      unfold miscOf
      rw [h1]
      rfl
    rw [hr _ b0 b1, b2, b3]

theorem pgreq (a : Nat) (tk : Option Nat) : Statement (.pgreq a tk) := by
  intro hw
  have hw' : (cregOk a && tkOk tk) = true := hw
  simp only [cregOk, Bool.and_eq_true, decide_eq_true_eq] at hw'
  have := tkEnc_lt (t := tk) (by tauto)
  have b0 : bitsOf (encMisc 0x37 5 a (tkEnc tk)) 31 26 = 0x37 := by
    unfold bitsOf encMisc
    omega
  have b1 : bitsOf (encMisc 0x37 5 a (tkEnc tk)) 25 22 = 5 := by
    unfold bitsOf encMisc
    omega
  have b2 : bitsOf (encMisc 0x37 5 a (tkEnc tk)) 19 14 = a := by
    unfold bitsOf encMisc
    omega
  have b3 : bitsOf (encMisc 0x37 5 a (tkEnc tk)) 4 0 = tkEnc tk := by
    unfold bitsOf encMisc
    omega
  refine ⟨_, rfl, ?_, decodeScalar_of hw rfl ?_⟩
  · unfold encMisc
    omega
  · have hr : ∀ x, bitsOf x 31 26 = 0x37 → bitsOf x 25 22 = 5 → scalarOf x = some (.pgreq (bitsOf x 19 14) (tkOf
      (bitsOf x 4 0))) := by
      intro x h0 h1
      unfold scalarOf
      rw [h0]
      show miscOf x = _
      unfold miscOf
      rw [h1]
      rfl
    rw [hr _ b0 b1, b2, b3, tkOf_tkEnc]

theorem fsrr (d : Nat) : Statement (.fsrr d) := by
  intro hw
  have hw' : (sregOk d) = true := hw
  simp only [sregOk, decide_eq_true_eq] at hw'
  have b0 : bitsOf (encMisc 0x37 6 d 0) 31 26 = 0x37 := by
    unfold bitsOf encMisc
    omega
  have b1 : bitsOf (encMisc 0x37 6 d 0) 25 22 = 6 := by
    unfold bitsOf encMisc
    omega
  have b2 : bitsOf (encMisc 0x37 6 d 0) 21 14 = d := by
    unfold bitsOf encMisc
    omega
  refine ⟨_, rfl, ?_, decodeScalar_of hw rfl ?_⟩
  · unfold encMisc
    omega
  · have hr : ∀ x, bitsOf x 31 26 = 0x37 → bitsOf x 25 22 = 6 → scalarOf x = some (.fsrr (bitsOf x 21 14)) := by
      intro x h0 h1
      unfold scalarOf
      rw [h0]
      show miscOf x = _
      unfold miscOf
      rw [h1]
      rfl
    rw [hr _ b0 b1, b2]

theorem fsrw (d : Nat) : Statement (.fsrw d) := by
  intro hw
  have hw' : (sregOk d) = true := hw
  simp only [sregOk, decide_eq_true_eq] at hw'
  have b0 : bitsOf (encMisc 0x37 7 d 0) 31 26 = 0x37 := by
    unfold bitsOf encMisc
    omega
  have b1 : bitsOf (encMisc 0x37 7 d 0) 25 22 = 7 := by
    unfold bitsOf encMisc
    omega
  have b2 : bitsOf (encMisc 0x37 7 d 0) 21 14 = d := by
    unfold bitsOf encMisc
    omega
  refine ⟨_, rfl, ?_, decodeScalar_of hw rfl ?_⟩
  · unfold encMisc
    omega
  · have hr : ∀ x, bitsOf x 31 26 = 0x37 → bitsOf x 25 22 = 7 → scalarOf x = some (.fsrw (bitsOf x 21 14)) := by
      intro x h0 h1
      unfold scalarOf
      rw [h0]
      show miscOf x = _
      unfold miscOf
      rw [h1]
      rfl
    rw [hr _ b0 b1, b2]

theorem mxcr (d : Nat) : Statement (.mxcr d) := by
  intro hw
  have hw' : (sregOk d) = true := hw
  simp only [sregOk, decide_eq_true_eq] at hw'
  have b0 : bitsOf (encMisc 0x37 8 d 0) 31 26 = 0x37 := by
    unfold bitsOf encMisc
    omega
  have b1 : bitsOf (encMisc 0x37 8 d 0) 25 22 = 8 := by
    unfold bitsOf encMisc
    omega
  have b2 : bitsOf (encMisc 0x37 8 d 0) 21 14 = d := by
    unfold bitsOf encMisc
    omega
  refine ⟨_, rfl, ?_, decodeScalar_of hw rfl ?_⟩
  · unfold encMisc
    omega
  · have hr : ∀ x, bitsOf x 31 26 = 0x37 → bitsOf x 25 22 = 8 → scalarOf x = some (.mxcr (bitsOf x 21 14)) := by
      intro x h0 h1
      unfold scalarOf
      rw [h0]
      show miscOf x = _
      unfold miscOf
      rw [h1]
      rfl
    rw [hr _ b0 b1, b2]

theorem mxcw (d : Nat) : Statement (.mxcw d) := by
  intro hw
  have hw' : (sregOk d) = true := hw
  simp only [sregOk, decide_eq_true_eq] at hw'
  have b0 : bitsOf (encMisc 0x37 9 d 0) 31 26 = 0x37 := by
    unfold bitsOf encMisc
    omega
  have b1 : bitsOf (encMisc 0x37 9 d 0) 25 22 = 9 := by
    unfold bitsOf encMisc
    omega
  have b2 : bitsOf (encMisc 0x37 9 d 0) 21 14 = d := by
    unfold bitsOf encMisc
    omega
  refine ⟨_, rfl, ?_, decodeScalar_of hw rfl ?_⟩
  · unfold encMisc
    omega
  · have hr : ∀ x, bitsOf x 31 26 = 0x37 → bitsOf x 25 22 = 9 → scalarOf x = some (.mxcw (bitsOf x 21 14)) := by
      intro x h0 h1
      unfold scalarOf
      rw [h0]
      show miscOf x = _
      unfold miscOf
      rw [h1]
      rfl
    rw [hr _ b0 b1, b2]

theorem eret : Statement (.eret) := by
  intro hw
  have hw' : (true) = true := hw
  have b0 : bitsOf (encMisc 0x38 0 0 0) 31 26 = 0x38 := by
    unfold bitsOf encMisc
    omega
  have b1 : bitsOf (encMisc 0x38 0 0 0) 25 22 = 0 := by
    unfold bitsOf encMisc
    omega
  refine ⟨_, rfl, ?_, decodeScalar_of hw rfl ?_⟩
  · unfold encMisc
    omega
  · have hr : ∀ x, bitsOf x 31 26 = 0x38 → bitsOf x 25 22 = 0 → scalarOf x = some (.eret) := by
      intro x h0 h1
      unfold scalarOf
      rw [h0]
      show privOf x = _
      unfold privOf
      rw [h1]
      rfl
    rw [hr _ b0 b1]

theorem ctlr (d : Nat) (n : Nat) : Statement (.ctlr d n) := by
  intro hw
  have hw' : (ctlOk d n) = true := hw
  have hc := ctlOk_lt hw'
  have b0 : bitsOf (encMisc 0x38 1 d n) 31 26 = 0x38 := by
    unfold bitsOf encMisc
    omega
  have b1 : bitsOf (encMisc 0x38 1 d n) 25 22 = 1 := by
    unfold bitsOf encMisc
    omega
  have b2 : bitsOf (encMisc 0x38 1 d n) 21 14 = d := by
    unfold bitsOf encMisc
    omega
  have b3 : bitsOf (encMisc 0x38 1 d n) 13 0 = n := by
    unfold bitsOf encMisc
    omega
  refine ⟨_, rfl, ?_, decodeScalar_of hw rfl ?_⟩
  · unfold encMisc
    omega
  · have hr : ∀ x, bitsOf x 31 26 = 0x38 → bitsOf x 25 22 = 1 → scalarOf x = some (.ctlr (bitsOf x 21 14) (bitsOf x
      13 0)) := by
      intro x h0 h1
      unfold scalarOf
      rw [h0]
      show privOf x = _
      unfold privOf
      rw [h1]
      rfl
    rw [hr _ b0 b1, b2, b3]

theorem ctlw (d : Nat) (n : Nat) : Statement (.ctlw d n) := by
  intro hw
  have hw' : (ctlOk d n) = true := hw
  have hc := ctlOk_lt hw'
  have b0 : bitsOf (encMisc 0x38 2 d n) 31 26 = 0x38 := by
    unfold bitsOf encMisc
    omega
  have b1 : bitsOf (encMisc 0x38 2 d n) 25 22 = 2 := by
    unfold bitsOf encMisc
    omega
  have b2 : bitsOf (encMisc 0x38 2 d n) 21 14 = d := by
    unfold bitsOf encMisc
    omega
  have b3 : bitsOf (encMisc 0x38 2 d n) 13 0 = n := by
    unfold bitsOf encMisc
    omega
  refine ⟨_, rfl, ?_, decodeScalar_of hw rfl ?_⟩
  · unfold encMisc
    omega
  · have hr : ∀ x, bitsOf x 31 26 = 0x38 → bitsOf x 25 22 = 2 → scalarOf x = some (.ctlw (bitsOf x 21 14) (bitsOf x
      13 0)) := by
      intro x h0 h1
      unfold scalarOf
      rw [h0]
      show privOf x = _
      unfold privOf
      rw [h1]
      rfl
    rw [hr _ b0 b1, b2, b3]

theorem tlbi (a : Nat) (b : Nat) (kind : TlbKind) : Statement (.tlbi a b kind) := by
  intro hw
  have hw' : (tlbiOk a b kind) = true := hw
  have hc := tlbiOk_lt hw'
  have := tlbKind_lt kind
  have b0 : bitsOf (0x38 * 2 ^ 26 + 3 * 2 ^ 22 + a * 2 ^ 16 + b * 2 ^ 8 + kind.code * 2 ^ 6) 31 26 = 0x38 := by
    unfold bitsOf
    omega
  have b1 : bitsOf (0x38 * 2 ^ 26 + 3 * 2 ^ 22 + a * 2 ^ 16 + b * 2 ^ 8 + kind.code * 2 ^ 6) 25 22 = 3 := by
    unfold bitsOf
    omega
  have b2 : bitsOf (0x38 * 2 ^ 26 + 3 * 2 ^ 22 + a * 2 ^ 16 + b * 2 ^ 8 + kind.code * 2 ^ 6) 21 16 = a := by
    unfold bitsOf
    omega
  have b3 : bitsOf (0x38 * 2 ^ 26 + 3 * 2 ^ 22 + a * 2 ^ 16 + b * 2 ^ 8 + kind.code * 2 ^ 6) 15 8 = b := by
    unfold bitsOf
    omega
  have b4 : bitsOf (0x38 * 2 ^ 26 + 3 * 2 ^ 22 + a * 2 ^ 16 + b * 2 ^ 8 + kind.code * 2 ^ 6) 7 6 = kind.code := by
    unfold bitsOf
    omega
  refine ⟨_, rfl, ?_, decodeScalar_of hw rfl ?_⟩
  · omega
  · have hr : ∀ x, bitsOf x 31 26 = 0x38 → bitsOf x 25 22 = 3 → bitsOf x 7 6 = kind.code → scalarOf x = some (.tlbi
      (bitsOf x 21 16) (bitsOf x 15 8) kind) := by
      intro x h0 h1 h2
      unfold scalarOf
      rw [h0]
      show privOf x = _
      unfold privOf
      rw [h1]
      show (TlbKind.ofCode (bitsOf x 7 6)).map _ = _
      rw [h2, tlbKind_code]
      rfl
    rw [hr _ b0 b1 b4, b2, b3]

theorem swp (d : Nat) : Statement (.swp d) := by
  intro hw
  have hw' : (sregOk d) = true := hw
  simp only [sregOk, decide_eq_true_eq] at hw'
  have b0 : bitsOf (encMisc 0x38 4 d 0) 31 26 = 0x38 := by
    unfold bitsOf encMisc
    omega
  have b1 : bitsOf (encMisc 0x38 4 d 0) 25 22 = 4 := by
    unfold bitsOf encMisc
    omega
  have b2 : bitsOf (encMisc 0x38 4 d 0) 21 14 = d := by
    unfold bitsOf encMisc
    omega
  refine ⟨_, rfl, ?_, decodeScalar_of hw rfl ?_⟩
  · unfold encMisc
    omega
  · have hr : ∀ x, bitsOf x 31 26 = 0x38 → bitsOf x 25 22 = 4 → scalarOf x = some (.swp (bitsOf x 21 14)) := by
      intro x h0 h1
      unfold scalarOf
      rw [h0]
      show privOf x = _
      unfold privOf
      rw [h1]
      rfl
    rw [hr _ b0 b1, b2]

theorem keyk (d : Nat) : Statement (.keyk d) := by
  intro hw
  have hw' : (sregOk d) = true := hw
  simp only [sregOk, decide_eq_true_eq] at hw'
  have b0 : bitsOf (encMisc 0x38 5 d 0) 31 26 = 0x38 := by
    unfold bitsOf encMisc
    omega
  have b1 : bitsOf (encMisc 0x38 5 d 0) 25 22 = 5 := by
    unfold bitsOf encMisc
    omega
  have b2 : bitsOf (encMisc 0x38 5 d 0) 21 14 = d := by
    unfold bitsOf encMisc
    omega
  refine ⟨_, rfl, ?_, decodeScalar_of hw rfl ?_⟩
  · unfold encMisc
    omega
  · have hr : ∀ x, bitsOf x 31 26 = 0x38 → bitsOf x 25 22 = 5 → scalarOf x = some (.keyk (bitsOf x 21 14)) := by
      intro x h0 h1
      unfold scalarOf
      rw [h0]
      show privOf x = _
      unfold privOf
      rw [h1]
      rfl
    rw [hr _ b0 b1, b2]

theorem sealctx (d : Nat) (a : Nat) (b : Nat) : Statement (.sealctx d a b) := by
  intro hw
  have hw' : (cregOk d && cregOk a && sregOk b) = true := hw
  simp only [sregOk, cregOk, Bool.and_eq_true, decide_eq_true_eq] at hw'
  have b0 : bitsOf (0x38 * 2 ^ 26 + 6 * 2 ^ 22 + d * 2 ^ 16 + a * 2 ^ 10 + b * 2 ^ 2) 31 26 = 0x38 := by
    unfold bitsOf
    omega
  have b1 : bitsOf (0x38 * 2 ^ 26 + 6 * 2 ^ 22 + d * 2 ^ 16 + a * 2 ^ 10 + b * 2 ^ 2) 25 22 = 6 := by
    unfold bitsOf
    omega
  have b2 : bitsOf (0x38 * 2 ^ 26 + 6 * 2 ^ 22 + d * 2 ^ 16 + a * 2 ^ 10 + b * 2 ^ 2) 21 16 = d := by
    unfold bitsOf
    omega
  have b3 : bitsOf (0x38 * 2 ^ 26 + 6 * 2 ^ 22 + d * 2 ^ 16 + a * 2 ^ 10 + b * 2 ^ 2) 15 10 = a := by
    unfold bitsOf
    omega
  have b4 : bitsOf (0x38 * 2 ^ 26 + 6 * 2 ^ 22 + d * 2 ^ 16 + a * 2 ^ 10 + b * 2 ^ 2) 9 2 = b := by
    unfold bitsOf
    omega
  refine ⟨_, rfl, ?_, decodeScalar_of hw rfl ?_⟩
  · omega
  · have hr : ∀ x, bitsOf x 31 26 = 0x38 → bitsOf x 25 22 = 6 → scalarOf x = some (.sealctx (bitsOf x 21 16) (bitsOf
      x 15 10) (bitsOf x 9 2)) := by
      intro x h0 h1
      unfold scalarOf
      rw [h0]
      show privOf x = _
      unfold privOf
      rw [h1]
      rfl
    rw [hr _ b0 b1, b2, b3, b4]

theorem wfi : Statement (.wfi) := by
  intro hw
  have hw' : (true) = true := hw
  have b0 : bitsOf (encMisc 0x38 7 0 0) 31 26 = 0x38 := by
    unfold bitsOf encMisc
    omega
  have b1 : bitsOf (encMisc 0x38 7 0 0) 25 22 = 7 := by
    unfold bitsOf encMisc
    omega
  refine ⟨_, rfl, ?_, decodeScalar_of hw rfl ?_⟩
  · unfold encMisc
    omega
  · have hr : ∀ x, bitsOf x 31 26 = 0x38 → bitsOf x 25 22 = 7 → scalarOf x = some (.wfi) := by
      intro x h0 h1
      unfold scalarOf
      rw [h0]
      show privOf x = _
      unfold privOf
      rw [h1]
      rfl
    rw [hr _ b0 b1]

theorem xstep : Statement (.xstep) := by
  intro hw
  have hw' : (true) = true := hw
  have b0 : bitsOf (encMisc 0x38 8 0 0) 31 26 = 0x38 := by
    unfold bitsOf encMisc
    omega
  have b1 : bitsOf (encMisc 0x38 8 0 0) 25 22 = 8 := by
    unfold bitsOf encMisc
    omega
  refine ⟨_, rfl, ?_, decodeScalar_of hw rfl ?_⟩
  · unfold encMisc
    omega
  · have hr : ∀ x, bitsOf x 31 26 = 0x38 → bitsOf x 25 22 = 8 → scalarOf x = some (.xstep) := by
      intro x h0 h1
      unfold scalarOf
      rw [h0]
      show privOf x = _
      unfold privOf
      rw [h1]
      rfl
    rw [hr _ b0 b1]

/-! ### Lane instructions -/

theorem iadd (h : LaneHdr) (d : Dst) (ty : Ty) (sat : Bool) (a : Src) (b : Src) : Statement (.iadd h d ty sat a b) :=
    by
  intro hw
  have hw' : (h.ok && ty.isInt && d.ok ty.isPair && a.okInt ty.isPair && b.okInt ty.isPair) = true := hw
  simp only [Bool.and_eq_true] at hw'
  obtain ⟨⟨⟨⟨w0, w1⟩, w2⟩, w3⟩, w4⟩ := hw'
  have hg : h.gp < 64 := by simpa [LaneHdr.ok] using w0
  obtain ⟨d1, d2, -⟩ := dst_ok w2
  obtain ⟨a_lt, a_eq⟩ := src_ofEnc (.inl w3)
  obtain ⟨b_lt, b_eq⟩ := src_ofEnc (.inl w4)
  have := boolEnc_lt h.pr
  have := boolEnc_lt h.gn
  have := ty_lt ty
  have := boolEnc_lt sat
  obtain ⟨m1, m2, m3⟩ := modInt_ok ty sat
  have key : ∀ r : RawLane, r.op = 0x01 → laneOf r = intOf r fun ty sat => src2 r (.iadd (LaneHdr.ofRaw r) (Dst.ofRaw
      r) ty sat) := by
    intro r h1
    unfold laneOf
    rw [h1]
    rfl
  refine lane_word hw rfl ?_ ?_
  · simp only [RawFits, rawHdr, rawAlu]
    omega
  · rw [key _ rfl]
    simp only [rawHdr, rawAlu, intOf, src2, dst_raw, hdr_raw, Option.bind_some, Option.map_some, a_eq, b_eq, m2, m3]

theorem isub (h : LaneHdr) (d : Dst) (ty : Ty) (sat : Bool) (a : Src) (b : Src) : Statement (.isub h d ty sat a b) :=
    by
  intro hw
  have hw' : (h.ok && ty.isInt && d.ok ty.isPair && a.okInt ty.isPair && b.okInt ty.isPair) = true := hw
  simp only [Bool.and_eq_true] at hw'
  obtain ⟨⟨⟨⟨w0, w1⟩, w2⟩, w3⟩, w4⟩ := hw'
  have hg : h.gp < 64 := by simpa [LaneHdr.ok] using w0
  obtain ⟨d1, d2, -⟩ := dst_ok w2
  obtain ⟨a_lt, a_eq⟩ := src_ofEnc (.inl w3)
  obtain ⟨b_lt, b_eq⟩ := src_ofEnc (.inl w4)
  have := boolEnc_lt h.pr
  have := boolEnc_lt h.gn
  have := ty_lt ty
  have := boolEnc_lt sat
  obtain ⟨m1, m2, m3⟩ := modInt_ok ty sat
  have key : ∀ r : RawLane, r.op = 0x02 → laneOf r = intOf r fun ty sat => src2 r (.isub (LaneHdr.ofRaw r) (Dst.ofRaw
      r) ty sat) := by
    intro r h1
    unfold laneOf
    rw [h1]
    rfl
  refine lane_word hw rfl ?_ ?_
  · simp only [RawFits, rawHdr, rawAlu]
    omega
  · rw [key _ rfl]
    simp only [rawHdr, rawAlu, intOf, src2, dst_raw, hdr_raw, Option.bind_some, Option.map_some, a_eq, b_eq, m2, m3]

theorem imul (h : LaneHdr) (d : Dst) (ty : Ty) (sat : Bool) (a : Src) (b : Src) : Statement (.imul h d ty sat a b) :=
    by
  intro hw
  have hw' : (h.ok && ty.isInt && d.ok ty.isPair && a.okInt ty.isPair && b.okInt ty.isPair) = true := hw
  simp only [Bool.and_eq_true] at hw'
  obtain ⟨⟨⟨⟨w0, w1⟩, w2⟩, w3⟩, w4⟩ := hw'
  have hg : h.gp < 64 := by simpa [LaneHdr.ok] using w0
  obtain ⟨d1, d2, -⟩ := dst_ok w2
  obtain ⟨a_lt, a_eq⟩ := src_ofEnc (.inl w3)
  obtain ⟨b_lt, b_eq⟩ := src_ofEnc (.inl w4)
  have := boolEnc_lt h.pr
  have := boolEnc_lt h.gn
  have := ty_lt ty
  have := boolEnc_lt sat
  obtain ⟨m1, m2, m3⟩ := modInt_ok ty sat
  have key : ∀ r : RawLane, r.op = 0x03 → laneOf r = intOf r fun ty sat => src2 r (.imul (LaneHdr.ofRaw r) (Dst.ofRaw
      r) ty sat) := by
    intro r h1
    unfold laneOf
    rw [h1]
    rfl
  refine lane_word hw rfl ?_ ?_
  · simp only [RawFits, rawHdr, rawAlu]
    omega
  · rw [key _ rfl]
    simp only [rawHdr, rawAlu, intOf, src2, dst_raw, hdr_raw, Option.bind_some, Option.map_some, a_eq, b_eq, m2, m3]

theorem imulhi (h : LaneHdr) (d : Dst) (ty : Ty) (a : Src) (b : Src) : Statement (.imulhi h d ty a b) := by
  intro hw
  have hw' : (h.ok && ty.isWide && d.ok ty.isPair && a.okInt ty.isPair && b.okInt ty.isPair) = true := hw
  simp only [Bool.and_eq_true] at hw'
  obtain ⟨⟨⟨⟨w0, w1⟩, w2⟩, w3⟩, w4⟩ := hw'
  have hg : h.gp < 64 := by simpa [LaneHdr.ok] using w0
  obtain ⟨d1, d2, -⟩ := dst_ok w2
  obtain ⟨a_lt, a_eq⟩ := src_ofEnc (.inl w3)
  obtain ⟨b_lt, b_eq⟩ := src_ofEnc (.inl w4)
  have := boolEnc_lt h.pr
  have := boolEnc_lt h.gn
  have := ty_lt ty
  obtain ⟨m1, m2, m3⟩ := modInt_ok ty false
  have key : ∀ r : RawLane, r.op = 0x04 → laneOf r = intOf r fun ty _ => src2 r (.imulhi (LaneHdr.ofRaw r) (Dst.ofRaw
      r) ty) := by
    intro r h1
    unfold laneOf
    rw [h1]
    rfl
  refine lane_word hw rfl ?_ ?_
  · simp only [RawFits, rawHdr, rawAlu]
    omega
  · rw [key _ rfl]
    simp only [rawHdr, rawAlu, intOf, src2, dst_raw, hdr_raw, Option.bind_some, Option.map_some, a_eq, b_eq, m2]

theorem imad (h : LaneHdr) (d : Dst) (ty : Ty) (sat : Bool) (a : Src) (b : Src) (c : Src) : Statement (.imad h d ty
    sat a b c) := by
  intro hw
  have hw' : (h.ok && ty.isInt && d.ok ty.isPair && a.okInt ty.isPair && b.okInt ty.isPair && c.okInt ty.isPair) =
      true := hw
  simp only [Bool.and_eq_true] at hw'
  obtain ⟨⟨⟨⟨⟨w0, w1⟩, w2⟩, w3⟩, w4⟩, w5⟩ := hw'
  have hg : h.gp < 64 := by simpa [LaneHdr.ok] using w0
  obtain ⟨d1, d2, -⟩ := dst_ok w2
  obtain ⟨a_lt, a_eq⟩ := src_ofEnc (.inl w3)
  obtain ⟨b_lt, b_eq⟩ := src_ofEnc (.inl w4)
  obtain ⟨c_lt, c_eq⟩ := src_ofEnc (.inl w5)
  have := boolEnc_lt h.pr
  have := boolEnc_lt h.gn
  have := ty_lt ty
  have := boolEnc_lt sat
  obtain ⟨m1, m2, m3⟩ := modInt_ok ty sat
  have key : ∀ r : RawLane, r.op = 0x05 → laneOf r = intOf r fun ty sat => src3 r (.imad (LaneHdr.ofRaw r) (Dst.ofRaw
      r) ty sat) := by
    intro r h1
    unfold laneOf
    rw [h1]
    rfl
  refine lane_word hw rfl ?_ ?_
  · simp only [RawFits, rawHdr, rawAlu]
    omega
  · rw [key _ rfl]
    simp only [rawHdr, rawAlu, intOf, src3, dst_raw, hdr_raw, Option.bind_some, Option.map_some, a_eq, b_eq, c_eq,
        m2, m3]

theorem imin (h : LaneHdr) (d : Dst) (ty : Ty) (a : Src) (b : Src) : Statement (.imin h d ty a b) := by
  intro hw
  have hw' : (h.ok && ty.isInt && d.ok ty.isPair && a.okInt ty.isPair && b.okInt ty.isPair) = true := hw
  simp only [Bool.and_eq_true] at hw'
  obtain ⟨⟨⟨⟨w0, w1⟩, w2⟩, w3⟩, w4⟩ := hw'
  have hg : h.gp < 64 := by simpa [LaneHdr.ok] using w0
  obtain ⟨d1, d2, -⟩ := dst_ok w2
  obtain ⟨a_lt, a_eq⟩ := src_ofEnc (.inl w3)
  obtain ⟨b_lt, b_eq⟩ := src_ofEnc (.inl w4)
  have := boolEnc_lt h.pr
  have := boolEnc_lt h.gn
  have := ty_lt ty
  obtain ⟨m1, m2, m3⟩ := modInt_ok ty false
  have key : ∀ r : RawLane, r.op = 0x06 → laneOf r = intOf r fun ty _ => src2 r (.imin (LaneHdr.ofRaw r) (Dst.ofRaw
      r) ty) := by
    intro r h1
    unfold laneOf
    rw [h1]
    rfl
  refine lane_word hw rfl ?_ ?_
  · simp only [RawFits, rawHdr, rawAlu]
    omega
  · rw [key _ rfl]
    simp only [rawHdr, rawAlu, intOf, src2, dst_raw, hdr_raw, Option.bind_some, Option.map_some, a_eq, b_eq, m2]

theorem imax (h : LaneHdr) (d : Dst) (ty : Ty) (a : Src) (b : Src) : Statement (.imax h d ty a b) := by
  intro hw
  have hw' : (h.ok && ty.isInt && d.ok ty.isPair && a.okInt ty.isPair && b.okInt ty.isPair) = true := hw
  simp only [Bool.and_eq_true] at hw'
  obtain ⟨⟨⟨⟨w0, w1⟩, w2⟩, w3⟩, w4⟩ := hw'
  have hg : h.gp < 64 := by simpa [LaneHdr.ok] using w0
  obtain ⟨d1, d2, -⟩ := dst_ok w2
  obtain ⟨a_lt, a_eq⟩ := src_ofEnc (.inl w3)
  obtain ⟨b_lt, b_eq⟩ := src_ofEnc (.inl w4)
  have := boolEnc_lt h.pr
  have := boolEnc_lt h.gn
  have := ty_lt ty
  obtain ⟨m1, m2, m3⟩ := modInt_ok ty false
  have key : ∀ r : RawLane, r.op = 0x07 → laneOf r = intOf r fun ty _ => src2 r (.imax (LaneHdr.ofRaw r) (Dst.ofRaw
      r) ty) := by
    intro r h1
    unfold laneOf
    rw [h1]
    rfl
  refine lane_word hw rfl ?_ ?_
  · simp only [RawFits, rawHdr, rawAlu]
    omega
  · rw [key _ rfl]
    simp only [rawHdr, rawAlu, intOf, src2, dst_raw, hdr_raw, Option.bind_some, Option.map_some, a_eq, b_eq, m2]

theorem iabs (h : LaneHdr) (d : Dst) (ty : Ty) (sat : Bool) (a : Src) : Statement (.iabs h d ty sat a) := by
  intro hw
  have hw' : (h.ok && ty.isSigned && d.ok ty.isPair && a.okInt ty.isPair) = true := hw
  simp only [Bool.and_eq_true] at hw'
  obtain ⟨⟨⟨w0, w1⟩, w2⟩, w3⟩ := hw'
  have hg : h.gp < 64 := by simpa [LaneHdr.ok] using w0
  obtain ⟨d1, d2, -⟩ := dst_ok w2
  obtain ⟨a_lt, a_eq⟩ := src_ofEnc (.inl w3)
  have := boolEnc_lt h.pr
  have := boolEnc_lt h.gn
  have := ty_lt ty
  have := boolEnc_lt sat
  obtain ⟨m1, m2, m3⟩ := modInt_ok ty sat
  have key : ∀ r : RawLane, r.op = 0x08 → laneOf r = intOf r fun ty sat => src1 r (.iabs (LaneHdr.ofRaw r) (Dst.ofRaw
      r) ty sat) := by
    intro r h1
    unfold laneOf
    rw [h1]
    rfl
  refine lane_word hw rfl ?_ ?_
  · simp only [RawFits, rawHdr, rawAlu]
    omega
  · rw [key _ rfl]
    simp only [rawHdr, rawAlu, intOf, src1, dst_raw, hdr_raw, Option.bind_some, Option.map_some, a_eq, m2, m3]

theorem ineg (h : LaneHdr) (d : Dst) (ty : Ty) (sat : Bool) (a : Src) : Statement (.ineg h d ty sat a) := by
  intro hw
  have hw' : (h.ok && ty.isSigned && d.ok ty.isPair && a.okInt ty.isPair) = true := hw
  simp only [Bool.and_eq_true] at hw'
  obtain ⟨⟨⟨w0, w1⟩, w2⟩, w3⟩ := hw'
  have hg : h.gp < 64 := by simpa [LaneHdr.ok] using w0
  obtain ⟨d1, d2, -⟩ := dst_ok w2
  obtain ⟨a_lt, a_eq⟩ := src_ofEnc (.inl w3)
  have := boolEnc_lt h.pr
  have := boolEnc_lt h.gn
  have := ty_lt ty
  have := boolEnc_lt sat
  obtain ⟨m1, m2, m3⟩ := modInt_ok ty sat
  have key : ∀ r : RawLane, r.op = 0x09 → laneOf r = intOf r fun ty sat => src1 r (.ineg (LaneHdr.ofRaw r) (Dst.ofRaw
      r) ty sat) := by
    intro r h1
    unfold laneOf
    rw [h1]
    rfl
  refine lane_word hw rfl ?_ ?_
  · simp only [RawFits, rawHdr, rawAlu]
    omega
  · rw [key _ rfl]
    simp only [rawHdr, rawAlu, intOf, src1, dst_raw, hdr_raw, Option.bind_some, Option.map_some, a_eq, m2, m3]

theorem iand (h : LaneHdr) (d : Dst) (ty : Ty) (a : Src) (b : Src) : Statement (.iand h d ty a b) := by
  intro hw
  have hw' : (h.ok && ty.isInt && d.ok ty.isPair && a.okInt ty.isPair && b.okInt ty.isPair) = true := hw
  simp only [Bool.and_eq_true] at hw'
  obtain ⟨⟨⟨⟨w0, w1⟩, w2⟩, w3⟩, w4⟩ := hw'
  have hg : h.gp < 64 := by simpa [LaneHdr.ok] using w0
  obtain ⟨d1, d2, -⟩ := dst_ok w2
  obtain ⟨a_lt, a_eq⟩ := src_ofEnc (.inl w3)
  obtain ⟨b_lt, b_eq⟩ := src_ofEnc (.inl w4)
  have := boolEnc_lt h.pr
  have := boolEnc_lt h.gn
  have := ty_lt ty
  obtain ⟨m1, m2, m3⟩ := modInt_ok ty false
  have key : ∀ r : RawLane, r.op = 0x0A → laneOf r = intOf r fun ty _ => src2 r (.iand (LaneHdr.ofRaw r) (Dst.ofRaw
      r) ty) := by
    intro r h1
    unfold laneOf
    rw [h1]
    rfl
  refine lane_word hw rfl ?_ ?_
  · simp only [RawFits, rawHdr, rawAlu]
    omega
  · rw [key _ rfl]
    simp only [rawHdr, rawAlu, intOf, src2, dst_raw, hdr_raw, Option.bind_some, Option.map_some, a_eq, b_eq, m2]

theorem ior (h : LaneHdr) (d : Dst) (ty : Ty) (a : Src) (b : Src) : Statement (.ior h d ty a b) := by
  intro hw
  have hw' : (h.ok && ty.isInt && d.ok ty.isPair && a.okInt ty.isPair && b.okInt ty.isPair) = true := hw
  simp only [Bool.and_eq_true] at hw'
  obtain ⟨⟨⟨⟨w0, w1⟩, w2⟩, w3⟩, w4⟩ := hw'
  have hg : h.gp < 64 := by simpa [LaneHdr.ok] using w0
  obtain ⟨d1, d2, -⟩ := dst_ok w2
  obtain ⟨a_lt, a_eq⟩ := src_ofEnc (.inl w3)
  obtain ⟨b_lt, b_eq⟩ := src_ofEnc (.inl w4)
  have := boolEnc_lt h.pr
  have := boolEnc_lt h.gn
  have := ty_lt ty
  obtain ⟨m1, m2, m3⟩ := modInt_ok ty false
  have key : ∀ r : RawLane, r.op = 0x0B → laneOf r = intOf r fun ty _ => src2 r (.ior (LaneHdr.ofRaw r) (Dst.ofRaw r)
      ty) := by
    intro r h1
    unfold laneOf
    rw [h1]
    rfl
  refine lane_word hw rfl ?_ ?_
  · simp only [RawFits, rawHdr, rawAlu]
    omega
  · rw [key _ rfl]
    simp only [rawHdr, rawAlu, intOf, src2, dst_raw, hdr_raw, Option.bind_some, Option.map_some, a_eq, b_eq, m2]

theorem ixor (h : LaneHdr) (d : Dst) (ty : Ty) (a : Src) (b : Src) : Statement (.ixor h d ty a b) := by
  intro hw
  have hw' : (h.ok && ty.isInt && d.ok ty.isPair && a.okInt ty.isPair && b.okInt ty.isPair) = true := hw
  simp only [Bool.and_eq_true] at hw'
  obtain ⟨⟨⟨⟨w0, w1⟩, w2⟩, w3⟩, w4⟩ := hw'
  have hg : h.gp < 64 := by simpa [LaneHdr.ok] using w0
  obtain ⟨d1, d2, -⟩ := dst_ok w2
  obtain ⟨a_lt, a_eq⟩ := src_ofEnc (.inl w3)
  obtain ⟨b_lt, b_eq⟩ := src_ofEnc (.inl w4)
  have := boolEnc_lt h.pr
  have := boolEnc_lt h.gn
  have := ty_lt ty
  obtain ⟨m1, m2, m3⟩ := modInt_ok ty false
  have key : ∀ r : RawLane, r.op = 0x0C → laneOf r = intOf r fun ty _ => src2 r (.ixor (LaneHdr.ofRaw r) (Dst.ofRaw
      r) ty) := by
    intro r h1
    unfold laneOf
    rw [h1]
    rfl
  refine lane_word hw rfl ?_ ?_
  · simp only [RawFits, rawHdr, rawAlu]
    omega
  · rw [key _ rfl]
    simp only [rawHdr, rawAlu, intOf, src2, dst_raw, hdr_raw, Option.bind_some, Option.map_some, a_eq, b_eq, m2]

theorem iandn (h : LaneHdr) (d : Dst) (ty : Ty) (a : Src) (b : Src) : Statement (.iandn h d ty a b) := by
  intro hw
  have hw' : (h.ok && ty.isInt && d.ok ty.isPair && a.okInt ty.isPair && b.okInt ty.isPair) = true := hw
  simp only [Bool.and_eq_true] at hw'
  obtain ⟨⟨⟨⟨w0, w1⟩, w2⟩, w3⟩, w4⟩ := hw'
  have hg : h.gp < 64 := by simpa [LaneHdr.ok] using w0
  obtain ⟨d1, d2, -⟩ := dst_ok w2
  obtain ⟨a_lt, a_eq⟩ := src_ofEnc (.inl w3)
  obtain ⟨b_lt, b_eq⟩ := src_ofEnc (.inl w4)
  have := boolEnc_lt h.pr
  have := boolEnc_lt h.gn
  have := ty_lt ty
  obtain ⟨m1, m2, m3⟩ := modInt_ok ty false
  have key : ∀ r : RawLane, r.op = 0x0D → laneOf r = intOf r fun ty _ => src2 r (.iandn (LaneHdr.ofRaw r) (Dst.ofRaw
      r) ty) := by
    intro r h1
    unfold laneOf
    rw [h1]
    rfl
  refine lane_word hw rfl ?_ ?_
  · simp only [RawFits, rawHdr, rawAlu]
    omega
  · rw [key _ rfl]
    simp only [rawHdr, rawAlu, intOf, src2, dst_raw, hdr_raw, Option.bind_some, Option.map_some, a_eq, b_eq, m2]

theorem inot (h : LaneHdr) (d : Dst) (ty : Ty) (a : Src) : Statement (.inot h d ty a) := by
  intro hw
  have hw' : (h.ok && ty.isInt && d.ok ty.isPair && a.okInt ty.isPair) = true := hw
  simp only [Bool.and_eq_true] at hw'
  obtain ⟨⟨⟨w0, w1⟩, w2⟩, w3⟩ := hw'
  have hg : h.gp < 64 := by simpa [LaneHdr.ok] using w0
  obtain ⟨d1, d2, -⟩ := dst_ok w2
  obtain ⟨a_lt, a_eq⟩ := src_ofEnc (.inl w3)
  have := boolEnc_lt h.pr
  have := boolEnc_lt h.gn
  have := ty_lt ty
  obtain ⟨m1, m2, m3⟩ := modInt_ok ty false
  have key : ∀ r : RawLane, r.op = 0x0E → laneOf r = intOf r fun ty _ => src1 r (.inot (LaneHdr.ofRaw r) (Dst.ofRaw
      r) ty) := by
    intro r h1
    unfold laneOf
    rw [h1]
    rfl
  refine lane_word hw rfl ?_ ?_
  · simp only [RawFits, rawHdr, rawAlu]
    omega
  · rw [key _ rfl]
    simp only [rawHdr, rawAlu, intOf, src1, dst_raw, hdr_raw, Option.bind_some, Option.map_some, a_eq, m2]

theorem isel (h : LaneHdr) (d : Dst) (ty : Ty) (a : Src) (b : Src) (p : Nat) : Statement (.isel h d ty a b p) := by
  intro hw
  have hw' : (h.ok && ty.isInt && d.ok ty.isPair && a.okInt ty.isPair && b.okInt ty.isPair && predOk p) = true := hw
  simp only [Bool.and_eq_true] at hw'
  obtain ⟨⟨⟨⟨⟨w0, w1⟩, w2⟩, w3⟩, w4⟩, w5⟩ := hw'
  simp only [predOk, decide_eq_true_eq] at w5
  have hg : h.gp < 64 := by simpa [LaneHdr.ok] using w0
  obtain ⟨d1, d2, -⟩ := dst_ok w2
  obtain ⟨a_lt, a_eq⟩ := src_ofEnc (.inl w3)
  obtain ⟨b_lt, b_eq⟩ := src_ofEnc (.inl w4)
  have := boolEnc_lt h.pr
  have := boolEnc_lt h.gn
  have := ty_lt ty
  obtain ⟨m1, m2, m3⟩ := modInt_ok ty false
  have key : ∀ r : RawLane, r.op = 0x0F → laneOf r = intOf r fun ty _ => src2 r fun a b => .isel (LaneHdr.ofRaw r)
      (Dst.ofRaw r) ty a b (r.sc - 3072) := by
    intro r h1
    unfold laneOf
    rw [h1]
    rfl
  refine lane_word hw rfl ?_ ?_
  · simp only [RawFits, rawHdr, rawAlu]
    omega
  · rw [key _ rfl]
    simp only [rawHdr, rawAlu, intOf, src2, dst_raw, hdr_raw, Option.bind_some, Option.map_some,
        Nat.add_sub_cancel_left, a_eq, b_eq, m2]

theorem ishl (h : LaneHdr) (d : Dst) (ty : Ty) (a : Src) (b : Src) : Statement (.ishl h d ty a b) := by
  intro hw
  have hw' : (h.ok && ty.isInt && d.ok ty.isPair && a.okInt ty.isPair && b.okInt ty.isPair) = true := hw
  simp only [Bool.and_eq_true] at hw'
  obtain ⟨⟨⟨⟨w0, w1⟩, w2⟩, w3⟩, w4⟩ := hw'
  have hg : h.gp < 64 := by simpa [LaneHdr.ok] using w0
  obtain ⟨d1, d2, -⟩ := dst_ok w2
  obtain ⟨a_lt, a_eq⟩ := src_ofEnc (.inl w3)
  obtain ⟨b_lt, b_eq⟩ := src_ofEnc (.inl w4)
  have := boolEnc_lt h.pr
  have := boolEnc_lt h.gn
  have := ty_lt ty
  obtain ⟨m1, m2, m3⟩ := modInt_ok ty false
  have key : ∀ r : RawLane, r.op = 0x10 → laneOf r = intOf r fun ty _ => src2 r (.ishl (LaneHdr.ofRaw r) (Dst.ofRaw
      r) ty) := by
    intro r h1
    unfold laneOf
    rw [h1]
    rfl
  refine lane_word hw rfl ?_ ?_
  · simp only [RawFits, rawHdr, rawAlu]
    omega
  · rw [key _ rfl]
    simp only [rawHdr, rawAlu, intOf, src2, dst_raw, hdr_raw, Option.bind_some, Option.map_some, a_eq, b_eq, m2]

theorem ishr (h : LaneHdr) (d : Dst) (ty : Ty) (a : Src) (b : Src) : Statement (.ishr h d ty a b) := by
  intro hw
  have hw' : (h.ok && ty.isInt && d.ok ty.isPair && a.okInt ty.isPair && b.okInt ty.isPair) = true := hw
  simp only [Bool.and_eq_true] at hw'
  obtain ⟨⟨⟨⟨w0, w1⟩, w2⟩, w3⟩, w4⟩ := hw'
  have hg : h.gp < 64 := by simpa [LaneHdr.ok] using w0
  obtain ⟨d1, d2, -⟩ := dst_ok w2
  obtain ⟨a_lt, a_eq⟩ := src_ofEnc (.inl w3)
  obtain ⟨b_lt, b_eq⟩ := src_ofEnc (.inl w4)
  have := boolEnc_lt h.pr
  have := boolEnc_lt h.gn
  have := ty_lt ty
  obtain ⟨m1, m2, m3⟩ := modInt_ok ty false
  have key : ∀ r : RawLane, r.op = 0x11 → laneOf r = intOf r fun ty _ => src2 r (.ishr (LaneHdr.ofRaw r) (Dst.ofRaw
      r) ty) := by
    intro r h1
    unfold laneOf
    rw [h1]
    rfl
  refine lane_word hw rfl ?_ ?_
  · simp only [RawFits, rawHdr, rawAlu]
    omega
  · rw [key _ rfl]
    simp only [rawHdr, rawAlu, intOf, src2, dst_raw, hdr_raw, Option.bind_some, Option.map_some, a_eq, b_eq, m2]

theorem isra (h : LaneHdr) (d : Dst) (ty : Ty) (a : Src) (b : Src) : Statement (.isra h d ty a b) := by
  intro hw
  have hw' : (h.ok && ty.isInt && d.ok ty.isPair && a.okInt ty.isPair && b.okInt ty.isPair) = true := hw
  simp only [Bool.and_eq_true] at hw'
  obtain ⟨⟨⟨⟨w0, w1⟩, w2⟩, w3⟩, w4⟩ := hw'
  have hg : h.gp < 64 := by simpa [LaneHdr.ok] using w0
  obtain ⟨d1, d2, -⟩ := dst_ok w2
  obtain ⟨a_lt, a_eq⟩ := src_ofEnc (.inl w3)
  obtain ⟨b_lt, b_eq⟩ := src_ofEnc (.inl w4)
  have := boolEnc_lt h.pr
  have := boolEnc_lt h.gn
  have := ty_lt ty
  obtain ⟨m1, m2, m3⟩ := modInt_ok ty false
  have key : ∀ r : RawLane, r.op = 0x12 → laneOf r = intOf r fun ty _ => src2 r (.isra (LaneHdr.ofRaw r) (Dst.ofRaw
      r) ty) := by
    intro r h1
    unfold laneOf
    rw [h1]
    rfl
  refine lane_word hw rfl ?_ ?_
  · simp only [RawFits, rawHdr, rawAlu]
    omega
  · rw [key _ rfl]
    simp only [rawHdr, rawAlu, intOf, src2, dst_raw, hdr_raw, Option.bind_some, Option.map_some, a_eq, b_eq, m2]

theorem ipopc (h : LaneHdr) (d : Dst) (ty : Ty) (a : Src) : Statement (.ipopc h d ty a) := by
  intro hw
  have hw' : (h.ok && ty.isInt && d.ok ty.isPair && a.okInt ty.isPair) = true := hw
  simp only [Bool.and_eq_true] at hw'
  obtain ⟨⟨⟨w0, w1⟩, w2⟩, w3⟩ := hw'
  have hg : h.gp < 64 := by simpa [LaneHdr.ok] using w0
  obtain ⟨d1, d2, -⟩ := dst_ok w2
  obtain ⟨a_lt, a_eq⟩ := src_ofEnc (.inl w3)
  have := boolEnc_lt h.pr
  have := boolEnc_lt h.gn
  have := ty_lt ty
  obtain ⟨m1, m2, m3⟩ := modInt_ok ty false
  have key : ∀ r : RawLane, r.op = 0x13 → laneOf r = intOf r fun ty _ => src1 r (.ipopc (LaneHdr.ofRaw r) (Dst.ofRaw
      r) ty) := by
    intro r h1
    unfold laneOf
    rw [h1]
    rfl
  refine lane_word hw rfl ?_ ?_
  · simp only [RawFits, rawHdr, rawAlu]
    omega
  · rw [key _ rfl]
    simp only [rawHdr, rawAlu, intOf, src1, dst_raw, hdr_raw, Option.bind_some, Option.map_some, a_eq, m2]

theorem iclz (h : LaneHdr) (d : Dst) (ty : Ty) (a : Src) : Statement (.iclz h d ty a) := by
  intro hw
  have hw' : (h.ok && ty.isInt && d.ok ty.isPair && a.okInt ty.isPair) = true := hw
  simp only [Bool.and_eq_true] at hw'
  obtain ⟨⟨⟨w0, w1⟩, w2⟩, w3⟩ := hw'
  have hg : h.gp < 64 := by simpa [LaneHdr.ok] using w0
  obtain ⟨d1, d2, -⟩ := dst_ok w2
  obtain ⟨a_lt, a_eq⟩ := src_ofEnc (.inl w3)
  have := boolEnc_lt h.pr
  have := boolEnc_lt h.gn
  have := ty_lt ty
  obtain ⟨m1, m2, m3⟩ := modInt_ok ty false
  have key : ∀ r : RawLane, r.op = 0x14 → laneOf r = intOf r fun ty _ => src1 r (.iclz (LaneHdr.ofRaw r) (Dst.ofRaw
      r) ty) := by
    intro r h1
    unfold laneOf
    rw [h1]
    rfl
  refine lane_word hw rfl ?_ ?_
  · simp only [RawFits, rawHdr, rawAlu]
    omega
  · rw [key _ rfl]
    simp only [rawHdr, rawAlu, intOf, src1, dst_raw, hdr_raw, Option.bind_some, Option.map_some, a_eq, m2]

theorem laneBrev (h : LaneHdr) (d : Dst) (ty : Ty) (a : Src) : Statement (.laneBrev h d ty a) := by
  intro hw
  have hw' : (h.ok && ty.isInt && d.ok ty.isPair && a.okInt ty.isPair) = true := hw
  simp only [Bool.and_eq_true] at hw'
  obtain ⟨⟨⟨w0, w1⟩, w2⟩, w3⟩ := hw'
  have hg : h.gp < 64 := by simpa [LaneHdr.ok] using w0
  obtain ⟨d1, d2, -⟩ := dst_ok w2
  obtain ⟨a_lt, a_eq⟩ := src_ofEnc (.inl w3)
  have := boolEnc_lt h.pr
  have := boolEnc_lt h.gn
  have := ty_lt ty
  obtain ⟨m1, m2, m3⟩ := modInt_ok ty false
  have key : ∀ r : RawLane, r.op = 0x15 → laneOf r = intOf r fun ty _ => src1 r (.laneBrev (LaneHdr.ofRaw r)
      (Dst.ofRaw r) ty) := by
    intro r h1
    unfold laneOf
    rw [h1]
    rfl
  refine lane_word hw rfl ?_ ?_
  · simp only [RawFits, rawHdr, rawAlu]
    omega
  · rw [key _ rfl]
    simp only [rawHdr, rawAlu, intOf, src1, dst_raw, hdr_raw, Option.bind_some, Option.map_some, a_eq, m2]

theorem prmt (h : LaneHdr) (d : Dst) (a : Src) (b : Src) (c : Src) : Statement (.prmt h d a b c) := by
  intro hw
  have hw' : (h.ok && d.ok false && a.okInt false && b.okInt false && c.okInt false) = true := hw
  simp only [Bool.and_eq_true] at hw'
  obtain ⟨⟨⟨⟨w0, w1⟩, w2⟩, w3⟩, w4⟩ := hw'
  have hg : h.gp < 64 := by simpa [LaneHdr.ok] using w0
  obtain ⟨d1, d2, -⟩ := dst_ok w1
  obtain ⟨a_lt, a_eq⟩ := src_ofEnc (.inl w2)
  obtain ⟨b_lt, b_eq⟩ := src_ofEnc (.inl w3)
  obtain ⟨c_lt, c_eq⟩ := src_ofEnc (.inl w4)
  have := boolEnc_lt h.pr
  have := boolEnc_lt h.gn
  obtain ⟨m1, m2, m3⟩ := modInt_ok .n32 false
  have key : ∀ r : RawLane, r.op = 0x16 → laneOf r = src3 r (.prmt (LaneHdr.ofRaw r) (Dst.ofRaw r)) := by
    intro r h1
    unfold laneOf
    rw [h1]
    rfl
  refine lane_word hw rfl ?_ ?_
  · simp only [RawFits, rawHdr, rawAlu]
    omega
  · rw [key _ rfl]
    simp only [rawHdr, rawAlu, src3, dst_raw, hdr_raw, Option.bind_some, Option.map_some, a_eq, b_eq, c_eq, m2]

theorem laneBfe (h : LaneHdr) (d : Dst) (ty : Ty) (a : Src) (b : Src) : Statement (.laneBfe h d ty a b) := by
  intro hw
  have hw' : (h.ok && ty.isWide && d.ok ty.isPair && a.okInt ty.isPair && b.okInt ty.isPair) = true := hw
  simp only [Bool.and_eq_true] at hw'
  obtain ⟨⟨⟨⟨w0, w1⟩, w2⟩, w3⟩, w4⟩ := hw'
  have hg : h.gp < 64 := by simpa [LaneHdr.ok] using w0
  obtain ⟨d1, d2, -⟩ := dst_ok w2
  obtain ⟨a_lt, a_eq⟩ := src_ofEnc (.inl w3)
  obtain ⟨b_lt, b_eq⟩ := src_ofEnc (.inl w4)
  have := boolEnc_lt h.pr
  have := boolEnc_lt h.gn
  have := ty_lt ty
  obtain ⟨m1, m2, m3⟩ := modInt_ok ty false
  have key : ∀ r : RawLane, r.op = 0x17 → laneOf r = intOf r fun ty _ => src2 r (.laneBfe (LaneHdr.ofRaw r)
      (Dst.ofRaw r) ty) := by
    intro r h1
    unfold laneOf
    rw [h1]
    rfl
  refine lane_word hw rfl ?_ ?_
  · simp only [RawFits, rawHdr, rawAlu]
    omega
  · rw [key _ rfl]
    simp only [rawHdr, rawAlu, intOf, src2, dst_raw, hdr_raw, Option.bind_some, Option.map_some, a_eq, b_eq, m2]

theorem laneBfi (h : LaneHdr) (d : Dst) (ty : Ty) (a : Src) (b : Src) (c : Src) : Statement (.laneBfi h d ty a b c)
    := by
  intro hw
  have hw' : (h.ok && (ty == .n32 || ty == .n64) && d.ok ty.isPair && a.okInt ty.isPair && b.okInt ty.isPair &&
      c.okInt ty.isPair) = true := hw
  simp only [Bool.and_eq_true] at hw'
  obtain ⟨⟨⟨⟨⟨w0, w1⟩, w2⟩, w3⟩, w4⟩, w5⟩ := hw'
  have hg : h.gp < 64 := by simpa [LaneHdr.ok] using w0
  obtain ⟨d1, d2, -⟩ := dst_ok w2
  obtain ⟨a_lt, a_eq⟩ := src_ofEnc (.inl w3)
  obtain ⟨b_lt, b_eq⟩ := src_ofEnc (.inl w4)
  obtain ⟨c_lt, c_eq⟩ := src_ofEnc (.inl w5)
  have := boolEnc_lt h.pr
  have := boolEnc_lt h.gn
  have := ty_lt ty
  obtain ⟨m1, m2, m3⟩ := modInt_ok ty false
  have key : ∀ r : RawLane, r.op = 0x18 → laneOf r = intOf r fun ty _ => src3 r (.laneBfi (LaneHdr.ofRaw r)
      (Dst.ofRaw r) ty) := by
    intro r h1
    unfold laneOf
    rw [h1]
    rfl
  refine lane_word hw rfl ?_ ?_
  · simp only [RawFits, rawHdr, rawAlu]
    omega
  · rw [key _ rfl]
    simp only [rawHdr, rawAlu, intOf, src3, dst_raw, hdr_raw, Option.bind_some, Option.map_some, a_eq, b_eq, c_eq, m2]

theorem idp4 (h : LaneHdr) (d : Dst) (ty : Ty) (sat : Bool) (a : Src) (b : Src) (c : Src) : Statement (.idp4 h d ty
    sat a b c) := by
  intro hw
  have hw' : (h.ok && (ty == .i32 || ty == .n32) && d.ok false && a.okInt false && b.okInt false && c.okInt false) =
      true := hw
  simp only [Bool.and_eq_true] at hw'
  obtain ⟨⟨⟨⟨⟨w0, w1⟩, w2⟩, w3⟩, w4⟩, w5⟩ := hw'
  have hg : h.gp < 64 := by simpa [LaneHdr.ok] using w0
  obtain ⟨d1, d2, -⟩ := dst_ok w2
  obtain ⟨a_lt, a_eq⟩ := src_ofEnc (.inl w3)
  obtain ⟨b_lt, b_eq⟩ := src_ofEnc (.inl w4)
  obtain ⟨c_lt, c_eq⟩ := src_ofEnc (.inl w5)
  have := boolEnc_lt h.pr
  have := boolEnc_lt h.gn
  have := ty_lt ty
  have := boolEnc_lt sat
  obtain ⟨m1, m2, m3⟩ := modInt_ok ty sat
  have key : ∀ r : RawLane, r.op = 0x19 → laneOf r = intOf r fun ty sat => src3 r (.idp4 (LaneHdr.ofRaw r) (Dst.ofRaw
      r) ty sat) := by
    intro r h1
    unfold laneOf
    rw [h1]
    rfl
  refine lane_word hw rfl ?_ ?_
  · simp only [RawFits, rawHdr, rawAlu]
    omega
  · rw [key _ rfl]
    simp only [rawHdr, rawAlu, intOf, src3, dst_raw, hdr_raw, Option.bind_some, Option.map_some, a_eq, b_eq, c_eq,
        m2, m3]

theorem fadd (h : LaneHdr) (d : Dst) (rnd : Rnd) (a : Src) (b : Src) : Statement (.fadd h d rnd a b) := by
  intro hw
  have hw' : (h.ok && d.ok false && a.okFp false && b.okFp false) = true := hw
  simp only [Bool.and_eq_true] at hw'
  obtain ⟨⟨⟨w0, w1⟩, w2⟩, w3⟩ := hw'
  have hg : h.gp < 64 := by simpa [LaneHdr.ok] using w0
  obtain ⟨d1, d2, -⟩ := dst_ok w1
  obtain ⟨a_lt, a_eq⟩ := src_ofEnc (.inr w2)
  obtain ⟨b_lt, b_eq⟩ := src_ofEnc (.inr w3)
  have := boolEnc_lt h.pr
  have := boolEnc_lt h.gn
  have := rnd_lt rnd
  have n0 : (rnd.code * 2 ^ 10) / 2 ^ 10 = rnd.code := by omega
  have key : ∀ r : RawLane, r.op = 0x20 → laneOf r = rndOf r fun m => src2 r (.fadd (LaneHdr.ofRaw r) (Dst.ofRaw r)
      m) := by
    intro r h1
    unfold laneOf
    rw [h1]
    rfl
  refine lane_word hw rfl ?_ ?_
  · simp only [RawFits, rawHdr, rawAlu]
    omega
  · rw [key _ rfl]
    simp only [rawHdr, rawAlu, src2, rndOf, dst_raw, hdr_raw, Option.bind_some, Option.map_some, a_eq, b_eq,
        rnd_code, n0]

theorem fsub (h : LaneHdr) (d : Dst) (rnd : Rnd) (a : Src) (b : Src) : Statement (.fsub h d rnd a b) := by
  intro hw
  have hw' : (h.ok && d.ok false && a.okFp false && b.okFp false) = true := hw
  simp only [Bool.and_eq_true] at hw'
  obtain ⟨⟨⟨w0, w1⟩, w2⟩, w3⟩ := hw'
  have hg : h.gp < 64 := by simpa [LaneHdr.ok] using w0
  obtain ⟨d1, d2, -⟩ := dst_ok w1
  obtain ⟨a_lt, a_eq⟩ := src_ofEnc (.inr w2)
  obtain ⟨b_lt, b_eq⟩ := src_ofEnc (.inr w3)
  have := boolEnc_lt h.pr
  have := boolEnc_lt h.gn
  have := rnd_lt rnd
  have n0 : (rnd.code * 2 ^ 10) / 2 ^ 10 = rnd.code := by omega
  have key : ∀ r : RawLane, r.op = 0x21 → laneOf r = rndOf r fun m => src2 r (.fsub (LaneHdr.ofRaw r) (Dst.ofRaw r)
      m) := by
    intro r h1
    unfold laneOf
    rw [h1]
    rfl
  refine lane_word hw rfl ?_ ?_
  · simp only [RawFits, rawHdr, rawAlu]
    omega
  · rw [key _ rfl]
    simp only [rawHdr, rawAlu, src2, rndOf, dst_raw, hdr_raw, Option.bind_some, Option.map_some, a_eq, b_eq,
        rnd_code, n0]

theorem fmul (h : LaneHdr) (d : Dst) (rnd : Rnd) (a : Src) (b : Src) : Statement (.fmul h d rnd a b) := by
  intro hw
  have hw' : (h.ok && d.ok false && a.okFp false && b.okFp false) = true := hw
  simp only [Bool.and_eq_true] at hw'
  obtain ⟨⟨⟨w0, w1⟩, w2⟩, w3⟩ := hw'
  have hg : h.gp < 64 := by simpa [LaneHdr.ok] using w0
  obtain ⟨d1, d2, -⟩ := dst_ok w1
  obtain ⟨a_lt, a_eq⟩ := src_ofEnc (.inr w2)
  obtain ⟨b_lt, b_eq⟩ := src_ofEnc (.inr w3)
  have := boolEnc_lt h.pr
  have := boolEnc_lt h.gn
  have := rnd_lt rnd
  have n0 : (rnd.code * 2 ^ 10) / 2 ^ 10 = rnd.code := by omega
  have key : ∀ r : RawLane, r.op = 0x22 → laneOf r = rndOf r fun m => src2 r (.fmul (LaneHdr.ofRaw r) (Dst.ofRaw r)
      m) := by
    intro r h1
    unfold laneOf
    rw [h1]
    rfl
  refine lane_word hw rfl ?_ ?_
  · simp only [RawFits, rawHdr, rawAlu]
    omega
  · rw [key _ rfl]
    simp only [rawHdr, rawAlu, src2, rndOf, dst_raw, hdr_raw, Option.bind_some, Option.map_some, a_eq, b_eq,
        rnd_code, n0]

theorem ffma (h : LaneHdr) (d : Dst) (rnd : Rnd) (a : Src) (b : Src) (c : Src) : Statement (.ffma h d rnd a b c) := by
  intro hw
  have hw' : (h.ok && d.ok false && a.okFp false && b.okFp false && c.okFp false) = true := hw
  simp only [Bool.and_eq_true] at hw'
  obtain ⟨⟨⟨⟨w0, w1⟩, w2⟩, w3⟩, w4⟩ := hw'
  have hg : h.gp < 64 := by simpa [LaneHdr.ok] using w0
  obtain ⟨d1, d2, -⟩ := dst_ok w1
  obtain ⟨a_lt, a_eq⟩ := src_ofEnc (.inr w2)
  obtain ⟨b_lt, b_eq⟩ := src_ofEnc (.inr w3)
  obtain ⟨c_lt, c_eq⟩ := src_ofEnc (.inr w4)
  have := boolEnc_lt h.pr
  have := boolEnc_lt h.gn
  have := rnd_lt rnd
  have n0 : (rnd.code * 2 ^ 10) / 2 ^ 10 = rnd.code := by omega
  have key : ∀ r : RawLane, r.op = 0x23 → laneOf r = rndOf r fun m => src3 r (.ffma (LaneHdr.ofRaw r) (Dst.ofRaw r)
      m) := by
    intro r h1
    unfold laneOf
    rw [h1]
    rfl
  refine lane_word hw rfl ?_ ?_
  · simp only [RawFits, rawHdr, rawAlu]
    omega
  · rw [key _ rfl]
    simp only [rawHdr, rawAlu, src3, rndOf, dst_raw, hdr_raw, Option.bind_some, Option.map_some, a_eq, b_eq, c_eq,
        rnd_code, n0]

theorem fmin (h : LaneHdr) (d : Dst) (a : Src) (b : Src) : Statement (.fmin h d a b) := by
  intro hw
  have hw' : (h.ok && d.ok false && a.okFp false && b.okFp false) = true := hw
  simp only [Bool.and_eq_true] at hw'
  obtain ⟨⟨⟨w0, w1⟩, w2⟩, w3⟩ := hw'
  have hg : h.gp < 64 := by simpa [LaneHdr.ok] using w0
  obtain ⟨d1, d2, -⟩ := dst_ok w1
  obtain ⟨a_lt, a_eq⟩ := src_ofEnc (.inr w2)
  obtain ⟨b_lt, b_eq⟩ := src_ofEnc (.inr w3)
  have := boolEnc_lt h.pr
  have := boolEnc_lt h.gn
  have key : ∀ r : RawLane, r.op = 0x24 → laneOf r = src2 r (.fmin (LaneHdr.ofRaw r) (Dst.ofRaw r)) := by
    intro r h1
    unfold laneOf
    rw [h1]
    rfl
  refine lane_word hw rfl ?_ ?_
  · simp only [RawFits, rawHdr, rawAlu]
    omega
  · rw [key _ rfl]
    simp only [rawHdr, rawAlu, src2, dst_raw, hdr_raw, Option.bind_some, Option.map_some, a_eq, b_eq]

theorem fmax (h : LaneHdr) (d : Dst) (a : Src) (b : Src) : Statement (.fmax h d a b) := by
  intro hw
  have hw' : (h.ok && d.ok false && a.okFp false && b.okFp false) = true := hw
  simp only [Bool.and_eq_true] at hw'
  obtain ⟨⟨⟨w0, w1⟩, w2⟩, w3⟩ := hw'
  have hg : h.gp < 64 := by simpa [LaneHdr.ok] using w0
  obtain ⟨d1, d2, -⟩ := dst_ok w1
  obtain ⟨a_lt, a_eq⟩ := src_ofEnc (.inr w2)
  obtain ⟨b_lt, b_eq⟩ := src_ofEnc (.inr w3)
  have := boolEnc_lt h.pr
  have := boolEnc_lt h.gn
  have key : ∀ r : RawLane, r.op = 0x25 → laneOf r = src2 r (.fmax (LaneHdr.ofRaw r) (Dst.ofRaw r)) := by
    intro r h1
    unfold laneOf
    rw [h1]
    rfl
  refine lane_word hw rfl ?_ ?_
  · simp only [RawFits, rawHdr, rawAlu]
    omega
  · rw [key _ rfl]
    simp only [rawHdr, rawAlu, src2, dst_raw, hdr_raw, Option.bind_some, Option.map_some, a_eq, b_eq]

theorem fabs (h : LaneHdr) (d : Dst) (a : Src) : Statement (.fabs h d a) := by
  intro hw
  have hw' : (h.ok && d.ok false && a.okFp false) = true := hw
  simp only [Bool.and_eq_true] at hw'
  obtain ⟨⟨w0, w1⟩, w2⟩ := hw'
  have hg : h.gp < 64 := by simpa [LaneHdr.ok] using w0
  obtain ⟨d1, d2, -⟩ := dst_ok w1
  obtain ⟨a_lt, a_eq⟩ := src_ofEnc (.inr w2)
  have := boolEnc_lt h.pr
  have := boolEnc_lt h.gn
  have key : ∀ r : RawLane, r.op = 0x26 → laneOf r = src1 r (.fabs (LaneHdr.ofRaw r) (Dst.ofRaw r)) := by
    intro r h1
    unfold laneOf
    rw [h1]
    rfl
  refine lane_word hw rfl ?_ ?_
  · simp only [RawFits, rawHdr, rawAlu]
    omega
  · rw [key _ rfl]
    simp only [rawHdr, rawAlu, src1, dst_raw, hdr_raw, Option.map_some, a_eq]

theorem fneg (h : LaneHdr) (d : Dst) (a : Src) : Statement (.fneg h d a) := by
  intro hw
  have hw' : (h.ok && d.ok false && a.okFp false) = true := hw
  simp only [Bool.and_eq_true] at hw'
  obtain ⟨⟨w0, w1⟩, w2⟩ := hw'
  have hg : h.gp < 64 := by simpa [LaneHdr.ok] using w0
  obtain ⟨d1, d2, -⟩ := dst_ok w1
  obtain ⟨a_lt, a_eq⟩ := src_ofEnc (.inr w2)
  have := boolEnc_lt h.pr
  have := boolEnc_lt h.gn
  have key : ∀ r : RawLane, r.op = 0x27 → laneOf r = src1 r (.fneg (LaneHdr.ofRaw r) (Dst.ofRaw r)) := by
    intro r h1
    unfold laneOf
    rw [h1]
    rfl
  refine lane_word hw rfl ?_ ?_
  · simp only [RawFits, rawHdr, rawAlu]
    omega
  · rw [key _ rfl]
    simp only [rawHdr, rawAlu, src1, dst_raw, hdr_raw, Option.map_some, a_eq]

theorem frcp (h : LaneHdr) (d : Dst) (rnd : Rnd) (a : Src) : Statement (.frcp h d rnd a) := by
  intro hw
  have hw' : (h.ok && d.ok false && a.okFp false) = true := hw
  simp only [Bool.and_eq_true] at hw'
  obtain ⟨⟨w0, w1⟩, w2⟩ := hw'
  have hg : h.gp < 64 := by simpa [LaneHdr.ok] using w0
  obtain ⟨d1, d2, -⟩ := dst_ok w1
  obtain ⟨a_lt, a_eq⟩ := src_ofEnc (.inr w2)
  have := boolEnc_lt h.pr
  have := boolEnc_lt h.gn
  have := rnd_lt rnd
  have n0 : (rnd.code * 2 ^ 10) / 2 ^ 10 = rnd.code := by omega
  have key : ∀ r : RawLane, r.op = 0x28 → laneOf r = rndOf r fun m => src1 r (.frcp (LaneHdr.ofRaw r) (Dst.ofRaw r)
      m) := by
    intro r h1
    unfold laneOf
    rw [h1]
    rfl
  refine lane_word hw rfl ?_ ?_
  · simp only [RawFits, rawHdr, rawAlu]
    omega
  · rw [key _ rfl]
    simp only [rawHdr, rawAlu, src1, rndOf, dst_raw, hdr_raw, Option.bind_some, Option.map_some, a_eq, rnd_code, n0]

theorem frsq (h : LaneHdr) (d : Dst) (rnd : Rnd) (a : Src) : Statement (.frsq h d rnd a) := by
  intro hw
  have hw' : (h.ok && d.ok false && a.okFp false) = true := hw
  simp only [Bool.and_eq_true] at hw'
  obtain ⟨⟨w0, w1⟩, w2⟩ := hw'
  have hg : h.gp < 64 := by simpa [LaneHdr.ok] using w0
  obtain ⟨d1, d2, -⟩ := dst_ok w1
  obtain ⟨a_lt, a_eq⟩ := src_ofEnc (.inr w2)
  have := boolEnc_lt h.pr
  have := boolEnc_lt h.gn
  have := rnd_lt rnd
  have n0 : (rnd.code * 2 ^ 10) / 2 ^ 10 = rnd.code := by omega
  have key : ∀ r : RawLane, r.op = 0x29 → laneOf r = rndOf r fun m => src1 r (.frsq (LaneHdr.ofRaw r) (Dst.ofRaw r)
      m) := by
    intro r h1
    unfold laneOf
    rw [h1]
    rfl
  refine lane_word hw rfl ?_ ?_
  · simp only [RawFits, rawHdr, rawAlu]
    omega
  · rw [key _ rfl]
    simp only [rawHdr, rawAlu, src1, rndOf, dst_raw, hdr_raw, Option.bind_some, Option.map_some, a_eq, rnd_code, n0]

theorem fsqrt (h : LaneHdr) (d : Dst) (rnd : Rnd) (a : Src) : Statement (.fsqrt h d rnd a) := by
  intro hw
  have hw' : (h.ok && d.ok false && a.okFp false) = true := hw
  simp only [Bool.and_eq_true] at hw'
  obtain ⟨⟨w0, w1⟩, w2⟩ := hw'
  have hg : h.gp < 64 := by simpa [LaneHdr.ok] using w0
  obtain ⟨d1, d2, -⟩ := dst_ok w1
  obtain ⟨a_lt, a_eq⟩ := src_ofEnc (.inr w2)
  have := boolEnc_lt h.pr
  have := boolEnc_lt h.gn
  have := rnd_lt rnd
  have n0 : (rnd.code * 2 ^ 10) / 2 ^ 10 = rnd.code := by omega
  have key : ∀ r : RawLane, r.op = 0x2A → laneOf r = rndOf r fun m => src1 r (.fsqrt (LaneHdr.ofRaw r) (Dst.ofRaw r)
      m) := by
    intro r h1
    unfold laneOf
    rw [h1]
    rfl
  refine lane_word hw rfl ?_ ?_
  · simp only [RawFits, rawHdr, rawAlu]
    omega
  · rw [key _ rfl]
    simp only [rawHdr, rawAlu, src1, rndOf, dst_raw, hdr_raw, Option.bind_some, Option.map_some, a_eq, rnd_code, n0]

theorem fdiv (h : LaneHdr) (d : Dst) (rnd : Rnd) (a : Src) (b : Src) : Statement (.fdiv h d rnd a b) := by
  intro hw
  have hw' : (h.ok && d.ok false && a.okFp false && b.okFp false) = true := hw
  simp only [Bool.and_eq_true] at hw'
  obtain ⟨⟨⟨w0, w1⟩, w2⟩, w3⟩ := hw'
  have hg : h.gp < 64 := by simpa [LaneHdr.ok] using w0
  obtain ⟨d1, d2, -⟩ := dst_ok w1
  obtain ⟨a_lt, a_eq⟩ := src_ofEnc (.inr w2)
  obtain ⟨b_lt, b_eq⟩ := src_ofEnc (.inr w3)
  have := boolEnc_lt h.pr
  have := boolEnc_lt h.gn
  have := rnd_lt rnd
  have n0 : (rnd.code * 2 ^ 10) / 2 ^ 10 = rnd.code := by omega
  have key : ∀ r : RawLane, r.op = 0x2B → laneOf r = rndOf r fun m => src2 r (.fdiv (LaneHdr.ofRaw r) (Dst.ofRaw r)
      m) := by
    intro r h1
    unfold laneOf
    rw [h1]
    rfl
  refine lane_word hw rfl ?_ ?_
  · simp only [RawFits, rawHdr, rawAlu]
    omega
  · rw [key _ rfl]
    simp only [rawHdr, rawAlu, src2, rndOf, dst_raw, hdr_raw, Option.bind_some, Option.map_some, a_eq, b_eq,
        rnd_code, n0]

theorem fexp2 (h : LaneHdr) (d : Dst) (a : Src) : Statement (.fexp2 h d a) := by
  intro hw
  have hw' : (h.ok && d.ok false && a.okFp false) = true := hw
  simp only [Bool.and_eq_true] at hw'
  obtain ⟨⟨w0, w1⟩, w2⟩ := hw'
  have hg : h.gp < 64 := by simpa [LaneHdr.ok] using w0
  obtain ⟨d1, d2, -⟩ := dst_ok w1
  obtain ⟨a_lt, a_eq⟩ := src_ofEnc (.inr w2)
  have := boolEnc_lt h.pr
  have := boolEnc_lt h.gn
  have key : ∀ r : RawLane, r.op = 0x2C → laneOf r = src1 r (.fexp2 (LaneHdr.ofRaw r) (Dst.ofRaw r)) := by
    intro r h1
    unfold laneOf
    rw [h1]
    rfl
  refine lane_word hw rfl ?_ ?_
  · simp only [RawFits, rawHdr, rawAlu]
    omega
  · rw [key _ rfl]
    simp only [rawHdr, rawAlu, src1, dst_raw, hdr_raw, Option.map_some, a_eq]

theorem flog2 (h : LaneHdr) (d : Dst) (a : Src) : Statement (.flog2 h d a) := by
  intro hw
  have hw' : (h.ok && d.ok false && a.okFp false) = true := hw
  simp only [Bool.and_eq_true] at hw'
  obtain ⟨⟨w0, w1⟩, w2⟩ := hw'
  have hg : h.gp < 64 := by simpa [LaneHdr.ok] using w0
  obtain ⟨d1, d2, -⟩ := dst_ok w1
  obtain ⟨a_lt, a_eq⟩ := src_ofEnc (.inr w2)
  have := boolEnc_lt h.pr
  have := boolEnc_lt h.gn
  have key : ∀ r : RawLane, r.op = 0x2D → laneOf r = src1 r (.flog2 (LaneHdr.ofRaw r) (Dst.ofRaw r)) := by
    intro r h1
    unfold laneOf
    rw [h1]
    rfl
  refine lane_word hw rfl ?_ ?_
  · simp only [RawFits, rawHdr, rawAlu]
    omega
  · rw [key _ rfl]
    simp only [rawHdr, rawAlu, src1, dst_raw, hdr_raw, Option.map_some, a_eq]

theorem dadd (h : LaneHdr) (d : Dst) (rnd : Rnd) (a : Src) (b : Src) : Statement (.dadd h d rnd a b) := by
  intro hw
  have hw' : (h.ok && d.ok true && a.okFp true && b.okFp true) = true := hw
  simp only [Bool.and_eq_true] at hw'
  obtain ⟨⟨⟨w0, w1⟩, w2⟩, w3⟩ := hw'
  have hg : h.gp < 64 := by simpa [LaneHdr.ok] using w0
  obtain ⟨d1, d2, -⟩ := dst_ok w1
  obtain ⟨a_lt, a_eq⟩ := src_ofEnc (.inr w2)
  obtain ⟨b_lt, b_eq⟩ := src_ofEnc (.inr w3)
  have := boolEnc_lt h.pr
  have := boolEnc_lt h.gn
  have := rnd_lt rnd
  have n0 : (rnd.code * 2 ^ 10) / 2 ^ 10 = rnd.code := by omega
  have key : ∀ r : RawLane, r.op = 0x30 → laneOf r = rndOf r fun m => src2 r (.dadd (LaneHdr.ofRaw r) (Dst.ofRaw r)
      m) := by
    intro r h1
    unfold laneOf
    rw [h1]
    rfl
  refine lane_word hw rfl ?_ ?_
  · simp only [RawFits, rawHdr, rawAlu]
    omega
  · rw [key _ rfl]
    simp only [rawHdr, rawAlu, src2, rndOf, dst_raw, hdr_raw, Option.bind_some, Option.map_some, a_eq, b_eq,
        rnd_code, n0]

theorem dsub (h : LaneHdr) (d : Dst) (rnd : Rnd) (a : Src) (b : Src) : Statement (.dsub h d rnd a b) := by
  intro hw
  have hw' : (h.ok && d.ok true && a.okFp true && b.okFp true) = true := hw
  simp only [Bool.and_eq_true] at hw'
  obtain ⟨⟨⟨w0, w1⟩, w2⟩, w3⟩ := hw'
  have hg : h.gp < 64 := by simpa [LaneHdr.ok] using w0
  obtain ⟨d1, d2, -⟩ := dst_ok w1
  obtain ⟨a_lt, a_eq⟩ := src_ofEnc (.inr w2)
  obtain ⟨b_lt, b_eq⟩ := src_ofEnc (.inr w3)
  have := boolEnc_lt h.pr
  have := boolEnc_lt h.gn
  have := rnd_lt rnd
  have n0 : (rnd.code * 2 ^ 10) / 2 ^ 10 = rnd.code := by omega
  have key : ∀ r : RawLane, r.op = 0x31 → laneOf r = rndOf r fun m => src2 r (.dsub (LaneHdr.ofRaw r) (Dst.ofRaw r)
      m) := by
    intro r h1
    unfold laneOf
    rw [h1]
    rfl
  refine lane_word hw rfl ?_ ?_
  · simp only [RawFits, rawHdr, rawAlu]
    omega
  · rw [key _ rfl]
    simp only [rawHdr, rawAlu, src2, rndOf, dst_raw, hdr_raw, Option.bind_some, Option.map_some, a_eq, b_eq,
        rnd_code, n0]

theorem dmul (h : LaneHdr) (d : Dst) (rnd : Rnd) (a : Src) (b : Src) : Statement (.dmul h d rnd a b) := by
  intro hw
  have hw' : (h.ok && d.ok true && a.okFp true && b.okFp true) = true := hw
  simp only [Bool.and_eq_true] at hw'
  obtain ⟨⟨⟨w0, w1⟩, w2⟩, w3⟩ := hw'
  have hg : h.gp < 64 := by simpa [LaneHdr.ok] using w0
  obtain ⟨d1, d2, -⟩ := dst_ok w1
  obtain ⟨a_lt, a_eq⟩ := src_ofEnc (.inr w2)
  obtain ⟨b_lt, b_eq⟩ := src_ofEnc (.inr w3)
  have := boolEnc_lt h.pr
  have := boolEnc_lt h.gn
  have := rnd_lt rnd
  have n0 : (rnd.code * 2 ^ 10) / 2 ^ 10 = rnd.code := by omega
  have key : ∀ r : RawLane, r.op = 0x32 → laneOf r = rndOf r fun m => src2 r (.dmul (LaneHdr.ofRaw r) (Dst.ofRaw r)
      m) := by
    intro r h1
    unfold laneOf
    rw [h1]
    rfl
  refine lane_word hw rfl ?_ ?_
  · simp only [RawFits, rawHdr, rawAlu]
    omega
  · rw [key _ rfl]
    simp only [rawHdr, rawAlu, src2, rndOf, dst_raw, hdr_raw, Option.bind_some, Option.map_some, a_eq, b_eq,
        rnd_code, n0]

theorem dfma (h : LaneHdr) (d : Dst) (rnd : Rnd) (a : Src) (b : Src) (c : Src) : Statement (.dfma h d rnd a b c) := by
  intro hw
  have hw' : (h.ok && d.ok true && a.okFp true && b.okFp true && c.okFp true) = true := hw
  simp only [Bool.and_eq_true] at hw'
  obtain ⟨⟨⟨⟨w0, w1⟩, w2⟩, w3⟩, w4⟩ := hw'
  have hg : h.gp < 64 := by simpa [LaneHdr.ok] using w0
  obtain ⟨d1, d2, -⟩ := dst_ok w1
  obtain ⟨a_lt, a_eq⟩ := src_ofEnc (.inr w2)
  obtain ⟨b_lt, b_eq⟩ := src_ofEnc (.inr w3)
  obtain ⟨c_lt, c_eq⟩ := src_ofEnc (.inr w4)
  have := boolEnc_lt h.pr
  have := boolEnc_lt h.gn
  have := rnd_lt rnd
  have n0 : (rnd.code * 2 ^ 10) / 2 ^ 10 = rnd.code := by omega
  have key : ∀ r : RawLane, r.op = 0x33 → laneOf r = rndOf r fun m => src3 r (.dfma (LaneHdr.ofRaw r) (Dst.ofRaw r)
      m) := by
    intro r h1
    unfold laneOf
    rw [h1]
    rfl
  refine lane_word hw rfl ?_ ?_
  · simp only [RawFits, rawHdr, rawAlu]
    omega
  · rw [key _ rfl]
    simp only [rawHdr, rawAlu, src3, rndOf, dst_raw, hdr_raw, Option.bind_some, Option.map_some, a_eq, b_eq, c_eq,
        rnd_code, n0]

theorem dmin (h : LaneHdr) (d : Dst) (a : Src) (b : Src) : Statement (.dmin h d a b) := by
  intro hw
  have hw' : (h.ok && d.ok true && a.okFp true && b.okFp true) = true := hw
  simp only [Bool.and_eq_true] at hw'
  obtain ⟨⟨⟨w0, w1⟩, w2⟩, w3⟩ := hw'
  have hg : h.gp < 64 := by simpa [LaneHdr.ok] using w0
  obtain ⟨d1, d2, -⟩ := dst_ok w1
  obtain ⟨a_lt, a_eq⟩ := src_ofEnc (.inr w2)
  obtain ⟨b_lt, b_eq⟩ := src_ofEnc (.inr w3)
  have := boolEnc_lt h.pr
  have := boolEnc_lt h.gn
  have key : ∀ r : RawLane, r.op = 0x34 → laneOf r = src2 r (.dmin (LaneHdr.ofRaw r) (Dst.ofRaw r)) := by
    intro r h1
    unfold laneOf
    rw [h1]
    rfl
  refine lane_word hw rfl ?_ ?_
  · simp only [RawFits, rawHdr, rawAlu]
    omega
  · rw [key _ rfl]
    simp only [rawHdr, rawAlu, src2, dst_raw, hdr_raw, Option.bind_some, Option.map_some, a_eq, b_eq]

theorem dmax (h : LaneHdr) (d : Dst) (a : Src) (b : Src) : Statement (.dmax h d a b) := by
  intro hw
  have hw' : (h.ok && d.ok true && a.okFp true && b.okFp true) = true := hw
  simp only [Bool.and_eq_true] at hw'
  obtain ⟨⟨⟨w0, w1⟩, w2⟩, w3⟩ := hw'
  have hg : h.gp < 64 := by simpa [LaneHdr.ok] using w0
  obtain ⟨d1, d2, -⟩ := dst_ok w1
  obtain ⟨a_lt, a_eq⟩ := src_ofEnc (.inr w2)
  obtain ⟨b_lt, b_eq⟩ := src_ofEnc (.inr w3)
  have := boolEnc_lt h.pr
  have := boolEnc_lt h.gn
  have key : ∀ r : RawLane, r.op = 0x35 → laneOf r = src2 r (.dmax (LaneHdr.ofRaw r) (Dst.ofRaw r)) := by
    intro r h1
    unfold laneOf
    rw [h1]
    rfl
  refine lane_word hw rfl ?_ ?_
  · simp only [RawFits, rawHdr, rawAlu]
    omega
  · rw [key _ rfl]
    simp only [rawHdr, rawAlu, src2, dst_raw, hdr_raw, Option.bind_some, Option.map_some, a_eq, b_eq]

theorem ddiv (h : LaneHdr) (d : Dst) (rnd : Rnd) (a : Src) (b : Src) : Statement (.ddiv h d rnd a b) := by
  intro hw
  have hw' : (h.ok && d.ok true && a.okFp true && b.okFp true) = true := hw
  simp only [Bool.and_eq_true] at hw'
  obtain ⟨⟨⟨w0, w1⟩, w2⟩, w3⟩ := hw'
  have hg : h.gp < 64 := by simpa [LaneHdr.ok] using w0
  obtain ⟨d1, d2, -⟩ := dst_ok w1
  obtain ⟨a_lt, a_eq⟩ := src_ofEnc (.inr w2)
  obtain ⟨b_lt, b_eq⟩ := src_ofEnc (.inr w3)
  have := boolEnc_lt h.pr
  have := boolEnc_lt h.gn
  have := rnd_lt rnd
  have n0 : (rnd.code * 2 ^ 10) / 2 ^ 10 = rnd.code := by omega
  have key : ∀ r : RawLane, r.op = 0x36 → laneOf r = rndOf r fun m => src2 r (.ddiv (LaneHdr.ofRaw r) (Dst.ofRaw r)
      m) := by
    intro r h1
    unfold laneOf
    rw [h1]
    rfl
  refine lane_word hw rfl ?_ ?_
  · simp only [RawFits, rawHdr, rawAlu]
    omega
  · rw [key _ rfl]
    simp only [rawHdr, rawAlu, src2, rndOf, dst_raw, hdr_raw, Option.bind_some, Option.map_some, a_eq, b_eq,
        rnd_code, n0]

theorem dsqrt (h : LaneHdr) (d : Dst) (rnd : Rnd) (a : Src) : Statement (.dsqrt h d rnd a) := by
  intro hw
  have hw' : (h.ok && d.ok true && a.okFp true) = true := hw
  simp only [Bool.and_eq_true] at hw'
  obtain ⟨⟨w0, w1⟩, w2⟩ := hw'
  have hg : h.gp < 64 := by simpa [LaneHdr.ok] using w0
  obtain ⟨d1, d2, -⟩ := dst_ok w1
  obtain ⟨a_lt, a_eq⟩ := src_ofEnc (.inr w2)
  have := boolEnc_lt h.pr
  have := boolEnc_lt h.gn
  have := rnd_lt rnd
  have n0 : (rnd.code * 2 ^ 10) / 2 ^ 10 = rnd.code := by omega
  have key : ∀ r : RawLane, r.op = 0x37 → laneOf r = rndOf r fun m => src1 r (.dsqrt (LaneHdr.ofRaw r) (Dst.ofRaw r)
      m) := by
    intro r h1
    unfold laneOf
    rw [h1]
    rfl
  refine lane_word hw rfl ?_ ?_
  · simp only [RawFits, rawHdr, rawAlu]
    omega
  · rw [key _ rfl]
    simp only [rawHdr, rawAlu, src1, rndOf, dst_raw, hdr_raw, Option.bind_some, Option.map_some, a_eq, rnd_code, n0]

theorem hadd2 (h : LaneHdr) (d : Dst) (rnd : Rnd) (a : Src) (b : Src) : Statement (.hadd2 h d rnd a b) := by
  intro hw
  have hw' : (h.ok && d.ok false && a.okFp false && b.okFp false) = true := hw
  simp only [Bool.and_eq_true] at hw'
  obtain ⟨⟨⟨w0, w1⟩, w2⟩, w3⟩ := hw'
  have hg : h.gp < 64 := by simpa [LaneHdr.ok] using w0
  obtain ⟨d1, d2, -⟩ := dst_ok w1
  obtain ⟨a_lt, a_eq⟩ := src_ofEnc (.inr w2)
  obtain ⟨b_lt, b_eq⟩ := src_ofEnc (.inr w3)
  have := boolEnc_lt h.pr
  have := boolEnc_lt h.gn
  have := rnd_lt rnd
  have n0 : (rnd.code * 2 ^ 10) / 2 ^ 10 = rnd.code := by omega
  have key : ∀ r : RawLane, r.op = 0x38 → laneOf r = rndOf r fun m => src2 r (.hadd2 (LaneHdr.ofRaw r) (Dst.ofRaw r)
      m) := by
    intro r h1
    unfold laneOf
    rw [h1]
    rfl
  refine lane_word hw rfl ?_ ?_
  · simp only [RawFits, rawHdr, rawAlu]
    omega
  · rw [key _ rfl]
    simp only [rawHdr, rawAlu, src2, rndOf, dst_raw, hdr_raw, Option.bind_some, Option.map_some, a_eq, b_eq,
        rnd_code, n0]

theorem hmul2 (h : LaneHdr) (d : Dst) (rnd : Rnd) (a : Src) (b : Src) : Statement (.hmul2 h d rnd a b) := by
  intro hw
  have hw' : (h.ok && d.ok false && a.okFp false && b.okFp false) = true := hw
  simp only [Bool.and_eq_true] at hw'
  obtain ⟨⟨⟨w0, w1⟩, w2⟩, w3⟩ := hw'
  have hg : h.gp < 64 := by simpa [LaneHdr.ok] using w0
  obtain ⟨d1, d2, -⟩ := dst_ok w1
  obtain ⟨a_lt, a_eq⟩ := src_ofEnc (.inr w2)
  obtain ⟨b_lt, b_eq⟩ := src_ofEnc (.inr w3)
  have := boolEnc_lt h.pr
  have := boolEnc_lt h.gn
  have := rnd_lt rnd
  have n0 : (rnd.code * 2 ^ 10) / 2 ^ 10 = rnd.code := by omega
  have key : ∀ r : RawLane, r.op = 0x39 → laneOf r = rndOf r fun m => src2 r (.hmul2 (LaneHdr.ofRaw r) (Dst.ofRaw r)
      m) := by
    intro r h1
    unfold laneOf
    rw [h1]
    rfl
  refine lane_word hw rfl ?_ ?_
  · simp only [RawFits, rawHdr, rawAlu]
    omega
  · rw [key _ rfl]
    simp only [rawHdr, rawAlu, src2, rndOf, dst_raw, hdr_raw, Option.bind_some, Option.map_some, a_eq, b_eq,
        rnd_code, n0]

theorem hfma2 (h : LaneHdr) (d : Dst) (rnd : Rnd) (a : Src) (b : Src) (c : Src) : Statement (.hfma2 h d rnd a b c) :=
    by
  intro hw
  have hw' : (h.ok && d.ok false && a.okFp false && b.okFp false && c.okFp false) = true := hw
  simp only [Bool.and_eq_true] at hw'
  obtain ⟨⟨⟨⟨w0, w1⟩, w2⟩, w3⟩, w4⟩ := hw'
  have hg : h.gp < 64 := by simpa [LaneHdr.ok] using w0
  obtain ⟨d1, d2, -⟩ := dst_ok w1
  obtain ⟨a_lt, a_eq⟩ := src_ofEnc (.inr w2)
  obtain ⟨b_lt, b_eq⟩ := src_ofEnc (.inr w3)
  obtain ⟨c_lt, c_eq⟩ := src_ofEnc (.inr w4)
  have := boolEnc_lt h.pr
  have := boolEnc_lt h.gn
  have := rnd_lt rnd
  have n0 : (rnd.code * 2 ^ 10) / 2 ^ 10 = rnd.code := by omega
  have key : ∀ r : RawLane, r.op = 0x3A → laneOf r = rndOf r fun m => src3 r (.hfma2 (LaneHdr.ofRaw r) (Dst.ofRaw r)
      m) := by
    intro r h1
    unfold laneOf
    rw [h1]
    rfl
  refine lane_word hw rfl ?_ ?_
  · simp only [RawFits, rawHdr, rawAlu]
    omega
  · rw [key _ rfl]
    simp only [rawHdr, rawAlu, src3, rndOf, dst_raw, hdr_raw, Option.bind_some, Option.map_some, a_eq, b_eq, c_eq,
        rnd_code, n0]

theorem badd2 (h : LaneHdr) (d : Dst) (rnd : Rnd) (a : Src) (b : Src) : Statement (.badd2 h d rnd a b) := by
  intro hw
  have hw' : (h.ok && d.ok false && a.okFp false && b.okFp false) = true := hw
  simp only [Bool.and_eq_true] at hw'
  obtain ⟨⟨⟨w0, w1⟩, w2⟩, w3⟩ := hw'
  have hg : h.gp < 64 := by simpa [LaneHdr.ok] using w0
  obtain ⟨d1, d2, -⟩ := dst_ok w1
  obtain ⟨a_lt, a_eq⟩ := src_ofEnc (.inr w2)
  obtain ⟨b_lt, b_eq⟩ := src_ofEnc (.inr w3)
  have := boolEnc_lt h.pr
  have := boolEnc_lt h.gn
  have := rnd_lt rnd
  have n0 : (rnd.code * 2 ^ 10) / 2 ^ 10 = rnd.code := by omega
  have key : ∀ r : RawLane, r.op = 0x3B → laneOf r = rndOf r fun m => src2 r (.badd2 (LaneHdr.ofRaw r) (Dst.ofRaw r)
      m) := by
    intro r h1
    unfold laneOf
    rw [h1]
    rfl
  refine lane_word hw rfl ?_ ?_
  · simp only [RawFits, rawHdr, rawAlu]
    omega
  · rw [key _ rfl]
    simp only [rawHdr, rawAlu, src2, rndOf, dst_raw, hdr_raw, Option.bind_some, Option.map_some, a_eq, b_eq,
        rnd_code, n0]

theorem bmul2 (h : LaneHdr) (d : Dst) (rnd : Rnd) (a : Src) (b : Src) : Statement (.bmul2 h d rnd a b) := by
  intro hw
  have hw' : (h.ok && d.ok false && a.okFp false && b.okFp false) = true := hw
  simp only [Bool.and_eq_true] at hw'
  obtain ⟨⟨⟨w0, w1⟩, w2⟩, w3⟩ := hw'
  have hg : h.gp < 64 := by simpa [LaneHdr.ok] using w0
  obtain ⟨d1, d2, -⟩ := dst_ok w1
  obtain ⟨a_lt, a_eq⟩ := src_ofEnc (.inr w2)
  obtain ⟨b_lt, b_eq⟩ := src_ofEnc (.inr w3)
  have := boolEnc_lt h.pr
  have := boolEnc_lt h.gn
  have := rnd_lt rnd
  have n0 : (rnd.code * 2 ^ 10) / 2 ^ 10 = rnd.code := by omega
  have key : ∀ r : RawLane, r.op = 0x3C → laneOf r = rndOf r fun m => src2 r (.bmul2 (LaneHdr.ofRaw r) (Dst.ofRaw r)
      m) := by
    intro r h1
    unfold laneOf
    rw [h1]
    rfl
  refine lane_word hw rfl ?_ ?_
  · simp only [RawFits, rawHdr, rawAlu]
    omega
  · rw [key _ rfl]
    simp only [rawHdr, rawAlu, src2, rndOf, dst_raw, hdr_raw, Option.bind_some, Option.map_some, a_eq, b_eq,
        rnd_code, n0]

theorem bfma2 (h : LaneHdr) (d : Dst) (rnd : Rnd) (a : Src) (b : Src) (c : Src) : Statement (.bfma2 h d rnd a b c) :=
    by
  intro hw
  have hw' : (h.ok && d.ok false && a.okFp false && b.okFp false && c.okFp false) = true := hw
  simp only [Bool.and_eq_true] at hw'
  obtain ⟨⟨⟨⟨w0, w1⟩, w2⟩, w3⟩, w4⟩ := hw'
  have hg : h.gp < 64 := by simpa [LaneHdr.ok] using w0
  obtain ⟨d1, d2, -⟩ := dst_ok w1
  obtain ⟨a_lt, a_eq⟩ := src_ofEnc (.inr w2)
  obtain ⟨b_lt, b_eq⟩ := src_ofEnc (.inr w3)
  obtain ⟨c_lt, c_eq⟩ := src_ofEnc (.inr w4)
  have := boolEnc_lt h.pr
  have := boolEnc_lt h.gn
  have := rnd_lt rnd
  have n0 : (rnd.code * 2 ^ 10) / 2 ^ 10 = rnd.code := by omega
  have key : ∀ r : RawLane, r.op = 0x3D → laneOf r = rndOf r fun m => src3 r (.bfma2 (LaneHdr.ofRaw r) (Dst.ofRaw r)
      m) := by
    intro r h1
    unfold laneOf
    rw [h1]
    rfl
  refine lane_word hw rfl ?_ ?_
  · simp only [RawFits, rawHdr, rawAlu]
    omega
  · rw [key _ rfl]
    simp only [rawHdr, rawAlu, src3, rndOf, dst_raw, hdr_raw, Option.bind_some, Option.map_some, a_eq, b_eq, c_eq,
        rnd_code, n0]

theorem bdot2 (h : LaneHdr) (d : Dst) (rnd : Rnd) (a : Src) (b : Src) (c : Src) : Statement (.bdot2 h d rnd a b c) :=
    by
  intro hw
  have hw' : (h.ok && d.ok false && a.okFp false && b.okFp false && c.okFp false) = true := hw
  simp only [Bool.and_eq_true] at hw'
  obtain ⟨⟨⟨⟨w0, w1⟩, w2⟩, w3⟩, w4⟩ := hw'
  have hg : h.gp < 64 := by simpa [LaneHdr.ok] using w0
  obtain ⟨d1, d2, -⟩ := dst_ok w1
  obtain ⟨a_lt, a_eq⟩ := src_ofEnc (.inr w2)
  obtain ⟨b_lt, b_eq⟩ := src_ofEnc (.inr w3)
  obtain ⟨c_lt, c_eq⟩ := src_ofEnc (.inr w4)
  have := boolEnc_lt h.pr
  have := boolEnc_lt h.gn
  have := rnd_lt rnd
  have n0 : (rnd.code * 2 ^ 10) / 2 ^ 10 = rnd.code := by omega
  have key : ∀ r : RawLane, r.op = 0x3E → laneOf r = rndOf r fun m => src3 r (.bdot2 (LaneHdr.ofRaw r) (Dst.ofRaw r)
      m) := by
    intro r h1
    unfold laneOf
    rw [h1]
    rfl
  refine lane_word hw rfl ?_ ?_
  · simp only [RawFits, rawHdr, rawAlu]
    omega
  · rw [key _ rfl]
    simp only [rawHdr, rawAlu, src3, rndOf, dst_raw, hdr_raw, Option.bind_some, Option.map_some, a_eq, b_eq, c_eq,
        rnd_code, n0]

theorem cvt (h : LaneHdr) (d : Dst) (rnd : Rnd) (sat : Bool) (dty : Ty) (sty : Ty) (a : Src) (bsel : Nat) : Statement
    (.cvt h d rnd sat dty sty a bsel) := by
  intro hw
  have hw' : (h.ok && d.ok dty.isPair && a.okTy sty && dty != sty && (!sat || cvtSatOk dty sty) && bsel < 4 && (bsel
      == 0 || dty.isFp8 || sty.isFp8)) = true := hw
  simp only [Bool.and_eq_true] at hw'
  obtain ⟨⟨⟨⟨⟨⟨w0, w1⟩, w2⟩, w3⟩, w4⟩, w5⟩, w6⟩ := hw'
  simp only [bne_iff_ne, ne_eq] at w3
  simp only [decide_eq_true_eq] at w5
  have hg : h.gp < 64 := by simpa [LaneHdr.ok] using w0
  obtain ⟨d1, d2, -⟩ := dst_ok w1
  obtain ⟨a_lt, a_eq⟩ := src_ty w2
  have := boolEnc_lt h.pr
  have := boolEnc_lt h.gn
  have := rnd_lt rnd
  have := boolEnc_lt sat
  have := ty_lt dty
  have := ty_lt sty
  have n0 : (rnd.code * 2 ^ 10 + boolEnc sat * 2 ^ 9 + dty.code * 2 ^ 4 + sty.code) / 2 ^ 4 % 16 = dty.code := by
      omega
  have n1 : (rnd.code * 2 ^ 10 + boolEnc sat * 2 ^ 9 + dty.code * 2 ^ 4 + sty.code) % 16 = sty.code := by omega
  have n2 : (rnd.code * 2 ^ 10 + boolEnc sat * 2 ^ 9 + dty.code * 2 ^ 4 + sty.code) / 2 ^ 9 % 2 = boolEnc sat := by
      omega
  have n3 : (rnd.code * 2 ^ 10 + boolEnc sat * 2 ^ 9 + dty.code * 2 ^ 4 + sty.code) / 2 ^ 10 = rnd.code := by omega
  have key : ∀ r : RawLane, r.op = 0x40 → laneOf r = rndOf r fun m => (Ty.ofCode (r.mod / 2 ^ 4 % 16)).bind fun dty
      => (Ty.ofCode (r.mod % 16)).bind fun sty => src1 r fun a => .cvt (LaneHdr.ofRaw r) (Dst.ofRaw r) m (boolOf
          (r.mod / 2 ^ 9 % 2)) dty sty a r.x := by
    intro r h1
    unfold laneOf
    rw [h1]
    rfl
  refine lane_word hw rfl ?_ ?_
  · simp only [RawFits, rawHdr, rawAlu]
    omega
  · rw [key _ rfl]
    simp only [rawHdr, rawAlu, src1, rndOf, dst_raw, hdr_raw, boolOf_boolEnc, Option.bind_some, Option.map_some,
        a_eq, rnd_code, ty_code, n0, n1, n2, n3]

theorem sxpack (h : LaneHdr) (d : Nat) (sx : Sxf) (a : Nat) (sc : Nat) (bsel : Nat) (blk : Nat) : Statement (.sxpack
    h d sx a sc bsel blk) := by
  intro hw
  have hw' : (h.ok && vregOk d && vregOk a && vregOk sc && bsel < 4 && blk < 64) = true := hw
  simp only [Bool.and_eq_true] at hw'
  obtain ⟨⟨⟨⟨⟨w0, w1⟩, w2⟩, w3⟩, w4⟩, w5⟩ := hw'
  simp only [vregOk, decide_eq_true_eq] at w1
  simp only [vregOk, decide_eq_true_eq] at w2
  simp only [vregOk, decide_eq_true_eq] at w3
  simp only [decide_eq_true_eq] at w4
  simp only [decide_eq_true_eq] at w5
  have hg : h.gp < 64 := by simpa [LaneHdr.ok] using w0
  have := boolEnc_lt h.pr
  have := boolEnc_lt h.gn
  have := sxf_lt sx
  have n0 : (sx.code * 2 ^ 8 + 10 * 2 ^ 4) / 2 ^ 8 % 4 = sx.code := by omega
  have x1 : (blk * 2 ^ 2 + bsel) % 4 = bsel := by omega
  have x2 : (blk * 2 ^ 2 + bsel) / 4 = blk := by omega
  have key : ∀ r : RawLane, r.op = 0x41 → laneOf r = (Sxf.ofCode (r.mod / 2 ^ 8 % 4)).map fun sx => .sxpack
      (LaneHdr.ofRaw r) r.dreg sx r.sa r.sc (r.x % 4) (r.x / 4) := by
    intro r h1
    unfold laneOf
    rw [h1]
    rfl
  refine lane_word hw rfl ?_ ?_
  · simp only [RawFits, rawHdr]
    omega
  · rw [key _ rfl]
    simp only [rawHdr, hdr_raw, Option.map_some, sxf_code, n0, x1, x2]

theorem sxunpack (h : LaneHdr) (d : Nat) (rnd : Rnd) (sx : Sxf) (ty : Ty) (a : Nat) (sc : Nat) (bsel : Nat) (blk :
    Nat) : Statement (.sxunpack h d rnd sx ty a sc bsel blk) := by
  intro hw
  have hw' : (h.ok && vregOk d && vregOk a && vregOk sc && bsel < 4 && blk < 64 && (ty == .f32 || ty == .bf16 || ty
      == .f16)) = true := hw
  simp only [Bool.and_eq_true] at hw'
  obtain ⟨⟨⟨⟨⟨⟨w0, w1⟩, w2⟩, w3⟩, w4⟩, w5⟩, w6⟩ := hw'
  simp only [vregOk, decide_eq_true_eq] at w1
  simp only [vregOk, decide_eq_true_eq] at w2
  simp only [vregOk, decide_eq_true_eq] at w3
  simp only [decide_eq_true_eq] at w4
  simp only [decide_eq_true_eq] at w5
  have hg : h.gp < 64 := by simpa [LaneHdr.ok] using w0
  have := boolEnc_lt h.pr
  have := boolEnc_lt h.gn
  have := rnd_lt rnd
  have := sxf_lt sx
  have := ty_lt ty
  have n0 : (rnd.code * 2 ^ 10 + sx.code * 2 ^ 8 + ty.code * 2 ^ 4) / 2 ^ 8 % 4 = sx.code := by omega
  have n1 : (rnd.code * 2 ^ 10 + sx.code * 2 ^ 8 + ty.code * 2 ^ 4) / 2 ^ 4 % 16 = ty.code := by omega
  have n2 : (rnd.code * 2 ^ 10 + sx.code * 2 ^ 8 + ty.code * 2 ^ 4) / 2 ^ 10 = rnd.code := by omega
  have x1 : (blk * 2 ^ 2 + bsel) % 4 = bsel := by omega
  have x2 : (blk * 2 ^ 2 + bsel) / 4 = blk := by omega
  have key : ∀ r : RawLane, r.op = 0x42 → laneOf r = rndOf r fun m => (Sxf.ofCode (r.mod / 2 ^ 8 % 4)).bind fun sx =>
      (Ty.ofCode (r.mod / 2 ^ 4 % 16)).map fun ty => .sxunpack (LaneHdr.ofRaw r) r.dreg m sx ty r.sa r.sc (r.x % 4)
          (r.x / 4) := by
    intro r h1
    unfold laneOf
    rw [h1]
    rfl
  refine lane_word hw rfl ?_ ?_
  · simp only [RawFits, rawHdr]
    omega
  · rw [key _ rfl]
    simp only [rawHdr, rndOf, hdr_raw, Option.bind_some, Option.map_some, rnd_code, sxf_code, ty_code, n0, n1, n2,
        x1, x2]

theorem pset (h : LaneHdr) (p : Nat) (cmp : CmpOp) (ty : Ty) (a : Src) (b : Src) : Statement (.pset h p cmp ty a b)
    := by
  intro hw
  have hw' : (h.ok && predOk p && !ty.isFp8 && a.okTy ty && b.okTy ty && (cmp != .un || !ty.isInt)) = true := hw
  simp only [Bool.and_eq_true] at hw'
  obtain ⟨⟨⟨⟨⟨w0, w1⟩, w2⟩, w3⟩, w4⟩, w5⟩ := hw'
  simp only [predOk, decide_eq_true_eq] at w1
  have hg : h.gp < 64 := by simpa [LaneHdr.ok] using w0
  obtain ⟨a_lt, a_eq⟩ := src_ty w3
  obtain ⟨b_lt, b_eq⟩ := src_ty w4
  have := boolEnc_lt h.pr
  have := boolEnc_lt h.gn
  have := cmp_lt cmp
  have := ty_lt ty
  have n0 : (ty.code * 2 ^ 8 + cmp.code * 2 ^ 4) / 2 ^ 8 = ty.code := by omega
  have n1 : (ty.code * 2 ^ 8 + cmp.code * 2 ^ 4) / 2 ^ 4 % 16 = cmp.code := by omega
  have key : ∀ r : RawLane, r.op = 0x43 → laneOf r = (Ty.ofCode (r.mod / 2 ^ 8)).bind fun ty => (CmpOp.ofCode (r.mod
      / 2 ^ 4 % 16)).bind fun cmp => src2 r (.pset (LaneHdr.ofRaw r) r.dreg cmp ty) := by
    intro r h1
    unfold laneOf
    rw [h1]
    rfl
  refine lane_word hw rfl ?_ ?_
  · simp only [RawFits, rawHdr]
    omega
  · rw [key _ rfl]
    simp only [rawHdr, src2, hdr_raw, Option.bind_some, Option.map_some, a_eq, b_eq, cmp_code, ty_code, n0, n1]

theorem plop (h : LaneHdr) (p : Nat) (pa : Nat) (pb : Nat) (pc : Nat) (lut : Nat) : Statement (.plop h p pa pb pc
    lut) := by
  intro hw
  have hw' : (h.ok && predOk p && predOk pa && predOk pb && predOk pc && lut < 256) = true := hw
  simp only [Bool.and_eq_true] at hw'
  obtain ⟨⟨⟨⟨⟨w0, w1⟩, w2⟩, w3⟩, w4⟩, w5⟩ := hw'
  simp only [predOk, decide_eq_true_eq] at w1
  simp only [predOk, decide_eq_true_eq] at w2
  simp only [predOk, decide_eq_true_eq] at w3
  simp only [predOk, decide_eq_true_eq] at w4
  simp only [decide_eq_true_eq] at w5
  have hg : h.gp < 64 := by simpa [LaneHdr.ok] using w0
  have := boolEnc_lt h.pr
  have := boolEnc_lt h.gn
  have key : ∀ r : RawLane, r.op = 0x44 → laneOf r = some (.plop (LaneHdr.ofRaw r) r.dreg (r.sa - 3072) (r.sb - 3072)
      (r.sc - 3072) r.mod) := by
    intro r h1
    unfold laneOf
    rw [h1]
    rfl
  refine lane_word hw rfl ?_ ?_
  · simp only [RawFits, rawHdr]
    omega
  · rw [key _ rfl]
    simp only [rawHdr, hdr_raw, Nat.add_sub_cancel_left]

theorem mov (h : LaneHdr) (d : Dst) (ty : Ty) (a : Src) : Statement (.mov h d ty a) := by
  intro hw
  have hw' : (h.ok && (ty == .i32 || ty == .i64) && d.ok ty.isPair && a.okInt ty.isPair) = true := hw
  simp only [Bool.and_eq_true] at hw'
  obtain ⟨⟨⟨w0, w1⟩, w2⟩, w3⟩ := hw'
  have hg : h.gp < 64 := by simpa [LaneHdr.ok] using w0
  obtain ⟨d1, d2, -⟩ := dst_ok w2
  obtain ⟨a_lt, a_eq⟩ := src_ofEnc (.inl w3)
  have := boolEnc_lt h.pr
  have := boolEnc_lt h.gn
  have := ty_lt ty
  have n0 : (ty.code * 2 ^ 8) / 2 ^ 8 = ty.code := by omega
  have key : ∀ r : RawLane, r.op = 0x46 → laneOf r = (Ty.ofCode (r.mod / 2 ^ 8)).bind fun ty => src1 r (.mov
      (LaneHdr.ofRaw r) (Dst.ofRaw r) ty) := by
    intro r h1
    unfold laneOf
    rw [h1]
    rfl
  refine lane_word hw rfl ?_ ?_
  · simp only [RawFits, rawHdr, rawAlu]
    omega
  · rw [key _ rfl]
    simp only [rawHdr, rawAlu, src1, dst_raw, hdr_raw, Option.bind_some, Option.map_some, a_eq, ty_code, n0]

theorem movi (h : LaneHdr) (d : Dst) (imm : Nat) : Statement (.movi h d imm) := by
  intro hw
  have hw' : (h.ok && d.ok false && imm < 2 ^ 32) = true := hw
  simp only [Bool.and_eq_true] at hw'
  obtain ⟨⟨w0, w1⟩, w2⟩ := hw'
  simp only [decide_eq_true_eq] at w2
  have hg : h.gp < 64 := by simpa [LaneHdr.ok] using w0
  obtain ⟨d1, d2, -⟩ := dst_ok w1
  have := boolEnc_lt h.pr
  have := boolEnc_lt h.gn
  have x1 : imm / 2 ^ 26 * 2 ^ 26 + imm / 2 ^ 13 % 2 ^ 13 * 2 ^ 13 + imm % 2 ^ 13 = imm := by omega
  have key : ∀ r : RawLane, r.op = 0x47 → laneOf r = some (.movi (LaneHdr.ofRaw r) (Dst.ofRaw r) (r.sb * 2 ^ 26 +
      r.sc * 2 ^ 13 + r.x)) := by
    intro r h1
    unfold laneOf
    rw [h1]
    rfl
  refine lane_word hw rfl ?_ ?_
  · simp only [RawFits, rawHdr, rawAlu]
    omega
  · rw [key _ rfl]
    simp only [rawHdr, rawAlu, dst_raw, hdr_raw, x1]

theorem laneDly (n : Nat) : Statement (.laneDly n) := by
  intro hw
  have hw' : (1 ≤ n && n ≤ 64) = true := hw
  simp only [Bool.and_eq_true] at hw'
  obtain ⟨w0, w1⟩ := hw'
  simp only [decide_eq_true_eq] at w0
  simp only [decide_eq_true_eq] at w1
  have x0 : boolEnc false = 0 := rfl
  have x1 : n - 1 + 1 = n := by omega
  have key : ∀ r : RawLane, r.op = 0x49 → laneOf r = some (.laneDly (r.x + 1)) := by
    intro r h1
    unfold laneOf
    rw [h1]
    rfl
  refine lane_word hw rfl ?_ ?_
  · simp only [RawFits, rawHdr]
    omega
  · rw [key _ rfl]
    simp only [rawHdr, x1]

theorem vote (h : LaneHdr) (mode : VoteMode) (d : Nat) (p : Nat) (tk : Nat) : Statement (.vote h mode d p tk) := by
  intro hw
  have hw' : (h.ok && sregOk d && predOk p && tk < 16) = true := hw
  simp only [Bool.and_eq_true] at hw'
  obtain ⟨⟨⟨w0, w1⟩, w2⟩, w3⟩ := hw'
  simp only [sregOk, decide_eq_true_eq] at w1
  simp only [predOk, decide_eq_true_eq] at w2
  simp only [decide_eq_true_eq] at w3
  have hg : h.gp < 64 := by simpa [LaneHdr.ok] using w0
  have := boolEnc_lt h.pr
  have := boolEnc_lt h.gn
  have := vote_lt mode
  have n0 : (mode.code * 2 ^ 4) / 2 ^ 4 = mode.code := by omega
  have key : ∀ r : RawLane, r.op = 0x4B → laneOf r = (VoteMode.ofCode (r.mod / 2 ^ 4)).map fun m => .vote
      (LaneHdr.ofRaw r) m r.dreg (r.sa - 3072) (r.tk - 16) := by
    intro r h1
    unfold laneOf
    rw [h1]
    rfl
  refine lane_word hw rfl ?_ ?_
  · simp only [RawFits, rawHdr]
    omega
  · rw [key _ rfl]
    simp only [rawHdr, hdr_raw, Option.map_some, Nat.add_sub_cancel_left, vote_code, n0]

theorem vballot (h : LaneHdr) (d : Dst) (p : Nat) : Statement (.vballot h d p) := by
  intro hw
  have hw' : (h.ok && d.ok false && predOk p) = true := hw
  simp only [Bool.and_eq_true] at hw'
  obtain ⟨⟨w0, w1⟩, w2⟩ := hw'
  simp only [predOk, decide_eq_true_eq] at w2
  have hg : h.gp < 64 := by simpa [LaneHdr.ok] using w0
  obtain ⟨d1, d2, -⟩ := dst_ok w1
  have := boolEnc_lt h.pr
  have := boolEnc_lt h.gn
  have key : ∀ r : RawLane, r.op = 0x4C → laneOf r = some (.vballot (LaneHdr.ofRaw r) (Dst.ofRaw r) (r.sa - 3072)) :=
      by
    intro r h1
    unfold laneOf
    rw [h1]
    rfl
  refine lane_word hw rfl ?_ ?_
  · simp only [RawFits, rawHdr, rawAlu]
    omega
  · rw [key _ rfl]
    simp only [rawHdr, rawAlu, dst_raw, hdr_raw, Nat.add_sub_cancel_left]

theorem lred (h : LaneHdr) (op : RedOp) (ty : Ty) (d : Nat) (a : Src) (tk : Nat) : Statement (.lred h op ty d a tk)
    := by
  intro hw
  have hw' : (h.ok && redOk op ty && d < 160 && (!ty.isPair || d % 2 == 0) && a.okTy ty && tk < 16) = true := hw
  simp only [Bool.and_eq_true] at hw'
  obtain ⟨⟨⟨⟨⟨w0, w1⟩, w2⟩, w3⟩, w4⟩, w5⟩ := hw'
  simp only [decide_eq_true_eq] at w2
  simp only [decide_eq_true_eq] at w5
  have hg : h.gp < 64 := by simpa [LaneHdr.ok] using w0
  obtain ⟨a_lt, a_eq⟩ := src_ty w4
  have := boolEnc_lt h.pr
  have := boolEnc_lt h.gn
  have := red_lt op
  have := ty_lt ty
  have n0 : (ty.code * 2 ^ 8 + op.code * 2 ^ 4) / 2 ^ 8 = ty.code := by omega
  have n1 : (ty.code * 2 ^ 8 + op.code * 2 ^ 4) / 2 ^ 4 % 16 = op.code := by omega
  have key : ∀ r : RawLane, r.op = 0x4D → laneOf r = (Ty.ofCode (r.mod / 2 ^ 8)).bind fun ty => (RedOp.ofCode (r.mod
      / 2 ^ 4 % 16)).bind fun op => src1 r fun a => .lred (LaneHdr.ofRaw r) op ty r.dreg a (r.tk - 16) := by
    intro r h1
    unfold laneOf
    rw [h1]
    rfl
  refine lane_word hw rfl ?_ ?_
  · simp only [RawFits, rawHdr]
    omega
  · rw [key _ rfl]
    simp only [rawHdr, src1, hdr_raw, Option.bind_some, Option.map_some, Nat.add_sub_cancel_left, a_eq, red_code,
        ty_code, n0, n1]

theorem laneMatch (h : LaneHdr) (ty : Ty) (d : Dst) (a : Src) : Statement (.laneMatch h ty d a) := by
  intro hw
  have hw' : (h.ok && ty.isWide && d.ok false && a.okInt ty.isPair) = true := hw
  simp only [Bool.and_eq_true] at hw'
  obtain ⟨⟨⟨w0, w1⟩, w2⟩, w3⟩ := hw'
  have hg : h.gp < 64 := by simpa [LaneHdr.ok] using w0
  obtain ⟨d1, d2, -⟩ := dst_ok w2
  obtain ⟨a_lt, a_eq⟩ := src_ofEnc (.inl w3)
  have := boolEnc_lt h.pr
  have := boolEnc_lt h.gn
  have := ty_lt ty
  have n0 : (ty.code * 2 ^ 8) / 2 ^ 8 = ty.code := by omega
  have key : ∀ r : RawLane, r.op = 0x4F → laneOf r = (Ty.ofCode (r.mod / 2 ^ 8)).bind fun ty => src1 r (.laneMatch
      (LaneHdr.ofRaw r) ty (Dst.ofRaw r)) := by
    intro r h1
    unfold laneOf
    rw [h1]
    rfl
  refine lane_word hw rfl ?_ ?_
  · simp only [RawFits, rawHdr, rawAlu]
    omega
  · rw [key _ rfl]
    simp only [rawHdr, rawAlu, src1, dst_raw, hdr_raw, Option.bind_some, Option.map_some, a_eq, ty_code, n0]

theorem lbrx (h : LaneHdr) (t : Nat) (c : Nat) (tk : Nat) : Statement (.lbrx h t c tk) := by
  intro hw
  have hw' : (h.ok && vregOk t && cregOk c && tk < 16) = true := hw
  simp only [Bool.and_eq_true] at hw'
  obtain ⟨⟨⟨w0, w1⟩, w2⟩, w3⟩ := hw'
  simp only [vregOk, decide_eq_true_eq] at w1
  simp only [cregOk, decide_eq_true_eq] at w2
  simp only [decide_eq_true_eq] at w3
  have hg : h.gp < 64 := by simpa [LaneHdr.ok] using w0
  have := boolEnc_lt h.pr
  have := boolEnc_lt h.gn
  have key : ∀ r : RawLane, r.op = 0x50 → laneOf r = some (.lbrx (LaneHdr.ofRaw r) r.sa (r.sb - 1024) (r.tk - 16)) :=
      by
    intro r h1
    unfold laneOf
    rw [h1]
    rfl
  refine lane_word hw rfl ?_ ?_
  · simp only [RawFits, rawHdr]
    omega
  · rw [key _ rfl]
    simp only [rawHdr, hdr_raw, Nat.add_sub_cancel_left]

theorem lend (h : LaneHdr) (tk : Option Nat) : Statement (.lend h tk) := by
  intro hw
  have hw' : (h.ok && tkOk tk) = true := hw
  simp only [Bool.and_eq_true] at hw'
  obtain ⟨w0, w1⟩ := hw'
  have hg : h.gp < 64 := by simpa [LaneHdr.ok] using w0
  have := tkEnc_lt w1
  have := boolEnc_lt h.pr
  have := boolEnc_lt h.gn
  have key : ∀ r : RawLane, r.op = 0x51 → laneOf r = some (.lend (LaneHdr.ofRaw r) (tkOf r.tk)) := by
    intro r h1
    unfold laneOf
    rw [h1]
    rfl
  refine lane_word hw rfl ?_ ?_
  · simp only [RawFits, rawHdr]
    omega
  · rw [key _ rfl]
    simp only [rawHdr, hdr_raw, tkOf_tkEnc]

theorem vcmov (h : LaneHdr) (q : Nat) (p : CapSrc) : Statement (.vcmov h q p) := by
  intro hw
  have hw' : (h.ok && q < 256 && p.ok) = true := hw
  simp only [Bool.and_eq_true] at hw'
  obtain ⟨⟨w0, w1⟩, w2⟩ := hw'
  simp only [decide_eq_true_eq] at w1
  have hg : h.gp < 64 := by simpa [LaneHdr.ok] using w0
  obtain ⟨p_lt, p_eq⟩ := cap_ofEnc w2
  have := boolEnc_lt h.pr
  have := boolEnc_lt h.gn
  have key : ∀ r : RawLane, r.op = 0x52 → r.mod = 0x00 → laneOf r = capSrc r fun p => some (.vcmov (LaneHdr.ofRaw r)
      r.dreg p) := by
    intro r h1 h2
    unfold laneOf
    rw [h1]
    show vcOf r = _
    unfold vcOf
    rw [h2]
    rfl
  refine lane_word hw rfl ?_ ?_
  · simp only [RawFits, rawHdr, rawVc]
    omega
  · rw [key _ rfl rfl]
    simp only [rawHdr, rawVc, capSrc, hdr_raw, Option.bind_some, p_eq]

theorem vcgetaddr (h : LaneHdr) (w : Nat) (p : CapSrc) : Statement (.vcgetaddr h w p) := by
  intro hw
  have hw' : (h.ok && vopOk true w && p.ok) = true := hw
  simp only [Bool.and_eq_true] at hw'
  obtain ⟨⟨w0, w1⟩, w2⟩ := hw'
  simp only [vopOk, Bool.and_eq_true, decide_eq_true_eq] at w1
  have hg : h.gp < 64 := by simpa [LaneHdr.ok] using w0
  obtain ⟨p_lt, p_eq⟩ := cap_ofEnc w2
  have := boolEnc_lt h.pr
  have := boolEnc_lt h.gn
  have key : ∀ r : RawLane, r.op = 0x52 → r.mod = 0x01 → laneOf r = capSrc r fun p => some (.vcgetaddr (LaneHdr.ofRaw
      r) r.sb p) := by
    intro r h1 h2
    unfold laneOf
    rw [h1]
    show vcOf r = _
    unfold vcOf
    rw [h2]
    rfl
  refine lane_word hw rfl ?_ ?_
  · simp only [RawFits, rawHdr, rawVc]
    omega
  · rw [key _ rfl rfl]
    simp only [rawHdr, rawVc, capSrc, hdr_raw, Option.bind_some, p_eq]

theorem vcgetbase (h : LaneHdr) (w : Nat) (p : CapSrc) : Statement (.vcgetbase h w p) := by
  intro hw
  have hw' : (h.ok && vopOk true w && p.ok) = true := hw
  simp only [Bool.and_eq_true] at hw'
  obtain ⟨⟨w0, w1⟩, w2⟩ := hw'
  simp only [vopOk, Bool.and_eq_true, decide_eq_true_eq] at w1
  have hg : h.gp < 64 := by simpa [LaneHdr.ok] using w0
  obtain ⟨p_lt, p_eq⟩ := cap_ofEnc w2
  have := boolEnc_lt h.pr
  have := boolEnc_lt h.gn
  have key : ∀ r : RawLane, r.op = 0x52 → r.mod = 0x02 → laneOf r = capSrc r fun p => some (.vcgetbase (LaneHdr.ofRaw
      r) r.sb p) := by
    intro r h1 h2
    unfold laneOf
    rw [h1]
    show vcOf r = _
    unfold vcOf
    rw [h2]
    rfl
  refine lane_word hw rfl ?_ ?_
  · simp only [RawFits, rawHdr, rawVc]
    omega
  · rw [key _ rfl rfl]
    simp only [rawHdr, rawVc, capSrc, hdr_raw, Option.bind_some, p_eq]

theorem vcgettop (h : LaneHdr) (w : Nat) (p : CapSrc) : Statement (.vcgettop h w p) := by
  intro hw
  have hw' : (h.ok && vopOk true w && p.ok) = true := hw
  simp only [Bool.and_eq_true] at hw'
  obtain ⟨⟨w0, w1⟩, w2⟩ := hw'
  simp only [vopOk, Bool.and_eq_true, decide_eq_true_eq] at w1
  have hg : h.gp < 64 := by simpa [LaneHdr.ok] using w0
  obtain ⟨p_lt, p_eq⟩ := cap_ofEnc w2
  have := boolEnc_lt h.pr
  have := boolEnc_lt h.gn
  have key : ∀ r : RawLane, r.op = 0x52 → r.mod = 0x03 → laneOf r = capSrc r fun p => some (.vcgettop (LaneHdr.ofRaw
      r) r.sb p) := by
    intro r h1 h2
    unfold laneOf
    rw [h1]
    show vcOf r = _
    unfold vcOf
    rw [h2]
    rfl
  refine lane_word hw rfl ?_ ?_
  · simp only [RawFits, rawHdr, rawVc]
    omega
  · rw [key _ rfl rfl]
    simp only [rawHdr, rawVc, capSrc, hdr_raw, Option.bind_some, p_eq]

theorem vcgetlen (h : LaneHdr) (w : Nat) (p : CapSrc) : Statement (.vcgetlen h w p) := by
  intro hw
  have hw' : (h.ok && vopOk true w && p.ok) = true := hw
  simp only [Bool.and_eq_true] at hw'
  obtain ⟨⟨w0, w1⟩, w2⟩ := hw'
  simp only [vopOk, Bool.and_eq_true, decide_eq_true_eq] at w1
  have hg : h.gp < 64 := by simpa [LaneHdr.ok] using w0
  obtain ⟨p_lt, p_eq⟩ := cap_ofEnc w2
  have := boolEnc_lt h.pr
  have := boolEnc_lt h.gn
  have key : ∀ r : RawLane, r.op = 0x52 → r.mod = 0x04 → laneOf r = capSrc r fun p => some (.vcgetlen (LaneHdr.ofRaw
      r) r.sb p) := by
    intro r h1 h2
    unfold laneOf
    rw [h1]
    show vcOf r = _
    unfold vcOf
    rw [h2]
    rfl
  refine lane_word hw rfl ?_ ?_
  · simp only [RawFits, rawHdr, rawVc]
    omega
  · rw [key _ rfl rfl]
    simp only [rawHdr, rawVc, capSrc, hdr_raw, Option.bind_some, p_eq]

theorem vcgetperm (h : LaneHdr) (w : Nat) (p : CapSrc) : Statement (.vcgetperm h w p) := by
  intro hw
  have hw' : (h.ok && vregOk w && p.ok) = true := hw
  simp only [Bool.and_eq_true] at hw'
  obtain ⟨⟨w0, w1⟩, w2⟩ := hw'
  simp only [vregOk, decide_eq_true_eq] at w1
  have hg : h.gp < 64 := by simpa [LaneHdr.ok] using w0
  obtain ⟨p_lt, p_eq⟩ := cap_ofEnc w2
  have := boolEnc_lt h.pr
  have := boolEnc_lt h.gn
  have key : ∀ r : RawLane, r.op = 0x52 → r.mod = 0x05 → laneOf r = capSrc r fun p => some (.vcgetperm (LaneHdr.ofRaw
      r) r.sb p) := by
    intro r h1 h2
    unfold laneOf
    rw [h1]
    show vcOf r = _
    unfold vcOf
    rw [h2]
    rfl
  refine lane_word hw rfl ?_ ?_
  · simp only [RawFits, rawHdr, rawVc]
    omega
  · rw [key _ rfl rfl]
    simp only [rawHdr, rawVc, capSrc, hdr_raw, Option.bind_some, p_eq]

theorem vcgetseal (h : LaneHdr) (w : Nat) (p : CapSrc) : Statement (.vcgetseal h w p) := by
  intro hw
  have hw' : (h.ok && vregOk w && p.ok) = true := hw
  simp only [Bool.and_eq_true] at hw'
  obtain ⟨⟨w0, w1⟩, w2⟩ := hw'
  simp only [vregOk, decide_eq_true_eq] at w1
  have hg : h.gp < 64 := by simpa [LaneHdr.ok] using w0
  obtain ⟨p_lt, p_eq⟩ := cap_ofEnc w2
  have := boolEnc_lt h.pr
  have := boolEnc_lt h.gn
  have key : ∀ r : RawLane, r.op = 0x52 → r.mod = 0x06 → laneOf r = capSrc r fun p => some (.vcgetseal (LaneHdr.ofRaw
      r) r.sb p) := by
    intro r h1 h2
    unfold laneOf
    rw [h1]
    show vcOf r = _
    unfold vcOf
    rw [h2]
    rfl
  refine lane_word hw rfl ?_ ?_
  · simp only [RawFits, rawHdr, rawVc]
    omega
  · rw [key _ rfl rfl]
    simp only [rawHdr, rawVc, capSrc, hdr_raw, Option.bind_some, p_eq]

theorem vcgetowner (h : LaneHdr) (w : Nat) (p : CapSrc) : Statement (.vcgetowner h w p) := by
  intro hw
  have hw' : (h.ok && vregOk w && p.ok) = true := hw
  simp only [Bool.and_eq_true] at hw'
  obtain ⟨⟨w0, w1⟩, w2⟩ := hw'
  simp only [vregOk, decide_eq_true_eq] at w1
  have hg : h.gp < 64 := by simpa [LaneHdr.ok] using w0
  obtain ⟨p_lt, p_eq⟩ := cap_ofEnc w2
  have := boolEnc_lt h.pr
  have := boolEnc_lt h.gn
  have key : ∀ r : RawLane, r.op = 0x52 → r.mod = 0x07 → laneOf r = capSrc r fun p => some (.vcgetowner
      (LaneHdr.ofRaw r) r.sb p) := by
    intro r h1 h2
    unfold laneOf
    rw [h1]
    show vcOf r = _
    unfold vcOf
    rw [h2]
    rfl
  refine lane_word hw rfl ?_ ?_
  · simp only [RawFits, rawHdr, rawVc]
    omega
  · rw [key _ rfl rfl]
    simp only [rawHdr, rawVc, capSrc, hdr_raw, Option.bind_some, p_eq]

theorem vcgettag (h : LaneHdr) (w : Nat) (p : CapSrc) : Statement (.vcgettag h w p) := by
  intro hw
  have hw' : (h.ok && vregOk w && p.ok) = true := hw
  simp only [Bool.and_eq_true] at hw'
  obtain ⟨⟨w0, w1⟩, w2⟩ := hw'
  simp only [vregOk, decide_eq_true_eq] at w1
  have hg : h.gp < 64 := by simpa [LaneHdr.ok] using w0
  obtain ⟨p_lt, p_eq⟩ := cap_ofEnc w2
  have := boolEnc_lt h.pr
  have := boolEnc_lt h.gn
  have key : ∀ r : RawLane, r.op = 0x52 → r.mod = 0x08 → laneOf r = capSrc r fun p => some (.vcgettag (LaneHdr.ofRaw
      r) r.sb p) := by
    intro r h1 h2
    unfold laneOf
    rw [h1]
    show vcOf r = _
    unfold vcOf
    rw [h2]
    rfl
  refine lane_word hw rfl ?_ ?_
  · simp only [RawFits, rawHdr, rawVc]
    omega
  · rw [key _ rfl rfl]
    simp only [rawHdr, rawVc, capSrc, hdr_raw, Option.bind_some, p_eq]

theorem vcsetaddr (h : LaneHdr) (q : Nat) (p : CapSrc) (w : Src) : Statement (.vcsetaddr h q p w) := by
  intro hw
  have hw' : (h.ok && q < 256 && p.ok && w.okInt true) = true := hw
  simp only [Bool.and_eq_true] at hw'
  obtain ⟨⟨⟨w0, w1⟩, w2⟩, w3⟩ := hw'
  simp only [decide_eq_true_eq] at w1
  have hg : h.gp < 64 := by simpa [LaneHdr.ok] using w0
  obtain ⟨p_lt, p_eq⟩ := cap_ofEnc w2
  obtain ⟨w_lt, w_eq⟩ := src_ofEnc (.inl w3)
  have := boolEnc_lt h.pr
  have := boolEnc_lt h.gn
  have key : ∀ r : RawLane, r.op = 0x52 → r.mod = 0x09 → laneOf r = capSrc r fun p => (Src.ofEnc r.sb).map
      (.vcsetaddr (LaneHdr.ofRaw r) r.dreg p) := by
    intro r h1 h2
    unfold laneOf
    rw [h1]
    show vcOf r = _
    unfold vcOf
    rw [h2]
    rfl
  refine lane_word hw rfl ?_ ?_
  · simp only [RawFits, rawHdr, rawVc]
    omega
  · rw [key _ rfl rfl]
    simp only [rawHdr, rawVc, capSrc, hdr_raw, Option.bind_some, Option.map_some, p_eq, w_eq]

theorem vcinc (h : LaneHdr) (q : Nat) (p : CapSrc) (w : Src) : Statement (.vcinc h q p w) := by
  intro hw
  have hw' : (h.ok && q < 256 && p.ok && w.okInt true) = true := hw
  simp only [Bool.and_eq_true] at hw'
  obtain ⟨⟨⟨w0, w1⟩, w2⟩, w3⟩ := hw'
  simp only [decide_eq_true_eq] at w1
  have hg : h.gp < 64 := by simpa [LaneHdr.ok] using w0
  obtain ⟨p_lt, p_eq⟩ := cap_ofEnc w2
  obtain ⟨w_lt, w_eq⟩ := src_ofEnc (.inl w3)
  have := boolEnc_lt h.pr
  have := boolEnc_lt h.gn
  have key : ∀ r : RawLane, r.op = 0x52 → r.mod = 0x0A → laneOf r = capSrc r fun p => (Src.ofEnc r.sb).map (.vcinc
      (LaneHdr.ofRaw r) r.dreg p) := by
    intro r h1 h2
    unfold laneOf
    rw [h1]
    show vcOf r = _
    unfold vcOf
    rw [h2]
    rfl
  refine lane_word hw rfl ?_ ?_
  · simp only [RawFits, rawHdr, rawVc]
    omega
  · rw [key _ rfl rfl]
    simp only [rawHdr, rawVc, capSrc, hdr_raw, Option.bind_some, Option.map_some, p_eq, w_eq]

theorem vcsetbnd (h : LaneHdr) (q : Nat) (p : CapSrc) (w : Src) : Statement (.vcsetbnd h q p w) := by
  intro hw
  have hw' : (h.ok && q < 256 && p.ok && w.okInt true) = true := hw
  simp only [Bool.and_eq_true] at hw'
  obtain ⟨⟨⟨w0, w1⟩, w2⟩, w3⟩ := hw'
  simp only [decide_eq_true_eq] at w1
  have hg : h.gp < 64 := by simpa [LaneHdr.ok] using w0
  obtain ⟨p_lt, p_eq⟩ := cap_ofEnc w2
  obtain ⟨w_lt, w_eq⟩ := src_ofEnc (.inl w3)
  have := boolEnc_lt h.pr
  have := boolEnc_lt h.gn
  have key : ∀ r : RawLane, r.op = 0x52 → r.mod = 0x0B → laneOf r = capSrc r fun p => (Src.ofEnc r.sb).map (.vcsetbnd
      (LaneHdr.ofRaw r) r.dreg p) := by
    intro r h1 h2
    unfold laneOf
    rw [h1]
    show vcOf r = _
    unfold vcOf
    rw [h2]
    rfl
  refine lane_word hw rfl ?_ ?_
  · simp only [RawFits, rawHdr, rawVc]
    omega
  · rw [key _ rfl rfl]
    simp only [rawHdr, rawVc, capSrc, hdr_raw, Option.bind_some, Option.map_some, p_eq, w_eq]

theorem vcsetbndx (h : LaneHdr) (q : Nat) (p : CapSrc) (w : Src) : Statement (.vcsetbndx h q p w) := by
  intro hw
  have hw' : (h.ok && q < 256 && p.ok && w.okInt true) = true := hw
  simp only [Bool.and_eq_true] at hw'
  obtain ⟨⟨⟨w0, w1⟩, w2⟩, w3⟩ := hw'
  simp only [decide_eq_true_eq] at w1
  have hg : h.gp < 64 := by simpa [LaneHdr.ok] using w0
  obtain ⟨p_lt, p_eq⟩ := cap_ofEnc w2
  obtain ⟨w_lt, w_eq⟩ := src_ofEnc (.inl w3)
  have := boolEnc_lt h.pr
  have := boolEnc_lt h.gn
  have key : ∀ r : RawLane, r.op = 0x52 → r.mod = 0x0C → laneOf r = capSrc r fun p => (Src.ofEnc r.sb).map
      (.vcsetbndx (LaneHdr.ofRaw r) r.dreg p) := by
    intro r h1 h2
    unfold laneOf
    rw [h1]
    show vcOf r = _
    unfold vcOf
    rw [h2]
    rfl
  refine lane_word hw rfl ?_ ?_
  · simp only [RawFits, rawHdr, rawVc]
    omega
  · rw [key _ rfl rfl]
    simp only [rawHdr, rawVc, capSrc, hdr_raw, Option.bind_some, Option.map_some, p_eq, w_eq]

theorem vcnarrow (h : LaneHdr) (q : Nat) (p : CapSrc) (w : Src) : Statement (.vcnarrow h q p w) := by
  intro hw
  have hw' : (h.ok && q < 256 && p.ok && w.okInt false) = true := hw
  simp only [Bool.and_eq_true] at hw'
  obtain ⟨⟨⟨w0, w1⟩, w2⟩, w3⟩ := hw'
  simp only [decide_eq_true_eq] at w1
  have hg : h.gp < 64 := by simpa [LaneHdr.ok] using w0
  obtain ⟨p_lt, p_eq⟩ := cap_ofEnc w2
  obtain ⟨w_lt, w_eq⟩ := src_ofEnc (.inl w3)
  have := boolEnc_lt h.pr
  have := boolEnc_lt h.gn
  have key : ∀ r : RawLane, r.op = 0x52 → r.mod = 0x0D → laneOf r = capSrc r fun p => (Src.ofEnc r.sb).map (.vcnarrow
      (LaneHdr.ofRaw r) r.dreg p) := by
    intro r h1 h2
    unfold laneOf
    rw [h1]
    show vcOf r = _
    unfold vcOf
    rw [h2]
    rfl
  refine lane_word hw rfl ?_ ?_
  · simp only [RawFits, rawHdr, rawVc]
    omega
  · rw [key _ rfl rfl]
    simp only [rawHdr, rawVc, capSrc, hdr_raw, Option.bind_some, Option.map_some, p_eq, w_eq]

theorem vcwrap (h : LaneHdr) (q : Nat) (p : CapSrc) (k : CapSrc) : Statement (.vcwrap h q p k) := by
  intro hw
  have hw' : (h.ok && q < 256 && p.ok && k.ok) = true := hw
  simp only [Bool.and_eq_true] at hw'
  obtain ⟨⟨⟨w0, w1⟩, w2⟩, w3⟩ := hw'
  simp only [decide_eq_true_eq] at w1
  have hg : h.gp < 64 := by simpa [LaneHdr.ok] using w0
  obtain ⟨p_lt, p_eq⟩ := cap_ofEnc w2
  obtain ⟨k_lt, k_eq⟩ := cap_ofEnc w3
  have := boolEnc_lt h.pr
  have := boolEnc_lt h.gn
  have key : ∀ r : RawLane, r.op = 0x52 → r.mod = 0x0E → laneOf r = capSrc r fun p => (CapSrc.ofEnc r.sb).map
      (.vcwrap (LaneHdr.ofRaw r) r.dreg p) := by
    intro r h1 h2
    unfold laneOf
    rw [h1]
    show vcOf r = _
    unfold vcOf
    rw [h2]
    rfl
  refine lane_word hw rfl ?_ ?_
  · simp only [RawFits, rawHdr, rawVc]
    omega
  · rw [key _ rfl rfl]
    simp only [rawHdr, rawVc, capSrc, hdr_raw, Option.bind_some, Option.map_some, p_eq, k_eq]

theorem vcunwrap (h : LaneHdr) (q : Nat) (p : CapSrc) (k : CapSrc) : Statement (.vcunwrap h q p k) := by
  intro hw
  have hw' : (h.ok && q < 256 && p.ok && k.ok) = true := hw
  simp only [Bool.and_eq_true] at hw'
  obtain ⟨⟨⟨w0, w1⟩, w2⟩, w3⟩ := hw'
  simp only [decide_eq_true_eq] at w1
  have hg : h.gp < 64 := by simpa [LaneHdr.ok] using w0
  obtain ⟨p_lt, p_eq⟩ := cap_ofEnc w2
  obtain ⟨k_lt, k_eq⟩ := cap_ofEnc w3
  have := boolEnc_lt h.pr
  have := boolEnc_lt h.gn
  have key : ∀ r : RawLane, r.op = 0x52 → r.mod = 0x0F → laneOf r = capSrc r fun p => (CapSrc.ofEnc r.sb).map
      (.vcunwrap (LaneHdr.ofRaw r) r.dreg p) := by
    intro r h1 h2
    unfold laneOf
    rw [h1]
    show vcOf r = _
    unfold vcOf
    rw [h2]
    rfl
  refine lane_word hw rfl ?_ ?_
  · simp only [RawFits, rawHdr, rawVc]
    omega
  · rw [key _ rfl rfl]
    simp only [rawHdr, rawVc, capSrc, hdr_raw, Option.bind_some, Option.map_some, p_eq, k_eq]

theorem vcwithin (h : LaneHdr) (w : Nat) (p : CapSrc) (q : Nat) : Statement (.vcwithin h w p q) := by
  intro hw
  have hw' : (h.ok && vregOk w && p.ok && q < 256) = true := hw
  simp only [Bool.and_eq_true] at hw'
  obtain ⟨⟨⟨w0, w1⟩, w2⟩, w3⟩ := hw'
  simp only [vregOk, decide_eq_true_eq] at w1
  simp only [decide_eq_true_eq] at w3
  have hg : h.gp < 64 := by simpa [LaneHdr.ok] using w0
  obtain ⟨p_lt, p_eq⟩ := cap_ofEnc w2
  have := boolEnc_lt h.pr
  have := boolEnc_lt h.gn
  have key : ∀ r : RawLane, r.op = 0x52 → r.mod = 0x10 → laneOf r = capSrc r fun p => some (.vcwithin (LaneHdr.ofRaw
      r) r.sb p r.dreg) := by
    intro r h1 h2
    unfold laneOf
    rw [h1]
    show vcOf r = _
    unfold vcOf
    rw [h2]
    rfl
  refine lane_word hw rfl ?_ ?_
  · simp only [RawFits, rawHdr, rawVc]
    omega
  · rw [key _ rfl rfl]
    simp only [rawHdr, rawVc, capSrc, hdr_raw, Option.bind_some, p_eq]

theorem ld (h : LaneHdr) (ty : Ty) (ord : Ord) (scope : Scope) (ro : Bool) (d : Nat) (cap : CapSrc) (off : Src) (imm
    : Int) (tk : Option Nat) : Statement (.ld h ty ord scope ro d cap off imm tk) := by
  intro hw
  have hw' : (h.ok && ty.isInt && ord.okLoad && (!ro || ord == .rlx) && vopOk ty.isPair d && cap.ok && off.okInt
      false && immOk 13 imm && tkOk tk) = true := hw
  simp only [Bool.and_eq_true] at hw'
  obtain ⟨⟨⟨⟨⟨⟨⟨⟨w0, w1⟩, w2⟩, w3⟩, w4⟩, w5⟩, w6⟩, w7⟩, w8⟩ := hw'
  simp only [vopOk, Bool.and_eq_true, decide_eq_true_eq] at w4
  simp only [immOk, Bool.and_eq_true, decide_eq_true_eq] at w7
  have hg : h.gp < 64 := by simpa [LaneHdr.ok] using w0
  obtain ⟨cap_lt, cap_eq⟩ := cap_ofEnc w5
  obtain ⟨off_lt, off_eq⟩ := src_ofEnc (.inl w6)
  have := tkEnc_lt w8
  have := boolEnc_lt h.pr
  have := boolEnc_lt h.gn
  have := ty_lt ty
  have := ord_lt ord
  have := scope_lt scope
  have := boolEnc_lt ro
  have := unsext_lt 13 imm
  have himm : -4096 ≤ imm ∧ imm < 4096 := by omega
  obtain ⟨m1, m2, m3, m4, m5, m6⟩ := modMem_ok ord scope (ty := ty.code) (low := (boolEnc ro * 4)) (ty_lt ty) (by
      omega)
  have m7 : boolEnc ro * 4 / 4 = boolEnc ro := by omega
  have key : ∀ r : RawLane, r.op = 0x60 → laneOf r = ordScope r fun o s => memTy r fun ty => capSrc r fun c =>
      (Src.ofEnc r.sb).map fun off => .ld (LaneHdr.ofRaw r) ty o s (boolOf (r.mod / 4 % 2)) r.dreg c off (sext 13
          r.x) (tkOf r.tk) := by
    intro r h1
    unfold laneOf
    rw [h1]
    rfl
  refine lane_word hw rfl ?_ ?_
  · simp only [RawFits, rawHdr]
    omega
  · rw [key _ rfl]
    simp only [rawHdr, capSrc, ordScope, memTy, hdr_raw, boolOf_boolEnc, tkOf_tkEnc, Option.bind_some,
        Option.map_some, cap_eq, off_eq, ty_code, sext_unsext13 himm, m2, m3, m4, m6, m7]

theorem st (h : LaneHdr) (ty : Ty) (ord : Ord) (scope : Scope) (data : Src) (cap : CapSrc) (off : Src) (imm : Int)
    (tk : Option Nat) : Statement (.st h ty ord scope data cap off imm tk) := by
  intro hw
  have hw' : (h.ok && ty.isInt && !ty.isSigned && ord.okStore && data.okInt ty.isPair && cap.ok && off.okInt false &&
      immOk 13 imm && tkOk tk) = true := hw
  simp only [Bool.and_eq_true] at hw'
  obtain ⟨⟨⟨⟨⟨⟨⟨⟨w0, w1⟩, w2⟩, w3⟩, w4⟩, w5⟩, w6⟩, w7⟩, w8⟩ := hw'
  simp only [immOk, Bool.and_eq_true, decide_eq_true_eq] at w7
  have hg : h.gp < 64 := by simpa [LaneHdr.ok] using w0
  obtain ⟨data_lt, data_eq⟩ := src_ofEnc (.inl w4)
  obtain ⟨cap_lt, cap_eq⟩ := cap_ofEnc w5
  obtain ⟨off_lt, off_eq⟩ := src_ofEnc (.inl w6)
  have := tkEnc_lt w8
  have := boolEnc_lt h.pr
  have := boolEnc_lt h.gn
  have := ty_lt ty
  have := ord_lt ord
  have := scope_lt scope
  have := unsext_lt 13 imm
  have himm : -4096 ≤ imm ∧ imm < 4096 := by omega
  obtain ⟨m1, m2, m3, m4, m5, m6⟩ := modMem_ok ord scope (ty := ty.code) (low := 0) (ty_lt ty) (by omega)
  have key : ∀ r : RawLane, r.op = 0x61 → laneOf r = ordScope r fun o s => memTy r fun ty => capSrc r fun c =>
      (Src.ofEnc r.sb).bind fun off => (Src.ofEnc r.sc).map fun v => .st (LaneHdr.ofRaw r) ty o s v c off (sext 13
          r.x) (tkOf r.tk) := by
    intro r h1
    unfold laneOf
    rw [h1]
    rfl
  refine lane_word hw rfl ?_ ?_
  · simp only [RawFits, rawHdr]
    omega
  · rw [key _ rfl]
    simp only [rawHdr, capSrc, ordScope, memTy, hdr_raw, tkOf_tkEnc, Option.bind_some, Option.map_some, data_eq,
        cap_eq, off_eq, ty_code, sext_unsext13 himm, m2, m3, m4]

theorem ldnr (h : LaneHdr) (ty : Ty) (ord : Ord) (scope : Scope) (ro : Bool) (d : Nat) (r : Nat) (cap : CapSrc) (off
    : Src) (imm : Int) (tk : Option Nat) : Statement (.ldnr h ty ord scope ro d r cap off imm tk) := by
  intro hw
  have hw' : (h.ok && ty.isInt && ord.okLoad && (!ro || ord == .rlx) && vopOk ty.isPair d && predOk r && r != 0 &&
      cap.ok && off.okInt false && immOk 13 imm && tkOk tk) = true := hw
  simp only [Bool.and_eq_true] at hw'
  obtain ⟨⟨⟨⟨⟨⟨⟨⟨⟨⟨w0, w1⟩, w2⟩, w3⟩, w4⟩, w5⟩, w6⟩, w7⟩, w8⟩, w9⟩, w10⟩ := hw'
  simp only [vopOk, Bool.and_eq_true, decide_eq_true_eq] at w4
  simp only [predOk, decide_eq_true_eq] at w5
  simp only [bne_iff_ne, ne_eq] at w6
  simp only [immOk, Bool.and_eq_true, decide_eq_true_eq] at w9
  have hg : h.gp < 64 := by simpa [LaneHdr.ok] using w0
  obtain ⟨cap_lt, cap_eq⟩ := cap_ofEnc w7
  obtain ⟨off_lt, off_eq⟩ := src_ofEnc (.inl w8)
  have := tkEnc_lt w10
  have := boolEnc_lt h.pr
  have := boolEnc_lt h.gn
  have := ty_lt ty
  have := ord_lt ord
  have := scope_lt scope
  have := boolEnc_lt ro
  have := unsext_lt 13 imm
  have himm : -4096 ≤ imm ∧ imm < 4096 := by omega
  obtain ⟨m1, m2, m3, m4, m5, m6⟩ := modMem_ok ord scope (ty := ty.code) (low := (boolEnc ro * 4)) (ty_lt ty) (by
      omega)
  have m7 : boolEnc ro * 4 / 4 = boolEnc ro := by omega
  have key : ∀ r : RawLane, r.op = 0x62 → laneOf r = ordScope r fun o s => memTy r fun ty => capSrc r fun c =>
      (Src.ofEnc r.sb).map fun off => .ldnr (LaneHdr.ofRaw r) ty o s (boolOf (r.mod / 4 % 2)) r.dreg (r.sc - 3072) c
          off (sext 13 r.x) (tkOf r.tk) := by
    intro r h1
    unfold laneOf
    rw [h1]
    rfl
  refine lane_word hw rfl ?_ ?_
  · simp only [RawFits, rawHdr]
    omega
  · rw [key _ rfl]
    simp only [rawHdr, capSrc, ordScope, memTy, hdr_raw, boolOf_boolEnc, tkOf_tkEnc, Option.bind_some,
        Option.map_some, Nat.add_sub_cancel_left, cap_eq, off_eq, ty_code, sext_unsext13 himm, m2, m3, m4, m6, m7]

theorem ldsub (h : LaneHdr) (ty : Ty) (ord : Ord) (scope : Scope) (ro : Bool) (d : Nat) (cap : CapSrc) (off : Src)
    (imm : Int) (tk : Option Nat) : Statement (.ldsub h ty ord scope ro d cap off imm tk) := by
  intro hw
  have hw' : (h.ok && (ty == .bf16 || ty == .fp8e4) && ord.okLoad && (!ro || ord == .rlx) && vregOk d && cap.ok &&
      off.okInt false && immOk 13 imm && tkOk tk) = true := hw
  simp only [Bool.and_eq_true] at hw'
  obtain ⟨⟨⟨⟨⟨⟨⟨⟨w0, w1⟩, w2⟩, w3⟩, w4⟩, w5⟩, w6⟩, w7⟩, w8⟩ := hw'
  simp only [vregOk, decide_eq_true_eq] at w4
  simp only [immOk, Bool.and_eq_true, decide_eq_true_eq] at w7
  have hg : h.gp < 64 := by simpa [LaneHdr.ok] using w0
  obtain ⟨cap_lt, cap_eq⟩ := cap_ofEnc w5
  obtain ⟨off_lt, off_eq⟩ := src_ofEnc (.inl w6)
  have := tkEnc_lt w8
  have := boolEnc_lt h.pr
  have := boolEnc_lt h.gn
  have := ty_lt ty
  have := ord_lt ord
  have := scope_lt scope
  have := boolEnc_lt ro
  have := unsext_lt 13 imm
  have himm : -4096 ≤ imm ∧ imm < 4096 := by omega
  obtain ⟨m1, m2, m3, m4, m5, m6⟩ := modMem_ok ord scope (ty := ty.code) (low := (boolEnc ro * 4)) (ty_lt ty) (by
      omega)
  have m7 : boolEnc ro * 4 / 4 = boolEnc ro := by omega
  have key : ∀ r : RawLane, r.op = 0x63 → laneOf r = ordScope r fun o s => memTy r fun ty => capSrc r fun c =>
      (Src.ofEnc r.sb).map fun off => .ldsub (LaneHdr.ofRaw r) ty o s (boolOf (r.mod / 4 % 2)) r.dreg c off (sext 13
          r.x) (tkOf r.tk) := by
    intro r h1
    unfold laneOf
    rw [h1]
    rfl
  refine lane_word hw rfl ?_ ?_
  · simp only [RawFits, rawHdr]
    omega
  · rw [key _ rfl]
    simp only [rawHdr, capSrc, ordScope, memTy, hdr_raw, boolOf_boolEnc, tkOf_tkEnc, Option.bind_some,
        Option.map_some, cap_eq, off_eq, ty_code, sext_unsext13 himm, m2, m3, m4, m6, m7]

theorem subs (h : LaneHdr) (ty : Ty) (c : Nat) (b : Nat) (tk : Option Nat) : Statement (.subs h ty c b tk) := by
  intro hw
  have hw' : (h.ok && (ty == .bf16 || ty == .fp8e4) && cregOk c && b ≤ 157 && tkOk tk) = true := hw
  simp only [Bool.and_eq_true] at hw'
  obtain ⟨⟨⟨⟨w0, w1⟩, w2⟩, w3⟩, w4⟩ := hw'
  simp only [cregOk, decide_eq_true_eq] at w2
  simp only [decide_eq_true_eq] at w3
  have hg : h.gp < 64 := by simpa [LaneHdr.ok] using w0
  have := tkEnc_lt w4
  have := boolEnc_lt h.pr
  have := boolEnc_lt h.gn
  have := ty_lt ty
  obtain ⟨m1, m2, m3, m4, m5, m6⟩ := modMem_ok .rlx .grp (ty := ty.code) (low := 0) (ty_lt ty) (by omega)
  have key : ∀ r : RawLane, r.op = 0x64 → laneOf r = memTy r fun ty => some (.subs (LaneHdr.ofRaw r) ty (r.sa - 1024)
      (r.sb - 1024) (tkOf r.tk)) := by
    intro r h1
    unfold laneOf
    rw [h1]
    rfl
  refine lane_word hw rfl ?_ ?_
  · simp only [RawFits, rawHdr]
    omega
  · rw [key _ rfl]
    simp only [rawHdr, memTy, hdr_raw, tkOf_tkEnc, Option.bind_some, Nat.add_sub_cancel_left, ty_code, m4]

theorem unsubs (h : LaneHdr) (c : Nat) (b : Nat) (tk : Option Nat) : Statement (.unsubs h c b tk) := by
  intro hw
  have hw' : (h.ok && cregOk c && b ≤ 157 && tkOk tk) = true := hw
  simp only [Bool.and_eq_true] at hw'
  obtain ⟨⟨⟨w0, w1⟩, w2⟩, w3⟩ := hw'
  simp only [cregOk, decide_eq_true_eq] at w1
  simp only [decide_eq_true_eq] at w2
  have hg : h.gp < 64 := by simpa [LaneHdr.ok] using w0
  have := tkEnc_lt w3
  have := boolEnc_lt h.pr
  have := boolEnc_lt h.gn
  have key : ∀ r : RawLane, r.op = 0x65 → laneOf r = some (.unsubs (LaneHdr.ofRaw r) (r.sa - 1024) (r.sb - 1024)
      (tkOf r.tk)) := by
    intro r h1
    unfold laneOf
    rw [h1]
    rfl
  refine lane_word hw rfl ?_ ?_
  · simp only [RawFits, rawHdr]
    omega
  · rw [key _ rfl]
    simp only [rawHdr, hdr_raw, tkOf_tkEnc, Nat.add_sub_cancel_left]

theorem lds (h : LaneHdr) (ty : Ty) (ord : Ord) (scope : Scope) (d : Nat) (addr : Src) (imm : Int) (tk : Option Nat)
    : Statement (.lds h ty ord scope d addr imm tk) := by
  intro hw
  have hw' : (h.ok && ty.isInt && ord.okLoad && vopOk ty.isPair d && addr.okInt false && immOk 13 imm && tkOk tk) =
      true := hw
  simp only [Bool.and_eq_true] at hw'
  obtain ⟨⟨⟨⟨⟨⟨w0, w1⟩, w2⟩, w3⟩, w4⟩, w5⟩, w6⟩ := hw'
  simp only [vopOk, Bool.and_eq_true, decide_eq_true_eq] at w3
  simp only [immOk, Bool.and_eq_true, decide_eq_true_eq] at w5
  have hg : h.gp < 64 := by simpa [LaneHdr.ok] using w0
  obtain ⟨addr_lt, addr_eq⟩ := src_ofEnc (.inl w4)
  have := tkEnc_lt w6
  have := boolEnc_lt h.pr
  have := boolEnc_lt h.gn
  have := ty_lt ty
  have := ord_lt ord
  have := scope_lt scope
  have := unsext_lt 13 imm
  have himm : -4096 ≤ imm ∧ imm < 4096 := by omega
  obtain ⟨m1, m2, m3, m4, m5, m6⟩ := modMem_ok ord scope (ty := ty.code) (low := 0) (ty_lt ty) (by omega)
  have key : ∀ r : RawLane, r.op = 0x66 → laneOf r = ordScope r fun o s => memTy r fun ty => src1 r fun a => .lds
      (LaneHdr.ofRaw r) ty o s r.dreg a (sext 13 r.x) (tkOf r.tk) := by
    intro r h1
    unfold laneOf
    rw [h1]
    rfl
  refine lane_word hw rfl ?_ ?_
  · simp only [RawFits, rawHdr]
    omega
  · rw [key _ rfl]
    simp only [rawHdr, src1, ordScope, memTy, hdr_raw, tkOf_tkEnc, Option.bind_some, Option.map_some, addr_eq,
        ty_code, sext_unsext13 himm, m2, m3, m4]

theorem sts (h : LaneHdr) (ty : Ty) (ord : Ord) (scope : Scope) (data : Src) (addr : Src) (imm : Int) (tk : Option
    Nat) : Statement (.sts h ty ord scope data addr imm tk) := by
  intro hw
  have hw' : (h.ok && ty.isInt && !ty.isSigned && ord.okStore && data.okInt ty.isPair && addr.okInt false && immOk 13
      imm && tkOk tk) = true := hw
  simp only [Bool.and_eq_true] at hw'
  obtain ⟨⟨⟨⟨⟨⟨⟨w0, w1⟩, w2⟩, w3⟩, w4⟩, w5⟩, w6⟩, w7⟩ := hw'
  simp only [immOk, Bool.and_eq_true, decide_eq_true_eq] at w6
  have hg : h.gp < 64 := by simpa [LaneHdr.ok] using w0
  obtain ⟨data_lt, data_eq⟩ := src_ofEnc (.inl w4)
  obtain ⟨addr_lt, addr_eq⟩ := src_ofEnc (.inl w5)
  have := tkEnc_lt w7
  have := boolEnc_lt h.pr
  have := boolEnc_lt h.gn
  have := ty_lt ty
  have := ord_lt ord
  have := scope_lt scope
  have := unsext_lt 13 imm
  have himm : -4096 ≤ imm ∧ imm < 4096 := by omega
  obtain ⟨m1, m2, m3, m4, m5, m6⟩ := modMem_ok ord scope (ty := ty.code) (low := 0) (ty_lt ty) (by omega)
  have key : ∀ r : RawLane, r.op = 0x67 → laneOf r = ordScope r fun o s => memTy r fun ty => (Src.ofEnc r.sa).bind
      fun a => (Src.ofEnc r.sc).map fun v => .sts (LaneHdr.ofRaw r) ty o s v a (sext 13 r.x) (tkOf r.tk) := by
    intro r h1
    unfold laneOf
    rw [h1]
    rfl
  refine lane_word hw rfl ?_ ?_
  · simp only [RawFits, rawHdr]
    omega
  · rw [key _ rfl]
    simp only [rawHdr, ordScope, memTy, hdr_raw, tkOf_tkEnc, Option.bind_some, Option.map_some, data_eq, addr_eq,
        ty_code, sext_unsext13 himm, m2, m3, m4]

theorem atom (h : LaneHdr) (op : AtomOp) (ty : Ty) (ord : Ord) (scope : Scope) (d : Dst) (cap : CapSrc) (off : Src)
    (opnd : Src) (imm : Int) (tk : Option Nat) : Statement (.atom h op ty ord scope d cap off opnd imm tk) := by
  intro hw
  have hw' : (h.ok && atomOk op ty && d.ok ty.isPair && cap.ok && off.okInt false && atomOpndOk op ty opnd && immOk
      13 imm && tkOk tk) = true := hw
  simp only [Bool.and_eq_true] at hw'
  obtain ⟨⟨⟨⟨⟨⟨⟨w0, w1⟩, w2⟩, w3⟩, w4⟩, w5⟩, w6⟩, w7⟩ := hw'
  simp only [immOk, Bool.and_eq_true, decide_eq_true_eq] at w6
  have hg : h.gp < 64 := by simpa [LaneHdr.ok] using w0
  obtain ⟨d1, d2, -⟩ := dst_ok w2
  obtain ⟨cap_lt, cap_eq⟩ := cap_ofEnc w3
  obtain ⟨off_lt, off_eq⟩ := src_ofEnc (.inl w4)
  obtain ⟨opnd_lt, opnd_eq⟩ := src_atom w5
  have := tkEnc_lt w7
  have := boolEnc_lt h.pr
  have := boolEnc_lt h.gn
  have := atomOp_lt op
  have := ty_lt ty
  have := ord_lt ord
  have := scope_lt scope
  have := unsext_lt 13 imm
  have himm : -4096 ≤ imm ∧ imm < 4096 := by omega
  obtain ⟨m1, m2, m3, m4, m5, m6⟩ := modMem_ok ord scope (ty := ty.code) (low := op.code) (ty_lt ty) (by omega)
  have key : ∀ r : RawLane, r.op = 0x68 → laneOf r = ordScope r fun o s => memTy r fun ty => (AtomOp.ofCode (r.mod %
      8)).bind fun op => capSrc r fun c => (Src.ofEnc r.sb).bind fun off => (Src.ofEnc r.sc).map fun v => .atom
          (LaneHdr.ofRaw r) op ty o s (Dst.ofRaw r) c off v (sext 13 r.x) (tkOf r.tk) := by
    intro r h1
    unfold laneOf
    rw [h1]
    rfl
  refine lane_word hw rfl ?_ ?_
  · simp only [RawFits, rawHdr]
    omega
  · rw [key _ rfl]
    simp only [rawHdr, capSrc, ordScope, memTy, dst_raw, hdr_raw, tkOf_tkEnc, Option.bind_some, Option.map_some,
        cap_eq, off_eq, opnd_eq, atomOp_code, ty_code, sext_unsext13 himm, m2, m3, m4, m5]

theorem atoms (h : LaneHdr) (op : AtomOp) (ty : Ty) (ord : Ord) (scope : Scope) (d : Dst) (addr : Src) (opnd : Src)
    (imm : Int) (tk : Option Nat) : Statement (.atoms h op ty ord scope d addr opnd imm tk) := by
  intro hw
  have hw' : (h.ok && atomOk op ty && d.ok ty.isPair && addr.okInt false && atomOpndOk op ty opnd && immOk 13 imm &&
      tkOk tk) = true := hw
  simp only [Bool.and_eq_true] at hw'
  obtain ⟨⟨⟨⟨⟨⟨w0, w1⟩, w2⟩, w3⟩, w4⟩, w5⟩, w6⟩ := hw'
  simp only [immOk, Bool.and_eq_true, decide_eq_true_eq] at w5
  have hg : h.gp < 64 := by simpa [LaneHdr.ok] using w0
  obtain ⟨d1, d2, -⟩ := dst_ok w2
  obtain ⟨addr_lt, addr_eq⟩ := src_ofEnc (.inl w3)
  obtain ⟨opnd_lt, opnd_eq⟩ := src_atom w4
  have := tkEnc_lt w6
  have := boolEnc_lt h.pr
  have := boolEnc_lt h.gn
  have := atomOp_lt op
  have := ty_lt ty
  have := ord_lt ord
  have := scope_lt scope
  have := unsext_lt 13 imm
  have himm : -4096 ≤ imm ∧ imm < 4096 := by omega
  obtain ⟨m1, m2, m3, m4, m5, m6⟩ := modMem_ok ord scope (ty := ty.code) (low := op.code) (ty_lt ty) (by omega)
  have key : ∀ r : RawLane, r.op = 0x69 → laneOf r = ordScope r fun o s => memTy r fun ty => (AtomOp.ofCode (r.mod %
      8)).bind fun op => (Src.ofEnc r.sa).bind fun a => (Src.ofEnc r.sc).map fun v => .atoms (LaneHdr.ofRaw r) op ty
          o s (Dst.ofRaw r) a v (sext 13 r.x) (tkOf r.tk) := by
    intro r h1
    unfold laneOf
    rw [h1]
    rfl
  refine lane_word hw rfl ?_ ?_
  · simp only [RawFits, rawHdr]
    omega
  · rw [key _ rfl]
    simp only [rawHdr, ordScope, memTy, dst_raw, hdr_raw, tkOf_tkEnc, Option.bind_some, Option.map_some, addr_eq,
        opnd_eq, atomOp_code, ty_code, sext_unsext13 himm, m2, m3, m4, m5]

theorem laneLdc (h : LaneHdr) (ord : Ord) (scope : Scope) (d : Nat) (cap : CapSrc) (off : Src) (imm : Int) (tk :
    Option Nat) : Statement (.laneLdc h ord scope d cap off imm tk) := by
  intro hw
  have hw' : (h.ok && ord.okLoad && d < 256 && cap.ok && off.okInt false && immOk 13 imm && imm % 16 == 0 && tkOk tk)
      = true := hw
  simp only [Bool.and_eq_true] at hw'
  obtain ⟨⟨⟨⟨⟨⟨⟨w0, w1⟩, w2⟩, w3⟩, w4⟩, w5⟩, w6⟩, w7⟩ := hw'
  simp only [decide_eq_true_eq] at w2
  simp only [immOk, Bool.and_eq_true, decide_eq_true_eq] at w5
  simp only [beq_iff_eq] at w6
  have hg : h.gp < 64 := by simpa [LaneHdr.ok] using w0
  obtain ⟨cap_lt, cap_eq⟩ := cap_ofEnc w3
  obtain ⟨off_lt, off_eq⟩ := src_ofEnc (.inl w4)
  have := tkEnc_lt w7
  have := boolEnc_lt h.pr
  have := boolEnc_lt h.gn
  have := ord_lt ord
  have := scope_lt scope
  have := unsext_lt 13 imm
  have himm : -4096 ≤ imm ∧ imm < 4096 := by omega
  obtain ⟨m1, m2, m3, m4, m5, m6⟩ := modMem_ok ord scope (ty := 0) (low := 0) (by decide) (by omega)
  have key : ∀ r : RawLane, r.op = 0x6A → laneOf r = ordScope r fun o s => capSrc r fun c => (Src.ofEnc r.sb).map fun
      off => .laneLdc (LaneHdr.ofRaw r) o s r.dreg c off (sext 13 r.x) (tkOf r.tk) := by
    intro r h1
    unfold laneOf
    rw [h1]
    rfl
  refine lane_word hw rfl ?_ ?_
  · simp only [RawFits, rawHdr]
    omega
  · rw [key _ rfl]
    simp only [rawHdr, capSrc, ordScope, hdr_raw, tkOf_tkEnc, Option.bind_some, Option.map_some, cap_eq, off_eq,
        sext_unsext13 himm, m2, m3]

theorem laneStc (h : LaneHdr) (ord : Ord) (scope : Scope) (v : Nat) (cap : CapSrc) (off : Src) (imm : Int) (tk :
    Option Nat) : Statement (.laneStc h ord scope v cap off imm tk) := by
  intro hw
  have hw' : (h.ok && ord.okStore && v < 256 && cap.ok && off.okInt false && immOk 13 imm && imm % 16 == 0 && tkOk
      tk) = true := hw
  simp only [Bool.and_eq_true] at hw'
  obtain ⟨⟨⟨⟨⟨⟨⟨w0, w1⟩, w2⟩, w3⟩, w4⟩, w5⟩, w6⟩, w7⟩ := hw'
  simp only [decide_eq_true_eq] at w2
  simp only [immOk, Bool.and_eq_true, decide_eq_true_eq] at w5
  simp only [beq_iff_eq] at w6
  have hg : h.gp < 64 := by simpa [LaneHdr.ok] using w0
  obtain ⟨cap_lt, cap_eq⟩ := cap_ofEnc w3
  obtain ⟨off_lt, off_eq⟩ := src_ofEnc (.inl w4)
  have := tkEnc_lt w7
  have := boolEnc_lt h.pr
  have := boolEnc_lt h.gn
  have := ord_lt ord
  have := scope_lt scope
  have := unsext_lt 13 imm
  have himm : -4096 ≤ imm ∧ imm < 4096 := by omega
  obtain ⟨m1, m2, m3, m4, m5, m6⟩ := modMem_ok ord scope (ty := 0) (low := 0) (by decide) (by omega)
  have key : ∀ r : RawLane, r.op = 0x6B → laneOf r = ordScope r fun o s => capSrc r fun c => (Src.ofEnc r.sb).map fun
      off => .laneStc (LaneHdr.ofRaw r) o s r.sc c off (sext 13 r.x) (tkOf r.tk) := by
    intro r h1
    unfold laneOf
    rw [h1]
    rfl
  refine lane_word hw rfl ?_ ?_
  · simp only [RawFits, rawHdr]
    omega
  · rw [key _ rfl]
    simp only [rawHdr, capSrc, ordScope, hdr_raw, tkOf_tkEnc, Option.bind_some, Option.map_some, cap_eq, off_eq,
        sext_unsext13 himm, m2, m3]

theorem laneFence (h : LaneHdr) (ord : Ord) (scope : Scope) (tk : Option Nat) : Statement (.laneFence h ord scope tk)
    := by
  intro hw
  have hw' : (h.ok && ord.okFence && tkOk tk) = true := hw
  simp only [Bool.and_eq_true] at hw'
  obtain ⟨⟨w0, w1⟩, w2⟩ := hw'
  have hg : h.gp < 64 := by simpa [LaneHdr.ok] using w0
  have := tkEnc_lt w2
  have := boolEnc_lt h.pr
  have := boolEnc_lt h.gn
  have := ord_lt ord
  have := scope_lt scope
  obtain ⟨m1, m2, m3, m4, m5, m6⟩ := modMem_ok ord scope (ty := 0) (low := 0) (by decide) (by omega)
  have key : ∀ r : RawLane, r.op = 0x6C → laneOf r = ordScope r fun o s => some (.laneFence (LaneHdr.ofRaw r) o s
      (tkOf r.tk)) := by
    intro r h1
    unfold laneOf
    rw [h1]
    rfl
  refine lane_word hw rfl ?_ ?_
  · simp only [RawFits, rawHdr]
    omega
  · rw [key _ rfl]
    simp only [rawHdr, ordScope, hdr_raw, tkOf_tkEnc, Option.bind_some, m2, m3]

theorem fencex (h : LaneHdr) (src : Path) (dst : Path) (ord : Ord) (scope : Scope) (tk : Option Nat) : Statement
    (.fencex h src dst ord scope tk) := by
  intro hw
  have hw' : (h.ok && src != dst && ord.okFence && tkOk tk) = true := hw
  simp only [Bool.and_eq_true] at hw'
  obtain ⟨⟨⟨w0, w1⟩, w2⟩, w3⟩ := hw'
  simp only [bne_iff_ne, ne_eq] at w1
  have hg : h.gp < 64 := by simpa [LaneHdr.ok] using w0
  have := tkEnc_lt w3
  have := boolEnc_lt h.pr
  have := boolEnc_lt h.gn
  have := path_lt src
  have := path_lt dst
  have := ord_lt ord
  have := scope_lt scope
  have n0 : (ord.code * 2 ^ 10 + scope.code * 2 ^ 7 + src.code * 2 ^ 4 + dst.code * 2) / 2 ^ 4 % 8 = src.code := by
      omega
  have n1 : (ord.code * 2 ^ 10 + scope.code * 2 ^ 7 + src.code * 2 ^ 4 + dst.code * 2) / 2 % 8 = dst.code := by omega
  have n2 : (ord.code * 2 ^ 10 + scope.code * 2 ^ 7 + src.code * 2 ^ 4 + dst.code * 2) / 2 ^ 10 = ord.code := by omega
  have n3 : (ord.code * 2 ^ 10 + scope.code * 2 ^ 7 + src.code * 2 ^ 4 + dst.code * 2) / 2 ^ 7 % 8 = scope.code := by
      omega
  have key : ∀ r : RawLane, r.op = 0x6D → laneOf r = ordScope r fun o s => (Path.ofCode (r.mod / 2 ^ 4 % 8)).bind fun
      src => (Path.ofCode (r.mod / 2 % 8)).map fun dst => .fencex (LaneHdr.ofRaw r) src dst o s (tkOf r.tk) := by
    intro r h1
    unfold laneOf
    rw [h1]
    rfl
  refine lane_word hw rfl ?_ ?_
  · simp only [RawFits, rawHdr]
    omega
  · rw [key _ rfl]
    simp only [rawHdr, ordScope, hdr_raw, tkOf_tkEnc, Option.bind_some, Option.map_some, path_code, n0, n1, n2, n3,
        ord_code, scope_code]

theorem pf (h : LaneHdr) (cap : CapSrc) (off : Src) (imm : Int) (tk : Option Nat) : Statement (.pf h cap off imm tk)
    := by
  intro hw
  have hw' : (h.ok && cap.ok && off.okInt false && immOk 13 imm && tkOk tk) = true := hw
  simp only [Bool.and_eq_true] at hw'
  obtain ⟨⟨⟨⟨w0, w1⟩, w2⟩, w3⟩, w4⟩ := hw'
  simp only [immOk, Bool.and_eq_true, decide_eq_true_eq] at w3
  have hg : h.gp < 64 := by simpa [LaneHdr.ok] using w0
  obtain ⟨cap_lt, cap_eq⟩ := cap_ofEnc w1
  obtain ⟨off_lt, off_eq⟩ := src_ofEnc (.inl w2)
  have := tkEnc_lt w4
  have := boolEnc_lt h.pr
  have := boolEnc_lt h.gn
  have := unsext_lt 13 imm
  have himm : -4096 ≤ imm ∧ imm < 4096 := by omega
  have key : ∀ r : RawLane, r.op = 0x6E → laneOf r = capSrc r fun c => (Src.ofEnc r.sb).map fun off => .pf
      (LaneHdr.ofRaw r) c off (sext 13 r.x) (tkOf r.tk) := by
    intro r h1
    unfold laneOf
    rw [h1]
    rfl
  refine lane_word hw rfl ?_ ?_
  · simp only [RawFits, rawHdr]
    omega
  · rw [key _ rfl]
    simp only [rawHdr, capSrc, hdr_raw, tkOf_tkEnc, Option.bind_some, Option.map_some, cap_eq, off_eq, sext_unsext13
        himm]

theorem mtopk (h : LaneHdr) (pair : Bool) (acc : Nat) (k : Nat) (tk : Option Nat) : Statement (.mtopk h pair acc k
    tk) := by
  intro hw
  have hw' : (h.ok && acc < 16 && 1 ≤ k && k ≤ 16 && tkOk tk) = true := hw
  simp only [Bool.and_eq_true] at hw'
  obtain ⟨⟨⟨⟨w0, w1⟩, w2⟩, w3⟩, w4⟩ := hw'
  simp only [decide_eq_true_eq] at w1
  simp only [decide_eq_true_eq] at w2
  simp only [decide_eq_true_eq] at w3
  have hg : h.gp < 64 := by simpa [LaneHdr.ok] using w0
  have := tkEnc_lt w4
  have := boolEnc_lt h.pr
  have := boolEnc_lt h.gn
  have := boolEnc_lt pair
  obtain ⟨m1, m2, m3, m4, m5, m6⟩ := modMat_ok (fmt := 0) (acc := acc) pair false false (by omega) (by omega)
  have key : ∀ r : RawLane, r.op = 0x72 → laneOf r = some (.mtopk (LaneHdr.ofRaw r) (boolOf (r.mod / 2 ^ 7 % 2))
      (r.mod / 2 % 16) r.x (tkOf r.tk)) := by
    intro r h1
    unfold laneOf
    rw [h1]
    rfl
  refine lane_word hw rfl ?_ ?_
  · simp only [RawFits, rawHdr]
    omega
  · rw [key _ rfl]
    simp only [rawHdr, hdr_raw, tkOf_tkEnc, m3, m6]

theorem mclr (h : LaneHdr) (pair : Bool) (acc : Nat) (tk : Option Nat) : Statement (.mclr h pair acc tk) := by
  intro hw
  have hw' : (h.ok && acc < 16 && tkOk tk) = true := hw
  simp only [Bool.and_eq_true] at hw'
  obtain ⟨⟨w0, w1⟩, w2⟩ := hw'
  simp only [decide_eq_true_eq] at w1
  have hg : h.gp < 64 := by simpa [LaneHdr.ok] using w0
  have := tkEnc_lt w2
  have := boolEnc_lt h.pr
  have := boolEnc_lt h.gn
  have := boolEnc_lt pair
  obtain ⟨m1, m2, m3, m4, m5, m6⟩ := modMat_ok (fmt := 0) (acc := acc) pair false false (by omega) (by omega)
  have key : ∀ r : RawLane, r.op = 0x73 → laneOf r = some (.mclr (LaneHdr.ofRaw r) (boolOf (r.mod / 2 ^ 7 % 2))
      (r.mod / 2 % 16) (tkOf r.tk)) := by
    intro r h1
    unfold laneOf
    rw [h1]
    rfl
  refine lane_word hw rfl ?_ ?_
  · simp only [RawFits, rawHdr]
    omega
  · rw [key _ rfl]
    simp only [rawHdr, hdr_raw, tkOf_tkEnc, m3, m6]

theorem mld (h : LaneHdr) (pair : Bool) (acc : Nat) (lw : Nat) (tk : Option Nat) : Statement (.mld h pair acc lw tk)
    := by
  intro hw
  have hw' : (h.ok && acc < 16 && lw ≤ 157 && tkOk tk) = true := hw
  simp only [Bool.and_eq_true] at hw'
  obtain ⟨⟨⟨w0, w1⟩, w2⟩, w3⟩ := hw'
  simp only [decide_eq_true_eq] at w1
  simp only [decide_eq_true_eq] at w2
  have hg : h.gp < 64 := by simpa [LaneHdr.ok] using w0
  have := tkEnc_lt w3
  have := boolEnc_lt h.pr
  have := boolEnc_lt h.gn
  have := boolEnc_lt pair
  obtain ⟨m1, m2, m3, m4, m5, m6⟩ := modMat_ok (fmt := 0) (acc := acc) pair false false (by omega) (by omega)
  have key : ∀ r : RawLane, r.op = 0x74 → laneOf r = some (.mld (LaneHdr.ofRaw r) (boolOf (r.mod / 2 ^ 7 % 2)) (r.mod
      / 2 % 16) (r.sb - 1024) (tkOf r.tk)) := by
    intro r h1
    unfold laneOf
    rw [h1]
    rfl
  refine lane_word hw rfl ?_ ?_
  · simp only [RawFits, rawHdr]
    omega
  · rw [key _ rfl]
    simp only [rawHdr, hdr_raw, tkOf_tkEnc, Nat.add_sub_cancel_left, m3, m6]

theorem mst (h : LaneHdr) (pair : Bool) (acc : Nat) (lw : Nat) (tk : Option Nat) : Statement (.mst h pair acc lw tk)
    := by
  intro hw
  have hw' : (h.ok && acc < 16 && lw ≤ 157 && tkOk tk) = true := hw
  simp only [Bool.and_eq_true] at hw'
  obtain ⟨⟨⟨w0, w1⟩, w2⟩, w3⟩ := hw'
  simp only [decide_eq_true_eq] at w1
  simp only [decide_eq_true_eq] at w2
  have hg : h.gp < 64 := by simpa [LaneHdr.ok] using w0
  have := tkEnc_lt w3
  have := boolEnc_lt h.pr
  have := boolEnc_lt h.gn
  have := boolEnc_lt pair
  obtain ⟨m1, m2, m3, m4, m5, m6⟩ := modMat_ok (fmt := 0) (acc := acc) pair false false (by omega) (by omega)
  have key : ∀ r : RawLane, r.op = 0x75 → laneOf r = some (.mst (LaneHdr.ofRaw r) (boolOf (r.mod / 2 ^ 7 % 2)) (r.mod
      / 2 % 16) (r.sb - 1024) (tkOf r.tk)) := by
    intro r h1
    unfold laneOf
    rw [h1]
    rfl
  refine lane_word hw rfl ?_ ?_
  · simp only [RawFits, rawHdr]
    omega
  · rw [key _ rfl]
    simp only [rawHdr, hdr_raw, tkOf_tkEnc, Nat.add_sub_cancel_left, m3, m6]

theorem mrd (h : LaneHdr) (d : Nat) (tk : Nat) : Statement (.mrd h d tk) := by
  intro hw
  have hw' : (h.ok && vregOk d && tk < 16) = true := hw
  simp only [Bool.and_eq_true] at hw'
  obtain ⟨⟨w0, w1⟩, w2⟩ := hw'
  simp only [vregOk, decide_eq_true_eq] at w1
  simp only [decide_eq_true_eq] at w2
  have hg : h.gp < 64 := by simpa [LaneHdr.ok] using w0
  have := boolEnc_lt h.pr
  have := boolEnc_lt h.gn
  have key : ∀ r : RawLane, r.op = 0x76 → laneOf r = some (.mrd (LaneHdr.ofRaw r) r.dreg (r.tk - 16)) := by
    intro r h1
    unfold laneOf
    rw [h1]
    rfl
  refine lane_word hw rfl ?_ ?_
  · simp only [RawFits, rawHdr]
    omega
  · rw [key _ rfl]
    simp only [rawHdr, hdr_raw, Nat.add_sub_cancel_left]

theorem tokc (h : LaneHdr) (d : Nat) (p : Nat) (c : Nat) (seq : Src) (tok : Src) (tk : Nat) : Statement (.tokc h d p
    c seq tok tk) := by
  intro hw
  have hw' : (h.ok && vopOk true d && predOk p && cregOk c && seq.okInt false && tok.okInt false && tk < 16) = true
      := hw
  simp only [Bool.and_eq_true] at hw'
  obtain ⟨⟨⟨⟨⟨⟨w0, w1⟩, w2⟩, w3⟩, w4⟩, w5⟩, w6⟩ := hw'
  simp only [vopOk, Bool.and_eq_true, decide_eq_true_eq] at w1
  simp only [predOk, decide_eq_true_eq] at w2
  simp only [cregOk, decide_eq_true_eq] at w3
  simp only [decide_eq_true_eq] at w6
  have hg : h.gp < 64 := by simpa [LaneHdr.ok] using w0
  obtain ⟨seq_lt, seq_eq⟩ := src_ofEnc (.inl w4)
  obtain ⟨tok_lt, tok_eq⟩ := src_ofEnc (.inl w5)
  have := boolEnc_lt h.pr
  have := boolEnc_lt h.gn
  have key : ∀ r : RawLane, r.op = 0x78 → laneOf r = (Src.ofEnc r.sb).bind fun seq => (Src.ofEnc r.sc).map fun tok =>
      if r.mod = 0 then .tokc (LaneHdr.ofRaw r) r.dreg r.x (r.sa - 1024) seq tok (r.tk - 16) else .tokcDraft
          (LaneHdr.ofRaw r) r.dreg r.x (r.sa - 1024) seq tok (r.tk - 16) := by
    intro r h1
    unfold laneOf
    rw [h1]
    rfl
  refine lane_word hw rfl ?_ ?_
  · simp only [RawFits, rawHdr]
    omega
  · rw [key _ rfl]
    simp only [rawHdr, hdr_raw, Option.bind_some, Option.map_some, Nat.add_sub_cancel_left, seq_eq, tok_eq, if_true]

theorem tokcDraft (h : LaneHdr) (d : Nat) (p : Nat) (c : Nat) (seq : Src) (tok : Src) (tk : Nat) : Statement
    (.tokcDraft h d p c seq tok tk) := by
  intro hw
  have hw' : (h.ok && vopOk true d && predOk p && cregOk c && seq.okInt false && tok.okInt false && tk < 16) = true
      := hw
  simp only [Bool.and_eq_true] at hw'
  obtain ⟨⟨⟨⟨⟨⟨w0, w1⟩, w2⟩, w3⟩, w4⟩, w5⟩, w6⟩ := hw'
  simp only [vopOk, Bool.and_eq_true, decide_eq_true_eq] at w1
  simp only [predOk, decide_eq_true_eq] at w2
  simp only [cregOk, decide_eq_true_eq] at w3
  simp only [decide_eq_true_eq] at w6
  have hg : h.gp < 64 := by simpa [LaneHdr.ok] using w0
  obtain ⟨seq_lt, seq_eq⟩ := src_ofEnc (.inl w4)
  obtain ⟨tok_lt, tok_eq⟩ := src_ofEnc (.inl w5)
  have := boolEnc_lt h.pr
  have := boolEnc_lt h.gn
  have x1 : ¬ (2 ^ 11 : Nat) = 0 := by decide
  have key : ∀ r : RawLane, r.op = 0x78 → laneOf r = (Src.ofEnc r.sb).bind fun seq => (Src.ofEnc r.sc).map fun tok =>
      if r.mod = 0 then .tokc (LaneHdr.ofRaw r) r.dreg r.x (r.sa - 1024) seq tok (r.tk - 16) else .tokcDraft
          (LaneHdr.ofRaw r) r.dreg r.x (r.sa - 1024) seq tok (r.tk - 16) := by
    intro r h1
    unfold laneOf
    rw [h1]
    rfl
  refine lane_word hw rfl ?_ ?_
  · simp only [RawFits, rawHdr]
    omega
  · rw [key _ rfl]
    simp only [rawHdr, hdr_raw, Option.bind_some, Option.map_some, Nat.add_sub_cancel_left, seq_eq, tok_eq, x1,
        if_false]

theorem tokcf (h : LaneHdr) (d : Nat) (p : Nat) (c : Nat) (seq : Src) (n : Nat) (tk : Nat) : Statement (.tokcf h d p
    c seq n tk) := by
  intro hw
  have hw' : (h.ok && vopOk true d && predOk p && cregOk c && seq.okInt false && 1 ≤ n && n ≤ 15 && tk < 16) = true
      := hw
  simp only [Bool.and_eq_true] at hw'
  obtain ⟨⟨⟨⟨⟨⟨⟨w0, w1⟩, w2⟩, w3⟩, w4⟩, w5⟩, w6⟩, w7⟩ := hw'
  simp only [vopOk, Bool.and_eq_true, decide_eq_true_eq] at w1
  simp only [predOk, decide_eq_true_eq] at w2
  simp only [cregOk, decide_eq_true_eq] at w3
  simp only [decide_eq_true_eq] at w5
  simp only [decide_eq_true_eq] at w6
  simp only [decide_eq_true_eq] at w7
  have hg : h.gp < 64 := by simpa [LaneHdr.ok] using w0
  obtain ⟨seq_lt, seq_eq⟩ := src_ofEnc (.inl w4)
  have := boolEnc_lt h.pr
  have := boolEnc_lt h.gn
  have x1 : (n * 2 ^ 6 + p) % 64 = p := by omega
  have x2 : (n * 2 ^ 6 + p) / 64 = n := by omega
  have key : ∀ r : RawLane, r.op = 0x79 → laneOf r = (Src.ofEnc r.sb).map fun seq => .tokcf (LaneHdr.ofRaw r) r.dreg
      (r.x % 64) (r.sa - 1024) seq (r.x / 64) (r.tk - 16) := by
    intro r h1
    unfold laneOf
    rw [h1]
    rfl
  refine lane_word hw rfl ?_ ?_
  · simp only [RawFits, rawHdr]
    omega
  · rw [key _ rfl]
    simp only [rawHdr, hdr_raw, Option.map_some, Nat.add_sub_cancel_left, seq_eq, x1, x2]

theorem tokrj (h : LaneHdr) (c : Nat) (seq : Src) (tk : Option Nat) : Statement (.tokrj h c seq tk) := by
  intro hw
  have hw' : (h.ok && cregOk c && seq.okInt false && tkOk tk) = true := hw
  simp only [Bool.and_eq_true] at hw'
  obtain ⟨⟨⟨w0, w1⟩, w2⟩, w3⟩ := hw'
  simp only [cregOk, decide_eq_true_eq] at w1
  have hg : h.gp < 64 := by simpa [LaneHdr.ok] using w0
  obtain ⟨seq_lt, seq_eq⟩ := src_ofEnc (.inl w2)
  have := tkEnc_lt w3
  have := boolEnc_lt h.pr
  have := boolEnc_lt h.gn
  have key : ∀ r : RawLane, r.op = 0x7A → laneOf r = (Src.ofEnc r.sb).map fun seq => .tokrj (LaneHdr.ofRaw r) (r.sa -
      1024) seq (tkOf r.tk) := by
    intro r h1
    unfold laneOf
    rw [h1]
    rfl
  refine lane_word hw rfl ?_ ?_
  · simp only [RawFits, rawHdr]
    omega
  · rw [key _ rfl]
    simp only [rawHdr, hdr_raw, tkOf_tkEnc, Option.map_some, Nat.add_sub_cancel_left, seq_eq]

theorem tokf (h : LaneHdr) (d : Nat) (c : Nat) (seq : Src) (tk : Nat) : Statement (.tokf h d c seq tk) := by
  intro hw
  have hw' : (h.ok && vregOk d && cregOk c && seq.okInt false && tk < 16) = true := hw
  simp only [Bool.and_eq_true] at hw'
  obtain ⟨⟨⟨⟨w0, w1⟩, w2⟩, w3⟩, w4⟩ := hw'
  simp only [vregOk, decide_eq_true_eq] at w1
  simp only [cregOk, decide_eq_true_eq] at w2
  simp only [decide_eq_true_eq] at w4
  have hg : h.gp < 64 := by simpa [LaneHdr.ok] using w0
  obtain ⟨seq_lt, seq_eq⟩ := src_ofEnc (.inl w3)
  have := boolEnc_lt h.pr
  have := boolEnc_lt h.gn
  have key : ∀ r : RawLane, r.op = 0x7B → laneOf r = (Src.ofEnc r.sb).map fun seq => .tokf (LaneHdr.ofRaw r) r.dreg
      (r.sa - 1024) seq (r.tk - 16) := by
    intro r h1
    unfold laneOf
    rw [h1]
    rfl
  refine lane_word hw rfl ?_ ?_
  · simp only [RawFits, rawHdr]
    omega
  · rw [key _ rfl]
    simp only [rawHdr, hdr_raw, Option.map_some, Nat.add_sub_cancel_left, seq_eq]

theorem rnd (h : LaneHdr) (d : Dst) (k : Nat) (c : Src) : Statement (.rnd h d k c) := by
  have e : (Instr.rnd h d k c).wf = (h.ok && d.ok false && spairOk k && match c with
      | .vreg n => vopOk true n
      | .latch n => decide (n < 4)
      | _ => false) := rfl
  intro hw
  have hw' := e.symm.trans hw
  simp only [Bool.and_eq_true, LaneHdr.ok, spairOk, decide_eq_true_eq] at hw'
  obtain ⟨⟨⟨w0, w1⟩, w2⟩, w3⟩ := hw'
  obtain ⟨d1, d2, -⟩ := dst_ok w1
  have hc : c.okInt true = true := by
    cases c <;> simp_all [Src.okInt, Src.kindOk]
  obtain ⟨c_lt, c_eq⟩ := src_ofEnc (.inl hc)
  have := boolEnc_lt h.pr
  have := boolEnc_lt h.gn
  have key : ∀ r : RawLane, r.op = 0x48 → laneOf r =
      (Src.ofEnc r.sb).map fun c => .rnd (LaneHdr.ofRaw r) (Dst.ofRaw r) (r.sa - 1024) c := by
    intro r h1
    unfold laneOf
    rw [h1]
    rfl
  refine lane_word hw rfl ?_ ?_
  · simp only [RawFits, rawAlu, rawHdr]
    omega
  · rw [key _ rfl]
    simp only [rawAlu, rawHdr, c_eq, Option.map_some, hdr_raw, dst_raw, Nat.add_sub_cancel_left]

theorem shfl (h : LaneHdr) (mode : ShflMode) (d : Dst) (a : Src) (b : Src) : Statement (.shfl h mode d a b) := by
  have e : (Instr.shfl h mode d a b).wf = (h.ok && d.ok false && b.okInt false && match a with
      | .vreg n => vregOk n
      | .latch n => decide (n < 4)
      | _ => false) := rfl
  intro hw
  have hw' := e.symm.trans hw
  simp only [Bool.and_eq_true, LaneHdr.ok, decide_eq_true_eq] at hw'
  obtain ⟨⟨⟨w0, w1⟩, w2⟩, w3⟩ := hw'
  obtain ⟨d1, d2, -⟩ := dst_ok w1
  have ha : a.okInt false = true := by
    cases a <;> simp_all [Src.okInt, Src.kindOk, vopOk, vregOk]
  obtain ⟨a_lt, a_eq⟩ := src_ofEnc (.inl ha)
  obtain ⟨b_lt, b_eq⟩ := src_ofEnc (.inl w2)
  have := boolEnc_lt h.pr
  have := boolEnc_lt h.gn
  have := shfl_lt mode
  have n0 : (mode.code * 2 ^ 4) / 2 ^ 4 = mode.code := by omega
  have key : ∀ r : RawLane, r.op = 0x4A → laneOf r =
      (ShflMode.ofCode (r.mod / 2 ^ 4)).bind fun m => src2 r (.shfl (LaneHdr.ofRaw r) m (Dst.ofRaw r)) := by
    intro r h1
    unfold laneOf
    rw [h1]
    rfl
  refine lane_word hw rfl ?_ ?_
  · simp only [RawFits, rawAlu, rawHdr]
    omega
  · rw [key _ rfl]
    simp only [rawAlu, rawHdr, n0, shfl_code, src2, a_eq, b_eq, Option.bind_some, Option.map_some, hdr_raw, dst_raw]

theorem lscan (h : LaneHdr) (op : RedOp) (ty : Ty) (incl : Bool) (d : Nat) (a : Src) (total : Option Nat) (tk : Nat) :
    Statement (.lscan h op ty incl d a total tk) := by
  have e : (Instr.lscan h op ty incl d a total tk).wf =
      (h.ok && redOk op ty && vopOk ty.isPair d && a.okTy ty && decide (tk < 16) && match total with
      | none => true
      | some n => decide (n < 160) && (!ty.isPair || n % 2 == 0)) := rfl
  intro hw
  have hw' := e.symm.trans hw
  simp only [Bool.and_eq_true, LaneHdr.ok, vopOk, decide_eq_true_eq] at hw'
  obtain ⟨⟨⟨⟨⟨w0, w1⟩, w2⟩, w3⟩, w4⟩, w5⟩ := hw'
  obtain ⟨a_lt, a_eq⟩ := src_ty w3
  have := boolEnc_lt h.pr
  have := boolEnc_lt h.gn
  have := boolEnc_lt incl
  have := ty_lt ty
  have := red_lt op
  have n0 : (ty.code * 2 ^ 8 + op.code * 2 ^ 4 + boolEnc incl * 2 ^ 3) / 2 ^ 8 = ty.code := by omega
  have n1 : (ty.code * 2 ^ 8 + op.code * 2 ^ 4 + boolEnc incl * 2 ^ 3) / 2 ^ 4 % 16 = op.code := by omega
  have n2 : (ty.code * 2 ^ 8 + op.code * 2 ^ 4 + boolEnc incl * 2 ^ 3) / 2 ^ 3 % 2 = boolEnc incl := by omega
  have key : ∀ r : RawLane, r.op = 0x4E → laneOf r =
      (Ty.ofCode (r.mod / 2 ^ 8)).bind fun ty => (RedOp.ofCode (r.mod / 2 ^ 4 % 16)).bind fun op =>
        src1 r fun a => .lscan (LaneHdr.ofRaw r) op ty (boolOf (r.mod / 2 ^ 3 % 2)) r.dreg a
          (if r.x < 2 ^ 8 then none else some (r.x - 2 ^ 8)) (r.tk - 16) := by
    intro r h1
    unfold laneOf
    rw [h1]
    rfl
  cases total with
  | none =>
    refine lane_word hw rfl ?_ ?_
    · simp only [RawFits, rawHdr]
      omega
    · rw [key _ rfl]
      simp only [rawHdr, n0, n1, n2, ty_code, red_code, src1, a_eq, Option.bind_some, Option.map_some, hdr_raw,
        boolOf_boolEnc, Nat.add_sub_cancel_left]
      rfl
  | some n =>
    simp only [Bool.and_eq_true, decide_eq_true_eq] at w5
    have n3 : ¬ 2 ^ 8 + n < 2 ^ 8 := by omega
    refine lane_word hw rfl ?_ ?_
    · simp only [RawFits, rawHdr]
      omega
    · rw [key _ rfl]
      simp only [rawHdr, n0, n1, n2, n3, ty_code, red_code, src1, a_eq, Option.bind_some, Option.map_some, hdr_raw,
        boolOf_boolEnc, Nat.add_sub_cancel_left, if_false]

theorem pmov (h : LaneHdr) (form : PmovForm) : Statement (.pmov h form) := by
  intro hw
  have := boolEnc_lt h.pr
  have := boolEnc_lt h.gn
  have key : ∀ r : RawLane, r.op = 0x45 → laneOf r =
      if r.mod = 0 then src1 r fun a => .pmov (LaneHdr.ofRaw r) (.toPred r.dreg a)
      else some (.pmov (LaneHdr.ofRaw r) (.toVec (Dst.ofRaw r) (r.sa - 3072))) := by
    intro r h1
    unfold laneOf
    rw [h1]
    rfl
  cases form with
  | toPred p a =>
    have hw' : (h.ok && predOk p && a.okInt false) = true := hw
    simp only [Bool.and_eq_true, LaneHdr.ok, predOk, decide_eq_true_eq] at hw'
    obtain ⟨a1, a2⟩ := src_ofEnc (.inl hw'.2)
    refine lane_word hw rfl ?_ ?_
    · simp only [RawFits, rawHdr]
      omega
    · rw [key _ rfl]
      simp only [src1, rawHdr, a2, if_true, Option.map_some, hdr_raw]
  | toVec d p =>
    have hw' : (h.ok && d.ok false && predOk p) = true := hw
    simp only [Bool.and_eq_true, LaneHdr.ok, predOk, decide_eq_true_eq] at hw'
    obtain ⟨d1, d2, -⟩ := dst_ok hw'.1.2
    refine lane_word hw rfl ?_ ?_
    · simp only [RawFits, rawAlu, rawHdr]
      omega
    · rw [key _ rfl]
      simp only [rawAlu, rawHdr, Nat.one_ne_zero, if_false, hdr_raw, dst_raw, Nat.add_sub_cancel_left]

/-- What `mmac` and `mdist` share. -/
theorem mac {f : MFmt → Bool → Bool → Nat → AOperand → Nat → Option Nat → Instr} {h : LaneHdr} {op : Nat} {fmt : MFmt}
    {pair reuse sx : Bool} {acc : Nat} {a : AOperand} {lw : Nat} {tk : Option Nat} (hg : h.gp < 64) (ho : op < 128)
    (hc : acc < 16) (ha : a.ok sx = true) (hl : lw ≤ 157) (ht : tkOk tk = true) :
    RawFits (rawMac h op fmt pair reuse acc a lw tk)
      ∧ macOf (rawMac h op fmt pair reuse acc a lw tk) f = some (f fmt pair reuse acc a lw tk)
      ∧ (rawMac h op fmt pair reuse acc a lw tk).op = op
      ∧ LaneHdr.ofRaw (rawMac h op fmt pair reuse acc a lw tk) = h := by
  have := boolEnc_lt h.pr
  have := boolEnc_lt h.gn
  have := tkEnc_lt ht
  cases a with
  | regs v sc bsel =>
    obtain ⟨m1, m2, m3, m4, m5, m6⟩ := modMat_ok pair reuse false (mfmt_lt fmt) hc
    have hb : v < 1024 ∧ sc < 1024 ∧ bsel < 4 := by
      cases sx <;> simp [AOperand.ok] at ha <;> omega
    refine ⟨?_, ?_, rfl, hdr_raw ..⟩
    · simp only [RawFits, rawMac, rawHdr]
      omega
    · simp only [macOf, rawMac, rawHdr, m2, m3, m4, m5, m6, mfmt_code, Option.map_some, tkOf_tkEnc,
        Nat.add_sub_cancel_left]
      rfl
  | alat =>
    obtain ⟨m1, m2, m3, m4, m5, m6⟩ := modMat_ok pair reuse true (mfmt_lt fmt) hc
    refine ⟨?_, ?_, rfl, hdr_raw ..⟩
    · simp only [RawFits, rawMac, rawHdr]
      omega
    · simp only [macOf, rawMac, rawHdr, m2, m3, m4, m5, m6, mfmt_code, Option.map_some, tkOf_tkEnc,
        Nat.add_sub_cancel_left]
      rfl

theorem mmac (h : LaneHdr) (fmt : MFmt) (pair reuse : Bool) (acc : Nat) (a : AOperand) (lw : Nat) (tk : Option Nat) :
    Statement (.mmac h fmt pair reuse acc a lw tk) := by
  intro hw
  have hw' : (h.ok && acc < 16 && a.ok fmt.isSx && lw ≤ 157 && tkOk tk) = true := hw
  simp only [Bool.and_eq_true, LaneHdr.ok, decide_eq_true_eq] at hw'
  obtain ⟨⟨⟨⟨w0, w1⟩, w2⟩, w3⟩, w4⟩ := hw'
  have key : ∀ r : RawLane, r.op = 0x70 → laneOf r = macOf r (.mmac (LaneHdr.ofRaw r)) := by
    intro r h1
    unfold laneOf
    rw [h1]
    rfl
  obtain ⟨h1, h2, h3, h4⟩ := mac (f := .mmac h) (op := 0x70) (pair := pair) (reuse := reuse) w0 (by decide) w1 w2 w3
      w4
  exact lane_word hw rfl h1 (by rw [key _ h3, h4, h2])

theorem mdist (h : LaneHdr) (fmt : MFmt) (pair reuse : Bool) (acc : Nat) (a : AOperand) (lw : Nat) (tk : Option Nat) :
    Statement (.mdist h fmt pair reuse acc a lw tk) := by
  intro hw
  have hw' : (h.ok && (fmt == .bf16 || fmt == .f16) && acc < 16 && a.ok false && lw ≤ 157 && tkOk tk) = true := hw
  simp only [Bool.and_eq_true, LaneHdr.ok, decide_eq_true_eq] at hw'
  obtain ⟨⟨⟨⟨⟨w0, -⟩, w1⟩, w2⟩, w3⟩, w4⟩ := hw'
  have key : ∀ r : RawLane, r.op = 0x71 → laneOf r = macOf r (.mdist (LaneHdr.ofRaw r)) := by
    intro r h1
    unfold laneOf
    rw [h1]
    rfl
  obtain ⟨h1, h2, h3, h4⟩ :=
    mac (f := .mdist h) (fmt := fmt) (op := 0x71) (pair := pair) (reuse := reuse) w0 (by decide) w1 w2 w3 w4
  exact lane_word hw rfl h1 (by rw [key _ h3, h4, h2])

/-! ### Steps of the device -/

theorem spawnedGroupStart (team : Nat) : Statement (.spawnedGroupStart team) := fun _ => rfl

theorem faultGroupStart (team : Nat) : Statement (.faultGroupStart team) := fun _ => rfl

theorem lbrxRedirect (agent : Nat) : Statement (.lbrxRedirect agent) := fun _ => rfl

theorem issueChoice (die : Nat) (core : Nat) (part : Nat) : Statement (.issueChoice die core part) := fun _ => rfl

theorem starvationPromotion (agent : Nat) (lane : Bool) : Statement (.starvationPromotion agent lane) := fun _ => rfl

theorem pauseEnd (agent : Nat) : Statement (.pauseEnd agent) := fun _ => rfl

theorem dlyExpiry (agent : Nat) (lane : Bool) : Statement (.dlyExpiry agent lane) := fun _ => rfl

theorem fixedLatencyWriteEffect (agent : Nat) : Statement (.fixedLatencyWriteEffect agent) := fun _ => rfl

theorem wtokComplete (agent : Nat) : Statement (.wtokComplete agent) := fun _ => rfl

theorem yieldReactivation (agent : Nat) : Statement (.yieldReactivation agent) := fun _ => rfl

theorem queueBlockEnd (agent : Nat) : Statement (.queueBlockEnd agent) := fun _ => rfl

theorem scalarMemoryCompletion (agent : Nat) (k : Nat) : Statement (.scalarMemoryCompletion agent k) := fun _ => rfl

theorem laneMemoryCompletion (agent : Nat) (k : Nat) : Statement (.laneMemoryCompletion agent k) := fun _ => rfl

theorem watchStepCompletion (agent : Nat) (k : Nat) : Statement (.watchStepCompletion agent k) := fun _ => rfl

theorem matrixStart (die : Nat) (core : Nat) : Statement (.matrixStart die core) := fun _ => rfl

theorem matrixCompletion (die : Nat) (core : Nat) : Statement (.matrixCompletion die core) := fun _ => rfl

theorem copyAccept (agent : Nat) : Statement (.copyAccept agent) := fun _ => rfl

theorem copyCompletion (k : Nat) : Statement (.copyCompletion k) := fun _ => rfl

theorem collectiveAccept (agent : Nat) : Statement (.collectiveAccept agent) := fun _ => rfl

theorem collectiveCompletion (k : Nat) : Statement (.collectiveCompletion k) := fun _ => rfl

theorem engineFaultDelivery (agent : Nat) : Statement (.engineFaultDelivery agent) := fun _ => rfl

theorem pageRequestPost (k : Nat) : Statement (.pageRequestPost k) := fun _ => rfl

theorem pageRequestRecheck (k : Nat) : Statement (.pageRequestRecheck k) := fun _ => rfl

theorem firstTouchPoolRetry (agent : Nat) : Statement (.firstTouchPoolRetry agent) := fun _ => rfl

theorem tcmpReached (core : Nat) : Statement (.tcmpReached core) := fun _ => rfl

theorem interruptTrap (core : Nat) : Statement (.interruptTrap core) := fun _ => rfl

theorem singleStepTrap (agent : Nat) : Statement (.singleStepTrap agent) := fun _ => rfl

theorem teamPlacement (launch : Nat) (die : Nat) (core : Nat) : Statement (.teamPlacement launch die core) := fun _
    => rfl

theorem teamReservation (launch : Nat) (die : Nat) (core : Nat) : Statement (.teamReservation launch die core) := fun
    _ => rfl

theorem preemption (team : Nat) : Statement (.preemption team) := fun _ => rfl

theorem teamRestore (team : Nat) (die : Nat) (core : Nat) : Statement (.teamRestore team die core) := fun _ => rfl

theorem regionSnapshot (agent : Nat) : Statement (.regionSnapshot agent) := fun _ => rfl

theorem teamExit (team : Nat) : Statement (.teamExit team) := fun _ => rfl

theorem teamKill (team : Nat) (cause : Nat) : Statement (.teamKill team cause) := fun _ => rfl

theorem killRequest (ctx : Nat) : Statement (.killRequest ctx) := fun _ => rfl

theorem budgetExhausted (ctx : Nat) : Statement (.budgetExhausted ctx) := fun _ => rfl

theorem periodStart (ctx : Nat) : Statement (.periodStart ctx) := fun _ => rfl

theorem usedUpdate (ctx : Nat) : Statement (.usedUpdate ctx) := fun _ => rfl

theorem watchdogExpiry (ctx : Nat) : Statement (.watchdogExpiry ctx) := fun _ => rfl

theorem launchCompletion (launch : Nat) : Statement (.launchCompletion launch) := fun _ => rfl

theorem launchRecordUpdate (launch : Nat) : Statement (.launchRecordUpdate launch) := fun _ => rfl

theorem endNode (walk : Nat) : Statement (.endNode walk) := fun _ => rfl

theorem launchNode (walk : Nat) : Statement (.launchNode walk) := fun _ => rfl

theorem copyNode (walk : Nat) : Statement (.copyNode walk) := fun _ => rfl

theorem loopNode (walk : Nat) : Statement (.loopNode walk) := fun _ => rfl

theorem conditionalNode (walk : Nat) : Statement (.conditionalNode walk) := fun _ => rfl

theorem waitNode (walk : Nat) : Statement (.waitNode walk) := fun _ => rfl

theorem waitNodeRetest (walk : Nat) : Statement (.waitNodeRetest walk) := fun _ => rfl

theorem signalNode (walk : Nat) : Statement (.signalNode walk) := fun _ => rfl

theorem deviceTimeTick : Statement (.deviceTimeTick) := fun _ => rfl

theorem timeCopyCheck (agent : Nat) : Statement (.timeCopyCheck agent) := fun _ => rfl

theorem leaseExpiry (die : Nat) (core : Nat) (line : Nat) : Statement (.leaseExpiry die core line) := fun _ => rfl

theorem dirtyWriteBack (die : Nat) (core : Nat) (line : Nat) : Statement (.dirtyWriteBack die core line) := fun _ =>
    rfl

theorem writePerform (agent : Nat) (k : Nat) : Statement (.writePerform agent k) := fun _ => rfl

theorem forcedPublish (die : Nat) (core : Nat) (line : Nat) : Statement (.forcedPublish die core line) := fun _ => rfl

theorem clockStop (die : Nat) (core : Nat) : Statement (.clockStop die core) := fun _ => rfl

theorem gets (k : Nat) : Statement (.gets k) := fun _ => rfl

theorem getsub (k : Nat) : Statement (.getsub k) := fun _ => rfl

theorem getx (k : Nat) : Statement (.getx k) := fun _ => rfl

theorem wrh (k : Nat) : Statement (.wrh k) := fun _ => rfl

theorem putx (k : Nat) : Statement (.putx k) := fun _ => rfl

theorem inv (k : Nat) : Statement (.inv k) := fun _ => rfl

theorem fwds (k : Nat) : Statement (.fwds k) := fun _ => rfl

theorem fwdx (k : Nat) : Statement (.fwdx k) := fun _ => rfl

theorem upd (k : Nat) : Statement (.upd k) := fun _ => rfl

theorem ack (k : Nat) : Statement (.ack k) := fun _ => rfl

theorem data (k : Nat) : Statement (.data k) := fun _ => rfl

theorem wback (k : Nat) : Statement (.wback k) := fun _ => rfl

theorem rdcEviction (die : Nat) (line : Nat) : Statement (.rdcEviction die line) := fun _ => rfl

theorem sweepPassBegin : Statement (.sweepPassBegin) := fun _ => rfl

theorem sweepPassComplete : Statement (.sweepPassComplete) := fun _ => rfl

theorem peerAccessRequest (req : PeerRequest) : Statement (.peerAccessRequest req) := fun _ => rfl

theorem exportReturn (agent : Nat) (k : Nat) : Statement (.exportReturn agent k) := fun _ => rfl

theorem linkTraining (n : Nat) (peer : Nat) : Statement (.linkTraining n peer) := fun _ => rfl

theorem flitReplay (n : Nat) : Statement (.flitReplay n) := fun _ => rfl

theorem linkSpareLane (n : Nat) : Statement (.linkSpareLane n) := fun _ => rfl

theorem linkFailure (n : Nat) : Statement (.linkFailure n) := fun _ => rfl

theorem msixWrite (port : Nat) (entry : Nat) : Statement (.msixWrite port entry) := fun _ => rfl

theorem portTransferComplete (port : Nat) : Statement (.portTransferComplete port) := fun _ => rfl

theorem packageReset : Statement (.packageReset) := fun _ => rfl

theorem partitionReset (p : Nat) : Statement (.partitionReset p) := fun _ => rfl

theorem powerManagerStep (watts : Nat) : Statement (.powerManagerStep watts) := fun _ => rfl

theorem leakageUpdate (die : Nat) (leak : Nat) : Statement (.leakageUpdate die leak) := fun _ => rfl

theorem powerAlertAssert : Statement (.powerAlertAssert) := fun _ => rfl

theorem powerAlertRelease : Statement (.powerAlertRelease) := fun _ => rfl

theorem spareExchange (die : Nat) (unit : Nat) : Statement (.spareExchange die unit) := fun _ => rfl

theorem bootok : Statement (.bootok) := fun _ => rfl

theorem stage : Statement (.stage) := fun _ => rfl

theorem logrd : Statement (.logrd) := fun _ => rfl

theorem fuse : Statement (.fuse) := fun _ => rfl

theorem mailboxCommandEnd : Statement (.mailboxCommandEnd) := fun _ => rfl

theorem getMeasurements (nonce : Nat) : Statement (.getMeasurements nonce) := fun _ => rfl

theorem keyLoad : Statement (.keyLoad) := fun _ => rfl

theorem stop (part : Nat) (pid : Nat) : Statement (.stop part pid) := fun _ => rfl

theorem traceSample (part : Nat) : Statement (.traceSample part) := fun _ => rfl

theorem laneFocus (agent : Nat) (v : Nat) : Statement (.laneFocus agent v) := fun _ => rfl

theorem laneFocusRelease (agent : Nat) (v : Nat) : Statement (.laneFocusRelease agent v) := fun _ => rfl

theorem crashDump (p : Nat) : Statement (.crashDump p) := fun _ => rfl

theorem acctArm (core : Nat) (v : Nat) : Statement (.acctArm core v) := fun _ => rfl

theorem partcfgWrite (v : Nat) : Statement (.partcfgWrite v) := fun _ => rfl

theorem linkpartWrite (v : Nat) : Statement (.linkpartWrite v) := fun _ => rfl

theorem coherenceControlWrite (die : Nat) (v : Nat) : Statement (.coherenceControlWrite die v) := fun _ => rfl

theorem exppaWrite (v : Nat) : Statement (.exppaWrite v) := fun _ => rfl

theorem revocationRegisterWrite (which : Nat) (v : Nat) : Statement (.revocationRegisterWrite which v) := fun _ => rfl

theorem registerWrite (off : Nat) (v : Nat) : Statement (.registerWrite off v) := fun _ => rfl

theorem portMemoryAccess (port : Nat) (va : Nat) (size : Nat) (data : Nat) (write : Bool) : Statement
    (.portMemoryAccess port va size data write) := fun _ => rfl

theorem powerLoss : Statement (.powerLoss) := fun _ => rfl

theorem linkPeerLoss (n : Nat) : Statement (.linkPeerLoss n) := fun _ => rfl

end Sys2Proof.Laws.Encoding
end

