-- ==== Sys2Proof/Certificates/Slice0/Obligations.lean ====
section
/-!
DEFINITION. The statements for the provers. Each docstring names the rules of the manual it speaks of, and the log
entries whose choices it rests on.
-/

open Sys2Proof Sys2Proof.Machine Sys2Proof.Claims

/-! ### Scalar arithmetic, capabilities, flow -/

/-- 08 R165 to R170, R174, 04 R91, 03 R65, R66: each integer instruction on registers, on pairs or with an immediate, and
each read, copy or comparison of capabilities, completes whenever it may issue, with the value the manual gives in its
destination at its latency; every other register, every flag, mask, special register and byte of memory is as a passing
clk leaves it. -/
def Obligations.ScalarResult : Prop :=
  ∀ (s : State) (i : Instr) (p : Plain), (Alu s i p ∨ AluImm s i p ∨ Alu64 s i p ∨ CapRead s i p) → i.wf = true →
    Ready s p.reads → ∃ t, exec i s = .next t ∧ Result s t p.lat p.writes

/-- 08 R174, 04 R85, R86, R91, R96, 19 R354: a derivation that succeeds writes its result, bits and tag, to its
destination and changes nothing else; one that fails takes the trap of its cause, with xaddr the cursor of its source and
KIND 7, and writes no register of the program. -/
def Obligations.CapDerivation : Prop :=
  ∀ (s : State) (i : Instr) (d : Derived), Derive s i d → i.wf = true → Ready s d.reads →
    (∀ c : Cap, d.out = .ok c → ∃ t, exec i s = .next t ∧ Retired s t (pccPlus s.ag 4) (capWrites d.dest c))
    ∧ ∀ cause : Nat, d.out = .error cause → exec i s = .next (s.trap ⟨cause, d.src.addr, 0, 7, false⟩)

/-- 08 R171 to R173, 04 R97: branches taken and not taken, jumps, capability jumps, links and landing markers; a taken
branch or a jump whose target lies outside pcc traps 0x0B with the target, a capability jump whose target fails a check
traps its cause with the target's cursor. -/
def Obligations.FlowOfControl : Prop :=
  (∀ (s : State) (i : Instr) (f : Flow), Transfers s i f → i.wf = true → Ready s f.reads →
    ∃ t, exec i s = .next t ∧ Retired s t f.pcc f.writes)
  ∧ ∀ (s : State),
    (∀ (c : Cond) (a : Nat) (off : Int), Ready s [.s a] → holds c (s.rs a).toInt →
      ¬ inPcc s.ag off → exec (.bcCond c a off) s = .next (s.trap ⟨0x0B, (target s.ag off % 2 ^ 64).toNat, 0, 3, false⟩))
    ∧ (∀ off : Int, ¬ inPcc s.ag off →
      exec (.jal off) s = .next (s.trap ⟨0x0B, (target s.ag off % 2 ^ 64).toNat, 0, 3, false⟩))
    ∧ (∀ (p cause : Nat), Ready s (capLocs p) → (s.rc p).checkJump = some cause →
      exec (.cj p) s = .next (s.trap ⟨cause, (s.rc p).addr, 0, 3, false⟩)
        ∧ exec (.cjal p) s = .next (s.trap ⟨cause, (s.rc p).addr, 0, 3, false⟩))

/-! ### Scalar memory, state, waits -/

/-- 08 R175, R177, 03 R75, 04 R93, R94: a scalar load, store or atomic whose checks pass issues with its operation under
way: the PC moves on, and until the operation completes every register, flag and special register, every token, every
other agent and every byte of memory is as the checks, the watches (26 R459) and the core's own copy of the line (23 R412)
leave them; the address is the one the manual computes, the data are those at issue. While 2,048 requests of the core are
outstanding it stalls (01 R18). One of which a check fails takes the trap of that check. -/
def Obligations.ScalarAccesses : Prop :=
  ∀ (s s' : State) (i : Instr) (x : Access), ScalarAccess s i x → i.wf = true → Ready s x.reads →
    (∀ accs : List Acc, s.checkAccess false x.kind x.size x.size x.write false [x.req] = .ok s' accs →
      (s'.roomFor (x.op accs) = true → let v := s'.issueMem false x.scope (x.op accs)
        ∃ t, exec i s = .next t ∧ Enters v t (x.entry v accs))
      ∧ (s'.roomFor (x.op accs) = false → exec i s = .next s'))
    ∧ ∀ u : Trap, s.checkAccess false x.kind x.size x.size x.write false [x.req] = .trap s' u →
      exec i s = .next (s'.trap u)

/-- 08 R180, R182, R188, R164, 19 R352, R362, R365: the instructions that read the agent's own state, and those that do
nothing where they stand, with their results there for the next instruction. -/
def Obligations.SimpleResult : Prop :=
  ∀ (s : State) (i : Instr) (p : Plain), Simple s i p → i.wf = true → Ready s p.reads →
    ∃ t, exec i s = .next t ∧ Retired s t (pccPlus s.ag 4) p.writes

/-- 08 R179, R182, R188, R189, 03 R74, R75, 19 R352, R353, R357, R362, R366: the instructions that write the agent's
own state complete with exactly that change. 08 R180, 02 R44: `emw` sets em to the operand AND lm, and changes nothing
else. -/
def Obligations.StateChange : Prop :=
  (∀ (s : State) (i : Instr) (c : Change), Changes s i c → i.wf = true → Ready s c.reads →
    exec i s = .next (after s c.ag))
  ∧ ∀ (s : State) (a : Nat), s.ag.isSys = false → Ready s [.s a] →
    ∃ t, exec (.emw a) s = .next t ∧ OnlyFocus s t ∧ t.issues = s.issues + 1 ∧ SameBut s.tick.ag t.ag
      ∧ t.ag.pcc = pccPlus s.ag 4 ∧ t.ag.em = s.rs a &&& s.tick.ag.lm
      ∧ ∀ l, l ≠ .em → t.ag.raw l = s.tick.ag.raw l

/-- 02 R41, R42, 08 R182, R183, R184, R164, 19 R366: a wait whose condition does not hold yet begins, and the PC stays; a
yield whose token already meets its threshold goes on at its target without leaving issue. -/
def Obligations.Waiting : Prop :=
  (∀ (s : State) (i : Instr) (c : Change), Waits s i c → i.wf = true → Ready s c.reads →
    exec i s = .next { s with ag := c.ag })
  ∧ ∀ (s : State) (tk r : Nat) (off : Int), Ready s [.s r] → (s.ag.blocks = [] ∨ s.ag.hnd = true) →
    inPcc s.ag off → (s.ag.tok (tokenOf s.ag tk) - (s.rs r).setWidth 16).toInt ≥ 0 →
    exec (.yld tk r off) s = .next (afterAt s (s.ag.pcc.withAddr (target s.ag off).toNat) (tokenSeen s.ag (tokenOf s.ag tk)))

/-! ### Scalar instructions that reach beyond the agent -/

/-- 04 R100 to R104, 08 R185, R186, 21 R389, R401, 03 R75: a send, a reply, a launch, a graph submission issues with its
own effect done, its status known, and the registers that take it written when the token posts. -/
def Obligations.PostingEnters : Prop :=
  ∀ (s : State) (i : Instr) (p : Posting), PostsResult s i p → i.wf = true → Ready s p.reads →
    ∃ t, exec i s = .next t ∧ Enters p.v t p.op

/-- 08 R181, R184, 11 R265, R275, 19 R363, 20 R382: arrivals, pushed engine commands and translation invalidations. -/
def Obligations.MoveResult : Prop :=
  ∀ (s : State) (i : Instr) (m : Move), Moves s i m → i.wf = true → Ready s m.reads →
    exec i s = .next (after m.v m.ag)

/-- 02 R25, 08 R184, R188, 24 R427, R439: `rdtime`, `swp`, `keyk`, `qpop`. -/
def Obligations.OuterResult : Prop :=
  ∀ (s : State) (i : Instr) (p : PlainAt), ResultAt s i p → i.wf = true → Ready s p.reads →
    ∃ t, exec i s = .next t ∧ Retired p.v t (pccPlus p.v.ag 4) p.writes

/-- 08 R178, 13 R297: a fence with release issues once every earlier scalar load has written its destination, and stays
under way until every earlier access is performed; with acquire the releases that other agents have made must be performed
as far as this one goes (13 R298). While it may not issue it changes nothing. -/
def Obligations.FenceRelease : Prop :=
  ∀ (s : State) (o : Ord) (c : Scope), o ≠ .acq →
    (s.ag.loading [.scalar] s.ag.nextOp = false → (o ≠ .rel → s.notesClear s.ag = true) →
      ∃ t, exec (.fence o c) s = .next t
        ∧ Enters { s with ag := { s.ag with gov := dropSeen (fun g => g.tk == none && g.lane == false) s.ag.gov } } t
          ⟨s.ag.nextOp, false, .scalar, o, c, none, .fence, [], [], false, false⟩)
    ∧ (s.ag.loading [.scalar] s.ag.nextOp = true → exec (.fence o c) s = .next s)
    ∧ (o = .ar → s.notesClear s.ag = false → exec (.fence o c) s = .next s)

/-- 04 R102, R104, 08 R185: what a deposit does: a destroyed endpoint answers 4; the receiver that has waited longest
takes the message, status 0; else the buffer does, status 1; a full buffer leaves everything as it is, status 2. -/
def Obligations.DepositStatus : Prop :=
  ∀ (s : State) (pa : Nat) (m : Message),
    (s.epDead pa = true → s.deposit pa m = (s, 4))
    ∧ (s.epDead pa = false → ∀ id, s.waitingReceiver (s.ep pa).receivers = some id →
      (s.deposit pa m).2 = 0
        ∧ (s.deposit pa m).1.ep pa = { s.ep pa with receivers := (s.ep pa).receivers.filter fun r => r ≠ id }
        ∧ (∀ b, s.agent? id = some b → b.id ≠ s.ag.id →
          (s.deposit pa m).1.agent? id = some (b.resumeRecv (m.writes b.domain) m.caller)))
    ∧ (s.epDead pa = false → s.waitingReceiver (s.ep pa).receivers = none →
      (s.ep pa).buffer.length < s.epCapacity pa →
      (s.deposit pa m).2 = 1 ∧ (s.deposit pa m).1.ep pa = { s.ep pa with buffer := (s.ep pa).buffer ++ [m] })
    ∧ (s.epDead pa = false → s.waitingReceiver (s.ep pa).receivers = none →
      s.epCapacity pa ≤ (s.ep pa).buffer.length → s.deposit pa m = (s, 2))

/-- 04 R103, R104, 08 R185: a call whose message is taken, by a receiver or by the buffer, has s12 as the status and waits out
of issue for its reply; the reply writes its registers and sends it on: the token posts, the PC moves on. A call that is
refused goes on, with the status on the way to s12. -/
def Obligations.CallWaits : Prop :=
  (∀ (s s1 : State) (a pa : Nat) (tk : Option Nat), Ready s (capLocs a ++ messageLocs) →
    s.checkEp (s.rc a) permST = .ok s1 pa → (s1.ag.blocks = [] ∨ s1.ag.hnd = true) → ReleasedDev s1 →
    let r := s1.publishMine.deposit pa (messageOf s1 (s.rc a) true)
    let v : State := { r.1 with ag := { r.1.ag with nextOp := s1.ag.nextOp + 1 } }
    let b := (v.ag.writes [(.s 12, r.2)]).settle
    (r.2 = 0 ∨ r.2 = 1 → exec (.mcall a tk) s = .next { v with ag := { b with
      latches := [none, none, none, none]
      alatch := b.alatch.map fun x => { x with coll := none }
      wait := .call pa s1.ag.nextOp (r.1.ag.tokenOpt tk) } })
    ∧ (r.2 ≠ 0 → r.2 ≠ 1 → ∃ t, exec (.mcall a tk) s = .next t
      ∧ Enters v t ⟨s1.ag.nextOp + 1, false, .scalar, .rlx, .grp, v.ag.tokenOpt tk, .regs [(.s 12, r.2)],
        [.s 12, .ct 3], [], false, false⟩))
  ∧ ∀ (x : Agent) (pa call : Nat) (tk : Option Nat) (ws : List (Loc × Word)), x.wait = .call pa call tk →
    x.answer call ws = { ((waitEnded x).writes ws).post tk with pcc := pccPlus x 4 }

/-- 04 R100, R103, R104, 03 R75, 08 R185: a receive at a destroyed endpoint completes with 4 in s12; it completes with the
oldest buffered message in its registers, governed by its token; with no message it waits. First the caller in a full reply
slot resumes with 3. -/
def Obligations.ReceiveBegins : Prop :=
  (∀ (s s1 : State) (a pa : Nat) (tk : Option Nat), Ready s (capLocs a) →
    s.checkEp (s.rc a) permLD = .ok s1 pa → (s1.ag.blocks = [] ∨ s1.ag.hnd = true) → s1.ag.readHeld pa = false →
    let s2 := s1.dropReply s1.ag
    let v : State := { s2 with ag := { s2.ag.leaveIssue with reply := none } }
    let e := v.ep pa
    let others := e.receivers.filter fun r => r != v.ag.id
    (v.epDead pa = true →
      exec (.mrecv a tk) s = .next (after v (brought v.ag (s2.ag.tokenOpt tk) [(.s 12, 4)] none)))
    ∧ (v.epDead pa = false → ∀ m rest, e.buffer = m :: rest →
      let u := v.setEp { e with
        buffer := rest
        receivers := others }
      exec (.mrecv a tk) s = .next (after u (brought u.ag (s2.ag.tokenOpt tk) (m.writes v.ag.domain) m.caller)))
    ∧ (v.epDead pa = false → e.buffer = [] →
      exec (.mrecv a tk) s = .next (({ v with ag := { v.ag with wait := .recv pa (s2.ag.tokenOpt tk) } } : State).setEp
        { e with receivers := if v.ag.id ∈ e.receivers then e.receivers else e.receivers ++ [v.ag.id] })))
  ∧ ∀ (x : Agent) (tk : Option Nat) (m : Message) (d : Nat),
    ∀ w ∈ m.writes d, (brought x tk (m.writes d) m.caller).raw w.1 = w.2

/-- 19 R361, R366, R368, R478, R479, 26 R465: `eret` in a handler whose xpc passes the checks of a jump goes on at xpc
unsealed, in mode PMODE, with HND clear, c39 and kscr changed places, the tokens of failed engine commands posted; a wait
that was suspended goes on when the stream is back at it. Outside a handler it traps 0x01; where xpc fails a check it
kills the team, or restarts the core, with that cause. It reads c39, for which a system core waits (01 R22). -/
def Obligations.ExceptionReturn : Prop :=
  (∀ s : State, MayKernel s → s.ag.hnd = true → (s.ag.isSys = true → ∀ l ∈ capLocs 39, s.ag.awaited l = false) →
    s.ag.xpc.checkJump = none →
    let a := s.ag.returned
    let v := afterAt s (s.ag.xpc.withSeal 0) a
    exec .eret s = .next (v.resumeWait s.ag.xpc)
      ∧ (s.ag.suspended = none → exec .eret s = .next v)
      ∧ a.pcc = s.ag.xpc.withSeal 0 ∧ a.xstat = xstatField (xstatField s.ag.xstat 2 2 s.ag.pmode) 7 1 0
      ∧ a.kscr = s.ag.capNow 39 ∧ quadOf a 39 = s.ag.kscr ∧ a.postAtEret = []
      ∧ (∀ n, a.tok n = s.ag.tok n + BitVec.ofNat 16 (s.ag.postAtEret.countP fun k => k = n))
      ∧ (s.ag.stepBit = false → a.stepping = .off ∧ a.focusStack = [])
      ∧ (s.ag.stepBit = true → a.stepping = if s.ag.laneTrap = true ∧ s.ag.xlpc ≠ 0 then .lane else .scalar)
      ∧ (∀ l, l ∉ (capLocs 39) → a.raw l = s.ag.raw l))
  ∧ ∀ s : State, MayKernel s →
    (s.ag.hnd = false → exec .eret s = .next (s.trap ⟨0x01, 0, 0, 0, false⟩))
    ∧ (s.ag.hnd = true → (s.ag.isSys = true → ∀ l ∈ capLocs 39, s.ag.awaited l = false) →
      ∀ cause, s.ag.xpc.checkJump = some cause → exec .eret s = .next (s.bump.killFocus cause 4 0 0))
    ∧ (s.ag.hnd = true → s.ag.isSys = true → (∃ l ∈ capLocs 39, s.ag.awaited l = true) → exec .eret s = .next s)

/-- 02 R52, 04 R103, 08 R181: `gend` ends the group once its queue has drained and its token-posting operations are
complete: its registers' pending results are in, it issues no more, its reply caller resumes with 3, its team's barriers
go on without it, and a fault group that waits for a slot takes the one it frees (02 R51). Until then nothing changes. -/
def Obligations.GroupEnds : Prop :=
  (∀ s : State, s.ag.isSys = false → (s.ag.blocks = [] ∨ s.ag.hnd = true) → s.unfinished s.ag = false →
    ∃ t, exec .gend s = .next t
      ∧ t = (({ s.dropReply s.ag with ag := { (s.dropReply s.ag).ag.settle.stopped with
          outst := (s.dropReply s.ag).ag.outst
          qcopy := (s.dropReply s.ag).ag.qcopy
          qcoll := (s.dropReply s.ag).ag.qcoll
          snapshot := (s.dropReply s.ag).ag.snapshot } }).bump.keepSlot s.ag).settleBarriers s.ag.team
      ∧ t.ag.alive = false ∧ t.ag.wait = .none ∧ t.ag.blocks = [])
  ∧ (∀ s : State, s.ag.isSys = false → (s.ag.blocks ≠ [] ∧ s.ag.hnd = false) ∨ s.unfinished s.ag = true →
    exec .gend s = .next s)

/-- 08 R188, 19 R354, R362, R368: `brk` takes trap 0x30 with its code; a write of kill in a handler ends the team with the
value written as reason, or restarts the core. -/
def Obligations.BreakAndKill : Prop :=
  (∀ (s : State) (code : Nat), exec (.brk code) s = .next (s.trap ⟨0x30, 0, 0, code, false⟩))
  ∧ ∀ (s : State) (d : Nat), MayKernel s → Ready s [.s d] →
    exec (.ctlw d 0x019) s = .next (s.bump.killFocus 0 8 (s.rs d).toNat 0)

/-- 19 R350, 04 R95: outside kernel and monitor mode, or without SYS in pcc, every instruction of the kernel class traps
0x03, and those of the monitor class do so outside monitor mode. -/
def Obligations.PrivilegeTraps : Prop :=
  ∀ (s : State),
    (¬ MayKernel s → ∀ i : Instr,
      (i = .eret ∨ (∃ d n, i = .ctlr d n) ∨ (∃ d n, i = .ctlw d n) ∨ (∃ a b k, i = .tlbi a b k) ∨ (∃ d, i = .swp d)
        ∨ (∃ d, i = .keyk d) ∨ (∃ d a b, i = .sealctx d a b) ∨ i = .wfi ∨ i = .xstep) →
      exec i s = .next (s.trap ⟨0x03, 0, 0, 0, false⟩))
    ∧ (s.ag.mode ≠ 2 → ∀ i : Instr,
      ((∃ a b, i = .tlbi a b .all) ∨ (∃ d, i = .keyk d) ∨ (∃ d a b, i = .sealctx d a b)) →
      exec i s = .next (s.trap ⟨0x03, 0, 0, 0, false⟩))

/-! ### Lane computation -/

/-- 09 R196 to R203, R206 to R215, R218, R223, 03 R66, R73, 05 R107: each integer and floating-point instruction of the lane
stream, each conversion, predicate, shuffle, ballot and match, and each vector form that reads, copies or compares
capabilities, completes whenever it may issue, with every active lane's value and flags in flight at its latency; an
inactive lane, every other register, every other agent and every byte of memory is as a passing clk leaves it. -/
def Obligations.LaneResult : Prop :=
  ∀ (s : State) (i : Instr) (f : LaneForm),
    (LaneInteger s i f ∨ LaneFloat s i f ∨ LaneTest s i f ∨ LaneCap s i f) → i.wf = true →
    LaneReady s f.hdr f.names f.reads → ∃ t, exec i s = .next t ∧ LaneEnds s t f.lat (f.all s) f.latch

/-- 09 R223, 04 R94: a vector derivation that succeeds in every active lane writes each lane's result, bits and tag;
with a failure in one lane no lane has a result, and the instruction traps with the cause of the earliest failing check,
the lanes at which it fails and the lowest of them's source cursor. -/
def Obligations.LaneDeriveResult : Prop :=
  ∀ (s : State) (i : Instr) (d : LaneDerived), LaneDerive s i d → i.wf = true → LaneReady s d.hdr d.names d.reads →
    (∀ g : Nat → Cap, (∀ l ∈ active s d.hdr, d.out l = .ok (g l)) →
      ∃ t, exec i s = .next t ∧ LaneEnds s t 2
        (let fl := lostFlag s d.hdr d.reads
        let ws := (active s d.hdr).flatMap fun l => vcapWrites d.dest l (g l)
        if fl = 0 then ws else ws ++ [(.fsr, fl)]) none)
    ∧ (∀ l ∈ active s d.hdr, ∀ c, d.out l = .error c →
      (∀ j ∈ active s d.hdr, ∀ e, d.out j = .error e → d.rank l c ≤ d.rank j e ∧ (d.rank j e = d.rank l c → l ≤ j)) →
      exec i s = s.laneTrap c (d.src l).addr
        (lanesWhere (s.laneActive d.hdr) fun j => match d.out j with
          | .ok _ => false
          | .error e => d.rank j e = d.rank l c) 7)

/-- 09 R204, R205: as `LaneResult`, for the conversions to and from sx blocks; every register lies below 1,024. -/
def Obligations.LaneBlockResult : Prop :=
  ∀ (s : State) (i : Instr) (f : LaneForm), LaneSx s i f → i.wf = true → (∀ n ∈ f.names, n < 1024) →
    LaneReady s f.hdr f.names f.reads → ∃ t, exec i s = .next t ∧ LaneEnds s t f.lat (f.all s) f.latch

/-- 03 R60, 19 R354: a lane instruction that names a vector register at or above the group's budget traps 0x02 with the
first such register as xinfo and the active lanes, and has no effect. -/
def Obligations.BudgetTraps : Prop :=
  ∀ (s : State) (i : Instr) (f : LaneForm),
    (LaneInteger s i f ∨ LaneFloat s i f ∨ LaneTest s i f ∨ LaneCap s i f) → i.wf = true →
    ∀ n : Nat, f.names.find? (fun k => s.ag.budget ≤ k) = some n →
      exec i s = s.laneTrap 0x02 0 (s.laneActive f.hdr) n

/-- 09 R211: a delay holds the lane stream until n clk after its issue; the latches do not move, and nothing else of the agent
changes but where its lane stream stands. -/
def Obligations.LaneDelay : Prop :=
  ∀ (s : State) (n : Nat),
    exec (.laneDly n) s = .next { s with
      issues := s.issues + 1
      ag := { s.ag.nextLane with dlyLane := s.clk + n } }
    ∧ s.ag.nextLane.latches = s.ag.latches ∧ s.ag.nextLane.pcc = s.ag.pcc ∧ (∀ l, s.ag.nextLane.raw l = s.ag.raw l)
    ∧ ∀ b r, s.ag.replays = [] → s.ag.focusStack = [] → s.ag.blocks = b :: r → b.idx + 1 < b.count →
      s.ag.nextLane = { s.ag with blocks := { b with idx := b.idx + 1 } :: r }

/-! ### Lane memory, exchange, divergence, matrix, watchpoints -/

/-- 10 R224 to R246, 03 R75, 04 R94, 10 R228: a lane load, store, atomic or capability access of which every active lane's
checks pass issues with its operation under way; until it completes every register, flag but LL, every other agent and
every byte of memory is as the checks, the watches (26 R459), the core's own copies of the lines (23 R412) and the passing
clk leave them. While the core has no room for its requests it stalls (01 R18). A check that fails in one lane traps, and no
lane has an access. -/
def Obligations.LaneAccesses : Prop :=
  ∀ (s s' : State) (i : Instr) (x : LaneAccess), LaneMem s i x → i.wf = true → LaneReady s x.hdr x.names x.reads →
    (∀ accs : List Acc, s.checkAccess true x.kind x.size x.size x.write x.tolerant x.reqs = .ok s' accs →
      (s'.roomFor (x.op accs) = true → let v := s'.issueMem true x.scope (x.op accs)
        ∃ t, exec i s = .next t ∧ LaneEnters v t (laneOp v .lane x.ord x.scope (s.laneTk x.tk) (x.op accs) x.dests)
          (lostFlag s x.hdr x.reads))
      ∧ (s'.roomFor (x.op accs) = false → exec i s = .next s'))
    ∧ ∀ u : Trap, s.checkAccess true x.kind x.size x.size x.write x.tolerant x.reqs = .trap s' u →
      exec i s = .next (({ s' with ag := { s'.ag with
        pairing := .single
        firstLatch := none } }).trapBeside u)

/-- 10 R242, R243: a team-memory access whose every active lane's team address lies in the footprint and in range and is
aligned issues with its operation under way; while the core has no room for its requests it stalls (01 R18). -/
def Obligations.TeamAccessEnters : Prop :=
  ∀ (s : State) (i : Instr) (x : TeamAccess), TeamMem s i x → i.wf = true → LaneReady s x.hdr x.names x.reads →
    (∀ l ∈ active s x.hdr, TeamOk s x.size (x.at_ l)) →
    (s.roomFor (x.op (x.accs s)) = true → let v := s.issueMem true x.scope (x.op (x.accs s))
      ∃ t, exec i s = .next t
        ∧ LaneEnters v t (laneOp v .lane x.ord x.scope (s.laneTk x.tk) (x.op (x.accs s)) x.dests)
          (lostFlag s x.hdr x.reads))
    ∧ (s.roomFor (x.op (x.accs s)) = false → exec i s = .next s)

/-- 09 R214 to R217, R219, 10 R240, 03 R75: votes, reductions, prefixes, subscriptions and `lend` issue with their effect
known, and it comes when the operation completes. -/
def Obligations.ToldEnters : Prop :=
  ∀ (s : State) (i : Instr) (x : LaneTold), Told s i x → i.wf = true → LaneReady s x.hdr x.names x.reads →
    ∃ t, exec i s = .next t ∧ LaneEnters s t (laneOp s x.path .rlx .grp (s.laneTk x.tk) x.kind x.dests) 0

/-- 10 R246: a prefetch changes no register and no byte of memory, and traps on no check: the lines that it asks for, those of
the active lanes that pass their checks on a present page, are under way with its token; without lines and without a token
nothing is. -/
def Obligations.PrefetchResult : Prop :=
  ∀ (s : State) (h : LaneHdr) (cap : CapSrc) (off : Src) (imm : Int) (tk : Option Nat),
    LaneReady s h (capNames cap ++ srcNames false off) (capReads cap ++ srcReads false off) →
    let lines := (active s h).filterMap fun l => s.prefetchLine (s.srcCap l cap) (ea s l cap off imm)
    let ll := lostFlag s h (capReads cap ++ srcReads false off)
    (tk = none → lines = [] → ∃ t, exec (.pf h cap off imm tk) s = .next t
      ∧ LaneGoes s t { s.ag with fsr := s.ag.fsr ||| ll })
    ∧ (tk ≠ none ∨ lines ≠ [] → ∃ t, exec (.pf h cap off imm tk) s = .next t
      ∧ LaneEnters s t (laneOp s .lane .rlx .grp (s.laneTk tk) (.prefetch lines) []) ll)

/-- 10 R247, R248, 13 R297, 23 R414, R421: a fence of the lane stream completes once every earlier lane load has written its
destination and, with release, every earlier lane access is performed at its scope; `fencex` once the prior accesses of its
FROM path are. What the group has seen of others is performed at that scope, with acquire what other agents have released.
Then the core's narrow stores are published, at .sys the peer lines of the die, loads without a token are governed no more,
the token posts, and with release of a short scope later writes of the path are releases. Until then it changes nothing
and issues again. -/
def Obligations.LaneFenceResult : Prop :=
  ∀ (s : State) (h : LaneHdr) (o : Ord) (c : Scope) (tk : Option Nat), LaneReady s h [] [] →
    (s.ag.loading [.lane] s.ag.nextOp = false → (o ≠ .acq → s.busy s.ag [.lane] s.ag.nextOp c = false) →
      s.fenceReady o c = true →
      let v := s.fenced s.ag c
      exec (.laneFence h o c tk) s = .next (laneGone v
        (((lanesSeen v.ag).afterRelease .lane o c).post (v.ag.tokenOpt (s.laneTk tk)))))
    ∧ (s.ag.loading [.lane] s.ag.nextOp = true ∨ (o ≠ .acq ∧ s.busy s.ag [.lane] s.ag.nextOp c = true)
      ∨ s.fenceReady o c = false → exec (.laneFence h o c tk) s = .next s)
    ∧ ∀ p q : Path, let d := if q = .matrix ∨ q = .copy ∨ q = .coll then Scope.dev else c
      (s.fromBusy p (if q = .matrix ∨ q = .copy ∨ q = .coll then .dev else if o = .acq then .grp else c) = false →
        s.fenceReady o d = true →
        let v := (s.publishFor s.ag d).peerFence s.ag c
        let a := if p = .lane then lanesSeen v.ag else v.ag
        exec (.fencex h p q o c tk) s = .next (laneGone v
          ((if c = .dev ∨ c = .sys then a else a.afterRelease q o c).post (v.ag.tokenOpt (s.laneTk tk)))))
      ∧ (s.fromBusy p (if q = .matrix ∨ q = .copy ∨ q = .coll then .dev else if o = .acq then .grp else c) = true
        ∨ s.fenceReady o d = false → exec (.fencex h p q o c tk) s = .next s)

/-- 11 R249, R250, R256 to R260, R264: a matrix instruction of the array's owner whose checks pass enters the order of
its array, of both arrays with `.pair`, with the A rows as read now; it computes when it completes. It traps 0x03 where
the array is not its team's, 0x01 with `.pair` where no follower lies in the footprint, and stalls, changing nothing,
while four wait in the order. -/
def Obligations.MatrixInstructions : Prop :=
  ∀ (s : State) (i : Instr) (f : MatrixForm), MatrixIssue s i f → i.wf = true → LaneReady s f.hdr f.names f.reads →
    (MayMatrix s f.pair →
      let v := entered s (if f.pair then [s.ag.core, s.ag.core + 1] else [s.ag.core]) (f.entry s)
      ∃ t, exec i s = .next t
        ∧ LaneGoes v t { f.change (withOp v.ag (laneOp v .matrix .rlx .grp (s.laneTk f.tk) (.matrix s.ag.nextOp) []) [])
          with fsr := s.ag.fsr ||| lostFlag s f.hdr f.reads })
    ∧ (s.ownsArray = false → exec i s = s.laneTrap 0x03 0 (s.laneActive f.hdr) 0)
    ∧ (s.ownsArray = true → f.pair = true → s.pairPlaced = false →
      exec i s = s.laneTrap 0x01 0 (s.laneActive f.hdr) 0)
    ∧ (s.ownsArray = true → (f.pair = true → s.pairPlaced = true) → s.arrayFull f.pair = true → exec i s = .next s)

/-- 11 R262: `mrd` pops the head of qmat; its rows reach the registers when the entry is filled. -/
def Obligations.MrdPops : Prop :=
  ∀ (s : State) (h : LaneHdr) (d tk : Nat) (e : QmatEntry) (rest : List QmatEntry), s.ag.qmat = e :: rest →
    let names := (List.range (2 * e.k)).map fun m => d + m
    (∀ n ∈ names, n < 1024) → LaneReady s h names [] → s.ownsArray = true →
    ∃ t, exec (.mrd h d tk) s = .next t
      ∧ LaneGoes s t { withOp s.ag (laneOp s .matrix .rlx .grp (s.laneTk (some tk))
          (match e.data with
          | some rows => .regs (mrdWrites d e.k (s.laneActive h) rows)
          | none => .mrd e.num d e.k (s.laneActive h))
          (mrdLocs d e.k (s.laneActive h))) [] with qmat := rest }

/-- 14 R315, R329, 04 R98: a watch instruction of the lane stream on a table it may use issues with one step for each
active lane under way, the accesses of its entries translated; a table capability that fails a check traps its cause with
its cursor. -/
def Obligations.WatchInstructions : Prop :=
  ∀ (s : State) (i : Instr) (f : WatchForm), Watches s i f → i.wf = true → (∀ n ∈ f.names, n < 1024) →
    LaneReady s f.hdr (f.names ++ srcNames false f.seq ++ srcNames false f.tok)
      ([.c f.table] ++ srcReads false f.seq ++ srcReads false f.tok) →
    (∀ (s' : State) (accs : List Acc), tableCheck (s.rc f.table) f.need = none →
      s.checkXlated true 6 false (s.watchXlate (f.need == permST) (watchAccesses s f)) = .ok s' accs →
      let v := watchMet s s' f
      ∃ t, exec i s = .next t
        ∧ LaneEnters v t (laneOp v .lane .rlx .dev (s.laneTk f.tk)
          (.watch f.op (s.rc f.table) f.d f.p (watchSteps (tableEntries (s.rc f.table)) (watchOperands s f) accs) [] [])
          f.dests) (lostFlag s f.hdr ([.c f.table] ++ srcReads false f.seq ++ srcReads false f.tok)))
    ∧ ∀ cause : Nat, tableCheck (s.rc f.table) f.need = some cause →
      exec i s = s.laneTrap cause (s.rc f.table).addr (s.laneActive f.hdr) 6

/-- 09 R220, R221, 02 R46: `lbrx` at the end of its block, its targets checked, empties the lane queue, the tokens of its
blocks posted, and leaves under way the change of the masks: the lanes that fail a check and those whose target is not the
winner leave; the scalar stream will go on at the winner, the target that most passing lanes have, on a tie the one of the
lowest lane. The threads of the lanes that move are on their way to their batches, with the live quads as read now; the
lanes that fail make fault groups (02 R51). Elsewhere in a block it traps 0x01; a live quad that is not settled traps 0x18
in hazard-check mode; while spawn memory has no room it stalls (21 R390). 02 R47, R49: a thread that is the 32nd of its
batch completes a group, which is built, and the batch is gone; before that it waits in its batch. -/
def Obligations.LbrxSends : Prop :=
  (∀ (s : State) (h : LaneHdr) (t c tk : Nat), LaneReady s h [t] [.v t, .c c] →
    ((s.ag.blocks.head?.any fun b => b.idx + 1 < b.count) = true →
      exec (.lbrx h t c tk) s = s.laneTrap 0x01 0 (s.laneActive h) 0)
    ∧ ((s.ag.blocks.head?.any fun b => b.idx + 1 < b.count) = false →
      ∀ (v : State) (ts : List (Nat × Nat × Target)),
        s.resolveTargets (s.rc c) [] (s.lbrxTargets (s.laneActive h) t (s.rc c)) = .ok (v, ts) →
        (v.moverHazard ts = none → v.moversFit (s.rc c) ts = true →
          ∃ (leaving : BitVec 32) (win : Option Nat),
            exec (.lbrx h t c tk) s = .next (laneSent v (s.rc c) tk ts leaving win)
            ∧ (∀ l, l < 32 → (leaving.getLsbD l = true ↔ ∃ x ∈ ts, x.1 = l ∧
              ((∃ cause info, x.2.2 = .bad cause info) ∨ (∃ q, x.2.2 = .ok q ∧ win ≠ some x.2.1))))
            ∧ (win = none ↔ ∀ x ∈ ts, ∀ q, x.2.2 ≠ .ok q)
            ∧ ∀ w, win = some w → (∃ x ∈ ts, x.2.1 = w ∧ ∃ q, x.2.2 = .ok q)
              ∧ ∀ x ∈ ts, (∃ q, x.2.2 = .ok q) → backers ts x.2.1 ≤ backers ts w)
        ∧ (∀ q, v.moverHazard ts = some q → exec (.lbrx h t c tk) s = v.laneTrap 0x18 0 (s.laneActive h) (4 * q))
        ∧ (v.moverHazard ts = none → v.moversFit (s.rc c) ts = false →
          exec (.lbrx h t c tk) s = .next (v.makeSpawnRoom s.ag.team))))
  ∧ ∀ (t : Team) (b : Batch) (target role : Nat) (code : Cap) (th : Thread),
    (t.batches.find? fun b => b.target == target && b.role == role) = some b →
    let b' : Batch := { b with threads := b.threads ++ [th] }
    let others := t.batches.filter fun x => !(x.target == target && x.role == role)
    (b.threads.length < 31 → t.park target role code th = { t with batches := others ++ [b'] })
    ∧ (b.threads.length = 31 → t.park target role code th = { t with
      built := t.built ++ [b'.build]
      batches := others })

/-! ### Events of agents -/

/-- 21 R398, 08 R164, R182, R183, 03 R65, R74, R75, 02 R41, R42, R46, 20 R384, 19 R352, 21 R396, 26 R463 to R465: each event
of one agent's own, when it is due, happens and changes that agent alone, as the manual says. The choices of the model
are those of logs 5 and 8. -/
def Obligations.AgentEvents : Prop :=
  ∀ (s : State) (i : Instr) (a b : Agent), s.agent? a.id = some a → AgentEvent s a i b →
    ∃ t, exec i s = .next t ∧ Replaced s t a.id b

/-- 11 R267, R268, R275, R262, 08 R164, 02 R41, 21 R398: a wait for a token, for room in a queue or for a filled matrix entry
ends when its condition holds and its group has the scalar slot, which it fills: the token has been seen; the command stands
at the tail of its queue, numbered; the entry is popped. A delay ends at its clk. -/
def Obligations.QueueAndDelay : Prop :=
  ∀ (s : State) (a : Agent), s.agent? a.id = some a →
    ((s.focusOn a.id).hasTurn false a = true →
      let u := (s.focusOn a.id).take false
      (∀ n thr, a.wait = .token n thr → Reached a n thr →
        exec (.wtokComplete a.id) s = .next ((after u (tokenSeen u.ag n)).focusOn s.ag.id))
      ∧ (∀ c, a.wait = .qpush false c → a.qcopy.length < 8 →
        exec (.queueBlockEnd a.id) s = .next ((after u { waitEnded u.ag with
          qcopy := a.qcopy ++ [{ c with num := a.ncopy }]
          ncopy := (a.ncopy + 1) % 2 ^ 16 }).focusOn s.ag.id))
      ∧ (∀ c, a.wait = .qpush true c → a.qcoll.length < 8 →
        let v := (u.nextInst c.obj c.rank).1
        exec (.queueBlockEnd a.id) s = .next ((after v { waitEnded v.ag with
          qcoll := a.qcoll ++ [{ c with
            num := a.ncoll
            inst := (u.nextInst c.obj c.rank).2 }]
          ncoll := (a.ncoll + 1) % 2 ^ 16 }).focusOn s.ag.id))
      ∧ (∀ r e rest, a.wait = .qpop r → a.qmat = e :: rest → e.data ≠ none →
        exec (.queueBlockEnd a.id) s = .next (((after u { waitEnded u.ag with qmat := rest }).wr
          [(.s r, BitVec.ofNat 32 e.k)]).focusOn s.ag.id)))
    ∧ ∀ lane : Bool, let held := if lane then a.dlyLane else a.dlyScalar
      (held ≤ s.clk → ∃ t, exec (.dlyExpiry a.id lane) s = .next t
        ∧ Replaced s t a.id (if lane then { a with dlyLane := 0 } else { a with dlyScalar := 0 }))
      ∧ (s.clk < held → ∃ t, exec (.dlyExpiry a.id lane) s = .next t ∧ Replaced s t a.id a)

/-- 19 R356, R358, R366, R479, 26 R458, 11 R267: an interrupt, the step trap and a held engine fault, when they are due, trap
their agent, which is otherwise as the event found it. -/
def Obligations.TrapEvents : Prop :=
  ∀ (s : State) (a : Agent) (i : Instr) (u : Agent) (x : Trap), s.agent? a.id = some a → TrapEvent a i u x →
    exec i s = .next ((({ s.focusOn a.id with ag := u } : State).trapBeside x).focusOn s.ag.id)

/-- 03 R74, R75, 09 R214 to R221, 02 R46, 13 R311 to R313: an operation whose results are known ends, one of the lane stream
and one of the scalar stream each with its own event: they stand in its registers where no later instruction has written,
its token posts once, and nothing else changes; `lend` and the mask change of `lbrx` take their lanes from em and lm, with
the winner the agent goes on at; `subs` and `unsubs` change the die's subscriptions. -/
def Obligations.OperationLands : Prop :=
  ∀ (s : State) (a : Agent) (o : Op) (i : Instr), s.agent? a.id = some a → a.op? o.num = some o → Completes a o i →
    (∀ ws, Known a o.kind ws → (∀ w ∈ ws, Placed w.1) → ∃ b t, exec i s = .next t ∧ Replaced s t a.id b ∧ Lands a b o ws)
    ∧ (∀ m, (o.kind = .lend m ∨ o.kind = .lbrx m none) → .em ∉ o.dead → .lm ∉ o.dead →
      ∃ b t, exec i s = .next t ∧ Replaced s t a.id b ∧ b.em = a.em &&& ~~~m &&& a.lm ∧ b.lm = a.lm &&& ~~~m)
    ∧ (∀ m c, o.kind = .lbrx m (some c) →
      ∃ b t, exec i s = .next t
        ∧ Replaced s t a.id { b with redirect := if b.alive then some c else b.redirect }
        ∧ Lands a b o [(.em, a.em &&& ~~~m), (.lm, a.lm &&& ~~~m)])
    ∧ (∀ die asid fmt upd base len stride rows, o.kind = .subs die asid true fmt upd base len stride rows →
      let mine := s.subs.filter (fun x => x.die = die)
      ∃ b t, exec i s = .next t
        ∧ Replaced { s with
          subs := ⟨die, asid, base, len, stride, rows, fmt, upd⟩ :: mine.take 63
            ++ s.subs.filter (fun x => x.die ≠ die) } t a.id b
        ∧ Lands a b o [])
    ∧ (∀ die asid fmt upd base len stride rows, o.kind = .subs die asid false fmt upd base len stride rows →
      ∃ b t, exec i s = .next t
        ∧ Replaced { s with
          subs := s.subs.filter (fun x => ¬ (x.die = die ∧ x.asid = asid ∧ x.meets base len stride rows = true))
          coh := { s.coh with rdc := s.coh.rdc.filter (fun r => ¬ (r.die = die ∧ r.st = .sub)) } } t a.id b
        ∧ Lands a b o [])

/-- 08 R175 to R177, 04 R88, R89, 00 R5, 23 R411, R417, 03 R75: one access of a system core, when nothing holds it back:
a load brings the bytes to its destination, extended by its type; a store, an atomic or a capability store leaves exactly
its bytes, little-endian, with the tags the manual gives; the rest of memory stays. The write may be performed first, and
the token posted later; where the model's free choice (log 8) has some agents see a plain store first, it is kept beside
memory with the scope of those agents and nothing else changes. 10 R230, R233, R234, R242, R243, 02 R33: one access of a
lane to team memory, when nothing holds it back: a load brings the bytes to its lane, a store leaves exactly its bytes in
the memory of its team; the rest stays. -/
def Obligations.AccessPerformed : Prop :=
  (∀ (s : State) (a : Agent) (o : Op) (x : Acc) (p n : Nat) (st : Option (Nat × Bool)) (ws : List (Loc × Word)),
    Lone s a o x p n → Performs s p x o.kind n st ws → (∀ w ∈ ws, Placed w.1) →
    (∃ b t, exec (.scalarMemoryCompletion a.id o.num) s = .next t ∧ Happened s t a.id b p n st ∧ Lands a b o ws)
    ∧ (o.rw.2 = true → o.performed = false → s.earlyScope o.num = none → ∃ b t, exec (.writePerform a.id o.num) s = .next t
      ∧ Happened s t a.id b p n st ∧ (∀ k, b.tok k = a.tok k)
      ∧ ∃ y ∈ b.outst, y.num = o.num ∧ y.performed = true ∧ y.kind = .post ∧ y.tk = o.tk)
    ∧ (o.rw.2 = true → o.performed = false → ∀ v, s.earlyScope o.num = some v →
      exec (.writePerform a.id o.num) s = .next { s with
        coh := { s.coh with
          early := s.coh.early ++ earlyWrites s a o x v
          nextEarly := s.coh.nextEarly + (earlyWrites s a o x v).length } }))
  ∧ ∀ (s : State) (a : Agent) (o : Op) (x : Acc) (p : Nat) (ty : Ty), LoneTeam s a o x p →
    (∀ d, o.kind = .mem .load ty (.vreg d) [x] false → x.lane < 32 →
      ∃ b t, exec (.laneMemoryCompletion a.id o.num) s = .next t
        ∧ Replaced { s with coh := t.coh } t a.id b
        ∧ Lands a b o (laneLoaded ty d x.lane (teamNumber s a.team p (ty.bits / 8))))
    ∧ (o.kind = .mem .store ty .none [x] false →
      ∃ b t, exec (.laneMemoryCompletion a.id o.num) s = .next t
        ∧ Replaced { s with
          coh := t.coh
          teams := t.teams } t a.id b
        ∧ Lands a b o [] ∧ TeamStored s t a.team p (ty.bits / 8) (x.data % 2 ^ ty.bits))

/-- 24 R434: a capability that comes back from a peer becomes the original at its offset when it is an export of this
package that still holds, and untagged otherwise; the caches of the die hold no copy of it, and no order holds the load
back. -/
def Obligations.ExportReturns : Prop :=
  ∀ (s : State) (a : Agent) (o : Op) (x : Acc) (p q : Nat) (r : Cap), s.agent? a.id = some a → a.isSys = true →
    a.op? o.num = some o → o.kind = .mem .loadCap .n32 (.creg q) [x] false → q < 40 → x.place = .pa p → isPeer p = true →
    s.mayGo a o = true → o.ord = .rlx → s.earlyOf a.id o.num = [] → s.peerCap 4 p = none → s.fabric.pkgid < 2 ^ 11 →
    ComesBack s (s.backFromPeer x.lane) r →
    ∃ b t, exec (.exportReturn a.id o.num) s = .next t ∧ Replaced s t a.id b
      ∧ Lands a b o (capWrites q { s.loadJudge r with tag := (s.loadJudge r).tag && x.ltag })

/-- 21 R398: each slot of a partition takes in a clk the next group in turn of the highest class among its candidates, a group
under a pause last; they issue in one clk. The slot is then filled, the group it took is the last that issued from its
class and waits no more, and the other candidates have waited one clk longer. -/
def Obligations.IssueChoice : Prop :=
  (∀ (s : State) (die core part : Nat), ∃ l c : Option Agent,
    exec (.issueChoice die core part) s = .next { s with schedule := slotsOf l c ++ s.schedule }
      ∧ (∀ a, l = some a → ¬ Filled s die core part true ∧ Takes s die core part true a)
      ∧ (∀ a, c = some a → ¬ Filled s die core part false ∧ Takes s die core part false a)
      ∧ (l = none ↔ Filled s die core part true ∨ s.candidates die core part true = [])
      ∧ (c = none ↔ Filled s die core part false ∨ s.candidates die core part false = []))
  ∧ ∀ (s : State) (lane : Bool), s.ag.isSys = false →
    let v := s.take lane
    let key := rotationKey s.ag.die s.ag.core s.ag.part lane (s.issueClass lane s.ag)
    v = { s with
      ag := s.ag.setWaited lane 0
      rest := v.rest
      filled := slotKey s.ag.die s.ag.core s.ag.part lane :: s.filled
      lastIssued := v.lastIssued }
    ∧ (v.lastIssued.find? fun e => e.1 == key) = some (key, s.ag.age)
    ∧ (∀ k, k ≠ key → (v.lastIssued.find? fun e => e.1 == k) = s.lastIssued.find? fun e => e.1 == k)
    ∧ List.Forall₂ (fun b b' => b.id ≠ s.ag.id → WaitsOn s lane b b') s.rest v.rest

/-! ### Events of the device -/

/-- 23 R409 to R422: each event of a home, of a directory and of a cache, when it is due, leaves the entry, the lines and the
copies that the manual gives. -/
def Obligations.CoherenceEvents : Prop :=
  ∀ (s : State) (i : Instr) (t : State), HomeEvent s i t ∨ CacheEvent s i t → exec i s = .next t

/-- 01 R25, R26, 24 R427 to R430, R437 to R443, 26 R462, 27 R471 to R473: device time and its copies, the mailbox and the
measurements of the Islet, power and spares, the passes of the sweeper and the samples of the trace. 24 R425, R434, R438,
25 R444 to R451, 26 R454 to R458, 27 R469, R470, R474: the writes of the package's registers, and the events of links, ports
and peers. -/
def Obligations.PlatformEvents : Prop :=
  ∀ (s : State) (i : Instr) (t : State), TimeEvent s i t ∨ IsletEvent s i t ∨ PowerEvent s i t ∨ SweepEvent s i t
    ∨ RegisterEvent s i t ∨ LinkEvent s i t → exec i s = .next t

/-- 11 R249 to R278, 14 R329 to R333, 20 R477: the engines' commands, the requests for pages, the matrix arrays and the steps
of watch instructions. -/
def Obligations.UnitEvents : Prop :=
  ∀ (s : State) (i : Instr) (t : State), EngineEvent s i t ∨ ArrayEvent s i t → exec i s = .next t

/-- 02 R34 to R36, R48 to R54, 21 R386 to R400, R406, 26 R456: the scheduler's placing, reserving, pre-empting and restoring of
teams, the groups it starts, the ends of teams and launches, kill requests, budgets and the watchdog; 21 R401, R402: each node
of a graph that a walk has reached runs as the manual says, and the walk goes on from it. -/
def Obligations.SchedulerEvents : Prop :=
  ∀ (s : State) (i : Instr) (t : State), TeamEvent s i t ∨ LaunchEvent s i t ∨ NodeEvent s i t → exec i s = .next t

/-! ### Resets, traps -/

/-- 24 R440, R442, R443, 27 R467, R468, 19 R369, 25 R452, 26 R466: the loss of power, the reset of the package with its boot, the reset of
a partition, the crash dump. After a partition reset the lowest system core of the partition starts with s28 the partition
and s29 = 1, the others wait in `wfi`; its links are in state 1, or failed; after a crash dump no launch of the partition is
left and none of its groups runs. -/
def Obligations.Resets : Prop :=
  (∀ s : State, ∃ t, exec .powerLoss s = .next t ∧ t = { s with
      powered := false
      islet := { s.islet with
        fuseA := t.islet.fuseA
        fuseB := t.islet.fuseB } }
    ∧ s.islet.fuseA ≤ t.islet.fuseA ∧ s.islet.fuseB ≤ t.islet.fuseB)
  ∧ (∀ s : State, ∃ t, exec .packageReset s = .next t
    ∧ t = { State.reset with
      ag := t.ag
      rest := t.rest
      mem := s.mem
      cipher := s.cipher
      keys := { State.reset.keys with
        full := [(0, s.keys.gens + 1)]
        gens := s.keys.gens + 1
        known := s.keys.known }
      fabric := { State.reset.fabric with pkgid := s.fabric.pkgid }
      islet := t.islet
      fresh := s.fresh
      schedule := s.schedule }
    ∧ (t.islet.bootHalted = false → t.ag = State.reset.ag ∧ t.rest = State.reset.rest)
    ∧ (t.islet.bootHalted = true → ∀ a ∈ t.agents, a.alive = false)
    ∧ (t.islet.bootHalted = false → t.islet.fuseA = max s.islet.fuseA s.islet.fuseB ∧ t.islet.fuseB = t.islet.fuseA)
    ∧ (s.islet.fuseA = s.islet.fuseB → s.islet.staged = false → Boots s.islet t.islet))
  ∧ (∀ (s : State) (p : Nat), ∃ (t : State) (low : Nat), exec (.partitionReset p) s = .next t
    ∧ (∀ b ∈ t.agents, b.isSys = true → b.cpart = p → b = if b.core = low then
        { Agent.sysStart b.core p (BitVec.ofNat 32 p) 1 Config.bootEntry with id := b.id }
      else { Agent.sysIdle b.core with
        id := b.id
        cpart := p })
    ∧ (∀ b ∈ t.agents, b.isSys = true → b.cpart = p → b.core < 64 → low ≤ b.core)
    ∧ ∀ l ∈ t.fabric.links, t.fabric.linkpart / 2 ^ (2 * l.n) % 4 = p → l.state = 1 ∨ l.state = 3)
  ∧ ∀ (s : State) (p : Nat), (s.dbgOf p).crash.testBit 0 = true → ∃ t, exec (.crashDump p) s = .next t
    ∧ (∀ l ∈ t.launches, l.cpart ≠ p) ∧ ∀ b ∈ t.agents, b.cpart = p → b.isSys = false → b.alive = false

/-- 19 R356, R357, R351, R479, 03 R67: an agent that is in no handler, with a tagged kentry, enters its handler: the trap registers, the
status with its modes, the exchange of c39 and kscr, the pc at kentry; every other register as results in flight leave it,
and nothing outside the agent but the count of issues. The handler's first instruction issues in a later clk. -/
def Obligations.TrapEntry : Prop :=
  ∀ (s : State) (t : Trap), s.ag.hnd = false → s.ag.kentry.tag = true →
    InHandler s.ag.settle (s.trap t).ag t ∧ (s.trap t).ag.heldTo = s.clk + 1
      ∧ s.trap t = { s with
        ag := (s.trap t).ag
        issues := s.issues + 1 }

/-- 19 R356, R368, R478, 02 R54: a trap in a handler, or without a tagged kentry: a system core alone restarts, with s29 = 2 and an
event with the cause, the FLAGS, xaddr and the joined name, and waits at no endpoint any more; a team is killed with the
flag of its case, none of its groups runs on, and its threads are discarded. -/
def Obligations.TrapInHandler : Prop :=
  ∀ (s : State) (t : Trap), (s.ag.hnd = true ∨ s.ag.kentry.tag = false) →
    (s.ag.isSys = true → s.trap t = { s with
      ag := { Agent.sysStart s.ag.core s.ag.cpart (BitVec.ofNat 32 s.ag.cpart) 2 Config.bootEntry with id := s.ag.id }
      islet := { s.islet with
        log := ((2, s.localTime isletKey, t.cause + (if s.ag.hnd then 1 else 2) * 2 ^ 8 + t.addr * 2 ^ 48
          + s.joinedName s.ag * 2 ^ 112) :: s.islet.log).take 4096 }
      eps := s.eps.map fun e => { e with receivers := e.receivers.filter fun r => r ≠ s.ag.id }
      issues := s.issues + 1 })
    ∧ (s.ag.isSys = false → (∃ u ∈ s.teams, u.id = s.ag.team) →
      (∀ u ∈ (s.trap t).teams, u.id = s.ag.team → u.phase = .gone ∧ u.batches = [] ∧ u.built = [] ∧ u.faults = []
          ∧ u.arriving = [])
        ∧ (∀ b ∈ (s.trap t).agents, b.team = s.ag.team → b.isSys = false → b.alive = false)
        ∧ s.trap t = ({ s with issues := s.issues + 1 } : State).killTeam s.ag.team t.cause (if s.ag.hnd then 1 else 2)
          s.ag.g 0 0 t.addr)

/-! ### Rules of registers, capabilities, reset -/

/-- 03 R58, R61: c0 and s0 to s3, the tag of a quad, p0 and its guard. -/
def Obligations.HardWired : Prop :=
  (∀ s : State, s.rc 0 = Cap.null ∧ ∀ n, n < 4 → s.rs n = 0)
  ∧ (∀ (a : Agent) (v : Word), (∀ n, n < 4 → ReadsAs (a.write (.s n) v) a) ∧ ReadsAs (a.write (.ct 0) v) a)
  ∧ (∀ (a : Agent) (c : Cap), ReadsAs (a.writes (capWrites 0 c)) a
    ∧ ∀ q, 0 < q → q < 40 → quadOf (a.writes (capWrites q c)) q = c)
  ∧ (∀ (a : Agent) (n : Nat) (v : Word), 4 ≤ n → n < 160 → (a.write (.s n) v).raw (.s n) = v
    ∧ (a.write (.s n) v).raw (.ct (n / 4)) = 0)
  ∧ (∀ (a : Agent) (n : Nat) (v : DWord), 4 ≤ n → n < 160 → n % 2 = 0 →
    (a.writes (pairWrites n v)).raw (.ct (n / 4)) = 0)
  ∧ (∀ (s : State) (q : Nat), q < 40 → (∀ g ∈ s.ag.gov, g.loc ≠ .ct q) → s.ag.raw (.ct q) = 0 → (s.rc q).tag = false)
  ∧ (∀ (c : Cap), c.tag = false → ∀ (need : List Nat) (ea : Int) (n align ty : Nat),
    c.check need ea n align = some 8 ∧ c.checkPlain need ea n align = some 8 ∧ c.checkObject ty need = some 8
      ∧ c.checkJump = some 8)
  ∧ (∀ (s : State) (l : Nat), s.rd (.p 0 l) = 1)
  ∧ (∀ (a : Agent) (l : Nat) (v : Word), ReadsAs (a.write (.p 0 l) v) a)
  ∧ ∀ (s : State) (h : LaneHdr), h.gp = 0 → (h.gn = true → s.laneActive h = 0)
    ∧ (h.gn = false → s.laneActive h = s.ag.issueMask)

/-- 04 R81, R85: the instructions that move the cursor of a tagged capability, of the scalar stream and, in every active lane,
of the lane stream, complete, with the old fields, the new cursor and a clear tag when the bounds differ. That the reserved
permissions [115:113] become 0 is the model's reading of R81 (log 92). -/
def Obligations.CursorMove : Prop :=
  (∀ (s : State) (w p q : Nat), Instr.wf (.csetaddr w p q) = true → Ready s (capLocs p ++ [.s w, .s (w + 1)]) →
    (s.rc p).tag = true → (s.rc p).sealType = 0 → ∃ t, exec (.csetaddr w p q) s = .next t
      ∧ Retired s t (pccPlus s.ag 4) (capWrites q (newCursor (s.rc p) (s.rp w).toNat)))
  ∧ (∀ (s : State) (w p q : Nat), Instr.wf (.cinc w p q) = true → Ready s (capLocs p ++ [.s w, .s (w + 1)]) →
    (s.rc p).tag = true → (s.rc p).sealType = 0 → ∃ t, exec (.cinc w p q) s = .next t
      ∧ Retired s t (pccPlus s.ag 4)
        (capWrites q (newCursor (s.rc p) (((s.rc p).addr + (s.rp w).toNat) % 2 ^ 64))))
  ∧ (∀ (s : State) (d a : Nat) (i : Int), Instr.wf (.cinci d a i) = true → Ready s (capLocs a) →
    (s.rc a).tag = true → (s.rc a).sealType = 0 → ∃ t, exec (.cinci d a i) s = .next t
      ∧ Retired s t (pccPlus s.ag 4)
        (capWrites d (newCursor (s.rc a) ((((s.rc a).addr : Int) + i) % 2 ^ 64).toNat)))
  ∧ ∀ (s : State) (h : LaneHdr) (q : Nat) (p : CapSrc) (w : Src),
    LaneReady s h (quadNames q ++ capNames p ++ srcNames true w) (capReads p ++ srcReads true w) →
    (∀ l ∈ active s h, (s.srcCap l p).tag = true ∧ (s.srcCap l p).sealType = 0) →
    let lost := lostFlag s h (capReads p ++ srcReads true w)
    let moved := fun g : Nat → Nat => ((active s h).flatMap fun l => vcapWrites q l (newCursor (s.srcCap l p) (g l)))
      ++ if lost = 0 then [] else [(.fsr, lost)]
    (Instr.wf (.vcsetaddr h q p w) = true → ∃ t, exec (.vcsetaddr h q p w) s = .next t
      ∧ LaneEnds s t 2 (moved fun l => (s.srcInt true l w).toNat) none)
    ∧ (Instr.wf (.vcinc h q p w) = true → ∃ t, exec (.vcinc h q p w) s = .next t
      ∧ LaneEnds s t 2 (moved fun l => ((s.srcCap l p).addr + (s.srcInt true l w).toNat) % 2 ^ 64) none)

/-- 04 R101: a capability of a message as it arrives, in c8 to c11. -/
def Obligations.Delivered : Prop :=
  (∀ (c : Cap) (d : Nat), Delivers c d (c.delivered d))
    ∧ ∀ (words : List Word) (caps : List Cap) (d k : Nat), k < 4 → caps.length = 4 →
      ∀ w ∈ capWrites (8 + k) ((caps.getD k .null).delivered d), w ∈ messageWrites words caps d

/-- 27 R467, R468, 25 R451, 24 R432, 27 R472: the machine after a package reset, as far as the manual gives its values. -/
def Obligations.ResetValues : Prop :=
  let s := State.reset
  s.ag.id = 0 ∧ s.ag.core = 0 ∧ s.ag.isSys = true ∧ s.ag.alive = true ∧ s.ag.mode = 2 ∧ s.ag.wait = .none
    ∧ s.ag.pcc.addr = Config.bootEntry % 2 ^ 64
    ∧ (let c := quadOf s.ag 4
      c.tag = true ∧ c.addr = 0 ∧ c.base = 0 ∧ c.top = 2 ^ 64 ∧ c.exp = 63 ∧ c.sealType = 0 ∧ c.owner = 0
        ∧ ∀ p, p < 13 → (c.has p = true ↔ p ≠ permSEAL ∧ p ≠ permUNSEAL))
    ∧ (let c := quadOf s.ag 5
      c.tag = true ∧ c.addr = 0 ∧ c.base = 0 ∧ c.top = 4096 ∧ c.sealType = 0 ∧ c.owner = 0
        ∧ ∀ p, p < 13 → (c.has p = true ↔ p = permSEAL ∨ p = permUNSEAL ∨ p = permGLOB))
    ∧ quadOf s.ag 6 = quadOf s.ag 4
    ∧ (∀ n, n < 160 → n < 16 ∨ 28 ≤ n → s.ag.raw (.s n) = 0)
    ∧ (∀ q, q < 40 → q < 4 ∨ 7 ≤ q → s.ag.raw (.ct q) = 0)
    ∧ (∀ a ∈ s.rest, a.isSys = true ∧ a.wait = .wfi ∧ a.mode = 2) ∧ s.rest.length = 63
    ∧ s.time = 0 ∧ s.tags = [] ∧ s.fabric.partcfg = 0x0000000001000010 ∧ s.fabric.linkpart = 0
    ∧ s.teams = [] ∧ s.launches = [] ∧ s.fabric.expfree = 0xFFFF ∧ s.islet.step = 64

/-- 04 R93, R94, 20 R376, 10 R228: the checks of the accesses of an instruction: the earliest check that any lane fails traps with its
cause, the lanes that fail it and the address of the first of them; then the steps of translation in their order, whose
walks fill the memory-resident TLB though the access traps; an access is made when all pass. -/
def Obligations.AccessChecks : Prop :=
  ∀ (s : State) (lane : Bool) (info size align : Nat) (write tolerant : Bool) (rs : List Req),
    (∀ k, (∃ r ∈ rs, FailsCheck size align k r) → PassBefore size align k rs →
      ∃ (m : BitVec 32) (r : Req), LanesOf m rs (FailsCheck size align k) ∧ FirstOf r rs (FailsCheck size align k)
        ∧ s.checkAccess lane info size align write tolerant rs = .trap s ⟨k, r.va, if lane then m else 0, info, lane⟩)
    ∧ (PassBefore size align 13 rs →
      (∀ r ∈ rs, ∀ a p z, s.xlateMine (r.cap.want write) r.va ≠ .touch a p z) →
      (∀ c, c ≠ 0x03 → (∃ r ∈ rs, FailsXlate s write c r) →
        (∀ r ∈ rs, ∀ d, FailsXlate s write d r → xlateStep c < xlateStep d ∨ d = c) → tolerant = false →
        ∃ (m : BitVec 32) (r : Req), LanesOf m rs (FailsXlate s write c) ∧ FirstOf r rs (FailsXlate s write c)
          ∧ s.checkAccess lane info size align write tolerant rs = .trap (rs.foldl (fun v r => v.noteWalk v.ag.who r.va) s)
            ⟨c, r.va, if lane then m else 0, info, lane⟩)
      ∧ ((∀ r ∈ rs, ∃ pa o pte z, s.xlateMine (r.cap.want write) r.va = .ok pa o pte z) →
        ∃ (s' : State) (accs : List Acc), s.checkAccess lane info size align write tolerant rs = .ok s' accs
          ∧ List.Forall₂ (fun (r : Req) (x : Acc) => ∃ pa o pte z, s.xlateMine (r.cap.want write) r.va = .ok pa o pte z
            ∧ x = ⟨r.lane, .pa pa, r.va, r.data, r.cmp, r.tag, true, o, r.cap.has permLDC, r.cap.perms, s.ag.mode⟩) rs accs))

/-! ### Units, groups, the step, the code -/

/-- 14 R318 to R323, R327: the watch unit's commit, drafts and rejection. A budget that is hit stops the sequence and the token
is not committed; the budget of tokens is checked before that of cost, both before any slot; else the token is appended
and the lowest slot that matches acts; a sequence that is free or stopped is not touched; a draft is buffered and
reported; a plain commit first drops the drafts. -/
def Obligations.WatchRules : Prop :=
  ∀ (cost : Nat → Nat) (e : List Word) (t : Nat), e.length = 64 → t < 2 ^ 32 →
    (OverTokens e → BudgetHit e 8 (commitTok cost e t))
    ∧ (¬ OverTokens e → OverCost cost e t → BudgetHit e 9 (commitTok cost e t))
    ∧ (¬ OverTokens e → ¬ OverCost cost e t → (∀ k, ¬ Wins e k (windowOf e t)) →
      Rewritten e (commitTok cost e t).e { ctlOf e with hn := min ((ctlOf e).hn + 1) 3 } (appendWords cost e t)
        ∧ (commitTok cost e t).code = 0 ∧ (commitTok cost e t).src = 15 ∧ (commitTok cost e t).committed = true
        ∧ (commitTok cost e t).notify = false ∧ (commitTok cost e t).fork = false)
    ∧ (¬ OverTokens e → ¬ OverCost cost e t → ∀ k, Wins e k (windowOf e t) →
      Rewritten e (commitTok cost e t).e
          (ctlAfter { ctlOf e with hn := min ((ctlOf e).hn + 1) 3 } (actOf e k)) (appendWords cost e t)
        ∧ (commitTok cost e t).code = actOf e k ∧ (commitTok cost e t).src = k ∧ (commitTok cost e t).committed = true
        ∧ (commitTok cost e t).notify = (actOf e k == 5) ∧ (commitTok cost e t).fork = (actOf e k == 3))
    ∧ ((ctlOf e).state ≠ 1 → watchOutcome .tokc cost e t = (WOut.report e 7, 0)
      ∧ watchOutcome .draft cost e t = (WOut.report e 7, 0))
    ∧ ((ctlOf e).state = 1 → (ctlOf e).ipend = 0 → ∃ e0, Rewritten e e0 { ctlOf e with dcnt := 0 } []
      ∧ (watchOutcome .tokc cost e t).1 = commitTok cost e0 t)
    ∧ ((ctlOf e).state = 1 → (ctlOf e).ipend = 0 → (ctlOf e).dcnt < 8 →
      Rewritten e (watchOutcome .draft cost e t).1.e { ctlOf e with dcnt := (ctlOf e).dcnt + 1 }
          [(24 + (ctlOf e).dcnt, t)]
        ∧ ((watchOutcome .draft cost e t).1.code = 0 ∨ (watchOutcome .draft cost e t).1.code = 6)
        ∧ (watchOutcome .draft cost e t).1.committed = false)
    ∧ ∃ e0, Rewritten e e0 { ctlOf e with dcnt := 0 } [] ∧ watchOutcome .tokrj cost e t = (WOut.report e0 0, 0)

/-- 03 R57, R80, 02 R48, 19 R352, R353: the registers of a placed group at its creation, and of a spawned group at its
start. -/
def Obligations.GroupCreation : Prop :=
  (∀ (s : State) (l : Launch) (team d first g id : Nat),
    let a := s.newGroup l team d first g id
    let r := l.roles.getD (roleOf l.roles g) ⟨0, 0, 4, .null, .null⟩
    quadOf a 4 = l.arg ∧ quadOf a 5 = r.lcode
      ∧ (∀ n, n < 16 ∨ 24 ≤ n → a.raw (.s n) = 0) ∧ (∀ q, q < 40 → q ≠ 4 → q ≠ 5 → a.raw (.ct q) = 0)
      ∧ (∀ n k, a.raw (.v n k) = 0 ∧ a.raw (.vt n k) = 0 ∧ a.raw (.p n k) = if n = 0 then 1 else 0)
      ∧ a.em = 0xFFFFFFFF ∧ a.lm = 0xFFFFFFFF ∧ a.pcc = { r.entry.withSeal 0 with tag := r.entry.tag }
      ∧ a.role = roleOf l.roles g ∧ a.budget = r.budget ∧ a.g = g ∧ a.team = team ∧ a.core = first + g % l.fcores
      ∧ FreshControl s l a)
  ∧ ∀ (s : State) (l : Launch) (t : Team) (b : Built) (j : Nat), b.threads.length ≤ 32 →
    (∀ th ∈ b.threads, (th.regs.map fun e => e.1).Nodup) →
    let a := s.spawnedGroup l t b j
    (∀ n, a.raw (.s n) = 0) ∧ (∀ q, a.raw (.ct q) = 0) ∧ (∀ n k, a.raw (.p n k) = if n = 0 then 1 else 0)
      ∧ (∀ k < 32, a.em.getLsbD k = decide (k < b.threads.length)) ∧ a.lm = a.em
      ∧ (∀ k < 32, ∀ n, (∀ th, b.threads[k]? = some th → n ∉ th.regs.map fun e => e.1) → a.raw (.v n k) = 0)
      ∧ (∀ k th, b.threads[k]? = some th → (∀ e ∈ th.regs, a.raw (.v e.1 k) = e.2)
        ∧ ∀ q, a.raw (.vt q k) = bit01 (th.tags.contains q))
      ∧ a.pcc = b.code.withSeal 0 ∧ a.role = b.role ∧ a.team = t.id
      ∧ a.budget = (l.roles.getD b.role ⟨0, 0, 4, .null, .null⟩).budget ∧ FreshControl s l a

/-- 07 R141, 08 R163, 03 R66, R69, R71, 21 R398, 24 R443: a step does the head of the schedule: an event, a change of focus, or the
instruction that the fetched word decodes to, a lane instruction with its mate. Around the instruction a step changes only
the book-keeping of issue; the other groups of the partition lose their latches when a lane instruction has issued. A clk
ends when no slot of a partition is open and nothing is due: then the results due take effect, the threads sent have
arrived, and every slot is open again. Without supply the machine stops. (The schedule is the model's choice, log 5.) -/
def Obligations.StepRuns : Prop :=
  (∀ (s : State) (i : Instr) (rest : List Slot), Taken s (.event i) rest → encode i = none → step s = exec i (taking s rest))
  ∧ (∀ (s : State) (a : Nat) (rest : List Slot), Taken s (.focus a) rest → step s = .next ((taking s rest).focusOn a))
  ∧ (∀ (s u v : State) (i : Instr), ScalarComes s u v i → step s = andThen (exec i v) u.afterScalar)
  ∧ (∀ (s v : State) (i : Instr), LaneComes s v i none → step s = andThen (exec i v) v.afterLane)
  ∧ (∀ (s v t : State) (i j : Instr), LaneComes s v i (some j) →
    exec i { v with ag := { v.ag with pairing := .first } } = .next t →
    step s = andThen (if t.ag.pairing = .first
      then exec j { t with ag := { t.ag with pairing := .second v.ag.nextOp } } else .next t) v.afterLane)
  ∧ (∀ u t : State, ∃ a b c d, u.afterScalar t = { t with ag := { t.ag with
      stalled := a
      snapReady := b
      pausing := c
      stepping := d } })
  ∧ (∀ v t : State, ∃ d, let w := if t.issues = v.issues then t else t.claimPartition
    v.afterLane t = { w with ag := { w.ag with stepping := d } })
  ∧ (∀ (s : State) (rest : List Slot), Taken s .clk rest → let v := taking s rest
    ((∀ a ∈ v.agents, a.isSys = true ∨ (a.due = .nothing ∧ ∀ lane, v.slotOpen a.die a.core a.part lane = false)) →
      step s = .next { v with
        clk := s.clk + 1
        filled := []
        teams := s.teams.map Team.settleArrivals
        ag := s.ag.commit (s.clk + 1)
        rest := s.rest.map fun a => a.commit (s.clk + 1) })
    ∧ (¬ (∀ a ∈ v.agents, a.isSys = true ∨ (a.due = .nothing ∧ ∀ lane, v.slotOpen a.die a.core a.part lane = false)) →
      step s = .next v))
  ∧ (∀ (s : State) (k row part : Nat) (rest : List Slot), Taken s (.copy k row part) rest →
    step s = .next ((taking s rest).copyUnit k row part))
  ∧ (∀ (s : State) (key : Nat) (ns : Int) (rest : List Slot), Taken s (.drift key ns) rest →
    step s = .next ((taking s rest).driftCopy key ns))
  ∧ (∀ (s : State) (a : Nat) (lane miss : Bool) (rest : List Slot), Taken s (.fetch a lane miss) rest →
    step s = .next ((taking s rest).updAgent a fun b => b.setMiss lane miss))
  ∧ ∀ s : State, s.powered = false → s.nextSlot.1 ≠ .event .packageReset → step s = .fault .powerLost

/-- 07 R141 to R162: what is well formed has a word of its stream's size, and decoding that word gives it back, every
operand at every value that the encoding admits; a step of the device has no word. -/
def Obligations.RoundTrip : Prop :=
  ∀ i : Instr, Sys2Proof.Laws.Encoding.Statement i

/-- Words that the manual prints with the instructions they stand for: 07 (the table of encodings), the listings of 08, 09,
10, 11, 14, 15 and 19. -/
def Obligations.DecodeWords : Prop :=
  decodeTableWord 32 0xA4A54C10 = some (.amoAddN32 41 20 (some 8) .rlx .dev)
    ∧ decodeTableWord 32 0x78A94C01 = some (.ldN32 42 20 (some 8) 1)
    ∧ decodeTableWord 32 0x2CACA002 = some (.addi 43 40 2)
    ∧ decodeTableWord 32 0xC488002B = some (.wtokReg 8 43)
    ∧ decodeTableWord 32 0x554B0003 = some (.bcCond .le 44 3)
    ∧ decodeTableWord 32 0x60C64208 = some (.csetbndx 100 8 8)
    ∧ decodeTableWord 32 0xD1364000 = some (.mrecv 13 (some 2))
    ∧ decodeTableWord 32 0x940E7000 = some (.stc 3 39 none 0)
    ∧ decodeTableWord 32 0xE0440008 = some (.ctlr 16 8)
    ∧ decodeTableWord 96 0x030002000030008008000000 = some (.iadd ⟨true, false, 0⟩ (.reg 3) .i32 false (.vreg 1) (.vreg 2))
    ∧ decodeTableWord 96 0x9C01120000B6018000000128 = some (.lscan ⟨false, false, 0⟩ .add .i32 false 11 (.pred 3) (some 40) 1)
    ∧ decodeTableWord 96 0xDA0159140000000000000000 = some (.fencex ⟨false, false, 0⟩ .lane .copy .rel .team (some 5))
    ∧ decodeTableWord 96 0xE00140840000201190000000 = some (.mmac ⟨false, false, 0⟩ .bf16 true false 2 (.regs 64 0 0) 100 (some 4))
    ∧ decodeTableWord 96 0xF001280002820640163E8006 = some (.tokcDraft ⟨false, false, 0⟩ 40 6 12 (.imm 5) (.imm 500) 2)
    ∧ decodeTableWord 96 0xC40122300142050031808000 = some (.ldnr ⟨false, false, 0⟩ .n32 .rlx .dev false 20 4 (.c 10) (.vreg 12) 0 (some 2))

/-! ### The whole machine -/

/-- Every instruction, and every event of the device, answers a next state, in every state: none ends the run. (What the
model refuses or stops is nothing but a step without supply.) -/
def Obligations.InstructionsAnswer : Prop :=
  ∀ (i : Instr) (s : State), ∃ t, exec i s = .next t

/-- Every step keeps the form of memory: addresses strictly rising, no entry that equals what an unlisted address reads as.
(The form is the model's own, log 1.) -/
def Obligations.StepKeepsMemoryForm : Prop :=
  ∀ s t : State, Memory.wf s.mem = true → step s = .next t → Memory.wf t.mem = true

/-- The memory of the machine at reset has that form, and every byte reads as zero. (The model's own, log 1.) -/
def Obligations.ResetMemoryForm : Prop :=
  Memory.wf State.reset.mem = true ∧ ∀ a, readByte State.reset.mem a = 0

/-- 24 R442, R443: no step lowers a field of the anti-rollback counter: not an instruction, not an event, not the loss of
power, not a reset. -/
def Obligations.FusesOnlyRise : Prop :=
  ∀ s t : State, step s = .next t → s.islet.fuseA ≤ t.islet.fuseA ∧ s.islet.fuseB ≤ t.islet.fuseB
end

