-- ==== Sys2Proof/Laws/Sparse.lean ====
section
/-!
SUPPORT. Sparse data: a read after a write, other keys untouched, the canonical form kept; and the same for memory.
-/

namespace Sys2Proof.Laws

open Machine

variable {α : Type}

theorem sget_dropWhile (d : α) (m : Sparse α) (n k : Nat) (h : n ≤ k) :
    sget d (m.dropWhile fun e => e.1 ≤ n) k = if k = n then d else sget d m k := by
  induction m with
  | nil => simp [sget]
  | cons e r ih =>
    obtain ⟨a, v⟩ := e
    by_cases ha : a ≤ n
    · simp only [List.dropWhile_cons, ha, decide_true, if_true, ih]
      by_cases hk : k = n
      · simp [hk]
      · have h1 : ¬ k < a := by omega
        have h2 : k ≠ a := by omega
        simp [hk, sget, h1, h2]
    · simp only [List.dropWhile_cons, ha, decide_false, Bool.false_eq_true, if_false]
      by_cases hk : k = n
      · have : k < a := by omega
        simp [hk, sget]
        omega
      · simp [hk]

/-- A read returns what the last write of the key wrote. -/
theorem sget_sput_same [DecidableEq α] (d : α) (m : Sparse α) (n : Nat) (v : α) : sget d (sput d m n v) n = v := by
  induction m with
  | nil =>
    unfold sput
    split <;> simp_all [sget]
  | cons e r ih =>
    obtain ⟨k, w⟩ := e
    unfold sput
    split
    · split <;> simp_all [sget]
    · split
      · split
        · simp_all [sget_dropWhile]
        · simp [sget]
      · rename_i h1 h2
        simp [sget, h1, h2, ih]

/-- A write leaves every other key alone. -/
theorem sget_sput_ne [DecidableEq α] (d : α) (m : Sparse α) {n k : Nat} (v : α) (h : k ≠ n) :
    sget d (sput d m n v) k = sget d m k := by
  induction m with
  | nil =>
    unfold sput
    split
    · rfl
    · simp only [sget]
      split
      · rfl
      · simp [h]
  | cons e r ih =>
    obtain ⟨a, w⟩ := e
    unfold sput
    split
    · split
      · rfl
      · rename_i h1 h2
        simp only [sget]
        split
        · rename_i h3
          have : k < a := by omega
          simp [this]
        · simp [h]
    · split
      · rename_i h1 h2
        subst h2
        split
        · by_cases hk : k < n
          · have hr : sget d ((n, w) :: r) k = d := by simp [sget, hk]
            rw [hr]
            clear ih hr
            induction r with
            | nil => simp [sget]
            | cons f r ih2 =>
              obtain ⟨b, u⟩ := f
              by_cases hb : b ≤ n
              · simp only [List.dropWhile_cons, hb, decide_true, if_true, ih2]
              · have hkb : k < b := by omega
                simp [hb, sget, hkb]
          · rw [sget_dropWhile d r n k (by omega)]
            have h3 : ¬ k < n := hk
            simp [sget, h3, h]
        · simp [sget, h]
      · simp only [sget, ih]

theorem swfFrom_mono [DecidableEq α] (d : α) {lo hi : Nat} (h : lo ≤ hi) (m : Sparse α) (hm : swfFrom d hi m = true) :
    swfFrom d lo m = true := by
  cases m with
  | nil => rfl
  | cons e r =>
    obtain ⟨k, v⟩ := e
    simp only [swfFrom, Bool.and_eq_true, decide_eq_true_eq] at hm ⊢
    exact ⟨⟨by omega, hm.1.2⟩, hm.2⟩

theorem dropWhile_wf [DecidableEq α] (d : α) {n : Nat} (m : Sparse α) (hm : swfFrom d (n + 1) m = true) :
    (m.dropWhile fun e => e.1 ≤ n) = m := by
  cases m with
  | nil => rfl
  | cons e r =>
    obtain ⟨k, v⟩ := e
    simp only [swfFrom, Bool.and_eq_true, decide_eq_true_eq] at hm
    have : ¬ k ≤ n := by omega
    simp [this]

theorem swfFrom_sput [DecidableEq α] (d : α) (m : Sparse α) (lo n : Nat) (v : α) (hn : lo ≤ n)
    (hm : swfFrom d lo m = true) : swfFrom d lo (sput d m n v) = true := by
  induction m generalizing lo with
  | nil =>
    unfold sput
    split
    · rfl
    · rename_i h
      simp [swfFrom, hn, h]
  | cons e r ih =>
    obtain ⟨k, w⟩ := e
    have hm' := hm
    simp only [swfFrom, Bool.and_eq_true, decide_eq_true_eq] at hm
    unfold sput
    split
    · split
      · exact hm'
      · rename_i h1 h2
        simp only [swfFrom, Bool.and_eq_true, decide_eq_true_eq]
        exact ⟨⟨hn, h2⟩, ⟨by omega, hm.1.2⟩, hm.2⟩
    · split
      · rename_i h1 h2
        subst h2
        split
        · rw [dropWhile_wf d r hm.2]
          exact swfFrom_mono d (by omega) r hm.2
        · rename_i h3
          simp only [swfFrom, Bool.and_eq_true, decide_eq_true_eq]
          exact ⟨⟨hn, h3⟩, hm.2⟩
      · rename_i h1 h2
        simp only [swfFrom, Bool.and_eq_true, decide_eq_true_eq]
        exact ⟨hm.1, ih (k + 1) (by omega) hm.2⟩

/-- A write keeps the canonical form. -/
theorem swf_sput [DecidableEq α] (d : α) (m : Sparse α) (n : Nat) (v : α) (hm : swf d m = true) :
    swf d (sput d m n v) = true := swfFrom_sput d m 0 n v (Nat.zero_le n) hm

theorem swfFrom_filter [DecidableEq α] (d : α) (m : Sparse α) (f : Nat × α → Bool) (lo : Nat)
    (hm : swfFrom d lo m = true) : swfFrom d lo (m.filter f) = true := by
  induction m generalizing lo with
  | nil => rfl
  | cons e r ih =>
    obtain ⟨k, v⟩ := e
    simp only [swfFrom, Bool.and_eq_true, decide_eq_true_eq] at hm
    rw [List.filter_cons]
    split
    · simp only [swfFrom, Bool.and_eq_true, decide_eq_true_eq]
      exact ⟨hm.1, ih (k + 1) hm.2⟩
    · exact swfFrom_mono d (by omega) _ (ih (k + 1) hm.2)

/-- Dropping entries keeps the canonical form. -/
theorem swf_filter [DecidableEq α] (d : α) (m : Sparse α) (f : Nat × α → Bool) (hm : swf d m = true) :
    swf d (m.filter f) = true := swfFrom_filter d m f 0 hm

/-! ### Memory -/

theorem readByte_writeByte_same (m : List Host.Cell) (a : Nat) (b : Byte) : readByte (writeByte m a b) a = b :=
  sget_sput_same 0 m a b

theorem readByte_writeByte_ne (m : List Host.Cell) {a k : Nat} (b : Byte) (h : k ≠ a) :
    readByte (writeByte m a b) k = readByte m k := sget_sput_ne 0 m b h

/-- Writing bytes leaves every byte outside them alone. -/
theorem readByte_writeBytes_out (m : List Host.Cell) (a k : Nat) (bs : List Byte)
    (h : k < a ∨ a + bs.length ≤ k) : readByte (writeBytes m a bs) k = readByte m k := by
  induction bs generalizing m a with
  | nil => rfl
  | cons b bs ih =>
    simp only [List.length_cons] at h
    rw [writeBytes, ih _ _ (by omega), readByte_writeByte_ne _ _ (by omega)]

/-- Bytes written are read back. -/
theorem readByte_writeBytes_in (m : List Host.Cell) (a : Nat) (bs : List Byte) (i : Nat) (h : i < bs.length) :
    readByte (writeBytes m a bs) (a + i) = bs[i] := by
  induction bs generalizing m a i with
  | nil => simp at h
  | cons b bs ih =>
    cases i with
    | zero => simp [writeBytes, readByte_writeBytes_out, readByte_writeByte_same]
    | succ i =>
      have := ih (writeByte m a b) (a + 1) i (by simpa using h)
      rw [writeBytes, show a + (i + 1) = a + 1 + i by omega, this, List.getElem_cons_succ]

theorem readBytes_writeBytes (m : List Host.Cell) (a : Nat) (bs : List Byte) :
    readBytes (writeBytes m a bs) a bs.length = bs := by
  induction bs generalizing m a with
  | nil => rfl
  | cons b bs ih =>
    rw [List.length_cons, readBytes, writeBytes, ih, readByte_writeBytes_out _ _ _ _ (by omega),
      readByte_writeByte_same]

/-- Every memory write keeps the canonical form. -/
theorem wf_writeBytes (m : List Host.Cell) (a : Nat) (bs : List Byte) (h : Memory.wf m = true) :
    Memory.wf (writeBytes m a bs) = true := by
  induction bs generalizing m a with
  | nil => exact h
  | cons b bs ih => exact ih _ _ (swf_sput 0 m a b h)

theorem wf_putBytes (s : State) (o a : Nat) (bs : List Byte) (h : Memory.wf s.mem = true) :
    Memory.wf (s.putBytes o a bs).mem = true := by
  unfold State.putBytes
  split
  · exact h
  · dsimp only
    split
    · exact wf_writeBytes _ _ _ h
    · exact wf_writeBytes _ _ _ (wf_writeBytes _ _ _ h)

theorem wf_writePhys (s : State) (a n v : Nat) (h : Memory.wf s.mem = true) :
    Memory.wf (s.writePhys a n v).mem = true := wf_writeBytes _ _ _ h

theorem wf_putCap (s : State) (o a : Nat) (c : Cap) (h : Memory.wf s.mem = true) :
    Memory.wf (s.putCap o a c).mem = true := by
  unfold State.putCap
  dsimp only
  split <;> exact wf_putBytes _ _ _ _ h

/-! ### Sets and tags -/

theorem inSet_dropWhile (l : List Nat) (n k : Nat) (h : n < k) : inSet (l.dropWhile (· ≤ n)) k = inSet l k := by
  induction l with
  | nil => rfl
  | cons x l ih =>
    rw [List.dropWhile_cons]
    split
    · rename_i hx
      have hx : x ≤ n := by simpa using hx
      rw [ih, inSet, if_neg (by omega), if_neg (by omega)]
    · rfl

theorem inSet_dropWhile_le (l : List Nat) (n k : Nat) (h : k ≤ n) : inSet (l.dropWhile (· ≤ n)) k = false := by
  induction l with
  | nil => rfl
  | cons x l ih =>
    rw [List.dropWhile_cons]
    split
    · exact ih
    · rename_i hx
      have hx : ¬ x ≤ n := by simpa using hx
      rw [inSet, if_pos (by omega)]

theorem inSet_delSet (l : List Nat) (n k : Nat) : inSet (delSet l n) k = if k = n then false else inSet l k := by
  induction l with
  | nil => simp [delSet, inSet]
  | cons x l ih =>
    rw [delSet]
    split
    · rename_i h
      split
      · rw [inSet, if_pos (by omega)]
      · rfl
    · split
      · rename_i h1 h2
        subst h2
        by_cases hk : k = n
        · rw [if_pos hk, inSet_dropWhile_le _ _ _ (by omega)]
        · rw [if_neg hk]
          by_cases h3 : k < n
          · rw [inSet_dropWhile_le _ _ _ (by omega), inSet, if_pos h3]
          · rw [inSet_dropWhile _ _ _ (by omega), inSet, if_neg h3, if_neg hk]
      · rw [inSet, inSet, ih]
        split
        · simp
        · split
          · rw [if_neg (by omega)]
          · rfl

theorem inSet_addSet (l : List Nat) (n k : Nat) : inSet (addSet l n) k = if k = n then true else inSet l k := by
  induction l with
  | nil =>
    simp only [addSet, inSet]
    split
    · rw [if_neg (by omega)]
    · rfl
  | cons x l ih =>
    rw [addSet]
    split
    · rename_i h
      rw [inSet]
      split
      · rw [if_neg (by omega), inSet, if_pos (by omega)]
      · rfl
    · split
      · rename_i h1 h2
        subst h2
        rw [inSet]
        by_cases hk : k = n <;> simp [hk]
      · rw [inSet, inSet, ih]
        split
        · rw [if_neg (by omega)]
        · split
          · simp
          · rfl

theorem inSet_foldDel (g k : Nat) (n : Nat) (t : List Nat) :
    inSet ((List.range n).foldl (fun t k => delSet t (g + k)) t) k = if g ≤ k ∧ k < g + n then false else inSet t k := by
  induction n with
  | zero => rw [List.range_zero, List.foldl_nil, if_neg (by omega)]
  | succ n ih =>
    rw [List.range_succ, List.foldl_append, List.foldl_cons, List.foldl_nil, inSet_delSet, ih]
    by_cases h : k = g + n
    · rw [if_pos h, if_pos (by omega)]
    · rw [if_neg h]
      by_cases h2 : g ≤ k ∧ k < g + n
      · rw [if_pos h2, if_pos (by omega)]
      · rw [if_neg h2, if_neg (by omega)]

/-- Bytes written clear the tags of the granules they touch, and no other tag (04 R88). -/
theorem inSet_clearTags (t : List Nat) (a n k : Nat) (hn : n ≠ 0) :
    inSet (clearTags t a n) k = if a / 16 ≤ k ∧ k ≤ (a + n - 1) / 16 then false else inSet t k := by
  rw [clearTags, if_neg hn, inSet_foldDel]
  have h : a / 16 ≤ (a + n - 1) / 16 := by omega
  by_cases h2 : a / 16 ≤ k ∧ k ≤ (a + n - 1) / 16
  · rw [if_pos h2, if_pos (by omega)]
  · rw [if_neg h2, if_neg (by omega)]

/-! ### Little-endian numbers (00 R5) -/

theorem bytesLE_length (n w : Nat) : (bytesLE n w).length = n := by
  induction n generalizing w with
  | zero => rfl
  | succ n ih => rw [bytesLE, List.length_cons, ih]

theorem bytesLE_getElem (n w i : Nat) (h : i < n) :
    (bytesLE n w)[i]'(by rw [bytesLE_length]; exact h) = BitVec.ofNat 8 (w / 256 ^ i) := by
  induction n generalizing w i with
  | zero => omega
  | succ n ih =>
    cases i with
    | zero => simp [bytesLE]
    | succ i =>
      simp only [bytesLE, List.getElem_cons_succ]
      rw [ih _ _ (by omega), Nat.div_div_eq_div_mul, Nat.pow_succ, Nat.mul_comm]

theorem sum_mul_left (c : Nat) (l : List Nat) (f : Nat → Nat) : (l.map fun i => c * f i).sum = c * (l.map f).sum := by
  induction l with
  | nil => rfl
  | cons x l ih => rw [List.map_cons, List.map_cons, List.sum_cons, List.sum_cons, ih, Nat.mul_add]

theorem ofBytesLE_sum (f : Nat → Byte) (n : Nat) :
    ofBytesLE ((List.range n).map f) = ((List.range n).map fun i => (f i).toNat * 256 ^ i).sum := by
  induction n generalizing f with
  | zero => rfl
  | succ n ih =>
    rw [List.range_succ_eq_map, List.map_cons, List.map_map, ofBytesLE, List.map_cons, List.sum_cons, List.map_map,
      ih (f ∘ Nat.succ), ← sum_mul_left]
    simp only [Nat.pow_zero, Nat.mul_one, Function.comp_def, Nat.succ_eq_add_one, Nat.pow_succ]
    congr 2
    apply List.map_congr_left
    intro i _
    rw [Nat.mul_comm 256, Nat.mul_assoc]

theorem ofBytesLE_lt (bs : List Byte) : ofBytesLE bs < 256 ^ bs.length := by
  induction bs with
  | nil => simp [ofBytesLE]
  | cons b bs ih =>
    rw [ofBytesLE, List.length_cons, Nat.pow_succ]
    have := b.isLt
    omega

theorem wf_reset : Memory.wf State.reset.mem = true := rfl

end Sys2Proof.Laws
end

