-- ==== Sys2Proof/Laws/Agent.lean ====
section
/-!
SUPPORT. An agent's registers: what a write of a place changes, what results that take effect change.
-/

namespace Sys2Proof.Laws

open Machine

/-- `a` with the register files and the results under way of `b`. -/
def withFiles (a b : Agent) : Agent :=
  { a with
    sregs := b.sregs
    ctags := b.ctags
    vregs := b.vregs
    vtags := b.vtags
    preds := b.preds
    em := b.em
    lm := b.lm
    fsr := b.fsr
    mxc := b.mxc
    outst := b.outst
    gov := b.gov
    pend := b.pend }

theorem withFiles_self (a : Agent) : withFiles a a = a := rfl

theorem withFiles_trans {a b c : Agent} (h : b = withFiles a b) (h' : c = withFiles b c) : c = withFiles a c := by
  rw [h'] at *
  rw [h]
  rfl

theorem put_files (a : Agent) (l : Loc) (v : Word) : a.put l v = withFiles a (a.put l v) := by
  cases l <;> simp only [Agent.put] <;> first | rfl | (split <;> rfl)

theorem supersede_files (a : Agent) (n : Nat) (l : Loc) : a.supersede n l = withFiles a (a.supersede n l) := by
  unfold Agent.supersede
  split <;> rfl

theorem write_files (a : Agent) (l : Loc) (v : Word) : a.write l v = withFiles a (a.write l v) :=
  withFiles_trans (supersede_files a _ l) (put_files _ l v)

theorem writes_files (a : Agent) (ws : List (Loc × Word)) : a.writes ws = withFiles a (a.writes ws) := by
  unfold Agent.writes
  induction ws generalizing a with
  | nil => rfl
  | cons w ws ih => exact withFiles_trans (write_files a w.1 w.2) (ih _)

theorem takeEffect_files (a : Agent) (p : Pend) : a.takeEffect p = withFiles a (a.takeEffect p) :=
  withFiles_trans (supersede_files a _ _) (put_files _ _ _)

theorem foldEffect_files (a : Agent) (ps : List Pend) :
    ps.foldl Agent.takeEffect a = withFiles a (ps.foldl Agent.takeEffect a) := by
  induction ps generalizing a with
  | nil => rfl
  | cons p ps ih => exact withFiles_trans (takeEffect_files a p) (ih _)

/-- Results that become due change the register files and the book-keeping of results, nothing else. -/
theorem commit_files (a : Agent) (t : Nat) : a.commit t = withFiles a (a.commit t) := by
  unfold Agent.commit
  split
  · rfl
  · dsimp only
    exact withFiles_trans (b := { a with pend := a.pend.filter fun p => t < p.eff }) rfl (foldEffect_files _ _)

theorem settle_files (a : Agent) : a.settle = withFiles a a.settle :=
  withFiles_trans (b := { a with pend := [] }) rfl (foldEffect_files _ _)

@[simp] theorem commit_pcc (a : Agent) (t : Nat) : (a.commit t).pcc = a.pcc := by rw [commit_files]; rfl
@[simp] theorem commit_id (a : Agent) (t : Nat) : (a.commit t).id = a.id := by rw [commit_files]; rfl
@[simp] theorem commit_kind (a : Agent) (t : Nat) : (a.commit t).kind = a.kind := by rw [commit_files]; rfl
@[simp] theorem commit_xstat (a : Agent) (t : Nat) : (a.commit t).xstat = a.xstat := by rw [commit_files]; rfl
@[simp] theorem commit_nextOp (a : Agent) (t : Nat) : (a.commit t).nextOp = a.nextOp := by rw [commit_files]; rfl
@[simp] theorem commit_toks (a : Agent) (t : Nat) : (a.commit t).toks = a.toks := by rw [commit_files]; rfl
@[simp] theorem commit_ktk (a : Agent) (t : Nat) : (a.commit t).ktk = a.ktk := by rw [commit_files]; rfl
@[simp] theorem commit_wait (a : Agent) (t : Nat) : (a.commit t).wait = a.wait := by rw [commit_files]; rfl
@[simp] theorem commit_blocks (a : Agent) (t : Nat) : (a.commit t).blocks = a.blocks := by rw [commit_files]; rfl
@[simp] theorem settle_pcc (a : Agent) : a.settle.pcc = a.pcc := by rw [settle_files]; rfl
@[simp] theorem settle_id (a : Agent) : a.settle.id = a.id := by rw [settle_files]; rfl
@[simp] theorem settle_xstat (a : Agent) : a.settle.xstat = a.xstat := by rw [settle_files]; rfl
@[simp] theorem settle_nextOp (a : Agent) : a.settle.nextOp = a.nextOp := by rw [settle_files]; rfl

/-! ### Results in flight -/

theorem pendInsert_ne_nil (p : Pend) (l : List Pend) : pendInsert p l ≠ [] := by
  cases l with
  | nil => simp [pendInsert]
  | cons q r =>
    unfold pendInsert
    split <;> simp

theorem takeEffect_pend (a : Agent) (p : Pend) : (a.takeEffect p).pend = a.pend := by
  unfold Agent.takeEffect Agent.supersede
  cases p.loc <;> simp only [Agent.put] <;> split <;> rfl

theorem foldEffect_pend (a : Agent) (ps : List Pend) : (ps.foldl Agent.takeEffect a).pend = a.pend := by
  induction ps generalizing a with
  | nil => rfl
  | cons p ps ih => rw [List.foldl_cons, ih, takeEffect_pend]

/-- What is in flight after the results due at `t` have taken effect. -/
theorem commit_pend (a : Agent) (t : Nat) : (a.commit t).pend = a.pend.filter fun p => t < p.eff := by
  unfold Agent.commit
  split
  · rename_i h
    rw [List.isEmpty_iff.mp h]
    rfl
  · dsimp only
    rw [foldEffect_pend]

/-- The results that take effect, applied to the registers, depend on the files alone. -/
theorem takeEffect_congr (a : Agent) (p : Pend) (ps : List Pend) (n : Nat) (c : Cap) :
    ({ a with pend := ps, nextOp := n, pcc := c }).takeEffect p
      = { a.takeEffect p with pend := ps, nextOp := n, pcc := c } := by
  unfold Agent.takeEffect Agent.supersede
  cases p.loc <;> simp only [Agent.put] <;> split <;> rfl

theorem foldEffect_congr (a : Agent) (qs ps : List Pend) (n : Nat) (c : Cap) :
    qs.foldl Agent.takeEffect { a with pend := ps, nextOp := n, pcc := c }
      = { qs.foldl Agent.takeEffect a with pend := ps, nextOp := n, pcc := c } := by
  induction qs generalizing a with
  | nil => rfl
  | cons q qs ih => rw [List.foldl_cons, List.foldl_cons, takeEffect_congr, ih]

/-- Results due, as a fold, also when nothing is in flight. -/
theorem commit_eq (a : Agent) (t : Nat) :
    a.commit t = ((a.pend.filter fun p => p.eff ≤ t).foldl (fun l p => pendInsert p l) []).foldl Agent.takeEffect
      { a with pend := a.pend.filter fun p => t < p.eff } := by
  unfold Agent.commit
  split
  · rename_i h
    have h' := List.isEmpty_iff.mp h
    rw [h']
    show a = { a with pend := [] }
    rw [← h']
  · rfl

/-- Results that are put in flight with a later effect do not disturb what is due now. -/
theorem commit_later (a : Agent) (t eff : Nat) (ws : List (Loc × Word)) (c : Cap) (h : t < eff) :
    ({ a.later eff ws with pcc := c }).commit t
      = { a.commit t with
          pcc := c
          pend := (a.commit t).pend ++ ws.map (fun w => ⟨eff, a.nextOp, w.1, w.2⟩)
          nextOp := a.nextOp + 1 } := by
  have e1 : (a.pend ++ ws.map (fun w => (⟨eff, a.nextOp, w.1, w.2⟩ : Pend))).filter (fun p => p.eff ≤ t)
      = a.pend.filter fun p => p.eff ≤ t := by
    rw [List.filter_append]
    have : (ws.map (fun w => (⟨eff, a.nextOp, w.1, w.2⟩ : Pend))).filter (fun p => p.eff ≤ t) = [] := by
      rw [List.filter_eq_nil_iff]
      intro p hp
      obtain ⟨w, -, rfl⟩ := List.mem_map.mp hp
      simp only [decide_eq_true_eq]
      omega
    rw [this, List.append_nil]
  have e2 : (a.pend ++ ws.map (fun w => (⟨eff, a.nextOp, w.1, w.2⟩ : Pend))).filter (fun p => t < p.eff)
      = (a.pend.filter fun p => t < p.eff) ++ ws.map (fun w => ⟨eff, a.nextOp, w.1, w.2⟩) := by
    rw [List.filter_append]
    congr 1
    rw [List.filter_eq_self]
    intro p hp
    obtain ⟨w, -, rfl⟩ := List.mem_map.mp hp
    simpa using h
  rw [commit_pend, commit_eq, commit_eq]
  show (((a.pend ++ _).filter _).foldl _ []).foldl Agent.takeEffect
    { a with pend := (a.pend ++ _).filter _, nextOp := a.nextOp + 1, pcc := c } = _
  rw [e1, e2, foldEffect_congr]
  have := foldEffect_congr a ((a.pend.filter fun p => p.eff ≤ t).foldl (fun l p => pendInsert p l) [])
    (a.pend.filter fun p => t < p.eff) a.nextOp a.pcc
  rw [show ({ a with pend := a.pend.filter fun p => t < p.eff } : Agent)
    = { a with pend := a.pend.filter fun p => t < p.eff, nextOp := a.nextOp, pcc := a.pcc } from rfl, this]

/-! ### Writes of scalar places -/

/-- The places a scalar instruction's results go to: integer registers, tags, em. -/
def scalarLoc : Loc → Bool
  | .s _ | .ct _ | .em => true
  | _ => false

theorem getLsbD_one_shiftLeft (n i j : Nat) : (1#n <<< i).getLsbD j = decide (j = i ∧ i < n) := by
  rw [BitVec.getLsbD_shiftLeft, BitVec.getLsbD_one, Bool.eq_iff_iff]
  simp only [Bool.and_eq_true, Bool.not_eq_true', decide_eq_true_eq, decide_eq_false_iff_not]
  omega

theorem getLsbD_setBitTo {n : Nat} (v : BitVec n) (i j : Nat) (b : Bool) :
    (setBitTo v i b).getLsbD j = if j = i ∧ i < n then b else v.getLsbD j := by
  unfold setBitTo
  cases b
  · rw [if_neg (by decide), BitVec.getLsbD_and, BitVec.getLsbD_not, getLsbD_one_shiftLeft]
    by_cases h : j = i ∧ i < n
    · simp [h]
    · by_cases hj : j < n
      · simp [h, hj]
      · simp [h, BitVec.getLsbD_of_ge v j (by omega)]
  · rw [if_pos rfl, BitVec.getLsbD_or, getLsbD_one_shiftLeft]
    by_cases h : j = i ∧ i < n
    · simp [h]
    · simp [h]

@[simp] theorem raw_supersede (a : Agent) (n : Nat) (l l' : Loc) : (a.supersede n l).raw l' = a.raw l' := by
  unfold Agent.supersede
  split
  · rfl
  · cases l' <;> rfl

theorem raw_put_other (a : Agent) {l l' : Loc} (v : Word) (hs : scalarLoc l = true) (h : l' ∉ l.touched) :
    (a.put l v).raw l' = a.raw l' := by
  cases l with
  | s n =>
    simp only [Agent.put]
    split
    · rfl
    · cases l' with
      | s m =>
        have : m ≠ n := by
          rintro rfl
          exact h (by simp [Loc.touched])
        simp only [Agent.raw, sget_sput_ne _ _ _ this]
      | ct q =>
        have : q ≠ n / 4 := by
          rintro rfl
          exact h (by simp [Loc.touched])
        simp only [Agent.raw, getLsbD_setBitTo, this, false_and, if_false]
      | _ => rfl
  | ct q =>
    simp only [Agent.put]
    split
    · rfl
    · cases l' with
      | ct r =>
        have : r ≠ q := by
          rintro rfl
          exact h (by simp [Loc.touched])
        simp only [Agent.raw, getLsbD_setBitTo, this, false_and, if_false]
      | _ => rfl
  | em =>
    cases l' with
    | em => exact absurd (by simp [Loc.touched]) h
    | _ => rfl
  | _ => simp [scalarLoc] at hs

theorem raw_put_s (a : Agent) (n : Nat) (v : Word) :
    (a.put (.s n) v).raw (.s n) = if Loc.fixed (.s n) then a.raw (.s n) else v := by
  by_cases h : n < 4
  · simp [Agent.raw, Loc.fixed, h]
  · simp [Agent.put, Agent.raw, Loc.fixed, h, sget_sput_same]

theorem raw_put_s_tag (a : Agent) (n : Nat) (v : Word) (h : 4 ≤ n) : (a.put (.s n) v).raw (.ct (n / 4)) = 0 := by
  have h1 : ¬ n < 4 := by omega
  simp only [Agent.put, if_neg h1, Agent.raw, getLsbD_setBitTo, true_and]
  split
  · rfl
  · split
    · rfl
    · rename_i h2
      rw [BitVec.getLsbD_of_ge _ _ (by omega)]
      rfl

theorem raw_put_ct (a : Agent) (q : Nat) (v : Word) (hq : q < 40) (hv : v = 0 ∨ v = 1) :
    (a.put (.ct q) v).raw (.ct q) = if Loc.fixed (.ct q) then a.raw (.ct q) else v := by
  by_cases h : q = 0
  · simp [Agent.raw, Loc.fixed, h]
  · simp only [Agent.put, if_neg h, Agent.raw, Loc.fixed, getLsbD_setBitTo, hq, and_self, if_true]
    rcases hv with rfl | rfl <;> simp [bit01, h]

theorem raw_write_other (a : Agent) {l l' : Loc} (v : Word) (hs : scalarLoc l = true) (h : l' ∉ l.touched) :
    (a.write l v).raw l' = a.raw l' := by
  rw [Agent.write, raw_put_other _ _ hs h, raw_supersede]

theorem raw_writes_other (a : Agent) (ws : List (Loc × Word)) (l' : Loc)
    (hs : ∀ w ∈ ws, scalarLoc w.1 = true) (h : l' ∉ ws.flatMap fun w => w.1.touched) :
    (a.writes ws).raw l' = a.raw l' := by
  unfold Agent.writes
  induction ws generalizing a with
  | nil => rfl
  | cons w ws ih =>
    simp only [List.flatMap_cons, List.mem_append, not_or] at h
    rw [List.foldl_cons, ih _ (fun x hx => hs x (List.mem_cons_of_mem _ hx)) h.2,
      raw_write_other _ _ (hs w List.mem_cons_self) h.1]

theorem raw_write_s (a : Agent) (n : Nat) (v : Word) :
    (a.write (.s n) v).raw (.s n) = if Loc.fixed (.s n) then a.raw (.s n) else v := by
  rw [Agent.write, raw_put_s, raw_supersede]

theorem raw_write_ct (a : Agent) (q : Nat) (v : Word) (hq : q < 40) (hv : v = 0 ∨ v = 1) :
    (a.write (.ct q) v).raw (.ct q) = if Loc.fixed (.ct q) then a.raw (.ct q) else v := by
  rw [Agent.write, raw_put_ct _ _ _ hq hv, raw_supersede]

/-- Several results, each place written once and after every write that touches it. -/
theorem raw_writes_mem (a : Agent) (ws : List (Loc × Word))
    (hs : ∀ w ∈ ws, scalarLoc w.1 = true)
    (ho : ws.Pairwise fun w x => w.1 ∉ x.1.touched)
    (hv : ∀ w ∈ ws, ∀ b : Agent, (b.write w.1 w.2).raw w.1 = if w.1.fixed then b.raw w.1 else w.2)
    (hf : ∀ (b : Agent) (l : Loc), l.fixed = true → ∀ c : Agent, b.raw l = c.raw l) :
    ∀ w ∈ ws, (a.writes ws).raw w.1 = if w.1.fixed then a.raw w.1 else w.2 := by
  induction ws generalizing a with
  | nil => simp
  | cons x ws ih =>
    intro w hw
    have hp := List.pairwise_cons.mp ho
    show ((a.write x.1 x.2).writes ws).raw w.1 = _
    rcases List.mem_cons.mp hw with rfl | hw
    · have : w.1 ∉ ws.flatMap fun y => y.1.touched := by
        simp only [List.mem_flatMap, not_exists, not_and]
        exact fun y hy => hp.1 y hy
      rw [raw_writes_other _ _ _ (fun y hy => hs y (List.mem_cons_of_mem _ hy)) this, hv w List.mem_cons_self]
    · rw [ih (a.write x.1 x.2) (fun y hy => hs y (List.mem_cons_of_mem _ hy)) hp.2
        (fun y hy => hv y (List.mem_cons_of_mem _ hy)) w hw]
      by_cases h : w.1.fixed = true
      · simp only [h, if_true]
        exact hf _ _ h _
      · rw [if_neg h, if_neg h]

/-- A hard-wired place reads the same in every agent (03 R58, R61). -/
theorem raw_fixed (a b : Agent) (l : Loc) (h : l.fixed = true) : a.raw l = b.raw l := by
  cases l <;> simp_all [Loc.fixed, Agent.raw]

end Sys2Proof.Laws
end

