-- ==== Sys2Proof/Laws/Issue.lean ====
section
/-!
SUPPORT. One lemma for each shared operation of the scalar stream: what the gate lets through, what an advance, a
jump, an ending with results, a trap do.
-/

namespace Sys2Proof.Laws

open Machine Claims

/-- An instruction that is ready passes the gate. -/
theorem gate_ready {s : State} {reads : List Loc} (h : Ready s reads) (k : Out) : s.gate reads k = k := by
  unfold State.gate
  by_cases hs : s.ag.isSys = true
  · have : reads.any s.ag.awaited = false := by
      rw [List.any_eq_false]
      intro l hl
      simp [h.1 hs l hl]
    simp [hs, this]
  · have hs' : s.ag.isSys = false := by simpa using hs
    simp only [hs', Bool.false_eq_true, if_false]
    by_cases hc : s.ag.hchk = true
    · have : reads.find? s.ag.unsettled = none := by
        rw [List.find?_eq_none]
        intro l hl
        simp [h.2 hs' hc l hl]
      simp [hc, this]
    · simp [hc]

/-- As `gate_ready`, for what an instruction answers. -/
theorem gate_next {s : State} {reads : List Loc} (h : Ready s reads) {k : Out} {P : State → Prop}
    (hk : ∃ t, k = .next t ∧ P t) : ∃ t, s.gate reads k = .next t ∧ P t := by
  rw [gate_ready h]
  exact hk

theorem ready_nil (s : State) : Ready s [] := ⟨fun _ l h => by simp at h, fun _ _ l h => by simp at h⟩

theorem ready_mono {s : State} {r r' : List Loc} (h : Ready s r) (hs : ∀ l ∈ r', l ∈ r) : Ready s r' :=
  ⟨fun a l hl => h.1 a l (hs l hl), fun a b l hl => h.2 a b l (hs l hl)⟩

/-! ### Issue and clk -/

theorem bump_ag (s : State) (a : Agent) : ({ s with ag := a } : State).bump = { s.bump with ag := a } := rfl

theorem bump_only (s : State) : s.bump = { s with issues := s.issues + 1 } := rfl

@[simp] theorem bump_ag_eq (s : State) : s.bump.ag = s.ag := rfl

@[simp] theorem bump_clk (s : State) : s.bump.clk = s.clk := rfl

/-- A tick after the agent in focus has changed. -/
theorem tick_ag (s : State) (a : Agent) :
    ({ s with ag := a } : State).tick = { s.bump with ag := a.commit (s.clk + 1) } := rfl

theorem tick_eq (s : State) : s.tick = { s.bump with ag := s.ag.commit (s.clk + 1) } := rfl

theorem tick_ag_eq (s : State) : s.tick.ag = s.ag.commit (s.clk + 1) := rfl

theorem commit_pcc_congr (a : Agent) (c : Cap) (t : Nat) :
    ({ a with pcc := c } : Agent).commit t = { a.commit t with pcc := c } := by
  rw [commit_eq, commit_eq]
  have h1 := foldEffect_congr a ((a.pend.filter fun p => p.eff ≤ t).foldl (fun l p => pendInsert p l) [])
    (a.pend.filter fun p => t < p.eff) a.nextOp c
  have h2 := foldEffect_congr a ((a.pend.filter fun p => p.eff ≤ t).foldl (fun l p => pendInsert p l) [])
    (a.pend.filter fun p => t < p.eff) a.nextOp a.pcc
  show List.foldl _ ({ a with pend := a.pend.filter fun p => t < p.eff, nextOp := a.nextOp, pcc := c }) _ = _
  rw [h1]
  show _ = { List.foldl Agent.takeEffect
    ({ a with pend := a.pend.filter fun p => t < p.eff, nextOp := a.nextOp, pcc := a.pcc }) _ with pcc := c }
  rw [h2]

/-- The stream goes on at `c`, and the instruction has issued. -/
theorem jumpTo_eq (s : State) (c : Cap) : s.jumpTo c = { s.tick with ag := { s.tick.ag with pcc := c } } := by
  unfold State.jumpTo
  rw [tick_ag, commit_pcc_congr, tick_eq]

/-- PC + n, and the instruction has issued. -/
theorem advance_eq (s : State) (n : Nat) :
    s.advance n = { s.tick with ag := { s.tick.ag with pcc := pccPlus s.ag n } } := jumpTo_eq s _

/-! ### Results -/

theorem sameBut_writes (a : Agent) (ws : List (Loc × Word)) (hs : ∀ w ∈ ws, scalarLoc w.1 = true) :
    SameBut a (a.writes ws) := by
  unfold Agent.writes
  induction ws generalizing a with
  | nil => rfl
  | cons w ws ih =>
    have h1 : SameBut a (a.write w.1 w.2) := by
      have hw := hs w List.mem_cons_self
      obtain ⟨l, v⟩ := w
      unfold SameBut Agent.write Agent.supersede
      cases l with
      | s n =>
        simp only [Agent.put]
        split <;> split <;> rfl
      | ct q =>
        simp only [Agent.put]
        split <;> split <;> rfl
      | em =>
        simp only [Agent.put]
        split <;> rfl
      | _ => simp [scalarLoc] at hw
    have h2 := ih (a.write w.1 w.2) fun x hx => hs x (List.mem_cons_of_mem _ hx)
    unfold SameBut at h1 h2 ⊢
    rw [List.foldl_cons, h2, h1]

/-- The writes of an instruction are well behaved: scalar places, none spoilt by a later one, each reading back. -/
structure Good (ws : List (Loc × Word)) : Prop where
  places : ∀ w ∈ ws, scalarLoc w.1 = true
  order : ws.Pairwise fun w x => w.1 ∉ x.1.touched
  back : ∀ w ∈ ws, ∀ b : Agent, (b.write w.1 w.2).raw w.1 = if w.1.fixed then b.raw w.1 else w.2

theorem good_nil : Good [] := ⟨by simp, .nil, by simp⟩

theorem good_s (n : Nat) (v : Word) : Good [(.s n, v)] := by
  refine ⟨by simp [scalarLoc], List.pairwise_singleton _ _, ?_⟩
  intro w hw b
  rw [List.mem_singleton.mp hw]
  exact raw_write_s b n v

theorem good_pair (n m : Nat) (v w : Word) (h : n ≠ m) : Good [(.s n, v), (.s m, w)] := by
  refine ⟨by simp [scalarLoc], ?_, ?_⟩
  · simp [Loc.touched, h]
  · intro x hx b
    simp only [List.mem_cons, List.not_mem_nil, or_false] at hx
    rcases hx with rfl | rfl <;> exact raw_write_s b _ _

theorem bit01_or (b : Bool) : bit01 b = 0 ∨ bit01 b = 1 := by cases b <;> simp [bit01]

theorem good_cap (q : Nat) (c : Cap) (hq : q < 40) : Good (capWrites q c) := by
  refine ⟨by simp [capWrites, scalarLoc], ?_, ?_⟩
  · simp [capWrites, Loc.touched]
  · intro x hx b
    simp only [capWrites, List.mem_cons, List.not_mem_nil, or_false] at hx
    rcases hx with rfl | rfl | rfl | rfl | rfl
    · exact raw_write_s b _ _
    · exact raw_write_s b _ _
    · exact raw_write_s b _ _
    · exact raw_write_s b _ _
    · exact raw_write_ct b q _ hq (bit01_or _)

/-- A jump with results: the stream goes on at `c`, the results are there, nothing else has changed. -/
theorem jump_retired (s : State) (c : Cap) (ws : List (Loc × Word)) (hg : Good ws) :
    Retired s ((s.jumpTo c).wr ws) c ws := by
  rw [jumpTo_eq]
  have hb := sameBut_writes { s.tick.ag with pcc := c } ws hg.places
  have hf := writes_files { s.tick.ag with pcc := c } ws
  refine ⟨⟨?_, ?_⟩, rfl, ?_, ?_, ?_, ?_⟩
  · show ({ s.tick with ag := _ } : State) = _
    rw [tick_eq, bump_only]
    rfl
  · intro a
    show readByte s.tick.mem a = _
    rw [tick_eq, bump_only]
  · unfold SameBut at hb ⊢
    show Agent.writes _ ws = _
    rw [hb]
    rfl
  · show (Agent.writes _ ws).pcc = c
    rw [hf]
    rfl
  · intro l hl
    show (Agent.writes _ ws).raw l = _
    rw [raw_writes_other _ _ _ hg.places hl]
    cases l <;> rfl
  · intro w hw
    show (Agent.writes _ ws).raw w.1 = _
    rw [raw_writes_mem _ _ hg.places hg.order hg.back (fun b l h c => raw_fixed b c l h) w hw]
    have : ({ s.tick.ag with pcc := c } : Agent).raw w.1 = s.tick.ag.raw w.1 := by
      cases w.1 <;> rfl
    rw [this]

/-- The end of an instruction whose results are there for the next one. -/
theorem done_retired (s : State) (ws : List (Loc × Word)) (hg : Good ws) :
    ∃ t, s.done ws = .next t ∧ Retired s t (pccPlus s.ag 4) ws :=
  ⟨_, rfl, jump_retired s _ ws hg⟩

/-- The end of an instruction whose result is in flight for `lat` clk. -/
theorem later_inflight (s : State) (lat : Nat) (ws : List (Loc × Word)) (h : 1 < lat) :
    InFlight s (({ s with ag := s.ag.later (s.clk + lat) ws }).advance 4) lat ws := by
  have h1 := commit_later s.ag (s.clk + 1) (s.clk + lat) ws (pccPlus s.ag 4) (by omega)
  refine ⟨⟨rfl, fun _ => rfl⟩, rfl, ?_⟩
  rw [tick_ag_eq]
  exact h1

/-- The end of an instruction with a result of latency `lat`. -/
theorem doneIn_result (s : State) (lat : Nat) (ws : List (Loc × Word)) (hl : 1 ≤ lat) (hg : Good ws) :
    ∃ t, s.doneIn lat ws = .next t ∧ Result s t lat ws := by
  unfold State.doneIn Result
  by_cases h : s.ag.isSys = true ∨ lat = 1
  · have : (s.ag.isSys || lat == 1) = true := by simpa using h
    rw [if_pos this]
    simp only [h, if_true]
    exact done_retired s ws hg
  · have : (s.ag.isSys || lat == 1) = false := by simpa using h
    simp only [this, Bool.false_eq_true, if_false, h]
    exact ⟨_, rfl, later_inflight s lat ws (by omega)⟩

/-- The end of an instruction of latency "next instruction". -/
theorem done_result (s : State) (ws : List (Loc × Word)) (hg : Good ws) :
    ∃ t, s.done ws = .next t ∧ Result s t 1 ws := by
  obtain ⟨t, h1, h2⟩ := done_retired s ws hg
  exact ⟨t, h1, by simpa [Result] using h2⟩

theorem regForm_result (s : State) (lat d a b : Nat) (f : Word → Word → Word) (hl : 1 ≤ lat)
    (h : Ready s [.s a, .s b]) :
    ∃ t, s.regForm lat d a b f = .next t ∧ Result s t lat [(.s d, f (s.rs a) (s.rs b))] := by
  unfold State.regForm
  rw [gate_ready h]
  exact doneIn_result s lat _ hl (good_s _ _)

theorem oneForm_result (s : State) (lat d a : Nat) (f : Word → Word) (hl : 1 ≤ lat) (h : Ready s [.s a]) :
    ∃ t, s.oneForm lat d a f = .next t ∧ Result s t lat [(.s d, f (s.rs a))] := by
  unfold State.oneForm
  rw [gate_ready h]
  exact doneIn_result s lat _ hl (good_s _ _)

theorem pairForm_result (s : State) (lat d a b : Nat) (f : DWord → DWord → DWord) (hl : 1 ≤ lat)
    (h : Ready s [.s a, .s (a + 1), .s b, .s (b + 1)]) :
    ∃ t, s.pairForm lat d a b f = .next t ∧ Result s t lat (pairWrites d (f (s.rp a) (s.rp b))) := by
  unfold State.pairForm
  rw [gate_ready h]
  exact doneIn_result s lat _ hl (good_pair _ _ _ _ (by omega))

end Sys2Proof.Laws
end

