-- ==== Sys2Proof/Laws/Scalar.lean ====
section
/-!
SUPPORT. One lemma for each further shared operation of the scalar stream: an operation that enters those under way, the
privilege checks, waits on tokens, the masks, the control registers, an advance with another agent.
-/

namespace Sys2Proof.Laws

open Machine Claims

/-- An advance with another agent. -/
theorem after_eq (v : State) (a : Agent) : ({ v with ag := a } : State).advance 4 = after v a :=
  tick_ag v (a.setPc (a.pc + 4))

/-- A jump with another agent. -/
theorem afterAt_eq (v : State) (a : Agent) (c : Cap) : ({ v with ag := a } : State).jumpTo c = afterAt v c a :=
  tick_ag v { a with pcc := c }

theorem advance_self (v : State) : v.advance 4 = after v v.ag := after_eq v v.ag

theorem priv_of {s : State} (h : MayKernel s) : s.ag.privileged = true := by
  simp [Agent.privileged, h.1, h.2]

/-- The kernel class issues where it may. -/
theorem kernel_of {s : State} (h : MayKernel s) (k : Out) : s.kernel k = k := by
  simp [State.kernel, priv_of h]

theorem monitor_of {s : State} (h : MayKernel s) (hm : s.ag.mode = 2) (k : Out) : s.monitor k = k := by
  simp [State.monitor, priv_of h, hm]

/-- The threshold test of a token, as a signed comparison (03 R74). -/
theorem met_iff (c : BitVec 16) (thr : Nat) : tokenMet c thr = true ↔ (c - BitVec.ofNat 16 thr).toInt ≥ 0 := by
  unfold tokenMet
  rw [BitVec.msb_eq_toInt]
  simp

/-- supersede on outst. -/
def killDests (p : Pend) (o : Op) : Op :=
  if p.loc.gathers then o else
  if o.num < p.seq && p.loc.touched.any o.dests.contains then { o with dead := p.loc.touched ++ o.dead } else o

theorem killDests_dead (p : Pend) (o : Op) : ∃ d, killDests p o = { o with dead := d } := by
  unfold killDests
  split
  · exact ⟨o.dead, rfl⟩
  · split
    · exact ⟨_, rfl⟩
    · exact ⟨o.dead, rfl⟩

theorem killDests_eq (p : Pend) (o : Op) (d : List Loc) : ∃ d', killDests p { o with dead := d } = { o with dead := d' } :=
  killDests_dead p _

theorem takeEffect_outst (a : Agent) (p : Pend) (os : List Op) (n : Nat) :
    ({ a with outst := os, nextOp := n }).takeEffect p
      = { a.takeEffect p with outst := os.map (killDests p), nextOp := n } := by
  unfold Agent.takeEffect Agent.supersede killDests
  cases p.loc <;> simp [Agent.put, Loc.gathers] <;> split <;> simp

theorem outst_takeEffect (a : Agent) (p : Pend) : (a.takeEffect p).outst = a.outst.map (killDests p) := by
  have := congrArg Agent.outst (takeEffect_outst a p a.outst a.nextOp)
  exact this

theorem fold_outst (a : Agent) (ps : List Pend) (x : Op) (d : List Loc) (n : Nat) :
    ∃ d', ps.foldl Agent.takeEffect { a with outst := a.outst ++ [{ x with dead := d }], nextOp := n }
      = { ps.foldl Agent.takeEffect a with
          outst := (ps.foldl Agent.takeEffect a).outst ++ [{ x with dead := d' }], nextOp := n } := by
  induction ps generalizing a d with
  | nil => exact ⟨d, rfl⟩
  | cons p ps ih =>
    obtain ⟨d1, h1⟩ := killDests_eq p x d
    rw [List.foldl_cons, List.foldl_cons, takeEffect_outst]
    obtain ⟨d2, h2⟩ := ih (a.takeEffect p) d1
    refine ⟨d2, ?_⟩
    rw [← h2, outst_takeEffect, List.map_append, List.map_cons, List.map_nil, h1]

/-- Results that become due do not disturb an operation that has just entered. -/
theorem commit_withOp (a : Agent) (t : Nat) (x : Op) (hx : x.dead = []) (hn : x.num = a.nextOp) :
    ∃ dead, ({ a with outst := a.outst ++ [x], nextOp := a.nextOp + 1 }).commit t = withOp (a.commit t) x dead := by
  rw [commit_eq, commit_eq]
  obtain ⟨d, h⟩ := fold_outst { a with pend := a.pend.filter fun p => t < p.eff }
    ((a.pend.filter fun p => p.eff ≤ t).foldl (fun l p => pendInsert p l) []) x [] (a.nextOp + 1)
  refine ⟨d, ?_⟩
  have e : x = { x with dead := [] } := by rw [← hx]
  unfold withOp
  rw [← hn] at h ⊢
  rw [← h, ← e]

/-- An operation that an instruction of the scalar stream leaves under way. -/
theorem enters (v : State) (ord scope tk kind dests) (path : Path) (lane : Bool) :
    Enters v ((v.enqueue lane path ord scope tk kind dests).advance 4)
      ⟨v.ag.nextOp, lane, path, ord, scope, v.ag.tokenOpt tk, kind, dests.flatMap Loc.touched, [], false, false⟩ := by
  let x : Op := ⟨v.ag.nextOp, lane, path, ord, scope, v.ag.tokenOpt tk, kind, dests.flatMap Loc.touched, [], false, false⟩
  obtain ⟨d, h⟩ := commit_withOp { v.ag with pcc := pccPlus v.ag 4 } (v.clk + 1) x rfl rfl
  refine ⟨rfl, d, ?_⟩
  show Agent.commit _ _ = _
  rw [tick_ag_eq, ← commit_pcc_congr]
  exact h

/-- A read of em or lm that nothing governs returns the mask. -/
theorem rdMask_of {s : State} {l : Loc} (hg : ∀ g ∈ s.ag.gov, g.loc ≠ l) :
    s.rdMask l = s.ag.raw l := by
  have hr : ∀ k, s.ag.rdAt s.fresh k l = s.ag.raw l := by
    intro k
    unfold Agent.rdAt
    have : s.ag.gov.filter (fun g => g.loc == l) = [] := by
      rw [List.filter_eq_nil_iff]
      intro g hg'
      simpa using hg g hg'
    rw [this]
    simp
  unfold State.rdMask
  simp only [hr]
  have : ∀ (n : Nat), n ≤ 32 → ∀ j < 32, ((List.range n).foldl (fun (m : BitVec 32) i => setBitTo m i ((s.ag.raw l).getLsbD i)) 0).getLsbD j
      = if j < n then (s.ag.raw l).getLsbD j else false := by
    intro n
    induction n with
    | zero => intro _ j hj; simp
    | succ n ih =>
      intro hn j hj
      rw [List.range_succ, List.foldl_append]
      simp only [List.foldl_cons, List.foldl_nil]
      rw [getLsbD_setBitTo, ih (by omega) j hj]
      by_cases h : j = n
      · subst h; simp; omega
      · have h1 : ¬ (j = n ∧ n < 32) := by omega
        rw [if_neg h1]
        by_cases h2 : j < n
        · rw [if_pos h2, if_pos (by omega)]
        · rw [if_neg h2, if_neg (by omega)]
  apply BitVec.eq_of_getLsbD_eq
  intro i hi
  rw [this 32 (by omega) i hi, if_pos hi]

theorem pair_of (d : Nat) (v : DWord) : pairWrites d v = pairOfNat d v.toNat := by
  simp [pairWrites, pairOfNat, loWord, hiWord]

theorem ctlr_eq {s : State} {d n : Nat} (h : MayKernel s) (ha : ctlAbsent s.ag n = false) :
    exec (.ctlr d n) s = s.done (s.ctlRead n d) := by
  show s.kernel _ = _
  rw [kernel_of h, ha]
  rfl

theorem tokenId_eq (a : Agent) (n : Nat) : a.tokenId n = Claims.tokenOf a n := by
  simp [Agent.tokenId, Claims.tokenOf]

theorem lt_of_met {c : BitVec 16} {thr : Nat} (h : (c - BitVec.ofNat 16 thr).toInt < 0) : tokenMet c thr = false := by
  cases h' : tokenMet c thr
  · rfl
  · have := (met_iff c thr).mp h'; omega

theorem waitToken_met {s : State} {n thr : Nat} (h : (s.ag.tok n - BitVec.ofNat 16 thr).toInt ≥ 0) :
    s.waitToken n thr = .next (after s (s.ag.seenTok n)) := by
  unfold State.waitToken
  rw [if_pos ((met_iff _ _).mpr h), after_eq]

theorem waitToken_not {s : State} {n thr : Nat} (h : (s.ag.tok n - BitVec.ofNat 16 thr).toInt < 0) :
    s.waitToken n thr = .next { s with ag := { s.ag with wait := .token n thr } } := by
  unfold State.waitToken
  rw [if_neg (by simp [lt_of_met h])]

theorem thr16 (x : Word) : x.setWidth 16 = BitVec.ofNat 16 (x.toNat % 2 ^ 16) := by
  apply BitVec.eq_of_toNat_eq; simp

theorem ctlw_eq {s : State} {d n : Nat} (h : MayKernel s) (ha : ctlAbsent s.ag n = false)
    (hr : Ready s (ctlLocs n d)) (hn : n ≠ 0x019) :
    exec (.ctlw d n) s = .next (after s (s.ctlWrite n d)) := by
  show execCtlw d n s = _
  unfold execCtlw
  rw [kernel_of h, ha, ← after_eq]
  simp only [Bool.false_eq_true, if_false]
  rw [gate_ready hr, if_neg hn]

theorem tokenOpt_eq (a : Agent) (tk : Option Nat) : a.tokenOpt tk = tk.map (Claims.tokenOf a) := by
  cases tk <;> simp [Agent.tokenOpt, tokenId_eq]

theorem keeps_not {a : Agent} (h : a.domain = 0 ∨ a.mode ≠ 1) : a.keepsHandler = false := by
  rcases h with h | h <;> simp [Agent.keepsHandler, h]

theorem keeps {a : Agent} (h : a.domain ≠ 0 ∧ a.mode = 1) : a.keepsHandler = true := by
  simp [Agent.keepsHandler, h]

end Sys2Proof.Laws
end

