-- ==== Sys2Proof/Laws/Events.lean ====
section
/-!
SUPPORT. Steps of one agent among several: bringing it into focus and back, changing it where it stands.
-/

namespace Sys2Proof.Laws

open Machine Claims

theorem focusOn_eq (s : State) (id : Nat) : s.focusOn id = { s with ag := (s.focusOn id).ag, rest := (s.focusOn id).rest } := by
  unfold State.focusOn
  split
  · rfl
  · split <;> rfl

theorem agent_id {s : State} {id : Nat} {a : Agent} (h : s.agent? id = some a) : a.id = id := by
  unfold State.agent? at h
  split at h
  · cases h; assumption
  · simpa using List.find?_some h

theorem focusOn_ag {s : State} {id : Nat} {a : Agent} (h : s.agent? id = some a) : (s.focusOn id).ag = a := by
  unfold State.agent? at h
  unfold State.focusOn
  split at h
  · rename_i hi; rw [if_pos hi]; cases h; rfl
  · rename_i hi; rw [if_neg hi, h]

theorem find_filter_ne (l : List Agent) (id k : Nat) (h : k ≠ id) :
    (l.filter fun b => b.id != id).find? (fun a => a.id == k) = l.find? fun a => a.id == k := by
  induction l with
  | nil => rfl
  | cons x l ih =>
    by_cases hx : x.id = id
    · rw [List.filter_cons_of_neg (by simp [hx]), ih, List.find?_cons_of_neg]
      simp only [beq_iff_eq]; omega
    · rw [List.filter_cons_of_pos (by simp [hx])]
      simp only [List.find?_cons, ih]

theorem focusOn_agent (s : State) (id k : Nat) : (s.focusOn id).agent? k = s.agent? k := by
  unfold State.focusOn
  split
  · rfl
  · rename_i hi
    split
    · rfl
    · rename_i a ha
      have hid : a.id = id := by simpa using List.find?_some ha
      unfold State.agent?
      dsimp only
      by_cases hk : k = id
      · subst hk; rw [if_pos hid, if_neg hi, ha]
      · rw [if_neg (by omega), List.find?_cons, find_filter_ne _ _ _ hk]
        by_cases h2 : s.ag.id = k
        · simp [h2]
        · rw [if_neg h2]
          have : (s.ag.id == k) = false := by simpa using h2
          rw [this]

theorem withAg_agent (s : State) (b : Agent) (k : Nat) (h : b.id = s.ag.id) :
    ({ s with ag := b } : State).agent? k = if k = s.ag.id then some b else s.agent? k := by
  unfold State.agent?
  dsimp only
  rw [h]
  by_cases hk : k = s.ag.id
  · simp [hk]
  · rw [if_neg (Ne.symm hk), if_neg (Ne.symm hk), if_neg hk]

/-- A step of one agent through focus. -/
theorem onAgent_replaced {s : State} {id : Nat} {a b : Agent} {f : State → State} (h : s.agent? id = some a)
    (hf : f (s.focusOn id) = { s.focusOn id with ag := b }) (hb : b.id = id) : Replaced s (s.onAgent id f) id b := by
  unfold State.onAgent
  rw [h, hf]
  simp only [Option.isNone_some, Bool.false_eq_true, ↓reduceIte]
  have hg : (s.focusOn id).ag.id = id := by rw [focusOn_ag h]; exact agent_id h
  refine ⟨?_, ?_, ?_⟩
  · rw [focusOn_eq, focusOn_eq s id]
  · rw [focusOn_agent, withAg_agent _ _ _ (by rw [hb, hg]), if_pos hg.symm]
  · intro k hk
    rw [focusOn_agent, withAg_agent _ _ _ (by rw [hb, hg]), if_neg (by rw [hg]; exact hk), focusOn_agent]

theorem updAgent_replaced {s : State} {id : Nat} {a b : Agent} {f : Agent → Agent} (h : s.agent? id = some a)
    (hf : f a = b) (hb : ∀ x, (f x).id = x.id) : Replaced s (s.updAgent id f) id b := by
  unfold State.updAgent
  unfold State.agent? at h
  by_cases hi : s.ag.id = id
  · rw [if_pos hi] at h ⊢
    cases h
    subst hf
    have hb' := hb s.ag
    refine ⟨rfl, ?_, ?_⟩
    · rw [withAg_agent _ _ _ hb', if_pos hi.symm]
    · intro k hk; rw [withAg_agent _ _ _ hb', if_neg (by rw [hi]; exact hk)]
  · rw [if_neg hi] at h ⊢
    refine ⟨rfl, ?_, ?_⟩
    · unfold State.agent?
      rw [if_neg hi]
      dsimp only
      subst hf
      generalize s.rest = r at h
      induction r with
      | nil => simp at h
      | cons x r ih =>
        rw [List.map_cons, List.find?_cons]
        rw [List.find?_cons] at h
        by_cases hx : x.id = id
        · simp only [hx, beq_self_eq_true, Option.some.injEq] at h
          subst h
          simp [hx, hb]
        · have : (x.id == id) = false := by simpa using hx
          rw [this] at h
          simp only [hx, ↓reduceIte, this]
          exact ih h
    · intro k hk
      unfold State.agent?
      dsimp only
      by_cases h2 : s.ag.id = k
      · rw [if_pos h2, if_pos h2]
      · rw [if_neg h2, if_neg h2]
        clear h
        generalize s.rest = r
        induction r with
        | nil => rfl
        | cons x r ih =>
          rw [List.map_cons, List.find?_cons, List.find?_cons]
          by_cases hx : x.id = id
          · have h3 : (x.id == k) = false := by simp [hx]; omega
            simp only [hx, ↓reduceIte, hb, ih]
            rw [hx] at h3
            rw [h3]
          · simp only [hx, ↓reduceIte, ih]

end Sys2Proof.Laws
end

