-- ==== Sys2Proof/Laws/Lane.lean ====
section
/-!
SUPPORT. One lemma for each shared operation of the lane stream: what its issue lets through, what its end leaves.
-/

namespace Sys2Proof.Laws

open Machine Claims

/-! ### Results that become due, beside changes outside the register files -/

theorem takeEffect_with (x a : Agent) (p : Pend) : (withFiles x a).takeEffect p = withFiles x (a.takeEffect p) := by
  unfold Agent.takeEffect Agent.supersede
  cases p.loc <;> simp only [Agent.put, withFiles] <;> split <;> rfl

theorem foldEffect_with (x a : Agent) (ps : List Pend) :
    ps.foldl Agent.takeEffect (withFiles x a) = withFiles x (ps.foldl Agent.takeEffect a) := by
  induction ps generalizing a with
  | nil => rfl
  | cons p ps ih => rw [List.foldl_cons, List.foldl_cons, takeEffect_with, ih]

/-- What becomes due changes the register files alone, whatever the rest of the agent is. -/
theorem commit_with (x a : Agent) (t : Nat) : (withFiles x a).commit t = withFiles x (a.commit t) := by
  rw [commit_eq, commit_eq]
  exact foldEffect_with x { a with pend := a.pend.filter fun p => t < p.eff } _

/-! ### The head block -/

/-- What the end of a lane instruction may change besides latches and results. -/
def goesOnWith (a n : Agent) : Agent :=
  { a with
    blocks := n.blocks
    replays := n.replays
    focusStack := n.focusStack
    toks := n.toks
    ktk := n.ktk
    sinks := n.sinks }

theorem nextLane_eq (a : Agent) : a.nextLane = goesOnWith a a.nextLane := by
  unfold Agent.nextLane
  split
  · rfl
  · dsimp only
    split
    · rfl
    · split
      · unfold Agent.post
        split
        · rfl
        · unfold Agent.setTok
          dsimp only
          split <;> rfl
      · rfl

theorem post_cong (a : Agent) (ps : List Pend) (n : Nat) (tk : Option Nat) :
    ({ a with pend := ps, nextOp := n } : Agent).post tk = { a.post tk with pend := ps, nextOp := n } := by
  cases tk with
  | none => rfl
  | some k =>
    unfold Agent.post Agent.setTok
    dsimp only
    split <;> rfl

/-- The end of a lane instruction does not look at results in flight. -/
theorem nextLane_cong (a : Agent) (ps : List Pend) (n : Nat) :
    ({ a with pend := ps, nextOp := n } : Agent).nextLane = { a.nextLane with pend := ps, nextOp := n } := by
  unfold Agent.nextLane
  dsimp only
  split
  · rfl
  · split
    · rfl
    · split
      · rename_i b rest _ _
        exact post_cong
          { a with
            focusStack := a.focusStack.map fun e => { e with n := e.n + 1 }
            blocks := rest } ps n b.tk
      · rfl

/-! ### The issue -/

/-- A lane instruction that is ready has its effect. -/
theorem laneIssue_ready {s : State} {h : LaneHdr} {names : List Nat} {reads : List LaneRead}
    (hr : LaneReady s h names reads) (k : BitVec 32 → Flags → Out) :
    s.laneIssue h names reads k = k (s.laneActive h) (lostFlag s h reads) := by
  unfold State.laneIssue lostFlag
  dsimp only
  have h1 : names.find? (fun n => decide (s.ag.budget ≤ n)) = none := by
    rw [List.find?_eq_none]
    intro n hn
    have := hr.1 n hn
    simp
    omega
  rw [h1]
  dsimp only
  have h2 : (if s.ag.hchk then (LaneRead.p h.gp :: reads).findSome? (s.laneHazard (s.laneActive h)) else none) = none := by
    cases hc : s.ag.hchk
    · rfl
    · rw [if_pos rfl, List.findSome?_eq_none_iff]
      exact hr.2 hc
  rw [h2]
  dsimp only
  congr 1
  unfold flagIf flagLL
  by_cases ha : s.laneActive h ≠ 0 ∧ reads.any s.readsLost = true
  · rw [if_pos ha, if_pos (by simp only [Bool.and_eq_true, decide_eq_true_eq]; exact ha)]
  · rw [if_neg ha, if_neg (by simpa using ha)]

/-- As `laneIssue_ready`, for an instruction whose registers also lie below 1,024. -/
theorem laneReach_ready {s : State} {h : LaneHdr} {names : List Nat} (hn : ∀ n ∈ names, n < 1024) (k : Out) :
    s.laneReach h names k = k := by
  unfold State.laneReach
  rw [if_neg]
  simp only [List.any_eq_true, decide_eq_true_eq, not_exists, not_and]
  intro n h1
  have := hn n h1
  omega

/-! ### The end with results -/

theorem bump_onlyFocus (s : State) (a : Agent) : OnlyFocus s ({ s with ag := a } : State).bump := ⟨rfl, fun _ => rfl⟩

/-- A lane instruction ends with results of fixed latency. -/
theorem laneDone_ends (s : State) (lat : Nat) (ws : List (Loc × Word)) (fl : Flags) (res : Option Latch) :
    ∃ t, s.laneDone lat ws fl res = .next t
      ∧ LaneEnds s t lat (if fl = 0 then ws else ws ++ [(.fsr, fl)]) res := by
  unfold State.laneDone
  dsimp only
  generalize (if fl = 0 then ws else ws ++ [(Loc.fsr, fl)]) = all
  obtain ⟨Y, hY⟩ : ∃ Y, Y = (if all.isEmpty = true then s.ag else s.ag.later (s.clk + lat) all).nextLane := ⟨_, rfl⟩
  rw [← hY]
  have hA : (if all.isEmpty = true then s.ag else s.ag.later (s.clk + lat) all)
      = { s.ag with
          pend := s.ag.pend ++ all.map fun w => ⟨s.clk + lat, s.ag.nextOp, w.1, w.2⟩
          nextOp := if all = [] then s.ag.nextOp else s.ag.nextOp + 1 } := by
    cases all with
    | nil => simp
    | cons w ws => simp [Agent.later]
  rw [hA, nextLane_cong, nextLane_eq] at hY
  have hpn : Y.pairing = s.ag.pairing := by rw [hY]; rfl
  unfold LaneEnds
  rw [← hpn]
  cases hpair : Y.pairing <;> dsimp only
  · refine ⟨_, rfl, bump_onlyFocus s _, rfl, ?_⟩
    subst hY
    rfl
  · refine ⟨_, rfl, ⟨rfl, fun _ => rfl⟩, rfl, ?_⟩
    subst hY
    rfl
  · refine ⟨_, rfl, bump_onlyFocus s _, rfl, ?_⟩
    subst hY
    rfl

end Sys2Proof.Laws
end

