-- ==== Sys2Proof/Laws/LaneForms.lean ====
section
/-!
SUPPORT. One lemma for each form of the lane stream's computations, and what the shared numeric operations of them
compute, in plain arithmetic.
-/

namespace Sys2Proof.Laws

open Machine Claims

/-- A compute form completes. -/
theorem computes_ends {s : State} {h : LaneHdr} {names reads} {lat : Nat} (pair : Bool) (d : Dst) {f g : Nat → DWord × Flags}
    (hr : LaneReady s h names reads) (hf : ∀ l, f l = g l) :
    ∃ t, (s.laneIssue h names reads fun act ll => s.laneCompute act ll d pair lat f) = .next t
      ∧ LaneEnds s t lat ((computes s h names reads lat pair d g).all s) (computes s h names reads lat pair d g).latch := by
  have : f = g := funext hf
  subst this
  rw [laneIssue_ready hr]
  unfold State.laneCompute
  have := laneDone_ends s lat ((active s h).flatMap fun l => dstWrites pair d l (f l).1)
    (lostFlag s h reads ||| joinFlags ((active s h).map fun l => (f l).2))
    (some (mkLatch (s.clk + lat) pair ((active s h).map fun l => (l, (f l).1))))
  simp only [List.flatMap_map, List.map_map]
  exact this

theorem decides_ends {s : State} {h : LaneHdr} {names reads} {p : Nat} {f g : Nat → Bool × Flags}
    (hr : LaneReady s h names reads) (hf : ∀ l, f l = g l) :
    ∃ t, (s.laneIssue h names reads fun act ll => s.lanePred act ll p f) = .next t
      ∧ LaneEnds s t 2 ((decides s h names reads p g).all s) (decides s h names reads p g).latch := by
  have : f = g := funext hf
  subst this
  rw [laneIssue_ready hr]
  unfold State.lanePred
  have := laneDone_ends s 2 ((active s h).map fun l => (.p p l, if (f l).1 then 1 else 0))
    (lostFlag s h reads ||| joinFlags ((active s h).map fun l => (f l).2)) none
  simp only [List.map_map]
  exact this

theorem each_ends {s : State} {h : LaneHdr} {names reads} {lat : Nat} {f g : Nat → List (Loc × Word)}
    (hr : LaneReady s h names reads) (hf : ∀ l, f l = g l) :
    ∃ t, (s.laneIssue h names reads fun act ll => s.laneDone lat ((lanesOf act).flatMap f) ll none) = .next t
      ∧ LaneEnds s t lat ((writesEach s h names reads lat g).all s) (writesEach s h names reads lat g).latch := by
  have : f = g := funext hf
  subst this
  rw [laneIssue_ready hr]
  have := laneDone_ends s lat ((active s h).flatMap f) (lostFlag s h reads) none
  unfold LaneForm.all writesEach
  have hz : ∀ x : Flags, x ||| 0 = x := fun x => by simp
  simp only [hz]
  exact this

theorem tyLo_le (ty : Ty) : tyLo ty ≤ tyHi ty := by cases ty <;> decide

theorem satRes_fitted (ty : Ty) (sat : Bool) (x : Int) : satRes ty sat x = fitted ty sat x := by
  unfold satRes fitted
  cases sat
  · rfl
  · simp only [if_true]
    have hle := tyLo_le ty
    have hc : clampTo (tyLo ty) (tyHi ty) x = max (tyLo ty) (min (tyHi ty) x) := by
      unfold clampTo
      split
      · omega
      · split <;> omega
    rw [hc]
    congr 1
    unfold flagIf flagSAT
    by_cases h : tyLo ty ≤ x ∧ x ≤ tyHi ty
    · rw [if_pos h, if_neg]
      simp only [decide_eq_true_eq]
      omega
    · rw [if_neg h, if_pos]
      simp only [decide_eq_true_eq]
      omega

theorem intPat_mod (ty : Ty) (x : DWord) : intPat ty x = x.toNat % 2 ^ ty.bits := rfl

theorem intRes_mod (ty : Ty) (x y : Int) (h : x % 2 ^ ty.bits = y % 2 ^ ty.bits) : intRes ty x = intRes ty y := by
  unfold intRes
  rw [h]

theorem pat_mod (ty : Ty) (x y : Nat) (h : x % 2 ^ ty.bits = y % 2 ^ ty.bits) : patRes ty x = pattern ty y := by
  unfold patRes pattern
  rw [intRes_mod ty x y]
  exact_mod_cast congrArg (Nat.cast (R := Int)) h

theorem laneOnes_count (n w : Nat) : laneOnes n w = (List.range w).countP n.testBit := by
  induction w with
  | zero => rfl
  | succ w ih =>
    rw [List.range_succ, List.countP_append, ← ih, laneOnes]
    simp only [List.countP_cons, List.countP_nil]
    omega

theorem laneZeros_take (n w : Nat) :
    laneZeros n w = ((List.range w).reverse.takeWhile fun k => !n.testBit k).length := by
  induction w with
  | zero => rfl
  | succ w ih =>
    rw [List.range_succ, List.reverse_append, laneZeros]
    simp only [List.reverse_cons, List.reverse_nil, List.nil_append, List.cons_append]
    by_cases h : n.testBit w = true
    · rw [if_pos h, List.takeWhile_cons]
      simp [h]
    · rw [if_neg h, List.takeWhile_cons]
      simp [h, ih]
      omega

theorem foldl_sum (f : Nat → Nat) (c : Nat → Bool) (l : List Nat) (z : Nat) :
    l.foldl (fun r k => if c k then r + f k else r) z = z + (l.map fun k => if c k then f k else 0).sum := by
  induction l generalizing z with
  | nil => simp
  | cons a l ih =>
    rw [List.foldl_cons, ih]
    simp only [List.map_cons, List.sum_cons]
    split <;> omega

theorem reverseBits_sum (w n : Nat) :
    reverseBits w n = ((List.range w).map fun k => if n.testBit (w - 1 - k) then 2 ^ k else 0).sum := by
  unfold reverseBits
  rw [foldl_sum (fun k => 2 ^ k) (fun k => n.testBit (w - 1 - k))]
  omega

theorem pat_bit (ty : Ty) (x : DWord) (k : Nat) (h : k < ty.bits) : (intPat ty x).testBit k = x.getLsbD k := by
  rw [intPat_mod, Nat.testBit_mod_two_pow]
  simp [h, BitVec.testBit_toNat]

theorem takeWhile_congr {α : Type} (p q : α → Bool) (l : List α) (h : ∀ x ∈ l, p x = q x) :
    l.takeWhile p = l.takeWhile q := by
  induction l with
  | nil => rfl
  | cons a l ih =>
    rw [List.takeWhile_cons, List.takeWhile_cons, h a List.mem_cons_self, ih fun x hx => h x (List.mem_cons_of_mem _ hx)]

theorem topBit_iff {f n : Nat} (hn : n ≠ 0) (h : f < 2 ^ n) : f.testBit (n - 1) = true ↔ 2 ^ (n - 1) ≤ f := by
  obtain ⟨m, rfl⟩ : ∃ m, n = m + 1 := ⟨n - 1, by omega⟩
  simp only [Nat.add_sub_cancel]
  constructor
  · exact Nat.ge_two_pow_of_testBit
  · intro h1
    rw [Nat.testBit_eq_decide_div_mod_eq]
    simp only [decide_eq_true_eq]
    rw [Nat.pow_succ] at h
    have : f / 2 ^ m = 1 := by
      apply Nat.div_eq_of_lt_le <;> omega
    rw [this]

theorem and_field (y p n : Nat) : y &&& (2 ^ n - 1) * 2 ^ p = y / 2 ^ p % 2 ^ n * 2 ^ p := by
  apply Nat.eq_of_testBit_eq
  intro i
  rw [Nat.testBit_and, ← Nat.shiftLeft_eq, ← Nat.shiftLeft_eq, Nat.testBit_shiftLeft, Nat.testBit_shiftLeft,
    Nat.testBit_two_pow_sub_one, Nat.testBit_mod_two_pow, Nat.testBit_div_two_pow]
  by_cases h : p ≤ i
  · have : i - p + p = i := by omega
    simp [h, this, Bool.and_comm]
  · simp [h]

theorem clear_field (y p n : Nat) : y - (y &&& (2 ^ n - 1) * 2 ^ p) = y % 2 ^ p + y / 2 ^ (p + n) * 2 ^ (p + n) := by
  rw [and_field]
  have h1 := Nat.div_add_mod y (2 ^ p)
  have h2 := Nat.div_add_mod (y / 2 ^ p) (2 ^ n)
  rw [Nat.div_div_eq_div_mul, ← Nat.pow_add] at h2
  have h3 : y = y % 2 ^ p + y / 2 ^ (p + n) * 2 ^ (p + n) + y / 2 ^ p % 2 ^ n * 2 ^ p := by
    conv_lhs => rw [← h1, ← h2]
    ring
  omega

theorem bits_pos (ty : Ty) : 0 < ty.bits := by cases ty <;> decide

theorem foldMask_bit (f : Nat → Bool) (L : List Nat) (z : BitVec 32) (i : Nat) (hi : i < 32) :
    (L.foldl (fun m l => if f l then m ||| laneBit l else m) z).getLsbD i
      = (z.getLsbD i || L.any fun l => decide (l = i) && f l) := by
  induction L generalizing z with
  | nil => simp
  | cons a L ih =>
    rw [List.foldl_cons, ih, List.any_cons]
    by_cases h : f a = true
    · rw [if_pos h, BitVec.getLsbD_or, laneBit, getLsbD_one_shiftLeft, h]
      by_cases ha : a = i
      · subst ha; simp [hi]
      · have : ¬ i = a := fun h => ha h.symm
        simp [ha, this]
    · rw [if_neg h]
      simp [h]

theorem powerSum_lt (b : Nat → Bool) (n : Nat) : ((List.range n).map fun l => if b l then 2 ^ l else 0).sum < 2 ^ n := by
  induction n with
  | zero => simp
  | succ n ih =>
    rw [List.range_succ, List.map_append, List.sum_append, Nat.pow_succ]
    simp only [List.map_cons, List.map_nil, List.sum_cons, List.sum_nil]
    split <;> omega

theorem powerSum_bit (b : Nat → Bool) (n i : Nat) :
    ((List.range n).map fun l => if b l then 2 ^ l else 0).sum.testBit i = (decide (i < n) && b i) := by
  induction n with
  | zero => simp
  | succ n ih =>
    rw [List.range_succ, List.map_append, List.sum_append]
    simp only [List.map_cons, List.map_nil, List.sum_cons, List.sum_nil, Nat.add_zero]
    have hlt := powerSum_lt b n
    cases hb : b n
    · rw [if_neg (by simp), Nat.add_zero, ih]
      by_cases h : i = n
      · subst h; simp [hb]
      · have : (i < n + 1) ↔ i < n := by omega
        simp [this]
    · rw [if_pos rfl, Nat.add_comm]
      by_cases h : i = n
      · subst h
        rw [Nat.testBit_two_pow_add_eq, ih]
        simp [hb]
      · by_cases h1 : i < n
        · rw [Nat.testBit_two_pow_add_gt h1, ih]
          have : i < n + 1 := by omega
          simp [h1, this]
        · have h2 : ¬ i < n + 1 := by omega
          rw [Nat.testBit_lt_two_pow]
          · simp [h2]
          · have : 2 ^ (n + 1) ≤ 2 ^ i := Nat.pow_le_pow_right (by omega) (by omega)
            rw [Nat.pow_succ] at this
            omega

theorem maskOf_where (act : BitVec 32) (f g : Nat → Bool) (h : ∀ l, f l = g l) : maskOf act f = lanesWhere act g := by
  have : f = g := funext h
  subst this
  apply BitVec.eq_of_getLsbD_eq
  intro i hi
  unfold maskOf lanesWhere
  rw [foldMask_bit _ _ _ _ hi, BitVec.getLsbD_ofNat, powerSum_bit fun l => act.getLsbD l && f l]
  have h0 : (0 : BitVec 32).getLsbD i = false := by simp
  rw [h0, Bool.false_or]
  simp only [hi, decide_true, Bool.true_and]
  rw [Bool.eq_iff_iff]
  simp only [List.any_eq_true, Bool.and_eq_true, decide_eq_true_eq, lanesOf, List.mem_filter, List.mem_range]
  constructor
  · rintro ⟨x, ⟨_, h1⟩, rfl, h2⟩
    exact ⟨h1, h2⟩
  · rintro ⟨h1, h2⟩
    exact ⟨i, ⟨hi, h1⟩, rfl, h2⟩

theorem vcapGet_ends {s : State} {h : LaneHdr} {pair : Bool} {w : Nat} {p : CapSrc} {f : Cap → Nat}
    (hr : LaneReady s h (capNames p ++ dstNames pair (.reg w)) (capReads p)) :
    ∃ t, s.vcapGet h pair w p f = .next t
      ∧ LaneEnds s t (reads1 s h pair w p f).lat ((reads1 s h pair w p f).all s) (reads1 s h pair w p f).latch :=
  each_ends hr fun l => rfl

end Sys2Proof.Laws
end

