-- ==== Sys2Proof/Laws/LaneOps.lean ====
section
/-!
SUPPORT. One lemma for each form of lane instruction that leaves an operation under way.
-/

namespace Sys2Proof.Laws

open Machine Claims

theorem nextLane_slots (a : Agent) (p : Pairing) (f : Option Latch) :
    ({ a with pairing := p, firstLatch := f } : Agent).nextLane = { a.nextLane with pairing := p, firstLatch := f } := by
  unfold Agent.nextLane
  dsimp only
  split
  · rfl
  · split
    · rfl
    · split
      · rename_i b rest _ _
        unfold Agent.post
        split
        · rfl
        · unfold Agent.setTok
          dsimp only
          split <;> rfl
      · rfl

/-- The end of a lane instruction without a fixed-latency result. -/
theorem laneNext_goes (v : State) (a : Agent) : LaneGoes v ({ v with ag := a } : State).laneNext a := by
  unfold LaneGoes
  obtain ⟨t, ht, hE⟩ := laneDone_ends ({ v with ag := { a with
    pairing := .single
    firstLatch := none } } : State) 2 [] 0 none
  have : t = ({ v with ag := a } : State).laneNext := by
    have hz : ∀ (x y : Agent), (if (if (0 : Flags) = 0 then ([] : List (Loc × Word)) else [] ++ [(Loc.fsr, 0)]).isEmpty = true
        then x else y) = x := fun x y => by simp
    unfold State.laneDone at ht
    dsimp only at ht
    rw [hz, nextLane_slots] at ht
    unfold State.laneNext
    exact (Host.Outcome.next.inj ht).symm
  rw [← this]
  exact hE

/-- An operation that an instruction of the lane stream leaves under way. -/
theorem lane_enters (v : State) (path : Path) (ord : Ord) (scope : Scope) (tk : Option Nat) (kind : OpKind)
    (dests : List Loc) (ll : Flags) (t : State)
    (ht : t = ({ v.enqueue true path ord scope tk kind dests with
      ag := (v.enqueue true path ord scope tk kind dests).ag.put .fsr ll } : State).laneNext) :
    LaneEnters v t (laneOp v path ord scope tk kind dests) ll := by
  rw [ht]
  exact laneNext_goes v _

theorem lane_enters0 (v : State) (path : Path) (ord : Ord) (scope : Scope) (tk : Option Nat) (kind : OpKind)
    (dests : List Loc) :
    LaneEnters v (v.enqueue true path ord scope tk kind dests).laneNext
      (laneOp v path ord scope tk kind dests) 0 := by
  unfold LaneEnters
  have e : { withOp v.ag (laneOp v path ord scope tk kind dests) [] with fsr := v.ag.fsr ||| 0 }
      = withOp v.ag (laneOp v path ord scope tk kind dests) [] := by
    have : v.ag.fsr ||| 0 = v.ag.fsr := by simp
    rw [this]
    rfl
  rw [e]
  exact laneNext_goes v _

theorem subscribe_ok {s : State} {h : LaneHdr} {install : Bool} {ty : Ty} {c b : Nat} {tk : Option Nat}
    {len stride rows : Nat} {upd : Bool} (hr : LaneReady s h [] [.c c, .s b, .s (b + 1), .s (b + 2)])
    (ha : s.laneActive h ≠ 0)
    (hreg : subsRegion (s.rs b).toNat (s.rs (b + 1)).toNat (s.rs (b + 2)).toNat = some (len, stride, rows, upd))
    (hc : SubsOk (s.rc c) len stride rows) :
    s.subscribe h install ty c b tk = .next (s.enqueue true .lane .rlx .grp (s.laneTk tk)
      (.subs s.ag.die (spaceId s) install ty upd (s.rc c).addr len stride rows) []).laneNext := by
  obtain ⟨h1, h2, h3, h4, h5, h6⟩ := hc
  unfold State.subscribe
  rw [laneIssue_ready hr]
  dsimp only
  rw [if_neg ha, if_neg (by simp [h1]), if_neg (by simpa using h2.resolve_left), if_neg (by simp [h3]), hreg]
  dsimp only
  rw [if_neg (by simp only [Bool.or_eq_true, decide_eq_true_eq]; omega), if_neg (by simp [h6])]
  rfl

theorem mask_and_where (act : BitVec 32) (f : Nat → Bool) (l : Nat) (hl : l < 32) :
    (lanesWhere act f).getLsbD l = (act.getLsbD l && f l) := by
  unfold lanesWhere
  rw [BitVec.getLsbD_ofNat, powerSum_bit fun l => act.getLsbD l && f l]
  simp [hl]

theorem ones_where (act : BitVec 32) (f : Nat → Bool) : laneOnes (lanesWhere act f).toNat 32 = (lanesOf act).countP f := by
  rw [laneOnes_count, lanesOf, List.countP_filter]
  apply List.countP_congr
  intro l hl
  rw [BitVec.testBit_toNat, mask_and_where _ _ _ (List.mem_range.mp hl)]
  simp [and_comm]

theorem where_eq_zero (act : BitVec 32) (f : Nat → Bool) : lanesWhere act f = 0 ↔ (lanesOf act).countP f = 0 := by
  rw [List.countP_eq_zero]
  constructor
  · intro h l hl
    have h1 := congrArg (fun v => BitVec.getLsbD v l) h
    have h2 := List.mem_filter.mp hl
    rw [mask_and_where _ _ _ (List.mem_range.mp h2.1), h2.2] at h1
    simpa using h1
  · intro h
    apply BitVec.eq_of_getLsbD_eq
    intro i hi
    rw [mask_and_where _ _ _ hi]
    cases ha : act.getLsbD i
    · simp
    · have := h i (List.mem_filter.mpr ⟨List.mem_range.mpr hi, ha⟩)
      simp [this]

theorem where_eq_act (act : BitVec 32) (f : Nat → Bool) : lanesWhere act f = act ↔ (lanesOf act).countP f = (lanesOf act).length := by
  rw [List.countP_eq_length]
  constructor
  · intro h l hl
    have h1 := congrArg (fun v => BitVec.getLsbD v l) h
    have h2 := List.mem_filter.mp hl
    rw [mask_and_where _ _ _ (List.mem_range.mp h2.1), h2.2] at h1
    simpa using h1
  · intro h
    apply BitVec.eq_of_getLsbD_eq
    intro i hi
    rw [mask_and_where _ _ _ hi]
    cases ha : act.getLsbD i
    · simp
    · have := h i (List.mem_filter.mpr ⟨List.mem_range.mpr hi, ha⟩)
      simp [this]

/-- A vote in plain numbers. -/
theorem voteValue_of (m : VoteMode) (act : BitVec 32) (f : Nat → Bool) :
    voteValue m act (maskOf act f) = voteOf m (lanesOf act).length ((lanesOf act).countP f) := by
  rw [maskOf_where act f f fun _ => rfl]
  cases m
  · show bit01 (lanesWhere act f == act) = _
    have := where_eq_act act f
    by_cases hq : lanesWhere act f = act
    · simp [bit01, voteOf, this.mp hq, hq]
    · simp [bit01, voteOf, hq, mt this.mpr hq]
  · show bit01 (lanesWhere act f != 0) = _
    have := where_eq_zero act f
    by_cases hq : lanesWhere act f = 0
    · simp [bit01, voteOf, this.mp hq, hq]
    · have h2 : 0 < (lanesOf act).countP f := Nat.pos_of_ne_zero (mt this.mpr hq)
      have h3 : ¬ (lanesWhere act f = 0#32) := hq
      simp only [bit01, voteOf, h2, if_true]
      rw [if_pos]
      simpa using h3
  · show bit01 (lanesWhere act f == act || lanesWhere act f == 0) = _
    have h1 := where_eq_act act f
    have h2 := where_eq_zero act f
    unfold bit01 voteOf
    by_cases hq : lanesWhere act f = act ∨ lanesWhere act f = 0
    · rw [if_pos (by simpa using hq)]
      exact (if_pos (hq.imp h1.mp h2.mp)).symm
    · rw [if_neg (by simpa using hq)]
      exact (if_neg (fun h => hq (h.imp h1.mpr h2.mpr))).symm
  · show BitVec.ofNat 32 (laneOnes (lanesWhere act f).toNat 32) = _
    rw [ones_where]
    rfl

/-- A lane memory operation whose checks pass enters, when the core has room for its requests. -/
theorem laneChecked_enters {s s' : State} {accs : List Acc} {c : Checked} {ord scope tk ll} {kind : List Acc → OpKind}
    {dests : List Loc} (h : c = .ok s' accs) (hr : s'.roomFor (kind accs) = true) :
    ∃ t, s.laneChecked c ord scope tk ll kind dests = .next t
      ∧ LaneEnters (s'.issueMem true scope (kind accs)) t
        (laneOp (s'.issueMem true scope (kind accs)) .lane ord scope (s.laneTk tk) (kind accs) dests) ll := by
  rw [h]
  unfold State.laneChecked
  dsimp only
  rw [if_pos hr]
  exact ⟨_, rfl, lane_enters _ _ _ _ _ _ _ _ _ rfl⟩

/-- Otherwise it stalls. -/
theorem laneChecked_stalls {s s' : State} {accs : List Acc} {c : Checked} {ord scope tk ll} {kind : List Acc → OpKind}
    {dests : List Loc} (h : c = .ok s' accs) (hr : s'.roomFor (kind accs) = false) :
    s.laneChecked c ord scope tk ll kind dests = .next s' := by
  rw [h]
  unfold State.laneChecked
  dsimp only
  rw [hr]
  rfl

theorem laneChecked_traps {s s' : State} {u : Trap} {c : Checked} {ord scope tk ll} {kind : List Acc → OpKind}
    {dests : List Loc} (h : c = .trap s' u) :
    s.laneChecked c ord scope tk ll kind dests = .next (({ s' with ag := { s'.ag with
      pairing := .single
      firstLatch := none } }).trapBeside u) := by
  rw [h]
  rfl

/-- What each lane memory instruction does once it may issue. -/
theorem laneMem_eq {s : State} {i : Instr} {x : LaneAccess} (h : LaneMem s i x) (hr : LaneReady s x.hdr x.names x.reads) :
    exec i s = s.laneChecked (s.checkAccess true x.kind x.size x.size x.write x.tolerant x.reqs) x.ord x.scope x.tk
      (lostFlag s x.hdr x.reads) x.op x.dests := by
  cases h with
  | ld h ty o c ro d cap off imm tk =>
    show execLd h ty o c ro d cap off imm tk s = _
    unfold execLd State.laneLoad
    dsimp only at hr
    rw [laneIssue_ready hr]
    rfl
  | ldnr h ty o c ro d r cap off imm tk =>
    show execLdnr h ty o c ro d r cap off imm tk s = _
    unfold execLdnr State.laneLoad
    dsimp only at hr
    rw [laneIssue_ready hr]
    rfl
  | ldsub h ty o c ro d cap off imm tk =>
    show execLdsub h ty o c ro d cap off imm tk s = _
    unfold execLdsub State.laneLoad
    dsimp only at hr
    rw [laneIssue_ready hr]
    rfl
  | st h ty o c data cap off imm tk =>
    show execSt h ty o c data cap off imm tk s = _
    unfold execSt
    dsimp only at hr ⊢
    rw [laneIssue_ready hr]
    rfl
  | atom h op ty o c d cap off x imm tk =>
    show execAtom h op ty o c d cap off x imm tk s = _
    unfold execAtom
    dsimp only at hr ⊢
    rw [laneIssue_ready hr]
    cases d <;> rfl
  | laneLdc h o c d cap off imm tk =>
    show execLaneLdc h o c d cap off imm tk s = _
    unfold execLaneLdc State.laneLoad
    dsimp only at hr
    rw [laneIssue_ready hr]
    rfl
  | laneStc h o c v cap off imm tk =>
    show execLaneStc h o c v cap off imm tk s = _
    unfold execLaneStc
    dsimp only at hr
    rw [laneIssue_ready hr]
    rfl

theorem teamCheck_ok {s : State} {size : Nat} {ta : Int} (h : TeamOk s size ta) : teamCheck s.teamShape ta size = none := by
  obtain ⟨h1, h2, h3, h4, h5⟩ := h
  unfold teamCheck
  dsimp only
  rw [if_neg (by simp only [Bool.or_eq_true, decide_eq_true_eq]; omega), if_neg (by simp [h5])]

theorem checkTeam_ok {s : State} {info size : Nat} {rs : List (Nat × Int × Nat × Nat)}
    (h : ∀ r ∈ rs, TeamOk s size r.2.1) : s.checkTeam info size rs = .ok s (rs.map fun r =>
      ⟨r.1, .team r.2.1.toNat, r.2.1.toNat, r.2.2.1, r.2.2.2, false, true, 0, false, 0, s.ag.mode⟩) := by
  have : rs.filterMap (fun r => (teamCheck s.teamShape r.2.1 size).map fun c =>
      (⟨r.1, c, c, (r.2.1 % 2 ^ 64).toNat⟩ : Fail)) = [] := by
    rw [List.filterMap_eq_nil_iff]
    intro r hr
    rw [teamCheck_ok (h r hr)]
    rfl
  unfold State.checkTeam
  dsimp only
  rw [this]
  rfl

end Sys2Proof.Laws
end

