-- ==== Sys2Proof/Laws/Building.lean ====
section
/-!
SUPPORT. What the building of a group writes into its lanes.
-/

namespace Sys2Proof.Laws

open Machine Claims

theorem sget_filter (m : List (Nat × Word)) (hm : m.Pairwise fun x y => x.1 < y.1) (n : Nat) :
    sget 0 (m.filter fun e => e.2 != 0) n = ((m.find? fun e => e.1 == n).map fun e => e.2).getD 0 := by
  induction m with
  | nil => rfl
  | cons x r ih =>
    obtain ⟨k, v⟩ := x
    have hr := ih (List.pairwise_cons.mp hm).2
    have hlt := (List.pairwise_cons.mp hm).1
    have hnone : n ≤ k → (r.find? fun e => e.1 == n) = none := by
      intro h
      rw [List.find?_eq_none]
      intro x hx
      have := hlt x hx
      simp at this ⊢
      omega
    by_cases hv : v = 0
    · subst hv
      rw [List.filter_cons_of_neg (by simp), hr]
      by_cases hk : k = n
      · rw [List.find?_cons_of_pos (by simp [hk]), hnone (by omega)]
        rfl
      · rw [List.find?_cons_of_neg (by simp [hk])]
    · have hf : ((k, v) :: r).filter (fun e => e.2 != 0) = (k, v) :: r.filter fun e => e.2 != 0 :=
        List.filter_cons_of_pos (bne_iff_ne.mpr hv)
      rw [hf]
      unfold sget
      by_cases hk : k = n
      · rw [if_neg (by omega), if_pos hk.symm, List.find?_cons_of_pos (by simp [hk])]
        rfl
      · rw [List.find?_cons_of_neg (by simp [hk])]
        by_cases hl : n < k
        · rw [if_pos hl, hnone (by omega)]
          rfl
        · rw [if_neg hl, if_neg (fun h => hk h.symm), hr]

theorem quad_words (c1 c2 : CapBits) (n : Nat) :
    sget 0 (quadEntries 4 c1 ++ quadEntries 5 c2) n =
      if 16 ≤ n ∧ n < 20 then c1.extractLsb' (32 * (n - 16)) 32
      else if 20 ≤ n ∧ n < 24 then c2.extractLsb' (32 * (n - 20)) 32 else 0 := by
  unfold quadEntries
  rw [← List.filter_append, sget_filter]
  · simp only [List.range_succ, List.range_zero, List.nil_append, List.cons_append, List.map_cons, List.map_nil]
    by_cases h : n < 16 ∨ 24 ≤ n
    · rw [if_neg (by omega), if_neg (by omega), List.find?_eq_none.mpr]
      · rfl
      · intro x hx
        simp only [List.mem_cons, List.not_mem_nil, or_false] at hx
        rcases hx with rfl | rfl | rfl | rfl | rfl | rfl | rfl | rfl <;> simp <;> omega
    · have hn : n = 16 ∨ n = 17 ∨ n = 18 ∨ n = 19 ∨ n = 20 ∨ n = 21 ∨ n = 22 ∨ n = 23 := by omega
      rcases hn with rfl | rfl | rfl | rfl | rfl | rfl | rfl | rfl <;> rfl
  · simp [List.range_succ]

/-! a placed group -/

theorem xstat_mode (d b : Nat) (h : Bool) : (xstatInit d b false h).toNat = d % 256 * 2 ^ 16 + b % 4 * 2 ^ 10 + (if h then 32 else 0) + b % 4 * 4 := by
  unfold xstatInit
  rw [BitVec.toNat_ofNat]
  cases h <;> simp <;> omega

theorem xstat_fields (d b : Nat) (h : Bool) (a : Agent) (ha : a.xstat = xstatInit d b false h) :
    a.mode = b % 4 ∧ a.bmode = b % 4 ∧ a.domain = d % 256 ∧ a.hchk = h ∧ a.hnd = false := by
  have e := xstat_mode d b h
  rw [← ha] at e
  unfold Agent.mode Agent.bmode Agent.domain Agent.hchk Agent.hnd
  have hB : b % 4 < 4 := by omega
  have hD : d % 256 < 256 := by omega
  generalize b % 4 = B at *
  generalize d % 256 = D at *
  have hB4 : B = 0 ∨ B = 1 ∨ B = 2 ∨ B = 3 := by omega
  simp only [BitVec.extractLsb'_toNat, Nat.shiftRight_eq_div_pow, BitVec.getLsbD, Nat.testBit, Nat.one_and_eq_mod_two, e]
  refine ⟨?_, ?_, ?_, ?_, ?_⟩
  · rcases hB4 with rfl | rfl | rfl | rfl <;> cases h <;> simp <;> omega
  · rcases hB4 with rfl | rfl | rfl | rfl <;> cases h <;> simp <;> omega
  · rcases hB4 with rfl | rfl | rfl | rfl <;> cases h <;> simp <;> omega
  · rcases hB4 with rfl | rfl | rfl | rfl <;> cases h <;> simp <;> omega
  · rcases hB4 with rfl | rfl | rfl | rfl <;> cases h <;> simp <;> omega

theorem words_eq (c : Cap) (t : Bool) (w0 w1 w2 w3 : Word) (ht : t = c.tag) (h0 : w0 = c.bits.extractLsb' 0 32)
    (h1 : w1 = c.bits.extractLsb' 32 32) (h2 : w2 = c.bits.extractLsb' 64 32) (h3 : w3 = c.bits.extractLsb' 96 32) :
    (⟨w3 ++ w2 ++ w1 ++ w0, t⟩ : Cap) = c := by
  subst ht h0 h1 h2 h3
  conv => rhs; rw [show c = ⟨c.bits, c.tag⟩ from rfl]
  congr 1
  generalize c.bits = v
  apply BitVec.eq_of_getLsbD_eq
  intro i hi
  simp only [BitVec.getLsbD_append, BitVec.getLsbD_extractLsb']
  by_cases h1 : i < 32
  · simp [h1]
  · by_cases h2 : i < 64
    · simp [h1, show i - 32 < 32 by omega, show 32 + (i - 32) = i by omega]
    · by_cases h3 : i < 96
      · simp [h1, show ¬ i - 32 < 32 by omega, show i - 32 - 32 < 32 by omega, show 64 + (i - 32 - 32) = i by omega]
      · simp [h1, show ¬ i - 32 < 32 by omega, show ¬ i - 32 - 32 < 32 by omega, show i - 32 - 32 - 32 < 32 by omega, show 96 + (i - 32 - 32 - 32) = i by omega]

theorem bits_fold (l : List Nat) (m : BitVec 32) (j : Nat) : (l.foldl (fun m l => m ||| laneBit l) m).getLsbD j = (m.getLsbD j || decide (j < 32 ∧ j ∈ l)) := by
  induction l generalizing m with
  | nil => simp
  | cons x r ih =>
    rw [List.foldl_cons, ih, BitVec.getLsbD_or]
    unfold laneBit
    rw [getLsbD_one_shiftLeft, Bool.or_assoc]
    congr 1
    rw [Bool.eq_iff_iff]
    simp only [Bool.or_eq_true, decide_eq_true_eq, List.mem_cons]
    constructor
    · rintro (⟨h1, h2⟩ | ⟨h1, h2⟩)
      · exact ⟨by omega, .inl h1⟩
      · exact ⟨h1, .inr h2⟩
    · rintro ⟨h1, h2 | h2⟩
      · exact .inl ⟨h2, by omega⟩
      · exact .inr ⟨h1, h2⟩

theorem put_v_v (a : Agent) (r k r' k' : Nat) (v : Word) (hk : k < 32) (hk' : k' < 32) :
    (a.put (.v r k) v).raw (.v r' k') = if r' = r ∧ k' = k then v else a.raw (.v r' k') := by
  show sget 0 (sput 0 a.vregs (r * 32 + k) v) (r' * 32 + k') = _
  by_cases h : r' = r ∧ k' = k
  · rw [if_pos h, h.1, h.2, sget_sput_same]
  · rw [if_neg h, sget_sput_ne _ _ _ (by omega)]
    rfl

theorem put_vt_vt (a : Agent) (q k q' k' : Nat) (hk : k < 32) :
    (a.put (.vt q k) 1).raw (.vt q' k') = if q' = q ∧ k' = k then 1 else a.raw (.vt q' k') := by
  show bit01 ((sget 0 (sput 0 a.vtags q _) q').getLsbD k') = _
  by_cases hq : q' = q
  · subst hq
    rw [sget_sput_same, getLsbD_setBitTo]
    by_cases h : k' = k
    · subst h
      simp [hk, bit01]
    · simp [h]
      rfl
  · rw [sget_sput_ne _ _ _ hq, if_neg (fun h => hq h.1)]
    rfl

theorem put_v_vt (a : Agent) (r k q' k' : Nat) (v : Word) :
    (a.put (.v r k) v).raw (.vt q' k') = if q' = r / 4 ∧ k' = k ∧ k < 32 then 0 else a.raw (.vt q' k') := by
  show bit01 ((sget 0 (sput 0 a.vtags (r / 4) _) q').getLsbD k') = _
  by_cases hq : q' = r / 4
  · subst hq
    rw [sget_sput_same, getLsbD_setBitTo]
    by_cases h : k' = k ∧ k < 32
    · rw [if_pos h, if_pos ⟨rfl, h⟩]; rfl
    · rw [if_neg h, if_neg (fun x => h x.2)]
      rfl
  · rw [sget_sput_ne _ _ _ hq, if_neg (fun h => hq h.1)]
    rfl

theorem regs_other (k : Nat) (hk : k < 32) (es : List (Nat × Word)) (a : Agent) (n k' : Nat) (hk' : k' < 32)
    (h : k' ≠ k ∨ n ∉ es.map fun e => e.1) :
    (es.foldl (fun a e => a.put (.v e.1 k) e.2) a).raw (.v n k') = a.raw (.v n k') := by
  induction es generalizing a with
  | nil => rfl
  | cons e es ih =>
    rw [List.foldl_cons, ih _ (h.imp id fun x y => x (by simp at y ⊢; exact .inr y)), put_v_v _ _ _ _ _ _ hk hk', if_neg]
    rintro ⟨h1, h2⟩
    rcases h with h | h
    · exact h h2
    · exact h (by simp [h1])

theorem regs_mine (k : Nat) (hk : k < 32) (es : List (Nat × Word)) (a : Agent) (hn : (es.map fun e => e.1).Nodup) :
    ∀ e ∈ es, (es.foldl (fun a e => a.put (.v e.1 k) e.2) a).raw (.v e.1 k) = e.2 := by
  induction es generalizing a with
  | nil => intro e he; cases he
  | cons x es ih =>
    rw [List.map_cons, List.nodup_cons] at hn
    intro e he
    rw [List.foldl_cons]
    rcases List.mem_cons.mp he with rfl | he
    · rw [regs_other k hk es _ _ k hk (.inr hn.1), put_v_v _ _ _ _ _ _ hk hk, if_pos ⟨rfl, rfl⟩]
    · exact ih _ hn.2 e he

theorem regs_tag (k : Nat) (es : List (Nat × Word)) (a : Agent) (q k' : Nat) (h : a.raw (.vt q k') = 0) :
    (es.foldl (fun a e => a.put (.v e.1 k) e.2) a).raw (.vt q k') = 0 := by
  induction es generalizing a with
  | nil => exact h
  | cons e es ih =>
    rw [List.foldl_cons]
    refine ih _ ?_
    rw [put_v_vt]
    split
    · rfl
    · exact h

theorem regs_tag_other (k : Nat) (es : List (Nat × Word)) (a : Agent) (q k' : Nat) (h : k' ≠ k) :
    (es.foldl (fun a e => a.put (.v e.1 k) e.2) a).raw (.vt q k') = a.raw (.vt q k') := by
  induction es generalizing a with
  | nil => rfl
  | cons e es ih => rw [List.foldl_cons, ih, put_v_vt, if_neg (fun x => h x.2.1)]

theorem tags_v (k : Nat) (qs : List Nat) (a : Agent) (n k' : Nat) :
    (qs.foldl (fun a q => a.put (.vt q k) 1) a).raw (.v n k') = a.raw (.v n k') := by
  induction qs generalizing a with
  | nil => rfl
  | cons q qs ih => rw [List.foldl_cons, ih]; rfl

theorem tags_vt (k : Nat) (hk : k < 32) (qs : List Nat) (a : Agent) (q k' : Nat) :
    (qs.foldl (fun a q => a.put (.vt q k) 1) a).raw (.vt q k') = if k' = k ∧ qs.contains q then 1 else a.raw (.vt q k') := by
  induction qs generalizing a with
  | nil => simp
  | cons x qs ih =>
    rw [List.foldl_cons, ih, put_vt_vt _ _ _ _ _ hk, List.contains_cons]
    by_cases h1 : k' = k
    · subst h1
      by_cases h2 : q = x
      · subst h2; simp
      · have : (q == x) = false := by simp [h2]
        simp [h2]
    · simp [h1]

theorem take_other (a : Agent) (k : Nat) (hk : k < 32) (th : Thread) (n k' : Nat) (hk' : k' < 32) (h : k' ≠ k) :
    (a.takeThread k th).raw (.v n k') = a.raw (.v n k') ∧ (a.takeThread k th).raw (.vt n k') = a.raw (.vt n k') := by
  unfold Agent.takeThread
  dsimp only
  rw [tags_v, tags_vt k hk, if_neg (fun x => h x.1), regs_other k hk _ _ _ _ hk' (.inl h), regs_tag_other _ _ _ _ _ h]
  exact ⟨rfl, rfl⟩

end Sys2Proof.Laws
end

