-- ==== Sys2Proof/Laws/Choosing.lean ====
section
/-!
SUPPORT. What the choice among ready agents answers.
-/

namespace Sys2Proof.Laws

open Machine Claims

theorem oldest_some {l : List Agent} {a : Agent} (h : oldest l = some a) : a ∈ l ∧ ∀ b ∈ l, a.age ≤ b.age := by
  cases l with
  | nil => cases h
  | cons x r =>
    simp only [oldest, Option.some.injEq] at h
    subst h
    have : ∀ (r : List Agent) (x : Agent), let y := r.foldl (fun b x => if x.age < b.age then x else b) x
        y ∈ x :: r ∧ ∀ b ∈ x :: r, y.age ≤ b.age := by
      intro r
      induction r with
      | nil => intro x; simp
      | cons z r ih =>
        intro x
        rw [List.foldl_cons]
        obtain ⟨h1, h2⟩ := ih (if z.age < x.age then z else x)
        refine ⟨?_, ?_⟩
        · simp only [List.mem_cons] at h1 ⊢
          obtain h1 | h1 := h1
          · rw [h1]; split <;> simp
          · exact .inr (.inr h1)
        · intro b hb
          simp only [List.mem_cons] at hb
          have h0 := h2 _ (List.mem_cons_self)
          obtain rfl | rfl | hb := hb
          · refine Nat.le_trans h0 ?_
            split <;> omega
          · refine Nat.le_trans h0 ?_
            split <;> omega
          · exact h2 b (List.mem_cons_of_mem _ hb)
    exact this r x

theorem oldest_none {l : List Agent} : oldest l = none ↔ l = [] := by
  cases l <;> simp [oldest]

theorem firstAfter_some {last : Option Nat} {l : List Agent} {a : Agent} (h : firstAfter last l = some a) :
    a ∈ l ∧ ∀ b ∈ l, InTurn last a b := by
  unfold firstAfter at h
  dsimp only at h
  cases last with
  | none =>
    simp only [Option.all_none, List.filter_true] at h
    have h : oldest l = some a := by
      split at h
      · exact h
      · exact h
    exact oldest_some h
  | some n =>
    simp only [Option.all_some] at h
    split at h
    · rename_i he
      obtain ⟨h1, h2⟩ := oldest_some h
      refine ⟨h1, ?_⟩
      intro b hb
      have : ∀ b ∈ l, b.age ≤ n := by
        intro b hb
        have := List.isEmpty_iff.1 he
        rw [List.filter_eq_nil_iff] at this
        have := this b hb
        simpa using this
      exact .inr ⟨this a h1, this b hb, h2 b hb⟩
    · obtain ⟨h1, h2⟩ := oldest_some h
      rw [List.mem_filter] at h1
      refine ⟨h1.1, ?_⟩
      intro b hb
      refine .inl ⟨by simpa using h1.2, fun hn => h2 b ?_⟩
      rw [List.mem_filter]
      exact ⟨hb, by simpa using hn⟩

theorem firstAfter_none {last : Option Nat} {l : List Agent} : firstAfter last l = none ↔ l = [] := by
  unfold firstAfter
  dsimp only
  rw [oldest_none]
  split
  · rfl
  · rename_i h
    constructor
    · intro hh; rw [hh] at h; exact absurd rfl h
    · intro hh; rw [hh]; rfl

theorem maxFold (f : Agent → Nat) (l : List Agent) (z : Nat) :
    (∀ b ∈ l, f b ≤ l.foldl (fun m a => max m (f a)) z) ∧ z ≤ l.foldl (fun m a => max m (f a)) z
    ∧ (l.foldl (fun m a => max m (f a)) z = z ∨ ∃ b ∈ l, f b = l.foldl (fun m a => max m (f a)) z) := by
  induction l generalizing z with
  | nil => simp
  | cons x l ih =>
    obtain ⟨h1, h2, h3⟩ := ih (max z (f x))
    rw [List.foldl_cons]
    refine ⟨?_, by omega, ?_⟩
    · intro b hb
      rw [List.mem_cons] at hb
      obtain rfl | hb := hb
      · omega
      · exact h1 b hb
    · obtain h3 | ⟨b, hb, h3⟩ := h3
      · rw [h3]
        by_cases h : z ≤ f x
        · exact .inr ⟨x, by simp, by omega⟩
        · exact .inl (by omega)
      · exact .inr ⟨b, by simp [hb], h3⟩

theorem choose_takes {s : State} {die core part : Nat} {lane : Bool} :
    (∀ a k, s.choose die core part lane = some (a, k) → Takes s die core part lane a)
    ∧ (s.choose die core part lane = none ↔ s.candidates die core part lane = []) := by
  unfold State.choose
  dsimp only
  obtain ⟨cs, hcs⟩ : ∃ cs, cs = s.candidates die core part lane := ⟨_, rfl⟩
  rw [← hcs]
  obtain ⟨m1, m2, m3⟩ := maxFold (s.issueClass lane) cs 0
  obtain ⟨top, ht⟩ : ∃ top, top = cs.foldl (fun m a => max m (s.issueClass lane a)) 0 := ⟨_, rfl⟩
  rw [← ht] at m1 m2 m3 ⊢
  constructor
  · intro a k h
    rw [Option.map_eq_some_iff] at h
    obtain ⟨b, h, hb⟩ := h
    simp only [Prod.mk.injEq] at hb
    obtain ⟨rfl, rfl⟩ := hb
    obtain ⟨h1, h2⟩ := firstAfter_some h
    have hin : b ∈ cs ∧ s.issueClass lane b = top := by
      split at h1
      · simpa using h1
      · rw [List.mem_filter] at h1
        simpa using h1.1
    refine ⟨hcs ▸ hin.1, ?_, ?_, ?_⟩
    · rw [← hcs, hin.2]; exact m1
    · rw [← hcs]
      intro hp c hc hcl
      split at h1
      · rename_i he
        have := List.isEmpty_iff.1 he
        rw [List.filter_eq_nil_iff] at this
        have := this c (by rw [List.mem_filter]; exact ⟨hc, by simp [hcl, hin.2]⟩)
        simpa using this
      · rw [List.mem_filter] at h1
        simp [hp] at h1
    · rw [← hcs]
      intro c hc hcl hpp
      rw [hin.2]
      apply h2
      have hct : c ∈ cs.filter fun a => s.issueClass lane a == top := by
        rw [List.mem_filter]; exact ⟨hc, by simp [hcl, hin.2]⟩
      split at h1
      · rename_i he
        rw [if_pos he]
        exact hct
      · rename_i he
        rw [if_neg he]
        rw [List.mem_filter] at h1 ⊢
        exact ⟨hct, by rw [hpp]; exact h1.2⟩
  · rw [Option.map_eq_none_iff, firstAfter_none]
    constructor
    · intro h
      have h : (cs.filter fun a => s.issueClass lane a == top) = [] := by
        split at h
        · exact h
        · rename_i he
          rw [h] at he
          exact absurd rfl he
      obtain m3 | ⟨b, hb, m3⟩ := m3
      · cases hc : cs with
        | nil => rfl
        | cons x r =>
          rw [List.filter_eq_nil_iff] at h
          have hx : x ∈ cs := by rw [hc]; simp
          have h4 := h x hx
          have h5 := m1 x hx
          rw [m3] at h5 h4
          exact absurd (beq_iff_eq.2 (Nat.le_zero.1 h5)) h4
      · rw [List.filter_eq_nil_iff] at h
        have := h b hb
        simp [m3] at this
    · intro h; rw [h]; simp

end Sys2Proof.Laws
end

