-- ==== Sys2Proof/Laws/Folds.lean ====
section
/-!
SUPPORT. Folds over lanes, failures and outstanding operations.
-/

namespace Sys2Proof.Laws

open Machine Claims

theorem fold_min_le (r : List Fail) (z : Nat) :
    (r.foldl (fun m g => min m g.rank) z) ≤ z ∧ ∀ g ∈ r, r.foldl (fun m g => min m g.rank) z ≤ g.rank := by
  induction r generalizing z with
  | nil => simp
  | cons a r ih =>
    rw [List.foldl_cons]
    obtain ⟨h1, h2⟩ := ih (min z a.rank)
    refine ⟨by omega, ?_⟩
    intro g hg
    rcases List.mem_cons.mp hg with rfl | hg
    · omega
    · exact h2 g hg

theorem fold_min_mem (r : List Fail) (z : Nat) :
    r.foldl (fun m g => min m g.rank) z = z ∨ ∃ g ∈ r, r.foldl (fun m g => min m g.rank) z = g.rank := by
  induction r generalizing z with
  | nil => simp
  | cons a r ih =>
    rw [List.foldl_cons]
    rcases ih (min z a.rank) with h | ⟨g, hg, h⟩
    · rcases Nat.le_total z a.rank with h1 | h1
      · left; omega
      · right; exact ⟨a, List.mem_cons_self, by omega⟩
    · right; exact ⟨g, List.mem_cons_of_mem _ hg, h⟩

theorem pickFail_of {fs : List Fail} {f : Fail} (hf : f ∈ fs) (hmin : ∀ g ∈ fs, f.rank ≤ g.rank) (q : List Fail)
    (hfirst : fs.filter (fun g => g.rank == f.rank) = f :: q) :
    pickFail fs = some (f.cause, (f :: q).foldl (fun m h => m ||| laneBit h.lane) 0, f.addr) := by
  rcases fs with _ | ⟨a, r⟩
  · simp at hf
  · have hr : r.foldl (fun m g => min m g.rank) a.rank = f.rank := by
      obtain ⟨h1, h2⟩ := fold_min_le r a.rank
      apply Nat.le_antisymm
      · rcases List.mem_cons.mp hf with rfl | hf
        · exact h1
        · exact h2 f hf
      · rcases fold_min_mem r a.rank with h | ⟨g, hg, h⟩
        · rw [h]; exact hmin a List.mem_cons_self
        · rw [h]; exact hmin g (List.mem_cons_of_mem _ hg)
    unfold pickFail
    dsimp only
    rw [hr, hfirst]

theorem foldLanes_bit (L : List Fail) (z : BitVec 32) (i : Nat) (hi : i < 32) :
    (L.foldl (fun m h => m ||| laneBit h.lane) z).getLsbD i = (z.getLsbD i || L.any fun x => decide (x.lane = i)) := by
  induction L generalizing z with
  | nil => simp
  | cons a L ih =>
    rw [List.foldl_cons, ih, List.any_cons, BitVec.getLsbD_or, laneBit, getLsbD_one_shiftLeft]
    by_cases ha : a.lane = i
    · simp [ha, hi]
    · have : ¬ i = a.lane := fun h => ha h.symm
      simp [ha, this]

theorem derive_fails_nil (rank : Nat → Nat → Nat) (src : Nat → Cap) (f : Nat → Except Nat Cap) (g : Nat → Cap) (L : List Nat)
    (h : ∀ l ∈ L, f l = .ok (g l)) : deriveFails rank src (L.map fun l => (l, f l)) = [] := by
  unfold deriveFails
  rw [List.filterMap_eq_nil_iff]
  intro e he
  obtain ⟨l, hl, rfl⟩ := List.mem_map.mp he
  simp only [h l hl]

theorem flatMap_ok {F : Nat × Except Nat Cap → List (Loc × Word)} (f : Nat → Except Nat Cap) (G : Nat → List (Loc × Word))
    (L : List Nat) (h : ∀ l ∈ L, F (l, f l) = G l) : (L.map fun l => (l, f l)).flatMap F = L.flatMap G := by
  induction L with
  | nil => rfl
  | cons a L ih =>
    rw [List.map_cons, List.flatMap_cons, List.flatMap_cons, ih fun l hl => h l (List.mem_cons_of_mem _ hl),
      h a List.mem_cons_self]

theorem lanes_sorted (m : BitVec 32) : (lanesOf m).Pairwise (· < ·) := List.Pairwise.filter _ List.pairwise_lt_range

theorem winner_fold (count : Nat → Nat) (r : List (Nat × Nat)) (z : Nat) :
    let w := r.foldl (fun best q => if count best < count q.2 then q.2 else best) z
    (w = z ∨ ∃ q ∈ r, q.2 = w) ∧ count z ≤ count w ∧ ∀ q ∈ r, count q.2 ≤ count w := by
  induction r generalizing z with
  | nil => simp
  | cons a r ih =>
    intro w
    have h := ih (if count z < count a.2 then a.2 else z)
    obtain ⟨h1, h2, h3⟩ := h
    refine ⟨?_, ?_, ?_⟩
    · rcases h1 with h1 | ⟨q, hq, h1⟩
      · by_cases hc : count z < count a.2
        · right
          refine ⟨a, List.mem_cons_self, ?_⟩
          show _ = List.foldl _ _ _
          rw [List.foldl_cons, h1, if_pos hc]
        · left
          show List.foldl _ _ _ = _
          rw [List.foldl_cons, h1, if_neg hc]
      · right
        exact ⟨q, List.mem_cons_of_mem _ hq, h1⟩
    · refine Nat.le_trans ?_ h2
      split <;> omega
    · intro q hq
      rcases List.mem_cons.mp hq with rfl | hq
      · refine Nat.le_trans ?_ h2
        split <;> omega
      · exact h3 q hq

theorem post_outst (a : Agent) (k : Option Nat) : (a.post k).outst = a.outst := by
  unfold Agent.post
  split
  · rfl
  · unfold Agent.setTok
    dsimp only
    split <;> rfl

theorem posts_outst (bs : List Block) (a : Agent) : (bs.foldl (fun a b => a.post b.tk) a).outst = a.outst := by
  induction bs generalizing a with
  | nil => rfl
  | cons b bs ih => rw [List.foldl_cons, ih, post_outst]

theorem fold_outst_mem (ps : List Pend) (a : Agent) (x : Op) (hx : x ∈ a.outst) :
    ∃ d, { x with dead := d } ∈ (ps.foldl Agent.takeEffect a).outst := by
  induction ps generalizing a x with
  | nil => exact ⟨x.dead, hx⟩
  | cons p ps ih =>
    rw [List.foldl_cons]
    obtain ⟨d, hd⟩ := killDests_dead p x
    have : killDests p x ∈ (a.takeEffect p).outst := by
      rw [outst_takeEffect]
      exact List.mem_map_of_mem hx
    rw [hd] at this
    exact ih (a.takeEffect p) { x with dead := d } this

theorem commit_outst_mem (a : Agent) (t : Nat) (x : Op) (hx : x ∈ a.outst) :
    ∃ d, { x with dead := d } ∈ (a.commit t).outst := by
  rw [commit_eq]
  exact fold_outst_mem _ _ x hx

theorem enters_outst (v : State) (path : Path) (ord : Ord) (scope : Scope) (tk : Option Nat) (kind : OpKind)
    (dests : List Loc) :
    ∃ o ∈ (v.enqueue true path ord scope tk kind dests).laneNext.ag.outst, o.num = v.ag.nextOp ∧ o.kind = kind := by
  refine ⟨laneOp v path ord scope tk kind dests, ?_, rfl, rfl⟩
  unfold State.laneNext
  dsimp only
  rw [bump_ag_eq]
  show _ ∈ (Agent.nextLane _).outst
  rw [nextLane_eq]
  show _ ∈ v.ag.outst ++ [_]
  exact List.mem_append_right _ (List.mem_singleton_self _)

theorem keepLanes_bit (L : List Nat) (z : BitVec 32) (i : Nat) (hi : i < 32) :
    (L.foldl (fun m l => m ||| laneBit l) z).getLsbD i = (z.getLsbD i || decide (i ∈ L)) := by
  induction L generalizing z with
  | nil => simp
  | cons a L ih =>
    rw [List.foldl_cons, ih, BitVec.getLsbD_or, laneBit, getLsbD_one_shiftLeft]
    by_cases ha : i = a
    · simp [ha]
      omega
    · simp [ha]

theorem boot_eq (i : Islet) (f : Bool) : (i.boot f).bootHalted = false → (i.boot f).fuseA = max i.fuseA i.fuseB ∧ (i.boot f).fuseB = (i.boot f).fuseA := by
  unfold Islet.boot
  dsimp only
  split
  · intro h; exact absurd h (by simp)
  · intro _
    unfold Islet.pickSlot
    dsimp only
    split <;> (split <;> (try split)) <;> exact ⟨rfl, rfl⟩

theorem pick_eq (i : Islet) (hs : i.staged = false) : i.pickSlot =
    if 3 ≤ i.tries ∨ ¬ (i.slotOk.getD i.active false = true ∧ i.fuseValue ≤ i.svn.getD i.active 0) then
      if i.fallback = true ∨ ¬ (i.slotOk.getD ((i.active + 1) % 2) false = true ∧ i.fuseValue ≤ i.svn.getD ((i.active + 1) % 2) 0) then { i with
        bootHalted := true
        fallback := true }
      else { i with
        active := (i.active + 1) % 2
        tries := 1
        fallback := true
        updated := false }
    else { i with tries := i.tries + 1 } := by
  unfold Islet.pickSlot
  simp only [hs, Bool.false_eq_true, if_false, Bool.or_eq_true, decide_eq_true_eq, Bool.not_eq_true', Bool.and_eq_false_imp,
    decide_eq_false_iff_not, not_and]

theorem pick_boots (i : Islet) (hs : i.staged = false) (hh : i.bootHalted = false) : Boots i i.pickSlot := by
  rw [pick_eq i hs]
  refine ⟨?_, ?_, ?_⟩
  · intro h1 h2
    rw [if_neg (by rintro (h | h); · omega
                   · exact h h2)]
    exact ⟨hh, rfl, rfl, rfl⟩
  · intro h1 h2 h3
    rw [if_pos, if_neg]
    · exact ⟨hh, rfl, rfl, rfl⟩
    · rintro (h | h)
      · rw [h2] at h; exact absurd h (by simp)
      · exact h h3
    · by_cases h4 : i.tries < 3
      · exact .inr fun h => h1 ⟨h4, h⟩
      · exact .inl (by omega)
  · intro h1 h2
    rw [if_pos, if_pos (show _ ∨ ¬ (_ ∧ _) from h2)]
    by_cases h4 : i.tries < 3
    · exact .inr fun h => h1 ⟨h4, h⟩
    · exact .inl (by omega)

theorem mem_updAll {s : State} {f : Agent → Agent} {b : Agent} (h : b ∈ (s.updAll f).agents) : ∃ a ∈ s.agents, b = f a := by
  unfold State.updAll State.agents at h
  simp only [List.mem_cons, List.mem_map] at h
  obtain h | ⟨a, ha, h⟩ := h
  · exact ⟨s.ag, List.mem_cons_self, h⟩
  · exact ⟨a, List.mem_cons_of_mem _ ha, h.symm⟩

theorem mem_updAgent {s : State} {id : Nat} {f : Agent → Agent} {b : Agent} (h : b ∈ (s.updAgent id f).agents) :
    ∃ a ∈ s.agents, b = f a ∨ b = a := by
  unfold State.updAgent State.agents at h
  split at h
  · simp only [List.mem_cons] at h
    obtain h | h := h
    · exact ⟨s.ag, List.mem_cons_self, .inl h⟩
    · exact ⟨b, List.mem_cons_of_mem _ h, .inr rfl⟩
  · simp only [List.mem_cons, List.mem_map] at h
    obtain h | ⟨a, ha, h⟩ := h
    · exact ⟨s.ag, List.mem_cons_self, .inr h⟩
    · refine ⟨a, List.mem_cons_of_mem _ ha, ?_⟩
      split at h
      · exact .inl h.symm
      · exact .inr h.symm

theorem low_le {f : Nat → Option Agent} (hf : ∀ c a, f c = some a → a.core = c) (n : Nat) {c : Nat} (hc : c < n) (a : Agent) (ha : f c = some a) :
    (((List.range n).filterMap f).map fun a => a.core).headD 64 ≤ c := by
  have hp : ((List.range n).filterMap f).Pairwise fun a b => a.core < b.core := by
    rw [List.pairwise_filterMap]
    refine List.Pairwise.imp ?_ List.pairwise_lt_range
    intro x y hxy b hb b' hb'
    rw [hf _ _ hb, hf _ _ hb']
    exact hxy
  have hm : a ∈ (List.range n).filterMap f := by
    rw [List.mem_filterMap]
    exact ⟨c, List.mem_range.mpr hc, ha⟩
  cases hl : (List.range n).filterMap f with
  | nil => rw [hl] at hm; exact absurd hm (by simp)
  | cons x r =>
    rw [hl] at hm hp
    show x.core ≤ c
    rw [← hf _ _ ha]
    obtain rfl | hm := List.mem_cons.mp hm
    · exact Nat.le_refl _
    · exact Nat.le_of_lt (List.rel_of_pairwise_cons hp hm)

theorem fold_keep {α : Type} (f : State → α → State) (hf : ∀ s x, (f s x).agents = s.agents ∧ (f s x).fabric = s.fabric ∧ (f s x).launches = s.launches) :
    ∀ (l : List α) (s : State), (l.foldl f s).agents = s.agents ∧ (l.foldl f s).fabric = s.fabric ∧ (l.foldl f s).launches = s.launches := by
  intro l
  induction l with
  | nil => intro s; exact ⟨rfl, rfl, rfl⟩
  | cons x r ih =>
    intro s
    obtain ⟨a, b, c⟩ := ih (f s x)
    obtain ⟨d, e, g⟩ := hf s x
    exact ⟨a.trans d, b.trans e, c.trans g⟩

theorem putBytes_keep (s : State) (o a : Nat) (bs : List Byte) : (s.putBytes o a bs).agents = s.agents ∧ (s.putBytes o a bs).fabric = s.fabric ∧ (s.putBytes o a bs).launches = s.launches := by
  unfold State.putBytes
  cases s.keyGen o with
  | none => exact ⟨rfl, rfl, rfl⟩
  | some g =>
    dsimp only
    split
    · exact ⟨rfl, rfl, rfl⟩
    · exact ⟨rfl, rfl, rfl⟩

theorem putCap_keep (s : State) (o a : Nat) (c : Cap) : (s.putCap o a c).agents = s.agents ∧ (s.putCap o a c).fabric = s.fabric ∧ (s.putCap o a c).launches = s.launches := by
  unfold State.putCap
  dsimp only
  split
  · exact putBytes_keep ..
  · exact putBytes_keep ..

theorem dumpCore_keep (pa : Nat) (s : State) (a : Agent) : (s.dumpCore pa a).agents = s.agents ∧ (s.dumpCore pa a).fabric = s.fabric ∧ (s.dumpCore pa a).launches = s.launches := by
  unfold State.dumpCore
  dsimp only
  have h := fold_keep (fun s (e : Nat × Cap) => s.putCap 0 (pa + 1024 * a.core + 16 * e.1) e.2) (fun s e => putCap_keep ..)
    ((List.range ((List.range 40).map a.capNow ++ [a.pcc, a.xpc, a.kentry, a.kscr]).length).zip
      ((List.range 40).map a.capNow ++ [a.pcc, a.xpc, a.kentry, a.kscr])) s
  have h2 := putBytes_keep (((List.range ((List.range 40).map a.capNow ++ [a.pcc, a.xpc, a.kentry, a.kscr]).length).zip
      ((List.range 40).map a.capNow ++ [a.pcc, a.xpc, a.kentry, a.kscr])).foldl (fun s (e : Nat × Cap) => s.putCap 0 (pa + 1024 * a.core + 16 * e.1) e.2) s) 0 (pa + 1024 * a.core + 704)
    (bytesLE 52 (a.xlpc.toNat + a.xaddr.toNat * 2 ^ 64 + a.ipend.toNat * 2 ^ 128 + a.tcmp.toNat * 2 ^ 192
    + a.xcause.toNat * 2 ^ 256 + a.xstat.toNat * 2 ^ 288 + a.xlanes.toNat * 2 ^ 320 + a.xinfo.toNat * 2 ^ 352
    + (sget 0 a.toks 15).toNat * 2 ^ 384))
  exact ⟨h2.1.trans h.1, h2.2.1.trans h.2.1, h2.2.2.trans h.2.2⟩

theorem restart_of (s : State) (p : Nat) : ∃ low : Nat,
    (∀ b ∈ (s.restartSystem p).agents, b.isSys = true → b.cpart = p → b = if b.core = low then
        { Agent.sysStart b.core p (BitVec.ofNat 32 p) 1 Config.bootEntry with id := b.id }
      else { Agent.sysIdle b.core with
        id := b.id
        cpart := p })
    ∧ (∀ b ∈ (s.restartSystem p).agents, b.isSys = true → b.cpart = p → b.core < 64 → low ≤ b.core) := by
  have key : ∀ low : Nat, ∀ b, (∃ a ∈ s.agents, b = if (!a.isSys || a.cpart != p) = true then a
      else if a.core = low then { Agent.sysStart a.core p (BitVec.ofNat 32 p) 1 Config.bootEntry with id := a.id }
      else { Agent.sysIdle a.core with
        id := a.id
        cpart := p }) → b.isSys = true → b.cpart = p → ∃ a ∈ s.agents, a.isSys = true ∧ a.cpart = p ∧ a.core = b.core ∧ b = if b.core = low then
        { Agent.sysStart b.core p (BitVec.ofNat 32 p) 1 Config.bootEntry with id := b.id }
      else { Agent.sysIdle b.core with
        id := b.id
        cpart := p } := by
    rintro low b ⟨a, ha, hb⟩ h1 h2
    split at hb
    · rename_i hc
      subst hb
      exact absurd hc (by simp [h1, h2])
    · rename_i hc
      have hc : a.isSys = true ∧ a.cpart = p := by simpa using hc
      refine ⟨a, ha, hc.1, hc.2, ?_⟩
      split at hb
      · rename_i hl
        have e1 : b.core = a.core := by rw [hb]; rfl
        have e2 : b.id = a.id := by rw [hb]
        rw [e1, if_pos hl, e2]
        exact ⟨rfl, hb⟩
      · rename_i hl
        have e1 : b.core = a.core := by rw [hb]; rfl
        have e2 : b.id = a.id := by rw [hb]
        rw [e1, if_neg hl, e2]
        exact ⟨rfl, hb⟩
  refine ⟨((s.systemCores p).map fun a => a.core).headD 64, ?_, ?_⟩
  · intro b hb h1 h2
    obtain ⟨a, -, -, -, -, h⟩ := key _ b (mem_updAll hb) h1 h2
    exact h
  · intro b hb h1 h2 h3
    obtain ⟨a, ha, h4, h5, h6, -⟩ := key _ b (mem_updAll hb) h1 h2
    obtain ⟨x, hx⟩ : ∃ x, (s.agents.find? fun a => a.isSys && a.core == b.core && a.cpart == p) = some x := by
      rw [← Option.isSome_iff_exists, List.find?_isSome]
      exact ⟨a, ha, by simp [h4, h5, h6]⟩
    refine low_le (f := fun c => s.agents.find? fun a => a.isSys && a.core == c && a.cpart == p) ?_ 64 h3 x hx
    intro c a h
    have := List.find?_some h
    simp only [Bool.and_eq_true, beq_iff_eq] at this
    exact this.1.2

theorem xstatField_bit (x : Word) (lo n v k : Nat) (hk : k < 32) : (xstatField x lo n v).getLsbD k =
    if lo ≤ k ∧ k < lo + n then v.testBit (k - lo) else x.getLsbD k := by
  unfold xstatField
  simp only [BitVec.getLsbD_or, BitVec.getLsbD_and, BitVec.getLsbD_not, BitVec.getLsbD_ofNat, Nat.testBit_mul_two_pow,
    Nat.testBit_two_pow_sub_one, Nat.testBit_mod_two_pow, hk, decide_true, Bool.true_and]
  by_cases h : lo ≤ k
  · by_cases h2 : k < lo + n
    · have : k - lo < n := by omega
      simp [h, h2, this]
    · have : ¬ k - lo < n := by omega
      simp [h, h2, this]
  · simp [h]

theorem xstat_at (x : Word) (m l h : Nat) (k : Nat) (hk : k < 32) :
    (xstatField (xstatField (xstatField (xstatField x 0 2 m) 6 1 l) 2 2 h) 7 1 1).getLsbD k =
      if k < 2 then m.testBit k else if k < 4 then h.testBit (k - 2) else if k = 6 then l.testBit 0 else if k = 7 then true
        else x.getLsbD k := by
  rw [xstatField_bit _ _ _ _ _ hk, xstatField_bit _ _ _ _ _ hk, xstatField_bit _ _ _ _ _ hk, xstatField_bit _ _ _ _ _ hk]
  interval_cases k <;> simp

theorem extract_at (x : Word) (lo m : Nat) (hl : lo + 2 ≤ 32) (hm : m < 4) (h0 : x.getLsbD lo = m.testBit 0) (h1 : x.getLsbD (lo + 1) = m.testBit 1) :
    (x.extractLsb' lo 2).toNat = m := by
  apply Nat.eq_of_testBit_eq
  intro i
  have : (x.extractLsb' lo 2).toNat.testBit i = (x.extractLsb' lo 2).getLsbD i := rfl
  rw [this, BitVec.getLsbD_extractLsb']
  by_cases h : i < 2
  · interval_cases i
    · simpa using h0
    · simpa using h1
  · have : m.testBit i = false := by
      apply Nat.testBit_lt_two_pow
      calc m < 2 ^ 2 := hm
        _ ≤ 2 ^ i := Nat.pow_le_pow_right (by decide) (by omega)
    simp [h, this]

theorem suspend_eq (a : Agent) : ∃ x, a.suspend = { a with
    wait := .none
    suspended := x } := by
  unfold Agent.suspend
  cases h : a.wait with
  | none => exact ⟨none, rfl⟩
  | _ => exact ⟨_, rfl⟩

theorem modes (a : Agent) : a.mode < 4 ∧ handlerMode a < 4 := by
  have h1 : a.mode < 4 := BitVec.isLt _
  have h2 : a.bmode < 4 := BitVec.isLt _
  refine ⟨h1, ?_⟩
  unfold handlerMode
  split
  · split <;> omega
  · exact h2

theorem enter_in (a : Agent) (x) (t : Trap) (hk : a.kentry.tag = true) :
    InHandler a (({ a with
      wait := .none
      suspended := x } : Agent).enterTrap t).loseLatches t := by
  generalize hB : ({ a with
    wait := .none
    suspended := x
    xpc := { a.pcc with tag := true }
    xlpc := BitVec.ofNat 64 a.laneNext
    xcause := BitVec.ofNat 32 t.cause
    xaddr := BitVec.ofNat 64 t.addr
    xlanes := t.lanes
    xinfo := BitVec.ofNat 32 t.info
    xstat := xstatField (xstatField (xstatField (xstatField a.xstat 0 2 a.mode) 6 1 (if t.lane then 1 else 0))
      2 2 a.trapMode) 7 1 1
    kscr := a.capNow 39 } : Agent) = B
  generalize hW : B.writes (capWrites 39 a.kscr) = W
  have hf : W = withFiles B W := by rw [← hW]; exact writes_files _ _
  have he : (({ a with
      wait := .none
      suspended := x } : Agent).enterTrap t).loseLatches = { W with
    pcc := { a.kentry.withSeal 0 with tag := a.kentry.tag }
    stepping := .off
    stalled := false
    touching := none
    pausing := false
    pauseEnd := 0
    latches := [none, none, none, none]
    alatch := W.alatch.map fun r => { r with coll := none } } := by
    rw [← hW, ← hB]
    rfl
  rw [he, hk]
  have hx : W.xstat = xstatField (xstatField (xstatField (xstatField a.xstat 0 2 a.mode) 6 1 (if t.lane then 1 else 0))
      2 2 (handlerMode a)) 7 1 1 := by
    rw [hf, ← hB]
    rfl
  have hbit : ∀ k, k < 32 → W.xstat.getLsbD k = if k < 2 then a.mode.testBit k else if k < 4 then (handlerMode a).testBit (k - 2)
      else if k = 6 then t.lane else if k = 7 then true else a.xstat.getLsbD k := by
    intro k hk
    rw [hx, xstat_at _ _ _ _ _ hk]
    cases t.lane <;> rfl
  obtain ⟨m1, m2⟩ := modes a
  have hs : ∀ w ∈ capWrites 39 a.kscr, scalarLoc w.1 = true := by
    intro w hw
    simp only [capWrites, List.mem_cons, List.not_mem_nil, or_false] at hw
    rcases hw with rfl | rfl | rfl | rfl | rfl <;> rfl
  have hraw : ∀ l, B.raw l = a.raw l := by
    intro l
    rw [← hB]
    cases l <;> rfl
  have hother : ∀ l, l ∉ [Loc.s 156, .s 157, .s 158, .s 159, .ct 39] → W.raw l = a.raw l := by
    intro l hl
    rw [← hW, raw_writes_other _ _ _ hs, hraw]
    intro hh
    apply hl
    simp only [capWrites, List.flatMap_cons, List.flatMap_nil, Loc.touched, List.mem_append, List.mem_cons, List.not_mem_nil] at hh
    have hh : (l = Loc.s 156 ∨ l = Loc.ct 39) ∨
      (l = Loc.s 157 ∨ l = Loc.ct 39) ∨ (l = Loc.s 158 ∨ l = Loc.ct 39) ∨ (l = Loc.s 159 ∨ l = Loc.ct 39) ∨ l = Loc.ct 39 := by
      simpa using hh
    rcases hh with (h | h) | (h | h) | (h | h) | (h | h) | h <;> rw [h] <;> decide
  refine ⟨?_, ?_, ?_, ?_, ?_, ?_, ?_, ?_, ?_, ?_, ?_, rfl, ?_, ?_, ?_, ?_⟩
  · show W.xpc = _; rw [hf, ← hB]; rfl
  · show W.xlpc = _; rw [hf, ← hB]; rfl
  · show W.xcause = _; rw [hf, ← hB]; rfl
  · show W.xaddr = _; rw [hf, ← hB]; rfl
  · show W.xlanes = _; rw [hf, ← hB]; rfl
  · show W.xinfo = _; rw [hf, ← hB]; rfl
  · exact extract_at W.xstat 0 a.mode (by decide) m1 (by rw [hbit _ (by decide)]; rfl) (by rw [hbit _ (by decide)]; rfl)
  · exact extract_at W.xstat 2 (handlerMode a) (by decide) m2 (by rw [hbit _ (by decide)]; rfl) (by rw [hbit _ (by decide)]; rfl)
  · show W.xstat.getLsbD 6 = _
    rw [hbit _ (by decide)]; rfl
  · show W.xstat.getLsbD 7 = _
    rw [hbit _ (by decide)]; rfl
  · intro k h1 h2 h3
    show W.xstat.getLsbD k = _
    by_cases hk : k < 32
    · rw [hbit _ hk, if_neg (by omega), if_neg (by omega), if_neg h2, if_neg h3]
    · rw [BitVec.getLsbD_of_ge _ _ (by omega), BitVec.getLsbD_of_ge _ _ (by omega)]
  · show W.kscr = _; rw [hf, ← hB]; rfl
  · have hq : ∀ w ∈ capWrites 39 a.kscr, W.raw w.1 = w.2 := by
      intro w hw
      rw [← hW, raw_writes_mem _ _ hs ?_ ?_ (fun b l hl c => raw_fixed b c l hl) w hw]
      · simp only [capWrites, List.mem_cons, List.not_mem_nil, or_false] at hw
        rcases hw with rfl | rfl | rfl | rfl | rfl <;> rfl
      · unfold capWrites
        simp [Loc.touched]
      · intro w hw b
        simp only [capWrites, List.mem_cons, List.not_mem_nil, or_false] at hw
        rcases hw with rfl | rfl | rfl | rfl | rfl
        · exact raw_write_s _ _ _
        · exact raw_write_s _ _ _
        · exact raw_write_s _ _ _
        · exact raw_write_s _ _ _
        · exact raw_write_ct _ _ _ (by decide) (by unfold bit01; split <;> simp)
    show quadOf W 39 = _
    unfold quadOf
    have e0 := hq (.s (4 * 39), a.kscr.bits.extractLsb' 0 32) (by simp [capWrites])
    have e1 := hq (.s (4 * 39 + 1), a.kscr.bits.extractLsb' 32 32) (by simp [capWrites])
    have e2 := hq (.s (4 * 39 + 2), a.kscr.bits.extractLsb' 64 32) (by simp [capWrites])
    have e3 := hq (.s (4 * 39 + 3), a.kscr.bits.extractLsb' 96 32) (by simp [capWrites])
    have e4 := hq (.ct 39, bit01 a.kscr.tag) (by simp [capWrites])
    dsimp only at e0 e1 e2 e3 e4
    rw [e0, e1, e2, e3, e4]
    have : a.kscr = ⟨a.kscr.bits, a.kscr.tag⟩ := rfl
    rw [this]
    congr 1
    · dsimp only
      generalize a.kscr.bits = v
      apply BitVec.eq_of_getLsbD_eq
      intro i hi
      simp only [BitVec.getLsbD_append, BitVec.getLsbD_extractLsb']
      by_cases h1 : i < 32
      · simp [h1]
      · by_cases h2 : i < 64
        · simp [h1, show i - 32 < 32 by omega, show 32 + (i - 32) = i by omega]
        · by_cases h3 : i < 96
          · simp [h1, show ¬ i - 32 < 32 by omega, show i - 32 - 32 < 32 by omega, show 64 + (i - 32 - 32) = i by omega]
          · simp [h1, show ¬ i - 32 < 32 by omega, show ¬ i - 32 - 32 < 32 by omega, show i - 32 - 32 - 32 < 32 by omega, show 96 + (i - 32 - 32 - 32) = i by omega]
    · dsimp only
      cases a.kscr.tag <;> rfl
  · exact hother
  · dsimp only
    rw [hf, ← hB]
    rfl

theorem lanes_fold (fs : List Fail) (m : BitVec 32) (l : Nat) (hl : l < 32) : (fs.foldl (fun m h => m ||| laneBit h.lane) m).getLsbD l =
    (m.getLsbD l || decide (∃ f ∈ fs, f.lane = l)) := by
  induction fs generalizing m with
  | nil => simp
  | cons x r ih =>
    rw [List.foldl_cons, ih, BitVec.getLsbD_or]
    unfold laneBit
    rw [getLsbD_one_shiftLeft, Bool.or_assoc]
    congr 1
    rw [Bool.eq_iff_iff]
    simp only [Bool.or_eq_true, decide_eq_true_eq, List.mem_cons]
    constructor
    · rintro (⟨h1, h2⟩ | ⟨f, h1, h2⟩)
      · exact ⟨x, .inl rfl, h1.symm⟩
      · exact ⟨f, .inr h1, h2⟩
    · rintro ⟨f, rfl | h1, h2⟩
      · exact .inl ⟨h2.symm, by omega⟩
      · exact .inr ⟨f, h1, h2⟩

theorem min_fold (r : List Fail) (n k : Nat) (h : n = k ∨ ∃ g ∈ r, g.rank = k) (hn : k ≤ n) (hr : ∀ g ∈ r, k ≤ g.rank) :
    r.foldl (fun m g => min m g.rank) n = k := by
  induction r generalizing n with
  | nil =>
    obtain h | ⟨g, hg, -⟩ := h
    · exact h
    · exact absurd hg (by simp)
  | cons x r ih =>
    rw [List.foldl_cons]
    apply ih
    · obtain rfl | ⟨g, hg, hk⟩ := h
      · left
        exact Nat.min_eq_left (hr x List.mem_cons_self)
      · obtain rfl | hg := List.mem_cons.mp hg
        · left; rw [hk]; exact Nat.min_eq_right hn
        · exact .inr ⟨g, hg, hk⟩
    · exact Nat.le_min.mpr ⟨hn, hr x List.mem_cons_self⟩
    · exact fun g hg => hr g (List.mem_cons_of_mem _ hg)

theorem pick (rs : List Req) (f : Req → Option Fail) (p : Req → Prop) (k c : Nat)
    (hf : ∀ r ∈ rs, ∀ x, f r = some x → x.lane = r.lane ∧ x.addr = r.va ∧ k ≤ x.rank ∧ (x.rank = k → x.cause = c ∧ p r))
    (hp : ∀ r ∈ rs, p r → ∃ x, f r = some x ∧ x.rank = k)
    (he : ∃ r ∈ rs, p r) :
    ∃ (m : BitVec 32) (r : Req), LanesOf m rs p ∧ FirstOf r rs p ∧ pickFail (rs.filterMap f) = some (c, m, r.va) := by
  classical
  have key : (rs.filterMap f).filter (fun g => g.rank == k) = (rs.filter fun r => decide (p r)).filterMap f := by
    clear he
    induction rs with
    | nil => rfl
    | cons x r ih =>
      have ih := ih (fun y hy => hf y (List.mem_cons_of_mem _ hy)) (fun y hy => hp y (List.mem_cons_of_mem _ hy))
      by_cases hx : p x
      · obtain ⟨y, hy, hr⟩ := hp x List.mem_cons_self hx
        rw [List.filter_cons_of_pos (by simpa using hx), List.filterMap_cons, List.filterMap_cons, hy]
        dsimp only
        rw [List.filter_cons_of_pos (by simpa using hr), ih]
      · rw [List.filter_cons_of_neg (by simpa using hx), List.filterMap_cons]
        cases hy : f x with
        | none => exact ih
        | some y =>
          dsimp only
          rw [List.filter_cons_of_neg, ih]
          simp only [beq_iff_eq]
          intro hr
          exact hx ((hf x List.mem_cons_self y hy).2.2.2 hr).2
  obtain ⟨r0, hr0, hp0⟩ := he
  have hne : ∃ g, (rs.find? fun r => decide (p r)) = some g := by
    rw [← Option.isSome_iff_exists, List.find?_isSome]
    exact ⟨r0, hr0, by simpa using hp0⟩
  obtain ⟨g, hg⟩ := hne
  have hsplit : ∃ xs ys, rs = xs ++ g :: ys ∧ p g ∧ ∀ x ∈ xs, ¬ p x := by
    rw [List.find?_eq_some_iff_append] at hg
    obtain ⟨h1, xs, ys, h2, h3⟩ := hg
    exact ⟨xs, ys, h2, by simpa using h1, fun x hx => by simpa using h3 x hx⟩
  obtain ⟨xs, ys, h1, h2, h3⟩ := hsplit
  have hgm : g ∈ rs := by rw [h1]; simp
  obtain ⟨x, hx, hk⟩ := hp g hgm h2
  have hfil : ∃ tl, (rs.filter fun r => decide (p r)) = g :: tl := by
    refine ⟨ys.filter fun r => decide (p r), ?_⟩
    rw [h1, List.filter_append, List.filter_cons_of_pos (by simpa using h2)]
    rw [List.filter_eq_nil_iff.mpr (by intro y hy; simpa using h3 y hy)]
    rfl
  obtain ⟨tl, htl⟩ := hfil
  have hall : ∀ y ∈ rs.filterMap f, k ≤ y.rank := by
    intro y hy
    obtain ⟨r, hr, he⟩ := List.mem_filterMap.mp hy
    exact (hf r hr y he).2.2.1
  have hmem : x ∈ rs.filterMap f := List.mem_filterMap.mpr ⟨g, hgm, hx⟩
  obtain ⟨e1, e2, e3, e4⟩ := hf g hgm x hx
  refine ⟨((rs.filterMap f).filter fun g => g.rank == k).foldl (fun m h => m ||| laneBit h.lane) 0, g, ?_, ⟨xs, ys, h1, h2, h3⟩, ?_⟩
  · intro l hl
    rw [lanes_fold _ _ _ hl, key, show (0 : BitVec 32).getLsbD l = false from BitVec.getLsbD_zero]
    simp only [Bool.false_or, decide_eq_true_eq, List.mem_filterMap, List.mem_filter]
    constructor
    · rintro ⟨y, ⟨r, ⟨hr, hpr⟩, hy⟩, hl⟩
      exact ⟨r, hr, (hf r hr y hy).1 ▸ hl, hpr⟩
    · rintro ⟨r, hr, hl, hpr⟩
      obtain ⟨y, hy, -⟩ := hp r hr hpr
      exact ⟨y, ⟨r, ⟨hr, hpr⟩, hy⟩, (hf r hr y hy).1.trans hl⟩
  · unfold pickFail
    cases hF : rs.filterMap f with
    | nil => rw [hF] at hmem; exact absurd hmem (by simp)
    | cons f0 r =>
      dsimp only
      have hrank : r.foldl (fun m g => min m g.rank) f0.rank = k := by
        rw [hF] at hmem hall
        apply min_fold
        · obtain rfl | h := List.mem_cons.mp hmem
          · exact .inl hk
          · exact .inr ⟨x, h, hk⟩
        · exact hall f0 List.mem_cons_self
        · exact fun y hy => hall y (List.mem_cons_of_mem _ hy)
      rw [hrank, ← hF, key, htl, List.filterMap_cons, hx]
      dsimp only
      rw [(e4 hk).1, e2]

theorem check_some {size align : Nat} {r : Req} {c : Nat} : r.cap.check r.need r.ea size align = some c ↔
    FailsCheck size align c r ∧ ∀ j < c, ¬ FailsCheck size align j r := by
  have none_of : ∀ j, ¬ (8 ≤ j ∧ j ≤ 12) → ¬ FailsCheck size align j r := by
    intro j hj h
    unfold FailsCheck at h
    split at h <;> (first | exact h | omega)
  have before : ∀ k, (∀ j < k, ¬ FailsCheck size align j r) ↔ (∀ j < k, 8 ≤ j → j ≤ 12 → ¬ FailsCheck size align j r) := by
    intro k
    constructor
    · intro h j hj _ _
      exact h j hj
    · intro h j hj
      by_cases hh : 8 ≤ j ∧ j ≤ 12
      · exact h j hj hh.1 hh.2
      · exact none_of j hh
  have f8 : FailsCheck size align 8 r ↔ r.cap.tag = false := Iff.rfl
  have f9 : FailsCheck size align 9 r ↔ r.cap.sealType ≠ 0 ∧ r.cap.isExport = false := Iff.rfl
  have f10 : FailsCheck size align 10 r ↔ ∃ p ∈ r.need, r.cap.has p = false := Iff.rfl
  have f11 : FailsCheck size align 11 r ↔ (r.ea < r.cap.base ∨ (r.cap.top : Int) < r.ea + size) := Iff.rfl
  have f12 : FailsCheck size align 12 r ↔ r.ea % align ≠ 0 := Iff.rfl
  have done : ∀ k, FailsCheck size align k r → (∀ j < k, ¬ FailsCheck size align j r) →
      (some k = some c ↔ FailsCheck size align c r ∧ ∀ j < c, ¬ FailsCheck size align j r) := by
    intro k hk hb
    constructor
    · intro h
      obtain rfl := Option.some.inj h
      exact ⟨hk, hb⟩
    · rintro ⟨h1, h2⟩
      congr 1
      rcases Nat.lt_trichotomy k c with h | h | h
      · exact absurd hk (h2 k h)
      · exact h
      · exact absurd h1 (hb c h)
  unfold Cap.check
  split
  · rename_i h
    refine done 8 (f8.mpr (by simpa using h)) ?_
    intro j hj; exact none_of j (by omega)
  · rename_i h1
    split
    · rename_i h
      refine done 9 (f9.mpr (by simpa using h)) ?_
      rw [before]
      intro j hj h8 _
      obtain rfl : j = 8 := by omega
      rw [f8]; simpa using h1
    · rename_i h2
      split
      · rename_i h
        refine done 10 (f10.mpr (by simpa using h)) ?_
        rw [before]
        intro j hj h8 _
        obtain rfl | rfl : j = 8 ∨ j = 9 := by omega
        · rw [f8]; simpa using h1
        · rw [f9]; simpa using h2
      · rename_i h3
        split
        · rename_i h
          refine done 11 (f11.mpr (by simpa using h)) ?_
          rw [before]
          intro j hj h8 _
          obtain rfl | rfl | rfl : j = 8 ∨ j = 9 ∨ j = 10 := by omega
          · rw [f8]; simpa using h1
          · rw [f9]; simpa using h2
          · rw [f10]; simpa using h3
        · rename_i h4
          split
          · rename_i h
            refine done 12 (f12.mpr (by simpa using h)) ?_
            rw [before]
            intro j hj h8 _
            obtain rfl | rfl | rfl | rfl : j = 8 ∨ j = 9 ∨ j = 10 ∨ j = 11 := by omega
            · rw [f8]; simpa using h1
            · rw [f9]; simpa using h2
            · rw [f10]; simpa using h3
            · rw [f11]; simpa using h4
          · rename_i h5
            constructor
            · intro h; exact absurd h (by simp)
            · rintro ⟨h, -⟩
              exfalso
              by_cases hh : 8 ≤ c ∧ c ≤ 12
              · obtain rfl | rfl | rfl | rfl | rfl : c = 8 ∨ c = 9 ∨ c = 10 ∨ c = 11 ∨ c = 12 := by omega
                · exact (f8.not.mpr (by simpa using h1)) h
                · exact (f9.not.mpr (by simpa using h2)) h
                · exact (f10.not.mpr (by simpa using h3)) h
                · exact (f11.not.mpr (by simpa using h4)) h
                · exact (f12.not.mpr (by simpa using h5)) h
              · exact none_of c hh h

theorem resolve_id (s : State) (lane : Bool) (xs acc : List (Req × XRes)) (h : ∀ x ∈ xs, ∀ a p z, x.2 ≠ .touch a p z) :
    s.resolveTouches lane acc xs = .ok (s, acc ++ xs) := by
  induction xs generalizing acc with
  | nil => simp [State.resolveTouches]
  | cons x r ih =>
    unfold State.resolveTouches
    cases hx : x.2 with
    | touch a p z => exact absurd hx (h x List.mem_cons_self a p z)
    | _ =>
      dsimp only
      rw [ih _ (fun y hy => h y (List.mem_cons_of_mem _ hy)), List.append_assoc]
      rfl

theorem rank_step (c d : Nat) (h : xlateStep c < xlateStep d) : xRank c < xRank d := by
  have e : ∀ x, xRank x = 6 + xlateStep x := by
    intro x
    by_cases h1 : x = 0x10
    · rw [h1]; rfl
    by_cases h2 : x = 0x13
    · rw [h2]; rfl
    by_cases h3 : x = 0x11
    · rw [h3]; rfl
    by_cases h4 : x = 0x14
    · rw [h4]; rfl
    by_cases h5 : x = 0x12
    · rw [h5]; rfl
    by_cases h6 : x = 0x0A
    · rw [h6]; rfl
    unfold xlateStep
    rw [List.idxOf_eq_length (by simp [h1, h2, h3, h4, h5, h6])]
    simp [xRank, h1, h2, h3, h4, h5, h6]
  rw [e, e]
  omega

end Sys2Proof.Laws
end

