-- ==== Sys2Proof/Laws/KeepBase.lean ====
section
/-!
SUPPORT. What every function over the state keeps: the form of memory, and the two fuse fields, which only rise.
`K` says it of memory and the fields, `KS` of a state, and one predicate for each type that carries states says it of
a result. The files that follow prove one lemma `keep_<function>` for each shared function and each meaning: from a
state of which it holds the result is one of which it holds, and a meaning answers a next state.
-/

namespace Sys2Proof.Laws.Keep

open Machine

/-- Memory in its form where `wants` asks for it, the fuses at least `fa` and `fb`. -/
def K (wants : Prop) (fa fb : Nat) (m : List Host.Cell) (x y : Nat) : Prop := (wants → Memory.wf m = true) ∧ fa ≤ x
      ∧ fb ≤ y

/-- The same of a state. -/
abbrev KS (wants : Prop) (fa fb : Nat) (s : State) : Prop := K wants fa fb s.mem s.islet.fuseA s.islet.fuseB

/-- A result that is a next state of which it holds. -/
def KOut (wants : Prop) (fa fb : Nat) (o : Out) : Prop :=
  match o with
  | .next t => KS wants fa fb t
  | _ => False

/-- The same of the state of a pair. -/
abbrev KP {α : Type} (wants : Prop) (fa fb : Nat) (p : State × α) : Prop := KS wants fa fb p.1

/-- The same of a state, if there is one. -/
def KOpt (wants : Prop) (fa fb : Nat) (o : Option State) : Prop :=
  match o with
  | some t => KS wants fa fb t
  | none => True

/-- The same of a pair's state, or of the state that ends early. -/
def KExc {α : Type} (wants : Prop) (fa fb : Nat) (o : Except State (State × α)) : Prop :=
  match o with
  | .ok t => KS wants fa fb t.1
  | .error t => KS wants fa fb t

/-- The same of a pair's state, if there is one. -/
def KOptP {α : Type} (wants : Prop) (fa fb : Nat) (o : Option (State × α)) : Prop :=
  match o with
  | some t => KS wants fa fb t.1
  | none => True

/-- The same of the state a `DevX` carries. -/
def KDevX (wants : Prop) (fa fb : Nat) (o : DevX) : Prop :=
  match o with
  | .ok s _ _ => KS wants fa fb s
  | .again s => KS wants fa fb s
  | .absent s => KS wants fa fb s
  | .fail s _ => KS wants fa fb s

/-- The same of the state a `DevRead` carries. -/
def KDevRead (wants : Prop) (fa fb : Nat) (o : DevRead) : Prop :=
  match o with
  | .ok s _ => KS wants fa fb s
  | .again s => KS wants fa fb s
  | .fail s _ _ => KS wants fa fb s

/-- The same of the state a `EpCheck` carries. -/
def KEpCheck (wants : Prop) (fa fb : Nat) (o : EpCheck) : Prop :=
  match o with
  | .ok s _ => KS wants fa fb s
  | .out s => KOut wants fa fb s

/-- The same of the state a `CollCheck` carries. -/
def KCollCheck (wants : Prop) (fa fb : Nat) (o : CollCheck) : Prop :=
  match o with
  | .ok s _ _ _ => KS wants fa fb s
  | .out s => KOut wants fa fb s

/-- The same of the state a `Pieces` carries. -/
def KPieces (wants : Prop) (fa fb : Nat) (o : Pieces) : Prop :=
  match o with
  | .ok s _ => KS wants fa fb s
  | .again s => KS wants fa fb s
  | .page s _ _ => KS wants fa fb s
  | .fail s _ _ => KS wants fa fb s

/-- The same of the state a `RowsX` carries. -/
def KRowsX (wants : Prop) (fa fb : Nat) (o : RowsX) : Prop :=
  match o with
  | .ok s _ => KS wants fa fb s
  | .again s => KS wants fa fb s
  | .page s _ _ => KS wants fa fb s
  | .fail s _ _ _ => KS wants fa fb s

/-- The same of the state a `Fetched` carries. -/
def KFetched (wants : Prop) (fa fb : Nat) (o : Fetched) : Prop :=
  match o with
  | .bits s _ => KS wants fa fb s
  | .fault s _ => KS wants fa fb s
  | .again s => KS wants fa fb s

/-- The same of the state a `TestRes` carries. -/
def KTestRes (wants : Prop) (fa fb : Nat) (o : TestRes) : Prop :=
  match o with
  | .is s _ => KS wants fa fb s
  | .again s => KS wants fa fb s
  | .fail s _ => KS wants fa fb s
  | .lost => True

/-- The same of the state a `Checked` carries. -/
def KChecked (wants : Prop) (fa fb : Nat) (o : Checked) : Prop :=
  match o with
  | .ok s _ => KS wants fa fb s
  | .trap s _ => KS wants fa fb s
  | .again s => KS wants fa fb s

/-- The same of the state a `TouchRes` carries. -/
def KTouchRes (wants : Prop) (fa fb : Nat) (o : TouchRes) : Prop :=
  match o with
  | .done s => KS wants fa fb s
  | .declined s => KS wants fa fb s
  | .wait s => KS wants fa fb s

/-- The same of the state a `NotifyWay` carries. -/
def KNotifyWay (wants : Prop) (fa fb : Nat) (o : NotifyWay) : Prop :=
  match o with
  | .none s => KS wants fa fb s
  | .wait s => KS wants fa fb s
  | .place s _ _ => KS wants fa fb s

/-- The same of the state a `ForkWay` carries. -/
def KForkWay (wants : Prop) (fa fb : Nat) (o : ForkWay) : Prop :=
  match o with
  | .fails s => KS wants fa fb s
  | .wait s => KS wants fa fb s
  | .takes s _ _ _ _ => KS wants fa fb s

variable {wants : Prop} {fa fb : Nat}

theorem DevX_ok {r : DevX} {s : State} {x1 x2} (e : r = .ok s x1 x2) (h : KDevX wants fa fb r) : KS wants fa fb s
      := by
  subst e; exact h

theorem DevX_again {r : DevX} {s : State}  (e : r = .again s ) (h : KDevX wants fa fb r) : KS wants fa fb s := by
  subst e; exact h

theorem DevX_absent {r : DevX} {s : State}  (e : r = .absent s ) (h : KDevX wants fa fb r) : KS wants fa fb s := by
  subst e; exact h

theorem DevX_fail {r : DevX} {s : State} {x1} (e : r = .fail s x1) (h : KDevX wants fa fb r) : KS wants fa fb s := by
  subst e; exact h

theorem DevRead_ok {r : DevRead} {s : State} {x1} (e : r = .ok s x1) (h : KDevRead wants fa fb r) : KS wants fa fb
      s := by
  subst e; exact h

theorem DevRead_again {r : DevRead} {s : State}  (e : r = .again s ) (h : KDevRead wants fa fb r) : KS wants fa fb
      s := by
  subst e; exact h

theorem DevRead_fail {r : DevRead} {s : State} {x1 x2} (e : r = .fail s x1 x2) (h : KDevRead wants fa fb r) : KS
      wants fa fb s := by
  subst e; exact h

theorem EpCheck_ok {r : EpCheck} {s : State} {x1} (e : r = .ok s x1) (h : KEpCheck wants fa fb r) : KS wants fa fb
      s := by
  subst e; exact h

theorem EpCheck_out {r : EpCheck} {o : Out} (e : r = .out o) (h : KEpCheck wants fa fb r) : KOut wants fa fb o := by
  subst e; exact h

theorem CollCheck_ok {r : CollCheck} {s : State} {x1 x2 x3} (e : r = .ok s x1 x2 x3) (h : KCollCheck wants fa fb r)
      : KS wants fa fb s := by
  subst e; exact h

theorem CollCheck_out {r : CollCheck} {o : Out} (e : r = .out o) (h : KCollCheck wants fa fb r) : KOut wants fa fb
      o := by
  subst e; exact h

theorem Pieces_ok {r : Pieces} {s : State} {x1} (e : r = .ok s x1) (h : KPieces wants fa fb r) : KS wants fa fb s
      := by
  subst e; exact h

theorem Pieces_again {r : Pieces} {s : State}  (e : r = .again s ) (h : KPieces wants fa fb r) : KS wants fa fb s
      := by
  subst e; exact h

theorem Pieces_page {r : Pieces} {s : State} {x1 x2} (e : r = .page s x1 x2) (h : KPieces wants fa fb r) : KS wants
      fa fb s := by
  subst e; exact h

theorem Pieces_fail {r : Pieces} {s : State} {x1 x2} (e : r = .fail s x1 x2) (h : KPieces wants fa fb r) : KS wants
      fa fb s := by
  subst e; exact h

theorem RowsX_ok {r : RowsX} {s : State} {x1} (e : r = .ok s x1) (h : KRowsX wants fa fb r) : KS wants fa fb s := by
  subst e; exact h

theorem RowsX_again {r : RowsX} {s : State}  (e : r = .again s ) (h : KRowsX wants fa fb r) : KS wants fa fb s := by
  subst e; exact h

theorem RowsX_page {r : RowsX} {s : State} {x1 x2} (e : r = .page s x1 x2) (h : KRowsX wants fa fb r) : KS wants fa
      fb s := by
  subst e; exact h

theorem RowsX_fail {r : RowsX} {s : State} {x1 x2 x3} (e : r = .fail s x1 x2 x3) (h : KRowsX wants fa fb r) : KS
      wants fa fb s := by
  subst e; exact h

theorem Fetched_bits {r : Fetched} {s : State} {x1} (e : r = .bits s x1) (h : KFetched wants fa fb r) : KS wants fa
      fb s := by
  subst e; exact h

theorem Fetched_fault {r : Fetched} {s : State} {x1} (e : r = .fault s x1) (h : KFetched wants fa fb r) : KS wants
      fa fb s := by
  subst e; exact h

theorem Fetched_again {r : Fetched} {s : State}  (e : r = .again s ) (h : KFetched wants fa fb r) : KS wants fa fb
      s := by
  subst e; exact h

theorem TestRes_is {r : TestRes} {s : State} {x1} (e : r = .is s x1) (h : KTestRes wants fa fb r) : KS wants fa fb
      s := by
  subst e; exact h

theorem TestRes_again {r : TestRes} {s : State}  (e : r = .again s ) (h : KTestRes wants fa fb r) : KS wants fa fb
      s := by
  subst e; exact h

theorem TestRes_fail {r : TestRes} {s : State} {x1} (e : r = .fail s x1) (h : KTestRes wants fa fb r) : KS wants fa
      fb s := by
  subst e; exact h

theorem Checked_ok {r : Checked} {s : State} {x1} (e : r = .ok s x1) (h : KChecked wants fa fb r) : KS wants fa fb
      s := by
  subst e; exact h

theorem Checked_trap {r : Checked} {s : State} {x1} (e : r = .trap s x1) (h : KChecked wants fa fb r) : KS wants fa
      fb s := by
  subst e; exact h

theorem Checked_again {r : Checked} {s : State}  (e : r = .again s ) (h : KChecked wants fa fb r) : KS wants fa fb
      s := by
  subst e; exact h

theorem TouchRes_done {r : TouchRes} {s : State}  (e : r = .done s ) (h : KTouchRes wants fa fb r) : KS wants fa fb
      s := by
  subst e; exact h

theorem TouchRes_declined {r : TouchRes} {s : State}  (e : r = .declined s ) (h : KTouchRes wants fa fb r) : KS
      wants fa fb s := by
  subst e; exact h

theorem TouchRes_wait {r : TouchRes} {s : State}  (e : r = .wait s ) (h : KTouchRes wants fa fb r) : KS wants fa fb
      s := by
  subst e; exact h

theorem NotifyWay_none {r : NotifyWay} {s : State}  (e : r = .none s ) (h : KNotifyWay wants fa fb r) : KS wants fa
      fb s := by
  subst e; exact h

theorem NotifyWay_wait {r : NotifyWay} {s : State}  (e : r = .wait s ) (h : KNotifyWay wants fa fb r) : KS wants fa
      fb s := by
  subst e; exact h

theorem NotifyWay_place {r : NotifyWay} {s : State} {x1 x2} (e : r = .place s x1 x2) (h : KNotifyWay wants fa fb r)
      : KS wants fa fb s := by
  subst e; exact h

theorem ForkWay_fails {r : ForkWay} {s : State}  (e : r = .fails s ) (h : KForkWay wants fa fb r) : KS wants fa fb
      s := by
  subst e; exact h

theorem ForkWay_wait {r : ForkWay} {s : State}  (e : r = .wait s ) (h : KForkWay wants fa fb r) : KS wants fa fb s
      := by
  subst e; exact h

theorem ForkWay_takes {r : ForkWay} {s : State} {x1 x2 x3 x4} (e : r = .takes s x1 x2 x3 x4) (h : KForkWay wants fa
      fb r) : KS wants fa fb s := by
  subst e; exact h

theorem mkDevX_ok {s : State} {x1 x2} (h : KS wants fa fb s) : KDevX wants fa fb (.ok s x1 x2) := h

theorem mkDevX_again {s : State}  (h : KS wants fa fb s) : KDevX wants fa fb (.again s ) := h

theorem mkDevX_absent {s : State}  (h : KS wants fa fb s) : KDevX wants fa fb (.absent s ) := h

theorem mkDevX_fail {s : State} {x1} (h : KS wants fa fb s) : KDevX wants fa fb (.fail s x1) := h

theorem mkDevRead_ok {s : State} {x1} (h : KS wants fa fb s) : KDevRead wants fa fb (.ok s x1) := h

theorem mkDevRead_again {s : State}  (h : KS wants fa fb s) : KDevRead wants fa fb (.again s ) := h

theorem mkDevRead_fail {s : State} {x1 x2} (h : KS wants fa fb s) : KDevRead wants fa fb (.fail s x1 x2) := h

theorem mkEpCheck_ok {s : State} {x1} (h : KS wants fa fb s) : KEpCheck wants fa fb (.ok s x1) := h

theorem mkEpCheck_out {o : Out} (h : KOut wants fa fb o) : KEpCheck wants fa fb (.out o) := h

theorem mkCollCheck_ok {s : State} {x1 x2 x3} (h : KS wants fa fb s) : KCollCheck wants fa fb (.ok s x1 x2 x3) := h

theorem mkCollCheck_out {o : Out} (h : KOut wants fa fb o) : KCollCheck wants fa fb (.out o) := h

theorem mkPieces_ok {s : State} {x1} (h : KS wants fa fb s) : KPieces wants fa fb (.ok s x1) := h

theorem mkPieces_again {s : State}  (h : KS wants fa fb s) : KPieces wants fa fb (.again s ) := h

theorem mkPieces_page {s : State} {x1 x2} (h : KS wants fa fb s) : KPieces wants fa fb (.page s x1 x2) := h

theorem mkPieces_fail {s : State} {x1 x2} (h : KS wants fa fb s) : KPieces wants fa fb (.fail s x1 x2) := h

theorem mkRowsX_ok {s : State} {x1} (h : KS wants fa fb s) : KRowsX wants fa fb (.ok s x1) := h

theorem mkRowsX_again {s : State}  (h : KS wants fa fb s) : KRowsX wants fa fb (.again s ) := h

theorem mkRowsX_page {s : State} {x1 x2} (h : KS wants fa fb s) : KRowsX wants fa fb (.page s x1 x2) := h

theorem mkRowsX_fail {s : State} {x1 x2 x3} (h : KS wants fa fb s) : KRowsX wants fa fb (.fail s x1 x2 x3) := h

theorem mkFetched_bits {s : State} {x1} (h : KS wants fa fb s) : KFetched wants fa fb (.bits s x1) := h

theorem mkFetched_fault {s : State} {x1} (h : KS wants fa fb s) : KFetched wants fa fb (.fault s x1) := h

theorem mkFetched_again {s : State}  (h : KS wants fa fb s) : KFetched wants fa fb (.again s ) := h

theorem mkTestRes_is {s : State} {x1} (h : KS wants fa fb s) : KTestRes wants fa fb (.is s x1) := h

theorem mkTestRes_again {s : State}  (h : KS wants fa fb s) : KTestRes wants fa fb (.again s ) := h

theorem mkTestRes_fail {s : State} {x1} (h : KS wants fa fb s) : KTestRes wants fa fb (.fail s x1) := h

theorem mkTestRes_lost  : KTestRes wants fa fb (.lost ) := trivial

theorem mkChecked_ok {s : State} {x1} (h : KS wants fa fb s) : KChecked wants fa fb (.ok s x1) := h

theorem mkChecked_trap {s : State} {x1} (h : KS wants fa fb s) : KChecked wants fa fb (.trap s x1) := h

theorem mkChecked_again {s : State}  (h : KS wants fa fb s) : KChecked wants fa fb (.again s ) := h

theorem mkTouchRes_done {s : State}  (h : KS wants fa fb s) : KTouchRes wants fa fb (.done s ) := h

theorem mkTouchRes_declined {s : State}  (h : KS wants fa fb s) : KTouchRes wants fa fb (.declined s ) := h

theorem mkTouchRes_wait {s : State}  (h : KS wants fa fb s) : KTouchRes wants fa fb (.wait s ) := h

theorem mkNotifyWay_none {s : State}  (h : KS wants fa fb s) : KNotifyWay wants fa fb (.none s ) := h

theorem mkNotifyWay_wait {s : State}  (h : KS wants fa fb s) : KNotifyWay wants fa fb (.wait s ) := h

theorem mkNotifyWay_place {s : State} {x1 x2} (h : KS wants fa fb s) : KNotifyWay wants fa fb (.place s x1 x2) := h

theorem mkForkWay_fails {s : State}  (h : KS wants fa fb s) : KForkWay wants fa fb (.fails s ) := h

theorem mkForkWay_wait {s : State}  (h : KS wants fa fb s) : KForkWay wants fa fb (.wait s ) := h

theorem mkForkWay_takes {s : State} {x1 x2 x3 x4} (h : KS wants fa fb s) : KForkWay wants fa fb (.takes s x1 x2 x3
      x4) := h

theorem mk_next {s : State} (h : KS wants fa fb s) : KOut wants fa fb (.next s) := h

theorem mk_ok {α : Type} {p : State × α} (h : KS wants fa fb p.1) : KExc wants fa fb (.ok p) := h

theorem mk_error {α : Type} {s : State} (h : KS wants fa fb s) : KExc wants fa fb (.error s : Except State (State ×
      α)) := h

theorem exc_ok {α : Type} {r : Except State (State × α)} {p : State × α} (e : r = .ok p) (h : KExc wants fa fb r) :
    KS wants fa fb p.1 := by
  subst e; exact h

theorem exc_error {α : Type} {r : Except State (State × α)} {s : State} (e : r = .error s) (h : KExc wants fa fb r) :
    KS wants fa fb s := by
  subst e; exact h

theorem exc_pair {α : Type} {r : Except State (State × α)} {s : State} {x : α} (e : r = .ok (s, x)) (h : KExc wants
      fa fb r) :
    KS wants fa fb s := by
  subst e; exact h

theorem optp_pair {α : Type} {o : Option (State × α)} {s : State} {x : α} (e : o = some (s, x)) (h : KOptP wants fa
      fb o) :
    KS wants fa fb s := by
  subst e; exact h

theorem keep_filter {x y : Nat} {m : List Host.Cell} (f : Host.Cell → Bool) (h : K wants fa fb m x y) : K wants fa
      fb (m.filter f) x y :=
  ⟨fun w => swf_filter 0 m f (h.1 w), h.2⟩

theorem mk_some {s : State} (h : KS wants fa fb s) : KOpt wants fa fb (some s) := h

theorem mk_none : KOpt wants fa fb none := trivial

theorem mk_somep {α : Type} {p : State × α} (h : KS wants fa fb p.1) : KOptP wants fa fb (some p) := h

theorem mk_nonep {α : Type} : KOptP wants fa fb (none : Option (State × α)) := trivial

theorem mkp {α : Type} {s : State} {x : α} (h : KS wants fa fb s) : KP wants fa fb (s, x) := h

theorem pair_fst {α : Type} {r : State × α} {s : State} {x : α} (e : r = (s, x)) (h : KP wants fa fb r) : KS wants
      fa fb s := by
  subst e; exact h

theorem out_next {o : Out} {s : State} (e : o = .next s) (h : KOut wants fa fb o) : KS wants fa fb s := by
  subst e; exact h

theorem opt_some {o : Option State} {s : State} (e : o = some s) (h : KOpt wants fa fb o) : KS wants fa fb s := by
  subst e; exact h

theorem optp_some {α : Type} {o : Option (State × α)} {p : State × α} (e : o = some p) (h : KOptP wants fa fb o) :
      KS wants fa fb p.1 := by
  subst e; exact h

theorem keep_writeBytes {m : List Host.Cell} {x y : Nat} (n : Nat) (bs : List Byte) (h : K wants fa fb m x y) :
    K wants fa fb (writeBytes m n bs) x y := ⟨fun w => wf_writeBytes m n bs (h.1 w), h.2⟩

theorem keep_writeNat {m : List Host.Cell} {x y : Nat} (p n v : Nat) (h : K wants fa fb m x y) :
    K wants fa fb (writeNat m p n v) x y := ⟨fun w => wf_writeBytes m p _ (h.1 w), h.2⟩

theorem keep_fold {α : Type} (f : State → α → State) (l : List α) (s : State) (h : KS wants fa fb s)
    (hf : ∀ s x, x ∈ l → KS wants fa fb s → KS wants fa fb (f s x)) : KS wants fa fb (l.foldl f s) := by
  induction l generalizing s with
  | nil => exact h
  | cons x l ih =>
    exact ih _ (hf s x (List.mem_cons_self ..) h) fun s y hy => hf s y (List.mem_cons_of_mem _ hy)

theorem keep_foldp {α β : Type} (f : State × β → α → State × β) (l : List α) (s : State × β) (h : KP wants fa fb s)
    (hf : ∀ s x, x ∈ l → KP wants fa fb s → KP wants fa fb (f s x)) : KP wants fa fb (l.foldl f s) := by
  induction l generalizing s with
  | nil => exact h
  | cons x l ih =>
    exact ih _ (hf s x (List.mem_cons_self ..) h) fun s y hy => hf s y (List.mem_cons_of_mem _ hy)

end Sys2Proof.Laws.Keep
end

