-- ==== Sys2Proof/Laws/KeepShared.lean ====
section
/-!
SUPPORT. What the shared operations over agents, memory, translation and traces keep: the form of memory and the fuses (see KeepBase).
-/

namespace Sys2Proof.Laws.Keep

open Machine

variable {wants : Prop} {fa fb : Nat}

theorem keep_putBytes (s : State) (o a : Nat) (bs : List Byte) (h_s : KS wants fa fb s) : KS wants fa fb
      (State.putBytes s o a bs) := by
  unfold State.putBytes
  repeat' first
    | with_reducible assumption
    | with_reducible apply keep_writeBytes
    | dsimp only [KS, KP]
    | split

theorem keep_writePhys (s : State) (a n v : Nat) (h_s : KS wants fa fb s) : KS wants fa fb (State.writePhys s a n
      v) := by
  unfold State.writePhys
  repeat' first
    | with_reducible assumption
    | with_reducible apply keep_writeNat

theorem keep_putCap (s : State) (o a : Nat) (c : Cap) (h_s : KS wants fa fb s) : KS wants fa fb (State.putCap s o a
      c) := by
  unfold State.putCap
  repeat' first
    | with_reducible assumption
    | with_reducible apply keep_putBytes
    | dsimp only [KS, KP]
    | split

theorem keep_updAgent (s : State) (id : Nat) (f : Agent → Agent) (h_s : KS wants fa fb s) : KS wants fa fb
      (State.updAgent s id f) := by
  unfold State.updAgent
  repeat' first
    | with_reducible assumption
    | dsimp only [KS, KP]
    | split

theorem keep_updAll (s : State) (f : Agent → Agent) (h_s : KS wants fa fb s) : KS wants fa fb (State.updAll s f) := by
  unfold State.updAll
  repeat' first
    | with_reducible assumption

theorem keep_focusOn (s : State) (id : Nat) (h_s : KS wants fa fb s) : KS wants fa fb (State.focusOn s id) := by
  unfold State.focusOn
  repeat' first
    | with_reducible assumption
    | dsimp only [KS, KP]
    | split

theorem keep_driftCopy (s : State) (key : Nat) (ns : Int) (h_s : KS wants fa fb s) : KS wants fa fb
      (State.driftCopy s key ns) := by
  unfold State.driftCopy
  repeat' first
    | with_reducible assumption

theorem keep_readTime (s : State) (key : Nat) (h_s : KS wants fa fb s) : KP wants fa fb (State.readTime s key) := by
  unfold State.readTime
  repeat' first
    | with_reducible assumption

theorem keep_logEvent (s : State) (kind detail : Nat) (h_s : KS wants fa fb s) : KS wants fa fb (State.logEvent s
      kind detail) := by
  unfold State.logEvent
  repeat' first
    | with_reducible assumption

theorem keep_noteKey (s : State) (owner pa : Nat) (h_s : KS wants fa fb s) : KS wants fa fb (State.noteKey s owner
      pa) := by
  unfold State.noteKey
  repeat' first
    | with_reducible assumption
    | with_reducible apply keep_logEvent
    | dsimp only [KS, KP]
    | split

theorem keep_holdObj (s : State) (pa : Nat) (h_s : KS wants fa fb s) : KS wants fa fb (State.holdObj s pa) := by
  unfold State.holdObj
  repeat' first
    | with_reducible assumption
    | with_reducible apply keep_writePhys
    | dsimp only [KS, KP]
    | split

theorem keep_signalLine (s : State) (pa : Nat) (h_s : KS wants fa fb s) : KS wants fa fb (State.signalLine s pa) := by
  unfold State.signalLine
  repeat' first
    | with_reducible assumption
    | with_reducible apply keep_writePhys
    | with_reducible apply keep_updAgent

theorem keep_signalOwned (s : State) (p pa : Nat) (h_s : KS wants fa fb s) : KS wants fa fb (State.signalOwned s p
      pa) := by
  unfold State.signalOwned
  repeat' first
    | with_reducible assumption
    | with_reducible apply keep_signalLine
    | dsimp only [KS, KP]
    | split

theorem keep_mrtCount (s : State) (a d : Nat) (h_s : KS wants fa fb s) : KS wants fa fb (State.mrtCount s a d) := by
  unfold State.mrtCount
  repeat' first
    | with_reducible assumption
    | with_reducible apply keep_writePhys

theorem keep_fillTlb (s : State) (w : Who) (t : Option Nat) (e : TlbEntry) (h_s : KS wants fa fb s) : KS wants fa
      fb (State.fillTlb s w t e) := by
  unfold State.fillTlb
  repeat' first
    | with_reducible assumption

theorem keep_fillMrt (s : State) (w : Who) (o va pte size : Nat) (count : Bool) (h_s : KS wants fa fb s) : KS wants
      fa fb (State.fillMrt s w o va pte size count) := by
  unfold State.fillMrt
  repeat' first
    | with_reducible assumption
    | with_reducible apply keep_mrtCount
    | with_reducible apply keep_writePhys
    | dsimp only [KS, KP]
    | split

theorem keep_noteXlate (s : State) (w : Who) (va pte size : Nat) (h_s : KS wants fa fb s) : KS wants fa fb
      (State.noteXlate s w va pte size) := by
  unfold State.noteXlate
  repeat' first
    | with_reducible assumption
    | with_reducible apply keep_fillMrt
    | with_reducible apply keep_fillTlb
    | with_reducible apply keep_fold
    | dsimp only [KS, KP]
    | split
    | intro _

theorem keep_noteWalk (s : State) (w : Who) (va : Nat) (h_s : KS wants fa fb s) : KS wants fa fb (State.noteWalk s
      w va) := by
  unfold State.noteWalk
  repeat' first
    | with_reducible assumption
    | with_reducible apply keep_fillMrt
    | dsimp only [KS, KP]
    | split

theorem keep_zeroFrame (s : State) (o f n : Nat) (h_s : KS wants fa fb s) : KS wants fa fb (State.zeroFrame s o f
      n) := by
  unfold State.zeroFrame
  repeat' first
    | with_reducible assumption
    | with_reducible apply keep_filter

theorem keep_takeFrame (s : State) (w : Who) (o a e size : Nat) (h_s : KS wants fa fb s) : KTouchRes wants fa fb
      (State.takeFrame s w o a e size) := by
  unfold State.takeFrame
  repeat' first
    | with_reducible assumption
    | with_reducible apply mkTouchRes_done
    | with_reducible apply mkTouchRes_declined
    | with_reducible apply mkTouchRes_wait
    | with_reducible apply keep_writePhys
    | with_reducible apply keep_zeroFrame
    | with_reducible apply keep_signalOwned
    | with_reducible apply keep_fold
    | dsimp only [KS, KP]
    | split
    | intro _

theorem keep_holdTouch (s : State) (a h : Nat) (h_s : KS wants fa fb s) : KS wants fa fb (State.holdTouch s a h) := by
  unfold State.holdTouch
  repeat' first
    | with_reducible assumption

theorem keep_freeTouch (s : State) (a : Nat) (h_s : KS wants fa fb s) : KS wants fa fb (State.freeTouch s a) := by
  unfold State.freeTouch
  repeat' first
    | with_reducible assumption

theorem keep_firstTouch (s : State) (w : Who) (a e size : Nat) (h_s : KS wants fa fb s) : KTouchRes wants fa fb
      (State.firstTouch s w a e size) := by
  unfold State.firstTouch
  repeat' first
    | with_reducible assumption
    | with_reducible apply mkTouchRes_done
    | with_reducible apply mkTouchRes_declined
    | with_reducible apply mkTouchRes_wait
    | with_reducible apply keep_takeFrame
    | with_reducible apply keep_freeTouch
    | with_reducible apply keep_holdTouch
    | dsimp only [KS, KP]
    | split
    | with_reducible refine TouchRes_done (by assumption) ?_
    | with_reducible refine TouchRes_declined (by assumption) ?_
    | with_reducible refine TouchRes_wait (by assumption) ?_

theorem keep_xlateTouch (s : State) (w : Who) (q : Want) (va : Nat) (h_s : KS wants fa fb s) : KP wants fa fb
      (State.xlateTouch s w q va) := by
  unfold State.xlateTouch
  repeat' first
    | with_reducible assumption
    | with_reducible apply keep_firstTouch
    | dsimp only [KS, KP]
    | split
    | with_reducible refine TouchRes_done (by assumption) ?_
    | with_reducible refine TouchRes_declined (by assumption) ?_
    | with_reducible refine TouchRes_wait (by assumption) ?_

theorem keep_bump (s : State) (h_s : KS wants fa fb s) : KS wants fa fb (State.bump s) := by
  unfold State.bump
  repeat' first
    | with_reducible assumption

theorem keep_tick (s : State) (h_s : KS wants fa fb s) : KS wants fa fb (State.tick s) := by
  unfold State.tick
  repeat' first
    | with_reducible assumption
    | with_reducible apply keep_bump

theorem keep_advance (s : State) (n : Nat) (h_s : KS wants fa fb s) : KS wants fa fb (State.advance s n) := by
  unfold State.advance
  repeat' first
    | with_reducible assumption
    | with_reducible apply keep_tick

theorem keep_wr (s : State) (ws : List (Loc × Word)) (h_s : KS wants fa fb s) : KS wants fa fb (State.wr s ws) := by
  unfold State.wr
  repeat' first
    | with_reducible assumption

theorem keep_done (s : State) (ws : List (Loc × Word)) (h_s : KS wants fa fb s) : KOut wants fa fb (State.done s
      ws) := by
  unfold State.done
  repeat' first
    | with_reducible assumption
    | with_reducible apply mk_next
    | with_reducible apply keep_advance
    | with_reducible apply keep_wr

theorem keep_doneIn (s : State) (lat : Nat) (ws : List (Loc × Word)) (h_s : KS wants fa fb s) : KOut wants fa fb
      (State.doneIn s lat ws) := by
  unfold State.doneIn
  repeat' first
    | with_reducible assumption
    | with_reducible apply mk_next
    | with_reducible apply keep_done
    | with_reducible apply keep_advance
    | split

theorem keep_signalCap (s : State) (w : Who) (c : Cap) (h_s : KS wants fa fb s) : KS wants fa fb (State.signalCap s
      w c) := by
  unfold State.signalCap
  repeat' first
    | with_reducible assumption
    | with_reducible apply keep_xlateTouch
    | with_reducible apply keep_signalLine
    | dsimp only [KS, KP]
    | split
    | with_reducible refine pair_fst (by assumption) ?_

theorem keep_writeRecord (s : State) (w : Who) (ctx : Nat) (rec : Nat) (h_s : KS wants fa fb s) : KS wants fa fb
      (State.writeRecord s w ctx rec) := by
  unfold State.writeRecord
  repeat' first
    | with_reducible assumption
    | with_reducible apply keep_xlateTouch
    | with_reducible apply keep_putBytes
    | with_reducible apply keep_writePhys
    | with_reducible apply keep_signalCap
    | with_reducible apply keep_logEvent
    | dsimp only [KS, KP]
    | split
    | with_reducible refine pair_fst (by assumption) ?_

theorem keep_dropReply (s : State) (a : Agent) (h_s : KS wants fa fb s) : KS wants fa fb (State.dropReply s a) := by
  unfold State.dropReply
  repeat' first
    | with_reducible assumption
    | with_reducible apply keep_updAgent
    | dsimp only [KS, KP]
    | split

theorem keep_dropReadOnly (s : State) (h_s : KS wants fa fb s) : KS wants fa fb (State.dropReadOnly s) := by
  unfold State.dropReadOnly
  repeat' first
    | with_reducible assumption

theorem keep_markBroken (s : State) (obj inst : Nat) (h_s : KS wants fa fb s) : KS wants fa fb (State.markBroken s
      obj inst) := by
  unfold State.markBroken
  repeat' first
    | with_reducible assumption
    | with_reducible apply keep_writePhys
    | dsimp only [KS, KP]
    | split

theorem keep_clearArrays (s : State) (d first f : Nat) (h_s : KS wants fa fb s) : KS wants fa fb (State.clearArrays
      s d first f) := by
  unfold State.clearArrays
  repeat' first
    | with_reducible assumption

theorem keep_discardTeam (s : State) (team : Nat) (h_s : KS wants fa fb s) : KS wants fa fb (State.discardTeam s
      team) := by
  unfold State.discardTeam
  repeat' first
    | with_reducible assumption
    | with_reducible apply keep_updAll

theorem keep_killTeam (s : State) (team cause flags g cmd reason xaddr : Nat) (h_s : KS wants fa fb s) : KS wants
      fa fb (State.killTeam s team cause flags g cmd reason xaddr) := by
  unfold State.killTeam
  repeat' first
    | with_reducible assumption
    | with_reducible apply keep_dropReply
    | with_reducible apply keep_discardTeam
    | with_reducible apply keep_markBroken
    | with_reducible apply keep_dropReadOnly
    | with_reducible apply keep_clearArrays
    | with_reducible apply keep_writeRecord
    | with_reducible apply keep_fold
    | dsimp only [KS, KP]
    | split
    | intro _

theorem keep_restartCore (s : State) (cause flags reason xaddr : Nat) (h_s : KS wants fa fb s) : KS wants fa fb
      (State.restartCore s cause flags reason xaddr) := by
  unfold State.restartCore
  repeat' first
    | with_reducible assumption
    | with_reducible apply keep_logEvent

theorem keep_killFocus (s : State) (cause flags reason xaddr : Nat) (h_s : KS wants fa fb s) : KS wants fa fb
      (State.killFocus s cause flags reason xaddr) := by
  unfold State.killFocus
  repeat' first
    | with_reducible assumption
    | with_reducible apply keep_restartCore
    | with_reducible apply keep_killTeam
    | dsimp only [KS, KP]
    | split

theorem keep_trap (s : State) (t : Trap) (h_s : KS wants fa fb s) : KS wants fa fb (State.trap s t) := by
  unfold State.trap
  repeat' first
    | with_reducible assumption
    | with_reducible apply keep_bump
    | with_reducible apply keep_killFocus
    | dsimp only [KS, KP]
    | split

theorem keep_trapBeside (s : State) (t : Trap) (h_s : KS wants fa fb s) : KS wants fa fb (State.trapBeside s t) := by
  unfold State.trapBeside
  repeat' first
    | with_reducible assumption
    | with_reducible apply keep_trap

theorem keep_scalarTrap (s : State) (cause addr info : Nat) (h_s : KS wants fa fb s) : KOut wants fa fb
      (State.scalarTrap s cause addr info) := by
  unfold State.scalarTrap
  repeat' first
    | with_reducible assumption
    | with_reducible apply mk_next
    | with_reducible apply keep_trap

theorem keep_gate (s : State) (reads : List Loc) (k : Out) (h_s : KS wants fa fb s) (h_k : KOut wants fa fb k) :
      KOut wants fa fb (State.gate s reads k) := by
  unfold State.gate
  repeat' first
    | with_reducible assumption
    | with_reducible apply mk_next
    | with_reducible apply keep_scalarTrap
    | split

theorem keep_dropCopies (s : State) (line : Nat) (h_s : KS wants fa fb s) : KS wants fa fb (State.dropCopies s
      line) := by
  unfold State.dropCopies
  repeat' first
    | with_reducible assumption

theorem keep_claimLine (s : State) (d line : Nat) (h_s : KS wants fa fb s) : KS wants fa fb (State.claimLine s d
      line) := by
  unfold State.claimLine
  repeat' first
    | with_reducible assumption
    | with_reducible apply keep_dropCopies
    | dsimp only [KS, KP]
    | split

theorem keep_dropL1 (s : State) (die core line : Nat) (h_s : KS wants fa fb s) : KS wants fa fb (State.dropL1 s die
      core line) := by
  unfold State.dropL1
  repeat' first
    | with_reducible assumption

theorem keep_setL1 (s : State) (l : L1Line) (h_s : KS wants fa fb s) : KS wants fa fb (State.setL1 s l) := by
  unfold State.setL1
  repeat' first
    | with_reducible assumption
    | with_reducible apply keep_dropL1

theorem keep_updLease (s : State) (unit line : Nat) (f : LeaseRec → LeaseRec) (h_s : KS wants fa fb s) : KS wants
      fa fb (State.updLease s unit line f) := by
  unfold State.updLease
  repeat' first
    | with_reducible assumption

theorem keep_grantLease (s : State) (die core line owner : Nat) (h_s : KS wants fa fb s) : KS wants fa fb
      (State.grantLease s die core line owner) := by
  unfold State.grantLease
  repeat' first
    | with_reducible assumption
    | with_reducible apply keep_setL1
    | with_reducible apply keep_updLease

theorem keep_putTeam (s : State) (team a : Nat) (bs : List Byte) (h_s : KS wants fa fb s) : KS wants fa fb
      (State.putTeam s team a bs) := by
  unfold State.putTeam
  repeat' first
    | with_reducible assumption

theorem keep_dropPeers (s : State) (f : PeerByte → Bool) (h_s : KS wants fa fb s) : KS wants fa fb (State.dropPeers
      s f) := by
  unfold State.dropPeers
  repeat' first
    | with_reducible assumption

theorem keep_peerTake (s : State) (die a n : Nat) (h_s : KS wants fa fb s) : KP wants fa fb (State.peerTake s die a
      n) := by
  unfold State.peerTake
  repeat' first
    | with_reducible assumption
    | with_reducible apply keep_dropPeers
    | dsimp only [KS, KP]
    | split

theorem keep_putPeer (s : State) (die a : Nat) (bs : List Byte) (h_s : KS wants fa fb s) : KS wants fa fb
      (State.putPeer s die a bs) := by
  unfold State.putPeer
  repeat' first
    | with_reducible assumption

theorem keep_peerRelease (s : State) (die : Nat) (h_s : KS wants fa fb s) : KS wants fa fb (State.peerRelease s
      die) := by
  unfold State.peerRelease
  repeat' first
    | with_reducible assumption

theorem keep_peerAcquire (s : State) (die : Nat) (h_s : KS wants fa fb s) : KS wants fa fb (State.peerAcquire s
      die) := by
  unfold State.peerAcquire
  repeat' first
    | with_reducible assumption
    | with_reducible apply keep_dropPeers

theorem keep_setEarly (s : State) (es : List Early) (h_s : KS wants fa fb s) : KS wants fa fb (State.setEarly s es)
      := by
  unfold State.setEarly
  repeat' first
    | with_reducible assumption

theorem keep_settleEarly (s : State) (e : Early) (h_s : KS wants fa fb s) : KS wants fa fb (State.settleEarly s e)
      := by
  unfold State.settleEarly
  repeat' first
    | with_reducible assumption
    | with_reducible apply keep_putTeam
    | with_reducible apply keep_putPeer
    | with_reducible apply keep_claimLine
    | with_reducible apply keep_putBytes
    | dsimp only [KS, KP]
    | split

theorem keep_drain (s : State) (f : Early → Bool) (h_s : KS wants fa fb s) : KS wants fa fb (State.drain s f) := by
  unfold State.drain
  repeat' first
    | with_reducible assumption
    | with_reducible apply keep_settleEarly
    | with_reducible apply keep_setEarly
    | with_reducible apply keep_fold
    | dsimp only [KS, KP]
    | intro _

theorem keep_publish (s : State) (die core : Nat) (h_s : KS wants fa fb s) : KS wants fa fb (State.publish s die
      core) := by
  unfold State.publish
  repeat' first
    | with_reducible assumption
    | with_reducible apply keep_drain

theorem keep_emptyL1 (s : State) (die core : Nat) (h_s : KS wants fa fb s) : KS wants fa fb (State.emptyL1 s die
      core) := by
  unfold State.emptyL1
  repeat' first
    | with_reducible assumption
    | with_reducible apply keep_publish

theorem keep_teamRelease (s : State) (team die first n : Nat) (h_s : KS wants fa fb s) : KS wants fa fb
      (State.teamRelease s team die first n) := by
  unfold State.teamRelease
  repeat' first
    | with_reducible assumption
    | with_reducible apply keep_drain

theorem keep_publishFor (s : State) (a : Agent) (c : Scope) (h_s : KS wants fa fb s) : KS wants fa fb
      (State.publishFor s a c) := by
  unfold State.publishFor
  repeat' first
    | with_reducible assumption
    | with_reducible apply keep_publish
    | dsimp only [KS, KP]
    | split

theorem keep_peerFence (s : State) (a : Agent) (c : Scope) (h_s : KS wants fa fb s) : KS wants fa fb
      (State.peerFence s a c) := by
  unfold State.peerFence
  repeat' first
    | with_reducible assumption
    | with_reducible apply keep_peerRelease
    | with_reducible apply keep_peerAcquire
    | dsimp only [KS, KP]
    | split

theorem keep_fenced (s : State) (a : Agent) (c : Scope) (h_s : KS wants fa fb s) : KS wants fa fb (State.fenced s a
      c) := by
  unfold State.fenced
  repeat' first
    | with_reducible assumption
    | with_reducible apply keep_publishFor
    | with_reducible apply keep_peerFence

theorem keep_leaveNote (s : State) (a : Agent) (x : Place × Nat) (h_s : KS wants fa fb s) : KS wants fa fb
      (State.leaveNote s a x) := by
  unfold State.leaveNote
  repeat' first
    | with_reducible assumption
    | dsimp only [KS, KP]
    | split

theorem keep_updTeam (s : State) (id : Nat) (f : Team → Team) (h_s : KS wants fa fb s) : KS wants fa fb
      (State.updTeam s id f) := by
  unfold State.updTeam
  repeat' first
    | with_reducible assumption

theorem keep_updLaunch (s : State) (id : Nat) (f : Launch → Launch) (h_s : KS wants fa fb s) : KS wants fa fb
      (State.updLaunch s id f) := by
  unfold State.updLaunch
  repeat' first
    | with_reducible assumption

theorem keep_settleBarriers (s : State) (team : Nat) (h_s : KS wants fa fb s) : KS wants fa fb
      (State.settleBarriers s team) := by
  unfold State.settleBarriers
  repeat' first
    | with_reducible assumption
    | with_reducible apply keep_updTeam

theorem keep_arrive (s : State) (obj : Nat) (h_s : KS wants fa fb s) : KS wants fa fb (State.arrive s obj) := by
  unfold State.arrive
  repeat' first
    | with_reducible assumption
    | with_reducible apply keep_updTeam
    | with_reducible apply keep_settleBarriers

theorem keep_makeSpawnRoom (s : State) (team : Nat) (h_s : KS wants fa fb s) : KS wants fa fb (State.makeSpawnRoom
      s team) := by
  unfold State.makeSpawnRoom
  repeat' first
    | with_reducible assumption
    | with_reducible apply keep_updTeam

theorem keep_keepSlot (s : State) (a : Agent) (h_s : KS wants fa fb s) : KS wants fa fb (State.keepSlot s a) := by
  unfold State.keepSlot
  repeat' first
    | with_reducible assumption
    | with_reducible apply keep_updTeam
    | dsimp only [KS, KP]
    | split

theorem keep_updDbg (s : State) (p : Nat) (f : DebugPart → DebugPart) (h_s : KS wants fa fb s) : KS wants fa fb
      (State.updDbg s p f) := by
  unfold State.updDbg
  repeat' first
    | with_reducible assumption

theorem keep_trace (s : State) (p name type watch igone addr : Nat) (h_s : KS wants fa fb s) : KS wants fa fb
      (State.trace s p name type watch igone addr) := by
  unfold State.trace
  repeat' first
    | with_reducible assumption
    | with_reducible apply keep_writePhys
    | with_reducible apply keep_updDbg
    | dsimp only [KS, KP]
    | split

theorem keep_noteHits (s : State) (lane rd wr : Bool) (num : Nat) (xs : List (Nat × Nat × Nat)) (h_s : KS wants fa
      fb s) : KS wants fa fb (State.noteHits s lane rd wr num xs) := by
  unfold State.noteHits
  repeat' first
    | with_reducible assumption
    | with_reducible apply keep_trace
    | with_reducible apply keep_fold
    | dsimp only [KS, KP]
    | split
    | intro _

theorem keep_stallAt (s : State) (lane : Bool) (e : Nat) (ready : Bool) (h_s : KS wants fa fb s) : KS wants fa fb
      (State.stallAt s lane e ready) := by
  unfold State.stallAt
  repeat' first
    | with_reducible assumption

theorem keep_touchFor (s : State) (lane : Bool) (info : Nat) (r : Req) (at_ pte size : Nat) (h_s : KS wants fa fb
      s) : KChecked wants fa fb (State.touchFor s lane info r at_ pte size) := by
  unfold State.touchFor
  repeat' first
    | with_reducible assumption
    | with_reducible apply mkChecked_trap
    | with_reducible apply mkChecked_again
    | with_reducible apply keep_firstTouch
    | with_reducible apply keep_stallAt
    | dsimp only [KS, KP]
    | split
    | with_reducible refine TouchRes_done (by assumption) ?_
    | with_reducible refine TouchRes_declined (by assumption) ?_
    | with_reducible refine TouchRes_wait (by assumption) ?_

theorem keep_Checked_stalls (z0 : Checked) (h_z0 : KChecked wants fa fb z0) : KOut wants fa fb (Checked.stalls z0)
      := by
  unfold Checked.stalls
  split
  · exact h_z0
  · exact keep_trap _ _ h_z0
  · exact h_z0

theorem keep_resolveTouches (s : State) (lane : Bool) (acc : List (Req × XRes)) (z0 : List (Req × XRes)) (h_s : KS
      wants fa fb s) : KExc wants fa fb (State.resolveTouches s lane acc z0) := by
  induction z0 generalizing s acc with
  | nil =>
    unfold State.resolveTouches
    repeat' first
      | with_reducible assumption
      | with_reducible apply mk_ok
  | cons x r ih =>
    unfold State.resolveTouches
    repeat' first
      | with_reducible assumption
      | with_reducible apply ih
      | with_reducible apply mk_error
      | with_reducible apply keep_firstTouch
      | with_reducible apply keep_stallAt
      | dsimp only [KS, KP]
      | split
      | with_reducible refine TouchRes_done (by assumption) ?_
      | with_reducible refine TouchRes_declined (by assumption) ?_
      | with_reducible refine TouchRes_wait (by assumption) ?_

theorem keep_checkXlated (s : State) (lane : Bool) (info : Nat) (tolerant : Bool) (xs : List (Req × XRes)) (h_s :
      KS wants fa fb s) : KChecked wants fa fb (State.checkXlated s lane info tolerant xs) := by
  unfold State.checkXlated
  repeat' first
    | with_reducible assumption
    | with_reducible apply mkChecked_ok
    | with_reducible apply mkChecked_trap
    | with_reducible apply mkChecked_again
    | with_reducible apply keep_resolveTouches
    | with_reducible apply keep_noteWalk
    | with_reducible apply keep_noteXlate
    | with_reducible apply keep_fold
    | dsimp only [KS, KP]
    | split
    | intro _
    | with_reducible refine exc_ok (by assumption) ?_
    | with_reducible refine exc_error (by assumption) ?_

theorem keep_checkAccess (s : State) (lane : Bool) (info size align : Nat) (write tolerant : Bool) (rs : List Req)
      (h_s : KS wants fa fb s) : KChecked wants fa fb (State.checkAccess s lane info size align write tolerant rs)
      := by
  unfold State.checkAccess
  repeat' first
    | with_reducible assumption
    | with_reducible apply mkChecked_trap
    | with_reducible apply keep_checkXlated
    | split

theorem keep_enqueue (s : State) (lane : Bool) (path : Path) (ord : Ord) (scope : Scope) (tk : Option Nat) (kind :
      OpKind) (dests : List Loc) (h_s : KS wants fa fb s) : KS wants fa fb (State.enqueue s lane path ord scope tk
      kind dests) := by
  unfold State.enqueue
  repeat' first
    | with_reducible assumption

theorem keep_meetWatches (s : State) (lane : Bool) (k : OpKind) (h_s : KS wants fa fb s) : KS wants fa fb
      (State.meetWatches s lane k) := by
  unfold State.meetWatches
  repeat' first
    | with_reducible assumption
    | with_reducible apply keep_noteHits
    | dsimp only [KS, KP]
    | split

theorem keep_dropOwn (s : State) (c : Scope) (k : OpKind) (h_s : KS wants fa fb s) : KS wants fa fb (State.dropOwn
      s c k) := by
  unfold State.dropOwn
  repeat' first
    | with_reducible assumption
    | with_reducible apply keep_dropL1
    | with_reducible apply keep_fold
    | dsimp only [KS, KP]
    | split
    | intro _

theorem keep_issueMem (s : State) (lane : Bool) (c : Scope) (k : OpKind) (h_s : KS wants fa fb s) : KS wants fa fb
      (State.issueMem s lane c k) := by
  unfold State.issueMem
  repeat' first
    | with_reducible assumption
    | with_reducible apply keep_meetWatches
    | with_reducible apply keep_dropOwn

theorem keep_scalarAccess (s : State) (info size : Nat) (write : Bool) (r : Req) (ord : Ord) (scope : Scope) (tk :
      Option Nat) (kind : List Acc → OpKind) (dests : List Loc) (h_s : KS wants fa fb s) : KOut wants fa fb
      (State.scalarAccess s info size write r ord scope tk kind dests) := by
  unfold State.scalarAccess
  repeat' first
    | with_reducible assumption
    | with_reducible apply mk_next
    | with_reducible apply keep_checkAccess
    | with_reducible apply keep_trap
    | with_reducible apply keep_issueMem
    | with_reducible apply keep_enqueue
    | with_reducible apply keep_advance
    | dsimp only [KS, KP]
    | split
    | with_reducible refine Checked_ok (by assumption) ?_
    | with_reducible refine Checked_trap (by assumption) ?_
    | with_reducible refine Checked_again (by assumption) ?_

end Sys2Proof.Laws.Keep
end

