-- ==== Sys2Proof/Laws/KeepSystem.lean ====
section
/-!
SUPPORT. What branches, waits, endpoints, sweeps and the system instructions keep: the form of memory and the fuses (see KeepBase).
-/

namespace Sys2Proof.Laws.Keep

open Machine

variable {wants : Prop} {fa fb : Nat}

theorem keep_jumpTo (s : State) (c : Cap) (h_s : KS wants fa fb s) : KS wants fa fb (State.jumpTo s c) := by
  unfold State.jumpTo
  repeat' first
    | with_reducible assumption
    | with_reducible apply keep_tick

theorem keep_branch (s : State) (off : Int) (ws : List (Loc × Word)) (h_s : KS wants fa fb s) : KOut wants fa fb
      (State.branch s off ws) := by
  unfold State.branch
  repeat' first
    | with_reducible assumption
    | with_reducible apply mk_next
    | with_reducible apply keep_jumpTo
    | with_reducible apply keep_wr
    | with_reducible apply keep_scalarTrap
    | dsimp only [KS, KP]
    | split

theorem keep_execBcCond (c : Cond) (a : Nat) (off : Int) (s : State) (h_s : KS wants fa fb s) : KOut wants fa fb
      (execBcCond c a off s) := by
  unfold execBcCond
  repeat' first
    | with_reducible assumption
    | with_reducible apply keep_gate
    | with_reducible apply keep_branch
    | with_reducible apply keep_done
    | split

theorem keep_execJal (off : Int) (s : State) (h_s : KS wants fa fb s) : KOut wants fa fb (execJal off s) := by
  unfold execJal
  repeat' first
    | with_reducible assumption
    | with_reducible apply keep_branch

theorem keep_execLand (nw : Nat) (s : State) (h_s : KS wants fa fb s) : KOut wants fa fb (execLand nw s) := by
  unfold execLand
  repeat' first
    | with_reducible assumption
    | with_reducible apply mk_next
    | with_reducible apply keep_advance

theorem keep_capJump (s : State) (p : Nat) (ws : List (Loc × Word)) (h_s : KS wants fa fb s) : KOut wants fa fb
      (State.capJump s p ws) := by
  unfold State.capJump
  repeat' first
    | with_reducible assumption
    | with_reducible apply mk_next
    | with_reducible apply keep_gate
    | with_reducible apply keep_scalarTrap
    | with_reducible apply keep_jumpTo
    | with_reducible apply keep_wr
    | split

theorem keep_execCj (p : Nat) (s : State) (h_s : KS wants fa fb s) : KOut wants fa fb (execCj p s) := by
  unfold execCj
  repeat' first
    | with_reducible assumption
    | with_reducible apply keep_capJump

theorem keep_execCjal (p : Nat) (s : State) (h_s : KS wants fa fb s) : KOut wants fa fb (execCjal p s) := by
  unfold execCjal
  repeat' first
    | with_reducible assumption
    | with_reducible apply keep_capJump

theorem keep_execLrun (tk : Option Nat) (a count : Nat) (off : Int) (s : State) (h_s : KS wants fa fb s) : KOut
      wants fa fb (execLrun tk a count off s) := by
  unfold execLrun
  repeat' first
    | with_reducible assumption
    | with_reducible apply mk_next
    | with_reducible apply keep_scalarTrap
    | with_reducible apply keep_gate
    | with_reducible apply keep_advance
    | dsimp only [KS, KP]
    | split

theorem keep_execEmr (d : Nat) (s : State) (h_s : KS wants fa fb s) : KOut wants fa fb (execEmr d s) := by
  unfold execEmr
  repeat' first
    | with_reducible assumption
    | with_reducible apply keep_scalarTrap
    | with_reducible apply keep_gate
    | with_reducible apply keep_done
    | split

theorem keep_execEmw (a : Nat) (s : State) (h_s : KS wants fa fb s) : KOut wants fa fb (execEmw a s) := by
  unfold execEmw
  repeat' first
    | with_reducible assumption
    | with_reducible apply keep_scalarTrap
    | with_reducible apply keep_gate
    | with_reducible apply keep_done
    | split

theorem keep_execLmr (d : Nat) (s : State) (h_s : KS wants fa fb s) : KOut wants fa fb (execLmr d s) := by
  unfold execLmr
  repeat' first
    | with_reducible assumption
    | with_reducible apply keep_scalarTrap
    | with_reducible apply keep_gate
    | with_reducible apply keep_done
    | split

theorem keep_publishMine (s : State) (h_s : KS wants fa fb s) : KS wants fa fb (State.publishMine s) := by
  unfold State.publishMine
  repeat' first
    | with_reducible assumption
    | with_reducible apply keep_publishFor

theorem keep_waitPhase (s : State) (obj : Nat) (h_s : KS wants fa fb s) : KS wants fa fb (State.waitPhase s obj) := by
  unfold State.waitPhase
  repeat' first
    | with_reducible assumption
    | with_reducible apply keep_advance
    | dsimp only [KS, KP]
    | split

theorem keep_tryArrive (s : State) (obj need : Nat) (wait : Bool) (h_s : KS wants fa fb s) : KS wants fa fb
      (State.tryArrive s obj need wait) := by
  unfold State.tryArrive
  repeat' first
    | with_reducible assumption
    | with_reducible apply keep_arrive
    | with_reducible apply keep_waitPhase
    | with_reducible apply keep_advance
    | dsimp only [KS, KP]
    | split

theorem keep_barrier (s : State) (obj : Nat) (flush wait : Bool) (h_s : KS wants fa fb s) : KOut wants fa fb
      (State.barrier s obj flush wait) := by
  unfold State.barrier
  repeat' first
    | with_reducible assumption
    | with_reducible apply mk_next
    | with_reducible apply keep_done
    | with_reducible apply keep_publishMine
    | with_reducible apply keep_updTeam
    | with_reducible apply keep_tryArrive
    | dsimp only [KS, KP]
    | split

theorem keep_execBar (obj : Nat) (flush : Bool) (s : State) (h_s : KS wants fa fb s) : KOut wants fa fb (execBar
      obj flush s) := by
  unfold execBar
  repeat' first
    | with_reducible assumption
    | with_reducible apply keep_barrier

theorem keep_execBarArrive (obj : Nat) (flush : Bool) (s : State) (h_s : KS wants fa fb s) : KOut wants fa fb
      (execBarArrive obj flush s) := by
  unfold execBarArrive
  repeat' first
    | with_reducible assumption
    | with_reducible apply keep_barrier

theorem keep_execBarWait (obj : Nat) (s : State) (h_s : KS wants fa fb s) : KOut wants fa fb (execBarWait obj s) := by
  unfold execBarWait
  repeat' first
    | with_reducible assumption
    | with_reducible apply mk_next
    | with_reducible apply keep_done
    | with_reducible apply keep_waitPhase
    | split

theorem keep_waitToken (s : State) (n thr : Nat) (h_s : KS wants fa fb s) : KOut wants fa fb (State.waitToken s n
      thr) := by
  unfold State.waitToken
  repeat' first
    | with_reducible assumption
    | with_reducible apply mk_next
    | with_reducible apply keep_advance
    | dsimp only [KS, KP]
    | split

theorem keep_execWtok (tk thr : Nat) (s : State) (h_s : KS wants fa fb s) : KOut wants fa fb (execWtok tk thr s) := by
  unfold execWtok
  repeat' first
    | with_reducible assumption
    | with_reducible apply keep_waitToken

theorem keep_execWtokReg (tk b : Nat) (s : State) (h_s : KS wants fa fb s) : KOut wants fa fb (execWtokReg tk b s)
      := by
  unfold execWtokReg
  repeat' first
    | with_reducible assumption
    | with_reducible apply keep_gate
    | with_reducible apply keep_waitToken

theorem keep_execTkr (tk d : Nat) (s : State) (h_s : KS wants fa fb s) : KOut wants fa fb (execTkr tk d s) := by
  unfold execTkr
  repeat' first
    | with_reducible assumption
    | with_reducible apply keep_done

theorem keep_execPause (n : Nat) (s : State) (h_s : KS wants fa fb s) : KOut wants fa fb (execPause n s) := by
  unfold execPause
  repeat' first
    | with_reducible assumption
    | with_reducible apply mk_next
    | with_reducible apply keep_done
    | with_reducible apply keep_advance
    | dsimp only [KS, KP]
    | split

theorem keep_execDly (n : Nat) (s : State) (h_s : KS wants fa fb s) : KOut wants fa fb (execDly n s) := by
  unfold execDly
  repeat' first
    | with_reducible assumption
    | with_reducible apply mk_next
    | with_reducible apply keep_done
    | with_reducible apply keep_advance
    | dsimp only [KS, KP]
    | split

theorem keep_yieldNow (s : State) (n thr target : Nat) (h_s : KS wants fa fb s) : KS wants fa fb (State.yieldNow s
      n thr target) := by
  unfold State.yieldNow
  repeat' first
    | with_reducible assumption
    | with_reducible apply keep_jumpTo
    | dsimp only [KS, KP]
    | split

theorem keep_execYld (tk r : Nat) (off : Int) (s : State) (h_s : KS wants fa fb s) : KOut wants fa fb (execYld tk r
      off s) := by
  unfold execYld
  repeat' first
    | with_reducible assumption
    | with_reducible apply mk_next
    | with_reducible apply keep_gate
    | with_reducible apply keep_scalarTrap
    | with_reducible apply keep_yieldNow
    | dsimp only [KS, KP]
    | split

theorem keep_setEp (s : State) (e : Endpoint) (h_s : KS wants fa fb s) : KS wants fa fb (State.setEp s e) := by
  unfold State.setEp
  repeat' first
    | with_reducible assumption
    | with_reducible apply keep_holdObj

theorem keep_deposit (s : State) (pa : Nat) (m : Message) (h_s : KS wants fa fb s) : KP wants fa fb (State.deposit
      s pa m) := by
  unfold State.deposit
  repeat' first
    | with_reducible assumption
    | with_reducible apply keep_setEp
    | with_reducible apply keep_updAgent
    | dsimp only [KS, KP]
    | split

theorem keep_checkEp (s : State) (c : Cap) (need : Nat) (h_s : KS wants fa fb s) : KEpCheck wants fa fb
      (State.checkEp s c need) := by
  unfold State.checkEp
  repeat' first
    | with_reducible assumption
    | with_reducible apply mkEpCheck_ok
    | with_reducible apply mkEpCheck_out
    | with_reducible apply keep_scalarTrap
    | with_reducible apply keep_noteXlate
    | with_reducible apply keep_touchFor
    | with_reducible apply keep_Checked_stalls
    | split

theorem keep_endWith (s : State) (lane : Bool) (tk : Option Nat) (ws : List (Loc × Word)) (h_s : KS wants fa fb s)
      : KS wants fa fb (State.endWith s lane tk ws) := by
  unfold State.endWith
  repeat' first
    | with_reducible assumption
    | with_reducible apply keep_enqueue

theorem keep_execMsend (a : Nat) (tk : Option Nat) (s : State) (h_s : KS wants fa fb s) : KOut wants fa fb
      (execMsend a tk s) := by
  unfold execMsend
  repeat' first
    | with_reducible assumption
    | with_reducible apply mk_next
    | with_reducible apply keep_gate
    | with_reducible apply keep_checkEp
    | with_reducible apply keep_deposit
    | with_reducible apply keep_publishMine
    | with_reducible apply keep_endWith
    | with_reducible apply keep_advance
    | dsimp only [KS, KP]
    | split
    | with_reducible refine EpCheck_ok (by assumption) ?_
    | with_reducible refine EpCheck_out (by assumption) ?_

theorem keep_execMcall (a : Nat) (tk : Option Nat) (s : State) (h_s : KS wants fa fb s) : KOut wants fa fb
      (execMcall a tk s) := by
  unfold execMcall
  repeat' first
    | with_reducible assumption
    | with_reducible apply mk_next
    | with_reducible apply keep_gate
    | with_reducible apply keep_checkEp
    | with_reducible apply keep_deposit
    | with_reducible apply keep_publishMine
    | with_reducible apply keep_endWith
    | with_reducible apply keep_advance
    | dsimp only [KS, KP]
    | split
    | with_reducible refine EpCheck_ok (by assumption) ?_
    | with_reducible refine EpCheck_out (by assumption) ?_

theorem keep_received (s : State) (waited : Bool) (tk : Option Nat) (ws : List (Loc × Word)) (caller : Option
      Caller) (h_s : KS wants fa fb s) : KS wants fa fb (State.received s waited tk ws caller) := by
  unfold State.received
  repeat' first
    | with_reducible assumption
    | with_reducible apply keep_advance
    | dsimp only [KS, KP]
    | split

theorem keep_receive (s : State) (waited : Bool) (pa : Nat) (tk : Option Nat) (h_s : KS wants fa fb s) : KS wants
      fa fb (State.receive s waited pa tk) := by
  unfold State.receive
  repeat' first
    | with_reducible assumption
    | with_reducible apply keep_received
    | with_reducible apply keep_setEp
    | dsimp only [KS, KP]
    | split

theorem keep_execMrecv (a : Nat) (tk : Option Nat) (s : State) (h_s : KS wants fa fb s) : KOut wants fa fb
      (execMrecv a tk s) := by
  unfold execMrecv
  repeat' first
    | with_reducible assumption
    | with_reducible apply mk_next
    | with_reducible apply keep_gate
    | with_reducible apply keep_checkEp
    | with_reducible apply keep_dropReply
    | with_reducible apply keep_receive
    | dsimp only [KS, KP]
    | split
    | with_reducible refine EpCheck_ok (by assumption) ?_
    | with_reducible refine EpCheck_out (by assumption) ?_

theorem keep_execMreply (tk : Option Nat) (s : State) (h_s : KS wants fa fb s) : KOut wants fa fb (execMreply tk s)
      := by
  unfold execMreply
  repeat' first
    | with_reducible assumption
    | with_reducible apply mk_next
    | with_reducible apply keep_gate
    | with_reducible apply keep_endWith
    | with_reducible apply keep_advance
    | with_reducible apply keep_publishMine
    | with_reducible apply keep_updAgent
    | dsimp only [KS, KP]
    | split

theorem keep_sweepDead (s : State) (h_s : KS wants fa fb s) : KS wants fa fb (State.sweepDead s) := by
  unfold State.sweepDead
  repeat' first
    | with_reducible assumption
    | with_reducible apply keep_updAll
    | dsimp only [KS, KP]
    | split

theorem keep_dropExport (s : State) (k : Nat) (h_s : KS wants fa fb s) : KS wants fa fb (State.dropExport s k) := by
  unfold State.dropExport
  repeat' first
    | with_reducible assumption
    | with_reducible apply keep_writePhys

theorem keep_sweepExports (s : State) (h_s : KS wants fa fb s) : KS wants fa fb (State.sweepExports s) := by
  unfold State.sweepExports
  repeat' first
    | with_reducible assumption
    | with_reducible apply keep_dropExport
    | with_reducible apply keep_fold
    | dsimp only [KS, KP]
    | split
    | intro _

theorem keep_sweepHeld (s : State) (h_s : KS wants fa fb s) : KS wants fa fb (State.sweepHeld s) := by
  unfold State.sweepHeld
  repeat' first
    | with_reducible assumption
    | with_reducible apply keep_sweepExports

theorem keep_beginPass (s : State) (n : Nat) (h_s : KS wants fa fb s) : KS wants fa fb (State.beginPass s n) := by
  unfold State.beginPass
  repeat' first
    | with_reducible assumption
    | with_reducible apply keep_sweepHeld

theorem keep_startSweep (s : State) (h_s : KS wants fa fb s) : KP wants fa fb (State.startSweep s) := by
  unfold State.startSweep
  repeat' first
    | with_reducible assumption
    | with_reducible apply keep_beginPass
    | dsimp only [KS, KP]
    | split

theorem keep_sweepFocus (s : State) (h_s : KS wants fa fb s) : KS wants fa fb (State.sweepFocus s) := by
  unfold State.sweepFocus
  repeat' first
    | with_reducible assumption
    | dsimp only [KS, KP]
    | split

theorem keep_execNop (s : State) (h_s : KS wants fa fb s) : KOut wants fa fb (execNop s) := by
  unfold execNop
  repeat' first
    | with_reducible assumption
    | with_reducible apply keep_done

theorem keep_execBrk (code : Nat) (s : State) (h_s : KS wants fa fb s) : KOut wants fa fb (execBrk code s) := by
  unfold execBrk
  repeat' first
    | with_reducible assumption
    | with_reducible apply keep_scalarTrap

theorem keep_execRdtime (d : Nat) (s : State) (h_s : KS wants fa fb s) : KOut wants fa fb (execRdtime d s) := by
  unfold execRdtime
  repeat' first
    | with_reducible assumption
    | with_reducible apply keep_readTime
    | with_reducible apply keep_done

theorem keep_execRdid (d sel : Nat) (s : State) (h_s : KS wants fa fb s) : KOut wants fa fb (execRdid d sel s) := by
  unfold execRdid
  repeat' first
    | with_reducible assumption
    | with_reducible apply keep_done

theorem keep_execFsrr (d : Nat) (s : State) (h_s : KS wants fa fb s) : KOut wants fa fb (execFsrr d s) := by
  unfold execFsrr
  repeat' first
    | with_reducible assumption
    | with_reducible apply keep_done

theorem keep_execFsrw (d : Nat) (s : State) (h_s : KS wants fa fb s) : KOut wants fa fb (execFsrw d s) := by
  unfold execFsrw
  repeat' first
    | with_reducible assumption
    | with_reducible apply mk_next
    | with_reducible apply keep_gate
    | with_reducible apply keep_advance

theorem keep_execMxcr (d : Nat) (s : State) (h_s : KS wants fa fb s) : KOut wants fa fb (execMxcr d s) := by
  unfold execMxcr
  repeat' first
    | with_reducible assumption
    | with_reducible apply keep_done

theorem keep_execMxcw (d : Nat) (s : State) (h_s : KS wants fa fb s) : KOut wants fa fb (execMxcw d s) := by
  unfold execMxcw
  repeat' first
    | with_reducible assumption
    | with_reducible apply mk_next
    | with_reducible apply keep_gate
    | with_reducible apply keep_advance

theorem keep_execGend (s : State) (h_s : KS wants fa fb s) : KOut wants fa fb (execGend s) := by
  unfold execGend
  repeat' first
    | with_reducible assumption
    | with_reducible apply mk_next
    | with_reducible apply keep_scalarTrap
    | with_reducible apply keep_done
    | with_reducible apply keep_dropReply
    | with_reducible apply keep_keepSlot
    | with_reducible apply keep_bump
    | with_reducible apply keep_settleBarriers
    | dsimp only [KS, KP]
    | split

theorem keep_askPage (s : State) (p o va kind : Nat) (agent : Option (Nat × Nat)) (cmd : Option Nat) (h_s : KS
      wants fa fb s) : KS wants fa fb (State.askPage s p o va kind agent cmd) := by
  unfold State.askPage
  repeat' first
    | with_reducible assumption

theorem keep_execPgreq (a : Nat) (tk : Option Nat) (s : State) (h_s : KS wants fa fb s) : KOut wants fa fb
      (execPgreq a tk s) := by
  unfold execPgreq
  apply keep_gate _ _ _ h_s
  split
  · exact keep_scalarTrap _ _ _ _ h_s
  · extract_lets now
    have hn : ∀ t, KS wants fa fb t → KS wants fa fb (now t) := fun _ h => keep_advance _ _ h
    split
    · exact hn _ h_s
    · extract_lets ask
      have ha : ∀ t, KS wants fa fb t → KOut wants fa fb (ask t) := by
        intro t h
        unfold ask
        split
        · exact hn _ h
        · exact keep_advance _ _ (keep_enqueue _ _ _ _ _ _ _ _ (keep_askPage _ _ _ _ _ _ _ h))
      clear_value ask now
      split
      · exact ha _ h_s
      split
      · exact hn _ h_s
      · generalize hq : s.firstTouch s.ag.who _ _ _ = q
        have hf : KTouchRes wants fa fb q := hq ▸ keep_firstTouch s s.ag.who _ _ _ h_s
        clear hq
        cases q with
        | done t => exact mk_next hf
        | wait t => exact mk_next hf
        | declined t => exact ha _ hf
      · exact ha _ h_s

theorem keep_kernel (s : State) (k : Out) (h_s : KS wants fa fb s) (h_k : KOut wants fa fb k) : KOut wants fa fb
      (State.kernel s k) := by
  unfold State.kernel
  repeat' first
    | with_reducible assumption
    | with_reducible apply keep_scalarTrap
    | split

theorem keep_monitor (s : State) (k : Out) (h_s : KS wants fa fb s) (h_k : KOut wants fa fb k) : KOut wants fa fb
      (State.monitor s k) := by
  unfold State.monitor
  repeat' first
    | with_reducible assumption
    | with_reducible apply keep_scalarTrap
    | split

theorem keep_resumeWait (s : State) (back : Cap) (h_s : KS wants fa fb s) : KS wants fa fb (State.resumeWait s
      back) := by
  unfold State.resumeWait
  repeat' first
    | with_reducible assumption
    | with_reducible apply keep_receive
    | dsimp only [KS, KP]
    | split

theorem keep_execEret (s : State) (h_s : KS wants fa fb s) : KOut wants fa fb (execEret s) := by
  unfold execEret
  repeat' first
    | with_reducible assumption
    | with_reducible apply mk_next
    | with_reducible apply keep_kernel
    | with_reducible apply keep_scalarTrap
    | with_reducible apply keep_killFocus
    | with_reducible apply keep_bump
    | with_reducible apply keep_tick
    | with_reducible apply keep_resumeWait
    | split

theorem keep_execCtlr (d n : Nat) (s : State) (h_s : KS wants fa fb s) : KOut wants fa fb (execCtlr d n s) := by
  unfold execCtlr
  repeat' first
    | with_reducible assumption
    | with_reducible apply keep_kernel
    | with_reducible apply keep_scalarTrap
    | with_reducible apply keep_done
    | split

theorem keep_execCtlw (d n : Nat) (s : State) (h_s : KS wants fa fb s) : KOut wants fa fb (execCtlw d n s) := by
  unfold execCtlw
  repeat' first
    | with_reducible assumption
    | with_reducible apply mk_next
    | with_reducible apply keep_kernel
    | with_reducible apply keep_scalarTrap
    | with_reducible apply keep_gate
    | with_reducible apply keep_killFocus
    | with_reducible apply keep_bump
    | with_reducible apply keep_advance
    | split

theorem keep_dropPage (s : State) (p o va : Nat) (h_s : KS wants fa fb s) : KS wants fa fb (State.dropPage s p o
      va) := by
  unfold State.dropPage
  repeat' first
    | with_reducible assumption
    | with_reducible apply keep_writePhys
    | with_reducible apply keep_fold
    | dsimp only [KS, KP]
    | split
    | intro _

theorem keep_execTlbi (a b : Nat) (kind : TlbKind) (s : State) (h_s : KS wants fa fb s) : KOut wants fa fb
      (execTlbi a b kind s) := by
  unfold execTlbi
  repeat' first
    | with_reducible assumption
    | with_reducible apply mk_next
    | with_reducible apply keep_monitor
    | with_reducible apply keep_advance
    | with_reducible apply keep_kernel
    | with_reducible apply keep_gate
    | with_reducible apply keep_scalarTrap
    | with_reducible apply keep_dropPage
    | with_reducible apply keep_writePhys
    | with_reducible apply keep_touchFor
    | with_reducible apply keep_Checked_stalls
    | dsimp only [KS, KP]
    | split

theorem keep_execSwp (d : Nat) (s : State) (h_s : KS wants fa fb s) : KOut wants fa fb (execSwp d s) := by
  unfold execSwp
  repeat' first
    | with_reducible assumption
    | with_reducible apply mk_next
    | with_reducible apply keep_kernel
    | with_reducible apply keep_startSweep
    | with_reducible apply keep_publishMine
    | with_reducible apply keep_done
    | dsimp only [KS, KP]
    | split

theorem keep_execKeyk (d : Nat) (s : State) (h_s : KS wants fa fb s) : KOut wants fa fb (execKeyk d s) := by
  unfold execKeyk
  repeat' first
    | with_reducible assumption
    | with_reducible apply mk_next
    | with_reducible apply keep_monitor
    | with_reducible apply keep_gate
    | with_reducible apply keep_done
    | with_reducible apply keep_drain
    | dsimp only [KS, KP]
    | split

theorem keep_execSealctx (d a b : Nat) (s : State) (h_s : KS wants fa fb s) : KOut wants fa fb (execSealctx d a b
      s) := by
  unfold execSealctx
  repeat' first
    | with_reducible assumption
    | with_reducible apply keep_monitor
    | with_reducible apply keep_gate
    | with_reducible apply keep_scalarTrap
    | with_reducible apply keep_done
    | split

theorem keep_execWfi (s : State) (h_s : KS wants fa fb s) : KOut wants fa fb (execWfi s) := by
  unfold execWfi
  repeat' first
    | with_reducible assumption
    | with_reducible apply mk_next
    | with_reducible apply keep_kernel
    | with_reducible apply keep_scalarTrap
    | with_reducible apply keep_done
    | dsimp only [KS, KP]
    | split

theorem keep_execXstep (s : State) (h_s : KS wants fa fb s) : KOut wants fa fb (execXstep s) := by
  unfold execXstep
  repeat' first
    | with_reducible assumption
    | with_reducible apply mk_next
    | with_reducible apply keep_kernel
    | with_reducible apply keep_advance

end Sys2Proof.Laws.Keep
end

