-- ==== Sys2Proof/Laws/KeepLane.lean ====
section
/-!
SUPPORT. What the lane instructions keep: the form of memory and the fuses (see KeepBase).
-/

namespace Sys2Proof.Laws.Keep

open Machine

variable {wants : Prop} {fa fb : Nat}

theorem keep_laneTrap (s : State) (cause addr : Nat) (lanes : BitVec 32) (info : Nat) (h_s : KS wants fa fb s) :
      KOut wants fa fb (State.laneTrap s cause addr lanes info) := by
  unfold State.laneTrap
  repeat' first
    | with_reducible assumption
    | with_reducible apply mk_next
    | with_reducible apply keep_trapBeside

theorem keep_laneIssue (s : State) (h : LaneHdr) (names : List Nat) (reads : List LaneRead) (k : BitVec 32 → Flags
      → Out) (h_s : KS wants fa fb s) (h_k : ∀ y0 y1,  KOut wants fa fb (k y0 y1)) : KOut wants fa fb
      (State.laneIssue s h names reads k) := by
  unfold State.laneIssue
  repeat' first
    | with_reducible assumption
    | with_reducible apply keep_laneTrap
    | dsimp only [KS, KP]
    | split
    | apply h_k

theorem keep_laneDone (s : State) (lat : Nat) (ws : List (Loc × Word)) (fl : Flags) (res : Option Latch) (h_s : KS
      wants fa fb s) : KOut wants fa fb (State.laneDone s lat ws fl res) := by
  unfold State.laneDone
  repeat' first
    | with_reducible assumption
    | with_reducible apply mk_next
    | with_reducible apply keep_bump
    | dsimp only [KS, KP]
    | split

theorem keep_laneNext (s : State) (h_s : KS wants fa fb s) : KS wants fa fb (State.laneNext s) := by
  unfold State.laneNext
  repeat' first
    | with_reducible assumption
    | with_reducible apply keep_bump

theorem keep_laneCompute (s : State) (act : BitVec 32) (ll : Flags) (d : Dst) (pair : Bool) (lat : Nat) (f : Nat →
      DWord × Flags) (h_s : KS wants fa fb s) : KOut wants fa fb (State.laneCompute s act ll d pair lat f) := by
  unfold State.laneCompute
  repeat' first
    | with_reducible assumption
    | with_reducible apply keep_laneDone

theorem keep_int1 (s : State) (h : LaneHdr) (d : Dst) (ty : Ty) (lat : Nat) (a : Src) (f : DWord → DWord × Flags)
      (h_s : KS wants fa fb s) : KOut wants fa fb (State.int1 s h d ty lat a f) := by
  unfold State.int1
  repeat' first
    | with_reducible assumption
    | with_reducible apply keep_laneIssue
    | with_reducible apply keep_laneCompute
    | intro _

theorem keep_int2 (s : State) (h : LaneHdr) (d : Dst) (ty : Ty) (lat : Nat) (a b : Src) (f : DWord → DWord → DWord
      × Flags) (h_s : KS wants fa fb s) : KOut wants fa fb (State.int2 s h d ty lat a b f) := by
  unfold State.int2
  repeat' first
    | with_reducible assumption
    | with_reducible apply keep_laneIssue
    | with_reducible apply keep_laneCompute
    | intro _

theorem keep_int3 (s : State) (h : LaneHdr) (d : Dst) (ty : Ty) (lat : Nat) (a b c : Src) (f : DWord → DWord →
      DWord → DWord × Flags) (h_s : KS wants fa fb s) : KOut wants fa fb (State.int3 s h d ty lat a b c f) := by
  unfold State.int3
  repeat' first
    | with_reducible assumption
    | with_reducible apply keep_laneIssue
    | with_reducible apply keep_laneCompute
    | intro _

theorem keep_execIadd (h : LaneHdr) (d : Dst) (ty : Ty) (sat : Bool) (a b : Src) (s : State) (h_s : KS wants fa fb
      s) : KOut wants fa fb (execIadd h d ty sat a b s) := by
  unfold execIadd
  repeat' first
    | with_reducible assumption
    | with_reducible apply keep_int2

theorem keep_execIsub (h : LaneHdr) (d : Dst) (ty : Ty) (sat : Bool) (a b : Src) (s : State) (h_s : KS wants fa fb
      s) : KOut wants fa fb (execIsub h d ty sat a b s) := by
  unfold execIsub
  repeat' first
    | with_reducible assumption
    | with_reducible apply keep_int2

theorem keep_execImul (h : LaneHdr) (d : Dst) (ty : Ty) (sat : Bool) (a b : Src) (s : State) (h_s : KS wants fa fb
      s) : KOut wants fa fb (execImul h d ty sat a b s) := by
  unfold execImul
  repeat' first
    | with_reducible assumption
    | with_reducible apply keep_int2

theorem keep_execImulhi (h : LaneHdr) (d : Dst) (ty : Ty) (a b : Src) (s : State) (h_s : KS wants fa fb s) : KOut
      wants fa fb (execImulhi h d ty a b s) := by
  unfold execImulhi
  repeat' first
    | with_reducible assumption
    | with_reducible apply keep_int2

theorem keep_execImad (h : LaneHdr) (d : Dst) (ty : Ty) (sat : Bool) (a b c : Src) (s : State) (h_s : KS wants fa
      fb s) : KOut wants fa fb (execImad h d ty sat a b c s) := by
  unfold execImad
  repeat' first
    | with_reducible assumption
    | with_reducible apply keep_int3

theorem keep_execImin (h : LaneHdr) (d : Dst) (ty : Ty) (a b : Src) (s : State) (h_s : KS wants fa fb s) : KOut
      wants fa fb (execImin h d ty a b s) := by
  unfold execImin
  repeat' first
    | with_reducible assumption
    | with_reducible apply keep_int2

theorem keep_execImax (h : LaneHdr) (d : Dst) (ty : Ty) (a b : Src) (s : State) (h_s : KS wants fa fb s) : KOut
      wants fa fb (execImax h d ty a b s) := by
  unfold execImax
  repeat' first
    | with_reducible assumption
    | with_reducible apply keep_int2

theorem keep_execIabs (h : LaneHdr) (d : Dst) (ty : Ty) (sat : Bool) (a : Src) (s : State) (h_s : KS wants fa fb s)
      : KOut wants fa fb (execIabs h d ty sat a s) := by
  unfold execIabs
  repeat' first
    | with_reducible assumption
    | with_reducible apply keep_int1

theorem keep_execIneg (h : LaneHdr) (d : Dst) (ty : Ty) (sat : Bool) (a : Src) (s : State) (h_s : KS wants fa fb s)
      : KOut wants fa fb (execIneg h d ty sat a s) := by
  unfold execIneg
  repeat' first
    | with_reducible assumption
    | with_reducible apply keep_int1

theorem keep_execIand (h : LaneHdr) (d : Dst) (ty : Ty) (a b : Src) (s : State) (h_s : KS wants fa fb s) : KOut
      wants fa fb (execIand h d ty a b s) := by
  unfold execIand
  repeat' first
    | with_reducible assumption
    | with_reducible apply keep_int2

theorem keep_execIor (h : LaneHdr) (d : Dst) (ty : Ty) (a b : Src) (s : State) (h_s : KS wants fa fb s) : KOut
      wants fa fb (execIor h d ty a b s) := by
  unfold execIor
  repeat' first
    | with_reducible assumption
    | with_reducible apply keep_int2

theorem keep_execIxor (h : LaneHdr) (d : Dst) (ty : Ty) (a b : Src) (s : State) (h_s : KS wants fa fb s) : KOut
      wants fa fb (execIxor h d ty a b s) := by
  unfold execIxor
  repeat' first
    | with_reducible assumption
    | with_reducible apply keep_int2

theorem keep_execIandn (h : LaneHdr) (d : Dst) (ty : Ty) (a b : Src) (s : State) (h_s : KS wants fa fb s) : KOut
      wants fa fb (execIandn h d ty a b s) := by
  unfold execIandn
  repeat' first
    | with_reducible assumption
    | with_reducible apply keep_int2

theorem keep_execInot (h : LaneHdr) (d : Dst) (ty : Ty) (a : Src) (s : State) (h_s : KS wants fa fb s) : KOut wants
      fa fb (execInot h d ty a s) := by
  unfold execInot
  repeat' first
    | with_reducible assumption
    | with_reducible apply keep_int1

theorem keep_execIsel (h : LaneHdr) (d : Dst) (ty : Ty) (a b : Src) (p : Nat) (s : State) (h_s : KS wants fa fb s)
      : KOut wants fa fb (execIsel h d ty a b p s) := by
  unfold execIsel
  repeat' first
    | with_reducible assumption
    | with_reducible apply keep_laneIssue
    | with_reducible apply keep_laneCompute
    | intro _

theorem keep_execIshl (h : LaneHdr) (d : Dst) (ty : Ty) (a b : Src) (s : State) (h_s : KS wants fa fb s) : KOut
      wants fa fb (execIshl h d ty a b s) := by
  unfold execIshl
  repeat' first
    | with_reducible assumption
    | with_reducible apply keep_int2

theorem keep_execIshr (h : LaneHdr) (d : Dst) (ty : Ty) (a b : Src) (s : State) (h_s : KS wants fa fb s) : KOut
      wants fa fb (execIshr h d ty a b s) := by
  unfold execIshr
  repeat' first
    | with_reducible assumption
    | with_reducible apply keep_int2

theorem keep_execIsra (h : LaneHdr) (d : Dst) (ty : Ty) (a b : Src) (s : State) (h_s : KS wants fa fb s) : KOut
      wants fa fb (execIsra h d ty a b s) := by
  unfold execIsra
  repeat' first
    | with_reducible assumption
    | with_reducible apply keep_int2

theorem keep_execIpopc (h : LaneHdr) (d : Dst) (ty : Ty) (a : Src) (s : State) (h_s : KS wants fa fb s) : KOut
      wants fa fb (execIpopc h d ty a s) := by
  unfold execIpopc
  repeat' first
    | with_reducible assumption
    | with_reducible apply keep_int1

theorem keep_execIclz (h : LaneHdr) (d : Dst) (ty : Ty) (a : Src) (s : State) (h_s : KS wants fa fb s) : KOut wants
      fa fb (execIclz h d ty a s) := by
  unfold execIclz
  repeat' first
    | with_reducible assumption
    | with_reducible apply keep_int1

theorem keep_execLaneBrev (h : LaneHdr) (d : Dst) (ty : Ty) (a : Src) (s : State) (h_s : KS wants fa fb s) : KOut
      wants fa fb (execLaneBrev h d ty a s) := by
  unfold execLaneBrev
  repeat' first
    | with_reducible assumption
    | with_reducible apply keep_int1

theorem keep_execPrmt (h : LaneHdr) (d : Dst) (a b c : Src) (s : State) (h_s : KS wants fa fb s) : KOut wants fa fb
      (execPrmt h d a b c s) := by
  unfold execPrmt
  repeat' first
    | with_reducible assumption
    | with_reducible apply keep_int3

theorem keep_execLaneBfe (h : LaneHdr) (d : Dst) (ty : Ty) (a b : Src) (s : State) (h_s : KS wants fa fb s) : KOut
      wants fa fb (execLaneBfe h d ty a b s) := by
  unfold execLaneBfe
  repeat' first
    | with_reducible assumption
    | with_reducible apply keep_int2

theorem keep_execLaneBfi (h : LaneHdr) (d : Dst) (ty : Ty) (a b c : Src) (s : State) (h_s : KS wants fa fb s) :
      KOut wants fa fb (execLaneBfi h d ty a b c s) := by
  unfold execLaneBfi
  repeat' first
    | with_reducible assumption
    | with_reducible apply keep_int3

theorem keep_execIdp4 (h : LaneHdr) (d : Dst) (ty : Ty) (sat : Bool) (a b c : Src) (s : State) (h_s : KS wants fa
      fb s) : KOut wants fa fb (execIdp4 h d ty sat a b c s) := by
  unfold execIdp4
  repeat' first
    | with_reducible assumption
    | with_reducible apply keep_int3

theorem keep_fp1 (s : State) (f : Fmt) (h : LaneHdr) (d : Dst) (lat : Nat) (a : Src) (g : Nat → FRes) (h_s : KS
      wants fa fb s) : KOut wants fa fb (State.fp1 s f h d lat a g) := by
  unfold State.fp1
  repeat' first
    | with_reducible assumption
    | with_reducible apply keep_laneIssue
    | with_reducible apply keep_laneCompute
    | intro _

theorem keep_fp2 (s : State) (f : Fmt) (h : LaneHdr) (d : Dst) (lat : Nat) (a b : Src) (g : Nat → Nat → FRes) (h_s
      : KS wants fa fb s) : KOut wants fa fb (State.fp2 s f h d lat a b g) := by
  unfold State.fp2
  repeat' first
    | with_reducible assumption
    | with_reducible apply keep_laneIssue
    | with_reducible apply keep_laneCompute
    | intro _

theorem keep_fp3 (s : State) (f : Fmt) (h : LaneHdr) (d : Dst) (lat : Nat) (a b c : Src) (g : Nat → Nat → Nat →
      FRes) (h_s : KS wants fa fb s) : KOut wants fa fb (State.fp3 s f h d lat a b c g) := by
  unfold State.fp3
  repeat' first
    | with_reducible assumption
    | with_reducible apply keep_laneIssue
    | with_reducible apply keep_laneCompute
    | intro _

theorem keep_packed2 (s : State) (f : Fmt) (h : LaneHdr) (d : Dst) (a b : Src) (g : Nat → Nat → FRes) (h_s : KS
      wants fa fb s) : KOut wants fa fb (State.packed2 s f h d a b g) := by
  unfold State.packed2
  repeat' first
    | with_reducible assumption
    | with_reducible apply keep_laneIssue
    | with_reducible apply keep_laneCompute
    | dsimp only [KS, KP]
    | intro _

theorem keep_packed3 (s : State) (f : Fmt) (h : LaneHdr) (d : Dst) (a b c : Src) (g : Nat → Nat → Nat → FRes) (h_s
      : KS wants fa fb s) : KOut wants fa fb (State.packed3 s f h d a b c g) := by
  unfold State.packed3
  repeat' first
    | with_reducible assumption
    | with_reducible apply keep_laneIssue
    | with_reducible apply keep_laneCompute
    | dsimp only [KS, KP]
    | intro _

theorem keep_execFadd (h : LaneHdr) (d : Dst) (rnd : Rnd) (a b : Src) (s : State) (h_s : KS wants fa fb s) : KOut
      wants fa fb (execFadd h d rnd a b s) := by
  unfold execFadd
  repeat' first
    | with_reducible assumption
    | with_reducible apply keep_fp2

theorem keep_execFsub (h : LaneHdr) (d : Dst) (rnd : Rnd) (a b : Src) (s : State) (h_s : KS wants fa fb s) : KOut
      wants fa fb (execFsub h d rnd a b s) := by
  unfold execFsub
  repeat' first
    | with_reducible assumption
    | with_reducible apply keep_fp2

theorem keep_execFmul (h : LaneHdr) (d : Dst) (rnd : Rnd) (a b : Src) (s : State) (h_s : KS wants fa fb s) : KOut
      wants fa fb (execFmul h d rnd a b s) := by
  unfold execFmul
  repeat' first
    | with_reducible assumption
    | with_reducible apply keep_fp2

theorem keep_execFfma (h : LaneHdr) (d : Dst) (rnd : Rnd) (a b c : Src) (s : State) (h_s : KS wants fa fb s) : KOut
      wants fa fb (execFfma h d rnd a b c s) := by
  unfold execFfma
  repeat' first
    | with_reducible assumption
    | with_reducible apply keep_fp3

theorem keep_execFmin (h : LaneHdr) (d : Dst) (a b : Src) (s : State) (h_s : KS wants fa fb s) : KOut wants fa fb
      (execFmin h d a b s) := by
  unfold execFmin
  repeat' first
    | with_reducible assumption
    | with_reducible apply keep_fp2

theorem keep_execFmax (h : LaneHdr) (d : Dst) (a b : Src) (s : State) (h_s : KS wants fa fb s) : KOut wants fa fb
      (execFmax h d a b s) := by
  unfold execFmax
  repeat' first
    | with_reducible assumption
    | with_reducible apply keep_fp2

theorem keep_execFabs (h : LaneHdr) (d : Dst) (a : Src) (s : State) (h_s : KS wants fa fb s) : KOut wants fa fb
      (execFabs h d a s) := by
  unfold execFabs
  repeat' first
    | with_reducible assumption
    | with_reducible apply keep_fp1

theorem keep_execFneg (h : LaneHdr) (d : Dst) (a : Src) (s : State) (h_s : KS wants fa fb s) : KOut wants fa fb
      (execFneg h d a s) := by
  unfold execFneg
  repeat' first
    | with_reducible assumption
    | with_reducible apply keep_fp1

theorem keep_execFrcp (h : LaneHdr) (d : Dst) (rnd : Rnd) (a : Src) (s : State) (h_s : KS wants fa fb s) : KOut
      wants fa fb (execFrcp h d rnd a s) := by
  unfold execFrcp
  repeat' first
    | with_reducible assumption
    | with_reducible apply keep_fp1

theorem keep_execFrsq (h : LaneHdr) (d : Dst) (rnd : Rnd) (a : Src) (s : State) (h_s : KS wants fa fb s) : KOut
      wants fa fb (execFrsq h d rnd a s) := by
  unfold execFrsq
  repeat' first
    | with_reducible assumption
    | with_reducible apply keep_fp1

theorem keep_execFsqrt (h : LaneHdr) (d : Dst) (rnd : Rnd) (a : Src) (s : State) (h_s : KS wants fa fb s) : KOut
      wants fa fb (execFsqrt h d rnd a s) := by
  unfold execFsqrt
  repeat' first
    | with_reducible assumption
    | with_reducible apply keep_fp1

theorem keep_execFdiv (h : LaneHdr) (d : Dst) (rnd : Rnd) (a b : Src) (s : State) (h_s : KS wants fa fb s) : KOut
      wants fa fb (execFdiv h d rnd a b s) := by
  unfold execFdiv
  repeat' first
    | with_reducible assumption
    | with_reducible apply keep_fp2

theorem keep_execFexp2 (h : LaneHdr) (d : Dst) (a : Src) (s : State) (h_s : KS wants fa fb s) : KOut wants fa fb
      (execFexp2 h d a s) := by
  unfold execFexp2
  repeat' first
    | with_reducible assumption
    | with_reducible apply keep_fp1

theorem keep_execFlog2 (h : LaneHdr) (d : Dst) (a : Src) (s : State) (h_s : KS wants fa fb s) : KOut wants fa fb
      (execFlog2 h d a s) := by
  unfold execFlog2
  repeat' first
    | with_reducible assumption
    | with_reducible apply keep_fp1

theorem keep_execDadd (h : LaneHdr) (d : Dst) (rnd : Rnd) (a b : Src) (s : State) (h_s : KS wants fa fb s) : KOut
      wants fa fb (execDadd h d rnd a b s) := by
  unfold execDadd
  repeat' first
    | with_reducible assumption
    | with_reducible apply keep_fp2

theorem keep_execDsub (h : LaneHdr) (d : Dst) (rnd : Rnd) (a b : Src) (s : State) (h_s : KS wants fa fb s) : KOut
      wants fa fb (execDsub h d rnd a b s) := by
  unfold execDsub
  repeat' first
    | with_reducible assumption
    | with_reducible apply keep_fp2

theorem keep_execDmul (h : LaneHdr) (d : Dst) (rnd : Rnd) (a b : Src) (s : State) (h_s : KS wants fa fb s) : KOut
      wants fa fb (execDmul h d rnd a b s) := by
  unfold execDmul
  repeat' first
    | with_reducible assumption
    | with_reducible apply keep_fp2

theorem keep_execDfma (h : LaneHdr) (d : Dst) (rnd : Rnd) (a b c : Src) (s : State) (h_s : KS wants fa fb s) : KOut
      wants fa fb (execDfma h d rnd a b c s) := by
  unfold execDfma
  repeat' first
    | with_reducible assumption
    | with_reducible apply keep_fp3

theorem keep_execDmin (h : LaneHdr) (d : Dst) (a b : Src) (s : State) (h_s : KS wants fa fb s) : KOut wants fa fb
      (execDmin h d a b s) := by
  unfold execDmin
  repeat' first
    | with_reducible assumption
    | with_reducible apply keep_fp2

theorem keep_execDmax (h : LaneHdr) (d : Dst) (a b : Src) (s : State) (h_s : KS wants fa fb s) : KOut wants fa fb
      (execDmax h d a b s) := by
  unfold execDmax
  repeat' first
    | with_reducible assumption
    | with_reducible apply keep_fp2

theorem keep_execDdiv (h : LaneHdr) (d : Dst) (rnd : Rnd) (a b : Src) (s : State) (h_s : KS wants fa fb s) : KOut
      wants fa fb (execDdiv h d rnd a b s) := by
  unfold execDdiv
  repeat' first
    | with_reducible assumption
    | with_reducible apply keep_fp2

theorem keep_execDsqrt (h : LaneHdr) (d : Dst) (rnd : Rnd) (a : Src) (s : State) (h_s : KS wants fa fb s) : KOut
      wants fa fb (execDsqrt h d rnd a s) := by
  unfold execDsqrt
  repeat' first
    | with_reducible assumption
    | with_reducible apply keep_fp1

theorem keep_execHadd2 (h : LaneHdr) (d : Dst) (rnd : Rnd) (a b : Src) (s : State) (h_s : KS wants fa fb s) : KOut
      wants fa fb (execHadd2 h d rnd a b s) := by
  unfold execHadd2
  repeat' first
    | with_reducible assumption
    | with_reducible apply keep_packed2

theorem keep_execHmul2 (h : LaneHdr) (d : Dst) (rnd : Rnd) (a b : Src) (s : State) (h_s : KS wants fa fb s) : KOut
      wants fa fb (execHmul2 h d rnd a b s) := by
  unfold execHmul2
  repeat' first
    | with_reducible assumption
    | with_reducible apply keep_packed2

theorem keep_execHfma2 (h : LaneHdr) (d : Dst) (rnd : Rnd) (a b c : Src) (s : State) (h_s : KS wants fa fb s) :
      KOut wants fa fb (execHfma2 h d rnd a b c s) := by
  unfold execHfma2
  repeat' first
    | with_reducible assumption
    | with_reducible apply keep_packed3

theorem keep_execBadd2 (h : LaneHdr) (d : Dst) (rnd : Rnd) (a b : Src) (s : State) (h_s : KS wants fa fb s) : KOut
      wants fa fb (execBadd2 h d rnd a b s) := by
  unfold execBadd2
  repeat' first
    | with_reducible assumption
    | with_reducible apply keep_packed2

theorem keep_execBmul2 (h : LaneHdr) (d : Dst) (rnd : Rnd) (a b : Src) (s : State) (h_s : KS wants fa fb s) : KOut
      wants fa fb (execBmul2 h d rnd a b s) := by
  unfold execBmul2
  repeat' first
    | with_reducible assumption
    | with_reducible apply keep_packed2

theorem keep_execBfma2 (h : LaneHdr) (d : Dst) (rnd : Rnd) (a b c : Src) (s : State) (h_s : KS wants fa fb s) :
      KOut wants fa fb (execBfma2 h d rnd a b c s) := by
  unfold execBfma2
  repeat' first
    | with_reducible assumption
    | with_reducible apply keep_packed3

theorem keep_execBdot2 (h : LaneHdr) (d : Dst) (rnd : Rnd) (a b c : Src) (s : State) (h_s : KS wants fa fb s) :
      KOut wants fa fb (execBdot2 h d rnd a b c s) := by
  unfold execBdot2
  repeat' first
    | with_reducible assumption
    | with_reducible apply keep_laneIssue
    | with_reducible apply keep_laneCompute
    | dsimp only [KS, KP]
    | intro _

theorem keep_execShfl (h : LaneHdr) (mode : ShflMode) (d : Dst) (a b : Src) (s : State) (h_s : KS wants fa fb s) :
      KOut wants fa fb (execShfl h mode d a b s) := by
  unfold execShfl
  repeat' first
    | with_reducible assumption
    | with_reducible apply keep_laneIssue
    | with_reducible apply keep_laneCompute
    | dsimp only [KS, KP]
    | intro _

theorem keep_laneTold (s : State) (tk : Nat) (ws : List (Loc × Word)) (h_s : KS wants fa fb s) : KOut wants fa fb
      (State.laneTold s tk ws) := by
  unfold State.laneTold
  repeat' first
    | with_reducible assumption
    | with_reducible apply mk_next
    | with_reducible apply keep_endWith
    | with_reducible apply keep_laneNext

theorem keep_execVote (h : LaneHdr) (mode : VoteMode) (d p tk : Nat) (s : State) (h_s : KS wants fa fb s) : KOut
      wants fa fb (execVote h mode d p tk s) := by
  unfold execVote
  repeat' first
    | with_reducible assumption
    | with_reducible apply keep_laneIssue
    | with_reducible apply keep_laneTold
    | intro _

theorem keep_execVballot (h : LaneHdr) (d : Dst) (p : Nat) (s : State) (h_s : KS wants fa fb s) : KOut wants fa fb
      (execVballot h d p s) := by
  unfold execVballot
  repeat' first
    | with_reducible assumption
    | with_reducible apply keep_laneIssue
    | with_reducible apply keep_laneCompute
    | dsimp only [KS, KP]
    | intro _

theorem keep_execLred (h : LaneHdr) (op : RedOp) (ty : Ty) (d : Nat) (a : Src) (tk : Nat) (s : State) (h_s : KS
      wants fa fb s) : KOut wants fa fb (execLred h op ty d a tk s) := by
  unfold execLred
  repeat' first
    | with_reducible assumption
    | with_reducible apply keep_laneIssue
    | with_reducible apply keep_laneTold
    | dsimp only [KS, KP]
    | intro _

theorem keep_execLscan (h : LaneHdr) (op : RedOp) (ty : Ty) (incl : Bool) (d : Nat) (a : Src) (total : Option Nat)
      (tk : Nat) (s : State) (h_s : KS wants fa fb s) : KOut wants fa fb (execLscan h op ty incl d a total tk s) := by
  unfold execLscan
  repeat' first
    | with_reducible assumption
    | with_reducible apply keep_laneIssue
    | with_reducible apply keep_laneTold
    | dsimp only [KS, KP]
    | split
    | intro _

theorem keep_execLaneMatch (h : LaneHdr) (ty : Ty) (d : Dst) (a : Src) (s : State) (h_s : KS wants fa fb s) : KOut
      wants fa fb (execLaneMatch h ty d a s) := by
  unfold execLaneMatch
  repeat' first
    | with_reducible assumption
    | with_reducible apply keep_laneIssue
    | with_reducible apply keep_laneCompute
    | intro _

theorem keep_execLend (h : LaneHdr) (tk : Option Nat) (s : State) (h_s : KS wants fa fb s) : KOut wants fa fb
      (execLend h tk s) := by
  unfold execLend
  repeat' first
    | with_reducible assumption
    | with_reducible apply mk_next
    | with_reducible apply keep_laneIssue
    | with_reducible apply keep_enqueue
    | with_reducible apply keep_laneNext
    | intro _

theorem keep_lbrxGo (s : State) (c : Cap) (tk : Nat) (ts : List (Nat × Nat × Target)) (h_s : KS wants fa fb s) : KS
      wants fa fb (State.lbrxGo s c tk ts) := by
  unfold State.lbrxGo
  repeat' first
    | with_reducible assumption
    | with_reducible apply keep_updTeam
    | with_reducible apply keep_enqueue
    | with_reducible apply keep_laneNext

theorem keep_resolveTargets (s : State) (c : Cap) (acc : List (Nat × Nat × Target)) (z0 : List (Nat × Nat ×
      Target)) (h_s : KS wants fa fb s) : KExc wants fa fb (State.resolveTargets s c acc z0) := by
  induction z0 generalizing s acc with
  | nil =>
    unfold State.resolveTargets
    repeat' first
      | with_reducible assumption
      | with_reducible apply mk_ok
  | cons x r ih =>
    unfold State.resolveTargets
    repeat' first
      | with_reducible assumption
      | with_reducible apply ih
      | with_reducible apply mk_error
      | with_reducible apply keep_touchFor
      | dsimp only [KS, KP]
      | split
      | with_reducible refine Checked_ok (by assumption) ?_
      | with_reducible refine Checked_trap (by assumption) ?_
      | with_reducible refine Checked_again (by assumption) ?_

theorem keep_execLbrx (h : LaneHdr) (t c tk : Nat) (s : State) (h_s : KS wants fa fb s) : KOut wants fa fb
      (execLbrx h t c tk s) := by
  unfold execLbrx
  repeat' first
    | with_reducible assumption
    | with_reducible apply mk_next
    | with_reducible apply keep_laneIssue
    | with_reducible apply keep_laneTrap
    | with_reducible apply keep_resolveTargets
    | with_reducible apply keep_lbrxGo
    | with_reducible apply keep_makeSpawnRoom
    | dsimp only [KS, KP]
    | split
    | intro _
    | with_reducible refine exc_ok (by assumption) ?_
    | with_reducible refine exc_error (by assumption) ?_

theorem keep_laneChecked (s : State) (c : Checked) (ord : Ord) (scope : Scope) (tk : Option Nat) (ll : Flags) (kind
      : List Acc → OpKind) (dests : List Loc) (h_s : KS wants fa fb s) (h_c : KChecked wants fa fb c) : KOut wants
      fa fb (State.laneChecked s c ord scope tk ll kind dests) := by
  unfold State.laneChecked
  repeat' first
    | with_reducible apply mk_next
    | with_reducible apply keep_trapBeside
    | with_reducible apply keep_issueMem
    | with_reducible apply keep_enqueue
    | with_reducible apply keep_laneNext
    | dsimp only [KS, KP]
    | split
    | exact Checked_ok rfl (by assumption)
    | exact Checked_trap rfl (by assumption)
    | exact Checked_again rfl (by assumption)

theorem keep_laneLoad (s : State) (h : LaneHdr) (names : List Nat) (size : Nat) (tolerant : Bool) (need : List Nat)
      (ord : Ord) (scope : Scope) (cap : CapSrc) (off : Src) (imm : Int) (tk : Option Nat) (kind : List Acc →
      OpKind) (dests : BitVec 32 → List Loc) (info : Nat) (h_s : KS wants fa fb s) : KOut wants fa fb
      (State.laneLoad s h names size tolerant need ord scope cap off imm tk kind dests info) := by
  unfold State.laneLoad
  repeat' first
    | with_reducible assumption
    | with_reducible apply keep_laneIssue
    | with_reducible apply keep_laneChecked
    | with_reducible apply keep_checkAccess
    | intro _

theorem keep_execLd (h : LaneHdr) (ty : Ty) (ord : Ord) (scope : Scope) (ro : Bool) (d : Nat) (cap : CapSrc) (off :
      Src) (imm : Int) (tk : Option Nat) (s : State) (h_s : KS wants fa fb s) : KOut wants fa fb (execLd h ty ord
      scope ro d cap off imm tk s) := by
  unfold execLd
  repeat' first
    | with_reducible assumption
    | with_reducible apply keep_laneLoad

theorem keep_execSt (h : LaneHdr) (ty : Ty) (ord : Ord) (scope : Scope) (data : Src) (cap : CapSrc) (off : Src)
      (imm : Int) (tk : Option Nat) (s : State) (h_s : KS wants fa fb s) : KOut wants fa fb (execSt h ty ord scope
      data cap off imm tk s) := by
  unfold execSt
  repeat' first
    | with_reducible assumption
    | with_reducible apply keep_laneIssue
    | with_reducible apply keep_laneChecked
    | with_reducible apply keep_checkAccess
    | intro _

theorem keep_execLdnr (h : LaneHdr) (ty : Ty) (ord : Ord) (scope : Scope) (ro : Bool) (d r : Nat) (cap : CapSrc)
      (off : Src) (imm : Int) (tk : Option Nat) (s : State) (h_s : KS wants fa fb s) : KOut wants fa fb (execLdnr h
      ty ord scope ro d r cap off imm tk s) := by
  unfold execLdnr
  repeat' first
    | with_reducible assumption
    | with_reducible apply keep_laneLoad

theorem keep_execLdsub (h : LaneHdr) (ty : Ty) (ord : Ord) (scope : Scope) (ro : Bool) (d : Nat) (cap : CapSrc)
      (off : Src) (imm : Int) (tk : Option Nat) (s : State) (h_s : KS wants fa fb s) : KOut wants fa fb (execLdsub
      h ty ord scope ro d cap off imm tk s) := by
  unfold execLdsub
  repeat' first
    | with_reducible assumption
    | with_reducible apply keep_laneLoad

theorem keep_subscribe (s : State) (h : LaneHdr) (install : Bool) (fmt : Ty) (c b : Nat) (tk : Option Nat) (h_s :
      KS wants fa fb s) : KOut wants fa fb (State.subscribe s h install fmt c b tk) := by
  unfold State.subscribe
  repeat' first
    | with_reducible assumption
    | with_reducible apply mk_next
    | with_reducible apply keep_laneIssue
    | with_reducible apply keep_enqueue
    | with_reducible apply keep_laneNext
    | with_reducible apply keep_laneTrap
    | dsimp only [KS, KP]
    | split
    | intro _

theorem keep_execSubs (h : LaneHdr) (ty : Ty) (c b : Nat) (tk : Option Nat) (s : State) (h_s : KS wants fa fb s) :
      KOut wants fa fb (execSubs h ty c b tk s) := by
  unfold execSubs
  repeat' first
    | with_reducible assumption
    | with_reducible apply keep_subscribe

theorem keep_execUnsubs (h : LaneHdr) (c b : Nat) (tk : Option Nat) (s : State) (h_s : KS wants fa fb s) : KOut
      wants fa fb (execUnsubs h c b tk s) := by
  unfold execUnsubs
  repeat' first
    | with_reducible assumption
    | with_reducible apply keep_subscribe

theorem keep_checkTeam (s : State) (info size : Nat) (rs : List (Nat × Int × Nat × Nat)) (h_s : KS wants fa fb s) :
      KChecked wants fa fb (State.checkTeam s info size rs) := by
  unfold State.checkTeam
  repeat' first
    | with_reducible assumption
    | with_reducible apply mkChecked_ok
    | with_reducible apply mkChecked_trap
    | dsimp only [KS, KP]
    | split

theorem keep_execLds (h : LaneHdr) (ty : Ty) (ord : Ord) (scope : Scope) (d : Nat) (addr : Src) (imm : Int) (tk :
      Option Nat) (s : State) (h_s : KS wants fa fb s) : KOut wants fa fb (execLds h ty ord scope d addr imm tk s)
      := by
  unfold execLds
  repeat' first
    | with_reducible assumption
    | with_reducible apply keep_laneIssue
    | with_reducible apply keep_laneChecked
    | with_reducible apply keep_checkTeam
    | intro _

theorem keep_execSts (h : LaneHdr) (ty : Ty) (ord : Ord) (scope : Scope) (data addr : Src) (imm : Int) (tk : Option
      Nat) (s : State) (h_s : KS wants fa fb s) : KOut wants fa fb (execSts h ty ord scope data addr imm tk s) := by
  unfold execSts
  repeat' first
    | with_reducible assumption
    | with_reducible apply keep_laneIssue
    | with_reducible apply keep_laneChecked
    | with_reducible apply keep_checkTeam
    | intro _

theorem keep_execAtom (h : LaneHdr) (op : AtomOp) (ty : Ty) (ord : Ord) (scope : Scope) (d : Dst) (cap : CapSrc)
      (off opnd : Src) (imm : Int) (tk : Option Nat) (s : State) (h_s : KS wants fa fb s) : KOut wants fa fb
      (execAtom h op ty ord scope d cap off opnd imm tk s) := by
  unfold execAtom
  repeat' first
    | with_reducible assumption
    | with_reducible apply keep_laneIssue
    | with_reducible apply keep_laneChecked
    | with_reducible apply keep_checkAccess
    | intro _

theorem keep_execAtoms (h : LaneHdr) (op : AtomOp) (ty : Ty) (ord : Ord) (scope : Scope) (d : Dst) (addr opnd :
      Src) (imm : Int) (tk : Option Nat) (s : State) (h_s : KS wants fa fb s) : KOut wants fa fb (execAtoms h op ty
      ord scope d addr opnd imm tk s) := by
  unfold execAtoms
  repeat' first
    | with_reducible assumption
    | with_reducible apply keep_laneIssue
    | with_reducible apply keep_laneChecked
    | with_reducible apply keep_checkTeam
    | intro _

theorem keep_execLaneLdc (h : LaneHdr) (ord : Ord) (scope : Scope) (d : Nat) (cap : CapSrc) (off : Src) (imm : Int)
      (tk : Option Nat) (s : State) (h_s : KS wants fa fb s) : KOut wants fa fb (execLaneLdc h ord scope d cap off
      imm tk s) := by
  unfold execLaneLdc
  repeat' first
    | with_reducible assumption
    | with_reducible apply keep_laneLoad

theorem keep_execLaneStc (h : LaneHdr) (ord : Ord) (scope : Scope) (v : Nat) (cap : CapSrc) (off : Src) (imm : Int)
      (tk : Option Nat) (s : State) (h_s : KS wants fa fb s) : KOut wants fa fb (execLaneStc h ord scope v cap off
      imm tk s) := by
  unfold execLaneStc
  repeat' first
    | with_reducible assumption
    | with_reducible apply keep_laneIssue
    | with_reducible apply keep_laneChecked
    | with_reducible apply keep_checkAccess
    | dsimp only [KS, KP]
    | intro _

theorem keep_fenceEnd (s : State) (ord : Ord) (scope : Scope) (tk : Option Nat) (h_s : KS wants fa fb s) : KS wants
      fa fb (State.fenceEnd s ord scope tk) := by
  unfold State.fenceEnd
  repeat' first
    | with_reducible assumption
    | with_reducible apply keep_fenced
    | with_reducible apply keep_laneNext

theorem keep_execLaneFence (h : LaneHdr) (ord : Ord) (scope : Scope) (tk : Option Nat) (s : State) (h_s : KS wants
      fa fb s) : KOut wants fa fb (execLaneFence h ord scope tk s) := by
  unfold execLaneFence
  repeat' first
    | with_reducible assumption
    | with_reducible apply mk_next
    | with_reducible apply keep_laneIssue
    | with_reducible apply keep_fenceEnd
    | dsimp only [KS, KP]
    | split
    | intro _

theorem keep_execFencex (h : LaneHdr) (src dst : Path) (ord : Ord) (scope : Scope) (tk : Option Nat) (s : State)
      (h_s : KS wants fa fb s) : KOut wants fa fb (execFencex h src dst ord scope tk s) := by
  unfold execFencex
  repeat' first
    | with_reducible assumption
    | with_reducible apply mk_next
    | with_reducible apply keep_laneIssue
    | with_reducible apply keep_publishFor
    | with_reducible apply keep_peerFence
    | with_reducible apply keep_laneNext
    | dsimp only [KS, KP]
    | split
    | intro _

theorem keep_execPf (h : LaneHdr) (cap : CapSrc) (off : Src) (imm : Int) (tk : Option Nat) (s : State) (h_s : KS
      wants fa fb s) : KOut wants fa fb (execPf h cap off imm tk s) := by
  unfold execPf
  repeat' first
    | with_reducible assumption
    | with_reducible apply mk_next
    | with_reducible apply keep_laneIssue
    | with_reducible apply keep_enqueue
    | with_reducible apply keep_laneNext
    | dsimp only [KS, KP]
    | split
    | intro _

end Sys2Proof.Laws.Keep
end

