-- ==== Sys2Proof/Laws/KeepEngine.lean ====
section
/-!
SUPPORT. What the engines, page requests, launches and matrix instructions keep: the form of memory and the fuses (see KeepBase).
-/

namespace Sys2Proof.Laws.Keep

open Machine

variable {wants : Prop} {fa fb : Nat}

theorem keep_devXlate (s : State) (w : Who) (q : Want) (va : Nat) (h_s : KS wants fa fb s) : KDevX wants fa fb
      (State.devXlate s w q va) := by
  unfold State.devXlate
  repeat' first
    | with_reducible assumption
    | with_reducible apply mkDevX_ok
    | with_reducible apply mkDevX_again
    | with_reducible apply mkDevX_absent
    | with_reducible apply mkDevX_fail
    | with_reducible apply keep_noteXlate
    | with_reducible apply keep_noteKey
    | with_reducible apply keep_noteWalk
    | with_reducible apply keep_firstTouch
    | dsimp only [KS, KP]
    | split
    | with_reducible refine TouchRes_done (by assumption) ?_
    | with_reducible refine TouchRes_declined (by assumption) ?_
    | with_reducible refine TouchRes_wait (by assumption) ?_

theorem keep_devXlateOnce (s : State) (w : Who) (q : Want) (va : Nat) (h_s : KS wants fa fb s) : KDevX wants fa fb
      (State.devXlateOnce s w q va) := by
  unfold State.devXlateOnce
  repeat' first
    | with_reducible assumption
    | with_reducible apply keep_devXlate
    | dsimp only [KS, KP]
    | split
    | with_reducible refine DevX_again (by assumption) ?_

theorem keep_exportCap (s : State) (peer : Nat) (c : Cap) (h_s : KS wants fa fb s) : KP wants fa fb
      (State.exportCap s peer c) := by
  unfold State.exportCap
  repeat' first
    | with_reducible assumption
    | with_reducible apply keep_putCap
    | with_reducible apply keep_writePhys
    | dsimp only [KS, KP]
    | split

theorem keep_takeLines (s : State) (pa n : Nat) (h_s : KS wants fa fb s) : KS wants fa fb (State.takeLines s pa n)
      := by
  unfold State.takeLines
  repeat' first
    | with_reducible assumption
    | with_reducible apply keep_dropCopies
    | with_reducible apply keep_fold
    | dsimp only [KS, KP]
    | intro _

theorem keep_putAt (s : State) (owner pa : Nat) (bs : List Byte) (h_s : KS wants fa fb s) : KS wants fa fb
      (State.putAt s owner pa bs) := by
  unfold State.putAt
  repeat' first
    | with_reducible assumption
    | with_reducible apply keep_takeLines
    | with_reducible apply keep_putBytes
    | dsimp only [KS, KP]
    | split

theorem keep_putCapAt (s : State) (owner pa : Nat) (c : Cap) (h_s : KS wants fa fb s) : KS wants fa fb
      (State.putCapAt s owner pa c) := by
  unfold State.putCapAt
  repeat' first
    | with_reducible assumption
    | with_reducible apply keep_exportCap
    | with_reducible apply keep_takeLines
    | with_reducible apply keep_putCap
    | dsimp only [KS, KP]
    | split

theorem keep_devRead (s : State) (w : Who) (q : Want) (va n : Nat) (h_s : KS wants fa fb s) : KDevRead wants fa fb
      (State.devRead s w q va n) := by
  unfold State.devRead
  repeat' first
    | with_reducible assumption
    | with_reducible apply mkDevRead_ok
    | with_reducible apply mkDevRead_again
    | with_reducible apply mkDevRead_fail
    | with_reducible apply keep_devXlate
    | dsimp only [KS, KP]
    | split
    | with_reducible refine DevX_ok (by assumption) ?_
    | with_reducible refine DevX_again (by assumption) ?_
    | with_reducible refine DevX_absent (by assumption) ?_
    | with_reducible refine DevX_fail (by assumption) ?_

theorem keep_devWrite (s : State) (w : Who) (q : Want) (va n v : Nat) (h_s : KS wants fa fb s) : KDevRead wants fa
      fb (State.devWrite s w q va n v) := by
  unfold State.devWrite
  repeat' first
    | with_reducible assumption
    | with_reducible apply mkDevRead_ok
    | with_reducible apply mkDevRead_again
    | with_reducible apply mkDevRead_fail
    | with_reducible apply keep_devXlate
    | with_reducible apply keep_putAt
    | dsimp only [KS, KP]
    | split
    | with_reducible refine DevX_ok (by assumption) ?_
    | with_reducible refine DevX_again (by assumption) ?_
    | with_reducible refine DevX_absent (by assumption) ?_
    | with_reducible refine DevX_fail (by assumption) ?_

theorem keep_updWalk (s : State) (id : Nat) (f : Walk → Walk) (h_s : KS wants fa fb s) : KS wants fa fb
      (State.updWalk s id f) := by
  unfold State.updWalk
  repeat' first
    | with_reducible assumption

theorem keep_graphTouch (s : State) (w : Walk) (n : Nat) (h_s : KS wants fa fb s) : KOpt wants fa fb
      (State.graphTouch s w n) := by
  have some_of : ∀ (l : List Nat), KOpt wants fa fb (l.findSome? fun va =>
      match s.devXlate w.who (w.want true) va with
      | .again s' => some s'
      | _ => none) := by
    intro l
    induction l with
    | nil => exact mk_none
    | cons x l ih =>
      rw [List.findSome?_cons]
      have hx := keep_devXlate s w.who (w.want true) x h_s
      cases hd : s.devXlate w.who (w.want true) x with
      | again t =>
        rw [hd] at hx
        exact mk_some hx
      | ok => exact ih
      | absent => exact ih
      | fail => exact ih
  exact some_of _

theorem keep_graphWrite (s : State) (w : Walk) (va n v : Nat) (h_s : KS wants fa fb s) : KOpt wants fa fb
      (State.graphWrite s w va n v) := by
  unfold State.graphWrite
  repeat' first
    | with_reducible assumption
    | with_reducible apply mk_some
    | with_reducible exact mk_none
    | with_reducible apply keep_devXlateOnce
    | with_reducible apply keep_putAt
    | dsimp only [KS, KP]
    | split
    | with_reducible refine DevX_ok (by assumption) ?_

theorem keep_signalFline (s : State) (w : Walk) (h_s : KS wants fa fb s) : KS wants fa fb (State.signalFline s w)
      := by
  unfold State.signalFline
  repeat' first
    | with_reducible assumption
    | with_reducible apply keep_signalCap
    | dsimp only [KS, KP]
    | split

theorem keep_graphLost (s : State) (w : Walk) (h_s : KS wants fa fb s) : KS wants fa fb (State.graphLost s w) := by
  unfold State.graphLost
  repeat' first
    | with_reducible assumption
    | with_reducible apply keep_signalFline
    | with_reducible apply keep_logEvent
    | with_reducible apply keep_updWalk

theorem keep_settleWalk (s : State) (id : Nat) (h_s : KS wants fa fb s) : KS wants fa fb (State.settleWalk s id) := by
  unfold State.settleWalk
  repeat' first
    | with_reducible assumption
    | with_reducible apply keep_graphWrite
    | with_reducible apply keep_graphLost
    | dsimp only [KS, KP]
    | split
    | with_reducible refine opt_some (by assumption) ?_

theorem keep_failNode (s : State) (w : Walk) (node cause : Nat) (status : Bool) (h_s : KS wants fa fb s) : KS wants
      fa fb (State.failNode s w node cause status) := by
  unfold State.failNode
  repeat' first
    | with_reducible assumption
    | with_reducible apply keep_graphWrite
    | with_reducible apply keep_graphLost
    | with_reducible apply keep_signalFline
    | with_reducible apply keep_updWalk
    | with_reducible apply keep_settleWalk
    | dsimp only [KS, KP]
    | split
    | with_reducible refine opt_some (by assumption) ?_

theorem keep_endRun (s : State) (w : Walk) (r : NodeRun) (h_s : KS wants fa fb s) : KS wants fa fb (State.endRun s
      w r) := by
  unfold State.endRun
  repeat' first
    | with_reducible assumption
    | with_reducible apply keep_updWalk
    | with_reducible apply keep_settleWalk

theorem keep_collCheck (s : State) (ws : List Word) (tags : List Bool) (h_s : KS wants fa fb s) : KCollCheck wants
      fa fb (State.collCheck s ws tags) := by
  unfold State.collCheck
  repeat' first
    | with_reducible assumption
    | with_reducible apply mk_next
    | with_reducible apply mkCollCheck_ok
    | with_reducible apply mkCollCheck_out
    | with_reducible apply keep_scalarTrap
    | with_reducible apply keep_devXlate
    | dsimp only [KS, KP]
    | split
    | with_reducible refine DevX_ok (by assumption) ?_
    | with_reducible refine DevX_again (by assumption) ?_
    | with_reducible refine DevX_fail (by assumption) ?_

theorem keep_freshGroup (s : State) (pa : Nat) (h_s : KS wants fa fb s) : KS wants fa fb (State.freshGroup s pa) := by
  unfold State.freshGroup
  repeat' first
    | with_reducible assumption
    | with_reducible apply keep_holdObj
    | dsimp only [KS, KP]
    | split

theorem keep_nextInst (s : State) (pa r : Nat) (h_s : KS wants fa fb s) : KP wants fa fb (State.nextInst s pa r) := by
  unfold State.nextInst
  repeat' first
    | with_reducible assumption
    | with_reducible apply keep_freshGroup

theorem keep_push (s : State) (coll : Bool) (c : Command) (h_s : KS wants fa fb s) : KS wants fa fb (State.push s
      coll c) := by
  unfold State.push
  repeat' first
    | with_reducible assumption
    | with_reducible apply keep_nextInst
    | with_reducible apply keep_advance
    | dsimp only [KS, KP]
    | split

theorem keep_execQpushQcopy (r : Nat) (s : State) (h_s : KS wants fa fb s) : KOut wants fa fb (execQpushQcopy r s)
      := by
  unfold execQpushQcopy
  repeat' first
    | with_reducible assumption
    | with_reducible apply mk_next
    | with_reducible apply keep_scalarTrap
    | with_reducible apply keep_gate
    | with_reducible apply keep_push
    | dsimp only [KS, KP]
    | split

theorem keep_execQpushQcoll (r : Nat) (s : State) (h_s : KS wants fa fb s) : KOut wants fa fb (execQpushQcoll r s)
      := by
  unfold execQpushQcoll
  repeat' first
    | with_reducible assumption
    | with_reducible apply mk_next
    | with_reducible apply keep_scalarTrap
    | with_reducible apply keep_gate
    | with_reducible apply keep_collCheck
    | with_reducible apply keep_push
    | dsimp only [KS, KP]
    | split
    | with_reducible refine CollCheck_ok (by assumption) ?_
    | with_reducible refine CollCheck_out (by assumption) ?_

theorem keep_acceptCmd (s : State) (a : Agent) (coll : Bool) (c : Command) (h_s : KS wants fa fb s) : KS wants fa
      fb (State.acceptCmd s a coll c) := by
  unfold State.acceptCmd
  repeat' first
    | with_reducible assumption

theorem keep_execCopyAccept (agent : Nat) (s : State) (h_s : KS wants fa fb s) : KOut wants fa fb (execCopyAccept
      agent s) := by
  unfold execCopyAccept
  repeat' first
    | with_reducible assumption
    | with_reducible apply mk_next
    | with_reducible apply keep_acceptCmd
    | with_reducible apply keep_updAgent
    | split

theorem keep_execCollectiveAccept (agent : Nat) (s : State) (h_s : KS wants fa fb s) : KOut wants fa fb
      (execCollectiveAccept agent s) := by
  unfold execCollectiveAccept
  repeat' first
    | with_reducible assumption
    | with_reducible apply mk_next
    | with_reducible apply keep_acceptCmd
    | with_reducible apply keep_updAgent
    | split

theorem keep_updCmd (s : State) (id : Nat) (f : EngineCmd → EngineCmd) (h_s : KS wants fa fb s) : KS wants fa fb
      (State.updCmd s id f) := by
  unfold State.updCmd
  repeat' first
    | with_reducible assumption

theorem keep_endCmd (s : State) (k : EngineCmd) (h_s : KS wants fa fb s) : KS wants fa fb (State.endCmd s k) := by
  unfold State.endCmd
  repeat' first
    | with_reducible assumption
    | with_reducible apply keep_updAgent
    | with_reducible apply keep_endRun
    | dsimp only [KS, KP]
    | split

theorem keep_loseSource (s : State) (k : EngineCmd) (h_s : KS wants fa fb s) : KS wants fa fb (State.loseSource s
      k) := by
  unfold State.loseSource
  repeat' first
    | with_reducible assumption
    | dsimp only [KS, KP]
    | split

theorem keep_failCmd (s : State) (k : EngineCmd) (cause addr : Nat) (h_s : KS wants fa fb s) : KS wants fa fb
      (State.failCmd s k cause addr) := by
  unfold State.failCmd
  repeat' first
    | with_reducible assumption
    | with_reducible apply keep_loseSource
    | with_reducible apply keep_updAgent
    | with_reducible apply keep_updWalk
    | with_reducible apply keep_failNode
    | dsimp only [KS, KP]
    | split

theorem keep_xlatePieces (s : State) (w : Who) (q : Want) (acc : List Piece) (z0 : List (Nat × Nat)) (h_s : KS
      wants fa fb s) : KPieces wants fa fb (State.xlatePieces s w q acc z0) := by
  induction z0 generalizing s acc with
  | nil =>
    unfold State.xlatePieces
    repeat' first
      | with_reducible assumption
      | with_reducible apply mkPieces_ok
  | cons x r ih =>
    unfold State.xlatePieces
    repeat' first
      | with_reducible assumption
      | with_reducible apply ih
      | with_reducible apply mkPieces_again
      | with_reducible apply mkPieces_page
      | with_reducible apply mkPieces_fail
      | with_reducible apply keep_devXlate
      | dsimp only [KS, KP]
      | split
      | with_reducible refine DevX_ok (by assumption) ?_
      | with_reducible refine DevX_again (by assumption) ?_
      | with_reducible refine DevX_absent (by assumption) ?_
      | with_reducible refine DevX_fail (by assumption) ?_

theorem keep_cmdPage (s : State) (k : EngineCmd) (va kind : Nat) (h_s : KS wants fa fb s) : KS wants fa fb
      (State.cmdPage s k va kind) := by
  unfold State.cmdPage
  repeat' first
    | with_reducible assumption
    | with_reducible apply keep_failCmd
    | with_reducible apply keep_askPage
    | with_reducible apply keep_updCmd
    | dsimp only [KS, KP]
    | split

theorem keep_putPieces (s : State) (skip : Nat → Bool) (ps : List Piece) (bs : List Byte) (h_s : KS wants fa fb s)
      : KS wants fa fb (State.putPieces s skip ps bs) := by
  unfold State.putPieces
  repeat' first
    | with_reducible assumption
    | with_reducible apply keep_putAt
    | with_reducible apply keep_fold
    | dsimp only [KS, KP]
    | split
    | intro _

theorem keep_cmdHits (s : State) (k : EngineCmd) (rd wr : Bool) (ps : List Piece) (h_s : KS wants fa fb s) : KS
      wants fa fb (State.cmdHits s k rd wr ps) := by
  unfold State.cmdHits
  repeat' first
    | with_reducible assumption
    | with_reducible apply keep_trace
    | with_reducible apply keep_updAgent
    | with_reducible apply keep_signalOwned
    | with_reducible apply keep_fold
    | dsimp only [KS, KP]
    | split
    | intro _

theorem keep_rowWrite (s : State) (team : Nat) (skip skipScale : Nat → Bool) (side : RowSide) (elems scales : List
      Byte) (h_s : KS wants fa fb s) : KS wants fa fb (State.rowWrite s team skip skipScale side elems scales) := by
  unfold State.rowWrite
  repeat' first
    | with_reducible assumption
    | with_reducible apply keep_putPieces
    | with_reducible apply keep_updTeam
    | dsimp only [KS, KP]
    | split

theorem keep_copyGranule (s0 s : State) (stloc : Bool) (x : Nat × (Nat × Nat) × (Nat × Nat)) (h_s0 : KS wants fa fb
      s0) (h_s : KS wants fa fb s) : KS wants fa fb (State.copyGranule s0 s stloc x) := by
  unfold State.copyGranule
  repeat' first
    | with_reducible assumption
    | with_reducible apply keep_putCapAt
    | with_reducible apply keep_putAt
    | dsimp only [KS, KP]
    | split

theorem keep_copyRow (s0 s : State) (k : EngineCmd) (only : Option Nat) (r : Nat) (src dst : RowSide) (h_s0 : KS
      wants fa fb s0) (h_s : KS wants fa fb s) : KS wants fa fb (State.copyRow s0 s k only r src dst) := by
  unfold State.copyRow
  repeat' first
    | with_reducible assumption
    | with_reducible apply keep_rowWrite
    | with_reducible apply keep_copyGranule
    | with_reducible apply keep_fold
    | dsimp only [KS, KP]
    | split
    | intro _

theorem keep_sideX (s : State) (k : EngineCmd) (c : Cap) (write : Bool) (rows : List (Int × Nat)) (h_s : KS wants
      fa fb s) : KPieces wants fa fb (State.sideX s k c write rows) := by
  unfold State.sideX
  repeat' first
    | with_reducible assumption
    | with_reducible apply mkPieces_fail
    | with_reducible apply keep_xlatePieces
    | split

theorem keep_rowsX (s : State) (k : EngineCmd) (acc : List (Nat × RowSide × RowSide)) (z0 : List Nat) (h_s : KS
      wants fa fb s) : KRowsX wants fa fb (State.rowsX s k acc z0) := by
  induction z0 generalizing s acc with
  | nil =>
    unfold State.rowsX
    repeat' first
      | with_reducible assumption
      | with_reducible apply mkRowsX_ok
  | cons x r ih =>
    unfold State.rowsX
    repeat' first
      | with_reducible assumption
      | with_reducible apply ih
      | with_reducible apply mkPieces_ok
      | with_reducible apply mkRowsX_again
      | with_reducible apply mkRowsX_page
      | with_reducible apply mkRowsX_fail
      | with_reducible apply keep_sideX
      | dsimp only [KS, KP]
      | split
      | with_reducible refine Pieces_ok (by assumption) ?_
      | with_reducible refine Pieces_again (by assumption) ?_
      | with_reducible refine Pieces_page (by assumption) ?_
      | with_reducible refine Pieces_fail (by assumption) ?_

theorem keep_copyRows (s : State) (k : EngineCmd) (rows : List (Nat × RowSide × RowSide)) (h_s : KS wants fa fb s)
      : KS wants fa fb (State.copyRows s k rows) := by
  unfold State.copyRows
  repeat' first
    | with_reducible assumption
    | with_reducible apply keep_copyRow
    | with_reducible apply keep_fold
    | dsimp only [KS, KP]
    | split
    | intro _

theorem keep_copyUnit (s : State) (id r u : Nat) (h_s : KS wants fa fb s) : KS wants fa fb (State.copyUnit s id r
      u) := by
  unfold State.copyUnit
  repeat' first
    | with_reducible assumption
    | with_reducible apply keep_rowsX
    | with_reducible apply keep_copyRow
    | with_reducible apply keep_updCmd
    | with_reducible apply keep_fold
    | dsimp only [KS, KP]
    | split
    | intro _
    | with_reducible refine RowsX_ok (by assumption) ?_
    | with_reducible refine RowsX_again (by assumption) ?_

theorem keep_execCopyCompletion (k : Nat) (s : State) (h_s : KS wants fa fb s) : KOut wants fa fb
      (execCopyCompletion k s) := by
  unfold execCopyCompletion
  repeat' first
    | with_reducible assumption
    | with_reducible apply mk_next
    | with_reducible apply keep_rowsX
    | with_reducible apply keep_cmdPage
    | with_reducible apply keep_copyRows
    | with_reducible apply keep_failCmd
    | with_reducible apply keep_endCmd
    | with_reducible apply keep_cmdHits
    | dsimp only [KS, KP]
    | split
    | with_reducible refine RowsX_ok (by assumption) ?_
    | with_reducible refine RowsX_again (by assumption) ?_
    | with_reducible refine RowsX_page (by assumption) ?_
    | with_reducible refine RowsX_fail (by assumption) ?_

theorem keep_readSource (s : State) (k : EngineCmd) (n : Nat) (h_s : KS wants fa fb s) : KS wants fa fb
      (State.readSource s k n) := by
  unfold State.readSource
  repeat' first
    | with_reducible assumption
    | with_reducible apply keep_updCmd
    | with_reducible apply keep_sideX
    | with_reducible apply keep_cmdPage
    | with_reducible apply keep_failCmd
    | with_reducible apply keep_cmdHits
    | dsimp only [KS, KP]
    | split
    | with_reducible refine Pieces_ok (by assumption) ?_
    | with_reducible refine Pieces_again (by assumption) ?_
    | with_reducible refine Pieces_page (by assumption) ?_
    | with_reducible refine Pieces_fail (by assumption) ?_

theorem keep_writeDest (s : State) (k : EngineCmd) (n : Nat) (h_s : KS wants fa fb s) : KS wants fa fb
      (State.writeDest s k n) := by
  unfold State.writeDest
  repeat' first
    | with_reducible assumption
    | with_reducible apply keep_sideX
    | with_reducible apply keep_cmdPage
    | with_reducible apply keep_failCmd
    | with_reducible apply keep_putPieces
    | with_reducible apply keep_endCmd
    | with_reducible apply keep_cmdHits
    | dsimp only [KS, KP]
    | split
    | with_reducible refine Pieces_ok (by assumption) ?_
    | with_reducible refine Pieces_again (by assumption) ?_
    | with_reducible refine Pieces_page (by assumption) ?_
    | with_reducible refine Pieces_fail (by assumption) ?_

theorem keep_execCollectiveCompletion (k : Nat) (s : State) (h_s : KS wants fa fb s) : KOut wants fa fb
      (execCollectiveCompletion k s) := by
  unfold execCollectiveCompletion
  repeat' first
    | with_reducible assumption
    | with_reducible apply mk_next
    | with_reducible apply keep_failCmd
    | with_reducible apply keep_readSource
    | with_reducible apply keep_writeDest
    | dsimp only [KS, KP]
    | split

theorem keep_endPage (s : State) (p : PageReq) (served : Bool) (h_s : KS wants fa fb s) : KS wants fa fb
      (State.endPage s p served) := by
  unfold State.endPage
  repeat' first
    | with_reducible assumption
    | with_reducible apply keep_updAgent
    | with_reducible apply keep_updCmd
    | with_reducible apply keep_failCmd
    | dsimp only [KS, KP]
    | split

theorem keep_markPosted (s : State) (k i : Nat) (h_s : KS wants fa fb s) : KS wants fa fb (State.markPosted s k i)
      := by
  unfold State.markPosted
  repeat' first
    | with_reducible assumption

theorem keep_writeEntry (s : State) (p : PageReq) (r : Nat × Nat × Nat × Nat) (h_s : KS wants fa fb s) : KS wants
      fa fb (State.writeEntry s p r) := by
  unfold State.writeEntry
  repeat' first
    | with_reducible assumption
    | with_reducible apply keep_writePhys

theorem keep_signalPages (s : State) (p o : Nat) (h_s : KS wants fa fb s) : KS wants fa fb (State.signalPages s p
      o) := by
  unfold State.signalPages
  repeat' first
    | with_reducible assumption
    | with_reducible apply keep_signalOwned
    | dsimp only [KS, KP]
    | split

theorem keep_execPageRequestPost (k : Nat) (s : State) (h_s : KS wants fa fb s) : KOut wants fa fb
      (execPageRequestPost k s) := by
  unfold execPageRequestPost
  split
  · exact h_s
  · extract_lets r
    clear_value r
    split
    · exact keep_endPage s _ _ h_s
    · split
      · exact keep_markPosted _ _ _ h_s
      · split
        · exact h_s
        · exact keep_markPosted _ _ _ (keep_signalPages _ _ _ (keep_writeEntry _ _ _ h_s))

theorem keep_execPageRequestRecheck (k : Nat) (s : State) (h_s : KS wants fa fb s) : KOut wants fa fb
      (execPageRequestRecheck k s) := by
  unfold execPageRequestRecheck
  repeat' first
    | with_reducible assumption
    | with_reducible apply mk_next
    | with_reducible apply keep_endPage
    | with_reducible apply keep_firstTouch
    | dsimp only [KS, KP]
    | split
    | with_reducible refine TouchRes_done (by assumption) ?_
    | with_reducible refine TouchRes_declined (by assumption) ?_
    | with_reducible refine TouchRes_wait (by assumption) ?_

theorem keep_execFirstTouchPoolRetry (agent : Nat) (s : State) (h_s : KS wants fa fb s) : KOut wants fa fb
      (execFirstTouchPoolRetry agent s) := by
  unfold execFirstTouchPoolRetry
  repeat' first
    | with_reducible assumption
    | with_reducible apply mk_next
    | with_reducible apply keep_updAgent
    | dsimp only [KS, KP]
    | split

theorem keep_openCtx (s : State) (ctx : Nat) (h_s : KS wants fa fb s) : KS wants fa fb (State.openCtx s ctx) := by
  unfold State.openCtx
  repeat' first
    | with_reducible assumption
    | dsimp only [KS, KP]
    | split

theorem keep_stampCore (s : State) (core : Option Nat) (id : Nat) (h_s : KS wants fa fb s) : KS wants fa fb
      (State.stampCore s core id) := by
  unfold State.stampCore
  repeat' first
    | with_reducible assumption
    | dsimp only [KS, KP]
    | split

theorem keep_submit (s : State) (ctx : Nat) (ctxCap : Cap) (d : Descriptor) (by_ : Submitter) (h_s : KS wants fa fb
      s) : KP wants fa fb (State.submit s ctx ctxCap d by_) := by
  unfold State.submit
  repeat' first
    | with_reducible assumption
    | with_reducible apply keep_openCtx
    | with_reducible apply keep_stampCore
    | dsimp only [KS, KP]
    | split

theorem keep_execGlaunch (d a b : Nat) (tk : Option Nat) (s : State) (h_s : KS wants fa fb s) : KOut wants fa fb
      (execGlaunch d a b tk s) := by
  unfold execGlaunch
  repeat' first
    | with_reducible assumption
    | with_reducible apply mk_next
    | with_reducible apply keep_gate
    | with_reducible apply keep_scalarTrap
    | with_reducible apply keep_xlatePieces
    | with_reducible apply keep_devXlate
    | with_reducible apply keep_publishMine
    | with_reducible apply keep_submit
    | with_reducible apply keep_endWith
    | with_reducible apply keep_advance
    | dsimp only [KS, KP]
    | split
    | with_reducible refine DevX_ok (by assumption) ?_
    | with_reducible refine DevX_again (by assumption) ?_
    | with_reducible refine DevX_fail (by assumption) ?_
    | with_reducible refine Pieces_ok (by assumption) ?_
    | with_reducible refine Pieces_again (by assumption) ?_
    | with_reducible refine Pieces_page (by assumption) ?_
    | with_reducible refine Pieces_fail (by assumption) ?_

theorem keep_startWalk (s : State) (w : Walk) (h_s : KS wants fa fb s) : KS wants fa fb (State.startWalk s w) := by
  unfold State.startWalk
  repeat' first
    | with_reducible assumption
    | with_reducible apply keep_graphWrite
    | with_reducible apply keep_graphLost
    | with_reducible apply keep_settleWalk
    | dsimp only [KS, KP]
    | split
    | with_reducible refine opt_some (by assumption) ?_

theorem keep_execGsub (d a : Nat) (tk : Option Nat) (s : State) (h_s : KS wants fa fb s) : KOut wants fa fb
      (execGsub d a tk s) := by
  unfold execGsub
  repeat' first
    | with_reducible assumption
    | with_reducible apply mk_next
    | with_reducible apply keep_gate
    | with_reducible apply keep_scalarTrap
    | with_reducible apply keep_devXlate
    | with_reducible apply keep_publishMine
    | with_reducible apply keep_startWalk
    | with_reducible apply keep_endWith
    | with_reducible apply keep_advance
    | dsimp only [KS, KP]
    | split
    | with_reducible refine DevX_ok (by assumption) ?_
    | with_reducible refine DevX_again (by assumption) ?_
    | with_reducible refine DevX_fail (by assumption) ?_

theorem keep_execCvt (h : LaneHdr) (d : Dst) (rnd : Rnd) (sat : Bool) (dty sty : Ty) (a : Src) (bsel : Nat) (s :
      State) (h_s : KS wants fa fb s) : KOut wants fa fb (execCvt h d rnd sat dty sty a bsel s) := by
  unfold execCvt
  repeat' first
    | with_reducible assumption
    | with_reducible apply keep_laneIssue
    | with_reducible apply keep_laneCompute
    | dsimp only [KS, KP]
    | intro _

theorem keep_laneReach (s : State) (h : LaneHdr) (names : List Nat) (k : Out) (h_s : KS wants fa fb s) (h_k : KOut
      wants fa fb k) : KOut wants fa fb (State.laneReach s h names k) := by
  unfold State.laneReach
  repeat' first
    | with_reducible assumption
    | with_reducible apply keep_laneTrap
    | split

theorem keep_execSxpack (h : LaneHdr) (d : Nat) (sx : Sxf) (a sc bsel blk : Nat) (s : State) (h_s : KS wants fa fb
      s) : KOut wants fa fb (execSxpack h d sx a sc bsel blk s) := by
  unfold execSxpack
  repeat' first
    | with_reducible assumption
    | with_reducible apply keep_laneReach
    | with_reducible apply keep_laneIssue
    | with_reducible apply keep_laneDone
    | dsimp only [KS, KP]
    | intro _

theorem keep_execSxunpack (h : LaneHdr) (d : Nat) (rnd : Rnd) (sx : Sxf) (ty : Ty) (a sc bsel blk : Nat) (s :
      State) (h_s : KS wants fa fb s) : KOut wants fa fb (execSxunpack h d rnd sx ty a sc bsel blk s) := by
  unfold execSxunpack
  repeat' first
    | with_reducible assumption
    | with_reducible apply keep_laneReach
    | with_reducible apply keep_laneIssue
    | with_reducible apply keep_laneDone
    | dsimp only [KS, KP]
    | intro _

theorem keep_lanePred (s : State) (act : BitVec 32) (ll : Flags) (p : Nat) (f : Nat → Bool × Flags) (h_s : KS wants
      fa fb s) : KOut wants fa fb (State.lanePred s act ll p f) := by
  unfold State.lanePred
  repeat' first
    | with_reducible assumption
    | with_reducible apply keep_laneDone

theorem keep_execPset (h : LaneHdr) (p : Nat) (cmp : CmpOp) (ty : Ty) (a b : Src) (s : State) (h_s : KS wants fa fb
      s) : KOut wants fa fb (execPset h p cmp ty a b s) := by
  unfold execPset
  repeat' first
    | with_reducible assumption
    | with_reducible apply keep_laneIssue
    | with_reducible apply keep_lanePred
    | split
    | intro _

theorem keep_execPlop (h : LaneHdr) (p pa pb pc lut : Nat) (s : State) (h_s : KS wants fa fb s) : KOut wants fa fb
      (execPlop h p pa pb pc lut s) := by
  unfold execPlop
  repeat' first
    | with_reducible assumption
    | with_reducible apply keep_laneIssue
    | with_reducible apply keep_lanePred
    | intro _

theorem keep_execPmov (h : LaneHdr) (form : PmovForm) (s : State) (h_s : KS wants fa fb s) : KOut wants fa fb
      (execPmov h form s) := by
  unfold execPmov
  repeat' first
    | with_reducible assumption
    | with_reducible apply keep_laneIssue
    | with_reducible apply keep_lanePred
    | with_reducible apply keep_laneCompute
    | split
    | intro _

theorem keep_execMov (h : LaneHdr) (d : Dst) (ty : Ty) (a : Src) (s : State) (h_s : KS wants fa fb s) : KOut wants
      fa fb (execMov h d ty a s) := by
  unfold execMov
  repeat' first
    | with_reducible assumption
    | with_reducible apply keep_int1

theorem keep_execMovi (h : LaneHdr) (d : Dst) (imm : Nat) (s : State) (h_s : KS wants fa fb s) : KOut wants fa fb
      (execMovi h d imm s) := by
  unfold execMovi
  repeat' first
    | with_reducible assumption
    | with_reducible apply keep_laneIssue
    | with_reducible apply keep_laneCompute
    | intro _

theorem keep_execRnd (h : LaneHdr) (d : Dst) (k : Nat) (c : Src) (s : State) (h_s : KS wants fa fb s) : KOut wants
      fa fb (execRnd h d k c s) := by
  unfold execRnd
  repeat' first
    | with_reducible assumption
    | with_reducible apply keep_laneIssue
    | with_reducible apply keep_laneCompute
    | intro _

theorem keep_execLaneDly (n : Nat) (s : State) (h_s : KS wants fa fb s) : KOut wants fa fb (execLaneDly n s) := by
  unfold execLaneDly
  repeat' first
    | with_reducible assumption
    | with_reducible apply mk_next
    | with_reducible apply keep_bump

theorem keep_setArray (s : State) (m : MatrixArray) (h_s : KS wants fa fb s) : KS wants fa fb (State.setArray s m)
      := by
  unfold State.setArray
  repeat' first
    | with_reducible assumption

theorem keep_matrixOwner (s : State) (act : BitVec 32) (pair : Bool) (k : Out) (h_s : KS wants fa fb s) (h_k : KOut
      wants fa fb k) : KOut wants fa fb (State.matrixOwner s act pair k) := by
  unfold State.matrixOwner
  repeat' first
    | with_reducible assumption
    | with_reducible apply keep_laneTrap
    | split

theorem keep_matrixLayout (s : State) (act : BitVec 32) (pair sx : Bool) (info : Nat) (l : Layout) (addrs : List
      Int) (k : Out) (h_s : KS wants fa fb s) (h_k : KOut wants fa fb k) : KOut wants fa fb (State.matrixLayout s
      act pair sx info l addrs k) := by
  unfold State.matrixLayout
  repeat' first
    | with_reducible assumption
    | with_reducible apply keep_laneTrap
    | split

theorem keep_matrixEnter (s : State) (pair : Bool) (tk : Option Nat) (ll : Flags) (op : MatrixOp) (f : Agent →
      Agent) (h_s : KS wants fa fb s) : KOut wants fa fb (State.matrixEnter s pair tk ll op f) := by
  unfold State.matrixEnter
  repeat' first
    | with_reducible assumption
    | with_reducible apply mk_next
    | with_reducible apply keep_setArray
    | with_reducible apply keep_enqueue
    | with_reducible apply keep_laneNext
    | with_reducible apply keep_fold
    | dsimp only [KS, KP]
    | split
    | intro _

theorem keep_matrixMac (s : State) (h : LaneHdr) (kind : MatrixKind) (fmt : MFmt) (pair reuse : Bool) (acc : Nat)
      (a : AOperand) (lw : Nat) (tk : Option Nat) (h_s : KS wants fa fb s) : KOut wants fa fb (State.matrixMac s h
      kind fmt pair reuse acc a lw tk) := by
  unfold State.matrixMac
  repeat' first
    | with_reducible assumption
    | with_reducible apply keep_laneReach
    | with_reducible apply keep_laneIssue
    | with_reducible apply keep_matrixOwner
    | with_reducible apply keep_laneTrap
    | with_reducible apply keep_matrixLayout
    | with_reducible apply keep_matrixEnter
    | dsimp only [KS, KP]
    | split
    | intro _

theorem keep_execMmac (h : LaneHdr) (fmt : MFmt) (pair reuse : Bool) (acc : Nat) (a : AOperand) (lw : Nat) (tk :
      Option Nat) (s : State) (h_s : KS wants fa fb s) : KOut wants fa fb (execMmac h fmt pair reuse acc a lw tk s)
      := by
  unfold execMmac
  repeat' first
    | with_reducible assumption
    | with_reducible apply keep_matrixMac

theorem keep_execMdist (h : LaneHdr) (fmt : MFmt) (pair reuse : Bool) (acc : Nat) (a : AOperand) (lw : Nat) (tk :
      Option Nat) (s : State) (h_s : KS wants fa fb s) : KOut wants fa fb (execMdist h fmt pair reuse acc a lw tk
      s) := by
  unfold execMdist
  repeat' first
    | with_reducible assumption
    | with_reducible apply keep_matrixMac

theorem keep_execMclr (h : LaneHdr) (pair : Bool) (acc : Nat) (tk : Option Nat) (s : State) (h_s : KS wants fa fb
      s) : KOut wants fa fb (execMclr h pair acc tk s) := by
  unfold execMclr
  repeat' first
    | with_reducible assumption
    | with_reducible apply keep_laneIssue
    | with_reducible apply keep_matrixOwner
    | with_reducible apply keep_matrixEnter
    | intro _

theorem keep_matrixTile (s : State) (h : LaneHdr) (kind : MatrixKind) (info : Nat) (pair : Bool) (acc lw : Nat) (tk
      : Option Nat) (h_s : KS wants fa fb s) : KOut wants fa fb (State.matrixTile s h kind info pair acc lw tk) := by
  unfold State.matrixTile
  repeat' first
    | with_reducible assumption
    | with_reducible apply keep_laneIssue
    | with_reducible apply keep_matrixOwner
    | with_reducible apply keep_matrixLayout
    | with_reducible apply keep_matrixEnter
    | dsimp only [KS, KP]
    | intro _

theorem keep_execMld (h : LaneHdr) (pair : Bool) (acc lw : Nat) (tk : Option Nat) (s : State) (h_s : KS wants fa fb
      s) : KOut wants fa fb (execMld h pair acc lw tk s) := by
  unfold execMld
  repeat' first
    | with_reducible assumption
    | with_reducible apply keep_matrixTile

theorem keep_execMst (h : LaneHdr) (pair : Bool) (acc lw : Nat) (tk : Option Nat) (s : State) (h_s : KS wants fa fb
      s) : KOut wants fa fb (execMst h pair acc lw tk s) := by
  unfold execMst
  repeat' first
    | with_reducible assumption
    | with_reducible apply keep_matrixTile

theorem keep_execMtopk (h : LaneHdr) (pair : Bool) (acc k : Nat) (tk : Option Nat) (s : State) (h_s : KS wants fa
      fb s) : KOut wants fa fb (execMtopk h pair acc k tk s) := by
  unfold execMtopk
  repeat' first
    | with_reducible assumption
    | with_reducible apply keep_laneIssue
    | with_reducible apply keep_matrixOwner
    | with_reducible apply keep_laneTrap
    | with_reducible apply keep_matrixEnter
    | split
    | intro _

theorem keep_execMrd (h : LaneHdr) (d tk : Nat) (s : State) (h_s : KS wants fa fb s) : KOut wants fa fb (execMrd h
      d tk s) := by
  unfold execMrd
  repeat' first
    | with_reducible assumption
    | with_reducible apply mk_next
    | with_reducible apply keep_laneIssue
    | with_reducible apply keep_laneTrap
    | with_reducible apply keep_laneReach
    | with_reducible apply keep_matrixOwner
    | with_reducible apply keep_enqueue
    | with_reducible apply keep_laneNext
    | dsimp only [KS, KP]
    | split
    | intro _

theorem keep_popQmat (s : State) (r : Nat) (e : QmatEntry) (rest : List QmatEntry) (h_s : KS wants fa fb s) : KS
      wants fa fb (State.popQmat s r e rest) := by
  unfold State.popQmat
  repeat' first
    | with_reducible assumption
    | with_reducible apply keep_advance
    | with_reducible apply keep_wr

theorem keep_execQpopQmat (r : Nat) (s : State) (h_s : KS wants fa fb s) : KOut wants fa fb (execQpopQmat r s) := by
  unfold execQpopQmat
  repeat' first
    | with_reducible assumption
    | with_reducible apply mk_next
    | with_reducible apply keep_scalarTrap
    | with_reducible apply keep_popQmat
    | dsimp only [KS, KP]
    | split

theorem keep_execMatrixStart (die core : Nat) (s : State) (h_s : KS wants fa fb s) : KOut wants fa fb
      (execMatrixStart die core s) := by
  unfold execMatrixStart
  repeat' first
    | with_reducible assumption
    | with_reducible apply mk_next
    | with_reducible apply keep_setArray
    | with_reducible apply keep_fold
    | dsimp only [KS, KP]
    | split
    | intro _

theorem keep_setAcc (s : State) (die lead tile i j : Nat) (v : Word) (h_s : KS wants fa fb s) : KS wants fa fb
      (State.setAcc s die lead tile i j v) := by
  unfold State.setAcc
  repeat' first
    | with_reducible assumption
    | with_reducible apply keep_setArray

theorem keep_macAll (s : State) (die lead : Nat) (o : MatrixOp) (h_s : KS wants fa fb s) : KP wants fa fb
      (State.macAll s die lead o) := by
  unfold State.macAll
  repeat' first
    | with_reducible assumption
    | with_reducible apply keep_setAcc
    | with_reducible apply keep_foldp
    | dsimp only [KS, KP]
    | intro _

theorem keep_storeTile (s : State) (die lead : Nat) (o : MatrixOp) (h_s : KS wants fa fb s) : KS wants fa fb
      (State.storeTile s die lead o) := by
  unfold State.storeTile
  repeat' first
    | with_reducible assumption
    | with_reducible apply keep_updTeam

theorem keep_loadTile (s : State) (die lead : Nat) (o : MatrixOp) (f : Nat → Nat → Word) (h_s : KS wants fa fb s) :
      KS wants fa fb (State.loadTile s die lead o f) := by
  unfold State.loadTile
  repeat' first
    | with_reducible assumption
    | with_reducible apply keep_setAcc
    | with_reducible apply keep_fold
    | dsimp only [KS, KP]
    | intro _

theorem keep_execMatrixCompletion (die core : Nat) (s : State) (h_s : KS wants fa fb s) : KOut wants fa fb
      (execMatrixCompletion die core s) := by
  unfold execMatrixCompletion
  repeat' first
    | with_reducible assumption
    | with_reducible apply mk_next
    | with_reducible apply keep_macAll
    | with_reducible apply keep_loadTile
    | with_reducible apply keep_storeTile
    | with_reducible apply keep_updAgent
    | with_reducible apply keep_setArray
    | with_reducible apply keep_fold
    | dsimp only [KS, KP]
    | split
    | intro _

end Sys2Proof.Laws.Keep
end

