-- ==== Sys2Proof/Laws/KeepTeam.lean ====
section
/-!
SUPPORT. What the scheduler, spawning and contexts keep: the form of memory and the fuses (see KeepBase).
-/

namespace Sys2Proof.Laws.Keep

open Machine

variable {wants : Prop} {fa fb : Nat}

theorem keep_createGroups (s : State) (l : Launch) (team d first : Nat) (z0 : Nat) (h_s : KS wants fa fb s) : KS
      wants fa fb (State.createGroups s l team d first z0) := by
  induction z0 generalizing s with
  | zero =>
    unfold State.createGroups
    repeat' first
      | with_reducible assumption
  | succ n ih =>
    unfold State.createGroups
    repeat' first
      | with_reducible assumption
      | with_reducible apply ih

theorem keep_armDog (s : State) (ctx : Nat) (h_s : KS wants fa fb s) : KS wants fa fb (State.armDog s ctx) := by
  unfold State.armDog
  repeat' first
    | with_reducible assumption
    | dsimp only [KS, KP]
    | split

theorem keep_unwait (s : State) (l : Nat) (h_s : KS wants fa fb s) : KS wants fa fb (State.unwait s l) := by
  unfold State.unwait
  repeat' first
    | with_reducible assumption
    | with_reducible apply keep_updLaunch

theorem keep_freshArrays (s : State) (l : Launch) (d first : Nat) (h_s : KS wants fa fb s) : KS wants fa fb
      (State.freshArrays s l d first) := by
  unfold State.freshArrays
  repeat' first
    | with_reducible assumption
    | with_reducible apply keep_clearArrays
    | dsimp only [KS, KP]
    | split

theorem keep_placeNew (s : State) (l : Launch) (d first : Nat) (h_s : KS wants fa fb s) : KS wants fa fb
      (State.placeNew s l d first) := by
  unfold State.placeNew
  repeat' first
    | with_reducible assumption
    | with_reducible apply keep_armDog
    | with_reducible apply keep_freshArrays
    | with_reducible apply keep_unwait
    | with_reducible apply keep_updLaunch
    | with_reducible apply keep_createGroups

theorem keep_execTeamPlacement (launch die core : Nat) (s : State) (h_s : KS wants fa fb s) : KOut wants fa fb
      (execTeamPlacement launch die core s) := by
  unfold execTeamPlacement
  repeat' first
    | with_reducible assumption
    | with_reducible apply mk_next
    | with_reducible apply keep_placeNew
    | split

theorem keep_execTeamReservation (launch die core : Nat) (s : State) (h_s : KS wants fa fb s) : KOut wants fa fb
      (execTeamReservation launch die core s) := by
  unfold execTeamReservation
  repeat' first
    | with_reducible assumption
    | with_reducible apply mk_next
    | with_reducible apply keep_updLaunch
    | dsimp only [KS, KP]
    | split

theorem keep_noteWaiting (s : State) (h_s : KS wants fa fb s) : KS wants fa fb (State.noteWaiting s) := by
  unfold State.noteWaiting
  repeat' first
    | with_reducible assumption
    | with_reducible apply keep_updLaunch
    | with_reducible apply keep_fold
    | dsimp only [KS, KP]
    | intro _

theorem keep_without (s : State) (team : Nat) (h_s : KS wants fa fb s) : KS wants fa fb (State.without s team) := by
  unfold State.without
  repeat' first
    | with_reducible assumption
    | with_reducible apply keep_updTeam

theorem keep_preempt (s : State) (t : Team) (l : Launch) (h_s : KS wants fa fb s) : KS wants fa fb (State.preempt s
      t l) := by
  unfold State.preempt
  repeat' first
    | with_reducible assumption
    | with_reducible apply keep_freshArrays
    | with_reducible apply keep_updAll
    | with_reducible apply keep_updTeam
    | with_reducible apply keep_dropReadOnly
    | dsimp only [KS, KP]
    | split

theorem keep_execPreemption (team : Nat) (s : State) (h_s : KS wants fa fb s) : KOut wants fa fb (execPreemption
      team s) := by
  unfold execPreemption
  repeat' first
    | with_reducible assumption
    | with_reducible apply mk_next
    | with_reducible apply keep_teamRelease
    | with_reducible apply keep_preempt
    | dsimp only [KS, KP]
    | split

theorem keep_moveGroups (s : State) (l : Launch) (t : Team) (d first : Nat) (z0 : List Agent) (h_s : KS wants fa fb
      s) : KS wants fa fb (State.moveGroups s l t d first z0) := by
  induction z0 generalizing s with
  | nil =>
    unfold State.moveGroups
    repeat' first
      | with_reducible assumption
  | cons x r ih =>
    unfold State.moveGroups
    repeat' first
      | with_reducible assumption
      | with_reducible apply ih
      | with_reducible apply keep_updAgent

theorem keep_placeAgain (s : State) (l : Launch) (t : Team) (d first : Nat) (h_s : KS wants fa fb s) : KS wants fa
      fb (State.placeAgain s l t d first) := by
  unfold State.placeAgain
  repeat' first
    | with_reducible assumption
    | with_reducible apply keep_armDog
    | with_reducible apply keep_freshArrays
    | with_reducible apply keep_moveGroups
    | with_reducible apply keep_unwait
    | with_reducible apply keep_updTeam

theorem keep_execTeamRestore (team die core : Nat) (s : State) (h_s : KS wants fa fb s) : KOut wants fa fb
      (execTeamRestore team die core s) := by
  unfold execTeamRestore
  repeat' first
    | with_reducible assumption
    | with_reducible apply mk_next
    | with_reducible apply keep_placeAgain
    | split

theorem keep_execRegionSnapshot (agent : Nat) (s : State) (h_s : KS wants fa fb s) : KOut wants fa fb
      (execRegionSnapshot agent s) := by
  unfold execRegionSnapshot
  repeat' first
    | with_reducible assumption
    | with_reducible apply mk_next
    | with_reducible apply keep_updAgent
    | split

theorem keep_execSpawnedGroupStart (team : Nat) (s : State) (h_s : KS wants fa fb s) : KOut wants fa fb
      (execSpawnedGroupStart team s) := by
  unfold execSpawnedGroupStart
  repeat' first
    | with_reducible assumption
    | with_reducible apply mk_next
    | with_reducible apply keep_updTeam
    | dsimp only [KS, KP]
    | split

theorem keep_execFaultGroupStart (team : Nat) (s : State) (h_s : KS wants fa fb s) : KOut wants fa fb
      (execFaultGroupStart team s) := by
  unfold execFaultGroupStart
  repeat' first
    | with_reducible assumption
    | with_reducible apply mk_next
    | with_reducible apply keep_updTeam
    | with_reducible apply keep_focusOn
    | with_reducible apply keep_trap
    | dsimp only [KS, KP]
    | split

theorem keep_execTeamExit (team : Nat) (s : State) (h_s : KS wants fa fb s) : KOut wants fa fb (execTeamExit team
      s) := by
  unfold execTeamExit
  repeat' first
    | with_reducible assumption
    | with_reducible apply mk_next
    | with_reducible apply keep_updTeam
    | with_reducible apply keep_teamRelease
    | with_reducible apply keep_freshArrays
    | with_reducible apply keep_dropReadOnly
    | dsimp only [KS, KP]
    | split

theorem keep_execTeamKill (team cause : Nat) (s : State) (h_s : KS wants fa fb s) : KOut wants fa fb (execTeamKill
      team cause s) := by
  unfold execTeamKill
  repeat' first
    | with_reducible assumption
    | with_reducible apply mk_next
    | with_reducible apply keep_killTeam
    | split

theorem keep_updCtx (s : State) (ctx : Nat) (f : CtxState → CtxState) (h_s : KS wants fa fb s) : KS wants fa fb
      (State.updCtx s ctx f) := by
  unfold State.updCtx
  repeat' first
    | with_reducible assumption

theorem keep_execKillRequest (ctx : Nat) (s : State) (h_s : KS wants fa fb s) : KOut wants fa fb (execKillRequest
      ctx s) := by
  unfold execKillRequest
  repeat' first
    | with_reducible assumption
    | with_reducible apply mk_next
    | with_reducible apply keep_killTeam
    | with_reducible apply keep_updLaunch
    | with_reducible apply keep_writePhys
    | with_reducible apply keep_fold
    | dsimp only [KS, KP]
    | split
    | intro _

theorem keep_execBudgetExhausted (ctx : Nat) (s : State) (h_s : KS wants fa fb s) : KOut wants fa fb
      (execBudgetExhausted ctx s) := by
  unfold execBudgetExhausted
  repeat' first
    | with_reducible assumption
    | with_reducible apply mk_next
    | with_reducible apply keep_updCtx
    | dsimp only [KS, KP]
    | split

theorem keep_execPeriodStart (ctx : Nat) (s : State) (h_s : KS wants fa fb s) : KOut wants fa fb (execPeriodStart
      ctx s) := by
  unfold execPeriodStart
  repeat' first
    | with_reducible assumption
    | with_reducible apply mk_next
    | with_reducible apply keep_writePhys
    | with_reducible apply keep_updCtx
    | split

theorem keep_execUsedUpdate (ctx : Nat) (s : State) (h_s : KS wants fa fb s) : KOut wants fa fb (execUsedUpdate ctx
      s) := by
  unfold execUsedUpdate
  repeat' first
    | with_reducible assumption
    | with_reducible apply mk_next
    | with_reducible apply keep_writePhys
    | with_reducible apply keep_updCtx
    | dsimp only [KS, KP]
    | split

theorem keep_execWatchdogExpiry (ctx : Nat) (s : State) (h_s : KS wants fa fb s) : KOut wants fa fb
      (execWatchdogExpiry ctx s) := by
  unfold execWatchdogExpiry
  repeat' first
    | with_reducible assumption
    | with_reducible apply mk_next
    | with_reducible apply keep_writeRecord
    | with_reducible apply keep_updCtx
    | dsimp only [KS, KP]
    | split

theorem keep_putRecord (s : State) (l : Launch) (done : Bool) (h_s : KS wants fa fb s) : KS wants fa fb
      (State.putRecord s l done) := by
  unfold State.putRecord
  repeat' first
    | with_reducible assumption
    | with_reducible apply keep_writePhys
    | dsimp only [KS, KP]
    | split

theorem keep_execLaunchRecordUpdate (launch : Nat) (s : State) (h_s : KS wants fa fb s) : KOut wants fa fb
      (execLaunchRecordUpdate launch s) := by
  unfold execLaunchRecordUpdate
  repeat' first
    | with_reducible assumption
    | with_reducible apply mk_next
    | with_reducible apply keep_putRecord
    | dsimp only [KS, KP]
    | split

theorem keep_execLaunchCompletion (launch : Nat) (s : State) (h_s : KS wants fa fb s) : KOut wants fa fb
      (execLaunchCompletion launch s) := by
  unfold execLaunchCompletion
  repeat' first
    | with_reducible assumption
    | with_reducible apply mk_next
    | with_reducible apply keep_putRecord
    | with_reducible apply keep_trace
    | with_reducible apply keep_endRun
    | dsimp only [KS, KP]
    | split

theorem keep_execDeviceTimeTick (s : State) (h_s : KS wants fa fb s) : KOut wants fa fb (execDeviceTimeTick s) := by
  unfold execDeviceTimeTick
  repeat' first
    | with_reducible assumption
    | with_reducible apply mk_next
    | with_reducible apply keep_updAll
    | with_reducible apply keep_noteWaiting

theorem keep_resetCopy (s : State) (key : Nat) (h_s : KS wants fa fb s) : KS wants fa fb (State.resetCopy s key) := by
  unfold State.resetCopy
  repeat' first
    | with_reducible assumption

theorem keep_execTimeCopyCheck (agent : Nat) (s : State) (h_s : KS wants fa fb s) : KOut wants fa fb
      (execTimeCopyCheck agent s) := by
  unfold execTimeCopyCheck
  repeat' first
    | with_reducible assumption
    | with_reducible apply mk_next
    | with_reducible apply keep_resetCopy
    | with_reducible apply keep_logEvent
    | with_reducible apply keep_emptyL1
    | dsimp only [KS, KP]
    | split

end Sys2Proof.Laws.Keep
end

