-- ==== Sys2Proof/Laws/KeepScalar.lean ====
section
/-!
SUPPORT. What the scalar instructions and those on capability vectors and watches keep: the form of memory and the fuses (see KeepBase).
-/

namespace Sys2Proof.Laws.Keep

open Machine

variable {wants : Prop} {fa fb : Nat}

theorem keep_regForm (s : State) (lat d a b : Nat) (f : Word → Word → Word) (h_s : KS wants fa fb s) : KOut wants
      fa fb (State.regForm s lat d a b f) := by
  unfold State.regForm
  repeat' first
    | with_reducible assumption
    | with_reducible apply keep_gate
    | with_reducible apply keep_doneIn

theorem keep_oneForm (s : State) (lat d a : Nat) (f : Word → Word) (h_s : KS wants fa fb s) : KOut wants fa fb
      (State.oneForm s lat d a f) := by
  unfold State.oneForm
  repeat' first
    | with_reducible assumption
    | with_reducible apply keep_gate
    | with_reducible apply keep_doneIn

theorem keep_pairForm (s : State) (lat d a b : Nat) (f : DWord → DWord → DWord) (h_s : KS wants fa fb s) : KOut
      wants fa fb (State.pairForm s lat d a b f) := by
  unfold State.pairForm
  repeat' first
    | with_reducible assumption
    | with_reducible apply keep_gate
    | with_reducible apply keep_doneIn

theorem keep_execAdd (d a b : Nat) (s : State) (h_s : KS wants fa fb s) : KOut wants fa fb (execAdd d a b s) := by
  unfold execAdd
  repeat' first
    | with_reducible assumption
    | with_reducible apply keep_regForm

theorem keep_execSub (d a b : Nat) (s : State) (h_s : KS wants fa fb s) : KOut wants fa fb (execSub d a b s) := by
  unfold execSub
  repeat' first
    | with_reducible assumption
    | with_reducible apply keep_regForm

theorem keep_execAnd (d a b : Nat) (s : State) (h_s : KS wants fa fb s) : KOut wants fa fb (execAnd d a b s) := by
  unfold execAnd
  repeat' first
    | with_reducible assumption
    | with_reducible apply keep_regForm

theorem keep_execOr (d a b : Nat) (s : State) (h_s : KS wants fa fb s) : KOut wants fa fb (execOr d a b s) := by
  unfold execOr
  repeat' first
    | with_reducible assumption
    | with_reducible apply keep_regForm

theorem keep_execXor (d a b : Nat) (s : State) (h_s : KS wants fa fb s) : KOut wants fa fb (execXor d a b s) := by
  unfold execXor
  repeat' first
    | with_reducible assumption
    | with_reducible apply keep_regForm

theorem keep_execAndn (d a b : Nat) (s : State) (h_s : KS wants fa fb s) : KOut wants fa fb (execAndn d a b s) := by
  unfold execAndn
  repeat' first
    | with_reducible assumption
    | with_reducible apply keep_regForm

theorem keep_execShl (d a b : Nat) (s : State) (h_s : KS wants fa fb s) : KOut wants fa fb (execShl d a b s) := by
  unfold execShl
  repeat' first
    | with_reducible assumption
    | with_reducible apply keep_regForm

theorem keep_execShr (d a b : Nat) (s : State) (h_s : KS wants fa fb s) : KOut wants fa fb (execShr d a b s) := by
  unfold execShr
  repeat' first
    | with_reducible assumption
    | with_reducible apply keep_regForm

theorem keep_execSra (d a b : Nat) (s : State) (h_s : KS wants fa fb s) : KOut wants fa fb (execSra d a b s) := by
  unfold execSra
  repeat' first
    | with_reducible assumption
    | with_reducible apply keep_regForm

theorem keep_execRol (d a b : Nat) (s : State) (h_s : KS wants fa fb s) : KOut wants fa fb (execRol d a b s) := by
  unfold execRol
  repeat' first
    | with_reducible assumption
    | with_reducible apply keep_regForm

theorem keep_execSlt (d a b : Nat) (s : State) (h_s : KS wants fa fb s) : KOut wants fa fb (execSlt d a b s) := by
  unfold execSlt
  repeat' first
    | with_reducible assumption
    | with_reducible apply keep_regForm

theorem keep_execSltu (d a b : Nat) (s : State) (h_s : KS wants fa fb s) : KOut wants fa fb (execSltu d a b s) := by
  unfold execSltu
  repeat' first
    | with_reducible assumption
    | with_reducible apply keep_regForm

theorem keep_execMin (d a b : Nat) (s : State) (h_s : KS wants fa fb s) : KOut wants fa fb (execMin d a b s) := by
  unfold execMin
  repeat' first
    | with_reducible assumption
    | with_reducible apply keep_regForm

theorem keep_execMax (d a b : Nat) (s : State) (h_s : KS wants fa fb s) : KOut wants fa fb (execMax d a b s) := by
  unfold execMax
  repeat' first
    | with_reducible assumption
    | with_reducible apply keep_regForm

theorem keep_execMinu (d a b : Nat) (s : State) (h_s : KS wants fa fb s) : KOut wants fa fb (execMinu d a b s) := by
  unfold execMinu
  repeat' first
    | with_reducible assumption
    | with_reducible apply keep_regForm

theorem keep_execMaxu (d a b : Nat) (s : State) (h_s : KS wants fa fb s) : KOut wants fa fb (execMaxu d a b s) := by
  unfold execMaxu
  repeat' first
    | with_reducible assumption
    | with_reducible apply keep_regForm

theorem keep_execMul (d a b : Nat) (s : State) (h_s : KS wants fa fb s) : KOut wants fa fb (execMul d a b s) := by
  unfold execMul
  repeat' first
    | with_reducible assumption
    | with_reducible apply keep_regForm

theorem keep_execMulh (d a b : Nat) (s : State) (h_s : KS wants fa fb s) : KOut wants fa fb (execMulh d a b s) := by
  unfold execMulh
  repeat' first
    | with_reducible assumption
    | with_reducible apply keep_regForm

theorem keep_execMulhu (d a b : Nat) (s : State) (h_s : KS wants fa fb s) : KOut wants fa fb (execMulhu d a b s) := by
  unfold execMulhu
  repeat' first
    | with_reducible assumption
    | with_reducible apply keep_regForm

theorem keep_execDiv (d a b : Nat) (s : State) (h_s : KS wants fa fb s) : KOut wants fa fb (execDiv d a b s) := by
  unfold execDiv
  repeat' first
    | with_reducible assumption
    | with_reducible apply keep_regForm

theorem keep_execDivu (d a b : Nat) (s : State) (h_s : KS wants fa fb s) : KOut wants fa fb (execDivu d a b s) := by
  unfold execDivu
  repeat' first
    | with_reducible assumption
    | with_reducible apply keep_regForm

theorem keep_execRem (d a b : Nat) (s : State) (h_s : KS wants fa fb s) : KOut wants fa fb (execRem d a b s) := by
  unfold execRem
  repeat' first
    | with_reducible assumption
    | with_reducible apply keep_regForm

theorem keep_execRemu (d a b : Nat) (s : State) (h_s : KS wants fa fb s) : KOut wants fa fb (execRemu d a b s) := by
  unfold execRemu
  repeat' first
    | with_reducible assumption
    | with_reducible apply keep_regForm

theorem keep_execAddI64 (d a b : Nat) (s : State) (h_s : KS wants fa fb s) : KOut wants fa fb (execAddI64 d a b s)
      := by
  unfold execAddI64
  repeat' first
    | with_reducible assumption
    | with_reducible apply keep_pairForm

theorem keep_execSubI64 (d a b : Nat) (s : State) (h_s : KS wants fa fb s) : KOut wants fa fb (execSubI64 d a b s)
      := by
  unfold execSubI64
  repeat' first
    | with_reducible assumption
    | with_reducible apply keep_pairForm

theorem keep_execShlI64 (d a b : Nat) (s : State) (h_s : KS wants fa fb s) : KOut wants fa fb (execShlI64 d a b s)
      := by
  unfold execShlI64
  repeat' first
    | with_reducible assumption
    | with_reducible apply keep_pairForm

theorem keep_execShrI64 (d a b : Nat) (s : State) (h_s : KS wants fa fb s) : KOut wants fa fb (execShrI64 d a b s)
      := by
  unfold execShrI64
  repeat' first
    | with_reducible assumption
    | with_reducible apply keep_pairForm

theorem keep_execSraI64 (d a b : Nat) (s : State) (h_s : KS wants fa fb s) : KOut wants fa fb (execSraI64 d a b s)
      := by
  unfold execSraI64
  repeat' first
    | with_reducible assumption
    | with_reducible apply keep_pairForm

theorem keep_execMulI64 (d a b : Nat) (s : State) (h_s : KS wants fa fb s) : KOut wants fa fb (execMulI64 d a b s)
      := by
  unfold execMulI64
  repeat' first
    | with_reducible assumption
    | with_reducible apply keep_pairForm

theorem keep_execSltI64 (d a b : Nat) (s : State) (h_s : KS wants fa fb s) : KOut wants fa fb (execSltI64 d a b s)
      := by
  unfold execSltI64
  repeat' first
    | with_reducible assumption
    | with_reducible apply keep_pairForm

theorem keep_execSltuI64 (d a b : Nat) (s : State) (h_s : KS wants fa fb s) : KOut wants fa fb (execSltuI64 d a b
      s) := by
  unfold execSltuI64
  repeat' first
    | with_reducible assumption
    | with_reducible apply keep_pairForm

theorem keep_execPopc (d a : Nat) (s : State) (h_s : KS wants fa fb s) : KOut wants fa fb (execPopc d a s) := by
  unfold execPopc
  repeat' first
    | with_reducible assumption
    | with_reducible apply keep_oneForm

theorem keep_execClz (d a : Nat) (s : State) (h_s : KS wants fa fb s) : KOut wants fa fb (execClz d a s) := by
  unfold execClz
  repeat' first
    | with_reducible assumption
    | with_reducible apply keep_oneForm

theorem keep_execCtz (d a : Nat) (s : State) (h_s : KS wants fa fb s) : KOut wants fa fb (execCtz d a s) := by
  unfold execCtz
  repeat' first
    | with_reducible assumption
    | with_reducible apply keep_oneForm

theorem keep_execBrev (d a : Nat) (s : State) (h_s : KS wants fa fb s) : KOut wants fa fb (execBrev d a s) := by
  unfold execBrev
  repeat' first
    | with_reducible assumption
    | with_reducible apply keep_oneForm

theorem keep_execBfe (d a b : Nat) (s : State) (h_s : KS wants fa fb s) : KOut wants fa fb (execBfe d a b s) := by
  unfold execBfe
  repeat' first
    | with_reducible assumption
    | with_reducible apply keep_regForm

theorem keep_execBfeu (d a b : Nat) (s : State) (h_s : KS wants fa fb s) : KOut wants fa fb (execBfeu d a b s) := by
  unfold execBfeu
  repeat' first
    | with_reducible assumption
    | with_reducible apply keep_regForm

theorem keep_execBfi (d a b : Nat) (s : State) (h_s : KS wants fa fb s) : KOut wants fa fb (execBfi d a b s) := by
  unfold execBfi
  repeat' first
    | with_reducible assumption
    | with_reducible apply keep_gate
    | with_reducible apply keep_done

theorem keep_execAddi (d a : Nat) (imm : Int) (s : State) (h_s : KS wants fa fb s) : KOut wants fa fb (execAddi d a
      imm s) := by
  unfold execAddi
  repeat' first
    | with_reducible assumption
    | with_reducible apply keep_oneForm

theorem keep_execAndi (d a : Nat) (imm : Int) (s : State) (h_s : KS wants fa fb s) : KOut wants fa fb (execAndi d a
      imm s) := by
  unfold execAndi
  repeat' first
    | with_reducible assumption
    | with_reducible apply keep_oneForm

theorem keep_execOri (d a : Nat) (imm : Int) (s : State) (h_s : KS wants fa fb s) : KOut wants fa fb (execOri d a
      imm s) := by
  unfold execOri
  repeat' first
    | with_reducible assumption
    | with_reducible apply keep_oneForm

theorem keep_execXori (d a : Nat) (imm : Int) (s : State) (h_s : KS wants fa fb s) : KOut wants fa fb (execXori d a
      imm s) := by
  unfold execXori
  repeat' first
    | with_reducible assumption
    | with_reducible apply keep_oneForm

theorem keep_execSlti (d a : Nat) (imm : Int) (s : State) (h_s : KS wants fa fb s) : KOut wants fa fb (execSlti d a
      imm s) := by
  unfold execSlti
  repeat' first
    | with_reducible assumption
    | with_reducible apply keep_oneForm

theorem keep_execSltui (d a : Nat) (imm : Int) (s : State) (h_s : KS wants fa fb s) : KOut wants fa fb (execSltui d
      a imm s) := by
  unfold execSltui
  repeat' first
    | with_reducible assumption
    | with_reducible apply keep_oneForm

theorem keep_execShli (d a sh : Nat) (s : State) (h_s : KS wants fa fb s) : KOut wants fa fb (execShli d a sh s) := by
  unfold execShli
  repeat' first
    | with_reducible assumption
    | with_reducible apply keep_oneForm

theorem keep_execShri (d a sh : Nat) (s : State) (h_s : KS wants fa fb s) : KOut wants fa fb (execShri d a sh s) := by
  unfold execShri
  repeat' first
    | with_reducible assumption
    | with_reducible apply keep_oneForm

theorem keep_execSrai (d a sh : Nat) (s : State) (h_s : KS wants fa fb s) : KOut wants fa fb (execSrai d a sh s) := by
  unfold execSrai
  repeat' first
    | with_reducible assumption
    | with_reducible apply keep_oneForm

theorem keep_execRoli (d a sh : Nat) (s : State) (h_s : KS wants fa fb s) : KOut wants fa fb (execRoli d a sh s) := by
  unfold execRoli
  repeat' first
    | with_reducible assumption
    | with_reducible apply keep_oneForm

theorem keep_execMuli (d a : Nat) (imm : Int) (s : State) (h_s : KS wants fa fb s) : KOut wants fa fb (execMuli d a
      imm s) := by
  unfold execMuli
  repeat' first
    | with_reducible assumption
    | with_reducible apply keep_oneForm

theorem keep_execLi (d : Nat) (imm : Int) (s : State) (h_s : KS wants fa fb s) : KOut wants fa fb (execLi d imm s)
      := by
  unfold execLi
  repeat' first
    | with_reducible assumption
    | with_reducible apply keep_done

theorem keep_execLih (d imm : Nat) (s : State) (h_s : KS wants fa fb s) : KOut wants fa fb (execLih d imm s) := by
  unfold execLih
  repeat' first
    | with_reducible assumption
    | with_reducible apply keep_gate
    | with_reducible apply keep_done

theorem keep_capGet64 (s : State) (w p : Nat) (f : Cap → Nat) (h_s : KS wants fa fb s) : KOut wants fa fb
      (State.capGet64 s w p f) := by
  unfold State.capGet64
  repeat' first
    | with_reducible assumption
    | with_reducible apply keep_gate
    | with_reducible apply keep_done

theorem keep_capGet32 (s : State) (w p : Nat) (f : Cap → Nat) (h_s : KS wants fa fb s) : KOut wants fa fb
      (State.capGet32 s w p f) := by
  unfold State.capGet32
  repeat' first
    | with_reducible assumption
    | with_reducible apply keep_gate
    | with_reducible apply keep_done

theorem keep_capResult (s : State) (q src : Nat) (r : Except Nat Cap) (h_s : KS wants fa fb s) : KOut wants fa fb
      (State.capResult s q src r) := by
  unfold State.capResult
  repeat' first
    | with_reducible assumption
    | with_reducible apply keep_done
    | with_reducible apply keep_scalarTrap
    | split

theorem keep_capWithPair (s : State) (w p q : Nat) (f : Cap → Nat → Except Nat Cap) (h_s : KS wants fa fb s) : KOut
      wants fa fb (State.capWithPair s w p q f) := by
  unfold State.capWithPair
  repeat' first
    | with_reducible assumption
    | with_reducible apply keep_gate
    | with_reducible apply keep_capResult

theorem keep_capWithCap (s : State) (w p q : Nat) (f : Cap → Cap → Except Nat Cap) (h_s : KS wants fa fb s) : KOut
      wants fa fb (State.capWithCap s w p q f) := by
  unfold State.capWithCap
  repeat' first
    | with_reducible assumption
    | with_reducible apply keep_gate
    | with_reducible apply keep_capResult

theorem keep_execCmov (p q : Nat) (s : State) (h_s : KS wants fa fb s) : KOut wants fa fb (execCmov p q s) := by
  unfold execCmov
  repeat' first
    | with_reducible assumption
    | with_reducible apply keep_gate
    | with_reducible apply keep_done

theorem keep_execCgetaddr (w p : Nat) (s : State) (h_s : KS wants fa fb s) : KOut wants fa fb (execCgetaddr w p s)
      := by
  unfold execCgetaddr
  repeat' first
    | with_reducible assumption
    | with_reducible apply keep_capGet64

theorem keep_execCgetbase (w p : Nat) (s : State) (h_s : KS wants fa fb s) : KOut wants fa fb (execCgetbase w p s)
      := by
  unfold execCgetbase
  repeat' first
    | with_reducible assumption
    | with_reducible apply keep_capGet64

theorem keep_execCgettop (w p : Nat) (s : State) (h_s : KS wants fa fb s) : KOut wants fa fb (execCgettop w p s) := by
  unfold execCgettop
  repeat' first
    | with_reducible assumption
    | with_reducible apply keep_capGet64

theorem keep_execCgetlen (w p : Nat) (s : State) (h_s : KS wants fa fb s) : KOut wants fa fb (execCgetlen w p s) := by
  unfold execCgetlen
  repeat' first
    | with_reducible assumption
    | with_reducible apply keep_capGet64

theorem keep_execCgetperm (w p : Nat) (s : State) (h_s : KS wants fa fb s) : KOut wants fa fb (execCgetperm w p s)
      := by
  unfold execCgetperm
  repeat' first
    | with_reducible assumption
    | with_reducible apply keep_capGet32

theorem keep_execCgetseal (w p : Nat) (s : State) (h_s : KS wants fa fb s) : KOut wants fa fb (execCgetseal w p s)
      := by
  unfold execCgetseal
  repeat' first
    | with_reducible assumption
    | with_reducible apply keep_capGet32

theorem keep_execCgetowner (w p : Nat) (s : State) (h_s : KS wants fa fb s) : KOut wants fa fb (execCgetowner w p
      s) := by
  unfold execCgetowner
  repeat' first
    | with_reducible assumption
    | with_reducible apply keep_capGet32

theorem keep_execCgettag (w p : Nat) (s : State) (h_s : KS wants fa fb s) : KOut wants fa fb (execCgettag w p s) := by
  unfold execCgettag
  repeat' first
    | with_reducible assumption
    | with_reducible apply keep_capGet32

theorem keep_execCsetaddr (w p q : Nat) (s : State) (h_s : KS wants fa fb s) : KOut wants fa fb (execCsetaddr w p q
      s) := by
  unfold execCsetaddr
  repeat' first
    | with_reducible assumption
    | with_reducible apply keep_capWithPair

theorem keep_execCinc (w p q : Nat) (s : State) (h_s : KS wants fa fb s) : KOut wants fa fb (execCinc w p q s) := by
  unfold execCinc
  repeat' first
    | with_reducible assumption
    | with_reducible apply keep_capWithPair

theorem keep_execCinci (d a : Nat) (imm : Int) (s : State) (h_s : KS wants fa fb s) : KOut wants fa fb (execCinci d
      a imm s) := by
  unfold execCinci
  repeat' first
    | with_reducible assumption
    | with_reducible apply keep_gate
    | with_reducible apply keep_capResult

theorem keep_execCsetbnd (w p q : Nat) (s : State) (h_s : KS wants fa fb s) : KOut wants fa fb (execCsetbnd w p q
      s) := by
  unfold execCsetbnd
  repeat' first
    | with_reducible assumption
    | with_reducible apply keep_capWithPair

theorem keep_execCsetbndx (w p q : Nat) (s : State) (h_s : KS wants fa fb s) : KOut wants fa fb (execCsetbndx w p q
      s) := by
  unfold execCsetbndx
  repeat' first
    | with_reducible assumption
    | with_reducible apply keep_capWithPair

theorem keep_execCnarrow (w p q : Nat) (s : State) (h_s : KS wants fa fb s) : KOut wants fa fb (execCnarrow w p q
      s) := by
  unfold execCnarrow
  repeat' first
    | with_reducible assumption
    | with_reducible apply keep_gate
    | with_reducible apply keep_capResult

theorem keep_execCwrap (w p q : Nat) (s : State) (h_s : KS wants fa fb s) : KOut wants fa fb (execCwrap w p q s) := by
  unfold execCwrap
  repeat' first
    | with_reducible assumption
    | with_reducible apply keep_capWithCap

theorem keep_execCunwrap (w p q : Nat) (s : State) (h_s : KS wants fa fb s) : KOut wants fa fb (execCunwrap w p q
      s) := by
  unfold execCunwrap
  repeat' first
    | with_reducible assumption
    | with_reducible apply keep_capWithCap

theorem keep_execCwithin (w p q : Nat) (s : State) (h_s : KS wants fa fb s) : KOut wants fa fb (execCwithin w p q
      s) := by
  unfold execCwithin
  repeat' first
    | with_reducible assumption
    | with_reducible apply keep_gate
    | with_reducible apply keep_done

theorem keep_sLoad (s : State) (ty : Ty) (d a : Nat) (off : Int) (ord : Ord) (scope : Scope) (tk : Option Nat) (h_s
      : KS wants fa fb s) : KOut wants fa fb (State.sLoad s ty d a off ord scope tk) := by
  unfold State.sLoad
  repeat' first
    | with_reducible assumption
    | with_reducible apply keep_gate
    | with_reducible apply keep_scalarAccess

theorem keep_sStore (s : State) (ty : Ty) (d a : Nat) (off : Int) (ord : Ord) (scope : Scope) (tk : Option Nat)
      (h_s : KS wants fa fb s) : KOut wants fa fb (State.sStore s ty d a off ord scope tk) := by
  unfold State.sStore
  repeat' first
    | with_reducible assumption
    | with_reducible apply keep_gate
    | with_reducible apply keep_scalarAccess

theorem keep_sLoadCap (s : State) (d a : Nat) (off : Int) (ord : Ord) (scope : Scope) (tk : Option Nat) (h_s : KS
      wants fa fb s) : KOut wants fa fb (State.sLoadCap s d a off ord scope tk) := by
  unfold State.sLoadCap
  repeat' first
    | with_reducible assumption
    | with_reducible apply keep_gate
    | with_reducible apply keep_scalarAccess

theorem keep_sStoreCap (s : State) (d a : Nat) (off : Int) (ord : Ord) (scope : Scope) (tk : Option Nat) (h_s : KS
      wants fa fb s) : KOut wants fa fb (State.sStoreCap s d a off ord scope tk) := by
  unfold State.sStoreCap
  repeat' first
    | with_reducible assumption
    | with_reducible apply keep_gate
    | with_reducible apply keep_scalarAccess

theorem keep_sAtomic (s : State) (op : AtomOp) (ty : Ty) (d a : Nat) (tk : Option Nat) (ord : Ord) (scope : Scope)
      (h_s : KS wants fa fb s) : KOut wants fa fb (State.sAtomic s op ty d a tk ord scope) := by
  unfold State.sAtomic
  repeat' first
    | with_reducible assumption
    | with_reducible apply keep_gate
    | with_reducible apply keep_scalarAccess

theorem keep_execLdI8 (d a : Nat) (tk : Option Nat) (off : Nat) (s : State) (h_s : KS wants fa fb s) : KOut wants
      fa fb (execLdI8 d a tk off s) := by
  unfold execLdI8
  repeat' first
    | with_reducible assumption
    | with_reducible apply keep_sLoad

theorem keep_execLdN8 (d a : Nat) (tk : Option Nat) (off : Nat) (s : State) (h_s : KS wants fa fb s) : KOut wants
      fa fb (execLdN8 d a tk off s) := by
  unfold execLdN8
  repeat' first
    | with_reducible assumption
    | with_reducible apply keep_sLoad

theorem keep_execLdI16 (d a : Nat) (tk : Option Nat) (off : Nat) (s : State) (h_s : KS wants fa fb s) : KOut wants
      fa fb (execLdI16 d a tk off s) := by
  unfold execLdI16
  repeat' first
    | with_reducible assumption
    | with_reducible apply keep_sLoad

theorem keep_execLdN16 (d a : Nat) (tk : Option Nat) (off : Nat) (s : State) (h_s : KS wants fa fb s) : KOut wants
      fa fb (execLdN16 d a tk off s) := by
  unfold execLdN16
  repeat' first
    | with_reducible assumption
    | with_reducible apply keep_sLoad

theorem keep_execLdN32 (d a : Nat) (tk : Option Nat) (off : Nat) (s : State) (h_s : KS wants fa fb s) : KOut wants
      fa fb (execLdN32 d a tk off s) := by
  unfold execLdN32
  repeat' first
    | with_reducible assumption
    | with_reducible apply keep_sLoad

theorem keep_execLdN64 (d a : Nat) (tk : Option Nat) (off : Nat) (s : State) (h_s : KS wants fa fb s) : KOut wants
      fa fb (execLdN64 d a tk off s) := by
  unfold execLdN64
  repeat' first
    | with_reducible assumption
    | with_reducible apply keep_sLoad

theorem keep_execStN8 (d a : Nat) (tk : Option Nat) (off : Nat) (s : State) (h_s : KS wants fa fb s) : KOut wants
      fa fb (execStN8 d a tk off s) := by
  unfold execStN8
  repeat' first
    | with_reducible assumption
    | with_reducible apply keep_sStore

theorem keep_execStN16 (d a : Nat) (tk : Option Nat) (off : Nat) (s : State) (h_s : KS wants fa fb s) : KOut wants
      fa fb (execStN16 d a tk off s) := by
  unfold execStN16
  repeat' first
    | with_reducible assumption
    | with_reducible apply keep_sStore

theorem keep_execStN32 (d a : Nat) (tk : Option Nat) (off : Nat) (s : State) (h_s : KS wants fa fb s) : KOut wants
      fa fb (execStN32 d a tk off s) := by
  unfold execStN32
  repeat' first
    | with_reducible assumption
    | with_reducible apply keep_sStore

theorem keep_execStN64 (d a : Nat) (tk : Option Nat) (off : Nat) (s : State) (h_s : KS wants fa fb s) : KOut wants
      fa fb (execStN64 d a tk off s) := by
  unfold execStN64
  repeat' first
    | with_reducible assumption
    | with_reducible apply keep_sStore

theorem keep_execLdc (d a : Nat) (tk : Option Nat) (off : Nat) (s : State) (h_s : KS wants fa fb s) : KOut wants fa
      fb (execLdc d a tk off s) := by
  unfold execLdc
  repeat' first
    | with_reducible assumption
    | with_reducible apply keep_sLoadCap

theorem keep_execStc (d a : Nat) (tk : Option Nat) (off : Nat) (s : State) (h_s : KS wants fa fb s) : KOut wants fa
      fb (execStc d a tk off s) := by
  unfold execStc
  repeat' first
    | with_reducible assumption
    | with_reducible apply keep_sStoreCap

theorem keep_execLdxN8 (d a : Nat) (tk : Option Nat) (ord : Ord) (scope : Scope) (s : State) (h_s : KS wants fa fb
      s) : KOut wants fa fb (execLdxN8 d a tk ord scope s) := by
  unfold execLdxN8
  repeat' first
    | with_reducible assumption
    | with_reducible apply keep_sLoad

theorem keep_execLdxN16 (d a : Nat) (tk : Option Nat) (ord : Ord) (scope : Scope) (s : State) (h_s : KS wants fa fb
      s) : KOut wants fa fb (execLdxN16 d a tk ord scope s) := by
  unfold execLdxN16
  repeat' first
    | with_reducible assumption
    | with_reducible apply keep_sLoad

theorem keep_execLdxN32 (d a : Nat) (tk : Option Nat) (ord : Ord) (scope : Scope) (s : State) (h_s : KS wants fa fb
      s) : KOut wants fa fb (execLdxN32 d a tk ord scope s) := by
  unfold execLdxN32
  repeat' first
    | with_reducible assumption
    | with_reducible apply keep_sLoad

theorem keep_execLdxN64 (d a : Nat) (tk : Option Nat) (ord : Ord) (scope : Scope) (s : State) (h_s : KS wants fa fb
      s) : KOut wants fa fb (execLdxN64 d a tk ord scope s) := by
  unfold execLdxN64
  repeat' first
    | with_reducible assumption
    | with_reducible apply keep_sLoad

theorem keep_execStxN8 (d a : Nat) (tk : Option Nat) (ord : Ord) (scope : Scope) (s : State) (h_s : KS wants fa fb
      s) : KOut wants fa fb (execStxN8 d a tk ord scope s) := by
  unfold execStxN8
  repeat' first
    | with_reducible assumption
    | with_reducible apply keep_sStore

theorem keep_execStxN16 (d a : Nat) (tk : Option Nat) (ord : Ord) (scope : Scope) (s : State) (h_s : KS wants fa fb
      s) : KOut wants fa fb (execStxN16 d a tk ord scope s) := by
  unfold execStxN16
  repeat' first
    | with_reducible assumption
    | with_reducible apply keep_sStore

theorem keep_execStxN32 (d a : Nat) (tk : Option Nat) (ord : Ord) (scope : Scope) (s : State) (h_s : KS wants fa fb
      s) : KOut wants fa fb (execStxN32 d a tk ord scope s) := by
  unfold execStxN32
  repeat' first
    | with_reducible assumption
    | with_reducible apply keep_sStore

theorem keep_execStxN64 (d a : Nat) (tk : Option Nat) (ord : Ord) (scope : Scope) (s : State) (h_s : KS wants fa fb
      s) : KOut wants fa fb (execStxN64 d a tk ord scope s) := by
  unfold execStxN64
  repeat' first
    | with_reducible assumption
    | with_reducible apply keep_sStore

theorem keep_execLdcx (d a : Nat) (tk : Option Nat) (ord : Ord) (scope : Scope) (s : State) (h_s : KS wants fa fb
      s) : KOut wants fa fb (execLdcx d a tk ord scope s) := by
  unfold execLdcx
  repeat' first
    | with_reducible assumption
    | with_reducible apply keep_sLoadCap

theorem keep_execStcx (d a : Nat) (tk : Option Nat) (ord : Ord) (scope : Scope) (s : State) (h_s : KS wants fa fb
      s) : KOut wants fa fb (execStcx d a tk ord scope s) := by
  unfold execStcx
  repeat' first
    | with_reducible assumption
    | with_reducible apply keep_sStoreCap

theorem keep_execAmoAddN32 (d a : Nat) (tk : Option Nat) (ord : Ord) (scope : Scope) (s : State) (h_s : KS wants fa
      fb s) : KOut wants fa fb (execAmoAddN32 d a tk ord scope s) := by
  unfold execAmoAddN32
  repeat' first
    | with_reducible assumption
    | with_reducible apply keep_sAtomic

theorem keep_execAmoAndN32 (d a : Nat) (tk : Option Nat) (ord : Ord) (scope : Scope) (s : State) (h_s : KS wants fa
      fb s) : KOut wants fa fb (execAmoAndN32 d a tk ord scope s) := by
  unfold execAmoAndN32
  repeat' first
    | with_reducible assumption
    | with_reducible apply keep_sAtomic

theorem keep_execAmoOrN32 (d a : Nat) (tk : Option Nat) (ord : Ord) (scope : Scope) (s : State) (h_s : KS wants fa
      fb s) : KOut wants fa fb (execAmoOrN32 d a tk ord scope s) := by
  unfold execAmoOrN32
  repeat' first
    | with_reducible assumption
    | with_reducible apply keep_sAtomic

theorem keep_execAmoXorN32 (d a : Nat) (tk : Option Nat) (ord : Ord) (scope : Scope) (s : State) (h_s : KS wants fa
      fb s) : KOut wants fa fb (execAmoXorN32 d a tk ord scope s) := by
  unfold execAmoXorN32
  repeat' first
    | with_reducible assumption
    | with_reducible apply keep_sAtomic

theorem keep_execAmoMinI32 (d a : Nat) (tk : Option Nat) (ord : Ord) (scope : Scope) (s : State) (h_s : KS wants fa
      fb s) : KOut wants fa fb (execAmoMinI32 d a tk ord scope s) := by
  unfold execAmoMinI32
  repeat' first
    | with_reducible assumption
    | with_reducible apply keep_sAtomic

theorem keep_execAmoMaxI32 (d a : Nat) (tk : Option Nat) (ord : Ord) (scope : Scope) (s : State) (h_s : KS wants fa
      fb s) : KOut wants fa fb (execAmoMaxI32 d a tk ord scope s) := by
  unfold execAmoMaxI32
  repeat' first
    | with_reducible assumption
    | with_reducible apply keep_sAtomic

theorem keep_execAmoMinN32 (d a : Nat) (tk : Option Nat) (ord : Ord) (scope : Scope) (s : State) (h_s : KS wants fa
      fb s) : KOut wants fa fb (execAmoMinN32 d a tk ord scope s) := by
  unfold execAmoMinN32
  repeat' first
    | with_reducible assumption
    | with_reducible apply keep_sAtomic

theorem keep_execAmoMaxN32 (d a : Nat) (tk : Option Nat) (ord : Ord) (scope : Scope) (s : State) (h_s : KS wants fa
      fb s) : KOut wants fa fb (execAmoMaxN32 d a tk ord scope s) := by
  unfold execAmoMaxN32
  repeat' first
    | with_reducible assumption
    | with_reducible apply keep_sAtomic

theorem keep_execAmoSwapN32 (d a : Nat) (tk : Option Nat) (ord : Ord) (scope : Scope) (s : State) (h_s : KS wants
      fa fb s) : KOut wants fa fb (execAmoSwapN32 d a tk ord scope s) := by
  unfold execAmoSwapN32
  repeat' first
    | with_reducible assumption
    | with_reducible apply keep_sAtomic

theorem keep_execAmoCasN32 (d a : Nat) (tk : Option Nat) (ord : Ord) (scope : Scope) (s : State) (h_s : KS wants fa
      fb s) : KOut wants fa fb (execAmoCasN32 d a tk ord scope s) := by
  unfold execAmoCasN32
  repeat' first
    | with_reducible assumption
    | with_reducible apply keep_sAtomic

theorem keep_execAmoSwapN64 (d a : Nat) (tk : Option Nat) (ord : Ord) (scope : Scope) (s : State) (h_s : KS wants
      fa fb s) : KOut wants fa fb (execAmoSwapN64 d a tk ord scope s) := by
  unfold execAmoSwapN64
  repeat' first
    | with_reducible assumption
    | with_reducible apply keep_sAtomic

theorem keep_execAmoCasN64 (d a : Nat) (tk : Option Nat) (ord : Ord) (scope : Scope) (s : State) (h_s : KS wants fa
      fb s) : KOut wants fa fb (execAmoCasN64 d a tk ord scope s) := by
  unfold execAmoCasN64
  repeat' first
    | with_reducible assumption
    | with_reducible apply keep_sAtomic

theorem keep_execAmoAddN64 (d a : Nat) (tk : Option Nat) (ord : Ord) (scope : Scope) (s : State) (h_s : KS wants fa
      fb s) : KOut wants fa fb (execAmoAddN64 d a tk ord scope s) := by
  unfold execAmoAddN64
  repeat' first
    | with_reducible assumption
    | with_reducible apply keep_sAtomic

theorem keep_execFence (ord : Ord) (scope : Scope) (s : State) (h_s : KS wants fa fb s) : KOut wants fa fb
      (execFence ord scope s) := by
  unfold execFence
  repeat' first
    | with_reducible assumption
    | with_reducible apply mk_next
    | with_reducible apply keep_fenced
    | with_reducible apply keep_enqueue
    | with_reducible apply keep_advance
    | dsimp only [KS, KP]
    | split

theorem keep_vcapGet (s : State) (h : LaneHdr) (pair : Bool) (w : Nat) (p : CapSrc) (f : Cap → Nat) (h_s : KS wants
      fa fb s) : KOut wants fa fb (State.vcapGet s h pair w p f) := by
  unfold State.vcapGet
  repeat' first
    | with_reducible assumption
    | with_reducible apply keep_laneIssue
    | with_reducible apply keep_laneDone
    | intro _

theorem keep_vcapDerive (s : State) (act : BitVec 32) (ll : Flags) (q : Nat) (rank : Nat → Nat → Nat) (src : Nat →
      Cap) (f : Nat → Except Nat Cap) (h_s : KS wants fa fb s) : KOut wants fa fb (State.vcapDerive s act ll q rank
      src f) := by
  unfold State.vcapDerive
  repeat' first
    | with_reducible assumption
    | with_reducible apply keep_laneTrap
    | with_reducible apply keep_laneDone
    | dsimp only [KS, KP]
    | split

theorem keep_vcapWithValue (s : State) (h : LaneHdr) (q : Nat) (p : CapSrc) (w : Src) (f : Cap → Nat → Except Nat
      Cap) (h_s : KS wants fa fb s) : KOut wants fa fb (State.vcapWithValue s h q p w f) := by
  unfold State.vcapWithValue
  repeat' first
    | with_reducible assumption
    | with_reducible apply keep_laneIssue
    | with_reducible apply keep_vcapDerive
    | intro _

theorem keep_vcapWithCap (s : State) (h : LaneHdr) (q : Nat) (p k : CapSrc) (isSealed : Bool) (perm : Nat) (f : Cap
      → Cap → Except Nat Cap) (h_s : KS wants fa fb s) : KOut wants fa fb (State.vcapWithCap s h q p k isSealed
      perm f) := by
  unfold State.vcapWithCap
  repeat' first
    | with_reducible assumption
    | with_reducible apply keep_laneIssue
    | with_reducible apply keep_vcapDerive
    | intro _

theorem keep_execVcmov (h : LaneHdr) (q : Nat) (p : CapSrc) (s : State) (h_s : KS wants fa fb s) : KOut wants fa fb
      (execVcmov h q p s) := by
  unfold execVcmov
  repeat' first
    | with_reducible assumption
    | with_reducible apply keep_laneIssue
    | with_reducible apply keep_laneDone
    | intro _

theorem keep_execVcgetaddr (h : LaneHdr) (w : Nat) (p : CapSrc) (s : State) (h_s : KS wants fa fb s) : KOut wants
      fa fb (execVcgetaddr h w p s) := by
  unfold execVcgetaddr
  repeat' first
    | with_reducible assumption
    | with_reducible apply keep_vcapGet

theorem keep_execVcgetbase (h : LaneHdr) (w : Nat) (p : CapSrc) (s : State) (h_s : KS wants fa fb s) : KOut wants
      fa fb (execVcgetbase h w p s) := by
  unfold execVcgetbase
  repeat' first
    | with_reducible assumption
    | with_reducible apply keep_vcapGet

theorem keep_execVcgettop (h : LaneHdr) (w : Nat) (p : CapSrc) (s : State) (h_s : KS wants fa fb s) : KOut wants fa
      fb (execVcgettop h w p s) := by
  unfold execVcgettop
  repeat' first
    | with_reducible assumption
    | with_reducible apply keep_vcapGet

theorem keep_execVcgetlen (h : LaneHdr) (w : Nat) (p : CapSrc) (s : State) (h_s : KS wants fa fb s) : KOut wants fa
      fb (execVcgetlen h w p s) := by
  unfold execVcgetlen
  repeat' first
    | with_reducible assumption
    | with_reducible apply keep_vcapGet

theorem keep_execVcgetperm (h : LaneHdr) (w : Nat) (p : CapSrc) (s : State) (h_s : KS wants fa fb s) : KOut wants
      fa fb (execVcgetperm h w p s) := by
  unfold execVcgetperm
  repeat' first
    | with_reducible assumption
    | with_reducible apply keep_vcapGet

theorem keep_execVcgetseal (h : LaneHdr) (w : Nat) (p : CapSrc) (s : State) (h_s : KS wants fa fb s) : KOut wants
      fa fb (execVcgetseal h w p s) := by
  unfold execVcgetseal
  repeat' first
    | with_reducible assumption
    | with_reducible apply keep_vcapGet

theorem keep_execVcgetowner (h : LaneHdr) (w : Nat) (p : CapSrc) (s : State) (h_s : KS wants fa fb s) : KOut wants
      fa fb (execVcgetowner h w p s) := by
  unfold execVcgetowner
  repeat' first
    | with_reducible assumption
    | with_reducible apply keep_vcapGet

theorem keep_execVcgettag (h : LaneHdr) (w : Nat) (p : CapSrc) (s : State) (h_s : KS wants fa fb s) : KOut wants fa
      fb (execVcgettag h w p s) := by
  unfold execVcgettag
  repeat' first
    | with_reducible assumption
    | with_reducible apply keep_vcapGet

theorem keep_execVcsetaddr (h : LaneHdr) (q : Nat) (p : CapSrc) (w : Src) (s : State) (h_s : KS wants fa fb s) :
      KOut wants fa fb (execVcsetaddr h q p w s) := by
  unfold execVcsetaddr
  repeat' first
    | with_reducible assumption
    | with_reducible apply keep_vcapWithValue

theorem keep_execVcinc (h : LaneHdr) (q : Nat) (p : CapSrc) (w : Src) (s : State) (h_s : KS wants fa fb s) : KOut
      wants fa fb (execVcinc h q p w s) := by
  unfold execVcinc
  repeat' first
    | with_reducible assumption
    | with_reducible apply keep_vcapWithValue

theorem keep_execVcsetbnd (h : LaneHdr) (q : Nat) (p : CapSrc) (w : Src) (s : State) (h_s : KS wants fa fb s) :
      KOut wants fa fb (execVcsetbnd h q p w s) := by
  unfold execVcsetbnd
  repeat' first
    | with_reducible assumption
    | with_reducible apply keep_vcapWithValue

theorem keep_execVcsetbndx (h : LaneHdr) (q : Nat) (p : CapSrc) (w : Src) (s : State) (h_s : KS wants fa fb s) :
      KOut wants fa fb (execVcsetbndx h q p w s) := by
  unfold execVcsetbndx
  repeat' first
    | with_reducible assumption
    | with_reducible apply keep_vcapWithValue

theorem keep_execVcnarrow (h : LaneHdr) (q : Nat) (p : CapSrc) (w : Src) (s : State) (h_s : KS wants fa fb s) :
      KOut wants fa fb (execVcnarrow h q p w s) := by
  unfold execVcnarrow
  repeat' first
    | with_reducible assumption
    | with_reducible apply keep_laneIssue
    | with_reducible apply keep_vcapDerive
    | intro _

theorem keep_execVcwrap (h : LaneHdr) (q : Nat) (p k : CapSrc) (s : State) (h_s : KS wants fa fb s) : KOut wants fa
      fb (execVcwrap h q p k s) := by
  unfold execVcwrap
  repeat' first
    | with_reducible assumption
    | with_reducible apply keep_vcapWithCap

theorem keep_execVcunwrap (h : LaneHdr) (q : Nat) (p k : CapSrc) (s : State) (h_s : KS wants fa fb s) : KOut wants
      fa fb (execVcunwrap h q p k s) := by
  unfold execVcunwrap
  repeat' first
    | with_reducible assumption
    | with_reducible apply keep_vcapWithCap

theorem keep_execVcwithin (h : LaneHdr) (w : Nat) (p : CapSrc) (q : Nat) (s : State) (h_s : KS wants fa fb s) :
      KOut wants fa fb (execVcwithin h w p q s) := by
  unfold execVcwithin
  repeat' first
    | with_reducible assumption
    | with_reducible apply keep_laneIssue
    | with_reducible apply keep_laneDone
    | intro _

theorem keep_watchWord (s : State) (t r : Nat) (tk : Option Nat) (write : Bool) (h_s : KS wants fa fb s) : KOut
      wants fa fb (State.watchWord s t r tk write) := by
  unfold State.watchWord
  repeat' first
    | with_reducible assumption
    | with_reducible apply keep_gate
    | with_reducible apply keep_scalarTrap
    | with_reducible apply keep_scalarAccess
    | dsimp only [KS, KP]
    | split

theorem keep_execWset (t r : Nat) (tk : Option Nat) (s : State) (h_s : KS wants fa fb s) : KOut wants fa fb
      (execWset t r tk s) := by
  unfold execWset
  repeat' first
    | with_reducible assumption
    | with_reducible apply keep_watchWord

theorem keep_execWget (t r : Nat) (tk : Option Nat) (s : State) (h_s : KS wants fa fb s) : KOut wants fa fb
      (execWget t r tk s) := by
  unfold execWget
  repeat' first
    | with_reducible assumption
    | with_reducible apply keep_watchWord

theorem keep_watchIssue (s : State) (h : LaneHdr) (op : WatchOp) (names : List Nat) (d p c need : Nat) (seq tok :
      Src) (tk : Option Nat) (dests : BitVec 32 → List Loc) (h_s : KS wants fa fb s) : KOut wants fa fb
      (State.watchIssue s h op names d p c need seq tok tk dests) := by
  unfold State.watchIssue
  repeat' first
    | with_reducible assumption
    | with_reducible apply mk_next
    | with_reducible apply keep_laneReach
    | with_reducible apply keep_laneIssue
    | with_reducible apply keep_laneTrap
    | with_reducible apply keep_checkXlated
    | with_reducible apply keep_trapBeside
    | with_reducible apply keep_noteHits
    | with_reducible apply keep_enqueue
    | with_reducible apply keep_laneNext
    | dsimp only [KS, KP]
    | split
    | intro _
    | with_reducible refine Checked_ok (by assumption) ?_
    | with_reducible refine Checked_trap (by assumption) ?_
    | with_reducible refine Checked_again (by assumption) ?_

theorem keep_execTokc (h : LaneHdr) (d p c : Nat) (seq tok : Src) (tk : Nat) (s : State) (h_s : KS wants fa fb s) :
      KOut wants fa fb (execTokc h d p c seq tok tk s) := by
  unfold execTokc
  repeat' first
    | with_reducible assumption
    | with_reducible apply keep_watchIssue

theorem keep_execTokcDraft (h : LaneHdr) (d p c : Nat) (seq tok : Src) (tk : Nat) (s : State) (h_s : KS wants fa fb
      s) : KOut wants fa fb (execTokcDraft h d p c seq tok tk s) := by
  unfold execTokcDraft
  repeat' first
    | with_reducible assumption
    | with_reducible apply keep_watchIssue

theorem keep_execTokcf (h : LaneHdr) (d p c : Nat) (seq : Src) (n tk : Nat) (s : State) (h_s : KS wants fa fb s) :
      KOut wants fa fb (execTokcf h d p c seq n tk s) := by
  unfold execTokcf
  repeat' first
    | with_reducible assumption
    | with_reducible apply keep_watchIssue

theorem keep_execTokrj (h : LaneHdr) (c : Nat) (seq : Src) (tk : Option Nat) (s : State) (h_s : KS wants fa fb s) :
      KOut wants fa fb (execTokrj h c seq tk s) := by
  unfold execTokrj
  repeat' first
    | with_reducible assumption
    | with_reducible apply keep_watchIssue

theorem keep_execTokf (h : LaneHdr) (d c : Nat) (seq : Src) (tk : Nat) (s : State) (h_s : KS wants fa fb s) : KOut
      wants fa fb (execTokf h d c seq tk s) := by
  unfold execTokf
  repeat' first
    | with_reducible assumption
    | with_reducible apply keep_watchIssue

end Sys2Proof.Laws.Keep
end

