-- ==== Sys2Proof/Laws/KeepPlatform.lean ====
section
/-!
SUPPORT. What the graph processor, debugging, the platform and the Islet keep: the form of memory and the fuses (see KeepBase).
-/

namespace Sys2Proof.Laws.Keep

open Machine

variable {wants : Prop} {fa fb : Nat}

theorem keep_endWalk (s : State) (w : Walk) (h_s : KS wants fa fb s) : KS wants fa fb (State.endWalk s w) := by
  unfold State.endWalk
  repeat' first
    | with_reducible assumption
    | with_reducible apply keep_updWalk
    | with_reducible apply keep_settleWalk

theorem keep_loseWalk (s : State) (w : Walk) (h_s : KS wants fa fb s) : KS wants fa fb (State.loseWalk s w) := by
  unfold State.loseWalk
  repeat' first
    | with_reducible assumption
    | with_reducible apply keep_graphLost
    | with_reducible apply keep_settleWalk

theorem keep_goNode (s : State) (w : Walk) (n : Nat) (h_s : KS wants fa fb s) : KS wants fa fb (State.goNode s w n)
      := by
  unfold State.goNode
  repeat' first
    | with_reducible assumption
    | with_reducible apply keep_updWalk

theorem keep_atNode (s : State) (walk : Nat) (kind : Nat → Bool) (k : NodeHead → State → State) (h_s : KS wants fa
      fb s) (h_k : ∀ y0 y1, KS wants fa fb y1 → KS wants fa fb (k y0 y1)) : KOut wants fa fb (State.atNode s walk
      kind k) := by
  unfold State.atNode
  repeat' first
    | with_reducible assumption
    | with_reducible apply mk_next
    | with_reducible apply keep_graphTouch
    | with_reducible apply keep_graphWrite
    | with_reducible apply keep_loseWalk
    | with_reducible apply keep_failNode
    | dsimp only [KS, KP]
    | split
    | apply h_k
    | with_reducible refine opt_some (by assumption) ?_

theorem keep_execEndNode (walk : Nat) (s : State) (h_s : KS wants fa fb s) : KOut wants fa fb (execEndNode walk s)
      := by
  unfold execEndNode
  repeat' first
    | with_reducible assumption
    | with_reducible apply mk_next
    | with_reducible apply keep_endWalk
    | with_reducible apply keep_atNode
    | dsimp only [KS, KP]
    | split
    | intro _

theorem keep_nodeTest (s : State) (w : Walk) (n : Nat) (h_s : KS wants fa fb s) : KTestRes wants fa fb
      (State.nodeTest s w n) := by
  unfold State.nodeTest
  repeat' first
    | with_reducible assumption
    | with_reducible apply mkTestRes_is
    | with_reducible apply mkTestRes_again
    | with_reducible apply mkTestRes_fail
    | with_reducible apply mkTestRes_lost
    | with_reducible apply keep_devXlate
    | dsimp only [KS, KP]
    | split
    | with_reducible refine DevX_ok (by assumption) ?_
    | with_reducible refine DevX_again (by assumption) ?_
    | with_reducible refine DevX_absent (by assumption) ?_
    | with_reducible refine DevX_fail (by assumption) ?_

theorem keep_execLoopNode (walk : Nat) (s : State) (h_s : KS wants fa fb s) : KOut wants fa fb (execLoopNode walk
      s) := by
  unfold execLoopNode
  repeat' first
    | with_reducible assumption
    | with_reducible apply keep_atNode
    | with_reducible apply keep_loseWalk
    | with_reducible apply keep_failNode
    | with_reducible apply keep_nodeTest
    | with_reducible apply keep_graphWrite
    | with_reducible apply keep_goNode
    | dsimp only [KS, KP]
    | split
    | intro _
    | with_reducible refine TestRes_is (by assumption) ?_
    | with_reducible refine TestRes_again (by assumption) ?_
    | with_reducible refine TestRes_fail (by assumption) ?_
    | with_reducible refine opt_some (by assumption) ?_

theorem keep_execConditionalNode (walk : Nat) (s : State) (h_s : KS wants fa fb s) : KOut wants fa fb
      (execConditionalNode walk s) := by
  unfold execConditionalNode
  repeat' first
    | with_reducible assumption
    | with_reducible apply keep_atNode
    | with_reducible apply keep_loseWalk
    | with_reducible apply keep_failNode
    | with_reducible apply keep_nodeTest
    | with_reducible apply keep_goNode
    | dsimp only [KS, KP]
    | split
    | intro _
    | with_reducible refine TestRes_is (by assumption) ?_
    | with_reducible refine TestRes_again (by assumption) ?_
    | with_reducible refine TestRes_fail (by assumption) ?_

theorem keep_runNode (s : State) (w : Walk) (n : Nat) (r : NodeRun) (h_s : KS wants fa fb s) : KS wants fa fb
      (State.runNode s w n r) := by
  unfold State.runNode
  repeat' first
    | with_reducible assumption
    | with_reducible apply keep_updWalk
    | with_reducible apply keep_goNode

theorem keep_execWaitNode (walk : Nat) (s : State) (h_s : KS wants fa fb s) : KOut wants fa fb (execWaitNode walk
      s) := by
  unfold execWaitNode
  repeat' first
    | with_reducible assumption
    | with_reducible apply keep_atNode
    | with_reducible apply keep_nodeTest
    | with_reducible apply keep_failNode
    | with_reducible apply keep_loseWalk
    | with_reducible apply keep_goNode
    | with_reducible apply keep_runNode
    | dsimp only [KS, KP]
    | split
    | intro _
    | with_reducible refine TestRes_is (by assumption) ?_
    | with_reducible refine TestRes_again (by assumption) ?_
    | with_reducible refine TestRes_fail (by assumption) ?_

theorem keep_retest (s : State) (w : Walk) (x : Nat × NodeRun) (h_s : KS wants fa fb s) : KS wants fa fb
      (State.retest s w x) := by
  unfold State.retest
  repeat' first
    | with_reducible assumption
    | with_reducible apply keep_updWalk
    | with_reducible apply keep_graphTouch
    | with_reducible apply keep_nodeTest
    | with_reducible apply keep_failNode
    | with_reducible apply keep_loseWalk
    | with_reducible apply keep_endRun
    | dsimp only [KS, KP]
    | split
    | with_reducible refine TestRes_is (by assumption) ?_
    | with_reducible refine TestRes_again (by assumption) ?_
    | with_reducible refine TestRes_fail (by assumption) ?_
    | with_reducible refine opt_some (by assumption) ?_

theorem keep_execWaitNodeRetest (walk : Nat) (s : State) (h_s : KS wants fa fb s) : KOut wants fa fb
      (execWaitNodeRetest walk s) := by
  unfold execWaitNodeRetest
  repeat' first
    | with_reducible assumption
    | with_reducible apply mk_next
    | with_reducible apply keep_retest
    | with_reducible apply keep_fold
    | dsimp only [KS, KP]
    | split
    | intro _

theorem keep_execLaunchNode (walk : Nat) (s : State) (h_s : KS wants fa fb s) : KOut wants fa fb (execLaunchNode
      walk s) := by
  unfold execLaunchNode
  repeat' first
    | with_reducible assumption
    | with_reducible apply keep_atNode
    | with_reducible apply keep_failNode
    | with_reducible apply keep_xlatePieces
    | with_reducible apply keep_devXlate
    | with_reducible apply keep_submit
    | with_reducible apply keep_runNode
    | with_reducible apply keep_loseWalk
    | dsimp only [KS, KP]
    | split
    | intro _
    | with_reducible refine DevX_ok (by assumption) ?_
    | with_reducible refine DevX_again (by assumption) ?_
    | with_reducible refine DevX_absent (by assumption) ?_
    | with_reducible refine DevX_fail (by assumption) ?_
    | with_reducible refine Pieces_ok (by assumption) ?_
    | with_reducible refine Pieces_again (by assumption) ?_
    | with_reducible refine Pieces_page (by assumption) ?_
    | with_reducible refine Pieces_fail (by assumption) ?_

theorem keep_execCopyNode (walk : Nat) (s : State) (h_s : KS wants fa fb s) : KOut wants fa fb (execCopyNode walk
      s) := by
  unfold execCopyNode
  repeat' first
    | with_reducible assumption
    | with_reducible apply keep_atNode
    | with_reducible apply keep_loseWalk
    | with_reducible apply keep_failNode
    | with_reducible apply keep_xlatePieces
    | with_reducible apply keep_runNode
    | dsimp only [KS, KP]
    | split
    | intro _
    | with_reducible refine Pieces_ok (by assumption) ?_
    | with_reducible refine Pieces_again (by assumption) ?_
    | with_reducible refine Pieces_page (by assumption) ?_
    | with_reducible refine Pieces_fail (by assumption) ?_

theorem keep_execSignalNode (walk : Nat) (s : State) (h_s : KS wants fa fb s) : KOut wants fa fb (execSignalNode
      walk s) := by
  unfold execSignalNode
  repeat' first
    | with_reducible assumption
    | with_reducible apply keep_atNode
    | with_reducible apply keep_failNode
    | with_reducible apply keep_devXlate
    | with_reducible apply keep_signalLine
    | with_reducible apply keep_goNode
    | with_reducible apply keep_devWrite
    | with_reducible apply keep_loseWalk
    | dsimp only [KS, KP]
    | split
    | intro _
    | with_reducible refine DevX_ok (by assumption) ?_
    | with_reducible refine DevX_again (by assumption) ?_
    | with_reducible refine DevX_absent (by assumption) ?_
    | with_reducible refine DevX_fail (by assumption) ?_
    | with_reducible refine DevRead_ok (by assumption) ?_
    | with_reducible refine DevRead_again (by assumption) ?_
    | with_reducible refine DevRead_fail (by assumption) ?_

theorem keep_stopProcess (s : State) (p pid : Nat) (h_s : KS wants fa fb s) : KS wants fa fb (State.stopProcess s p
      pid) := by
  unfold State.stopProcess
  repeat' first
    | with_reducible assumption
    | with_reducible apply keep_updAll

theorem keep_execStop (part pid : Nat) (s : State) (h_s : KS wants fa fb s) : KOut wants fa fb (execStop part pid
      s) := by
  unfold execStop
  repeat' first
    | with_reducible assumption
    | with_reducible apply mk_next
    | with_reducible apply keep_stopProcess

theorem keep_execTraceSample (part : Nat) (s : State) (h_s : KS wants fa fb s) : KOut wants fa fb (execTraceSample
      part s) := by
  unfold execTraceSample
  repeat' first
    | with_reducible assumption
    | with_reducible apply mk_next
    | with_reducible apply keep_trace
    | with_reducible apply keep_updDbg
    | with_reducible apply keep_fold
    | dsimp only [KS, KP]
    | split
    | intro _

theorem keep_execLaneFocus (agent v : Nat) (s : State) (h_s : KS wants fa fb s) : KOut wants fa fb (execLaneFocus
      agent v s) := by
  unfold execLaneFocus
  repeat' first
    | with_reducible assumption
    | with_reducible apply mk_next
    | with_reducible apply keep_updAgent

theorem keep_execLaneFocusRelease (agent v : Nat) (s : State) (h_s : KS wants fa fb s) : KOut wants fa fb
      (execLaneFocusRelease agent v s) := by
  unfold execLaneFocusRelease
  repeat' first
    | with_reducible assumption
    | with_reducible apply mk_next
    | with_reducible apply keep_updAgent

theorem keep_dumpCore (s : State) (pa : Nat) (a : Agent) (h_s : KS wants fa fb s) : KS wants fa fb (State.dumpCore
      s pa a) := by
  unfold State.dumpCore
  repeat' first
    | with_reducible assumption
    | with_reducible apply keep_putCap
    | with_reducible apply keep_putBytes
    | with_reducible apply keep_fold
    | dsimp only [KS, KP]
    | intro _

theorem keep_shelve (s : State) (t : Team) (h_s : KS wants fa fb s) : KS wants fa fb (State.shelve s t) := by
  unfold State.shelve
  repeat' first
    | with_reducible assumption
    | with_reducible apply keep_preempt
    | dsimp only [KS, KP]
    | split

theorem keep_crash (s : State) (p : Nat) (h_s : KS wants fa fb s) : KS wants fa fb (State.crash s p) := by
  unfold State.crash
  repeat' first
    | with_reducible assumption
    | with_reducible apply keep_shelve
    | with_reducible apply keep_updAll
    | with_reducible apply keep_dumpCore
    | with_reducible apply keep_updAgent
    | with_reducible apply keep_fold
    | dsimp only [KS, KP]
    | split
    | intro _

theorem keep_execCrashDump (p : Nat) (s : State) (h_s : KS wants fa fb s) : KOut wants fa fb (execCrashDump p s) := by
  unfold execCrashDump
  repeat' first
    | with_reducible assumption
    | with_reducible apply mk_next
    | with_reducible apply keep_crash

theorem keep_updCore (s : State) (core : Nat) (f : CoreDebug → CoreDebug) (h_s : KS wants fa fb s) : KS wants fa fb
      (State.updCore s core f) := by
  unfold State.updCore
  repeat' first
    | with_reducible assumption

theorem keep_writeAcct (s : State) (core v : Nat) (h_s : KS wants fa fb s) : KS wants fa fb (State.writeAcct s core
      v) := by
  unfold State.writeAcct
  repeat' first
    | with_reducible assumption
    | with_reducible apply keep_updCore

theorem keep_execAcctArm (core v : Nat) (s : State) (h_s : KS wants fa fb s) : KOut wants fa fb (execAcctArm core v
      s) := by
  unfold execAcctArm
  repeat' first
    | with_reducible assumption
    | with_reducible apply mk_next
    | with_reducible apply keep_writeAcct
    | dsimp only [KS, KP]
    | split

theorem keep_writePartcfg (s : State) (v : Nat) (h_s : KS wants fa fb s) : KS wants fa fb (State.writePartcfg s v)
      := by
  unfold State.writePartcfg
  repeat' first
    | with_reducible assumption
    | with_reducible apply keep_updAll

theorem keep_execPartcfgWrite (v : Nat) (s : State) (h_s : KS wants fa fb s) : KOut wants fa fb (execPartcfgWrite v
      s) := by
  unfold execPartcfgWrite
  repeat' first
    | with_reducible assumption
    | with_reducible apply mk_next
    | with_reducible apply keep_writePartcfg

theorem keep_execLinkpartWrite (v : Nat) (s : State) (h_s : KS wants fa fb s) : KOut wants fa fb (execLinkpartWrite
      v s) := by
  unfold execLinkpartWrite
  repeat' first
    | with_reducible assumption
    | with_reducible apply mk_next

theorem keep_writeLease (s : State) (d v : Nat) (h_s : KS wants fa fb s) : KS wants fa fb (State.writeLease s d v)
      := by
  unfold State.writeLease
  repeat' first
    | with_reducible assumption
    | dsimp only [KS, KP]
    | split

theorem keep_execCoherenceControlWrite (die v : Nat) (s : State) (h_s : KS wants fa fb s) : KOut wants fa fb
      (execCoherenceControlWrite die v s) := by
  unfold execCoherenceControlWrite
  repeat' first
    | with_reducible assumption
    | with_reducible apply mk_next
    | with_reducible apply keep_writeLease

theorem keep_writeExppa (s : State) (v : Nat) (h_s : KS wants fa fb s) : KS wants fa fb (State.writeExppa s v) := by
  unfold State.writeExppa
  repeat' first
    | with_reducible assumption
    | dsimp only [KS, KP]
    | split

theorem keep_execExppaWrite (v : Nat) (s : State) (h_s : KS wants fa fb s) : KOut wants fa fb (execExppaWrite v s)
      := by
  unfold execExppaWrite
  repeat' first
    | with_reducible assumption
    | with_reducible apply mk_next
    | with_reducible apply keep_writeExppa

theorem keep_writeRevocation (s : State) (which v : Nat) (h_s : KS wants fa fb s) : KS wants fa fb
      (State.writeRevocation s which v) := by
  unfold State.writeRevocation
  repeat' first
    | with_reducible assumption
    | dsimp only [KS, KP]
    | split

theorem keep_execRevocationRegisterWrite (which v : Nat) (s : State) (h_s : KS wants fa fb s) : KOut wants fa fb
      (execRevocationRegisterWrite which v s) := by
  unfold execRevocationRegisterWrite
  repeat' first
    | with_reducible assumption
    | with_reducible apply mk_next
    | with_reducible apply keep_writeRevocation

theorem keep_execKeyLoad (s : State) (h_s : KS wants fa fb s) : KOut wants fa fb (execKeyLoad s) := by
  unfold execKeyLoad
  repeat' first
    | with_reducible assumption
    | with_reducible apply mk_next

theorem keep_execSweepPassBegin (s : State) (h_s : KS wants fa fb s) : KOut wants fa fb (execSweepPassBegin s) := by
  unfold execSweepPassBegin
  repeat' first
    | with_reducible assumption
    | with_reducible apply mk_next
    | with_reducible apply keep_beginPass
    | split

theorem keep_sweepMemory (s : State) (h_s : KS wants fa fb s) : KS wants fa fb (State.sweepMemory s) := by
  unfold State.sweepMemory
  repeat' first
    | with_reducible assumption

theorem keep_execSweepPassComplete (s : State) (h_s : KS wants fa fb s) : KOut wants fa fb (execSweepPassComplete
      s) := by
  unfold execSweepPassComplete
  repeat' first
    | with_reducible assumption
    | with_reducible apply mk_next
    | with_reducible apply keep_updAll
    | with_reducible apply keep_sweepMemory
    | with_reducible apply keep_sweepHeld
    | dsimp only [KS, KP]
    | split

theorem keep_updLink (s : State) (n : Nat) (f : Link → Link) (h_s : KS wants fa fb s) : KS wants fa fb
      (State.updLink s n f) := by
  unfold State.updLink
  repeat' first
    | with_reducible assumption

theorem keep_execLinkTraining (n peer : Nat) (s : State) (h_s : KS wants fa fb s) : KOut wants fa fb
      (execLinkTraining n peer s) := by
  unfold execLinkTraining
  repeat' first
    | with_reducible assumption
    | with_reducible apply mk_next
    | with_reducible apply keep_updLink

theorem keep_execFlitReplay (n : Nat) (s : State) (h_s : KS wants fa fb s) : KOut wants fa fb (execFlitReplay n s)
      := by
  unfold execFlitReplay
  repeat' first
    | with_reducible assumption
    | with_reducible apply mk_next
    | with_reducible apply keep_updLink

theorem keep_execLinkSpareLane (n : Nat) (s : State) (h_s : KS wants fa fb s) : KOut wants fa fb (execLinkSpareLane
      n s) := by
  unfold execLinkSpareLane
  repeat' first
    | with_reducible assumption
    | with_reducible apply mk_next
    | with_reducible apply keep_updLink

theorem keep_execLinkFailure (n : Nat) (s : State) (h_s : KS wants fa fb s) : KOut wants fa fb (execLinkFailure n
      s) := by
  unfold execLinkFailure
  repeat' first
    | with_reducible assumption
    | with_reducible apply mk_next
    | with_reducible apply keep_updLink

theorem keep_execLinkPeerLoss (n : Nat) (s : State) (h_s : KS wants fa fb s) : KOut wants fa fb (execLinkPeerLoss n
      s) := by
  unfold execLinkPeerLoss
  repeat' first
    | with_reducible assumption
    | with_reducible apply mk_next
    | with_reducible apply keep_updLink

theorem keep_updPort (s : State) (k : Nat) (f : Port → Port) (h_s : KS wants fa fb s) : KS wants fa fb
      (State.updPort s k f) := by
  unfold State.updPort
  repeat' first
    | with_reducible assumption

theorem keep_execMsixWrite (port entry : Nat) (s : State) (h_s : KS wants fa fb s) : KOut wants fa fb
      (execMsixWrite port entry s) := by
  unfold execMsixWrite
  repeat' first
    | with_reducible assumption
    | with_reducible apply mk_next
    | with_reducible apply keep_signalOwned
    | dsimp only [KS, KP]
    | split

theorem keep_execPortTransferComplete (port : Nat) (s : State) (h_s : KS wants fa fb s) : KOut wants fa fb
      (execPortTransferComplete port s) := by
  unfold execPortTransferComplete
  repeat' first
    | with_reducible assumption
    | with_reducible apply mk_next
    | dsimp only [KS, KP]
    | split

theorem keep_execPortMemoryAccess (port va size data : Nat) (write : Bool) (s : State) (h_s : KS wants fa fb s) :
      KOut wants fa fb (execPortMemoryAccess port va size data write s) := by
  unfold execPortMemoryAccess
  repeat' first
    | with_reducible assumption
    | with_reducible apply mk_next
    | with_reducible apply keep_devXlate
    | with_reducible apply keep_putAt
    | dsimp only [KS, KP]
    | split
    | with_reducible refine DevX_ok (by assumption) ?_
    | with_reducible refine DevX_again (by assumption) ?_

theorem keep_execPeerAccessRequest (req : PeerRequest) (s : State) (h_s : KS wants fa fb s) : KOut wants fa fb
      (execPeerAccessRequest req s) := by
  unfold execPeerAccessRequest
  repeat' first
    | with_reducible assumption
    | with_reducible apply mk_next
    | with_reducible apply keep_putAt
    | dsimp only [KS, KP]
    | split

theorem keep_execBootok (s : State) (h_s : KS wants fa fb s) : KOut wants fa fb (execBootok s) := by
  unfold execBootok
  repeat' first
    | with_reducible assumption
    | with_reducible apply mk_next
    | dsimp only [KS, KP]
    | split

theorem keep_execStage (s : State) (h_s : KS wants fa fb s) : KOut wants fa fb (execStage s) := by
  unfold execStage
  repeat' first
    | with_reducible assumption
    | with_reducible apply mk_next
    | dsimp only [KS, KP]
    | split

theorem keep_execLogrd (s : State) (h_s : KS wants fa fb s) : KOut wants fa fb (execLogrd s) := by
  unfold execLogrd
  apply mk_next
  dsimp only
  split
  · exact h_s
  split
  · exact h_s
  split
  · exact h_s
  · exact ⟨(keep_putAt s 0 _ _ h_s).1, h_s.2⟩

theorem keep_execFuse (s : State) (h_s : KS wants fa fb s) : KOut wants fa fb (execFuse s) := by
  obtain ⟨hm, ha, hb⟩ := h_s
  have up : ∀ {x y k : Nat}, x ≤ y → x ≤ y + k := fun h => Nat.le_trans h (Nat.le_add_right ..)
  have mx : ∀ {x y k : Nat}, x ≤ y → x ≤ max y k := fun h => Nat.le_trans h (Nat.le_max_left ..)
  unfold execFuse
  repeat' first
    | with_reducible apply mk_next
    | with_reducible apply keep_logEvent
    | exact ⟨hm, ha, hb⟩
    | exact ⟨hm, mx ha, mx hb⟩
    | exact ⟨hm, up ha, hb⟩
    | exact ⟨hm, up ha, up hb⟩
    | dsimp only [KS, KP]
    | split

theorem keep_execMailboxCommandEnd (s : State) (h_s : KS wants fa fb s) : KOut wants fa fb (execMailboxCommandEnd
      s) := by
  unfold execMailboxCommandEnd
  repeat' first
    | with_reducible assumption
    | with_reducible apply mk_next
    | dsimp only [KS, KP]
    | split

theorem keep_execGetMeasurements (nonce : Nat) (s : State) (h_s : KS wants fa fb s) : KOut wants fa fb
      (execGetMeasurements nonce s) := by
  unfold execGetMeasurements
  repeat' first
    | with_reducible assumption
    | with_reducible apply mk_next

theorem keep_execPowerManagerStep (watts : Nat) (s : State) (h_s : KS wants fa fb s) : KOut wants fa fb
      (execPowerManagerStep watts s) := by
  unfold execPowerManagerStep
  repeat' first
    | with_reducible assumption
    | with_reducible apply mk_next
    | dsimp only [KS, KP]
    | split

theorem keep_execLeakageUpdate (_die leak : Nat) (s : State) (h_s : KS wants fa fb s) : KOut wants fa fb
      (execLeakageUpdate _die leak s) := by
  unfold execLeakageUpdate
  repeat' first
    | with_reducible assumption
    | with_reducible apply mk_next
    | dsimp only [KS, KP]
    | split

theorem keep_execPowerAlertAssert (s : State) (h_s : KS wants fa fb s) : KOut wants fa fb (execPowerAlertAssert s)
      := by
  unfold execPowerAlertAssert
  repeat' first
    | with_reducible assumption
    | with_reducible apply mk_next
    | with_reducible apply keep_logEvent
    | dsimp only [KS, KP]
    | split

theorem keep_execPowerAlertRelease (s : State) (h_s : KS wants fa fb s) : KOut wants fa fb (execPowerAlertRelease
      s) := by
  unfold execPowerAlertRelease
  repeat' first
    | with_reducible assumption
    | with_reducible apply mk_next
    | dsimp only [KS, KP]
    | split

theorem keep_execSpareExchange (die unit : Nat) (s : State) (h_s : KS wants fa fb s) : KOut wants fa fb
      (execSpareExchange die unit s) := by
  unfold execSpareExchange
  repeat' first
    | with_reducible assumption
    | with_reducible apply mk_next
    | with_reducible apply keep_emptyL1
    | with_reducible apply keep_logEvent
    | dsimp only [KS, KP]
    | split

theorem keep_swapSystem (s : State) (p : Nat) (h_s : KS wants fa fb s) : KS wants fa fb (State.swapSystem s p) := by
  unfold State.swapSystem
  repeat' first
    | with_reducible assumption
    | with_reducible apply keep_logEvent
    | with_reducible apply keep_fold
    | dsimp only [KS, KP]
    | intro _

theorem keep_execPackageReset (s : State) (h_s : KS wants fa fb s) : KOut wants fa fb (execPackageReset s) := by
  have p : ∀ j : Islet, j.pickSlot.fuseA = j.fuseA ∧ j.pickSlot.fuseB = j.fuseB := by
    intro j
    unfold Islet.pickSlot
    constructor <;> dsimp only <;> repeat' split
    all_goals rfl
  have w : ∀ f, KS wants fa fb ({ s with islet := s.islet.boot f } : State) := by
    intro f
    obtain ⟨hm, ha, hb⟩ := h_s
    unfold Islet.boot
    dsimp only [KS]
    split
    · exact ⟨hm, ha, hb⟩
    · refine ⟨hm, ?_, ?_⟩
      · rw [(p _).1]; exact Nat.le_trans ha (Nat.le_max_left ..)
      · rw [(p _).2]; exact Nat.le_trans hb (Nat.le_max_right ..)
  unfold execPackageReset
  apply mk_next
  split
  · exact keep_updAll _ _ (w _)
  · exact w _

theorem keep_execPowerLoss (s : State) (h_s : KS wants fa fb s) : KOut wants fa fb (execPowerLoss s) := by
  obtain ⟨hm, ha, hb⟩ := h_s
  have up : ∀ {x y k : Nat}, x ≤ y → x ≤ y + k := fun h => Nat.le_trans h (Nat.le_add_right ..)
  unfold execPowerLoss
  repeat' first
    | with_reducible apply mk_next
    | exact ⟨hm, ha, hb⟩
    | exact ⟨hm, up ha, hb⟩
    | exact ⟨hm, up ha, up hb⟩
    | dsimp only [KS, KP]
    | split

theorem keep_loseDirty (s : State) (p : Nat) (h_s : KS wants fa fb s) : KS wants fa fb (State.loseDirty s p) := by
  unfold State.loseDirty
  repeat' first
    | with_reducible assumption
    | with_reducible apply keep_drain
    | with_reducible apply keep_setEarly

theorem keep_restartSystem (s : State) (p : Nat) (h_s : KS wants fa fb s) : KS wants fa fb (State.restartSystem s
      p) := by
  unfold State.restartSystem
  repeat' first
    | with_reducible assumption
    | with_reducible apply keep_updAll

theorem keep_resetPartition (s : State) (p : Nat) (h_s : KS wants fa fb s) : KS wants fa fb (State.resetPartition s
      p) := by
  unfold State.resetPartition
  repeat' first
    | with_reducible assumption
    | with_reducible apply keep_dropReply
    | with_reducible apply keep_killTeam
    | with_reducible apply keep_loseDirty
    | with_reducible apply keep_logEvent
    | with_reducible apply keep_putBytes
    | with_reducible apply keep_swapSystem
    | with_reducible apply keep_restartSystem
    | with_reducible apply keep_fold
    | dsimp only [KS, KP]
    | intro _

theorem keep_execPartitionReset (p : Nat) (s : State) (h_s : KS wants fa fb s) : KOut wants fa fb
      (execPartitionReset p s) := by
  unfold execPartitionReset
  repeat' first
    | with_reducible assumption
    | with_reducible apply mk_next
    | with_reducible apply keep_resetPartition

end Sys2Proof.Laws.Keep
end

