-- ==== Sys2Proof/Laws/KeepMemory.lean ====
section
/-!
SUPPORT. What performing and completing accesses, the watch unit, fetching and issuing keep: the form of memory and the fuses (see KeepBase).
-/

namespace Sys2Proof.Laws.Keep

open Machine

variable {wants : Prop} {fa fb : Nat}

theorem keep_reachReg (s : State) (cpart off size : Nat) (h_s : KS wants fa fb s) : KP wants fa fb (State.reachReg
      s cpart off size) := by
  unfold State.reachReg
  repeat' first
    | with_reducible assumption
    | with_reducible apply keep_logEvent
    | dsimp only [KS, KP]
    | split

theorem keep_plainReg (s : State) (r : WReg) (v : Nat) (h_s : KS wants fa fb s) : KS wants fa fb (State.plainReg s
      r v) := by
  unfold State.plainReg
  repeat' first
    | with_reducible assumption
    | with_reducible apply keep_updLink
    | with_reducible apply keep_updDbg
    | with_reducible apply keep_updCore
    | with_reducible apply keep_updPort
    | dsimp only [KS, KP]
    | split

theorem keep_writeCrash (s : State) (p mode v : Nat) (h_s : KS wants fa fb s) : KS wants fa fb (State.writeCrash s
      p mode v) := by
  unfold State.writeCrash
  repeat' first
    | with_reducible assumption
    | with_reducible apply keep_crash
    | with_reducible apply keep_updDbg
    | dsimp only [KS, KP]
    | split

theorem keep_writeReg (s : State) (id mode : Nat) (r : WReg) (v : Nat) (h_s : KS wants fa fb s) : KS wants fa fb
      (State.writeReg s id mode r v) := by
  have w : KS wants fa fb ({ s with islet := s.islet.writeMbcmd v } : State) := by
    unfold Islet.writeMbcmd
    repeat' first
      | assumption
      | dsimp only [KS]
      | split
  unfold State.writeReg
  repeat' first
    | with_reducible assumption
    | with_reducible apply keep_writePartcfg
    | with_reducible apply keep_writeExppa
    | with_reducible apply keep_writeRevocation
    | with_reducible apply keep_writeLease
    | with_reducible apply keep_stopProcess
    | with_reducible apply keep_writeCrash
    | with_reducible apply keep_writeAcct
    | with_reducible apply keep_updAgent
    | with_reducible apply keep_plainReg
    | split

theorem keep_windowRead (s : State) (a : Agent) (off size : Nat) (h_s : KS wants fa fb s) : KP wants fa fb
      (State.windowRead s a off size) := by
  unfold State.windowRead
  repeat' first
    | with_reducible assumption
    | with_reducible apply keep_reachReg
    | dsimp only [KS, KP]
    | split
    | with_reducible refine pair_fst (by assumption) ?_

theorem keep_windowWrite (s : State) (a : Agent) (mode off size v : Nat) (h_s : KS wants fa fb s) : KS wants fa fb
      (State.windowWrite s a mode off size v) := by
  unfold State.windowWrite
  repeat' first
    | with_reducible assumption
    | with_reducible apply keep_reachReg
    | with_reducible apply keep_writeReg
    | dsimp only [KS, KP]
    | split
    | with_reducible refine pair_fst (by assumption) ?_

theorem keep_execRegisterWrite (off v : Nat) (s : State) (h_s : KS wants fa fb s) : KOut wants fa fb
      (execRegisterWrite off v s) := by
  unfold execRegisterWrite
  repeat' first
    | with_reducible assumption
    | with_reducible apply mk_next
    | with_reducible apply keep_plainReg
    | split

theorem keep_fillL1 (s : State) (a : Agent) (owner pa : Nat) (h_s : KS wants fa fb s) : KS wants fa fb
      (State.fillL1 s a owner pa) := by
  unfold State.fillL1
  repeat' first
    | with_reducible assumption
    | with_reducible apply keep_dropL1
    | with_reducible apply keep_grantLease
    | dsimp only [KS, KP]
    | split

theorem keep_roRead (s : State) (a : Agent) (owner pa n : Nat) (h_s : KS wants fa fb s) : KP wants fa fb
      (State.roRead s a owner pa n) := by
  unfold State.roRead
  repeat' first
    | with_reducible assumption
    | with_reducible apply keep_setL1
    | with_reducible apply keep_grantLease
    | dsimp only [KS, KP]
    | split

theorem keep_accRead (s : State) (a : Agent) (ro : Bool) (x : Acc) (n : Nat) (h_s : KS wants fa fb s) : KP wants fa
      fb (State.accRead s a ro x n) := by
  unfold State.accRead
  split
  · exact h_s
  · split
    · exact mkp (keep_windowRead s a _ n h_s)
    · split
      · exact mkp (keep_peerTake s _ _ n h_s)
      · dsimp only
        split
        · exact keep_roRead _ a _ _ n (keep_noteKey s _ _ h_s)
        · exact mkp (keep_fillL1 _ a _ _ (keep_noteKey s _ _ h_s))

theorem keep_writeThrough (s : State) (a : Agent) (pa : Nat) (f : State → State) (h_s : KS wants fa fb s) (h_f : ∀
      y0, KS wants fa fb y0 → KS wants fa fb (f y0)) : KS wants fa fb (State.writeThrough s a pa f) := by
  unfold State.writeThrough
  repeat' first
    | with_reducible assumption
    | with_reducible apply keep_dropL1
    | dsimp only [KS, KP]
    | split
    | apply h_f

theorem keep_accWrite (s : State) (a : Agent) (x : Acc) (bs : List Byte) (h_s : KS wants fa fb s) : KS wants fa fb
      (State.accWrite s a x bs) := by
  unfold State.accWrite
  repeat' first
    | with_reducible assumption
    | with_reducible apply keep_putTeam
    | with_reducible apply keep_windowWrite
    | with_reducible apply keep_putPeer
    | with_reducible apply keep_noteKey
    | with_reducible apply keep_writeThrough
    | with_reducible apply keep_putBytes
    | dsimp only [KS, KP]
    | split
    | intro _

theorem keep_loadLane (s : State) (a : Agent) (ty : Ty) (d : MDest) (ro : Bool) (x : Acc) (h_s : KS wants fa fb s)
      : KP wants fa fb (State.loadLane s a ty d ro x) := by
  unfold State.loadLane
  repeat' first
    | with_reducible assumption
    | with_reducible apply keep_accRead
    | dsimp only [KS, KP]
    | split

theorem keep_loadSubLane (s : State) (a : Agent) (ty : Ty) (d : MDest) (ro : Bool) (x : Acc) (h_s : KS wants fa fb
      s) : KP wants fa fb (State.loadSubLane s a ty d ro x) := by
  unfold State.loadSubLane
  repeat' first
    | with_reducible assumption
    | with_reducible apply keep_accRead

theorem keep_storeLane (s : State) (a : Agent) (ty : Ty) (x : Acc) (h_s : KS wants fa fb s) : KS wants fa fb
      (State.storeLane s a ty x) := by
  unfold State.storeLane
  repeat' first
    | with_reducible assumption
    | with_reducible apply keep_accWrite

theorem keep_peerAtom (s : State) (die a n : Nat) (h_s : KS wants fa fb s) : KP wants fa fb (State.peerAtom s die a
      n) := by
  unfold State.peerAtom
  repeat' first
    | with_reducible assumption

theorem keep_atomRead (s : State) (a : Agent) (x : Acc) (n : Nat) (h_s : KS wants fa fb s) : KP wants fa fb
      (State.atomRead s a x n) := by
  unfold State.atomRead
  repeat' first
    | with_reducible assumption
    | with_reducible apply keep_noteKey
    | with_reducible apply keep_peerAtom
    | with_reducible apply keep_accRead
    | dsimp only [KS, KP]
    | split

theorem keep_atomLane (s : State) (a : Agent) (op : AtomOp) (ty : Ty) (d : MDest) (x : Acc) (h_s : KS wants fa fb
      s) : KP wants fa fb (State.atomLane s a op ty d x) := by
  unfold State.atomLane
  repeat' first
    | with_reducible assumption
    | with_reducible apply keep_atomRead
    | with_reducible apply keep_accWrite
    | dsimp only [KS, KP]
    | split

theorem keep_loadCapLane (s : State) (a : Agent) (d : MDest) (back : Bool) (x : Acc) (h_s : KS wants fa fb s) : KP
      wants fa fb (State.loadCapLane s a d back x) := by
  have ite : ∀ {c : Bool} {x y : Performed}, KP wants fa fb x → KP wants fa fb y → KP wants fa fb (if c then x else
      y) := by
    intro c x y hx hy
    cases c
    · exact hy
    · exact hx
  unfold State.loadCapLane
  cases x.place with
  | team t => exact h_s
  | pa p => exact ite (mkp (keep_windowRead s a _ 16 h_s)) (mkp (keep_fillL1 _ a _ _ (keep_noteKey s _ _ h_s)))

theorem keep_storeCapLane (s : State) (a : Agent) (x : Acc) (h_s : KS wants fa fb s) : KS wants fa fb
      (State.storeCapLane s a x) := by
  unfold State.storeCapLane
  repeat' first
    | with_reducible assumption
    | with_reducible apply keep_windowWrite
    | with_reducible apply keep_exportCap
    | with_reducible apply keep_putPeer
    | with_reducible apply keep_noteKey
    | with_reducible apply keep_writeThrough
    | with_reducible apply keep_putCap
    | dsimp only [KS, KP]
    | split
    | intro _

theorem keep_eachLane (f : State → Acc → Performed) (s : State) (xs : List Acc) (h_f : ∀ y0 y1, KS wants fa fb y0 →
      KP wants fa fb (f y0 y1)) (h_s : KS wants fa fb s) : KP wants fa fb (eachLane f s xs) := by
  unfold eachLane
  repeat' first
    | with_reducible assumption
    | with_reducible apply keep_foldp
    | dsimp only [KS, KP]
    | intro _
    | apply h_f

theorem keep_performAccs (s : State) (a : Agent) (o : Op) (back : Bool) (h_s : KS wants fa fb s) : KP wants fa fb
      (State.performAccs s a o back) := by
  unfold State.performAccs
  repeat' first
    | with_reducible assumption
    | with_reducible apply keep_eachLane
    | with_reducible apply keep_loadLane
    | with_reducible apply keep_loadSubLane
    | with_reducible apply keep_loadCapLane
    | with_reducible apply keep_storeLane
    | with_reducible apply keep_storeCapLane
    | with_reducible apply keep_atomLane
    | dsimp only [KS, KP]
    | split
    | intro _

theorem keep_setRdc (s : State) (r : RdcLine) (h_s : KS wants fa fb s) : KS wants fa fb (State.setRdc s r) := by
  unfold State.setRdc
  repeat' first
    | with_reducible assumption

theorem keep_dropRdc (s : State) (d line : Nat) (h_s : KS wants fa fb s) : KS wants fa fb (State.dropRdc s d line)
      := by
  unfold State.dropRdc
  repeat' first
    | with_reducible assumption

theorem keep_setDir (s : State) (e : DirEntry) (h_s : KS wants fa fb s) : KS wants fa fb (State.setDir s e) := by
  unfold State.setDir
  repeat' first
    | with_reducible assumption

theorem keep_send (s : State) (m : Msg) (h_s : KS wants fa fb s) : KS wants fa fb (State.send s m) := by
  unfold State.send
  repeat' first
    | with_reducible assumption

theorem keep_dropMsg (s : State) (k : Nat) (h_s : KS wants fa fb s) : KS wants fa fb (State.dropMsg s k) := by
  unfold State.dropMsg
  repeat' first
    | with_reducible assumption

theorem keep_recall (s : State) (line : Nat) (over_ : Bool) (t : Option (Nat × Nat)) (h_s : KS wants fa fb s) : KS
      wants fa fb (State.recall s line over_ t) := by
  unfold State.recall
  repeat' first
    | with_reducible assumption
    | with_reducible apply keep_setDir
    | with_reducible apply keep_send

theorem keep_askRead (s : State) (d line : Nat) (h_s : KS wants fa fb s) : KS wants fa fb (State.askRead s d line)
      := by
  unfold State.askRead
  repeat' first
    | with_reducible assumption
    | with_reducible apply keep_recall
    | with_reducible apply keep_send
    | dsimp only [KS, KP]
    | split

theorem keep_askSub (s : State) (d line code : Nat) (sub : Option SubEntry) (h_s : KS wants fa fb s) : KS wants fa
      fb (State.askSub s d line code sub) := by
  unfold State.askSub
  repeat' first
    | with_reducible assumption
    | with_reducible apply keep_askRead
    | with_reducible apply keep_send
    | dsimp only [KS, KP]
    | split

theorem keep_tell (s : State) (line : Nat) (ms : List Member) (h_s : KS wants fa fb s) : KS wants fa fb (State.tell
      s line ms) := by
  unfold State.tell
  repeat' first
    | with_reducible assumption
    | with_reducible apply keep_send
    | with_reducible apply keep_fold
    | dsimp only [KS, KP]
    | split
    | intro _

theorem keep_makeRoom (s s' : State) (line req : Nat) (t : Nat × Nat) (h_s : KS wants fa fb s) (h_s' : KS wants fa
      fb s') : KS wants fa fb (State.makeRoom s s' line req t) := by
  unfold State.makeRoom
  repeat' first
    | with_reducible assumption
    | with_reducible apply keep_setDir
    | with_reducible apply keep_tell

theorem keep_askWrite (s s' : State) (d line : Nat) (t : Nat × Nat) (h_s : KS wants fa fb s) (h_s' : KS wants fa fb
      s') : KS wants fa fb (State.askWrite s s' d line t) := by
  unfold State.askWrite
  repeat' first
    | with_reducible assumption
    | with_reducible apply keep_recall
    | with_reducible apply keep_makeRoom
    | with_reducible apply keep_send
    | dsimp only [KS, KP]
    | split

theorem keep_wrote (s : State) (d line : Nat) (t : Nat × Nat) (h_s : KS wants fa fb s) : KS wants fa fb
      (State.wrote s d line t) := by
  unfold State.wrote
  repeat' first
    | with_reducible assumption
    | with_reducible apply keep_setDir
    | with_reducible apply keep_setRdc
    | dsimp only [KS, KP]
    | split

theorem keep_giveBack (s : State) (line : Nat) (t : Nat × Nat) (h_s : KS wants fa fb s) : KS wants fa fb
      (State.giveBack s line t) := by
  unfold State.giveBack
  repeat' first
    | with_reducible assumption
    | with_reducible apply keep_setDir
    | dsimp only [KS, KP]
    | split

theorem keep_atHome (s : State) (k : Nat) (kind : MsgKind) (f : Msg → DirEntry → State → State) (h_s : KS wants fa
      fb s) (h_f : ∀ y0 y1 y2, KS wants fa fb y2 → KS wants fa fb (f y0 y1 y2)) : KOut wants fa fb (State.atHome s
      k kind f) := by
  unfold State.atHome
  repeat' first
    | with_reducible assumption
    | with_reducible apply mk_next
    | with_reducible apply keep_dropMsg
    | dsimp only [KS, KP]
    | split
    | apply h_f

theorem keep_forward (s : State) (e : DirEntry) (kind want : MsgKind) (d fmt : Nat) (upd : Bool) (h_s : KS wants fa
      fb s) : KS wants fa fb (State.forward s e kind want d fmt upd) := by
  unfold State.forward
  repeat' first
    | with_reducible assumption
    | with_reducible apply keep_setDir
    | with_reducible apply keep_send

theorem keep_execGets (k : Nat) (s : State) (h_s : KS wants fa fb s) : KOut wants fa fb (execGets k s) := by
  unfold execGets
  repeat' first
    | with_reducible assumption
    | with_reducible apply keep_atHome
    | with_reducible apply keep_send
    | with_reducible apply keep_forward
    | with_reducible apply keep_setDir
    | dsimp only [KS, KP]
    | split
    | intro _

theorem keep_execGetsub (k : Nat) (s : State) (h_s : KS wants fa fb s) : KOut wants fa fb (execGetsub k s) := by
  unfold execGetsub
  repeat' first
    | with_reducible assumption
    | with_reducible apply keep_atHome
    | with_reducible apply keep_send
    | with_reducible apply keep_forward
    | with_reducible apply keep_setDir
    | dsimp only [KS, KP]
    | split
    | intro _

theorem keep_execGetx (k : Nat) (s : State) (h_s : KS wants fa fb s) : KOut wants fa fb (execGetx k s) := by
  unfold execGetx
  repeat' first
    | with_reducible assumption
    | with_reducible apply keep_atHome
    | with_reducible apply keep_send
    | with_reducible apply keep_forward
    | with_reducible apply keep_setDir
    | with_reducible apply keep_dropRdc
    | with_reducible apply keep_tell
    | dsimp only [KS, KP]
    | split
    | intro _

theorem keep_execWrh (k : Nat) (s : State) (h_s : KS wants fa fb s) : KOut wants fa fb (execWrh k s) := by
  unfold execWrh
  repeat' first
    | with_reducible assumption
    | with_reducible apply keep_atHome
    | with_reducible apply keep_recall
    | with_reducible apply keep_makeRoom
    | with_reducible apply keep_performAccs
    | dsimp only [KS, KP]
    | split
    | intro _

theorem keep_execPutx (k : Nat) (s : State) (h_s : KS wants fa fb s) : KOut wants fa fb (execPutx k s) := by
  unfold execPutx
  repeat' first
    | with_reducible assumption
    | with_reducible apply mk_next
    | with_reducible apply keep_dropMsg
    | with_reducible apply keep_setDir
    | with_reducible apply keep_send
    | dsimp only [KS, KP]
    | split

theorem keep_finish (s : State) (e : DirEntry) (h_s : KS wants fa fb s) : KS wants fa fb (State.finish s e) := by
  unfold State.finish
  repeat' first
    | with_reducible assumption
    | with_reducible apply keep_setDir
    | with_reducible apply keep_send
    | dsimp only [KS, KP]
    | split

theorem keep_execAck (k : Nat) (s : State) (h_s : KS wants fa fb s) : KOut wants fa fb (execAck k s) := by
  unfold execAck
  repeat' first
    | with_reducible assumption
    | with_reducible apply mk_next
    | with_reducible apply keep_dropMsg
    | with_reducible apply keep_setDir
    | with_reducible apply keep_finish
    | dsimp only [KS, KP]
    | split

theorem keep_execInv (k : Nat) (s : State) (h_s : KS wants fa fb s) : KOut wants fa fb (execInv k s) := by
  unfold execInv
  repeat' first
    | with_reducible assumption
    | with_reducible apply mk_next
    | with_reducible apply keep_dropMsg
    | with_reducible apply keep_dropRdc
    | with_reducible apply keep_send
    | dsimp only [KS, KP]
    | split

theorem keep_execFwds (k : Nat) (s : State) (h_s : KS wants fa fb s) : KOut wants fa fb (execFwds k s) := by
  unfold execFwds
  repeat' first
    | with_reducible assumption
    | with_reducible apply mk_next
    | with_reducible apply keep_dropMsg
    | with_reducible apply keep_setRdc
    | with_reducible apply keep_send
    | dsimp only [KS, KP]
    | split

theorem keep_execFwdx (k : Nat) (s : State) (h_s : KS wants fa fb s) : KOut wants fa fb (execFwdx k s) := by
  unfold execFwdx
  repeat' first
    | with_reducible assumption
    | with_reducible apply mk_next
    | with_reducible apply keep_dropMsg
    | with_reducible apply keep_dropRdc
    | with_reducible apply keep_send
    | dsimp only [KS, KP]
    | split

theorem keep_execUpd (k : Nat) (s : State) (h_s : KS wants fa fb s) : KOut wants fa fb (execUpd k s) := by
  unfold execUpd
  repeat' first
    | with_reducible assumption
    | with_reducible apply mk_next
    | with_reducible apply keep_dropMsg
    | with_reducible apply keep_send
    | dsimp only [KS, KP]
    | split

theorem keep_execData (k : Nat) (s : State) (h_s : KS wants fa fb s) : KOut wants fa fb (execData k s) := by
  unfold execData
  repeat' first
    | with_reducible assumption
    | with_reducible apply mk_next
    | with_reducible apply keep_dropMsg
    | with_reducible apply keep_setRdc
    | with_reducible apply keep_setDir
    | with_reducible apply keep_send
    | dsimp only [KS, KP]
    | split

theorem keep_execWback (k : Nat) (s : State) (h_s : KS wants fa fb s) : KOut wants fa fb (execWback k s) := by
  unfold execWback
  repeat' first
    | with_reducible assumption
    | with_reducible apply mk_next
    | with_reducible apply keep_dropMsg
    | with_reducible apply keep_dropRdc
    | dsimp only [KS, KP]
    | split

theorem keep_forgetLease (s : State) (unit line : Nat) (h_s : KS wants fa fb s) : KS wants fa fb (State.forgetLease
      s unit line) := by
  unfold State.forgetLease
  repeat' first
    | with_reducible assumption

theorem keep_execRdcEviction (die line : Nat) (s : State) (h_s : KS wants fa fb s) : KOut wants fa fb
      (execRdcEviction die line s) := by
  unfold execRdcEviction
  repeat' first
    | with_reducible assumption
    | with_reducible apply mk_next
    | with_reducible apply keep_dropRdc
    | with_reducible apply keep_forgetLease
    | with_reducible apply keep_setRdc
    | with_reducible apply keep_send
    | split

theorem keep_execLeaseExpiry (die core line : Nat) (s : State) (h_s : KS wants fa fb s) : KOut wants fa fb
      (execLeaseExpiry die core line s) := by
  unfold execLeaseExpiry
  repeat' first
    | with_reducible assumption
    | with_reducible apply mk_next
    | with_reducible apply keep_dropL1
    | split

theorem keep_execDirtyWriteBack (die core line : Nat) (s : State) (h_s : KS wants fa fb s) : KOut wants fa fb
      (execDirtyWriteBack die core line s) := by
  unfold execDirtyWriteBack
  repeat' first
    | with_reducible assumption
    | with_reducible apply mk_next
    | with_reducible apply keep_drain
    | dsimp only [KS, KP]
    | split

theorem keep_execForcedPublish (die core line : Nat) (s : State) (h_s : KS wants fa fb s) : KOut wants fa fb
      (execForcedPublish die core line s) := by
  unfold execForcedPublish
  repeat' first
    | with_reducible assumption
    | with_reducible apply mk_next
    | with_reducible apply keep_publish
    | dsimp only [KS, KP]
    | split

theorem keep_execClockStop (die core : Nat) (s : State) (h_s : KS wants fa fb s) : KOut wants fa fb (execClockStop
      die core s) := by
  unfold execClockStop
  repeat' first
    | with_reducible assumption
    | with_reducible apply mk_next
    | with_reducible apply keep_emptyL1
    | dsimp only [KS, KP]
    | split

theorem keep_askLine (s : State) (a : Agent) (o : Op) (line : Nat) (h_s : KS wants fa fb s) : KS wants fa fb
      (State.askLine s a o line) := by
  unfold State.askLine
  repeat' first
    | with_reducible assumption
    | with_reducible apply keep_askSub
    | with_reducible apply keep_askRead
    | dsimp only [KS, KP]
    | split

theorem keep_bringLine (s : State) (a : Agent) (owner line : Nat) (h_s : KS wants fa fb s) : KS wants fa fb
      (State.bringLine s a owner line) := by
  unfold State.bringLine
  repeat' first
    | with_reducible assumption
    | with_reducible apply keep_dropL1
    | with_reducible apply keep_grantLease
    | dsimp only [KS, KP]
    | split

theorem keep_goEarly (s : State) (a : Agent) (o : Op) (narrow : Bool) (vis : Scope) (h_s : KS wants fa fb s) : KS
      wants fa fb (State.goEarly s a o narrow vis) := by
  unfold State.goEarly
  repeat' first
    | with_reducible assumption
    | with_reducible apply keep_bringLine
    | with_reducible apply keep_fold
    | dsimp only [KS, KP]
    | split
    | intro _

theorem keep_widenEarly (s : State) (agent num : Nat) (vis : Scope) (h_s : KS wants fa fb s) : KS wants fa fb
      (State.widenEarly s agent num vis) := by
  unfold State.widenEarly
  repeat' first
    | with_reducible assumption

theorem keep_afterPerform (s : State) (a : Agent) (o : Op) (h_s : KS wants fa fb s) : KS wants fa fb
      (State.afterPerform s a o) := by
  unfold State.afterPerform
  repeat' first
    | with_reducible assumption
    | with_reducible apply keep_wrote
    | with_reducible apply keep_leaveNote
    | with_reducible apply keep_updAgent
    | with_reducible apply keep_sweepDead
    | with_reducible apply keep_fold
    | dsimp only [KS, KP]
    | split
    | intro _

theorem keep_retired (s : State) (a : Agent) (o : Op) (h_s : KS wants fa fb s) : KS wants fa fb (State.retired s a
      o) := by
  unfold State.retired
  repeat' first
    | with_reducible assumption
    | with_reducible apply keep_giveBack
    | with_reducible apply keep_updAgent
    | with_reducible apply keep_fold
    | dsimp only [KS, KP]
    | intro _

theorem keep_peerAfter (s : State) (a : Agent) (o : Op) (h_s : KS wants fa fb s) : KS wants fa fb (State.peerAfter
      s a o) := by
  unfold State.peerAfter
  repeat' first
    | with_reducible assumption
    | with_reducible apply keep_peerAcquire
    | dsimp only [KS, KP]
    | split

theorem keep_attemptRead (s : State) (a : Agent) (o : Op) (back : Bool) (h_s : KS wants fa fb s) : KP wants fa fb
      (State.attemptRead s a o back) := by
  unfold State.attemptRead
  repeat' first
    | with_reducible assumption
    | with_reducible apply keep_performAccs
    | with_reducible apply keep_askLine
    | with_reducible apply keep_fold
    | dsimp only [KS, KP]
    | split
    | intro _

theorem keep_markSent (s : State) (agent num : Nat) (h_s : KS wants fa fb s) : KS wants fa fb (State.markSent s
      agent num) := by
  unfold State.markSent
  repeat' first
    | with_reducible assumption
    | with_reducible apply keep_updAgent

theorem keep_obtain (s s' : State) (a : Agent) (t : Nat × Nat) (lines : List Nat) (h_s : KS wants fa fb s) (h_s' :
      KS wants fa fb s') : KOpt wants fa fb (State.obtain s s' a t lines) := by
  unfold State.obtain
  repeat' first
    | with_reducible assumption
    | with_reducible apply mk_some
    | with_reducible exact mk_none
    | with_reducible apply keep_giveBack
    | with_reducible apply keep_askWrite
    | with_reducible apply keep_fold
    | dsimp only [KS, KP]
    | split
    | intro _

theorem keep_attemptWrite (s : State) (a : Agent) (o : Op) (back : Bool) (h_s : KS wants fa fb s) : KP wants fa fb
      (State.attemptWrite s a o back) := by
  unfold State.attemptWrite
  repeat' first
    | with_reducible assumption
    | with_reducible apply keep_markSent
    | with_reducible apply keep_giveBack
    | with_reducible apply keep_setEarly
    | with_reducible apply keep_performAccs
    | with_reducible apply keep_obtain
    | with_reducible apply keep_afterPerform
    | with_reducible apply keep_fold
    | dsimp only [KS, KP]
    | split
    | intro _
    | with_reducible refine opt_some (by assumption) ?_

theorem keep_attempt (s : State) (a : Agent) (o : Op) (back : Bool) (h_s : KS wants fa fb s) : KP wants fa fb
      (State.attempt s a o back) := by
  unfold State.attempt
  repeat' first
    | with_reducible assumption
    | with_reducible apply keep_publishFor
    | with_reducible apply keep_peerRelease
    | with_reducible apply keep_retired
    | with_reducible apply keep_goEarly
    | with_reducible apply keep_attemptWrite
    | with_reducible apply keep_attemptRead
    | with_reducible apply keep_peerAfter
    | dsimp only [KS, KP]
    | split

theorem keep_installSub (s : State) (e : SubEntry) (h_s : KS wants fa fb s) : KS wants fa fb (State.installSub s e)
      := by
  unfold State.installSub
  repeat' first
    | with_reducible assumption

theorem keep_removeSubs (s : State) (die asid base len stride rows : Nat) (h_s : KS wants fa fb s) : KS wants fa fb
      (State.removeSubs s die asid base len stride rows) := by
  unfold State.removeSubs
  repeat' first
    | with_reducible assumption

theorem keep_changeSubs (s : State) (k : OpKind) (h_s : KS wants fa fb s) : KS wants fa fb (State.changeSubs s k)
      := by
  unfold State.changeSubs
  repeat' first
    | with_reducible assumption
    | with_reducible apply keep_installSub
    | with_reducible apply keep_removeSubs
    | dsimp only [KS, KP]
    | split

theorem keep_endFence (s : State) (a : Agent) (o : Op) (h_s : KS wants fa fb s) : KS wants fa fb (State.endFence s
      a o) := by
  unfold State.endFence
  repeat' first
    | with_reducible assumption
    | with_reducible apply keep_fenced
    | with_reducible apply keep_updAgent
    | dsimp only [KS, KP]
    | split

theorem keep_prefetched (s : State) (a : Agent) (lines : List (Nat × Nat)) (h_s : KS wants fa fb s) : KP wants fa
      fb (State.prefetched s a lines) := by
  unfold State.prefetched
  repeat' first
    | with_reducible assumption
    | with_reducible apply keep_fillL1
    | with_reducible apply keep_askRead
    | with_reducible apply keep_foldp
    | dsimp only [KS, KP]
    | split
    | intro _

theorem keep_endPrefetch (s : State) (a : Agent) (k : Nat) (lines : List (Nat × Nat)) (h_s : KS wants fa fb s) : KS
      wants fa fb (State.endPrefetch s a k lines) := by
  unfold State.endPrefetch
  repeat' first
    | with_reducible assumption
    | with_reducible apply keep_prefetched
    | with_reducible apply keep_updAgent
    | dsimp only [KS, KP]
    | split

theorem keep_complete (s : State) (id k : Nat) (lane back : Bool) (h_s : KS wants fa fb s) : KS wants fa fb
      (State.complete s id k lane back) := by
  unfold State.complete
  repeat' first
    | with_reducible assumption
    | with_reducible apply keep_attempt
    | with_reducible apply keep_updAgent
    | with_reducible apply keep_endFence
    | with_reducible apply keep_endPrefetch
    | with_reducible apply keep_changeSubs
    | dsimp only [KS, KP]
    | split
    | with_reducible refine pair_fst (by assumption) ?_

theorem keep_execScalarMemoryCompletion (agent k : Nat) (s : State) (h_s : KS wants fa fb s) : KOut wants fa fb
      (execScalarMemoryCompletion agent k s) := by
  unfold execScalarMemoryCompletion
  repeat' first
    | with_reducible assumption
    | with_reducible apply mk_next
    | with_reducible apply keep_complete

theorem keep_execLaneMemoryCompletion (agent k : Nat) (s : State) (h_s : KS wants fa fb s) : KOut wants fa fb
      (execLaneMemoryCompletion agent k s) := by
  unfold execLaneMemoryCompletion
  repeat' first
    | with_reducible assumption
    | with_reducible apply mk_next
    | with_reducible apply keep_complete

theorem keep_showEarly (s : State) (a : Agent) (o : Op) (vis : Scope) (h_s : KS wants fa fb s) : KS wants fa fb
      (State.showEarly s a o vis) := by
  unfold State.showEarly
  repeat' first
    | with_reducible assumption
    | with_reducible apply keep_widenEarly
    | with_reducible apply keep_goEarly
    | dsimp only [KS, KP]
    | split

theorem keep_execWritePerform (agent k : Nat) (s : State) (h_s : KS wants fa fb s) : KOut wants fa fb
      (execWritePerform agent k s) := by
  unfold execWritePerform
  repeat' first
    | with_reducible assumption
    | with_reducible apply mk_next
    | with_reducible apply keep_showEarly
    | with_reducible apply keep_attempt
    | with_reducible apply keep_updAgent
    | dsimp only [KS, KP]
    | split
    | with_reducible refine pair_fst (by assumption) ?_

theorem keep_execExportReturn (agent k : Nat) (s : State) (h_s : KS wants fa fb s) : KOut wants fa fb
      (execExportReturn agent k s) := by
  unfold execExportReturn
  repeat' first
    | with_reducible assumption
    | with_reducible apply mk_next
    | with_reducible apply keep_complete
    | split

theorem keep_unitWrite (s : State) (a : Agent) (x : Nat × Nat) (bs : List Byte) (h_s : KS wants fa fb s) : KS wants
      fa fb (State.unitWrite s a x bs) := by
  unfold State.unitWrite
  repeat' first
    | with_reducible assumption
    | with_reducible apply keep_putPeer
    | with_reducible apply keep_putBytes
    | dsimp only [KS, KP]
    | split

theorem keep_takeFromL1 (s : State) (a : Agent) (lines : List Nat) (h_s : KS wants fa fb s) : KS wants fa fb
      (State.takeFromL1 s a lines) := by
  unfold State.takeFromL1
  split
  · exact keep_fold _ _ s h_s fun t x _ h => keep_dropL1 t _ _ _ h
  · exact h_s

theorem keep_putWords (s : State) (a : Agent) (x : Nat × Nat) (old new : WEntry) (first : Bool) (h_s : KS wants fa
      fb s) : KS wants fa fb (State.putWords s a x old new first) := by
  unfold State.putWords
  repeat' first
    | with_reducible assumption
    | with_reducible apply keep_unitWrite
    | with_reducible apply keep_fold
    | dsimp only [KS, KP]
    | split
    | intro _

theorem keep_notifyWay (s : State) (a : Agent) (c : Cap) (h_s : KS wants fa fb s) : KNotifyWay wants fa fb
      (State.notifyWay s a c) := by
  unfold State.notifyWay
  repeat' first
    | with_reducible assumption
    | with_reducible apply mkNotifyWay_none
    | with_reducible apply mkNotifyWay_wait
    | with_reducible apply mkNotifyWay_place
    | with_reducible apply keep_devXlate
    | dsimp only [KS, KP]
    | split
    | with_reducible refine DevX_ok (by assumption) ?_
    | with_reducible refine DevX_again (by assumption) ?_
    | with_reducible refine DevX_absent (by assumption) ?_
    | with_reducible refine DevX_fail (by assumption) ?_

theorem keep_notifyWrite (s : State) (a : Agent) (pa owner src q : Nat) (h_s : KS wants fa fb s) : KS wants fa fb
      (State.notifyWrite s a pa owner src q) := by
  unfold State.notifyWrite
  repeat' first
    | with_reducible assumption
    | with_reducible apply keep_windowWrite
    | with_reducible apply keep_unitWrite
    | dsimp only [KS, KP]
    | split

theorem keep_forkWay (s : State) (a : Agent) (table : Cap) (w : WatchLane) (h_s : KS wants fa fb s) : KForkWay
      wants fa fb (State.forkWay s a table w) := by
  unfold State.forkWay
  repeat' first
    | with_reducible assumption
    | with_reducible apply mkForkWay_fails
    | with_reducible apply mkForkWay_wait
    | with_reducible apply mkForkWay_takes
    | with_reducible apply keep_devXlate
    | dsimp only [KS, KP]
    | split
    | with_reducible refine DevX_ok (by assumption) ?_
    | with_reducible refine DevX_again (by assumption) ?_
    | with_reducible refine DevX_absent (by assumption) ?_
    | with_reducible refine DevX_fail (by assumption) ?_

theorem keep_fork (s : State) (a : Agent) (entry : Nat × Nat) (e : WEntry) (f header : Nat × Nat) (words : WEntry)
      (h_s : KS wants fa fb s) : KS wants fa fb (State.fork s a entry e f header words) := by
  unfold State.fork
  repeat' first
    | with_reducible assumption
    | with_reducible apply keep_unitWrite
    | with_reducible apply keep_putCapAt
    | with_reducible apply keep_putCap
    | with_reducible apply keep_fold
    | dsimp only [KS, KP]
    | split
    | intro _

theorem keep_stepEffect (s : State) (a : Agent) (op : WatchOp) (d p : Nat) (w : WatchLane) (e : WEntry) (r : WOut ×
      Nat) (fk : Option (Nat × (Nat × Nat) × (Nat × Nat) × WEntry)) (nt : Option (Nat × Nat)) (h_s : KS wants fa fb
      s) : KP wants fa fb (State.stepEffect s a op d p w e r fk nt) := by
  unfold State.stepEffect
  repeat' first
    | with_reducible assumption
    | with_reducible apply keep_putWords
    | with_reducible apply keep_fork
    | with_reducible apply keep_notifyWrite
    | with_reducible apply keep_signalCap
    | with_reducible apply keep_takeFromL1
    | dsimp only [KS, KP]
    | split

theorem keep_stepOn (s : State) (a : Agent) (o : Op) (op : WatchOp) (table : Cap) (d p : Nat) (w : WatchLane) (h_s
      : KS wants fa fb s) : KP wants fa fb (State.stepOn s a o op table d p w) := by
  unfold State.stepOn
  repeat' first
    | with_reducible assumption
    | with_reducible apply keep_publishFor
    | with_reducible apply keep_notifyWay
    | with_reducible apply keep_stepEffect
    | with_reducible apply keep_forkWay
    | dsimp only [KS, KP]
    | split
    | with_reducible refine NotifyWay_none (by assumption) ?_
    | with_reducible refine NotifyWay_wait (by assumption) ?_
    | with_reducible refine NotifyWay_place (by assumption) ?_
    | with_reducible refine ForkWay_fails (by assumption) ?_
    | with_reducible refine ForkWay_wait (by assumption) ?_
    | with_reducible refine ForkWay_takes (by assumption) ?_

theorem keep_readLines (s : State) (a : Agent) (lines : List Nat) (h_s : KS wants fa fb s) : KP wants fa fb
      (State.readLines s a lines) := by
  unfold State.readLines
  repeat' first
    | with_reducible assumption
    | with_reducible apply keep_askRead
    | with_reducible apply keep_foldp
    | dsimp only [KS, KP]
    | split
    | intro _

theorem keep_watchStep (s : State) (a : Agent) (o : Op) (op : WatchOp) (table : Cap) (d p : Nat) (w : WatchLane)
      (h_s : KS wants fa fb s) : KP wants fa fb (State.watchStep s a o op table d p w) := by
  unfold State.watchStep
  repeat' first
    | with_reducible assumption
    | with_reducible apply keep_readLines
    | with_reducible apply keep_stepOn
    | with_reducible apply keep_obtain
    | with_reducible apply keep_wrote
    | with_reducible apply keep_fold
    | dsimp only [KS, KP]
    | split
    | intro _
    | with_reducible refine pair_fst (by assumption) ?_
    | with_reducible refine opt_some (by assumption) ?_

theorem keep_trapFor (s : State) (id : Nat) (t : Trap) (h_s : KS wants fa fb s) : KS wants fa fb (State.trapFor s
      id t) := by
  unfold State.trapFor
  repeat' first
    | with_reducible assumption
    | with_reducible apply keep_updAgent
    | with_reducible apply keep_focusOn
    | with_reducible apply keep_trapBeside
    | dsimp only [KS, KP]
    | split

theorem keep_execWatchStepCompletion (agent k : Nat) (s : State) (h_s : KS wants fa fb s) : KOut wants fa fb
      (execWatchStepCompletion agent k s) := by
  unfold execWatchStepCompletion
  repeat' first
    | with_reducible assumption
    | with_reducible apply mk_next
    | with_reducible apply keep_updAgent
    | with_reducible apply keep_trapFor
    | with_reducible apply keep_watchStep
    | dsimp only [KS, KP]
    | split
    | with_reducible refine pair_fst (by assumption) ?_

theorem keep_fetchWord (s : State) (lane : Bool) (c : Cap) (va : Nat) (h_s : KS wants fa fb s) : KFetched wants fa
      fb (State.fetchWord s lane c va) := by
  unfold State.fetchWord
  repeat' first
    | with_reducible assumption
    | with_reducible apply mkFetched_bits
    | with_reducible apply mkFetched_fault
    | with_reducible apply mkFetched_again
    | with_reducible apply keep_noteXlate
    | with_reducible apply keep_noteKey
    | with_reducible apply keep_firstTouch
    | with_reducible apply keep_stallAt
    | dsimp only [KS, KP]
    | split
    | with_reducible refine TouchRes_done (by assumption) ?_
    | with_reducible refine TouchRes_declined (by assumption) ?_
    | with_reducible refine TouchRes_wait (by assumption) ?_

theorem keep_fetchWords (s : State) (c : Cap) (va : Nat) (z0 : Nat) (h_s : KS wants fa fb s) : KFetched wants fa fb
      (State.fetchWords s c va z0) := by
  induction z0 generalizing s with
  | zero =>
    unfold State.fetchWords
    repeat' first
      | with_reducible assumption
      | with_reducible apply mkFetched_bits
  | succ n ih =>
    unfold State.fetchWords
    repeat' first
      | with_reducible assumption
      | with_reducible apply ih
      | with_reducible apply mkFetched_bits
      | with_reducible apply keep_fetchWord
      | dsimp only [KS, KP]
      | split
      | with_reducible refine Fetched_bits (by assumption) ?_

theorem keep_nextScalar (s : State) (h_s : KS wants fa fb s) : KP wants fa fb (State.nextScalar s) := by
  unfold State.nextScalar
  repeat' first
    | with_reducible assumption
    | with_reducible apply keep_trap
    | with_reducible apply keep_fetchWord
    | dsimp only [KS, KP]
    | split
    | with_reducible refine Fetched_bits (by assumption) ?_
    | with_reducible refine Fetched_fault (by assumption) ?_
    | with_reducible refine Fetched_again (by assumption) ?_

theorem keep_nextLaneBits (s : State) (h_s : KS wants fa fb s) : KP wants fa fb (State.nextLaneBits s) := by
  unfold State.nextLaneBits
  repeat' first
    | with_reducible assumption
    | with_reducible apply keep_trapBeside
    | with_reducible apply keep_fetchWords
    | dsimp only [KS, KP]
    | split
    | with_reducible refine Fetched_bits (by assumption) ?_
    | with_reducible refine Fetched_fault (by assumption) ?_
    | with_reducible refine Fetched_again (by assumption) ?_

theorem keep_leaveRegion (s : State) (h_s : KS wants fa fb s) : KS wants fa fb (State.leaveRegion s) := by
  unfold State.leaveRegion
  repeat' first
    | with_reducible assumption
    | dsimp only [KS, KP]
    | split

theorem keep_takeDue (s : State) (d : Due) (h_s : KS wants fa fb s) : KS wants fa fb (State.takeDue s d) := by
  unfold State.takeDue
  repeat' first
    | with_reducible assumption
    | with_reducible apply keep_trapBeside
    | with_reducible apply keep_trace
    | dsimp only [KS, KP]
    | split

theorem keep_onAgent (s : State) (id : Nat) (f : State → State) (h_s : KS wants fa fb s) (h_f : ∀ y0, KS wants fa
      fb y0 → KS wants fa fb (f y0)) : KS wants fa fb (State.onAgent s id f) := by
  unfold State.onAgent
  repeat' first
    | with_reducible assumption
    | with_reducible apply keep_focusOn
    | dsimp only [KS, KP]
    | split
    | apply h_f

theorem keep_dueFor (s : State) (id : Nat) (p : Due → Bool) (h_s : KS wants fa fb s) : KOut wants fa fb
      (State.dueFor s id p) := by
  unfold State.dueFor
  repeat' first
    | with_reducible assumption
    | with_reducible apply mk_next
    | with_reducible apply keep_onAgent
    | with_reducible apply keep_takeDue
    | dsimp only [KS, KP]
    | split
    | intro _

theorem keep_execLbrxRedirect (agent : Nat) (s : State) (h_s : KS wants fa fb s) : KOut wants fa fb
      (execLbrxRedirect agent s) := by
  unfold execLbrxRedirect
  repeat' first
    | with_reducible assumption
    | with_reducible apply keep_dueFor

theorem keep_execSingleStepTrap (agent : Nat) (s : State) (h_s : KS wants fa fb s) : KOut wants fa fb
      (execSingleStepTrap agent s) := by
  unfold execSingleStepTrap
  repeat' first
    | with_reducible assumption
    | with_reducible apply keep_dueFor

theorem keep_execInterruptTrap (agent : Nat) (s : State) (h_s : KS wants fa fb s) : KOut wants fa fb
      (execInterruptTrap agent s) := by
  unfold execInterruptTrap
  repeat' first
    | with_reducible assumption
    | with_reducible apply keep_dueFor

theorem keep_execEngineFaultDelivery (agent : Nat) (s : State) (h_s : KS wants fa fb s) : KOut wants fa fb
      (execEngineFaultDelivery agent s) := by
  unfold execEngineFaultDelivery
  repeat' first
    | with_reducible assumption
    | with_reducible apply keep_dueFor

theorem keep_execTcmpReached (agent : Nat) (s : State) (h_s : KS wants fa fb s) : KOut wants fa fb (execTcmpReached
      agent s) := by
  unfold execTcmpReached
  repeat' first
    | with_reducible assumption
    | with_reducible apply mk_next
    | with_reducible apply keep_updAgent

theorem keep_endWait (s : State) (h_s : KS wants fa fb s) : KS wants fa fb (State.endWait s) := by
  unfold State.endWait
  repeat' first
    | with_reducible assumption
    | with_reducible apply keep_tryArrive
    | with_reducible apply keep_yieldNow
    | dsimp only [KS, KP]
    | split

theorem keep_execYieldReactivation (agent : Nat) (s : State) (h_s : KS wants fa fb s) : KOut wants fa fb
      (execYieldReactivation agent s) := by
  unfold execYieldReactivation
  repeat' first
    | with_reducible assumption
    | with_reducible apply mk_next
    | with_reducible apply keep_updAgent

theorem keep_goOn (s : State) (h_s : KS wants fa fb s) : KS wants fa fb (State.goOn s) := by
  unfold State.goOn
  repeat' first
    | with_reducible assumption
    | with_reducible apply keep_advance
    | with_reducible apply keep_push
    | with_reducible apply keep_popQmat
    | dsimp only [KS, KP]
    | split

theorem keep_execPauseEnd (agent : Nat) (s : State) (h_s : KS wants fa fb s) : KOut wants fa fb (execPauseEnd agent
      s) := by
  unfold execPauseEnd
  repeat' first
    | with_reducible assumption
    | with_reducible apply mk_next
    | with_reducible apply keep_updAgent

theorem keep_execDlyExpiry (agent : Nat) (lane : Bool) (s : State) (h_s : KS wants fa fb s) : KOut wants fa fb
      (execDlyExpiry agent lane s) := by
  unfold execDlyExpiry
  repeat' first
    | with_reducible assumption
    | with_reducible apply mk_next
    | with_reducible apply keep_updAgent

theorem keep_execFixedLatencyWriteEffect (agent : Nat) (s : State) (h_s : KS wants fa fb s) : KOut wants fa fb
      (execFixedLatencyWriteEffect agent s) := by
  unfold execFixedLatencyWriteEffect
  repeat' first
    | with_reducible assumption
    | with_reducible apply mk_next
    | with_reducible apply keep_updAgent

theorem keep_take (s : State) (lane : Bool) (h_s : KS wants fa fb s) : KS wants fa fb (State.take s lane) := by
  unfold State.take
  repeat' first
    | with_reducible assumption
    | with_reducible apply keep_updAll
    | dsimp only [KS, KP]
    | split

theorem keep_execIssueChoice (die core part : Nat) (s : State) (h_s : KS wants fa fb s) : KOut wants fa fb
      (execIssueChoice die core part s) := by
  unfold execIssueChoice
  repeat' first
    | with_reducible assumption
    | with_reducible apply mk_next

theorem keep_execStarvationPromotion (agent : Nat) (lane : Bool) (s : State) (h_s : KS wants fa fb s) : KOut wants
      fa fb (execStarvationPromotion agent lane s) := by
  unfold execStarvationPromotion
  repeat' first
    | with_reducible assumption
    | with_reducible apply mk_next
    | with_reducible apply keep_updAgent

theorem keep_execWtokComplete (agent : Nat) (s : State) (h_s : KS wants fa fb s) : KOut wants fa fb
      (execWtokComplete agent s) := by
  unfold execWtokComplete
  repeat' first
    | with_reducible assumption
    | with_reducible apply mk_next
    | with_reducible apply keep_onAgent
    | with_reducible apply keep_take
    | with_reducible apply keep_goOn
    | with_reducible apply keep_endWait
    | dsimp only [KS, KP]
    | split
    | intro _

theorem keep_execQueueBlockEnd (agent : Nat) (s : State) (h_s : KS wants fa fb s) : KOut wants fa fb
      (execQueueBlockEnd agent s) := by
  unfold execQueueBlockEnd
  repeat' first
    | with_reducible assumption
    | with_reducible apply mk_next
    | with_reducible apply keep_onAgent
    | with_reducible apply keep_take
    | with_reducible apply keep_goOn
    | dsimp only [KS, KP]
    | split
    | intro _

theorem keep_nextClk (s : State) (h_s : KS wants fa fb s) : KS wants fa fb (State.nextClk s) := by
  unfold State.nextClk
  repeat' first
    | with_reducible assumption
    | with_reducible apply keep_updAll

end Sys2Proof.Laws.Keep
end

