-- ==== Sys2Proof/Laws/KeepRun.lean ====
section
/-!
SUPPORT. What the parts of a step around the meaning keep: the form of memory and the fuses (see KeepBase).
-/

namespace Sys2Proof.Laws.Keep

open Machine

variable {wants : Prop} {fa fb : Nat}

theorem keep_beginIssue (s : State) (h_s : KS wants fa fb s) : KS wants fa fb (State.beginIssue s) := by
  unfold State.beginIssue
  repeat' first
    | with_reducible assumption
    | with_reducible apply keep_sweepFocus
    | with_reducible apply keep_leaveRegion

theorem keep_starting (s : State) (lane : Bool) (h_s : KS wants fa fb s) : KS wants fa fb (State.starting s lane)
      := by
  unfold State.starting
  repeat' first
    | with_reducible assumption

theorem keep_afterScalar (before after : State) (h_before : KS wants fa fb before) (h_after : KS wants fa fb after)
      : KS wants fa fb (State.afterScalar before after) := by
  unfold State.afterScalar
  repeat' first
    | with_reducible assumption
    | dsimp only [KS, KP]
    | split

theorem keep_claimPartition (s : State) (h_s : KS wants fa fb s) : KS wants fa fb (State.claimPartition s) := by
  unfold State.claimPartition
  repeat' first
    | with_reducible assumption

theorem keep_afterLane (before after : State) (h_before : KS wants fa fb before) (h_after : KS wants fa fb after) :
      KS wants fa fb (State.afterLane before after) := by
  unfold State.afterLane
  repeat' first
    | with_reducible assumption
    | with_reducible apply keep_claimPartition
    | dsimp only [KS, KP]
    | split

theorem keep_andThen (o : Out) (f : State → State) (h_o : KOut wants fa fb o) (h_f : ∀ y0, KS wants fa fb y0 → KS
      wants fa fb (f y0)) : KOut wants fa fb (andThen o f) := by
  unfold andThen
  split
  · exact h_f _ h_o
  · exact h_o
  · exact h_o

theorem keep_coverFocus (s : State) (h_s : KS wants fa fb s) : KS wants fa fb (State.coverFocus s) := by
  unfold State.coverFocus
  repeat' first
    | with_reducible assumption
    | dsimp only [KS, KP]
    | split

end Sys2Proof.Laws.Keep
end

