-- ==== Sys2Proof/Laws/Landing.lean ====
section
/-!
SUPPORT. What the landing of an operation writes, and what it leaves.
-/

namespace Sys2Proof.Laws

open Machine Claims

theorem put_other (a : Agent) {l l' : Loc} (v : Word) (hp : Placed l) (hp' : Placed l') (h : l' ∉ l.touched) (he : l' ≠ .em)  :
    (a.put l v).raw l' = a.raw l' := by
  cases l with
  | s n => exact raw_put_other a v rfl h
  | ct q => exact raw_put_other a v rfl h
  | v r k =>
    cases l' <;> try rfl
    · rename_i r' k'
      simp only [Loc.touched, List.mem_cons, Loc.v.injEq, reduceCtorEq, List.not_mem_nil, or_false] at h
      simp only [Placed] at hp hp'
      simp only [Agent.put, Agent.raw]
      rw [sget_sput_ne]
      omega
    · rename_i q' k'
      simp only [Loc.touched, List.mem_cons, Loc.vt.injEq, reduceCtorEq, List.not_mem_nil, or_false, false_or] at h
      simp only [Placed] at hp hp'
      simp only [Agent.put, Agent.raw]
      by_cases hq : q' = r / 4
      · subst hq
        rw [sget_sput_same, getLsbD_setBitTo]
        simp only [true_and, true_and] at h
        rw [if_neg (by omega)]
      · rw [sget_sput_ne _ _ _ hq]
  | vt q k =>
    cases l' <;> try rfl
    rename_i q' k'
    simp only [Loc.touched, List.mem_cons, Loc.vt.injEq, List.not_mem_nil, or_false] at h
    simp only [Agent.put, Agent.raw]
    by_cases hq : q' = q
    · subst hq
      rw [sget_sput_same, getLsbD_setBitTo, if_neg (by omega)]
    · rw [sget_sput_ne _ _ _ hq]
  | p n k =>
    simp only [Agent.put]
    split
    · rfl
    cases l' <;> try rfl
    rename_i n' k'
    simp only [Loc.touched, List.mem_cons, Loc.p.injEq, List.not_mem_nil, or_false] at h
    simp only [Agent.raw]
    split
    · rfl
    by_cases hq : n' = n
    · subst hq
      rw [sget_sput_same, getLsbD_setBitTo, if_neg (by omega)]
    · rw [sget_sput_ne _ _ _ hq]
  | em => cases l' <;> simp_all [Agent.put, Agent.raw, Loc.touched]
  | lm => cases l' <;> simp_all [Agent.put, Agent.raw, Loc.touched]
  | fsr => cases l' <;> simp_all [Agent.put, Agent.raw, Loc.touched]
  | mxc => cases l' <;> simp_all [Agent.put, Agent.raw, Loc.touched]

theorem put_same (a : Agent) {l : Loc} (v : Word) (hp : Placed l) (h : Plainly l)  :
    (a.put l v).raw l = if l.fixed then a.raw l else keptWord l v := by
  cases l with
  | s n => exact raw_put_s a n v
  | v r k => simp [Agent.put, Agent.raw, Loc.fixed, keptWord, sget_sput_same]
  | p n k =>
    simp only [Placed] at hp
    by_cases hn : n = 0
    · simp [Agent.put, Agent.raw, Loc.fixed, hn]
    · simp only [Agent.put, if_neg hn, Agent.raw, Loc.fixed, keptWord, sget_sput_same, getLsbD_setBitTo, hp]
      by_cases hv : v = 0 <;> simp [hn, hv, bit01]
  | ct n =>
    simp only [Placed] at hp
    by_cases hn : n = 0
    · simp [Agent.put, Agent.raw, Loc.fixed, hn]
    · simp only [Agent.put, if_neg hn, Agent.raw, Loc.fixed, keptWord, getLsbD_setBitTo, hp]
      by_cases hv : v = 0 <;> simp [hn, hv, bit01]
  | vt n k =>
    simp only [Placed] at hp
    simp only [Agent.put, Agent.raw, Loc.fixed, keptWord, sget_sput_same, getLsbD_setBitTo, hp]
    by_cases hv : v = 0 <;> simp [hv, bit01]
  | em => simp [Plainly] at h
  | lm => simp [Plainly] at h
  | fsr => simp [Plainly] at h
  | mxc => simp [Plainly] at h

theorem put_outst (a : Agent) (l : Loc) (v : Word) : (a.put l v).outst = a.outst := by
  cases l <;> simp only [Agent.put] <;> first | rfl | (split <;> rfl)

theorem put_fsr (a : Agent) (l : Loc) (v : Word) : (a.put l v).fsr = if l = .fsr then a.fsr ||| v else a.fsr := by
  cases l <;> simp only [Agent.put] <;> first | rfl | (split <;> simp)

/-- One result lands. -/
def landStep (n : Nat) (b : Agent) (w : Loc × Word) : Agent :=
  ({ b with
    outst := (b.supersede n w.1).outst
    pend := b.pend.filter fun p => !(p.seq < n && w.1.touched.contains p.loc) }).put w.1 w.2

theorem put_gov (a : Agent) (g : List Gov) (l : Loc) (v : Word) : ({ a with gov := g } : Agent).put l v = { a.put l v with gov := g } := by
  cases l <;> simp only [Agent.put] <;> first | rfl | (split <;> rfl)

theorem landStep_files (n a w) : landStep n a w = withFiles a (landStep n a w) := by
  unfold landStep
  exact withFiles_trans rfl (put_files _ _ _)

theorem landStep_raw (n a w) : ∃ b : Agent, landStep n a w = b.put w.1 w.2 ∧ (∀ l, b.raw l = a.raw l) ∧ b.fsr = a.fsr
   ∧ ∃ f : Op → Op, b.outst = a.outst.map f ∧ ∀ x, (f x).num = x.num := by
  refine ⟨_, rfl, ?_, ?_, ?_⟩
  · intro l
    cases l <;> rfl
  · rfl
  · show ∃ f : Op → Op, (a.supersede n w.1).outst = _ ∧ _
    unfold Agent.supersede
    split
    · exact ⟨id, by simp, fun _ => rfl⟩
    · refine ⟨_, rfl, ?_⟩
      intro x
      split <;> rfl

theorem landFold (n) (ws : List (Loc × Word)) (a : Agent) (hp : ∀ w ∈ ws, Placed w.1) :
    let b := ws.foldl (landStep n) a
    b = withFiles a b ∧ (∀ x ∈ b.outst, ∃ y ∈ a.outst, y.num = x.num)
    ∧ (∀ l, Placed l → l ∉ ws.flatMap (fun w => w.1.touched) → l ≠ .em → b.raw l = a.raw l)
    ∧ b.fsr = (ws.filter fun w => w.1 = .fsr).foldl (fun f w => f ||| w.2) a.fsr := by
  induction ws generalizing a with
  | nil => exact ⟨rfl, fun x hx => ⟨x, hx, rfl⟩, fun _ _ _ _ => rfl, rfl⟩
  | cons w ws ih =>
    obtain ⟨b, h1, h2, h3, f, h4, h5⟩ := landStep_raw n a w
    obtain ⟨i1, i2, i3, i4⟩ := ih (landStep n a w) (fun x hx => hp x (by simp [hx]))
    refine ⟨withFiles_trans (landStep_files _ _ _) i1, ?_, ?_, ?_⟩
    · intro x hx
      obtain ⟨y, hy, e⟩ := i2 x hx
      rw [h1, put_outst, h4] at hy
      obtain ⟨z, hz, rfl⟩ := List.mem_map.1 hy
      exact ⟨z, hz, by rw [← e, h5]⟩
    · intro l hl hn he
      rw [List.flatMap_cons, List.mem_append, not_or] at hn
      rw [List.foldl_cons, i3 l hl hn.2 he, h1, put_other _ _ (hp w (by simp)) hl hn.1 he, h2]
    · rw [List.foldl_cons, i4, h1, put_fsr, h3, List.filter_cons]
      by_cases h : w.1 = .fsr <;> simp [h]

theorem land_eq (a : Agent) (n tk lane dead ws) :
    ∃ g, a.land n tk lane dead ws = { (ws.filter fun w => !dead.contains w.1).foldl (landStep n) a with gov := g } :=
  ⟨_, rfl⟩

theorem tok_postOpt (a : Agent) (tk : Option Nat) (n : Nat) : (a.post tk).tok n = a.tok n + if tk = some n then 1 else 0 := by
  cases tk with
  | none => simp [Agent.post]
  | some k =>
  show ((a.setTok k (a.tok k + 1))).tok n = _
  unfold Agent.setTok Agent.tok
  by_cases hk : k = 16
  · subst hk
    by_cases hn : n = 16
    · subst hn; simp
    · have : ¬ 16 = n := fun h => hn h.symm
      simp [hn, this]
  · by_cases hn : n = 16
    · subst hn; simp [hk]
    · by_cases e : k = n
      · subst e; simp [hk, sget_sput_same]
      · have : n ≠ k := fun h => e h.symm
        simp [hk, hn, sget_sput_ne _ _ _ this, e]

theorem post_same (a : Agent) (tk : Option Nat) : a.post tk = { a with
    toks := (a.post tk).toks
    ktk := (a.post tk).ktk
    sinks := (a.post tk).sinks } := by
  cases tk with
  | none => rfl
  | some k =>
    unfold Agent.post Agent.setTok
    dsimp only
    by_cases h : k = 16 <;> simp only [h, if_true, if_false]

theorem finishOp_lands (a : Agent) (o : Op) (ws : List (Loc × Word)) (ho : a.op? o.num = some o) (hp : ∀ w ∈ ws, Placed w.1) :
    Lands a (a.finishOp o.num ws) o ws := by
  unfold Agent.finishOp
  rw [ho]
  dsimp only
  obtain ⟨c, hc⟩ : ∃ c : Agent, c = { a with outst := a.outst.filter fun x => x.num != o.num } := ⟨_, rfl⟩
  rw [← hc]
  obtain ⟨g, hg⟩ := land_eq c o.num o.tk o.lane o.dead ws
  rw [hg]
  obtain ⟨vs, hv⟩ : ∃ vs, vs = ws.filter fun w => !o.dead.contains w.1 := ⟨_, rfl⟩
  rw [← hv]
  have hpv : ∀ w ∈ vs, Placed w.1 := by
    intro w hw
    rw [hv] at hw
    exact hp w (List.mem_filter.1 hw).1
  obtain ⟨h1, h2, h3, h4⟩ := landFold o.num vs c hpv
  obtain ⟨d0, hd⟩ : ∃ d : Agent, d = vs.foldl (landStep o.num) c := ⟨_, rfl⟩
  rw [← hd] at h1 h2 h3 h4 ⊢
  obtain ⟨d, hd0⟩ : ∃ d : Agent, d = { d0 with gov := g } := ⟨_, rfl⟩
  have k1 : d = withFiles c d := by
    rw [hd0, h1]
    rfl
  have k0 : ∀ l, d.raw l = d0.raw l := by
    intro l
    rw [hd0]
    cases l <;> rfl
  have k2 : d.outst = d0.outst := by rw [hd0]
  have k3 : d.fsr = d0.fsr := by rw [hd0]
  rw [← hd0]
  have hraw : ∀ l, (d.post o.tk).raw l = d0.raw l := by
    intro l
    rw [post_same, ← k0]
    cases l <;> rfl
  have hcr : ∀ l, c.raw l = a.raw l := by
    intro l
    rw [hc]
    cases l <;> rfl
  refine ⟨?_, ?_, ?_, ?_, ?_, ?_⟩
  · rw [post_same, k1, hc]
    rfl
  · intro x hx
    rw [post_same, show ({ d with toks := (d.post o.tk).toks, ktk := (d.post o.tk).ktk, sinks := (d.post o.tk).sinks } : Agent).outst
      = d0.outst from k2] at hx
    obtain ⟨y, hy, e⟩ := h2 x hx
    rw [hc] at hy
    have := (List.mem_filter.1 hy).2
    rw [← e]
    simpa using this
  · intro n
    rw [tok_postOpt]
    have : d.tok n = a.tok n := by
      rw [k1, hc]
      rfl
    rw [this]
  · intro l hl hn he
    rw [hraw, h3 l hl ?_ he, hcr]
    intro hm
    apply hn
    rw [List.mem_flatMap] at hm ⊢
    obtain ⟨w, hw, hm⟩ := hm
    rw [hv] at hw
    exact ⟨w, (List.mem_filter.1 hw).1, hm⟩
  · intro xs w ys hw hdead hpl hys
    rw [hraw]
    have hvs : vs = (xs.filter fun w => !o.dead.contains w.1) ++ w :: ys.filter fun w => !o.dead.contains w.1 := by
      rw [hv, hw, List.filter_append, List.filter_cons_of_pos]
      simpa using hdead
    rw [hd, hvs, List.foldl_append, List.foldl_cons]
    obtain ⟨e, he⟩ : ∃ e : Agent, e = (xs.filter fun w => !o.dead.contains w.1).foldl (landStep o.num) c := ⟨_, rfl⟩
    rw [← he]
    obtain ⟨b, k1, k2, k3, -⟩ := landStep_raw o.num e w
    have hwp : Placed w.1 := hp w (by rw [hw]; simp)
    have hem : w.1 ≠ .em := hpl.1
    obtain ⟨-, -, m3, -⟩ := landFold o.num (ys.filter fun w => !o.dead.contains w.1) (landStep o.num e w)
      (by intro x hx; exact hp x (by rw [hw]; have := (List.mem_filter.1 hx).1; simp [this]))
    rw [m3 w.1 hwp ?_ hem, k1, put_same _ _ hwp hpl, k2]
    · by_cases hf : w.1.fixed = true
      · rw [if_pos hf, if_pos hf]
        exact raw_fixed e a w.1 hf
      · rw [if_neg hf, if_neg hf]
    · intro hm
      rw [List.mem_flatMap] at hm
      obtain ⟨y, hy, hm⟩ := hm
      exact hys y (List.mem_filter.1 hy).1 hm
  · intro hdead
    have : (d.post o.tk).fsr = d0.fsr := by rw [post_same]; exact k3
    rw [this, h4, hv, List.filter_filter]
    have e1 : (ws.filter fun w => decide (w.1 = .fsr) && !o.dead.contains w.1) = ws.filter fun w => w.1 = .fsr := by
      apply List.filter_congr
      intro x _
      by_cases hx : x.1 = .fsr
      · rw [hx]; simpa using hdead
      · simp [hx]
    rw [e1, hc]

/-- Reads where no early write is seen come from memory. -/
theorem overlay_clear {s : State} {y : Seat} (h : ∀ e ∈ s.coh.early, e.sees y = false) (owner : Nat) (p : Place)
    (bs : List Byte) : s.overlay y owner p bs = bs := by
  have hs : s.seen y = [] := by
    unfold State.seen
    rw [List.filter_eq_nil_iff]
    intro e he
    rw [h e he]
    simp
  unfold State.overlay
  rw [hs]
  rfl

theorem numberAt_see {s : State} {a : Agent} {x p n} {g : Nat} (h : ∀ e ∈ s.coh.early, e.sees a.seat = false)
    (hg : s.keyGen x = some g) (hc : ∀ i < n, sget 1 s.cipher ((p + i) / 128) = g) :
    ofBytesLE (s.seeAs a x p n) = numberAt s.mem p n := by
  unfold State.seeAs State.seeBytes
  rw [overlay_clear h, hg]
  dsimp only
  rw [ofBytesLE_sum]
  unfold numberAt
  congr 1
  apply List.map_congr_left
  intro i hi
  rw [if_pos (hc i (List.mem_range.1 hi))]

theorem putBytes_key {s : State} {x p} {bs : List Byte} {g : Nat} (hg : s.keyGen x = some g)
    (hc : ∀ i < bs.length, sget 1 s.cipher ((p + i) / 128) = g) :
    s.putBytes x p bs = { s with mem := writeBytes s.mem p bs, tags := clearTags s.tags p bs.length } := by
  unfold State.putBytes
  rw [hg]
  dsimp only
  rw [if_pos]
  rw [List.all_eq_true]
  intro i hi
  simp [hc i (List.mem_range.1 hi)]

theorem byteOf_eq (v i : Nat) : (BitVec.ofNat 8 (v / 256 ^ i)) = byteOf v i := rfl

theorem stored_mem (s : State) (p n v : Nat) (hn : n ≠ 0) (t : State)
    (hm : t.mem = writeBytes s.mem p (bytesLE n v)) (ht : t.tags = clearTags s.tags p n) : Stored s t p n v false := by
  refine ⟨?_, ?_, ?_, ?_⟩
  · intro i hi
    rw [hm, readByte_writeBytes_in _ _ _ i (by rw [bytesLE_length]; exact hi), bytesLE_getElem _ _ _ hi]
    rfl
  · intro q hq
    rw [hm, readByte_writeBytes_out]
    rw [bytesLE_length]
    exact hq
  · intro q hq
    unfold State.tagAt
    rw [ht, inSet_clearTags _ _ _ _ hn, if_neg (by omega)]
  · intro q h1 h2
    unfold State.tagAt
    rw [ht, inSet_clearTags _ _ _ _ hn, if_pos ⟨h1, h2⟩]

theorem stored_cap (s : State) (p v : Nat) (ha : p % 16 = 0) (tag : Bool) (t : State)
    (hm : t.mem = writeBytes s.mem p (bytesLE 16 v)) (ht : t.tags = if tag then addSet (clearTags s.tags p 16) (p / 16) else clearTags s.tags p 16) : Stored s t p 16 v tag := by
  refine ⟨?_, ?_, ?_, ?_⟩
  · intro i hi
    rw [hm, readByte_writeBytes_in _ _ _ i (by rw [bytesLE_length]; exact hi), bytesLE_getElem _ _ _ hi]
    rfl
  · intro q hq
    rw [hm, readByte_writeBytes_out]
    rw [bytesLE_length]
    exact hq
  · intro q hq
    unfold State.tagAt
    rw [ht]
    cases tag
    · rw [if_neg (by simp), inSet_clearTags _ _ _ _ (by omega), if_neg (by omega)]
    · rw [if_pos rfl, inSet_addSet, if_neg (by omega), inSet_clearTags _ _ _ _ (by omega), if_neg (by omega)]
  · intro q h1 h2
    unfold State.tagAt
    rw [ht]
    cases tag
    · rw [if_neg (by simp), inSet_clearTags _ _ _ _ (by omega), if_pos ⟨h1, h2⟩]
    · rw [if_pos rfl, inSet_addSet, if_pos (by omega)]

theorem bytesLE_mod (n v : Nat) : bytesLE n (v % 2 ^ (8 * n)) = bytesLE n v := by
  induction n generalizing v with
  | zero => rfl
  | succ n ih =>
    rw [bytesLE, bytesLE]
    have h1 : v % 2 ^ (8 * (n + 1)) / 256 = v / 256 % 2 ^ (8 * n) := by
      rw [show 8 * (n + 1) = 8 + 8 * n by omega, Nat.pow_add, Nat.mod_mul_right_div_self]
    have h2 : BitVec.ofNat 8 (v % 2 ^ (8 * (n + 1))) = BitVec.ofNat 8 v := by
      apply BitVec.eq_of_toNat_eq
      simp only [BitVec.toNat_ofNat]
      rw [show 8 * (n + 1) = 8 + 8 * n by omega, Nat.pow_add, Nat.mod_mul_right_mod]
    rw [h1, h2, ih]

theorem not_window {p : Nat} (h : isDram p = true) : isWindow p = false ∧ isPeer p = false := by
  unfold isDram isHbm isLpd at h
  unfold isWindow isPeer
  simp only [Bool.or_eq_true, decide_eq_true_eq, Bool.and_eq_true] at h
  constructor <;> simp <;> omega

theorem number_lt (m : List Host.Cell) (p n : Nat) : numberAt m p n < 256 ^ n := by
  unfold numberAt
  rw [← ofBytesLE_sum]
  have := ofBytesLE_lt ((List.range n).map fun i => readByte m (p + i))
  simpa using this

theorem lo64 (v : Nat) : (BitVec.ofNat 64 v).extractLsb' 0 32 = BitVec.ofNat 32 v := by
  apply BitVec.eq_of_toNat_eq
  simp

theorem loSign (w v : Nat) : ((BitVec.ofNat w v).signExtend 64).extractLsb' 0 32 = (BitVec.ofNat w v).signExtend 32 := by
  ext i hi
  rw [BitVec.getElem_extractLsb', BitVec.getElem_signExtend, BitVec.getLsbD_signExtend]
  have : 0 + i < 64 := by omega
  simp [this]
  split <;> simp_all

theorem stored_congr {s t u : State} {p n v tag} (h : Stored s t p n v tag) (h1 : u.mem = t.mem) (h2 : u.tags = t.tags) : Stored s u p n v tag := by
  unfold Stored State.tagAt at *
  rw [h1, h2]
  exact h

theorem unstored_congr {s t u : State} (h : Unstored s t) (h1 : u.mem = t.mem) (h2 : u.tags = t.tags) : Unstored s u := by
  unfold Unstored State.tagAt at *
  rw [h1, h2]
  exact h

theorem wrote_eq (s : State) (d l t) : s.wrote d l t = { s with coh := (s.wrote d l t).coh } := by
  unfold State.wrote
  dsimp only
  split
  · rfl
  · split
    · split <;> rfl
    · rfl

theorem readPhys4 {s t : State} {p n e : Nat} (ho : ∀ q, (q < p ∨ p + n ≤ q) → readByte t.mem q = readByte s.mem q)
    (he : e + 4 ≤ p ∨ p + n ≤ e) : t.readPhys e 4 = s.readPhys e 4 := by
  unfold State.readPhys readNat readBytes readBytes readBytes readBytes readBytes
  rw [ho e (by omega), ho (e + 1) (by omega), ho (e + 1 + 1) (by omega), ho (e + 1 + 1 + 1) (by omega)]

theorem sweepDead_none {s : State} (h : ∀ e ∈ s.eps, s.epDead e.pa = false) : s.sweepDead = s := by
  unfold State.sweepDead
  have : (s.eps.filter fun e => s.epDead e.pa) = [] := by
    rw [List.filter_eq_nil_iff]
    intro e he
    rw [h e he]
    simp
  rw [this]
  rfl

theorem lines_one {s : State} {a : Agent} {o : Op} {x : Acc} {p n : Nat} {st ws} (h : Lone s a o x p n)
    (hp : Performs s p x o.kind n st ws) : o.lines = [p / 128] ∧ ∃ op ty d ro, o.kind = .mem op ty d [x] ro := by
  have hk : ∃ op ty d ro, o.kind = .mem op ty d [x] ro := by
    generalize o.kind = k at hp
    cases hp <;> exact ⟨_, _, _, _, rfl⟩
  refine ⟨?_, hk⟩
  obtain ⟨op, ty, d, ro, hk⟩ := hk
  unfold Op.lines Op.spans
  rw [hk]
  dsimp only
  rw [List.filter_cons_of_pos (by simpa using h.here)]
  simp only [List.filter_nil, List.map_cons, List.map_nil, List.filterMap_cons, List.filterMap_nil, h.place, h.dram, if_true]
  rfl

theorem lands_sinks {a c b : Agent} {o ws} (hc : c = { a with sinks := c.sinks }) (h : Lands c b o ws) : Lands a b o ws := by
  obtain ⟨h1, h2, h3, h4, h5, h6⟩ := h
  have hr : ∀ l, c.raw l = a.raw l := by
    intro l; rw [hc]; cases l <;> rfl
  refine ⟨?_, h2, ?_, ?_, ?_, ?_⟩
  · rw [h1, hc]
  · intro n; rw [h3, hc]; rfl
  · intro l a1 a2 a3; rw [h4 l a1 a2 a3, hr]
  · intro xs w ys a1 a2 a3 a4; rw [h5 xs w ys a1 a2 a3 a4, hr]
  · intro hd; rw [h6 hd, hc]

theorem op_mem {a : Agent} {k : Nat} {o : Op} (h : a.op? k = some o) : o ∈ a.outst ∧ o.num = k := by
  unfold Agent.op? at h
  exact ⟨List.mem_of_find?_eq_some h, by simpa using List.find?_some h⟩

/-! ### Deliveries -/

/-- A relation that a list keeps in order, its zip keeps too. -/
theorem zip_pairwise {β : Type} (R : Nat → Nat → Prop) : ∀ (l : List Nat) (ws : List β), l.Pairwise R →
    (l.zip ws).Pairwise (fun x y => R x.1 y.1)
  | [], _, _ => by simp
  | _ :: _, [], _ => by simp
  | x :: l, w :: ws, h => by
    have h := List.pairwise_cons.mp h
    rw [List.zip_cons_cons, List.pairwise_cons]
    exact ⟨fun y hy => h.1 _ (List.of_mem_zip hy).1, zip_pairwise R l ws h.2⟩

/-- A relation that holds in each list and between any two of them holds in their join. -/
theorem flatten_pairwise {β : Type} (R : β → β → Prop) : ∀ (l : List (List β)), (∀ x ∈ l, x.Pairwise R) →
    l.Pairwise (fun x y => ∀ a ∈ x, ∀ b ∈ y, R a b) → l.flatten.Pairwise R
  | [], _, _ => by simp
  | x :: l, h1, h2 => by
    have h2 := List.pairwise_cons.mp h2
    rw [List.flatten_cons, List.pairwise_append]
    refine ⟨h1 x (by simp), flatten_pairwise R l (fun y hy => h1 y (by simp [hy])) h2.2, ?_⟩
    intro a ha b hb
    obtain ⟨y, hy, hb⟩ := List.mem_flatten.mp hb
    exact h2.1 y hy a ha b hb

/-- A result that stands as written in a place of its own: a scalar register or a tag that is not wired. -/
def StandsAs (w : Loc × Word) : Prop :=
  scalarLoc w.1 = true ∧ Placed w.1 ∧ Plainly w.1 ∧ w.1.fixed = false ∧ keptWord w.1 w.2 = w.2

/-- The places of a capability's words and of its tag. -/
theorem cap_places {q : Nat} {c : Cap} {w : Loc × Word} (h : w ∈ capWrites q c) :
    (∃ k, k < 4 ∧ w.1 = .s (4 * q + k)) ∨ (w.1 = .ct q ∧ (w.2 = 0 ∨ w.2 = 1)) := by
  simp only [capWrites, List.mem_cons, List.not_mem_nil, or_false] at h
  rcases h with rfl | rfl | rfl | rfl | rfl
  · exact .inl ⟨0, by omega, rfl⟩
  · exact .inl ⟨1, by omega, rfl⟩
  · exact .inl ⟨2, by omega, rfl⟩
  · exact .inl ⟨3, by omega, rfl⟩
  · right
    refine ⟨rfl, ?_⟩
    cases c.tag <;> simp [bit01]

/-- A scalar register but s0 to s3. -/
theorem stands_s (n : Nat) (v : Word) (h : 4 ≤ n) : StandsAs (.s n, v) := by
  refine ⟨rfl, trivial, by simp [Plainly], ?_, rfl⟩
  simp [Loc.fixed]; omega

/-- The tag of a quad but the first. -/
theorem stands_ct (q : Nat) (v : Word) (h : 0 < q) (h4 : q < 40) (hv : v = 0 ∨ v = 1) : StandsAs (.ct q, v) := by
  refine ⟨rfl, h4, by simp [Plainly], ?_, ?_⟩
  · simp [Loc.fixed]; omega
  · rcases hv with rfl | rfl <;> rfl

/-- Each register that a delivery writes holds what is written (04 R100). -/
theorem message_good (m : Message) (d : Nat) : ∀ w ∈ m.writes d, StandsAs w := by
  intro w hw
  simp only [Message.writes, messageWrites, List.mem_append, List.mem_map, List.mem_flatten, List.mem_cons,
    List.not_mem_nil, or_false] at hw
  rcases hw with (⟨e, he, rfl⟩ | ⟨l, ⟨e, he, rfl⟩, hw⟩) | rfl | rfl
  · exact stands_s _ _ (by omega)
  · have := List.mem_range.mp (List.of_mem_zip he).1
    obtain ⟨k, hk, h⟩ | ⟨h, hv⟩ := cap_places hw
    · obtain ⟨a, b⟩ := w
      subst h
      exact stands_s _ _ (by omega)
    · obtain ⟨a, b⟩ := w
      subst h
      exact stands_ct _ _ (by omega) (by omega) hv
  · exact stands_s _ _ (by omega)
  · exact stands_s _ _ (by omega)

/-- No later write of a delivery changes an earlier one's place. -/
theorem message_pairwise (m : Message) (d : Nat) : (m.writes d).Pairwise fun w x => w.1 ∉ x.1.touched := by
  have base : ((List.range 16).zip m.words).Pairwise fun x y => x.1 < y.1 := zip_pairwise _ _ _ (by decide)
  have caps : ((List.range 4).zip m.caps).Pairwise fun x y => x.1 < y.1 := zip_pairwise _ _ _ (by decide)
  unfold Message.writes messageWrites
  rw [List.pairwise_append, List.pairwise_append]
  refine ⟨⟨?_, ?_, ?_⟩, ?_, ?_⟩
  · rw [List.pairwise_map]
    refine base.imp ?_
    intro a b h
    simp [Loc.touched]
    omega
  · apply flatten_pairwise
    · intro x hx
      obtain ⟨e, -, rfl⟩ := List.mem_map.mp hx
      simp [capWrites, Loc.touched]
    · rw [List.pairwise_map]
      refine caps.imp ?_
      intro a b h x hx y hy
      obtain ⟨k, hk, hx⟩ | ⟨hx, -⟩ := cap_places hx <;> obtain ⟨j, hj, hy⟩ | ⟨hy, -⟩ := cap_places hy <;>
        rw [hx, hy] <;> simp [Loc.touched] <;> omega
  · intro a ha b hb
    obtain ⟨e, he, rfl⟩ := List.mem_map.mp ha
    obtain ⟨l, hl, hb⟩ := List.mem_flatten.mp hb
    obtain ⟨f, hf, rfl⟩ := List.mem_map.mp hl
    have := List.mem_range.mp (List.of_mem_zip he).1
    obtain ⟨j, hj, hy⟩ | ⟨hy, -⟩ := cap_places hb <;> rw [hy] <;> simp [Loc.touched] <;> omega
  · simp [Loc.touched]
  · intro a ha b hb
    have hb : b.1 = .s 15 ∨ b.1 = .s 12 := by
      simp only [List.mem_cons, List.not_mem_nil, or_false] at hb
      rcases hb with rfl | rfl <;> simp
    have ha : (∃ n, 16 ≤ n ∧ a.1 = .s n) ∨ ∃ q, 8 ≤ q ∧ a.1 = .ct q := by
      rcases List.mem_append.mp ha with ha | ha
      · obtain ⟨e, he, rfl⟩ := List.mem_map.mp ha
        exact .inl ⟨_, by omega, rfl⟩
      · obtain ⟨l, hl, ha⟩ := List.mem_flatten.mp ha
        obtain ⟨f, hf, rfl⟩ := List.mem_map.mp hl
        obtain ⟨k, hk, h⟩ | ⟨h, -⟩ := cap_places ha
        · exact .inl ⟨_, by omega, h⟩
        · exact .inr ⟨_, by omega, h⟩
    rcases ha with ⟨n, hn, h⟩ | ⟨n, hn, h⟩ <;> rcases hb with hb | hb <;> rw [h, hb] <;> simp [Loc.touched] <;> omega

/-- Results that are good, each in a place that no later one touches, stand once they have landed. -/
theorem land_good (n : Nat) (a : Agent) (ws : List (Loc × Word)) (hg : ∀ w ∈ ws, StandsAs w)
    (ho : ws.Pairwise fun w x => w.1 ∉ x.1.touched) : ∀ w ∈ ws, (ws.foldl (landStep n) a).raw w.1 = w.2 := by
  induction ws generalizing a with
  | nil => simp
  | cons x ws ih =>
    intro w hw
    have hp := List.pairwise_cons.mp ho
    rcases List.mem_cons.mp hw with rfl | hw
    · obtain ⟨-, -, i3, -⟩ := landFold n ws (landStep n a w) (fun y hy => (hg y (by simp [hy])).2.1)
      have hx := hg w (by simp)
      have : w.1 ∉ ws.flatMap fun y => y.1.touched := by
        simp only [List.mem_flatMap, not_exists, not_and]
        exact fun y hy => hp.1 y hy
      rw [List.foldl_cons, i3 _ hx.2.1 this hx.2.2.1.1]
      obtain ⟨b, h1, -⟩ := landStep_raw n a w
      rw [h1, put_same _ _ hx.2.1 hx.2.2.1, hx.2.2.2.1, hx.2.2.2.2]
      rfl
    · exact ih _ (fun y hy => hg y (by simp [hy])) hp.2 w hw

/-- The same of a receive that has its answer at issue. -/
theorem brought_good (x : Agent) (tk : Option Nat) (ws : List (Loc × Word)) (c : Option Caller) (hg : ∀ w ∈ ws, StandsAs w)
    (ho : ws.Pairwise fun w x => w.1 ∉ x.1.touched) : ∀ w ∈ ws, (brought x tk ws c).raw w.1 = w.2 := by
  intro w hw
  have held : ∀ (b : Agent), (b.holdCaller c).raw w.1 = b.raw w.1 := by
    intro b
    cases c with
    | none => rfl
    | some c => cases w.1 <;> rfl
  have posts : ∀ (b : Agent), (b.post tk).raw w.1 = b.raw w.1 := by
    intro b
    rw [post_same]
    cases w.1 <;> rfl
  unfold brought
  rw [held, posts]
  by_cases ht : tk = none
  · rw [if_pos ht]
    have hx := hg w hw
    rw [raw_writes_mem _ _ (fun w hw => (hg w hw).1) ho ?_ (fun b l hl c => raw_fixed b c l hl) w hw, hx.2.2.2.1]
    · rfl
    · intro y hy b
      have hy := hg y hy
      rw [Agent.write, put_same _ _ hy.2.1 hy.2.2.1, hy.2.2.2.1, hy.2.2.2.2]
      rfl
  · rw [if_neg ht]
    obtain ⟨g, hl⟩ := land_eq x x.nextOp tk false [] ws
    rw [hl]
    have : (ws.filter fun w => !([] : List Loc).contains w.1) = ws := by simp
    rw [this]
    refine Eq.trans ?_ (land_good x.nextOp x ws hg ho w hw)
    cases w.1 <;> rfl

end Sys2Proof.Laws
end

