-- ==== Sys2Proof/Laws/Small.lean ====
section
/-!
SUPPORT. Small facts about the shared operations: what a post, an ending, an update of the agents, an endpoint or a record leaves alone.
-/

namespace Sys2Proof.Laws

open Machine Claims

theorem slt_eq (x y : Word) : bit01 (x.slt y) = if x.toInt < y.toInt then 1 else 0 := by
  simp [bit01, BitVec.slt]

theorem ult_eq (x y : Word) : bit01 (x.ult y) = if x.toNat < y.toNat then 1 else 0 := by
  simp [bit01, BitVec.ult]

theorem slt_if (x y z w : Word) : (if x.slt y then z else w) = if x.toInt < y.toInt then z else w := by
  simp [BitVec.slt]

theorem ult_if (x y z w : Word) : (if x.ult y then z else w) = if x.toNat < y.toNat then z else w := by
  simp [BitVec.ult]

theorem wf_slti {d a : Nat} {i : Int} (h : (Instr.slti d a i).wf = true) : immOk 10 i = true := by
  have h' : (sregOk d && sregOk a && immOk 10 i) = true := h
  simp only [Bool.and_eq_true] at h'
  exact h'.2

theorem flag_s (x y : DWord) : flag64 (x.slt y) = if x.toInt < y.toInt then 1 else 0 := by simp [flag64, BitVec.slt]

theorem flag_u (x y : DWord) : flag64 (x.ult y) = if x.toNat < y.toNat then 1 else 0 := by simp [flag64, BitVec.ult]

theorem wf_cap3 {q : Nat} {b : Bool} (h : (b && cregOk q) = true) : q < 40 := by
  simp [cregOk] at h; exact h.2

theorem withAddr_mod {c : Cap} {x : Int} (h : 0 ≤ x) : c.withAddr (x % 2 ^ 64).toNat = c.withAddr x.toNat := by
  obtain ⟨n, rfl⟩ := Int.eq_ofNat_of_zero_le h
  have e : ((n : Int) % 2 ^ 64).toNat = n % 2 ^ 64 := by omega
  rw [e, Int.toNat_natCast]
  unfold Cap.withAddr
  congr 2
  apply BitVec.eq_of_toNat_eq
  simp

theorem branch_ok (s : State) (off : Int) (ws) (hg : Good ws) (hp : inPcc s.ag off) :
  ∃ t, s.branch off ws = .next t ∧ Retired s t (s.ag.pcc.withAddr (target s.ag off).toNat) ws := by
  unfold State.branch
  have : s.ag.inCode (s.ag.branchTarget off) = true := by
    simp only [Agent.inCode, Bool.and_eq_true, decide_eq_true_eq]; exact hp
  dsimp only
  rw [if_pos this, ← withAddr_mod (by have := hp.1; omega)]
  exact ⟨_, rfl, jump_retired s _ _ hg⟩

theorem test_iff (c : Cond) (x : Word) : Cond.test c x = true ↔ holds c x.toInt := by
  cases c <;> simp [Cond.test, holds, BitVec.slt, ← BitVec.toInt_inj]

theorem branch_trap (s : State) (off : Int) (ws) (hb : ¬ inPcc s.ag off) :
  s.branch off ws = .next (s.trap ⟨0x0B, (target s.ag off % 2 ^ 64).toNat, 0, 3, false⟩) := by
  unfold State.branch
  have : ¬ s.ag.inCode (s.ag.branchTarget off) = true := by
    simp only [Agent.inCode, Bool.and_eq_true, decide_eq_true_eq]; exact hb
  dsimp only
  rw [if_neg this]
  rfl

theorem endWith_enters (v : State) (tk : Option Nat) (ws : List (Loc × Word)) (reads : List Loc) :
    Enters v ((v.endWith false tk ws).advance 4) (Posting.op ⟨reads, v, tk, ws⟩) := by
  have := enters v .rlx .grp tk (.regs ws) (ws.map (·.1)) .scalar false
  unfold State.endWith Posting.op
  simp only [Bool.false_eq_true, if_false]
  exact this

theorem drained_of {a : Agent} (h : a.blocks = [] ∨ a.hnd = true) : a.drained = true := by
  rcases h with h | h <;> simp [Agent.drained, h]

theorem not_priv {s : State} (h : ¬ MayKernel s) : s.ag.privileged = false := by
  by_contra h'
  simp [Agent.privileged] at h'
  exact h h'

theorem ofBytes_bytes (n w : Nat) : ofBytesLE (bytesLE n w) = w % 256 ^ n := by
  induction n generalizing w with
  | zero => simp [bytesLE, ofBytesLE, Nat.mod_one]
  | succ n ih =>
    rw [bytesLE, ofBytesLE, ih, Nat.pow_succ, Nat.mul_comm (256 ^ n), Nat.mod_mul]
    simp

theorem read_writePhys (s : State) (a n v : Nat) : (s.writePhys a n v).readPhys a n = v % 256 ^ n := by
  show ofBytesLE (readBytes (writeBytes s.mem a (bytesLE n v)) a n) = _
  have h := readBytes_writeBytes s.mem a (bytesLE n v)
  rw [bytesLE_length] at h
  rw [h, ofBytes_bytes]

theorem held_hold (s : State) (pa : Nat) : (s.holdObj pa).objHeld pa = true := by
  unfold State.holdObj
  by_cases h : s.objHeld pa = true
  · rw [if_pos h]; exact h
  · rw [if_neg h]
    unfold State.objHeld
    rw [read_writePhys]
    have h1 : (Config.freeWord s.fresh pa).toNat % (2 ^ 32 - 1) + 1 < 256 ^ 4 := by
      have := Nat.mod_lt (Config.freeWord s.fresh pa).toNat (show 0 < 2 ^ 32 - 1 by decide)
      have e : (256 : Nat) ^ 4 = 2 ^ 32 := by decide
      rw [e]; omega
    rw [Nat.mod_eq_of_lt h1]
    simp

theorem ep_setEp (s : State) (e : Endpoint) : (s.setEp e).ep e.pa = e := by
  unfold State.ep
  rw [if_pos (show (s.setEp e).objHeld e.pa = true from held_hold s e.pa)]
  simp [State.setEp]

theorem ep_setEp' (s : State) (e : Endpoint) (pa : Nat) (h : e.pa = pa) : (s.setEp e).ep pa = e := by
  rw [← h]; exact ep_setEp s e

theorem ep_pa (s : State) (pa : Nat) : (s.ep pa).pa = pa := by
  unfold State.ep
  split
  · cases h : s.eps.find? (fun e => e.pa == pa) with
    | none => rfl
    | some e =>
      have := List.find?_some h
      simpa using this
  · rfl

theorem eps_upd (s : State) (id : Nat) (f : Agent → Agent) : (s.updAgent id f).eps = s.eps := by
  unfold State.updAgent; split <;> rfl

theorem mem_upd (s : State) (id : Nat) (f : Agent → Agent) : (s.updAgent id f).mem = s.mem := by
  unfold State.updAgent; split <;> rfl

theorem ep_congr {s t : State} (pa : Nat) (he : t.eps = s.eps) (hm : t.mem = s.mem) : t.ep pa = s.ep pa := by
  unfold State.ep State.objHeld State.readPhys; rw [he, hm]

theorem ep_upd (s : State) (id : Nat) (f : Agent → Agent) (pa : Nat) : (s.updAgent id f).ep pa = s.ep pa :=
  ep_congr pa (eps_upd s id f) (mem_upd s id f)

theorem ag_setEp (s : State) (e : Endpoint) : (s.setEp e).ag = s.ag := by
  unfold State.setEp State.holdObj; dsimp only; split <;> rfl

theorem rest_setEp (s : State) (e : Endpoint) : (s.setEp e).rest = s.rest := by
  unfold State.setEp State.holdObj; dsimp only; split <;> rfl

theorem find_upd (l : List Agent) (id : Nat) (f : Agent → Agent) (hf : ∀ a, (f a).id = a.id) (b : Agent)
    (h : l.find? (fun a => a.id == id) = some b) :
    (l.map fun a => if a.id = id then f a else a).find? (fun a => a.id == id) = some (f b) := by
  induction l with
  | nil => simp at h
  | cons x l ih =>
    rw [List.find?_cons] at h
    rw [List.map_cons, List.find?_cons]
    by_cases hx : x.id = id
    · rw [show (x.id == id) = true by simp [hx]] at h
      simp at h
      subst h
      simp [hx, hf]
    · rw [show (x.id == id) = false by simp [hx]] at h
      have := ih h
      rw [if_neg hx, show (x.id == id) = false by simp [hx]]
      exact this

theorem post_id (a : Agent) (n : Option Nat) : (a.post n).id = a.id := by
  cases n with
  | none => rfl
  | some n => unfold Agent.post Agent.setTok; dsimp only; split <;> rfl

theorem hold_id (a : Agent) (c : Option Caller) : (a.holdCaller c).id = a.id := by cases c <;> rfl

theorem writes_id (a : Agent) (ws : List (Loc × Word)) : (a.writes ws).id = a.id := by rw [writes_files]; rfl

theorem endWith_id (a : Agent) (tk : Option Nat) (ws : List (Loc × Word)) : (a.endWith tk ws).id = a.id := by
  unfold Agent.endWith Agent.setPc
  show (((a.waitOver.writes ws).post tk)).id = _
  rw [post_id, writes_id]; rfl

theorem resume_id (a : Agent) (ws : List (Loc × Word)) (c : Option Caller) : (a.resumeRecv ws c).id = a.id := by
  unfold Agent.resumeRecv
  split
  · rw [hold_id, endWith_id]
  · rfl

theorem agent_upd (s : State) (id : Nat) (f : Agent → Agent) (hf : ∀ a, (f a).id = a.id) (h : s.ag.id ≠ id) (b : Agent)
    (hb : s.agent? id = some b) : (s.updAgent id f).agent? id = some (f b) := by
  unfold State.updAgent
  rw [if_neg h]
  unfold State.agent? at hb ⊢
  rw [if_neg h] at hb
  rw [if_neg h]
  exact find_upd _ id f hf b hb

theorem agent_setEp (s : State) (e : Endpoint) (id : Nat) : (s.setEp e).agent? id = s.agent? id := by
  unfold State.agent?
  rw [ag_setEp, rest_setEp]

theorem leave_xstat (a : Agent) : a.leaveIssue.xstat = a.xstat := settle_xstat a

theorem leave_pcc (a : Agent) : a.leaveIssue.pcc = a.pcc := settle_pcc a

theorem leave_nextOp (a : Agent) : a.leaveIssue.nextOp = a.nextOp := settle_nextOp a

theorem leave_pend (a : Agent) : a.leaveIssue.pend = [] := foldEffect_pend _ _

theorem writes_xstat (a : Agent) (ws : List (Loc × Word)) : (a.writes ws).xstat = a.xstat := by rw [writes_files]; rfl

theorem writes_pcc (a : Agent) (ws : List (Loc × Word)) : (a.writes ws).pcc = a.pcc := by rw [writes_files]; rfl

theorem writes_nextOp (a : Agent) (ws : List (Loc × Word)) : (a.writes ws).nextOp = a.nextOp := by rw [writes_files]; rfl

theorem tokenOpt_congr {a b : Agent} (h : a.xstat = b.xstat) {tk : Option Nat} : a.tokenOpt tk = b.tokenOpt tk := by
  have : a.tokenId = b.tokenId := by funext n; unfold Agent.tokenId Agent.mode; rw [h]
  simp [Agent.tokenOpt, this]

theorem post_wait (a : Agent) (n : Option Nat) : (a.post n).wait = a.wait := by
  cases n with
  | none => rfl
  | some n => unfold Agent.post Agent.setTok; dsimp only; split <;> rfl

theorem writes_wait (a : Agent) (ws : List (Loc × Word)) : (a.writes ws).wait = a.wait := by rw [writes_files]; rfl

theorem tok_post (a : Agent) (k n : Nat) : (a.post (some k)).tok n = a.tok n + if k = n then 1 else 0 := by
  show ((a.setTok k (a.tok k + 1))).tok n = _
  unfold Agent.setTok Agent.tok
  by_cases hk : k = 16
  · subst hk
    by_cases hn : n = 16
    · subst hn; simp
    · have : ¬ 16 = n := fun h => hn h.symm
      simp [hn, this]
  · by_cases hn : n = 16
    · subst hn; simp [hk]
    · simp only [hk, hn, if_false]
      by_cases hkn : k = n
      · subst hkn; simp [sget_sput_same]
      · rw [sget_sput_ne _ _ _ (fun h => hkn h.symm)]; simp [hkn]

theorem tok_posts (a : Agent) (ks : List Nat) (n : Nat) :
    (ks.foldl (fun x k => x.post (some k)) a).tok n = a.tok n + BitVec.ofNat 16 (ks.countP fun k => k = n) := by
  induction ks generalizing a with
  | nil => simp
  | cons k ks ih =>
    rw [List.foldl_cons, ih, tok_post, List.countP_cons]
    by_cases h : k = n
    · simp [h]
      rw [BitVec.add_assoc, BitVec.ofNat_add, BitVec.add_comm 1#16]
    · simp [h]

theorem release_part (a : Agent) : a.releaseFocus = { a with replays := a.releaseFocus.replays, focusStack := [], focus := 0 } := rfl

theorem raw_congr {a b : Agent} (h : b = { a with replays := b.replays, focusStack := b.focusStack, focus := b.focus, pcc := b.pcc, stepping := b.stepping, postAtEret := b.postAtEret, toks := b.toks, ktk := b.ktk, sinks := b.sinks }) (l : Loc) : b.raw l = a.raw l := by
  rw [h]; cases l <;> rfl

theorem laneIssue_budget {s : State} {h : LaneHdr} {names : List Nat} {reads : List LaneRead} {n : Nat}
    (hn : names.find? (fun k => s.ag.budget ≤ k) = some n) (k : BitVec 32 → Flags → Out) :
    s.laneIssue h names reads k = s.laneTrap 0x02 0 (s.laneActive h) n := by
  unfold State.laneIssue
  dsimp only
  rw [hn]

theorem nextLane_raw (a : Agent) (l : Loc) : a.nextLane.raw l = a.raw l := by
  rw [nextLane_eq]
  cases l <;> rfl

theorem commit_congr (x a : Agent) (t : Nat) (h : withFiles x a = x) : x.commit t = withFiles x (a.commit t) := by
  rw [← commit_with, h]

theorem raw_with (x a : Agent) (l : Loc) : (withFiles x a).raw l = a.raw l := by
  cases l <;> rfl

theorem afterRelease_token (a : Agent) (p : Path) (o : Ord) (c : Scope) (k : Option Nat) :
    (a.afterRelease p o c).tokenOpt k = a.tokenOpt k := by
  unfold Agent.afterRelease
  split
  · rfl
  · split
    · rfl
    · split <;> rfl

theorem seenFence_token (a : Agent) (b : Bool) (k : Option Nat) : (a.seenFence b).tokenOpt k = a.tokenOpt k := rfl

theorem setArray_ag (s : State) (m : MatrixArray) : (s.setArray m).ag = s.ag := rfl

theorem entered_ag (s : State) (cs : List Nat) (op : MatrixOp) : (entered s cs op).ag = s.ag := by
  unfold entered
  induction cs using List.reverseRecOn with
  | nil => rfl
  | append_singleton l a ih => rw [List.foldl_append]; exact ih

theorem matrixEnter_ok {s : State} {pair : Bool} {tk : Option Nat} {ll : Flags} {op : MatrixOp} {f : Agent → Agent}
    (hf : s.arrayFull pair = false)
    (hfsr : ∀ a : Agent, (f a).fsr = a.fsr) :
    let e : MatrixOp := { op with
      agent := s.ag.id
      team := s.ag.team
      num := s.ag.nextOp
      pair := pair }
    let v := entered s (if pair then [s.ag.core, s.ag.core + 1] else [s.ag.core]) e
    ∃ t, s.matrixEnter pair tk ll op f = .next t
      ∧ LaneGoes v t { f (withOp v.ag (laneOp v .matrix .rlx .grp (s.laneTk tk) (.matrix s.ag.nextOp) []) []) with
        fsr := s.ag.fsr ||| ll } := by
  dsimp only
  unfold State.matrixEnter
  rw [hf, if_neg (by simp)]
  refine ⟨_, rfl, ?_⟩
  dsimp only
  generalize hv : entered s (if pair then [s.ag.core, s.ag.core + 1] else [s.ag.core]) ⟨s.ag.id, s.ag.team, s.ag.nextOp, op.kind, pair,
    op.started, op.acc, op.lw, op.act, op.aregs, op.aold, op.fmt, op.a, op.sc, op.bsel, op.cols⟩ = v
  have hag : v.ag = s.ag := by rw [← hv, entered_ag]
  have := laneNext_goes v ((f (v.enqueue true .matrix .rlx .grp (s.laneTk tk) (.matrix s.ag.nextOp) []).ag).put .fsr ll)
  have e1 : (f (v.enqueue true .matrix .rlx .grp (s.laneTk tk) (.matrix s.ag.nextOp) []).ag).put .fsr ll
      = { f (withOp v.ag (laneOp v .matrix .rlx .grp (s.laneTk tk) (.matrix s.ag.nextOp) []) []) with
        fsr := s.ag.fsr ||| ll } := by
    have h1 := hfsr (withOp v.ag (laneOp v .matrix .rlx .grp (s.laneTk tk) (.matrix s.ag.nextOp) []) [])
    show ({ f (withOp v.ag (laneOp v .matrix .rlx .grp (s.laneTk tk) (.matrix s.ag.nextOp) []) []) with
      fsr := (f (withOp v.ag (laneOp v .matrix .rlx .grp (s.laneTk tk) (.matrix s.ag.nextOp) []) [])).fsr ||| ll } : Agent) = _
    rw [h1]
    show ({ f (withOp v.ag (laneOp v .matrix .rlx .grp (s.laneTk tk) (.matrix s.ag.nextOp) []) []) with
      fsr := v.ag.fsr ||| ll } : Agent) = _
    rw [hag]
  rw [e1] at this
  refine Eq.mp ?_ this
  rw [← e1, ← hv]
  rfl

theorem owner_ok {s : State} {act : BitVec 32} {pair : Bool} (h : MayMatrix s pair) (k : Out) :
    s.matrixOwner act pair k = k := by
  unfold State.matrixOwner
  rw [h.1]
  cases pair
  · rfl
  · rw [h.2.1 rfl]; rfl

theorem layout_ok {s : State} {act : BitVec 32} {pair sx : Bool} {info : Nat} {l : Layout} {addrs : List Int}
    (h : LayoutOk s pair sx l addrs) (k : Out) : s.matrixLayout act pair sx info l addrs k = k := by
  unfold State.matrixLayout
  rw [h]

theorem change_fsr {s : State} {i : Instr} {f : MatrixForm} (h : MatrixIssue s i f) (a : Agent) : (f.change a).fsr = a.fsr := by
  cases h <;> rfl

theorem clearReserved_bits (c : Cap) (x : BitVec 64) :
    (c.bits.extractLsb' 64 64 ++ x) &&& ~~~(7#128 <<< 113) =
    c.bits.extractLsb' 116 12 ++ 0#3 ++ c.bits.extractLsb' 64 49 ++ x := by
  have hk : ∀ i : Fin 128, (~~~(7#128 <<< 113) : BitVec 128)[i.val] = decide (i.val < 113 ∨ 116 ≤ i.val) := by decide
  ext i hi
  rw [BitVec.getElem_and, hk ⟨i, hi⟩]
  simp only [BitVec.getElem_append, BitVec.getElem_extractLsb', BitVec.getElem_zero]
  by_cases h1 : i < 64
  · simp [h1, show i < 113 by omega]
  · by_cases h2 : i < 113
    · simp [h1, h2, show i - 64 < 49 by omega]
    · by_cases h3 : i < 116
      · simp [h1, h2, show ¬ (i - 64 < 49) by omega, show i - 64 - 49 < 3 by omega, show ¬ 116 ≤ i by omega]
      · have h4 : 64 + (i - 64) = 116 + (i - 64 - 49 - 3) := by omega
        simp [h1, h2, show ¬ (i - 64 < 49) by omega, show ¬ (i - 64 - 49 < 3) by omega, h4, show 116 ≤ i by omega]

theorem newCursor_eq {c : Cap} (ht : c.tag = true) (a : Nat) (ha : a < 2 ^ 64) : c.setAddr a = newCursor c a := by
  unfold Cap.setAddr newCursor
  dsimp only
  rw [Nat.mod_eq_of_lt ha, ht, Bool.true_and]
  unfold Cap.withAddr Cap.clearReserved
  dsimp only
  rw [clearReserved_bits]
  congr 1
  rw [decide_eq_decide]
  constructor
  · intro h
    exact ⟨congrArg Prod.fst h, congrArg Prod.snd h⟩
  · intro h
    exact Prod.ext h.1 h.2

theorem reached_met {a : Agent} {n thr : Nat} (h : Reached a n thr) : tokenMet (a.tok n) thr = true :=
  (met_iff _ _).2 h

theorem touch_ready {s : State} {o pte : Nat} (h : ∀ x ∈ s.touches, x.1 = pte → s.poolReady o pte x.2 = true) :
    (match s.touches.find? fun x => x.1 == pte with
        | some x => s.poolReady o pte x.2
        | none => true) = true := by
  split
  · rename_i x hx
    exact h x (List.mem_of_find?_eq_some hx) (by simpa using List.find?_some hx)
  · rfl

theorem clear_due {a : Agent} (hc : Clear a) (d : Due) (hd : (match a.stepping with
      | .due lane n => if a.stepDone lane n then .stepped else .nothing
      | _ => a.dueOutside) = d) : a.due = d := by
  obtain ⟨h1, h2, h3, h4, h5⟩ := hc
  unfold Agent.due
  rw [h3, h4]
  simp only [Agent.inIssue, h1, h2, Bool.and_true, Bool.not_true, Bool.or_self, Bool.false_eq_true, ↓reduceIte, Option.filter]
  have : (if a.redirectNow = true then a.redirect else none) = none := by
    split
    · rename_i h; exact h5 h
    · rfl
  rw [this]
  exact hd

theorem clear_outside {a : Agent} (hc : Clear a) (hn : ∀ lane n, a.stepping ≠ .due lane n) : a.due = a.dueOutside := by
  rw [clear_due hc]
  split
  · rename_i lane n h; exact absurd h (hn lane n)
  · rfl

theorem dueFor_takes {s : State} {a : Agent} {p : Due → Bool} (h : s.agent? a.id = some a) (hp : p a.due = true) :
    s.dueFor a.id p = .next (((s.focusOn a.id).takeDue a.due).focusOn s.ag.id) := by
  unfold State.dueFor State.onAgent
  rw [h]
  simp only [Option.isNone_some, Bool.false_eq_true, ↓reduceIte, focusOn_ag h, hp]

theorem back_addr (s : State) (k : Nat) (h : s.fabric.pkgid < 2 ^ 11) : (s.backFromPeer k).addr =
    0x8000000000000 + s.fabric.pkgid * 2 ^ 40 + Config.freeNat s.fresh (4 * k + 3) % 2 ^ 40 := by
  have e : ∀ (a : BitVec 12) (b : BitVec 16) (c : BitVec 8) (d : BitVec 16) (f : BitVec 12) (g : BitVec 64),
      ((a ++ b ++ c ++ d ++ f ++ g : BitVec 128).extractLsb' 0 64) = g := by
    intro a b c d f g
    ext i hi
    rw [BitVec.getElem_extractLsb', BitVec.getLsbD_append]
    simp [hi]
  show ((s.backFromPeer k).bits.extractLsb' 0 64).toNat = _
  unfold State.backFromPeer
  dsimp only
  rw [e]
  simp only [BitVec.toNat_ofNat]
  omega

theorem back_export (s : State) (k : Nat) (h : s.fabric.pkgid < 2 ^ 11) : (s.backFromPeer k).isExport = true
    ∧ field (s.backFromPeer k).addr 40 11 = s.fabric.pkgid := by
  have e : ∀ (a : BitVec 12) (b : BitVec 16) (c : BitVec 8) (d : BitVec 16) (f : BitVec 12) (g : BitVec 64),
      ((a ++ b ++ c ++ d ++ f ++ g : BitVec 128).extractLsb' 116 12) = a := by
    intro a b c d f g
    ext i hi
    rw [BitVec.getElem_extractLsb']
    repeat rw [BitVec.getLsbD_append]
    rw [if_neg (by omega), if_neg (by omega), if_neg (by omega), if_neg (by omega), if_neg (by omega)]
    rw [show 116 + i - 64 - 12 - 16 - 8 - 16 = i by omega]
    exact BitVec.getLsbD_eq_getElem hi
  have e2 : (s.backFromPeer k).sealType = 8 := by
    show ((s.backFromPeer k).bits.extractLsb' 116 12).toNat = _
    unfold State.backFromPeer
    dsimp only
    rw [e]
    rfl
  unfold Cap.isExport field
  rw [e2, back_addr s k h]
  constructor
  · simp; omega
  · omega

theorem others_nil {e : DirEntry} {d : Nat} (h : ∀ x ∈ e.members, x.die = d) : e.others d = [] := by
  unfold DirEntry.others
  rw [List.filter_eq_nil_iff]
  intro x hx
  simp [h x hx]

theorem atHome_eq {s : State} {k : Nat} {kind : MsgKind} {m : Msg} {e : DirEntry} {f : Msg → DirEntry → State → State}
    (h : Arrives s k kind m e) (ht : e.st ≠ .transient) : s.atHome k kind f = .next (f m e (taken s k)) := by
  obtain ⟨h1, h2, h3⟩ := h
  unfold State.atHome State.msg?
  rw [h1]
  dsimp only
  rw [h2, if_neg]
  · rfl
  · simp only [Bool.or_eq_true, Bool.and_eq_true, beq_iff_eq, not_or, not_and, ht, not_false_eq_true, true_and]
    intro hk
    simp [h3 hk]

theorem doing_of {s : State} {c : Nat} (h : Doing s c) : s.islet.doing c = true := by
  unfold Islet.doing
  obtain ⟨h1, h2, h3⟩ := h
  rw [h1, h2, h3]
  simp

theorem part_ok (v : Nat) : partcfgOk v = true ↔ PartOk v := by
  unfold partcfgOk PartOk Fabric.sysn Fabric.lpdn field bits
  dsimp only
  simp only [Bool.and_eq_true, List.all_eq_true, List.mem_range, decide_eq_true_eq]
  have e : List.range 4 = [0, 1, 2, 3] := rfl
  rw [e]
  simp only [List.map_cons, List.map_nil, List.sum_cons, List.sum_nil]
  constructor
  · rintro ⟨⟨h1, h2⟩, h3⟩
    exact ⟨fun p hp => h1 p hp, by simpa [Nat.add_assoc] using h2, by simpa [Nat.add_assoc] using h3⟩
  · rintro ⟨h1, h2, h3⟩
    exact ⟨⟨fun p hp => h1 p hp, by simpa [Nat.add_assoc] using h2⟩, by simpa [Nat.add_assoc] using h3⟩

theorem team_id {s : State} {id : Nat} {t : Team} (h : s.team? id = some t) : t.id = id := by
  unfold State.team? at h
  have := List.find?_some h
  simpa using this

theorem launch_id {s : State} {id : Nat} {t : Launch} (h : s.launch? id = some t) : t.id = id := by
  unfold State.launch? at h
  have := List.find?_some h
  simpa using this

theorem placed_of {t : Team} (h : t.phase = .resident) : t.placed = true := by
  unfold Team.placed
  rw [h]
  rfl

theorem writePhys_walks (s : State) (a n v : Nat) : (s.writePhys a n v).walks = s.walks := rfl

theorem putRecord_walks (s : State) (l : Launch) (d : Bool) : (s.putRecord l d).walks = s.walks := by
  unfold State.putRecord
  cases areaAt (s.dbgOf l.cpart).lrec l.id with
  | none => exact rfl
  | some a => exact writePhys_walks ..

theorem updDbg_walks (s : State) (p : Nat) (f : DebugPart → DebugPart) : (s.updDbg p f).walks = s.walks := rfl

theorem trace_walks (s : State) (p n t w i a : Nat) : (s.trace p n t w i a).walks = s.walks := by
  unfold State.trace
  dsimp only
  cases areaAt (s.dbgOf p).trbuf (s.dbgOf p).tridx with
  | none => exact rfl
  | some a => exact (updDbg_walks ..).trans (writePhys_walks ..)

theorem walk_id {s : State} {id : Nat} {t : Walk} (h : s.walk? id = some t) : t.id = id := by
  unfold State.walk? at h
  have := List.find?_some h
  simpa using this

theorem kind_bits (k : Nat) (a : Bool) (h : k < 7) : (k + if a then 16 else 0) % 16 = k
    ∧ (k + if a then 16 else 0) / 2 ^ 5 = 0 ∧ (k + if a then 16 else 0).testBit 4 = a := by
  cases a <;> (interval_cases k <;> decide)

theorem atNode_reaches {s : State} {w : Walk} {k : Nat} {a : Bool} {nn : Nat} {v : State} (h : Reaches s w k a nn v)
    {f : Nat → Bool} (hf : f k = true) (g : NodeHead → State → State) :
    s.atNode w.id f g = .next (g ⟨w, w.node, a⟩ v) := by
  obtain ⟨h1, h2, h3⟩ := kind_bits k a h.small
  unfold State.atNode
  rw [h.there]
  dsimp only
  have hr : s.walkReady w = true := by unfold State.walkReady; simp [h.ready]
  rw [hr, h.touched, h.header, show s.graphRead w (w.nodeAt w.node 0) 4 = some (k + if a then 16 else 0) from h.word]
  dsimp only
  rw [h1, hf, if_neg (by simp), if_neg (by simpa using h.inside), h.gpc]
  dsimp only
  rw [h2, h3, if_neg]
  have := h.small
  simp
  omega

theorem submit_ok {s : State} {ctx : Nat} {x : Cap} {d : Descriptor} {b : Submitter} (h : s.launchStatus ctx d = 0) :
    (s.submit ctx x d b).2 = 0 := by
  unfold State.submit
  rw [h]
  rfl

theorem ready_wait (s : State) (a : Agent) (h : s.scalarReady a = true) : a.wait = .none := by
  unfold State.scalarReady at h
  simp only [Bool.and_eq_true, beq_iff_eq] at h
  exact h.1.1.1.1.1.1.1.2

/-! ### Results of reductions -/

theorem redOut_eq (ty : Ty) (v : DWord) : redOut ty v = delivered ty v := by
  unfold redOut delivered
  by_cases h : ty = .f32 <;> simp [h]

theorem redSignals_eq (s : State) (h : LaneHdr) (ty : Ty) (a : Src) :
    redSignals ty ((lanesOf (s.laneActive h)).map fun l => s.redSrc ty l a) = signals s h ty a := by
  unfold redSignals signals flagIf active
  by_cases h : ty = .f32 <;> simp [h]

end Sys2Proof.Laws
end

