-- ==== Sys2Proof/Safety.lean ====
section
/-!
DEFINITION. What counts as a safe run: steps that answer a next state, reachable states, predicates that every step
keeps.
-/

namespace Sys2Proof.Machine

/-- The machine takes a step from `s` to `t`. -/
def Steps (s t : State) : Prop := step s = .next t

/-- `t` is reached from `s` by steps. -/
inductive Reaches (s : State) : State → Prop
  | refl : Reaches s s
  | tail {t u : State} : Reaches s t → Steps t u → Reaches s u

/-- Every step keeps the predicate, from any state that has it. -/
def Kept (P : State → Prop) : Prop := ∀ s t, P s → Steps s t → P t

/-- A step that stops: the module is without supply. -/
def Stops (s : State) : Prop := ∃ f, step s = .fault f

end Sys2Proof.Machine
end

