-- ==== Sys2Proof/Tests/Slice0.lean ====
section
/-!
SUPPORT. Tests: what the checks of well-formedness refuse; words decoded, each from the manual's encoding; single
steps with the results that the manual gives; for each statement, states and operands that meet its hypotheses.
-/

open Sys2Proof Sys2Proof.Machine Sys2Proof.Claims

/-! ### Ill-formed instructions -/

/-- 07 R143: registers, pairs, quads, capability registers, tokens out of range. -/
theorem test_wf_registers : ([.add 160 0 0, .addI64 5 2 2, .addI64 4 160 2, .cmov 0 40, .cgetaddr 5 1, .cgettag 160 1,
    .csetaddr 3 0 0, .cwrap 40 0 0, .cj 40, .ldN32 0 0 (some 16) 0, .ldN64 3 0 none 0, .ldN8 0 40 none 0,
    .amoCasN32 3 0 none .rlx .dev, .amoCasN64 2 0 none .rlx .dev, .emw 160, .tkr 16 0, .wset 0 3 none,
    .qpushQcopy 146, .qpushQcopy 148, .rdtime 1, .swp 160, .sealctx 40 0 0] : List Instr).all (fun i => !i.wf) = true := by
  decide

/-- 07 R144 to R151: immediates, offsets, counts, orders, selectors out of range. -/
theorem test_wf_fields : ([.addi 0 0 512, .addi 0 0 (-513), .shli 0 0 32, .li 0 131072, .lih 0 262144, .bcCond .eq 0 8192,
    .bcCond .al 1 0, .jal 33554432, .land 9, .cinci 0 0 8192, .ldN32 0 0 none 128, .ldxN32 0 0 none .rel .dev,
    .stxN32 0 0 none .acq .dev, .ldcx 0 0 none .ar .dev, .fence .rlx .dev, .lrun none 0 0 0, .lrun none 0 257 0,
    .lrun none 0 1 64, .bar 16 false, .wtok 0 65536, .pause 0, .dly 65, .yld 0 0 8192, .brk 16384, .rdid 0 0, .rdid 0 11,
    .ctlr 1 0x000, .ctlr 3 0x004, .ctlr 0 0x001, .ctlr 0 0x025, .tlbi 0 1 .space, .tlbi 1 0 .all, .tlbi 0 1 .page]
    : List Instr).all (fun i => !i.wf) = true := by
  decide

/-- A lane header as most words have it. -/
abbrev hdr : LaneHdr := ⟨false, false, 0⟩

/-- 07 R154 to R162: guards, sources, destinations, types of lane instructions. -/
theorem test_wf_lane : ([.iadd ⟨false, false, 64⟩ .none .i32 false (.imm 0) (.imm 0), .iadd hdr (.reg 1024) .i32 false (.imm 0) (.imm 0),
    .iadd hdr (.reg 3) .i64 false (.imm 0) (.imm 0), .iadd hdr .none .f32 false (.imm 0) (.imm 0),
    .iadd hdr .none .i32 false (.vreg 1024) (.imm 0), .iadd hdr .none .i32 false (.sreg 160) (.imm 0),
    .iadd hdr .none .i32 false (.latch 4) (.imm 0), .iadd hdr .none .i32 false (.pred 64) (.imm 0),
    .iadd hdr .none .i32 false (.imm 512) (.imm 0), .iadd hdr .none .i32 false (.special 4) (.imm 0),
    .fadd hdr .none .rne (.special 8) (.imm 0), .imulhi hdr .none .i16 (.imm 0) (.imm 0), .iabs hdr .none .n32 false (.imm 0),
    .isel hdr .none .i32 (.imm 0) (.imm 0) 64, .laneBfi hdr .none .i32 (.imm 0) (.imm 0) (.imm 0),
    .idp4 hdr .none .i64 false (.imm 0) (.imm 0) (.imm 0), .cvt hdr .none .rne false .f32 .f32 (.imm 0) 0,
    .cvt hdr .none .rne true .f32 .i32 (.imm 0) 0, .cvt hdr .none .rne false .f32 .i32 (.imm 0) 1,
    .sxpack hdr 0 .sx4 0 0 4 0, .sxpack hdr 0 .sx4 0 0 0 64, .sxunpack hdr 0 .rne .sx4 .f64 0 0 0 0,
    .pset hdr 0 .un .i32 (.imm 0) (.imm 0), .pset hdr 0 .eq .fp8e4 (.imm 0) (.imm 0), .plop hdr 0 0 0 0 256,
    .mov hdr .none .n32 (.imm 0), .movi hdr .none (2 ^ 32), .rnd hdr .none 3 (.vreg 0), .rnd hdr .none 2 (.imm 0),
    .laneDly 0, .shfl hdr .idx .none (.imm 0) (.imm 0), .vote hdr .all 0 0 16, .lred hdr .and .f32 0 (.imm 0) 0,
    .lscan hdr .add .i32 false 0 (.imm 0) (some 160) 0, .laneMatch hdr .i8 .none (.imm 0), .lbrx hdr 0 40 0,
    .vcmov hdr 256 (.c 0), .vcmov hdr 0 (.c 40), .vcmov hdr 0 (.vc 256), .vcgetaddr hdr 3 (.c 0)] : List Instr).all
    (fun i => !i.wf) = true := by
  decide

/-- 07 R160, R161, 10, 11, 14: fields of lane memory, matrix and watch instructions. -/
theorem test_wf_lane_memory : ([.ld hdr .f32 .rlx .dev false 0 (.c 0) (.imm 0) 0 none, .ld hdr .i32 .rel .dev false 0 (.c 0) (.imm 0) 0 none,
    .ld hdr .i32 .acq .dev true 0 (.c 0) (.imm 0) 0 none, .ld hdr .i32 .rlx .dev false 0 (.c 0) (.imm 0) 4096 none,
    .st hdr .i32 .rlx .dev (.imm 0) (.c 0) (.imm 0) 0 none, .ldnr hdr .n32 .rlx .dev false 0 0 (.c 0) (.imm 0) 0 none,
    .ldsub hdr .n32 .rlx .dev false 0 (.c 0) (.imm 0) 0 none, .subs hdr .bf16 0 158 none,
    .atom hdr .and .f32 .rlx .dev .none (.c 0) (.imm 0) (.imm 0) 0 none,
    .atom hdr .cas .n32 .rlx .dev .none (.c 0) (.imm 0) (.vreg 3) 0 none,
    .atoms hdr .add .n8 .rlx .team .none (.imm 0) (.imm 0) 0 none, .laneLdc hdr .rlx .dev 0 (.c 0) (.imm 0) 8 none,
    .laneStc hdr .acq .dev 0 (.c 0) (.imm 0) 0 none, .laneFence hdr .rlx .dev none,
    .fencex hdr .lane .lane .rel .dev none, .mmac hdr .bf16 false false 16 (.regs 0 0 0) 0 none,
    .mmac hdr .bf16 false false 0 (.regs 0 0 1) 0 none, .mmac hdr .bf16 false false 0 (.regs 0 0 0) 158 none,
    .mdist hdr .sx4 false false 0 (.regs 0 0 0) 0 none, .mtopk hdr false 0 17 none, .mrd hdr 0 16,
    .tokc hdr 1 0 0 (.imm 2) (.imm 0) 0, .tokcf hdr 0 0 0 (.imm 2) 0 0, .tokf hdr 0 40 (.imm 2) 0] : List Instr).all
    (fun i => !i.wf) = true := by
  decide

/-! ### Words of the manual's encoding -/

/-- The listing of 08, with 07's table of examples: arithmetic, constants, branch, memory, tokens. -/
theorem test_decode_scalar : decodeTableWord 32 0xC5800028 = some (.tkr 8 40) ∧ decodeTableWord 32 0x4CA40001 = some (.li 41 1)
    ∧ decodeTableWord 32 0x04B0A8A5 = some (.sub 44 42 41) ∧ decodeTableWord 32 0x50B448D1 = some (.lih 45 0x48D1)
    ∧ decodeTableWord 32 0x78509901 = some (.ldN32 20 9 (some 2) 1) ∧ decodeTableWord 32 0xC4300004 = some (.wtok 3 4)
    ∧ decodeTableWord 32 0x5C400000 = some (.land 1) ∧ decodeTableWord 32 0x5443000D = some (.bcCond .ne 12 13) :=
  ⟨rfl, rfl, rfl, rfl, rfl, rfl, rfl, rfl⟩

/-- The listings of 15: capabilities, messages, masks, lane blocks, the end of a group. -/
theorem test_decode_handoff : decodeTableWord 32 0x64860100 = some (.cinci 8 24 0x100) ∧ decodeTableWord 32 0x60D66208 = some (.cnarrow 102 8 8)
    ∧ decodeTableWord 32 0xD2300000 = some (.mcall 12 none) ∧ decodeTableWord 32 0x61100040 = some (.cj 1)
    ∧ decodeTableWord 32 0x6000014E = some (.cmov 5 14) ∧ decodeTableWord 32 0x90344881 = some (.ldc 13 4 (some 1) 1)
    ∧ decodeTableWord 32 0xBC018001 = some (.emw 96) ∧ decodeTableWord 32 0xB8070081 = some (.lrun none 14 2 1)
    ∧ decodeTableWord 32 0xD302C000 = some (.mreply (some 6)) ∧ decodeTableWord 32 0xDC400000 = some .gend
    ∧ decodeTableWord 32 0xB5000000 = some (.fence .acq .grp) := ⟨rfl, rfl, rfl, rfl, rfl, rfl, rfl, rfl, rfl, rfl, rfl⟩

/-- 07 R142, R146: the all-zero and the all-ones word, an unassigned major, an unassigned function are refused. -/
theorem test_decode_refused : decodeTableWord 32 0 = none ∧ decodeTableWord 32 0xFFFFFFFF = none
    ∧ decodeTableWord 32 0xE4000000 = none ∧ decodeTableWord 32 0x14000003 = none ∧ decodeTableWord 96 0 = none
    ∧ decodeTableWord 96 (0x1A * 2 ^ 89) = none ∧ decodeTableWord 96 (1 * 2 ^ 89 + 2 * 2 ^ 72 + 2 ^ 62) = none :=
  ⟨rfl, rfl, rfl, rfl, rfl, rfl, rfl⟩

/-- 07's table, the listings of 09, 10 and 14: integer, predicates, exchange, fences, memory, watch. -/
theorem test_decode_lane : decodeTableWord 96 0x060002008004002004000000 = some (.imul hdr .none .i32 false (.latch 0) (.latch 1))
    ∧ decodeTableWord 96 0x860002100030054000000000 = some (.pset hdr 3 .ne .i32 (.vreg 10) (.imm 0))
    ∧ decodeTableWord 96 0x920000000000000000000000 = some (.laneDly 1)
    ∧ decodeTableWord 96 0x9800000000C6018000000000 = some (.vballot hdr (.reg 12) 3)
    ∧ decodeTableWord 96 0xD80005000000000000000000 = some (.laneFence hdr .acq .team none)
    ∧ decodeTableWord 96 0xC40B22300142050031808000
      = some (.ldnr ⟨false, false, 5⟩ .n32 .rlx .dev false 20 4 (.c 10) (.vreg 12) 0 (some 2))
    ∧ decodeTableWord 96 0xF0012000028206401600E006 = some (.tokc hdr 40 6 12 (.imm 5) (.imm 7) 2)
    ∧ decodeTableWord 96 0xF20120000282064014000086 = some (.tokcf hdr 40 6 12 (.imm 5) 2 2)
    ∧ decodeTableWord 96 0xF40120000002064014000000 = some (.tokrj hdr 12 (.imm 5) (some 2))
    ∧ decodeTableWord 96 0xF601200002C2064014000000 = some (.tokf hdr 44 12 (.imm 5) 2) :=
  ⟨rfl, rfl, rfl, rfl, rfl, rfl, rfl, rfl, rfl, rfl⟩

/-- 07 R154 to R162, field by field: floating point, a conversion, a vector capability form, an atomic, a store, `lend`. -/
theorem test_decode_lane_fields : decodeTableWord 96 (0x20 * 2 ^ 89 + 1 * 2 ^ 74 + 5 * 2 ^ 52 + 6 * 2 ^ 39 + 7 * 2 ^ 26)
      = some (.fadd hdr (.reg 5) .rz (.vreg 6) (.vreg 7))
    ∧ decodeTableWord 96 (0x40 * 2 ^ 89 + 2 ^ 73 + 2 * 2 ^ 68 + 3 * 2 ^ 64 + 5 * 2 ^ 52 + 6 * 2 ^ 39)
      = some (.cvt hdr (.reg 5) .rne true .i32 .i64 (.vreg 6) 0)
    ∧ decodeTableWord 96 (0x52 * 2 ^ 89 + 0x09 * 2 ^ 64 + 3 * 2 ^ 52 + (2 ^ 10 + 8) * 2 ^ 39 + 6 * 2 ^ 26)
      = some (.vcsetaddr hdr 3 (.c 8) (.vreg 6))
    ∧ decodeTableWord 96 (0x68 * 2 ^ 89 + (4 * 2 ^ 7 + 6 * 2 ^ 3 + 6) * 2 ^ 64 + 5 * 2 ^ 52 + (2 ^ 10 + 8) * 2 ^ 39
        + 6 * 2 ^ 26 + 7 * 2 ^ 13 + 4)
      = some (.atom hdr .swap .n32 .rlx .dev (.reg 5) (.c 8) (.vreg 6) (.vreg 7) 4 none)
    ∧ decodeTableWord 96 (0x61 * 2 ^ 89 + 1 * 2 ^ 87 + 9 * 2 ^ 81 + (2 * 2 ^ 10 + 5 * 2 ^ 7 + 7 * 2 ^ 3) * 2 ^ 64
        + 3 * 2 ^ 39 + (4 * 2 ^ 10) * 2 ^ 26 + 8 * 2 ^ 13 + 8191)
      = some (.st ⟨false, true, 9⟩ .n64 .rel .sys (.vreg 8) (.vc 3) (.imm 0) (-1) none)
    ∧ decodeTableWord 96 (0x51 * 2 ^ 89 + 0x13 * 2 ^ 76) = some (.lend hdr (some 3)) := ⟨rfl, rfl, rfl, rfl, rfl, rfl⟩

/-! ### Single steps -/

/-- A group that may issue: 64 registers of budget, in user mode, its pcc a memory root at 0x1000, in the identity
space. -/
def grp : State := { State.reset with
  ag := { Agent.blank 64 .placed with
    die := 0
    budget := 64
    pcc := Cap.memoryRoot 0x1000 }
  nextAgent := 65 }

/-- Scalar registers set. -/
def withS (s : State) (l : List (Nat × Word)) : State := { s with ag := s.ag.writes (l.map fun e => (.s e.1, e.2)) }

/-- A capability register set. -/
def withC (s : State) (q : Nat) (c : Cap) : State := { s with ag := s.ag.writes (capWrites q c) }

/-- A vector register set in the first lanes. -/
def withV (s : State) (r : Nat) (l : List Word) : State := { s with
  ag := s.ag.writes (((List.range l.length).zip l).map fun e => (.v r e.1, e.2)) }

/-- A predicate register set in the first lanes. -/
def withP (s : State) (r : Nat) (l : List Word) : State := { s with
  ag := s.ag.writes (((List.range l.length).zip l).map fun e => (.p r e.1, e.2)) }

/-- The state that an instruction leaves. -/
def leaves (i : Instr) (s : State) : State :=
  match exec i s with
  | .next t => t
  | _ => s

/-- The four words of a capability, from the lowest, and its tag. -/
def capOf (w0 w1 w2 w3 : Word) : Cap := ⟨w3 ++ w2 ++ w1 ++ w0, true⟩

/-- 08, listing, lines 5, 7, 10. -/
theorem test_scalar_listing : (leaves (.addi 43 40 2) (withS grp [(40, 5)])).ag.raw (.s 43) = 7
    ∧ (leaves (.sub 44 42 41) (withS grp [(42, 7), (41, 3)])).ag.raw (.s 44) = 4
    ∧ (leaves (.lih 45 0x48D1) (withS grp [(45, 0x1678)])).ag.raw (.s 45) = 0x12345678 := by
  decide

/-- 08, listing, line 8: 4 > 0, the branch is not taken; 08 R171: taken, it goes on from the branch word itself. -/
theorem test_branch : (leaves (.bcCond .le 44 3) (withS grp [(44, 4)])).ag.pc = 0x1004
    ∧ (leaves (.bcCond .le 44 3) (withS grp [(44, 0)])).ag.pc = 0x100C := by
  decide

/-- 08 R166: division by zero and the overflowing quotient, in flight for 20 clk. -/
theorem test_div : ((leaves (.div 8 9 10) (withS grp [(9, 7)])).ag.pend.map fun p => (p.eff, p.val)) = [(20, 0xFFFFFFFF)]
    ∧ ((leaves (.div 8 9 10) (withS grp [(9, 0x80000000), (10, 0xFFFFFFFF)])).ag.pend.map fun p => p.val) = [0x80000000]
    ∧ ((leaves (.rem 8 9 10) (withS grp [(9, 0x80000000), (10, 0xFFFFFFFF)])).ag.pend.map fun p => p.val) = [0] := by
  decide

/-- 15, listing, lines 1, 4 and 6: cursor, exact bounds, permissions. -/
theorem test_capabilities :
    quadOf (leaves (.cinci 8 24 0x100) (withC grp 24 (capOf 0x20000000 0 0x00800400 0x000010F0))).ag 8
      = capOf 0x20000100 0 0x00800400 0x000010F0 := by
  decide

theorem test_bounds :
    quadOf (leaves (.csetbndx 100 8 8) (withS (withC grp 8 (capOf 0x20000100 0 0x00800400 0x000010F0)) [(100, 64)])).ag 8
      = capOf 0x20000100 0 0x00080140 0x000010F0 := by
  decide

theorem test_narrow :
    quadOf (leaves (.cnarrow 102 8 8) (withS (withC grp 8 (capOf 0x20000100 0 0x00080140 0x000010F0)) [(102, 0x101)])).ag 8
      = capOf 0x20000100 0 0x00080140 0x00001010 := by
  decide

/-- 04 R85: a derivation from an untagged capability traps 0x08; with no handler the system core restarts with the cause
in its log (19 R478). -/
theorem test_untagged : ((leaves (.csetbnd 2 24 8) State.reset).islet.log.map fun e => (e.1, e.2.2 % 256)) = [(2, 8)] := by decide

/-- The lanes 0 to 7 alone, as in the listing of 09. -/
def eight : State := { withV grp 10 [5, 0, 7, 0, 0, 2, 9, 0] with ag := { (withV grp 10 [5, 0, 7, 0, 0, 2, 9, 0]).ag with em := 0xFF } }

/-- 09, listing: `pset.ne.i32 p3, v10, 0`, at 2 clk. -/
theorem test_pset : ((leaves (.pset hdr 3 .ne .i32 (.vreg 10) (.imm 0)) eight).ag.pend.map fun p => (p.eff, p.loc, p.val))
    = [(2, .p 3 0, 1), (2, .p 3 1, 0), (2, .p 3 2, 1), (2, .p 3 3, 0), (2, .p 3 4, 0), (2, .p 3 5, 1), (2, .p 3 6, 1), (2, .p 3 7, 0)] := by
  decide

/-- 09, listing: `lscan.add.i32 v11, p3, s40 ^tk1` and `vballot v12, p3`. -/
theorem test_lscan :
    ((leaves (.lscan hdr .add .i32 false 11 (.pred 3) (some 40) 1) (withP eight 3 [1, 0, 1, 0, 0, 1, 1, 0])).ag.outst.map fun o => (o.tk, o.kind))
      = [(some 1, .regs [(.v 11 0, 0), (.v 11 1, 1), (.v 11 2, 1), (.v 11 3, 2), (.v 11 4, 2), (.v 11 5, 2), (.v 11 6, 3),
        (.v 11 7, 4), (.s 40, 4)])] := by
  decide

theorem test_vballot :
    ((leaves (.vballot hdr (.reg 12) 3) (withP eight 3 [1, 0, 1, 0, 0, 1, 1, 0])).ag.pend.map fun p => (p.eff, p.val))
      = List.replicate 8 (6, 0x65) := by
  decide

/-- One lane alone. -/
def single (r : List (Nat × Word)) : State :=
  let s := r.foldl (fun s e => withV s e.1 [e.2]) grp
  { s with ag := { s.ag with em := 1 } }

/-- 05 R107: wrap, and saturation with its flag. -/
theorem test_iadd : ((leaves (.iadd hdr (.reg 3) .i32 false (.vreg 1) (.vreg 2)) (single [(1, 0x7FFFFFFF), (2, 1)])).ag.pend.map fun p => p.val)
      = [0x80000000]
    ∧ ((leaves (.iadd hdr (.reg 3) .i32 true (.vreg 1) (.vreg 2)) (single [(1, 0x7FFFFFFF), (2, 1)])).ag.pend.map fun p => (p.loc, p.val))
      = [(.v 3 0, 0x7FFFFFFF), (.fsr, 0x20)] := by
  decide

/-- 05: 0.1 + 0.2 in FP32 by hand: 13421773 · 2^-27 + 13421773 · 2^-26 = 20132659.5 · 2^-26; halfway, to the even 20132660 / 2. -/
theorem test_fadd : ((leaves (.fadd hdr (.reg 3) .rne (.vreg 1) (.vreg 2)) (single [(1, 0x3DCCCCCD), (2, 0x3E4CCCCD)])).ag.pend.map fun p => p.val).head?
    = some 0x3E99999A := by
  decide

/-- 03 R60: a register at the budget traps 0x02 and names the register; the team has no handler here, and is killed. -/
theorem test_budget : (leaves (.iadd hdr (.reg 64) .i32 false (.vreg 1) (.vreg 2)) grp).ag.pend = [] := by decide

/-! ### The worked example of 14 -/

/-- Entry 5 as it starts. -/
def entry5 : List Word := [(0, 0x44180000), (1, 10), (2, 12), (4, 0xFFFFFFFF), (5, 101), (6, 102), (7, 103), (12, 900), (13, 901),
  (32, 0x88000067), (33, 0x1F4), (44, 0xA00001F4)].foldl (fun e x => e.set x.1 x.2) (List.replicate 64 0)

/-- Lines 1 and 2: two drafts; a provisional report of slot 0, then none. -/
def draft1 : WOut := draftTok (fun _ => 0) entry5 500
def draft2 : WOut := draftTok (fun _ => 0) draft1.e 7

theorem test_drafts : word draft1.e 0 = 0x44380000 ∧ word draft1.e 24 = 500 ∧ codeWord0 false 0 draft1.src draft1.code = 0x00000006
    ∧ word draft2.e 0 = 0x44580000 ∧ word draft2.e 25 = 7 ∧ codeWord0 false 0 draft2.src draft2.code = 0x000000F0 := by
  decide

/-- Line 3: the confirm commits the first draft, whose pattern spans committed tokens and drafts; the injection is pending. -/
def confirmed : WOut × Nat := watchOutcome (.tokcf 2) (fun _ => 0) draft2.e 0

theorem test_confirm : word confirmed.1.e 0 = 0x64180000 ∧ word confirmed.1.e 1 = 11
    ∧ (word confirmed.1.e 5, word confirmed.1.e 6, word confirmed.1.e 7) = (102, 103, 500)
    ∧ codeWord0 false confirmed.2 confirmed.1.src confirmed.1.code = 0x00000104 := by
  decide

/-- Line 4: the forced tokens. -/
theorem test_forced : (forcedWrites 44 0 (some confirmed.1.e)).map (fun w => w.2) = [2, 900, 901, 0, 0, 0, 0, 0, 0] := by decide

/-- Line 5: the injection is consumed. -/
def injected : WOut × Nat := watchOutcome .tokc (fun _ => 0) confirmed.1.e 7

theorem test_injected : word injected.1.e 0 = 0x44180000 ∧ word injected.1.e 1 = 13
    ∧ (word injected.1.e 5, word injected.1.e 6, word injected.1.e 7) = (500, 900, 901)
    ∧ codeWord0 false injected.2 injected.1.src injected.1.code = 0x000002F8 := by
  decide

/-- Lines 6 and 7: the token budget stops the sequence; then it is inactive. -/
theorem test_stopped : word (watchOutcome .tokc (fun _ => 0) injected.1.e 8).1.e 0 = 0x84180000
    ∧ codeWord0 false 0 (watchOutcome .tokc (fun _ => 0) injected.1.e 8).1.src (watchOutcome .tokc (fun _ => 0) injected.1.e 8).1.code = 0x81
    ∧ (watchOutcome .tokc (fun _ => 0) (watchOutcome .tokc (fun _ => 0) injected.1.e 8).1.e 9).1.code = 7 := by
  decide

/-! ### Witnesses of the statements' hypotheses -/

/-- System core 0 after the boot, its pcc at 0x1000. -/
def sys : State := { State.reset with ag := Agent.sysStart 0 0 0 0 0x1000 }

/-- The group in kernel mode. -/
def kern : State := { grp with ag := { grp.ag with xstat := xstatInit 0 1 false false } }

/-- The group in a handler, with xpc at 0x2000. -/
def handling : State := { grp with ag := { grp.ag with
  xstat := xstatField (xstatInit 0 1 false false) 7 1 1
  xpc := Cap.memoryRoot 0x2000 } }

/-- Code of 4,096 bytes at 0x2000_0000, with every permission. -/
def codeCap : Cap := capOf 0x20000000 0 0x00800400 0x0001F3F0

/-- The group with that code. -/
def inCode : State := { grp with ag := { grp.ag with pcc := codeCap } }

theorem ready_group (s : State) (rs : List Loc) (h1 : s.ag.isSys = false) (h2 : s.ag.hchk = false) : Ready s rs := by
  refine ⟨fun h => ?_, fun _ h => ?_⟩
  · rw [h1] at h; cases h
  · rw [h2] at h; cases h

theorem ready_sys (s : State) (rs : List Loc) (h1 : s.ag.isSys = true) (h2 : rs.all (fun l => !s.ag.awaited l) = true) :
    Ready s rs := by
  refine ⟨fun _ l hl => ?_, fun h => ?_⟩
  · simpa using List.all_eq_true.mp h2 l hl
  · rw [h1] at h; cases h

theorem lane_ready (s : State) (h : LaneHdr) (ns : List Nat) (rs : List LaneRead) (h1 : s.ag.hchk = false)
    (h2 : ns.all (fun n => decide (n < s.ag.budget)) = true) : LaneReady s h ns rs := by
  refine ⟨fun n hn => ?_, fun h => ?_⟩
  · simpa using List.all_eq_true.mp h2 n hn
  · rw [h1] at h; cases h

theorem witness_ScalarResult :
    (∃ p, Alu grp (.add 4 5 6) p ∧ Instr.wf (.add 4 5 6) = true ∧ Ready grp p.reads)
    ∧ (∃ p, AluImm sys (.muli 4 159 511) p ∧ Instr.wf (.muli 4 159 511) = true ∧ Ready sys p.reads)
    ∧ (∃ p, Alu64 grp (.mulI64 158 4 6) p ∧ Instr.wf (.mulI64 158 4 6) = true ∧ Ready grp p.reads)
    ∧ ∃ p, CapRead grp (.cmov 39 8) p ∧ Instr.wf (.cmov 39 8) = true ∧ Ready grp p.reads :=
  ⟨⟨_, .add 4 5 6, rfl, ready_group _ _ rfl rfl⟩, ⟨_, .muli 4 159 511, rfl, ready_sys _ _ rfl rfl⟩,
    ⟨_, .mulI64 158 4 6, rfl, ready_group _ _ rfl rfl⟩, ⟨_, .cmov 39 8, rfl, ready_group _ _ rfl rfl⟩⟩

theorem witness_CapDerivation :
    (∃ d c, Derive (withC grp 24 codeCap) (.cinci 8 24 0x100) d ∧ Instr.wf (.cinci 8 24 0x100) = true
      ∧ Ready (withC grp 24 codeCap) d.reads ∧ d.out = .ok c)
    ∧ ∃ d, Derive grp (.csetbnd 4 24 8) d ∧ Instr.wf (.csetbnd 4 24 8) = true ∧ Ready grp d.reads ∧ d.out = .error 8 :=
  ⟨⟨_, _, .cinci 8 24 0x100, rfl, ready_group _ _ rfl rfl, rfl⟩, ⟨_, .csetbnd 4 24 8, rfl, ready_group _ _ rfl rfl, rfl⟩⟩

theorem witness_FlowOfControl :
    (∃ f, Transfers inCode (.bcCond .ne 4 3) f ∧ Ready inCode f.reads) ∧ (∃ f, Transfers inCode (.bcCond .eq 4 1023) f)
    ∧ (∃ f, Transfers inCode (.jal 0) f) ∧ (∃ f, Transfers (withC inCode 8 codeCap) (.cjal 8) f)
    ∧ (Ready inCode [.s 4] ∧ holds .eq (inCode.rs 4).toInt
      ∧ ¬ inPcc inCode.ag 1024 ∧ ¬ inPcc inCode.ag (-1))
    ∧ (inCode.rc 24).checkJump = some 8 :=
  ⟨⟨_, .falls .ne 4 3 (by unfold holds; decide), ready_group _ _ rfl rfl⟩,
    ⟨_, .taken .eq 4 1023 (by unfold holds; decide) (by unfold inPcc; decide)⟩,
    ⟨_, .jal 0 (by unfold inPcc; decide)⟩, ⟨_, .cjal 8 (by decide)⟩, ⟨ready_group _ _ rfl rfl, by unfold holds; decide, by unfold inPcc; decide, by unfold inPcc; decide⟩, by decide⟩

/-- The system core with a root at 0x2000 in c8. -/
def sys8 : State := withC sys 8 (Cap.memoryRoot 0x2000)

theorem witness_ScalarAccesses :
    (∃ x s' accs, ScalarAccess sys8 (.ldN32 12 8 none 127) x ∧ Instr.wf (.ldN32 12 8 none 127) = true ∧ Ready sys8 x.reads
      ∧ sys8.checkAccess false x.kind x.size x.size x.write false [x.req] = .ok s' accs)
    ∧ ∃ x s' u, ScalarAccess sys8 (.stcx 12 9 none .rel .dev) x ∧ Instr.wf (.stcx 12 9 none .rel .dev) = true
      ∧ Ready sys8 x.reads ∧ sys8.checkAccess false x.kind x.size x.size x.write false [x.req] = .trap s' u :=
  ⟨⟨_, _, _, .ldN32 12 8 none 127, rfl, ready_sys _ _ rfl rfl, rfl⟩,
    ⟨_, _, _, .stcx 12 9 none .rel .dev, rfl, ready_sys _ _ rfl rfl, rfl⟩⟩

theorem witness_SimpleResult :
    (∃ p, Simple sys (.ctlr 8 0x022) p ∧ Instr.wf (.ctlr 8 0x022) = true ∧ Ready sys p.reads)
    ∧ ∃ p, Simple grp (.emr 8) p ∧ Ready grp p.reads :=
  ⟨⟨_, .tcmp 8 ⟨by decide, by decide⟩ rfl, rfl, ready_sys _ _ rfl rfl⟩,
    ⟨_, .emr 8 rfl (by decide), ready_group _ _ rfl rfl⟩⟩

theorem witness_StateChange :
    (∃ c, Changes kern (.ctlw 8 0x009) c ∧ Instr.wf (.ctlw 8 0x009) = true ∧ Ready kern c.reads)
    ∧ ∃ c, Changes grp (.wtok 15 0) c ∧ Instr.wf (.wtok 15 0) = true ∧ Ready grp c.reads :=
  ⟨⟨_, .xstat 8 ⟨by decide, by decide⟩, rfl, ready_group _ _ rfl rfl⟩, ⟨_, .wtok 15 0 (by decide), rfl, ready_group _ _ rfl rfl⟩⟩

theorem witness_MaskWrite : grp.ag.isSys = false ∧ Ready grp [.s 159] := ⟨rfl, ready_group _ _ rfl rfl⟩

theorem witness_Waiting :
    (∃ c, Waits grp (.wtok 3 1) c ∧ Instr.wf (.wtok 3 1) = true ∧ Ready grp c.reads)
    ∧ (∃ c, Waits sys .wfi c ∧ Ready sys c.reads)
    ∧ (Ready grp [.s 4] ∧ (grp.ag.blocks = [] ∨ grp.ag.hnd = true) ∧ inPcc grp.ag 2
      ∧ (grp.ag.tok (tokenOf grp.ag 3) - (grp.rs 4).setWidth 16).toInt ≥ 0) :=
  ⟨⟨_, .wtok 3 1 (by decide), rfl, ready_group _ _ rfl rfl⟩, ⟨_, .wfi ⟨by decide, by decide⟩ rfl rfl, ready_sys _ _ rfl rfl⟩,
    ready_group _ _ rfl rfl, .inl rfl, by unfold inPcc; decide, by decide⟩

/-- An endpoint with badge 0, which anyone may use, at 0x3000. -/
def endpoint : Cap := capOf 0x3000 0 0x00000100 0x00101030

theorem witness_PostingEnters :
    (∃ p, PostsResult sys (.mreply (some 3)) p ∧ Instr.wf (.mreply (some 3)) = true ∧ Ready sys p.reads)
    ∧ ∃ p, PostsResult (withC grp 24 endpoint) (.msend 24 (some 3)) p ∧ Instr.wf (.msend 24 (some 3)) = true
      ∧ Ready (withC grp 24 endpoint) p.reads :=
  ⟨⟨_, .mreplyNone (some 3) rfl, rfl, ready_sys _ _ rfl rfl⟩,
    ⟨_, .msend 24 _ (some 3) _ rfl rfl, rfl, ready_group _ _ rfl rfl⟩⟩

theorem witness_MoveResult : ∃ m, Moves sys (.tlbi 0 0 .all) m ∧ Instr.wf (.tlbi 0 0 .all) = true ∧ Ready sys m.reads :=
  ⟨_, .tlbiAll 0 0 ⟨by decide, by decide⟩ rfl rfl, rfl, ready_sys _ _ rfl rfl⟩

theorem witness_OuterResult : (∃ p, ResultAt grp (.rdtime 158) p ∧ Instr.wf (.rdtime 158) = true ∧ Ready grp p.reads)
    ∧ ∃ p, ResultAt sys (.swp 4) p ∧ Ready sys p.reads :=
  ⟨⟨_, .rdtime 158, rfl, ready_group _ _ rfl rfl⟩, ⟨_, .swp 4 ⟨by decide, by decide⟩ rfl, ready_sys _ _ rfl rfl⟩⟩

/-- Another group, on the next core, has released a line of DRAM at .core; its store before is not performed further. -/
def noted : State := { grp with coh := { grp.coh with
  early := [⟨1, ⟨70, false, 0, 1, 5⟩, 0, false, .core, 0, .pa 0x10000002000, [5]⟩]
  notes := [⟨⟨70, false, 0, 1, 5⟩, .pa 0x10000002080, 4, [1]⟩] } }

theorem witness_FenceRelease : Ord.ar ≠ .acq ∧ grp.ag.loading [.scalar] grp.ag.nextOp = false
    ∧ (Ord.ar ≠ .rel → grp.notesClear grp.ag = true)
    ∧ (noted.ag.loading [.scalar] noted.ag.nextOp = false ∧ noted.notesClear noted.ag = false) :=
  ⟨by decide, rfl, fun _ => rfl, rfl, by decide⟩

/-- The object at 0x3000 begins with `w` and is in use; `ids` wait there. -/
def object (w : Nat) (ids : List Nat) : State := { grp with
  mem := writeNat (writeNat grp.mem 0x3000 4 w) 0x3008 4 1
  eps := [⟨0x3000, [], ids⟩]
  ag := { grp.ag with wait := if ids = [] then .none else .recv 0x3000 none } }

theorem witness_DepositStatus : (object 0x80000000 []).epDead 0x3000 = true
    ∧ ((object 1 [64]).epDead 0x3000 = false ∧ (object 1 [64]).waitingReceiver ((object 1 [64]).ep 0x3000).receivers = some 64)
    ∧ ((object 1 []).epDead 0x3000 = false ∧ (object 1 []).waitingReceiver ((object 1 []).ep 0x3000).receivers = none
      ∧ ((object 1 []).ep 0x3000).buffer.length < (object 1 []).epCapacity 0x3000)
    ∧ ((object 0 []).epDead 0x3000 = false ∧ (object 0 []).waitingReceiver ((object 0 []).ep 0x3000).receivers = none
      ∧ (object 0 []).epCapacity 0x3000 ≤ ((object 0 []).ep 0x3000).buffer.length) := by
  decide

/-- The group with the endpoint in c24, of capacity 1. -/
def roomy : State := withC (object 1 []) 24 endpoint

theorem witness_CallWaits : ∃ s1, Ready roomy (capLocs 24 ++ messageLocs) ∧ roomy.checkEp (roomy.rc 24) permST = .ok s1 0x3000
    ∧ (s1.ag.blocks = [] ∨ s1.ag.hnd = true) ∧ ReleasedDev s1
    ∧ (s1.publishMine.deposit 0x3000 (messageOf s1 (roomy.rc 24) true)).2 = 1 :=
  ⟨_, ready_group _ _ rfl rfl, rfl, .inl rfl, rfl, rfl⟩

theorem witness_CallWaits_refused : let s := withC (object 0 []) 24 endpoint
    ∃ s1, Ready s (capLocs 24 ++ messageLocs) ∧ s.checkEp (s.rc 24) permST = .ok s1 0x3000
      ∧ (s1.ag.blocks = [] ∨ s1.ag.hnd = true) ∧ ReleasedDev s1
      ∧ (s1.publishMine.deposit 0x3000 (messageOf s1 (s.rc 24) true)).2 = 2 :=
  ⟨_, ready_group _ _ rfl rfl, rfl, .inl rfl, rfl, rfl⟩

theorem witness_ReceiveBegins : ∃ s1, Ready roomy (capLocs 24) ∧ roomy.checkEp (roomy.rc 24) permLD = .ok s1 0x3000
    ∧ (s1.ag.blocks = [] ∨ s1.ag.hnd = true)
    ∧ (let s2 := s1.dropReply s1.ag
      let v : State := { s2 with ag := { s2.ag.leaveIssue with reply := none } }
      v.epDead 0x3000 = false ∧ (v.ep 0x3000).buffer = []) ∧ s1.ag.readHeld 0x3000 = false :=
  ⟨_, ready_group _ _ rfl rfl, rfl, .inl rfl, ⟨rfl, rfl⟩, rfl⟩

theorem witness_ReceiveBegins_now : let m : Message := ⟨[], [], 0, false, none⟩
    let b := { object 1 [] with eps := [⟨0x3000, [m], []⟩] }
    let dead := withC (object 0x80000000 []) 24 endpoint
    let full := withC b 24 endpoint
    (∃ s1, Ready dead (capLocs 24) ∧ dead.checkEp (dead.rc 24) permLD = .ok s1 0x3000
      ∧ (s1.ag.blocks = [] ∨ s1.ag.hnd = true) ∧ s1.ag.readHeld 0x3000 = false
      ∧ (let s2 := s1.dropReply s1.ag
        ({ s2 with ag := { s2.ag.leaveIssue with reply := none } } : State).epDead 0x3000 = true))
    ∧ ∃ s1, Ready full (capLocs 24) ∧ full.checkEp (full.rc 24) permLD = .ok s1 0x3000
      ∧ (s1.ag.blocks = [] ∨ s1.ag.hnd = true) ∧ s1.ag.readHeld 0x3000 = false
      ∧ (let s2 := s1.dropReply s1.ag
        let v : State := { s2 with ag := { s2.ag.leaveIssue with reply := none } }
        v.epDead 0x3000 = false ∧ (v.ep 0x3000).buffer = [m]) :=
  ⟨⟨_, ready_group _ _ rfl rfl, rfl, .inl rfl, rfl, rfl⟩, _, ready_group _ _ rfl rfl, rfl, .inl rfl, rfl, rfl, rfl⟩

theorem witness_ExceptionReturn : (MayKernel handling ∧ handling.ag.hnd = true ∧ handling.ag.xpc.checkJump = none)
    ∧ (MayKernel kern ∧ kern.ag.hnd = false)
    ∧ (let s := { handling with ag := { handling.ag with xpc := Cap.null } }
      MayKernel s ∧ s.ag.hnd = true ∧ s.ag.xpc.checkJump = some 8) :=
  ⟨⟨⟨by decide, by decide⟩, rfl, by decide⟩, ⟨⟨by decide, by decide⟩, rfl⟩, ⟨by decide, by decide⟩, rfl, by decide⟩

theorem witness_ExceptionReturn_stalls : let s : State := { sys with ag := { sys.ag with
      xstat := 0x8A
      outst := [⟨0, false, .scalar, .rlx, .dev, none, .post, [.ct 39], [], false, false⟩] } }
    MayKernel s ∧ s.ag.hnd = true ∧ s.ag.isSys = true ∧ ∃ l ∈ capLocs 39, s.ag.awaited l = true :=
  ⟨⟨by decide, by decide⟩, by decide, by decide, .ct 39, by decide, by decide⟩

theorem witness_GroupEnds : grp.ag.isSys = false ∧ (grp.ag.blocks = [] ∨ grp.ag.hnd = true) ∧ grp.unfinished grp.ag = false :=
  ⟨rfl, .inl rfl, rfl⟩

theorem witness_BreakAndKill : MayKernel kern ∧ Ready kern [.s 8] := ⟨⟨by decide, by decide⟩, ready_group _ _ rfl rfl⟩

theorem witness_PrivilegeTraps : ¬ MayKernel grp ∧ kern.ag.mode ≠ 2 := ⟨fun h => h.1 (by decide), by decide⟩

/-! Lanes -/

theorem witness_LaneResult :
    (∃ f, LaneInteger grp (.iadd hdr (.reg 63) .i32 false (.vreg 1) (.vreg 2)) f ∧ LaneReady grp f.hdr f.names f.reads)
    ∧ (∃ f, LaneFloat grp (.fadd hdr (.reg 3) .rz (.vreg 1) (.imm 7)) f ∧ LaneReady grp f.hdr f.names f.reads)
    ∧ (∃ f, LaneTest grp (.vballot hdr (.reg 12) 63) f ∧ LaneReady grp f.hdr f.names f.reads)
    ∧ ∃ f, LaneCap grp (.vcgetaddr hdr 62 (.c 8)) f ∧ LaneReady grp f.hdr f.names f.reads :=
  ⟨⟨_, .iadd hdr (.reg 63) .i32 false (.vreg 1) (.vreg 2), lane_ready _ _ _ _ rfl rfl⟩,
    ⟨_, .fadd hdr (.reg 3) .rz (.vreg 1) (.imm 7), lane_ready _ _ _ _ rfl rfl⟩,
    ⟨_, .vballot hdr (.reg 12) 63, lane_ready _ _ _ _ rfl rfl⟩, ⟨_, .vcgetaddr hdr 62 (.c 8), lane_ready _ _ _ _ rfl rfl⟩⟩

/-- Lane 0 alone, with a root in c8. -/
def lane0 : State := { withC grp 8 (Cap.memoryRoot 0x2000) with ag := { (withC grp 8 (Cap.memoryRoot 0x2000)).ag with em := 1 } }

theorem witness_LaneDeriveResult :
    (∃ d, LaneDerive lane0 (.vcsetaddr hdr 15 (.c 8) (.imm 0)) d ∧ LaneReady lane0 d.hdr d.names d.reads
      ∧ ∃ g : Nat → Cap, ∀ l ∈ active lane0 d.hdr, d.out l = .ok (g l))
    ∧ ∃ d, LaneDerive lane0 (.vcsetbnd hdr 15 (.c 9) (.imm 0)) d ∧ LaneReady lane0 d.hdr d.names d.reads
      ∧ 0 ∈ active lane0 d.hdr ∧ d.out 0 = .error 8 ∧ ∀ j ∈ active lane0 d.hdr, ∀ e, d.out j = .error e →
        d.rank 0 8 ≤ d.rank j e ∧ (d.rank j e = d.rank 0 8 → 0 ≤ j) := by
  have h0 : active lane0 hdr = [0] := by decide
  refine ⟨⟨_, .vcsetaddr hdr 15 (.c 8) (.imm 0), lane_ready _ _ _ _ rfl rfl, fun _ => (Cap.memoryRoot 0), ?_⟩,
    _, .vcsetbnd hdr 15 (.c 9) (.imm 0), lane_ready _ _ _ _ rfl rfl, ?_, by decide, ?_⟩
  · intro l hl
    have hl : l ∈ active lane0 hdr := hl
    rw [h0, List.mem_singleton] at hl
    subst hl
    decide
  · show 0 ∈ active lane0 hdr
    rw [h0]
    exact List.mem_singleton.mpr rfl
  · intro j hj e he
    have hj : j ∈ active lane0 hdr := hj
    rw [h0, List.mem_singleton] at hj
    subst hj
    refine ⟨?_, fun _ => Nat.le_refl _⟩
    rw [show e = 8 from by simpa using he.symm.trans (show _ = Except.error 8 by decide)]

theorem witness_LaneBlockResult : ∃ f, LaneSx grp (.sxpack hdr 20 .sx4 0 40 3 1) f
    ∧ Instr.wf (.sxpack hdr 20 .sx4 0 40 3 1) = true ∧ (∀ n ∈ f.names, n < 1024) ∧ LaneReady grp f.hdr f.names f.reads :=
  ⟨_, .pack hdr 20 .sx4 0 40 3 1, rfl, by decide, lane_ready _ _ _ _ rfl rfl⟩

theorem witness_BudgetTraps : ∃ f, LaneInteger grp (.iadd hdr (.reg 64) .i32 false (.vreg 1) (.vreg 65)) f
    ∧ Instr.wf (.iadd hdr (.reg 64) .i32 false (.vreg 1) (.vreg 65)) = true
    ∧ f.names.find? (fun k => grp.ag.budget ≤ k) = some 64 :=
  ⟨_, .iadd hdr (.reg 64) .i32 false (.vreg 1) (.vreg 65), rfl, rfl⟩

theorem witness_LaneAccesses :
    (∃ x s' accs, LaneMem lane0 (.ld hdr .n32 .rlx .dev false 20 (.c 8) (.imm 0) 4 (some 2)) x
      ∧ LaneReady lane0 x.hdr x.names x.reads
      ∧ lane0.checkAccess true x.kind x.size x.size x.write x.tolerant x.reqs = .ok s' accs)
    ∧ ∃ x s' u, LaneMem lane0 (.laneStc hdr .rlx .dev 15 (.c 9) (.imm 0) (-16) none) x ∧ LaneReady lane0 x.hdr x.names x.reads
      ∧ lane0.checkAccess true x.kind x.size x.size x.write x.tolerant x.reqs = .trap s' u :=
  ⟨⟨_, _, _, .ld hdr .n32 .rlx .dev false 20 (.c 8) (.imm 0) 4 (some 2), lane_ready _ _ _ _ rfl rfl, rfl⟩,
    _, _, _, .laneStc hdr .rlx .dev 15 (.c 9) (.imm 0) (-16) none, lane_ready _ _ _ _ rfl rfl, rfl⟩

/-- The same group while a load of 2,048 requests is under way. -/
def crowded : State := { lane0 with ag := { lane0.ag with
  outst := [⟨0, true, .lane, .rlx, .dev, none, .mem .load .n32 (.vreg 99) (List.replicate 2048
    ⟨0, .pa 0x10000002000, 0x2000, 7, 0, false, true, 0, true, 0, 0⟩) false, [], [], false, false⟩] } }

theorem witness_LaneAccesses_room :
    (∃ x s' accs, LaneMem crowded (.ld hdr .n32 .rlx .dev false 20 (.c 8) (.imm 0) 4 (some 2)) x
      ∧ LaneReady crowded x.hdr x.names x.reads
      ∧ crowded.checkAccess true x.kind x.size x.size x.write x.tolerant x.reqs = .ok s' accs ∧ s'.roomFor (x.op accs) = false)
    ∧ (∃ x s' accs, ScalarAccess crowded (.ldN32 12 8 none 127) x ∧ Ready crowded x.reads
      ∧ crowded.checkAccess false x.kind x.size x.size x.write false [x.req] = .ok s' accs ∧ s'.roomFor (x.op accs) = false)
    ∧ ∃ x s' accs, LaneMem lane0 (.ld hdr .n32 .rlx .dev false 20 (.c 8) (.imm 0) 4 (some 2)) x
      ∧ lane0.checkAccess true x.kind x.size x.size x.write x.tolerant x.reqs = .ok s' accs ∧ s'.roomFor (x.op accs) = true :=
  ⟨⟨_, _, _, .ld hdr .n32 .rlx .dev false 20 (.c 8) (.imm 0) 4 (some 2), lane_ready _ _ _ _ rfl rfl, rfl, by decide +kernel⟩,
    ⟨_, _, _, .ldN32 12 8 none 127, ready_group _ _ rfl rfl, rfl, by decide +kernel⟩,
    _, _, _, .ld hdr .n32 .rlx .dev false 20 (.c 8) (.imm 0) 4 (some 2), rfl, by decide⟩

/-- A launch of one team on four cores, with team memory and the matrix unit. -/
def theLaunch : Launch where
  id := 2
  ctx := 0x8000
  ctxCap := Cap.null
  space := .boot
  domain := 1
  cpart := 0
  prio := 0
  bmode := 2
  hchk := false
  dims := (1, 1, 1)
  fcores := 4
  spawnSlots := 4
  tmemBytes := 65536
  matrix := true
  roles := []
  arg := Cap.null
  regions := []
  reads := []
  writes := []
  nextTeam := 1
  killed := false
  lost := false
  pid := 0
  tid := 0
  start := 0
  stamps := []
  reserved := []
  waiting := []
  acked := none

/-- Its team, resident on cores 0 to 3 of die 0. -/
def theTeam : Team := ⟨3, 2, 0, 0, 0, .resident, [], [], [], [], [], [], [], 0, [], none, 0⟩

/-- The group as a member of that team. -/
def member : State := { grp with
  teams := [theTeam]
  launches := [theLaunch]
  ag := { grp.ag with
    team := 3
    launch := 2
    em := 1 } }

theorem witness_TeamAccessEnters : ∃ x, TeamMem member (.lds hdr .n64 .rlx .team 20 (.imm 64) 8 (some 1)) x
    ∧ Instr.wf (.lds hdr .n64 .rlx .team 20 (.imm 64) 8 (some 1)) = true ∧ LaneReady member x.hdr x.names x.reads
    ∧ (active member x.hdr) = [0] ∧ ∀ l ∈ active member x.hdr, TeamOk member x.size (x.at_ l) := by
  refine ⟨_, .lds hdr .n64 .rlx .team 20 (.imm 64) 8 (some 1), rfl, lane_ready _ _ _ _ rfl rfl, by decide, fun l _ => ?_⟩
  exact ⟨by show (0 : Int) ≤ teamEa member l (.imm 64) 8; decide +revert, by decide +revert, by decide +revert, by decide +revert, by decide +revert⟩

theorem witness_ToldEnters : ∃ x, Told grp (.vote hdr .any 4 3 2) x ∧ Instr.wf (.vote hdr .any 4 3 2) = true
    ∧ LaneReady grp x.hdr x.names x.reads :=
  ⟨_, .vote hdr .any 4 3 2, rfl, lane_ready _ _ _ _ rfl rfl⟩

theorem witness_PrefetchResult : LaneReady grp hdr (capNames (.c 8) ++ srcNames false (.imm 0))
    (capReads (.c 8) ++ srcReads false (.imm 0)) := lane_ready _ _ _ _ rfl rfl

theorem witness_LaneFenceResult : LaneReady grp hdr [] [] ∧ grp.fenceReady .ar .dev = true
    ∧ grp.ag.loading [.lane] grp.ag.nextOp = false ∧ grp.busy grp.ag [.lane] grp.ag.nextOp .dev = false
    ∧ grp.fromBusy .lane .dev = false ∧ noted.fenceReady .ar .dev = false :=
  ⟨lane_ready _ _ _ _ rfl rfl, by decide, rfl, rfl, by decide, by decide⟩

theorem witness_MatrixInstructions :
    (∃ f, MatrixIssue member (.mclr hdr true 3 (some 1)) f ∧ Instr.wf (.mclr hdr true 3 (some 1)) = true
      ∧ LaneReady member f.hdr f.names f.reads ∧ MayMatrix member f.pair)
    ∧ grp.ownsArray = false
    ∧ (let s := { member with ag := { member.ag with core := 3 } }
      s.ownsArray = true ∧ s.pairPlaced = false)
    ∧ let s := { member with arrays := [⟨0, 0, [], [MatrixOp.blank .clr 0, MatrixOp.blank .clr 1, MatrixOp.blank .clr 2,
        MatrixOp.blank .clr 3]⟩] }
      s.ownsArray = true ∧ s.arrayFull false = true :=
  ⟨⟨_, .mclr hdr true 3 (some 1), rfl, lane_ready _ _ _ _ rfl rfl, by decide, by decide, by decide⟩, by decide,
    ⟨by decide, by decide⟩, by decide, by decide⟩

theorem witness_MrdPops : let s := { member with ag := { member.ag with qmat := [⟨0, 4, none⟩] } }
    s.ag.qmat = [⟨0, 4, none⟩] ∧ (∀ n ∈ (List.range 8).map fun m => 20 + m, n < 1024)
    ∧ LaneReady s hdr ((List.range 8).map fun m => 20 + m) [] ∧ s.ownsArray = true :=
  ⟨rfl, by decide, lane_ready _ _ _ _ rfl rfl, by decide⟩


/-! Events of agents -/

/-- The group with `f` done to its agent. -/
def with_ (f : Agent → Agent) (s : State := grp) : State := { s with ag := f s.ag }

/-- A block of four lane instructions at 0x3000, the next of them the second. -/
def aBlock : Block := ⟨Cap.memoryRoot 0x3000, 0, 4, 1, none, 0⟩

theorem witness_WatchInstructions : ∃ f, Watches grp (.tokc hdr 20 3 8 (.vreg 1) (.imm 7) 1) f
    ∧ Instr.wf (.tokc hdr 20 3 8 (.vreg 1) (.imm 7) 1) = true ∧ (∀ n ∈ f.names, n < 1024)
    ∧ LaneReady grp f.hdr (f.names ++ srcNames false f.seq ++ srcNames false f.tok)
      ([.c f.table] ++ srcReads false f.seq ++ srcReads false f.tok)
    ∧ tableCheck (grp.rc f.table) f.need = some 8 :=
  ⟨_, .tokc hdr 20 3 8 (.vreg 1) (.imm 7) 1, rfl, by decide, lane_ready _ _ _ _ rfl rfl, by decide⟩

theorem witness_SpawnFills : let b : Batch := ⟨1, 2, Cap.null, List.replicate 31 ⟨[], [], 0⟩⟩
    let t : Team := { theTeam with batches := [b] }
    (t.batches.find? fun b => b.target == 1 && b.role == 2) = some b ∧ b.threads.length = 31 := by decide

theorem witness_Queues : let s := with_ fun a => { a with wait := .qpush true ⟨0, [], [], none, 0, 0x5000, 1, 0⟩ }
    (s.focusOn s.ag.id).hasTurn false s.ag = true ∧ s.ag.qcoll.length < 8 := by decide

theorem witness_AgentEvents :
    (∃ s b, s.agent? s.ag.id = some s.ag ∧ AgentEvent s s.ag (.starvationPromotion s.ag.id false) b)
    ∧ (∃ s b, s.agent? s.ag.id = some s.ag ∧ AgentEvent s s.ag (.pauseEnd s.ag.id) b)
    ∧ (∃ s b, s.agent? s.ag.id = some s.ag ∧ AgentEvent s s.ag (.wtokComplete s.ag.id) b)
    ∧ (∃ s b, s.agent? s.ag.id = some s.ag ∧ AgentEvent s s.ag (.yieldReactivation s.ag.id) b)
    ∧ (∃ s b, s.agent? s.ag.id = some s.ag ∧ AgentEvent s s.ag (.lbrxRedirect s.ag.id) b)
    ∧ (∃ s b, s.agent? s.ag.id = some s.ag ∧ AgentEvent s s.ag (.firstTouchPoolRetry s.ag.id) b)
    ∧ (∃ s b, s.agent? s.ag.id = some s.ag ∧ AgentEvent s s.ag (.tcmpReached s.ag.id) b)
    ∧ (∃ s b, s.agent? s.ag.id = some s.ag ∧ AgentEvent s s.ag (.regionSnapshot s.ag.id) b)
    ∧ (∃ s b, s.agent? s.ag.id = some s.ag ∧ AgentEvent s s.ag (.laneFocus s.ag.id 69) b)
    ∧ (∃ s b, s.agent? s.ag.id = some s.ag ∧ AgentEvent s s.ag (.laneFocusRelease s.ag.id 128) b) :=
  ⟨⟨with_ fun a => { a with waitScalar := 4096 }, _, by decide, .scalarStarved (by decide) rfl⟩,
    ⟨with_ (fun a => { a with pauseEnd := 5 }) { grp with clk := 6 }, _, by decide, .pauseEnd (by decide)⟩,
    ⟨with_ (fun a => { a with wait := .bar 0x6000 0 }) { member with teams := [{ theTeam with barriers := [⟨0x6000, 1, [], []⟩] }] }, _,
      by decide, .barrier 0x6000 0 rfl (by decide)⟩,
    ⟨with_ fun a => { a with wait := .yield 3 0 0x2000 }, _, by decide, .yielded 3 0 0x2000 (by decide) rfl (by unfold Reached; decide)⟩,
    ⟨with_ fun a => { a with redirect := some Cap.null }, _, by decide,
      .redirect Cap.null (by decide) rfl rfl rfl (.inl rfl) rfl rfl⟩,
    ⟨with_ fun a => { a with
      touching := some ⟨0x5000, true, false⟩
      space := .obj 0x4000 }, _, by decide, .touch 0x5000 0x4000 true false rfl rfl (fun _ h => by cases h)⟩,
    ⟨with_ (fun a => { a with tcmp := 7 }) { sys with time := 7 }, _, by decide, .timer rfl rfl (by decide)⟩,
    ⟨{ member with launches := [{ theLaunch with regions := [(0x1000, 0x1100)] }] }, _, by decide,
      .snapshot (0x1000, 0x1100) (by decide) (by decide) rfl (by unfold Drained; decide) rfl⟩,
    ⟨with_ (fun a => { a with blocks := [aBlock] }) handling, _, by decide,
      .focus 69 aBlock [] (by decide) rfl (by decide) (by decide) rfl rfl (by decide)⟩,
    ⟨with_ (fun a => { a with blocks := [aBlock] }) handling, _, by decide, .unfocus 128 (by decide) rfl (by decide)⟩⟩


/-- A table of four entries. -/
def table : Cap := (match (Cap.memoryRoot 0x20000).setBounds 1024 false with
  | .ok c => c
  | .error _ => Cap.null).withSeal 6

/-- The member with the table in c8. -/
def atTable : State := withC member 8 table

theorem witness_WatchInstructions_done :
    ∃ f s' accs, Watches atTable (.tokc hdr 20 3 8 (.imm 3) (.imm 7) 1) f
      ∧ LaneReady atTable f.hdr (f.names ++ srcNames false f.seq ++ srcNames false f.tok)
        ([.c f.table] ++ srcReads false f.seq ++ srcReads false f.tok)
      ∧ tableCheck (atTable.rc f.table) f.need = none
      ∧ atTable.checkXlated true 6 false (atTable.watchXlate (f.need == permST) (watchAccesses atTable f)) = .ok s' accs
      ∧ accs.length = 3 :=
  ⟨_, _, _, .tokc hdr 20 3 8 (.imm 3) (.imm 7) 1, lane_ready _ _ _ _ rfl rfl, by decide, rfl, by decide⟩

theorem witness_LbrxSends : LaneReady member hdr [1] [.v 1, .c 8]
    ∧ ((with_ (fun a => { a with blocks := [aBlock] })).ag.blocks.head?.any fun b => b.idx + 1 < b.count) = true
    ∧ (member.ag.blocks.head?.any fun b => b.idx + 1 < b.count) = false
    ∧ ∃ v ts, member.resolveTargets (member.rc 8) [] (member.lbrxTargets (member.laneActive hdr) 1 (member.rc 8)) = .ok (v, ts)
      ∧ ts.length = 1 :=
  ⟨lane_ready _ _ _ _ rfl rfl, by decide, by decide, _, _, rfl, by decide⟩

/-- A mover, and a lane whose target fails a check. -/
theorem witness_LbrxSends_stops : (let s := { member with ag := { member.ag with
        xstat := xstatInit 0 1 false true
        outst := [⟨0, true, .lane, .rlx, .grp, none, .post, [.v 12 4], [], false, false⟩] } }
      s.moverHazard [(4, 0x1000, .ok [3]), (5, 0x2000, .ok []), (6, 0x2000, .ok [])] = some 3)
    ∧ member.moverHazard [(5, 0x2000, .ok []), (6, 0x3000, .bad 0x0B 3)] = none
    ∧ member.moversFit codeCap [(5, 0x2000, .ok []), (6, 0x3000, .bad 0x0B 3)] = true := by decide

theorem witness_QueueAndDelay : let c : Command := ⟨0, [], [], none, 0, 0, 0, 0⟩
    let s := with_ fun a => { a with wait := .qpush false c }
    let r := with_ fun a => { a with
      wait := .qpop 4
      qmat := [⟨0, 2, some []⟩] }
    (s.agent? s.ag.id = some s.ag ∧ s.ag.wait = .qpush false c ∧ s.ag.qcopy.length < 8
      ∧ (s.focusOn s.ag.id).hasTurn false s.ag = true)
    ∧ (r.agent? r.ag.id = some r.ag ∧ r.ag.wait = .qpop 4 ∧ (r.focusOn r.ag.id).hasTurn false r.ag = true)
    ∧ let u := with_ fun a => { a with wait := .token 3 0 }
      u.ag.wait = .token 3 0 ∧ Reached u.ag 3 0 ∧ (u.focusOn u.ag.id).hasTurn false u.ag = true := by
  unfold Reached
  decide

theorem witness_TrapEvents :
    (∃ (s : State) (u : Agent) (x : Trap), s.agent? s.ag.id = some s.ag ∧ TrapEvent s.ag (.interruptTrap s.ag.id) u x)
    ∧ (∃ (s : State) (u : Agent) (x : Trap), s.agent? s.ag.id = some s.ag ∧ TrapEvent s.ag (.singleStepTrap s.ag.id) u x)
    ∧ ∃ (s : State) (u : Agent) (x : Trap), s.agent? s.ag.id = some s.ag ∧ TrapEvent s.ag (.engineFaultDelivery s.ag.id) u x :=
  ⟨⟨with_ (fun a => { a with
      ipend := 4
      xstat := 0 }) sys, _, _, by decide,
      .interrupt (by unfold Clear; decide) rfl (by decide) (by decide) rfl (fun _ n h => by cases h) rfl rfl⟩,
    ⟨with_ fun a => { a with stepping := .due false 0 }, _, _, by decide,
      .step false 0 (by unfold Clear; decide) rfl (fun _ => rfl) (fun o h => by cases h)⟩,
    ⟨with_ fun a => { a with heldFaults := [(⟨0x06, 0, 0, 0, false⟩, some 3)] }, _, _, by decide,
      .fault _ (some 3) [] (by unfold Clear; decide) rfl (fun _ n h => by cases h) rfl rfl⟩⟩

theorem witness_OperationLands : let o : Op := ⟨0, true, .lane, .rlx, .grp, some 3, .regs [(.s 4, 7)], [.s 4], [], false, false⟩
    let s := with_ fun a => { a with outst := [o] }
    s.agent? s.ag.id = some s.ag ∧ s.ag.op? o.num = some o ∧ Known s.ag o.kind [(.s 4, 7)]
    ∧ ∀ w ∈ [((Loc.s 4), (7 : Word))], Placed w.1 :=
  ⟨by decide, by decide, .regs _, fun w hw => by simp at hw; subst hw; trivial⟩

theorem witness_OperationLands_masks : let lend : Op := ⟨0, true, .lane, .rlx, .grp, some 3, .lend 6, [.em, .lm], [], false, false⟩
    let won : Op := { lend with kind := .lbrx 6 (some codeCap) }
    let subs : Op := ⟨1, true, .lane, .rlx, .grp, some 3, .subs 0 1 true .n32 false 0x10000002000 128 128 1, [], [], false, false⟩
    let s := fun o : Op => with_ fun a => { a with outst := [o] }
    ∀ o ∈ [lend, won, subs], (s o).agent? (s o).ag.id = some (s o).ag ∧ (s o).ag.op? o.num = some o ∧ Completes (s o).ag o
      (.laneMemoryCompletion (s o).ag.id o.num) ∧ .em ∉ o.dead ∧ .lm ∉ o.dead := by
  intro lend won subs s o h
  simp only [List.mem_cons, List.not_mem_nil, or_false] at h
  obtain rfl | rfl | rfl := h <;> exact ⟨by decide, by decide, .lane rfl, by decide, by decide⟩

/-- A word stored to DRAM by system core 0. -/
def storeOp (k : OpKind) : Op := ⟨0, false, .scalar, .rlx, .dev, some 3, k, [], [], false, false⟩
def anAcc : Acc := ⟨0, .pa 0x10000002000, 0x2000, 7, 0, false, true, 0, true, 0, 0⟩
def storing (k : OpKind) : State := with_ (fun a => { a with outst := [storeOp k] }) sys

theorem witness_AccessPerformed :
    (∃ st, Lone (storing (.mem .store .n32 .none [anAcc] false)) (storing (.mem .store .n32 .none [anAcc] false)).ag
        (storeOp (.mem .store .n32 .none [anAcc] false)) anAcc 0x10000002000 4
      ∧ Performs (storing (.mem .store .n32 .none [anAcc] false)) 0x10000002000 anAcc (.mem .store .n32 .none [anAcc] false) 4 st [])
    ∧ ∃ ws, Lone (storing (.mem .load .n32 (.sreg 8) [anAcc] false)) (storing (.mem .load .n32 (.sreg 8) [anAcc] false)).ag
        (storeOp (.mem .load .n32 (.sreg 8) [anAcc] false)) anAcc 0x10000002000 4
      ∧ Performs (storing (.mem .load .n32 (.sreg 8) [anAcc] false)) 0x10000002000 anAcc (.mem .load .n32 (.sreg 8) [anAcc] false) 4 none ws := by
  refine ⟨⟨_, ⟨by decide, rfl, by decide, rfl, by decide, by decide, rfl, rfl, by decide, ⟨1, by decide, by decide⟩, (fun e h => by cases h),
      by decide, by decide, fun _ => ?_⟩, .store .n32⟩, _,
    ⟨by decide, rfl, by decide, rfl, by decide, by decide, rfl, rfl, by decide, ⟨1, by decide, by decide⟩, (fun e h => by cases h),
      by decide, fun h => ?_, fun h => ?_⟩, .load .n32 8 rfl⟩
  · unfold MayWrite; decide
  · cases h
  · cases h

theorem witness_AccessPerformed_team : let x : Machine.Acc := { anAcc with place := .team 64 }
    let o := fun k : OpKind => (⟨0, true, .lane, .rlx, .team, some 3, k, [], [], false, false⟩ : Op)
    let s := fun k : OpKind => { member with ag := { member.ag with outst := [o k] } }
    let load : OpKind := .mem .load .n32 (.vreg 4) [x] false
    let store : OpKind := .mem .store .n32 .none [x] false
    (LoneTeam (s load) (s load).ag (o load) x 64 ∧ x.lane < 32) ∧ LoneTeam (s store) (s store).ag (o store) x 64 :=
  ⟨⟨⟨by decide, rfl, by decide, rfl, by decide, by decide, by decide, rfl, rfl, by decide⟩, by decide⟩,
    by decide, rfl, by decide, rfl, by decide, by decide, by decide, rfl, rfl, by decide⟩

theorem witness_ExportReturns :
    let o := storeOp (.mem .loadCap .n32 (.creg 8) [{ anAcc with place := .pa 0x8000000000000 }] false)
    let s := with_ (fun a => { a with outst := [o] }) sys
    ∃ r, s.agent? s.ag.id = some s.ag ∧ s.ag.op? o.num = some o ∧ isPeer 0x8000000000000 = true ∧ s.mayGo s.ag o = true
      ∧ s.earlyOf s.ag.id o.num = [] ∧ s.peerCap 4 0x8000000000000 = none
      ∧ s.fabric.pkgid < 2 ^ 11 ∧ ComesBack s (s.backFromPeer 0) r :=
  ⟨_, by decide, by decide, by decide, by decide, by decide, by decide, by decide, .stale fun h => h.1 (by decide)⟩

/-- The table of exports at 0x4000: its entry 0 is valid, of generation 0. -/
theorem witness_ExportReturns_original : let s := { sys with
      fabric := { sys.fabric with
        exppa := 0x4000
        expfree := 0 }
      mem := writeNat [] 0x4010 4 0x8000 }
    ∃ r, ComesBack s (capOf 0 0x80000 0 0) r ∧ s.fabric.pkgid < 2 ^ 11 :=
  ⟨_, .original (by decide) (by decide) (by decide) (by decide), by decide⟩

theorem witness_IssueChoice : grp.ag.isSys = false ∧ (grp.candidates 0 0 0 false).length = 1
    ∧ (grp.candidates 0 0 0 true).length = 0 ∧ ¬ Filled grp 0 0 0 false
    ∧ Filled (grp.take false) 0 0 0 false := by
  unfold Filled
  decide

/-! Events of the device -/

/-- A message of die 1 for line 7, and the entry of that line at the home. -/
def msg (k : MsgKind) (src dst : Nat) : Msg := ⟨0, k, 7, src, dst, 5, 0, false, .s, none⟩
def dirEntry (st : DirState) (ms : List Member) : DirEntry := ⟨7, st, ms, .getX, 1, 0, false, none, 0, none, []⟩
def homeState (m : Msg) (e : DirEntry) (r : List RdcLine := []) : State := { grp with coh := { grp.coh with
  msgs := [m]
  dir := [e]
  rdc := r } }

theorem arrives {s : State} {k : Nat} {kind : MsgKind} {m : Msg} {e : DirEntry}
    (h1 : (s.coh.msgs.find? fun x => x.id == k && x.kind == kind) = some m) (h2 : s.entry m.line = e)
    (h3 : kind ≠ .getS ∧ kind ≠ .getSub) : Arrives s k kind m e :=
  ⟨h1, h2, fun h => h.elim (fun h => absurd h h3.1) fun h => absurd h h3.2⟩

theorem witness_HomeEvents :
    (∃ s t, HomeEvent s (.gets 0) t) ∧ (∃ s t, HomeEvent s (.getsub 0) t) ∧ (∃ s t, HomeEvent s (.getx 0) t)
    ∧ (∃ s t, HomeEvent s (.wrh 0) t) ∧ (∃ s t, HomeEvent s (.putx 0) t) ∧ (∃ s t, HomeEvent s (.ack 0) t)
    ∧ ∃ s t, HomeEvent s (.data 0) t :=
  ⟨⟨homeState (msg .getS 1 5) (dirEntry .owned [⟨2, false, 0⟩]), _, .getsOwned 0 _ _ ⟨rfl, rfl, fun _ => by decide⟩ rfl (by decide)⟩,
    ⟨homeState (msg .getSub 1 5) (dirEntry .shared [⟨2, false, 0⟩]), _, .getsub 0 _ _ ⟨rfl, rfl, fun _ => by decide⟩ (.inr rfl)⟩,
    ⟨homeState (msg .getX 1 5) (dirEntry .shared [⟨2, false, 0⟩]), _, .getxShared 0 _ _ (arrives rfl rfl (by decide)) (.inr rfl) (by decide) (by decide)⟩,
    ⟨with_ (fun a => { a with outst := [storeOp (.mem .store .n32 .none [anAcc] false)] })
      (homeState { msg .wrH 1 5 with txn := some (64, 0) } (dirEntry .shared [])), _,
      .wrh 0 _ _ (64, 0) _ (storeOp (.mem .store .n32 .none [anAcc] false)) (arrives rfl rfl (by decide)) rfl rfl rfl (.inr rfl)⟩,
    ⟨homeState (msg .putX 1 5) (dirEntry .owned [⟨1, false, 0⟩]), _, .putx 0 _ _ (arrives rfl rfl (by decide)) rfl rfl⟩,
    ⟨homeState (msg .ack 2 5) { dirEntry .transient [⟨2, false, 0⟩] with acks := 1 }, _,
      .ackLast 0 _ _ (arrives rfl rfl (by decide)) rfl (by decide) rfl rfl (by decide)⟩,
    ⟨homeState (msg .data 5 1) (dirEntry .shared []), _, .dataFills 0 _ _ (arrives rfl rfl (by decide)) (by decide)⟩⟩

/-- A narrow store of another group of core 0 of die 0. -/
def narrowStore : State := { grp with coh := { grp.coh with
  early := [⟨1, ⟨70, false, 0, 0, 5⟩, 0, true, .core, 0, .pa 0x10000002000, [5]⟩] } }

def narrowNoted : State := { narrowStore with coh := { narrowStore.coh with
  notes := [⟨⟨70, false, 0, 0, 5⟩, .pa 0x10000002080, 4, [1]⟩] } }

theorem witness_CacheEvents :
    (∃ s t, CacheEvent s (.inv 0) t) ∧ (∃ s t, CacheEvent s (.fwds 0) t) ∧ (∃ s t, CacheEvent s (.fwdx 0) t)
    ∧ (∃ s t, CacheEvent s (.upd 0) t) ∧ (∃ s t, CacheEvent s (.wback 0) t) ∧ (∃ s t, CacheEvent s (.rdcEviction 1 7) t)
    ∧ (∃ s t, CacheEvent s (.leaseExpiry 0 0 7) t) ∧ (∃ s t, CacheEvent s (.dirtyWriteBack 0 0 0x200000040) t)
    ∧ (∃ s t, CacheEvent s (.forcedPublish 0 0 0x200000041) t) ∧ ∃ s t, CacheEvent s (.clockStop 0 0) t :=
  ⟨⟨homeState (msg .inv 5 1) (dirEntry .transient []), _, .inv 0 _ _ (arrives rfl rfl (by decide)) (.inl (by decide))⟩,
    ⟨homeState { msg .fwdS 5 1 with req := 2 } (dirEntry .transient []) [⟨1, 7, .e, 0, false⟩], _,
      .fwds 0 _ _ _ (arrives rfl rfl (by decide)) rfl rfl (by decide)⟩,
    ⟨homeState { msg .fwdX 5 1 with req := 2 } (dirEntry .transient []) [⟨1, 7, .m, 0, false⟩], _,
      .fwdx 0 _ _ _ (arrives rfl rfl (by decide)) rfl rfl (by decide) (by decide)⟩,
    ⟨homeState (msg .upd 5 1) (dirEntry .transient []), _, .upd 0 _ _ (arrives rfl rfl (by decide))⟩,
    ⟨homeState (msg .wbAck 5 1) (dirEntry .shared []) [⟨1, 7, .m, 0, true⟩], _, .wback 0 _ _ _ (arrives rfl rfl (by decide)) rfl rfl⟩,
    ⟨homeState { msg .upd 5 2 with line := 8 } (dirEntry .shared []) [⟨1, 7, .s, 0, false⟩], _,
      .evictShared 1 7 _ rfl (by decide) (.inl rfl)⟩,
    ⟨{ grp with coh := { grp.coh with l1 := [⟨0, 0, 7, 20, 0, none, []⟩] } }, _, .lease 0 0 7 _ rfl rfl (fun _ h => by cases h) (by decide)⟩,
    ⟨narrowStore, _, .writeBack 0 0 0x200000040 (show narrowStore.drainOk (leftBehind narrowStore 0 0 0x200000040) = true by decide)⟩,
    ⟨narrowNoted, _, .published 0 0 0x200000041 _ (List.mem_singleton.mpr rfl) rfl rfl rfl rfl
      (show narrowNoted.publishOk 0 0 = true by decide)⟩,
    ⟨grp, _, .clockStop 0 0 (by decide)⟩⟩

theorem witness_TimeEvents : (∃ t, TimeEvent grp .deviceTimeTick t) ∧ (∃ t, TimeEvent grp (.timeCopyCheck 3) t)
    ∧ (∃ s t, TimeEvent s (.timeCopyCheck 3) t ∧ s.clockOffset 3 = 21)
    ∧ (∃ s t, TimeEvent s (.timeCopyCheck 64) t ∧ s.clockOffset 64 = -21)
    ∧ ∃ s t, TimeEvent s (.timeCopyCheck 257) t ∧ s.clockOffset 257 = -21 :=
  ⟨⟨_, .tick⟩, ⟨_, .inTime 3 (by decide)⟩,
    ⟨{ grp with clockOff := [(3, 21)] }, _, .system 3 (.inr (by decide)) (by decide), by decide⟩,
    ⟨{ grp with clockOff := [(64, -21)] }, _, .core 0 0 (by decide) (by decide) (.inl (by decide)) (by decide), by decide⟩,
    ⟨{ grp with clockOff := [(257, -21)] }, _, .unitBehind 1 (by decide) (by decide), by decide⟩⟩

/-- The mailbox at work on a command. -/
def mailbox (code arg : Nat) (r : Option Nat := none) : State := { grp with islet := { grp.islet with
  mbstat := 1
  mbcmd := code
  mbarg := arg
  mbres := r } }

theorem witness_IsletEvents : (∃ s t, IsletEvent s .bootok t) ∧ (∃ s t, IsletEvent s .stage t) ∧ (∃ s t, IsletEvent s .logrd t)
    ∧ (∃ s t, IsletEvent s .fuse t) ∧ (∃ s t, IsletEvent s .mailboxCommandEnd t) ∧ ∃ s t, IsletEvent s (.getMeasurements 5) t :=
  ⟨⟨mailbox 1 0, _, .bootok (by unfold Doing; decide)⟩, ⟨mailbox 2 0, _, .stage (by unfold Doing; decide)⟩,
    ⟨mailbox 3 0x1000, _, .logrd (by unfold Doing; decide) (by decide) (by decide) (by decide)⟩,
    ⟨mailbox 4 65, _, .fuseRefused (by unfold Doing; decide) (by decide) (by decide)⟩,
    ⟨mailbox 4 0 (some 0), _, .commandEnd 0 rfl (by decide) rfl⟩, ⟨grp, _, .measured 5⟩⟩

theorem witness_PowerEvents : (∃ s t, PowerEvent s (.powerManagerStep 2401) t) ∧ (∃ s t, PowerEvent s (.leakageUpdate 0 5) t)
    ∧ (∃ s t, PowerEvent s .powerAlertAssert t) ∧ (∃ s t, PowerEvent s .powerAlertRelease t)
    ∧ (∃ t, PowerEvent grp (.spareExchange 0 47) t) ∧ (∃ t, PowerEvent grp (.spareExchange 0 48) t)
    ∧ ∃ t, PowerEvent grp (.spareExchange 4 7) t :=
  ⟨⟨{ grp with time := 1000 }, _, .managed 2401 (by decide)⟩, ⟨{ grp with time := 100000 }, _, .leakage 0 5 (by decide)⟩,
    ⟨{ grp with
      time := 1000000
      islet := { grp.islet with overSince := some 0 } }, _, .alert 0 rfl rfl (by decide)⟩,
    ⟨{ grp with
      time := 1000000
      islet := { grp.islet with
        alert := true
        underSince := some 0 } }, _, .release 0 rfl rfl (by decide)⟩,
    ⟨_, .drain 0 47 (by decide) (by decide) (by decide)⟩, ⟨_, .live 0 48 (by decide) (by decide)⟩, ⟨_, .waitsReset 7 (by decide) (by decide)⟩⟩

theorem witness_RegisterEvents : (∃ t, RegisterEvent grp (.partcfgWrite 0) t) ∧ (∃ t, RegisterEvent grp (.linkpartWrite 1) t)
    ∧ (∃ t, RegisterEvent grp (.coherenceControlWrite 2 5) t) ∧ (∃ t, RegisterEvent grp (.coherenceControlWrite 2 101) t)
    ∧ (∃ s t, RegisterEvent s (.exppaWrite 0x1000) t) ∧ (∃ t, RegisterEvent grp (.revocationRegisterWrite 0 1) t)
    ∧ (∃ t, RegisterEvent grp (.revocationRegisterWrite 2 0x200000) t) ∧ (∃ t, RegisterEvent grp (.registerWrite 0x7000000 9) t)
    ∧ (∃ s t, RegisterEvent s .keyLoad t) ∧ (∃ t, RegisterEvent grp (.stop 0 0) t) ∧ ∃ t, RegisterEvent grp (.acctArm 3 1) t :=
  ⟨⟨_, .partcfg 0 (by unfold PartOk; decide)⟩, ⟨_, .linkpartIgnored 1 ⟨0, by decide, by decide⟩⟩,
    ⟨_, .coherence 2 5 (by decide)⟩, ⟨_, .coherenceIgnored 2 101 (by decide)⟩,
    ⟨{ grp with fabric := { grp.fabric with expfree := 0xFFFF } }, _, .exppa 0x1000 ⟨rfl, .inl (by decide)⟩⟩,
    ⟨_, .rmap 1 (by decide)⟩, ⟨_, .rvlen 0x200000 (by decide) (by decide) (by decide)⟩, ⟨_, .mbarg 9⟩,
    ⟨{ grp with keys := { grp.keys with
      kstat := 1
      kcmd := 200 } }, _, .keyLoad rfl (by decide) (by decide)⟩, ⟨_, .stop 0 0⟩, ⟨_, .armed 3 1 (by decide)⟩⟩

/-- Port 0 has a table of interrupts at 0x4000 whose entry 3 names memory of partition 1. -/
def foreignPort : State := { grp with
  fabric := { grp.fabric with
    partcfg := 0x0000040001000010
    ports := grp.fabric.ports.map fun p => { p with msix := 0x4000 } }
  mem := writeNat [] 0x4018 8 0x2000003000 }

theorem witness_LinkEvents : (∃ t, LinkEvent grp (.linkTraining 0 5) t) ∧ (∃ t, LinkEvent grp (.flitReplay 0) t)
    ∧ (∃ t, LinkEvent grp (.linkFailure 0) t) ∧ (∃ t, LinkEvent grp (.linkPeerLoss 15) t) ∧ (∃ t, LinkEvent grp (.linkSpareLane 0) t)
    ∧ (∃ t, LinkEvent grp (.msixWrite 0 2048) t) ∧ (∃ s t, LinkEvent s (.msixWrite 0 3) t) ∧ (∃ t, LinkEvent grp (.portTransferComplete 0) t)
    ∧ ∃ t, LinkEvent grp (.peerAccessRequest ⟨0, 0, 0, 4, true, 0, 0, 0⟩) t :=
  ⟨⟨_, .training 0 5⟩, ⟨_, .replay 0⟩, ⟨_, .failure 0⟩, ⟨_, .peerLost 15⟩, ⟨_, .spare 0⟩,
    ⟨_, .msixNone 0 2048 _ rfl (.inr (by decide))⟩, ⟨foreignPort, _, .msixForeign 0 3 _ rfl (by decide) (by decide) (by decide)⟩, ⟨_, .transferred 0 _ rfl (by decide)⟩,
    ⟨_, .peerRefused _ fun h => h.1 (by decide)⟩⟩

theorem witness_SweepEvents : (∃ s t, SweepEvent s .sweepPassBegin t) ∧ (∃ s t, SweepEvent s .sweepPassComplete t)
    ∧ (∃ t, SweepEvent grp (.traceSample 0) t) ∧ ∃ t, SweepEvent grp (.crashDump 0) t :=
  ⟨⟨{ grp with sweep := { grp.sweep with waiting := some 3 } }, _, .begins 3 rfl rfl⟩,
    ⟨{ grp with sweep := { grp.sweep with running := some 3 } }, _, .ends 3 rfl⟩, ⟨_, .noSample 0 (by decide)⟩,
    ⟨_, .notArmed 0 (by decide)⟩⟩

/-- A command of the group at an engine; it copies one row of no bytes. -/
def aCommand (coll : Bool) : EngineCmd where
  id := 0
  coll := coll
  num := 0
  agent := some 64
  walk := none
  team := 0
  die := 0
  cpart := 0
  space := .boot
  mode := 1
  domain := 0
  words := List.replicate 16 0
  tags := [true, true, true, true]
  tk := none
  obj := 0x5000
  rank := 0
  inst := 0
  seen := false
  waitPage := none
  done := []

/-- The group with a command in each queue. -/
def queued : State := with_ fun a => { a with
  qcopy := [⟨0, [], [], none, 0, 0, 0, 0⟩]
  qcoll := [⟨0, [], [], none, 0, 0, 0, 0⟩] }

/-- A request for a page, in the ring at 0x6000, which its server has declined. -/
def declinedPage : State := { grp with
  pages := [⟨0, 0, 0x4000, 0x1000, 0, some 0, none, none⟩]
  mem := writeNat (writeNat (writeNat (writeNat [] 0x40C0 8 0x6000) 0x40CC 4 1) 0x6000 8 0x1000) 0x600C 4 3 }

theorem witness_EngineEvents :
    (∃ s t, EngineEvent s (.copyAccept 64) t) ∧ (∃ s t, EngineEvent s (.collectiveAccept 64) t)
    ∧ (∃ s t, EngineEvent s (.copyCompletion 0) t) ∧ (∃ s t, EngineEvent s (.collectiveCompletion 0) t)
    ∧ (∃ s t, EngineEvent s (.pageRequestPost 0) t) ∧ ∃ s t, EngineEvent s (.pageRequestRecheck 0) t :=
  ⟨⟨queued, _, .copyAccept queued.ag _ [] (by decide) rfl rfl⟩, ⟨queued, _, .collAccept queued.ag _ [] (by decide) rfl rfl⟩,
    ⟨{ grp with cmds := [aCommand false] }, _, .copied 0 _ _ _ rfl rfl (by decide)⟩,
    ⟨{ grp with cmds := [aCommand true] }, _, .collReads 0 _ rfl (by unfold MayRun; decide) rfl⟩,
    ⟨{ grp with pages := [⟨0, 0, 0x4000, 0x1000, 0, none, none, none⟩] }, _, .pageDeclined 0 _ rfl (by decide)⟩,
    ⟨declinedPage, _, .pageFailed 0 _ 0 rfl (by decide) rfl (fun _ _ _ h => WalkRes.noConfusion (h.symm.trans
      (show declinedPage.walk (declinedPage.pageWho ⟨0, 0, 0x4000, 0x1000, 0, some 0, none, none⟩) 0x1000 = .bad by decide)))
      (by decide) (by decide)⟩⟩

/-- A watch instruction whose steps are done. -/
def watchOp : Op := ⟨0, true, .lane, .rlx, .dev, some 3, .watch .tokrj table 0 0 [] [] [], [], [], false, false⟩
def watching : State := with_ fun a => { a with outst := [watchOp] }

theorem witness_ArrayEvents : (∃ s t, ArrayEvent s (.matrixStart 0 0) t) ∧ (∃ s t, ArrayEvent s (.matrixCompletion 0 0) t)
    ∧ ∃ s t, ArrayEvent s (.watchStepCompletion 64 0) t :=
  ⟨⟨{ member with arrays := [⟨0, 0, [], [MatrixOp.blank .clr 0]⟩] }, _,
      .start 0 0 (MatrixOp.blank .clr 0) ⟨rfl, by
        intro c hc
        have hc : c = 0 := by simpa [arraysOf, MatrixOp.blank] using hc
        subst hc
        exact ⟨MatrixOp.blank .clr 0, [], by decide⟩⟩⟩,
    ⟨{ member with arrays := [⟨0, 0, [], [{ MatrixOp.blank .clr 0 with started := true }]⟩] }, _, .cleared 0 0 _ [] rfl rfl rfl⟩,
    ⟨watching, _, .watchEnd watching.ag watchOp .tokrj table 0 0 [] (by decide) (by decide) rfl (by decide)⟩⟩

theorem witness_TeamEvents : (∃ s t, TeamEvent s (.spawnedGroupStart 3) t) ∧ (∃ s t, TeamEvent s (.teamExit 3) t)
    ∧ (∃ s t, TeamEvent s (.teamKill 3 5) t) ∧ (∃ s t, TeamEvent s (.preemption 3) t)
    ∧ ∃ s t, TeamEvent s (.teamPlacement 2 0 0) t :=
  ⟨⟨{ member with teams := [{ theTeam with built := [⟨1, 0, Cap.null, []⟩] }] }, _,
      .spawned 3 _ _ _ [] ⟨rfl, rfl⟩ rfl rfl (by decide)⟩,
    ⟨{ grp with
      teams := [theTeam]
      launches := [theLaunch] }, _, .exited 3 _ _ ⟨rfl, rfl⟩ (by unfold Finished; decide) (by decide)⟩,
    ⟨{ member with teams := [{ theTeam with dying := some ⟨5, 0, 0, 0⟩ }] }, _, .killed 3 _ ⟨5, 0, 0, 0⟩ rfl rfl (by decide)⟩,
    ⟨{ member with
      ctxs := [⟨0x8000, 0, 0, 0, false, true⟩]
      mem := writeNat [] 0x8068 4 5 }, _,
      .preempted 3 _ _ ⟨rfl, rfl⟩ rfl (.inl (by decide)) (by decide) (by decide) (fun _ => by decide) (by decide)⟩,
    ⟨member, _, .notPlaced 2 0 0 (by decide)⟩⟩

theorem witness_LaunchEvents : (∃ s t, LaunchEvent s (.killRequest 0x8000) t) ∧ (∃ s t, LaunchEvent s (.budgetExhausted 0x8000) t)
    ∧ (∃ s t, LaunchEvent s (.watchdogExpiry 0x8000) t) ∧ (∃ s t, LaunchEvent s (.usedUpdate 0x8000) t)
    ∧ (∃ s t, LaunchEvent s (.launchRecordUpdate 2) t) ∧ ∃ s t, LaunchEvent s (.launchCompletion 2) t :=
  ⟨⟨{ member with mem := writeNat [] 0x8078 8 2 }, _, .killRequest 0x8000 _ rfl⟩,
    ⟨{ member with
      ctxs := [⟨0x8000, 5000, 0, 0, false, false⟩]
      mem := writeNat [] 0x8068 4 5 }, _, .exhausted 0x8000 _ rfl (by decide) (by decide)⟩,
    ⟨{ member with ctxs := [⟨0x8000, 0, 0, 0, false, false⟩] }, _, .quiet 0x8000 _ _ [] rfl rfl (.inl (by decide))⟩,
    ⟨{ member with ctxs := [⟨0x8000, 1000, 0, 0, false, false⟩] }, _, .used 0x8000 _ rfl (by decide) (by decide)⟩,
    ⟨member, _, .record theLaunch rfl (by decide)⟩, ⟨{ member with teams := [] }, _, .ended theLaunch rfl (by unfold Over; decide) (by decide) (fun w hw => by cases hw)⟩⟩

/-- A walk of a graph of two nodes at 0x40000, at node 0. -/
def aWalk : Walk where
  id := 0
  graph := (match (Cap.memoryRoot 0x40000).setBounds 1024 false with
    | .ok c => c
    | .error _ => Cap.null)
  pa := 0x40000
  space := .boot
  mode := 1
  domain := 0
  cpart := 0
  pid := 0
  tid := 0
  node := 0
  running := []
  ended := false
  failed := false
  acked := none

/-- Its first node is of this kind. -/
def walking (kind : Nat) : State := { grp with
  walks := [aWalk]
  mem := writeNat (writeNat [] 0x40000 4 2) 0x40040 4 kind }

theorem witness_NodeEvents : (∃ t, NodeEvent (walking 0) (.endNode 0) t) ∧ (∃ t, NodeEvent (walking 4) (.conditionalNode 0) t)
    ∧ ∃ s t, NodeEvent s (.endNode 0) t :=
  ⟨⟨_, .ends aWalk false 2 _ ⟨rfl, ⟨rfl, rfl⟩, rfl, by decide, by decide, by decide, by decide, rfl⟩⟩,
    ⟨_, .badTarget aWalk false 2 0 _ ⟨rfl, ⟨rfl, rfl⟩, rfl, by decide, by decide, by decide, by decide, rfl⟩ (by unfold NodeWord; decide) (by decide)⟩,
    ⟨{ grp with walks := [aWalk] }, _, .fallsOff aWalk 0 rfl ⟨rfl, rfl⟩ (by decide) (by decide)⟩⟩

/-! Traps, registers, checks, the step -/

theorem witness_Resets :
    (({ grp with dbg := grp.dbg.map fun d => { d with crash := 1 } } : State).dbgOf 0).crash.testBit 0 = true := by decide

theorem witness_TrapEntry : let s := with_ fun a => { a with kentry := codeCap }
    s.ag.hnd = false ∧ s.ag.kentry.tag = true := by decide

theorem witness_TrapInHandler : (handling.ag.hnd = true ∧ handling.ag.isSys = false)
    ∧ (sys.ag.kentry.tag = false ∧ sys.ag.isSys = true) ∧ (member.ag.kentry.tag = false ∧ ∃ u ∈ member.teams, u.id = member.ag.team) := by
  decide

theorem witness_HardWired : (3 < 4 ∧ 159 < 160 ∧ 158 % 2 = 0 ∧ 39 < 40) ∧ (grp.ag.gov = [] ∧ grp.ag.raw (.ct 39) = 0)
    ∧ Cap.null.tag = false := by decide

theorem witness_CursorMove : Instr.wf (.csetaddr 158 39 38) = true ∧ Instr.wf (.cinci 38 39 8191) = true
    ∧ (let s := withC grp 39 codeCap
      Ready s (capLocs 39 ++ [.s 158, .s 159]) ∧ (s.rc 39).tag = true ∧ (s.rc 39).sealType = 0) :=
  ⟨by decide, by decide, ready_group _ _ rfl rfl, by decide, by decide⟩

theorem witness_Delivered : [Cap.null, Cap.null, Cap.null, codeCap].length = 4 ∧ 3 < 4 := by decide

/-- A root at 0x2000. -/
def root : Cap := Cap.memoryRoot 0x2000

/-- A request of lane 3. -/
def request (c : Cap) (ea : Int) : Req := ⟨3, c, ea, [permLD], 0, 0, false⟩

/-- No physical address is assigned at 0x4000000000000 (20 R376). -/
theorem witness_AccessChecks_walk : PassBefore 4 4 13 [request root 0x4000000000000]
    ∧ (∀ r ∈ [request root 0x4000000000000], ∀ a p z, grp.xlateMine (r.cap.want false) r.va ≠ .touch a p z)
    ∧ (∃ r ∈ [request root 0x4000000000000], FailsXlate grp false 0x10 r)
    ∧ ∀ r ∈ [request root 0x4000000000000], ∀ d, FailsXlate grp false d r → xlateStep 0x10 < xlateStep d ∨ d = 0x10 := by
  have h : grp.xlateMine (root.want false) (request root 0x4000000000000).va = .fail 0x10 := by decide
  refine ⟨?_, ?_, ⟨_, List.mem_singleton.mpr rfl, .inl h⟩, ?_⟩
  · intro r hr j hj hf
    simp only [List.mem_singleton] at hr
    subst hr
    unfold FailsCheck at hf
    split at hf
    · exact absurd (show root.tag = false from hf) (by decide)
    · exact absurd (show root.sealType ≠ 0 ∧ root.isExport = false from hf) (by decide)
    · exact absurd (show ∃ p ∈ [permLD], root.has p = false from hf) (by decide)
    · revert hf; decide
    · revert hf; decide
    · exact hf.elim
  · intro r hr a p z hx
    simp only [List.mem_singleton] at hr
    subst hr
    exact XRes.noConfusion (h.symm.trans hx)
  · intro r hr d hd
    simp only [List.mem_singleton] at hr
    subst hr
    obtain hd | ⟨hd, -⟩ := hd
    · exact .inr (XRes.fail.inj (h.symm.trans hd)).symm
    · exact XRes.noConfusion (h.symm.trans hd)

theorem witness_AccessChecks :
    ((∃ r ∈ [request Cap.null 0], FailsCheck 4 4 8 r) ∧ PassBefore 4 4 8 [request Cap.null 0])
    ∧ ((∃ r ∈ [request root 0x2001], FailsCheck 4 4 12 r) ∧ PassBefore 4 4 12 [request root 0x2001])
    ∧ (PassBefore 4 4 13 [request root 0x2FFC]
      ∧ ∀ r ∈ [request root 0x2FFC], ∃ pa o pte z, grp.xlateMine (r.cap.want false) r.va = .ok pa o pte z) := by
  have h0 : ∀ k, FailsCheck 4 4 k (request Cap.null 0) → 8 ≤ k := by
    intro k h
    by_contra hk
    have hk : k < 8 := by omega
    interval_cases k <;> exact h
  have h1 : ∀ x : Int, (root.base : Int) ≤ x → x + 4 ≤ root.top → ∀ k, FailsCheck 4 4 k (request root x) → k = 12 ∧ x % 4 ≠ 0 := by
    intro x hx hy k h
    unfold FailsCheck at h
    split at h
    · exact absurd (show root.tag = false from h) (by decide)
    · exact absurd (show root.sealType ≠ 0 ∧ root.isExport = false from h) (by decide)
    · exact absurd (show ∃ p ∈ [permLD], root.has p = false from h) (by decide)
    · simp only [request] at h; omega
    · exact ⟨rfl, h⟩
    · exact h.elim
  refine ⟨⟨⟨_, List.mem_singleton.mpr rfl, rfl⟩, ?_⟩, ⟨⟨_, List.mem_singleton.mpr rfl, ?_⟩, ?_⟩, ?_, ?_⟩
  · intro r hr j hj h; simp at hr; subst hr
    exact absurd (h0 j h) (by omega)
  · show (0x2001 : Int) % 4 ≠ 0; decide
  · intro r hr j hj h; simp at hr; subst hr
    exact absurd (h1 _ (by decide) (by decide) j h).1 (by omega)
  · intro r hr j hj h; simp at hr; subst hr
    exact absurd (h1 _ (by decide) (by decide) j h).2 (by decide)
  · intro r hr; simp at hr; subst hr
    exact ⟨0x2FFC, 0, 8223, 12, by decide⟩

theorem witness_WatchRules : let e := entry5
    e.length = 64 ∧ (OverTokens (e.set 1 12)) ∧ ¬ OverTokens e ∧ ¬ OverCost (fun _ => 0) e 7 ∧ OverCost (fun _ => 5) (e.set 4 4) 7
    ∧ Wins e 0 (windowOf e 500) ∧ (∀ k, ¬ Wins e k (windowOf e 7))
    ∧ (ctlOf (e.set 0 0)).state ≠ 1 ∧ (ctlOf e).state = 1 ∧ (ctlOf e).ipend = 0 ∧ (ctlOf e).dcnt < 8 := by
  refine ⟨by decide, by unfold OverTokens; decide, by unfold OverTokens; decide, by unfold OverCost; decide, by unfold OverCost; decide,
    ?_, ?_, by decide, by decide, by decide, by decide⟩
  · unfold Wins Fits; decide
  · intro k
    by_cases hk : k < 8
    · unfold Wins Fits
      interval_cases k <;> decide
    · exact fun h => hk h.1

theorem witness_GroupCreation : let b : Built := ⟨1, 0, Cap.null, List.replicate 32 ⟨[(3, 7), (1023, 9)], [255], 0⟩⟩
    b.threads.length ≤ 32 ∧ ∀ th ∈ b.threads, (th.regs.map fun e => e.1).Nodup := by decide

/-- A block of two instructions. -/
def twoLong : Block := ⟨Cap.memoryRoot 0x3000, 0x3000, 2, 0, none, 0⟩

/-- The group with a word at its pc, that of `addi 43, 40, 2` (08, listing), and a block of a lane instruction
twice, by default a `vballot` of 09; a schedule that begins with `x`. -/
def due (x : Slot) (w : Nat := 0x9800000000C6018000000000) : State := { grp with
  mem := writeNat (writeNat [] 0x1000 4 0x2CACA002) 0x3000 24 (w + w * 2 ^ 96)
  ag := { grp.ag with
    blocks := [twoLong]
    xstat := xstatInit 0 0 false false }
  schedule := [x] }

theorem witness_StepRuns : Taken (due (.event .deviceTimeTick)) (.event .deviceTimeTick) [] ∧ encode .deviceTimeTick = none
    ∧ Taken (due (.focus 3)) (.focus 3) []
    ∧ ({ grp with powered := false } : State).powered = false
    ∧ ({ grp with powered := false } : State).nextSlot.1 ≠ .event .packageReset :=
  ⟨⟨rfl, rfl⟩, rfl, ⟨rfl, rfl⟩, rfl, by decide⟩

/-- The state in which the issue slot finds the group. -/
def issuing (x : Slot) (w : Nat := 0x9800000000C6018000000000) : State := (taking (due x w) []).beginIssue

/-- The same without a block: the lane slot of the partition takes no group, so the scalar slot is open. -/
def scalarDue : State := { due (.issue false) with ag := { (due (.issue false)).ag with blocks := [] } }
def scalarIssuing : State := (taking scalarDue []).beginIssue

theorem witness_StepRuns_scalar : ∃ u v, ScalarComes scalarDue u v (.addi 43 40 2) := by
  refine ⟨_, _, [], 0x1000, 0, 4127, 12, ⟨rfl, rfl⟩, ?_, ?_, ?_, .inl rfl, ?_, ?_, ?_, rfl, ?_, fun _ => ⟨?_, rfl⟩⟩
  · show scalarIssuing.ag.due = .nothing; decide
  · show scalarIssuing.scalarReady scalarIssuing.ag = true; decide
  · show scalarIssuing.needsSnapshot = false; decide
  · show scalarIssuing.ag.pcc.check [permXS] scalarIssuing.ag.pc 4 4 = none; decide
  · show scalarIssuing.xlateMine { scalarIssuing.ag.pcc.want false with fetch := true }
      scalarIssuing.ag.pc = .ok 0x1000 0 4127 12
    decide
  · show decodeScalar (scalarIssuing.codeAt 0 0x1000) = _
    have h : scalarIssuing.codeAt 0 0x1000 = 0x2CACA002 := by
      decide
    rw [h]
    rfl
  · intro h
    exact absurd (show false = true from h) (by decide)
  · show scalarIssuing.hasTurn false scalarIssuing.ag = true; decide

/-- The lane slot is the group's, as the fetch finds it. -/
def turned (w : Nat := 0x9800000000C6018000000000) : State := (freed ((issuing (.issue true) w).take true) true).coverFocus

/-- What the lane stream fetches at an address. -/
def fetched (w a : Nat) : State × Nat :=
  match (turned w).fetchWords (Cap.memoryRoot 0x3000) a 3 with
  | .bits v w => (v, w)
  | _ => (grp, 0)

theorem fetched_bits (w a n : Nat) (h : (fetched w a).2 = n) (hn : n ≠ 0) :
    (turned w).fetchWords (Cap.memoryRoot 0x3000) a 3 = .bits (fetched w a).1 n := by
  revert h
  unfold fetched
  cases (turned w).fetchWords (Cap.memoryRoot 0x3000) a 3 with
  | bits v w => rintro rfl; rfl
  | fault v c => intro h; exact absurd (show (0 : Nat) = n from h) (Ne.symm hn)
  | again v => intro h; exact absurd (show (0 : Nat) = n from h) (Ne.symm hn)

theorem witness_StepRuns_lane : LaneComes (due (.issue true)) (fetched 0x9800000000C6018000000000 0x3000).1
    (.vballot hdr (.reg 12) 3) none :=
  ⟨[], twoLong, [], 0x9800000000C6018000000000, ⟨rfl, rfl⟩, by decide, by decide, by decide,
    ⟨rfl, by decide, fetched_bits _ _ _ (by decide) (by decide)⟩, rfl, by decide, by decide⟩

/-- The first instruction of a pair, and its mate. -/
def firstOne : Instr := .iadd ⟨true, false, 0⟩ (.reg 3) .i32 false (.vreg 1) (.vreg 2)

theorem witness_StepRuns_pair : ∃ v t, LaneComes (due (.issue true) 0x030002000030008008000000) v firstOne (some firstOne)
    ∧ exec firstOne { v with ag := { v.ag with pairing := .first } } = .next t := by
  refine ⟨(fetched 0x030002000030008008000000 0x3000).1, _, ⟨[], twoLong, [], 0x030002000030008008000000, ⟨rfl, rfl⟩, by decide, by decide,
    by decide, ⟨rfl, by decide, fetched_bits _ _ _ (by decide) (by decide)⟩, rfl, by decide, ?_⟩, rfl⟩
  rfl

theorem witness_StepRuns_clk : let s : State := { State.reset with
      rest := [grp.ag]
      schedule := [.clk] }
    Taken s .clk [] ∧ (∃ a ∈ (taking s []).agents, a.isSys = false ∧ ∃ lane, (taking s []).slotOpen a.die a.core a.part lane = true)
    ∧ Taken { s with rest := [] } .clk [] ∧ ∀ a ∈ (taking { s with rest := [] } []).agents, a.isSys = true := by
  unfold Taken
  decide

theorem witness_StepRuns_fetch : Taken (due (.fetch 64 true true)) (.fetch 64 true true) []
    ∧ Taken (due (.copy 1 0 0)) (.copy 1 0 0) [] ∧ Taken (due (.drift 300 5)) (.drift 300 5) [] :=
  ⟨⟨rfl, rfl⟩, ⟨rfl, rfl⟩, rfl, rfl⟩

/-! Traps and the step -/

/-- 19 R370, the handler's trap entry: the user's registers, modes and addresses. -/
def faulting : State := with_ fun a => { a with
  xstat := 0
  kentry := codeCap
  kscr := codeCap
  pcc := Cap.memoryRoot 0x100000000C
  blocks := [⟨Cap.memoryRoot 0x1000400000, 0x1000400000, 1, 0, none, 0⟩] }

theorem test_trap_entry : let a := (faulting.trap ⟨0x10, 0x1000010000, 4, 0, true⟩).ag
    a.xcause = 0x10 ∧ a.xaddr = 0x1000010000 ∧ a.xlanes = 4 ∧ a.xinfo = 0 ∧ a.xpc.addr = 0x100000000C ∧ a.xlpc = 0x1000400000
    ∧ a.pmode = 0 ∧ a.mode = 1 ∧ a.hnd = true ∧ a.xstat.getLsbD 6 = true ∧ quadOf a 39 = codeCap := by decide

/-- 02 R54, 19 R356, R368: a trap without a tagged kentry kills the team. -/
theorem test_kill : ((member.trap ⟨0x08, 0, 0, 0, false⟩).teams.map fun t => t.phase) = [.gone] := by decide

/-- 08 R163, 07 R141: a step of a group fetches, decodes and runs the word of `addi 43, 40, 2`. -/
theorem test_step : (match step (scalarDue.withFetchWord 32 0x2CACA002) with
    | .next t => t.ag.raw (.s 43)
    | _ => 0) = 2 := by decide +kernel

/-- 07 R141, 03 R66: from reset, a placed lane instruction runs in the lane stream of a group (log 4), a result for each lane. -/
theorem test_step_lane : (match step (State.reset.withFetchWord 96 0x9800000000C6018000000000) with
    | .next t => t.ag.pend.length
    | _ => 0) = 32 := by decide +kernel
end

section
/-!
SUPPORT. The registers with rules of their own (03 R58, R61): hard-wired places, the tag of a quad, the guard p0; and
the statement about them.
-/

namespace Sys2Proof.Proofs.HardWired

open Machine Claims Laws

/-! ### Reads -/

/-- A hard-wired place is read as it is, whatever governs it. -/
theorem rdAt_fixed (a : Agent) (fresh key : Nat) {l : Loc} (h : l.fixed = true) : a.rdAt fresh key l = a.raw l := by
  simp [Agent.rdAt, h]

/-- A place that no operation governs is read as it is (R75). -/
theorem rdAt_ungoverned (a : Agent) (fresh key : Nat) {l : Loc} (h : ∀ g ∈ a.gov, g.loc ≠ l) :
    a.rdAt fresh key l = a.raw l := by
  have hnone : a.gov.filter (fun g => g.loc == l) = [] := by simpa [List.filter_eq_nil_iff] using h
  simp [Agent.rdAt, hnone]

/-- s0 to s3 are read as zero (R58). -/
theorem rdAt_s_hardWired (a : Agent) (fresh key : Nat) {n : Nat} (h : n < 4) : a.rdAt fresh key (.s n) = 0 := by
  rw [rdAt_fixed _ _ _ (by simpa [Loc.fixed] using h), Agent.raw, if_pos h]

theorem rs_hardWired (s : State) {n : Nat} (h : n < 4) : s.rs n = 0 := rdAt_s_hardWired _ _ _ h

theorem rc_zero (s : State) : s.rc 0 = Cap.null := by
  have htag : s.ag.rdAt s.fresh (Loc.ct 0).key (.ct 0) = 0 := rdAt_fixed (l := .ct 0) _ _ _ rfl
  simp [State.rc, Agent.rdCap, rdAt_s_hardWired, htag, Cap.null]

theorem rd_p0 (s : State) (l : Nat) : s.rd (.p 0 l) = 1 :=
  rdAt_fixed (l := .p 0 l) s.ag s.fresh (Loc.p 0 l).key rfl

theorem rc_tag_of_clear (s : State) {q : Nat} (hg : ∀ g ∈ s.ag.gov, g.loc ≠ .ct q) (h : s.ag.raw (.ct q) = 0) :
    (s.rc q).tag = false := by
  show (s.ag.rdAt _ _ (.ct q) != 0) = false
  rw [rdAt_ungoverned _ _ _ hg, h]
  rfl

/-! ### Writes -/

/-- A write of a hard-wired place is discarded. -/
theorem put_fixed (a : Agent) {l : Loc} (v : Word) (h : l.fixed = true) : a.put l v = a := by
  cases l with
  | s n => exact if_pos (by simpa [Loc.fixed] using h)
  | p n k => exact if_pos (by simpa [Loc.fixed] using h)
  | ct q => exact if_pos (by simpa [Loc.fixed] using h)
  | _ => cases h

theorem write_fixed_readsAs (a : Agent) {l : Loc} (v : Word) (h : l.fixed = true) : ReadsAs (a.write l v) a := by
  intro l'
  rw [Agent.write, put_fixed _ _ h, raw_supersede]

theorem writes_fixed_readsAs (a : Agent) (ws : List (Loc × Word)) (h : ∀ w ∈ ws, w.1.fixed = true) :
    ReadsAs (a.writes ws) a := by
  induction ws generalizing a with
  | nil => exact fun _ => rfl
  | cons w ws ih =>
    intro l
    calc ((a.write w.1 w.2).writes ws).raw l = (a.write w.1 w.2).raw l :=
          ih _ (fun x hx => h x (List.mem_cons_of_mem _ hx)) l
      _ = a.raw l := write_fixed_readsAs a w.2 (h w List.mem_cons_self) l

theorem capWrites_zero_fixed (c : Cap) : ∀ w ∈ capWrites 0 c, w.1.fixed = true := by
  simp [capWrites, Loc.fixed]

/-- A write of integer bits clears the tag of the quad (R58). -/
theorem raw_write_s_tag (a : Agent) (v : Word) {n : Nat} (h : 4 ≤ n) : (a.write (.s n) v).raw (.ct (n / 4)) = 0 :=
  raw_put_s_tag _ n v h

/-- Both words of a pair lie in one quad, whose tag the second write clears. -/
theorem raw_writes_pair_tag (a : Agent) (v : DWord) {n : Nat} (h : 4 ≤ n) (heven : n % 2 = 0) :
    (a.writes (pairWrites n v)).raw (.ct (n / 4)) = 0 := by
  have hquad : n / 4 = (n + 1) / 4 := by omega
  rw [hquad]
  exact raw_write_s_tag (a.write (.s n) (loWord v)) (hiWord v) (by omega)

/-- A place that good writes change holds what they write. -/
theorem raw_writes_of_mem (a : Agent) {ws : List (Loc × Word)} (hg : Good ws) {w : Loc × Word}
    (hw : w ∈ ws) (hl : w.1.fixed = false) : (a.writes ws).raw w.1 = w.2 := by
  have h := raw_writes_mem a ws hg.places hg.order hg.back (fun b l h c => raw_fixed b c l h) w hw
  simpa [hl] using h

theorem words_rejoined (b : BitVec 128) :
    b.extractLsb' 96 32 ++ b.extractLsb' 64 32 ++ b.extractLsb' 32 32 ++ b.extractLsb' 0 32 = b := by
  rw [BitVec.extractLsb'_append_extractLsb'_eq_extractLsb' (show 96 = 64 + 32 from rfl),
    BitVec.extractLsb'_append_extractLsb'_eq_extractLsb' (show 64 = 32 + 32 from rfl),
    BitVec.extractLsb'_append_extractLsb'_eq_extractLsb' (show 32 = 0 + 32 from rfl), BitVec.extractLsb'_eq_self]

/-- A quad whose words and tag read as those of `c` holds `c`. -/
theorem quadOf_eq {a : Agent} {q : Nat} {c : Cap} (h : ∀ w ∈ capWrites q c, a.raw w.1 = w.2) : quadOf a q = c := by
  simp only [capWrites, List.forall_mem_cons] at h
  obtain ⟨h0, h1, h2, h3, htag, -⟩ := h
  rw [quadOf, h0, h1, h2, h3, htag, words_rejoined]
  obtain ⟨bits, tag⟩ := c
  cases tag <;> rfl

theorem capWrites_not_fixed (c : Cap) {q : Nat} (h : 0 < q) : ∀ w ∈ capWrites q c, w.1.fixed = false := by
  have hs (k : Nat) : ¬ 4 * q + k < 4 := by omega
  simp [capWrites, Loc.fixed, hs, h.ne']

/-- A quad holds the capability written to it, with its tag (R58). -/
theorem quadOf_writes_cap (a : Agent) (c : Cap) {q : Nat} (h0 : 0 < q) (hq : q < 40) :
    quadOf (a.writes (capWrites q c)) q = c :=
  quadOf_eq fun w hw => raw_writes_of_mem a (good_cap q c hq) hw (capWrites_not_fixed c h0 w hw)

/-! ### The checks of an untagged capability -/

theorem check_untagged {c : Cap} (h : c.tag = false) (need : List Nat) (ea : Int) (n align : Nat) :
    c.check need ea n align = some 8 := by
  simp [Cap.check, h]

theorem checkPlain_untagged {c : Cap} (h : c.tag = false) (need : List Nat) (ea : Int) (n align : Nat) :
    c.checkPlain need ea n align = some 8 := by
  simp [Cap.checkPlain, h, check_untagged]

theorem checkObject_untagged {c : Cap} (h : c.tag = false) (ty : Nat) (need : List Nat) :
    c.checkObject ty need = some 8 := by
  simp [Cap.checkObject, h]

theorem checkJump_untagged {c : Cap} (h : c.tag = false) : c.checkJump = some 8 := by
  simp [Cap.checkJump, h]

/-! ### The guard -/

/-- The active lanes are those of the issue mask in which the guard, inverted or not, holds (R12). -/
theorem getLsbD_laneActive (s : State) (h : LaneHdr) {l : Nat} (hl : l < 32) :
    (s.laneActive h).getLsbD l = (s.ag.issueMask.getLsbD l && ((s.rd (.p h.gp l) != 0) != h.gn)) := by
  show (maskOf s.ag.issueMask fun l => (s.rd (.p h.gp l) != 0) != h.gn).getLsbD l = _
  rw [maskOf_where _ _ _ fun _ => rfl, mask_and_where _ _ _ hl]

/-- p0 as the guard lets every lane of the issue mask through; inverted, none (R61). -/
theorem getLsbD_laneActive_p0 (s : State) (h : LaneHdr) (hp : h.gp = 0) {l : Nat} (hl : l < 32) :
    (s.laneActive h).getLsbD l = (s.ag.issueMask.getLsbD l && !h.gn) := by
  rw [getLsbD_laneActive s h hl, hp, rd_p0]
  cases h.gn <;> rfl

theorem laneActive_not_p0 (s : State) (h : LaneHdr) (hp : h.gp = 0) (hn : h.gn = true) : s.laneActive h = 0 := by
  apply BitVec.eq_of_getLsbD_eq
  intro l hl
  simp [getLsbD_laneActive_p0 s h hp hl, hn]

theorem laneActive_p0 (s : State) (h : LaneHdr) (hp : h.gp = 0) (hn : h.gn = false) :
    s.laneActive h = s.ag.issueMask := by
  apply BitVec.eq_of_getLsbD_eq
  intro l hl
  simp [getLsbD_laneActive_p0 s h hp hl, hn]

/-- Settles O47: hard-wired places are read as they stand and discard writes, a write of integer bits clears the tag of
its quad, and a capability written to a quad is there whole. -/
theorem hardWired : Obligations.HardWired := by
  unfold Obligations.HardWired
  refine ⟨fun s => ⟨rc_zero s, fun _ => rs_hardWired s⟩, ?fixedScalar, ?quad, ?word, ?pair, ?clearTag, ?untagged, rd_p0,
    ?fixedPredicate, fun s h hp => ⟨laneActive_not_p0 s h hp, laneActive_p0 s h hp⟩⟩
  case fixedScalar =>
    exact fun a v => ⟨fun n hn => write_fixed_readsAs a v (by simpa [Loc.fixed] using hn),
      write_fixed_readsAs a v rfl⟩
  case quad =>
    exact fun a c => ⟨writes_fixed_readsAs a _ (capWrites_zero_fixed c), fun _ => quadOf_writes_cap a c⟩
  case word =>
    intro a n v h _
    have hfree : (Loc.s n).fixed = false := by simpa [Loc.fixed] using h
    exact ⟨by rw [raw_write_s, hfree]; rfl, raw_write_s_tag a v h⟩
  case pair => exact fun a n v h _ heven => raw_writes_pair_tag a v h heven
  case clearTag => exact fun s q _ hg h => rc_tag_of_clear s hg h
  case untagged =>
    exact fun c h need ea n align ty => ⟨check_untagged h need ea n align, checkPlain_untagged h need ea n align,
      checkObject_untagged h ty need, checkJump_untagged h⟩
  case fixedPredicate => exact fun a l v => write_fixed_readsAs a v rfl

end Sys2Proof.Proofs.HardWired
end

section
/-!
SUPPORT. Capabilities of messages (04 R100, R101): when one loses its tag, and that the receiver's c8 to c11 are written
with what is delivered; and the statement about them.
-/

namespace Sys2Proof.Proofs.Delivered

open Machine Claims

/-! ### One capability -/

/-- A capability that lacks GLOB, or is foreign and lacks EXPORT, loses its tag and nothing else (R101). -/
theorem delivered_of_barred {c : Cap} {d : Nat}
    (h : c.has permGLOB = false ∨ (c.owner ≠ 0 ∧ c.owner ≠ d ∧ c.has permEXPORT = false)) :
    c.delivered d = { c with tag := false } :=
  if_pos (by simpa [and_assoc] using h)

/-- Any other capability arrives unchanged (R101). -/
theorem delivered_of_not_barred {c : Cap} {d : Nat}
    (h : ¬ (c.has permGLOB = false ∨ (c.owner ≠ 0 ∧ c.owner ≠ d ∧ c.has permEXPORT = false))) :
    c.delivered d = c :=
  if_neg (by simpa [and_assoc] using h)

theorem delivers_delivered (c : Cap) (d : Nat) : Delivers c d (c.delivered d) :=
  ⟨delivered_of_barred, delivered_of_not_barred⟩

/-! ### The four capabilities of a message -/

/-- Each entry of a list stands in the list's numbering by position. -/
theorem mem_range_zip_getD {α : Type} (l : List α) (x : α) {k : Nat} (hk : k < l.length) :
    (k, l.getD k x) ∈ (List.range l.length).zip l := by
  have hzip : k < ((List.range l.length).zip l).length := by simpa using hk
  have hentry : ((List.range l.length).zip l)[k] = (k, l.getD k x) := by simp [hk]
  exact hentry ▸ List.getElem_mem hzip

/-- Capability `k` of a message is written, as it is delivered, to quad `8 + k` (R100). -/
theorem capWrites_subset_messageWrites (words : List Word) {caps : List Cap} (d : Nat) {k : Nat} (hk : k < 4)
    (hlen : caps.length = 4) :
    capWrites (8 + k) ((caps.getD k .null).delivered d) ⊆ messageWrites words caps d := by
  have hnumbered : (k, caps.getD k .null) ∈ (List.range 4).zip caps := by
    have h := mem_range_zip_getD caps .null (hlen.symm ▸ hk)
    rwa [hlen] at h
  intro w hw
  exact List.mem_append_right _ (List.mem_flatten.mpr ⟨_, List.mem_map_of_mem hnumbered, hw⟩)

/-- Settles O49: a capability of a message loses its tag exactly when R101 bars it, and c8 to c11 are written with the
four as they are delivered. -/
theorem delivered : Obligations.Delivered := by
  unfold Obligations.Delivered
  exact ⟨delivers_delivered, fun words _ d _ hk hlen _ hw => capWrites_subset_messageWrites words d hk hlen hw⟩

end Sys2Proof.Proofs.Delivered
end

section
/-!
SUPPORT. The integer instructions and the reads of capabilities (08 R165 to R170, R174): each passes the gate of its
reads and ends with its writes after its latency; and the statement about them.
-/

namespace Sys2Proof.Proofs.ScalarResult

open Machine Claims Laws

/-- The model runs `i` as `p` says: the gate of its reads, then its writes after its latency, which read back. -/
structure RunsAs (s : State) (i : Instr) (p : Plain) : Prop where
  runs : exec i s = s.gate p.reads (s.doneIn p.lat p.writes)
  lat_pos : 1 ≤ p.lat
  good : Good p.writes

/-- An instruction that the model runs as `p` completes whenever it may issue (01 R22, 03 R65, R66). -/
theorem RunsAs.completes {s : State} {i : Instr} {p : Plain} (h : RunsAs s i p) (hr : Ready s p.reads) :
    ∃ t, exec i s = .next t ∧ Result s t p.lat p.writes := by
  rw [h.runs]
  exact gate_next hr (doneIn_result s p.lat p.writes h.lat_pos h.good)

/-- "There for the next instruction" is latency 1 (03 R65). -/
theorem done_eq_doneIn_one (s : State) (ws : List (Loc × Word)) : s.done ws = s.doneIn 1 ws := by
  simp [State.doneIn]

section
variable {s : State} {i : Instr}

/-! ### The shared forms -/

theorem runsAs_twoRegs {lat d a b : Nat} {f : Word → Word → Word} (hl : 1 ≤ lat)
    (hi : exec i s = s.regForm lat d a b f) : RunsAs s i (twoRegs s lat d a b f) :=
  ⟨hi, hl, good_s _ _⟩

theorem runsAs_oneReg {lat d a : Nat} {f : Word → Word} (hl : 1 ≤ lat)
    (hi : exec i s = s.oneForm lat d a f) : RunsAs s i (oneReg s lat d a f) :=
  ⟨hi, hl, good_s _ _⟩

theorem runsAs_twoPairs {lat d a b : Nat} {f : DWord → DWord → DWord} (hl : 1 ≤ lat)
    (hi : exec i s = s.pairForm lat d a b f) : RunsAs s i (twoPairs s lat d a b f) :=
  ⟨hi, hl, good_pair _ _ _ _ (by omega)⟩

theorem runsAs_done {reads : List Loc} {ws : List (Loc × Word)} (hi : exec i s = s.gate reads (s.done ws))
    (hg : Good ws) : RunsAs s i ⟨reads, 1, ws⟩ :=
  ⟨by rw [hi, done_eq_doneIn_one], le_rfl, hg⟩

theorem runsAs_capGet32 {w q : Nat} (f : Cap → Nat) (hi : exec i s = s.capGet32 w q f) :
    RunsAs s i ⟨capLocs q, 1, [(.s w, BitVec.ofNat 32 (f (s.rc q)))]⟩ :=
  runsAs_done hi (good_s _ _)

theorem runsAs_capGet64 {w q : Nat} (f : Cap → Nat) (hi : exec i s = s.capGet64 w q f) :
    RunsAs s i ⟨capLocs q, 1, pairOfNat w (f (s.rc q))⟩ :=
  runsAs_done hi (good_pair _ _ _ _ (by omega))

end

/-! ### Values -/

/-- A 10-bit immediate, sign-extended to 32 bits, is the number it names (08 R168). -/
theorem toInt_immWord {v : Int} (h : immOk 10 v = true) : (immWord v).toInt = v := by
  simp only [immOk, Bool.and_eq_true, decide_eq_true_eq] at h
  obtain ⟨hlow, hhigh⟩ := h
  exact BitVec.toInt_ofInt_eq_self (by decide) (by omega) (by omega)

theorem tagRead_word (c : Cap) : BitVec.ofNat 32 c.tagRead = if c.tag then 1 else 0 := by
  rw [Cap.tagRead, apply_ite (BitVec.ofNat 32)]
  rfl

theorem good_of_field (P : Prop) [Decidable P] (d : Nat) (v : Word) : Good (if P then [] else [(.s d, v)]) := by
  split
  · exact good_nil
  · exact good_s d v

/-! ### The instructions -/

/-- The forms on 32-bit registers; the comparisons are of signed and of unsigned values (R165, R166). -/
theorem runsAs_of_alu {s : State} {i : Instr} {p : Plain} (h : Alu s i p) : RunsAs s i p := by
  cases h with
  | add | sub | and | or | xor | andn | shl | shr | sra | rol | mul | mulh | mulhu | div | divu | rem | remu =>
    exact runsAs_twoRegs (by decide) rfl
  | slt => exact runsAs_twoRegs le_rfl (by simp only [← slt_eq]; rfl)
  | sltu => exact runsAs_twoRegs le_rfl (by simp only [← ult_eq]; rfl)
  | min | max => exact runsAs_twoRegs le_rfl (by simp only [← slt_if]; rfl)
  | minu | maxu => exact runsAs_twoRegs le_rfl (by simp only [← ult_if]; rfl)

/-- The bit operations and the forms with an immediate (R168 to R170): `slti` compares with the number itself, `bfi`
with an empty field writes nothing, `li` reads nothing. -/
theorem runsAs_of_aluImm {s : State} {i : Instr} {p : Plain} (h : AluImm s i p) (hw : i.wf = true) : RunsAs s i p := by
  cases h with
  | popc | clz | ctz | brev | addi | andi | ori | xori | shli | shri | srai | roli | muli =>
    exact runsAs_oneReg (by decide) rfl
  | bfe | bfeu => exact runsAs_twoRegs le_rfl rfl
  | bfi d a b => exact runsAs_done rfl (good_of_field _ _ _)
  | slti d a v =>
    have hv : (immWord v).toInt = v := toInt_immWord (wf_slti hw)
    exact runsAs_oneReg le_rfl (show execSlti d a v s = _ by simp only [execSlti, slt_eq, hv])
  | sltui => exact runsAs_oneReg le_rfl (by simp only [← ult_eq]; rfl)
  | li d v => exact runsAs_done ((gate_ready (ready_nil s) _).symm) (good_s _ _)
  | lih d v => exact runsAs_done rfl (good_s _ _)

/-- The forms on pairs (R167). -/
theorem runsAs_of_alu64 {s : State} {i : Instr} {p : Plain} (h : Alu64 s i p) : RunsAs s i p := by
  cases h with
  | addI64 | subI64 | shlI64 | shrI64 | sraI64 | mulI64 => exact runsAs_twoPairs (by decide) rfl
  | sltI64 => exact runsAs_twoPairs le_rfl (by simp only [← flag_s]; rfl)
  | sltuI64 => exact runsAs_twoPairs le_rfl (by simp only [← flag_u]; rfl)

/-- The copy, the reads of fields and the containment test (R174, 04 R91); a top below the base has for its length the
model's choice (log 93). -/
theorem runsAs_of_capRead {s : State} {i : Instr} {p : Plain} (h : CapRead s i p) (hw : i.wf = true) :
    RunsAs s i p := by
  cases h with
  | cmov p q => exact runsAs_done rfl (good_cap _ _ (wf_cap3 hw))
  | cgetaddr => exact runsAs_capGet64 Cap.addr rfl
  | cgetbase => exact runsAs_capGet64 Cap.base rfl
  | cgettop => exact runsAs_capGet64 Cap.topRead rfl
  | cgetlen => exact runsAs_capGet64 Cap.lenRead rfl
  | cgetperm => exact runsAs_capGet32 Cap.permField rfl
  | cgetseal => exact runsAs_capGet32 Cap.sealType rfl
  | cgetowner => exact runsAs_capGet32 Cap.owner rfl
  | cgettag w q =>
    rw [← tagRead_word]
    exact runsAs_capGet32 Cap.tagRead rfl
  | cwithin w p q => exact runsAs_done rfl (good_s _ _)

/-- Settles O1: each instruction of the four families runs as the manual gives it, so it completes with its value at its
latency and with the frame of `Result`. -/
theorem scalarResult : Obligations.ScalarResult := by
  unfold Obligations.ScalarResult
  intro s i p h hw hr
  refine RunsAs.completes ?_ hr
  rcases h with h | h | h | h
  · exact runsAs_of_alu h
  · exact runsAs_of_aluImm h hw
  · exact runsAs_of_alu64 h
  · exact runsAs_of_capRead h hw

end Sys2Proof.Proofs.ScalarResult
end

section
/-!
SUPPORT. The watch unit's commit, drafts and rejection (14 R318 to R323, R327): what each write of an entry leaves of its
fields and words, which slot a window meets, what a commit and a draft come to; and the statement about them.
-/

namespace Sys2Proof.Proofs.WatchRules

open Machine Claims

/-! ### Words of an entry -/

theorem word_lt (e : List Word) (n : Nat) : word e n < 2 ^ 32 := (e.getD n 0).isLt

theorem word_esw_same {e : List Word} {n v : Nat} (hn : n < e.length) (hv : v < 2 ^ 32) : word (esw e n v) n = v := by
  simpa [word, esw, hn] using hv

theorem word_esw_ne (e : List Word) {n m : Nat} (v : Nat) (h : m ≠ n) : word (esw e m v) n = word e n := by
  simp [word, esw, h]

@[simp] theorem length_esw (e : List Word) (n v : Nat) : (esw e n v).length = e.length := by simp [esw]

@[simp] theorem length_eCtl (e : List Word) (lo n v : Nat) : (eCtl e lo n v).length = e.length := length_esw _ _ _

theorem word_eCtl_ne (e : List Word) (lo len v : Nat) {n : Nat} (h : 0 < n) : word (eCtl e lo len v) n = word e n :=
  word_esw_ne e _ h.ne

/-! ### Fields of CTL (R318) -/

theorem ctlOf_esw {e : List Word} {n v : Nat} (h : 0 < n) : ctlOf (esw e n v) = ctlOf e := by
  simp only [ctlOf, word_esw_ne e v h.ne']

/-- CTL with the bits [lo, lo + len) replaced. -/
theorem word_eCtl_zero {e : List Word} (h : e.length = 64) (lo len v : Nat) :
    word (eCtl e lo len v) 0 = (word e 0 % 2 ^ lo + v % 2 ^ len * 2 ^ lo
      + word e 0 / 2 ^ (lo + len) * 2 ^ (lo + len)) % 2 ^ 32 := by
  simp [word, eCtl, esw, ew, h]

section
variable {e : List Word} (h : e.length = 64)
include h

theorem ctlOf_eSetState {v : Nat} (hv : v < 4) : ctlOf (eSetState e v) = { ctlOf e with state := v } := by
  have hx := word_lt e 0
  simp only [ctlOf, eSetState, word_eCtl_zero h, Ctl.mk.injEq]
  omega

theorem ctlOf_eSetIpend : ctlOf (eSetIpend e true) = { ctlOf e with ipend := 1 } := by
  have hx := word_lt e 0
  simp only [ctlOf, eSetIpend, if_true, word_eCtl_zero h, Ctl.mk.injEq]
  omega

theorem ctlOf_eSetDcnt {v : Nat} (hv : v < 16) : ctlOf (eSetDcnt e v) = { ctlOf e with dcnt := v } := by
  have hx := word_lt e 0
  simp only [ctlOf, eSetDcnt, word_eCtl_zero h, Ctl.mk.injEq]
  omega

theorem ctlOf_setHn {v : Nat} (hv : v < 4) : ctlOf (eCtl e 19 2 v) = { ctlOf e with hn := v } := by
  have hx := word_lt e 0
  simp only [ctlOf, word_eCtl_zero h, Ctl.mk.injEq]
  omega

end

/-- STATE is active exactly when the field is 1: 3 is read as 2. -/
theorem eState_eq_one_iff (e : List Word) : eState e = 1 ↔ (ctlOf e).state = 1 := by
  show min 2 (word e 0 / 2 ^ 30) = 1 ↔ word e 0 / 2 ^ 30 = 1
  omega

theorem eIpend_eq_false {e : List Word} (h : (ctlOf e).ipend = 0) : eIpend e = false := by
  have hbit : word e 0 / 2 ^ 29 % 2 = 0 := h
  show (word e 0).testBit 29 = false
  rw [Nat.testBit_eq_decide_div_mod_eq, hbit]
  rfl

theorem eDcnt_eq {e : List Word} (h : (ctlOf e).dcnt < 8) : eDcnt e = (ctlOf e).dcnt := min_eq_right h.le

/-! ### Rewritten entries -/

theorem rewritten_self {e : List Word} (h : e.length = 64) : Rewritten e e (ctlOf e) [] := ⟨h, rfl, fun _ _ _ => rfl⟩

section
variable {e e' : List Word} {c : Ctl} {ws : List (Nat × Nat)} (h : Rewritten e e' c ws)
include h

/-- A word that is written once holds what is written. -/
theorem rewritten_esw {n v : Nat} (h0 : 0 < n) (hn : n < 64) (hv : v < 2 ^ 32) (hnew : ∀ x ∈ ws, x.1 ≠ n) :
    Rewritten e (esw e' n v) c (ws ++ [(n, v)]) := by
  obtain ⟨hlen, hctl, hwords⟩ := h
  refine ⟨by simp [hlen], by rw [ctlOf_esw h0, hctl], fun m hm0 hm => ?_⟩
  by_cases hmn : n = m
  · subst hmn
    have hnone : ws.find? (fun x => x.1 == n) = none := by simpa using fun a b hx => hnew (a, b) hx
    simp [word_esw_same (hlen ▸ hn) hv, hnone]
  · rw [word_esw_ne _ _ hmn, hwords m hm0 hm]
    simp [List.find?_append, hmn]

/-- A write of CTL that changes the fields as `f` says leaves the other words. -/
theorem rewritten_eCtl {lo len v : Nat} (f : Ctl → Ctl)
    (hf : ∀ x : List Word, x.length = 64 → ctlOf (eCtl x lo len v) = f (ctlOf x)) :
    Rewritten e (eCtl e' lo len v) (f c) ws := by
  obtain ⟨hlen, rfl, hwords⟩ := h
  exact ⟨by simp [hlen], hf e' hlen, fun n h0 hn => by rw [word_eCtl_ne _ _ _ _ h0, hwords n h0 hn]⟩

theorem rewritten_eSetState {v : Nat} (hv : v < 4) : Rewritten e (eSetState e' v) { c with state := v } ws :=
  rewritten_eCtl h (fun c => { c with state := v }) fun _ hx => ctlOf_eSetState hx hv

theorem rewritten_eSetIpend : Rewritten e (eSetIpend e' true) { c with ipend := 1 } ws :=
  rewritten_eCtl h (fun c => { c with ipend := 1 }) fun _ hx => ctlOf_eSetIpend hx

theorem rewritten_eSetDcnt {v : Nat} (hv : v < 16) : Rewritten e (eSetDcnt e' v) { c with dcnt := v } ws :=
  rewritten_eCtl h (fun c => { c with dcnt := v }) fun _ hx => ctlOf_eSetDcnt hx hv

theorem rewritten_setHn {v : Nat} (hv : v < 4) : Rewritten e (eCtl e' 19 2 v) { c with hn := v } ws :=
  rewritten_eCtl h (fun c => { c with hn := v }) fun _ hx => ctlOf_setHn hx hv

theorem rewritten_eStop : Rewritten e (eStop e') { c with
    state := 2
    dcnt := 0 } ws :=
  rewritten_eSetDcnt (rewritten_eSetState h (by decide)) (by decide)

theorem word_of_rewritten {n : Nat} (h0 : 0 < n) (hn : n < 64) (hnot : ∀ x ∈ ws, x.1 ≠ n) : word e' n = word e n := by
  obtain ⟨-, -, hwords⟩ := h
  have hnone : ws.find? (fun x => x.1 == n) = none := by simpa using fun a b hx => hnot (a, b) hx
  simp [hwords n h0 hn, hnone]

end

/-- Append of R321 writes HIST, EMIT, COST and HN. -/
theorem rewritten_eAppend (cost : Nat → Nat) {e : List Word} {t : Nat} (he : e.length = 64) (ht : t < 2 ^ 32) :
    Rewritten e (eAppend cost e t) { ctlOf e with hn := min ((ctlOf e).hn + 1) 3 } (appendWords cost e t) := by
  have hist5 := rewritten_esw (rewritten_self he) (n := 5) (by decide) (by decide) (word_lt e 6) (by simp)
  have hist6 := rewritten_esw hist5 (n := 6) (by decide) (by decide) (word_lt e 7) (by simp)
  have hist7 := rewritten_esw hist6 (n := 7) (by decide) (by decide) ht (by simp)
  have hhn := rewritten_setHn hist7 (v := min ((ctlOf e).hn + 1) 3) (by omega)
  have hemit := rewritten_esw hhn (n := 1) (v := min (word e 1 + 1) (2 ^ 32 - 1)) (by decide) (by decide) (by omega)
    (by simp)
  exact rewritten_esw hemit (n := 3) (v := min (word e 3 + cost (t / 2 ^ 24)) (2 ^ 32 - 1)) (by decide) (by decide)
    (by omega) (by simp)

/-- An append leaves the action of every slot. -/
theorem actOf_eAppend (cost : Nat → Nat) {e : List Word} {t k : Nat} (he : e.length = 64) (ht : t < 2 ^ 32)
    (hk : k < 8) : actOf (eAppend cost e t) k = actOf e k := by
  have hslot : word (eAppend cost e t) (32 + 4 * k) = word e (32 + 4 * k) :=
    word_of_rewritten (rewritten_eAppend cost he ht) (by omega) (by omega) (by simp [appendWords]; omega)
  simp only [actOf, hslot]

/-! ### The slots (R319, R321, R322) -/

theorem slotMatch_iff (e : List Word) (k : Nat) (w : List Nat) : slotMatch e k w = true ↔ Fits e k w := by
  simp only [slotMatch, Nat.testBit_eq_decide_div_mod_eq, Bool.and_eq_true, decide_eq_true_eq, List.all_eq_true,
    List.mem_range, Bool.or_eq_true, beq_iff_eq]
  rfl

/-- The slot that acts is the lowest one that matches and has an action. -/
theorem firstSlot_eq_some_iff (e : List Word) (w : List Nat) (k : Nat) : firstSlot e w = some k ↔ Wins e k w := by
  have hacts (j : Nat) : (slotAct e j ≠ 0 && slotMatch e j w) = true ↔ actOf e j ≠ 0 ∧ Fits e j w := by
    rw [Bool.and_eq_true, decide_eq_true_eq, slotMatch_iff]
    rfl
  simp only [firstSlot, List.find?_range_eq_some, Wins, List.mem_range, Bool.not_eq_true', ← Bool.not_eq_true, hacts]
  tauto

theorem firstSlot_eq_none {e : List Word} {w : List Nat} (h : ∀ k, ¬ Wins e k w) : firstSlot e w = none :=
  Option.eq_none_iff_forall_ne_some.mpr fun k hk => h k ((firstSlot_eq_some_iff e w k).mp hk)

/-- What the action of slot `k` leaves of a rewritten entry, and what it reports (R323). -/
theorem slotAction_acts {e e' : List Word} {c : Ctl} {ws : List (Nat × Nat)} (h : Rewritten e e' c ws) {k a : Nat}
    (ha : actOf e' k = a) (h0 : a ≠ 0) :
    Rewritten e (slotAction e' k).e (ctlAfter c a) ws ∧ (slotAction e' k).code = a ∧ (slotAction e' k).src = k
      ∧ (slotAction e' k).committed = true ∧ (slotAction e' k).notify = (a == 5)
      ∧ (slotAction e' k).fork = (a == 3) := by
  have hact : slotAct e' k = a := ha
  have hlt : a < 6 := by
    rw [← ha, actOf]
    split <;> omega
  have hcases : a = 1 ∨ a = 2 ∨ a = 3 ∨ a = 4 ∨ a = 5 := by omega
  unfold slotAction
  rw [hact]
  rcases hcases with rfl | rfl | rfl | rfl | rfl
  · exact ⟨rewritten_eStop h, rfl, rfl, rfl, rfl, rfl⟩
  · exact ⟨rewritten_eStop h, rfl, rfl, rfl, rfl, rfl⟩
  · exact ⟨h, rfl, rfl, rfl, rfl, rfl⟩
  · exact ⟨rewritten_eSetDcnt (rewritten_eSetIpend h) (by decide), rfl, rfl, rfl, rfl, rfl⟩
  · exact ⟨h, rfl, rfl, rfl, rfl, rfl⟩

/-! ### The budgets (R321, R322) -/

section
variable {cost : Nat → Nat} {e : List Word} {t : Nat}

theorem tokenTest_iff (e : List Word) :
    (ew e 2 ≠ 0xFFFFFFFF && ew e 2 < ew e 1 + 1) = true ↔ OverTokens e := by
  simp only [Bool.and_eq_true, decide_eq_true_eq]
  rfl

theorem costTest_iff (cost : Nat → Nat) (e : List Word) (t : Nat) :
    (ew e 4 ≠ 0xFFFFFFFF && ew e 4 < ew e 3 + cost (t / 2 ^ 24)) = true ↔ OverCost cost e t := by
  simp only [Bool.and_eq_true, decide_eq_true_eq]
  rfl

theorem overBudget_of_overTokens (c : Nat) (h : OverTokens e) : overBudget e 1 c = some 8 :=
  if_pos ((tokenTest_iff e).mpr h)

/-- The budget of cost is checked after that of tokens. -/
theorem overBudget_of_overCost (ht : ¬ OverTokens e) (hc : OverCost cost e t) :
    overBudget e 1 (cost (t / 2 ^ 24)) = some 9 :=
  (if_neg (mt (tokenTest_iff e).mp ht)).trans (if_pos ((costTest_iff cost e t).mpr hc))

theorem overBudget_eq_none (ht : ¬ OverTokens e) (hc : ¬ OverCost cost e t) :
    overBudget e 1 (cost (t / 2 ^ 24)) = none :=
  (if_neg (mt (tokenTest_iff e).mp ht)).trans (if_neg (mt (costTest_iff cost e t).mp hc))

theorem budgetHit_hits (he : e.length = 64) (src : Nat) : BudgetHit e src (budgetHit e src) :=
  ⟨rewritten_eStop (rewritten_self he), rfl, rfl, rfl, rfl, rfl⟩

/-! ### A commit (R321 to R323) -/

theorem commitTok_of_overTokens (h : OverTokens e) : commitTok cost e t = budgetHit e 8 := by
  rw [commitTok, overBudget_of_overTokens _ h]

theorem commitTok_of_overCost (ht : ¬ OverTokens e) (hc : OverCost cost e t) :
    commitTok cost e t = budgetHit e 9 := by
  rw [commitTok, overBudget_of_overCost ht hc]

/-- Within the budgets the token is appended; without a slot that matches, that is all. -/
theorem commitTok_of_no_winner (ht : ¬ OverTokens e) (hc : ¬ OverCost cost e t)
    (hw : ∀ k, ¬ Wins e k (windowOf e t)) : commitTok cost e t = ⟨eAppend cost e t, 0, 15, true, false, false⟩ := by
  have hnone : firstSlot e (eHist e ++ [t]) = none := firstSlot_eq_none hw
  simp only [commitTok, overBudget_eq_none ht hc, hnone]

/-- Within the budgets the winning slot acts after the append. -/
theorem commitTok_of_winner (ht : ¬ OverTokens e) (hc : ¬ OverCost cost e t) {k : Nat} (hw : Wins e k (windowOf e t)) :
    commitTok cost e t = slotAction (eAppend cost e t) k := by
  have hsome : firstSlot e (eHist e ++ [t]) = some k := (firstSlot_eq_some_iff _ _ _).mpr hw
  simp only [commitTok, overBudget_eq_none ht hc, hsome]

/-! ### The instructions' steps on an entry (R327, R328) -/

/-- A sequence that is free or stopped is not touched by a commit or a draft. -/
theorem watchOutcome_inactive (h : (ctlOf e).state ≠ 1) :
    watchOutcome .tokc cost e t = (WOut.report e 7, 0) ∧ watchOutcome .draft cost e t = (WOut.report e 7, 0) := by
  have hs : eState e ≠ 1 := mt (eState_eq_one_iff e).mp h
  exact ⟨if_pos hs, if_pos hs⟩

/-- A plain commit first drops the drafts. -/
theorem watchOutcome_tokc (hs : (ctlOf e).state = 1) (hi : (ctlOf e).ipend = 0) :
    (watchOutcome .tokc cost e t).1 = commitTok cost (eSetDcnt e 0) t := by
  simp [watchOutcome, (eState_eq_one_iff e).mpr hs, eIpend_eq_false hi]

theorem watchOutcome_draft (hs : (ctlOf e).state = 1) (hi : (ctlOf e).ipend = 0) :
    (watchOutcome .draft cost e t).1 = draftTok cost e t := by
  simp [watchOutcome, (eState_eq_one_iff e).mpr hs, eIpend_eq_false hi]

/-- A draft that finds room is buffered, whatever is reported. -/
theorem draftTok_of_room (hd : (ctlOf e).dcnt < 8) :
    (draftTok cost e t).e = eSetDcnt (esw e (24 + (ctlOf e).dcnt) t) ((ctlOf e).dcnt + 1)
      ∧ ((draftTok cost e t).code = 0 ∨ (draftTok cost e t).code = 6) ∧ (draftTok cost e t).committed = false := by
  simp only [draftTok, eDcnt_eq hd, if_neg hd.ne]
  split
  case h_1 => exact ⟨rfl, .inr rfl, rfl⟩
  case h_2 =>
    split
    case h_1 => exact ⟨rfl, .inr rfl, rfl⟩
    case h_2 => exact ⟨rfl, .inl rfl, rfl⟩

theorem rewritten_draft (he : e.length = 64) (ht : t < 2 ^ 32) (hd : (ctlOf e).dcnt < 8) :
    Rewritten e (draftTok cost e t).e { ctlOf e with dcnt := (ctlOf e).dcnt + 1 } [(24 + (ctlOf e).dcnt, t)] := by
  obtain ⟨hentry, -, -⟩ := draftTok_of_room (cost := cost) (t := t) hd
  have hbuffered := rewritten_esw (rewritten_self he) (n := 24 + (ctlOf e).dcnt) (by omega) (by omega) ht (by simp)
  exact hentry ▸ rewritten_eSetDcnt hbuffered (by omega)

end

/-- Settles O52: a commit comes to the budget that is hit, to the append alone, or to the append and the action of the
lowest slot that matches; a free or stopped sequence is left, a draft is buffered, a plain commit and a rejection drop
the drafts. -/
theorem watchRules : Obligations.WatchRules := by
  unfold Obligations.WatchRules
  intro cost e t he ht
  have hdropped := rewritten_eSetDcnt (rewritten_self he) (v := 0) (by decide)
  refine ⟨?tokens, ?cost, ?noSlot, ?slot, watchOutcome_inactive,
    fun hs hi => ⟨eSetDcnt e 0, hdropped, watchOutcome_tokc hs hi⟩, ?draft, ⟨eSetDcnt e 0, hdropped, rfl⟩⟩
  case tokens => exact fun h => commitTok_of_overTokens h ▸ budgetHit_hits he 8
  case cost => exact fun hn h => commitTok_of_overCost hn h ▸ budgetHit_hits he 9
  case noSlot =>
    intro hn hc hw
    rw [commitTok_of_no_winner hn hc hw]
    exact ⟨rewritten_eAppend cost he ht, rfl, rfl, rfl, rfl, rfl⟩
  case slot =>
    intro hn hc k hw
    rw [commitTok_of_winner hn hc hw]
    obtain ⟨hk, ⟨hact, -⟩, -⟩ := hw
    exact slotAction_acts (rewritten_eAppend cost he ht) (actOf_eAppend cost he ht hk) hact
  case draft =>
    intro hs hi hd
    rw [watchOutcome_draft hs hi]
    obtain ⟨-, hreport⟩ := draftTok_of_room hd
    exact ⟨rewritten_draft he ht hd, hreport⟩

end Sys2Proof.Proofs.WatchRules
end

section
/-!
SUPPORT. The round trip of encoder and decoder over all instructions (07 R141 to R162), and its statement.
-/

namespace Sys2Proof.Proofs.RoundTrip

open Laws

/-- Every instruction reads back from its word, or is a step of the device and has none. -/
theorem statement_holds : ∀ i : Instr, Encoding.Statement i
  | .add d a b => Encoding.add d a b
  | .sub d a b => Encoding.sub d a b
  | .and d a b => Encoding.and d a b
  | .or d a b => Encoding.or d a b
  | .xor d a b => Encoding.xor d a b
  | .andn d a b => Encoding.andn d a b
  | .shl d a b => Encoding.shl d a b
  | .shr d a b => Encoding.shr d a b
  | .sra d a b => Encoding.sra d a b
  | .rol d a b => Encoding.rol d a b
  | .slt d a b => Encoding.slt d a b
  | .sltu d a b => Encoding.sltu d a b
  | .min d a b => Encoding.min d a b
  | .max d a b => Encoding.max d a b
  | .minu d a b => Encoding.minu d a b
  | .maxu d a b => Encoding.maxu d a b
  | .mul d a b => Encoding.mul d a b
  | .mulh d a b => Encoding.mulh d a b
  | .mulhu d a b => Encoding.mulhu d a b
  | .div d a b => Encoding.div d a b
  | .divu d a b => Encoding.divu d a b
  | .rem d a b => Encoding.rem d a b
  | .remu d a b => Encoding.remu d a b
  | .addI64 d a b => Encoding.addI64 d a b
  | .subI64 d a b => Encoding.subI64 d a b
  | .shlI64 d a b => Encoding.shlI64 d a b
  | .shrI64 d a b => Encoding.shrI64 d a b
  | .sraI64 d a b => Encoding.sraI64 d a b
  | .mulI64 d a b => Encoding.mulI64 d a b
  | .sltI64 d a b => Encoding.sltI64 d a b
  | .sltuI64 d a b => Encoding.sltuI64 d a b
  | .popc d a => Encoding.popc d a
  | .clz d a => Encoding.clz d a
  | .ctz d a => Encoding.ctz d a
  | .brev d a => Encoding.brev d a
  | .bfe d a b => Encoding.bfe d a b
  | .bfeu d a b => Encoding.bfeu d a b
  | .bfi d a b => Encoding.bfi d a b
  | .addi d a imm => Encoding.addi d a imm
  | .andi d a imm => Encoding.andi d a imm
  | .ori d a imm => Encoding.ori d a imm
  | .xori d a imm => Encoding.xori d a imm
  | .slti d a imm => Encoding.slti d a imm
  | .sltui d a imm => Encoding.sltui d a imm
  | .shli d a sh => Encoding.shli d a sh
  | .shri d a sh => Encoding.shri d a sh
  | .srai d a sh => Encoding.srai d a sh
  | .roli d a sh => Encoding.roli d a sh
  | .muli d a imm => Encoding.muli d a imm
  | .li d imm => Encoding.li d imm
  | .lih d imm => Encoding.lih d imm
  | .bcCond c a off => Encoding.bcCond c a off
  | .jal off => Encoding.jal off
  | .land nw => Encoding.land nw
  | .cmov p q => Encoding.cmov p q
  | .cgetaddr w p => Encoding.cgetaddr w p
  | .cgetbase w p => Encoding.cgetbase w p
  | .cgettop w p => Encoding.cgettop w p
  | .cgetlen w p => Encoding.cgetlen w p
  | .cgetperm w p => Encoding.cgetperm w p
  | .cgetseal w p => Encoding.cgetseal w p
  | .cgetowner w p => Encoding.cgetowner w p
  | .cgettag w p => Encoding.cgettag w p
  | .csetaddr w p q => Encoding.csetaddr w p q
  | .cinc w p q => Encoding.cinc w p q
  | .csetbnd w p q => Encoding.csetbnd w p q
  | .csetbndx w p q => Encoding.csetbndx w p q
  | .cnarrow w p q => Encoding.cnarrow w p q
  | .cwrap w p q => Encoding.cwrap w p q
  | .cunwrap w p q => Encoding.cunwrap w p q
  | .cwithin w p q => Encoding.cwithin w p q
  | .cj p => Encoding.cj p
  | .cjal p => Encoding.cjal p
  | .cinci d a imm => Encoding.cinci d a imm
  | .ldI8 d a tk off => Encoding.ldI8 d a tk off
  | .ldN8 d a tk off => Encoding.ldN8 d a tk off
  | .ldI16 d a tk off => Encoding.ldI16 d a tk off
  | .ldN16 d a tk off => Encoding.ldN16 d a tk off
  | .ldN32 d a tk off => Encoding.ldN32 d a tk off
  | .ldN64 d a tk off => Encoding.ldN64 d a tk off
  | .stN8 d a tk off => Encoding.stN8 d a tk off
  | .stN16 d a tk off => Encoding.stN16 d a tk off
  | .stN32 d a tk off => Encoding.stN32 d a tk off
  | .stN64 d a tk off => Encoding.stN64 d a tk off
  | .ldc d a tk off => Encoding.ldc d a tk off
  | .stc d a tk off => Encoding.stc d a tk off
  | .ldxN8 d a tk ord scope => Encoding.ldxN8 d a tk ord scope
  | .ldxN16 d a tk ord scope => Encoding.ldxN16 d a tk ord scope
  | .ldxN32 d a tk ord scope => Encoding.ldxN32 d a tk ord scope
  | .ldxN64 d a tk ord scope => Encoding.ldxN64 d a tk ord scope
  | .stxN8 d a tk ord scope => Encoding.stxN8 d a tk ord scope
  | .stxN16 d a tk ord scope => Encoding.stxN16 d a tk ord scope
  | .stxN32 d a tk ord scope => Encoding.stxN32 d a tk ord scope
  | .stxN64 d a tk ord scope => Encoding.stxN64 d a tk ord scope
  | .ldcx d a tk ord scope => Encoding.ldcx d a tk ord scope
  | .stcx d a tk ord scope => Encoding.stcx d a tk ord scope
  | .amoAddN32 d a tk ord scope => Encoding.amoAddN32 d a tk ord scope
  | .amoAndN32 d a tk ord scope => Encoding.amoAndN32 d a tk ord scope
  | .amoOrN32 d a tk ord scope => Encoding.amoOrN32 d a tk ord scope
  | .amoXorN32 d a tk ord scope => Encoding.amoXorN32 d a tk ord scope
  | .amoMinI32 d a tk ord scope => Encoding.amoMinI32 d a tk ord scope
  | .amoMaxI32 d a tk ord scope => Encoding.amoMaxI32 d a tk ord scope
  | .amoMinN32 d a tk ord scope => Encoding.amoMinN32 d a tk ord scope
  | .amoMaxN32 d a tk ord scope => Encoding.amoMaxN32 d a tk ord scope
  | .amoSwapN32 d a tk ord scope => Encoding.amoSwapN32 d a tk ord scope
  | .amoCasN32 d a tk ord scope => Encoding.amoCasN32 d a tk ord scope
  | .amoSwapN64 d a tk ord scope => Encoding.amoSwapN64 d a tk ord scope
  | .amoCasN64 d a tk ord scope => Encoding.amoCasN64 d a tk ord scope
  | .amoAddN64 d a tk ord scope => Encoding.amoAddN64 d a tk ord scope
  | .fence ord scope => Encoding.fence ord scope
  | .lrun tk a count off => Encoding.lrun tk a count off
  | .emr d => Encoding.emr d
  | .emw a => Encoding.emw a
  | .lmr d => Encoding.lmr d
  | .bar obj flush => Encoding.bar obj flush
  | .barArrive obj flush => Encoding.barArrive obj flush
  | .barWait obj => Encoding.barWait obj
  | .wtok tk thr => Encoding.wtok tk thr
  | .wtokReg tk b => Encoding.wtokReg tk b
  | .tkr tk d => Encoding.tkr tk d
  | .pause n => Encoding.pause n
  | .dly n => Encoding.dly n
  | .yld tk r off => Encoding.yld tk r off
  | .qpushQcopy r => Encoding.qpushQcopy r
  | .qpushQcoll r => Encoding.qpushQcoll r
  | .qpopQmat r => Encoding.qpopQmat r
  | .msend a tk => Encoding.msend a tk
  | .mrecv a tk => Encoding.mrecv a tk
  | .mcall a tk => Encoding.mcall a tk
  | .mreply tk => Encoding.mreply tk
  | .glaunch d a b tk => Encoding.glaunch d a b tk
  | .gsub d a tk => Encoding.gsub d a tk
  | .wset t r tk => Encoding.wset t r tk
  | .wget t r tk => Encoding.wget t r tk
  | .nop => Encoding.nop
  | .gend => Encoding.gend
  | .brk code => Encoding.brk code
  | .rdtime d => Encoding.rdtime d
  | .rdid d sel => Encoding.rdid d sel
  | .pgreq a tk => Encoding.pgreq a tk
  | .fsrr d => Encoding.fsrr d
  | .fsrw d => Encoding.fsrw d
  | .mxcr d => Encoding.mxcr d
  | .mxcw d => Encoding.mxcw d
  | .eret => Encoding.eret
  | .ctlr d n => Encoding.ctlr d n
  | .ctlw d n => Encoding.ctlw d n
  | .tlbi a b kind => Encoding.tlbi a b kind
  | .swp d => Encoding.swp d
  | .keyk d => Encoding.keyk d
  | .sealctx d a b => Encoding.sealctx d a b
  | .wfi => Encoding.wfi
  | .xstep => Encoding.xstep
  | .iadd h d ty sat a b => Encoding.iadd h d ty sat a b
  | .isub h d ty sat a b => Encoding.isub h d ty sat a b
  | .imul h d ty sat a b => Encoding.imul h d ty sat a b
  | .imulhi h d ty a b => Encoding.imulhi h d ty a b
  | .imad h d ty sat a b c => Encoding.imad h d ty sat a b c
  | .imin h d ty a b => Encoding.imin h d ty a b
  | .imax h d ty a b => Encoding.imax h d ty a b
  | .iabs h d ty sat a => Encoding.iabs h d ty sat a
  | .ineg h d ty sat a => Encoding.ineg h d ty sat a
  | .iand h d ty a b => Encoding.iand h d ty a b
  | .ior h d ty a b => Encoding.ior h d ty a b
  | .ixor h d ty a b => Encoding.ixor h d ty a b
  | .iandn h d ty a b => Encoding.iandn h d ty a b
  | .inot h d ty a => Encoding.inot h d ty a
  | .isel h d ty a b p => Encoding.isel h d ty a b p
  | .ishl h d ty a b => Encoding.ishl h d ty a b
  | .ishr h d ty a b => Encoding.ishr h d ty a b
  | .isra h d ty a b => Encoding.isra h d ty a b
  | .ipopc h d ty a => Encoding.ipopc h d ty a
  | .iclz h d ty a => Encoding.iclz h d ty a
  | .laneBrev h d ty a => Encoding.laneBrev h d ty a
  | .prmt h d a b c => Encoding.prmt h d a b c
  | .laneBfe h d ty a b => Encoding.laneBfe h d ty a b
  | .laneBfi h d ty a b c => Encoding.laneBfi h d ty a b c
  | .idp4 h d ty sat a b c => Encoding.idp4 h d ty sat a b c
  | .fadd h d rnd a b => Encoding.fadd h d rnd a b
  | .fsub h d rnd a b => Encoding.fsub h d rnd a b
  | .fmul h d rnd a b => Encoding.fmul h d rnd a b
  | .ffma h d rnd a b c => Encoding.ffma h d rnd a b c
  | .fmin h d a b => Encoding.fmin h d a b
  | .fmax h d a b => Encoding.fmax h d a b
  | .fabs h d a => Encoding.fabs h d a
  | .fneg h d a => Encoding.fneg h d a
  | .frcp h d rnd a => Encoding.frcp h d rnd a
  | .frsq h d rnd a => Encoding.frsq h d rnd a
  | .fsqrt h d rnd a => Encoding.fsqrt h d rnd a
  | .fdiv h d rnd a b => Encoding.fdiv h d rnd a b
  | .fexp2 h d a => Encoding.fexp2 h d a
  | .flog2 h d a => Encoding.flog2 h d a
  | .dadd h d rnd a b => Encoding.dadd h d rnd a b
  | .dsub h d rnd a b => Encoding.dsub h d rnd a b
  | .dmul h d rnd a b => Encoding.dmul h d rnd a b
  | .dfma h d rnd a b c => Encoding.dfma h d rnd a b c
  | .dmin h d a b => Encoding.dmin h d a b
  | .dmax h d a b => Encoding.dmax h d a b
  | .ddiv h d rnd a b => Encoding.ddiv h d rnd a b
  | .dsqrt h d rnd a => Encoding.dsqrt h d rnd a
  | .hadd2 h d rnd a b => Encoding.hadd2 h d rnd a b
  | .hmul2 h d rnd a b => Encoding.hmul2 h d rnd a b
  | .hfma2 h d rnd a b c => Encoding.hfma2 h d rnd a b c
  | .badd2 h d rnd a b => Encoding.badd2 h d rnd a b
  | .bmul2 h d rnd a b => Encoding.bmul2 h d rnd a b
  | .bfma2 h d rnd a b c => Encoding.bfma2 h d rnd a b c
  | .bdot2 h d rnd a b c => Encoding.bdot2 h d rnd a b c
  | .cvt h d rnd sat dty sty a bsel => Encoding.cvt h d rnd sat dty sty a bsel
  | .sxpack h d sx a sc bsel blk => Encoding.sxpack h d sx a sc bsel blk
  | .sxunpack h d rnd sx ty a sc bsel blk => Encoding.sxunpack h d rnd sx ty a sc bsel blk
  | .pset h p cmp ty a b => Encoding.pset h p cmp ty a b
  | .plop h p pa pb pc lut => Encoding.plop h p pa pb pc lut
  | .pmov h form => Encoding.pmov h form
  | .mov h d ty a => Encoding.mov h d ty a
  | .movi h d imm => Encoding.movi h d imm
  | .rnd h d k c => Encoding.rnd h d k c
  | .laneDly n => Encoding.laneDly n
  | .shfl h mode d a b => Encoding.shfl h mode d a b
  | .vote h mode d p tk => Encoding.vote h mode d p tk
  | .vballot h d p => Encoding.vballot h d p
  | .lred h op ty d a tk => Encoding.lred h op ty d a tk
  | .lscan h op ty incl d a total tk => Encoding.lscan h op ty incl d a total tk
  | .laneMatch h ty d a => Encoding.laneMatch h ty d a
  | .lbrx h t c tk => Encoding.lbrx h t c tk
  | .lend h tk => Encoding.lend h tk
  | .vcmov h q p => Encoding.vcmov h q p
  | .vcgetaddr h w p => Encoding.vcgetaddr h w p
  | .vcgetbase h w p => Encoding.vcgetbase h w p
  | .vcgettop h w p => Encoding.vcgettop h w p
  | .vcgetlen h w p => Encoding.vcgetlen h w p
  | .vcgetperm h w p => Encoding.vcgetperm h w p
  | .vcgetseal h w p => Encoding.vcgetseal h w p
  | .vcgetowner h w p => Encoding.vcgetowner h w p
  | .vcgettag h w p => Encoding.vcgettag h w p
  | .vcsetaddr h q p w => Encoding.vcsetaddr h q p w
  | .vcinc h q p w => Encoding.vcinc h q p w
  | .vcsetbnd h q p w => Encoding.vcsetbnd h q p w
  | .vcsetbndx h q p w => Encoding.vcsetbndx h q p w
  | .vcnarrow h q p w => Encoding.vcnarrow h q p w
  | .vcwrap h q p k => Encoding.vcwrap h q p k
  | .vcunwrap h q p k => Encoding.vcunwrap h q p k
  | .vcwithin h w p q => Encoding.vcwithin h w p q
  | .ld h ty ord scope ro d cap off imm tk => Encoding.ld h ty ord scope ro d cap off imm tk
  | .st h ty ord scope data cap off imm tk => Encoding.st h ty ord scope data cap off imm tk
  | .ldnr h ty ord scope ro d r cap off imm tk => Encoding.ldnr h ty ord scope ro d r cap off imm tk
  | .ldsub h ty ord scope ro d cap off imm tk => Encoding.ldsub h ty ord scope ro d cap off imm tk
  | .subs h ty c b tk => Encoding.subs h ty c b tk
  | .unsubs h c b tk => Encoding.unsubs h c b tk
  | .lds h ty ord scope d addr imm tk => Encoding.lds h ty ord scope d addr imm tk
  | .sts h ty ord scope data addr imm tk => Encoding.sts h ty ord scope data addr imm tk
  | .atom h op ty ord scope d cap off opnd imm tk => Encoding.atom h op ty ord scope d cap off opnd imm tk
  | .atoms h op ty ord scope d addr opnd imm tk => Encoding.atoms h op ty ord scope d addr opnd imm tk
  | .laneLdc h ord scope d cap off imm tk => Encoding.laneLdc h ord scope d cap off imm tk
  | .laneStc h ord scope v cap off imm tk => Encoding.laneStc h ord scope v cap off imm tk
  | .laneFence h ord scope tk => Encoding.laneFence h ord scope tk
  | .fencex h src dst ord scope tk => Encoding.fencex h src dst ord scope tk
  | .pf h cap off imm tk => Encoding.pf h cap off imm tk
  | .mmac h fmt pair reuse acc a lw tk => Encoding.mmac h fmt pair reuse acc a lw tk
  | .mdist h fmt pair reuse acc a lw tk => Encoding.mdist h fmt pair reuse acc a lw tk
  | .mtopk h pair acc k tk => Encoding.mtopk h pair acc k tk
  | .mclr h pair acc tk => Encoding.mclr h pair acc tk
  | .mld h pair acc lw tk => Encoding.mld h pair acc lw tk
  | .mst h pair acc lw tk => Encoding.mst h pair acc lw tk
  | .mrd h d tk => Encoding.mrd h d tk
  | .tokc h d p c seq tok tk => Encoding.tokc h d p c seq tok tk
  | .tokcDraft h d p c seq tok tk => Encoding.tokcDraft h d p c seq tok tk
  | .tokcf h d p c seq n tk => Encoding.tokcf h d p c seq n tk
  | .tokrj h c seq tk => Encoding.tokrj h c seq tk
  | .tokf h d c seq tk => Encoding.tokf h d c seq tk
  | .spawnedGroupStart team => Encoding.spawnedGroupStart team
  | .faultGroupStart team => Encoding.faultGroupStart team
  | .lbrxRedirect agent => Encoding.lbrxRedirect agent
  | .issueChoice die core part => Encoding.issueChoice die core part
  | .starvationPromotion agent lane => Encoding.starvationPromotion agent lane
  | .pauseEnd agent => Encoding.pauseEnd agent
  | .dlyExpiry agent lane => Encoding.dlyExpiry agent lane
  | .fixedLatencyWriteEffect agent => Encoding.fixedLatencyWriteEffect agent
  | .wtokComplete agent => Encoding.wtokComplete agent
  | .yieldReactivation agent => Encoding.yieldReactivation agent
  | .queueBlockEnd agent => Encoding.queueBlockEnd agent
  | .scalarMemoryCompletion agent k => Encoding.scalarMemoryCompletion agent k
  | .laneMemoryCompletion agent k => Encoding.laneMemoryCompletion agent k
  | .watchStepCompletion agent k => Encoding.watchStepCompletion agent k
  | .matrixStart die core => Encoding.matrixStart die core
  | .matrixCompletion die core => Encoding.matrixCompletion die core
  | .copyAccept agent => Encoding.copyAccept agent
  | .copyCompletion k => Encoding.copyCompletion k
  | .collectiveAccept agent => Encoding.collectiveAccept agent
  | .collectiveCompletion k => Encoding.collectiveCompletion k
  | .engineFaultDelivery agent => Encoding.engineFaultDelivery agent
  | .pageRequestPost k => Encoding.pageRequestPost k
  | .pageRequestRecheck k => Encoding.pageRequestRecheck k
  | .firstTouchPoolRetry agent => Encoding.firstTouchPoolRetry agent
  | .tcmpReached core => Encoding.tcmpReached core
  | .interruptTrap core => Encoding.interruptTrap core
  | .singleStepTrap agent => Encoding.singleStepTrap agent
  | .teamPlacement launch die core => Encoding.teamPlacement launch die core
  | .teamReservation launch die core => Encoding.teamReservation launch die core
  | .preemption team => Encoding.preemption team
  | .teamRestore team die core => Encoding.teamRestore team die core
  | .regionSnapshot agent => Encoding.regionSnapshot agent
  | .teamExit team => Encoding.teamExit team
  | .teamKill team cause => Encoding.teamKill team cause
  | .killRequest ctx => Encoding.killRequest ctx
  | .budgetExhausted ctx => Encoding.budgetExhausted ctx
  | .periodStart ctx => Encoding.periodStart ctx
  | .usedUpdate ctx => Encoding.usedUpdate ctx
  | .watchdogExpiry ctx => Encoding.watchdogExpiry ctx
  | .launchCompletion launch => Encoding.launchCompletion launch
  | .launchRecordUpdate launch => Encoding.launchRecordUpdate launch
  | .endNode walk => Encoding.endNode walk
  | .launchNode walk => Encoding.launchNode walk
  | .copyNode walk => Encoding.copyNode walk
  | .loopNode walk => Encoding.loopNode walk
  | .conditionalNode walk => Encoding.conditionalNode walk
  | .waitNode walk => Encoding.waitNode walk
  | .waitNodeRetest walk => Encoding.waitNodeRetest walk
  | .signalNode walk => Encoding.signalNode walk
  | .deviceTimeTick => Encoding.deviceTimeTick
  | .timeCopyCheck agent => Encoding.timeCopyCheck agent
  | .leaseExpiry die core line => Encoding.leaseExpiry die core line
  | .dirtyWriteBack die core line => Encoding.dirtyWriteBack die core line
  | .writePerform agent k => Encoding.writePerform agent k
  | .forcedPublish die core line => Encoding.forcedPublish die core line
  | .clockStop die core => Encoding.clockStop die core
  | .gets k => Encoding.gets k
  | .getsub k => Encoding.getsub k
  | .getx k => Encoding.getx k
  | .wrh k => Encoding.wrh k
  | .putx k => Encoding.putx k
  | .inv k => Encoding.inv k
  | .fwds k => Encoding.fwds k
  | .fwdx k => Encoding.fwdx k
  | .upd k => Encoding.upd k
  | .ack k => Encoding.ack k
  | .data k => Encoding.data k
  | .wback k => Encoding.wback k
  | .rdcEviction die line => Encoding.rdcEviction die line
  | .sweepPassBegin => Encoding.sweepPassBegin
  | .sweepPassComplete => Encoding.sweepPassComplete
  | .peerAccessRequest req => Encoding.peerAccessRequest req
  | .exportReturn agent k => Encoding.exportReturn agent k
  | .linkTraining n peer => Encoding.linkTraining n peer
  | .flitReplay n => Encoding.flitReplay n
  | .linkSpareLane n => Encoding.linkSpareLane n
  | .linkFailure n => Encoding.linkFailure n
  | .msixWrite port entry => Encoding.msixWrite port entry
  | .portTransferComplete port => Encoding.portTransferComplete port
  | .packageReset => Encoding.packageReset
  | .partitionReset p => Encoding.partitionReset p
  | .powerManagerStep watts => Encoding.powerManagerStep watts
  | .leakageUpdate die leak => Encoding.leakageUpdate die leak
  | .powerAlertAssert => Encoding.powerAlertAssert
  | .powerAlertRelease => Encoding.powerAlertRelease
  | .spareExchange die unit => Encoding.spareExchange die unit
  | .bootok => Encoding.bootok
  | .stage => Encoding.stage
  | .logrd => Encoding.logrd
  | .fuse => Encoding.fuse
  | .mailboxCommandEnd => Encoding.mailboxCommandEnd
  | .getMeasurements nonce => Encoding.getMeasurements nonce
  | .keyLoad => Encoding.keyLoad
  | .stop part pid => Encoding.stop part pid
  | .traceSample part => Encoding.traceSample part
  | .laneFocus agent v => Encoding.laneFocus agent v
  | .laneFocusRelease agent v => Encoding.laneFocusRelease agent v
  | .crashDump p => Encoding.crashDump p
  | .acctArm core v => Encoding.acctArm core v
  | .partcfgWrite v => Encoding.partcfgWrite v
  | .linkpartWrite v => Encoding.linkpartWrite v
  | .coherenceControlWrite die v => Encoding.coherenceControlWrite die v
  | .exppaWrite v => Encoding.exppaWrite v
  | .revocationRegisterWrite which v => Encoding.revocationRegisterWrite which v
  | .registerWrite off v => Encoding.registerWrite off v
  | .portMemoryAccess port va size data write => Encoding.portMemoryAccess port va size data write
  | .powerLoss => Encoding.powerLoss
  | .linkPeerLoss n => Encoding.linkPeerLoss n

/-- Settles O55: the round trip of each row of the table. -/
theorem roundTrip : Obligations.RoundTrip := by
  unfold Obligations.RoundTrip
  exact statement_holds

end Sys2Proof.Proofs.RoundTrip
end

section
/-!
SUPPORT. What holds of every step: each meaning, and each part of a step around one, keeps the form of memory and the
floor of the fuses (`KS`), and every meaning answers a next state; and the statements that follow from it.
-/

namespace Sys2Proof.Proofs.WholeMachine

open Machine Laws Keep

variable {wants : Prop} {fa fb : Nat}

/-- Every meaning answers a next state, in which memory has its form and the fuses have not fallen. -/
theorem keep_exec (s : State) (hs : KS wants fa fb s) : ∀ i : Instr, KOut wants fa fb (exec i s)
  | .add d a b => keep_execAdd d a b s hs
  | .sub d a b => keep_execSub d a b s hs
  | .and d a b => keep_execAnd d a b s hs
  | .or d a b => keep_execOr d a b s hs
  | .xor d a b => keep_execXor d a b s hs
  | .andn d a b => keep_execAndn d a b s hs
  | .shl d a b => keep_execShl d a b s hs
  | .shr d a b => keep_execShr d a b s hs
  | .sra d a b => keep_execSra d a b s hs
  | .rol d a b => keep_execRol d a b s hs
  | .slt d a b => keep_execSlt d a b s hs
  | .sltu d a b => keep_execSltu d a b s hs
  | .min d a b => keep_execMin d a b s hs
  | .max d a b => keep_execMax d a b s hs
  | .minu d a b => keep_execMinu d a b s hs
  | .maxu d a b => keep_execMaxu d a b s hs
  | .mul d a b => keep_execMul d a b s hs
  | .mulh d a b => keep_execMulh d a b s hs
  | .mulhu d a b => keep_execMulhu d a b s hs
  | .div d a b => keep_execDiv d a b s hs
  | .divu d a b => keep_execDivu d a b s hs
  | .rem d a b => keep_execRem d a b s hs
  | .remu d a b => keep_execRemu d a b s hs
  | .addI64 d a b => keep_execAddI64 d a b s hs
  | .subI64 d a b => keep_execSubI64 d a b s hs
  | .shlI64 d a b => keep_execShlI64 d a b s hs
  | .shrI64 d a b => keep_execShrI64 d a b s hs
  | .sraI64 d a b => keep_execSraI64 d a b s hs
  | .mulI64 d a b => keep_execMulI64 d a b s hs
  | .sltI64 d a b => keep_execSltI64 d a b s hs
  | .sltuI64 d a b => keep_execSltuI64 d a b s hs
  | .popc d a => keep_execPopc d a s hs
  | .clz d a => keep_execClz d a s hs
  | .ctz d a => keep_execCtz d a s hs
  | .brev d a => keep_execBrev d a s hs
  | .bfe d a b => keep_execBfe d a b s hs
  | .bfeu d a b => keep_execBfeu d a b s hs
  | .bfi d a b => keep_execBfi d a b s hs
  | .addi d a imm => keep_execAddi d a imm s hs
  | .andi d a imm => keep_execAndi d a imm s hs
  | .ori d a imm => keep_execOri d a imm s hs
  | .xori d a imm => keep_execXori d a imm s hs
  | .slti d a imm => keep_execSlti d a imm s hs
  | .sltui d a imm => keep_execSltui d a imm s hs
  | .shli d a sh => keep_execShli d a sh s hs
  | .shri d a sh => keep_execShri d a sh s hs
  | .srai d a sh => keep_execSrai d a sh s hs
  | .roli d a sh => keep_execRoli d a sh s hs
  | .muli d a imm => keep_execMuli d a imm s hs
  | .li d imm => keep_execLi d imm s hs
  | .lih d imm => keep_execLih d imm s hs
  | .bcCond c a off => keep_execBcCond c a off s hs
  | .jal off => keep_execJal off s hs
  | .land nw => keep_execLand nw s hs
  | .cmov p q => keep_execCmov p q s hs
  | .cgetaddr w p => keep_execCgetaddr w p s hs
  | .cgetbase w p => keep_execCgetbase w p s hs
  | .cgettop w p => keep_execCgettop w p s hs
  | .cgetlen w p => keep_execCgetlen w p s hs
  | .cgetperm w p => keep_execCgetperm w p s hs
  | .cgetseal w p => keep_execCgetseal w p s hs
  | .cgetowner w p => keep_execCgetowner w p s hs
  | .cgettag w p => keep_execCgettag w p s hs
  | .csetaddr w p q => keep_execCsetaddr w p q s hs
  | .cinc w p q => keep_execCinc w p q s hs
  | .csetbnd w p q => keep_execCsetbnd w p q s hs
  | .csetbndx w p q => keep_execCsetbndx w p q s hs
  | .cnarrow w p q => keep_execCnarrow w p q s hs
  | .cwrap w p q => keep_execCwrap w p q s hs
  | .cunwrap w p q => keep_execCunwrap w p q s hs
  | .cwithin w p q => keep_execCwithin w p q s hs
  | .cj p => keep_execCj p s hs
  | .cjal p => keep_execCjal p s hs
  | .cinci d a imm => keep_execCinci d a imm s hs
  | .ldI8 d a tk off => keep_execLdI8 d a tk off s hs
  | .ldN8 d a tk off => keep_execLdN8 d a tk off s hs
  | .ldI16 d a tk off => keep_execLdI16 d a tk off s hs
  | .ldN16 d a tk off => keep_execLdN16 d a tk off s hs
  | .ldN32 d a tk off => keep_execLdN32 d a tk off s hs
  | .ldN64 d a tk off => keep_execLdN64 d a tk off s hs
  | .stN8 d a tk off => keep_execStN8 d a tk off s hs
  | .stN16 d a tk off => keep_execStN16 d a tk off s hs
  | .stN32 d a tk off => keep_execStN32 d a tk off s hs
  | .stN64 d a tk off => keep_execStN64 d a tk off s hs
  | .ldc d a tk off => keep_execLdc d a tk off s hs
  | .stc d a tk off => keep_execStc d a tk off s hs
  | .ldxN8 d a tk ord scope => keep_execLdxN8 d a tk ord scope s hs
  | .ldxN16 d a tk ord scope => keep_execLdxN16 d a tk ord scope s hs
  | .ldxN32 d a tk ord scope => keep_execLdxN32 d a tk ord scope s hs
  | .ldxN64 d a tk ord scope => keep_execLdxN64 d a tk ord scope s hs
  | .stxN8 d a tk ord scope => keep_execStxN8 d a tk ord scope s hs
  | .stxN16 d a tk ord scope => keep_execStxN16 d a tk ord scope s hs
  | .stxN32 d a tk ord scope => keep_execStxN32 d a tk ord scope s hs
  | .stxN64 d a tk ord scope => keep_execStxN64 d a tk ord scope s hs
  | .ldcx d a tk ord scope => keep_execLdcx d a tk ord scope s hs
  | .stcx d a tk ord scope => keep_execStcx d a tk ord scope s hs
  | .amoAddN32 d a tk ord scope => keep_execAmoAddN32 d a tk ord scope s hs
  | .amoAndN32 d a tk ord scope => keep_execAmoAndN32 d a tk ord scope s hs
  | .amoOrN32 d a tk ord scope => keep_execAmoOrN32 d a tk ord scope s hs
  | .amoXorN32 d a tk ord scope => keep_execAmoXorN32 d a tk ord scope s hs
  | .amoMinI32 d a tk ord scope => keep_execAmoMinI32 d a tk ord scope s hs
  | .amoMaxI32 d a tk ord scope => keep_execAmoMaxI32 d a tk ord scope s hs
  | .amoMinN32 d a tk ord scope => keep_execAmoMinN32 d a tk ord scope s hs
  | .amoMaxN32 d a tk ord scope => keep_execAmoMaxN32 d a tk ord scope s hs
  | .amoSwapN32 d a tk ord scope => keep_execAmoSwapN32 d a tk ord scope s hs
  | .amoCasN32 d a tk ord scope => keep_execAmoCasN32 d a tk ord scope s hs
  | .amoSwapN64 d a tk ord scope => keep_execAmoSwapN64 d a tk ord scope s hs
  | .amoCasN64 d a tk ord scope => keep_execAmoCasN64 d a tk ord scope s hs
  | .amoAddN64 d a tk ord scope => keep_execAmoAddN64 d a tk ord scope s hs
  | .fence ord scope => keep_execFence ord scope s hs
  | .lrun tk a count off => keep_execLrun tk a count off s hs
  | .emr d => keep_execEmr d s hs
  | .emw a => keep_execEmw a s hs
  | .lmr d => keep_execLmr d s hs
  | .bar obj flush => keep_execBar obj flush s hs
  | .barArrive obj flush => keep_execBarArrive obj flush s hs
  | .barWait obj => keep_execBarWait obj s hs
  | .wtok tk thr => keep_execWtok tk thr s hs
  | .wtokReg tk b => keep_execWtokReg tk b s hs
  | .tkr tk d => keep_execTkr tk d s hs
  | .pause n => keep_execPause n s hs
  | .dly n => keep_execDly n s hs
  | .yld tk r off => keep_execYld tk r off s hs
  | .qpushQcopy r => keep_execQpushQcopy r s hs
  | .qpushQcoll r => keep_execQpushQcoll r s hs
  | .qpopQmat r => keep_execQpopQmat r s hs
  | .msend a tk => keep_execMsend a tk s hs
  | .mrecv a tk => keep_execMrecv a tk s hs
  | .mcall a tk => keep_execMcall a tk s hs
  | .mreply tk => keep_execMreply tk s hs
  | .glaunch d a b tk => keep_execGlaunch d a b tk s hs
  | .gsub d a tk => keep_execGsub d a tk s hs
  | .wset t r tk => keep_execWset t r tk s hs
  | .wget t r tk => keep_execWget t r tk s hs
  | .nop => keep_execNop s hs
  | .gend => keep_execGend s hs
  | .brk code => keep_execBrk code s hs
  | .rdtime d => keep_execRdtime d s hs
  | .rdid d sel => keep_execRdid d sel s hs
  | .pgreq a tk => keep_execPgreq a tk s hs
  | .fsrr d => keep_execFsrr d s hs
  | .fsrw d => keep_execFsrw d s hs
  | .mxcr d => keep_execMxcr d s hs
  | .mxcw d => keep_execMxcw d s hs
  | .eret => keep_execEret s hs
  | .ctlr d n => keep_execCtlr d n s hs
  | .ctlw d n => keep_execCtlw d n s hs
  | .tlbi a b kind => keep_execTlbi a b kind s hs
  | .swp d => keep_execSwp d s hs
  | .keyk d => keep_execKeyk d s hs
  | .sealctx d a b => keep_execSealctx d a b s hs
  | .wfi => keep_execWfi s hs
  | .xstep => keep_execXstep s hs
  | .iadd h d ty sat a b => keep_execIadd h d ty sat a b s hs
  | .isub h d ty sat a b => keep_execIsub h d ty sat a b s hs
  | .imul h d ty sat a b => keep_execImul h d ty sat a b s hs
  | .imulhi h d ty a b => keep_execImulhi h d ty a b s hs
  | .imad h d ty sat a b c => keep_execImad h d ty sat a b c s hs
  | .imin h d ty a b => keep_execImin h d ty a b s hs
  | .imax h d ty a b => keep_execImax h d ty a b s hs
  | .iabs h d ty sat a => keep_execIabs h d ty sat a s hs
  | .ineg h d ty sat a => keep_execIneg h d ty sat a s hs
  | .iand h d ty a b => keep_execIand h d ty a b s hs
  | .ior h d ty a b => keep_execIor h d ty a b s hs
  | .ixor h d ty a b => keep_execIxor h d ty a b s hs
  | .iandn h d ty a b => keep_execIandn h d ty a b s hs
  | .inot h d ty a => keep_execInot h d ty a s hs
  | .isel h d ty a b p => keep_execIsel h d ty a b p s hs
  | .ishl h d ty a b => keep_execIshl h d ty a b s hs
  | .ishr h d ty a b => keep_execIshr h d ty a b s hs
  | .isra h d ty a b => keep_execIsra h d ty a b s hs
  | .ipopc h d ty a => keep_execIpopc h d ty a s hs
  | .iclz h d ty a => keep_execIclz h d ty a s hs
  | .laneBrev h d ty a => keep_execLaneBrev h d ty a s hs
  | .prmt h d a b c => keep_execPrmt h d a b c s hs
  | .laneBfe h d ty a b => keep_execLaneBfe h d ty a b s hs
  | .laneBfi h d ty a b c => keep_execLaneBfi h d ty a b c s hs
  | .idp4 h d ty sat a b c => keep_execIdp4 h d ty sat a b c s hs
  | .fadd h d rnd a b => keep_execFadd h d rnd a b s hs
  | .fsub h d rnd a b => keep_execFsub h d rnd a b s hs
  | .fmul h d rnd a b => keep_execFmul h d rnd a b s hs
  | .ffma h d rnd a b c => keep_execFfma h d rnd a b c s hs
  | .fmin h d a b => keep_execFmin h d a b s hs
  | .fmax h d a b => keep_execFmax h d a b s hs
  | .fabs h d a => keep_execFabs h d a s hs
  | .fneg h d a => keep_execFneg h d a s hs
  | .frcp h d rnd a => keep_execFrcp h d rnd a s hs
  | .frsq h d rnd a => keep_execFrsq h d rnd a s hs
  | .fsqrt h d rnd a => keep_execFsqrt h d rnd a s hs
  | .fdiv h d rnd a b => keep_execFdiv h d rnd a b s hs
  | .fexp2 h d a => keep_execFexp2 h d a s hs
  | .flog2 h d a => keep_execFlog2 h d a s hs
  | .dadd h d rnd a b => keep_execDadd h d rnd a b s hs
  | .dsub h d rnd a b => keep_execDsub h d rnd a b s hs
  | .dmul h d rnd a b => keep_execDmul h d rnd a b s hs
  | .dfma h d rnd a b c => keep_execDfma h d rnd a b c s hs
  | .dmin h d a b => keep_execDmin h d a b s hs
  | .dmax h d a b => keep_execDmax h d a b s hs
  | .ddiv h d rnd a b => keep_execDdiv h d rnd a b s hs
  | .dsqrt h d rnd a => keep_execDsqrt h d rnd a s hs
  | .hadd2 h d rnd a b => keep_execHadd2 h d rnd a b s hs
  | .hmul2 h d rnd a b => keep_execHmul2 h d rnd a b s hs
  | .hfma2 h d rnd a b c => keep_execHfma2 h d rnd a b c s hs
  | .badd2 h d rnd a b => keep_execBadd2 h d rnd a b s hs
  | .bmul2 h d rnd a b => keep_execBmul2 h d rnd a b s hs
  | .bfma2 h d rnd a b c => keep_execBfma2 h d rnd a b c s hs
  | .bdot2 h d rnd a b c => keep_execBdot2 h d rnd a b c s hs
  | .cvt h d rnd sat dty sty a bsel => keep_execCvt h d rnd sat dty sty a bsel s hs
  | .sxpack h d sx a sc bsel blk => keep_execSxpack h d sx a sc bsel blk s hs
  | .sxunpack h d rnd sx ty a sc bsel blk => keep_execSxunpack h d rnd sx ty a sc bsel blk s hs
  | .pset h p cmp ty a b => keep_execPset h p cmp ty a b s hs
  | .plop h p pa pb pc lut => keep_execPlop h p pa pb pc lut s hs
  | .pmov h form => keep_execPmov h form s hs
  | .mov h d ty a => keep_execMov h d ty a s hs
  | .movi h d imm => keep_execMovi h d imm s hs
  | .rnd h d k c => keep_execRnd h d k c s hs
  | .laneDly n => keep_execLaneDly n s hs
  | .shfl h mode d a b => keep_execShfl h mode d a b s hs
  | .vote h mode d p tk => keep_execVote h mode d p tk s hs
  | .vballot h d p => keep_execVballot h d p s hs
  | .lred h op ty d a tk => keep_execLred h op ty d a tk s hs
  | .lscan h op ty incl d a total tk => keep_execLscan h op ty incl d a total tk s hs
  | .laneMatch h ty d a => keep_execLaneMatch h ty d a s hs
  | .lbrx h t c tk => keep_execLbrx h t c tk s hs
  | .lend h tk => keep_execLend h tk s hs
  | .vcmov h q p => keep_execVcmov h q p s hs
  | .vcgetaddr h w p => keep_execVcgetaddr h w p s hs
  | .vcgetbase h w p => keep_execVcgetbase h w p s hs
  | .vcgettop h w p => keep_execVcgettop h w p s hs
  | .vcgetlen h w p => keep_execVcgetlen h w p s hs
  | .vcgetperm h w p => keep_execVcgetperm h w p s hs
  | .vcgetseal h w p => keep_execVcgetseal h w p s hs
  | .vcgetowner h w p => keep_execVcgetowner h w p s hs
  | .vcgettag h w p => keep_execVcgettag h w p s hs
  | .vcsetaddr h q p w => keep_execVcsetaddr h q p w s hs
  | .vcinc h q p w => keep_execVcinc h q p w s hs
  | .vcsetbnd h q p w => keep_execVcsetbnd h q p w s hs
  | .vcsetbndx h q p w => keep_execVcsetbndx h q p w s hs
  | .vcnarrow h q p w => keep_execVcnarrow h q p w s hs
  | .vcwrap h q p k => keep_execVcwrap h q p k s hs
  | .vcunwrap h q p k => keep_execVcunwrap h q p k s hs
  | .vcwithin h w p q => keep_execVcwithin h w p q s hs
  | .ld h ty ord scope ro d cap off imm tk => keep_execLd h ty ord scope ro d cap off imm tk s hs
  | .st h ty ord scope data cap off imm tk => keep_execSt h ty ord scope data cap off imm tk s hs
  | .ldnr h ty ord scope ro d r cap off imm tk => keep_execLdnr h ty ord scope ro d r cap off imm tk s hs
  | .ldsub h ty ord scope ro d cap off imm tk => keep_execLdsub h ty ord scope ro d cap off imm tk s hs
  | .subs h ty c b tk => keep_execSubs h ty c b tk s hs
  | .unsubs h c b tk => keep_execUnsubs h c b tk s hs
  | .lds h ty ord scope d addr imm tk => keep_execLds h ty ord scope d addr imm tk s hs
  | .sts h ty ord scope data addr imm tk => keep_execSts h ty ord scope data addr imm tk s hs
  | .atom h op ty ord scope d cap off opnd imm tk => keep_execAtom h op ty ord scope d cap off opnd imm tk s hs
  | .atoms h op ty ord scope d addr opnd imm tk => keep_execAtoms h op ty ord scope d addr opnd imm tk s hs
  | .laneLdc h ord scope d cap off imm tk => keep_execLaneLdc h ord scope d cap off imm tk s hs
  | .laneStc h ord scope v cap off imm tk => keep_execLaneStc h ord scope v cap off imm tk s hs
  | .laneFence h ord scope tk => keep_execLaneFence h ord scope tk s hs
  | .fencex h src dst ord scope tk => keep_execFencex h src dst ord scope tk s hs
  | .pf h cap off imm tk => keep_execPf h cap off imm tk s hs
  | .mmac h fmt pair reuse acc a lw tk => keep_execMmac h fmt pair reuse acc a lw tk s hs
  | .mdist h fmt pair reuse acc a lw tk => keep_execMdist h fmt pair reuse acc a lw tk s hs
  | .mtopk h pair acc k tk => keep_execMtopk h pair acc k tk s hs
  | .mclr h pair acc tk => keep_execMclr h pair acc tk s hs
  | .mld h pair acc lw tk => keep_execMld h pair acc lw tk s hs
  | .mst h pair acc lw tk => keep_execMst h pair acc lw tk s hs
  | .mrd h d tk => keep_execMrd h d tk s hs
  | .tokc h d p c seq tok tk => keep_execTokc h d p c seq tok tk s hs
  | .tokcDraft h d p c seq tok tk => keep_execTokcDraft h d p c seq tok tk s hs
  | .tokcf h d p c seq n tk => keep_execTokcf h d p c seq n tk s hs
  | .tokrj h c seq tk => keep_execTokrj h c seq tk s hs
  | .tokf h d c seq tk => keep_execTokf h d c seq tk s hs
  | .spawnedGroupStart team => keep_execSpawnedGroupStart team s hs
  | .faultGroupStart team => keep_execFaultGroupStart team s hs
  | .lbrxRedirect agent => keep_execLbrxRedirect agent s hs
  | .issueChoice die core part => keep_execIssueChoice die core part s hs
  | .starvationPromotion agent lane => keep_execStarvationPromotion agent lane s hs
  | .pauseEnd agent => keep_execPauseEnd agent s hs
  | .dlyExpiry agent lane => keep_execDlyExpiry agent lane s hs
  | .fixedLatencyWriteEffect agent => keep_execFixedLatencyWriteEffect agent s hs
  | .wtokComplete agent => keep_execWtokComplete agent s hs
  | .yieldReactivation agent => keep_execYieldReactivation agent s hs
  | .queueBlockEnd agent => keep_execQueueBlockEnd agent s hs
  | .scalarMemoryCompletion agent k => keep_execScalarMemoryCompletion agent k s hs
  | .laneMemoryCompletion agent k => keep_execLaneMemoryCompletion agent k s hs
  | .watchStepCompletion agent k => keep_execWatchStepCompletion agent k s hs
  | .matrixStart die core => keep_execMatrixStart die core s hs
  | .matrixCompletion die core => keep_execMatrixCompletion die core s hs
  | .copyAccept agent => keep_execCopyAccept agent s hs
  | .copyCompletion k => keep_execCopyCompletion k s hs
  | .collectiveAccept agent => keep_execCollectiveAccept agent s hs
  | .collectiveCompletion k => keep_execCollectiveCompletion k s hs
  | .engineFaultDelivery agent => keep_execEngineFaultDelivery agent s hs
  | .pageRequestPost k => keep_execPageRequestPost k s hs
  | .pageRequestRecheck k => keep_execPageRequestRecheck k s hs
  | .firstTouchPoolRetry agent => keep_execFirstTouchPoolRetry agent s hs
  | .tcmpReached core => keep_execTcmpReached core s hs
  | .interruptTrap core => keep_execInterruptTrap core s hs
  | .singleStepTrap agent => keep_execSingleStepTrap agent s hs
  | .teamPlacement launch die core => keep_execTeamPlacement launch die core s hs
  | .teamReservation launch die core => keep_execTeamReservation launch die core s hs
  | .preemption team => keep_execPreemption team s hs
  | .teamRestore team die core => keep_execTeamRestore team die core s hs
  | .regionSnapshot agent => keep_execRegionSnapshot agent s hs
  | .teamExit team => keep_execTeamExit team s hs
  | .teamKill team cause => keep_execTeamKill team cause s hs
  | .killRequest ctx => keep_execKillRequest ctx s hs
  | .budgetExhausted ctx => keep_execBudgetExhausted ctx s hs
  | .periodStart ctx => keep_execPeriodStart ctx s hs
  | .usedUpdate ctx => keep_execUsedUpdate ctx s hs
  | .watchdogExpiry ctx => keep_execWatchdogExpiry ctx s hs
  | .launchCompletion launch => keep_execLaunchCompletion launch s hs
  | .launchRecordUpdate launch => keep_execLaunchRecordUpdate launch s hs
  | .endNode walk => keep_execEndNode walk s hs
  | .launchNode walk => keep_execLaunchNode walk s hs
  | .copyNode walk => keep_execCopyNode walk s hs
  | .loopNode walk => keep_execLoopNode walk s hs
  | .conditionalNode walk => keep_execConditionalNode walk s hs
  | .waitNode walk => keep_execWaitNode walk s hs
  | .waitNodeRetest walk => keep_execWaitNodeRetest walk s hs
  | .signalNode walk => keep_execSignalNode walk s hs
  | .deviceTimeTick => keep_execDeviceTimeTick s hs
  | .timeCopyCheck agent => keep_execTimeCopyCheck agent s hs
  | .leaseExpiry die core line => keep_execLeaseExpiry die core line s hs
  | .dirtyWriteBack die core line => keep_execDirtyWriteBack die core line s hs
  | .writePerform agent k => keep_execWritePerform agent k s hs
  | .forcedPublish die core line => keep_execForcedPublish die core line s hs
  | .clockStop die core => keep_execClockStop die core s hs
  | .gets k => keep_execGets k s hs
  | .getsub k => keep_execGetsub k s hs
  | .getx k => keep_execGetx k s hs
  | .wrh k => keep_execWrh k s hs
  | .putx k => keep_execPutx k s hs
  | .inv k => keep_execInv k s hs
  | .fwds k => keep_execFwds k s hs
  | .fwdx k => keep_execFwdx k s hs
  | .upd k => keep_execUpd k s hs
  | .ack k => keep_execAck k s hs
  | .data k => keep_execData k s hs
  | .wback k => keep_execWback k s hs
  | .rdcEviction die line => keep_execRdcEviction die line s hs
  | .sweepPassBegin => keep_execSweepPassBegin s hs
  | .sweepPassComplete => keep_execSweepPassComplete s hs
  | .peerAccessRequest req => keep_execPeerAccessRequest req s hs
  | .exportReturn agent k => keep_execExportReturn agent k s hs
  | .linkTraining n peer => keep_execLinkTraining n peer s hs
  | .flitReplay n => keep_execFlitReplay n s hs
  | .linkSpareLane n => keep_execLinkSpareLane n s hs
  | .linkFailure n => keep_execLinkFailure n s hs
  | .msixWrite port entry => keep_execMsixWrite port entry s hs
  | .portTransferComplete port => keep_execPortTransferComplete port s hs
  | .packageReset => keep_execPackageReset s hs
  | .partitionReset p => keep_execPartitionReset p s hs
  | .powerManagerStep watts => keep_execPowerManagerStep watts s hs
  | .leakageUpdate die leak => keep_execLeakageUpdate die leak s hs
  | .powerAlertAssert => keep_execPowerAlertAssert s hs
  | .powerAlertRelease => keep_execPowerAlertRelease s hs
  | .spareExchange die unit => keep_execSpareExchange die unit s hs
  | .bootok => keep_execBootok s hs
  | .stage => keep_execStage s hs
  | .logrd => keep_execLogrd s hs
  | .fuse => keep_execFuse s hs
  | .mailboxCommandEnd => keep_execMailboxCommandEnd s hs
  | .getMeasurements nonce => keep_execGetMeasurements nonce s hs
  | .keyLoad => keep_execKeyLoad s hs
  | .stop part pid => keep_execStop part pid s hs
  | .traceSample part => keep_execTraceSample part s hs
  | .laneFocus agent v => keep_execLaneFocus agent v s hs
  | .laneFocusRelease agent v => keep_execLaneFocusRelease agent v s hs
  | .crashDump p => keep_execCrashDump p s hs
  | .acctArm core v => keep_execAcctArm core v s hs
  | .partcfgWrite v => keep_execPartcfgWrite v s hs
  | .linkpartWrite v => keep_execLinkpartWrite v s hs
  | .coherenceControlWrite die v => keep_execCoherenceControlWrite die v s hs
  | .exppaWrite v => keep_execExppaWrite v s hs
  | .revocationRegisterWrite which v => keep_execRevocationRegisterWrite which v s hs
  | .registerWrite off v => keep_execRegisterWrite off v s hs
  | .portMemoryAccess port va size data write => keep_execPortMemoryAccess port va size data write s hs
  | .powerLoss => keep_execPowerLoss s hs
  | .linkPeerLoss n => keep_execLinkPeerLoss n s hs

/-! ### The parts of a step -/

/-- The agent in focus bears on neither. -/
theorem keep_withAg {s : State} (a : Agent) (h : KS wants fa fb s) : KS wants fa fb { s with ag := a } := h

theorem keep_execPair (s : State) (i : Instr) (mate : Option Instr) (h : KS wants fa fb s) :
    KOut wants fa fb (s.execPair i mate) := by
  cases mate with
  | none => exact keep_exec s h i
  | some j =>
    have hfirst : KOut wants fa fb (exec i { s with ag := { s.ag with pairing := .first } }) := keep_exec _ (keep_withAg _ h) i
    simp only [State.execPair]
    split
    · next s1 hs1 =>
      have h1 : KS wants fa fb s1 := out_next hs1 hfirst
      split
      · exact keep_exec _ (keep_withAg _ h1) j
      · exact h1
    · exact hfirst

/-- A meaning and what follows it, from a state to go by that keeps too. -/
theorem keep_issued (u v : State) (i : Instr) (hu : KS wants fa fb u) (hv : KS wants fa fb v) :
    KOut wants fa fb (andThen (exec i v) u.afterScalar) :=
  keep_andThen _ _ (keep_exec v hv i) fun _ => keep_afterScalar u _ hu

theorem keep_runScalar (s : State) (h : KS wants fa fb s) : KOut wants fa fb s.runScalar := by
  have hnext := keep_nextScalar s h
  unfold State.runScalar
  split
  · next s1 hs1 =>
    have h1 := pair_fst hs1 hnext
    refine mk_next ?_
    split
    · exact keep_afterScalar _ _ h (keep_take _ _ h1)
    · exact h
  · next s1 i hs1 =>
    have h1 := pair_fst hs1 hnext
    split
    · exact keep_issued _ _ _ h1 (keep_starting _ _ h1)
    · split
      · exact keep_issued _ _ _ h1 (keep_starting _ _ (keep_take _ _ h1))
      · exact h

theorem keep_issueScalar (s : State) (h : KS wants fa fb s) : KOut wants fa fb s.issueScalar := by
  have hb := keep_beginIssue s h
  simp only [State.issueScalar]
  split
  · exact keep_takeDue _ _ hb
  split
  · exact keep_advance _ _ hb
  split
  · refine mk_next ?_
    split
    · exact keep_goOn _ (keep_take _ _ hb)
    · exact hb
  split
  · exact hb
  split
  · exact hb
  · exact keep_runScalar _ hb

theorem keep_runLane (s : State) (h : KS wants fa fb s) : KOut wants fa fb s.runLane := by
  have hbits := keep_nextLaneBits s h
  unfold State.runLane
  split
  · next s1 hs1 => exact pair_fst hs1 hbits
  · next s1 w hs1 =>
    have h1 := pair_fst hs1 hbits
    split
    · exact keep_laneTrap _ _ _ _ _ h1
    · next i _ =>
      split
      · exact h1
      · exact keep_andThen _ _ (keep_execPair _ _ _ h1) fun _ => keep_afterLane _ _ h1

theorem keep_issueLane (s : State) (h : KS wants fa fb s) : KOut wants fa fb s.issueLane := by
  have hb := keep_beginIssue s h
  simp only [State.issueLane]
  split
  · exact keep_takeDue _ _ hb
  split
  · exact hb
  · exact keep_runLane _ (keep_coverFocus _ (keep_starting _ _ (keep_take _ _ hb)))

theorem keep_runSlot (s : State) (x : Slot) (h : KS wants fa fb s) : KOut wants fa fb (s.runSlot x) := by
  cases x with
  | issue lane =>
    cases lane with
    | true => exact keep_issueLane s h
    | false => exact keep_issueScalar s h
  | event i =>
    simp only [State.runSlot]
    split
    · exact keep_exec s h i
    · exact h
  | focus a => exact keep_focusOn s a h
  | clk =>
    refine mk_next ?_
    split
    · exact keep_nextClk s h
    · exact h
  | copy k row part => exact keep_copyUnit s k row part h
  | drift key ns => exact keep_driftCopy s key ns h
  | fetch a lane miss => exact keep_updAgent s a _ h

/-- A step that answers a next state keeps the form of memory and the floor of the fuses. -/
theorem keep_step {s t : State} (h : KS wants fa fb s) (hst : step s = .next t) : KS wants fa fb t := by
  simp only [step] at hst
  split at hst
  · cases hst
  · exact out_next hst (keep_runSlot _ _ h)

/-! ### The statements -/

/-- An outcome with the property `KOut` is a next state. -/
theorem next_of_kOut {o : Out} (h : KOut wants fa fb o) : ∃ t, o = .next t := by
  cases o with
  | next t => exact ⟨t, rfl⟩
  | fault e => exact h.elim
  | refused e => exact h.elim

/-- Settles O57: the meaning of every row keeps a property of next states, so it answers one. -/
theorem instructionsAnswer : Obligations.InstructionsAnswer := by
  unfold Obligations.InstructionsAnswer
  intro i s
  have hs : KS False 0 0 s := ⟨False.elim, Nat.zero_le _, Nat.zero_le _⟩
  exact next_of_kOut (keep_exec s hs i)

/-- Settles O58: `keep_step` with the form of memory wanted. -/
theorem stepKeepsMemoryForm : Obligations.StepKeepsMemoryForm := by
  unfold Obligations.StepKeepsMemoryForm
  intro s t hwf hst
  have hs : KS True 0 0 s := ⟨fun _ => hwf, Nat.zero_le _, Nat.zero_le _⟩
  obtain ⟨hform, -, -⟩ := keep_step hs hst
  exact hform trivial

/-- Settles O60: `keep_step` with the fuses of the state before as the floor. -/
theorem fusesOnlyRise : Obligations.FusesOnlyRise := by
  unfold Obligations.FusesOnlyRise
  intro s t hst
  have hs : KS False s.islet.fuseA s.islet.fuseB s := ⟨False.elim, le_rfl, le_rfl⟩
  obtain ⟨-, hA, hB⟩ := keep_step hs hst
  exact ⟨hA, hB⟩

/-- Settles O59: memory at reset is the empty list, in which no byte is listed. -/
theorem resetMemoryForm : Obligations.ResetMemoryForm := by
  unfold Obligations.ResetMemoryForm
  exact ⟨wf_reset, fun _ => rfl⟩

/-- Settles O56: each word of the table decodes by evaluation. -/
theorem decodeWords : Obligations.DecodeWords := by
  unfold Obligations.DecodeWords
  exact ⟨rfl, rfl, rfl, rfl, rfl, rfl, rfl, rfl, rfl, rfl, rfl, rfl, rfl, rfl, rfl⟩

end Sys2Proof.Proofs.WholeMachine
end

section
/-!
SUPPORT. Derivations of capabilities in both streams (04 R85, R86, R91, R96; 08 R174; 09 R223): each ends with its result
or traps with its cause; a new cursor keeps the tag when the bounds stay; and the statements about them.
-/

namespace Sys2Proof.Proofs.Derivation

open Machine Claims Laws

/-! ### The scalar stream -/

/-- What each scalar derivation does: the gate of its reads, then its result or its trap. -/
theorem exec_derive {s : State} {i : Instr} {d : Derived} (h : Derive s i d) :
    exec i s = s.gate d.reads (s.capResult d.dest d.src.addr d.out) := by
  cases h with
  | csetaddr | cinc | cinci | csetbnd | csetbndx | cnarrow | cwrap | cunwrap => rfl

/-- The destination of a well-formed derivation is a capability register (07 R143). -/
theorem dest_lt {s : State} {i : Instr} {d : Derived} (h : Derive s i d) (hw : i.wf = true) : d.dest < 40 := by
  cases h with
  | csetaddr | cinc | csetbnd | csetbndx | cnarrow | cwrap | cunwrap => exact wf_cap3 hw
  | cinci d a i =>
    have hw' : (cregOk d && cregOk a && immOk 14 i) = true := hw
    simp only [cregOk, Bool.and_eq_true, decide_eq_true_eq] at hw'
    exact hw'.1.1

theorem derive_completes {s : State} {i : Instr} {d : Derived} {c : Cap} (h : Derive s i d) (hw : i.wf = true)
    (hr : Ready s d.reads) (hc : d.out = .ok c) :
    ∃ t, exec i s = .next t ∧ Retired s t (pccPlus s.ag 4) (capWrites d.dest c) := by
  rw [exec_derive h, gate_ready hr, hc]
  exact done_retired s _ (good_cap _ c (dest_lt h hw))

theorem derive_traps {s : State} {i : Instr} {d : Derived} {cause : Nat} (h : Derive s i d)
    (hr : Ready s d.reads) (hc : d.out = .error cause) :
    exec i s = .next (s.trap ⟨cause, d.src.addr, 0, 7, false⟩) := by
  rw [exec_derive h, gate_ready hr, hc]
  rfl

/-- Settles O2: what a derivation answers is written, or is the cause of its trap. -/
theorem capDerivation : Obligations.CapDerivation := by
  unfold Obligations.CapDerivation
  exact fun s i d h hw hr => ⟨fun c => derive_completes h hw hr, fun cause => derive_traps h hr⟩

/-! ### The lane stream -/

/-- What each vector derivation does: the issue, then every lane's outcome. -/
theorem exec_laneDerive {s : State} {i : Instr} {d : LaneDerived} (h : LaneDerive s i d) :
    exec i s = s.laneIssue d.hdr d.names d.reads fun act ll => s.vcapDerive act ll d.dest d.rank d.src d.out := by
  cases h with
  | vcsetaddr | vcinc | vcsetbnd | vcsetbndx | vcnarrow | vcwrap | vcunwrap => rfl

/-- A derivation that succeeds in every lane writes each lane's result. -/
theorem vcapDerive_of_ok {s : State} {act : BitVec 32} {ll : Flags} {q : Nat} {rank : Nat → Nat → Nat}
    {src : Nat → Cap} {f : Nat → Except Nat Cap} {g : Nat → Cap} (h : ∀ l ∈ lanesOf act, f l = .ok (g l)) :
    s.vcapDerive act ll q rank src f = s.laneDone 2 ((lanesOf act).flatMap fun l => vcapWrites q l (g l)) ll none := by
  unfold State.vcapDerive
  dsimp only
  rw [derive_fails_nil rank src f g _ h, flatMap_ok f (fun l => vcapWrites q l (g l))]
  · rfl
  · intro l hl
    rw [h l hl]

/-- The failure of lane `j`, if it fails. -/
def failAt (rank : Nat → Nat → Nat) (src : Nat → Cap) (f : Nat → Except Nat Cap) (j : Nat) : Option Fail :=
  match f j with
  | .ok _ => none
  | .error c => some ⟨j, rank j c, c, (src j).addr⟩

/-- Lane `j` fails with rank `r`. -/
def failsWith (rank : Nat → Nat → Nat) (f : Nat → Except Nat Cap) (r j : Nat) : Bool :=
  match f j with
  | .ok _ => false
  | .error e => rank j e = r

section
variable {rank : Nat → Nat → Nat} {src : Nat → Cap} {f : Nat → Except Nat Cap} {l c : Nat}

theorem deriveFails_eq (L : List Nat) : deriveFails rank src (L.map fun l => (l, f l)) = L.filterMap (failAt rank src f) :=
  List.filterMap_map

theorem failAt_some {j : Nat} {x : Fail} (h : failAt rank src f j = some x) :
    ∃ e, f j = .error e ∧ x = ⟨j, rank j e, e, (src j).addr⟩ := by
  unfold failAt at h
  split at h
  · cases h
  · next e he => exact ⟨e, he, (Option.some.inj h).symm⟩

theorem failAt_error (h : f l = .error c) : failAt rank src f l = some ⟨l, rank l c, c, (src l).addr⟩ := by
  simp [failAt, h]

theorem failsWith_iff {r j : Nat} : failsWith rank f r j = true ↔ ∃ e, f j = .error e ∧ rank j e = r := by
  unfold failsWith
  split
  · next h => simp [h]
  · next e h => simp [h]

/-- Of the lanes in rising order, the first to fail at the earliest check leads those that fail at it. -/
theorem filter_failAt_cons {L : List Nat} (hL : L.Pairwise (· < ·)) (hl : l ∈ L) (hc : f l = .error c)
    (hfirst : ∀ j ∈ L, ∀ e, f j = .error e → rank j e = rank l c → l ≤ j) :
    ∃ q, (L.filterMap (failAt rank src f)).filter (fun x => x.rank == rank l c)
      = ⟨l, rank l c, c, (src l).addr⟩ :: q := by
  obtain ⟨xs, ys, rfl⟩ := List.append_of_mem hl
  have hbefore : (xs.filterMap (failAt rank src f)).filter (fun x => x.rank == rank l c) = [] := by
    simp only [List.filter_eq_nil_iff, List.mem_filterMap, beq_iff_eq]
    rintro x ⟨j, hj, hx⟩ hrank
    obtain ⟨e, he, rfl⟩ := failAt_some hx
    have hle : l ≤ j := hfirst j (by simp [hj]) e he hrank
    have hlt : j < l := (List.pairwise_append.mp hL).2.2 j hj l List.mem_cons_self
    omega
  refine ⟨(ys.filterMap (failAt rank src f)).filter (fun x => x.rank == rank l c), ?_⟩
  rw [List.filterMap_append, List.filter_append, hbefore, List.filterMap_cons_some (failAt_error hc)]
  simp

/-- The lanes of the failures of one rank. -/
theorem lanes_filter_failAt (act : BitVec 32) (r : Nat) :
    (((lanesOf act).filterMap (failAt rank src f)).filter fun x => x.rank == r).foldl
      (fun m x => m ||| laneBit x.lane) 0 = lanesWhere act (failsWith rank f r) := by
  apply BitVec.eq_of_getLsbD_eq
  intro i hi
  have hzero : (0 : BitVec 32).getLsbD i = false := BitVec.getLsbD_zero
  rw [foldLanes_bit _ _ _ hi, mask_and_where _ _ _ hi, hzero, Bool.false_or, Bool.eq_iff_iff]
  simp only [List.any_eq_true, List.mem_filter, List.mem_filterMap, beq_iff_eq, decide_eq_true_eq, Bool.and_eq_true,
    failsWith_iff]
  constructor
  · rintro ⟨x, ⟨⟨j, hj, hx⟩, hrank⟩, hlane⟩
    obtain ⟨e, he, rfl⟩ := failAt_some hx
    obtain rfl : j = i := hlane
    exact ⟨(List.mem_filter.mp hj).2, e, he, hrank⟩
  · rintro ⟨hact, e, he, hrank⟩
    exact ⟨_, ⟨⟨i, List.mem_filter.mpr ⟨List.mem_range.mpr hi, hact⟩, failAt_error he⟩, hrank⟩, rfl⟩

/-- A derivation that fails traps at the earliest check, with the lanes that fail it and the first one's cursor. -/
theorem vcapDerive_of_error {s : State} {act : BitVec 32} {ll : Flags} {q : Nat} (hl : l ∈ lanesOf act)
    (hc : f l = .error c)
    (hmin : ∀ j ∈ lanesOf act, ∀ e, f j = .error e → rank l c ≤ rank j e ∧ (rank j e = rank l c → l ≤ j)) :
    s.vcapDerive act ll q rank src f
      = s.laneTrap c (src l).addr (lanesWhere act (failsWith rank f (rank l c))) 7 := by
  obtain ⟨r, hr⟩ := filter_failAt_cons (src := src) (lanes_sorted act) hl hc fun j hj e he => (hmin j hj e he).2
  have hleast : ∀ g ∈ (lanesOf act).filterMap (failAt rank src f), rank l c ≤ g.rank := by
    intro g hg
    obtain ⟨j, hj, hx⟩ := List.mem_filterMap.mp hg
    obtain ⟨e, he, rfl⟩ := failAt_some hx
    exact (hmin j hj e he).1
  have hmem := List.mem_filterMap.mpr ⟨l, hl, failAt_error (rank := rank) (src := src) hc⟩
  unfold State.vcapDerive
  dsimp only
  rw [deriveFails_eq, pickFail_of hmem hleast r hr, ← hr, lanes_filter_failAt]
  rfl

end

/-- A vector derivation that succeeds in every active lane ends with the lanes' results at latency 2. -/
theorem laneDerive_completes {s : State} {i : Instr} {d : LaneDerived} {g : Nat → Cap} (h : LaneDerive s i d)
    (hr : LaneReady s d.hdr d.names d.reads) (hg : ∀ l ∈ active s d.hdr, d.out l = .ok (g l)) :
    ∃ t, exec i s = .next t ∧ LaneEnds s t 2
      (let fl := lostFlag s d.hdr d.reads
      let ws := (active s d.hdr).flatMap fun l => vcapWrites d.dest l (g l)
      if fl = 0 then ws else ws ++ [(.fsr, fl)]) none := by
  rw [exec_laneDerive h, laneIssue_ready hr, vcapDerive_of_ok hg]
  exact laneDone_ends s 2 _ _ none

/-- Settles O20: every lane's result is written, or none, and the trap names the earliest failing check. -/
theorem laneDeriveResult : Obligations.LaneDeriveResult := by
  unfold Obligations.LaneDeriveResult
  intro s i d h _ hr
  refine ⟨fun g => laneDerive_completes h hr, fun l hl c hc hmin => ?_⟩
  rw [exec_laneDerive h, laneIssue_ready hr]
  exact vcapDerive_of_error hl hc hmin

/-! ### A new cursor -/

/-- An unsealed, tagged capability moves its cursor (04 R85, R91). -/
theorem moveTo_ok {c : Cap} (ht : c.tag = true) (hs : c.sealType = 0) {a : Nat} (ha : a < 2 ^ 64) :
    c.moveTo a = .ok (newCursor c a) := by
  simp [Cap.moveTo, ht, hs, newCursor_eq ht a ha]

theorem increment_ok {c : Cap} (ht : c.tag = true) (hs : c.sealType = 0) (d : Int) :
    c.increment d = .ok (newCursor c (((c.addr : Int) + d) % 2 ^ 64).toNat) :=
  moveTo_ok ht hs (by omega)

theorem increment_nat_ok {c : Cap} (ht : c.tag = true) (hs : c.sealType = 0) (n : Nat) :
    c.increment n = .ok (newCursor c ((c.addr + n) % 2 ^ 64)) := by
  rw [increment_ok ht hs]
  congr 2

theorem append_ite_nil {α : Type} (P : Prop) [Decidable P] (ws xs : List α) :
    (if P then ws else ws ++ xs) = ws ++ if P then [] else xs := by
  split <;> simp

/-- Settles O48: the moves of a cursor are derivations that succeed on tagged, unsealed sources. -/
theorem cursorMove : Obligations.CursorMove := by
  unfold Obligations.CursorMove
  refine ⟨?setaddr, ?inc, ?inci, ?lanes⟩
  case setaddr =>
    intro s w p q hw hr ht hs
    exact derive_completes (.csetaddr w p q) hw hr (moveTo_ok ht hs (s.rp w).isLt)
  case inc =>
    intro s w p q hw hr ht hs
    exact derive_completes (.cinc w p q) hw hr (increment_nat_ok ht hs _)
  case inci =>
    intro s d a i hw hr ht hs
    exact derive_completes (.cinci d a i) hw hr (increment_ok ht hs i)
  case lanes =>
    intro s h q p w hr hok
    constructor
    · intro _
      have hends := laneDerive_completes (.vcsetaddr h q p w) hr fun l hl =>
        moveTo_ok (hok l hl).1 (hok l hl).2 (s.srcInt true l w).isLt
      simpa only [append_ite_nil] using hends
    · intro _
      have hends := laneDerive_completes (.vcinc h q p w) hr fun l hl =>
        increment_nat_ok (hok l hl).1 (hok l hl).2 (s.srcInt true l w).toNat
      simpa only [append_ite_nil] using hends

end Sys2Proof.Proofs.Derivation
end

section
/-!
SUPPORT. Control transfers (08 R171 to R173) and scalar accesses at their issue (08 R175 to R178, R187): where each goes on,
what it leaves under way, what it traps with; and the statements about them.
-/

namespace Sys2Proof.Proofs.FlowAndAccess

open Machine Claims Laws

/-! ### Control transfers -/

/-- A branch whose test holds is taken. -/
theorem exec_bcCond_holds {s : State} {c : Cond} {a : Nat} {off : Int} (hr : Ready s [.s a])
    (h : holds c (s.rs a).toInt) : exec (.bcCond c a off) s = s.branch off [] := by
  show execBcCond c a off s = _
  rw [execBcCond, gate_ready hr, if_pos ((test_iff c _).mpr h)]

theorem exec_bcCond_not {s : State} {c : Cond} {a : Nat} {off : Int} (hr : Ready s [.s a])
    (h : ¬ holds c (s.rs a).toInt) : exec (.bcCond c a off) s = s.done [] := by
  show execBcCond c a off s = _
  rw [execBcCond, gate_ready hr, if_neg (mt (test_iff c _).mp h)]

/-- A capability jump whose target passes its checks goes there (R172). -/
theorem capJump_goes {s : State} {p : Nat} {ws : List (Loc × Word)} (hr : Ready s (capLocs p)) (hg : Good ws)
    (h : (s.rc p).checkJump = none) :
    ∃ t, s.capJump p ws = .next t ∧ Retired s t ((s.rc p).withSeal 0) ws := by
  unfold State.capJump
  rw [gate_ready hr, h]
  exact ⟨_, rfl, jump_retired s _ ws hg⟩

theorem capJump_traps {s : State} {p cause : Nat} {ws : List (Loc × Word)} (hr : Ready s (capLocs p))
    (h : (s.rc p).checkJump = some cause) :
    s.capJump p ws = .next (s.trap ⟨cause, (s.rc p).addr, 0, 3, false⟩) := by
  unfold State.capJump
  rw [gate_ready hr, h]
  rfl

/-- The link in c1 reads back. -/
theorem good_link (a : Agent) : Good (capWrites 1 (linkCap a)) := good_cap 1 _ (by decide)

theorem transfers_goes {s : State} {i : Instr} {f : Flow} (h : Transfers s i f) (hr : Ready s f.reads) :
    ∃ t, exec i s = .next t ∧ Retired s t f.pcc f.writes := by
  cases h with
  | falls c a off hn =>
    rw [exec_bcCond_not hr hn]
    exact done_retired s [] good_nil
  | taken c a off hc hp =>
    rw [exec_bcCond_holds hr hc]
    exact branch_ok s off [] good_nil hp
  | jal off hp => exact branch_ok s off _ (good_link s.ag) hp
  | land nw => exact ⟨_, rfl, jump_retired s _ [] good_nil⟩
  | cj p hc => exact capJump_goes hr good_nil hc
  | cjal p hc => exact capJump_goes hr (good_link s.ag) hc

/-- Settles O3: a transfer that passes its checks goes on at its target with its link written; one that fails traps there. -/
theorem flowOfControl : Obligations.FlowOfControl := by
  unfold Obligations.FlowOfControl
  refine ⟨fun s i f h _ hr => transfers_goes h hr, fun s => ⟨?branch, ?jal, ?jump⟩⟩
  case branch =>
    intro c a off hr hc hp
    rw [exec_bcCond_holds hr hc]
    exact branch_trap s off [] hp
  case jal => exact fun off hp => branch_trap s off _ hp
  case jump => exact fun p cause hr hc => ⟨capJump_traps hr hc, capJump_traps hr hc⟩

/-! ### Scalar accesses -/


theorem exec_access {s : State} {i : Instr} {x : Access} (h : ScalarAccess s i x) (hr : Ready s x.reads) :
    exec i s = s.scalarAccess x.kind x.size x.write x.req x.ord x.scope x.tk x.op x.dests := by
  cases h with
  | wset t r tk ht hx =>
    show s.watchWord t r tk true = _
    unfold State.watchWord
    dsimp only
    rw [if_pos rfl, if_pos rfl, gate_ready hr, ht]
    dsimp only
    rw [if_neg (by omega)]
    rfl
  | wget t r tk ht hx =>
    show s.watchWord t r tk false = _
    unfold State.watchWord
    dsimp only
    rw [if_neg (by decide), if_neg (by decide), gate_ready hr, ht]
    dsimp only
    rw [if_neg (by omega)]
    rfl
  | _ => exact gate_ready hr _

/-- Settles O4: an access whose checks pass enters the operations under way, or stalls for want of room; else it traps. -/
theorem scalarAccesses : Obligations.ScalarAccesses := by
  unfold Obligations.ScalarAccesses
  intro s s' i x h _ hr
  rw [exec_access h hr, State.scalarAccess]
  refine ⟨fun accs hc => ?_, fun u hc => ?_⟩
  · rw [hc]
    refine ⟨fun hroom => ?_, fun hroom => ?_⟩
    · dsimp only
      rw [if_pos hroom]
      exact ⟨_, rfl, enters _ x.ord x.scope x.tk (x.op accs) x.dests .scalar false⟩
    · dsimp only
      rw [if_neg (by simp [hroom])]
  · rw [hc]

end Sys2Proof.Proofs.FlowAndAccess
end

section
/-!
SUPPORT. The instructions that read or write the agent's own state, and its waits (08 R164, R179, R180, R182, R183, R188; 19
R352, R353, R357, R362, R365, R366; 02 R41, R42): what each runs as; and the statements about them.
-/

namespace Sys2Proof.Proofs.OwnState

open Machine Claims Laws

/-! ### Reads -/

/-- `i` runs as a read of the agent's own state: the gate of its reads, then its results for the next instruction. -/
structure ReadsAs (s : State) (i : Instr) (p : Plain) : Prop where
  runs : exec i s = s.gate p.reads (s.done p.writes)
  good : Good p.writes

theorem ReadsAs.completes {s : State} {i : Instr} {p : Plain} (h : ReadsAs s i p) (hr : Ready s p.reads) :
    ∃ t, exec i s = .next t ∧ Retired s t (pccPlus s.ag 4) p.writes := by
  rw [h.runs, gate_ready hr]
  exact done_retired s _ h.good

theorem readsAs_done {s : State} {i : Instr} {lat : Nat} {ws : List (Loc × Word)} (h : exec i s = s.done ws) (hg : Good ws) :
    ReadsAs s i ⟨[], lat, ws⟩ :=
  ⟨h.trans (gate_ready (ready_nil s) _).symm, hg⟩

theorem good_pairOfNat (d v : Nat) : Good (pairOfNat d v) := good_pair _ _ _ _ (by omega)

theorem good_pairWrites (d : Nat) (v : DWord) : Good (pairWrites d v) := good_pair _ _ _ _ (by omega)

/-- The operand of a control register that holds a capability is the quad of a capability register. -/
theorem quad_lt {d : Nat} (hw : (d < 160 && d % 4 == 0) = true) : d / 4 < 40 := by
  simp only [Bool.and_eq_true, decide_eq_true_eq] at hw
  omega

theorem sealctx_dest_lt {d a b : Nat} (hw : (Instr.sealctx d a b).wf = true) : d < 40 := by
  have hw' : (cregOk d && cregOk a && sregOk b) = true := hw
  simp only [cregOk, Bool.and_eq_true, decide_eq_true_eq] at hw'
  exact hw'.1.1

theorem identity_sys {s : State} {sel : Nat} (h : s.ag.isSys = true) : s.identity sel = sysIdentity s.ag sel := by
  unfold State.identity sysIdentity
  dsimp only
  rw [if_pos h]

/-- The selectors of a group are 1 to 10 (08 R164). -/
theorem identity_group {s : State} {sel : Nat} (h : s.ag.isSys = false) (hl : 1 ≤ sel) (hu : sel ≤ 10) :
    s.identity sel = groupIdentity s sel := by
  unfold State.identity groupIdentity
  dsimp only
  rw [if_neg (by simp [h])]
  interval_cases sel <;> rfl

theorem sel_range {d sel : Nat} (hw : (Instr.rdid d sel).wf = true) : 1 ≤ sel ∧ sel ≤ 10 := by
  have hw' : (sregOk d && decide (1 ≤ sel) && decide (sel ≤ 10)) = true := hw
  simp only [Bool.and_eq_true, decide_eq_true_eq] at hw'
  exact ⟨hw'.1.2, hw'.2⟩

/-- A control register that the kernel reads. -/
theorem readsAs_ctlr {s : State} {d n : Nat} {ws : List (Loc × Word)} (h : MayKernel s) (ha : ctlAbsent s.ag n = false)
    (hws : s.ctlRead n d = ws) (hg : Good ws) : ReadsAs s (.ctlr d n) ⟨[], 1, ws⟩ :=
  readsAs_done (by rw [ctlr_eq h ha, hws]) hg

theorem ctlAbsent_of_sys {a : Agent} {n : Nat} (h : a.isSys = true) : ctlAbsent a n = false := by simp [ctlAbsent, h]

theorem readsAs_of_simple {s : State} {i : Instr} {p : Plain} (h : Simple s i p) (hw : i.wf = true) : ReadsAs s i p := by
  cases h with
  | nop => exact readsAs_done rfl good_nil
  | rdidSys d sel h =>
    rw [← identity_sys h]
    exact readsAs_done rfl (good_s _ _)
  | rdid d sel h =>
    rw [← identity_group h (sel_range hw).1 (sel_range hw).2]
    exact readsAs_done rfl (good_s _ _)
  | fsrr | mxcr => exact readsAs_done rfl (good_s _ _)
  | tkr tk d => exact readsAs_done (by rw [← tokenId_eq]; rfl) (good_s _ _)
  | emr d h hg => 
    refine ⟨?_, good_s _ _⟩
    show execEmr d s = _
    rw [execEmr, h, if_neg (by decide), rdMask_of hg]
    rfl
  | lmr d h hg =>
    refine ⟨?_, good_s _ _⟩
    show execLmr d s = _
    rw [execLmr, h, if_neg (by decide), rdMask_of hg]
    rfl
  | xpc d h | kentry d h | kscr d h => exact readsAs_ctlr h (by simp [ctlAbsent]) rfl (good_cap _ _ (quad_lt hw))
  | xlpc d h | xaddr d h => exact readsAs_ctlr h (by simp [ctlAbsent]) (pair_of _ _) (good_pairOfNat _ _)
  | xcause d h | xstat d h | xlanes d h | xinfo d h | t15 d h | kill d h | swpdone d h =>
    exact readsAs_ctlr h (by simp [ctlAbsent]) rfl (good_s _ _)
  | ipend d h hs | tcmp d h hs => exact readsAs_ctlr h (ctlAbsent_of_sys hs) (pair_of _ _) (good_pairOfNat _ _)
  | sealctx d a b h hm ht =>
    refine ⟨?_, good_cap _ _ (sealctx_dest_lt hw)⟩
    show execSealctx d a b s = _
    rw [execSealctx, monitor_of h hm, ht]
    rfl
  | bar o f h | barArrive o f h => exact readsAs_done (if_pos h) good_nil
  | barWait o h | pause o h | dly o h => exact readsAs_done (if_pos h) good_nil
  | wfi h hs hp =>
    refine readsAs_done ?_ good_nil
    show execWfi s = _
    rw [execWfi, kernel_of h, hs, if_pos hp]
    rfl
  | gend hm hs hp =>
    refine readsAs_done ?_ good_nil
    show execGend s = _
    rw [execGend, if_pos hs, if_neg hm, if_pos hp]
  | keyk d h hm hk =>
    refine ⟨?_, good_nil⟩
    show execKeyk d s = _
    rw [execKeyk, monitor_of h hm]
    dsimp only
    rw [if_pos (by simpa [Option.isNone_iff_eq_none] using hk)]

/-- Settles O5: each read of the agent's own state has its result for the next instruction. -/
theorem simpleResult : Obligations.SimpleResult := by
  unfold Obligations.SimpleResult
  exact fun s i p h hw hr => (readsAs_of_simple h hw).completes hr

/-! ### Writes -/

/-- A write of a control register that the kernel makes. -/
theorem exec_ctlw {s : State} {d n : Nat} {a : Agent} (h : MayKernel s) (ha : ctlAbsent s.ag n = false)
    (hr : Ready s (ctlLocs n d)) (hn : n ≠ 0x019) (hw : s.ctlWrite n d = a) :
    exec (.ctlw d n) s = .next (after s a) := by
  rw [ctlw_eq h ha hr hn, hw]

/-- A write of xlpc takes effect on an instruction of the head block. -/
theorem setXlpc_at {a : Agent} {v : DWord} {b : Block} {r : List Block} {i : Nat} (hb : a.blocks = b :: r)
    (hv : v.toNat = b.start + 12 * i) (hi : i < b.count) :
    a.setXlpc v = { a with xlpc := v, blocks := { b with idx := i } :: r } := by
  unfold Agent.setXlpc
  rw [hb, hv]
  dsimp only
  have h1 : b.start + 12 * i - b.start = 12 * i := by omega
  have h2 : 12 * i / 12 = i := by omega
  have h3 : 12 * i % 12 = 0 := by omega
  simp [h1, h2, h3, hi]

/-- Elsewhere it is discarded. -/
theorem setXlpc_elsewhere {a : Agent} {v : DWord}
    (hb : ∀ b ∈ a.blocks.head?, ∀ i < b.count, v.toNat ≠ b.start + 12 * i) : a.setXlpc v = a := by
  unfold Agent.setXlpc
  split
  · rfl
  · next b r hbr =>
    dsimp only
    rw [if_neg]
    simp only [Bool.and_eq_true, decide_eq_true_eq, not_and]
    intro hle hlt
    refine hb b (by simp [hbr]) _ hlt ?_
    omega

theorem setXstat_eq (a : Agent) (v : Word) : a.setXstat v = { a with xstat := xstatWritten a v } := by
  have hlt : (v.extractLsb' 0 2).toNat < 4 := (v.extractLsb' 0 2).isLt
  unfold Agent.setXstat xstatWritten
  dsimp only
  congr 1
  by_cases hp : (v.extractLsb' 0 2).toNat < 3 ∧ (v.extractLsb' 0 2).toNat ≤ a.mode
  · rw [if_pos hp, if_neg (by simp only [Bool.or_eq_true, decide_eq_true_eq]; omega)]
  · rw [if_neg hp, if_pos (by simp only [Bool.or_eq_true, decide_eq_true_eq]; omega)]

theorem exec_changes {s : State} {i : Instr} {c : Change} (h : Changes s i c) (hr : Ready s c.reads) :
    exec i s = .next (after s c.ag) := by
  cases h with
  | fsrw d | mxcw d =>
    rw [← after_eq]
    exact gate_ready hr _
  | xstep h =>
    show s.kernel _ = _
    rw [kernel_of h, ← after_eq]
  | pause n h | dly n h =>
    rw [← after_eq]
    exact if_neg (by simp [h])
  | wtok tk thr h =>
    show s.waitToken (s.ag.tokenId tk) thr = _
    rw [tokenId_eq]
    exact waitToken_met h
  | wtokReg tk b h =>
    show s.gate [.s b] (s.waitToken (s.ag.tokenId tk) _) = _
    rw [gate_ready hr, tokenId_eq]
    exact waitToken_met (by rwa [thr16] at h)
  | lrun tk a n off h hh hc hq =>
    show execLrun tk a n off s = _
    rw [execLrun, h, hh]
    dsimp only
    rw [if_neg (by decide), if_neg (by decide), gate_ready hr, hc]
    dsimp only
    rw [if_neg (by omega), ← after_eq, tokenOpt_eq]
  | barWait o h hp =>
    show execBarWait o s = _
    rw [execBarWait, h, if_neg (by decide), State.waitPhase, ← advance_self]
    split
    · rfl
    · next p hlast => rw [if_pos (hp p hlast)]
  | pgreq a tk hb hc =>
    show execPgreq a tk s = _
    rw [execPgreq]
    dsimp only
    rw [gate_ready hr, hc, hb]
    dsimp only
    rw [← after_eq, tokenOpt_eq]
  | pgreqHere a tk o pte size hb hc hv hw =>
    show execPgreq a tk s = _
    rw [execPgreq]
    dsimp only
    rw [gate_ready hr, hc, hb]
    dsimp only
    rw [if_neg (by simp [hv]), hw, ← after_eq, tokenOpt_eq]
  | xpc d h | xaddr d h | xcause d h | xlanes d h | xinfo d h | t15 d h | swpdone d h =>
    exact exec_ctlw h (by simp [ctlAbsent]) hr (by decide) rfl
  | xlpc d b r i h hb hv hi => exact exec_ctlw h (by simp [ctlAbsent]) hr (by decide) (setXlpc_at hb hv hi)
  | xlpcKept d h hb => exact exec_ctlw h (by simp [ctlAbsent]) hr (by decide) (setXlpc_elsewhere hb)
  | xstat d h => exact exec_ctlw h (by simp [ctlAbsent]) hr (by decide) (setXstat_eq _ _)
  | kentry d h hk | kscr d h hk =>
    exact exec_ctlw h (by simp [ctlAbsent]) hr (by decide) (if_neg (by simp [keeps_not hk]))
  | kentryKept d h hk => exact exec_ctlw h (by simp [ctlAbsent]) hr (by decide) (if_pos (keeps hk))
  | ipend d h hs | tcmp d h hs => exact exec_ctlw h (ctlAbsent_of_sys hs) hr (by decide) rfl

/-- `emw` keeps em within lm (02 R44). -/
theorem emw_masks {s : State} {a : Nat} (h : s.ag.isSys = false) (hr : Ready s [.s a]) :
    ∃ t, exec (.emw a) s = .next t ∧ OnlyFocus s t ∧ t.issues = s.issues + 1 ∧ SameBut s.tick.ag t.ag
      ∧ t.ag.pcc = pccPlus s.ag 4 ∧ t.ag.em = s.rs a &&& s.tick.ag.lm
      ∧ ∀ l, l ≠ .em → t.ag.raw l = s.tick.ag.raw l := by
  have hexec : exec (.emw a) s = s.done [(.em, s.rs a)] := by
    show execEmw a s = _
    rw [execEmw, h, if_neg (by decide), gate_ready hr]
  have hplaces : ∀ w ∈ [(Loc.em, s.rs a)], scalarLoc w.1 = true := by simp [scalarLoc]
  refine ⟨_, hexec, ⟨rfl, fun _ => rfl⟩, rfl, ?_, ?_, ?_, ?_⟩ <;> rw [advance_eq]
  · exact sameBut_writes { s.tick.ag with pcc := pccPlus s.ag 4 } _ hplaces
  · exact writes_pcc _ _
  · rfl
  · intro l hl
    have hother := raw_writes_other { s.tick.ag with pcc := pccPlus s.ag 4 } _ l hplaces (by simpa [Loc.touched] using hl)
    exact hother.trans (by cases l <;> rfl)

/-- Settles O6: each write of the agent's own state leaves that agent; `emw` changes em alone. -/
theorem stateChange : Obligations.StateChange := by
  unfold Obligations.StateChange
  exact ⟨fun s i c h _ hr => exec_changes h hr, fun s a h hr => emw_masks h hr⟩

/-! ### Waits -/

theorem inCode_of {a : Agent} {off : Int} (h : inPcc a off) : a.inCode (a.branchTarget off) = true := by
  simp only [Agent.inCode, Bool.and_eq_true, decide_eq_true_eq]
  exact h

/-- A yield to a target in pcc once its lane queue has drained (R183). -/
theorem exec_yld_drained {s : State} {tk r : Nat} {off : Int} (hr : Ready s [.s r]) (hp : inPcc s.ag off)
    (hd : s.ag.blocks = [] ∨ s.ag.hnd = true) :
    exec (.yld tk r off) s
      = .next (s.yieldNow (Claims.tokenOf s.ag tk) ((s.rs r).toNat % 2 ^ 16) (addrOf (target s.ag off))) := by
  show execYld tk r off s = _
  rw [execYld]
  dsimp only
  rw [gate_ready hr, inCode_of hp, drained_of hd, tokenId_eq]
  rfl

theorem exec_yld_held {s : State} {tk r : Nat} {off : Int} (hr : Ready s [.s r]) (hp : inPcc s.ag off)
    (hd : s.ag.blocks ≠ [] ∧ s.ag.hnd = false) :
    exec (.yld tk r off) s = .next { s with ag := { s.ag with
      wait := .drain (Claims.tokenOf s.ag tk) ((s.rs r).toNat % 2 ^ 16) (addrOf (target s.ag off)) } } := by
  have hdrained : s.ag.drained = false := by simp [Agent.drained, hd]
  show execYld tk r off s = _
  rw [execYld]
  dsimp only
  rw [gate_ready hr, inCode_of hp, hdrained, tokenId_eq]
  rfl

theorem exec_waits {s : State} {i : Instr} {c : Change} (h : Waits s i c) (hr : Ready s c.reads) :
    exec i s = .next { s with ag := c.ag } := by
  cases h with
  | wtok tk thr h =>
    show s.waitToken (s.ag.tokenId tk) thr = _
    rw [tokenId_eq]
    exact waitToken_not h
  | wtokReg tk b h =>
    show s.gate [.s b] (s.waitToken (s.ag.tokenId tk) _) = _
    rw [gate_ready hr, tokenId_eq]
    exact waitToken_not (by rwa [thr16] at h)
  | barWait o p h ha hp =>
    show execBarWait o s = _
    rw [execBarWait, h, if_neg (by decide), State.waitPhase, ha]
    dsimp only
    rw [if_neg (by omega)]
  | yld tk r off h hd hp hn =>
    rw [thr16] at hn
    rw [exec_yld_drained hr hp hd, State.yieldNow, if_neg (Bool.eq_false_iff.mp (lt_of_met hn)), h]
    rfl
  | yldHeld tk r off hd hp => exact exec_yld_held hr hp hd
  | qpop r h hq =>
    show execQpopQmat r s = _
    rw [execQpopQmat, h, if_neg (by decide)]
    split
    · next e rest he => rw [if_neg (by simp [hq e (by simp [he])])]
    · rfl
  | wfi h hs hp =>
    show execWfi s = _
    rw [execWfi, kernel_of h, hs, if_neg (by decide), if_neg (by simp [hp])]
  | gend hm hs hp =>
    show execGend s = _
    rw [execGend, if_pos hs, if_neg hm, if_neg (by simp [hp])]

/-- A yield whose token is met goes on at its target. -/
theorem exec_yld_met {s : State} {tk r : Nat} {off : Int} (hr : Ready s [.s r]) (hd : s.ag.blocks = [] ∨ s.ag.hnd = true)
    (hp : inPcc s.ag off) (hm : (s.ag.tok (Claims.tokenOf s.ag tk) - (s.rs r).setWidth 16).toInt ≥ 0) :
    exec (.yld tk r off) s = .next (afterAt s (s.ag.pcc.withAddr (target s.ag off).toNat)
      (tokenSeen s.ag (Claims.tokenOf s.ag tk))) := by
  have htarget : 0 ≤ target s.ag off := by
    have := hp.1
    omega
  rw [thr16] at hm
  rw [exec_yld_drained hr hp hd, State.yieldNow, if_pos ((met_iff _ _).mpr hm), addrOf, withAddr_mod htarget, afterAt_eq]
  rfl

/-- Settles O7: each wait begins where it stands; a yield whose token is met is none. -/
theorem waiting : Obligations.Waiting := by
  unfold Obligations.Waiting
  exact ⟨fun s i c h _ hr => exec_waits h hr, fun s tk r off hr hd hp hm => exec_yld_met hr hd hp hm⟩

end Sys2Proof.Proofs.OwnState
end

section
/-!
SUPPORT. The scalar instructions whose effect lies beyond the agent: messages, launches, graphs (04 R100 to R104, 08 R185, R186),
barriers, engine queues, translation caches, device time, the sweep, keys (08 R181, R184, R188; 19 R363), fences (08 R178):
what each runs as; and the statements about them.
-/

namespace Sys2Proof.Proofs.BeyondAgent

open Machine Claims Laws

theorem not_released {s : State} (hr : ReleasedDev s) : ¬ (!s.released sendPaths .dev) = true := by
  rw [show s.released sendPaths .dev = true from hr]
  decide

/-! ### Results that are known at issue -/

/-- An ending whose results reach their registers when the token posts (03 R75). -/
theorem posting_enters (p : Posting) :
    ∃ t, (.next ((p.v.endWith false p.tk p.writes).advance 4) : Out) = .next t ∧ Enters p.v t p.op :=
  ⟨_, rfl, endWith_enters p.v p.tk p.writes p.reads⟩

/-- A launch answers its status. -/
theorem submit_status (s : State) (ctx : Nat) (x : Cap) (d : Descriptor) (b : Submitter) :
    (s.submit ctx x d b).2 = s.launchStatus ctx d := by
  by_cases h : s.launchStatus ctx d = 0
  · rw [submit_ok h, h]
  · unfold State.submit
    dsimp only
    rw [if_pos h]

theorem exec_posts {s : State} {i : Instr} {p : Posting} (h : PostsResult s i p) (hr : Ready s p.reads) :
    exec i s = .next ((p.v.endWith false p.tk p.writes).advance 4) := by
  cases h with
  | msend a pa tk s1 hc hrel =>
    show execMsend a tk s = _
    rw [execMsend]
    dsimp only
    rw [gate_ready hr, hc]
    dsimp only
    rw [if_neg (not_released hrel)]
    rfl
  | mreplyNone tk h =>
    show execMreply tk s = _
    rw [execMreply, gate_ready hr, h]
  | mreply tk c h hrel =>
    show execMreply tk s = _
    rw [execMreply, gate_ready hr, h]
    dsimp only
    rw [if_neg (not_released hrel)]
    rfl
  | glaunch d a b ctx k tk s1 s2 ps hg hx h1 h2 hrel =>
    show execGlaunch d a b tk s = _
    rw [execGlaunch]
    dsimp only
    rw [gate_ready hr, hg, hx]
    dsimp only
    rw [h1]
    dsimp only
    rw [h2]
    dsimp only
    rw [if_neg (not_released hrel), submit_status]
  | gsub d a pa k tk s1 hg h1 hrel h0 =>
    show execGsub d a tk s = _
    rw [execGsub]
    dsimp only
    rw [gate_ready hr, hg]
    dsimp only
    rw [h1]
    dsimp only
    rw [if_neg (not_released hrel), if_pos h0, h0]
    rfl
  | gsubRefused d a pa k tk s1 hg h1 hrel h0 =>
    show execGsub d a tk s = _
    rw [execGsub]
    dsimp only
    rw [gate_ready hr, hg]
    dsimp only
    rw [h1]
    dsimp only
    rw [if_neg (not_released hrel), if_neg h0]

/-- Settles O8: each issues with its own effect done and its status on the way to its register. -/
theorem postingEnters : Obligations.PostingEnters := by
  unfold Obligations.PostingEnters
  intro s i p h _ hr
  rw [exec_posts h hr]
  exact posting_enters p

/-! ### Barriers, queues, translation caches -/

/-- An arrival that may be made now: the waiting half follows it (08 R181). -/
theorem barrier_arrives {s : State} {o : Nat} {flush wait : Bool} (h : s.ag.isSys = false)
    (hr : Released s [.scalar, .lane] .team) (ha : MayArrive s o flush) :
    s.barrier o flush wait = .next (if wait then (arrived s o flush).waitPhase o else (arrived s o flush).advance 4) := by
  have hrel : s.released barPaths .team = true := hr
  obtain ⟨hopen, hstarted⟩ := ha
  unfold State.barrier
  rw [h, if_neg (by decide), hrel, if_neg (by decide)]
  show Host.Outcome.next ((atArrival s flush).tryArrive o (mustHaveStarted s flush) wait) = _
  unfold State.tryArrive
  rw [if_neg]
  · rfl
  · simp only [hopen, Bool.false_or, decide_eq_true_eq, not_lt]
    cases ht : (atArrival s flush).team? (atArrival s flush).ag.team with
    | none => simp
    | some t => simpa using hstarted t ht

/-- The waiting half ends at once where the phase is complete. -/
theorem waitPhase_over {s : State} {o : Nat} (h : ∀ p, s.ag.lastPhase o = some p → p < s.phaseOf s.ag.team o) :
    s.waitPhase o = s.advance 4 := by
  unfold State.waitPhase
  split
  · rfl
  · next p hp => rw [if_pos (h p hp)]

/-- A copy command that finds room enters its queue. -/
theorem push_copy {s : State} {c : Command} (h : s.ag.queueFull false = false) :
    s.push false c = after s (s.ag.waitOver.pushCmd false c) := by
  rw [State.push, h, ← after_eq]
  rfl

/-- So does a collective command, numbered in the order of its rank (11 R275). -/
theorem push_coll {s : State} {c : Command} (h : s.ag.queueFull true = false) :
    s.push true c = after (s.nextInst c.obj c.rank).1
      ((s.nextInst c.obj c.rank).1.ag.waitOver.pushCmd true { c with inst := (s.nextInst c.obj c.rank).2 }) := by
  rw [State.push, h, ← after_eq]
  rfl

theorem exec_moves {s : State} {i : Instr} {m : Move} (h : Moves s i m) (hr : Ready s m.reads) :
    exec i s = .next (after m.v m.ag) := by
  cases h with
  | fence c h hn hc =>
    show execFence .acq c s = _
    have hst : s.fenceStalls .acq c = false := by simp [State.fenceStalls, h, hn, hc]
    rw [execFence, hst, ← after_eq]
    rfl
  | barArrive o f h hrel ha =>
    show s.barrier o f false = _
    rw [barrier_arrives h hrel ha, advance_self]
    rfl
  | bar o f h hrel ha hp =>
    show s.barrier o f true = _
    rw [barrier_arrives h hrel ha, ← advance_self, if_pos rfl, waitPhase_over hp]
  | qcopy r h hq hc =>
    show execQpushQcopy r s = _
    rw [execQpushQcopy, h, if_neg (by decide)]
    dsimp only
    rw [gate_ready (show Ready s (pushReads r) from hr), show copyCheck s.teamShape (s.commandAt r).1 (s.commandAt r).2 = none from hc]
    dsimp only
    rw [push_copy (by simpa [Agent.queueFull] using hq)]
    rfl
  | qcoll r pa n k s1 h hq hc =>
    show execQpushQcoll r s = _
    rw [execQpushQcoll, h, if_neg (by decide)]
    dsimp only
    rw [gate_ready (show Ready s (pushReads r) from hr), show s.collCheck (s.commandAt r).1 (s.commandAt r).2 = _ from hc]
    dsimp only
    rw [push_coll (by simpa [Agent.queueFull] using hq)]
    dsimp only
    generalize s1.nextInst pa k = x
    rfl
  | tlbiAll a b h hm hu =>
    show s.monitor _ = _
    rw [monitor_of h hm, hu, ← after_eq]
    simp
  | tlbiSpace a b o ow pte size h hc hx hu =>
    show s.kernel (s.gate (capLocs a ++ []) _) = _
    rw [kernel_of h, gate_ready (by simpa using hr), hc]
    dsimp only
    rw [hx]
    dsimp only
    rw [if_neg (by decide), hu]
    simp only [decide_not, Bool.decide_eq_true]
    exact congrArg Host.Outcome.next (advance_self _)
  | tlbiPage a b o ow pte size h hc hx hu =>
    show s.kernel (s.gate (capLocs a ++ [.s b, .s (b + 1)]) _) = _
    rw [kernel_of h, gate_ready hr, hc]
    dsimp only
    rw [hx]
    dsimp only
    rw [if_pos rfl, hu, ← advance_self]
    rfl

/-- Settles O9: each instruction that may be made now completes with its own effect done. -/
theorem moveResult : Obligations.MoveResult := by
  unfold Obligations.MoveResult
  exact fun s i m h _ hr => exec_moves h hr

/-! ### Results that are there for the next instruction -/

theorem exec_resultAt {s : State} {i : Instr} {p : PlainAt} (h : ResultAt s i p) (hr : Ready s p.reads) :
    exec i s = p.v.done p.writes := by
  cases h with
  | rdtime d => rfl
  | swp d h hrel =>
    show s.kernel _ = _
    rw [kernel_of h, if_neg (not_released hrel)]
  | keyk d id h hm hi h0 hk hd =>
    subst hi
    show s.monitor (s.gate [.s d] _) = _
    rw [monitor_of h hm, gate_ready hr]
    dsimp only
    rw [if_neg, if_neg]
    · simp [hd]
    · simp only [Bool.or_eq_true, decide_eq_true_eq, h0, false_or, Bool.not_eq_true, Option.isNone_eq_false_iff]
      exact hk
  | qpop r e rest h hq hd =>
    show execQpopQmat r s = _
    rw [execQpopQmat, h, if_neg (by decide), hq]
    dsimp only
    rw [if_pos (by simpa [Option.isSome_iff_ne_none] using hd)]
    rfl

theorem good_resultAt {s : State} {i : Instr} {p : PlainAt} (h : ResultAt s i p) : Good p.writes := by
  cases h with
  | rdtime d => exact good_pair _ _ _ _ (by omega)
  | keyk d id h hm hi h0 hk hd => exact good_nil
  | swp d h hrel => exact good_s _ _
  | qpop r e rest h hq hd => exact good_s _ _

/-- Settles O10: each has its result for the next instruction. -/
theorem outerResult : Obligations.OuterResult := by
  unfold Obligations.OuterResult
  intro s i p h _ hr
  rw [exec_resultAt h hr]
  exact done_retired p.v _ (good_resultAt h)

/-! ### Fences with release -/

/-- A fence with release that may issue stays under way (08 R178). -/
theorem exec_fence_goes {s : State} {o : Ord} {c : Scope} (ho : o ≠ .acq) (h : s.fenceStalls o c = false) :
    exec (.fence o c) s
      = .next ((({ s with ag := s.ag.seenFence false } : State).enqueue false .scalar o c none .fence []).advance 4) := by
  show execFence o c s = _
  rw [execFence, h, if_neg (by decide)]
  dsimp only
  rw [if_neg ho, if_neg ho]

theorem exec_fence_stalls {s : State} {o : Ord} {c : Scope} (h : s.fenceStalls o c = true) :
    exec (.fence o c) s = .next s := by
  show execFence o c s = _
  rw [execFence, if_pos h]

/-- Settles O11: a fence with release issues once its stream's loads are in, and enters the operations under way. -/
theorem fenceRelease : Obligations.FenceRelease := by
  unfold Obligations.FenceRelease
  intro s o c ho
  refine ⟨fun hl hn => ?_, fun hl => ?_, fun har hn => ?_⟩
  · have hst : s.fenceStalls o c = false := by
      by_cases hrel : o = .rel
      · simp [State.fenceStalls, hl, hrel]
      · simp [State.fenceStalls, hl, hn hrel, ho]
    rw [exec_fence_goes ho hst]
    exact ⟨_, rfl, enters { s with ag := s.ag.seenFence false } o c none .fence [] .scalar false⟩
  · exact exec_fence_stalls (by simp [State.fenceStalls, hl])
  · exact exec_fence_stalls (by simp [State.fenceStalls, hn, har])

end Sys2Proof.Proofs.BeyondAgent
end

section
/-!
SUPPORT. Endpoints (04 R100 to R104; 08 R185): what a deposit does, how a call waits and is answered, how a receive begins; and
the statements about them.
-/

namespace Sys2Proof.Proofs.Endpoints

open Machine Claims Laws

/-! ### Deposits -/

/-- The state in which a deposit is made: one more message has been sent. -/
def sending (s : State) : State := { s with ag := { s.ag with sinks := s.ag.sinks + 1 } }

theorem agent_sending {s : State} {id : Nat} {b : Agent} (h : s.agent? id = some b) (hne : s.ag.id ≠ id) :
    (sending s).agent? id = some b := by
  unfold State.agent? at h ⊢
  rw [if_neg hne] at h
  rw [if_neg (show (sending s).ag.id ≠ id from hne)]
  exact h

theorem deposit_dead {s : State} {pa : Nat} (h : s.epDead pa = true) (m : Message) : s.deposit pa m = (s, 4) := if_pos h

theorem deposit_received {s : State} {pa id : Nat} (h : s.epDead pa = false)
    (hw : s.waitingReceiver (s.ep pa).receivers = some id) (m : Message) :
    s.deposit pa m = (((sending s).setEp { s.ep pa with receivers := (s.ep pa).receivers.filter fun r => r ≠ id }).updAgent id
      (fun a => a.resumeRecv (m.writes a.domain) m.caller), 0) := by
  have hfilter : (s.ep pa).receivers.filter (fun r => r != id) = (s.ep pa).receivers.filter fun r => r ≠ id :=
    List.filter_congr fun r _ => by rw [Bool.eq_iff_iff]; simp
  rw [← hfilter]
  unfold State.deposit
  dsimp only
  rw [h, hw]
  rfl

theorem deposit_buffered {s : State} {pa : Nat} (h : s.epDead pa = false)
    (hw : s.waitingReceiver (s.ep pa).receivers = none) (hb : (s.ep pa).buffer.length < s.epCapacity pa) (m : Message) :
    s.deposit pa m = ((sending s).setEp { s.ep pa with buffer := (s.ep pa).buffer ++ [m] }, 1) := by
  unfold State.deposit
  dsimp only
  rw [h, hw]
  exact if_pos hb

theorem deposit_full {s : State} {pa : Nat} (h : s.epDead pa = false)
    (hw : s.waitingReceiver (s.ep pa).receivers = none) (hb : s.epCapacity pa ≤ (s.ep pa).buffer.length) (m : Message) :
    s.deposit pa m = (s, 2) := by
  unfold State.deposit
  dsimp only
  rw [h, hw]
  exact if_neg (Nat.not_lt.mpr hb)

/-- Settles O12: the four outcomes of a deposit. -/
theorem depositStatus : Obligations.DepositStatus := by
  unfold Obligations.DepositStatus
  refine fun s pa m => ⟨fun h => deposit_dead h m, fun h id hw => ?received, fun h hw hb => ?buffered,
    fun h hw hb => deposit_full h hw hb m⟩
  case received =>
    rw [deposit_received h hw]
    refine ⟨rfl, ?_, fun b hb hne => ?_⟩
    · rw [ep_upd]
      exact ep_setEp' _ { s.ep pa with receivers := _ } pa (ep_pa s pa)
    · have hid : s.ag.id ≠ id := by
        rw [← agent_id hb]
        exact hne.symm
      refine agent_upd _ id _ (fun a => resume_id a _ _) ?_ b ?_
      · rw [ag_setEp]
        exact hid
      · rw [agent_setEp]
        exact agent_sending hb hid
  case buffered =>
    rw [deposit_buffered h hw hb]
    exact ⟨rfl, ep_setEp' _ { s.ep pa with buffer := _ } pa (ep_pa s pa)⟩

/-! ### Calls -/

theorem exec_mcall {s s1 : State} {a pa : Nat} {tk : Option Nat} (hr : Ready s (capLocs a ++ messageLocs))
    (hc : s.checkEp (s.rc a) permST = .ok s1 pa) (hd : s1.ag.blocks = [] ∨ s1.ag.hnd = true) (hrel : ReleasedDev s1) :
    exec (.mcall a tk) s =
      (let r := s1.publishMine.deposit pa (messageOf s1 (s.rc a) true)
      let v : State := { r.1 with ag := { r.1.ag with nextOp := s1.ag.nextOp + 1 } }
      let b := (v.ag.writes [(.s 12, r.2)]).leaveIssue
      if r.2 = 0 || r.2 = 1 then .next { v with ag := { b with wait := .call pa s1.ag.nextOp (b.tokenOpt tk) } }
      else .next ((v.endWith false tk [(.s 12, r.2)]).advance 4)) := by
  show execMcall a tk s = _
  have hrel' : s1.released sendPaths .dev = true := hrel
  rw [execMcall]
  dsimp only
  rw [gate_ready hr, hc]
  dsimp only
  rw [drained_of hd, hrel', if_neg (by decide)]
  rfl

theorem answer_call {x : Agent} {pa call : Nat} {tk : Option Nat} (hw : x.wait = .call pa call tk)
    (ws : List (Loc × Word)) :
    x.answer call ws = { ((waitEnded x).writes ws).post tk with pcc := pccPlus x 4 } := by
  have hpcc : (((waitEnded x).writes ws).post tk).pcc = x.pcc := by
    rw [post_same]
    exact writes_pcc _ _
  have hanswer : x.answer call ws = x.endWith tk ws := by
    unfold Agent.answer
    rw [hw]
    simp only [Wait.callTk, if_true]
  rw [hanswer]
  show (((waitEnded x).writes ws).post tk).setPc (x.pc + 4) = _
  rw [Agent.setPc, hpcc]
  rfl

/-- Settles O13: a call that is taken waits until its reply, one that is refused goes on with its status. -/
theorem callWaits : Obligations.CallWaits := by
  unfold Obligations.CallWaits
  refine ⟨fun s s1 a pa tk hr hc hd hrel => ?_, fun x pa call tk ws hw => answer_call hw ws⟩
  rw [exec_mcall hr hc hd hrel]
  generalize s1.publishMine.deposit pa (messageOf s1 (s.rc a) true) = r
  dsimp only
  refine ⟨fun htaken => ?_, fun h0 h1 => ?_⟩
  · rw [if_pos (by simpa using htaken), tokenOpt_congr (b := r.1.ag)]
    · rfl
    · rw [leave_xstat, writes_xstat]
  · rw [if_neg (by simpa using And.intro h0 h1)]
    exact ⟨_, rfl, endWith_enters _ tk [(.s 12, r.2)] []⟩

/-! ### Receives -/

theorem received_now (s : State) (tk : Option Nat) (ws : List (Loc × Word)) (c : Option Caller) :
    s.received false tk ws c = after s (brought s.ag tk ws c) := by
  unfold State.received
  rw [if_neg (by decide), after_eq]
  rfl

theorem exec_mrecv {s s1 : State} {a pa : Nat} {tk : Option Nat} (hr : Ready s (capLocs a))
    (hc : s.checkEp (s.rc a) permLD = .ok s1 pa) (hd : s1.ag.blocks = [] ∨ s1.ag.hnd = true)
    (hh : s1.ag.readHeld pa = false) :
    exec (.mrecv a tk) s = .next (({ s1.dropReply s1.ag with
      ag := { (s1.dropReply s1.ag).ag.leaveIssue with reply := none } } : State).receive false pa
        ((s1.dropReply s1.ag).ag.tokenOpt tk)) := by
  show execMrecv a tk s = _
  rw [execMrecv]
  dsimp only
  rw [gate_ready hr, hc]
  dsimp only
  rw [drained_of hd, hh, if_neg (by decide)]

section
variable {v : State} {pa : Nat} {tk : Option Nat}

theorem receive_dead (h : v.epDead pa = true) : v.receive false pa tk = after v (brought v.ag tk [(.s 12, 4)] none) := by
  unfold State.receive
  dsimp only
  rw [if_pos h, received_now]

theorem receive_message {m : Message} {rest : List Message} (h : v.epDead pa = false) (hb : (v.ep pa).buffer = m :: rest) :
    let u := v.setEp { v.ep pa with
      buffer := rest
      receivers := (v.ep pa).receivers.filter fun r => r != v.ag.id }
    v.receive false pa tk = after u (brought u.ag tk (m.writes v.ag.domain) m.caller) := by
  unfold State.receive
  dsimp only
  rw [h, if_neg (by decide), hb]
  exact received_now _ _ _ _

theorem receive_waits (h : v.epDead pa = false) (hb : (v.ep pa).buffer = []) :
    v.receive false pa tk = ({ v with ag := { v.ag with wait := .recv pa tk } } : State).setEp
      { v.ep pa with
        receivers := if v.ag.id ∈ (v.ep pa).receivers then (v.ep pa).receivers else (v.ep pa).receivers ++ [v.ag.id] } := by
  unfold State.receive
  dsimp only
  rw [h, if_neg (by decide), hb]
  simp only [List.contains_iff_mem]

end

/-- Settles O14: a receive answers 4, takes the oldest message, or waits; what a message writes is there. -/
theorem receiveBegins : Obligations.ReceiveBegins := by
  unfold Obligations.ReceiveBegins
  constructor
  · intro s s1 a pa tk hr hc hd hh
    rw [exec_mrecv hr hc hd hh]
    refine ⟨fun hdead => ?_, fun hlive m rest hb => ?_, fun hlive hb => ?_⟩
    · rw [receive_dead hdead]
    · rw [receive_message hlive hb]
    · rw [receive_waits hlive hb]
  · intro x tk m d
    exact brought_good x tk (m.writes d) m.caller (message_good m d) (message_pairwise m d)

end Sys2Proof.Proofs.Endpoints
end

section
/-!
SUPPORT. The return from a handler (19 R361, R366, R478, R479; 26 R465), the end of a group (02 R52), `brk`, the write of kill
(19 R362, R368), and the classes of privilege (19 R350): what each does; and the statements about them.
-/

namespace Sys2Proof.Proofs.Handlers

open Machine Claims Laws Proofs.HardWired

/-! ### The agent after `eret` -/

/-- The agent with its mode back and c39 and kscr changed places (19 R361). -/
def restored (a : Agent) : Agent := ({ a with xstat := xstatField (xstatField a.xstat 2 2 a.pmode) 7 1 0 }).swapScratch

/-- As `restored`, at xpc, with single step armed or lane focus released (19 R366; 26 R465). -/
def rearmed (a : Agent) : Agent :=
  let c : Agent := { restored a with
    pcc := a.xpc.withSeal 0
    stepping := if !a.stepBit then .off else if a.laneTrap && a.xlpc != 0 then .lane else .scalar }
  if a.stepBit then c else c.releaseFocus

theorem returned_eq_posts (a : Agent) :
    a.returned = { a.postAtEret.foldl (fun x k => x.post (some k)) (rearmed a) with postAtEret := [] } := rfl

/-- Posts change tokens and the count of those told, nothing else. -/
theorem posts_same (ks : List Nat) (a : Agent) : ∃ t k n,
    ks.foldl (fun x k => x.post (some k)) a = { a with
      toks := t
      ktk := k
      sinks := n } := by
  induction ks generalizing a with
  | nil => exact ⟨a.toks, a.ktk, a.sinks, rfl⟩
  | cons k ks ih =>
    obtain ⟨t, j, n, h⟩ := ih (a.post (some k))
    refine ⟨t, j, n, ?_⟩
    rw [List.foldl_cons, h, post_same]

theorem rearmed_same (a : Agent) : ∃ rs fs f, rearmed a = { restored a with
    pcc := a.xpc.withSeal 0
    stepping := if !a.stepBit then .off else if a.laneTrap && a.xlpc != 0 then .lane else .scalar
    replays := rs
    focusStack := fs
    focus := f } ∧ (a.stepBit = false → fs = []) := by
  unfold rearmed
  dsimp only
  split
  · next h => exact ⟨(restored a).replays, (restored a).focusStack, (restored a).focus, rfl, by simp [h]⟩
  · exact ⟨_, _, _, rfl, fun _ => rfl⟩

theorem returned_same (a : Agent) : ∃ rs fs f t k n, a.returned = { restored a with
    pcc := a.xpc.withSeal 0
    stepping := if !a.stepBit then .off else if a.laneTrap && a.xlpc != 0 then .lane else .scalar
    replays := rs
    focusStack := fs
    focus := f
    toks := t
    ktk := k
    sinks := n
    postAtEret := [] } ∧ (a.stepBit = false → fs = []) := by
  obtain ⟨t, k, n, hposts⟩ := posts_same a.postAtEret (rearmed a)
  obtain ⟨rs, fs, f, hrearmed, hfocus⟩ := rearmed_same a
  exact ⟨rs, fs, f, t, k, n, by rw [returned_eq_posts, hposts, hrearmed], hfocus⟩

/-- The agent whose c39 `restored` then writes. -/
def unswapped (a : Agent) : Agent :=
  { a with
    xstat := xstatField (xstatField a.xstat 2 2 a.pmode) 7 1 0
    kscr := a.capNow 39 }

theorem restored_eq_writes (a : Agent) : restored a = (unswapped a).writes (capWrites 39 a.kscr) := rfl

theorem restored_files (a : Agent) : restored a = withFiles (unswapped a) (restored a) := writes_files _ _

theorem restored_xstat (a : Agent) : (restored a).xstat = xstatField (xstatField a.xstat 2 2 a.pmode) 7 1 0 := by
  rw [restored_files]
  rfl

theorem restored_kscr (a : Agent) : (restored a).kscr = a.capNow 39 := by
  rw [restored_files]
  rfl

theorem restored_suspended (a : Agent) : (restored a).suspended = a.suspended := by
  rw [restored_files]
  simp only [withFiles, unswapped]

theorem restored_tok (a : Agent) (n : Nat) : (restored a).tok n = a.tok n := by
  rw [restored_files]
  simp only [withFiles, unswapped, Agent.tok]

theorem returned_raw (a : Agent) (l : Loc) : a.returned.raw l = (restored a).raw l := by
  obtain ⟨rs, fs, f, t, k, n, h, -⟩ := returned_same a
  rw [h]
  cases l <;> rfl

theorem restored_raw_other (a : Agent) {l : Loc} (h : l ∉ capLocs 39) : (restored a).raw l = a.raw l := by
  have hl : l ∉ (capWrites 39 a.kscr).flatMap fun w => w.1.touched := by
    simp only [capLocs, capWrites, Loc.touched, List.flatMap_cons, List.flatMap_nil, List.mem_append, List.mem_cons,
      List.not_mem_nil, or_false] at h ⊢
    tauto
  rw [restored_eq_writes, raw_writes_other _ _ _ (good_cap 39 _ (by decide)).places hl]
  cases l <;> rfl

theorem restored_quad (a : Agent) : quadOf (restored a) 39 = a.kscr := by
  rw [restored_eq_writes]
  exact quadOf_writes_cap _ _ (by decide) (by decide)

theorem returned_pcc (a : Agent) : a.returned.pcc = a.xpc.withSeal 0 := by
  obtain ⟨rs, fs, f, t, k, n, h, -⟩ := returned_same a
  rw [h]

theorem returned_xstat (a : Agent) : a.returned.xstat = xstatField (xstatField a.xstat 2 2 a.pmode) 7 1 0 := by
  obtain ⟨rs, fs, f, t, k, n, h, -⟩ := returned_same a
  rw [h]
  exact restored_xstat a

theorem returned_kscr (a : Agent) : a.returned.kscr = a.capNow 39 := by
  obtain ⟨rs, fs, f, t, k, n, h, -⟩ := returned_same a
  rw [h]
  exact restored_kscr a

theorem returned_suspended (a : Agent) : a.returned.suspended = a.suspended := by
  obtain ⟨rs, fs, f, t, k, n, h, -⟩ := returned_same a
  rw [h]
  exact restored_suspended a

theorem returned_quad (a : Agent) : quadOf a.returned 39 = a.kscr := by
  rw [← restored_quad a]
  unfold quadOf
  simp only [returned_raw]

theorem returned_tok (a : Agent) (n : Nat) :
    a.returned.tok n = a.tok n + BitVec.ofNat 16 (a.postAtEret.countP fun k => k = n) := by
  have hsame : (rearmed a).tok n = a.tok n := by
    obtain ⟨rs, fs, f, h, -⟩ := rearmed_same a
    rw [h]
    exact restored_tok a n
  rw [returned_eq_posts, ← hsame]
  exact tok_posts (rearmed a) a.postAtEret n

theorem returned_stepping (a : Agent) : a.returned.stepping
    = if !a.stepBit then .off else if a.laneTrap && a.xlpc != 0 then .lane else .scalar := by
  obtain ⟨rs, fs, f, t, k, n, h, -⟩ := returned_same a
  rw [h]

theorem returned_focusStack {a : Agent} (hs : a.stepBit = false) : a.returned.focusStack = [] := by
  obtain ⟨rs, fs, f, t, k, n, h, hfocus⟩ := returned_same a
  rw [h, hfocus hs]

/-! ### `eret` -/

/-- What `eret` waits for on a system core: what is under way to c39. -/
theorem scratch_awaited {s : State} (h : s.ag.isSys = true → ∀ l ∈ capLocs 39, s.ag.awaited l = false) :
    ¬ (s.ag.isSys && (capLocs 39).any s.ag.awaited) = true := by
  simp only [Bool.and_eq_true, List.any_eq_true, not_and, not_exists]
  intro hs l hl
  simp [h hs l hl]

theorem exec_eret_returns {s : State} (hk : MayKernel s) (hh : s.ag.hnd = true)
    (ha : s.ag.isSys = true → ∀ l ∈ capLocs 39, s.ag.awaited l = false) (hj : s.ag.xpc.checkJump = none) :
    exec .eret s = .next ((afterAt s (s.ag.xpc.withSeal 0) s.ag.returned).resumeWait s.ag.xpc) := by
  have hat : ({ s with ag := s.ag.returned } : State).tick = afterAt s (s.ag.xpc.withSeal 0) s.ag.returned := by
    rw [← afterAt_eq, ← returned_pcc]
    rfl
  show s.kernel _ = _
  rw [kernel_of hk, hh, if_neg (by decide), if_neg (scratch_awaited ha), hj, hat]

theorem exec_eret_kills {s : State} {cause : Nat} (hk : MayKernel s) (hh : s.ag.hnd = true)
    (ha : s.ag.isSys = true → ∀ l ∈ capLocs 39, s.ag.awaited l = false) (hj : s.ag.xpc.checkJump = some cause) :
    exec .eret s = .next (s.bump.killFocus cause 4 0 0) := by
  show s.kernel _ = _
  rw [kernel_of hk, hh, if_neg (by decide), if_neg (scratch_awaited ha), hj]

theorem exec_eret_outside {s : State} (hk : MayKernel s) (hh : s.ag.hnd = false) :
    exec .eret s = .next (s.trap ⟨0x01, 0, 0, 0, false⟩) := by
  show s.kernel _ = _
  rw [kernel_of hk, hh]
  rfl

theorem exec_eret_waits {s : State} (hk : MayKernel s) (hh : s.ag.hnd = true) (hs : s.ag.isSys = true)
    (ha : ∃ l ∈ capLocs 39, s.ag.awaited l = true) : exec .eret s = .next s := by
  have hany : (capLocs 39).any s.ag.awaited = true := List.any_eq_true.mpr ha
  show s.kernel _ = _
  rw [kernel_of hk, hh, hs, hany]
  rfl

/-- No wait is suspended: nothing goes on. -/
theorem resumeWait_none {s : State} (h : s.ag.suspended = none) (back : Cap) : s.resumeWait back = s := by
  unfold State.resumeWait
  rw [h]

theorem afterAt_suspended (v : State) (c : Cap) (a : Agent) : (afterAt v c a).ag.suspended = a.suspended := by
  show (({ a with pcc := c } : Agent).commit (v.clk + 1)).suspended = _
  rw [commit_files]
  rfl

/-- Settles O15: `eret` goes back where xpc passes, with the agent as `returned`; else it traps, ends the team or waits. -/
theorem exceptionReturn : Obligations.ExceptionReturn := by
  unfold Obligations.ExceptionReturn
  constructor
  · intro s hk hh ha hj
    have hexec := exec_eret_returns hk hh ha hj
    refine ⟨hexec, fun hs => ?_, returned_pcc _, returned_xstat _, returned_kscr _, returned_quad _, rfl,
      returned_tok _, fun hs => ⟨?_, returned_focusStack hs⟩, fun hs => ?_, fun l hl => ?_⟩
    · rw [hexec, resumeWait_none]
      rw [afterAt_suspended, returned_suspended, hs]
    · rw [returned_stepping, hs]
      rfl
    · rw [returned_stepping, hs]
      simp
    · rw [returned_raw, restored_raw_other _ hl]
  · exact fun s hk => ⟨exec_eret_outside hk, fun hh ha cause => exec_eret_kills hk hh ha, exec_eret_waits hk⟩

/-! ### The end of a group -/

/-- The agent once its group has ended: what may still be under way stays (02 R52; 11 R278). -/
def ended (s : State) : State :=
  { s.dropReply s.ag with ag := { (s.dropReply s.ag).ag.settle.stopped with
      outst := (s.dropReply s.ag).ag.outst
      qcopy := (s.dropReply s.ag).ag.qcopy
      qcoll := (s.dropReply s.ag).ag.qcoll
      snapshot := (s.dropReply s.ag).ag.snapshot } }

theorem keepSlot_ag (s : State) (a : Agent) : (s.keepSlot a).ag = s.ag := by
  unfold State.keepSlot
  split
  · rfl
  · split
    · rfl
    · split <;> rfl

theorem exec_gend_ends {s : State} (hs : s.ag.isSys = false) (hd : s.ag.blocks = [] ∨ s.ag.hnd = true)
    (hu : s.unfinished s.ag = false) :
    exec .gend s = .next (((ended s).bump.keepSlot s.ag).settleBarriers s.ag.team) := by
  show execGend s = _
  rw [execGend, hs, if_neg (by decide), drained_of hd, hu]
  rfl

theorem exec_gend_waits {s : State} (hs : s.ag.isSys = false)
    (h : (s.ag.blocks ≠ [] ∧ s.ag.hnd = false) ∨ s.unfinished s.ag = true) : exec .gend s = .next s := by
  have hstay : (!s.ag.drained || s.unfinished s.ag) = true := by
    rcases h with h | h
    · simp [Agent.drained, h]
    · simp [h]
  show execGend s = _
  rw [execGend, hs, if_neg (by decide), if_pos hstay]

/-- Settles O16: `gend` ends the group once it may, and until then changes nothing. -/
theorem groupEnds : Obligations.GroupEnds := by
  unfold Obligations.GroupEnds
  refine ⟨fun s hs hd hu => ⟨_, exec_gend_ends hs hd hu, rfl, ?_⟩, fun s hs h => exec_gend_waits hs h⟩
  have hag : (((ended s).bump.keepSlot s.ag).settleBarriers s.ag.team).ag = (ended s).ag := keepSlot_ag _ _
  rw [hag]
  exact ⟨rfl, rfl, rfl⟩

/-! ### `brk`, kill, privilege -/

/-- Settles O17: `brk` is its trap, a write of kill ends the team or restarts the core. -/
theorem breakAndKill : Obligations.BreakAndKill := by
  unfold Obligations.BreakAndKill
  refine ⟨fun s code => rfl, fun s d hk hr => ?_⟩
  show s.kernel _ = _
  rw [kernel_of hk, show ctlAbsent s.ag 0x019 = false by simp [ctlAbsent], if_neg (by decide),
    gate_ready (show Ready s (ctlLocs 0x019 d) from hr), if_pos rfl]

/-- The kernel class traps 0x03 where it may not issue (19 R350). -/
theorem kernel_traps {s : State} (h : ¬ MayKernel s) (k : Out) : s.kernel k = .next (s.trap ⟨0x03, 0, 0, 0, false⟩) := by
  unfold State.kernel
  rw [not_priv h]
  rfl

/-- So does the monitor class outside monitor mode. -/
theorem monitor_traps {s : State} (h : ¬ (MayKernel s ∧ s.ag.mode = 2)) (k : Out) :
    s.monitor k = .next (s.trap ⟨0x03, 0, 0, 0, false⟩) := by
  have hmon : (s.ag.privileged && decide (s.ag.mode = 2)) = false := by
    by_cases hk : MayKernel s
    · simp [show s.ag.mode ≠ 2 from fun hm => h ⟨hk, hm⟩]
    · simp [not_priv hk]
  unfold State.monitor
  rw [hmon]
  rfl

/-- Settles O18: each instruction of a class stands behind the check of its class. -/
theorem privilegeTraps : Obligations.PrivilegeTraps := by
  unfold Obligations.PrivilegeTraps
  refine fun s => ⟨fun hk i hi => ?_, fun hm i hi => ?_⟩
  · have hmon : ¬ (MayKernel s ∧ s.ag.mode = 2) := fun h => hk h.1
    rcases hi with rfl | ⟨d, n, rfl⟩ | ⟨d, n, rfl⟩ | ⟨a, b, k, rfl⟩ | ⟨d, rfl⟩ | ⟨d, rfl⟩ | ⟨d, a, b, rfl⟩ | rfl | rfl
    case inr.inr.inr.inl =>
      cases k with
      | all => exact monitor_traps hmon _
      | space | page => exact kernel_traps hk _
    case inr.inr.inr.inr.inr.inl | inr.inr.inr.inr.inr.inr.inl => exact monitor_traps hmon _
    all_goals exact kernel_traps hk _
  · have hmon : ¬ (MayKernel s ∧ s.ag.mode = 2) := fun h => hm h.2
    rcases hi with ⟨a, b, rfl⟩ | ⟨d, rfl⟩ | ⟨d, a, b, rfl⟩ <;> exact monitor_traps hmon _

end Sys2Proof.Proofs.Handlers
end

section
/-!
SUPPORT. The lane stream's computations (09 R196 to R215, R218, R223): each stands behind the issue of R60 and R77 and ends with
its values in flight; what each computes, in plain arithmetic; and the statements about them.
-/

namespace Sys2Proof.Proofs.LaneComputation

open Machine Claims Laws

/-- The model runs `i` as the form `f` says: behind the issue with its registers and reads; ready, it ends with its results. -/
structure RunsLane (s : State) (i : Instr) (f : LaneForm) : Prop where
  issues : ∃ k, exec i s = s.laneIssue f.hdr f.names f.reads k
  completes : LaneReady s f.hdr f.names f.reads → ∃ t, exec i s = .next t ∧ LaneEnds s t f.lat (f.all s) f.latch

section
variable {s : State} {i : Instr} {h : LaneHdr} {names : List Nat} {reads : List LaneRead} {lat : Nat}

/-! ### The forms -/

theorem runsLane_computes {pair : Bool} {d : Dst} {f g : Nat → DWord × Flags}
    (hi : exec i s = s.laneIssue h names reads fun act ll => s.laneCompute act ll d pair lat f) (hf : ∀ l, f l = g l) :
    RunsLane s i (computes s h names reads lat pair d g) :=
  ⟨⟨_, hi⟩, fun hr => by rw [hi]; exact computes_ends pair d hr hf⟩

/-- As `runsLane_computes`, for values that depend on which lanes are active. -/
theorem runsLane_computes_active {pair : Bool} {d : Dst} {f : BitVec 32 → Nat → DWord × Flags} {g : Nat → DWord × Flags}
    (hi : exec i s = s.laneIssue h names reads fun act ll => s.laneCompute act ll d pair lat (f act))
    (hf : ∀ l, f (s.laneActive h) l = g l) : RunsLane s i (computes s h names reads lat pair d g) := by
  refine ⟨⟨_, hi⟩, fun hr => ?_⟩
  have hends := computes_ends (lat := lat) pair d hr hf
  rw [laneIssue_ready hr] at hends
  rw [hi]
  exact (laneIssue_ready hr _).symm ▸ hends

theorem runsLane_decides {p : Nat} {f g : Nat → Bool × Flags}
    (hi : exec i s = s.laneIssue h names reads fun act ll => s.lanePred act ll p f) (hf : ∀ l, f l = g l) :
    RunsLane s i (decides s h names reads p g) :=
  ⟨⟨_, hi⟩, fun hr => by rw [hi]; exact decides_ends hr hf⟩

theorem runsLane_each {f g : Nat → List (Loc × Word)}
    (hi : exec i s = s.laneIssue h names reads fun act ll => s.laneDone lat ((lanesOf act).flatMap f) ll none)
    (hf : ∀ l, f l = g l) : RunsLane s i (writesEach s h names reads lat g) :=
  ⟨⟨_, hi⟩, fun hr => by rw [hi]; exact each_ends hr hf⟩

variable {d : Dst} {ty : Ty} {a b c : Src}

theorem runsLane_int1 {f g : DWord → DWord × Flags} (hi : exec i s = s.int1 h d ty lat a f) (hf : ∀ x, f x = g x) :
    RunsLane s i (int1 s h d ty lat a g) :=
  runsLane_computes hi fun _ => hf _

theorem runsLane_int2 {f g : DWord → DWord → DWord × Flags} (hi : exec i s = s.int2 h d ty lat a b f)
    (hf : ∀ x y, f x y = g x y) : RunsLane s i (int2 s h d ty lat a b g) :=
  runsLane_computes hi fun _ => hf _ _

theorem runsLane_int3 {f g : DWord → DWord → DWord → DWord × Flags} (hi : exec i s = s.int3 h d ty 4 a b c f)
    (hf : ∀ x y z, f x y z = g x y z) : RunsLane s i (int3 s h d ty a b c g) :=
  runsLane_computes hi fun _ => hf _ _ _

end

section
variable {s : State} {i : Instr} {h : LaneHdr} {lat : Nat} {d : Dst} {ty : Ty} {a b c : Src}

/-! As the model spells them. -/

theorem runsLane_int1_self {f : DWord → DWord × Flags} (hi : exec i s = s.int1 h d ty lat a f) :
    RunsLane s i (int1 s h d ty lat a f) :=
  runsLane_int1 hi fun _ => rfl

theorem runsLane_int2_self {f : DWord → DWord → DWord × Flags} (hi : exec i s = s.int2 h d ty lat a b f) :
    RunsLane s i (int2 s h d ty lat a b f) :=
  runsLane_int2 hi fun _ _ => rfl

theorem runsLane_int3_self {f : DWord → DWord → DWord → DWord × Flags} (hi : exec i s = s.int3 h d ty 4 a b c f) :
    RunsLane s i (int3 s h d ty a b c f) :=
  runsLane_int3 hi fun _ _ _ => rfl

end

/-! ### Values of the integer forms -/

section
variable {s : State} {i : Instr} {h : LaneHdr} {lat : Nat} {d : Dst} {ty : Ty} {sat : Bool} {a b c : Src}

/-! A result brought into its type (05 R107). -/

theorem runsLane_sat1 {g : DWord → Int} (hi : exec i s = s.int1 h d ty lat a fun x => satRes ty sat (g x)) :
    RunsLane s i (int1 s h d ty lat a fun x => fitted ty sat (g x)) :=
  runsLane_int1 hi fun _ => satRes_fitted _ _ _

theorem runsLane_sat2 {g : DWord → DWord → Int}
    (hi : exec i s = s.int2 h d ty lat a b fun x y => satRes ty sat (g x y)) :
    RunsLane s i (int2 s h d ty lat a b fun x y => fitted ty sat (g x y)) :=
  runsLane_int2 hi fun _ _ => satRes_fitted _ _ _

theorem runsLane_sat3 {g : DWord → DWord → DWord → Int}
    (hi : exec i s = s.int3 h d ty 4 a b c fun x y z => satRes ty sat (g x y z)) :
    RunsLane s i (int3 s h d ty a b c fun x y z => fitted ty sat (g x y z)) :=
  runsLane_int3 hi fun _ _ _ => satRes_fitted _ _ _

end

/-- A shift that moves every bit out leaves zero (R197). -/
theorem shiftLeft_value (ty : Ty) (x y : DWord) :
    patRes ty (if ty.bits ≤ shiftAmount y then 0 else intPat ty x * 2 ^ shiftAmount y)
      = pattern ty (x.toNat % 2 ^ ty.bits * 2 ^ (y.toNat % 256)) := by
  apply pat_mod
  split
  · next hw =>
    have hdvd : 2 ^ ty.bits ∣ x.toNat % 2 ^ ty.bits * 2 ^ (y.toNat % 256) :=
      Dvd.dvd.mul_left (pow_dvd_pow 2 hw) _
    rw [Nat.mod_eq_zero_of_dvd hdvd, Nat.zero_mod]
  · rfl

theorem ones_value (ty : Ty) (x : DWord) :
    patRes ty (laneOnes (intPat ty x) ty.bits) = pattern ty ((List.range ty.bits).countP x.getLsbD) := by
  rw [laneOnes_count]
  apply pat_mod
  congr 1
  exact List.countP_congr fun k hk => by rw [pat_bit ty x k (List.mem_range.mp hk)]

theorem zeros_value (ty : Ty) (x : DWord) :
    patRes ty (laneZeros (intPat ty x) ty.bits)
      = pattern ty ((List.range ty.bits).reverse.takeWhile fun k => !x.getLsbD k).length := by
  rw [laneZeros_take]
  apply pat_mod
  congr 2
  exact takeWhile_congr _ _ _ fun k hk => by rw [pat_bit ty x k (by simpa using hk)]

theorem reversed_value (ty : Ty) (x : DWord) :
    patRes ty (reverseBits ty.bits (intPat ty x)) = pattern ty
      ((List.range ty.bits).map fun k => if x.getLsbD (ty.bits - 1 - k) then 2 ^ k else 0).sum := by
  rw [reverseBits_sum]
  apply pat_mod
  congr 2
  apply List.map_congr_left
  intro k hk
  have hlt : ty.bits - 1 - k < ty.bits := by
    have := bits_pos ty
    omega
  rw [pat_bit ty x _ hlt]

/-- A field of `len` bits, extended by its sign in a signed type, as the model tests it (R197). -/
def extracted (ty : Ty) (f len : Nat) : DWord × Flags :=
  if len = 0 then (0, 0)
  else if ty.isSigned && f.testBit (len - 1) then (intRes ty ((f : Int) - 2 ^ len), 0) else patRes ty f

/-- The top bit of a field is its sign. -/
theorem extracted_value (ty : Ty) {f len : Nat} (hf : f < 2 ^ len) :
    extracted ty f len = if len = 0 then (0, 0)
      else if ty.isSigned = true ∧ 2 ^ (len - 1) ≤ f then (intRes ty ((f : Int) - 2 ^ len), 0) else pattern ty f := by
  unfold extracted
  split
  · rfl
  · next hlen =>
    simp only [Bool.and_eq_true, topBit_iff hlen hf]
    rfl

/-- The low `len` bits of x in place of a field of w, as the model clears it (R197). -/
def inserted (ty : Ty) (x w pos len : Nat) : DWord × Flags :=
  patRes ty (w - (w &&& (2 ^ len - 1) * 2 ^ pos) + x % 2 ^ len * 2 ^ pos)

/-- The bits below and above the field stay. -/
theorem inserted_value (ty : Ty) (x w pos len : Nat) :
    inserted ty x w pos len
      = pattern ty (w % 2 ^ pos + x % 2 ^ len * 2 ^ pos + w / 2 ^ (pos + len) * 2 ^ (pos + len)) := by
  apply pat_mod
  rw [clear_field]
  congr 1
  omega

/-- The low word of a value is zero when its low 32 bits are. -/
theorem loWord_ne_zero (x : DWord) : (loWord x != 0, (0 : Flags)) = (x.toNat % 2 ^ 32 != 0, 0) := by
  congr 1
  rw [Bool.eq_iff_iff]
  simp only [bne_iff_ne, ne_eq, not_iff_not, ← BitVec.toNat_inj, loWord, BitVec.extractLsb'_toNat]
  simp

/-- The lanes whose predicate holds (R215). -/
theorem ballot_value (s : State) (act : BitVec 32) (p : Nat) :
    ((maskOf act fun l => s.rd (.p p l) != 0).setWidth 64, (0 : Flags))
      = ((lanesWhere act fun l => s.rd (.p p l) ≠ 0).setWidth 64, 0) := by
  rw [maskOf_where _ _ (fun l => decide (s.rd (.p p l) ≠ 0)) fun l => by rw [Bool.eq_iff_iff]; simp]

/-- The lanes whose pattern equals that of lane `l` (R218). -/
theorem match_value (s : State) (act : BitVec 32) (ty : Ty) (a : Src) (l : Nat) :
    ((maskOf act fun j => intPat ty (s.srcInt ty.isPair j a) == intPat ty (s.srcInt ty.isPair l a)).setWidth 64, (0 : Flags))
      = ((lanesWhere act fun j => (s.srcInt ty.isPair j a).toNat % 2 ^ ty.bits
        = (s.srcInt ty.isPair l a).toNat % 2 ^ ty.bits).setWidth 64, 0) := by
  rw [maskOf_where _ _ (fun j => decide ((s.srcInt ty.isPair j a).toNat % 2 ^ ty.bits
    = (s.srcInt ty.isPair l a).toNat % 2 ^ ty.bits)) fun j => by rw [Bool.eq_iff_iff]; simp [intPat_mod]]

/-! ### The instructions -/

theorem runsLane_of_integer {s : State} {i : Instr} {f : LaneForm} (hi : LaneInteger s i f) : RunsLane s i f := by
  cases hi with
  | iadd | isub | imul => exact runsLane_sat2 rfl
  | imulhi | imin | imax | iand | ior | ixor | iandn | ishr | isra => exact runsLane_int2_self rfl
  | imad | idp4 => exact runsLane_sat3 rfl
  | iabs | ineg => exact runsLane_sat1 rfl
  | inot | mov => exact runsLane_int1_self rfl
  | isel h d ty a b p =>
    exact runsLane_computes
      (f := fun l => patRes ty (if s.rd (.p p l) = 0 then s.srcInt ty.isPair l b else s.srcInt ty.isPair l a).toNat)
      rfl fun l => by rw [ite_not]; rfl
  | ishl h d ty a b =>
    exact runsLane_int2
      (f := fun x y => patRes ty (if ty.bits ≤ shiftAmount y then 0 else intPat ty x * 2 ^ shiftAmount y)) rfl
      (shiftLeft_value ty)
  | ipopc h d ty a => exact runsLane_int1 (f := fun x => patRes ty (laneOnes (intPat ty x) ty.bits)) rfl (ones_value ty)
  | iclz h d ty a => exact runsLane_int1 (f := fun x => patRes ty (laneZeros (intPat ty x) ty.bits)) rfl (zeros_value ty)
  | laneBrev h d ty a =>
    exact runsLane_int1 (f := fun x => patRes ty (reverseBits ty.bits (intPat ty x))) rfl (reversed_value ty)
  | prmt => exact runsLane_int3_self rfl
  | laneBfe h d ty a b =>
    exact runsLane_int2
      (f := fun x y => extracted ty (intPat ty x / 2 ^ (fieldCtl ty.bits y).1 % 2 ^ (fieldCtl ty.bits y).2)
        (fieldCtl ty.bits y).2) rfl
      fun x y => extracted_value ty (Nat.mod_lt _ (Nat.two_pow_pos _))
  | laneBfi h d ty a b c =>
    exact runsLane_int3
      (f := fun x y z => inserted ty x.toNat (intPat ty y) (fieldCtl ty.bits z).1 (fieldCtl ty.bits z).2) rfl
      fun x y z => inserted_value ty _ _ _ _
  | movi | rnd => exact runsLane_computes rfl fun _ => rfl

theorem runsLane_of_float {s : State} {i : Instr} {f : LaneForm} (hi : LaneFloat s i f) : RunsLane s i f := by
  cases hi with
  | _ => exact runsLane_computes rfl fun _ => rfl

/-- The lanes that `shfl` reads: of a vector register those it takes from, of another source those of any form (R213). -/
theorem shfl_runs (s : State) (h : LaneHdr) (m : ShflMode) (d : Dst) (a b : Src) :
    RunsLane s (.shfl h m d a b) (computes s h (dstNames false d ++ srcNames false a ++ srcNames false b)
      ((match a with
        | .vreg n => (active s h).map fun l => LaneRead.vl n (shflLane m l (s.srcInt false l b).toNat)
        | x => srcReads false x) ++ srcReads false b) 6 false d fun l =>
      (s.srcInt false (shflLane m l (s.srcInt false l b).toNat) a, 0)) := by
  cases a with
  | _ => exact runsLane_computes rfl fun _ => rfl

theorem runsLane_of_test {s : State} {i : Instr} {f : LaneForm} (hi : LaneTest s i f) : RunsLane s i f := by
  cases hi with
  | psetInt h p c ty a b hty => exact runsLane_decides rfl fun l => if_pos hty
  | psetFloat h p c ty a b hty => exact runsLane_decides rfl fun l => if_neg (by simp [hty])
  | plop => exact runsLane_decides rfl fun _ => rfl
  | toPred h p a => exact runsLane_decides rfl fun l => loWord_ne_zero _
  | toVec => exact runsLane_computes rfl fun _ => rfl
  | shfl h m d a b => exact shfl_runs s h m d a b
  | vballot h d p =>
    exact runsLane_computes_active (f := fun act _ => ((maskOf act fun l => s.rd (.p p l) != 0).setWidth 64, 0)) rfl
      fun _ => ballot_value s _ p
  | laneMatch h ty d a =>
    exact runsLane_computes_active (f := fun act l => ((maskOf act fun j =>
      intPat ty (s.srcInt ty.isPair j a) == intPat ty (s.srcInt ty.isPair l a)).setWidth 64, 0)) rfl
      fun l => match_value s _ ty a l

theorem runsLane_of_cap {s : State} {i : Instr} {f : LaneForm} (hi : LaneCap s i f) : RunsLane s i f := by
  cases hi with
  | vcmov => exact runsLane_each rfl fun _ => rfl
  | vcgetaddr | vcgetbase | vcgettop | vcgetlen | vcgetperm | vcgetseal | vcgetowner | vcgettag =>
    exact runsLane_each rfl fun _ => rfl
  | vcwithin h w p q =>
    refine runsLane_each ?_ fun _ => rfl
    show s.laneIssue _ _ _ (fun act ll => s.laneDone 2 ((lanesOf act).map _) ll none) = _
    simp only [List.map_eq_flatMap]
    rfl

theorem runsLane_of_any {s : State} {i : Instr} {f : LaneForm}
    (hi : LaneInteger s i f ∨ LaneFloat s i f ∨ LaneTest s i f ∨ LaneCap s i f) : RunsLane s i f := by
  rcases hi with h | h | h | h
  · exact runsLane_of_integer h
  · exact runsLane_of_float h
  · exact runsLane_of_test h
  · exact runsLane_of_cap h

/-- Settles O19: each computation ends with its lanes' values and flags in flight. -/
theorem laneResult : Obligations.LaneResult := by
  unfold Obligations.LaneResult
  exact fun s i f hi _ hr => (runsLane_of_any hi).completes hr

/-- Settles O22: each stands behind the issue, which traps at the first register beyond the budget. -/
theorem budgetTraps : Obligations.BudgetTraps := by
  unfold Obligations.BudgetTraps
  intro s i f hi _ n hn
  obtain ⟨k, hk⟩ := (runsLane_of_any hi).issues
  rw [hk, laneIssue_budget hn]

/-! ### sx blocks -/

/-- A conversion to or from blocks, whose registers lie below 1,024 and which may issue, ends with its lanes' writes. -/
theorem block_ends {s : State} {i : Instr} {h : LaneHdr} {names : List Nat} {reads : List LaneRead} {lat : Nat}
    {ws : Nat → List (Loc × Word)} {fl : Nat → Flags}
    (hi : exec i s = s.laneReach h names (s.laneIssue h names reads fun act ll =>
      let out := (lanesOf act).map fun l => (ws l, fl l)
      s.laneDone lat (out.flatMap (·.1)) (ll ||| joinFlags (out.map (·.2))) none))
    (hn : ∀ n ∈ names, n < 1024) (hr : LaneReady s h names reads) :
    ∃ t, exec i s = .next t ∧ LaneEnds s t lat
      (let all := lostFlag s h reads ||| joinFlags ((active s h).map fl)
      if all = 0 then (active s h).flatMap ws else (active s h).flatMap ws ++ [(.fsr, all)]) none := by
  rw [hi, laneReach_ready hn, laneIssue_ready hr]
  simp only [List.flatMap_map, List.map_map]
  exact laneDone_ends s lat ((active s h).flatMap ws) (lostFlag s h reads ||| joinFlags ((active s h).map fl)) none

/-- The writes that are not to a scale register. -/
theorem kept_writes (ws : List (Loc × Word)) (ss : List Nat) (l : Nat) :
    (ws.filter fun e => !(ss.any fun r => e.1 == .v r l)) = ws.filter fun w => ¬ ∃ r ∈ ss, w.1 = .v r l :=
  List.filter_congr fun w _ => by
    rw [Bool.eq_iff_iff]
    simp

theorem map_zip_map {α β γ : Type} (l : List α) (f : α → β) (g : α × β → γ) :
    (l.zip (l.map f)).map g = l.map fun k => g (k, f k) := by
  induction l with
  | nil => rfl
  | cons x l ih => simp [ih]

/-- Settles O21: the codes and scales of each lane's block, or its values, are in flight. -/
theorem laneBlockResult : Obligations.LaneBlockResult := by
  unfold Obligations.LaneBlockResult
  intro s i f hi _ hn hr
  cases hi with
  | pack h d sx a sc bsel blk =>
    have hends := block_ends (i := .sxpack h d sx a sc bsel blk) rfl hn hr
    simp only [kept_writes] at hends
    exact hends
  | unpack h d rnd sx ty a sc bsel blk =>
    have hends := block_ends (i := .sxunpack h d rnd sx ty a sc bsel blk) rfl hn hr
    simp only [map_zip_map, List.map_map] at hends
    exact hends

/-! ### Delays -/

/-- The block goes on to its next instruction, when it is not its last and nothing replays. -/
theorem nextLane_within {a : Agent} {b : Block} {r : List Block} (hr : a.replays = []) (hf : a.focusStack = [])
    (hb : a.blocks = b :: r) (hi : b.idx + 1 < b.count) : a.nextLane = { a with blocks := { b with idx := b.idx + 1 } :: r } := by
  unfold Agent.nextLane
  rw [hr, hf]
  dsimp only
  rw [hb]
  dsimp only
  rw [if_neg (by omega), List.map_nil, ← hf]

/-- Settles O23: a delay moves the lane stream and sets until when it is held. -/
theorem laneDelay : Obligations.LaneDelay := by
  unfold Obligations.LaneDelay
  refine fun s n => ⟨rfl, ?_, ?_, nextLane_raw s.ag, fun b r => nextLane_within⟩
  · rw [nextLane_eq]
    rfl
  · rw [nextLane_eq]
    rfl

end Sys2Proof.Proofs.LaneComputation
end

section
/-!
SUPPORT. The lane instructions that leave an operation under way: memory and team memory (10 R224 to R246), those whose effect is
known at issue (09 R214 to R219, 10 R240), prefetch (10 R246) and fences (10 R247, R248): what each leaves; and the statements
about them.
-/

namespace Sys2Proof.Proofs.LaneOperations

open Machine Claims Laws

/-- What an instruction does that stands behind the issue, once it may issue. -/
theorem issued {s : State} {i : Instr} {h : LaneHdr} {names : List Nat} {reads : List LaneRead} {k : BitVec 32 → Flags → Out}
    (hi : exec i s = s.laneIssue h names reads k) (hr : LaneReady s h names reads) :
    exec i s = k (s.laneActive h) (lostFlag s h reads) :=
  hi.trans (laneIssue_ready hr k)

/-! ### Memory -/

/-- Settles O24: an access whose checks pass enters or stalls for want of room; else it traps, no lane with an access. -/
theorem laneAccesses : Obligations.LaneAccesses := by
  unfold Obligations.LaneAccesses
  intro s s' i x h _ hr
  rw [laneMem_eq h hr]
  exact ⟨fun accs hc => ⟨fun hroom => laneChecked_enters hc hroom, fun hroom => laneChecked_stalls hc hroom⟩,
    fun u hc => laneChecked_traps hc⟩

/-! ### Team memory -/

/-- The accesses of a team-memory instruction as its check takes them: lane, team address, data, compare value. -/
def teamReqs (s : State) (x : TeamAccess) : List (Nat × Int × Nat × Nat) :=
  (active s x.hdr).map fun l => (l, x.at_ l, x.data l, x.cmp l)

theorem teamMem_eq {s : State} {i : Instr} {x : TeamAccess} (h : TeamMem s i x) (hr : LaneReady s x.hdr x.names x.reads) :
    exec i s = s.laneChecked (s.checkTeam x.kind x.size (teamReqs s x)) x.ord x.scope x.tk
      (lostFlag s x.hdr x.reads) x.op x.dests := by
  cases h with
  | lds h ty o c d addr imm tk =>
    show execLds h ty o c d addr imm tk s = _
    unfold execLds
    dsimp only at hr ⊢
    rw [laneIssue_ready hr]
    rfl
  | sts h ty o c data addr imm tk =>
    show execSts h ty o c data addr imm tk s = _
    unfold execSts
    dsimp only at hr ⊢
    rw [laneIssue_ready hr]
    rfl
  | atoms h op ty o c d addr v imm tk =>
    show execAtoms h op ty o c d addr v imm tk s = _
    unfold execAtoms
    dsimp only at hr ⊢
    rw [laneIssue_ready hr]
    cases d <;> rfl

theorem teamCheck_passes {s : State} {x : TeamAccess} (h : ∀ l ∈ active s x.hdr, TeamOk s x.size (x.at_ l)) :
    s.checkTeam x.kind x.size (teamReqs s x) = .ok s (x.accs s) := by
  rw [checkTeam_ok, teamReqs, List.map_map]
  · rfl
  · intro r hr
    obtain ⟨l, hl, rfl⟩ := List.mem_map.mp hr
    exact h l hl

/-- Settles O25: accesses in range enter, or stall for want of room. -/
theorem teamAccessEnters : Obligations.TeamAccessEnters := by
  unfold Obligations.TeamAccessEnters
  intro s i x h _ hr hok
  rw [teamMem_eq h hr]
  exact ⟨fun hroom => laneChecked_enters (teamCheck_passes hok) hroom,
    fun hroom => laneChecked_stalls (teamCheck_passes hok) hroom⟩

/-! ### Effects known at issue -/

/-- The predicate of lane `l` is set. -/
theorem pred_ne (s : State) (p : Nat) : (fun l => s.rd (.p p l) != 0) = fun l => decide (s.rd (.p p l) ≠ 0) := by
  funext l
  rw [Bool.eq_iff_iff]
  simp

theorem exec_told {s : State} {i : Instr} {x : LaneTold} (h : Told s i x) (hr : LaneReady s x.hdr x.names x.reads) :
    exec i s = .next (s.enqueue true x.path .rlx .grp (s.laneTk x.tk) x.kind x.dests).laneNext := by
  cases h with
  | vote h m d p tk =>
    refine (issued (i := .vote h m d p tk) (rfl : execVote h m d p tk s = _) hr).trans ?_
    rw [voteValue_of, pred_ne]
    rfl
  | lred h op ty d a tk =>
    show execLred h op ty d a tk s = _
    unfold execLred
    rw [laneIssue_ready (show LaneReady s h (srcNames ty.isPair a) (srcReads ty.isPair a) from hr)]
    dsimp only
    rw [redOut_eq, redSignals_eq]
    rfl
  | lscan h op ty incl d a total tk =>
    show execLscan h op ty incl d a total tk s = _
    unfold execLscan
    rw [laneIssue_ready (show LaneReady s h (dstNames ty.isPair (.reg d) ++ srcNames ty.isPair a)
      (srcReads ty.isPair a) from hr)]
    dsimp only
    rw [redSignals_eq]
    simp only [redOut_eq]
    cases total <;> rfl
  | subsIdle h ty c b tk ha =>
    show s.subscribe h true ty c b tk = _
    unfold State.subscribe
    rw [laneIssue_ready (show LaneReady s h [] [.c c, .s b, .s (b + 1), .s (b + 2)] from hr)]
    exact if_pos ha
  | unsubsIdle h c b tk ha =>
    show s.subscribe h false .bf16 c b tk = _
    unfold State.subscribe
    rw [laneIssue_ready (show LaneReady s h [] [.c c, .s b, .s (b + 1), .s (b + 2)] from hr)]
    exact if_pos ha
  | subs h ty c b tk len stride rows upd ha hreg hc => exact subscribe_ok hr ha hreg hc
  | unsubs h c b tk len stride rows upd ha hreg hc => exact subscribe_ok hr ha hreg hc
  | lend h tk => exact issued (i := .lend h tk) (rfl : execLend h tk s = _) hr

/-- Settles O26: each leaves its effect under way. -/
theorem toldEnters : Obligations.ToldEnters := by
  unfold Obligations.ToldEnters
  intro s i x h _ hr
  exact ⟨_, exec_told h hr, lane_enters0 s x.path .rlx .grp (s.laneTk x.tk) x.kind x.dests⟩

/-! ### Prefetch -/

theorem asks_iff (tk : Option Nat) (lines : List (Nat × Nat)) :
    (tk.isSome || !lines.isEmpty) = true ↔ tk ≠ none ∨ lines ≠ [] := by
  simp [Option.isSome_iff_ne_none]

/-- Settles O27: the lines that pass their checks are asked for; without lines and token nothing is under way. -/
theorem prefetchResult : Obligations.PrefetchResult := by
  unfold Obligations.PrefetchResult
  intro s h cap off imm tk hr
  have hexec := issued (i := .pf h cap off imm tk) (rfl : execPf h cap off imm tk s = _) hr
  have hasks := asks_iff tk ((lanesOf (s.laneActive h)).filterMap fun l =>
    s.prefetchLine (s.srcCap l cap) (s.laneEa l cap off imm))
  refine ⟨fun htk hlines => ⟨_, hexec.trans ?_, laneNext_goes s _⟩, 
    fun hsome => ⟨_, hexec.trans ?_, lane_enters _ _ _ _ _ _ _ _ _ rfl⟩⟩
  · dsimp only
    rw [if_neg fun hc => (hasks.mp hc).elim (· htk) (· hlines)]
    rfl
  · dsimp only
    rw [if_pos (hasks.mpr hsome)]
    rfl

/-! ### Fences -/

theorem exec_laneFence {s : State} {h : LaneHdr} {o : Ord} {c : Scope} {tk : Option Nat} (hr : LaneReady s h [] []) :
    exec (.laneFence h o c tk) s
      = if s.ag.loading [.lane] s.ag.nextOp || (o ≠ .acq && s.busy s.ag [.lane] s.ag.nextOp c) || !s.fenceReady o c
        then .next s else .next (s.fenceEnd o c tk) :=
  issued (i := .laneFence h o c tk) (rfl : execLaneFence h o c tk s = _) hr

theorem exec_fencex {s : State} {h : LaneHdr} {p q : Path} {o : Ord} {c : Scope} {tk : Option Nat} (hr : LaneReady s h [] []) :
    exec (.fencex h p q o c tk) s
      = if s.fromBusy p (fencexScope q o c) || !s.fenceReady o (if Path.engine q then .dev else c) then .next s
        else
          let s1 := (s.publishFor s.ag (if Path.engine q then .dev else c)).peerFence s.ag c
          let b := if p = .lane then s1.ag.seenFence true else s1.ag
          let a := if Scope.short c then b.afterRelease q o c else b
          .next ({ s1 with ag := a.post (a.tokenOpt (s.laneTk tk)) }).laneNext :=
  issued (i := .fencex h p q o c tk) (rfl : execFencex h p q o c tk s = _) hr

/-- A fence of the lane stream must wait: for a load, for a write, or for what it makes others see. -/
theorem laneFence_waits_iff (s : State) (o : Ord) (c : Scope) :
    (s.ag.loading [.lane] s.ag.nextOp || (o ≠ .acq && s.busy s.ag [.lane] s.ag.nextOp c) || !s.fenceReady o c) = true
      ↔ s.ag.loading [.lane] s.ag.nextOp = true ∨ (o ≠ .acq ∧ s.busy s.ag [.lane] s.ag.nextOp c = true)
        ∨ s.fenceReady o c = false := by
  simp [or_assoc]

/-- The end of a fence, with its token that of the agent as the fence met it. -/
theorem fenceEnd_gone (s : State) (o : Ord) (c : Scope) (tk : Option Nat) :
    s.fenceEnd o c tk = laneGone (s.fenced s.ag c)
      (((lanesSeen (s.fenced s.ag c).ag).afterRelease .lane o c).post ((s.fenced s.ag c).ag.tokenOpt (s.laneTk tk))) := by
  unfold State.fenceEnd
  dsimp only
  rw [afterRelease_token, seenFence_token]
  rfl

theorem engine_iff (q : Path) : Path.engine q = true ↔ q = .matrix ∨ q = .copy ∨ q = .coll := by
  cases q <;> simp [Path.engine]

theorem release_unless (b : Agent) (q : Path) (o : Ord) (c : Scope) :
    (if Scope.short c then b.afterRelease q o c else b) = if c = .dev ∨ c = .sys then b else b.afterRelease q o c := by
  cases c <;> rfl

/-- What a `fencex` does to an agent leaves its tokens. -/
theorem fencexSeen_token (v : Agent) (p q : Path) (o : Ord) (c : Scope) (k : Option Nat) :
    let b := if p = .lane then v.seenFence true else v
    (if c = .dev ∨ c = .sys then b else b.afterRelease q o c).tokenOpt k = v.tokenOpt k := by
  intro b
  have hb : b.tokenOpt k = v.tokenOpt k := by
    rw [apply_ite (Agent.tokenOpt · k), seenFence_token, ite_self]
  rw [apply_ite (Agent.tokenOpt · k), afterRelease_token, ite_self, hb]

/-- Settles O28: a fence whose conditions hold ends with its effect; one whose conditions fail changes nothing. -/
theorem laneFenceResult : Obligations.LaneFenceResult := by
  unfold Obligations.LaneFenceResult
  intro s h o c tk hr
  refine ⟨fun hl hb hf => ?_, fun hw => ?_, fun p q => ?_⟩
  · rw [exec_laneFence hr, if_neg, fenceEnd_gone]
    rw [laneFence_waits_iff]
    rintro (hl' | ⟨ho, hb'⟩ | hf')
    · simp [hl] at hl'
    · simp [hb ho] at hb'
    · simp [hf] at hf'
  · rw [exec_laneFence hr, if_pos ((laneFence_waits_iff s o c).mpr hw)]
  · have hd : (if Path.engine q then Scope.dev else c) = if q = .matrix ∨ q = .copy ∨ q = .coll then Scope.dev else c :=
      if_congr (engine_iff q) rfl rfl
    have hs : fencexScope q o c = if q = .matrix ∨ q = .copy ∨ q = .coll then .dev else if o = .acq then .grp else c :=
      if_congr (engine_iff q) rfl (if_congr beq_iff_eq rfl rfl)
    rw [exec_fencex hr, hd, hs]
    refine ⟨fun hb hf => ?_, fun hw => if_pos (by simpa using hw)⟩
    rw [hb, hf]
    refine (if_neg (by decide)).trans ?_
    dsimp only
    generalize (s.publishFor s.ag _).peerFence s.ag c = v
    rw [release_unless, fencexSeen_token]
    rfl

end Sys2Proof.Proofs.LaneOperations
end

section
/-!
SUPPORT. The lane instructions of the matrix arrays (11 R249 to R264) and of the token watchpoints (14 R315, R329): what each does once
it may issue; and the statements about them.
-/

namespace Sys2Proof.Proofs.ArraysAndWatch

open Machine Claims Laws

/-! ### Owner and order of an array -/

theorem matrixOwner_foreign {s : State} (h : s.ownsArray = false) (act : BitVec 32) (pair : Bool) (k : Out) :
    s.matrixOwner act pair k = s.laneTrap 0x03 0 act 0 := by
  unfold State.matrixOwner
  rw [h]
  rfl

theorem matrixOwner_unpaired {s : State} (h : s.ownsArray = true) {pair : Bool} (hp : pair = true)
    (hf : s.pairPlaced = false) (act : BitVec 32) (k : Out) : s.matrixOwner act pair k = s.laneTrap 0x01 0 act 0 := by
  unfold State.matrixOwner
  rw [h, hp, hf]
  rfl

theorem matrixOwner_passes {s : State} {pair : Bool} (h : s.ownsArray = true) (hp : pair = true → s.pairPlaced = true)
    (act : BitVec 32) (k : Out) : s.matrixOwner act pair k = k := by
  unfold State.matrixOwner
  rw [h]
  cases pair
  · rfl
  · rw [hp rfl]
    rfl

theorem matrixEnter_stalls {s : State} {pair : Bool} (h : s.arrayFull pair = true) (tk : Option Nat) (ll : Flags)
    (op : MatrixOp) (f : Agent → Agent) : s.matrixEnter pair tk ll op f = .next s := by
  unfold State.matrixEnter
  exact if_pos h

theorem matrixMac_eq {s : State} {h : LaneHdr} {kind : MatrixKind} {fmt : MFmt} {pair reuse : Bool} {acc : Nat} {a : AOperand}
    {lw : Nat} {tk : Option Nat} (hm : MacOk s fmt pair a lw) :
    let f := macForm s h kind fmt pair reuse acc a lw tk
    LaneReady s f.hdr f.names f.reads → s.matrixMac h kind fmt pair reuse acc a lw tk
      = s.matrixOwner (s.laneActive f.hdr) f.pair (s.matrixEnter f.pair f.tk (lostFlag s f.hdr f.reads) f.op f.change) := by
  intro f hr
  obtain ⟨hnames, hrecord, hlayout⟩ := hm
  unfold State.matrixMac
  dsimp only
  rw [laneReach_ready hnames, laneIssue_ready (show LaneReady s h (aNames fmt a)
    ((aNames fmt a).flatMap (fun r => (List.range 32).map fun l => .vl r l) ++ layoutReads lw) from hr), hrecord]
  exact congrArg _ (layout_ok hlayout _)

/-- What a matrix instruction whose other checks pass does: the array's checks, then its entry. -/
theorem exec_matrix {s : State} {i : Instr} {f : MatrixForm} (h : MatrixIssue s i f) (hr : LaneReady s f.hdr f.names f.reads) :
    exec i s = s.matrixOwner (s.laneActive f.hdr) f.pair
      (s.matrixEnter f.pair f.tk (lostFlag s f.hdr f.reads) f.op f.change) := by
  cases h with
  | mmac h fmt pair reuse acc a lw tk hm => exact matrixMac_eq hm hr
  | mdist h fmt pair reuse acc a lw tk hm => exact matrixMac_eq hm hr
  | mclr h pair acc tk =>
    show execMclr h pair acc tk s = _
    unfold execMclr
    exact laneIssue_ready (show LaneReady s h [] [] from hr) _
  | mld h pair acc lw tk hl =>
    show s.matrixTile h .load kindLoad pair acc lw tk = _
    unfold State.matrixTile
    rw [laneIssue_ready (show LaneReady s h [] (layoutReads lw) from hr)]
    exact congrArg _ (layout_ok hl _)
  | mst h pair acc lw tk hl =>
    show s.matrixTile h .store kindStore pair acc lw tk = _
    unfold State.matrixTile
    rw [laneIssue_ready (show LaneReady s h [] (layoutReads lw) from hr)]
    exact congrArg _ (layout_ok hl _)
  | mtopk h pair acc k tk hq =>
    show execMtopk h pair acc k tk s = _
    unfold execMtopk
    rw [laneIssue_ready (show LaneReady s h [] [] from hr)]
    exact congrArg _ (if_neg (Nat.not_le.mpr hq))

/-- Settles O29: foreign arrays and misplaced pairs trap, a full order stalls, otherwise the instruction enters. -/
theorem matrixInstructions : Obligations.MatrixInstructions := by
  unfold Obligations.MatrixInstructions
  intro s i f h _ hr
  rw [exec_matrix h hr]
  refine ⟨fun hm => ?_, fun ho => matrixOwner_foreign ho _ _ _, fun ho hp hf => matrixOwner_unpaired ho hp hf _ _,
    fun ho hp hf => ?_⟩
  · obtain ⟨ho, hp, hroom⟩ := hm
    rw [matrixOwner_passes ho hp]
    exact matrixEnter_ok hroom (change_fsr h)
  · rw [matrixOwner_passes ho hp, matrixEnter_stalls hf]

/-! ### The result queue -/

/-- Settles O30: `mrd` takes the head entry of qmat, with its rows or with the promise of them. -/
theorem mrdPops : Obligations.MrdPops := by
  unfold Obligations.MrdPops
  intro s h d tk e rest hq names hn hr ho
  have hexec : exec (.mrd h d tk) s = execMrd h d tk s := rfl
  unfold execMrd at hexec
  rw [hq] at hexec
  dsimp only at hexec
  rw [laneReach_ready hn, laneIssue_ready hr, matrixOwner_passes (pair := false) ho fun hp => absurd hp (by decide)] at hexec
  exact ⟨_, hexec, laneNext_goes s _⟩

/-! ### Watch instructions -/

/-- What a watch instruction does with the checks of its accesses. -/
def watchEnd (s : State) (f : WatchForm) (ll : Flags) : Checked → Out
  | .trap s1 t => .next (({ s1 with ag := { s1.ag with
      pairing := .single
      firstLatch := none } }).trapBeside t)
  | .again s1 => .next s1
  | .ok s1 accs =>
    let v := (watchMet s s1 f).enqueue true .lane .rlx .dev (s.laneTk f.tk)
      (.watch f.op (s.rc f.table) f.d f.p (watchSteps (tableEntries (s.rc f.table)) (watchOperands s f) accs) [] []) f.dests
    .next ({ v with ag := v.ag.put .fsr ll }).laneNext

/-- What a watch instruction does once it may issue. -/
def watchOut (s : State) (f : WatchForm) (ll : Flags) : Out :=
  match tableCheck (s.rc f.table) f.need with
  | some cause => s.laneTrap cause (s.rc f.table).addr (s.laneActive f.hdr) 6
  | none => watchEnd s f ll (s.checkXlated true 6 false (s.watchXlate (f.need == permST) (watchAccesses s f)))

/-- The operands of a watch instruction are the low words of its sources. -/
theorem operands_low (s : State) (f : WatchForm) :
    ((lanesOf (s.laneActive f.hdr)).map fun l =>
      (l, (loWord (s.srcInt false l f.seq)).toNat, (loWord (s.srcInt false l f.tok)).toNat)) = watchOperands s f := by
  have hlow (v : DWord) : loWord v = v.setWidth 32 := by
    unfold loWord
    ext i hi
    simp [BitVec.getElem_extractLsb']
  simp only [hlow]
  rfl

theorem watchIssue_eq {s : State} (f : WatchForm) (dests : BitVec 32 → List Loc) (hd : dests (s.laneActive f.hdr) = f.dests)
    (hn : ∀ n ∈ f.names, n < 1024)
    (hr : LaneReady s f.hdr (f.names ++ srcNames false f.seq ++ srcNames false f.tok)
      ([.c f.table] ++ srcReads false f.seq ++ srcReads false f.tok)) :
    s.watchIssue f.hdr f.op f.names f.d f.p f.table f.need f.seq f.tok f.tk dests
      = watchOut s f (lostFlag s f.hdr ([.c f.table] ++ srcReads false f.seq ++ srcReads false f.tok)) := by
  unfold State.watchIssue watchOut
  rw [laneReach_ready hn, laneIssue_ready hr, hd]
  dsimp only
  cases tableCheck (s.rc f.table) f.need with
  | some cause => rfl
  | none =>
    dsimp only
    rw [operands_low]
    show _ = watchEnd s f _ (s.checkXlated true kindWatch false (s.watchXlate (f.need == permST) (watchAccesses s f)))
    have hacc : watchAccesses s f = ((watchOperands s f).filter fun x => 2 ≤ x.2.1 && x.2.1 < tableEntries (s.rc f.table)).flatMap
      fun x => watchReqs (s.rc f.table) x.1 x.2.1 := rfl
    rw [← hacc]
    cases s.checkXlated true kindWatch false (s.watchXlate (f.need == permST) (watchAccesses s f)) <;> rfl

theorem exec_watch {s : State} {i : Instr} {f : WatchForm} (h : Watches s i f) (hn : ∀ n ∈ f.names, n < 1024)
    (hr : LaneReady s f.hdr (f.names ++ srcNames false f.seq ++ srcNames false f.tok)
      ([.c f.table] ++ srcReads false f.seq ++ srcReads false f.tok)) :
    exec i s = watchOut s f (lostFlag s f.hdr ([.c f.table] ++ srcReads false f.seq ++ srcReads false f.tok)) := by
  cases h with
  | tokc h d p c q t tk => exact watchIssue_eq _ (codeLocs d p) rfl hn hr
  | tokcDraft h d p c q t tk => exact watchIssue_eq _ (codeLocs d p) rfl hn hr
  | tokcf h d p c q n tk => exact watchIssue_eq _ (codeLocs d p) rfl hn hr
  | tokrj h c q tk => exact watchIssue_eq _ (fun _ => []) rfl hn hr
  | tokf h d c q tk =>
    exact watchIssue_eq _ (fun act => (lanesOf act).flatMap fun l => (List.range 9).map fun k => Loc.v (d + k) l) rfl hn hr

/-- Settles O31: a table that passes leaves the steps of the active lanes under way, one that fails traps its cause. -/
theorem watchInstructions : Obligations.WatchInstructions := by
  unfold Obligations.WatchInstructions
  intro s i f h _ hn hr
  rw [exec_watch h hn hr]
  unfold watchOut
  refine ⟨fun s' accs ht hc => ?_, fun cause ht => by rw [ht]⟩
  rw [ht]
  dsimp only
  rw [hc]
  exact ⟨_, rfl, lane_enters _ _ _ _ _ _ _ _ _ rfl⟩

end Sys2Proof.Proofs.ArraysAndWatch
end

section
/-!
SUPPORT. The events of agents: what each of one agent's own events leaves (21 R398, 03 R74, 02 R41, R42, 26 R463 to R465), the ends
of waits and delays, the traps that an event brings (19 R358, R366; 11 R267), and the choice of who issues (21 R398); and the
statements about them.
-/

namespace Sys2Proof.Proofs.AgentEvents

open Machine Claims Laws Proofs.BeyondAgent

/-- The state with agent `a.id` in focus is the state with `a` in focus. -/
theorem focusOn_here {s : State} {a : Agent} (h : s.agent? a.id = some a) :
    s.focusOn a.id = { s with ag := a, rest := (s.focusOn a.id).rest } := by
  conv_lhs => rw [focusOn_eq, focusOn_ag h]

/-- A step that changes an agent where it stands. -/
theorem updated {s : State} {i : Instr} {a b : Agent} {f : Agent → Agent} (h : s.agent? a.id = some a)
    (hi : exec i s = .next (s.updAgent a.id f)) (hf : f a = b) (hid : ∀ x, (f x).id = x.id) :
    ∃ t, exec i s = .next t ∧ Replaced s t a.id b :=
  ⟨_, hi, updAgent_replaced h hf hid⟩

/-- A step that changes an agent in focus. -/
theorem throughFocus {s : State} {i : Instr} {a b : Agent} {f : State → State} (h : s.agent? a.id = some a)
    (hi : exec i s = .next (s.onAgent a.id f))
    (hf : ∀ r, f { s with ag := a, rest := r } = { s with ag := b, rest := r }) (hid : b.id = a.id) :
    ∃ t, exec i s = .next t ∧ Replaced s t a.id b := by
  refine ⟨_, hi, onAgent_replaced h ?_ hid⟩
  rw [focusOn_here h, hf]

/-! ### Lane focus -/

theorem focusTo_id (a : Agent) (m : Nat) : (a.focusTo m).id = a.id := by
  unfold Agent.focusTo
  split
  · rfl
  · split
    · split <;> rfl
    · split
      · rfl
      · split <;> rfl

theorem reactivate_id (a : Agent) : a.reactivate.id = a.id := by
  unfold Agent.reactivate
  split
  · split <;> rfl
  · rfl

theorem inHandler_of {a : Agent} (hh : a.hnd = true) (hs : a.isSys = false) : a.inHandler = true := by
  simp [Agent.inHandler, hh, hs]

theorem inIssue_of {a : Agent} (hi : a.alive = true ∧ a.resident = true) : a.inIssue = true := by
  simp [Agent.inIssue, hi.1, hi.2]

/-- The redirect of an `lbrx` is the first thing due. -/
theorem due_redirect {a : Agent} {c : Cap} (hi : a.alive = true ∧ a.resident = true) (hr : a.redirect = some c)
    (hh : a.hnd = false) (hs : a.stalled = false) (hw : a.wait = .none ∨ ∃ n thr, a.wait = .token n thr)
    (hd : a.watchDue = none) (hk : a.held = false) : a.due = .redirect c := by
  have hnow : a.redirectNow = true := by
    unfold Agent.redirectNow
    rcases hw with hw | ⟨n, thr, hw⟩ <;> simp [hh, hs, hw]
  unfold Agent.due
  rw [inIssue_of hi, hk, hd, hnow, hr]
  rfl

/-- Settles O33: each event finds its condition and changes its agent as stated. -/
theorem agentEvents : Obligations.AgentEvents := by
  unfold Obligations.AgentEvents
  intro s i a b h he
  cases he with
  | laneStarved hc hw =>
    refine updated h rfl (if_pos ?_) fun x => ?_
    · simp [hc, Agent.waited, hw]
    · split <;> rfl
  | scalarStarved hc hw =>
    refine updated h rfl (if_pos ?_) fun x => ?_
    · simp [hc, Agent.waited, hw]
    · split <;> rfl
  | pauseEnd hp =>
    refine updated h rfl (if_pos hp) fun x => ?_
    split <;> rfl
  | writeEffect => exact updated h rfl rfl fun x => commit_id x _
  | scalarDelay hd =>
    refine updated h (f := fun b => if b.dlyScalar ≤ s.clk then { b with dlyScalar := 0 } else b) rfl (if_pos hd) fun x => ?_
    split <;> rfl
  | laneDelay hd =>
    refine updated h (f := fun b => if b.dlyLane ≤ s.clk then { b with dlyLane := 0 } else b) rfl (if_pos hd) fun x => ?_
    split <;> rfl
  | barrier obj p hw hp =>
    refine throughFocus h rfl (fun r => ?_) rfl
    dsimp only
    rw [hw]
    dsimp only
    unfold State.endWait
    dsimp only
    rw [hw]
    exact if_pos hp
  | yielded n thr c hi hw ht =>
    refine updated h rfl ?_ fun x => ?_
    · rw [inIssue_of hi, if_pos rfl]
      unfold Agent.reactivate
      rw [hw]
      exact if_pos (reached_met ht)
    · split
      · exact reactivate_id x
      · rfl
  | redirect c hi hr hh hs hw hd hk =>
    refine throughFocus h rfl (fun r => ?_) rfl
    dsimp only
    rw [due_redirect hi hr hh hs hw hd hk]
    rfl
  | touch e o lane r hw ho hp =>
    refine updated h (f := fun b => { b with touching := some ⟨e, lane, true⟩ }) ?_ rfl fun x => rfl
    show execFirstTouchPoolRetry a.id s = _
    unfold execFirstTouchPoolRetry
    rw [h]
    dsimp only
    rw [hw, ho]
    exact if_pos (touch_ready hp)
  | timer hs hn ht =>
    refine updated h rfl (if_pos ?_) fun x => ?_
    · simp [hs, hn, clockKey, ht]
    · split <;> rfl
  | snapshot r hi hr hn hd hw =>
    refine updated h (f := fun x => x.settle.takeSnapshot r) ?_ rfl fun x => settle_id x
    show execRegionSnapshot a.id s = _
    unfold execRegionSnapshot
    rw [h]
    dsimp only
    rw [hr]
    exact if_neg (by simp [hi.1, hi.2, hn, drained_of hd.1, hd.2, hw])
  | focus v b r hh hs hf hr hb he hm =>
    refine updated h rfl ?_ fun x => ?_
    · rw [if_pos (by simp [inHandler_of hh hs, hf, hr])]
      unfold Agent.focusTo
      rw [hb, he]
      exact if_pos hm
    · split
      · exact focusTo_id x _
      · rfl
  | refocus v b r e hh hs hf hr hb hn hl he =>
    refine updated h rfl ?_ fun x => ?_
    · rw [if_pos (by simp [inHandler_of hh hs, hf, hr])]
      unfold Agent.focusTo
      rw [hb, he]
      dsimp only
      rw [if_neg (by simpa using hn), if_neg (Nat.not_le.mpr hl)]
      rfl
    · split
      · exact focusTo_id x _
      · rfl
  | unfocus v hh hs hr =>
    refine updated h rfl ?_ fun x => ?_
    · rw [if_pos (by simp [inHandler_of hh hs, hr])]
      unfold Agent.releaseFocus leftOver
      simp
    · split <;> rfl

/-! ### The end of waits and delays -/

theorem onAgent_eq {s : State} {a : Agent} (h : s.agent? a.id = some a) (f : State → State) :
    s.onAgent a.id f = (f (s.focusOn a.id)).focusOn s.ag.id := by
  unfold State.onAgent
  rw [h]
  rfl

/-- What a slot leaves when it takes the agent in focus. -/
theorem take_of {s : State} (hs : s.ag.isSys = false) (lane : Bool) :
    let others := ((s.candidates s.ag.die s.ag.core s.ag.part lane).filter fun b => b.id != s.ag.id).map fun b => b.id
    let key := rotationKey s.ag.die s.ag.core s.ag.part lane (s.issueClass lane s.ag)
    s.take lane = { s with
      ag := s.ag.setWaited lane 0
      rest := s.rest.map fun b =>
        if b.id = s.ag.id then b.setWaited lane 0
        else if others.contains b.id then b.setWaited lane (max (b.waited lane) (min 4096 (b.waited lane + 1)))
        else b
      filled := slotKey s.ag.die s.ag.core s.ag.part lane :: s.filled
      lastIssued := (key, s.ag.age) :: s.lastIssued.filter fun e => e.1 != key } := by
  intro others key
  have hmine : (if s.ag.id = s.ag.id then s.ag.setWaited lane 0
      else if others.contains s.ag.id then s.ag.setWaited lane (max (s.ag.waited lane) (min 4096 (s.ag.waited lane + 1)))
      else s.ag) = s.ag.setWaited lane 0 := if_pos rfl
  unfold State.take State.updAll
  rw [if_neg (by simp [hs])]
  dsimp only
  rw [hmine]

/-- It changes what the agent in focus has waited, and nothing else of it. -/
theorem take_ag (s : State) (lane : Bool) : ∃ w v, (s.take lane).ag = { s.ag with
    waitLane := w
    waitScalar := v } := by
  cases hs : s.ag.isSys with
  | true => exact ⟨_, _, congrArg State.ag (if_pos hs)⟩
  | false =>
    rw [take_of hs]
    cases lane <;> exact ⟨_, _, rfl⟩

theorem holdObj_ag (s : State) (pa : Nat) : (s.holdObj pa).ag = s.ag := by
  unfold State.holdObj
  split <;> rfl

theorem nextInst_ag (s : State) (pa r : Nat) : (s.nextInst pa r).1.ag = s.ag := by
  show (s.freshGroup pa).ag = s.ag
  unfold State.freshGroup
  split
  · rfl
  · exact holdObj_ag s pa

/-- A `wtok` whose token is there issues in the scalar slot of its group. -/
theorem wtokComplete_issues {s : State} {a : Agent} {n thr : Nat} (h : s.agent? a.id = some a)
    (ht : (s.focusOn a.id).hasTurn false a = true) (hw : a.wait = .token n thr) (hm : a.mayGoOn = true) :
    exec (.wtokComplete a.id) s = .next (((s.focusOn a.id).take false).goOn.focusOn s.ag.id) := by
  have hexec : exec (.wtokComplete a.id) s = .next (s.onAgent a.id _) := rfl
  rw [onAgent_eq h, focusOn_ag h, hw] at hexec
  dsimp only at hexec
  rw [hm, ht] at hexec
  exact hexec

/-- So does an instruction in a queue block that has what it waits for. -/
theorem queueBlockEnd_issues {s : State} {a : Agent} (h : s.agent? a.id = some a)
    (ht : (s.focusOn a.id).hasTurn false a = true) (hw : (∃ coll c, a.wait = .qpush coll c) ∨ ∃ r, a.wait = .qpop r)
    (hm : a.mayGoOn = true) :
    exec (.queueBlockEnd a.id) s = .next (((s.focusOn a.id).take false).goOn.focusOn s.ag.id) := by
  have hexec : exec (.queueBlockEnd a.id) s = .next (s.onAgent a.id _) := rfl
  rw [onAgent_eq h, focusOn_ag h] at hexec
  rcases hw with ⟨coll, c, hw⟩ | ⟨r, hw⟩
  all_goals
    rw [hw] at hexec
    dsimp only at hexec
    rw [hm, ht] at hexec
    exact hexec

theorem pushed_copy (a : Agent) (c : Command) : a.waitOver.pushCmd false c = { waitEnded a with
    qcopy := a.qcopy ++ [{ c with num := a.ncopy }]
    ncopy := (a.ncopy + 1) % 2 ^ 16 } := rfl

theorem pushed_coll (a : Agent) (c : Command) : a.waitOver.pushCmd true c = { waitEnded a with
    qcoll := a.qcoll ++ [{ c with num := a.ncoll }]
    ncoll := (a.ncoll + 1) % 2 ^ 16 } := rfl

/-- An agent's delay of one stream ends at its clk. -/
theorem dlyExpiry_at {s : State} {a : Agent} (h : s.agent? a.id = some a) (lane : Bool) :
    ∃ t, exec (.dlyExpiry a.id lane) s = .next t ∧ Replaced s t a.id
      (if lane then (if a.dlyLane ≤ s.clk then { a with dlyLane := 0 } else a)
        else if a.dlyScalar ≤ s.clk then { a with dlyScalar := 0 } else a) := by
  refine updated h rfl rfl fun x => ?_
  cases lane with
  | true =>
    show (if x.dlyLane ≤ s.clk then { x with dlyLane := 0 } else x).id = x.id
    split <;> rfl
  | false =>
    show (if x.dlyScalar ≤ s.clk then { x with dlyScalar := 0 } else x).id = x.id
    split <;> rfl

/-- Settles O34: a wait whose condition holds issues in its slot, a delay ends at its clk. -/
theorem queueAndDelay : Obligations.QueueAndDelay := by
  unfold Obligations.QueueAndDelay
  intro s a h
  refine ⟨fun hturn => ?_, fun lane => ?_⟩
  · obtain ⟨w, v, hu⟩ := take_ag (s.focusOn a.id) false
    rw [focusOn_ag h] at hu
    intro u
    change u.ag = _ at hu
    have hwait : u.ag.wait = a.wait := by rw [hu]
    have htoken {n thr : Nat} (hw : a.wait = .token n thr) (hm : a.mayGoOn = true) :
        exec (.wtokComplete a.id) s = .next (u.goOn.focusOn s.ag.id) := wtokComplete_issues h hturn hw hm
    have hqueued (hw : (∃ coll c, a.wait = .qpush coll c) ∨ ∃ r, a.wait = .qpop r) (hm : a.mayGoOn = true) :
        exec (.queueBlockEnd a.id) s = .next (u.goOn.focusOn s.ag.id) := queueBlockEnd_issues h hturn hw hm
    clear_value u
    refine ⟨fun n thr hw hr => ?_, fun c hw hroom => ?_, fun c hw hroom => ?_, fun r e rest hw hq hd => ?_⟩
    · rw [htoken hw (by unfold Agent.mayGoOn; rw [hw]; exact reached_met hr)]
      rw [← after_eq]
      unfold State.goOn
      rw [hwait, hw]
      rfl
    · have hfull : a.queueFull false = false := by simpa [Agent.queueFull] using hroom
      rw [hqueued (.inl ⟨_, _, hw⟩) (by unfold Agent.mayGoOn; rw [hw]; simp [hfull])]
      unfold State.goOn
      rw [hwait, hw]
      dsimp only
      have hqueue : u.ag.qcopy = a.qcopy := by rw [hu]
      have hnum : u.ag.ncopy = a.ncopy := by rw [hu]
      rw [push_copy (by rw [hu]; exact hfull), pushed_copy, hqueue, hnum]
    · have hfull : a.queueFull true = false := by simpa [Agent.queueFull] using hroom
      rw [hqueued (.inl ⟨_, _, hw⟩) (by unfold Agent.mayGoOn; rw [hw]; simp [hfull])]
      unfold State.goOn
      rw [hwait, hw]
      dsimp only
      have hqueue : (u.nextInst c.obj c.rank).1.ag.qcoll = a.qcoll := by rw [nextInst_ag, hu]
      have hnum : (u.nextInst c.obj c.rank).1.ag.ncoll = a.ncoll := by rw [nextInst_ag, hu]
      rw [push_coll (by rw [hu]; exact hfull), pushed_coll, hqueue, hnum]
    · obtain ⟨rows, hrows⟩ := Option.ne_none_iff_exists'.mp hd
      rw [hqueued (.inr ⟨_, hw⟩) (by unfold Agent.mayGoOn; rw [hw, hq]; simp [hrows])]
      have hqmat : u.ag.qmat = e :: rest := by rw [hu]; exact hq
      rw [← after_eq]
      unfold State.goOn
      rw [hwait, hw]
      dsimp only
      rw [hqmat]
      rfl
  · obtain ⟨t, ht, hrep⟩ := dlyExpiry_at h lane
    cases lane with
    | true =>
      exact ⟨fun hd => ⟨t, ht, (congrArg (Replaced s t a.id) (if_pos hd)).mp hrep⟩,
        fun hd => ⟨t, ht, (congrArg (Replaced s t a.id) (if_neg (Nat.not_le.mpr hd))).mp hrep⟩⟩
    | false =>
      exact ⟨fun hd => ⟨t, ht, (congrArg (Replaced s t a.id) (if_pos hd)).mp hrep⟩,
        fun hd => ⟨t, ht, (congrArg (Replaced s t a.id) (if_neg (Nat.not_le.mpr hd))).mp hrep⟩⟩

/-! ### Traps that an event brings -/

/-- Settles O35: each event finds its trap due and takes it. -/
theorem trapEvents : Obligations.TrapEvents := by
  unfold Obligations.TrapEvents
  intro s a i u x h he
  have hfoc := focusOn_here h
  generalize (s.focusOn a.id).rest = r at hfoc
  cases he with
  | interrupt hc hs hm hp hh hn hd hf =>
    have hdue : a.due = .interrupt := by
      rw [clear_outside hc hn]
      have hpend : (a.isSys && a.mode == 0 && a.ipend != 0) = true := by
        rw [hs, hm, bne_iff_ne.mpr hp]
        rfl
      unfold Agent.dueOutside
      rw [hh, hd, hf]
      exact if_pos hpend
    have hexec := dueFor_takes (p := fun d => d == .interrupt) h (by rw [hdue]; rfl)
    rw [hdue] at hexec
    rw [hfoc] at hexec ⊢
    exact hexec
  | step lane n hc hn hw ho =>
    have hdue : a.due = .stepped := by
      refine clear_due hc _ ?_
      rw [hn]
      have houtst : (a.outst.all fun o => o.num < n) = true := by simpa using ho
      exact if_pos (by cases lane <;> simp [Agent.stepDone, hw, houtst])
    have hexec := dueFor_takes (p := fun d => d == .stepped) h (by rw [hdue]; rfl)
    rw [hdue] at hexec
    rw [hfoc] at hexec ⊢
    exact hexec
  | fault t tk r hc hh hn hd hf =>
    have hdue : a.due = .fault x tk r := by
      rw [clear_outside hc hn]
      unfold Agent.dueOutside
      simp [hh, hd, hf]
    have hexec := dueFor_takes (p := fun d => match d with
      | .fault _ _ _ => true
      | _ => false) h (by rw [hdue])
    rw [hdue] at hexec
    rw [hfoc] at hexec ⊢
    exact hexec

/-! ### The choice of who issues -/

/-- The steps of one slot: none once it is filled, else those of the group chosen. -/
theorem slotSteps_takes (s : State) (die core part : Nat) (lane : Bool) : ∃ l : Option Agent,
    s.slotSteps die core part lane = (match l with
      | some a => [.focus a.id, .issue lane]
      | none => [])
    ∧ (∀ a, l = some a → ¬ Filled s die core part lane ∧ Takes s die core part lane a)
    ∧ (l = none ↔ Filled s die core part lane ∨ s.candidates die core part lane = []) := by
  obtain ⟨htakes, hnone⟩ := choose_takes (s := s) (die := die) (core := core) (part := part) (lane := lane)
  unfold State.slotSteps Filled
  by_cases hf : slotKey die core part lane ∈ s.filled
  · rw [if_pos (List.contains_iff_mem.mpr hf)]
    exact ⟨none, rfl, fun a ha => absurd ha (by simp), by simp [hf]⟩
  · rw [if_neg (mt List.contains_iff_mem.mp hf)]
    cases hc : s.choose die core part lane with
    | none => exact ⟨none, rfl, fun a ha => absurd ha (by simp), by simp [hnone.mp hc]⟩
    | some x =>
      refine ⟨some x.1, rfl, fun a ha => ?_, ?_⟩
      · cases ha
        exact ⟨hf, htakes _ x.2 hc⟩
      · simp [hf, ← hnone, hc]

/-- What is kept under other keys than `key` stays when `key` is dropped. -/
theorem find_keyed {α : Type} (l : List (Nat × α)) {k key : Nat} (hk : k ≠ key) :
    ((l.filter fun e => e.1 != key).find? fun e => e.1 == k) = l.find? fun e => e.1 == k := by
  rw [List.find?_filter]
  congr 1
  funext e
  by_cases he : e.1 = k
  · simp [he, hk]
  · simp [he]

/-- Settles O39: each slot chooses by class, pause and turn; a slot that takes its group is filled, and the others wait on. -/
theorem issueChoice : Obligations.IssueChoice := by
  unfold Obligations.IssueChoice
  refine ⟨fun s die core part => ?_, fun s lane hs => ?_⟩
  · obtain ⟨l, hl, hlt, hln⟩ := slotSteps_takes s die core part true
    obtain ⟨c, hc, hct, hcn⟩ := slotSteps_takes s die core part false
    refine ⟨l, c, ?_, hlt, hct, hln, hcn⟩
    show Host.Outcome.next _ = _
    rw [hl, hc]
    cases l <;> cases c <;> rfl
  · intro v key
    have hv : v = _ := take_of hs lane
    clear_value v
    subst hv
    refine ⟨rfl, List.find?_cons_of_pos (beq_self_eq_true key), fun k hk => ?_, ?_⟩
    · dsimp only
      rw [List.find?_cons_of_neg (by simpa using Ne.symm hk)]
      exact find_keyed _ hk
    · dsimp only
      rw [List.forall₂_map_right_iff, List.forall₂_same]
      intro b _ hb
      rw [if_neg hb]
      have hothers : (((s.candidates s.ag.die s.ag.core s.ag.part lane).filter fun x => x.id != s.ag.id).map
          fun x => x.id).contains b.id = true ↔ ∃ x ∈ s.candidates s.ag.die s.ag.core s.ag.part lane, x.id = b.id := by
        simp only [List.contains_iff_mem, List.mem_map, List.mem_filter, bne_iff_ne]
        exact ⟨fun ⟨x, ⟨hx, _⟩, he⟩ => ⟨x, hx, he⟩, fun ⟨x, hx, he⟩ => ⟨x, ⟨hx, he ▸ hb⟩, he⟩⟩
      by_cases hwaits : ∃ x ∈ s.candidates s.ag.die s.ag.core s.ag.part lane, x.id = b.id
      · rw [if_pos (hothers.mpr hwaits)]
        exact .inl ⟨hwaits, rfl⟩
      · rw [if_neg (mt hothers.mp hwaits)]
        exact .inr ⟨fun x hx he => hwaits ⟨x, hx, he⟩, rfl⟩

end Sys2Proof.Proofs.AgentEvents
end

section
/-!
SUPPORT. The ends of operations (03 R74, R75; 09 R214 to R221), accesses that are performed (08 R175 to R177; 10 R230 to R243) and
capabilities that come back from a peer (24 R434): what each leaves; and the statements about them.
-/

namespace Sys2Proof.Proofs.Completions

open Machine Claims Laws

/-! ### The event that ends an operation -/

/-- Such an event is the completion of the operation. -/
theorem exec_completes {s : State} {a : Agent} {o : Op} {i : Instr} (hc : Completes a o i) :
    exec i s = .next (s.complete a.id o.num o.lane false) := by
  cases hc with
  | lane h => rw [h]; rfl
  | scalar h => rw [h]; rfl

theorem landed_files (n : Nat) (ws : List (Loc × Word)) (a : Agent) :
    ws.foldl (landStep n) a = withFiles a (ws.foldl (landStep n) a) := by
  induction ws generalizing a with
  | nil => rfl
  | cons w ws ih => exact withFiles_trans (landStep_files n a w) (ih _)

/-- What ends an operation leaves who the agent is, whether it runs, and a redirect. -/
theorem finishOp_keeps (a : Agent) (k : Nat) (ws : List (Loc × Word)) :
    (a.finishOp k ws).id = a.id ∧ (a.finishOp k ws).alive = a.alive ∧ (a.finishOp k ws).redirect = a.redirect := by
  unfold Agent.finishOp
  split
  · exact ⟨rfl, rfl, rfl⟩
  · rename_i o _
    obtain ⟨g, hg⟩ := land_eq { a with outst := a.outst.filter fun x => x.num != k } k o.tk o.lane o.dead ws
    rw [hg, post_same, landed_files]
    exact ⟨rfl, rfl, rfl⟩

theorem finishOp_id (a : Agent) (k : Nat) (ws : List (Loc × Word)) : (a.finishOp k ws).id = a.id := (finishOp_keeps a k ws).1

theorem redirect_none (a b : Agent) (h : b.redirect = a.redirect) :
    { b with redirect := if a.alive && (none : Option Cap).isSome then none else a.redirect } = b := by
  rw [if_neg (by simp), ← h]

theorem redirect_some (a b : Agent) (h : b.alive = a.alive ∧ b.redirect = a.redirect) (c : Cap) :
    { b with redirect := if a.alive && (some c).isSome then some c else a.redirect }
      = { b with redirect := if b.alive then some c else b.redirect } := by
  rw [Option.isSome_some, Bool.and_true, h.1, h.2]

/-- The masks once lanes have left: em and lm hold none of them (09 R219, R221). -/
theorem finishOp_masks {a : Agent} {o : Op} (ho : a.op? o.num = some o) (m : BitVec 32) (hem : .em ∉ o.dead)
    (hlm : .lm ∉ o.dead) :
    (a.finishOp o.num (a.maskWrites m)).em = a.em &&& ~~~m &&& a.lm
      ∧ (a.finishOp o.num (a.maskWrites m)).lm = a.lm &&& ~~~m := by
  unfold Agent.finishOp
  rw [ho]
  dsimp only
  obtain ⟨g, hg⟩ := land_eq { a with outst := a.outst.filter fun x => x.num != o.num } o.num o.tk o.lane o.dead (a.maskWrites m)
  have hlive : (a.maskWrites m).filter (fun w => !o.dead.contains w.1) = a.maskWrites m := by
    unfold Agent.maskWrites
    simp [hem, hlm]
  rw [hg, hlive, post_same]
  refine ⟨?_, ?_⟩
  · show (a.em &&& ~~~m) &&& a.lm &&& (a.lm &&& ~~~m) = _
    ext i hi
    simp only [BitVec.getElem_and]
    grind
  · show a.lm &&& ~~~m &&& a.lm = _
    ext i hi
    simp only [BitVec.getElem_and]
    grind

/-- Operation `o` ends with results that are known. -/
theorem complete_known {s : State} {a : Agent} {o : Op} {ws : List (Loc × Word)} (h : s.agent? a.id = some a)
    (ho : a.op? o.num = some o) (hk : Known a o.kind ws) :
    Replaced s (s.complete a.id o.num o.lane false) a.id (a.finishOp o.num ws) := by
  unfold State.complete
  rw [h]
  dsimp only
  rw [ho]
  dsimp only
  rw [bne_self_eq_false, if_neg (by decide)]
  generalize o.kind = k at hk
  cases hk with
  | regs ws => exact updAgent_replaced h rfl fun x => finishOp_id x _ _
  | post => exact updAgent_replaced h rfl fun x => finishOp_id x _ _
  | lend m => exact updAgent_replaced h rfl fun x => finishOp_id x _ _
  | lbrx m =>
    exact updAgent_replaced h (redirect_none a _ (finishOp_keeps a o.num _).2.2) fun x => finishOp_id x _ _

/-- The change of the masks after `lbrx`, with the winner the agent goes on at. -/
theorem complete_lbrx {s : State} {a : Agent} {o : Op} {m : BitVec 32} {c : Cap} (h : s.agent? a.id = some a)
    (ho : a.op? o.num = some o) (hk : o.kind = .lbrx m (some c)) :
    let b := a.finishOp o.num (a.maskWrites m)
    Replaced s (s.complete a.id o.num o.lane false) a.id { b with redirect := if b.alive then some c else b.redirect } := by
  unfold State.complete
  rw [h]
  dsimp only
  rw [ho]
  dsimp only
  rw [bne_self_eq_false, if_neg (by decide), hk]
  exact updAgent_replaced h (redirect_some a _ (finishOp_keeps a o.num _).2 c) fun x => finishOp_id x _ _

/-- A change of the subscriptions: first the table, then the end of the operation. -/
theorem complete_subs {s t : State} {a : Agent} {o : Op} {die asid base len stride rows : Nat} {install upd : Bool} {fmt : Ty}
    (h : s.agent? a.id = some a) (ho : a.op? o.num = some o)
    (hk : o.kind = .subs die asid install fmt upd base len stride rows) (ht : s.changeSubs o.kind = t)
    (hthere : t.agent? a.id = some a) :
    Replaced t (s.complete a.id o.num o.lane false) a.id (a.finishOp o.num []) := by
  unfold State.complete
  rw [h]
  dsimp only
  rw [ho]
  dsimp only
  rw [bne_self_eq_false, if_neg (by decide), ht, hk]
  exact updAgent_replaced hthere rfl fun x => finishOp_id x _ _

/-- A full table drops its oldest entry. -/
theorem kept_subs (mine : List SubEntry) : (if 64 ≤ mine.length then mine.take 63 else mine) = mine.take 63 := by
  split
  · rfl
  · exact (List.take_of_length_le (by omega)).symm

/-! The filters of the model are those of the statement. -/

theorem others_filter (l : List SubEntry) (die : Nat) :
    (l.filter fun x => x.die != die) = l.filter fun x => x.die ≠ die :=
  List.filter_congr fun x _ => by rw [Bool.eq_iff_iff]; simp

theorem unmet_filter (l : List SubEntry) (die asid base len stride rows : Nat) :
    (l.filter fun x => !(x.die == die && x.asid == asid && x.meets base len stride rows))
      = l.filter fun x => ¬ (x.die = die ∧ x.asid = asid ∧ x.meets base len stride rows = true) :=
  List.filter_congr fun x _ => by rw [Bool.eq_iff_iff]; simp [or_assoc]

theorem unsubscribed_filter (l : List RdcLine) (die : Nat) :
    (l.filter fun r => !(r.die == die && r.st == .sub)) = l.filter fun r => ¬ (r.die = die ∧ r.st = .sub) :=
  List.filter_congr fun x _ => by rw [Bool.eq_iff_iff]; simp

theorem masks_placed (a : Agent) (m : BitVec 32) : ∀ w ∈ a.maskWrites m, Placed w.1 := by
  simp [Agent.maskWrites, Placed]

/-- Settles O36: the event completes the operation, which lands. -/
theorem operationLands : Obligations.OperationLands := by
  unfold Obligations.OperationLands
  intro s a o i h ho hc
  rw [exec_completes hc]
  refine ⟨fun ws hk hp => ?_, fun m hk hem hlm => ?_, fun m c hk => ?_, fun die asid fmt upd base len stride rows hk => ?_,
    fun die asid fmt upd base len stride rows hk => ?_⟩
  · exact ⟨_, _, rfl, complete_known h ho hk, finishOp_lands a o ws ho hp⟩
  · have hknown : Known a o.kind (a.maskWrites m) := by
      rcases hk with hk | hk
      · rw [hk]
        exact .lend m
      · rw [hk]
        exact .lbrx m
    exact ⟨_, _, rfl, complete_known h ho hknown, finishOp_masks ho m hem hlm⟩
  · exact ⟨_, _, rfl, complete_lbrx h ho hk, finishOp_lands a o _ ho (masks_placed a m)⟩
  · intro mine
    refine ⟨_, _, rfl, complete_subs h ho hk ?_ h, finishOp_lands a o [] ho (by simp)⟩
    rw [hk]
    show s.installSub ⟨die, asid, base, len, stride, rows, fmt, upd⟩ = _
    unfold State.installSub
    dsimp only
    rw [kept_subs, others_filter]
    rfl
  · refine ⟨_, _, rfl, complete_subs h ho hk ?_ h, finishOp_lands a o [] ho (by simp)⟩
    rw [hk]
    show s.removeSubs die asid base len stride rows = _
    unfold State.removeSubs
    rw [unmet_filter, unsubscribed_filter]

/-! ### What comes back from a peer (24 R434) -/

/-- A cursor move of a capability, tagged or not. -/
theorem setAddr_eq (c : Cap) (x : Nat) :
    c.setAddr x = { newCursor c (x % 2 ^ 64) with tag := c.tag && (newCursor c (x % 2 ^ 64)).tag } := by
  have htagged := newCursor_eq (c := { c with tag := true }) rfl (x % 2 ^ 64) (Nat.mod_lt _ (by decide))
  have hcursor : newCursor { c with tag := true } (x % 2 ^ 64) = newCursor c (x % 2 ^ 64) := rfl
  rw [hcursor] at htagged
  rw [← htagged]
  unfold Cap.setAddr
  dsimp only
  rw [Nat.mod_mod, Bool.true_and]
  rfl

theorem comesBack_returned {s : State} {k : Nat} {r : Cap} (hid : s.fabric.pkgid < 2 ^ 11)
    (h : ComesBack s (s.backFromPeer k) r) : s.returned (s.backFromPeer k) = r := by
  obtain ⟨hexport, hmine⟩ := back_export s k hid
  unfold State.returned
  rw [hexport, hmine, if_neg (by simp [State.backFromPeer])]
  dsimp only
  cases h with
  | original h0 hk hv hg =>
    rw [if_pos, setAddr_eq]
    · rfl
    · simp only [Bool.and_eq_true, decide_eq_true_eq]
      exact ⟨⟨⟨h0, hk⟩, hv⟩, hg⟩
  | stale h =>
    rw [if_neg]
    intro hc
    simp only [Bool.and_eq_true, decide_eq_true_eq] at hc
    obtain ⟨⟨⟨h0, hk⟩, hv⟩, hg⟩ := hc
    exact h ⟨h0, hk, hv, hg⟩

/-- A loaded capability reaches places that there are. -/
theorem capWrites_placed {q : Nat} (hq : q < 40) (c : Cap) : ∀ w ∈ capWrites q c, Placed w.1 := by
  intro w hw
  obtain ⟨k, _, h⟩ | ⟨h, _⟩ := cap_places hw
  · rw [h]
    trivial
  · rw [h]
    exact hq

theorem not_dram_of_peer {p : Nat} (h : isPeer p = true) : isDram p = false := by
  by_contra hd
  have := (not_window (Bool.eq_true_of_not_eq_false hd)).2
  simp [h] at this

theorem not_window_of_peer {p : Nat} (h : isPeer p = true) : isWindow p = false := by
  unfold isPeer at h
  unfold isWindow
  simp only [Bool.and_eq_true, decide_eq_true_eq] at h
  simp
  omega

/-- The state once what a release publishes first is published. -/
def releasedFirst (s : State) (a : Agent) (o : Op) : State :=
  let v := if Ord.releases o.ord then s.publishFor a o.scope else s
  if Ord.releases o.ord && o.scope == .sys then v.peerRelease a.seat.die else v

/-- An access that no order holds back, that no agent has seen yet and that does not stay in an L1, is attempted. -/
theorem attempt_goes {s v : State} {a : Agent} {o : Op} (back : Bool) (hgo : s.mayGo a o = true) (hv : releasedFirst s a o = v)
    (hr : v.opReached a o o.scope = false) (hn : v.staysNarrow a o = false) :
    s.attempt a o back =
      let r := if o.rw.2 then v.attemptWrite a o back else v.attemptRead a o back
      (if r.2.isSome then r.1.peerAfter a o else r.1, r.2) := by
  subst hv
  unfold State.attempt
  rw [hgo, if_neg (by decide)]
  change (if (releasedFirst s a o).opReached a o o.scope then _ else if (releasedFirst s a o).staysNarrow a o then _ else _) = _
  rw [hr, hn, if_neg (by decide), if_neg (by decide)]
  rfl

theorem opReached_none {s : State} {a : Agent} {o : Op} (h : s.earlyOf a.id o.num = []) (c : Scope) : s.opReached a o c = false := by
  unfold State.opReached
  rw [h]
  rfl

/-- A system core has no L1. -/
theorem staysNarrow_sys {a : Agent} (h : a.isSys = true) (s : State) (o : Op) : s.staysNarrow a o = false := by
  unfold State.staysNarrow Agent.hasL1
  rw [h]
  rfl

theorem fillL1_sys {a : Agent} (h : a.isSys = true) (s : State) (owner pa : Nat) : s.fillL1 a owner pa = s := by
  unfold State.fillL1 Agent.hasL1
  rw [h]
  rfl

theorem seat_sys {a : Agent} (h : a.isSys = true) : a.seat.die = 4 := by
  unfold Agent.seat
  simp [h]

theorem eachLane_one (f : State → Acc → Performed) (s : State) (x : Acc) : eachLane f s [x] = f s x := rfl

/-- A load of a capability from a peer window that brings back what this package has exported. -/
theorem loadCapLane_back {s : State} {a : Agent} {x : Acc} {p q : Nat} {r : Cap} (hs : a.isSys = true) (hp : x.place = .pa p)
    (hpeer : isPeer p = true) (hcap : s.peerCap a.seat.die p = none) (hr : s.returned (s.backFromPeer x.lane) = r) :
    s.loadCapLane a (.creg q) true x
      = (s, capWrites q { s.loadJudge r with tag := (s.loadJudge r).tag && x.ltag }) := by
  have hnote : s.noteKey x.owner p = s := by
    unfold State.noteKey
    rw [not_dram_of_peer hpeer]
    rfl
  unfold State.loadCapLane
  rw [hp]
  dsimp only
  rw [not_window_of_peer hpeer, if_neg (by decide), hpeer, if_pos rfl, hcap, hr, hnote, fillL1_sys hs]
  rfl

/-- Settles O38: the load is performed with what comes back, and lands. -/
theorem exportReturns : Obligations.ExportReturns := by
  unfold Obligations.ExportReturns
  intro s a o x p q r h hs ho hk hq hp hpeer hgo hord hearly hcap hid hback
  have hattempt : s.attempt a o true = (s, some (capWrites q { s.loadJudge r with tag := (s.loadJudge r).tag && x.ltag })) := by
    rw [attempt_goes (v := s) true hgo (by unfold releasedFirst; rw [hord]; rfl) (opReached_none hearly _) (staysNarrow_sys hs s o)]
    have hread : s.attemptRead a o true = (s, some (capWrites q { s.loadJudge r with tag := (s.loadJudge r).tag && x.ltag })) := by
      have hlines : o.lines = [] := by
        unfold Op.lines Op.spans
        rw [hk]
        dsimp only
        cases hx : x.here <;> simp [hx, hp, not_dram_of_peer hpeer]
      have hperf : s.performAccs a o true = (s, capWrites q { s.loadJudge r with tag := (s.loadJudge r).tag && x.ltag }) := by
        unfold State.performAccs
        rw [hk]
        dsimp only
        rw [eachLane_one, loadCapLane_back hs hp hpeer (by rw [seat_sys hs]; exact hcap) (comesBack_returned hid hback)]
      unfold State.attemptRead
      rw [hlines, List.all_nil, if_pos rfl, hperf]
    rw [show o.rw.2 = false by unfold Op.rw; rw [hk]; rfl, if_neg (by decide), hread]
    unfold State.peerAfter
    rw [hord]
    rfl
  have hcomplete : s.complete a.id o.num o.lane true
      = s.updAgent a.id fun b => b.finishOp o.num (capWrites q { s.loadJudge r with tag := (s.loadJudge r).tag && x.ltag }) := by
    unfold State.complete
    rw [h]
    dsimp only
    rw [ho]
    dsimp only
    rw [bne_self_eq_false, if_neg (by decide), hk]
    dsimp only
    rw [hattempt]
  have hexec : exec (.exportReturn a.id o.num) s = .next (s.complete a.id o.num o.lane true) := by
    show execExportReturn a.id o.num s = _
    unfold execExportReturn
    rw [h]
    dsimp only
    rw [ho]
    dsimp only
    rw [hk]
    exact if_pos (by simp [hp, hpeer])
  rw [hexec, hcomplete]
  exact ⟨_, _, rfl, updAgent_replaced h rfl fun b => finishOp_id b _ _, finishOp_lands a o _ ho (capWrites_placed hq _)⟩

end Sys2Proof.Proofs.Completions
end

section
/-!
SUPPORT. One access performed (08 R175 to R177; 10 R230 to R243; 23 R411, R417): what of the state it may change, that nothing holds
back a lone access, what it reads and writes; and the statement about it.
-/

namespace Sys2Proof.Proofs.Performing

open Machine Claims Laws Proofs.Completions

/-! ### What performing may change -/

/-- From `s` to `t` agent `id` has become `b`; besides, only memory, tags, the sweeper's frames, the caches and team memory may differ. -/
structure Reached (s t : State) (id : Nat) (b : Agent) : Prop where
  frame : t = { s with
    ag := t.ag
    rest := t.rest
    mem := t.mem
    tags := t.tags
    sweep := { s.sweep with frames := t.sweep.frames }
    coh := t.coh
    teams := t.teams }
  here : t.agent? id = some b
  others : ∀ k, k ≠ id → t.agent? k = s.agent? k

theorem Reached.start {s : State} {id : Nat} {a : Agent} (h : s.agent? id = some a) : Reached s s id a := ⟨rfl, h, fun _ _ => rfl⟩

/-- A further change of the agent. -/
theorem Reached.upd {s t : State} {id : Nat} {b : Agent} (h : Reached s t id b) (f : Agent → Agent) (hid : ∀ x, (f x).id = x.id) :
    Reached s (t.updAgent id f) id (f b) := by
  obtain ⟨hframe, hhere, hothers⟩ := h
  obtain ⟨hu, huhere, huothers⟩ := updAgent_replaced (f := f) hhere rfl hid
  refine ⟨?_, huhere, fun k hk => (huothers k hk).trans (hothers k hk)⟩
  rw [hu]
  exact congrArg (fun z : State => { z with
    ag := (t.updAgent id f).ag
    rest := (t.updAgent id f).rest }) hframe

/-- A further change of what is no agent's. -/
theorem Reached.put {s t : State} {id : Nat} {b : Agent} (h : Reached s t id b) (m : List Host.Cell) (tags : List Nat)
    (frames : List Nat) (c : Coherence) (ts : List Team) :
    Reached s { t with
      mem := m
      tags := tags
      sweep := { t.sweep with frames := frames }
      coh := c
      teams := ts } id b := by
  obtain ⟨hframe, hhere, hothers⟩ := h
  exact ⟨congrArg (fun z : State => { z with
    mem := m
    tags := tags
    sweep := { z.sweep with frames := frames }
    coh := c
    teams := ts }) hframe, hhere, hothers⟩

theorem Reached.coh {s t : State} {id : Nat} {b : Agent} (h : Reached s t id b) (c : Coherence) :
    Reached s { t with coh := c } id b := h.put t.mem t.tags t.sweep.frames c t.teams

/-- What differs is memory alone, with its caches: the access has happened. -/
theorem Reached.happened {s t : State} {id p n : Nat} {b : Agent} {st : Option (Nat × Bool)} (h : Reached s t id b)
    (hteams : t.teams = s.teams) (hnone : st = none → Unstored s t) (hsome : ∀ v tag, st = some (v, tag) → Stored s t p n v tag) :
    Happened s t id b p n st := by
  obtain ⟨hframe, hhere, hothers⟩ := h
  refine ⟨⟨?_, hhere, hothers⟩, hnone, hsome⟩
  rw [hteams] at hframe
  exact hframe

/-- What differs is team memory alone, with the caches. -/
theorem Reached.quiet {s t : State} {id : Nat} {b : Agent} (h : Reached s t id b) (hm : t.mem = s.mem) (ht : t.tags = s.tags)
    (hf : t.sweep = s.sweep) : Replaced { s with
      coh := t.coh
      teams := t.teams } t id b := by
  obtain ⟨hframe, hhere, hothers⟩ := h
  refine ⟨?_, hhere, hothers⟩
  rw [hm, ht, hf] at hframe
  exact hframe

/-! ### What comes before an access -/

/-- The state with other lines of peers in the caches, and other notes of releases. -/
def recached (s : State) (ps : List PeerByte) (ns : List Note) : State :=
  { s with coh := { s.coh with
    peers := ps
    notes := ns } }

/-- What a release publishes first changes the caches alone, and leaves every early write that its core does not hold back. -/
theorem releasedFirst_coh (s : State) (a : Agent) (o : Op) (hn : a.isSys = true ∨ ∀ e ∈ s.coh.early, e.narrowOf a.die a.core = false) :
    ∃ ps ns, releasedFirst s a o = recached s ps ns := by
  have hpublish : ∃ ns, s.publishFor a o.scope = { s with coh := { s.coh with notes := ns } } := by
    unfold State.publishFor
    split
    · rename_i hwide
      rcases hn with hs | hn
      · simp [Agent.hasL1, hs] at hwide
      · have hnone : s.coh.early.filter (Early.narrowOf a.die a.core) = [] := by
          rw [List.filter_eq_nil_iff]
          intro e he
          simp [hn e he]
        have hall : s.coh.early.filter (fun e => !Early.narrowOf a.die a.core e) = s.coh.early := by
          rw [List.filter_eq_self]
          intro e he
          simp [hn e he]
        unfold State.publish State.drain
        rw [hnone, hall]
        exact ⟨_, rfl⟩
    · exact ⟨_, rfl⟩
  obtain ⟨ns, hns⟩ := hpublish
  unfold releasedFirst
  rw [hns]
  cases Ord.releases o.ord
  · exact ⟨_, _, rfl⟩
  · cases o.scope == Scope.sys
    · exact ⟨_, _, rfl⟩
    · exact ⟨_, _, rfl⟩

theorem peerAfter_coh (s : State) (a : Agent) (o : Op) : ∃ c, s.peerAfter a o = { s with coh := c } := by
  unfold State.peerAfter
  split
  · exact ⟨_, rfl⟩
  · exact ⟨_, rfl⟩

theorem earlyOf_none {s : State} {a : Agent} (h : ∀ e ∈ s.coh.early, e.seat.agent ≠ a.id ∧ e.sees a.seat = false) (k : Nat) :
    s.earlyOf a.id k = [] := by
  unfold State.earlyOf
  rw [List.filter_eq_nil_iff]
  intro e he
  simp [(h e he).1]

/-- No early write of the agent's own, and none that it sees, comes before an access. -/
theorem clearFor_none {s : State} {a : Agent} (h : ∀ e ∈ s.coh.early, e.seat.agent ≠ a.id ∧ e.sees a.seat = false) (o : Op) :
    s.clearFor a o = true := by
  unfold State.clearFor
  have hmine : s.coh.early.filter (fun e => !e.narrow && e.seat.agent == a.id && e.num == o.num) = [] := earlyOf_none h o.num
  dsimp only
  rw [List.all_eq_true]
  intro e he
  rw [hmine, (h e he).2]
  simp

theorem others_early {s : State} {a : Agent} (h : ∀ e ∈ s.coh.early, e.seat.agent ≠ a.id ∧ e.sees a.seat = false) (o : Op) :
    s.coh.early.filter (fun e => e.narrow || e.seat.agent != a.id || e.num != o.num) = s.coh.early := by
  rw [List.filter_eq_self]
  intro e he
  simp [(h e he).1]

/-! ### What comes after it -/

theorem wrote_coh (s : State) (d l : Nat) (t : Nat × Nat) : ∃ c, s.wrote d l t = { s with coh := c } := ⟨_, wrote_eq s d l t⟩

theorem wroteAll_coh (d : Nat) (t : Nat × Nat) (ls : List Nat) (s : State) :
    ∃ c, ls.foldl (fun s l => s.wrote d l t) s = { s with coh := c } := by
  induction ls generalizing s with
  | nil => exact ⟨_, rfl⟩
  | cons l ls ih =>
    obtain ⟨c, hc⟩ := wrote_coh s d l t
    obtain ⟨c', hc'⟩ := ih (s.wrote d l t)
    exact ⟨c', by rw [List.foldl_cons, hc', hc]⟩

theorem leaveNotes_coh (a : Agent) (xs : List (Place × Nat)) (s : State) :
    ∃ c, xs.foldl (fun s x => s.leaveNote a x) s = { s with coh := c } := by
  induction xs generalizing s with
  | nil => exact ⟨_, rfl⟩
  | cons x xs ih =>
    have hnote : ∃ c, s.leaveNote a x = { s with coh := c } := by
      unfold State.leaveNote
      dsimp only
      split <;> exact ⟨_, rfl⟩
    obtain ⟨c, hc⟩ := hnote
    obtain ⟨c', hc'⟩ := ih (s.leaveNote a x)
    exact ⟨c', by rw [List.foldl_cons, hc', hc]⟩

/-- A store counts for the watchdog (21 R399). -/
def counted (a : Agent) : Agent := { a with sinks := a.sinks + 1 }

/-- What performing leaves besides its own effect: the caches, and the count of the agent. -/
theorem afterPerform_write {s : State} {a : Agent} {o : Op} (hw : o.rw.2 = true) (hd : ∀ e ∈ s.eps, s.epDead e.pa = false) :
    ∃ c, s.afterPerform a o = ({ s with coh := c } : State).updAgent a.id counted := by
  obtain ⟨c, hc⟩ := wroteAll_coh a.cohDie (a.id, o.num) o.lines s
  obtain ⟨c', hc'⟩ : ∃ c', (if o.isRelease a then o.spans.foldl (fun s x => s.leaveNote a x) ({ s with coh := c } : State)
      else { s with coh := c }) = { s with coh := c' } := by
    split
    · exact leaveNotes_coh a o.spans _
    · exact ⟨_, rfl⟩
  refine ⟨c', ?_⟩
  unfold State.afterPerform
  rw [hw, if_neg (by decide)]
  dsimp only
  rw [hc, hc', sweepDead_none]
  · rfl
  · intro e he
    rw [eps_upd] at he
    show (State.readPhys _ e.pa 4).testBit 31 = false
    unfold State.readPhys
    rw [mem_upd]
    exact hd e he

/-! ### The agent of a write under way -/

/-- Operation `k` has reached its unit. -/
def marked (k : Nat) (a : Agent) : Agent :=
  { a with outst := a.outst.map fun x => if x.num = k then { x with sent := true } else x }

/-- The mark of one entry. -/
def markOf (k : Nat) (x : Op) : Op := if x.num = k then { x with sent := true } else x

theorem markOf_num (k : Nat) (x : Op) : (markOf k x).num = x.num := by
  unfold markOf
  split <;> rfl

theorem marked_op {a : Agent} {k : Nat} {o : Op} (h : a.op? k = some o) :
    (counted (marked k a)).op? k = some { o with sent := true } := by
  show (a.outst.map (markOf k)).find? (fun x => x.num == k) = _
  rw [List.find?_map, show ((fun x : Op => x.num == k) ∘ markOf k) = fun x => x.num == k from funext fun x => by
    simp [markOf_num], show a.outst.find? (fun x => x.num == k) = some o from h]
  exact congrArg some (if_pos (op_mem h).2)

theorem marked_others (l : List Op) (k : Nat) :
    (l.map (markOf k)).filter (fun x => x.num != k) = l.filter fun x => x.num != k := by
  rw [List.filter_map, show ((fun x : Op => x.num != k) ∘ markOf k) = fun x => x.num != k from funext fun x => by
    simp [markOf_num]]
  refine (List.map_congr_left fun x hx => ?_).trans (List.map_id _)
  exact if_neg (by simpa using (List.mem_filter.mp hx).2)

/-- The end of an operation takes no notice of the mark. -/
theorem marked_finish {a : Agent} {k : Nat} {o : Op} (h : a.op? k = some o) (ws : List (Loc × Word)) :
    (counted (marked k a)).finishOp k ws = (counted a).finishOp k ws := by
  unfold Agent.finishOp
  rw [marked_op h, show (counted a).op? k = some o from h]
  dsimp only
  rw [show (counted (marked k a)).outst = a.outst.map (markOf k) from rfl, marked_others]
  rfl

/-- What a write leaves of an agent when its operation ends: it lands on the agent as it was. -/
theorem write_lands {a : Agent} {o : Op} (ho : a.op? o.num = some o) {ws : List (Loc × Word)} (hp : ∀ w ∈ ws, Placed w.1) :
    Lands a ((counted (marked o.num a)).finishOp o.num ws) o ws := by
  rw [marked_finish ho]
  exact lands_sinks (c := counted a) rfl (finishOp_lands (counted a) o ws ho hp)

/-! ### An operation performed ahead of its completion -/

theorem landed_kept (n : Nat) (ws : List (Loc × Word)) (a : Agent) {x : Op} (hx : x ∈ a.outst) :
    ∃ y ∈ (ws.foldl (landStep n) a).outst, y.num = x.num ∧ y.tk = x.tk := by
  induction ws generalizing a x with
  | nil => exact ⟨x, hx, rfl, rfl⟩
  | cons w ws ih =>
    have hstep : ∃ y ∈ (landStep n a w).outst, y.num = x.num ∧ y.tk = x.tk := by
      show ∃ y ∈ (Agent.put _ w.1 w.2).outst, _
      rw [put_outst]
      show ∃ y ∈ (a.supersede n w.1).outst, _
      unfold Agent.supersede
      split
      · exact ⟨x, hx, rfl, rfl⟩
      · refine ⟨_, List.mem_map_of_mem hx, ?_⟩
        split <;> exact ⟨rfl, rfl⟩
    obtain ⟨y, hy, hnum, htk⟩ := hstep
    obtain ⟨z, hz, hznum, hztk⟩ := ih (landStep n a w) hy
    exact ⟨z, hz, hznum.trans hnum, hztk.trans htk⟩

theorem landed_tok (n : Nat) (ws : List (Loc × Word)) (a : Agent) (k : Nat) : (ws.foldl (landStep n) a).tok k = a.tok k := by
  rw [landed_files]
  rfl

/-- Its results are there; its entry waits for its token to be posted. -/
theorem performedOp_waits {a : Agent} {k : Nat} {o : Op} (h : a.op? k = some o) (ws : List (Loc × Word)) :
    (∀ n, (a.performedOp k ws).tok n = a.tok n)
      ∧ ∃ y ∈ (a.performedOp k ws).outst, y.num = k ∧ y.performed = true ∧ y.kind = .post ∧ y.tk = o.tk := by
  unfold Agent.performedOp
  rw [h]
  dsimp only
  obtain ⟨g, hg⟩ := land_eq a k o.tk o.lane o.dead ws
  rw [hg]
  refine ⟨fun n => landed_tok k _ a n, ?_⟩
  obtain ⟨hmem, hnum⟩ := op_mem h
  obtain ⟨y, hy, hynum, hytk⟩ := landed_kept k (ws.filter fun w => !o.dead.contains w.1) a hmem
  refine ⟨_, List.mem_map_of_mem hy, ?_⟩
  rw [if_pos (hynum.trans hnum)]
  exact ⟨hynum.trans hnum, rfl, rfl, hytk⟩

theorem performedOp_id (a : Agent) (k : Nat) (ws : List (Loc × Word)) : (a.performedOp k ws).id = a.id := by
  unfold Agent.performedOp
  split
  · rfl
  · rename_i o _
    obtain ⟨g, hg⟩ := land_eq a k o.tk o.lane o.dead ws
    rw [hg]
    rw [landed_files]
    rfl

/-! ### The line of a write -/

/-- The mark leaves which writes are still to be performed. -/
theorem txnOp_marked {s : State} {id : Nat} {a : Agent} (h : s.agent? id = some a) (k : Nat) (t : Nat × Nat) :
    ((s.updAgent id (marked k)).txnOp t).isNone = (s.txnOp t).isNone := by
  have hfind (b : Agent) (n : Nat) : ((marked k b).outst.find? fun o => o.num == n && !o.performed).isNone
      = (b.outst.find? fun o => o.num == n && !o.performed).isNone := by
    show ((b.outst.map (markOf k)).find? _).isNone = _
    rw [List.find?_map, Option.isNone_map]
    congr 2
    funext x
    show ((markOf k x).num == n && !(markOf k x).performed) = _
    unfold markOf
    split <;> rfl
  obtain ⟨_, hhere, hothers⟩ := updAgent_replaced (f := marked k) h rfl fun _ => rfl
  unfold State.txnOp
  by_cases ht : t.1 = id
  · rw [ht, hhere, h]
    show (Option.map _ _).isNone = (Option.map _ _).isNone
    rw [Option.isNone_map, Option.isNone_map]
    exact hfind a t.2
  · rw [hothers t.1 ht]

theorem coh_upd (s : State) (id : Nat) (f : Agent → Agent) : (s.updAgent id f).coh = s.coh := by
  unfold State.updAgent
  split <;> rfl

theorem entry_marked {s : State} {id : Nat} {a : Agent} (h : s.agent? id = some a) (k line : Nat) : (s.updAgent id (marked k)).entry line = s.entry line := by
  unfold State.entry State.dirAt
  rw [coh_upd]
  simp only [txnOp_marked h]

/-- A line that the agent may write is ready for it. -/
theorem writeReady_marked {s : State} {line id : Nat} {a : Agent} (ha : s.agent? id = some a) (h : MayWrite s line) (k : Nat) (s' : State) (t : Nat × Nat) :
    (s.updAgent id (marked k)).writeReady s' 4 line t = true := by
  unfold State.writeReady
  rw [entry_marked ha]
  unfold State.answerDue State.rdcAt
  rw [coh_upd]
  dsimp only
  split
  · rfl
  · rcases h with ⟨hhome, hst, hmem⟩ | ⟨hhome, hdue, r, hr, hrst, hwb⟩
    · rw [if_pos hhome, hst]
      unfold DirEntry.toTell
      rw [hmem]
      rfl
    · rw [if_neg hhome]
      unfold State.answerDue at hdue
      unfold State.rdcAt at hr
      rw [hdue, hr]
      rcases hrst with hrst | hrst <;> simp [hrst, hwb]

theorem teams_upd (s : State) (id : Nat) (f : Agent → Agent) : (s.updAgent id f).teams = s.teams := by
  unfold State.updAgent
  split <;> rfl

theorem sweep_upd (s : State) (id : Nat) (f : Agent → Agent) : (s.updAgent id f).sweep = s.sweep := by
  unfold State.updAgent
  split <;> rfl

theorem tags_upd (s : State) (id : Nat) (f : Agent → Agent) : (s.updAgent id f).tags = s.tags := by
  unfold State.updAgent
  split <;> rfl

theorem leaseDone_upd (s : State) (id : Nat) (f : Agent → Agent) (u line : Nat) :
    (s.updAgent id f).leaseDone u line = s.leaseDone u line := by
  unfold State.updAgent
  split <;> rfl

/-! ### One access of a system core to DRAM -/

/-- Access `x` of the system core `a` is to the `n` bytes at `p` of DRAM under the key its owner has in use; the core sees no
early write. -/
structure Open (w : State) (a : Agent) (x : Acc) (p n : Nat) : Prop where
  sys : a.isSys = true
  place : x.place = .pa p
  here : x.here = true
  dram : isDram p = true
  key : ∃ g, w.keyGen x.owner = some g ∧ ∀ i < n, sget 1 w.cipher ((p + i) / 128) = g
  clear : ∀ e ∈ w.coh.early, e.sees a.seat = false

section Access
variable {w : State} {a : Agent} {x : Acc} {p n : Nat}

theorem Open.noteKey (h : Open w a x p n) : w.noteKey x.owner p = w := by
  obtain ⟨g, hg, _⟩ := h.key
  unfold State.noteKey
  rw [hg]
  simp

theorem Open.number (h : Open w a x p n) : ofBytesLE (w.seeAs a x.owner p n) = numberAt w.mem p n := by
  obtain ⟨g, hg, hc⟩ := h.key
  exact numberAt_see h.clear hg hc

theorem Open.read (h : Open w a x p n) : w.accRead a false x n = (w, w.seeAs a x.owner p n) := by
  obtain ⟨hwin, hpeer⟩ := not_window h.dram
  unfold State.accRead
  rw [h.place]
  dsimp only
  rw [hwin, hpeer, h.noteKey, fillL1_sys h.sys]
  rfl

theorem Open.write (h : Open w a x p n) {bs : List Byte} (hn : bs.length = n) :
    w.accWrite a x bs = { w with
      mem := writeBytes w.mem p bs
      tags := clearTags w.tags p n } := by
  obtain ⟨hwin, hpeer⟩ := not_window h.dram
  obtain ⟨g, hg, hc⟩ := h.key
  unfold State.accWrite State.writeThrough Agent.hasL1
  rw [h.place]
  dsimp only
  rw [hwin, hpeer, h.noteKey, h.sys, putBytes_key hg (by rw [hn]; exact hc), hn]
  rfl

/-- An atomic reads memory itself. -/
theorem Open.atom (h : Open w a x p n) : ∃ bs, w.atomRead a x n = (w, bs) ∧ ofBytesLE bs = numberAt w.mem p n := by
  refine ⟨w.seeBytes x.owner p n, ?_, ?_⟩
  · unfold State.atomRead
    rw [h.place]
    dsimp only
    rw [h.dram, h.noteKey]
    rfl
  · have hnum := h.number
    unfold State.seeAs at hnum
    rwa [overlay_clear h.clear] at hnum

/-- What an access leaves in memory, its tags and the sweeper's frames. -/
def wrote (w : State) (m : List Host.Cell) (tags frames : List Nat) : State :=
  { w with
    mem := m
    tags := tags
    sweep := { w.sweep with frames := frames } }

theorem Open.performs_load (h : Open w a x p n) {ty : Ty} (hn : ty.bits / 8 = n) (d : Nat) :
    w.loadLane a ty (.sreg d) false x = (w, (MDest.sreg d).write ty x.lane (extendTo ty (numberAt w.mem p n))) := by
  unfold State.loadLane
  rw [h.here, if_neg (by decide), hn, h.read]
  dsimp only
  rw [h.number]

/-- A type of 64 bits is not extended. -/
theorem extendTo_pair {ty : Ty} (h : ty.isPair = true) (v : Nat) : extendTo ty v = BitVec.ofNat 64 v := by
  cases ty <;> simp_all [Ty.isPair, extendTo, Ty.isSigned, Ty.bits]

theorem load_words {ty : Ty} (h : ty.isPair = false) (d lane v : Nat) :
    (MDest.sreg d).write ty lane (extendTo ty v) = [(.s d, if ty.isSigned then (BitVec.ofNat ty.bits v).signExtend 32
      else BitVec.ofNat 32 v)] := by
  unfold MDest.write extendTo loWord
  dsimp only
  rw [h, if_neg (by decide)]
  cases ty.isSigned
  · rw [if_neg (by decide), if_neg (by decide), lo64]
  · rw [if_pos rfl, if_pos rfl, loSign]

theorem load_pair {ty : Ty} (h : ty.isPair = true) (d lane v : Nat) :
    (MDest.sreg d).write ty lane (extendTo ty v) = pairOfNat d v := by
  unfold MDest.write
  rw [extendTo_pair h]
  dsimp only
  rw [h]
  rfl

theorem not_toPeer (h : Open w a x p n) : x.toPeer = false := by
  unfold Acc.toPeer
  rw [h.place]
  exact (not_window h.dram).2

/-- The state once `v`, if anything, has been written to the `n` bytes at `p`. -/
def storing (w : State) (p n : Nat) : Option Nat → State
  | none => w
  | some v => { w with
    mem := writeBytes w.mem p (bytesLE n v)
    tags := clearTags w.tags p n }

/-- An atomic on a word: what it stores, if anything, and the old value for its register. -/
theorem Open.performs_atom (h : Open w a x p 4) (op : AtomOp) (d : Nat) {v : Option Nat}
    (hv : atomValue op .n32 (numberAt w.mem p 4) x.data x.cmp = (v, 0)) :
    w.atomLane a op .n32 (.sreg d) x
      = (storing w p 4 v, [(.s d, BitVec.ofNat 32 (numberAt w.mem p 4))]) := by
  obtain ⟨bs, hread, hnum⟩ := h.atom
  have hword : (MDest.sreg d).write .n32 x.lane (BitVec.ofNat 64 (numberAt w.mem p 4))
      = [(.s d, BitVec.ofNat 32 (numberAt w.mem p 4))] := load_words (ty := .n32) rfl d x.lane _
  unfold State.atomLane
  rw [show Ty.n32.bits / 8 = 4 from rfl]
  dsimp only
  rw [hread]
  dsimp only
  rw [hnum, hv, hword, not_toPeer h]
  cases v with
  | none => rfl
  | some v =>
    dsimp only
    rw [if_neg (by decide), h.write (bytesLE_length 4 v)]
    rfl

/-- What an access has done: its results are `ws`; memory and tags differ by what it stores. -/
def Effect (w : State) (p n : Nat) (st : Option (Nat × Bool)) (ws : List (Loc × Word)) (r : Performed) : Prop :=
  ∃ m tags frames, r = (wrote w m tags frames, ws) ∧ (st = none → Unstored w (wrote w m tags frames))
    ∧ ∀ v tag, st = some (v, tag) → Stored w (wrote w m tags frames) p n v tag

theorem effect_read (ws : List (Loc × Word)) : Effect w p n none ws (w, ws) :=
  ⟨w.mem, w.tags, w.sweep.frames, rfl, fun _ => ⟨fun _ => rfl, fun _ => rfl⟩, fun _ _ h => absurd h (by simp)⟩

theorem effect_write (hn : n ≠ 0) (v : Nat) (ws : List (Loc × Word)) :
    Effect w p n (some (v, false)) ws ({ w with
      mem := writeBytes w.mem p (bytesLE n v)
      tags := clearTags w.tags p n }, ws) := by
  refine ⟨_, _, w.sweep.frames, rfl, fun h => absurd h (by simp), fun u tag h => ?_⟩
  cases h
  exact stored_mem w p n v hn _ rfl rfl

theorem bytes_of_type (ty : Ty) : ty.bits / 8 ≠ 0 ∧ 8 * (ty.bits / 8) = ty.bits := by
  cases ty <;> decide

/-- A load of a capability brings the bytes and the tag of their granule. -/
theorem Open.performs_loadCap (h : Open w a x p 16) (hsweep : w.sweep.running = none) (hl : x.ltag = true) (q : Nat) :
    w.loadCapLane a (.creg q) false x = (w, capWrites q ⟨BitVec.ofNat 128 (numberAt w.mem p 16), w.tagAt p⟩) := by
  obtain ⟨hwin, hpeer⟩ := not_window h.dram
  obtain ⟨g, hg, _⟩ := h.key
  have hseen : w.seen a.seat = [] := by
    unfold State.seen
    rw [List.filter_eq_nil_iff]
    intro e he
    simp [h.clear e he]
  have hjudge (c : Cap) : w.loadJudge c = c := by
    unfold State.loadJudge
    rw [hsweep]
    rfl
  unfold State.loadCapLane
  rw [h.place]
  dsimp only
  rw [hwin, hpeer, h.noteKey, fillL1_sys h.sys, hseen, h.number, hl]
  unfold State.seeCap
  rw [hg]
  simp [MDest.writeCap, hjudge]

/-- A store of a capability leaves its bytes and its tag. -/
theorem Open.performs_storeCap (h : Open w a x p 16) (ha : p % 16 = 0) :
    Effect w p 16 (some (x.data % 2 ^ 128, x.tag)) [] (w.storeCapLane a x, []) := by
  obtain ⟨hwin, hpeer⟩ := not_window h.dram
  obtain ⟨g, hg, hc⟩ := h.key
  have hput : w.storeCapLane a x = wrote w (writeBytes w.mem p (bytesLE 16 (x.data % 2 ^ 128)))
      (if x.tag then addSet (clearTags w.tags p 16) (p / 16) else clearTags w.tags p 16)
      (if x.tag then addSet w.sweep.frames (p / 4096) else w.sweep.frames) := by
    have hbytes : w.putBytes x.owner p (bytesLE 16 (BitVec.ofNat 128 x.data).toNat) = { w with
        mem := writeBytes w.mem p (bytesLE 16 (x.data % 2 ^ 128))
        tags := clearTags w.tags p 16 } := by
      rw [putBytes_key hg (by rw [bytesLE_length]; exact hc), bytesLE_length, BitVec.toNat_ofNat]
    unfold State.storeCapLane State.writeThrough Agent.hasL1 State.putCap
    rw [h.place]
    dsimp only
    rw [hwin, hpeer, h.noteKey, h.sys, hg, hbytes]
    cases x.tag <;> rfl
  rw [hput]
  refine ⟨_, _, _, rfl, fun hn => absurd hn (by simp), fun v tag hv => ?_⟩
  cases hv
  exact stored_cap w p _ ha x.tag _ rfl rfl

/-- Each access that a system core may perform has its effect. -/
theorem Open.performs (h : Open w a x p n) {o : Op} {st : Option (Nat × Bool)} {ws : List (Loc × Word)}
    (hp : Performs w p x o.kind n st ws) : Effect w p n st ws (w.performAccs a o false) := by
  unfold State.performAccs
  generalize o.kind = k at hp ⊢
  cases hp with
  | load ty d hpair =>
    dsimp only
    rw [eachLane_one, h.performs_load rfl d, load_words hpair]
    exact effect_read _
  | loadPair ty d hpair =>
    have hn : ty.bits / 8 = 8 := by cases ty <;> simp_all [Ty.isPair, Ty.bits]
    dsimp only
    rw [eachLane_one, h.performs_load hn d, load_pair hpair]
    exact effect_read _
  | store ty =>
    obtain ⟨hn, hbits⟩ := bytes_of_type ty
    have hdata : bytesLE (ty.bits / 8) x.data = bytesLE (ty.bits / 8) (x.data % 2 ^ ty.bits) := by
      rw [← bytesLE_mod, hbits]
    dsimp only
    rw [eachLane_one]
    unfold State.storeLane
    rw [h.write (bytesLE_length _ _), hdata]
    exact effect_write hn _ _
  | swap ty d ht =>
    subst ht
    dsimp only
    rw [eachLane_one, h.performs_atom .swap d (v := some (x.data % 2 ^ 32)) rfl]
    exact effect_write (by decide) _ _
  | add ty d ht =>
    subst ht
    dsimp only
    rw [eachLane_one, h.performs_atom .add d (v := some ((numberAt w.mem p 4 + x.data) % 2 ^ 32)) rfl]
    exact effect_write (by decide) _ _
  | casHit ty d ht hc =>
    subst ht
    dsimp only
    rw [eachLane_one, h.performs_atom .cas d (v := some (x.data % 2 ^ 32)) (by unfold atomValue; exact congrArg (·, 0) (if_pos hc))]
    exact effect_write (by decide) _ _
  | casMiss ty d ht hc =>
    subst ht
    dsimp only
    rw [eachLane_one, h.performs_atom .cas d (v := none) (by unfold atomValue; exact congrArg (·, 0) (if_neg hc))]
    exact effect_read _
  | loadCap q hsweep hl =>
    dsimp only
    rw [eachLane_one, h.performs_loadCap hsweep hl]
    exact effect_read _
  | storeCap ha =>
    dsimp only
    rw [eachLane_one]
    exact h.performs_storeCap ha

end Access

/-! ### A lone access is performed -/

section Lone
variable {s w : State} {a : Agent} {o : Op} {x : Acc} {p n : Nat} {st : Option (Nat × Bool)} {ws : List (Loc × Word)}

/-- What an access does depends on memory, its tags and the sweeper alone. -/
theorem performs_of {k : OpKind} (hm : w.mem = s.mem) (ht : w.tags = s.tags) (hs : w.sweep = s.sweep)
    (hp : Performs s p x k n st ws) : Performs w p x k n st ws := by
  have htag : s.tagAt p = w.tagAt p := by
    unfold State.tagAt
    rw [ht]
  cases hp with
  | load ty d h =>
    rw [← hm]
    exact .load ty d h
  | loadPair ty d h =>
    rw [← hm]
    exact .loadPair ty d h
  | store ty => exact .store ty
  | swap ty d h =>
    rw [← hm]
    exact .swap ty d h
  | add ty d h =>
    rw [← hm]
    exact .add ty d h
  | casHit ty d h hc =>
    rw [← hm] at hc ⊢
    exact .casHit ty d h hc
  | casMiss ty d h hc =>
    rw [← hm] at hc ⊢
    exact .casMiss ty d h hc
  | loadCap q h hl =>
    rw [← hm, htag]
    exact .loadCap q (hs ▸ h) hl
  | storeCap h => exact .storeCap h

theorem lone_open (h : Lone s a o x p n) (hk : w.keys = s.keys) (hc : w.cipher = s.cipher)
    (he : w.coh.early = s.coh.early) : Open w a x p n := by
  obtain ⟨g, hg, hcipher⟩ := h.key
  refine ⟨h.sys, h.place, h.here, h.dram, ⟨g, ?_, ?_⟩, ?_⟩
  · unfold State.keyGen
    rw [hk]
    exact hg
  · rw [hc]
    exact hcipher
  · rw [he]
    exact fun e hm => (h.clear e hm).2

theorem cohDie_sys (h : a.isSys = true) : a.cohDie = 4 := if_pos h

/-- Only a subscribed load asks for a subscription. -/
theorem subFor_none (hp : Performs s p x o.kind n st ws) (line : Nat) : w.subFor a o line = none := by
  unfold State.subFor
  generalize o.kind = k at hp
  cases hp <;> rfl

theorem lineReady_lone (h : Lone s a o x p n) (hp : Performs s p x o.kind n st ws) (hr : o.rw.2 = false) (ps : List PeerByte)
    (ns : List Note) : (recached s ps ns).lineReady a o (p / 128) = true := by
  obtain ⟨hready, hwaits⟩ := h.read hr
  have hready' : (recached s ps ns).readReady 4 (p / 128) = true := hready
  have hwaits' : (recached s ps ns).readWaits a o (p / 128) = false := hwaits
  unfold State.lineReady State.stray State.servedL1 Agent.hasL1
  rw [h.sys, subFor_none hp, cohDie_sys h.sys, hready', hwaits']
  rfl

/-- A lone read. -/
theorem attempt_read (h : Lone s a o x p n) (hp : Performs s p x o.kind n st ws) (hr : o.rw.2 = false) :
    ∃ t, s.attempt a o false = (t, some ws) ∧ Reached s t a.id a ∧ t.teams = s.teams ∧ (st = none → Unstored s t)
      ∧ ∀ v tag, st = some (v, tag) → Stored s t p n v tag := by
  obtain ⟨ps, ns, hv⟩ := releasedFirst_coh s a o (.inl h.sys)
  obtain ⟨m, tags, frames, hperf, hnone, hsome⟩ := (lone_open (w := recached s ps ns) h rfl rfl rfl).performs (o := o)
    (performs_of (s := s) rfl rfl rfl hp)
  have hread : (recached s ps ns).attemptRead a o false = (wrote (recached s ps ns) m tags frames, some ws) := by
    unfold State.attemptRead
    rw [(lines_one h hp).1, List.all_cons, List.all_nil, lineReady_lone h hp hr, hperf]
    rfl
  obtain ⟨c, hc⟩ := peerAfter_coh (wrote (recached s ps ns) m tags frames) a o
  rw [attempt_goes false h.order hv (opReached_none (earlyOf_none h.clear _) _) (staysNarrow_sys h.sys _ o), hr,
    if_neg (by decide), hread]
  dsimp only [Option.isSome]
  rw [if_pos rfl, hc]
  exact ⟨_, rfl, (((Reached.start h.there).coh _).put m tags frames _ _).coh c, rfl, hnone, hsome⟩

theorem stored_from {w t : State} {v : Nat} {tag : Bool} (hm : w.mem = s.mem) (ht : w.tags = s.tags)
    (h : Stored w t p n v tag) : Stored s t p n v tag := by
  unfold Stored State.tagAt at *
  rw [hm, ht] at h
  exact h

theorem unstored_from {w t : State} (hm : w.mem = s.mem) (ht : w.tags = s.tags) (h : Unstored w t) : Unstored s t := by
  unfold Unstored State.tagAt at *
  rw [hm, ht] at h
  exact h

/-- Bytes beside those of the access are as before. -/
theorem beside_unchanged {t : State} (hnone : st = none → Unstored s t)
    (hsome : ∀ v tag, st = some (v, tag) → Stored s t p n v tag) :
    ∀ q, (q < p ∨ p + n ≤ q) → readByte t.mem q = readByte s.mem q := by
  intro q hq
  match st with
  | none => exact (hnone rfl).1 q
  | some (v, tag) => exact (hsome v tag rfl).2.1 q hq

/-- No endpoint is destroyed by an access beside its state. -/
theorem alive_after (h : Lone s a o x p n) {t : State} (hout : ∀ q, (q < p ∨ p + n ≤ q) → readByte t.mem q = readByte s.mem q)
    (heps : t.eps = s.eps) : ∀ e ∈ t.eps, t.epDead e.pa = false := by
  intro e he
  rw [heps] at he
  obtain ⟨halive, hbeside⟩ := h.alive e he
  unfold State.epDead at halive ⊢
  rw [readPhys4 hout hbeside]
  exact halive

/-- A lone write: its unit has it, nothing comes before it, its line is the agent's, and it is performed. -/
theorem attempt_write (h : Lone s a o x p n) (hp : Performs s p x o.kind n st ws) (hr : o.rw.2 = true) :
    ∃ t, s.attempt a o false = (t, some ws) ∧ Reached s t a.id (counted (marked o.num a)) ∧ t.teams = s.teams
      ∧ (st = none → Unstored s t) ∧ ∀ v tag, st = some (v, tag) → Stored s t p n v tag := by
  obtain ⟨ps, ns, hv⟩ := releasedFirst_coh s a o (.inl h.sys)
  have hthere : (recached s ps ns).agent? a.id = some a := h.there
  -- the write has reached its unit
  obtain ⟨u, hu⟩ : ∃ u, u = (recached s ps ns).updAgent a.id (marked o.num) := ⟨_, rfl⟩
  have hreached : Reached s u a.id (marked o.num a) := by
    rw [hu]
    exact ((Reached.start h.there).coh _).upd (marked o.num) fun _ => rfl
  have hsame : u = { recached s ps ns with
      ag := u.ag
      rest := u.rest } := by
    rw [hu]
    exact (updAgent_replaced (f := marked o.num) hthere rfl fun _ => rfl).1
  have hclear : ∀ e ∈ u.coh.early, e.seat.agent ≠ a.id ∧ e.sees a.seat = false := by
    rw [hsame]
    exact h.clear
  -- and is performed
  have hmem : (u.setEarly u.coh.early).mem = s.mem := by rw [hsame]; rfl
  have htags : (u.setEarly u.coh.early).tags = s.tags := by rw [hsame]; rfl
  have hsweep : (u.setEarly u.coh.early).sweep = s.sweep := by rw [hsame]; rfl
  have hteams : u.teams = s.teams := by rw [hsame]; rfl
  have heps : u.eps = s.eps := by rw [hsame]; rfl
  obtain ⟨m, tags, frames, hperf, hnone, hsome⟩ := (lone_open (w := u.setEarly u.coh.early) h (by rw [hsame]; rfl)
    (by rw [hsame]; rfl) (by rw [hsame]; rfl)).performs (o := o) (performs_of hmem htags hsweep hp)
  have hobtain (s' : State) : u.obtain s' a (a.id, o.num) o.lines = none := by
    obtain ⟨hunit, hhome⟩ := h.unleased hr
    unfold State.obtain State.unitsDone
    dsimp only
    rw [(lines_one h hp).1, List.all_cons, List.all_nil, List.all_cons, List.all_nil, cohDie_sys h.sys, hu,
      writeReady_marked hthere (show MayWrite (recached s ps ns) (p / 128) from h.write hr), leaseDone_upd, leaseDone_upd,
      show (recached s ps ns).leaseDone 4 (p / 128) = true from hunit,
      show (recached s ps ns).leaseDone (homeOf (p / 128)) (p / 128) = true from hhome]
    rfl
  have hwrite : (recached s ps ns).attemptWrite a o false
      = ((wrote (u.setEarly u.coh.early) m tags frames).afterPerform a o, some ws) := by
    unfold State.attemptWrite
    dsimp only
    rw [show (recached s ps ns).markSent a.id o.num = u from hu.symm, clearFor_none hclear, others_early hclear, if_neg (by decide),
      hperf, hobtain]
  have hnone' (hst : st = none) := unstored_from hmem htags (hnone hst)
  have hsome' (v : Nat) (tag : Bool) (hst : st = some (v, tag)) := stored_from hmem htags (hsome v tag hst)
  obtain ⟨c, hafter⟩ := afterPerform_write (s := wrote (u.setEarly u.coh.early) m tags frames) hr
    (alive_after h (beside_unchanged hnone' hsome') heps)
  obtain ⟨c', hc⟩ := peerAfter_coh ((wrote (u.setEarly u.coh.early) m tags frames).afterPerform a o) a o
  rw [attempt_goes false h.order hv (opReached_none (earlyOf_none h.clear _) _) (staysNarrow_sys h.sys _ o), hr, if_pos rfl,
    hwrite]
  dsimp only [Option.isSome]
  rw [if_pos rfl, hc, hafter]
  refine ⟨_, rfl, ?_, ?_, fun hst => ?_, fun v tag hst => ?_⟩
  · exact ((((hreached.coh _).put m tags frames _ _).coh c).upd counted fun _ => rfl).coh c'
  · exact (teams_upd _ _ _).trans hteams
  · exact unstored_congr (hnone' hst) (mem_upd _ _ _) (tags_upd _ _ _)
  · exact stored_congr (hsome' v tag hst) (mem_upd _ _ _) (tags_upd _ _ _)

/-- A lone access is performed at once; a write is marked and counted on the way. -/
theorem attempt_lone (h : Lone s a o x p n) (hp : Performs s p x o.kind n st ws) :
    ∃ t, s.attempt a o false = (t, some ws) ∧ Reached s t a.id (if o.rw.2 then counted (marked o.num a) else a)
      ∧ t.teams = s.teams ∧ (st = none → Unstored s t) ∧ ∀ v tag, st = some (v, tag) → Stored s t p n v tag := by
  cases hr : o.rw.2 with
  | true => exact attempt_write h hp hr
  | false => exact attempt_read h hp hr

/-- The completion of an access that is performed. -/
theorem complete_mem {t : State} {lane : Bool} (h : s.agent? a.id = some a) (ho : a.op? o.num = some o) (hl : o.lane = lane)
    (hk : ∃ op ty d ro, o.kind = .mem op ty d [x] ro) (ht : s.attempt a o false = (t, some ws)) :
    s.complete a.id o.num lane false = t.updAgent a.id fun b => b.finishOp o.num ws := by
  obtain ⟨op, ty, d, ro, hk⟩ := hk
  unfold State.complete
  rw [h]
  dsimp only
  rw [ho]
  dsimp only
  rw [hl, bne_self_eq_false, if_neg (by decide), hk]
  dsimp only
  rw [ht]

/-- A write performed ahead of its completion. -/
theorem exec_writePerform {t : State} (h : s.agent? a.id = some a) (ho : a.op? o.num = some o)
    (hk : ∃ op ty d ro, o.kind = .mem op ty d [x] ro) (hr : o.rw.2 = true) (hperf : o.performed = false)
    (he : s.earlyScope o.num = none) (ht : s.attempt a o false = (t, some ws)) :
    exec (.writePerform a.id o.num) s = .next (t.updAgent a.id fun b => b.performedOp o.num ws) := by
  obtain ⟨op, ty, d, ro, hk⟩ := hk
  have hw : op.rw.2 = true := by
    unfold Op.rw at hr
    rwa [hk] at hr
  show execWritePerform a.id o.num s = _
  unfold execWritePerform
  rw [h]
  dsimp only
  rw [ho]
  dsimp only
  rw [hk]
  dsimp only
  rw [hw, hperf, if_neg (by decide), he]
  dsimp only
  rw [ht]

/-- A write that some agents see first. -/
theorem exec_showEarly {v : Scope} (h : s.agent? a.id = some a) (ho : a.op? o.num = some o)
    (hk : ∃ op ty d ro, o.kind = .mem op ty d [x] ro) (hr : o.rw.2 = true) (hperf : o.performed = false)
    (he : s.earlyScope o.num = some v) : exec (.writePerform a.id o.num) s = .next (s.showEarly a o v) := by
  obtain ⟨op, ty, d, ro, hk⟩ := hk
  have hw : op.rw.2 = true := by
    unfold Op.rw at hr
    rwa [hk] at hr
  show execWritePerform a.id o.num s = _
  unfold execWritePerform
  rw [h]
  dsimp only
  rw [ho]
  dsimp only
  rw [hk]
  dsimp only
  rw [hw, hperf, if_neg (by decide), he]

/-- A plain store is seen early with its bytes; nothing is of another access, or of a release. -/
theorem earlyWrites_of (hp : Performs s p x o.kind n st ws) (v : Scope) :
    (o.plainAccs a = none ∧ earlyWrites s a o x v = [])
      ∨ ∃ ty, o.plainAccs a = some (ty, [x]) ∧ earlyWrites s a o x v
        = [⟨s.coh.nextEarly, a.seat, o.num, false, v, x.owner, x.place, bytesLE (ty.bits / 8) x.data⟩] := by
  unfold Op.plainAccs earlyWrites
  generalize o.kind = k at hp
  cases hp with
  | store ty =>
    dsimp only
    split
    · exact .inl ⟨rfl, rfl⟩
    · exact .inr ⟨ty, rfl, rfl⟩
  | _ => exact .inl ⟨rfl, rfl⟩

/-- What is seen early of a lone write is kept beside memory. -/
theorem showEarly_lone (h : Lone s a o x p n) (hp : Performs s p x o.kind n st ws) (v : Scope) :
    s.showEarly a o v = { s with coh := { s.coh with
      early := s.coh.early ++ earlyWrites s a o x v
      nextEarly := s.coh.nextEarly + (earlyWrites s a o x v).length } } := by
  have hplace : s.earlyPlace x = true := by
    obtain ⟨g, hg, _⟩ := h.key
    unfold State.earlyPlace
    rw [h.place, hg]
    simp [h.dram]
  unfold State.showEarly State.isEarly
  rw [h.order, earlyOf_none h.clear, if_neg (by decide), if_neg (by decide)]
  rcases earlyWrites_of (a := a) hp v with ⟨hplain, hearly⟩ | ⟨ty, hplain, hearly⟩
  · rw [hplain, hearly, List.append_nil]
    rfl
  · unfold State.goEarly
    rw [hplain, hearly]
    exact if_pos (by simp [hplace])

end Lone

/-! ### One access of a lane to team memory -/

section Team
variable {s w : State} {a : Agent} {o : Op} {x : Acc} {p : Nat}

/-- The bytes of a lane in team memory, as one number. -/
theorem teamNumber_bytes (s : State) (k p n : Nat) : ofBytesLE (s.teamBytes k p n) = teamNumber s k p n := by
  unfold State.teamBytes
  dsimp only
  rw [ofBytesLE_sum]
  rfl

/-- A line of team memory is no line of DRAM. -/
theorem team_lines {op : MemOp} {ty : Ty} {d : MDest} {ro : Bool} (hk : o.kind = .mem op ty d [x] ro) (hp : x.place = .team p) :
    o.lines = [] := by
  unfold Op.lines Op.spans
  rw [hk]
  dsimp only
  cases hx : x.here <;> simp [hx, hp]

/-- What a team access attempts: its core keeps no early write of it. -/
theorem staysNarrow_team {op : MemOp} {ty : Ty} {d : MDest} {ro : Bool} (hk : o.kind = .mem op ty d [x] ro)
    (hp : x.place = .team p) (v : State) : v.staysNarrow a o = false := by
  have hplain : o.plainAccs a = none ∨ ∃ ty, o.plainAccs a = some (ty, [x]) := by
    unfold Op.plainAccs
    rw [hk]
    cases op with
    | store =>
      dsimp only
      split
      · exact .inl rfl
      · exact .inr ⟨_, rfl⟩
    | _ => exact .inl rfl
  unfold State.staysNarrow
  rcases hplain with h | ⟨ty, h⟩
  · rw [h, Bool.and_false]
  · rw [h]
    dsimp only
    rw [List.all_cons, hp]
    simp

theorem lane_words (ty : Ty) (d l v : Nat) : (MDest.vreg d).write ty l (extendTo ty v) = laneLoaded ty d l v := by
  unfold MDest.write laneLoaded dstWrites
  dsimp only
  cases hp : ty.isPair with
  | true =>
    rw [extendTo_pair hp]
    rfl
  | false =>
    have hword := load_words hp d l v
    unfold MDest.write at hword
    dsimp only at hword
    rw [hp, if_neg (by decide)] at hword
    rw [if_neg (by decide), if_neg (by decide)]
    exact congrArg (fun w => [(Loc.v d l, w)]) (Prod.mk.inj (List.cons.inj hword).1).2

/-- A lane reads team memory itself. -/
theorem team_read (h : LoneTeam s a o x p) (ty : Ty) (d : Nat) (hw : ∀ e ∈ w.coh.early, e.sees a.seat = false) :
    w.loadLane a ty (.vreg d) false x = (w, laneLoaded ty d x.lane (teamNumber w a.team p (ty.bits / 8))) := by
  unfold State.loadLane State.accRead
  rw [h.here, if_neg (by decide), h.place]
  dsimp only
  rw [overlay_clear hw, teamNumber_bytes, lane_words]

/-- A lone load from team memory. -/
theorem attempt_teamLoad (h : LoneTeam s a o x p) {ty : Ty} {d : Nat} (hk : o.kind = .mem .load ty (.vreg d) [x] false) :
    ∃ c, s.attempt a o false
      = ({ s with coh := c }, some (laneLoaded ty d x.lane (teamNumber s a.team p (ty.bits / 8)))) := by
  obtain ⟨ps, ns, hv⟩ := releasedFirst_coh s a o (.inr h.narrow)
  have hr : o.rw.2 = false := by
    unfold Op.rw
    rw [hk]
    rfl
  have hread : (recached s ps ns).attemptRead a o false
      = (recached s ps ns, some (laneLoaded ty d x.lane (teamNumber s a.team p (ty.bits / 8)))) := by
    have hperf : (recached s ps ns).performAccs a o false
        = (recached s ps ns, laneLoaded ty d x.lane (teamNumber s a.team p (ty.bits / 8))) := by
      unfold State.performAccs
      rw [hk]
      dsimp only
      rw [eachLane_one]
      exact team_read h ty d fun e he => (h.clear e he).2
    unfold State.attemptRead
    rw [team_lines hk h.place, List.all_nil, if_pos rfl, hperf]
  obtain ⟨c, hc⟩ := peerAfter_coh (recached s ps ns) a o
  rw [attempt_goes false h.order hv (opReached_none (earlyOf_none h.clear _) _) (staysNarrow_team hk h.place _), hr,
    if_neg (by decide), hread]
  dsimp only [Option.isSome]
  rw [if_pos rfl, hc]
  exact ⟨c, rfl⟩

end Team

/-! ### Bytes of team memory -/

theorem sget_writes (p : Nat) (bs : List Byte) (j : Nat) (m : Sparse Byte) (q : Nat) :
    sget 0 (((List.range' j bs.length).zip bs).foldl (fun m e => sput 0 m (p + e.1) e.2) m) q
      = if p + j ≤ q then bs.getD (q - (p + j)) (sget 0 m q) else sget 0 m q := by
  induction bs generalizing j m with
  | nil => simp
  | cons b bs ih =>
    rw [List.length_cons, List.range'_succ, List.zip_cons_cons, List.foldl_cons, ih]
    rcases Nat.lt_trichotomy q (p + j) with hq | hq | hq
    · rw [if_neg (by omega), if_neg (by omega), sget_sput_ne _ _ _ (by dsimp only; omega)]
    · subst hq
      rw [if_neg (by omega), if_pos (by omega), sget_sput_same, Nat.sub_self]
      rfl
    · rw [if_pos (by omega), if_pos (by omega), sget_sput_ne _ _ _ (by dsimp only; omega),
        show q - (p + j) = q - (p + (j + 1)) + 1 by omega, List.getD_cons_succ]

theorem teamByte_eq (s : State) (k q : Nat) : teamByte s k q = sget 0 (((s.team? k).map fun t => t.tmem).getD []) q := rfl

/-- A team once bytes have been put in the memory of team `k`. -/
def putIn (k p : Nat) (bs : List Byte) (t : Team) : Team :=
  if t.id = k then { t with tmem := ((List.range bs.length).zip bs).foldl (fun m e => sput 0 m (p + e.1) e.2) t.tmem } else t

theorem putIn_team (s : State) (k p : Nat) (bs : List Byte) (j : Nat) :
    (s.putTeam k p bs).team? j = (s.team? j).map (putIn k p bs) := by
  show (s.teams.map (putIn k p bs)).find? (fun t => t.id == j) = _
  rw [List.find?_map]
  congr 2
  funext t
  show ((putIn k p bs t).id == j) = _
  unfold putIn
  split <;> rfl

/-- What a team holds once bytes have been put in its memory. -/
theorem teamByte_put {s : State} {k p : Nat} {bs : List Byte} {t : Team} (ht : s.team? k = some t) (q : Nat) :
    teamByte (s.putTeam k p bs) k q = if p ≤ q then bs.getD (q - p) (teamByte s k q) else teamByte s k q := by
  rw [teamByte_eq, teamByte_eq, putIn_team, ht]
  show sget 0 (putIn k p bs t).tmem q = _
  unfold putIn
  rw [if_pos (team_id ht), List.range_eq_range']
  exact sget_writes p bs 0 t.tmem q

theorem teamByte_other {s : State} {k j : Nat} (hj : j ≠ k) (p : Nat) (bs : List Byte) (q : Nat) :
    teamByte (s.putTeam k p bs) j q = teamByte s j q := by
  rw [teamByte_eq, teamByte_eq, putIn_team]
  cases ht : s.team? j with
  | none => rfl
  | some t =>
    show sget 0 (putIn k p bs t).tmem q = sget 0 t.tmem q
    unfold putIn
    rw [if_neg (by rw [team_id ht]; exact hj)]

theorem teamByte_none {s : State} {k : Nat} (h : s.team? k = none) (p : Nat) (bs : List Byte) (q : Nat) :
    teamByte (s.putTeam k p bs) k q = teamByte s k q := by
  rw [teamByte_eq, teamByte_eq, putIn_team, h]
  rfl

/-- The team memory holds a number that has been put there. -/
theorem teamStored_put (s : State) (k p n v : Nat) : TeamStored s (s.putTeam k p (bytesLE n v)) k p n v := by
  refine ⟨fun hk i hi => ?_, fun q hq => ?_, fun j hj q => teamByte_other hj _ _ q, ?_⟩
  · obtain ⟨t, ht⟩ := Option.isSome_iff_exists.mp hk
    rw [teamByte_put ht, if_pos (by omega), Nat.add_sub_cancel_left, List.getD_eq_getElem _ _ (by rw [bytesLE_length]; exact hi),
      bytesLE_getElem _ _ _ hi]
    rfl
  · cases ht : s.team? k with
    | none => exact teamByte_none ht _ _ q
    | some t =>
      rw [teamByte_put ht]
      split
      · exact List.getD_eq_default _ _ (by rw [bytesLE_length]; omega)
      · rfl
  · show (s.teams.map (putIn k p (bytesLE n v))).map _ = _
    rw [List.map_map]
    refine List.map_congr_left fun t _ => ?_
    show { putIn k p (bytesLE n v) t with tmem := [] } = { t with tmem := [] }
    unfold putIn
    split <;> rfl

/-- What team memory holds is in the teams alone. -/
theorem teamStored_congr {s u t w : State} {k p n v : Nat} (h : TeamStored s t k p n v) (hs : u.teams = s.teams)
    (ht : w.teams = t.teams) : TeamStored u w k p n v := by
  unfold TeamStored teamByte State.teamBytes State.team? at *
  rw [hs, ht]
  exact h

/-- A lone store to team memory. -/
theorem attempt_teamStore {s : State} {a : Agent} {o : Op} {x : Acc} {p : Nat} (h : LoneTeam s a o x p) {ty : Ty}
    (hk : o.kind = .mem .store ty .none [x] false) :
    ∃ t, s.attempt a o false = (t, some []) ∧ Reached s t a.id (counted (marked o.num a))
      ∧ t.mem = s.mem ∧ t.tags = s.tags ∧ t.sweep = s.sweep
      ∧ TeamStored s t a.team p (ty.bits / 8) (x.data % 2 ^ ty.bits) := by
  obtain ⟨ps, ns, hv⟩ := releasedFirst_coh s a o (.inr h.narrow)
  have hr : o.rw.2 = true := by
    unfold Op.rw
    rw [hk]
    rfl
  have hthere : (recached s ps ns).agent? a.id = some a := h.there
  obtain ⟨u, hu⟩ : ∃ u, u = (recached s ps ns).updAgent a.id (marked o.num) := ⟨_, rfl⟩
  have hreached : Reached s u a.id (marked o.num a) := by
    rw [hu]
    exact ((Reached.start h.there).coh _).upd (marked o.num) fun _ => rfl
  have hsame : u = { recached s ps ns with
      ag := u.ag
      rest := u.rest } := by
    rw [hu]
    exact (updAgent_replaced (f := marked o.num) hthere rfl fun _ => rfl).1
  have hclear : ∀ e ∈ u.coh.early, e.seat.agent ≠ a.id ∧ e.sees a.seat = false := by
    rw [hsame]
    exact h.clear
  have hdata : bytesLE (ty.bits / 8) x.data = bytesLE (ty.bits / 8) (x.data % 2 ^ ty.bits) := by
    rw [← bytesLE_mod, (bytes_of_type ty).2]
  obtain ⟨y, hy⟩ : ∃ y, y = (u.setEarly u.coh.early).putTeam a.team p (bytesLE (ty.bits / 8) (x.data % 2 ^ ty.bits)) := ⟨_, rfl⟩
  have hperf : (u.setEarly u.coh.early).performAccs a o false = (y, []) := by
    unfold State.performAccs
    rw [hk]
    dsimp only
    rw [eachLane_one]
    unfold State.storeLane State.accWrite
    rw [h.place, hdata, hy]
  have hwrite : (recached s ps ns).attemptWrite a o false = (y.afterPerform a o, some []) := by
    unfold State.attemptWrite
    dsimp only
    rw [show (recached s ps ns).markSent a.id o.num = u from hu.symm, clearFor_none hclear, others_early hclear, if_neg (by decide),
      hperf, team_lines hk h.place]
    rfl
  have halive : ∀ e ∈ y.eps, y.epDead e.pa = false := by
    rw [hy, hsame]
    exact h.alive
  obtain ⟨c, hafter⟩ := afterPerform_write hr halive
  obtain ⟨c', hc⟩ := peerAfter_coh (y.afterPerform a o) a o
  rw [attempt_goes false h.order hv (opReached_none (earlyOf_none h.clear _) _) (staysNarrow_team hk h.place _), hr, if_pos rfl,
    hwrite]
  dsimp only [Option.isSome]
  rw [if_pos rfl, hc, hafter]
  refine ⟨_, rfl, ?_, (mem_upd _ _ _).trans ?_, (tags_upd _ _ _).trans ?_, (sweep_upd _ _ _).trans ?_, ?_⟩
  · rw [hy]
    exact ((((hreached.coh _).put _ _ _ _ _).coh c).upd counted fun _ => rfl).coh c'
  · rw [hy, hsame]
    rfl
  · rw [hy, hsame]
    rfl
  · rw [hy, hsame]
    rfl
  · refine teamStored_congr (teamStored_put (u.setEarly u.coh.early) a.team p _ _) ?_ ?_
    · rw [hsame]
      rfl
    · exact (teams_upd _ _ _).trans (by rw [hy])

theorem laneLoaded_placed (ty : Ty) (d : Nat) {l : Nat} (v : Nat) (hl : l < 32) : ∀ w ∈ laneLoaded ty d l v, Placed w.1 := by
  unfold laneLoaded
  split <;> simp [Placed, hl]

/-- Settles O37: an access that nothing holds back is performed with its effect, and lands. -/
theorem accessPerformed : Obligations.AccessPerformed := by
  unfold Obligations.AccessPerformed
  refine ⟨fun s a o x p n st ws h hp hplaced => ⟨?_, fun hr hperf he => ?_, fun hr hperf v he => ?_⟩, fun s a o x p ty h => ?_⟩
  · obtain ⟨t, ht, hreached, hteams, hnone, hsome⟩ := attempt_lone h hp
    have hend := complete_mem h.there h.op h.scalar (lines_one h hp).2 ht
    refine ⟨_, _, congrArg Host.Outcome.next hend, (hreached.upd _ fun b => finishOp_id b _ _).happened
      ((teams_upd _ _ _).trans hteams) (fun hst => unstored_congr (hnone hst) (mem_upd _ _ _) (tags_upd _ _ _))
      fun v tag hst => stored_congr (hsome v tag hst) (mem_upd _ _ _) (tags_upd _ _ _), ?_⟩
    cases o.rw.2 with
    | true => exact write_lands h.op hplaced
    | false => exact finishOp_lands a o ws h.op hplaced
  · obtain ⟨t, ht, hreached, hteams, hnone, hsome⟩ := attempt_write h hp hr
    obtain ⟨htok, hwaits⟩ := performedOp_waits (marked_op h.op) ws
    exact ⟨_, _, exec_writePerform h.there h.op (lines_one h hp).2 hr hperf he ht,
      (hreached.upd _ fun b => performedOp_id b _ _).happened
      ((teams_upd _ _ _).trans hteams) (fun hst => unstored_congr (hnone hst) (mem_upd _ _ _) (tags_upd _ _ _))
      fun v tag hst => stored_congr (hsome v tag hst) (mem_upd _ _ _) (tags_upd _ _ _), htok, hwaits⟩
  · rw [exec_showEarly h.there h.op (lines_one h hp).2 hr hperf he, showEarly_lone h hp]
  · refine ⟨fun d hk hl => ?_, fun hk => ?_⟩
    · obtain ⟨c, ht⟩ := attempt_teamLoad h hk
      have hend := complete_mem h.there h.op h.lane ⟨_, _, _, _, hk⟩ ht
      have hreached := ((Reached.start h.there).coh c).upd (fun b => b.finishOp o.num _) fun b => finishOp_id b o.num
        (laneLoaded ty d x.lane (teamNumber s a.team p (ty.bits / 8)))
      refine ⟨_, _, congrArg Host.Outcome.next hend, ?_, finishOp_lands a o _ h.op (laneLoaded_placed ty d _ hl)⟩
      have hquiet := hreached.quiet (mem_upd _ _ _) (tags_upd _ _ _) (sweep_upd _ _ _)
      rw [teams_upd] at hquiet
      exact hquiet
    · obtain ⟨t, ht, hreached, hm, htg, hsw, hstored⟩ := attempt_teamStore h hk
      have hend := complete_mem h.there h.op h.lane ⟨_, _, _, _, hk⟩ ht
      exact ⟨_, _, congrArg Host.Outcome.next hend, (hreached.upd _ fun b => finishOp_id b _ _).quiet ((mem_upd _ _ _).trans hm)
        ((tags_upd _ _ _).trans htg) ((sweep_upd _ _ _).trans hsw), write_lands h.op (by simp),
        teamStored_congr hstored rfl (teams_upd _ _ _)⟩

end Sys2Proof.Proofs.Performing
end

section
/-!
SUPPORT. What the hardware writes by itself leaves of the teams and of the agents, everything but pending interrupts, and what the
kill of a team leaves of the team; on them, the taking of a trap inside and outside a handler.
-/

namespace Sys2Proof.Proofs.Traps

open Machine Claims Laws

/-- `t` has the teams of `s`, and its agents up to pending interrupts. -/
def OnlySignals (s t : State) : Prop :=
  t.teams = s.teams ∧ ∀ b ∈ t.agents, ∃ a ∈ s.agents, b = { a with ipend := b.ipend }

theorem OnlySignals.of_eq {s t : State} (h : t.teams = s.teams) (ha : t.agents = s.agents) : OnlySignals s t :=
  ⟨h, fun b hb => ⟨b, ha ▸ hb, rfl⟩⟩

theorem OnlySignals.refl (s : State) : OnlySignals s s := .of_eq rfl rfl

theorem OnlySignals.trans {s t u : State} (h : OnlySignals s t) (k : OnlySignals t u) : OnlySignals s u := by
  refine ⟨k.1.trans h.1, fun c hc => ?_⟩
  obtain ⟨b, hb, e⟩ := k.2 c hc
  obtain ⟨a, ha, e'⟩ := h.2 b hb
  refine ⟨a, ha, ?_⟩
  rw [e, e']

theorem OnlySignals.fold {α : Type} {f : State → α → State} (hf : ∀ s x, OnlySignals s (f s x)) (l : List α) :
    ∀ s, OnlySignals s (l.foldl f s) := by
  induction l with
  | nil => exact .refl
  | cons x l ih => exact fun s => (hf s x).trans (ih _)

/-! ### The hardware's own reads and writes -/

theorem signals_writePhys (s : State) (a n v : Nat) : OnlySignals s (s.writePhys a n v) := .of_eq rfl rfl

theorem signals_putBytes (s : State) (o a : Nat) (bs : List Byte) : OnlySignals s (s.putBytes o a bs) := by
  refine .of_eq ?_ (putBytes_keep s o a bs).1
  unfold State.putBytes
  split
  · rfl
  · dsimp only
    split <;> rfl

theorem signals_logEvent (s : State) (kind detail : Nat) : OnlySignals s (s.logEvent kind detail) := .of_eq rfl rfl

theorem signals_signalLine (s : State) (pa : Nat) : OnlySignals s (s.signalLine pa) := by
  refine ⟨?_, fun b hb => ?_⟩
  · unfold State.signalLine State.updAgent
    dsimp only
    split <;> rfl
  · obtain ⟨a, ha, h | h⟩ := mem_updAgent hb
    · refine ⟨a, ha, ?_⟩
      split at h
      · rw [h]
      · rw [h]
    · exact ⟨a, ha, by rw [h]⟩

theorem signals_signalOwned (s : State) (p pa : Nat) : OnlySignals s (s.signalOwned p pa) := by
  unfold State.signalOwned
  split
  · exact signals_signalLine s pa
  · exact .refl s

/-! ### First touches and records -/

/-- The state that a first touch comes to. -/
def TouchRes.after : TouchRes → State
  | .done s | .declined s | .wait s => s

theorem signals_zeroFrame (s : State) (o f n : Nat) : OnlySignals s (s.zeroFrame o f n) := .of_eq rfl rfl

theorem signals_freeTouch (s : State) (a : Nat) : OnlySignals s (s.freeTouch a) := .of_eq rfl rfl

theorem signals_holdTouch (s : State) (a h : Nat) : OnlySignals s (s.holdTouch a h) := .of_eq rfl rfl

theorem signals_takeFrame (s : State) (w : Who) (o a e size : Nat) : OnlySignals s (TouchRes.after (s.takeFrame w o a e size)) := by
  unfold State.takeFrame
  generalize (if size = 21 then 1 else 0) = big
  dsimp only
  split
  · exact signals_writePhys ..
  split
  · exact signals_writePhys ..
  split
  · have frame := fun p v f => (signals_writePhys s p 4 v).trans (signals_zeroFrame _ (pteOwner e) f (2 ^ size))
    split
    · dsimp only [TouchRes.after]
      exact OnlySignals.trans (frame _ _ _) (.fold (fun s k => signals_writePhys ..) _ _)
    · dsimp only [TouchRes.after]
      exact OnlySignals.trans (frame _ _ _) (signals_writePhys ..)
  split
  · exact signals_writePhys ..
  split
  · exact signals_writePhys ..
  have asks := fun v x => (signals_writePhys s a 8 v).trans (signals_writePhys _ (poolAt o (2 * w.die + big) + 8) 4 x)
  dsimp only [TouchRes.after]
  split
  · exact asks _ _
  · exact OnlySignals.trans (asks _ _) (signals_signalOwned ..)

theorem signals_firstTouch (s : State) (w : Who) (a e size : Nat) : OnlySignals s (TouchRes.after (s.firstTouch w a e size)) := by
  unfold State.firstTouch
  split
  · exact .refl s
  rename_i o _
  split
  · exact .refl s
  have h := signals_takeFrame s w o a e size
  cases taken : s.takeFrame w o a e size with
  | done s' => rw [taken] at h; exact OnlySignals.trans h (signals_freeTouch s' a)
  | declined s' => rw [taken] at h; exact OnlySignals.trans h (signals_freeTouch s' a)
  | wait s' => rw [taken] at h; exact OnlySignals.trans h (signals_holdTouch s' a w.die)

theorem signals_xlateTouch (s : State) (w : Who) (q : Want) (va : Nat) : OnlySignals s (s.xlateTouch w q va).1 := by
  unfold State.xlateTouch
  split
  · rename_i a e z _
    have h := signals_firstTouch s w a e z
    split <;> (rename_i e'; rw [e'] at h; exact h)
  · exact .refl s

theorem signals_signalCap (s : State) (w : Who) (c : Cap) : OnlySignals s (s.signalCap w c) := by
  unfold State.signalCap
  split
  · have h := signals_xlateTouch s w (c.want true) c.base
    split <;> (rename_i e; rw [e] at h)
    · exact h.trans (signals_signalLine ..)
    · exact h
  · exact .refl s

theorem signals_writeRecord (s : State) (w : Who) (ctx rec : Nat) : OnlySignals s (s.writeRecord w ctx rec) := by
  unfold State.writeRecord
  dsimp only
  split
  · exact .refl s
  have h := signals_xlateTouch s { w with mode := 1 } { (s.capPhys (ctx + 32)).want true with exportOk := true }
    ((s.capPhys (ctx + 32)).base + 64 * (s.readPhys (ctx + 116) 4 % (((s.capPhys (ctx + 32)).top - (s.capPhys (ctx + 32)).base) / 64)))
  split <;> (rename_i e; rw [e] at h)
  · exact ((h.trans (signals_putBytes ..)).trans (signals_writePhys ..)).trans (signals_signalCap ..)
  · exact h.trans (signals_logEvent ..)

/-! ### The kill of a team -/

theorem signals_markBroken (s : State) (obj inst : Nat) : OnlySignals s (s.markBroken obj inst) := by
  unfold State.markBroken
  split
  · exact .refl s
  · exact .of_eq rfl rfl

theorem signals_dropReadOnly (s : State) : OnlySignals s s.dropReadOnly := .of_eq rfl rfl

theorem signals_clearArrays (s : State) (d first f : Nat) : OnlySignals s (s.clearArrays d first f) := .of_eq rfl rfl

/-- No batch, no group and no thread of the team is left. -/
def Discarded (s : State) (team : Nat) : Prop :=
  (∀ u ∈ s.teams, u.id = team → u.phase = .gone ∧ u.batches = [] ∧ u.built = [] ∧ u.faults = [] ∧ u.arriving = [])
    ∧ ∀ b ∈ s.agents, b.team = team → b.isSys = false → b.alive = false

theorem Discarded.keep {s t : State} {team : Nat} (h : Discarded s team) (k : OnlySignals s t) : Discarded t team := by
  refine ⟨fun u hu => h.1 u (k.1 ▸ hu), fun b hb ht hs => ?_⟩
  obtain ⟨a, ha, e⟩ := k.2 b hb
  rw [e] at ht hs ⊢
  exact h.2 a ha ht hs

theorem discardTeam_discards (s : State) (team : Nat) : Discarded (s.discardTeam team) team := by
  constructor
  · intro u hu hid
    obtain ⟨v, -, hv⟩ := List.mem_map.mp hu
    split at hv
    · rw [← hv]
      exact ⟨rfl, rfl, rfl, rfl, rfl⟩
    · rename_i h
      rw [← hv] at hid
      exact absurd hid (by simpa using h)
  · intro b hb ht hs
    obtain ⟨a, -, e⟩ := mem_updAll (s := s)
      (f := fun a => if a.team == team && a.kind != .sysCore then a.stopped else a) hb
    split at e
    · rw [e]; rfl
    · rename_i h
      rw [e] at ht hs
      unfold Agent.isSys at hs
      simp only [Bool.and_eq_true, beq_iff_eq, bne_iff_ne, ne_eq, not_and, Classical.not_not] at h
      exact absurd (h ht) (by simpa using hs)

theorem killTeam_discards (s : State) (team cause flags g cmd reason xaddr : Nat) (h : ∃ u ∈ s.teams, u.id = team) :
    Discarded (s.killTeam team cause flags g cmd reason xaddr) team := by
  unfold State.killTeam
  cases hf : s.teams.find? fun t => t.id == team with
  | none =>
    obtain ⟨u, hu, hid⟩ := h
    exact absurd hid (by simpa using List.find?_eq_none.mp hf u hu)
  | some t =>
    dsimp only
    have h2 := (discardTeam_discards ((s.members team).foldl (fun s a => s.dropReply a) s) team).keep
      ((signals_dropReadOnly _).trans (.fold (fun s (x : Nat × Nat) => signals_markBroken s x.1 x.2) (s.lostInsts team) _))
    split
    · exact h2
    · split
      · exact h2.keep ((signals_clearArrays ..).trans (signals_writeRecord ..))
      · exact h2.keep (signals_writeRecord ..)

/-! ### Taking a trap -/

theorem inHandler_held {a b : Agent} {t : Trap} (h : InHandler a b t) (n : Nat) : InHandler a { b with heldTo := n } t where
  xpc := h.xpc
  xlpc := h.xlpc
  xcause := h.xcause
  xaddr := h.xaddr
  xlanes := h.xlanes
  xinfo := h.xinfo
  pmode := h.pmode
  mode := h.mode
  lane := h.lane
  hnd := h.hnd
  status := h.status
  pcc := h.pcc
  kscr := h.kscr
  scratch := h.scratch
  others := h.others
  frame := congrArg (fun x : Agent => { x with heldTo := n }) h.frame

theorem settle_kentry (a : Agent) : a.settle.kentry = a.kentry := by rw [settle_files]; rfl

theorem trap_enters {s : State} (t : Trap) (hh : s.ag.hnd = false) (hk : s.ag.kentry.tag = true) :
    s.trap t = { s with
      ag := { (s.ag.settle.suspend.enterTrap t).loseLatches with heldTo := s.clk + 1 }
      issues := s.issues + 1 } := by
  unfold State.trap
  dsimp only
  rw [hh, hk]
  rfl

theorem trap_kills {s : State} (t : Trap) (h : s.ag.hnd = true ∨ s.ag.kentry.tag = false) :
    s.trap t = s.bump.killFocus t.cause (if s.ag.hnd then 1 else 2) 0 t.addr := by
  unfold State.trap
  dsimp only
  cases hh : s.ag.hnd with
  | true => rfl
  | false =>
    rw [hh] at h
    rw [h.resolve_left (by decide)]
    rfl

theorem core_restarts (s : State) (cause flags xaddr : Nat) : s.bump.restartCore cause flags 0 xaddr = { s with
    ag := { Agent.sysStart s.ag.core s.ag.cpart (BitVec.ofNat 32 s.ag.cpart) 2 Config.bootEntry with id := s.ag.id }
    islet := { s.islet with
      log := ((2, s.localTime isletKey, cause + flags * 2 ^ 8 + xaddr * 2 ^ 48 + s.joinedName s.ag * 2 ^ 112)
        :: s.islet.log).take 4096 }
    eps := s.eps.map fun e => { e with receivers := e.receivers.filter fun r => r ≠ s.ag.id }
    issues := s.issues + 1 } := by
  have detail : restartDetail cause flags 0 xaddr (s.joinedName s.ag)
      = cause + flags * 2 ^ 8 + xaddr * 2 ^ 48 + s.joinedName s.ag * 2 ^ 112 := by
    unfold restartDetail
    omega
  have waits : (fun e : Endpoint => { e with receivers := e.receivers.filter fun r => r != s.ag.id })
      = fun e => { e with receivers := e.receivers.filter fun r => r ≠ s.ag.id } := by
    funext e
    congr 2
    funext r
    simp [bne, BEq.beq]
  rw [← detail, ← waits]
  rfl

/-- Settles O45: the results under way take effect, the wait is suspended, and the handler is entered. -/
theorem trapEntry : Obligations.TrapEntry := by
  unfold Obligations.TrapEntry
  intro s t hh hk
  rw [trap_enters t hh hk]
  obtain ⟨x, hx⟩ := suspend_eq s.ag.settle
  refine ⟨?_, rfl, rfl⟩
  rw [hx]
  exact inHandler_held (enter_in s.ag.settle x t (by rw [settle_kentry]; exact hk)) _

/-- Settles O46: a system core restarts alone; a team is killed, and the record that it leaves restores nothing of it. -/
theorem trapInHandler : Obligations.TrapInHandler := by
  unfold Obligations.TrapInHandler
  intro s t h
  rw [trap_kills t h]
  unfold State.killFocus
  refine ⟨fun hs => ?_, fun hs hu => ?_⟩
  · refine (if_pos hs).trans ?_
    exact core_restarts ..
  · rw [if_neg (show ¬ s.bump.ag.isSys = true by rw [show s.bump.ag = s.ag from rfl, hs]; decide)]
    have d := killTeam_discards s.bump s.ag.team t.cause (if s.ag.hnd then 1 else 2) s.ag.g 0 0 t.addr hu
    exact ⟨d.1, d.2, rfl⟩

end Sys2Proof.Proofs.Traps
end

section
/-!
SUPPORT. The machine at reset, and what the loss of power, the resets and the crash dump leave.
-/

namespace Sys2Proof.Proofs.Resets

open Machine Claims Laws

/-! ### The values at reset -/

theorem memoryRoot_has : ∀ p < 13, (quadOf State.reset.ag 4).has p = true ↔ p ≠ permSEAL ∧ p ≠ permUNSEAL := by decide

theorem sealRoot_has : ∀ p < 13, (quadOf State.reset.ag 5).has p = true ↔ p = permSEAL ∨ p = permUNSEAL ∨ p = permGLOB := by
  decide

theorem sget_absent (m : List (Nat × Word)) (n : Nat) (h : ∀ e ∈ m, e.1 ≠ n) : sget 0 m n = 0 := by
  induction m with
  | nil => rfl
  | cons e m ih =>
    unfold sget
    rw [if_neg fun k : n = e.1 => h e List.mem_cons_self k.symm, ih fun x hx => h x (List.mem_cons_of_mem e hx)]
    exact ite_self 0

theorem reset_keys : ∀ e ∈ State.reset.ag.sregs, 16 ≤ e.1 ∧ e.1 < 28 := by decide

theorem reset_scalar : ∀ n < 160, n < 16 ∨ 28 ≤ n → State.reset.ag.raw (.s n) = 0 := by
  intro n _ hn
  unfold Agent.raw
  refine ite_eq_left_iff.mpr fun _ => sget_absent _ n fun e he => ?_
  have := reset_keys e he
  omega

theorem reset_tags : ∀ q < 40, q < 4 ∨ 7 ≤ q → State.reset.ag.raw (.ct q) = 0 := by decide

theorem reset_rest : ∀ a ∈ State.reset.rest, a.isSys = true ∧ a.wait = .wfi ∧ a.mode = 2 := by
  intro a h
  obtain ⟨k, -, rfl⟩ := List.mem_map.mp h
  exact ⟨rfl, rfl, show (xstatInit 0 2 false false |>.extractLsb' 2 2).toNat = 2 by decide⟩

/-- Settles O50: the reset state is closed, and its values compute. -/
theorem resetValues : Obligations.ResetValues := by
  unfold Obligations.ResetValues
  refine ⟨rfl, rfl, rfl, rfl, by decide, rfl, by decide, ?_, ?_, by decide, reset_scalar, reset_tags, reset_rest, rfl,
    rfl, rfl, rfl, rfl, rfl, rfl, rfl, rfl⟩
  · exact ⟨by decide, by decide, by decide, by decide, by decide, by decide, by decide, memoryRoot_has⟩
  · exact ⟨by decide, by decide, by decide, by decide, by decide, by decide, sealRoot_has⟩

/-! ### Loss of power -/

theorem powerLoss_fuses (s : State) : ∃ t, exec .powerLoss s = .next t ∧ t = { s with
      powered := false
      islet := { s.islet with
        fuseA := t.islet.fuseA
        fuseB := t.islet.fuseB } }
    ∧ s.islet.fuseA ≤ t.islet.fuseA ∧ s.islet.fuseB ≤ t.islet.fuseB := by
  refine ⟨_, rfl, ?_⟩
  dsimp only
  split
  · dsimp only
    refine ⟨rfl, Nat.le_add_right .., ?_⟩
    split
    · exact Nat.le_refl _
    · exact Nat.le_add_right ..
  · exact ⟨rfl, Nat.le_refl _, Nat.le_refl _⟩

/-! ### Package reset -/

/-- The Islet as the boot algorithm meets it: the non-volatile part stays. -/
def Waking (i : Islet) : Islet :=
  { i with
    bootHalted := false, mbarg := 0, mbcmd := 0, mbstat := 0, mbres := none, measured := [], pest := 0, step := 64
    leak := 0, pwrAt := 0, leakAt := 0, overSince := none, underSince := none, alert := false, drained := [] }

theorem boot_equal (i : Islet) (f : Bool) (he : i.fuseA = i.fuseB) : i.boot f = (Waking i).pickSlot := by
  have same : { Waking i with
      fuseA := max i.fuseA i.fuseB
      fuseB := max i.fuseA i.fuseB } = Waking i := by
    rw [← he, Nat.max_self]
    show _ = { Waking i with
      fuseA := i.fuseA
      fuseB := i.fuseB }
    rw [← he]
  unfold Islet.boot
  dsimp only
  rw [if_neg (by simp [he])]
  exact congrArg Islet.pickSlot same

theorem boot_boots (i : Islet) (f : Bool) (he : i.fuseA = i.fuseB) (hs : i.staged = false) : Boots i (i.boot f) := by
  rw [boot_equal i f he]
  exact pick_boots (Waking i) hs rfl

/-- The state that a package reset gives, before boot halts. -/
def Rebooted (s : State) (i : Islet) : State :=
  { State.reset with
    mem := s.mem
    cipher := s.cipher
    keys := { State.reset.keys with
      full := [(0, s.keys.gens + 1)]
      gens := s.keys.gens + 1
      known := s.keys.known }
    fabric := { State.reset.fabric with pkgid := s.fabric.pkgid }
    islet := i
    fresh := s.fresh
    schedule := s.schedule }

theorem packageReset_eq (s : State) : exec .packageReset s =
    let i := s.islet.boot (Config.freeBit s.fresh 5)
    .next (if i.bootHalted then (Rebooted s i).updAll fun a => { a with alive := false } else Rebooted s i) := rfl

theorem packageReset_boots (s : State) : ∃ t, exec .packageReset s = .next t
    ∧ t = { State.reset with
      ag := t.ag
      rest := t.rest
      mem := s.mem
      cipher := s.cipher
      keys := { State.reset.keys with
        full := [(0, s.keys.gens + 1)]
        gens := s.keys.gens + 1
        known := s.keys.known }
      fabric := { State.reset.fabric with pkgid := s.fabric.pkgid }
      islet := t.islet
      fresh := s.fresh
      schedule := s.schedule }
    ∧ (t.islet.bootHalted = false → t.ag = State.reset.ag ∧ t.rest = State.reset.rest)
    ∧ (t.islet.bootHalted = true → ∀ a ∈ t.agents, a.alive = false)
    ∧ (t.islet.bootHalted = false → t.islet.fuseA = max s.islet.fuseA s.islet.fuseB ∧ t.islet.fuseB = t.islet.fuseA)
    ∧ (s.islet.fuseA = s.islet.fuseB → s.islet.staged = false → Boots s.islet t.islet) := by
  refine ⟨_, packageReset_eq s, ?_⟩
  have fuses := boot_eq s.islet (Config.freeBit s.fresh 5)
  have boots := boot_boots s.islet (Config.freeBit s.fresh 5)
  generalize s.islet.boot (Config.freeBit s.fresh 5) = i at fuses boots
  dsimp only
  cases hb : i.bootHalted with
  | true =>
    refine ⟨rfl, fun h => absurd (hb.symm.trans h) (by decide), fun _ a ha => ?_, fun h => absurd (hb.symm.trans h) (by decide),
      boots⟩
    obtain ⟨b, -, rfl⟩ := mem_updAll (s := Rebooted s i) (f := fun a => { a with alive := false }) ha
    rfl
  | false => exact ⟨rfl, fun _ => ⟨rfl, rfl⟩, fun h => absurd (hb.symm.trans h) (by decide), fuses, boots⟩

/-! ### Partition reset -/

theorem fabric_logs {α : Type} (f : α → Nat × Nat) (l : List α) (s : State) :
    (l.foldl (fun s x => s.logEvent (f x).1 (f x).2) s).fabric = s.fabric :=
  (fold_keep (fun s x => s.logEvent (f x).1 (f x).2) (fun _ _ => ⟨rfl, rfl, rfl⟩) l s).2.1

theorem fabric_swapSystem (s : State) (p : Nat) : (s.swapSystem p).fabric = s.fabric := by
  unfold State.swapSystem
  dsimp only
  rw [fabric_logs (fun x : Nat × Nat => (8, 64 * x.1 + x.2))]

/-- The links of partition `p` start again, but for those that have failed. -/
def LinksDown (f : Fabric) (p : Nat) : Prop := ∀ l ∈ f.links, f.linkpart / 2 ^ (2 * l.n) % 4 = p → l.state = 1 ∨ l.state = 3

theorem linksDown_restarted (f : Fabric) (p : Nat) (ports : List Port) (done : List Nat) : LinksDown { f with
      links := f.links.map fun l => if field f.linkpart (2 * l.n) 2 == p && l.state != 3 then { l with state := 1 } else l
      ports := ports
      portDone := done } p := by
  intro l hl hn
  obtain ⟨k, -, hk⟩ := List.mem_map.mp hl
  split at hk
  · rw [← hk]
    exact .inl rfl
  · rename_i hc
    subst hk
    have mine : field f.linkpart (2 * k.n) 2 = p := hn
    exact .inr (by simpa [mine] using hc)

theorem resetPartition_links (s : State) (p : Nat) : ∃ t : State, s.resetPartition p = t.restartSystem p ∧ LinksDown t.fabric p := by
  unfold State.resetPartition
  refine ⟨_, rfl, ?_⟩
  dsimp only
  rw [fabric_swapSystem, (fold_keep _ (fun s l => putBytes_keep s 0 (128 * l) (List.replicate 128 0)) _ _).2.1,
    fabric_logs (fun l : Nat => (9, l))]
  exact linksDown_restarted _ p _ _

/-! ### Crash dump -/

theorem updAgent_launches (s : State) (id : Nat) (f : Agent → Agent) : (s.updAgent id f).launches = s.launches := by
  unfold State.updAgent
  split <;> rfl

/-- What runs of partition `p` is a system core. -/
def GroupsStopped (s : State) (p : Nat) : Prop := ∀ b ∈ s.agents, b.cpart = p → b.isSys = false → b.alive = false

theorem GroupsStopped.all {s : State} {p : Nat} (h : GroupsStopped s p) (f : Agent → Agent)
    (hf : ∀ a, f a = a ∨ (f a).isSys = true ∨ (f a).alive = false) : GroupsStopped (s.updAll f) p := by
  intro b hb hp hs
  obtain ⟨a, ha, rfl⟩ := mem_updAll hb
  obtain same | sys | dead := hf a
  · rw [same] at hp hs ⊢
    exact h a ha hp hs
  · exact absurd (sys.symm.trans hs) (by decide)
  · exact dead

theorem GroupsStopped.one {s : State} {p : Nat} (h : GroupsStopped s p) (id : Nat) (f : Agent → Agent)
    (hf : ∀ a, (f a).isSys = true) : GroupsStopped (s.updAgent id f) p := by
  intro b hb hp hs
  obtain ⟨a, ha, rfl | rfl⟩ := mem_updAgent hb
  · exact absurd ((hf a).symm.trans hs) (by decide)
  · exact h b ha hp hs

theorem crash_stops (s : State) (p : Nat) (h : (s.dbgOf p).crash.testBit 0 = true) :
    (∀ l ∈ (s.crash p).launches, l.cpart ≠ p) ∧ GroupsStopped (s.crash p) p := by
  unfold State.crash
  dsimp only
  rw [if_neg (by rw [h]; decide)]
  generalize List.foldl State.shelve s _ = s1
  have none_left : ∀ l ∈ s1.launches.filter (fun l => l.cpart != p), l.cpart ≠ p :=
    fun l hl => bne_iff_ne.mp (List.mem_filter.mp hl).2
  generalize hs2 : ({ s1 with
    teams := s1.teams.filter fun t => !((s.launches.filter fun l => l.cpart == p).map fun l => l.id).contains t.launch
    launches := s1.launches.filter fun l => l.cpart != p } : State) = s2
  have launches2 : s2.launches = s1.launches.filter fun l => l.cpart != p := by rw [← hs2]
  have stopped3 : GroupsStopped (s2.updAll fun a => if a.cpart == p && !a.isSys then { a with alive := false } else a) p := by
    intro b hb hp hs
    obtain ⟨a, -, e⟩ := mem_updAll (f := fun a => if a.cpart == p && !a.isSys then { a with alive := false } else a) hb
    split at e
    · rw [e]
    · rename_i hc
      rw [e] at hp hs
      exact absurd hc (by simp [hp, hs])
  generalize hs3 : (s2.updAll fun a => if a.cpart == p && !a.isSys then { a with alive := false } else a) = s3 at stopped3
  have launches3 : s3.launches = s2.launches := by rw [← hs3]; rfl
  split
  · refine ⟨fun l hl => ?_, stopped3⟩
    rw [launches3, launches2] at hl
    exact none_left l hl
  · rename_i low others _
    obtain ⟨agents4, -, launches4⟩ := fold_keep _ (dumpCore_keep (field (s.dbgOf p).crash 12 40 * 4096)) others s3
    generalize List.foldl _ s3 others = s4 at agents4 launches4
    have stopped4 : GroupsStopped s4 p := fun b hb => stopped3 b (agents4 ▸ hb)
    refine ⟨fun l hl => ?_, (stopped4.all _ fun a => ?_).one _ _ fun a => rfl⟩
    · rw [updAgent_launches] at hl
      exact none_left l (launches2 ▸ launches3 ▸ launches4 ▸ hl)
    · split
      · exact .inr (.inr rfl)
      · exact .inl rfl

/-- Settles O44: the loss of power moves the fuses alone, a package reset boots as R440 says, a partition reset restarts its cores
after its links, and a crash dump leaves no launch and no running group. -/
theorem resets : Obligations.Resets := by
  unfold Obligations.Resets
  refine ⟨powerLoss_fuses, packageReset_boots, fun s p => ?_, fun s p h => ⟨s.crash p, rfl, crash_stops s p h⟩⟩
  obtain ⟨t, e, links⟩ := resetPartition_links s p
  obtain ⟨low, cores, lowest⟩ := restart_of t p
  exact ⟨t.restartSystem p, low, congrArg Host.Outcome.next e, cores, lowest, links⟩

end Sys2Proof.Proofs.Resets
end

section
/-!
SUPPORT. The checks of the accesses of an instruction: which failure is reported, and what a pass leaves.
-/

namespace Sys2Proof.Proofs.AccessChecks

open Machine Claims Laws

/-- What fails of one translated request. -/
def xlateFail (tolerant : Bool) (r : Req) : XRes → Option Fail
  | .fail c => some ⟨r.lane, xRank c, c, r.va⟩
  | .absent => if tolerant then none else some ⟨r.lane, 6, 0x10, r.va⟩
  | _ => none

theorem xlateFails_map (tolerant : Bool) (f : Req → XRes) (rs : List Req) :
    xlateFails tolerant (rs.map fun r => (r, f r)) = rs.filterMap fun r => xlateFail tolerant r (f r) := by
  unfold xlateFails
  rw [List.filterMap_map]
  refine List.filterMap_congr fun r _ => ?_
  dsimp only [Function.comp]
  cases f r <;> rfl

/-- The translation of a request and its failure, by cause: an absent page fails with the cause of an entry that is missing. -/
theorem xlateFail_some (s : State) (write : Bool) (r : Req) (x : Fail)
    (h : xlateFail false r (s.xlateMine (r.cap.want write) r.va) = some x) :
    FailsXlate s write x.cause r ∧ x.lane = r.lane ∧ x.addr = r.va ∧ x.rank = xRank x.cause := by
  unfold FailsXlate
  cases e : s.xlateMine (r.cap.want write) r.va with
  | fail c =>
    rw [e] at h
    obtain rfl := Option.some.inj h
    exact ⟨.inl rfl, rfl, rfl, rfl⟩
  | absent =>
    rw [e] at h
    obtain rfl := Option.some.inj h
    exact ⟨.inr ⟨rfl, rfl⟩, rfl, rfl, rfl⟩
  | ok => rw [e] at h; exact absurd h (by simp [xlateFail])
  | touch => rw [e] at h; exact absurd h (by simp [xlateFail])

theorem xlateFail_of (s : State) (write : Bool) (c : Nat) (r : Req) (h : FailsXlate s write c r) :
    ∃ x, xlateFail false r (s.xlateMine (r.cap.want write) r.va) = some x ∧ x.rank = xRank c := by
  obtain h | ⟨h, rfl⟩ := h
  · rw [h]; exact ⟨_, rfl, rfl⟩
  · rw [h]; exact ⟨_, rfl, rfl⟩

/-- The failures of the capability checks: every one that the first failing step reports. -/
theorem capFails_pick {size align k : Nat} {rs : List Req} (hf : ∃ r ∈ rs, FailsCheck size align k r)
    (hp : PassBefore size align k rs) : ∃ (m : BitVec 32) (r : Req), LanesOf m rs (FailsCheck size align k)
      ∧ FirstOf r rs (FailsCheck size align k) ∧ pickFail (capFails size align rs) = some (k, m, r.va) := by
  refine pick rs _ (FailsCheck size align k) k k (fun r hr x hx => ?_) (fun r hr h => ?_) hf
  · obtain ⟨c, hc, rfl⟩ := Option.map_eq_some_iff.mp hx
    have fails := (check_some.mp hc).1
    exact ⟨rfl, rfl, Nat.le_of_not_lt fun lt => hp r hr c lt fails, fun e => ⟨e, e ▸ fails⟩⟩
  · exact ⟨⟨r.lane, k, k, r.va⟩, by rw [check_some.mpr ⟨h, hp r hr⟩]; rfl, rfl⟩

theorem failsCheck_lt {size align c : Nat} {r : Req} (h : FailsCheck size align c r) : c < 13 := by
  unfold FailsCheck at h
  split at h
  case h_6 => exact h.elim
  all_goals omega

theorem capFails_nil {size align : Nat} {rs : List Req} (hp : PassBefore size align 13 rs) : capFails size align rs = [] := by
  refine List.filterMap_eq_nil_iff.mpr fun r hr => Option.map_eq_none_iff.mpr ?_
  refine Option.eq_none_iff_forall_not_mem.mpr fun c hc => ?_
  have fails := (check_some.mp (Option.mem_def.mp hc)).1
  exact hp r hr c (failsCheck_lt fails) fails

section
variable {s : State} {lane : Bool} {info size align : Nat} {write tolerant : Bool} {rs : List Req}

theorem checkAccess_traps {k : Nat} (hf : ∃ r ∈ rs, FailsCheck size align k r) (hp : PassBefore size align k rs) :
    ∃ (m : BitVec 32) (r : Req), LanesOf m rs (FailsCheck size align k) ∧ FirstOf r rs (FailsCheck size align k)
      ∧ s.checkAccess lane info size align write tolerant rs = .trap s ⟨k, r.va, if lane then m else 0, info, lane⟩ := by
  obtain ⟨m, r, lanes, first, picked⟩ := capFails_pick hf hp
  refine ⟨m, r, lanes, first, ?_⟩
  unfold State.checkAccess
  rw [picked]

/-- With the checks of R93 passed and no first touch, the translations as they are decide. -/
theorem checkAccess_xlated (hp : PassBefore size align 13 rs)
    (ht : ∀ r ∈ rs, ∀ a p z, s.xlateMine (r.cap.want write) r.va ≠ .touch a p z) :
    s.checkAccess lane info size align write tolerant rs
      = s.checkXlated lane info tolerant (rs.map fun r => (r, s.xlateMine (r.cap.want write) r.va))
    ∧ s.resolveTouches lane [] (rs.map fun r => (r, s.xlateMine (r.cap.want write) r.va))
      = .ok (s, rs.map fun r => (r, s.xlateMine (r.cap.want write) r.va)) := by
  constructor
  · unfold State.checkAccess
    rw [capFails_nil hp]
    rfl
  · refine resolve_id s lane _ [] fun x hx => ?_
    obtain ⟨r, hr, rfl⟩ := List.mem_map.mp hx
    exact ht r hr

theorem checkXlated_traps {c : Nat} (hc : c ≠ 0x03) (hf : ∃ r ∈ rs, FailsXlate s write c r)
    (hmin : ∀ r ∈ rs, ∀ d, FailsXlate s write d r → xlateStep c < xlateStep d ∨ d = c)
    (ht : s.resolveTouches lane [] (rs.map fun r => (r, s.xlateMine (r.cap.want write) r.va))
      = .ok (s, rs.map fun r => (r, s.xlateMine (r.cap.want write) r.va))) :
    ∃ (m : BitVec 32) (r : Req), LanesOf m rs (FailsXlate s write c) ∧ FirstOf r rs (FailsXlate s write c)
      ∧ s.checkXlated lane info false (rs.map fun r => (r, s.xlateMine (r.cap.want write) r.va))
        = .trap (rs.foldl (fun v r => v.noteWalk v.ag.who r.va) s) ⟨c, r.va, if lane then m else 0, info, lane⟩ := by
  obtain ⟨m, r, lanes, first, picked⟩ := pick rs (fun r => xlateFail false r (s.xlateMine (r.cap.want write) r.va))
    (FailsXlate s write c) (xRank c) c (fun r hr x hx => by
      obtain ⟨fails, hl, ha, hk⟩ := xlateFail_some s write r x hx
      refine ⟨hl, ha, ?_⟩
      obtain lt | e := hmin r hr _ fails
      · have := rank_step _ _ lt
        rw [hk]
        exact ⟨by omega, fun e => absurd e (by omega)⟩
      · rw [hk, e]
        exact ⟨Nat.le_refl _, fun _ => ⟨rfl, e ▸ fails⟩⟩)
    (fun r _ h => xlateFail_of s write c r h) hf
  refine ⟨m, r, lanes, first, ?_⟩
  unfold State.checkXlated
  rw [ht]
  dsimp only
  rw [xlateFails_map, picked]
  dsimp only
  rw [if_neg hc, if_neg hc, if_neg hc, List.foldl_map]
  cases lane <;> rfl

/-- A request as the access that its translation makes of it. -/
def MadeOf (s : State) (write : Bool) (r : Req) (x : Acc) : Prop :=
  ∃ pa o pte z, s.xlateMine (r.cap.want write) r.va = .ok pa o pte z
    ∧ x = ⟨r.lane, .pa pa, r.va, r.data, r.cmp, r.tag, true, o, r.cap.has permLDC, r.cap.perms, s.ag.mode⟩

theorem checkXlated_passes (hok : ∀ r ∈ rs, ∃ pa o pte z, s.xlateMine (r.cap.want write) r.va = .ok pa o pte z)
    (ht : s.resolveTouches lane [] (rs.map fun r => (r, s.xlateMine (r.cap.want write) r.va))
      = .ok (s, rs.map fun r => (r, s.xlateMine (r.cap.want write) r.va))) :
    ∃ (s' : State) (accs : List Acc),
      s.checkXlated lane info tolerant (rs.map fun r => (r, s.xlateMine (r.cap.want write) r.va)) = .ok s' accs
        ∧ List.Forall₂ (MadeOf s write) rs accs := by
  have none_fails : (rs.filterMap fun r => xlateFail tolerant r (s.xlateMine (r.cap.want write) r.va)) = [] := by
    refine List.filterMap_eq_nil_iff.mpr fun r hr => ?_
    obtain ⟨pa, o, pte, z, e⟩ := hok r hr
    rw [e]
    rfl
  unfold State.checkXlated
  rw [ht]
  dsimp only
  rw [xlateFails_map, none_fails]
  refine ⟨_, _, rfl, ?_⟩
  rw [List.map_map, List.forall₂_map_right_iff, List.forall₂_same]
  intro r hr
  obtain ⟨pa, o, pte, z, e⟩ := hok r hr
  refine ⟨pa, o, pte, z, e, ?_⟩
  dsimp only [Function.comp]
  rw [e]
  rfl

end

/-- Settles O51: the first failing step is picked, over the lanes, before translation and in it; else every access is made. -/
theorem accessChecks : Obligations.AccessChecks := by
  unfold Obligations.AccessChecks
  intro s lane info size align write tolerant rs
  refine ⟨fun k hf hp => checkAccess_traps hf hp, fun hp ht => ?_⟩
  obtain ⟨checked, touched⟩ := checkAccess_xlated (lane := lane) (info := info) (tolerant := tolerant) hp ht
  rw [checked]
  refine ⟨fun c hc hf hmin htol => ?_, fun hok => checkXlated_passes hok touched⟩
  rw [htol]
  exact checkXlated_traps hc hf hmin touched

end Sys2Proof.Proofs.AccessChecks
end

section
/-!
SUPPORT. The first registers of a group: a placed group's, and those that the threads of a spawned group bring.
-/

namespace Sys2Proof.Proofs.GroupCreation

open Machine Claims Laws

/-- A group whose control registers are those of a blank agent, of its launch and of its scheduling context. -/
theorem freshControl_of {s : State} {l : Launch} {a : Agent} (id : Nat) (kind : AgentKind) (h : a = { Agent.blank id kind with
      die := a.die
      core := a.core
      part := a.part
      slot := a.slot
      sslot := a.sslot
      cpart := l.cpart
      team := a.team
      launch := l.id
      g := a.g
      role := a.role
      budget := a.budget
      pid := l.pid
      tid := l.tid
      space := l.space
      pcc := a.pcc
      em := a.em
      lm := a.lm
      sregs := a.sregs
      ctags := a.ctags
      vregs := a.vregs
      vtags := a.vtags
      kentry := s.capPhys l.ctx
      kscr := s.capPhys (l.ctx + 16)
      xstat := xstatInit l.domain l.bmode false l.hchk
      joins := a.joins
      age := a.age
      snapshot := a.snapshot
      snapReady := a.snapReady }) : FreshControl s l a := by
  obtain ⟨mode, bmode, domain, hchk, hnd⟩ := xstat_fields l.domain l.bmode l.hchk a (by rw [h])
  constructor
  case mode => exact mode
  case bmode => exact bmode
  case domain => exact domain
  case hchk => exact hchk
  case hnd => exact hnd
  case toks => rw [h]; exact fun n => rfl
  case flags | latches => rw [h]; exact ⟨rfl, rfl⟩
  case queues => rw [h]; exact ⟨rfl, rfl, rfl⟩
  case kentry | kscr => rw [h]
  case names => rw [h]; exact ⟨rfl, rfl, rfl, rfl, rfl⟩
  all_goals rw [h]; rfl

theorem no_lane (k : Nat) : bit01 ((0 : BitVec 32).getLsbD k) = 0 := by
  rw [show (0 : BitVec 32).getLsbD k = false from BitVec.getLsbD_zero]
  rfl

theorem no_tag (q : Nat) : (if q = 0 then 0 else bit01 ((0 : BitVec 40).getLsbD q)) = (0 : Word) := by
  rw [show (0 : BitVec 40).getLsbD q = false from BitVec.getLsbD_zero]
  exact ite_self _

/-- Registers that nothing has written: no vector register, no vector tag, no predicate but p0. -/
theorem unwritten {a : Agent} (hv : a.vregs = []) (ht : a.vtags = []) (hp : a.preds = []) (n k : Nat) :
    a.raw (.v n k) = 0 ∧ a.raw (.vt n k) = 0 ∧ a.raw (.p n k) = if n = 0 then 1 else 0 := by
  unfold Agent.raw
  dsimp only
  rw [hv, ht, hp]
  exact ⟨rfl, no_lane k, congrArg (ite (n = 0) 1) (no_lane k)⟩

/-! ### Placed groups -/

/-- The role that a launch gives group `g`. -/
def roleFor (l : Launch) (g : Nat) : Role := l.roles.getD (roleOf l.roles g) ⟨0, 0, 4, .null, .null⟩

/-- A placed group before a region takes its snapshot. -/
def placedGroup (s : State) (l : Launch) (team d first g id : Nat) : Agent :=
  { Agent.blank id .placed with
    die := d
    core := first + g % l.fcores
    part := (s.pickSlot g d (first + g % l.fcores)).1
    slot := (s.pickSlot g d (first + g % l.fcores)).2
    cpart := l.cpart
    team := team
    launch := l.id
    g := g
    role := roleOf l.roles g
    budget := (roleFor l g).budget
    pid := l.pid
    tid := l.tid
    space := l.space
    pcc := { (roleFor l g).entry.withSeal 0 with tag := (roleFor l g).entry.tag }
    sregs := quadEntries 4 l.arg.bits ++ quadEntries 5 (roleFor l g).lcode.bits
    ctags := (if l.arg.tag then 0x10 else 0) ||| (if (roleFor l g).lcode.tag then 0x20 else 0)
    kentry := s.capPhys l.ctx
    kscr := s.capPhys (l.ctx + 16)
    xstat := xstatInit l.domain l.bmode false l.hchk
    age := id }

theorem newGroup_eq (s : State) (l : Launch) (team d first g id : Nat) : ∃ x y,
    s.newGroup l team d first g id = { placedGroup s l team d first g id with
      snapshot := x
      snapReady := y } := by
  have h : s.newGroup l team d first g id = match l.regionAt (placedGroup s l team d first g id).pcc with
      | some r => (placedGroup s l team d first g id).takeSnapshot r
      | none => placedGroup s l team d first g id := rfl
  cases hr : l.regionAt (placedGroup s l team d first g id).pcc with
  | none => exact ⟨none, false, by rw [h, hr]; rfl⟩
  | some r => exact ⟨_, _, by rw [h, hr]; rfl⟩

/-- The tags of a group that starts with capabilities in c4 and c5. -/
theorem twoTags (t u : Bool) : ∀ q < 40, ((if t then 0x10 else 0) ||| (if u then 0x20 else 0) : BitVec 40).getLsbD q
    = (q == 4 && t || q == 5 && u) := by
  cases t <;> cases u <;> decide

theorem tag_read (b : Bool) : (bit01 b != 0) = b := by cases b <;> rfl

section
variable (a : Agent) (c4 c5 : Cap) (hs : a.sregs = quadEntries 4 c4.bits ++ quadEntries 5 c5.bits)
  (ht : a.ctags = (if c4.tag then 0x10 else 0) ||| (if c5.tag then 0x20 else 0))
include hs

theorem raw_s_placed (n : Nat) (hn : 4 ≤ n) : a.raw (.s n) = if 16 ≤ n ∧ n < 20 then c4.bits.extractLsb' (32 * (n - 16)) 32
    else if 20 ≤ n ∧ n < 24 then c5.bits.extractLsb' (32 * (n - 20)) 32 else 0 := by
  unfold Agent.raw
  dsimp only
  rw [if_neg (by omega), hs]
  exact quad_words ..

theorem raw_s_rest (n : Nat) (hn : n < 16 ∨ 24 ≤ n) : a.raw (.s n) = 0 := by
  by_cases h : n < 4
  · exact if_pos h
  · rw [raw_s_placed a c4 c5 hs n (by omega), if_neg (by omega), if_neg (by omega)]

omit hs
include ht

theorem raw_ct_placed (q : Nat) (hq : q < 40) (h0 : q ≠ 0) : a.raw (.ct q) = bit01 (q == 4 && c4.tag || q == 5 && c5.tag) := by
  unfold Agent.raw
  dsimp only
  rw [if_neg h0, ht, twoTags _ _ q hq]

theorem raw_ct_rest (q : Nat) (hq : q < 40) (h4 : q ≠ 4) (h5 : q ≠ 5) : a.raw (.ct q) = 0 := by
  by_cases h : q = 0
  · exact if_pos h
  · rw [raw_ct_placed a c4 c5 ht q hq h, beq_false_of_ne h4, beq_false_of_ne h5]
    rfl

include hs

theorem quad4_placed : quadOf a 4 = c4 := by
  unfold quadOf
  refine words_eq c4 _ _ _ _ _ ?_ ?_ ?_ ?_ ?_
  · rw [raw_ct_placed a c4 c5 ht 4 (by decide) (by decide)]
    cases c4.tag <;> rfl
  all_goals rw [raw_s_placed a c4 c5 hs _ (by decide)]; rfl

theorem quad5_placed : quadOf a 5 = c5 := by
  unfold quadOf
  refine words_eq c5 _ _ _ _ _ ?_ ?_ ?_ ?_ ?_
  · rw [raw_ct_placed a c4 c5 ht 5 (by decide) (by decide)]
    cases c5.tag <;> rfl
  all_goals rw [raw_s_placed a c4 c5 hs _ (by decide)]; rfl

end

/-! ### Spawned groups -/

theorem takeThread_files (a : Agent) (k : Nat) (th : Thread) : ∃ x y, a.takeThread k th = { a with
    vregs := x
    vtags := y } := by
  have puts : ∀ (ls : List (Loc × Word)), (∀ e ∈ ls, ∃ r j, e.1 = .v r j ∨ e.1 = .vt r j) → ∀ a : Agent, ∃ x y,
      ls.foldl (fun a e => a.put e.1 e.2) a = { a with
        vregs := x
        vtags := y } := by
    intro ls
    induction ls with
    | nil => exact fun _ a => ⟨a.vregs, a.vtags, rfl⟩
    | cons e ls ih =>
      intro h a
      obtain ⟨x, y, e'⟩ := ih (fun e he => h e (List.mem_cons_of_mem _ he)) (a.put e.1 e.2)
      obtain ⟨r, j, hv | hv⟩ := h e List.mem_cons_self
      · exact ⟨x, y, by rw [List.foldl_cons, e', hv]; rfl⟩
      · exact ⟨x, y, by rw [List.foldl_cons, e', hv]; rfl⟩
  obtain ⟨x, y, h⟩ := puts (th.regs.map fun e => (.v e.1 k, e.2)) (fun e he => by
    obtain ⟨r, -, rfl⟩ := List.mem_map.mp he
    exact ⟨_, _, .inl rfl⟩) a
  obtain ⟨x', y', h'⟩ := puts (th.tags.map fun q => (.vt q k, 1)) (fun e he => by
    obtain ⟨r, -, rfl⟩ := List.mem_map.mp he
    exact ⟨_, _, .inr rfl⟩) { a with
      vregs := x
      vtags := y }
  rw [List.foldl_map] at h h'
  refine ⟨x', y', ?_⟩
  unfold Agent.takeThread
  dsimp only at h h' ⊢
  rw [h, h']

/-- Every thread in its lane. -/
def takeAll (a : Agent) (es : List (Nat × Thread)) : Agent := es.foldl (fun a e => a.takeThread e.1 e.2) a

theorem takeAll_files (a : Agent) (es : List (Nat × Thread)) : ∃ x y, takeAll a es = { a with
    vregs := x
    vtags := y } := by
  induction es generalizing a with
  | nil => exact ⟨a.vregs, a.vtags, rfl⟩
  | cons e es ih =>
    obtain ⟨x, y, h⟩ := takeThread_files a e.1 e.2
    obtain ⟨x', y', h'⟩ := ih { a with
      vregs := x
      vtags := y }
    refine ⟨x', y', ?_⟩
    show takeAll (a.takeThread e.1 e.2) es = _
    rw [h, h']

/-- A lane that no thread takes keeps its registers. -/
theorem takeAll_other (a : Agent) (es : List (Nat × Thread)) (hes : ∀ e ∈ es, e.1 < 32) (n k : Nat) (hk : k < 32)
    (h : ∀ e ∈ es, e.1 ≠ k) : (takeAll a es).raw (.v n k) = a.raw (.v n k) ∧ (takeAll a es).raw (.vt n k) = a.raw (.vt n k) := by
  induction es generalizing a with
  | nil => exact ⟨rfl, rfl⟩
  | cons e es ih =>
    have tail := ih (a.takeThread e.1 e.2) (fun x hx => hes x (List.mem_cons_of_mem _ hx)) fun x hx => h x (List.mem_cons_of_mem _ hx)
    have head := take_other a e.1 (hes e List.mem_cons_self) e.2 n k hk fun x => h e List.mem_cons_self x.symm
    exact ⟨tail.1.trans head.1, tail.2.trans head.2⟩

/-- What a thread brings into its lane: its registers, and their tags where it had any. -/
theorem takeThread_brings (a : Agent) (k : Nat) (hk : k < 32) (th : Thread) (hn : (th.regs.map fun e => e.1).Nodup)
    (h0 : ∀ q, a.raw (.vt q k) = 0) : (∀ e ∈ th.regs, (a.takeThread k th).raw (.v e.1 k) = e.2)
      ∧ (∀ n, n ∉ th.regs.map (fun e => e.1) → (a.takeThread k th).raw (.v n k) = a.raw (.v n k))
      ∧ ∀ q, (a.takeThread k th).raw (.vt q k) = bit01 (th.tags.contains q) := by
  unfold Agent.takeThread
  dsimp only
  refine ⟨fun e he => ?_, fun n hm => ?_, fun q => ?_⟩
  · rw [tags_v, regs_mine k hk th.regs a hn e he]
  · rw [tags_v, regs_other k hk th.regs a n k hk (.inr hm)]
  · rw [tags_vt k hk, regs_tag k th.regs a q k (h0 q)]
    unfold bit01
    simp

section
variable (a : Agent) (ths : List Thread) (hl : ths.length ≤ 32)

/-- The threads of a group with their lanes. -/
def lanesFor : List (Nat × Thread) := (List.range ths.length).zip ths

theorem mem_lanesFor {k : Nat} {th : Thread} : (k, th) ∈ lanesFor ths ↔ ths[k]? = some th := by
  unfold lanesFor
  rw [List.mem_iff_getElem?]
  simp only [List.getElem?_zip_eq_some]
  constructor
  · rintro ⟨i, hi, ht⟩
    obtain ⟨_, rfl⟩ := List.getElem?_eq_some_iff.mp hi
    simpa using ht
  · intro h
    obtain ⟨hk, -⟩ := List.getElem?_eq_some_iff.mp h
    exact ⟨k, by simp [hk], h⟩

theorem lanesFor_keys : (lanesFor ths).map Prod.fst = List.range ths.length :=
  List.map_fst_zip (by rw [List.length_range])

include hl in
theorem lanesFor_lt (e : Nat × Thread) (he : e ∈ lanesFor ths) : e.1 < 32 := by
  have : e.1 ∈ List.range ths.length := lanesFor_keys ths ▸ List.mem_map_of_mem he
  have := List.mem_range.mp this
  omega

include hl in
/-- Lane `k` of a group holds what its own thread brings. -/
theorem takeAll_brings (k : Nat) (th : Thread) (hk : ths[k]? = some th) (hn : (th.regs.map fun e => e.1).Nodup)
    (h0 : ∀ q, a.raw (.vt q k) = 0) : (∀ e ∈ th.regs, (takeAll a (lanesFor ths)).raw (.v e.1 k) = e.2)
      ∧ (∀ n, n ∉ th.regs.map (fun e => e.1) → (takeAll a (lanesFor ths)).raw (.v n k) = a.raw (.v n k))
      ∧ ∀ q, (takeAll a (lanesFor ths)).raw (.vt q k) = bit01 (th.tags.contains q) := by
  have hmem := (mem_lanesFor ths).mpr hk
  have hk32 : k < 32 := lanesFor_lt ths hl _ hmem
  obtain ⟨xs, ys, hsplit⟩ := List.append_of_mem hmem
  have keys : ((xs ++ (k, th) :: ys).map Prod.fst).Nodup := by
    rw [← hsplit, lanesFor_keys]
    exact List.nodup_range
  rw [List.map_append, List.map_cons, List.nodup_middle, List.nodup_cons, List.mem_append, not_or] at keys
  obtain ⟨⟨hx, hy⟩, -⟩ := keys
  have lt : ∀ e ∈ xs ++ (k, th) :: ys, e.1 < 32 := fun e he => lanesFor_lt ths hl e (hsplit ▸ he)
  have before := fun n => takeAll_other a xs (fun e he => lt e (List.mem_append_left _ he)) n k hk32
    fun e he h => hx (List.mem_map.mpr ⟨e, he, h⟩)
  have after := fun n => takeAll_other ((takeAll a xs).takeThread k th) ys
    (fun e he => lt e (List.mem_append_right _ (List.mem_cons_of_mem _ he))) n k hk32
    fun e he h => hy (List.mem_map.mpr ⟨e, he, h⟩)
  have split : takeAll a (lanesFor ths) = takeAll ((takeAll a xs).takeThread k th) ys := by
    rw [hsplit]
    exact List.foldl_append ..
  obtain ⟨regs, spared, tags⟩ := takeThread_brings (takeAll a xs) k hk32 th hn fun q => ((before q).2).trans (h0 q)
  rw [split]
  exact ⟨fun e he => ((after e.1).1).trans (regs e he), fun n hm => ((after n).1.trans (spared n hm)).trans (before n).1,
    fun q => ((after q).2).trans (tags q)⟩

include hl in
theorem takeAll_clear (h0 : ∀ n k, a.raw (.v n k) = 0 ∧ a.raw (.vt n k) = 0) (hn : ∀ th ∈ ths, (th.regs.map fun e => e.1).Nodup)
    (k : Nat) (hk : k < 32) (n : Nat) (h : ∀ th, ths[k]? = some th → n ∉ th.regs.map fun e => e.1) :
    (takeAll a (lanesFor ths)).raw (.v n k) = 0 := by
  cases hth : ths[k]? with
  | some th =>
    have brings := takeAll_brings a ths hl k th hth (hn th (List.mem_of_getElem? hth)) fun q => (h0 q k).2
    exact (brings.2.1 n (h th hth)).trans (h0 n k).1
  | none =>
    refine ((takeAll_other a _ (lanesFor_lt ths hl) n k hk fun e he hek => ?_).1).trans (h0 n k).1
    have some_th := (mem_lanesFor ths (k := e.1) (th := e.2)).mp he
    rw [hek, hth] at some_th
    exact absurd some_th (by simp)

end

/-- The mask of the first `n` lanes. -/
def firstLanes (n : Nat) : BitVec 32 := (List.range n).foldl (fun m k => m ||| laneBit k) 0

theorem firstLanes_at (n : Nat) : ∀ k < 32, (firstLanes n).getLsbD k = decide (k < n) := by
  intro k hk
  unfold firstLanes
  rw [bits_fold]
  simp [hk]

/-- A spawned group before its threads take their lanes. -/
def emptyGroup (s : State) (l : Launch) (t : Team) (b : Built) (j : Nat) : Agent :=
  { Agent.blank s.nextAgent .spawned with
    die := t.die
    core := t.first + j % l.fcores
    part := (s.pickSlot j t.die (t.first + j % l.fcores)).1
    slot := (s.pickSlot j t.die (t.first + j % l.fcores)).2
    sslot := some j
    cpart := l.cpart
    team := t.id
    launch := l.id
    g := groupCount l.roles + j
    role := b.role
    budget := (l.roles.getD b.role ⟨0, 0, 4, .null, .null⟩).budget
    pid := l.pid
    tid := l.tid
    space := l.space
    pcc := b.code.withSeal 0
    em := firstLanes b.threads.length
    lm := firstLanes b.threads.length
    kentry := s.capPhys l.ctx
    kscr := s.capPhys (l.ctx + 16)
    xstat := xstatInit l.domain l.bmode false l.hchk
    joins := t.joinsNow
    age := s.nextAgent }

theorem spawnedGroup_eq (s : State) (l : Launch) (t : Team) (b : Built) (j : Nat) :
    s.spawnedGroup l t b j = takeAll (emptyGroup s l t b j) (lanesFor b.threads) := rfl

theorem emptyGroup_clear (s : State) (l : Launch) (t : Team) (b : Built) (j n k : Nat) :
    (emptyGroup s l t b j).raw (.v n k) = 0 ∧ (emptyGroup s l t b j).raw (.vt n k) = 0 := by
  obtain ⟨v, vt, -⟩ := unwritten (a := emptyGroup s l t b j) rfl rfl rfl n k
  exact ⟨v, vt⟩

/-- Settles O53: a placed group has its argument and its code in c4 and c5, a spawned one what its threads bring. -/
theorem groupCreation : Obligations.GroupCreation := by
  unfold Obligations.GroupCreation
  refine ⟨fun s l team d first g id => ?_, fun s l t b j hl hn => ?_⟩
  · obtain ⟨x, y, e⟩ := newGroup_eq s l team d first g id
    generalize s.newGroup l team d first g id = a at e
    have hs : a.sregs = quadEntries 4 l.arg.bits ++ quadEntries 5 (roleFor l g).lcode.bits := by rw [e]; rfl
    have ht : a.ctags = (if l.arg.tag then 0x10 else 0) ||| (if (roleFor l g).lcode.tag then 0x20 else 0) := by rw [e]; rfl
    refine ⟨quad4_placed a _ _ hs ht, quad5_placed a _ _ hs ht, raw_s_rest a _ _ hs, raw_ct_rest a _ _ ht, ?_, ?_, ?_, ?_, ?_,
      ?_, ?_, ?_, ?_, freshControl_of id .placed ?_⟩
    · rw [e]
      exact unwritten rfl rfl rfl
    all_goals rw [e]; rfl
  · have clear := emptyGroup_clear s l t b j
    dsimp only
    rw [spawnedGroup_eq]
    have brings := fun k th hk => takeAll_brings (emptyGroup s l t b j) b.threads hl k th hk (hn th (List.mem_of_getElem? hk))
      fun q => (clear q k).2
    have spared := takeAll_clear (emptyGroup s l t b j) b.threads hl clear hn
    obtain ⟨x, y, e⟩ := takeAll_files (emptyGroup s l t b j) (lanesFor b.threads)
    generalize takeAll (emptyGroup s l t b j) (lanesFor b.threads) = a at *
    have em : a.em = firstLanes b.threads.length := by rw [e]; rfl
    refine ⟨?_, ?_, ?_, ?_, ?_, spared, fun k th hk => ⟨(brings k th hk).1, (brings k th hk).2.2⟩, ?_, ?_, ?_, ?_,
      freshControl_of s.nextAgent .spawned ?_⟩
    · intro n
      rw [e]
      exact ite_self _
    · intro q
      rw [e]
      exact no_tag q
    · intro n k
      rw [e]
      exact (unwritten (a := emptyGroup s l t b j) rfl rfl rfl n k).2.2
    · rw [em]; exact firstLanes_at _
    all_goals rw [e]; rfl

end Sys2Proof.Proofs.GroupCreation
end

section
/-!
SUPPORT. What a step does with the slot at the head of the schedule.
-/

namespace Sys2Proof.Proofs.StepRuns

open Machine Claims Laws

theorem nextSlot_taken {s : State} {x : Slot} {rest : List Slot} (h : Taken s x rest) : s.nextSlot = (x, rest) := by
  unfold State.nextSlot
  rw [h.2]

theorem step_taken {s : State} {x : Slot} {rest : List Slot} (h : Taken s x rest) : step s = (taking s rest).runSlot x := by
  unfold step
  dsimp only
  rw [nextSlot_taken h]
  refine (if_neg ?_).trans rfl
  rw [h.1]
  simp

theorem step_stops {s : State} (hp : s.powered = false) (h : s.nextSlot.1 ≠ .event .packageReset) :
    step s = .fault .powerLost := by
  unfold step
  refine if_pos ?_
  rw [hp]
  exact decide_eq_true h

/-! ### The scalar stream -/

theorem nextScalar_decodes {w : State} {pa o pte z : Nat} {i : Instr} (hc : w.ag.pcc.check [permXS] w.ag.pc 4 4 = none)
    (hx : w.xlateMine { w.ag.pcc.want false with fetch := true } w.ag.pc = .ok pa o pte z)
    (hd : decodeScalar (w.codeAt o pa) = .ok i) :
    w.nextScalar = ((w.noteXlate w.ag.who w.ag.pc pte z).noteKey o pa, some i) := by
  unfold State.nextScalar State.fetchWord
  dsimp only
  rw [hc]
  dsimp only
  rw [hx]
  dsimp only
  rw [hd]

/-- A group that waits for nothing and has nothing due runs its next instruction. -/
theorem issueScalar_runs {s : State} (hdue : s.beginIssue.ag.due = .nothing)
    (hr : s.beginIssue.scalarReady s.beginIssue.ag = true) (hn : s.beginIssue.needsSnapshot = false)
    (hf : s.beginIssue.ag.focusStack = [] ∨ s.beginIssue.ag.hnd = true) : s.issueScalar = s.beginIssue.runScalar := by
  have wait := ready_wait _ _ hr
  have goes : s.beginIssue.ag.mayGoOn = false := by
    unfold Agent.mayGoOn
    rw [wait]
  unfold State.issueScalar
  dsimp only
  rw [if_neg (not_not_intro hdue), wait, if_neg (by simp), if_neg (by rw [goes]; decide), hr, hn, if_neg (by decide), if_neg]
  obtain h | h := hf
  · rw [h]; simp
  · rw [h]; simp

theorem runScalar_stalls {w u : State} {i : Instr} (hn : w.nextScalar = (u, some i)) (hs : u.scalarStalls i = true) :
    w.runScalar = andThen (exec i (freed u false)) u.afterScalar := by
  unfold State.runScalar
  rw [hn]
  exact if_pos hs

theorem runScalar_issues {w u : State} {i : Instr} (hn : w.nextScalar = (u, some i)) (hs : u.scalarStalls i = false)
    (ht : w.hasTurn false w.ag = true) : w.runScalar = andThen (exec i (freed (u.take false) false)) u.afterScalar := by
  unfold State.runScalar
  rw [hn]
  exact (if_neg (by rw [hs]; decide)).trans (if_pos ht)

theorem step_scalar {s u v : State} {i : Instr} (h : ScalarComes s u v i) : step s = andThen (exec i v) u.afterScalar := by
  obtain ⟨rest, pa, o, pte, z, taken, due, ready, snap, focus, check, xlate, decodes, hu, stalls, issues⟩ := h
  have next : (taking s rest).beginIssue.nextScalar = (u, some i) := by
    rw [nextScalar_decodes check xlate decodes, ← hu]
  rw [step_taken taken]
  refine (issueScalar_runs due ready snap focus).trans ?_
  cases hs : u.scalarStalls i with
  | true => rw [runScalar_stalls next hs, stalls hs]
  | false =>
    obtain ⟨turn, hv⟩ := issues hs
    rw [runScalar_issues next hs turn, hv]

theorem afterScalar_bookkeeping (u t : State) : ∃ a b c d, u.afterScalar t = { t with ag := { t.ag with
    stalled := a
    snapReady := b
    pausing := c
    stepping := d } } := by
  unfold State.afterScalar
  split
  · exact ⟨false, _, t.ag.pausing, _, rfl⟩
  · exact ⟨true, t.ag.snapReady, _, t.ag.stepping, rfl⟩

/-! ### The lane stream -/

theorem issueLane_runs {s : State} (hdue : s.beginIssue.ag.due = .nothing)
    (hr : s.beginIssue.laneReady s.beginIssue.ag = true) (ht : s.beginIssue.hasTurn true s.beginIssue.ag = true) :
    s.issueLane = (freed (s.beginIssue.take true) true).coverFocus.runLane := by
  unfold State.issueLane
  dsimp only
  rw [if_neg (not_not_intro hdue), hr, ht]
  rfl

theorem nextLaneBits_fetches {x v : State} {b : Block} {bs : List Block} {w : Nat} (hb : x.ag.blocks = b :: bs)
    (ht : b.cap.tag = true) (hf : x.fetchWords b.cap (x.ag.laneAddr b) 3 = .bits v w) : x.nextLaneBits = (v, some w) := by
  unfold State.nextLaneBits
  rw [hb]
  dsimp only
  rw [ht, if_neg (by decide), hf]

theorem step_lane {s v : State} {i : Instr} {mate : Option Instr} (h : LaneComes s v i mate) :
    step s = andThen (v.execPair i mate) v.afterLane := by
  obtain ⟨rest, b, bs, w, taken, due, ready, turn, ⟨blocks, tag, fetch⟩, decodes, focus, hm⟩ := h
  rw [step_taken taken]
  refine (issueLane_runs due ready turn).trans ?_
  unfold State.runLane
  rw [nextLaneBits_fetches blocks tag fetch]
  dsimp only
  rw [decodes]
  dsimp only
  rw [focus, if_neg (by decide), hm]

theorem execPair_next {v t : State} {i j : Instr} (h : exec i { v with ag := { v.ag with pairing := .first } } = .next t) :
    v.execPair i (some j) = if t.ag.pairing = .first
      then exec j { t with ag := { t.ag with pairing := .second v.ag.nextOp } } else .next t := by
  unfold State.execPair
  dsimp only
  rw [h]

theorem afterLane_bookkeeping (v t : State) : ∃ d, let w := if t.issues = v.issues then t else t.claimPartition
    v.afterLane t = { w with ag := { w.ag with stepping := d } } := ⟨_, rfl⟩

/-! ### The end of a clk -/

theorem clkOver_iff (v : State) : v.clkOver = true ↔
    ∀ a ∈ v.agents, a.isSys = true ∨ (a.due = .nothing ∧ ∀ lane, v.slotOpen a.die a.core a.part lane = false) := by
  unfold State.clkOver
  simp only [List.all_eq_true, Bool.or_eq_true, Bool.and_eq_true, beq_iff_eq, Bool.not_eq_true', Bool.forall_bool]
  exact forall₂_congr fun a _ => or_congr_right
    ⟨fun ⟨⟨due, lane⟩, scalar⟩ => ⟨due, scalar, lane⟩, fun ⟨due, scalar, lane⟩ => ⟨⟨due, lane⟩, scalar⟩⟩

theorem step_clk {s : State} {rest : List Slot} (h : Taken s .clk rest) :
    step s = .next (if (taking s rest).clkOver then (taking s rest).nextClk else taking s rest) := step_taken h

/-- Settles O54: the head of the schedule is run, with the fetch, the mate and the end of a clk as the manual has them. -/
theorem stepRuns : Obligations.StepRuns := by
  unfold Obligations.StepRuns
  refine ⟨fun s i rest h he => ?_, fun s a rest h => step_taken h, fun s u v i h => step_scalar h, fun s v i h => step_lane h,
    fun s v t i j h hi => ?_, afterScalar_bookkeeping, afterLane_bookkeeping, fun s rest h => ⟨fun ends => ?_, fun goes => ?_⟩,
    fun s k row part rest h => step_taken h, fun s key ns rest h => step_taken h,
    fun s a lane miss rest h => step_taken h, fun s hp hx => step_stops hp hx⟩
  · rw [step_taken h]
    refine if_pos ?_
    unfold Instr.isEvent
    rw [he]
    rfl
  · rw [step_lane h, execPair_next hi]
  · rw [step_clk h, if_pos ((clkOver_iff _).mpr ends)]
    rfl
  · rw [step_clk h, if_neg fun ends => goes ((clkOver_iff _).mp ends)]

end Sys2Proof.Proofs.StepRuns
end

section
/-!
SUPPORT. What each message of the coherence protocol does at the home of its line and at a remote data cache.
-/

namespace Sys2Proof.Proofs.Coherence

open Machine Claims Laws

/-! ### Messages that arrive -/

theorem msg_arrived {s : State} {k : Nat} {kind : MsgKind} {m : Msg} {e : DirEntry} (h : Arrives s k kind m e) :
    s.msg? k kind = some m := h.1

theorem entry_arrived {s : State} {k : Nat} {kind : MsgKind} {m : Msg} {e : DirEntry} (h : Arrives s k kind m e) :
    s.entry m.line = e := h.2.1

/-- The entry is at rest: uncached, shared or owned. -/
theorem not_transient {x : DirState} (h : x = .uncached ∨ x = .shared) : x ≠ .transient := by
  obtain rfl | rfl := h <;> decide

theorem not_owned {x : DirState} (h : x = .uncached ∨ x = .shared) : ¬ (x == .owned) = true := by
  obtain rfl | rfl := h <;> decide

section
variable {s : State} {k : Nat} {m : Msg} {e : DirEntry}

/-! ### GetS, GetSub, GetX -/

theorem gets_at_rest (h : Arrives s k .getS m e) (ho : e.st = .uncached ∨ e.st = .shared) : exec (.gets k) s = .next (
    if (e.others m.src).isEmpty && !e.members.any (fun x => x.die == m.src && x.fmt != 0) then
      ((taken s k).setDir (e.ownedBy m.src)).send (homeData m.line m.src .e)
    else ((taken s k).setDir (e.rest (e.others m.src ++ [⟨m.src, false, 0⟩]))).send (homeData m.line m.src .s)) := by
  show execGets k s = _
  unfold execGets
  rw [atHome_eq h (not_transient ho)]
  exact congrArg Host.Outcome.next (if_neg (not_owned ho))

theorem gets_owner (h : Arrives s k .getS m e) (ho : e.st = .owned) (hd : e.owner = m.src) :
    exec (.gets k) s = .next ((taken s k).send (homeData m.line m.src .e)) := by
  show execGets k s = _
  unfold execGets
  rw [atHome_eq h (by rw [ho]; decide)]
  dsimp only
  rw [ho, if_pos (by decide), if_pos hd]
  rfl

theorem gets_owned (h : Arrives s k .getS m e) (ho : e.st = .owned) (hd : e.owner ≠ m.src) :
    exec (.gets k) s = .next (((taken s k).setDir (forwarding e .getS m.src 0 false)).send
      { plainMsg .fwdS e.line 5 e.owner with req := m.src }) := by
  show execGets k s = _
  unfold execGets
  rw [atHome_eq h (by rw [ho]; decide)]
  dsimp only
  rw [if_pos (by rw [ho]; decide), if_neg hd]
  rfl

theorem getsub_owned (h : Arrives s k .getSub m e) (ho : e.st = .owned) (hd : e.owner ≠ m.src) :
    exec (.getsub k) s = .next (((taken s k).setDir (forwarding e .getSub m.src m.fmt m.upd)).send
      (plainMsg .fwdS e.line 5 e.owner)) := by
  show execGetsub k s = _
  unfold execGetsub
  rw [atHome_eq h (by rw [ho]; decide)]
  dsimp only
  rw [if_pos (by rw [ho]; decide), if_neg hd]
  rfl

theorem getsub_at_rest (h : Arrives s k .getSub m e) (ho : e.st = .uncached ∨ e.st = .shared) :
    exec (.getsub k) s = .next (((taken s k).setDir (e.rest (e.others m.src ++ [⟨m.src, m.upd, m.fmt⟩]))).send
      { homeData m.line m.src .sub with
        fmt := m.fmt
        upd := m.upd }) := by
  show execGetsub k s = _
  unfold execGetsub
  rw [atHome_eq h (not_transient ho)]
  exact congrArg Host.Outcome.next (if_neg (not_owned ho))

theorem getx_owned (h : Arrives s k .getX m e) (ho : e.st = .owned) (hd : e.owner ≠ m.src) :
    exec (.getx k) s = .next (((taken s k).setDir (forwarding e .getX m.src 0 false)).send
      { plainMsg .fwdX e.line 5 e.owner with req := m.src }) := by
  show execGetx k s = _
  unfold execGetx
  rw [atHome_eq h (by rw [ho]; decide)]
  dsimp only
  rw [if_pos (by rw [ho]; decide), if_neg hd]
  rfl

theorem getx_at_rest (h : Arrives s k .getX m e) (ho : e.st = .uncached ∨ e.st = .shared) : exec (.getx k) s = .next (
    if (e.others m.src).any fun x => x.fmt != 0 then ((taken s k).setDir (e.rest (e.others m.src))).dropRdc m.src m.line
    else if (e.others m.src).isEmpty then ((taken s k).setDir (e.ownedBy m.src)).send (homeData m.line m.src .e)
    else ((taken s k).setDir { e with
        st := .transient
        want := .getX
        req := m.src
        acks := (e.others m.src).length }).tell m.line (e.others m.src)) := by
  show execGetx k s = _
  unfold execGetx
  rw [atHome_eq h (not_transient ho)]
  exact congrArg Host.Outcome.next (if_neg (not_owned ho))

theorem mem_others {x : Member} {d : Nat} : x ∈ e.others d ↔ x ∈ e.members ∧ x.die ≠ d := by
  unfold DirEntry.others
  rw [List.mem_filter, bne_iff_ne]

/-- Members without a subscribed copy are told by Inv. -/
theorem tell_plain (v : State) (line : Nat) (ms : List Member) (h : ∀ x ∈ ms, x.fmt = 0) :
    v.tell line ms = ms.foldl (fun s x => s.send (plainMsg .inv line 5 x.die)) v := by
  unfold State.tell
  refine List.foldl_ext _ _ _ fun s x hx => ?_
  rw [h x hx]
  rfl

/-! ### WrH, PutX -/

theorem wrh_eq {t : Nat × Nat} {a : Agent} {o : Op} (h : Arrives s k .wrH m e) (hs : e.st ≠ .transient)
    (ht : m.txn = some t) (ha : s.agent? t.1 = some a)
    (hf : (a.outst.find? fun o => o.num == t.2 && !o.performed) = some o) : exec (.wrh k) s = .next (
      if e.st == .owned then (taken s k).recall m.line true (some t)
      else (taken s k).makeRoom ((taken s k).performAccs a o false).1 m.line m.src t) := by
  have txn : (taken s k).txnOp t = some (a, o) := by
    unfold State.txnOp
    rw [show (taken s k).agent? t.1 = some a from ha]
    dsimp only [Option.bind]
    rw [hf]
    rfl
  show execWrh k s = _
  unfold execWrh
  rw [atHome_eq h hs]
  rw [ht]
  dsimp only
  rw [txn]

theorem putx_eq (h : Arrives s k .putX m e) (hf : ¬ (e.st = .transient ∧ e.fwdTo = some m.src)) : exec (.putx k) s = .next
    ((if e.st == .owned && e.owner == m.src then (taken s k).setDir (e.rest []) else taken s k).send
      (plainMsg .wbAck m.line 5 m.src)) := by
  show execPutx k s = _
  unfold execPutx
  rw [msg_arrived h]
  dsimp only
  rw [entry_arrived h, if_neg (by simpa using hf)]
  rfl

/-! ### Answers -/

theorem ack_eq (h : Arrives s k .ack m e) (ho : e.st = .transient) : exec (.ack k) s = .next (
    if e.fwdTo = some m.src then (taken s k).setDir (e.ownedBy e.req)
    else
      let e1 : DirEntry := { e with
        acks := e.acks - 1
        members := if m.upd then e.members else e.others m.src
        served := if m.upd then m.src :: e.served else e.served }
      if e1.acks = 0 then (taken s k).finish e1 else (taken s k).setDir e1) := by
  show execAck k s = _
  unfold execAck
  rw [msg_arrived h]
  dsimp only
  rw [entry_arrived h, if_neg (by rw [ho]; decide)]
  rfl

theorem data_home (h : Arrives s k .data m e) (hd : m.dst = 5) (ho : e.st = .transient) (hf : e.fwdTo = some m.src) :
    exec (.data k) s = .next (
      let kept : List Member := if m.upd then [⟨m.src, false, 0⟩] else []
      match e.want with
        | .getSub =>
          ((taken s k).setDir (e.rest (kept ++ [⟨e.req, e.upd, e.fmt⟩]))).send
            { homeData m.line e.req .sub with
              fmt := e.fmt
              upd := e.upd }
        | .getS => (taken s k).setDir (e.rest (if e.req = 5 then kept else kept ++ [⟨e.req, false, 0⟩]))
        | _ => (taken s k).setDir (e.rest [])) := by
  show execData k s = _
  unfold execData
  rw [msg_arrived h]
  dsimp only
  rw [if_neg (not_not_intro hd), entry_arrived h, if_neg (by rw [ho, hf]; simp)]
  rfl

theorem data_fills (h : Arrives s k .data m e) (hd : m.dst ≠ 5) :
    exec (.data k) s = .next ((taken s k).setRdc ⟨m.dst, m.line, m.st, m.fmt, false⟩) := by
  show execData k s = _
  unfold execData
  rw [msg_arrived h]
  exact if_pos hd

end

/-- Each request at the home. -/
theorem homeEvents {s t : State} {i : Instr} (h : HomeEvent s i t) : exec i s = .next t := by
  cases h with
  | getsOwner k m e h ho hd => exact gets_owner h ho hd
  | getsOwned k m e h ho hd => exact gets_owned h ho hd
  | getsAlone k m e h ho hm =>
    rw [gets_at_rest h ho, others_nil fun x hx => (hm x hx).1, if_pos]
    have plain : e.members.any (fun x => x.die == m.src && x.fmt != 0) = false :=
      List.any_eq_false.mpr fun x hx => by simp [(hm x hx).2]
    rw [plain]
    rfl
  | getsShared k m e h ho hm =>
    obtain ⟨x, hx, hn⟩ := hm
    rw [gets_at_rest h ho, if_neg]
    rw [Bool.and_eq_true, Bool.not_eq_true', List.isEmpty_iff, List.any_eq_false]
    rintro ⟨alone, plain⟩
    have die : x.die = m.src := by
      by_contra hd
      have : x ∈ e.others m.src := mem_others.mpr ⟨hx, hd⟩
      rw [alone] at this
      exact absurd this (List.not_mem_nil)
    exact plain x hx (by simpa [die] using hn)
  | getsub k m e h ho => exact getsub_at_rest h ho
  | getsubOwned k m e h ho hd => exact getsub_owned h ho hd
  | getxOwned k m e h ho hd => exact getx_owned h ho hd
  | getxAlone k m e h ho hm =>
    rw [getx_at_rest h ho, others_nil hm]
    rfl
  | getxSubscribed k m e h ho hm =>
    obtain ⟨x, hx, hd, hf⟩ := hm
    rw [getx_at_rest h ho, if_pos]
    exact List.any_eq_true.mpr ⟨x, mem_others.mpr ⟨hx, hd⟩, bne_iff_ne.mpr hf⟩
  | getxShared k m e h ho hn hm =>
    have plain : ∀ x ∈ e.others m.src, x.fmt = 0 := fun x hx => hm x (mem_others.mp hx).1 (mem_others.mp hx).2
    rw [getx_at_rest h ho, if_neg, if_neg, tell_plain _ _ _ plain]
    · rw [List.isEmpty_iff]
      exact hn
    · rw [List.any_eq_true]
      rintro ⟨x, hx, hf⟩
      exact bne_iff_ne.mp hf (plain x hx)
  | wrhOwned k m e t a o h ht ha hf ho =>
    rw [wrh_eq h (by rw [ho]; decide) ht ha hf, ho]
    rfl
  | wrh k m e t a o h ht ha hf ho => rw [wrh_eq h (not_transient ho) ht ha hf, if_neg (not_owned ho)]
  | putx k m e h ho hd =>
    rw [putx_eq h (by rw [ho]; simp), if_pos]
    rw [ho, hd]
    simp
  | putxLate k m e h ho hf =>
    rw [putx_eq h hf, if_neg]
    simpa using ho
  | ackForward k m e h ho hf => rw [ack_eq h ho, if_pos hf]
  | ackMore k m e h ho hf hn =>
    rw [ack_eq h ho, if_neg hf]
    exact congrArg Host.Outcome.next (if_neg (show ¬ e.acks - 1 = 0 by omega))
  | ackLast k m e h ho hf hn hw hr =>
    rw [ack_eq h ho, if_neg hf]
    refine congrArg Host.Outcome.next ((if_pos (show e.acks - 1 = 0 by omega)).trans ?_)
    unfold State.finish
    exact if_pos (by simp [hw, hr])
  | dataShared k m e h hd ho hf hw hr =>
    rw [data_home h hd ho hf, hw]
    dsimp only
    rw [if_neg hr]
  | dataFills k m e h hd => exact data_fills h hd

/-! ### Messages at a remote data cache, and its own lines -/

theorem leftOn_eq (s : State) (die core line : Nat) : s.leftOn die core line = leftBehind s die core line := rfl

/-- Each message at a remote data cache, and what a cache does by itself. -/
theorem cacheEvents {s t : State} {i : Instr} (h : CacheEvent s i t) : exec i s = .next t := by
  cases h with
  | inv k m e h hl =>
    show execInv k s = _
    unfold execInv
    rw [msg_arrived h]
    refine if_neg ?_
    unfold State.mayAnswer
    obtain hl | ⟨r, hr, hs⟩ := hl
    · simp [hl]
    · simp [hr, hs]
  | fwds k m e r h hr hw hq =>
    show execFwds k s = _
    unfold execFwds
    rw [msg_arrived h]
    dsimp only
    rw [hr]
    dsimp only
    rw [hw, if_neg hq]
    rfl
  | fwdx k m e r h hr hw hq hl =>
    show execFwdx k s = _
    unfold execFwdx State.mayAnswer
    rw [msg_arrived h]
    dsimp only
    rw [hr]
    dsimp only
    rw [hl, hw, if_neg hq]
    rfl
  | upd k m e h =>
    show execUpd k s = _
    unfold execUpd
    rw [msg_arrived h]
    rfl
  | wback k m e r h hr hw =>
    show execWback k s = _
    unfold execWback
    rw [msg_arrived h]
    dsimp only
    rw [hr, if_pos (by simpa using hw)]
    rfl
  | evictShared die line r hr ha hs =>
    show execRdcEviction die line s = _
    unfold execRdcEviction
    rw [hr]
    dsimp only
    rw [ha, if_neg (by decide), if_pos (by simpa using hs)]
  | evictOwned die line r hr ha hs hl =>
    show execRdcEviction die line s = _
    unfold execRdcEviction State.mayAnswer
    rw [hr]
    dsimp only
    rw [ha, if_neg (by decide), if_neg (by obtain e | e := hs <;> rw [e] <;> decide), if_pos hl]
    rfl
  | lease die core line l h hr hd he =>
    show execLeaseExpiry die core line s = _
    unfold execLeaseExpiry
    rw [h]
    refine if_neg ?_
    have early : s.coh.early.any (fun e => e.narrowOf die core && e.inLine line) = false :=
      List.any_eq_false.mpr fun e he => by simpa using hd e he
    rw [hr, early]
    simpa using he
  | writeBack die core line ho =>
    show execDirtyWriteBack die core line s = _
    unfold execDirtyWriteBack
    rw [leftOn_eq, ho]
    rfl
  | published die core line n hn hd hc hs hl hp =>
    show execForcedPublish die core line s = _
    unfold execForcedPublish
    refine congrArg Host.Outcome.next (if_pos ?_)
    rw [hp, Bool.and_true, List.any_eq_true]
    refine ⟨n, hn, ?_⟩
    rw [hd, hc, hs, hl]
    simp [lineOf]
  | clockStop die core hp =>
    show execClockStop die core s = _
    unfold execClockStop
    rw [hp]
    rfl

/-- Settles O40: every event of a home, then every event of a cache. -/
theorem coherenceEvents : Obligations.CoherenceEvents := by
  unfold Obligations.CoherenceEvents
  intro s i t h
  exact h.elim homeEvents cacheEvents

end Sys2Proof.Proofs.Coherence
end

section
/-!
SUPPORT. The events of time, of the Islet, of power, of the sweeper, of the package's registers, of links, ports and peers.
-/

namespace Sys2Proof.Proofs.PlatformEvents

open Machine Claims Laws

/-! ### Time -/

section
variable {s : State}

theorem copySet_eq (s : State) (key : Nat) : s.resetCopy key = copySet s key := rfl

/-- A copy that has drifted: it is set, an event is logged, and what reads it follows. -/
theorem timeCopyCheck_eq (s : State) (key : Nat) (h : s.clockOffset key < -20 ∨ 20 < s.clockOffset key) :
    exec (.timeCopyCheck key) s =
      let s1 := (copySet s key).logEvent 4 key
      if key < 64 then .next s1
      else if key < 256 then
        if s.publishOk ((key - 64) / 48) ((key - 64) % 48) then .next (s1.emptyL1 ((key - 64) / 48) ((key - 64) % 48)) else .next s
      else if s.clockOffset key < 0 && key < 261 then
        .next { s1 with coh := { s1.coh with
          emax := (key - 256, max (s.emax (key - 256)) (s.time + 2020)) :: s1.coh.emax.filter fun e => e.1 != key - 256 } }
      else .next s1 := by
  show execTimeCopyCheck key s = _
  unfold execTimeCopyCheck
  exact if_neg (by omega)

theorem timeEvents {t : State} {i : Instr} (h : TimeEvent s i t) : exec i s = .next t := by
  cases h with
  | tick => rfl
  | inTime key h =>
    show execTimeCopyCheck key s = _
    unfold execTimeCopyCheck
    exact if_pos (by omega)
  | system key h hk =>
    rw [timeCopyCheck_eq s key h]
    exact if_pos hk
  | core die core hc hd h hp =>
    rw [timeCopyCheck_eq s _ h]
    dsimp only
    rw [show (64 + 48 * die + core - 64) / 48 = die by omega, show (64 + 48 * die + core - 64) % 48 = core by omega,
      if_neg (by omega), if_pos (by omega), if_pos hp]
  | unitBehind u hu h =>
    rw [timeCopyCheck_eq s _ (.inl h)]
    dsimp only
    rw [if_neg (by omega), if_neg (by omega), if_pos, Nat.add_sub_cancel_left]
    · rfl
    · simp only [Bool.and_eq_true, decide_eq_true_eq]
      omega
  | otherBehind u hu h =>
    rw [timeCopyCheck_eq s _ (.inl h)]
    dsimp only
    rw [if_neg (by omega), if_neg (by omega), if_neg]
    simp only [Bool.and_eq_true, decide_eq_true_eq]
    omega
  | unitAhead u h =>
    rw [timeCopyCheck_eq s _ (.inr h)]
    dsimp only
    rw [if_neg (by omega), if_neg (by omega), if_neg]
    simp only [Bool.and_eq_true, decide_eq_true_eq]
    omega

/-! ### The mailbox of the Islet -/

theorem islet_doing {c : Nat} {α : Type} (h : Doing s c) (x y : α) : (if !s.islet.doing c then x else y) = y := by
  rw [doing_of h]
  rfl

theorem stage_eq (h : Doing s 2) : exec .stage s = .next (
    if !Config.freeBit s.fresh 0 || Config.freeNat s.fresh 1 < s.islet.fuseValue then
      { s with islet := { s.islet with mbres := some s.failCode } }
    else { s with islet := { s.islet with
        svn := s.islet.svn.set ((s.islet.active + 1) % 2) (Config.freeNat s.fresh 1)
        slotOk := s.islet.slotOk.set ((s.islet.active + 1) % 2) true
        staged := true
        mbres := some 0 } }) := congrArg Host.Outcome.next (islet_doing h _ _)

theorem fuse_eq (h : Doing s 4) : exec .fuse s = .next (
    if s.islet.mbarg ≤ s.islet.fuseValue then { s with islet := { s.islet with mbres := some 0 } }
    else if 64 < s.islet.mbarg || s.islet.svn.getD s.islet.active 0 < s.islet.mbarg then
      { s with islet := { s.islet with mbres := some s.failCode } }
    else if Config.freeBit s.fresh 2 then { s with islet := { s.islet with
        fuseA := max s.islet.fuseA s.islet.mbarg
        fuseB := max s.islet.fuseB s.islet.mbarg
        mbres := some 0 } }
    else fuseStops s) := congrArg Host.Outcome.next (islet_doing h _ _)

theorem isletEvents {t : State} {i : Instr} (h : IsletEvent s i t) : exec i s = .next t := by
  cases h with
  | bootok h => exact congrArg Host.Outcome.next (islet_doing h _ _)
  | stage h =>
    rw [stage_eq h]
    by_cases ok : Config.freeBit s.fresh 0 = true ∧ min s.islet.fuseA s.islet.fuseB ≤ Config.freeNat s.fresh 1
    · rw [if_pos ok, if_neg]
      obtain ⟨signed, high⟩ := ok
      have : ¬ Config.freeNat s.fresh 1 < s.islet.fuseValue := Nat.not_lt.mpr high
      simp [signed, this]
    · rw [if_neg ok, if_pos]
      · rfl
      · rw [not_and_or, Nat.not_le] at ok
        rw [Bool.or_eq_true, decide_eq_true_eq, Bool.not_eq_true']
        exact ok.imp_left fun h => Bool.eq_false_iff.mpr h
  | logrd h hd he hw =>
    show execLogrd s = _
    unfold execLogrd
    dsimp only
    rw [islet_doing h, hd, he, hw]
    rfl
  | fuseKept h hk => rw [fuse_eq h, if_pos (show s.islet.mbarg ≤ s.islet.fuseValue from hk)]
  | fuseRefused h hk hm =>
    rw [fuse_eq h, if_neg (show ¬ s.islet.mbarg ≤ s.islet.fuseValue from Nat.not_le.mpr hk), if_pos]
    · rfl
    · rw [Bool.or_eq_true, decide_eq_true_eq, decide_eq_true_eq]
      exact hm
  | fuse h hk hm hv =>
    rw [fuse_eq h, if_neg (show ¬ s.islet.mbarg ≤ s.islet.fuseValue from Nat.not_le.mpr hk), if_neg]
    rw [Bool.or_eq_true, decide_eq_true_eq, decide_eq_true_eq, not_or]
    exact ⟨Nat.not_lt.mpr hm, Nat.not_lt.mpr hv⟩
  | commandEnd r h hc hr =>
    show execMailboxCommandEnd s = _
    unfold execMailboxCommandEnd
    dsimp only
    rw [h, hr, if_pos (by simp [hc])]
    rfl
  | commandUnknown h hc =>
    show execMailboxCommandEnd s = _
    unfold execMailboxCommandEnd
    dsimp only
    rw [h, if_neg (by simpa using hc)]
    rfl
  | measured nonce => rfl

/-! ### Power and spares -/

theorem heldMs_of {since : Option Nat} {t : Nat} (h : since = some t) (ht : t + 1000000 ≤ s.time) : s.heldMs since = true := by
  unfold State.heldMs
  rw [h, Option.any_some, decide_eq_true_eq]
  exact ht

theorem powerManager_eq (watts : Nat) (h : s.islet.pwrAt + 1000 ≤ s.time) : exec (.powerManagerStep watts) s =
    .next { s with islet := { s.islet with
      pest := figure s watts
      step := stepAfter s.islet.step (figure s watts)
      pwrAt := s.time
      overSince := if 2400 < figure s watts && s.islet.step = 32 then some (s.islet.overSince.getD s.time) else none
      underSince := if figure s watts ≤ 2400 then some (s.islet.underSince.getD s.time) else none } } := by
  show execPowerManagerStep watts s = _
  unfold execPowerManagerStep figure stepAfter
  dsimp only
  rw [if_neg (Nat.not_lt.mpr h)]

theorem spareExchange_core (die unit : Nat) (hd : die < 4) (hu : unit < 48) : exec (.spareExchange die unit) s =
    if !s.islet.drained.contains (die, unit) then
      .next { s with islet := { s.islet with drained := s.islet.drained ++ [(die, unit)] } }
    else if (s.teamsOver die unit 1).isEmpty && s.publishOk die unit then
      let s1 := s.emptyL1 die unit
      let s2 : State := { s1 with islet := { s1.islet with drained := s1.islet.drained.filter fun x => x != (die, unit) } }
      .next (s2.logEvent 8 (64 * die + unit))
    else .next s := by
  show execSpareExchange die unit s = _
  unfold execSpareExchange
  exact if_pos (by simp [hd, hu])

theorem powerEvents {t : State} {i : Instr} (h : PowerEvent s i t) : exec i s = .next t := by
  cases h with
  | managed watts h =>
    rw [powerManager_eq watts h]
    simp only [Bool.and_eq_true, decide_eq_true_eq]
  | leakage die leak h =>
    show execLeakageUpdate die leak s = _
    unfold execLeakageUpdate
    rw [if_neg (Nat.not_lt.mpr h)]
  | alert t h ho ht =>
    show execPowerAlertAssert s = _
    unfold execPowerAlertAssert
    rw [h, heldMs_of ho ht]
    rfl
  | release t h hu ht =>
    show execPowerAlertRelease s = _
    unfold execPowerAlertRelease
    rw [h, heldMs_of hu ht]
    rfl
  | drain die unit hd hu h =>
    rw [spareExchange_core die unit hd hu, if_pos (by simpa using h)]
  | exchange die unit hd hu h hn hp =>
    rw [spareExchange_core die unit hd hu, if_neg (by simpa using h), if_pos (by rw [hn, hp]; rfl)]
    rfl
  | live die unit hd hu =>
    show execSpareExchange die unit s = _
    unfold execSpareExchange
    rw [if_neg (by simp; omega), if_pos hd]
    rfl
  | waitsReset unit hu h =>
    show execSpareExchange 4 unit s = _
    unfold execSpareExchange
    rw [if_neg (by simp), if_neg (by decide), if_pos (by simpa [hu] using h)]

/-! ### Links, ports, peers -/

/-- The line that entry `entry` of the table of port `p` names. -/
def namedLine (s : State) (p : Port) (entry : Nat) : Nat :=
  if p.msix = 0 || 2048 ≤ entry then 0 else s.readPhys (p.msix + 8 * entry) 8

/-- The line that the entry names is signalled, when there is one. -/
def msixSignal (s : State) (p : Port) (entry : Nat) : State :=
  if namedLine s p entry = 0 then s else s.signalOwned 0 (namedLine s p entry)

theorem msixWrite_eq {k : Nat} {p : Port} {entry : Nat} {t : State} (hp : s.port? k = some p) (ht : msixSignal s p entry = t) :
    exec (.msixWrite k entry) s =
      .next { t with fabric := { t.fabric with portDone := t.fabric.portDone.filter fun x => x != k } } := by
  subst ht
  show execMsixWrite k entry s = _
  unfold execMsixWrite
  rw [hp]
  rfl

theorem namedLine_of {p : Port} {entry : Nat} (h : p.msix ≠ 0) (he : entry < 2048) :
    namedLine s p entry = s.readPhys (p.msix + 8 * entry) 8 := if_neg (by simp [h]; omega)

theorem portAccess_eq {k va size pa o : Nat} {p : Port} {t : State} (data : Nat) (write : Bool) (hp : s.port? k = some p)
    (ha : p.aspace ≠ 0) (hs : size ≠ 0) (h1 : va / 4096 = (va + size - 1) / 4096)
    (hx : s.devXlate (s.portWho p) ⟨write, false, false, false⟩ va = .ok t pa o) :
    exec (.portMemoryAccess k va size data write) s =
      if !write then .next t else if t.writeOk pa size then .next (t.putAt o pa (bytesLE size data)) else .next s := by
  show execPortMemoryAccess k va size data write s = _
  unfold execPortMemoryAccess
  rw [hp]
  dsimp only
  rw [if_neg (by simp [ha, hs, h1]), hx]

theorem peerAllowed_iff (q : PeerRequest) : s.peerAllowed q = true ↔ Admitted s q := by
  unfold State.peerAllowed Admitted
  simp only [Bool.and_eq_true, decide_eq_true_eq, beq_iff_eq, and_assoc]
  rfl

theorem peerAccess_none (q : PeerRequest) (h : (q.write && s.peerAllowed q) = false) : exec (.peerAccessRequest q) s = .next s := by
  show execPeerAccessRequest q s = _
  unfold execPeerAccessRequest
  exact if_neg (by simp [h])

theorem linkEvents {t : State} {i : Instr} (h : LinkEvent s i t) : exec i s = .next t := by
  cases h with
  | training n peer => rfl
  | replay n => rfl
  | spare n =>
    refine congrArg (fun f => Host.Outcome.next (linked s n f)) ?_
    funext l
    simp only [Bool.and_eq_true, decide_eq_true_eq, Bool.not_eq_true']
  | failure n => rfl
  | peerLost n => rfl
  | msixNone k entry p hp h => exact msixWrite_eq hp (if_pos (if_pos (by simpa using h)))
  | msix k entry p hp h he hl ho =>
    refine msixWrite_eq hp ?_
    unfold msixSignal
    rw [namedLine_of h he, if_neg hl]
    exact if_pos ho
  | msixForeign k entry p hp h he ho =>
    refine msixWrite_eq hp ?_
    unfold msixSignal State.signalOwned
    rw [namedLine_of h he, ho]
    exact ite_self s
  | transferred k p hp h =>
    show execPortTransferComplete k s = _
    unfold execPortTransferComplete
    rw [hp, if_pos (by simpa using h)]
  | portWrite k va size data pa o p t hp ha hs h1 hx hw =>
    rw [portAccess_eq data true hp ha hs h1 hx]
    exact if_pos hw
  | portRead k va size data pa o p t hp ha hs h1 hx => exact portAccess_eq data false hp ha hs h1 hx
  | peerWrite q hw h =>
    show execPeerAccessRequest q s = _
    unfold execPeerAccessRequest
    rw [hw, (peerAllowed_iff q).mpr h]
    simp only [Bool.true_and, Bool.and_eq_true]
    split <;> rfl
  | peerRefused q h =>
    have refused : s.peerAllowed q = false := Bool.eq_false_iff.mpr fun a => h ((peerAllowed_iff q).mp a)
    exact peerAccess_none q (by rw [refused, Bool.and_false])
  | peerRead q h => exact peerAccess_none q (by rw [h, Bool.false_and])

/-! ### Sweeps, samples, crash dump -/

theorem sweepEvents {t : State} {i : Instr} (h : SweepEvent s i t) : exec i s = .next t := by
  cases h with
  | begins n h hw =>
    show execSweepPassBegin s = _
    unfold execSweepPassBegin
    rw [h, hw]
    rfl
  | ends n h =>
    show execSweepPassComplete s = _
    unfold execSweepPassComplete
    rw [h]
    rfl
  | noSample p h =>
    show execTraceSample p s = _
    unfold execTraceSample
    exact if_pos (by rw [h]; rfl)
  | sample p h ht =>
    show execTraceSample p s = _
    unfold execTraceSample
    exact if_neg (by simp only [Bool.or_eq_true, decide_eq_true_eq]; omega)
  | notArmed p h =>
    show execCrashDump p s = _
    unfold execCrashDump State.crash
    dsimp only
    rw [h]
    rfl

/-! ### The package's registers -/

theorem withPartcfg_ignored (f : Fabric) (v : Nat) (h : ¬ PartOk (v % 2 ^ 48)) : f.withPartcfg v = f := by
  have bad : partcfgOk (v % 2 ^ 48) = false := Bool.eq_false_iff.mpr fun ok => h ((part_ok _).mp ok)
  unfold Fabric.withPartcfg
  rw [bad]
  rfl

theorem withPartcfg_taken (f : Fabric) (v : Nat) (h : PartOk (v % 2 ^ 48)) : f.withPartcfg v =
    let g : Fabric := { f with partcfg := v % 2 ^ 48 }
    let moved := (List.range 16).filter fun n => bits (v % 2 ^ 48) (40 + 2 * (n / 4)) 2 ≠ bits f.partcfg (40 + 2 * (n / 4)) 2
    { g with linkpart := moved.foldl (fun w n => setLinkPart w n (bits (v % 2 ^ 48) (40 + 2 * (n / 4)) 2)) f.linkpart } := by
  unfold Fabric.withPartcfg
  rw [(part_ok _).mpr h]
  rfl

theorem updAll_same {f : Agent → Agent} (h : ∀ a ∈ s.agents, f a = a) : s.updAll f = s := by
  unfold State.updAll
  rw [h s.ag List.mem_cons_self, (List.map_congr_left fun a ha => h a (List.mem_cons_of_mem _ ha)).trans (List.map_id _)]

/-- A value of LINKPART that keeps every link of a die in the die's partition. -/
theorem linkpart_iff (f : Fabric) (v : Nat) : ((List.range 16).all fun n => field v (2 * n) 2 == f.diePart (n / 4)) = true ↔
    ∀ n < 16, bits v (2 * n) 2 = bits f.partcfg (40 + 2 * (n / 4)) 2 := by
  simp only [List.all_eq_true, List.mem_range, beq_iff_eq]
  exact Iff.rfl

theorem exportsIdle_of (h : s.fabric.exppa = 0
    ∨ ∀ k < s.fabric.exportCount, (s.readPhys (s.fabric.exportAt k + 16) 4).testBit 15 = false) : s.exportsIdle = true := by
  unfold State.exportsIdle
  rw [Bool.or_eq_true, beq_iff_eq, List.all_eq_true]
  exact h.imp_right fun h k hk => by rw [h k (List.mem_range.mp hk)]; rfl

theorem page_of (v : Nat) : v % 2 ^ 64 / 2 ^ 12 * 2 ^ 12 = v % 2 ^ 64 - v % 2 ^ 12 := by omega

theorem writeRevocation_idle (which v : Nat) (h : s.sweep.running = none ∧ s.sweep.waiting = none) :
    exec (.revocationRegisterWrite which v) s = .next (
      if which = 0 then { s with sweep := { s.sweep with rmap := field v 12 40 * 2 ^ 12 + v % 2 } }
      else if which = 1 then
        if v % 2 ^ 21 = 0 && canonical (v % 2 ^ 64) then { s with sweep := { s.sweep with rvbase := v % 2 ^ 64 } } else s
      else if which = 2 then
        if v % 2 ^ 21 = 0 && v ≤ 2 ^ 44 then { s with sweep := { s.sweep with rvlen := v } } else s
      else s) := by
  refine congrArg Host.Outcome.next (if_neg ?_)
  rw [h.1, h.2]
  decide

theorem registerWrite_plain {off w : Nat} {r : WReg} (v : Nat) (h : wslot off = some (r, w)) :
    exec (.registerWrite off v) s = .next (s.plainReg r v) := by
  show execRegisterWrite off v s = _
  unfold execRegisterWrite
  rw [h]

theorem wslot_wbase (p k : Nat) (hp : p < 4) (hk : k < 4) :
    wslot (0x3000000 + 0x10000 * p + 0x40 + 0x18 * k) = some (.wbase p k, 8) := by
  interval_cases p <;> interval_cases k <;> rfl

theorem wslot_core (o : Nat) (ho : o < 0x1000000) : wslot (0x4000000 + o) =
    if 64 ≤ o / 0x100 then none
    else if o % 0x100 = 0 then some (.ident (o / 0x100), 8)
    else if o % 0x100 = 8 then some (.acct (o / 0x100), 8)
    else none := by
  unfold wslot
  dsimp only
  rw [show (0x4000000 + o) / 0x1000000 = 4 by omega, show (0x4000000 + o) % 0x1000000 = o by omega]
  rfl

theorem wslot_ident (c : Nat) (hc : c < 64) : wslot (0x4000000 + 0x100 * c) = some (.ident c, 8) := by
  rw [wslot_core _ (by omega), show 0x100 * c / 0x100 = c by omega, show 0x100 * c % 0x100 = 0 by omega, if_neg (by omega)]
  rfl

theorem wslot_kdata (i : Nat) (hi : i < 16) : wslot (0x200 + 4 * i) = some (.kdata i, 4) := by
  interval_cases i <;> rfl

/-- The load of a key is refused: id 0, or a slot that is full. -/
def loadRefused (k : Keys) : Bool := k.kcmd = 0 || k.full.any fun e => e.1 == k.kcmd

theorem load_eq (k : Keys) (h : k.kstat % 2 = 1) : k.load = if loadRefused k then { k with kstat := 2 } else { k with
    kstat := k.kstat / 2 * 2
    full := (k.kcmd, k.keyNumber) :: k.full
    gens := max k.gens k.keyNumber
    known := (k.kdata, k.keyNumber) :: k.known.filter fun e => e.1 != k.kdata
    kdata := List.replicate 16 0 } := by
  unfold Keys.load
  exact if_neg (by rw [h]; decide)

theorem keyLoad_eq (s : State) : exec .keyLoad s = .next { s with keys := s.keys.load } := rfl

theorem loadRefused_iff (k : Keys) : loadRefused k = true ↔ k.kcmd = 0 ∨ ∃ e ∈ k.full, e.1 = k.kcmd := by
  unfold loadRefused
  simp only [Bool.or_eq_true, decide_eq_true_eq, List.any_eq_true, beq_iff_eq]

theorem stopProcess_eq (s : State) (p pid : Nat) : s.stopProcess p pid = s.updAll fun a =>
    if a.alive = true ∧ a.cpart = p ∧ s.pidOf a = pid then
      if a.isSys then { a with ipend := a.ipend ||| (1#64 <<< 62) } else { a with stopDue := true }
    else a := by
  unfold State.stopProcess
  congr 1
  funext a
  by_cases h : a.alive = true ∧ a.cpart = p ∧ s.pidOf a = pid
  · rw [if_pos h, if_neg (by obtain ⟨alive, part, proc⟩ := h; simp [alive, part, proc])]
  · rw [if_neg h, if_pos]
    by_contra hn
    simp at hn
    exact h ⟨hn.1.1, hn.1.2, hn.2⟩

/-- ACCT that arms its core: LID 0 and CLASS 1. -/
theorem acctValue_arms {v : Nat} (h : v % 2 ^ 64 / 2 ^ 8 = 0 ∧ v % 8 = 1) : acctValue v = 1 := by
  unfold acctValue
  rw [h.1, h.2]
  rfl

theorem registerEvents {t : State} {i : Instr} (h : RegisterEvent s i t) : exec i s = .next t := by
  cases h with
  | partcfgIgnored v h hc =>
    show execPartcfgWrite v s = _
    unfold execPartcfgWrite State.writePartcfg
    dsimp only
    rw [withPartcfg_ignored _ v h]
    refine congrArg Host.Outcome.next (updAll_same fun a ha => ?_)
    split
    · rename_i hs
      rw [hc a ha hs]
    · rfl
  | partcfg v h =>
    show execPartcfgWrite v s = _
    unfold execPartcfgWrite State.writePartcfg
    dsimp only
    rw [withPartcfg_taken _ v h]
    rfl
  | linkpart v h =>
    show execLinkpartWrite v s = _
    unfold execLinkpartWrite Fabric.withLinkpart
    rw [if_pos ((linkpart_iff _ v).mpr h)]
  | linkpartIgnored v h =>
    show execLinkpartWrite v s = _
    unfold execLinkpartWrite Fabric.withLinkpart
    rw [if_neg]
    intro all
    obtain ⟨n, hn, hne⟩ := h
    exact hne ((linkpart_iff _ v).mp all n hn)
  | coherence die v h =>
    refine congrArg Host.Outcome.next (if_neg ?_)
    simp only [Bool.or_eq_true, decide_eq_true_eq]
    omega
  | coherenceIgnored die v h =>
    refine congrArg Host.Outcome.next (if_pos ?_)
    simpa using h
  | exppa v h =>
    show execExppaWrite v s = _
    unfold execExppaWrite State.writeExppa
    rw [if_pos (by rw [exportsIdle_of h.2]; simp [h.1]), page_of]
  | exppaIgnored v h => exact congrArg Host.Outcome.next (if_neg (by simp [h]))
  | rmap v h => exact writeRevocation_idle 0 v h
  | rvbase v h ha hc =>
    rw [writeRevocation_idle 1 v h, if_neg (by decide), if_pos rfl, if_pos (by rw [ha, hc]; rfl)]
  | rvlen v h ha hl =>
    rw [writeRevocation_idle 2 v h, if_neg (by decide), if_neg (by decide), if_pos rfl, if_pos (by rw [ha, decide_eq_true hl]; rfl)]
  | sweeping which v h =>
    refine congrArg Host.Outcome.next (if_pos ?_)
    simpa [Option.isSome_iff_ne_none] using h
  | unassigned off v h =>
    show execRegisterWrite off v s = _
    unfold execRegisterWrite
    rw [h]
  | wbase p k v hp hk => exact registerWrite_plain v (wslot_wbase p k hp hk)
  | ident c v hc => exact registerWrite_plain v (wslot_ident c hc)
  | mbarg v => exact registerWrite_plain v (r := .mbarg) (w := 8) rfl
  | kdata i v hi => exact registerWrite_plain v (wslot_kdata i hi)
  | keyRefused h hf => rw [keyLoad_eq, load_eq _ h, if_pos ((loadRefused_iff _).mpr hf)]
  | keyLoad h h0 hf =>
    rw [keyLoad_eq, load_eq _ h, if_neg]
    rw [loadRefused_iff]
    rintro (zero | ⟨e, he, hk⟩)
    · exact h0 zero
    · exact hf e he hk
  | stop p pid => exact congrArg Host.Outcome.next (stopProcess_eq s p (pid % 2 ^ 32))
  | armed c v h =>
    show execAcctArm c v s = _
    unfold execAcctArm State.writeAcct
    rw [acctValue_arms h]
    rfl

end

/-- Settles O41: the events of time, Islet, power, sweeper, registers and links, one kind after another. -/
theorem platformEvents : Obligations.PlatformEvents := by
  unfold Obligations.PlatformEvents
  intro s i t h
  obtain h | h | h | h | h | h := h
  · exact timeEvents h
  · exact isletEvents h
  · exact powerEvents h
  · exact sweepEvents h
  · exact registerEvents h
  · exact linkEvents h

end Sys2Proof.Proofs.PlatformEvents
end

section
/-!
SUPPORT. The events of the engines, of page requests, of the matrix arrays and of the watch unit (11 R249 to R278, 20 R477,
14 R329 to R333): each, when it happens, leaves the state that the manual gives.
-/

namespace Sys2Proof.Proofs.UnitEvents

open Machine Claims Laws

/-! ### Engine commands (11 R265 to R278) -/

theorem copyAccept_next {s : State} {a : Agent} {c : Command} {r : List Command} (h : s.agent? a.id = some a)
    (hr : a.resident = true) (hq : a.qcopy = c :: r) :
    exec (.copyAccept a.id) s = .next (accepted s a false c fun b => { b with qcopy := r }) := by
  show execCopyAccept a.id s = _
  unfold execCopyAccept
  rw [h]
  dsimp only
  rw [hq]
  dsimp only
  rw [hr]
  rfl

theorem collectiveAccept_next {s : State} {a : Agent} {c : Command} {r : List Command} (h : s.agent? a.id = some a)
    (hr : a.resident = true) (hq : a.qcoll = c :: r) :
    exec (.collectiveAccept a.id) s = .next (accepted s a true c fun b => { b with qcoll := r }) := by
  show execCollectiveAccept a.id s = _
  unfold execCollectiveAccept
  rw [h]
  dsimp only
  rw [hq]
  dsimp only
  rw [hr]
  rfl

/-- The search of a copy's step finds the copy that runs. -/
theorem find_copy {s : State} {k : Nat} {c : EngineCmd} (h : Runs s k false c) :
    (s.cmds.find? fun x => x.id == k && !x.coll && x.waitPage.isNone) = some c := by
  simpa only [Runs, beq_false] using h

/-- The search of a collective command's step finds the command that runs. -/
theorem find_collective {s : State} {k : Nat} {c : EngineCmd} (h : Runs s k true c) :
    (s.cmds.find? fun x => x.id == k && x.coll && x.waitPage.isNone) = some c := by
  simpa only [Runs, beq_true] using h

theorem piecesOk_of {s : State} {ps : List Piece} (h : ∀ p ∈ ps, s.writeOk p.pa p.n = true) : s.piecesOk ps = true :=
  List.all_eq_true.2 h

theorem copyCompletion_ends {s s1 : State} {k : Nat} {c : EngineCmd} {rows : List (Nat × RowSide × RowSide)}
    (h : Runs s k false c) (hx : s.rowsX c [] (List.range (copyShape c.words).rows) = .ok s1 rows)
    (hw : ∀ p ∈ rows.flatMap fun r => r.2.2.pieces, s1.writeOk p.pa p.n = true) :
    exec (.copyCompletion k) s = .next
      ((((s1.copyRows c rows).endCmd c).cmdHits c true false (rows.flatMap fun r => r.2.1.pieces)).cmdHits c false true
        (rows.flatMap fun r => r.2.2.pieces)) := by
  show execCopyCompletion k s = _
  unfold execCopyCompletion
  rw [find_copy h]
  dsimp only
  rw [hx]
  dsimp only
  rw [piecesOk_of hw]
  rfl

theorem copyCompletion_waits {s s1 : State} {k va kind : Nat} {c : EngineCmd} (h : Runs s k false c)
    (hx : s.rowsX c [] (List.range (copyShape c.words).rows) = .page s1 va kind) :
    exec (.copyCompletion k) s = .next (s1.cmdPage c va kind) := by
  show execCopyCompletion k s = _
  unfold execCopyCompletion
  rw [find_copy h]
  dsimp only
  rw [hx]

/-- A command whose rank's earlier instances have ended is in turn. -/
theorem rankTurn_of {s : State} {c : EngineCmd} (h : MayRun s c) : s.rankTurn c = true := by
  obtain ⟨hc, ha, -⟩ := h
  unfold State.rankTurn
  rw [Bool.and_eq_true, Bool.not_eq_true', Bool.not_eq_true', List.any_eq_false, List.any_eq_false]
  constructor
  · intro x hx
    have := hc x hx
    simp only [Bool.and_eq_true, beq_iff_eq, decide_eq_true_eq, not_and, not_lt, and_imp]
    exact this
  · intro a hm hq
    obtain ⟨x, hx, hp⟩ := List.any_eq_true.1 hq
    simp only [Bool.and_eq_true, beq_iff_eq, decide_eq_true_eq] at hp
    exact absurd (ha a hm x hx hp.1.1 hp.1.2) (Nat.not_le.2 hp.2)

/-- A collective command in turn reads its source once, then writes its destination. -/
theorem collectiveCompletion_runs {s : State} {k : Nat} {c : EngineCmd} (h : Runs s k true c) (hm : MayRun s c) :
    exec (.collectiveCompletion k) s = .next
      (if c.seen then s.writeDest c (participants s c) else s.readSource c (participants s c)) := by
  show execCollectiveCompletion k s = _
  unfold execCollectiveCompletion
  rw [find_collective h]
  dsimp only
  rw [rankTurn_of hm, hm.2.2]
  cases c.seen <;> rfl

theorem writeDest_done {s s1 : State} {c : EngineCmd} {n : Nat} {bs : List Byte} {ps : List Piece}
    (hb : s.collBytes c n (collDstLen c.words n) = some bs)
    (hx : s.sideX c (quadCap c.words 2 (c.tags.getD 2 false)) true
      [((quadCap c.words 2 (c.tags.getD 2 false)).addr, collDstLen c.words n)] = .ok s1 ps)
    (hw : ∀ p ∈ ps, s1.writeOk p.pa p.n = true) :
    s.writeDest c n = ((s1.putPieces (fun _ => false) ps bs).endCmd c).cmdHits c false true ps := by
  unfold State.writeDest
  dsimp only
  rw [hb]
  dsimp only
  rw [hx]
  dsimp only
  rw [piecesOk_of hw]
  rfl

/-! ### Page requests (20 R477) -/

/-- A request with no ring, or with a place of another's memory, is declined. -/
theorem pageRequestPost_declined {s : State} {k : Nat} {p : PageReq} (h : Asks s k p)
    (hr : (s.ring p.space).1 = 0 ∨ s.fabric.owns p.cpart (ringPlace s p.space) = false) :
    exec (.pageRequestPost k) s = .next (s.endPage p false) := by
  show execPageRequestPost k s = _
  unfold execPageRequestPost
  rw [show (s.pages.find? fun x => x.id == k && x.posted.isNone) = some p from h]
  refine if_pos ?_
  rw [Bool.or_eq_true, decide_eq_true_eq, Bool.not_eq_true']
  exact hr

theorem ringPending_eq (s : State) (o : Nat) : ringPending (s.ring o) = pending s o := by
  unfold ringPending pending
  rfl

/-- A request whose ring it may use joins a pending entry, or takes the next place while there is one. -/
theorem pageRequestPost_ring {s : State} {k : Nat} {p : PageReq} (h : Asks s k p) (hr : (s.ring p.space).1 ≠ 0)
    (ho : s.fabric.owns p.cpart (ringPlace s p.space) = true) :
    exec (.pageRequestPost k) s = (match s.pendingEntry p.space p.va p.kind with
      | some i => .next (s.markPosted k i)
      | none =>
        if (s.ring p.space).2.1 ≤ pending s p.space || !s.writeOk (ringPlace s p.space) 32
          || !s.writeOk (p.space + 204) 4 then .next s
        else .next (((s.writeEntry p (s.ring p.space)).signalPages p.cpart p.space).markPosted k
          ((s.ring p.space).2.2.1 % (s.ring p.space).2.1))) := by
  show execPageRequestPost k s = _
  unfold execPageRequestPost
  rw [show (s.pages.find? fun x => x.id == k && x.posted.isNone) = some p from h]
  dsimp only
  rw [if_neg, ringPending_eq]
  · unfold ringPlace
    cases s.pendingEntry p.space p.va p.kind <;> rfl
  · rw [Bool.or_eq_true, decide_eq_true_eq, Bool.not_eq_true', not_or, Bool.not_eq_false]
    exact ⟨hr, ho⟩

/-- The entry of a request, its STAT 1. -/
theorem writeEntry_eq (s : State) (p : PageReq) : s.writeEntry p (s.ring p.space) =
    (s.writePhys (ringPlace s p.space) 32 (p.va + p.kind * 2 ^ 64 + 2 ^ 96)).writePhys (p.space + 204) 4
      ((s.ring p.space).2.2.1 + 1) := by
  unfold State.writeEntry ringPlace
  rw [Nat.one_mul]

theorem pageRequestPost_posts {s : State} {k : Nat} {p : PageReq} (h : Asks s k p) (hr : (s.ring p.space).1 ≠ 0)
    (ho : s.fabric.owns p.cpart (ringPlace s p.space) = true) (hp : s.pendingEntry p.space p.va p.kind = none)
    (hn : pending s p.space < (s.ring p.space).2.1)
    (hw : s.writeOk (ringPlace s p.space) 32 = true ∧ s.writeOk (p.space + 204) 4 = true) :
    exec (.pageRequestPost k) s = .next
      (let t := (s.writePhys (ringPlace s p.space) 32 (p.va + p.kind * 2 ^ 64 + 2 ^ 96)).writePhys (p.space + 204) 4
        ((s.ring p.space).2.2.1 + 1)
      inRing (if t.readPhys (p.space + 24) 8 = 0 then t else t.signalOwned p.cpart (t.readPhys (p.space + 24) 8)) k
        ((s.ring p.space).2.2.1 % (s.ring p.space).2.1)) := by
  rw [pageRequestPost_ring h hr ho, hp]
  dsimp only
  rw [if_neg, writeEntry_eq]
  · rfl
  · rw [hw.1, hw.2]
    simpa using hn

theorem pageRequestRecheck_served {s : State} {k : Nat} {p : PageReq}
    (h : (s.pages.find? fun x => x.id == k) = some p) (hs : s.pageServed p.cpart p.space p.va p.kind = true) :
    exec (.pageRequestRecheck k) s = .next (s.endPage p true) := by
  show execPageRequestRecheck k s = _
  unfold execPageRequestRecheck
  rw [h]
  exact if_pos hs

theorem pageRequestRecheck_touches {s s1 : State} {k a e z : Nat} {p : PageReq}
    (h : (s.pages.find? fun x => x.id == k) = some p) (hs : s.pageServed p.cpart p.space p.va p.kind = false)
    (ht : s.walk (s.pageWho p) p.va = .touch a e z) (hf : s.firstTouch (s.pageWho p) a e z = .done s1) :
    exec (.pageRequestRecheck k) s = .next s1 := by
  show execPageRequestRecheck k s = _
  unfold execPageRequestRecheck
  rw [h]
  dsimp only
  rw [hs, ht]
  dsimp only
  rw [hf]
  rfl

/-- A waiter whose page is neither served nor to be touched reads STAT while the entry is still the request's. -/
theorem pageRequestRecheck_stat {s : State} {k i : Nat} {p : PageReq}
    (h : (s.pages.find? fun x => x.id == k) = some p) (hs : s.pageServed p.cpart p.space p.va p.kind = false)
    (hp : p.posted = some i) (ht : ∀ a e z, s.walk (s.pageWho p) p.va ≠ .touch a e z) :
    exec (.pageRequestRecheck k) s =
      if s.stillIn p i && s.readPhys ((s.ring p.space).1 + 32 * i + 12) 4 == 3 then .next (s.endPage p false)
      else .next s := by
  show execPageRequestRecheck k s = _
  unfold execPageRequestRecheck
  rw [h]
  dsimp only
  rw [hs]
  rw [if_neg Bool.false_ne_true]
  cases hwalk : s.walk (s.pageWho p) p.va with
  | touch a e z => exact absurd hwalk (ht a e z)
  | _ => rw [hp]

/-- Each event of an engine or of a page request. -/
theorem engineEvent_next {s : State} {i : Instr} {t : State} (h : EngineEvent s i t) : exec i s = .next t := by
  cases h with
  | copyAccept a c r h hr hq => exact copyAccept_next h hr hq
  | collAccept a c r h hr hq => exact collectiveAccept_next h hr hq
  | copied k c s1 rows h hx hw => exact copyCompletion_ends h hx hw
  | copyWaits k c s1 va kind h hx => exact copyCompletion_waits h hx
  | collReads k c h hm hs => rw [collectiveCompletion_runs h hm, hs]; rfl
  | collWrites k c bs s1 ps h hm hs hb hx hw =>
    rw [collectiveCompletion_runs h hm, hs, if_pos rfl, writeDest_done hb hx hw]
  | pageDeclined k p h hr => exact pageRequestPost_declined h hr
  | pageJoins k p i h hr ho hp => rw [pageRequestPost_ring h hr ho, hp]; rfl
  | pagePosts k p h hr ho hp hn hw => exact pageRequestPost_posts h hr ho hp hn hw
  | pageServed k p h hs => exact pageRequestRecheck_served h hs
  | pageFailed k p i h hs hp ht hi hf => rw [pageRequestRecheck_stat h hs hp ht, hi, hf]; rfl
  | pageReused k p i h hs hp ht hi => rw [pageRequestRecheck_stat h hs hp ht, hi]; rfl
  | pageTouches k p a e z s1 h hs ht hf => exact pageRequestRecheck_touches h hs ht hf

/-! ### Matrix arrays (11 R249 to R264) -/

/-- The core of the other half of a paired instruction has one of its arrays. -/
theorem other_mem (o : MatrixOp) (core : Nat) (hp : o.pair = true) :
    (if core % 2 = 0 then core + 1 else core - 1) ∈ core :: arraysOf o core := by
  unfold arraysOf
  rw [if_pos hp]
  simp only [List.mem_cons, List.not_mem_nil, or_false]
  split <;> omega

theorem headReady_of {s : State} {die core : Nat} {o : MatrixOp} (h : AtHead s die core o) :
    s.headReady die core = some o := by
  obtain ⟨hs, hc⟩ := h
  obtain ⟨p, r, hq, hpo, -⟩ := hc core List.mem_cons_self
  obtain rfl := hpo rfl
  unfold State.headReady
  rw [hq]
  dsimp only
  rw [if_neg (by simp [hs])]
  by_cases hp : p.pair = true
  · obtain ⟨x, r', hq', -, ha, hn, hs'⟩ := hc _ (other_mem p core hp)
    rw [hq']
    simp [hp, ha, hn, hs']
  · simp [hp]

/-- What an instruction of the arrays does when it ends, and the counts that it adds to mxc. -/
def arrayWork (s : State) (die : Nat) (o : MatrixOp) (lead : Nat) : State × Word :=
  match o.kind with
  | .mac | .dist => ((s.macAll die lead o).1, macCounts (s.macAll die lead o).2)
  | .clr => (s.loadTile die lead o fun _ _ => 0, 0)
  | .load => (s.loadTile die lead o fun i j => (o.cols.getD j []).getD i 0, 0)
  | .store => (s.storeTile die lead o, 0)
  | .top k e => (changed s o.agent fun a => a.fillEntry e (s.topRows die lead o k), 0)

theorem matrixEnded_eq (s : State) (o : MatrixOp) (counts : Word) :
    (s.updAgent o.agent fun a => (a.matrixDone o.num counts).retires o.kind) = matrixEnded s o counts := rfl

/-- An instruction that has started ends: its work is done, its arrays go on, its issuer has its post. -/
theorem matrixCompletion_ends {s : State} {die core : Nat} {o : MatrixOp} {r : List MatrixOp}
    (h : (s.array die core).queue = o :: r) (hs : o.started = true) :
    exec (.matrixCompletion die core) s = .next
      (matrixEnded (ordersGoOn (arrayWork s die o (leader o core)).1 die core o) o
        (arrayWork s die o (leader o core)).2) := by
  show execMatrixCompletion die core s = _
  unfold execMatrixCompletion
  rw [h]
  dsimp only
  rw [if_neg (by simp [hs]), matrixEnded_eq]
  unfold arrayWork
  cases o.kind <;> rfl

/-! ### The watch unit (14 R330, R333) -/

/-- A step of a watch instruction whose order is right: the next lane's, or the end. -/
theorem watchStepCompletion_steps {s s1 : State} {a : Agent} {o : Op} {op : WatchOp} {c : Cap} {d p : Nat}
    {w : WatchLane} {r : List WatchLane} {got ws : List (Loc × Word)} {ts us : List WatchTrap}
    (h : s.agent? a.id = some a) (ho : a.op? o.num = some o) (hk : o.kind = .watch op c d p (w :: r) got ts)
    (hq : s.orderOk a o = true) (hw : s.watchStep a o op c d p w = (s1, some (ws, us))) :
    exec (.watchStepCompletion a.id o.num) s = .next (changed s1 a.id fun b => { b with outst := b.outst.map fun x =>
      if x.num = o.num then { x with kind := .watch op c d p r (got ++ ws) (ts ++ us) } else x }) := by
  show execWatchStepCompletion a.id o.num s = _
  unfold execWatchStepCompletion
  rw [h]
  dsimp only
  rw [ho]
  dsimp only
  rw [hk]
  dsimp only
  rw [hq, hw]
  rfl

theorem watchStepCompletion_ends {s : State} {a : Agent} {o : Op} {op : WatchOp} {c : Cap} {d p : Nat}
    {got : List (Loc × Word)} {ts : List WatchTrap} (h : s.agent? a.id = some a) (ho : a.op? o.num = some o)
    (hk : o.kind = .watch op c d p [] got ts) (hq : s.orderOk a o = true) :
    exec (.watchStepCompletion a.id o.num) s = .next (match watchTrapOf ts with
      | some t => (changed s a.id fun b => b.finishOp o.num got).trapFor a.id t
      | none => changed s a.id fun b => b.finishOp o.num got) := by
  show execWatchStepCompletion a.id o.num s = _
  unfold execWatchStepCompletion
  rw [h]
  dsimp only
  rw [ho]
  dsimp only
  rw [hk]
  dsimp only
  rw [hq]
  cases watchTrapOf ts <;> rfl

/-- The lanes of a list joined into a mask, as the trap of a watch instruction names them. -/
theorem lanes_foldl (l : List WatchTrap) (m : BitVec 32) :
    (l.map fun x => x.lane).foldl (fun m l => m ||| laneBit l) m = l.foldl (fun m x => m ||| laneBit x.lane) m :=
  List.foldl_map

/-- Each event of a matrix array or of the watch unit. -/
theorem arrayEvent_next {s : State} {i : Instr} {t : State} (h : ArrayEvent s i t) : exec i s = .next t := by
  cases h with
  | start die core o h =>
    show execMatrixStart die core s = _
    unfold execMatrixStart
    rw [headReady_of h]
    rfl
  | computed die core o r h hs hk =>
    rw [matrixCompletion_ends h hs, arrayWork]
    rcases hk with hk | hk <;> rw [hk]
  | cleared die core o r h hs hk => rw [matrixCompletion_ends h hs, arrayWork, hk]
  | loaded die core o r h hs hk => rw [matrixCompletion_ends h hs, arrayWork, hk]
  | stored die core o r h hs hk => rw [matrixCompletion_ends h hs, arrayWork, hk]
  | topped die core o r k e h hs hk => rw [matrixCompletion_ends h hs, arrayWork, hk]
  | watchStep a o op c d p w r got ts s1 ws us h ho hk hq hw => exact watchStepCompletion_steps h ho hk hq hw
  | watchEnd a o op c d p got h ho hk hq => exact watchStepCompletion_ends h ho hk hq
  | watchTraps a o op c d p got t ts h ho hk hq =>
    rw [watchStepCompletion_ends h ho hk hq, lanes_foldl]
    rfl

/-- Settles O42: the events of the engines and of page requests, of the matrix arrays and of the watch unit, one by one. -/
theorem unitEvents : Obligations.UnitEvents := by
  unfold Obligations.UnitEvents
  intro s i t h
  exact h.elim engineEvent_next arrayEvent_next

end Sys2Proof.Proofs.UnitEvents
end

section
/-!
SUPPORT. The events of the scheduler (02 R34 to R36, R48 to R54, 21 R386 to R400, R406): the teams it places, reserves for,
pre-empts, restores and ends, the groups it starts, contexts, budgets, the watchdog and the ends of launches.
-/

namespace Sys2Proof.Proofs.Scheduler

open Machine Claims Laws

/-! ### Groups that start (02 R48, R51) -/

theorem spawnedGroupStart_starts {s : State} {id : Nat} {t : Team} {l : Launch} {b : Built} {r : List Built}
    (h : Team? s id t l) (hp : t.phase = .resident) (hb : t.built = b :: r) (hf : s.freeSpawn t l ≠ []) :
    exec (.spawnedGroupStart id) s = .next (teamed { s with
      rest := s.rest ++ [s.spawnedGroup l t b
        ((s.freeSpawn t l).getD (Config.freeNat s.fresh 1 % (s.freeSpawn t l).length) 0)]
      nextAgent := s.nextAgent + 1 } id fun t => { t with
        built := r
        spawned := t.spawned + 1 }) := by
  show execSpawnedGroupStart id s = _
  unfold execSpawnedGroupStart
  rw [h.1]
  dsimp only
  rw [h.2, hb]
  refine (if_neg ?_).trans rfl
  simp [placed_of hp, hf]

theorem spawnedGroupStart_waits {s : State} {id : Nat} {t : Team} {l : Launch} (h : Team? s id t l)
    (hf : s.freeSpawn t l = []) : exec (.spawnedGroupStart id) s = .next s := by
  show execSpawnedGroupStart id s = _
  unfold execSpawnedGroupStart
  rw [h.1]
  dsimp only
  rw [h.2]
  cases t.built with
  | nil => rfl
  | cons b r => exact if_pos (by simp [hf])

/-- The slot that the model gives to the next fault group. -/
theorem faultSlot_of {s : State} {t : Team} {l : Launch} {k : KeptSlot} (h : FaultSlot s t l k) :
    s.faultSlot t l = some k := by
  unfold State.faultSlot
  rcases h with ⟨r, hk⟩ | ⟨hk, j, hj, rfl⟩
  · rw [hk]
  · rw [hk]
    dsimp only
    rw [hj]
    rfl

theorem faultGroupStart_starts {s : State} {id : Nat} {k : KeptSlot} {t : Team} {l : Launch} {f : Agent}
    {r : List Agent} {u : Trap} {x : Option Nat} {q : List (Trap × Option Nat)} (h : Team? s id t l)
    (hp : t.phase = .resident) (hb : t.faults = f :: r) (hu : f.heldFaults = (u, x) :: q) (hk : FaultSlot s t l k) :
    exec (.faultGroupStart id) s = .next
      ((((teamed { s with
        rest := s.rest ++ [s.startedFault t f k]
        nextAgent := s.nextAgent + 1 } id fun t => { t with
          faults := r
          kept := t.kept.drop 1 }).focusOn s.nextAgent).trap u).focusOn s.ag.id) := by
  show execFaultGroupStart id s = _
  unfold execFaultGroupStart
  rw [h.1]
  dsimp only
  rw [h.2, hb]
  dsimp only
  rw [faultSlot_of hk, hu]
  exact if_neg (by simp [placed_of hp])

/-! ### Placement and reservation (02 R34, R36, 21 R392, R393) -/

theorem teamPlacement_places {s : State} {d f : Nat} {l : Launch} (h : s.nextPlacement = some (⟨l, none⟩, d, f)) :
    exec (.teamPlacement l.id d f) s = .next (s.placeNew l d f) := by
  show execTeamPlacement l.id d f s = _
  unfold execTeamPlacement
  rw [h]
  exact if_pos (by simp)

theorem teamRestore_places {s : State} {d f : Nat} {l : Launch} {t : Team}
    (h : s.nextPlacement = some (⟨l, some t⟩, d, f)) :
    exec (.teamRestore t.id d f) s = .next (s.placeAgain l t d f) := by
  show execTeamRestore t.id d f s = _
  unfold execTeamRestore
  rw [h]
  exact if_pos (by simp)

theorem dueOn_iff (s : State) (o : Offer) (d : Nat) : s.dueOn o d = true ↔ Claims.Due s o.launch o.team d := by
  unfold State.dueOn Claims.Due
  simp [List.any_eq_true]

theorem holds_iff (l : Launch) (d : Nat) : (l.reserved.any fun x => x.1 == d) = true ↔ Holds l d := by
  unfold Holds
  simp [List.any_eq_true]

theorem teamReservation_waits {s : State} {die core : Nat} {l : Launch} {t : Option Team}
    (h : (s.offers.find? fun o => o.launch.id == l.id) = some ⟨l, t⟩) (ht : ¬ Claims.Due s l t die) :
    exec (.teamReservation l.id die core) s = .next s := by
  have hd : s.dueOn ⟨l, t⟩ die = false := by
    rw [Bool.eq_false_iff]
    exact fun h => ht ((dueOn_iff s ⟨l, t⟩ die).1 h)
  show execTeamReservation l.id die core s = _
  unfold execTeamReservation
  rw [h]
  dsimp only
  rw [hd]
  rfl

/-- The reservation of a class above every other due, and above every one held, on a die. -/
theorem teamReservation_reserves {s : State} {die core : Nat} {l : Launch} {t : Option Team}
    (h : (s.offers.find? fun o => o.launch.id == l.id) = some ⟨l, t⟩) (hd : Claims.Due s l t die) (hn : ¬ Holds l die)
    (ha : ∀ o ∈ s.offers, l.prio < o.launch.prio → ¬ Claims.Due s o.launch o.team die)
    (ho : ∀ r ∈ s.launches, Holds r die → r.prio < l.prio) (hb : s.bestReserve l die core = true) :
    exec (.teamReservation l.id die core) s = .next
      (launched (unreserved s die) l.id fun l => { l with reserved := (die, core) :: l.reserved }) := by
  have above : (s.offers.any fun r => l.prio < r.launch.prio && s.dueOn r die) = false := by
    rw [List.any_eq_false]
    intro o hm hc
    rw [Bool.and_eq_true, decide_eq_true_eq, dueOn_iff] at hc
    exact ha o hm hc.1 hc.2
  have held : (s.launches.any fun r => (r.reserved.any fun x => x.1 == die) && l.prio ≤ r.prio) = false := by
    rw [List.any_eq_false]
    intro r hm hc
    rw [Bool.and_eq_true, decide_eq_true_eq, holds_iff] at hc
    exact absurd (ho r hm hc.1) (Nat.not_lt.2 hc.2)
  have mine : (l.reserved.any fun x => x.1 == die) = false := by
    rw [Bool.eq_false_iff]
    exact fun h => hn ((holds_iff l die).1 h)
  show execTeamReservation l.id die core s = _
  unfold execTeamReservation
  rw [h]
  dsimp only
  refine (if_neg ?_).trans rfl
  rw [(dueOn_iff s ⟨l, t⟩ die).2 hd, mine, above, held, hb]
  exact Bool.false_ne_true

/-! ### Pre-emption and the end of a team (02 R53, 21 R394, R395) -/

/-- No matrix instruction of the team is under way and no pair is half issued. -/
theorem atBoundary_of {s : State} {t : Team} (ha : ∀ m ∈ s.arrays, ∀ o ∈ m.queue, o.team ≠ t.id)
    (hb : ∀ a ∈ s.members t.id, a.pairing = .single) : s.atBoundary t = true := by
  unfold State.atBoundary
  rw [Bool.and_eq_true, Bool.not_eq_true', List.any_eq_false, List.all_eq_true]
  constructor
  · intro m hm hc
    obtain ⟨o, ho, he⟩ := List.any_eq_true.1 hc
    exact ha m hm o ho (beq_iff_eq.1 he)
  · intro a hm
    exact beq_iff_eq.2 (hb a hm)

theorem mustLeave_iff (s : State) (t : Team) (l : Launch) :
    (s.spent l.ctx || (s.islet.drained.any fun x => x.1 == t.die && t.first ≤ x.2 && x.2 < t.first + l.fcores)
      || decide (s.nextVictim = some t.id)) = true ↔ MustLeave s t l := by
  unfold MustLeave
  simp only [Bool.or_eq_true, List.any_eq_true, Bool.and_eq_true, beq_iff_eq, decide_eq_true_eq, or_assoc, and_assoc]

theorem preemption_leaves {s : State} {id : Nat} {t : Team} {l : Launch} (h : Team? s id t l)
    (hp : t.phase = .resident) (hm : MustLeave s t l) (ha : ∀ m ∈ s.arrays, ∀ o ∈ m.queue, o.team ≠ t.id)
    (hb : ∀ a ∈ s.members t.id, a.pairing = .single) (hw : s.discardable t l = true → s.watching t = false)
    (hr : s.teamReached id t.die t.first l.fcores = true) :
    exec (.preemption id) s = .next ((s.teamRelease id t.die t.first l.fcores).preempt t l) := by
  obtain rfl := team_id h.1
  have quiet : (s.discardable t l && s.watching t) = false := by
    cases hd : s.discardable t l
    · rfl
    · exact hw hd
  show execPreemption t.id s = _
  unfold execPreemption
  rw [h.1]
  dsimp only
  rw [h.2]
  dsimp only
  rw [(mustLeave_iff s t l).2 hm, placed_of hp, atBoundary_of ha hb, quiet, hr]
  rfl

theorem teamExit_flushes {s : State} {id : Nat} {t : Team} {l : Launch} (h : Team? s id t l)
    (hp : t.phase = .resident) (hm : s.members id = []) (hb : t.arriving ≠ [] ∨ t.batches ≠ []) :
    exec (.teamExit id) s = .next (teamed s id Team.flush) := by
  have waiting : (!t.arriving.isEmpty || !t.batches.isEmpty) = true := by
    simpa only [Bool.or_eq_true, Bool.not_eq_true', List.isEmpty_eq_false_iff] using hb
  show execTeamExit id s = _
  unfold execTeamExit
  rw [h.1]
  dsimp only
  rw [h.2]
  dsimp only
  rw [placed_of hp, hm, waiting]
  rfl

theorem freshArrays_eq (s : State) (t : Team) (l : Launch) : s.freshArrays l t.die t.first = arraysFreed s t l := rfl

theorem teamExit_ends {s : State} {id : Nat} {t : Team} {l : Launch} (h : Team? s id t l) (hf : Finished s t)
    (hr : s.teamReached id t.die t.first l.fcores = true) :
    exec (.teamExit id) s = .next
      (teamed (arraysFreed (s.teamRelease id t.die t.first l.fcores) t l) id fun t => { t with
        phase := .gone
        tmem := []
        barriers := [] }).dropReadOnly := by
  obtain rfl := team_id h.1
  obtain ⟨hp, hm, h1, h2, h3, h4, h5, h6⟩ := hf
  show execTeamExit t.id s = _
  unfold execTeamExit
  rw [h.1]
  dsimp only
  rw [h.2]
  dsimp only
  rw [placed_of hp, hm, h1, h2, h3, h4, h5, h6, hr, freshArrays_eq]
  rfl

theorem teamKill_kills {s : State} {id : Nat} {t : Team} {d : Dying} (h : s.team? id = some t)
    (hd : t.dying = some d) (hp : t.phase ≠ .gone) :
    exec (.teamKill id d.cause) s = .next (s.killTeam id d.cause 16 d.g d.cmd 0 d.addr) := by
  show execTeamKill id d.cause s = _
  unfold execTeamKill
  rw [h]
  dsimp only
  rw [hd]
  exact if_pos (by simp [hp])

/-- Each event of a team. -/
theorem teamEvent_next {s : State} {i : Instr} {t : State} (h : TeamEvent s i t) : exec i s = .next t := by
  cases h with
  | spawned id t l b r h hp hb hf => exact spawnedGroupStart_starts h hp hb hf
  | noSpawn id t l h hf => exact spawnedGroupStart_waits h hf
  | faultGroup id k t l f r u x q h hp hb hu hk => exact faultGroupStart_starts h hp hb hu hk
  | placed d f l h => exact teamPlacement_places h
  | notPlaced launch d f h =>
    show execTeamPlacement launch d f s = _
    unfold execTeamPlacement
    rw [h]
  | reserved die core l t h hd hn ha ho hb => exact teamReservation_reserves h hd hn ha ho hb
  | notDue die core l t h ht => exact teamReservation_waits h ht
  | preempted id t l h hp hm ha hb hw hr => exact preemption_leaves h hp hm ha hb hw hr
  | restored d f l t h => exact teamRestore_places h
  | flushed id t l h hp hm hb => exact teamExit_flushes h hp hm hb
  | exited id t l h hf hr => exact teamExit_ends h hf hr
  | killed id t d h hd hp => exact teamKill_kills h hd hp

/-! ### Contexts: kill requests, budgets, the watchdog (21 R387, R399, R400) -/

theorem killRequest_kills {s : State} {ctx : Nat} {l : Launch}
    (h : (s.launches.find? fun l => l.ctx == ctx && l.id == s.readPhys (ctx + 120) 8) = some l) :
    exec (.killRequest ctx) s = .next
      ((launched ((s.teams.filter fun t => t.launch == l.id && t.phase != .gone).foldl
        (fun s t => s.killTeam t.id 0 8 0xFFFFFFFF 0 0 0) s) l.id fun l => { l with
          killed := true
          nextTeam := l.dims.1 * l.dims.2.1 * l.dims.2.2
          reserved := [] }).writePhys (ctx + 120) 8 0) := by
  show execKillRequest ctx s = _
  unfold execKillRequest State.killId
  rw [h]
  rfl

/-- The model's record of a context is the one that the statements name. -/
theorem ctx_of {s : State} {ctx : Nat} {c : CtxState} (h : Ctx s ctx c) : s.ctx? ctx = some c := h

theorem budgetExhausted_marks {s : State} {ctx : Nat} {c : CtxState} (h : Ctx s ctx c)
    (hb : s.readPhys (ctx + 104) 4 ≠ 0)
    (hu : s.readPhys (ctx + 104) 4 ≤ s.readPhys (ctx + 112) 4 + c.usedNs / 1000) :
    exec (.budgetExhausted ctx) s = .next (contexted s ctx fun c => { c with exhausted := true }) := by
  show execBudgetExhausted ctx s = _
  unfold execBudgetExhausted
  dsimp only
  rw [ctx_of h]
  refine (if_neg ?_).trans rfl
  simp [hb, hu]

theorem budgetExhausted_unlimited {s : State} {ctx : Nat} (h : s.readPhys (ctx + 104) 4 = 0) :
    exec (.budgetExhausted ctx) s = .next s := by
  show execBudgetExhausted ctx s = _
  unfold execBudgetExhausted
  dsimp only
  cases s.ctx? ctx with
  | none => rfl
  | some c => exact if_pos (by simp [h])

theorem periodStart_begins {s : State} {ctx : Nat} {c : CtxState} (h : Ctx s ctx c) (hd : c.periodDue = true)
    (hw : s.writeOk (ctx + 112) 4 = true) :
    exec (.periodStart ctx) s = .next (contexted (s.writePhys (ctx + 112) 4 0) ctx fun c => { c with
      usedNs := 0
      exhausted := false
      periodDue := false }) := by
  show execPeriodStart ctx s = _
  unfold execPeriodStart
  rw [ctx_of h]
  dsimp only
  rw [hd, hw]
  rfl

theorem periodStart_waits {s : State} {ctx : Nat} {c : CtxState} (h : Ctx s ctx c) (hd : c.periodDue = false) :
    exec (.periodStart ctx) s = .next s := by
  show execPeriodStart ctx s = _
  unfold execPeriodStart
  rw [ctx_of h]
  dsimp only
  rw [hd]
  rfl

theorem usedUpdate_adds {s : State} {ctx : Nat} {c : CtxState} (h : Ctx s ctx c) (hu : 1000 ≤ c.usedNs)
    (hw : s.writeOk (ctx + 112) 4 = true) :
    exec (.usedUpdate ctx) s = .next
      (contexted (s.writePhys (ctx + 112) 4 (s.readPhys (ctx + 112) 4 + c.usedNs / 1000)) ctx fun c => { c with
        usedNs := c.usedNs % 1000 }) := by
  show execUsedUpdate ctx s = _
  unfold execUsedUpdate
  rw [ctx_of h]
  dsimp only
  have : ¬ c.usedNs / 1000 = 0 := by omega
  refine (if_neg ?_).trans rfl
  simp only [this, hw, decide_false, Bool.not_true, Bool.or_self, Bool.false_eq_true, not_false_eq_true]

theorem watchdogExpiry_quiet {s : State} {ctx : Nat} {c : CtxState} {x : Team × Launch} {r : List (Team × Launch)}
    (h : Ctx s ctx c) (hr : s.residentOf ctx = x :: r)
    (hw : s.readPhys (ctx + 100) 4 = 0 ∨ s.time < max c.lastSink c.armed + 1000 * s.readPhys (ctx + 100) 4) :
    exec (.watchdogExpiry ctx) s = .next s := by
  show execWatchdogExpiry ctx s = _
  unfold execWatchdogExpiry
  dsimp only
  rw [ctx_of h, hr]
  exact if_pos (by simpa only [Bool.or_eq_true, decide_eq_true_eq] using hw)

/-- No group of the one resident team is alive. -/
theorem groups_none {s : State} {t : Team} {l : Launch}
    (hg : ∀ a ∈ s.agents, a.team = t.id → a.isSys = true ∨ a.alive = false) :
    (s.agents.filter fun a => a.alive && !a.isSys && [(t, l)].any fun x => x.1.id == a.team) = [] := by
  rw [List.filter_eq_nil_iff]
  intro a hm hc
  simp only [List.any_cons, List.any_nil, Bool.or_false, Bool.and_eq_true, beq_iff_eq, Bool.not_eq_true'] at hc
  obtain ⟨⟨ha, hs⟩, ht⟩ := hc
  rcases hg a hm ht.symm with h | h
  · exact Bool.noConfusion (hs.symm.trans h)
  · exact Bool.noConfusion (h.symm.trans ha)

theorem watchdogExpiry_hangs {s : State} {ctx : Nat} {c : CtxState} {t : Team} {l : Launch} (h : Ctx s ctx c)
    (hr : s.residentOf ctx = [(t, l)]) (hw : s.readPhys (ctx + 100) 4 ≠ 0)
    (ht : max c.lastSink c.armed + 1000 * s.readPhys (ctx + 100) 4 ≤ s.time)
    (hg : ∀ a ∈ s.agents, a.team = t.id → a.isSys = true ∨ a.alive = false) :
    exec (.watchdogExpiry ctx) s = .next
      (contexted (s.writeRecord (l.who t.die) ctx (hangReport l.id 1 c.lastSink s.time 0 0 0 0)) ctx fun c => { c with
        armed := s.time }) := by
  show execWatchdogExpiry ctx s = _
  unfold execWatchdogExpiry
  dsimp only
  rw [ctx_of h, hr]
  dsimp only
  rw [groups_none hg]
  refine (if_neg ?_).trans rfl
  rw [Bool.or_eq_true, decide_eq_true_eq, decide_eq_true_eq, not_or, Nat.not_lt]
  exact ⟨hw, ht⟩

/-! ### Launches (21 R406, 26 R456) -/

theorem launchOver_iff (s : State) (l : Launch) : s.launchOver l = true ↔ Over s l := by
  unfold State.launchOver Over Launch.total
  simp only [Bool.and_eq_true, beq_iff_eq, List.all_eq_true, Bool.or_eq_true, bne_iff_ne, Bool.not_eq_true',
    ne_eq, imp_iff_not_or]

theorem launchCompletion_waits {s : State} {l : Launch} (h : s.launch? l.id = some l) (ho : ¬ Over s l) :
    exec (.launchCompletion l.id) s = .next s := by
  show execLaunchCompletion l.id s = _
  unfold execLaunchCompletion
  rw [h]
  refine if_pos ?_
  rw [Bool.or_eq_true, Bool.not_eq_true', Bool.eq_false_iff]
  exact .inl fun h => ho ((launchOver_iff s l).1 h)

theorem completed_walks (s : State) (l : Launch) : (completed s l).walks = s.walks := by
  show ((s.putRecord l true).trace l.cpart (launchName l) 4 0 0 0).walks = s.walks
  rw [trace_walks, putRecord_walks]

/-- A launch that no graph node runs completes with its records alone. -/
theorem launchCompletion_completes {s : State} {l : Launch} (h : s.launch? l.id = some l) (ho : Over s l)
    (hr : s.recordOk l = true) (hw : ∀ w ∈ s.walks, ∀ r ∈ w.running, ∀ n a, r ≠ .launch n l.id a) :
    exec (.launchCompletion l.id) s = .next (completed s l) := by
  show execLaunchCompletion l.id s = _
  unfold execLaunchCompletion
  rw [h]
  dsimp only
  rw [if_neg (by simp [(launchOver_iff s l).2 ho, hr])]
  split
  · rfl
  · rename_i _ w r hit
    obtain ⟨x, hm, hx⟩ := List.exists_of_findSome?_eq_some hit
    rw [trace_walks, putRecord_walks] at hm
    obtain ⟨y, hy, -⟩ := Option.map_eq_some_iff.1 hx
    have other := hw x hm y (List.mem_of_find?_eq_some hy)
    have hit' := List.find?_some hy
    cases y with
    | launch n k a => exact absurd (by rw [beq_iff_eq.1 hit']) (other n a)
    | _ => exact Bool.noConfusion hit'

/-- Each event of a context or of a launch. -/
theorem launchEvent_next {s : State} {i : Instr} {t : State} (h : LaunchEvent s i t) : exec i s = .next t := by
  cases h with
  | killRequest ctx l h => exact killRequest_kills h
  | exhausted ctx c h hb hu => exact budgetExhausted_marks h hb hu
  | unlimited ctx h => exact budgetExhausted_unlimited h
  | period ctx c h hd hw => exact periodStart_begins h hd hw
  | noPeriod ctx c h hd => exact periodStart_waits h hd
  | used ctx c h hu hw => exact usedUpdate_adds h hu hw
  | quiet ctx c x r h hr hw => exact watchdogExpiry_quiet h hr hw
  | hang ctx c t l h hr hw ht hg => exact watchdogExpiry_hangs h hr hw ht hg
  | record l h hr =>
    show execLaunchRecordUpdate l.id s = _
    unfold execLaunchRecordUpdate
    rw [h]
    exact congrArg Host.Outcome.next (if_pos hr)
  | notOver l h ho => exact launchCompletion_waits h ho
  | ended l h ho hr hw => exact launchCompletion_completes h ho hr hw

end Sys2Proof.Proofs.Scheduler
end

section
/-!
SUPPORT. The nodes of a graph (21 R401, R402): what each node that a walk has reached does, and where the walk goes on.
-/

namespace Sys2Proof.Proofs.GraphNodes

open Machine Claims Laws

/-! ### Ends of a walk -/

/-- A walk past its last node ends. -/
theorem endNode_fallsOff {s : State} {w : Walk} {nn : Nat} (h : s.walk? w.id = some w)
    (hr : w.ready = true ∧ s.posted w.acked = true) (hh : s.graphRead w w.graph.base 4 = some nn)
    (hn : nn % 2 ^ 11 ≤ w.node) : exec (.endNode w.id) s = .next (s.endWalk w) := by
  have ready : s.walkReady w = true := by
    unfold State.walkReady
    rw [hr.1, hr.2]
    rfl
  show execEndNode w.id s = _
  unfold execEndNode
  rw [h]
  dsimp only
  rw [ready, hh]
  refine (if_neg Bool.false_ne_true).trans ?_
  exact if_pos (decide_eq_true hn)

/-- A walk that has reached a node is not past its last one. -/
theorem endNode_atNode {s v : State} {w : Walk} {k nn : Nat} {a : Bool} (h : Reaches s w k a nn v) :
    exec (.endNode w.id) s = s.atNode w.id (fun k => k == 0 || 6 < k) fun h s => s.endWalk h.w := by
  have ready : s.walkReady w = true := by
    unfold State.walkReady
    rw [h.ready.1, h.ready.2]
    rfl
  show execEndNode w.id s = _
  unfold execEndNode
  rw [h.there]
  dsimp only
  rw [ready, h.header]
  refine (if_neg Bool.false_ne_true).trans ?_
  refine if_neg ?_
  rw [Option.any_some, decide_eq_true_eq, Nat.not_le]
  exact h.inside

/-! ### Launch and copy nodes -/

/-- The scheduling context of a launch node: its own, or the submitter's where that is null. -/
theorem ownContext_eq (own sctx : Cap) : (if own.isNull then sctx else own) = if own = .null then sctx else own := by
  unfold Cap.isNull
  simp only [beq_iff_eq]

theorem submit_accepted {s : State} {ctx : Nat} {x : Cap} {d : Descriptor} {b : Submitter}
    (h : s.launchStatus ctx d = 0) {α : Type} (p q : α) : (if (s.submit ctx x d b).2 ≠ 0 then p else q) = q :=
  if_neg (not_not_intro (submit_ok h))

theorem launchNode_submits {s v v1 v2 : State} {w : Walk} {a : Bool} {nn ctx o : Nat} {g own sctx : Cap}
    {ps : List Piece} (h : Reaches s w 1 a nn v) (h1 : v.graphCap w (w.nodeAt w.node 4) = some g)
    (h2 : v.graphCap w (w.nodeAt w.node 8) = some own) (h3 : v.graphCap w (w.graph.base + 16) = some sctx)
    (hg : g.checkPlain [permLD] g.addr 512 64 = none) (hc : ctxCheck (if own = .null then sctx else own) = none)
    (hx : v.xlatePieces w.who (g.want false) [] (piecesOf (g.addr, 512)) = .ok v1 ps)
    (hd : v1.devXlate w.who ((if own = .null then sctx else own).want false) (if own = .null then sctx else own).base
      = .ok v2 ctx o)
    (hs : v2.launchStatus ctx (v2.readDescriptor ps) = 0) :
    exec (.launchNode w.id) s = .next
      (nodeRuns (v2.submit ctx (if own = .null then sctx else own) (v2.readDescriptor ps)
        ⟨w.space, w.pid, w.tid, none, none⟩).1 w (.launch w.node v2.nextLaunch a)) := by
  show execLaunchNode w.id s = _
  unfold execLaunchNode
  rw [atNode_reaches h rfl]
  dsimp only
  rw [h1, h2, h3]
  dsimp only
  rw [ownContext_eq, hg, hc]
  dsimp only
  rw [hx]
  dsimp only
  rw [hd]
  dsimp only
  rw [submit_accepted hs]
  rfl

theorem copyNode_runs {s v v1 : State} {w : Walk} {a : Bool} {nn : Nat} {c : Cap} {ps : List Piece}
    (h : Reaches s w 2 a nn v) (h1 : v.graphCap w (w.nodeAt w.node 4) = some c)
    (hc : c.checkPlain [permLD] c.addr 64 16 = none)
    (hx : v.xlatePieces w.who (c.want false) [] (piecesOf (c.addr, 64)) = .ok v1 ps)
    (hz : bits (cw (v1.nodeCommand c ps).1 8) 16 5 = 0 ∧ bits (cw (v1.nodeCommand c ps).1 8) 10 2 = 0)
    (hk : copyCheck (0, 0) (v1.nodeCommand c ps).1 (v1.nodeCommand c ps).2 = none) :
    exec (.copyNode w.id) s = .next
      (nodeRuns { v1 with
        cmds := v1.cmds ++ [graphCommand v1 w (v1.nodeCommand c ps).1 (v1.nodeCommand c ps).2]
        nextCmd := v1.nextCmd + 1 } w (.copy w.node v1.nextCmd a)) := by
  have clear : field (cw (v1.nodeCommand c ps).1 8) 16 5 = 0 ∧ field (cw (v1.nodeCommand c ps).1 8) 10 2 = 0 := hz
  show execCopyNode w.id s = _
  unfold execCopyNode
  rw [atNode_reaches h rfl]
  dsimp only
  rw [h1]
  dsimp only
  rw [hc]
  dsimp only
  rw [hx]
  dsimp only
  rw [clear.1, clear.2, hk]
  rfl

/-! ### Loop, conditional and wait nodes -/

/-- A loop goes round again while its test holds and fewer passes than its limit are done, 0 being no limit. -/
theorem goesRound_iff (b : Bool) (mx it : Nat) :
    (b && (mx == 0 || it < mx)) = true ↔ b = true ∧ (mx = 0 ∨ it < mx) := by
  simp

theorem loopNode_goes {s v v1 v2 : State} {w : Walk} {a b : Bool} {nn t mx it : Nat} (h : Reaches s w 3 a nn v)
    (h1 : NodeWord v w 1 t) (ht : t < w.node) (hb : v.nodeTest w w.node = .is v1 b) (h2 : NodeWord v1 w 2 mx)
    (h3 : NodeWord v1 w 3 it)
    (hw : v1.graphWrite w (w.graph.base + 64 + 64 * w.node + 12) 4
      (if b = true ∧ (mx = 0 ∨ it < mx) then it + 1 else 0) = some v2) :
    exec (.loopNode w.id) s = .next (walkTo v2 w (if b = true ∧ (mx = 0 ∨ it < mx) then t else w.node + 1)) := by
  show execLoopNode w.id s = _
  unfold execLoopNode
  rw [atNode_reaches h rfl]
  dsimp only
  rw [show v.graphRead w (w.nodeAt w.node 1) 4 = some t from h1]
  dsimp only
  rw [if_neg (Nat.not_le.2 ht), hb]
  dsimp only
  rw [show v1.graphRead w (w.nodeAt w.node 2) 4 = some mx from h2,
    show v1.graphRead w (w.nodeAt w.node 3) 4 = some it from h3]
  simp only [goesRound_iff]
  rw [show v1.graphWrite w (w.nodeAt w.node 3) 4 _ = some v2 from hw]
  rfl

/-- What a conditional node whose target lies behind it comes to. -/
theorem conditionalNode_goes {s v v1 : State} {w : Walk} {a b : Bool} {nn t : Nat} (h : Reaches s w 4 a nn v)
    (h1 : NodeWord v w 1 t) (ht : w.node < t) (hb : v.nodeTest w w.node = .is v1 b) :
    exec (.conditionalNode w.id) s = .next (walkTo v1 w (if b then t else w.node + 1)) := by
  show execConditionalNode w.id s = _
  unfold execConditionalNode
  rw [atNode_reaches h rfl]
  dsimp only
  rw [show v.graphRead w (w.nodeAt w.node 1) 4 = some t from h1]
  dsimp only
  rw [if_neg (Nat.not_le.2 ht), hb]
  rfl

theorem conditionalNode_fails {s v : State} {w : Walk} {a : Bool} {nn t : Nat} (h : Reaches s w 4 a nn v)
    (h1 : NodeWord v w 1 t) (ht : t ≤ w.node) :
    exec (.conditionalNode w.id) s = .next (v.failNode w w.node 0x01 false) := by
  show execConditionalNode w.id s = _
  unfold execConditionalNode
  rw [atNode_reaches h rfl]
  dsimp only
  rw [show v.graphRead w (w.nodeAt w.node 1) 4 = some t from h1]
  dsimp only
  rw [if_pos ht]

/-- A wait node whose test holds is done; any other runs, to test again. -/
theorem waitNode_tests {s v v1 : State} {w : Walk} {a b : Bool} {nn : Nat} (h : Reaches s w 5 a nn v)
    (hb : v.nodeTest w w.node = .is v1 b) :
    exec (.waitNode w.id) s = .next (if b then walkTo v1 w (w.node + 1) else nodeRuns v1 w (.test w.node a)) := by
  show execWaitNode w.id s = _
  unfold execWaitNode
  rw [atNode_reaches h rfl]
  dsimp only
  rw [hb]
  rfl

/-! ### Wait nodes that test again -/

/-- One step of the list of wait nodes: the node tests again while the walk is still there. -/
def testAgain (w : Walk) (s : State) (x : Nat × NodeRun) : State :=
  if (s.walk? w.id).isSome then s.retest w x else s

/-- The runs of a list that are wait nodes. -/
def waits (l : List NodeRun) : List (Nat × NodeRun) :=
  l.filterMap fun r => match r with
    | .test n a => some (n, .test n a)
    | _ => none

theorem waitNodeRetest_folds {s : State} {w : Walk} (h : s.walk? w.id = some w) :
    exec (.waitNodeRetest w.id) s = .next ((waits w.running).foldl (testAgain w) s) := by
  show execWaitNodeRetest w.id s = _
  unfold execWaitNodeRetest
  rw [h]
  rfl

theorem testAgain_is {s s1 : State} {w : Walk} {n : Nat} {a b : Bool} (hw : (s.walk? w.id).isSome = true)
    (ht : s.graphTouch w n = none) (hb : s.nodeTest w n = .is s1 b) :
    testAgain w s (n, .test n a) = if b then s1.endRun w (.test n a) else s1 := by
  unfold testAgain State.retest
  rw [if_pos hw]
  dsimp only
  rw [ht]
  dsimp only
  rw [hb]

theorem testAgain_gone {s : State} {w : Walk} (x : Nat × NodeRun) (hw : s.walk? w.id = none) :
    testAgain w s x = s := by
  unfold testAgain
  rw [hw]
  rfl

theorem waits_other {r : NodeRun} (l : List NodeRun) (h : ∀ n a, r ≠ .test n a) : waits (r :: l) = waits l := by
  cases r with
  | test n a => exact absurd rfl (h n a)
  | _ => rfl

/-- The wait nodes of a list test again one after another, as the walk's list says. -/
theorem retests_fold {w : Walk} {l : List NodeRun} {s t : State} (h : Retests w l s t) :
    (waits l).foldl (testAgain w) s = t := by
  induction h with
  | done s => rfl
  | other r l s t hr h ih => rw [waits_other l hr, ih]
  | gone n a l s t hw h ih =>
    show (waits l).foldl (testAgain w) (testAgain w s (n, .test n a)) = t
    rw [testAgain_gone _ hw, ih]
  | holds n a l s s1 t hw ht hb h ih =>
    show (waits l).foldl (testAgain w) (testAgain w s (n, .test n a)) = t
    rw [testAgain_is hw ht hb, if_pos rfl, ih]
  | fails n a l s s1 t hw ht hb h ih =>
    show (waits l).foldl (testAgain w) (testAgain w s (n, .test n a)) = t
    rw [testAgain_is hw ht hb, if_neg Bool.false_ne_true, ih]

/-! ### Signal nodes -/

theorem signalNode_signals {s v v1 : State} {w : Walk} {a : Bool} {nn x pa o : Nat} {c : Cap} (h : Reaches s w 6 a nn v)
    (h1 : v.graphCap w (w.nodeAt w.node 4) = some c) (h2 : NodeWord v w 9 x) (hs : c.sealType = 4)
    (hc : c.checkObject 4 [permST] = none) (hx : v.devXlate w.who (c.want true) c.base = .ok v1 pa o) :
    exec (.signalNode w.id) s = .next (walkTo (v1.signalLine pa) w (w.node + 1)) := by
  show execSignalNode w.id s = _
  unfold execSignalNode
  rw [atNode_reaches h rfl]
  dsimp only
  rw [h1, show v.graphRead w (w.nodeAt w.node 9) 4 = some x from h2]
  dsimp only
  rw [if_pos hs, hc]
  dsimp only
  rw [hx]
  rfl

theorem signalNode_stores {s v v1 : State} {w : Walk} {a : Bool} {nn x r : Nat} {c : Cap} (h : Reaches s w 6 a nn v)
    (h1 : v.graphCap w (w.nodeAt w.node 4) = some c) (h2 : NodeWord v w 9 x) (hs : c.sealType ≠ 4)
    (hc : c.check [permST] c.addr 4 4 = none) (hx : v.devWrite w.who (c.want true) c.addr 4 x = .ok v1 r) :
    exec (.signalNode w.id) s = .next (walkTo v1 w (w.node + 1)) := by
  show execSignalNode w.id s = _
  unfold execSignalNode
  rw [atNode_reaches h rfl]
  dsimp only
  rw [h1, show v.graphRead w (w.nodeAt w.node 9) 4 = some x from h2]
  dsimp only
  rw [if_neg hs, hc]
  dsimp only
  rw [hx]
  rfl

/-- Each node that a walk has reached. -/
theorem nodeEvent_next {s : State} {i : Instr} {t : State} (h : NodeEvent s i t) : exec i s = .next t := by
  cases h with
  | fallsOff w nn h hr hh hn => exact endNode_fallsOff h hr hh hn
  | ends w a nn v h => exact (endNode_atNode h).trans (atNode_reaches h rfl _)
  | launch w a nn ctx o v v1 v2 g own sctx ps h h1 h2 h3 hg hc hx hd hs =>
    exact launchNode_submits h h1 h2 h3 hg hc hx hd hs
  | copy w a nn v v1 c ps h h1 hc hx hz hk => exact copyNode_runs h h1 hc hx hz hk
  | loop w a b nn t mx it v v1 v2 h h1 ht hb h2 h3 hw => exact loopNode_goes h h1 ht hb h2 h3 hw
  | conditional w a b nn t v v1 h h1 ht hb => exact conditionalNode_goes h h1 ht hb
  | badTarget w a nn t v h h1 ht => exact conditionalNode_fails h h1 ht
  | waitHolds w a nn v v1 h hb => exact waitNode_tests h hb
  | waitRuns w a nn v v1 h hb => exact waitNode_tests h hb
  | retest w t h hr => rw [waitNodeRetest_folds h, retests_fold hr]
  | signalLine w a nn x pa o v v1 c h h1 h2 hs hc hx => exact signalNode_signals h h1 h2 hs hc hx
  | signalStore w a nn x r v v1 c h h1 h2 hs hc hx => exact signalNode_stores h h1 h2 hs hc hx

/-- Settles O43: the events of the scheduler's teams, of contexts and launches, and the nodes of graphs, one by one. -/
theorem schedulerEvents : Obligations.SchedulerEvents := by
  unfold Obligations.SchedulerEvents
  intro s i t h
  rcases h with h | h | h
  · exact Scheduler.teamEvent_next h
  · exact Scheduler.launchEvent_next h
  · exact nodeEvent_next h

end Sys2Proof.Proofs.GraphNodes
end
